-- ==== Sys2Proof/Word.lean ====
section
/-! DEFINITION. The word types of the machine (R3, R19, R189) and nothing that could need mending. -/

namespace Sys2Proof

/-- A byte of memory. -/
abbrev Byte := BitVec 8
/-- An instruction word (R58, R191). -/
abbrev Word := BitVec 32
/-- An integer belt slot, a named register, a pointer register (R19). -/
abbrev W64 := BitVec 64
/-- A vector belt slot (R19). -/
abbrev W128 := BitVec 128
/-- A vector register of a rank (R189). -/
abbrev W256 := BitVec 256

end Sys2Proof
end

