-- ==== Sys2Proof/Config.lean ====
section
/-! DEFINITION. What the manual leaves to an implementation or leaves open: uninterpreted constants with no body, so that
nothing can be proved of their values. -/

namespace Sys2Proof

/-- The syndrome of the n-th error record (R343 gives the field and no value); log 5. -/
opaque Config.syndrome : Nat → BitVec 64
/-- The scale of a K block that holds a NaN (R52 gives its elements and no scale), by block; log 5. -/
opaque Config.freeScale : Nat → BitVec 8
/-- A byte of a block read under another key than it was encrypted with: by cell, the two key draws, and the block (R306); log 5. -/
opaque Config.otherKey : Nat → Nat → Nat → Nat → BitVec 8
/-- A value that a record of the device holds and the spec does not state, by occasion; log 5. -/
opaque Config.freeAddr : Nat → BitVec 64
/-- The cache line or cached translation that a full cache loses, by occasion (R217, R288 leave it open); log 5. -/
opaque Config.victim : Nat → Nat
/-- What a core reads at a scratchpad of another VD, by occasion (R216 says only that it never sees the data); log 58. -/
opaque Config.foreignSpm : Nat → BitVec 64
/-- Words that a lazy instruction has drawn when it is stopped (R132), by occasion; log 5. -/
opaque Config.lazyDrawn : Nat → Nat
/-- The address names an interrupt file of the application die (R311 gives the files no addresses); log 5. -/
opaque Config.namesFile : BitVec 64 → Bool
/-- A lost package holds a duplicate of the page that a revocation is about, by occasion (R293 gives the holders' pagers the list);
log 5. -/
opaque Config.holderLost : Nat → Bool
/-- Courses of the local stages of a COLL that spans packages (R327, R372 give no number), by command; log 5. -/
opaque Config.stageCourses : Nat → Nat
/-- The port through which another package is reached; taken mod 16 (R337). -/
opaque Config.linkPort : Nat → Nat
/-- Every switch on every path between the packages of a group declared reduction at link training (R325, R329). -/
opaque Config.pathReduces : Nat → Bool
/-- A byte of another package's memory, by physical address and read, where the device reads a descriptor, a parameter
block or an image there (R178, R274). -/
opaque Config.farByte : Nat → Nat → BitVec 8
/-- AES-256-GCM (R326 names it and does not define it): by key and its replacements and by nonce, the bytes that encrypt a payload, and
by header and payload as well the 16-byte tag. -/
opaque Config.gcmStream : Nat → Nat → BitVec 96 → Nat → BitVec 8
opaque Config.gcmTag : Nat → Nat → BitVec 96 → List (BitVec 8) → List (BitVec 8) → BitVec 128
/-- SHA-384, used by R350 and R351; the manual names it and does not define it. -/
opaque Config.sha384 : List (BitVec 8) → BitVec 384
/-- Verification of an ECDSA P-384 signature under the vendor key of mask ROM (R350). -/
opaque Config.ecdsaGood : List (BitVec 8) → BitVec 768 → Bool
/-- Verification of an LMS signature under the vendor key of mask ROM (R350). -/
opaque Config.lmsGood : List (BitVec 8) → List (BitVec 8) → Bool
/-- The digest of mask ROM (R351). -/
opaque Config.maskRomDigest : BitVec 384
/-- A signature, by the value of M1 that the alias key is derived from, of a transcript (R352, R353). -/
opaque Config.aliasSign : BitVec 384 → List (BitVec 8) → BitVec 768
/-- A signature of the device LMS key over a transcript, by the signatures its private state has made before (R352, R353). -/
opaque Config.lmsSign : Nat → List (BitVec 8) → List (BitVec 8)
/-- The public alias key that belongs to a value of M1 (R352). -/
opaque Config.aliasKey : BitVec 384 → BitVec 768
/-- A signature of the device identity key: over the numbers of an almanac copy, and over a public alias key (R352). -/
opaque Config.identitySign : List Nat → BitVec 768
opaque Config.identityCertifies : BitVec 768 → BitVec 768
/-- The SHA-384 of an almanac copy, by what it holds (R347, R351 give the copy no byte layout). -/
opaque Config.almanacDigest : List Nat → BitVec 384
/-- The certificate chain the responder returns, by the alias key and the signature of the identity key over it, and its length (R353). -/
opaque Config.certChain : BitVec 768 → BitVec 768 → Nat → BitVec 8
opaque Config.certLen : Nat
/-- The parameters that the responder's CAPABILITIES message carries (R353). -/
opaque Config.spdmParams : Nat → List (BitVec 8)
/-- Bytes of configuration space of an endpoint function (R349 gives none). -/
opaque Config.configSpace : Nat → Nat → BitVec 64
/-- The responder's key share, the session key and the check of a FINISH message (R353). -/
opaque Config.keyShare : Nat → BitVec 768
opaque Config.sessionKey : Nat → BitVec 768 → BitVec 384
opaque Config.finishGood : BitVec 384 → BitVec 384 → Bool
/-- AES-256-GCM of the messages of a session (R353): by session key and message number, the bytes that encrypt it, and with the message the
16-byte tag. -/
opaque Config.sessionStream : BitVec 384 → Nat → Nat → BitVec 8
opaque Config.sessionTag : BitVec 384 → Nat → List (BitVec 8) → BitVec 128

end Sys2Proof
end

