-- ==== Sys2Proof/Syntax.lean ====
section
/-! DEFINITION. The steps of the machine, one constructor per row of spec/opcode_table.json: the Soras
instructions (R59 to R73), the Melwen instructions (R191 to R193) and the events of the package, which have
no encoding. A Soras or Melwen constructor carries exactly the fields that the table leaves free in its row. -/

namespace Sys2Proof

/-- The kinds of access a page-table walk distinguishes (R287). -/
inductive AccessKind where
  | load | store | atomic | fetch
  deriving DecidableEq, Repr

/-- The reader that an uncorrectable error reaches (R342). -/
inductive ErrorReader where
  | context (core ctx : Nat)
  | engine (core ctx : Nat)
  | rank (rank : Nat)
  | none
  deriving DecidableEq, Repr

/-- An uncorrectable error as the checking unit reports it, with the fields of the record of R343. -/
structure ErrorReport where
  vd       : Nat
  addr     : BitVec 64
  pc       : BitVec 64
  source   : BitVec 8
  kind     : BitVec 8
  syndrome : BitVec 32
  reader   : ErrorReader
  deriving DecidableEq, Repr

/-- A unit whose aging or error count calls for a spare (R345). -/
inductive SpareUnit where
  | core (curve : Nat)
  | mu (mg : Nat)
  | bank (rank : Nat)
  | row (rank row : Nat)
  | lane (port : Nat)
  deriving DecidableEq, Repr

/-- The two paths on which SPDM requests arrive (R353). -/
inductive SpdmPath where
  | i3c | doe
  deriving DecidableEq, Repr

/-- What an ATOMIC or UPDATE packet asks the home to do (R145, R147); `none` for the other classes. -/
inductive PacketOp where
  | none
  | atom (op : BitVec 4) (expected : BitVec 64)
  | upd (type op : BitVec 3)
  deriving DecidableEq, Repr

/-- A Kenavat Link packet: the header of R324, the second header of a collective step, and the request it
carries. R324 gives no layout for the address inside a payload, so the model carries it as a field. -/
structure Packet where
  vc      : BitVec 8
  domain  : BitVec 16
  src     : BitVec 16
  dst     : BitVec 16
  seq     : BitVec 32
  len     : BitVec 16
  pa      : BitVec 52
  size    : Nat
  op      : PacketOp
  data    : BitVec 4096
  ident   : Nat
  tagGood : Bool
  group   : BitVec 32
  tag     : BitVec 32
  alpha   : BitVec 16
  dtype   : BitVec 8
  redop   : BitVec 8
  contrib : BitVec 16
  step    : BitVec 16
  records : List (BitVec 128)
  deriving DecidableEq, Repr

/-- An access of an application core to package memory or to a launch queue (R273). -/
inductive AppOp where
  | load (pa : BitVec 52) (len : Nat)
  | store (pa : BitVec 52) (len : Nat) (data : BitVec 64)
  | launch (vd q : Nat) (va : BitVec 64)
  deriving DecidableEq, Repr

/-- A firmware image as it lies in a flash slot (R350). -/
structure FlashImage where
  magic   : BitVec 32
  type    : BitVec 16
  zero    : BitVec 16
  svn     : BitVec 32
  length  : BitVec 32
  digest  : BitVec 384
  ecdsa   : BitVec 768
  lms     : List (BitVec 8)
  body    : List (BitVec 8)
  deriving DecidableEq, Repr

/-- One constructor per row of spec/opcode_table.json. Field names are the table's: `s` the stall count, `w` the
width field, `d a b` operand fields, and so on (R59). -/
inductive Instr where
  /-- ADD (R76): Adds the parts of A and B modulo 2^64 and delivers the result to D. -/
  | add (s : BitVec 3) (w : BitVec 2) (d : BitVec 5) (a : BitVec 5) (b : BitVec 5)
  /-- SUB (R76): Subtracts B from A part by part, wrapping modulo 2^64. -/
  | sub (s : BitVec 3) (w : BitVec 2) (d : BitVec 5) (a : BitVec 5) (b : BitVec 5)
  /-- AND (R76): Bitwise AND of the parts of A and B. -/
  | and (s : BitVec 3) (w : BitVec 2) (d : BitVec 5) (a : BitVec 5) (b : BitVec 5)
  /-- OR (R76): Bitwise OR of the parts of A and B. -/
  | or (s : BitVec 3) (w : BitVec 2) (d : BitVec 5) (a : BitVec 5) (b : BitVec 5)
  /-- XOR (R76): Bitwise exclusive OR of the parts of A and B. -/
  | xor (s : BitVec 3) (w : BitVec 2) (d : BitVec 5) (a : BitVec 5) (b : BitVec 5)
  /-- ANDN (R76): Computes a AND NOT b for each part. -/
  | andn (s : BitVec 3) (w : BitVec 2) (d : BitVec 5) (a : BitVec 5) (b : BitVec 5)
  /-- ORN (R76): Computes a OR NOT b for each part. -/
  | orn (s : BitVec 3) (w : BitVec 2) (d : BitVec 5) (a : BitVec 5) (b : BitVec 5)
  /-- SHL (R76): Shifts each part of A left by b mod 64, with zeros in. -/
  | shl (s : BitVec 3) (w : BitVec 2) (d : BitVec 5) (a : BitVec 5) (b : BitVec 5)
  /-- SHR (R76): Shifts each part of A right by b mod 64, with zeros in. -/
  | shr (s : BitVec 3) (w : BitVec 2) (d : BitVec 5) (a : BitVec 5) (b : BitVec 5)
  /-- SAR (R76): Shifts each signed part of A right by b mod 64, with the sign in. -/
  | sar (s : BitVec 3) (w : BitVec 2) (d : BitVec 5) (a : BitVec 5) (b : BitVec 5)
  /-- ROL (R76): Rotates each part of A left by b mod 64. -/
  | rol (s : BitVec 3) (w : BitVec 2) (d : BitVec 5) (a : BitVec 5) (b : BitVec 5)
  /-- ROR (R76): Rotates each part of A right by b mod 64. -/
  | ror (s : BitVec 3) (w : BitVec 2) (d : BitVec 5) (a : BitVec 5) (b : BitVec 5)
  /-- MUL (R76): Delivers the low 64 bits of a × b with latency 3. -/
  | mul (s : BitVec 3) (w : BitVec 2) (d : BitVec 5) (a : BitVec 5) (b : BitVec 5)
  /-- MULH (R76): Delivers the high 64 bits of the signed 128-bit product. -/
  | mulh (s : BitVec 3) (w : BitVec 2) (d : BitVec 5) (a : BitVec 5) (b : BitVec 5)
  /-- MULHU (R76): Delivers the high 64 bits of the unsigned 128-bit product. -/
  | mulhu (s : BitVec 3) (w : BitVec 2) (d : BitVec 5) (a : BitVec 5) (b : BitVec 5)
  /-- DIV (R77): Signed division truncated toward zero, interlocked, never trapping. -/
  | div (s : BitVec 3) (w : BitVec 2) (d : BitVec 5) (a : BitVec 5) (b : BitVec 5)
  /-- DIVU (R77): Unsigned division, interlocked, with a zero divisor giving all ones. -/
  | divu (s : BitVec 3) (w : BitVec 2) (d : BitVec 5) (a : BitVec 5) (b : BitVec 5)
  /-- REM (R77): Signed remainder with the sign of the dividend. -/
  | rem (s : BitVec 3) (w : BitVec 2) (d : BitVec 5) (a : BitVec 5) (b : BitVec 5)
  /-- REMU (R77): Unsigned remainder, giving the dividend for a zero divisor. -/
  | remu (s : BitVec 3) (w : BitVec 2) (d : BitVec 5) (a : BitVec 5) (b : BitVec 5)
  /-- MIN (R76): Signed minimum of each part. -/
  | min (s : BitVec 3) (w : BitVec 2) (d : BitVec 5) (a : BitVec 5) (b : BitVec 5)
  /-- MAX (R76): Signed maximum of each part. -/
  | max (s : BitVec 3) (w : BitVec 2) (d : BitVec 5) (a : BitVec 5) (b : BitVec 5)
  /-- MINU (R76): Unsigned minimum of each part. -/
  | minu (s : BitVec 3) (w : BitVec 2) (d : BitVec 5) (a : BitVec 5) (b : BitVec 5)
  /-- MAXU (R76): Unsigned maximum of each part. -/
  | maxu (s : BitVec 3) (w : BitVec 2) (d : BitVec 5) (a : BitVec 5) (b : BitVec 5)
  /-- CEQ (R76): Delivers 1 when a equals b, else 0. -/
  | ceq (s : BitVec 3) (w : BitVec 2) (d : BitVec 5) (a : BitVec 5) (b : BitVec 5)
  /-- CNE (R76): Delivers 1 when a differs from b, else 0. -/
  | cne (s : BitVec 3) (w : BitVec 2) (d : BitVec 5) (a : BitVec 5) (b : BitVec 5)
  /-- CLT (R76): Delivers 1 when a < b signed, else 0. -/
  | clt (s : BitVec 3) (w : BitVec 2) (d : BitVec 5) (a : BitVec 5) (b : BitVec 5)
  /-- CLTU (R76): Delivers 1 when a < b unsigned, else 0. -/
  | cltu (s : BitVec 3) (w : BitVec 2) (d : BitVec 5) (a : BitVec 5) (b : BitVec 5)
  /-- CLE (R76): Delivers 1 when a ≤ b signed, else 0. -/
  | cle (s : BitVec 3) (w : BitVec 2) (d : BitVec 5) (a : BitVec 5) (b : BitVec 5)
  /-- CLEU (R76): Delivers 1 when a ≤ b unsigned, else 0. -/
  | cleu (s : BitVec 3) (w : BitVec 2) (d : BitVec 5) (a : BitVec 5) (b : BitVec 5)
  /-- SEL (R76): Selects a or b by integer b0 at issue. -/
  | sel (s : BitVec 3) (w : BitVec 2) (d : BitVec 5) (a : BitVec 5) (b : BitVec 5)
  /-- CLZ (R76): Counts the leading zero bits of each part. -/
  | clz (s : BitVec 3) (w : BitVec 2) (d : BitVec 5) (a : BitVec 5)
  /-- CTZ (R76): Counts the trailing zero bits of each part. -/
  | ctz (s : BitVec 3) (w : BitVec 2) (d : BitVec 5) (a : BitVec 5)
  /-- POPC (R76): Counts the set bits of each part. -/
  | popc (s : BitVec 3) (w : BitVec 2) (d : BitVec 5) (a : BitVec 5)
  /-- BREV (R76): Reverses the bit order of each part. -/
  | brev (s : BitVec 3) (w : BitVec 2) (d : BitVec 5) (a : BitVec 5)
  /-- BSWAP (R76): Reverses the byte order of each part. -/
  | bswap (s : BitVec 3) (w : BitVec 2) (d : BitVec 5) (a : BitVec 5)
  /-- MOV (R78): Copies A to D, moving whole fat pointers for pointer codes. -/
  | mov (s : BitVec 3) (w : BitVec 2) (d : BitVec 5) (a : BitVec 5)
  /-- ADDI (R79): Adds the sign-extended 11-bit immediate to each part of A. -/
  | addi (s : BitVec 3) (w : BitVec 2) (d : BitVec 5) (a : BitVec 5) (i : BitVec 11)
  /-- ANDI (R79): ANDs each part with the zero-extended immediate. -/
  | andi (s : BitVec 3) (w : BitVec 2) (d : BitVec 5) (a : BitVec 5) (i : BitVec 11)
  /-- ORI (R79): ORs each part with the zero-extended immediate. -/
  | ori (s : BitVec 3) (w : BitVec 2) (d : BitVec 5) (a : BitVec 5) (i : BitVec 11)
  /-- XORI (R79): XORs each part with the zero-extended immediate. -/
  | xori (s : BitVec 3) (w : BitVec 2) (d : BitVec 5) (a : BitVec 5) (i : BitVec 11)
  /-- SHLI (R79): Shifts each part left by an immediate amount. -/
  | shli (s : BitVec 3) (w : BitVec 2) (d : BitVec 5) (a : BitVec 5) (n : BitVec 6)
  /-- SHRI (R79): Shifts each part right by an immediate amount, zeros in. -/
  | shri (s : BitVec 3) (w : BitVec 2) (d : BitVec 5) (a : BitVec 5) (n : BitVec 6)
  /-- SARI (R79): Shifts each part arithmetically right by an immediate amount. -/
  | sari (s : BitVec 3) (w : BitVec 2) (d : BitVec 5) (a : BitVec 5) (n : BitVec 6)
  /-- ROLI (R79): Rotates each part left by an immediate amount. -/
  | roli (s : BitVec 3) (w : BitVec 2) (d : BitVec 5) (a : BitVec 5) (n : BitVec 6)
  /-- CEQI (R79): Delivers 1 when a equals the sign-extended immediate. -/
  | ceqi (s : BitVec 3) (w : BitVec 2) (d : BitVec 5) (a : BitVec 5) (i : BitVec 11)
  /-- CLTI (R79): Delivers 1 when a is signed-less than the immediate. -/
  | clti (s : BitVec 3) (w : BitVec 2) (d : BitVec 5) (a : BitVec 5) (i : BitVec 11)
  /-- CLTUI (R79): Delivers 1 when a is unsigned-less than the extended immediate. -/
  | cltui (s : BitVec 3) (w : BitVec 2) (d : BitVec 5) (a : BitVec 5) (i : BitVec 11)
  /-- BFX (R80): Extracts a bit field of A, zero-extended. -/
  | bfx (s : BitVec 3) (d : BitVec 5) (a : BitVec 5) (p : BitVec 6) (l : BitVec 5)
  /-- BFI (R80): Inserts the low bits of A into a field of named register nD. -/
  | bfi (s : BitVec 3) (d : BitVec 5) (a : BitVec 5) (p : BitVec 6) (l : BitVec 5)
  /-- LDK (R81): Delivers the sign-extended 16-bit immediate. -/
  | ldk (s : BitVec 3) (d : BitVec 5) (i : BitVec 16)
  /-- LDKH (R81): Delivers integer b0 shifted left 16 ORed with the immediate. -/
  | ldkh (s : BitVec 3) (d : BitVec 5) (i : BitVec 16)
  /-- ADPC (R81): Delivers the instruction address plus four times the immediate. -/
  | adpc (s : BitVec 3) (d : BitVec 5) (i : BitVec 16)
  /-- PADD (R83): Writes a pointer with ADDR advanced by a byte count. -/
  | padd (s : BitVec 3) (d : BitVec 5) (a : BitVec 5) (b : BitVec 5)
  /-- PADDE (R83): Writes a pointer advanced by element units of its format. -/
  | padde (s : BitVec 3) (d : BitVec 5) (a : BitVec 5) (b : BitVec 5)
  /-- PSUBE (R83): Delivers the difference of two pointers in element units. -/
  | psube (s : BitVec 3) (d : BitVec 5) (a : BitVec 5) (b : BitVec 5)
  /-- PFMT (R83): Replaces the FMT, BLK and NIB fields of a pointer. -/
  | pfmt (s : BitVec 3) (d : BitVec 5) (a : BitVec 5) (b : BitVec 5)
  /-- PGETF (R83): Delivers a pointer's FMT, BLK and NIB fields. -/
  | pgetf (s : BitVec 3) (d : BitVec 5) (a : BitVec 5)
  /-- PGETB (R83): Delivers a pointer's block or group length. -/
  | pgetb (s : BitVec 3) (d : BitVec 5) (a : BitVec 5)
  /-- PSET (R83): Writes a pointer with a new ADDR. -/
  | pset (s : BitVec 3) (d : BitVec 5) (a : BitVec 5) (b : BitVec 5)
  /-- PSTR (R83): Sets the stride register of the named pointer. -/
  | pstr (s : BitVec 3) (a : BitVec 5) (b : BitVec 5)
  /-- PGETA (R83): Delivers a pointer's ADDR zero-extended. -/
  | pgeta (s : BitVec 3) (d : BitVec 5) (a : BitVec 5)
  /-- PADDI (R84): Writes a pointer with ADDR increased by an immediate. -/
  | paddi (s : BitVec 3) (d : BitVec 5) (a : BitVec 5) (i : BitVec 11)
  /-- BR (R85): Tests A under COND and branches by a 15-bit displacement. -/
  | br (s : BitVec 3) (c : BitVec 3) (a : BitVec 5) (i : BitVec 15)
  /-- JMP (R86): Branches by a 23-bit displacement. -/
  | jmp (s : BitVec 3) (i : BitVec 23)
  /-- CALL (R86): Branches by a 23-bit displacement and writes the link to n7. -/
  | call (s : BitVec 3) (i : BitVec 23)
  /-- JMPI (R86): Branches to the value of A. -/
  | jmpi (s : BitVec 3) (a : BitVec 5)
  /-- CALLI (R86): Branches to the value of A and writes the link to n7. -/
  | calli (s : BitVec 3) (a : BitVec 5)
  /-- RET (R86): Branches to n7. -/
  | ret (s : BitVec 3)
  /-- LOOP (R85): Decrements named register nA and branches when it is nonzero. -/
  | loop (s : BitVec 3) (a : BitVec 5) (i : BitVec 15)
  /-- REP (R121): Fetches and checks a body and issues it c times from the repetition buffer. -/
  | rep (s : BitVec 3) (a : BitVec 5) (i : BitVec 11)
  /-- START (R89): Takes the lowest FREE helper, sets it LIVE and delivers its number. -/
  | start (s : BitVec 3) (d : BitVec 5) (a : BitVec 5) (b : BitVec 5)
  /-- HALT (R90): Stops issue from the context, which leaves LIVE once its work has drained. -/
  | halt (s : BitVec 3)
  /-- JOINH (R91): Blocks until the named helper is FREE, then acquires at CORE scope. -/
  | joinh (s : BitVec 3) (a : BitVec 5)
  /-- YIELD (R92): Holds the context until other ready contexts have issued once or 11 cycles pass. -/
  | yield (s : BitVec 3)
  /-- SAVEH (R93): Writes a helper's image to scratchpad and suspends it. -/
  | saveh (s : BitVec 3) (d : BitVec 5) (a : BitVec 5) (b : BitVec 5)
  /-- LOADH (R93): Loads a helper image into a FREE or SUSPENDED helper. -/
  | loadh (s : BitVec 3) (d : BitVec 5) (a : BitVec 5) (b : BitVec 5)
  /-- RESUMEH (R93): Makes a FAULTED or SUSPENDED helper LIVE. -/
  | resumeh (s : BitVec 3) (d : BitVec 5) (a : BitVec 5)
  /-- KILLH (R93): Frees a helper after its stores are performed, discarding its pending work. -/
  | killh (s : BitVec 3) (d : BitVec 5) (a : BitVec 5)
  /-- HSTAT (R88): Delivers a helper's state code. -/
  | hstat (s : BitVec 3) (d : BitVec 5) (a : BitVec 5)
  /-- UPRET (R100): Restores the control context from the upcall frame and ends the upcall. -/
  | upret (s : BitVec 3)
  /-- NOP (R104): Has no effect beyond its stall count. -/
  | nop (s : BitVec 3)
  /-- TRAP (R104): Traps with cause 0x38. -/
  | trap (s : BitVec 3) (a : BitVec 5)
  /-- ERET (R97): Returns to $epc in the mode of $cause.PRV. -/
  | eret (s : BitVec 3)
  /-- GETS (R105): Delivers the named special register. -/
  | gets (s : BitVec 3) (d : BitVec 5) (a : BitVec 5)
  /-- PUTS (R105): Writes a special register from B. -/
  | puts (s : BitVec 3) (a : BitVec 5) (b : BitVec 5)
  /-- FENCE (R106): Orders earlier accesses before later ones at the given scope. -/
  | fence (s : BitVec 3) (a : BitVec 5)
  /-- IFENCE (R106): Invalidates L1 instruction lines and fetched-ahead words. -/
  | ifence (s : BitVec 3)
  /-- WAITA (R107): Waits until the word at A differs from B and delivers it. -/
  | waita (s : BitVec 3) (d : BitVec 5) (a : BitVec 5) (b : BitVec 5)
  /-- FFLAG (R108): Performs a fenced DOMAIN flag store, or with A = 31 clears bits of $flags. -/
  | fflag (s : BitVec 3) (a : BitVec 5) (b : BitVec 5)
  /-- BREAK (R104): Halts for an attached debugger, or traps BREAK. -/
  | brk (s : BitVec 3)
  /-- SLEEPR (R109): Sleeps until the next write to $reply and delivers it. -/
  | sleepr (s : BitVec 3) (d : BitVec 5)
  /-- TINV (R110): Invalidates translations of a page or a whole VD and blocks until done. -/
  | tinv (s : BitVec 3) (a : BitVec 5) (b : BitVec 5)
  /-- LD (R137): Loads 1–8 bytes from a global address. -/
  | ld (s : BitVec 3) (w : BitVec 2) (d : BitVec 5) (b : BitVec 5) (q : BitVec 3) (o : BitVec 8)
  /-- ST (R137): Stores 1–8 bytes to a global address. -/
  | st (s : BitVec 3) (w : BitVec 2) (d : BitVec 5) (b : BitVec 5) (q : BitVec 2) (o : BitVec 8)
  /-- LDL (R137): Loads from a local scratchpad address. -/
  | ldl (s : BitVec 3) (w : BitVec 2) (d : BitVec 5) (b : BitVec 5) (o : BitVec 8)
  /-- LDL.acq (R137): Loads from a local address with acquire at CLUSTER scope. -/
  | ldlAcq (s : BitVec 3) (w : BitVec 2) (d : BitVec 5) (b : BitVec 5) (o : BitVec 8)
  /-- LDF (R143): Waits while the SPM word is empty, then reads it leaving it full. -/
  | ldf (s : BitVec 3) (d : BitVec 5) (b : BitVec 5) (o : BitVec 8)
  /-- LDFE (R143): Waits while the SPM word is empty, then reads it and sets it empty. -/
  | ldfe (s : BitVec 3) (d : BitVec 5) (b : BitVec 5) (o : BitVec 8)
  /-- STL (R137): Stores to a local scratchpad address. -/
  | stl (s : BitVec 3) (w : BitVec 2) (d : BitVec 5) (b : BitVec 5) (o : BitVec 8)
  /-- STL.rel (R137): Stores to a local address with release at CLUSTER scope. -/
  | stlRel (s : BitVec 3) (w : BitVec 2) (d : BitVec 5) (b : BitVec 5) (o : BitVec 8)
  /-- STF (R143): Writes an SPM word and sets it full as a CLUSTER release. -/
  | stf (s : BitVec 3) (d : BitVec 5) (b : BitVec 5) (o : BitVec 8)
  /-- STE (R143): Writes an SPM word and sets it empty. -/
  | ste (s : BitVec 3) (d : BitVec 5) (b : BitVec 5) (o : BitVec 8)
  /-- LDV (R139): Loads 16, 32 or 64 bytes into the vector belt or named registers. -/
  | ldv (s : BitVec 3) (w : BitVec 2) (d : BitVec 5) (b : BitVec 5) (q : BitVec 3) (o : BitVec 8)
  /-- STV (R139): Stores 16, 32 or 64 bytes from vector slots or named registers. -/
  | stv (s : BitVec 3) (w : BitVec 2) (d : BitVec 5) (b : BitVec 5) (q : BitVec 3) (o : BitVec 8)
  /-- LDX (R140): Loads memory elements and converts them to f32 or bf16 lanes. -/
  | ldx (s : BitVec 3) (d : BitVec 5) (b : BitVec 5) (l : BitVec 1) (t : BitVec 1) (o : BitVec 8)
  /-- STX (R140): Converts vector lanes to the pointer's element format and stores them. -/
  | stx (s : BitVec 3) (d : BitVec 5) (b : BitVec 5) (l : BitVec 1) (t : BitVec 1) (u : BitVec 1) (o : BitVec 8)
  /-- PREF (R141): Asks for a line to be brought into L1, L2 or LLC. -/
  | pref (s : BitVec 3) (b : BitVec 5) (q : BitVec 2) (o : BitVec 8)
  /-- ATOM.FADD (R145): Atomically adds B at the home and delivers the old value. -/
  | atomFadd (s : BitVec 3) (d : BitVec 5) (a : BitVec 5) (b : BitVec 5) (z : BitVec 2)
  /-- ATOM.FAND (R145): Atomic bitwise AND at the home. -/
  | atomFand (s : BitVec 3) (d : BitVec 5) (a : BitVec 5) (b : BitVec 5) (z : BitVec 2)
  /-- ATOM.FOR (R145): Atomic bitwise OR at the home. -/
  | atomFor (s : BitVec 3) (d : BitVec 5) (a : BitVec 5) (b : BitVec 5) (z : BitVec 2)
  /-- ATOM.FXOR (R145): Atomic bitwise XOR at the home. -/
  | atomFxor (s : BitVec 3) (d : BitVec 5) (a : BitVec 5) (b : BitVec 5) (z : BitVec 2)
  /-- ATOM.FMIN (R145): Atomic signed minimum at the home. -/
  | atomFmin (s : BitVec 3) (d : BitVec 5) (a : BitVec 5) (b : BitVec 5) (z : BitVec 2)
  /-- ATOM.FMAX (R145): Atomic signed maximum at the home. -/
  | atomFmax (s : BitVec 3) (d : BitVec 5) (a : BitVec 5) (b : BitVec 5) (z : BitVec 2)
  /-- ATOM.FMINU (R145): Atomic unsigned minimum at the home. -/
  | atomFminu (s : BitVec 3) (d : BitVec 5) (a : BitVec 5) (b : BitVec 5) (z : BitVec 2)
  /-- ATOM.FMAXU (R145): Atomic unsigned maximum at the home. -/
  | atomFmaxu (s : BitVec 3) (d : BitVec 5) (a : BitVec 5) (b : BitVec 5) (z : BitVec 2)
  /-- ATOM.SWAP (R145): Atomically replaces the location with B. -/
  | atomSwap (s : BitVec 3) (d : BitVec 5) (a : BitVec 5) (b : BitVec 5) (z : BitVec 2)
  /-- ATOM.CAS (R145): Atomic 8-byte compare-and-swap against B's pair. -/
  | atomCas (s : BitVec 3) (d : BitVec 5) (a : BitVec 5) (b : BitVec 5)
  /-- UPD.ADD (R147): Combines B into the word by addition without returning a value. -/
  | updAdd (s : BitVec 3) (a : BitVec 5) (b : BitVec 5) (t : BitVec 3)
  /-- UPD.MIN (R147): Combines B into the word by minimum. -/
  | updMin (s : BitVec 3) (a : BitVec 5) (b : BitVec 5) (t : BitVec 3)
  /-- UPD.MAX (R147): Combines B into the word by maximum. -/
  | updMax (s : BitVec 3) (a : BitVec 5) (b : BitVec 5) (t : BitVec 3)
  /-- UPD.AMAX (R147): Combines B into the word by absolute maximum. -/
  | updAmax (s : BitVec 3) (a : BitVec 5) (b : BitVec 5) (t : BitVec 3)
  /-- UPD.AND (R147): Combines B into the word by bitwise AND. -/
  | updAnd (s : BitVec 3) (a : BitVec 5) (b : BitVec 5) (t : BitVec 3)
  /-- UPD.OR (R147): Combines B into the word by bitwise OR. -/
  | updOr (s : BitVec 3) (a : BitVec 5) (b : BitVec 5) (t : BitVec 3)
  /-- UPD.XOR (R147): Combines B into the word by bitwise XOR. -/
  | updXor (s : BitVec 3) (a : BitVec 5) (b : BitVec 5) (t : BitVec 3)
  /-- PBIND (R151): Binds a port of the issuing context or a helper to a partner port. -/
  | pbind (s : BitVec 3) (a : BitVec 5) (b : BitVec 5)
  /-- PSTAT (R155): Delivers the status of a port. -/
  | pstat (s : BitVec 3) (d : BitVec 5) (a : BitVec 5)
  /-- PDRAIN (R156): Discards a port's queue, waits for its sends and unbinds it. -/
  | pdrain (s : BitVec 3) (d : BitVec 5) (a : BitVec 5)
  /-- PORD (R154): Blocks until every word sent through the port has arrived or been discarded. -/
  | pord (s : BitVec 3) (a : BitVec 5)
  /-- BAR (R158): Arrives at the group's next phase and waits for it to complete. -/
  | bar (s : BitVec 3) (a : BitVec 5)
  /-- BARA (R158): Arrives at the group's next phase as a release and delivers the phase number. -/
  | bara (s : BitVec 3) (d : BitVec 5) (a : BitVec 5)
  /-- BARW (R158): Waits until the given phase has completed, then acquires. -/
  | barw (s : BitVec 3) (a : BitVec 5) (b : BitVec 5)
  /-- ELECT (R159): Takes part in the core's next election round and delivers 1 to the winner. -/
  | elect (s : BitVec 3) (d : BitVec 5) (a : BitVec 5)
  /-- GIDX (R157): Delivers the core's member index in the group. -/
  | gidx (s : BitVec 3) (d : BitVec 5) (a : BitVec 5)
  /-- GSIZE (R157): Delivers the number of members of the group. -/
  | gsize (s : BitVec 3) (d : BitVec 5) (a : BitVec 5)
  /-- VADD (R112): Adds integer lanes modulo 2^e. -/
  | vadd (s : BitVec 3) (d : BitVec 5) (a : BitVec 5) (b : BitVec 5) (e : BitVec 2)
  /-- VSUB (R112): Subtracts integer lanes modulo 2^e. -/
  | vsub (s : BitVec 3) (d : BitVec 5) (a : BitVec 5) (b : BitVec 5) (e : BitVec 2)
  /-- VMUL (R112): Multiplies integer lanes, keeping the low bits. -/
  | vmul (s : BitVec 3) (d : BitVec 5) (a : BitVec 5) (b : BitVec 5) (e : BitVec 2)
  /-- VMIN (R112): Signed lane minimum. -/
  | vmin (s : BitVec 3) (d : BitVec 5) (a : BitVec 5) (b : BitVec 5) (e : BitVec 2)
  /-- VMAX (R112): Signed lane maximum. -/
  | vmax (s : BitVec 3) (d : BitVec 5) (a : BitVec 5) (b : BitVec 5) (e : BitVec 2)
  /-- VMINU (R112): Unsigned lane minimum. -/
  | vminu (s : BitVec 3) (d : BitVec 5) (a : BitVec 5) (b : BitVec 5) (e : BitVec 2)
  /-- VMAXU (R112): Unsigned lane maximum. -/
  | vmaxu (s : BitVec 3) (d : BitVec 5) (a : BitVec 5) (b : BitVec 5) (e : BitVec 2)
  /-- VAND (R112): Bitwise AND of vector lanes. -/
  | vand (s : BitVec 3) (d : BitVec 5) (a : BitVec 5) (b : BitVec 5) (e : BitVec 2)
  /-- VOR (R112): Bitwise OR of vector lanes. -/
  | vor (s : BitVec 3) (d : BitVec 5) (a : BitVec 5) (b : BitVec 5) (e : BitVec 2)
  /-- VXOR (R112): Bitwise XOR of vector lanes. -/
  | vxor (s : BitVec 3) (d : BitVec 5) (a : BitVec 5) (b : BitVec 5) (e : BitVec 2)
  /-- VSHL (R112): Shifts each lane left by b mod e. -/
  | vshl (s : BitVec 3) (d : BitVec 5) (a : BitVec 5) (b : BitVec 5) (e : BitVec 2)
  /-- VSHR (R112): Shifts each lane right with zeros in. -/
  | vshr (s : BitVec 3) (d : BitVec 5) (a : BitVec 5) (b : BitVec 5) (e : BitVec 2)
  /-- VSAR (R112): Shifts each signed lane right with the sign in. -/
  | vsar (s : BitVec 3) (d : BitVec 5) (a : BitVec 5) (b : BitVec 5) (e : BitVec 2)
  /-- VCEQ (R112): Lane equality compare giving all-ones or zero. -/
  | vceq (s : BitVec 3) (d : BitVec 5) (a : BitVec 5) (b : BitVec 5) (e : BitVec 2)
  /-- VCLT (R112): Signed lane less-than compare. -/
  | vclt (s : BitVec 3) (d : BitVec 5) (a : BitVec 5) (b : BitVec 5) (e : BitVec 2)
  /-- VCLTU (R112): Unsigned lane less-than compare. -/
  | vcltu (s : BitVec 3) (d : BitVec 5) (a : BitVec 5) (b : BitVec 5) (e : BitVec 2)
  /-- VFADD (R113): Floating-point lane addition with one rounding. -/
  | vfadd (s : BitVec 3) (d : BitVec 5) (a : BitVec 5) (b : BitVec 5) (t : BitVec 2)
  /-- VFSUB (R113): Floating-point lane subtraction. -/
  | vfsub (s : BitVec 3) (d : BitVec 5) (a : BitVec 5) (b : BitVec 5) (t : BitVec 2)
  /-- VFMUL (R113): Floating-point lane multiplication. -/
  | vfmul (s : BitVec 3) (d : BitVec 5) (a : BitVec 5) (b : BitVec 5) (t : BitVec 2)
  /-- VFMA (R113): Fused multiply-add with the addend from the destination position. -/
  | vfma (s : BitVec 3) (d : BitVec 5) (a : BitVec 5) (b : BitVec 5) (t : BitVec 2)
  /-- VFMIN (R113): Floating-point lane minimum. -/
  | vfmin (s : BitVec 3) (d : BitVec 5) (a : BitVec 5) (b : BitVec 5) (t : BitVec 2)
  /-- VFMAX (R113): Floating-point lane maximum. -/
  | vfmax (s : BitVec 3) (d : BitVec 5) (a : BitVec 5) (b : BitVec 5) (t : BitVec 2)
  /-- VFABS (R113): Clears the sign of each lane. -/
  | vfabs (s : BitVec 3) (d : BitVec 5) (a : BitVec 5) (t : BitVec 2)
  /-- VFNEG (R113): Inverts the sign of each lane. -/
  | vfneg (s : BitVec 3) (d : BitVec 5) (a : BitVec 5) (t : BitVec 2)
  /-- VFCEQ (R113): Floating-point lane equality compare. -/
  | vfceq (s : BitVec 3) (d : BitVec 5) (a : BitVec 5) (b : BitVec 5) (t : BitVec 2)
  /-- VFCLT (R113): Floating-point lane less-than compare. -/
  | vfclt (s : BitVec 3) (d : BitVec 5) (a : BitVec 5) (b : BitVec 5) (t : BitVec 2)
  /-- VFCLE (R113): Floating-point lane less-or-equal compare. -/
  | vfcle (s : BitVec 3) (d : BitVec 5) (a : BitVec 5) (b : BitVec 5) (t : BitVec 2)
  /-- VFRND (R113): Rounds each lane to an integral value under FRM. -/
  | vfrnd (s : BitVec 3) (d : BitVec 5) (a : BitVec 5) (t : BitVec 2)
  /-- VFSCL (R113): Scales each lane by a power of two, rounded once. -/
  | vfscl (s : BitVec 3) (d : BitVec 5) (a : BitVec 5) (b : BitVec 5) (t : BitVec 2)
  /-- VFCLS (R113): Delivers the class mask of each lane. -/
  | vfcls (s : BitVec 3) (d : BitVec 5) (a : BitVec 5) (t : BitVec 2)
  /-- VSPLAT (R115): Copies lane B of A into every lane. -/
  | vsplat (s : BitVec 3) (d : BitVec 5) (a : BitVec 5) (b : BitVec 5) (e : BitVec 2)
  /-- VEXT (R115): Extracts lane B of A sign-extended. -/
  | vext (s : BitVec 3) (d : BitVec 5) (a : BitVec 5) (b : BitVec 5) (e : BitVec 2)
  /-- VINS (R115): Replaces lane B of A with the low bits of integer b0. -/
  | vins (s : BitVec 3) (d : BitVec 5) (a : BitVec 5) (b : BitVec 5) (e : BitVec 2)
  /-- VSHUF (R115): Permutes the lanes of A by the indices in B. -/
  | vshuf (s : BitVec 3) (d : BitVec 5) (a : BitVec 5) (b : BitVec 5) (e : BitVec 2)
  /-- VREV (R115): Reverses the lane order of A. -/
  | vrev (s : BitVec 3) (d : BitVec 5) (a : BitVec 5) (e : BitVec 2)
  /-- VZIP (R115): Interleaves the low halves of A and B. -/
  | vzip (s : BitVec 3) (d : BitVec 5) (a : BitVec 5) (b : BitVec 5) (e : BitVec 2)
  /-- VUNZ (R115): Gathers the even lanes of A and B. -/
  | vunz (s : BitVec 3) (d : BitVec 5) (a : BitVec 5) (b : BitVec 5) (e : BitVec 2)
  /-- VSUMH (R115): Sums the lanes of A into lane 0. -/
  | vsumh (s : BitVec 3) (d : BitVec 5) (a : BitVec 5) (e : BitVec 2)
  /-- VMAXH (R115): Places the signed maximum of A's lanes in lane 0. -/
  | vmaxh (s : BitVec 3) (d : BitVec 5) (a : BitVec 5) (e : BitVec 2)
  /-- VAMAXH (R115): Places the largest magnitude of A's lanes in lane 0. -/
  | vamaxh (s : BitVec 3) (d : BitVec 5) (a : BitVec 5) (e : BitVec 2)
  /-- VSEL (R115): Selects lanes of A or B by the bits of integer b0. -/
  | vsel (s : BitVec 3) (d : BitVec 5) (a : BitVec 5) (b : BitVec 5) (e : BitVec 2)
  /-- VABS (R115): Two's complement magnitude of each lane. -/
  | vabs (s : BitVec 3) (d : BitVec 5) (a : BitVec 5) (e : BitVec 2)
  /-- VDOT4 (R115): Signed 8-bit four-way dot products added to 32-bit lanes. -/
  | vdot4 (s : BitVec 3) (d : BitVec 5) (a : BitVec 5) (b : BitVec 5)
  /-- VMOV (R115): Copies a 128-bit vector value. -/
  | vmov (s : BitVec 3) (d : BitVec 5) (a : BitVec 5) (e : BitVec 2)
  /-- VCVT (R117): Converts vector elements between formats under FRM. -/
  | vcvt (s : BitVec 3) (d : BitVec 5) (a : BitVec 5) (x : BitVec 5) (y : BitVec 5) (t : BitVec 1)
  /-- VCVTS (R117): Converts vector elements with stochastic rounding. -/
  | vcvts (s : BitVec 3) (d : BitVec 5) (a : BitVec 5) (x : BitVec 5) (y : BitVec 5) (t : BitVec 1)
  /-- FRCP (R119): Queues a reciprocal on the special-function unit. -/
  | frcp (s : BitVec 3) (d : BitVec 5) (a : BitVec 5) (t : BitVec 1)
  /-- FRSQ (R119): Queues a reciprocal square root. -/
  | frsq (s : BitVec 3) (d : BitVec 5) (a : BitVec 5) (t : BitVec 1)
  /-- FSQRT (R119): Queues a square root. -/
  | fsqrt (s : BitVec 3) (d : BitVec 5) (a : BitVec 5) (t : BitVec 1)
  /-- FEXP2 (R119): Queues a base-2 exponential. -/
  | fexp2 (s : BitVec 3) (d : BitVec 5) (a : BitVec 5) (t : BitVec 1)
  /-- FLOG2 (R119): Queues a base-2 logarithm. -/
  | flog2 (s : BitVec 3) (d : BitVec 5) (a : BitVec 5) (t : BitVec 1)
  /-- FSINP (R119): Queues sin(πx). -/
  | fsinp (s : BitVec 3) (d : BitVec 5) (a : BitVec 5) (t : BitVec 1)
  /-- FCOSP (R119): Queues cos(πx). -/
  | fcosp (s : BitVec 3) (d : BitVec 5) (a : BitVec 5) (t : BitVec 1)
  /-- FTANH (R119): Queues a hyperbolic tangent. -/
  | ftanh (s : BitVec 3) (d : BitVec 5) (a : BitVec 5) (t : BitVec 1)
  /-- FERF (R119): Queues an error function. -/
  | ferf (s : BitVec 3) (d : BitVec 5) (a : BitVec 5) (t : BitVec 1)
  /-- FADD (R118): Scalar floating-point addition on the integer belt. -/
  | fadd (s : BitVec 3) (d : BitVec 5) (a : BitVec 5) (b : BitVec 5) (t : BitVec 1)
  /-- FSUB (R118): Scalar floating-point subtraction. -/
  | fsub (s : BitVec 3) (d : BitVec 5) (a : BitVec 5) (b : BitVec 5) (t : BitVec 1)
  /-- FMUL (R118): Scalar floating-point multiplication. -/
  | fmul (s : BitVec 3) (d : BitVec 5) (a : BitVec 5) (b : BitVec 5) (t : BitVec 1)
  /-- FMIN (R118): Scalar floating-point minimum. -/
  | fmin (s : BitVec 3) (d : BitVec 5) (a : BitVec 5) (b : BitVec 5) (t : BitVec 1)
  /-- FMAX (R118): Scalar floating-point maximum. -/
  | fmax (s : BitVec 3) (d : BitVec 5) (a : BitVec 5) (b : BitVec 5) (t : BitVec 1)
  /-- FABS (R118): Scalar sign clear. -/
  | fabs (s : BitVec 3) (d : BitVec 5) (a : BitVec 5) (t : BitVec 1)
  /-- FCEQ (R118): Scalar floating-point equality compare delivering 1 or 0. -/
  | fceq (s : BitVec 3) (d : BitVec 5) (a : BitVec 5) (b : BitVec 5) (t : BitVec 1)
  /-- FCLT (R118): Scalar floating-point less-than compare. -/
  | fclt (s : BitVec 3) (d : BitVec 5) (a : BitVec 5) (b : BitVec 5) (t : BitVec 1)
  /-- FCLE (R118): Scalar floating-point less-or-equal compare. -/
  | fcle (s : BitVec 3) (d : BitVec 5) (a : BitVec 5) (b : BitVec 5) (t : BitVec 1)
  /-- FCVTI (R118): Converts a float to a signed 64-bit integer. -/
  | fcvti (s : BitVec 3) (d : BitVec 5) (a : BitVec 5) (t : BitVec 1)
  /-- FCVTF (R118): Converts a signed 64-bit integer to a float. -/
  | fcvtf (s : BitVec 3) (d : BitVec 5) (a : BitVec 5) (t : BitVec 1)
  /-- FCVTW (R118): Widens f32 to f64 or narrows f64 to f32. -/
  | fcvtw (s : BitVec 3) (d : BitVec 5) (a : BitVec 5) (t : BitVec 1)
  /-- ZDRAW (R127): Creates a lazy value with no digits at a stream offset. -/
  | zdraw (s : BitVec 3) (d : BitVec 5) (a : BitVec 5) (b : BitVec 5)
  /-- ZLTQ (R128): Tests U < a/b, extending digits only as needed. -/
  | zltq (s : BitVec 3) (d : BitVec 5) (a : BitVec 5) (b : BitVec 5)
  /-- ZLTF (R128): Tests U against an F32 threshold. -/
  | zltf (s : BitVec 3) (d : BitVec 5) (a : BitVec 5) (b : BitVec 5)
  /-- ZLTZ (R128): Compares two lazy values. -/
  | zltz (s : BitVec 3) (d : BitVec 5) (a : BitVec 5) (b : BitVec 5)
  /-- ZFLOOR (R128): Delivers floor(U × n). -/
  | zfloor (s : BitVec 3) (d : BitVec 5) (a : BitVec 5) (b : BitVec 5)
  /-- ZEXT (R127): Extends a lazy value to at least k digits. -/
  | zext (s : BitVec 3) (a : BitVec 5) (b : BitVec 5)
  /-- ZLEN (R127): Delivers a lazy value's LENGTH. -/
  | zlen (s : BitVec 3) (d : BitVec 5) (a : BitVec 5)
  /-- ZBITS (R127): Delivers 64 PREFIX digits of a lazy value. -/
  | zbits (s : BitVec 3) (d : BitVec 5) (a : BitVec 5) (b : BitVec 5)
  /-- ZMOV (R127): Copies a whole lazy record. -/
  | zmov (s : BitVec 3) (d : BitVec 5) (a : BitVec 5)
  /-- ZLD (R127): Loads a lazy record from scratchpad. -/
  | zld (s : BitVec 3) (d : BitVec 5) (a : BitVec 5)
  /-- ZST (R127): Stores a lazy record to scratchpad. -/
  | zst (s : BitVec 3) (a : BitVec 5) (b : BitVec 5)
  /-- SBIND (R125): Binds a stream handle to a key record in scratchpad. -/
  | sbind (s : BitVec 3) (a : BitVec 5) (b : BitVec 5)
  /-- SFREE (R125): Unbinds a stream handle and increments its generation. -/
  | sfree (s : BitVec 3) (a : BitVec 5)
  /-- RNDW (R125): Delivers two stream words as one 64-bit value. -/
  | rndw (s : BitVec 3) (d : BitVec 5) (a : BitVec 5) (b : BitVec 5)
  /-- RNDV (R125): Delivers four stream words as a pair. -/
  | rndv (s : BitVec 3) (d : BitVec 5) (a : BitVec 5) (b : BitVec 5)
  /-- SGEN (R125): Delivers a handle's generation. -/
  | sgen (s : BitVec 3) (d : BitVec 5) (a : BitVec 5)
  /-- GLAUNCH (R188): Submits a graph descriptor to a launch queue of the VD. -/
  | glaunch (s : BitVec 3) (d : BitVec 5) (a : BitVec 5) (b : BitVec 5)
  /-- GQUERY (R188): Delivers the state of a launch number. -/
  | gquery (s : BitVec 3) (d : BitVec 5) (a : BitVec 5)
  /-- CPY (R166): Queues a box copy with conversion at the MG's copy engine. -/
  | cpy (a : BitVec 5) (b : BitVec 5) (w : BitVec 8) (l : BitVec 3) (s : BitVec 1)
  /-- CSETG (R163): Writes a copy geometry register. -/
  | csetg (a : BitVec 5) (b : BitVec 5)
  /-- CGETG (R163): Pushes a copy geometry register. -/
  | cgetg (a : BitVec 5)
  /-- MMA (R172): Queues a tile multiply-accumulate on the MU. -/
  | mma (a : BitVec 5) (b : BitVec 5) (w : BitVec 8) (l : BitVec 3) (s : BitVec 1)
  /-- MSETG (R163): Writes a matrix geometry register. -/
  | msetg (a : BitVec 5) (b : BitVec 5)
  /-- MGETG (R163): Pushes a matrix geometry register, clearing STATUS when read. -/
  | mgetg (a : BitVec 5)
  /-- MLDC (R174): Queues a load of a C tile from memory. -/
  | mldc (a : BitVec 5) (b : BitVec 5) (w : BitVec 8) (l : BitVec 3) (s : BitVec 1)
  /-- MSTC (R174): Queues a converting store of a C tile. -/
  | mstc (a : BitVec 5) (b : BitVec 5) (w : BitVec 8) (l : BitVec 3) (s : BitVec 1)
  /-- MZERO (R174): Queues a tag-and-zero of a C tile. -/
  | mzero (a : BitVec 5) (w : BitVec 8) (l : BitVec 3) (s : BitVec 1)
  /-- MCOMMIT (R176): Closes a commit group of the context's MX commands. -/
  | mcommit
  /-- MWAIT (R176): Waits until at most A groups are outstanding and pushes the unreported status. -/
  | mwait (a : BitVec 5)
  /-- COLL (R178): Reads a collective parameter block and posts it to the command ring. -/
  | coll (a : BitVec 5) (b : BitVec 5) (w : BitVec 8) (l : BitVec 3) (s : BitVec 1)
  /-- CQUERY (R183): Pushes the status word of the latest command with a handle. -/
  | cquery (a : BitVec 5)
  /-- CABORT (R183): Aborts the running COLL, RKRUN or unstarted RKOVL with a handle. -/
  | cabort (a : BitVec 5)
  /-- RKOVL (R185): Posts an overlay load into a slot of every member rank. -/
  | rkovl (a : BitVec 5) (b : BitVec 5) (w : BitVec 8) (l : BitVec 3) (s : BitVec 1)
  /-- RKRUN (R185): Posts a start of every member rank at an entry word. -/
  | rkrun (a : BitVec 5) (b : BitVec 5) (w : BitVec 8) (l : BitVec 3) (s : BitVec 1)
  /-- RKSIG (R186): Posts a word to the mailbox of every member of a group. -/
  | rksig (a : BitVec 5) (b : BitVec 5) (w : BitVec 8)
  /-- RKSTAT (R186): Pushes the state of a rank. -/
  | rkstat (a : BitVec 5)
  /-- RKSTOP (R186): Stops every member of a group, rolling back an open course. -/
  | rkstop (a : BitVec 5) (w : BitVec 8)
  /-- DWAIT (R187): Blocks until the named dependency slots are zero, then acquires. -/
  | dwait (w : BitVec 8)
  /-- DSTAT (R187): Pushes the eight dependency counters. -/
  | dstat
  /-- SLI (R195): Loads a sign-extended 18-bit immediate into a scalar register. -/
  | sli (x : BitVec 4) (y : BitVec 4) (i : BitVec 14)
  /-- SLIH (R195): Replaces bits 31–14 of a scalar register with an 18-bit immediate. -/
  | slih (x : BitVec 4) (y : BitVec 4) (i : BitVec 14)
  /-- SADD (R195): Adds two scalar registers modulo 2^32. -/
  | sadd (x : BitVec 4) (y : BitVec 4) (z : BitVec 4)
  /-- SADDI (R195): Adds a signed 14-bit immediate to a scalar register. -/
  | saddi (x : BitVec 4) (y : BitVec 4) (i : BitVec 14)
  /-- SSUB (R195): Subtracts scalar registers. -/
  | ssub (x : BitVec 4) (y : BitVec 4) (z : BitVec 4)
  /-- SAND (R195): Bitwise AND of scalar registers. -/
  | sand (x : BitVec 4) (y : BitVec 4) (z : BitVec 4)
  /-- SOR (R195): Bitwise OR of scalar registers. -/
  | sor (x : BitVec 4) (y : BitVec 4) (z : BitVec 4)
  /-- SXOR (R195): Bitwise XOR of scalar registers. -/
  | sxor (x : BitVec 4) (y : BitVec 4) (z : BitVec 4)
  /-- SSHL (R195): Shifts a scalar register left. -/
  | sshl (x : BitVec 4) (y : BitVec 4) (z : BitVec 4)
  /-- SSHR (R195): Shifts a scalar register right with zeros in. -/
  | sshr (x : BitVec 4) (y : BitVec 4) (z : BitVec 4)
  /-- SMUL (R195): Multiplies scalar registers keeping the low 32 bits. -/
  | smul (x : BitVec 4) (y : BitVec 4) (z : BitVec 4)
  /-- SCLT (R195): Signed less-than compare of scalar registers. -/
  | sclt (x : BitVec 4) (y : BitVec 4) (z : BitVec 4)
  /-- SBZ (R196): Branches when a scalar register is zero. -/
  | sbz (x : BitVec 4) (i : BitVec 14)
  /-- SBNZ (R196): Branches when a scalar register is nonzero. -/
  | sbnz (x : BitVec 4) (i : BitVec 14)
  /-- SJ (R196): Branches unconditionally. -/
  | sj (i : BitVec 14)
  /-- SLOOP (R196): Decrements a scalar register and branches when nonzero. -/
  | sloop (x : BitVec 4) (i : BitVec 14)
  /-- CSET (R197): Sets a cursor's row and column. -/
  | cset (x : BitVec 4) (y : BitVec 4) (c : BitVec 5)
  /-- CSTRIDE (R197): Sets a cursor's stride. -/
  | cstride (x : BitVec 4) (i : BitVec 14)
  /-- CNEXT (R197): Advances a cursor to its next row, marking a row boundary. -/
  | cnext (x : BitVec 4)
  /-- VLD (R198): Reads a column word at a cursor into a vector register. -/
  | vld (x : BitVec 4) (y : BitVec 4)
  /-- VST (R198): Writes a vector register to the mortar row at a cursor within a course. -/
  | vst (x : BitVec 4) (y : BitVec 4)
  /-- VADD (R200): Rank lane addition in F32 or I32. -/
  | mwVadd (x : BitVec 4) (y : BitVec 4) (z : BitVec 4) (r : BitVec 3) (t : BitVec 1)
  /-- VSUB (R200): Rank lane subtraction. -/
  | mwVsub (x : BitVec 4) (y : BitVec 4) (z : BitVec 4) (r : BitVec 3) (t : BitVec 1)
  /-- VMUL (R200): Rank lane multiplication. -/
  | mwVmul (x : BitVec 4) (y : BitVec 4) (z : BitVec 4) (r : BitVec 3) (t : BitVec 1)
  /-- VFMA (R200): Rank F32 fused multiply-add into vX. -/
  | mwVfma (x : BitVec 4) (y : BitVec 4) (z : BitVec 4) (r : BitVec 3)
  /-- VSCL (R200): Scales rank F32 lanes by a scalar register. -/
  | vscl (x : BitVec 4) (y : BitVec 4) (z : BitVec 4) (r : BitVec 3)
  /-- VMAX (R200): Rank lane maximum. -/
  | mwVmax (x : BitVec 4) (y : BitVec 4) (z : BitVec 4) (r : BitVec 3) (t : BitVec 1)
  /-- VMIN (R200): Rank lane minimum. -/
  | mwVmin (x : BitVec 4) (y : BitVec 4) (z : BitVec 4) (r : BitVec 3) (t : BitVec 1)
  /-- VCVT (R201): Converts between rank 32-bit lanes and a packed part. -/
  | mwVcvt (x : BitVec 4) (y : BitVec 4) (d : BitVec 3) (f : BitVec 3) (p : BitVec 2) (u : BitVec 1) (r : BitVec 3)
  /-- VSPL (R200): Sets every lane of a vector register to a scalar. -/
  | vspl (x : BitVec 4) (y : BitVec 4)
  /-- KCLR (R202): Empties an accumulator's records, keeping α. -/
  | kclr (x : BitVec 4)
  /-- KADD (R202): Contributes each lane to the matching A80 record. -/
  | kadd (x : BitVec 4) (y : BitVec 4) (t : BitVec 1)
  /-- KRND (R202): Rounds each accumulator record once into a lane. -/
  | krnd (x : BitVec 4) (y : BitVec 4) (u : BitVec 1) (r : BitVec 3) (t : BitVec 1)
  /-- KANC (R202): Sets an accumulator's anchor and empties its records. -/
  | kanc (x : BitVec 4) (y : BitVec 4)
  /-- CBEGIN (R205): Opens a program course over two row ranges. -/
  | cbegin (x : BitVec 4) (y : BitVec 4) (u : BitVec 1) (g : BitVec 8)
  /-- CEND (R205): Declares the member ready, waits for the keystone and writes the status. -/
  | cend (x : BitVec 4)
  /-- CSHIFT (R207): Runs a shift course across the group. -/
  | cshift (x : BitVec 4) (d : BitVec 2) (c : BitVec 2) (z : BitVec 4) (f : BitVec 3) (g : BitVec 8)
  /-- CXPOSE (R207): Runs a block transpose course across the group. -/
  | cxpose (x : BitVec 4) (d : BitVec 2) (c : BitVec 2) (z : BitVec 4) (f : BitVec 3) (g : BitVec 8)
  /-- CA2A (R207): Runs an all-to-all course. -/
  | ca2a (x : BitVec 4) (d : BitVec 2) (c : BitVec 2) (z : BitVec 4) (f : BitVec 3) (g : BitVec 8)
  /-- CRED (R208): Runs the reduction courses leaving the full reduction at every member. -/
  | cred (x : BitVec 4) (d : BitVec 2) (c : BitVec 2) (z : BitVec 4) (o : BitVec 3) (f : BitVec 3) (g : BitVec 8)
  /-- CRSC (R208): Runs reduce-scatter courses leaving block k at member k. -/
  | crsc (x : BitVec 4) (d : BitVec 2) (c : BitVec 2) (z : BitVec 4) (o : BitVec 3) (f : BitVec 3) (g : BitVec 8)
  /-- CGATH (R207): Runs a gather course to ROOT. -/
  | cgath (x : BitVec 4) (d : BitVec 2) (c : BitVec 2) (z : BitVec 4) (f : BitVec 3) (g : BitVec 8)
  /-- CBCAST (R207): Runs binomial-tree broadcast courses from ROOT. -/
  | cbcast (x : BitVec 4) (d : BitVec 2) (c : BitVec 2) (z : BitVec 4) (f : BitVec 3) (g : BitVec 8)
  /-- CBAR (R210): Runs a barrier course, or arrives at the tracker of a group with cores. -/
  | cbar (x : BitVec 4) (g : BitVec 8)
  /-- MSGO (R211): Sends a word with the member index to the owner context's port. -/
  | msgo (y : BitVec 4)
  /-- MSGI (R211): Pops the oldest mailbox word, waiting while it is empty. -/
  | msgi (x : BitVec 4)
  /-- OVSW (R212): Continues at a word of the other overlay slot once it is fully written. -/
  | ovsw (i : BitVec 10)
  /-- HALT (R212): Ends the member's part of the RKRUN. -/
  | mwHalt
  /-- Event RESULT_DELIVERY (R21): A fixed-latency or interlocked result arrives and fills its assigned slot or register. -/
  | resultDelivery (core ctx : Nat)
  /-- Event INSTRUCTION_FETCH_RETURN (R87): An instruction word that missed the L1 instruction cache arrives and its context becomes ready. -/
  | instructionFetchReturn (core ctx : Nat)
  /-- Event PAGE_WALK (R287): A translation slice receives a miss and walks the VD's page tables. -/
  | pageWalk (core vd : Nat) (va : BitVec 55) (k : AccessKind)
  /-- Event TRANSLATION_ACK (R135): The translation slice answers an access with an acknowledgement or a fault. -/
  | translationAck (core ctx : Nat)
  /-- Event DUP_REVOCATION (R293): The master pager revokes duplicates of a page and then services held writes. -/
  | dupRevocation (vd : Nat) (va : BitVec 55)
  /-- Event FAULT_RING_ENTRY (R295): The pagers place a fault in the VD's fault ring and raise its MSI. -/
  | faultRingEntry (vd : Nat)
  /-- Event PAGER_ANSWER (R295): A handler's ANSWER with bit 63 set is delivered to $reply or as a pager notice. -/
  | pagerAnswer (vd n : Nat)
  /-- Event PAGER_REPLY (R101): A pager writes $reply, making the sleeping context reissue or trap. -/
  | pagerReply (core ctx : Nat) (v : BitVec 64)
  /-- Event UPCALL_DELIVERY (R99): A waiting fault record is delivered to the control context at an instruction boundary. -/
  | upcallDelivery (core : Nat)
  /-- Event PAGER_NOTICE (R100): A pager notice word arrives on port p3 of the control context. -/
  | pagerNotice (core : Nat) (v : BitVec 64)
  /-- Event TINV_COMPLETE (R291): Every slice and cluster has acknowledged an invalidation and the blocked TINV completes. -/
  | tinvComplete (core ctx : Nat)
  /-- Event PORT_WORD_ARRIVAL (R153): A sent port word enters the partner's arrival queue, is discarded, or is diverted to a spill queue. -/
  | portWordArrival (n : Nat)
  /-- Event WAITA_REREAD (R107): A write to the waited line makes a WAITA read its word again. -/
  | waitaReread (core ctx : Nat)
  /-- Event SFU_REQUEST_COMPLETE (R120): The special-function unit finishes a queued request and delivers its result. -/
  | sfuRequestComplete (core : Nat)
  /-- Event ENGINE_COMMAND_START (R161): A queued engine command starts once its WAIT8 slots and earlier accesses allow. -/
  | engineCommandStart (core : Nat)
  /-- Event CPY_COMPLETION (R168): A copy writes its bytes, full bits, completion word, CSTAT and slot in order. -/
  | cpyCompletion (core : Nat)
  /-- Event MU_COMMAND_START (R175): The MU chooses the next tile command by weighted round robin and starts it. -/
  | muCommandStart (mg : Nat)
  /-- Event MX_COMMAND_COMPLETE (R173): A tile command finishes and writes the whole tile as one update. -/
  | mxCommandComplete (mg : Nat)
  /-- Event COMMAND_RING_DISPATCH (R310): A base-die front end takes a command ring entry and starts its command. -/
  | commandRingDispatch (vd n : Nat)
  /-- Event COURSE_OPEN (R252): A member's base die checks, flushes and opens a course. -/
  | courseOpen (id : Nat)
  /-- Event MEMBER_READY (R252): A member finishes its work and declares ready to the course root. -/
  | memberReady (id member : Nat)
  /-- Event KEYSTONE (R253): At ring time T every member flips its remap entries and begins invalidation. -/
  | keystone (id : Nat)
  /-- Event COURSE_CANCEL (R253): A missing acknowledgement at T − 60 ns cancels the course. -/
  | courseCancel (id : Nat)
  /-- Event KEYSTONE_INVALIDATION_DONE (R258): Invalidation of destination lines completes and held-back accesses are served. -/
  | keystoneInvalidationDone (id : Nat)
  /-- Event MEMBER_LOSS (R261): A member stops answering the ring for 2 µs or reports a stopping error. -/
  | memberLoss (rank : Nat)
  /-- Event COURSE_TIMEOUT (R261): A member is not ready 100 µs after the first, and the course fails TIMEOUT. -/
  | courseTimeout (id : Nat)
  /-- Event COLL_DEADLINE (R261): A COLL's DEADLINE passes and its open course fails TIMEOUT. -/
  | collDeadline (vd n : Nat)
  /-- Event COLL_COMPLETION (R182): After the last course the base die writes the status word, DONEVAL and decrements the slot. -/
  | collCompletion (vd n : Nat)
  /-- Event RKOVL_COMPLETION (R185): An overlay has been written into every member slot and the command completes. -/
  | rkovlCompletion (vd n : Nat)
  /-- Event RKRUN_COMPLETION (R185): Every member has halted or faulted and the RKRUN writes its words. -/
  | rkrunCompletion (vd n : Nat)
  /-- Event RKSIG_MAILBOX_DELIVERY (R186): A held RKSIG word enters a mailbox when MSGI makes room. -/
  | rksigMailboxDelivery (rank : Nat)
  /-- Event CBAR_TIMEOUT (R210): A CBAR phase does not complete within 100 µs and CBAR writes TIMEOUT. -/
  | cbarTimeout (rank : Nat)
  /-- Event OUTSIDE_ACCESS_ARRIVAL (R254): An outside access is stamped at a base-die front end and served or held. -/
  | outsideAccessArrival (rank row col : Nat) (wr : Bool) (len : Nat) (data : BitVec 512)
  /-- Event RANK_CHECK_TIMER (R271): 192 ns after its last check a rank is checked at its next instruction boundary. -/
  | rankCheckTimer (rank : Nat)
  /-- Event BANK_RETURN (R259): The arbitration window ends and the rank resumes holding the bank. -/
  | bankReturn (rank : Nat)
  /-- Event BANK_REFRESH (R271): A refresh falls due and suspends the rank for at most 160 ns. -/
  | bankRefresh (rank : Nat)
  /-- Event CHANNEL_POWER_DOWN (R262): Ranks spill their images to save rows and the channel enters self-refresh. -/
  | channelPowerDown (ch : Nat)
  /-- Event CHANNEL_WAKE (R263): An access wakes a sleeping channel and its ranks reload their images. -/
  | channelWake (ch : Nat)
  /-- Event LAUNCH_DOORBELL (R354): A write to a BAR0 doorbell queues a launch as GLAUNCH would. -/
  | launchDoorbell (vd q : Nat) (va : BitVec 64)
  /-- Event HOST_APERTURE_ACCESS (R354): A host access through BAR2 is translated by the VD's page tables. -/
  | hostApertureAccess (vd : Nat) (wr : Bool) (va : BitVec 55) (len : Nat) (data : BitVec 64)
  /-- Event LAUNCH_START (R273): A queue's head launch starts, loads its group table and places root nodes in the pool. -/
  | launchStart (vd q : Nat)
  /-- Event TERMINATION_SWEEP (R281): Every 500 ns the gang's reduction tree collects idle bits and port counts. -/
  | terminationSweep (vd q node : Nat)
  /-- Event RANK_NODE_END (R282): Every member of a RANK node has halted or faulted and the node ends. -/
  | rankNodeEnd (vd q node : Nat)
  /-- Event PREEMPTION (R297): A mesh pre-emption message stops a core and writes its image to the save area. -/
  | preemption (core : Nat)
  /-- Event CORE_RESUMPTION (R299): A saved core image is loaded onto a core of the VD and its spilled words are replayed. -/
  | coreResumption (vd origin core : Nat)
  /-- Event CREATE (R303): Creates a VD from a 128-byte descriptor. -/
  | create (vd : Nat) (arg : BitVec 48)
  /-- Event STOP (R313): Schedules an equinox stop of a running VD at ring time Te. -/
  | stop (vd : Nat) (arg : BitVec 48)
  /-- Event EQUINOX_STOP (R313): At Te the VD stops issue, flushes in-flight packets and saves every core and rank. -/
  | equinoxStop (vd : Nat)
  /-- Event RESUME (R315): Rereads the descriptor, reloads images and restarts the VD at Tr. -/
  | resume (vd : Nat) (arg : BitVec 48)
  /-- Event RESET (R316): Function-level reset of one VD. -/
  | reset (vd : Nat) (arg : BitVec 48)
  /-- Event TEARDOWN (R317): Resets a stopped VD, kills its keys and frees its resources. -/
  | teardown (vd : Nat) (arg : BitVec 48)
  /-- Event KEYGEN (R306): Draws a fresh AES-256-XTS key into a VD key slot. -/
  | keygen (vd : Nat) (arg : BitVec 48)
  /-- Event KEYKILL (R306): Zeroises a key slot and invalidates windows, entries and lines that use it. -/
  | keykill (vd : Nat) (arg : BitVec 48)
  /-- Event PERMISSION_ENTRY_WRITE (R308): The hypervisor writes a base-die permission entry, refused if it breaks a condition. -/
  | permissionEntryWrite (bd e : Nat) (v : BitVec 128)
  /-- Event WINDOW_ENTRY_WRITE (R221): The hypervisor writes a VD memory window entry, refused if it breaks a condition. -/
  | windowEntryWrite (vd w : Nat) (v : BitVec 128)
  /-- Event RANK_ENABLE_MAP_WRITE (R249): The hypervisor writes a word of a base die's rank-enable map. -/
  | rankEnableMapWrite (bd w : Nat) (v : BitVec 64)
  /-- Event REGISTER_WRITE (R355): A write to a management or debug register that has no behaviour of its own. -/
  | registerWrite (off : Nat) (v : BitVec 64)
  /-- Event ATTACH (R357): Attaches a debugger to the selected contexts. -/
  | attach
  /-- Event DETACH (R357): Detaches the debugger and resumes the contexts it halted. -/
  | detach
  /-- Event DEBUG_HALT (R357): Halts the selected contexts at an instruction boundary. -/
  | debugHalt
  /-- Event DEBUG_RESUME (R357): Lets halted contexts issue again. -/
  | debugResume
  /-- Event DEBUG_STEP (R357): Lets one context issue exactly one instruction and halts it again. -/
  | debugStep
  /-- Event DEBUG_READ (R357): Copies 8 bytes of the core image into DDATA. -/
  | debugRead
  /-- Event DEBUG_WRITE (R357): Copies DDATA into 8 bytes of the core image. -/
  | debugWrite
  /-- Event VIGIL_COLLAPSE (R335): After 50 µs of quiescence the VD collapses into vigil at its wake class. -/
  | vigilCollapse (vd : Nat)
  /-- Event WAKE (R338): A wake write or launch restores a VD in vigil. -/
  | wake (vd : Nat)
  /-- Event LINK_PORT_WAKE (R337): An arriving packet brings a low-power link port back. -/
  | linkPortWake (port : Nat)
  /-- Event UNCORRECTABLE_ERROR (R342): A read meets an uncorrectable error, writes a record and leads to MCHK or loss. -/
  | uncorrectableError (e : ErrorReport)
  /-- Event PATROL_SCRUB (R344): The scrubber reads and corrects rows so that each is visited every 24 h. -/
  | patrolScrub (rank row : Nat) (found : Bool)
  /-- Event SPARE_SUBSTITUTION (R345): An aging limit or error count brings in a spare unit. -/
  | spareSubstitution (u : SpareUnit)
  /-- Event BANK_MIGRATION (R346): A failing bank is copied row by row into the spare bank and switched. -/
  | bankMigration (rank : Nat)
  /-- Event ALMANAC_WRITE (R347): The security processor writes the older almanac copy after a substitution. -/
  | almanacWrite
  /-- Event POWER_GOOD (R349): Power-good starts the boot sequence of verification, training and VD 0 creation. -/
  | powerGood
  /-- Event POWER_MANAGER_ADJUST (R14): The power manager lowers or restores MU rate, rank clock or core issue to hold the bound. -/
  | powerManagerAdjust (mustep rclk : BitVec 8) (tj power : BitVec 16)
  /-- Event THERMAL_TRIP (R358): The junction reaches 115 °C and the package stops issue and enters recovery. -/
  | thermalTrip
  /-- Event GET_VERSION (R353): SPDM request returning supported versions. -/
  | getVersion (iface : SpdmPath)
  /-- Event GET_CAPABILITIES (R353): SPDM request returning capabilities. -/
  | getCapabilities (iface : SpdmPath)
  /-- Event NEGOTIATE_ALGORITHMS (R353): SPDM request negotiating algorithms. -/
  | negotiateAlgorithms (iface : SpdmPath)
  /-- Event GET_DIGESTS (R353): SPDM request returning certificate digests. -/
  | getDigests (iface : SpdmPath)
  /-- Event GET_CERTIFICATE (R353): SPDM request returning a certificate chain. -/
  | getCertificate (iface : SpdmPath) (off len : BitVec 16)
  /-- Event CHALLENGE (R353): SPDM challenge signed by the alias key. -/
  | challenge (iface : SpdmPath) (nonce : BitVec 256)
  /-- Event GET_MEASUREMENTS (R353): SPDM request returning M0–M7 with ECDSA and LMS signatures. -/
  | getMeasurements (iface : SpdmPath) (index : BitVec 8) (nonce : BitVec 256)
  /-- Event KEY_EXCHANGE (R353): SPDM key exchange opening a secure session. -/
  | keyExchange (iface : SpdmPath) (share : BitVec 768)
  /-- Event FINISH (R353): SPDM request completing a session handshake. -/
  | finish (iface : SpdmPath) (mac : BitVec 384)
  /-- Event END_SESSION (R353): SPDM request ending a secure session. -/
  | endSession (iface : SpdmPath)
  /-- Event READ (R324): A remote read packet arrives at the target package. -/
  | read (p : Packet)
  /-- Event READ_RESP (R324): A read response packet arrives at the requester. -/
  | readResp (p : Packet)
  /-- Event WRITE (R332): A remote write packet arrives and is performed at its home. -/
  | write (p : Packet)
  /-- Event ATOMIC (R324): A remote atomic packet arrives and is performed at its home. -/
  | atomic (p : Packet)
  /-- Event ATOMIC_RESP (R332): An atomic response packet arrives at the requester. -/
  | atomicResp (p : Packet)
  /-- Event UPDATE (R148): A remote update packet arrives and is combined at its home. -/
  | update (p : Packet)
  /-- Event ACK (R332): An acknowledgement packet arrives at the requester. -/
  | ack (p : Packet)
  /-- Event NACK (R324): A negative acknowledgement packet arrives. -/
  | nack (p : Packet)
  /-- Event STEP (R327): A collective link step packet arrives between packages. -/
  | step (p : Packet)
  /-- Event STEP_RED (R329): A reducible collective step packet is sent toward reducing switches. -/
  | stepRed (p : Packet)
  /-- Event STEP_RES (R329): A switch's reduced result packet arrives at a package. -/
  | stepRes (p : Packet)
  /-- Event KEEPALIVE (R325): A keepalive packet arrives from a peer. -/
  | keepalive (p : Packet)
  /-- Event KEEPALIVE_SEND (R325): Every 1 µs a keepalive is sent to each peer with traffic outstanding. -/
  | keepaliveSend
  /-- Event PACKAGE_LOSS (R331): A peer package is declared lost after 10 µs of silence, path loss or session end. -/
  | packageLoss (pkg : Nat)
  /-- Event HOME_ACKNOWLEDGEMENT (R136): A home slice acknowledges that a store, atomic or update from a core of its own package has been performed, which frees waiting releases, FENCEs, HALT and KILLH. -/
  | homeAcknowledgement (core ctx : Nat)
  /-- Event PBIND_ACKNOWLEDGEMENT (R151): The partner core acknowledges a PBIND to one of its ports, and the PBIND completes. -/
  | pbindAcknowledgement (core ctx : Nat)
  /-- Event DEVICE_DMA (R354): A device behind a root port reads or writes package memory through the application die's IOMMU, and such a write may be a wake write. -/
  | deviceDma (wr : Bool) (pa : BitVec 52) (len : Nat) (data : BitVec 64)
  /-- Event APPLICATION_CORE_ACCESS (R273): A RISC-V application core accesses package memory or a launch queue, for example a runtime placing a launch or writing a watched word. -/
  | applicationCoreAccess (op : AppOp)
  /-- Event DRAIN_TIMEOUT (R316): Ten microseconds after a RESET begins draining, any request of the VD still outstanding is killed. -/
  | drainTimeout (vd : Nat)
  /-- Event POWER_LOSS (R347): The supply is lost; all volatile state is gone and only the flash, almanac included, remains. -/
  | powerLoss
  /-- Event FLASH_UPDATE_COMMAND (R349): The management controller sends a flash-update command, which the package accepts, in recovery among other states. -/
  | flashUpdateCommand (slot : Nat) (img : FlashImage)
  /-- Event CONFIGURATION_REQUEST (R349): A PCIe configuration request reaches the endpoint and is answered with Request Retry Status until boot step 7 completes. -/
  | configurationRequest (fn reg : Nat)
  /-- Event LINK_KEY_REPLACEMENT (R326): Before a sealed link key's 48-bit nonce counter wraps, the security processors replace the key. -/
  | linkKeyReplacement (domain : BitVec 16) (src dst : BitVec 10)
  deriving DecidableEq, Repr

end Sys2Proof
end

