-- ==== Sys2Proof/Machine/State.lean ====
section
/-! DEFINITION. The state of the package as plain data, the stops of a step, and the state after reset. -/

namespace Sys2Proof.Machine

/-! ### Belt slots and registers with their writes in flight (R21, R29 to R31) -/

/-- A write that has issued: `due` is the cycle in which it is ready, `none` while an interlocked producer
(`tag`) has not delivered; `fixed` marks a fixed-latency producer, the only kind R30 looks at. -/
structure Pending (α : Type) where
  val   : α
  due   : Option Nat
  fixed : Bool
  tag   : Nat
  deriving DecidableEq, Repr

/-- A belt slot or register: what it holds and the writes to it that are on their way, oldest first. -/
structure Cell (α : Type) where
  cur  : α
  pend : List (Pending α)
  deriving DecidableEq, Repr

/-! ### A context (R18, R19) -/

/-- R18. For the control context `free` means halted. -/
inductive CtxState where
  | free | live | faulted | suspended
  deriving DecidableEq, Repr

/-- Why the next instruction of a context did not issue at its last try (R285, R280): a WAITA waits for a write to a line of a bank,
numbered by its first byte's memory key / 64. -/
inductive WaitReason where
  | port (p : Nat) | room | interlock | waita (line : Nat) | joinh (h : Nat) | dwait | mwait | barrier | full
  | queue | fence | reply | hold | ring | drain | bank | remote | helper
  deriving DecidableEq, Repr

/-- A lazy register (R26); digit 1 is bit 127 of `digits`. -/
structure Lazy where
  digits : W128
  len    : Nat
  handle : BitVec 16
  gen    : BitVec 32
  off    : W64
  deriving DecidableEq, Repr

/-- Where a port sends (R151). -/
structure PortDest where
  core : Nat
  ctx  : Nat
  port : Nat
  deriving DecidableEq, Repr

/-- A port register: binding and arrival queue (R25, R152, R153). -/
structure Port where
  dest     : Option PortDest
  standing : Bool
  queue    : List W64
  deriving DecidableEq, Repr

/-- A stream handle (R124, R125). -/
structure Stream where
  bound    : Bool
  key      : W256
  sid      : W64
  counting : Bool
  gen      : BitVec 32
  deriving DecidableEq, Repr

/-- The repetition state (R37, R121); `body` is the repetition buffer, empty when it must be fetched again. -/
structure Rep where
  remaining : W64
  base      : W64
  len       : Nat
  pos       : Nat
  body      : List Word
  deriving DecidableEq, Repr

/-- A commit group of MX commands (R176): commands not yet complete and the status so far. -/
structure CommitGroup where
  id     : Nat
  left   : Nat
  status : BitVec 16
  deriving DecidableEq, Repr

/-- A COLL, RKOVL or RKRUN of the context by its handle (R183); `seq` is its number in the command ring. -/
structure CmdRef where
  handle : BitVec 32
  seq    : Nat
  status : Option W64
  deriving DecidableEq, Repr

/-- A fault of the context that the pagers hold (R101): the context sleeps on $reply. -/
structure PendingFault where
  cause : BitVec 8
  va    : W64
  deriving DecidableEq, Repr

/-- An access held for a DUP or MIG page (R292): no answer yet, or the pager's answer (true: serviced). -/
structure Hold where
  va     : W64
  answer : Option Bool
  deriving DecidableEq, Repr

/-- A byte of a bank by rank, logical row and byte in the row. -/
structure Place where
  rank : Nat
  row  : Nat
  byte : Nat
  deriving DecidableEq, Repr

/-- Where an access goes once it has translated: bytes at home, the management window, another package (package, physical
address, length), a scratchpad of the cluster (core, offset, length), or two such parts when the access crosses a page (the length of
the first). -/
inductive Target where
  | home (ps : List Place)
  | mgmt (off len : Nat)
  | remote (pkg pa len : Nat)
  | spm (core off len : Nat)
  | two (n : Nat) (a b : Target)
  deriving DecidableEq, Repr

/-- A store that has issued and is performed later (R108, R136, R142), with the new state of its full/empty bit if it sets one. `id` is
its request's number, and `sent` says that it has left and waits at its banks (R371); `awaits` are the accesses that must have been
performed first, `after` the stores that must have left. -/
structure Parked where
  id     : Nat
  va     : Nat
  data   : List Byte
  target : Target
  full   : Option Bool
  /-- address of its instruction -/
  pc     : W64
  awaits : List Nat
  after  : List Nat
  sent   : Bool
  vd     : Nat
  deriving DecidableEq, Repr

/-- How the bytes of a load become the words of its result: a word of 1 to 8 bytes zero- or sign-extended, vector slots, or the
lanes of LDX with the pointer and the rounding of each lane. -/
inductive LoadShape where
  | word (size : Nat) (sign : Bool)
  | slots (words : Nat)
  | lanes (p : W64) (t : BitVec 1) (mode : Nat) (words : List Nat)
  deriving DecidableEq, Repr

/-- A part of a load: its request, the bytes it asks for, and of those the ones the load wants (the first, how many), once they came.
A part that misses the L1 and allocates asks for its whole line (R217). -/
structure LoadPart where
  ident : Nat
  asks  : Nat
  skip  : Nat
  len   : Nat
  data  : Option (List Byte)
  deriving DecidableEq, Repr

/-- A load or atomic of the context whose value is still to come: from another package (R135), from a bank at which it waits (R371), or
from an access that is not yet performed because the accesses `after` come before it (R136; `sent` is false until they are). `tag` numbers
the destination; `acq` says that later accesses wait for it (R136), `fill` that its lines enter the L1 (R217). -/
structure Load where
  tag   : Nat
  va    : Nat
  len   : Nat
  shape : LoadShape
  /-- address of its instruction -/
  pc    : W64
  acq   : Bool
  atomic : Bool
  fill  : Bool
  target : Target
  after : List Nat
  sent  : Bool
  parts : List LoadPart
  deriving DecidableEq, Repr

structure Context where
  status : CtxState
  sup    : Bool
  pc     : W64
  belt   : List (Cell W64)
  btail  : Cell W64
  vbelt  : List (Cell W128)
  vtail  : Cell W128
  n      : Vector (Cell W64) 8
  a      : Vector (Cell W64) 4
  as     : Vector (BitVec 32) 4
  z      : Vector Lazy 8
  ports  : Vector Port 4
  slots  : Vector (BitVec 8) 8
  hnd    : Vector Stream 16
  rep    : Option Rep
  shadow : Option Rep
  mode   : W64
  flags  : W64
  srh    : W64
  sro    : W64
  reply  : W64
  epc    : W64
  cause  : W64
  tval   : W64
  cg     : Vector W64 17
  mg     : Vector W64 12
  /-- earliest cycle of the next issue (R28) -/
  bound  : Nat
  /-- YIELD (R92): contexts that must issue first, and the cycle that ends the hold -/
  yield  : List Nat
  yieldEnd : Nat
  wait   : Option WaitReason
  /-- engine and rank commands that set a slot and have not completed: (id, slot) (R161) -/
  open_  : List (Nat × Nat)
  grpNow : CommitGroup
  groups : List CommitGroup
  unrep  : BitVec 16
  cmds   : List CmdRef
  /-- own-package accesses whose home has not acknowledged yet, and remote ones by package (R136, R108) -/
  unacked : Nat
  /-- remote stores and updates that are not acknowledged: (request, package) -/
  remote : List (Nat × Nat)
  parked : List Parked
  loads  : List Load
  /-- the remote read that a WAITA has sent, and its answer once it came (R107) -/
  ask    : Option Nat
  answer : Option (BitVec 512)
  pfault : Option PendingFault
  /-- SLEEPR (R109): asleep, and whether $reply was written since -/
  sleep  : Option Bool
  hold   : Option Hold
  /-- a TINV the context blocks on: VD, page and control bits (R110) -/
  tinv   : Option (W64 × W64)
  /-- a PBIND whose partner core has not acknowledged: port and owner (R151) -/
  pbind  : Option (Nat × Nat)
  /-- the phase a waiting BAR arrived in, by the address of the BAR (R158) -/
  barrier : List (Nat × Nat)
  /-- words a waiting PDRAIN has discarded, by its address (R156) -/
  drained : List (Nat × Nat)
  /-- a pending MCHK with the address of its record, and the destinations it is tied to (R342) -/
  mchk   : Option W64
  poison : List (Nat × W64)
  attached : Bool
  dhalt  : Bool
  dstep  : Bool
  reason : BitVec 8
  deriving DecidableEq, Repr

/-! ### A core (R19) -/

/-- A request of the special-function unit (R120): which cells it fills (`tag`), and the result. -/
structure SfuReq where
  ctx    : Nat
  tag    : Nat
  result : W128
  dead   : Bool
  deriving DecidableEq, Repr

/-- A copy or matrix command in its queue with everything it captured at issue (R160, R161). -/
structure EngCmd where
  id     : Nat
  ctx    : Nat
  word   : Word
  a      : W64
  b      : W64
  slot   : Option Nat
  deps   : List Nat
  group  : Nat
  geom   : List W64
  frm    : Nat
  stream : Stream
  sro    : W64
  started : Bool
  /-- KILLH met the command in progress: it changes no slot (R93, R177) -/
  dead   : Bool
  /-- lines of another package it reads: request, physical address, answer (R324) -/
  lines  : List (Nat × Nat × Option (BitVec 512))
  /-- its bytes are written; writes to another package that are not acknowledged -/
  written : Bool
  idents : List Nat
  /-- the engine status its writes ended with (R162) -/
  status : BitVec 16
  /-- a write to a DUP or MIG page that the pagers hold (R292) -/
  held   : Option Hold
  deriving DecidableEq, Repr

/-- A tag of a tile slot (R171): format code, 0 when untagged, and α. -/
structure TileTag where
  fmt   : BitVec 8
  alpha : BitVec 16
  deriving DecidableEq, Repr

/-- A fault record of an upcall not yet delivered (R99). -/
structure UpRec where
  seq : Nat
  h   : Nat
  deriving DecidableEq, Repr

/-- The node a core runs: launch queue, launch number, node index (R273). -/
structure NodeRef where
  q      : Nat
  launch : Nat
  node   : Nat
  deriving DecidableEq, Repr

/-- Whether a core issues (R297, R313, R335). -/
inductive CoreMode where
  | running | preempted | stopped | asleep | retired
  deriving DecidableEq, Repr

/-- An LDF or LDFE that waits at the scratchpad that owns its word (R144), with its destination and base operand. -/
structure FeWaiter where
  word : Nat
  core : Nat
  ctx  : Nat
  empties : Bool
  addr : W64
  stall : Nat
  dest : BitVec 5
  base : BitVec 5
  deriving DecidableEq, Repr

/-- A result that goes through a pointer and is not ready yet (R29): the bytes at `off` are written in cycle `due`, or when
producer `tag` delivers; `tag` numbers the write in either case. -/
structure SpmWrite where
  ctx  : Nat
  off  : Nat
  data : List Byte
  due  : Option Nat
  tag  : Nat
  deriving DecidableEq, Repr

/-- The contributions of an update-only line (R148): type and op, and the words by byte offset in the line. -/
structure UpdLine where
  ty    : Nat
  op    : Nat
  words : List (Nat × Nat)
  deriving DecidableEq, Repr

/-- A line of an L1 data cache (R217, R289): virtual line and VD, the physical line it stands for (addresses by 64), the line of the
bank it holds (rank, row and byte as memory is keyed, by 64; for a line of another package a number above every bank's), and of its
translation W, D, G and whether it maps 512 MiB. The data of a line of this package never differ from the home's, so the model keeps none;
a line of another package keeps its data (R234), an update-only line its contributions. -/
structure L1Line where
  line : Nat
  vd   : Nat
  pa   : Nat
  key  : Nat
  w    : Bool
  d    : Bool
  g    : Bool
  big  : Bool
  upd  : Option UpdLine
  data : Option (BitVec 512)
  deriving DecidableEq, Repr

structure Core where
  clock  : Nat
  rot    : Nat
  ctxs   : Vector Context 11
  feat   : W64
  vd     : Nat
  upv    : W64
  upc    : W64
  mxw    : W64
  /-- scratchpad bytes that are not zero, by offset; words that are full (R143, R216) -/
  spm    : List Host.Cell
  full   : List Nat
  waiters : List FeWaiter
  /-- tile memory bytes that are not zero, by offset in the 64 KiB partition (R171) -/
  tile   : List Host.Cell
  tags   : Vector TileTag 16
  sfu    : List SfuReq
  copies : List EngCmd
  mx     : List EngCmd
  /-- results on their way through pointers (R29) -/
  spmDue : List SpmWrite
  /-- lines of the L1 data cache (R217) -/
  l1     : List L1Line
  /-- instruction words the L1 instruction cache holds, by virtual address (R217, R231); of lines that a leaf of 512 MiB or a global
  one maps: whether it maps 512 MiB, and G (R289) -/
  icache : List (Nat × Word)
  itags  : List (Nat × Bool × Bool)
  /-- pager notices on their way to p3 of the control context (R100) -/
  notices : List W64
  upcall : Bool
  upslot : Bool
  fseq   : Nat
  recs   : List UpRec
  node   : Option NodeRef
  sent   : W64
  rcvd   : W64
  lastVd : Option Nat
  mode   : CoreMode
  /-- the curve number whose port words and group membership this core has (R299) -/
  origin : Nat
  watch  : Vector W64 4
  /-- scratchpad words, and words of the tile memory, whose check code fails (R342) -/
  bad    : List Nat
  tbad   : List Nat
  deriving DecidableEq, Repr

/-! ### A bank rank (R189) and its bank (R248 to R262) -/

/-- An A80 record (R54). -/
structure A80 where
  v     : BitVec 80
  w     : BitVec 8
  flags : BitVec 8
  alpha : BitVec 16
  nan   : BitVec 16
  deriving DecidableEq, Repr

/-- An accumulator of a rank: eight records under one α (R189, R202). -/
structure Acc where
  alpha : BitVec 16
  recs  : Vector A80 8
  deriving DecidableEq, Repr

/-- A row cursor (R189, R197). -/
structure Cursor where
  row    : BitVec 16
  col    : BitVec 5
  stride : BitVec 16
  deriving DecidableEq, Repr

/-- RKSTAT's states (R186). -/
inductive RankState where
  | idle | running | suspended | spilled
  deriving DecidableEq, Repr

/-- What a rank waits for inside an instruction (R194). -/
inductive RankWait where
  | course (id : Nat) | barrier (group phase since : Nat) | mailbox | port | overlay
  deriving DecidableEq, Repr

/-- The RKRUN or RANK node a rank runs (R185, R189, R282): its VD, launch queue, command (none for a node). -/
structure RankRun where
  vd    : Nat
  q     : Nat
  cmd   : Option Nat
  launch : Nat
  node  : Nat
  k     : Nat
  n     : Nat
  owner : Option (Nat × Nat × Nat)
  /-- the group table of the launch it serves (R224) -/
  groups : List (List (BitVec 32))
  deriving DecidableEq, Repr

/-- A held write (R255): place in the bank (row × 1,024 + byte), bytes. -/
structure HeldWrite where
  at_  : Nat
  data : List Byte
  deriving DecidableEq, Repr

/-- What an outside access does at its bank: read, write, ATOM (op, operand, expected value), an update (type, op, value), or only
ask for a window in the name of an engine. -/
inductive BankOp where
  | read
  | write (bs : List Byte)
  | atom (op data expected : Nat)
  | upd (ty op v : Nat)
  | window
  deriving DecidableEq, Repr

/-- Who an outside access is performed for: a context (a part of a load, an atomic, a store; with the virtual line), a request of
another package, a read of several lines under way (`Gather`), an engine command of a core, contributions that have left the L1 of a core
(R148), or nobody that waits for it by name. -/
inductive BankUser where
  | context (core ctx line : Nat)
  | packet (p : Packet)
  | gather
  | engine (core : Nat)
  | merge (core : Nat)
  | nobody
  deriving DecidableEq, Repr

/-- A read of another package, or of a reader outside, that has reached its banks: the request it answers (none for the reader), and
its lines, each a request, its length, and its bytes once it was served. -/
structure Gather where
  packet : Option Packet
  vd     : Nat
  parts  : List (Nat × Nat × Option (List Byte))
  deriving DecidableEq, Repr

/-- An outside access that waits at the front end of its bank (R259, R371), in the name of a VD, with its stamp (R251): none while it
waits unstamped in the channel queue (R256). `held` marks a write that arrived while a course with its row was open (R255). -/
structure OutsideReq where
  ident : Nat
  vd    : Nat
  user  : BankUser
  row   : Nat
  col   : Nat
  len   : Nat
  op    : BankOp
  stamp : Option Nat
  held  : Bool
  deriving DecidableEq, Repr

/-- A physical row that a keystone has replaced and that a waiting access may still name (R250): logical row, physical row, T. -/
structure OldRow where
  row  : Nat
  phys : Nat
  at_  : Nat
  deriving DecidableEq, Repr

/-- The physical row a bank has open for its rank (R269), and by the rank's own count of ns when it was activated and last written. -/
structure OpenRow where
  row  : Nat
  act  : Nat
  wrote : Option Nat
  deriving DecidableEq, Repr

structure Rank where
  ovl    : List (Nat × Word)
  slot   : BitVec 1
  upc    : Nat
  s      : Vector Word 16
  v      : Vector W256 8
  k      : Vector Acc 4
  c      : Vector Cursor 4
  fl     : BitVec 5
  /-- events of the contributions and roundings of the course instruction in progress (R206) -/
  cfl    : BitVec 5
  mailbox : List Word
  holdst : List Word
  run    : Option RankRun
  /-- RKRUNs that wait for this member to halt (R185): command numbers -/
  queued : List (RankRun × Word × Nat × Nat)
  state  : RankState
  wait   : Option RankWait
  /-- the course this rank has open (R204), and the code a failed one left for its CEND (R205) -/
  course : Option Nat
  failed : Option Nat
  /-- row ranges of the program course it has begun (R205) -/
  ranges : List (Nat × Nat)
  /-- the status register of the course instruction, CBEGIN or CEND it waits in (R206) -/
  dest   : Nat
  /-- committed courses of the instruction in progress -/
  done   : Nat
  /-- a stop that met a course already committed (R253): the code it ends with -/
  stop   : Option Nat
  /-- rows of a built-in course instruction that it has yet to read, and mortar rows it has yet to write (R259) -/
  reads  : Nat
  writes : Nat
  /-- ns since the last check of the front end (R259, R271) -/
  timer  : Nat
  /-- ns of its instructions so far, and the row it keeps open (R194) -/
  ns     : Nat
  open_  : Option OpenRow
  /-- no column word accessed since the bank came back (R259) -/
  fresh  : Bool
  pending : List OutsideReq
  enabled : Bool
  /-- logical rows whose physical row is not their own number; pool rows in order of use (R248) -/
  remap  : List (Nat × Nat)
  nextMortar : Nat
  freed  : List Nat
  /-- replaced rows that waiting accesses still name (R250) -/
  old    : List OldRow
  held   : List HeldWrite
  /-- the physical save rows (R248, R249), and the spill images written, alternating between them (R262) -/
  save   : Nat × Nat
  saves  : Nat
  lost   : Bool
  spare  : Bool
  /-- the bank migrates: the next row to copy to the spare (R346) -/
  migrates : Option Nat
  /-- images being written into a slot by RKOVLs that have begun: VD, command, slot (R212) -/
  writing : List (Nat × Nat × BitVec 1)
  /-- the VD whose image each slot holds (R316) -/
  loaded : List (Nat × Nat)
  deriving DecidableEq, Repr

/-- What a member runs in a course (R205, R207). -/
inductive CourseOp where
  | shift | xpose | a2a | red | rsc | gath | bcast | bar | program
  deriving DecidableEq, Repr

/-- A member that has joined a course, with its parameters (R204, R205). -/
structure CoursePart where
  member : Nat
  op     : CourseOp
  fmt    : Nat
  redop  : Nat
  count  : Nat
  extra  : Nat
  src    : Cursor
  dst    : Cursor
  ranges : List (Nat × Nat)
  deriving DecidableEq, Repr

/-- A course in progress (R252, R253). `cmd` is the COLL of the command ring that runs it, none for the ranks'
own courses; `members` are ranks by member index. Staged bytes are keyed as memory is, by logical row. -/
structure Course where
  id      : Nat
  vd      : Nat
  cmd     : Option Nat
  q       : Nat
  launch  : Nat
  group   : Nat
  solo    : Bool
  members : List Nat
  parts   : List CoursePart
  opened  : Bool
  /-- (rank, row) pairs: the whole footprint -/
  foot    : List (Nat × Nat)
  staged  : List (Nat × Byte)
  /-- bytes as they stood at the opening, where an access that had arrived before has changed them since (R266) -/
  under   : List (Nat × Byte)
  /-- number of this course within its instruction, of how many -/
  index   : Nat
  total   : Nat
  /-- members that are ready, with their ready times, and the keystone time (R253) -/
  ready   : List (Nat × Nat)
  keystone : Option Nat
  /-- flipped; the invalidation of R258 is outstanding -/
  flipped : Bool
  /-- member indices of a COLL's local members by position; empty when they are the positions themselves -/
  numbers : List Nat
  /-- ring time at which its first member came (R209, R261) -/
  since : Nat
  deriving DecidableEq, Repr

/-! ### Virtual devices (R301 to R318) -/

inductive VdState where
  | absent | running | stopping | stopped | vigil | stoppedVigil
  deriving DecidableEq, Repr

/-- The fields of a VD descriptor (R303). -/
structure VdDesc where
  ibase : Nat
  ilen  : Nat
  ptroot : W64
  trapvec : W64
  savebase : W64
  cmdring : W64
  fltring : W64
  ifile : W64
  crlog : Nat
  frlog : Nat
  flags : BitVec 16
  qos   : BitVec 32
  time  : W64
  dombase : W64
  deriving DecidableEq, Repr

/-- The commands of the command ring (R310). -/
inductive RingOp where
  | coll | rkovl | rkrun | rksig | rkstop
  deriving DecidableEq, Repr

inductive CmdState where
  | posted | running | finished (status : W64)
  deriving DecidableEq, Repr

/-- A command of the command ring (R310) until its slot has been decremented. -/
structure RingCmd where
  n      : Nat
  op     : RingOp
  core   : Nat
  ctx    : Nat
  q      : Nat
  block  : List Byte
  handle : BitVec 32
  deps   : List Nat
  id     : Nat
  slot   : Option Nat
  state  : CmdState
  /-- its 256-byte entry in the ring, and whether it is still taken -/
  entry  : Nat
  inRing : Bool
  /-- courses committed; final bytes with the course that writes them (R373); event flags (R181) -/
  courses : Nat
  total  : Nat
  plan   : List (Nat × List (Nat × Byte))
  /-- SEND of the local members of a COLL, as far as its courses have read it (R252) -/
  read   : List (Nat × List Byte)
  cflags : BitVec 5
  /-- members of an RKRUN that have halted, and the worst fault (member, code) -/
  halted : List Nat
  fault  : Option (Nat × Nat)
  issued : Nat
  /-- launch of the issuer's node, and its group table (R224) -/
  launch : Nat
  groups : List (List (BitVec 32))
  /-- a COLL's buffers, SEND and RECV: first row and offset in the slice (R179); α (R180) -/
  bufs   : List (Nat × Nat)
  alpha  : BitVec 16
  /-- a COLL across packages (R327): how far its link steps are, and this package's block -/
  links  : Nat
  own    : List (BitVec 128)
  /-- link steps it has taken (R328) -/
  lstep  : Nat
  /-- its completion words (R182): how many have left, and the request that is not acknowledged yet -/
  words  : Nat
  awaits : Option Nat
  /-- a write of the command that the pagers hold (R292) -/
  held   : Option Hold
  deriving DecidableEq, Repr

/-- A word of the device that has not left (R182, R283, R284): its number; it waits for requests and words that must be performed first,
for its page table's bank, or the pagers hold it (R292). `who` is the issuer of a command whose word it is, which a fault record names. -/
structure LateWord where
  ident : Nat
  who   : Option (Nat × Nat)
  addr  : W64
  val   : W64
  after : List Nat
  held  : Option Hold
  deriving DecidableEq, Repr

/-- A fault record on its way to, or in, the fault ring (R295); `slot` is its entry once placed. -/
structure RingFault where
  bytes  : List Byte
  core   : Nat
  ctx    : Nat
  upcall : Bool
  slot   : Option Nat
  h      : Nat
  seq    : Nat
  deriving DecidableEq, Repr

/-- A node in the pool keeps the ring time of its entry and the order of entries (R278). -/
inductive NodeState where
  | waiting | pooled (since order : Nat) | running | done (code : Nat)
  deriving DecidableEq, Repr

/-- A node of a launched graph (R275). -/
structure Node where
  kind  : Nat
  prio  : Nat
  feat  : BitVec 8
  left  : Nat
  succ  : List Nat
  size  : Nat
  slot  : Nat
  len   : Nat
  entry : W64
  arg   : W64
  doneAddr : W64
  doneVal : W64
  state : NodeState
  /-- cores of the gang by curve number; totals and idleness of the last sweep (R281) -/
  cores : List Nat
  sweep : Option (W64 × W64)
  /-- members of a RANK node that have halted, and the code of a fault -/
  halted : List Nat
  code  : Nat
  deriving DecidableEq, Repr

/-- A launch (R273, R274). -/
structure Launch where
  number : Nat
  fuse   : Bool
  msi    : Option (BitVec 32)
  groups : List (List (BitVec 32))
  doneAddr : W64
  doneVal : W64
  statAddr : W64
  nodes  : List Node
  started : Bool
  deriving DecidableEq, Repr

/-- Arrivals and elections of one group (R158, R159): per member index; rounds that have a winner. -/
structure Tracker where
  group   : Nat
  arrived : List (Nat × Nat)
  elected : List (Nat × Nat)
  won     : List Nat
  deriving DecidableEq, Repr

/-- One of the four launch queues with the group table and trackers of its launch (R224, R273). -/
structure LaunchQueue where
  launches : List Launch
  groups   : List (List (BitVec 32))
  trackers : List Tracker
  deriving DecidableEq, Repr

/-- A port word: destination, sender's node, values (R153, R281). -/
structure PortMsg where
  dst   : PortDest
  src   : Nat × Nat
  port  : Nat
  node  : Option NodeRef
  words : List W64
  /-- the interlocked producer that has not delivered the words yet (R29): they have not left the core -/
  due   : Option Nat
  /-- a word that a resumption has put back (R300): it goes before every new word to its queue -/
  spilled : Bool
  deriving DecidableEq, Repr

/-- An entry of the watch table (R335): the line of 64 bytes and the word of 8 by logical row, the expected value, the home slice. -/
structure Watch where
  line : Nat
  word : Nat
  expected : W64
  slice : Nat
  deriving DecidableEq, Repr

/-- A revocation that is open (R293): the page, whether it maps 512 MiB, and the master package that its entry named. -/
structure Revoke where
  page : Nat
  big  : Bool
  master : Nat
  deriving DecidableEq, Repr

/-- A node (`node` some), or a launch, that has ended and whose words are not all performed: what waits for them (R283, R284). -/
structure Ending where
  q      : Nat
  launch : Nat
  node   : Option Nat
  code   : Nat
  after  : List Nat
  deriving DecidableEq, Repr

structure Vd where
  state  : VdState
  desc   : VdDesc
  wins   : List (Nat × BitVec 128)
  /-- key slots that hold a key, with the number of the draw (R306) -/
  keys   : List (Nat × Nat)
  cmds   : List RingCmd
  seq    : Nat
  faults : List RingFault
  frpos  : Nat
  queues : Vector LaunchQueue 4
  /-- numbers of completed launches (R273) and the next number -/
  finished : List Nat
  nextLaunch : Nat
  /-- guest time (R318) -/
  b      : W64
  q      : W64
  p      : W64
  te     : Option Nat
  /-- the package it stopped in (R318) -/
  stopPkg : Nat
  /-- spilled port words by origin curve number, and packets captured by the routers (R300, R313) -/
  spill  : List (Nat × List PortMsg)
  captured : List PortMsg
  watches : List Watch
  /-- saved cores by origin curve number: what the image of R298 has no field for (R357) -/
  saved  : List (Nat × Core)
  /-- the node of each saved core (R299) -/
  savedNode : List (Nat × NodeRef)
  woken  : Bool
  /-- the collapse time of a VD in vigil (R340) -/
  tc     : Option Nat
  /-- requests still outstanding after RESET (R316) -/
  draining : Bool
  /-- what BAR0 shows at 0x40 + 8q: the outcome of the last doorbell of queue q (R354) -/
  results : Vector W64 4
  revoking : List Revoke
  late   : List LateWord
  endings : List Ending
  /-- a decision of its ready pool is due that could not be made yet (R278) -/
  walkDue : Bool
  /-- since when it has been quiescent without a break (R335) -/
  quiet  : Option Nat
  deriving DecidableEq, Repr

/-! ### The package -/

/-- A send that waits for room at its partner's core (R153). -/
structure SendWait where
  dst  : PortDest
  core : Nat
  ctx  : Nat
  deriving DecidableEq, Repr

/-- A leaf translation that the slices of a compute die hold (R219, R288). -/
structure Tlb where
  die  : Nat
  vd   : Nat
  page : Nat
  leaf : W64
  big  : Bool
  deriving DecidableEq, Repr

/-- What a request to another package is for: a load or atomic of a context, the read of a WAITA, a store or update of a context,
a completion word of the device, the fetch of a code line (its virtual line; `stale` after an IFENCE, R231), or an engine's line or
write. -/
inductive ReqKind where
  | load
  | waita
  | store
  | word
  | fetch (line : Nat) (stale : Bool)
  | engine
  deriving DecidableEq, Repr

/-- An outstanding request to another package (R324, R332), with the VD, the virtual and the physical address it was made for. -/
structure RemoteReq where
  ident : Nat
  pkg   : Nat
  core  : Nat
  ctx   : Nat
  kind  : ReqKind
  vd    : Nat
  va    : Nat
  pa    : Nat
  deriving DecidableEq, Repr

/-- A packet that has left (R324): its bytes on the wire, sealed where its VD seals (R326), and what R324 gives no layout for. -/
structure Sent where
  bytes : List Byte
  pa    : BitVec 52
  size  : Nat
  op    : PacketOp
  ident : Nat
  deriving DecidableEq, Repr

structure Link where
  seqOut : List (Nat × Nat)
  seqIn  : List (Nat × Nat)
  outbox : List Sent
  reqs   : List RemoteReq
  lost   : List Nat
  retried : List Nat
  /-- replacements of the key of (DOMAIN, SRC, DST), and sealed packets under it (R326) -/
  keyNo  : List (Nat × Nat)
  sealedCount : List (Nat × Nat)
  lowPower : List Nat
  downLanes : List (Nat × Nat)
  steps  : List Packet
  deriving DecidableEq, Repr

/-- A debug command that DCMD has taken, with the registers as they stood (R356). -/
structure DebugCmd where
  op   : BitVec 8
  sel  : W64
  addr : W64
  data : W64
  deriving DecidableEq, Repr

/-- The debug port (R356). -/
structure Debug where
  dsel  : W64
  daddr : W64
  ddata : W64
  cmd   : Option DebugCmd
  code  : BitVec 8
  deriving DecidableEq, Repr

/-- How far the package is in R349, or recovery after a step that failed. -/
inductive BootPhase where
  | off | booting (step : Nat) | ready | recovery (step : Nat)
  deriving DecidableEq, Repr

/-- One copy of the almanac (R347), with the signature of the device identity key (R352). -/
structure Almanac where
  version : Nat
  units   : List SpareUnit
  svn     : List (Nat × Nat)
  sig     : BitVec 768
  deriving DecidableEq, Repr

/-- The SPDM responder's side of a connection (R353). -/
structure Spdm where
  versionSent : Bool
  capsSent    : Bool
  algsSent    : Bool
  transcript  : List Byte
  session     : Option (BitVec 384)
  established : Bool
  /-- messages that have left in the session -/
  count       : Nat
  deriving DecidableEq, Repr

/-- What the package answers outside (R262, R349, R354): data, Request Retry Status, or that a channel sleeps. -/
inductive Answer where
  | data (v : W64)
  | retry
  | spilled (channel : Nat)
  deriving DecidableEq, Repr

structure Security where
  m      : Vector (BitVec 384) 8
  flash  : List (Nat × FlashImage)
  almanac : Almanac × Almanac
  pendingUnits : List SpareUnit
  spdm   : Spdm × Spdm
  out    : List (SpdmPath × List Byte)
  keyDraws : Nat
  /-- signatures made with the device LMS key, whose private state is kept sealed in flash (R352) -/
  lmsUsed : Nat
  deriving DecidableEq, Repr

/-- Who issues the instruction that `exec` runs. -/
structure Cur where
  core : Nat
  ctx  : Fin 11
  rank : Nat
  deriving DecidableEq, Repr

/-- One entry of the agenda: the agent that makes the next step (log 3). -/
inductive Turn where
  | core (c : Nat)
  | rank (r : Nat)
  | event (i : Instr)
  | pass (ns : Nat)
  /-- an issue cycle of the core that the power manager leaves idle (R14) -/
  | idle (c : Nat)
  /-- a line leaves the L1 caches of the core (R148, R217): the virtual line -/
  | evict (c line : Nat)
  /-- a member of a group that lies in another package makes its next arrival, or its next ELECT, at the tracker here (R158, R159):
  VD, launch queue, group, member index -/
  | far (vd q g m : Nat) (elect : Bool)
  /-- a store of data of the unit corrects an error (R341) -/
  | corrected (u : SpareUnit)
  /-- a clean line of the L1 data cache of the core fails its check (R341): the virtual line -/
  | failed (c line : Nat)
  /-- the host reads a result register of queue q of a VD's function, BAR0 at 0x40 + 8q (R354) -/
  | result (vd q : Nat)
  /-- the host reads 8 bytes of the management window through BAR4 of the physical function (R354, R355) -/
  | manage (off : Nat)
  /-- the host sets or clears the MSI-X enable of a function (R354) -/
  | msix (vd : Nat) (on : Bool)
  deriving DecidableEq, Repr

/-- The machine. HBM bytes are keyed by (rank × 65,536 + physical row) × 1,024 + byte (R12, R248); a byte that is
not listed reads 0 (log 4). `draws` gives the key draw under which a column word, numbered by its physical key / 32, was last
encrypted (R306); read under another key a word shows a free value (log 5). -/
structure State where
  cur      : Cur
  agenda   : List Turn
  cores    : List (Nat × Core)
  ranks    : List (Nat × Rank)
  vds      : List (Nat × Vd)
  mem      : List Host.Cell
  draws    : List (Nat × Nat)
  badWords : List Nat
  /-- physical rows out of service (R345), rank × 65,536 + row: none of their column words becomes sound again -/
  deadRows : List Nat
  perms    : List (Nat × BitVec 128)
  tlb      : List Tlb
  courses  : List Course
  /-- reads of several lines under way at the banks (R371) -/
  gathers  : List Gather
  asleep   : List Nat
  /-- channels that go to sleep once every rank has come to a row boundary or a wait (R262) -/
  napping  : List Nat
  inflight : List PortMsg
  /-- sends that wait for room, in the order in which they reached their partners' cores (R153) -/
  sendq    : List SendWait
  pkg      : Nat
  ring     : Nat
  boot     : BootPhase
  vdCmd    : W64
  vdStat   : BitVec 8
  /-- the operation of the command word has begun (R302) -/
  vdBegun  : Bool
  dport    : Debug
  power    : W64
  errlog   : List (List Byte)
  errSeq   : Nat
  /-- corrected errors: the unit and the ring time of each (R341, R345) -/
  corrected : List (SpareUnit × Nat)
  ifile    : List (W64 × BitVec 32)
  /-- answers to outside reads: BAR2, DMA, application cores, configuration requests (R349, R354) -/
  output   : List Answer
  /-- functions that have MSI-X enabled, and the vectors raised, by function (R354) -/
  msix     : List Nat
  vectors  : List (Nat × Nat)
  link     : Link
  sec      : Security
  /-- MU positions of the round robin, by matrix group (R175) -/
  muNext   : List (Nat × Nat)
  /-- CE positions of the round robin, by matrix group (R169) -/
  ceNext   : List (Nat × Nat)
  /-- origin curve number to the core that carries it now (R299) -/
  routes   : List (Nat × Nat)
  nextId   : Nat
  /-- banks used and collisions met by the instruction in progress (R214) -/
  banks    : List Nat
  collisions : Nat
  /-- bytes that the device could not reach in the step, because their banks are held (R371) -/
  stalled  : List Place
  /-- where the instruction in progress continues, when that is not the next word -/
  target   : Option W64
  deriving DecidableEq, Repr

/-! ### How a step can stop -/

/-- The faults of the model. -/
inductive Fault where
  /-- Raised by `step` when the agenda gives a turn to a core or rank that R10 does not number. Safe. -/
  | noSuchAgent
  deriving DecidableEq, Repr

/-- The refusals of the model. -/
inductive Refusal where
  /-- Raised by `exec` for an instruction without a meaning in the model. Safe. -/
  | notModelled (mnemonic : String)
  deriving DecidableEq, Repr

/-! ### Reset (R20, R26, R33, R164, R170, R185, R248, R249, R349, R355) -/

def Cell.zero (w : Nat) : Cell (BitVec w) := ⟨0, []⟩

def Lazy.reset : Lazy := ⟨0, 0, 0xFFFF, 0, 0⟩
def Port.reset : Port := ⟨none, false, []⟩
def Stream.reset : Stream := ⟨false, 0, 0, false, 0⟩
def CommitGroup.reset : CommitGroup := ⟨0, 0, 0⟩

/-- The copy geometry after reset: SCALE is 1.0 (R164). -/
def Context.cgReset : Vector W64 17 := (Vector.replicate 17 0).set 9 0x3F800000
/-- The matrix geometry after reset: KLEN 32, OFMT F32, OSCALE 1.0 (R170). -/
def Context.mgReset : Vector W64 12 := (((Vector.replicate 12 0).set 0 32).set 8 7).set 10 0x3F800000

/-- A context with no program (R20). -/
def Context.reset : Context where
  status := .free
  sup := false
  pc := 0
  belt := List.replicate 16 (Cell.zero 64)
  btail := Cell.zero 64
  vbelt := List.replicate 16 (Cell.zero 128)
  vtail := Cell.zero 128
  n := Vector.replicate 8 (Cell.zero 64)
  a := Vector.replicate 4 (Cell.zero 64)
  as := Vector.replicate 4 0
  z := Vector.replicate 8 Lazy.reset
  ports := Vector.replicate 4 Port.reset
  slots := Vector.replicate 8 0
  hnd := Vector.replicate 16 Stream.reset
  rep := none
  shadow := none
  mode := 0
  flags := 0
  srh := 0
  sro := 0
  reply := 0
  epc := 0
  cause := 0
  tval := 0
  cg := Context.cgReset
  mg := Context.mgReset
  bound := 0
  yield := []
  yieldEnd := 0
  wait := none
  open_ := []
  grpNow := CommitGroup.reset
  groups := []
  unrep := 0
  cmds := []
  unacked := 0
  remote := []
  parked := []
  loads := []
  ask := none
  answer := none
  pfault := none
  sleep := none
  hold := none
  tinv := none
  pbind := none
  barrier := []
  drained := []
  mchk := none
  poison := []
  attached := false
  dhalt := false
  dstep := false
  reason := 0

/-- A core after core reset (R33, R36, R216). -/
def Core.reset : Core where
  clock := 0
  rot := 10
  ctxs := Vector.replicate 11 Context.reset
  feat := 0xFF
  vd := 0
  upv := 0
  upc := 0
  mxw := 1
  spm := []
  full := []
  waiters := []
  tile := []
  tags := Vector.replicate 16 ⟨0, 0⟩
  sfu := []
  copies := []
  mx := []
  spmDue := []
  l1 := []
  icache := []
  itags := []
  notices := []
  upcall := false
  upslot := false
  fseq := 0
  recs := []
  node := none
  sent := 0
  rcvd := 0
  lastVd := none
  mode := .running
  origin := 0
  watch := Vector.replicate 4 0
  bad := []
  tbad := []

/-- The empty record (R54). -/
def A80.empty (alpha : BitVec 16) : A80 := ⟨0, 0, 0, alpha, 0xFFFF⟩

def Acc.reset : Acc := ⟨0, Vector.replicate 8 (A80.empty 0)⟩
def Cursor.reset : Cursor := ⟨0, 0, 1⟩

/-- A rank at power-on (R185, R189, R248, R249). -/
def Rank.reset : Rank where
  ovl := []
  slot := 0
  upc := 0
  s := Vector.replicate 16 0
  v := Vector.replicate 8 0
  k := Vector.replicate 4 Acc.reset
  c := Vector.replicate 4 Cursor.reset
  fl := 0
  cfl := 0
  mailbox := []
  holdst := []
  run := none
  queued := []
  state := .idle
  wait := none
  course := none
  failed := none
  ranges := []
  dest := 0
  done := 0
  stop := none
  reads := 0
  writes := 0
  timer := 0
  ns := 0
  open_ := none
  fresh := false
  pending := []
  enabled := true
  remap := []
  nextMortar := 46080
  freed := []
  old := []
  held := []
  save := (49150, 49151)
  saves := 0
  lost := false
  spare := false
  migrates := none
  writing := []
  loaded := []

def VdDesc.reset : VdDesc := ⟨0, 0, 0, 0, 0, 0, 0, 0, 6, 6, 0, 0, 0, 0⟩
def LaunchQueue.reset : LaunchQueue := ⟨[], [], []⟩

/-- A VD number that names no resources (R301). -/
def Vd.reset : Vd where
  state := .absent
  desc := VdDesc.reset
  wins := []
  keys := []
  cmds := []
  seq := 0
  faults := []
  frpos := 0
  queues := Vector.replicate 4 LaunchQueue.reset
  finished := []
  nextLaunch := 0
  b := 0
  q := 0
  p := 0
  te := none
  stopPkg := 0
  spill := []
  captured := []
  watches := []
  saved := []
  savedNode := []
  woken := false
  tc := none
  draining := false
  results := Vector.replicate 4 0
  revoking := []
  late := []
  endings := []
  walkDue := false
  quiet := none

def Link.reset : Link := ⟨[], [], [], [], [], [], [], [], [], [], []⟩
/-- What the signature and the digest of an almanac copy are over, as numbers (R347 gives no byte layout; log 5). -/
def SpareUnit.code : SpareUnit → List Nat
  | .core c => [0, c]
  | .mu m => [1, m]
  | .bank r => [2, r]
  | .row r w => [3, r, w]
  | .lane p => [4, p]

def Almanac.contents (version : Nat) (units : List SpareUnit) (svn : List (Nat × Nat)) : List Nat :=
  version :: units.length :: units.flatMap SpareUnit.code ++ svn.flatMap (fun e => [e.1, e.2])

/-- A copy signed with the identity key (R352). -/
def Almanac.signed (version : Nat) (units : List SpareUnit) (svn : List (Nat × Nat)) : Almanac :=
  ⟨version, units, svn, Config.identitySign (Almanac.contents version units svn)⟩

/-- The signature of the copy verifies. -/
def Almanac.verifies (a : Almanac) : Bool := a.sig == Config.identitySign (Almanac.contents a.version a.units a.svn)

def Almanac.reset : Almanac := Almanac.signed 0 [] []
def Spdm.reset : Spdm := ⟨false, false, false, [], none, false, 0⟩
def Security.reset : Security :=
  ⟨Vector.replicate 8 0, [], (Almanac.reset, Almanac.reset), [], (Spdm.reset, Spdm.reset), [], 0, 0⟩

/-- The package when step 7 of R349 has just completed: VD 0 exists and nothing runs. -/
def State.reset : State where
  cur := ⟨0, 0, 0⟩
  agenda := []
  cores := []
  ranks := []
  vds := [(0, { Vd.reset with state := .running })]
  mem := []
  draws := []
  badWords := []
  deadRows := []
  perms := []
  tlb := []
  courses := []
  gathers := []
  asleep := []
  napping := []
  inflight := []
  sendq := []
  pkg := 0
  ring := 0
  boot := .ready
  vdCmd := 0
  vdStat := 0
  vdBegun := false
  dport := ⟨0, 0, 0, none, 0⟩
  power := 0x0000080800000000
  errlog := []
  errSeq := 0
  corrected := []
  ifile := []
  output := []
  msix := []
  vectors := []
  link := Link.reset
  sec := Security.reset
  muNext := []
  ceNext := []
  routes := []
  nextId := 0
  banks := []
  collisions := 0
  stalled := []
  target := none

end Sys2Proof.Machine
end

