-- ==== Sys2Proof/Machine/Bits.lean ====
section
/-! DEFINITION. Plain helpers: sparse maps, byte order (R3), sparse memories, bit fields. -/

namespace Sys2Proof.Machine

/-! ### Sparse maps: a key that is not listed has the default -/

def lookup {α : Type} (k : Nat) : List (Nat × α) → Option α
  | [] => none
  | (k', v) :: r => if k = k' then some v else lookup k r

def put {α : Type} (k : Nat) (v : α) : List (Nat × α) → List (Nat × α)
  | [] => [(k, v)]
  | (k', v') :: r =>
    if k = k' then (k, v) :: r
    else if k < k' then (k, v) :: (k', v') :: r
    else (k', v') :: put k v r

def drop {α : Type} (k : Nat) (l : List (Nat × α)) : List (Nat × α) := l.filter (fun e => e.1 != k)

/-! ### Sparse memories: a byte that is not listed is 0; the list is sorted and lists no 0 -/

def Memory.read : List Host.Cell → Nat → Byte
  | [], _ => 0
  | (a', b) :: r, a => if a = a' then b else Memory.read r a

def Memory.write : List Host.Cell → Nat → Byte → List Host.Cell
  | [], a, b => if b = 0 then [] else [(a, b)]
  | (a', b') :: r, a, b =>
    if a < a' then (if b = 0 then (a', b') :: r else (a, b) :: (a', b') :: r)
    else if a = a' then (if b = 0 then r else (a, b) :: r)
    else (a', b') :: Memory.write r a b

/-- The canonical form: addresses strictly rising from `lo`, no byte equal to what an unlisted address reads as. -/
def Memory.wfFrom : Nat → List Host.Cell → Bool
  | _, [] => true
  | lo, (a, b) :: r => decide (lo ≤ a) && (b != 0) && Memory.wfFrom (a + 1) r

def Memory.wf (m : List Host.Cell) : Bool := Memory.wfFrom 0 m

/-- Little-endian bytes (R3). -/
def bytesOf : Nat → Nat → List Byte
  | 0, _ => []
  | k + 1, x => BitVec.ofNat 8 x :: bytesOf k (x / 256)

def ofBytes : List Byte → Nat
  | [] => 0
  | b :: r => b.toNat + 256 * ofBytes r

def Memory.readN (m : List Host.Cell) (a k : Nat) : List Byte := (List.range k).map (fun i => Memory.read m (a + i))

def Memory.writeN (m : List Host.Cell) (a : Nat) : List Byte → List Host.Cell
  | [] => m
  | b :: r => Memory.writeN (Memory.write m a b) (a + 1) r

/-- Every byte of `lo … hi − 1` becomes 0. -/
def Memory.clear (m : List Host.Cell) (lo hi : Nat) : List Host.Cell :=
  m.filter (fun c => !(decide (lo ≤ c.1) && decide (c.1 < hi)))

/-! ### Bit fields -/

/-- Bits `hi` to `lo` of x. -/
def bits (x : Nat) (hi lo : Nat) : Nat := x / 2 ^ lo % 2 ^ (hi - lo + 1)

def bit (x : Nat) (i : Nat) : Bool := x.testBit i

/-- sext(x, n) of R7 in 64 bits. -/
def sext64 (n : Nat) (x : Nat) : W64 := (BitVec.ofNat n x).signExtend 64

/-- The low 55 bits, the width of a global address (R19, R44). -/
def va55 (x : W64) : W64 := x &&& 0x7FFFFFFFFFFFFF

def b2w (b : Bool) : W64 := if b then 1 else 0

/-- The 64-bit words of a value, lowest first. -/
def wordsOf : Nat → Nat → List W64
  | 0, _ => []
  | k + 1, x => BitVec.ofNat 64 x :: wordsOf k (x / 2 ^ 64)

def ofWords : List W64 → Nat
  | [] => 0
  | b :: r => b.toNat + 2 ^ 64 * ofWords r

def toV (ws : List W64) : W128 := BitVec.ofNat 128 (ofWords ws)
def ofV (v : W128) : List W64 := [v.extractLsb' 0 64, v.extractLsb' 64 64]

/-- A word of an operand's value, 0 when the operand is absent. -/
def wd (ws : List W64) (k : Nat) : W64 := ws.getD k 0

/-- Pairs of words make vector slots. -/
def pairs : List W64 → List W128
  | [] => []
  | [a] => [toV [a]]
  | a :: b :: r => toV [a, b] :: pairs r

/-- The signed reading of a word. -/
def sgn (x : W64) : Int := x.toInt

def ofInt64 (x : Int) : W64 := BitVec.ofInt 64 x

/-- The ranges of n bytes from a and of m bytes from b meet. -/
def overlap (a n b m : Nat) : Bool := decide (a < b + m) && decide (b < a + n)

/-- Tests a condition for every number below n and answers the first that fails it. -/
def firstBad (n : Nat) (p : Nat → Bool) : Option Nat := (List.range n).find? (fun i => !p i)

end Sys2Proof.Machine
end

