-- ==== Sys2Proof/Machine/Flags.lean ====
section
/-! DEFINITION. Number formats (R39), rounding (R46, R47), conversion and every flag the rules give (R48 to R53), exact
arithmetic with one rounding (R113, R114), and anchored records (R54 to R57). -/

namespace Sys2Proof.Machine

/-! ### Flags (R35, R53) -/

abbrev Fl := BitVec 5
namespace Fl
def NV : Fl := 1
def OF : Fl := 2
def UF : Fl := 4
def NX : Fl := 8
def AR : Fl := 16
def on (b : Bool) (f : Fl) : Fl := if b then f else 0
end Fl

/-! ### Exact values -/

/-- A value: NaN with payload, an infinity, or ±m · 2^e exactly. -/
inductive Num where
  | nan (payload : Nat) (signalling : Bool)
  | inf (neg : Bool)
  | fin (neg : Bool) (m : Nat) (e : Int)
  deriving DecidableEq, Repr

/-- What the top of a floating-point format encodes: infinities and NaNs, the one NaN of E4M3, or nothing. -/
inductive Top where
  | ieee | e4m3 | none
  deriving DecidableEq, Repr

structure FloatFmt where
  ew   : Nat
  mw   : Nat
  bias : Int
  top  : Top
  deriving DecidableEq, Repr

namespace Fmt
def byte : Nat := 0x00
def i8 : Nat := 0x01
def n8 : Nat := 0x02
def i4 : Nat := 0x03
def n4 : Nat := 0x04
def i16 : Nat := 0x05
def i32 : Nat := 0x06
def f32 : Nat := 0x07
def f16 : Nat := 0x08
def bf16 : Nat := 0x09
def e4m3 : Nat := 0x0A
def e5m2 : Nat := 0x0B
def e3m2 : Nat := 0x0C
def e2m3 : Nat := 0x0D
def e2m1 : Nat := 0x0E
def ue3m5 : Nat := 0x0F
def ue8m0 : Nat := 0x10
def n16 : Nat := 0x1D
def f64 : Nat := 0x1E
def a80 : Nat := 0x1F
end Fmt

/-- The floating-point formats of R39. -/
def floatFmt (code : Nat) : Option FloatFmt :=
  match code with
  | 0x07 => some ⟨8, 23, 127, .ieee⟩
  | 0x08 => some ⟨5, 10, 15, .ieee⟩
  | 0x09 => some ⟨8, 7, 127, .ieee⟩
  | 0x0A => some ⟨4, 3, 7, .e4m3⟩
  | 0x0B => some ⟨5, 2, 15, .ieee⟩
  | 0x0C => some ⟨3, 2, 3, .none⟩
  | 0x0D => some ⟨2, 3, 1, .none⟩
  | 0x0E => some ⟨2, 1, 1, .none⟩
  | 0x1E => some ⟨11, 52, 1023, .ieee⟩
  | _ => none

/-- The integer formats of R39: width and signedness. BYTE reads as N8. -/
def intFmt (code : Nat) : Option (Nat × Bool) :=
  match code with
  | 0x00 => some (8, false)
  | 0x01 => some (8, true)
  | 0x02 => some (8, false)
  | 0x03 => some (4, true)
  | 0x04 => some (4, false)
  | 0x05 => some (16, true)
  | 0x06 => some (32, true)
  | 0x1D => some (16, false)
  | _ => none

/-- Element width in bits (R39). -/
def fmtBits (code : Nat) : Nat :=
  match code with
  | 0x03 | 0x04 | 0x0E => 4
  | 0x0C | 0x0D => 6
  | 0x05 | 0x08 | 0x09 | 0x1D => 16
  | 0x06 | 0x07 => 32
  | 0x1E => 64
  | 0x1F => 128
  | _ => 8

def FloatFmt.width (f : FloatFmt) : Nat := 1 + f.ew + f.mw
def FloatFmt.signBit (f : FloatFmt) : Nat := 2 ^ (f.ew + f.mw)
/-- Payload width (R39). -/
def FloatFmt.pw (f : FloatFmt) : Nat := match f.top with | .ieee => f.mw - 1 | _ => 0
/-- The encoding of the largest finite value, without the sign. -/
def FloatFmt.maxEnc (f : FloatFmt) : Nat :=
  match f.top with
  | .ieee => (2 ^ f.ew - 1) * 2 ^ f.mw - 1
  | .e4m3 => 0x7E
  | .none => 2 ^ (f.ew + f.mw) - 1
/-- Infinity, or the NaN of E4M3, or the maximum: what lies beyond max (R49). -/
def FloatFmt.beyond (f : FloatFmt) (neg : Bool) : Nat :=
  match f.top with
  | .ieee => (2 ^ f.ew - 1) * 2 ^ f.mw + (if neg then f.signBit else 0)
  | .e4m3 => 0x7F
  | .none => f.maxEnc + (if neg then f.signBit else 0)
def FloatFmt.max (f : FloatFmt) (neg : Bool) : Nat := f.maxEnc + (if neg then f.signBit else 0)
/-- A quiet NaN with its sign clear and a payload saturated to the format's width (R50); +max where there is none. -/
def FloatFmt.nan (f : FloatFmt) (payload : Nat) : Nat :=
  match f.top with
  | .ieee => (2 ^ f.ew - 1) * 2 ^ f.mw + 2 ^ (f.mw - 1) + min payload (2 ^ f.pw - 1)
  | .e4m3 => 0x7F
  | .none => f.maxEnc

/-- The value of a floating-point encoding (R39). -/
def FloatFmt.value (f : FloatFmt) (x : Nat) : Num :=
  let neg := x.testBit (f.ew + f.mw)
  let e := x / 2 ^ f.mw % 2 ^ f.ew
  let m := x % 2 ^ f.mw
  if f.top = .ieee ∧ e = 2 ^ f.ew - 1 then
    if m = 0 then .inf neg else .nan (m % 2 ^ (f.mw - 1)) (!m.testBit (f.mw - 1))
  else if f.top = .e4m3 ∧ x % 128 = 127 then .nan 0 false
  else if e = 0 then .fin neg m (1 - f.bias - f.mw)
  else .fin neg (m + 2 ^ f.mw) (e - f.bias - f.mw)

/-- The value of an element of a plain format (R39); the two scale formats included. -/
def valueOf (code x : Nat) : Num :=
  match floatFmt code with
  | some f => f.value (x % 2 ^ f.width)
  | none =>
    match intFmt code with
    | some (w, true) =>
      let v := (BitVec.ofNat w x).toInt
      .fin (decide (v < 0)) v.natAbs 0
    | some (w, false) => .fin false (x % 2 ^ w) 0
    | none =>
      if code = Fmt.ue3m5 then
        (if x / 32 % 8 = 0 then .fin false (x % 32) (-11) else .fin false (x % 32 + 32) ((x / 32 % 8 : Nat) - 7 - 5))
      else if code = Fmt.ue8m0 then (if x % 256 = 255 then .nan 0 false else .fin false 1 ((x % 256 : Nat) - 127))
      else .fin false 0 0

/-! ### Rounding (R46, R47) -/

/-- A rounding mode and, under RSR, the stream word of this result. -/
structure Rnd where
  mode : Nat
  word : Nat
  deriving DecidableEq, Repr

def rne : Rnd := ⟨0, 0⟩

/-- m · 2^e cut at unit 2^q: the lower neighbour and what is left, as rem / 2^k. -/
def cut (m : Nat) (e q : Int) : Nat × Nat × Nat :=
  if q ≤ e then (m * 2 ^ (e - q).toNat, 0, 0)
  else (m / 2 ^ (q - e).toNat, m % 2 ^ (q - e).toNat, (q - e).toNat)

/-- Whether the magnitude rounds up to the next neighbour (R46, R47). -/
def roundsUp (r : Rnd) (neg : Bool) (lo rem k : Nat) : Bool :=
  match r.mode with
  | 0 => decide (2 ^ k < 2 * rem) || (decide (2 * rem = 2 ^ k) && lo % 2 == 1 && decide (0 < rem))
  | 1 => false
  | 2 => neg && decide (0 < rem)
  | 3 => !neg && decide (0 < rem)
  | 4 => decide (2 ^ k ≤ 2 * rem) && decide (0 < rem)
  | _ => decide (r.word < rem * 2 ^ 32 / 2 ^ k)

/-- The mode gives max on overflow (R49). -/
def givesMax (mode : Nat) (neg : Bool) : Bool := mode == 1 || (mode == 2 && !neg) || (mode == 3 && neg)

/-- R46, R48, R49: a nonzero or zero finite value into a floating-point format. -/
def FloatFmt.round (f : FloatFmt) (sat : Bool) (r : Rnd) (neg : Bool) (m : Nat) (e : Int) : Nat × Fl :=
  if m = 0 then (if neg then f.signBit else 0, 0) else
  let top : Int := e + (Nat.log2 m : Nat)
  let q : Int := Max.max top (1 - f.bias) - f.mw
  let (lo, rem, k) := cut m e q
  let n := lo + (if roundsUp r neg lo rem k then 1 else 0)
  let (n, q) := if 2 ^ (f.mw + 1) ≤ n then (n / 2, q + 1) else (n, q)
  let enc : Int := if n < 2 ^ f.mw then n else (q + f.mw + f.bias) * 2 ^ f.mw + (n - 2 ^ f.mw : Nat)
  if (f.maxEnc : Int) < enc then
    (if sat || givesMax r.mode neg then f.max neg else f.beyond neg, Fl.OF ||| Fl.NX)
  else
    (enc.toNat + (if neg then f.signBit else 0),
      Fl.on (decide (rem ≠ 0)) Fl.NX ||| Fl.on (decide (rem ≠ 0) && decide (top < 1 - f.bias)) Fl.UF)

/-- Range of an integer format. -/
def intMax (w : Nat) (signed : Bool) : Int := if signed then 2 ^ (w - 1) - 1 else 2 ^ w - 1
def intMin (w : Nat) (signed : Bool) : Int := if signed then -(2 ^ (w - 1)) else 0
def toField (w : Nat) (v : Int) : Nat := (BitVec.ofInt w v).toNat

/-- The integer a finite value rounds to, and whether it changed. -/
def roundInt (r : Rnd) (neg : Bool) (m : Nat) (e : Int) : Int × Bool :=
  let (lo, rem, k) := cut m e 0
  let n := lo + (if roundsUp r neg lo rem k then 1 else 0)
  (if neg then -(n : Int) else n, decide (rem ≠ 0))

/-- R51: a value into an integer format; `event` is the flag a saturation sets (NV, or OF for integer sources). -/
def toInt (w : Nat) (signed : Bool) (event : Fl) (r : Rnd) (x : Num) : Nat × Fl :=
  match x with
  | .nan _ _ => (toField w (intMax w signed), Fl.NV)
  | .inf neg => (toField w (if neg then intMin w signed else intMax w signed), Fl.NV ||| Fl.NX)
  | .fin neg m e =>
    let (v, nx) := roundInt r neg m e
    if v < intMin w signed then (toField w (intMin w signed), event ||| Fl.NX)
    else if intMax w signed < v then (toField w (intMax w signed), event ||| Fl.NX)
    else (toField w v, Fl.on nx Fl.NX)

/-- R50: special values into a floating-point format; finite ones by R46 to R49. -/
def FloatFmt.convert (f : FloatFmt) (sat : Bool) (r : Rnd) (x : Num) : Nat × Fl :=
  match x with
  | .nan p s => (f.nan p, Fl.on (s || f.top == .none) Fl.NV)
  | .inf neg =>
    match f.top with
    | .ieee => (f.beyond neg, 0)
    | _ => (if sat then f.max neg else f.beyond neg, Fl.NV)
  | .fin neg m e => f.round sat r neg m e

/-- A value into a plain format (R48 to R51); `srcInt` says that the source format is an integer one. -/
def convert (code : Nat) (sat srcInt : Bool) (r : Rnd) (x : Num) : Nat × Fl :=
  match floatFmt code with
  | some f => f.convert sat r x
  | none =>
    match intFmt code with
    | some (w, signed) => toInt w signed (if srcInt then Fl.OF else Fl.NV) r x
    | none => (0, 0)

/-! ### Exact arithmetic -/

/-- ±m · 2^e as an integer count of 2^q, for q ≤ e. -/
def scaled (neg : Bool) (m : Nat) (e q : Int) : Int :=
  let v : Int := m * 2 ^ (e - q).toNat
  if neg then -v else v

/-- The exact product; ∞ × 0 gives none (R50, R114). -/
def mulNum (a b : Num) : Option Num :=
  match a, b with
  | .nan p s, _ => some (.nan p s)
  | _, .nan p s => some (.nan p s)
  | .inf n, .inf n' => some (.inf (n != n'))
  | .inf n, .fin n' m _ => if m = 0 then none else some (.inf (n != n'))
  | .fin n m _, .inf n' => if m = 0 then none else some (.inf (n != n'))
  | .fin n m e, .fin n' m' e' => some (.fin (n != n') (m * m') (e + e'))

/-- The exact sum; opposite infinities give none. An exact zero has the sign of R46. -/
def addNum (rdn : Bool) (a b : Num) : Option Num :=
  match a, b with
  | .nan p s, _ => some (.nan p s)
  | _, .nan p s => some (.nan p s)
  | .inf n, .inf n' => if n = n' then some (.inf n) else none
  | .inf n, .fin _ _ _ => some (.inf n)
  | .fin _ _ _, .inf n' => some (.inf n')
  | .fin n m e, .fin n' m' e' =>
    let q := min e e'
    let v := scaled n m e q + scaled n' m' e' q
    if v = 0 then
      .some (.fin (if m = 0 ∧ m' = 0 ∧ n = n' then n else rdn) 0 0)
    else some (.fin (decide (v < 0)) v.natAbs q)

def Num.neg : Num → Num
  | .nan p s => .nan p s
  | .inf n => .inf (!n)
  | .fin n m e => .fin (!n) m e

def Num.isNan : Num → Bool
  | .nan _ _ => true
  | _ => false

def Num.signalling : Num → Bool
  | .nan _ s => s
  | _ => false

def Num.payload : Num → Nat
  | .nan p _ => p
  | _ => 0

def Num.isNeg : Num → Bool
  | .nan _ _ => false
  | .inf n => n
  | .fin n _ _ => n

def Num.isZero : Num → Bool
  | .fin _ m _ => m == 0
  | _ => false

/-- The order of two values that are not NaN: a < b. -/
def Num.lt (a b : Num) : Bool :=
  match a, b with
  | .inf n, .inf n' => n && !n'
  | .inf n, .fin _ _ _ => n
  | .fin _ _ _, .inf n' => !n'
  | .fin n m e, .fin n' m' e' =>
    let q := min e e'
    decide (scaled n m e q < scaled n' m' e' q)
  | _, _ => false

def Num.eq (a b : Num) : Bool := !a.isNan && !b.isNan && !a.lt b && !b.lt a

/-- R114: the NaN of an operation is that of the first NaN operand. -/
def firstNan (xs : List Num) : Option Nat := (xs.find? (·.isNan)).map (·.payload)

def anySignalling (xs : List Num) : Bool := xs.any (·.signalling)

/-- One arithmetic lane (R113, R114): the exact result of finite or infinite operands rounded once, or the NaN rules. -/
def arith (f : FloatFmt) (r : Rnd) (ops : List Num) (exact : Option Num) : Nat × Fl :=
  match firstNan ops with
  | some p => (f.nan p, Fl.on (anySignalling ops) Fl.NV)
  | none =>
    match exact with
    | none => (f.nan (2 ^ f.pw - 1), Fl.NV)
    | some x => f.convert false r x

def fadd (f : FloatFmt) (r : Rnd) (a b : Nat) : Nat × Fl :=
  arith f r [f.value a, f.value b] (addNum (r.mode == 2) (f.value a) (f.value b))
def fsub (f : FloatFmt) (r : Rnd) (a b : Nat) : Nat × Fl :=
  arith f r [f.value a, f.value b] (addNum (r.mode == 2) (f.value a) (f.value b).neg)
def fmul (f : FloatFmt) (r : Rnd) (a b : Nat) : Nat × Fl :=
  arith f r [f.value a, f.value b] (mulNum (f.value a) (f.value b))
def fma (f : FloatFmt) (r : Rnd) (a b c : Nat) : Nat × Fl :=
  arith f r [f.value a, f.value b, f.value c]
    ((mulNum (f.value a) (f.value b)).bind (fun p => addNum (r.mode == 2) p (f.value c)))

/-- VFMIN and VFMAX (R113, R114): −0 < +0, a single NaN gives the other operand. -/
def fminmax (f : FloatFmt) (big : Bool) (a b : Nat) : Nat × Fl :=
  let x := f.value a
  let y := f.value b
  let nv := Fl.on (anySignalling [x, y]) Fl.NV
  if x.isNan && y.isNan then (f.nan x.payload, nv)
  else if x.isNan then (b, nv)
  else if y.isNan then (a, nv)
  else
    let aLess := x.lt y || (x.isZero && y.isZero && x.isNeg && !y.isNeg)
    (if aLess != big then a else b, nv)

def fceq (f : FloatFmt) (a b : Nat) : Bool × Fl :=
  ((f.value a).eq (f.value b), Fl.on (anySignalling [f.value a, f.value b]) Fl.NV)
def fcmp (f : FloatFmt) (orEq : Bool) (a b : Nat) : Bool × Fl :=
  let x := f.value a
  let y := f.value b
  if x.isNan || y.isNan then (false, Fl.NV) else (x.lt y || (orEq && x.eq y), 0)

/-- VFRND (R113, R114). -/
def frnd (f : FloatFmt) (r : Rnd) (a : Nat) : Nat × Fl :=
  match f.value a with
  | .nan p s => (f.nan p, Fl.on s Fl.NV)
  | .inf _ => (a, 0)
  | .fin neg m e =>
    if m = 0 then (a, 0) else
    let (v, nx) := roundInt r neg m e
    let out := if v = 0 then (if neg then f.signBit else 0) else (f.round false rne neg v.natAbs 0).1
    (out, Fl.on nx Fl.NX)

/-- VFSCL: a × 2^n rounded once (R113). -/
def fscl (f : FloatFmt) (r : Rnd) (a : Nat) (n : Int) : Nat × Fl :=
  arith f r [f.value a] (match f.value a with
    | .fin neg m e => some (.fin neg m (e + n))
    | x => some x)

/-- VFCLS (R113). -/
def fcls (f : FloatFmt) (a : Nat) : Nat :=
  match f.value a with
  | .nan _ s => if s then 256 else 512
  | .inf neg => if neg then 1 else 128
  | .fin neg m _ =>
    if m = 0 then (if neg then 8 else 16)
    else if m < 2 ^ f.mw then (if neg then 4 else 32)
    else (if neg then 2 else 64)

/-! ### Anchored records (R54 to R57) -/

def A80.val (r : A80) : Int := r.v.toInt + r.w.toInt * 2 ^ 80
def A80.alphaInt (r : A80) : Int := r.alpha.toInt

/-- R54: a record a unit treats as a format error. -/
def A80.malformed (r : A80) : Bool :=
  r.flags.toNat / 16 != 0 || decide (r.alphaInt < -1024) || decide (1023 < r.alphaInt)

def A80.addInt (r : A80) (q : Int) : A80 :=
  let s := r.val + q
  let v := BitVec.ofInt 80 s
  { r with v := v, w := BitVec.ofInt 8 ((s - v.toInt) / 2 ^ 80) }

/-- R55: a contribution with its index; AR when it was rounded. -/
def A80.contribute (r : A80) (idx : Nat) (x : Num) : A80 × Fl :=
  match x with
  | .nan _ _ => ({ r with flags := r.flags ||| 1, nan := BitVec.ofNat 16 (min r.nan.toNat (min idx 65535)) }, 0)
  | .inf false => ({ r with flags := r.flags ||| 2 }, 0)
  | .inf true => ({ r with flags := r.flags ||| 4 }, 0)
  | .fin neg m e =>
    let (q, nx) := roundInt rne neg m (e - r.alphaInt)
    let r1 := if nx then { r with flags := r.flags ||| 8 } else r
    (r1.addInt q, Fl.on nx Fl.AR)

/-- R56. -/
def A80.combine (a b : A80) : A80 :=
  { (a.addInt b.val) with flags := a.flags ||| b.flags, nan := BitVec.ofNat 16 (min a.nan.toNat b.nan.toNat) }

/-- The exact value of a record without special flags and with W = 0. -/
def A80.num (r : A80) : Num := .fin (decide (r.v.toInt < 0)) r.v.toInt.natAbs r.alphaInt

/-- R46, R57: a nonzero A80 value that rounds to zero gives +0 in a final rounding. -/
def plusZero (code : Nat) (v : Num) (x : Nat × Fl) : Nat × Fl :=
  match floatFmt code, v with
  | some f, .fin _ m _ => if m ≠ 0 ∧ x.1 = f.signBit then (0, x.2) else x
  | _, _ => x

/-- R57: the record rounded once into format `code`. -/
def A80.round (r : A80) (code : Nat) (sat : Bool) (m : Rnd) : Nat × Fl :=
  let nan (p : Nat) (nv : Fl) : Nat × Fl :=
    match floatFmt code with
    | some f => (f.nan p, nv ||| Fl.on (f.top == .none) Fl.NV)
    | none =>
      match intFmt code with
      | some (w, sg) => (toField w (intMax w sg), Fl.NV)
      | none => (0, 0)
  if r.flags.getLsbD 0 then nan r.nan.toNat 0
  else if r.flags.getLsbD 1 && r.flags.getLsbD 2 then
    nan (2 ^ (match floatFmt code with | some f => f.pw | none => 0) - 1) Fl.NV
  else if r.flags.getLsbD 1 then convert code sat false m (.inf false)
  else if r.flags.getLsbD 2 then convert code sat false m (.inf true)
  else if r.w ≠ 0 then
    let neg := decide (r.w.toInt < 0)
    match floatFmt code with
    | some f => (f.max neg, Fl.OF ||| Fl.NX)
    | none =>
      match intFmt code with
      | some (w, sg) => (toField w (if neg then intMin w sg else intMax w sg), Fl.OF ||| Fl.NX)
      | none => (0, 0)
  else if r.v = 0 then (0, 0)
  else plusZero code r.num (convert code sat true m r.num)

/-- The 16 bytes of a record as a number, and back (R54). -/
def A80.enc (r : A80) : Nat :=
  r.v.toNat + r.w.toNat * 2 ^ 80 + r.flags.toNat * 2 ^ 88 + r.alpha.toNat * 2 ^ 96 + r.nan.toNat * 2 ^ 112

def A80.dec (x : Nat) : A80 :=
  ⟨BitVec.ofNat 80 x, BitVec.ofNat 8 (x / 2 ^ 80), BitVec.ofNat 8 (x / 2 ^ 88), BitVec.ofNat 16 (x / 2 ^ 96),
    BitVec.ofNat 16 (x / 2 ^ 112)⟩

/-! ### Fat pointers and block formats (R41, R42, R44, R45) -/

def ptrFmt (p : W64) : Nat := bits p.toNat 63 59
def ptrBlk (p : W64) : Nat := bits p.toNat 58 56
def ptrNib (p : W64) : Bool := bit p.toNat 55
def ptrAddr (p : W64) : Nat := bits p.toNat 54 0

/-- Element format, scale format, default block length and allowed lengths of a block format (R41). -/
structure BlockFmt where
  elem  : Nat
  scale : Nat
  dflt  : Nat
  allowed : List Nat
  deriving DecidableEq, Repr

def blockFmt (code : Nat) : Option BlockFmt :=
  match code with
  | 0x11 => some ⟨Fmt.e2m1, Fmt.ue3m5, 8, [8, 16, 32]⟩
  | 0x12 => some ⟨Fmt.e3m2, Fmt.ue3m5, 8, [8, 16, 32]⟩
  | 0x13 => some ⟨Fmt.e2m3, Fmt.ue3m5, 8, [8, 16, 32]⟩
  | 0x14 => some ⟨Fmt.e4m3, Fmt.ue3m5, 8, [8, 16, 32]⟩
  | 0x15 => some ⟨Fmt.e2m1, Fmt.ue8m0, 32, [32]⟩
  | 0x16 => some ⟨Fmt.e3m2, Fmt.ue8m0, 32, [32]⟩
  | 0x17 => some ⟨Fmt.e2m3, Fmt.ue8m0, 32, [32]⟩
  | 0x18 => some ⟨Fmt.e4m3, Fmt.ue8m0, 32, [32]⟩
  | 0x19 => some ⟨Fmt.e5m2, Fmt.ue8m0, 32, [32]⟩
  | 0x1A => some ⟨Fmt.i8, Fmt.ue8m0, 32, [32]⟩
  | 0x1B => some ⟨Fmt.i4, Fmt.f16, 64, [32, 64, 128]⟩
  | 0x1C => some ⟨Fmt.i8, Fmt.f16, 64, [32, 64, 128]⟩
  | _ => none

/-- The block length a pointer selects, 0 for a format that is not a block format (R44). -/
def blockLen (p : W64) : Nat :=
  match blockFmt (ptrFmt p) with
  | none => 0
  | some b => if ptrBlk p = 0 then b.dflt else 2 ^ ptrBlk p

/-- R45: a block length the format does not allow, or a block-format address that is not a multiple of 16. -/
def ptrFormatError (p : W64) : Bool :=
  match blockFmt (ptrFmt p) with
  | none => false
  | some b => !b.allowed.contains (blockLen p) || ptrAddr p % 16 != 0

/-- Bytes of a full scale group (R42). -/
def groupBytes (code len : Nat) : Nat :=
  match blockFmt code with
  | none => 0
  | some b => 64 * (fmtBits b.scale / 8) + 8 * len * fmtBits b.elem

end Sys2Proof.Machine
end

