-- ==== Sys2Proof/WellFormed.lean ====
section
/-! DEFINITION. What a word alone must satisfy before it may issue: step 1 of R74 for Soras words (beyond the fixed
fields, which the decoder checks), the illegal forms of R192 for Melwen words, and the parameter ranges of events. -/

namespace Sys2Proof

/-- The part count of a width field (R23). -/
def parts (w : BitVec 2) : Nat := 2 ^ w.toNat

/-- The number of 16-byte slots an LDV or STV of width `w` moves (R139). -/
def vslots (w : BitVec 2) : Nat := 2 ^ (w.toNat - 1)

/-- A source code under `p` parts: the belt slots it names exist and a named operand is aligned (R23). -/
def srcOk (p : Nat) (c : BitVec 5) : Bool :=
  if c.toNat < 16 then decide (c.toNat + p ≤ 16)
  else if c.toNat < 24 then decide ((c.toNat - 16) % p = 0) else true

/-- A destination code under `p` parts: codes 1 to 15 are illegal (R60). -/
def dstOk (p : Nat) (c : BitVec 5) : Bool :=
  if c.toNat = 0 then true else if c.toNat < 16 then false
  else if c.toNat < 24 then decide ((c.toNat - 16) % p = 0) else true

/-- A vector source of `k` slots; a named operand takes `2k` registers (R23, R64). -/
def vsrcOk (k : Nat) (c : BitVec 5) : Bool :=
  if c.toNat < 16 then decide (c.toNat + k ≤ 16)
  else if c.toNat < 24 then decide ((c.toNat - 16) % (2 * k) = 0) else true

/-- A vector destination of `k` slots (R23, R60, R64). -/
def vdstOk (k : Nat) (c : BitVec 5) : Bool :=
  if c.toNat = 0 then true else if c.toNat < 16 then false
  else if c.toNat < 24 then decide ((c.toNat - 16) % (2 * k) = 0) else true

/-- Codes 16 to 23: a named register, or z0 to z7 in a lazy position (R60, R127). -/
def isNamed (c : BitVec 5) : Bool := decide (16 ≤ c.toNat) && decide (c.toNat < 24)

/-- Codes 28 to 31 in a pointer position (R61). -/
def isPtrPos (c : BitVec 5) : Bool := decide (28 ≤ c.toNat)

/-- Codes 24 to 27 in a port position (R150). -/
def isPortPos (c : BitVec 5) : Bool := decide (24 ≤ c.toNat) && decide (c.toNat < 28)

/-- BASE codes 24 to 30 are illegal (R67). -/
def baseOk (c : BitVec 5) : Bool := decide (c.toNat < 24) || decide (c.toNat = 31)

/-- MOV: a pointer code needs W = 00; other codes follow R60 (R78). -/
def movOk (w : BitVec 2) (d a : BitVec 5) : Bool :=
  (if isPtrPos a then decide (w = 0#2) else srcOk (parts w) a) &&
  (if isPtrPos d then decide (w = 0#2) else dstOk (parts w) d)

/-- VFMA and VDOT4 take their addend from the destination: a named pair or the belt (R63). -/
def addendOk (d : BitVec 5) : Bool := decide (d.toNat = 0) || (isNamed d && decide (d.toNat % 2 = 0))

/-- A lane number below the lane count of element size code `e` (R115). -/
def laneOk (e : BitVec 2) (b : BitVec 5) : Bool := decide (b.toNat < 16 / 2 ^ e.toNat)

/-- The formats VCVT and VCVTS accept (R117). -/
def cvtFmtOk (f : BitVec 5) : Bool :=
  decide (f.toNat ≤ 0x0B) || decide (f.toNat = 0x0E) || decide (f.toNat = 0x1D) || decide (f.toNat = 0x1E)

/-- The pair operand of CAS (R145). -/
def casPairOk (b : BitVec 5) : Bool :=
  decide (b.toNat ≤ 14) || (isNamed b && decide (b.toNat % 2 = 0)) || (decide (24 ≤ b.toNat) && decide (b.toNat ≤ 30))

/-- The pair operand of ZLTQ (R127). -/
def ratioOk (b : BitVec 5) : Bool := decide (b.toNat ≤ 14) || (isNamed b && decide (b.toNat % 2 = 0))

/-- RNDV wants an even register when it names one (R125). -/
def rndvDstOk (d : BitVec 5) : Bool := dstOk 1 d && (!isNamed d || decide (d.toNat % 2 = 0))

/-- A special-register number that R33 does not reserve. -/
def specialKnown (n : BitVec 5) : Bool := decide (n.toNat ≤ 19) || (decide (24 ≤ n.toNat) && decide (n.toNat ≤ 27))

/-- The special registers a PUTS may name (R33). -/
def specialWritable (n : BitVec 5) : Bool :=
  (decide (4 ≤ n.toNat) && decide (n.toNat ≤ 9)) || (decide (13 ≤ n.toNat) && decide (n.toNat ≤ 16)) ||
  (decide (24 ≤ n.toNat) && decide (n.toNat ≤ 27))

/-- With S = 0, SLOT3 must be 000 (R68). -/
def slotOk (s : BitVec 1) (l : BitVec 3) : Bool := decide (s = 1#1) || decide (l = 0#3)

/-- A v number of a Melwen word (R191). -/
def isV (x : BitVec 4) : Bool := decide (x.toNat < 8)
/-- A k or c number of a Melwen word (R191). -/
def isK (x : BitVec 4) : Bool := decide (x.toNat < 4)
/-- The count register of a course instruction, s1 to s14 (R204). -/
def countRegOk (z : BitVec 4) : Bool := decide (1 ≤ z.toNat) && decide (z.toNat ≤ 14)

/-- The bytes of an element of a rank format (R199). -/
def rankFmtBytes (f : BitVec 3) : Nat :=
  if f.toNat ≤ 1 then 4 else if f.toNat = 2 then 2 else if f.toNat ≤ 4 then 1 else 16

/-- The format pairs and parts of a rank VCVT (R201). -/
def rankCvtOk (d f : BitVec 3) (p : BitVec 2) : Bool :=
  decide (d.toNat ≤ 4) && decide (f.toNat ≤ 4) &&
  (if rankFmtBytes d = 4 then
    (if rankFmtBytes f = 4 then decide (p.toNat = 0) else decide (p.toNat < 4 / rankFmtBytes f))
   else (decide (rankFmtBytes f = 4) && decide (p.toNat < 4 / rankFmtBytes d)))

/-- The sizes of a single access. -/
def lenOk (n : Nat) : Bool := decide (n = 1) || decide (n = 2) || decide (n = 4) || decide (n = 8)

/-- A well-formed step: for a word, the part of R74 step 1 (or of R192) that depends on its free fields; for an event,
its parameters are in range. -/
def Instr.wf (i : Instr) : Bool :=
  match i with
  | .add _ w d a b => srcOk (parts w) a && srcOk (parts w) b && dstOk (parts w) d
  | .sub _ w d a b => srcOk (parts w) a && srcOk (parts w) b && dstOk (parts w) d
  | .and _ w d a b => srcOk (parts w) a && srcOk (parts w) b && dstOk (parts w) d
  | .or _ w d a b => srcOk (parts w) a && srcOk (parts w) b && dstOk (parts w) d
  | .xor _ w d a b => srcOk (parts w) a && srcOk (parts w) b && dstOk (parts w) d
  | .andn _ w d a b => srcOk (parts w) a && srcOk (parts w) b && dstOk (parts w) d
  | .orn _ w d a b => srcOk (parts w) a && srcOk (parts w) b && dstOk (parts w) d
  | .shl _ w d a b => srcOk (parts w) a && srcOk (parts w) b && dstOk (parts w) d
  | .shr _ w d a b => srcOk (parts w) a && srcOk (parts w) b && dstOk (parts w) d
  | .sar _ w d a b => srcOk (parts w) a && srcOk (parts w) b && dstOk (parts w) d
  | .rol _ w d a b => srcOk (parts w) a && srcOk (parts w) b && dstOk (parts w) d
  | .ror _ w d a b => srcOk (parts w) a && srcOk (parts w) b && dstOk (parts w) d
  | .mul _ w d a b => srcOk (parts w) a && srcOk (parts w) b && dstOk (parts w) d
  | .mulh _ w d a b => srcOk (parts w) a && srcOk (parts w) b && dstOk (parts w) d
  | .mulhu _ w d a b => srcOk (parts w) a && srcOk (parts w) b && dstOk (parts w) d
  | .div _ w d a b => srcOk (parts w) a && srcOk (parts w) b && dstOk (parts w) d
  | .divu _ w d a b => srcOk (parts w) a && srcOk (parts w) b && dstOk (parts w) d
  | .rem _ w d a b => srcOk (parts w) a && srcOk (parts w) b && dstOk (parts w) d
  | .remu _ w d a b => srcOk (parts w) a && srcOk (parts w) b && dstOk (parts w) d
  | .min _ w d a b => srcOk (parts w) a && srcOk (parts w) b && dstOk (parts w) d
  | .max _ w d a b => srcOk (parts w) a && srcOk (parts w) b && dstOk (parts w) d
  | .minu _ w d a b => srcOk (parts w) a && srcOk (parts w) b && dstOk (parts w) d
  | .maxu _ w d a b => srcOk (parts w) a && srcOk (parts w) b && dstOk (parts w) d
  | .ceq _ w d a b => srcOk (parts w) a && srcOk (parts w) b && dstOk (parts w) d
  | .cne _ w d a b => srcOk (parts w) a && srcOk (parts w) b && dstOk (parts w) d
  | .clt _ w d a b => srcOk (parts w) a && srcOk (parts w) b && dstOk (parts w) d
  | .cltu _ w d a b => srcOk (parts w) a && srcOk (parts w) b && dstOk (parts w) d
  | .cle _ w d a b => srcOk (parts w) a && srcOk (parts w) b && dstOk (parts w) d
  | .cleu _ w d a b => srcOk (parts w) a && srcOk (parts w) b && dstOk (parts w) d
  | .sel _ w d a b => srcOk (parts w) a && srcOk (parts w) b && dstOk (parts w) d
  | .clz _ w d a => srcOk (parts w) a && dstOk (parts w) d
  | .ctz _ w d a => srcOk (parts w) a && dstOk (parts w) d
  | .popc _ w d a => srcOk (parts w) a && dstOk (parts w) d
  | .brev _ w d a => srcOk (parts w) a && dstOk (parts w) d
  | .bswap _ w d a => srcOk (parts w) a && dstOk (parts w) d
  | .mov _ w d a => movOk w d a
  | .addi _ w d a _ => srcOk (parts w) a && dstOk (parts w) d
  | .andi _ w d a _ => srcOk (parts w) a && dstOk (parts w) d
  | .ori _ w d a _ => srcOk (parts w) a && dstOk (parts w) d
  | .xori _ w d a _ => srcOk (parts w) a && dstOk (parts w) d
  | .shli _ w d a _ => srcOk (parts w) a && dstOk (parts w) d
  | .shri _ w d a _ => srcOk (parts w) a && dstOk (parts w) d
  | .sari _ w d a _ => srcOk (parts w) a && dstOk (parts w) d
  | .roli _ w d a _ => srcOk (parts w) a && dstOk (parts w) d
  | .ceqi _ w d a _ => srcOk (parts w) a && dstOk (parts w) d
  | .clti _ w d a _ => srcOk (parts w) a && dstOk (parts w) d
  | .cltui _ w d a _ => srcOk (parts w) a && dstOk (parts w) d
  | .bfx _ d _ p l => dstOk 1 d && decide (p.toNat + (l.toNat + 1) ≤ 64)
  | .bfi _ d _ p l => isNamed d && decide (p.toNat + (l.toNat + 1) ≤ 64)
  | .ldk _ d _ => dstOk 1 d
  | .ldkh _ d _ => dstOk 1 d
  | .adpc _ d _ => dstOk 1 d
  | .padd _ d a _ => isPtrPos a && isPtrPos d
  | .padde _ d a _ => isPtrPos a && isPtrPos d
  | .psube _ d a _ => isPtrPos a && dstOk 1 d
  | .pfmt _ d a _ => isPtrPos a && isPtrPos d
  | .pgetf _ d a => isPtrPos a && dstOk 1 d
  | .pgetb _ d a => isPtrPos a && dstOk 1 d
  | .pset _ d a _ => isPtrPos a && isPtrPos d
  | .pstr _ a _ => isPtrPos a
  | .pgeta _ d a => isPtrPos a && dstOk 1 d
  | .paddi _ d a _ => isPtrPos a && isPtrPos d
  | .br _ _ _ _ => true
  | .jmp _ _ => true
  | .call _ _ => true
  | .jmpi _ _ => true
  | .calli _ _ => true
  | .ret _ => true
  | .loop _ a _ => isNamed a
  | .rep _ _ i => decide (1 ≤ i.toNat) && decide (i.toNat ≤ 64)
  | .start _ d _ _ => dstOk 1 d
  | .halt _ => true
  | .joinh _ _ => true
  | .yield _ => true
  | .saveh _ d _ _ => dstOk 1 d
  | .loadh _ d _ _ => dstOk 1 d
  | .resumeh _ d _ => dstOk 1 d
  | .killh _ d _ => dstOk 1 d
  | .hstat _ d _ => dstOk 1 d
  | .upret _ => true
  | .nop _ => true
  | .trap _ _ => true
  | .eret _ => true
  | .gets _ d a => dstOk 1 d && specialKnown a
  | .puts _ a _ => specialKnown a && specialWritable a
  | .fence _ a => decide (a.toNat ≤ 4)
  | .ifence _ => true
  | .waita _ d _ _ => dstOk 1 d
  | .fflag _ _ _ => true
  | .brk _ => true
  | .sleepr _ d => dstOk 1 d
  | .tinv _ _ _ => true
  | .ld _ w d b q _ => baseOk b && dstOk 1 d && decide (q.extractLsb' 0 2 ≠ 3#2) && !(q.getLsbD 2 && decide (w = 3#2))
  | .st _ _ _ b q _ => baseOk b && decide (q.extractLsb' 0 2 ≠ 3#2)
  | .ldl _ _ d b _ => baseOk b && dstOk 1 d
  | .ldlAcq _ _ d b _ => baseOk b && dstOk 1 d
  | .ldf _ d b _ => baseOk b && dstOk 1 d
  | .ldfe _ d b _ => baseOk b && dstOk 1 d
  | .stl _ _ _ b _ => baseOk b
  | .stlRel _ _ _ b _ => baseOk b
  | .stf _ _ b _ => baseOk b
  | .ste _ _ b _ => baseOk b
  | .ldv _ w d b q _ => decide (w ≠ 0#2) && baseOk b && vdstOk (vslots w) d && decide (q.extractLsb' 0 2 ≠ 3#2)
  | .stv _ w d b q _ => decide (w ≠ 0#2) && baseOk b && vsrcOk (vslots w) d && decide (q.extractLsb' 0 2 ≠ 3#2)
  | .ldx _ d b _ _ _ => baseOk b && vdstOk 1 d
  | .stx _ d b _ _ _ _ => baseOk b && vsrcOk 1 d
  | .pref _ b q _ => baseOk b && decide (q ≠ 3#2)
  | .atomFadd _ d _ _ _ => dstOk 1 d
  | .atomFand _ d _ _ _ => dstOk 1 d
  | .atomFor _ d _ _ _ => dstOk 1 d
  | .atomFxor _ d _ _ _ => dstOk 1 d
  | .atomFmin _ d _ _ _ => dstOk 1 d
  | .atomFmax _ d _ _ _ => dstOk 1 d
  | .atomFminu _ d _ _ z => dstOk 1 d && decide (2 ≤ z.toNat)
  | .atomFmaxu _ d _ _ z => dstOk 1 d && decide (2 ≤ z.toNat)
  | .atomSwap _ d _ _ _ => dstOk 1 d
  | .atomCas _ d _ b => dstOk 1 d && casPairOk b
  | .updAdd _ _ _ t => decide (t.toNat ≤ 5)
  | .updMin _ _ _ t => decide (t.toNat ≤ 5)
  | .updMax _ _ _ t => decide (t.toNat ≤ 5)
  | .updAmax _ _ _ t => decide (t.toNat ≤ 5) && decide (t ≠ 2#3) && decide (t ≠ 3#3)
  | .updAnd _ _ _ t => decide (t.toNat ≤ 3)
  | .updOr _ _ _ t => decide (t.toNat ≤ 3)
  | .updXor _ _ _ t => decide (t.toNat ≤ 3)
  | .pbind _ a _ => isPortPos a
  | .pstat _ d a => isPortPos a && dstOk 1 d
  | .pdrain _ d a => isPortPos a && dstOk 1 d
  | .pord _ a => isPortPos a
  | .bar _ _ => true
  | .bara _ d _ => dstOk 1 d
  | .barw _ _ _ => true
  | .elect _ d _ => dstOk 1 d
  | .gidx _ d _ => dstOk 1 d
  | .gsize _ d _ => dstOk 1 d
  | .vadd _ d a b _ => vsrcOk 1 a && vsrcOk 1 b && vdstOk 1 d
  | .vsub _ d a b _ => vsrcOk 1 a && vsrcOk 1 b && vdstOk 1 d
  | .vmul _ d a b _ => vsrcOk 1 a && vsrcOk 1 b && vdstOk 1 d
  | .vmin _ d a b _ => vsrcOk 1 a && vsrcOk 1 b && vdstOk 1 d
  | .vmax _ d a b _ => vsrcOk 1 a && vsrcOk 1 b && vdstOk 1 d
  | .vminu _ d a b _ => vsrcOk 1 a && vsrcOk 1 b && vdstOk 1 d
  | .vmaxu _ d a b _ => vsrcOk 1 a && vsrcOk 1 b && vdstOk 1 d
  | .vand _ d a b _ => vsrcOk 1 a && vsrcOk 1 b && vdstOk 1 d
  | .vor _ d a b _ => vsrcOk 1 a && vsrcOk 1 b && vdstOk 1 d
  | .vxor _ d a b _ => vsrcOk 1 a && vsrcOk 1 b && vdstOk 1 d
  | .vshl _ d a b _ => vsrcOk 1 a && vsrcOk 1 b && vdstOk 1 d
  | .vshr _ d a b _ => vsrcOk 1 a && vsrcOk 1 b && vdstOk 1 d
  | .vsar _ d a b _ => vsrcOk 1 a && vsrcOk 1 b && vdstOk 1 d
  | .vceq _ d a b _ => vsrcOk 1 a && vsrcOk 1 b && vdstOk 1 d
  | .vclt _ d a b _ => vsrcOk 1 a && vsrcOk 1 b && vdstOk 1 d
  | .vcltu _ d a b _ => vsrcOk 1 a && vsrcOk 1 b && vdstOk 1 d
  | .vfadd _ d a b _ => vsrcOk 1 a && vsrcOk 1 b && vdstOk 1 d
  | .vfsub _ d a b _ => vsrcOk 1 a && vsrcOk 1 b && vdstOk 1 d
  | .vfmul _ d a b _ => vsrcOk 1 a && vsrcOk 1 b && vdstOk 1 d
  | .vfma _ d a b _ => vsrcOk 1 a && vsrcOk 1 b && addendOk d
  | .vfmin _ d a b _ => vsrcOk 1 a && vsrcOk 1 b && vdstOk 1 d
  | .vfmax _ d a b _ => vsrcOk 1 a && vsrcOk 1 b && vdstOk 1 d
  | .vfabs _ d a _ => vsrcOk 1 a && vdstOk 1 d
  | .vfneg _ d a _ => vsrcOk 1 a && vdstOk 1 d
  | .vfceq _ d a b _ => vsrcOk 1 a && vsrcOk 1 b && vdstOk 1 d
  | .vfclt _ d a b _ => vsrcOk 1 a && vsrcOk 1 b && vdstOk 1 d
  | .vfcle _ d a b _ => vsrcOk 1 a && vsrcOk 1 b && vdstOk 1 d
  | .vfrnd _ d a t => vsrcOk 1 a && vdstOk 1 d && decide (t ≠ 0#2)
  | .vfscl _ d a b _ => vsrcOk 1 a && vsrcOk 1 b && vdstOk 1 d
  | .vfcls _ d a t => vsrcOk 1 a && vdstOk 1 d && decide (t ≠ 0#2)
  | .vsplat _ d a b e => vsrcOk 1 a && vdstOk 1 d && laneOk e b
  | .vext _ d a b e => vsrcOk 1 a && vdstOk 1 d && laneOk e b
  | .vins _ d a b e => vsrcOk 1 a && vdstOk 1 d && laneOk e b
  | .vshuf _ d a b _ => vsrcOk 1 a && vsrcOk 1 b && vdstOk 1 d
  | .vrev _ d a _ => vsrcOk 1 a && vdstOk 1 d
  | .vzip _ d a b _ => vsrcOk 1 a && vsrcOk 1 b && vdstOk 1 d
  | .vunz _ d a b _ => vsrcOk 1 a && vsrcOk 1 b && vdstOk 1 d
  | .vsumh _ d a _ => vsrcOk 1 a && vdstOk 1 d
  | .vmaxh _ d a _ => vsrcOk 1 a && vdstOk 1 d
  | .vamaxh _ d a _ => vsrcOk 1 a && vdstOk 1 d
  | .vsel _ d a b _ => vsrcOk 1 a && vsrcOk 1 b && vdstOk 1 d
  | .vabs _ d a _ => vsrcOk 1 a && vdstOk 1 d
  | .vdot4 _ d a b => vsrcOk 1 a && vsrcOk 1 b && addendOk d
  | .vmov _ d a _ => vsrcOk 1 a && vdstOk 1 d
  | .vcvt _ d a x y _ => vsrcOk 1 a && vdstOk 1 d && cvtFmtOk x && cvtFmtOk y
  | .vcvts _ d a x y _ => vsrcOk 1 a && vdstOk 1 d && cvtFmtOk x && cvtFmtOk y
  | .frcp _ d a _ => vsrcOk 1 a && vdstOk 1 d
  | .frsq _ d a _ => vsrcOk 1 a && vdstOk 1 d
  | .fsqrt _ d a _ => vsrcOk 1 a && vdstOk 1 d
  | .fexp2 _ d a _ => vsrcOk 1 a && vdstOk 1 d
  | .flog2 _ d a _ => vsrcOk 1 a && vdstOk 1 d
  | .fsinp _ d a _ => vsrcOk 1 a && vdstOk 1 d
  | .fcosp _ d a _ => vsrcOk 1 a && vdstOk 1 d
  | .ftanh _ d a _ => vsrcOk 1 a && vdstOk 1 d
  | .ferf _ d a _ => vsrcOk 1 a && vdstOk 1 d
  | .fadd _ d _ _ _ => dstOk 1 d
  | .fsub _ d _ _ _ => dstOk 1 d
  | .fmul _ d _ _ _ => dstOk 1 d
  | .fmin _ d _ _ _ => dstOk 1 d
  | .fmax _ d _ _ _ => dstOk 1 d
  | .fabs _ d _ _ => dstOk 1 d
  | .fceq _ d _ _ _ => dstOk 1 d
  | .fclt _ d _ _ _ => dstOk 1 d
  | .fcle _ d _ _ _ => dstOk 1 d
  | .fcvti _ d _ _ => dstOk 1 d
  | .fcvtf _ d _ _ => dstOk 1 d
  | .fcvtw _ d _ _ => dstOk 1 d
  | .zdraw _ d _ _ => isNamed d
  | .zltq _ d a b => dstOk 1 d && isNamed a && ratioOk b
  | .zltf _ d a _ => dstOk 1 d && isNamed a
  | .zltz _ d a b => dstOk 1 d && isNamed a && isNamed b
  | .zfloor _ d a _ => dstOk 1 d && isNamed a
  | .zext _ a _ => isNamed a
  | .zlen _ d a => dstOk 1 d && isNamed a
  | .zbits _ d a _ => dstOk 1 d && isNamed a
  | .zmov _ d a => isNamed d && isNamed a
  | .zld _ d _ => isNamed d
  | .zst _ a _ => isNamed a
  | .sbind _ _ _ => true
  | .sfree _ _ => true
  | .rndw _ d _ _ => dstOk 1 d
  | .rndv _ d _ _ => rndvDstOk d
  | .sgen _ d _ => dstOk 1 d
  | .glaunch _ d _ _ => dstOk 1 d
  | .gquery _ d _ => dstOk 1 d
  | .cpy _ _ _ l s => slotOk s l
  | .csetg _ _ => true
  | .cgetg _ => true
  | .mma _ _ _ l s => slotOk s l
  | .msetg _ _ => true
  | .mgetg _ => true
  | .mldc _ _ _ l s => slotOk s l
  | .mstc _ _ _ l s => slotOk s l
  | .mzero _ _ l s => slotOk s l
  | .mcommit => true
  | .mwait _ => true
  | .coll _ _ _ l s => slotOk s l
  | .cquery _ => true
  | .cabort _ => true
  | .rkovl _ _ _ l s => slotOk s l
  | .rkrun _ _ _ l s => slotOk s l
  | .rksig _ _ _ => true
  | .rkstat _ => true
  | .rkstop _ _ => true
  | .dwait _ => true
  | .dstat => true
  | .sli _ _ _ => true
  | .slih _ _ _ => true
  | .sadd _ _ _ => true
  | .saddi _ _ _ => true
  | .ssub _ _ _ => true
  | .sand _ _ _ => true
  | .sor _ _ _ => true
  | .sxor _ _ _ => true
  | .sshl _ _ _ => true
  | .sshr _ _ _ => true
  | .smul _ _ _ => true
  | .sclt _ _ _ => true
  | .sbz _ _ => true
  | .sbnz _ _ => true
  | .sj _ => true
  | .sloop _ _ => true
  | .cset x _ _ => isK x
  | .cstride x _ => isK x
  | .cnext x => isK x
  | .vld x y => isV x && isK y
  | .vst x y => isV x && isK y
  | .mwVadd x y z r t => isV x && isV y && isV z && (if t = 0#1 then decide (r.toNat ≤ 4) else decide (r = 0#3))
  | .mwVsub x y z r t => isV x && isV y && isV z && (if t = 0#1 then decide (r.toNat ≤ 4) else decide (r = 0#3))
  | .mwVmul x y z r t => isV x && isV y && isV z && (if t = 0#1 then decide (r.toNat ≤ 4) else decide (r = 0#3))
  | .mwVfma x y z r => isV x && isV y && isV z && decide (r.toNat ≤ 4)
  | .vscl x y _ r => isV x && isV y && decide (r.toNat ≤ 4)
  | .mwVmax x y z r t => isV x && isV y && isV z && (if t = 0#1 then decide (r.toNat ≤ 4) else decide (r = 0#3))
  | .mwVmin x y z r t => isV x && isV y && isV z && (if t = 0#1 then decide (r.toNat ≤ 4) else decide (r = 0#3))
  | .mwVcvt x y d f p _ r => isV x && isV y && rankCvtOk d f p && decide (r.toNat ≤ 4)
  | .vspl x _ => isV x
  | .kclr x => isK x
  | .kadd x y _ => isK x && isV y
  | .krnd x y _ r _ => isV x && isK y && decide (r.toNat ≤ 4)
  | .kanc x _ => isK x
  | .cbegin _ y u g => decide (1 ≤ y.toNat) && decide (y.toNat ≤ 12) && (u = 0#1 || g = 0#8)
  | .cend _ => true
  | .cshift _ _ _ z f _ => countRegOk z && decide (f.toNat ≤ 5)
  | .cxpose _ _ _ z f _ => countRegOk z && decide (f.toNat ≤ 5)
  | .ca2a _ _ _ z f _ => countRegOk z && decide (f.toNat ≤ 5)
  | .cred _ _ _ z o f _ => countRegOk z && decide (f.toNat ≤ 5) && decide (o ≠ 7#3)
  | .crsc _ _ _ z o f _ => countRegOk z && decide (f.toNat ≤ 5) && decide (o ≠ 7#3)
  | .cgath _ _ _ z f _ => countRegOk z && decide (f.toNat ≤ 5)
  | .cbcast _ _ _ z f _ => countRegOk z && decide (f.toNat ≤ 5)
  | .cbar _ _ => true
  | .msgo _ => true
  | .msgi _ => true
  | .ovsw _ => true
  | .mwHalt => true
  | .resultDelivery core ctx => decide (core < 4096) && decide (ctx < 11)
  | .instructionFetchReturn core ctx => decide (core < 4096) && decide (ctx < 11)
  | .pageWalk core vd _ _ => decide (core < 4096) && decide (vd < 64)
  | .translationAck core ctx => decide (core < 4096) && decide (ctx < 11)
  | .dupRevocation vd _ => decide (vd < 64)
  | .faultRingEntry vd => decide (vd < 64)
  | .pagerAnswer vd _ => decide (vd < 64)
  | .pagerReply core ctx _ => decide (core < 4096) && decide (ctx < 11)
  | .upcallDelivery core => decide (core < 4096)
  | .pagerNotice core _ => decide (core < 4096)
  | .tinvComplete core ctx => decide (core < 4096) && decide (ctx < 11)
  | .portWordArrival _ => true
  | .waitaReread core ctx => decide (core < 4096) && decide (ctx < 11)
  | .sfuRequestComplete core => decide (core < 4096)
  | .engineCommandStart core => decide (core < 4096)
  | .cpyCompletion core => decide (core < 4096)
  | .muCommandStart mg => decide (mg < 512)
  | .mxCommandComplete mg => decide (mg < 512)
  | .commandRingDispatch vd _ => decide (vd < 64)
  | .courseOpen _ => true
  | .memberReady _ _ => true
  | .keystone _ => true
  | .courseCancel _ => true
  | .keystoneInvalidationDone _ => true
  | .memberLoss rank => decide (rank < 8192)
  | .courseTimeout _ => true
  | .collDeadline vd _ => decide (vd < 64)
  | .collCompletion vd _ => decide (vd < 64)
  | .rkovlCompletion vd _ => decide (vd < 64)
  | .rkrunCompletion vd _ => decide (vd < 64)
  | .rksigMailboxDelivery rank => decide (rank < 8192)
  | .cbarTimeout rank => decide (rank < 8192)
  | .outsideAccessArrival rank row col _ len _ => decide (rank < 8192) && decide (row < 49152) && decide (col < 1024) && decide (1 ≤ len) && decide (len ≤ 64) && decide (col + len ≤ 1024)
  | .rankCheckTimer rank => decide (rank < 8192)
  | .bankReturn rank => decide (rank < 8192)
  | .bankRefresh rank => decide (rank < 8192)
  | .channelPowerDown ch => decide (ch < 256)
  | .channelWake ch => decide (ch < 256)
  | .launchDoorbell vd q _ => decide (vd < 64) && decide (q < 4)
  | .hostApertureAccess vd _ _ len _ => decide (vd < 64) && lenOk len
  | .launchStart vd q => decide (vd < 64) && decide (q < 4)
  | .terminationSweep vd q _ => decide (vd < 64) && decide (q < 4)
  | .rankNodeEnd vd q _ => decide (vd < 64) && decide (q < 4)
  | .preemption core => decide (core < 4096)
  | .coreResumption vd origin core => decide (vd < 64) && decide (origin < 4096) && decide (core < 4096)
  | .create vd _ => decide (vd < 64)
  | .stop vd _ => decide (vd < 64)
  | .equinoxStop vd => decide (vd < 64)
  | .resume vd _ => decide (vd < 64)
  | .reset vd _ => decide (vd < 64)
  | .teardown vd _ => decide (vd < 64)
  | .keygen vd _ => decide (vd < 64)
  | .keykill vd _ => decide (vd < 64)
  | .permissionEntryWrite bd e _ => decide (bd < 8) && decide (e < 512)
  | .windowEntryWrite vd w _ => decide (vd < 64) && decide (w < 16)
  | .rankEnableMapWrite bd w _ => decide (bd < 8) && decide (w < 16)
  | .registerWrite _ _ => true
  | .attach => true
  | .detach => true
  | .debugHalt => true
  | .debugResume => true
  | .debugStep => true
  | .debugRead => true
  | .debugWrite => true
  | .vigilCollapse vd => decide (vd < 64)
  | .wake vd => decide (vd < 64)
  | .linkPortWake port => decide (port < 16)
  | .uncorrectableError _ => true
  | .patrolScrub rank row _ => decide (rank < 8192) && decide (row < 49152)
  | .spareSubstitution _ => true
  | .bankMigration rank => decide (rank < 8192)
  | .almanacWrite => true
  | .powerGood => true
  | .powerManagerAdjust _ _ _ _ => true
  | .thermalTrip => true
  | .getVersion _ => true
  | .getCapabilities _ => true
  | .negotiateAlgorithms _ => true
  | .getDigests _ => true
  | .getCertificate _ _ _ => true
  | .challenge _ _ => true
  | .getMeasurements _ _ _ => true
  | .keyExchange _ _ => true
  | .finish _ _ => true
  | .endSession _ => true
  | .read _ => true
  | .readResp _ => true
  | .write _ => true
  | .atomic _ => true
  | .atomicResp _ => true
  | .update _ => true
  | .ack _ => true
  | .nack _ => true
  | .step _ => true
  | .stepRed _ => true
  | .stepRes _ => true
  | .keepalive _ => true
  | .keepaliveSend => true
  | .packageLoss pkg => decide (pkg < 1024)
  | .homeAcknowledgement core ctx => decide (core < 4096) && decide (ctx < 11)
  | .pbindAcknowledgement core ctx => decide (core < 4096) && decide (ctx < 11)
  | .deviceDma _ _ len _ => lenOk len
  | .applicationCoreAccess _ => true
  | .drainTimeout vd => decide (vd < 64)
  | .powerLoss => true
  | .flashUpdateCommand _ _ => true
  | .configurationRequest _ _ => true
  | .linkKeyReplacement _ _ _ => true

end Sys2Proof
end

