-- ==== Sys2Proof/Decode.lean ====
section
/-! DEFINITION. Decoding of Soras words (R59 to R73) and Melwen words (R191, R193), and after it the encoder. Every word is
decoded: a word no row owns, or one whose operand fields the rules forbid, is rejected by name. The Melwen half is marked noncomputable for one reason only: the compiler's object header numbers at
most 244 constructors with fields, and the table has more; the kernel evaluates these definitions like any other. -/

namespace Sys2Proof

/-- Bits `lo + n - 1` to `lo` of a word (R3). -/
def fld (x : BitVec 32) (lo n : Nat) : BitVec n := x.extractLsb' lo n

/-- The words of S major code 0x01. -/
def decS01 (x : BitVec 32) : Option Instr :=
  if fld x 0 6 = 0x0#6 then some (.add (fld x 23 3) (fld x 21 2) (fld x 16 5) (fld x 11 5) (fld x 6 5)) else
  if fld x 0 6 = 0x1#6 then some (.sub (fld x 23 3) (fld x 21 2) (fld x 16 5) (fld x 11 5) (fld x 6 5)) else
  if fld x 0 6 = 0x2#6 then some (.and (fld x 23 3) (fld x 21 2) (fld x 16 5) (fld x 11 5) (fld x 6 5)) else
  if fld x 0 6 = 0x3#6 then some (.or (fld x 23 3) (fld x 21 2) (fld x 16 5) (fld x 11 5) (fld x 6 5)) else
  if fld x 0 6 = 0x4#6 then some (.xor (fld x 23 3) (fld x 21 2) (fld x 16 5) (fld x 11 5) (fld x 6 5)) else
  if fld x 0 6 = 0x5#6 then some (.andn (fld x 23 3) (fld x 21 2) (fld x 16 5) (fld x 11 5) (fld x 6 5)) else
  if fld x 0 6 = 0x6#6 then some (.orn (fld x 23 3) (fld x 21 2) (fld x 16 5) (fld x 11 5) (fld x 6 5)) else
  if fld x 0 6 = 0x7#6 then some (.shl (fld x 23 3) (fld x 21 2) (fld x 16 5) (fld x 11 5) (fld x 6 5)) else
  if fld x 0 6 = 0x8#6 then some (.shr (fld x 23 3) (fld x 21 2) (fld x 16 5) (fld x 11 5) (fld x 6 5)) else
  if fld x 0 6 = 0x9#6 then some (.sar (fld x 23 3) (fld x 21 2) (fld x 16 5) (fld x 11 5) (fld x 6 5)) else
  if fld x 0 6 = 0xA#6 then some (.rol (fld x 23 3) (fld x 21 2) (fld x 16 5) (fld x 11 5) (fld x 6 5)) else
  if fld x 0 6 = 0xB#6 then some (.ror (fld x 23 3) (fld x 21 2) (fld x 16 5) (fld x 11 5) (fld x 6 5)) else
  if fld x 0 6 = 0xC#6 then some (.mul (fld x 23 3) (fld x 21 2) (fld x 16 5) (fld x 11 5) (fld x 6 5)) else
  if fld x 0 6 = 0xD#6 then some (.mulh (fld x 23 3) (fld x 21 2) (fld x 16 5) (fld x 11 5) (fld x 6 5)) else
  if fld x 0 6 = 0xE#6 then some (.mulhu (fld x 23 3) (fld x 21 2) (fld x 16 5) (fld x 11 5) (fld x 6 5)) else
  if fld x 0 6 = 0xF#6 then some (.div (fld x 23 3) (fld x 21 2) (fld x 16 5) (fld x 11 5) (fld x 6 5)) else
  if fld x 0 6 = 0x10#6 then some (.divu (fld x 23 3) (fld x 21 2) (fld x 16 5) (fld x 11 5) (fld x 6 5)) else
  if fld x 0 6 = 0x11#6 then some (.rem (fld x 23 3) (fld x 21 2) (fld x 16 5) (fld x 11 5) (fld x 6 5)) else
  if fld x 0 6 = 0x12#6 then some (.remu (fld x 23 3) (fld x 21 2) (fld x 16 5) (fld x 11 5) (fld x 6 5)) else
  if fld x 0 6 = 0x13#6 then some (.min (fld x 23 3) (fld x 21 2) (fld x 16 5) (fld x 11 5) (fld x 6 5)) else
  if fld x 0 6 = 0x14#6 then some (.max (fld x 23 3) (fld x 21 2) (fld x 16 5) (fld x 11 5) (fld x 6 5)) else
  if fld x 0 6 = 0x15#6 then some (.minu (fld x 23 3) (fld x 21 2) (fld x 16 5) (fld x 11 5) (fld x 6 5)) else
  if fld x 0 6 = 0x16#6 then some (.maxu (fld x 23 3) (fld x 21 2) (fld x 16 5) (fld x 11 5) (fld x 6 5)) else
  if fld x 0 6 = 0x17#6 then some (.ceq (fld x 23 3) (fld x 21 2) (fld x 16 5) (fld x 11 5) (fld x 6 5)) else
  if fld x 0 6 = 0x18#6 then some (.cne (fld x 23 3) (fld x 21 2) (fld x 16 5) (fld x 11 5) (fld x 6 5)) else
  if fld x 0 6 = 0x19#6 then some (.clt (fld x 23 3) (fld x 21 2) (fld x 16 5) (fld x 11 5) (fld x 6 5)) else
  if fld x 0 6 = 0x1A#6 then some (.cltu (fld x 23 3) (fld x 21 2) (fld x 16 5) (fld x 11 5) (fld x 6 5)) else
  if fld x 0 6 = 0x1B#6 then some (.cle (fld x 23 3) (fld x 21 2) (fld x 16 5) (fld x 11 5) (fld x 6 5)) else
  if fld x 0 6 = 0x1C#6 then some (.cleu (fld x 23 3) (fld x 21 2) (fld x 16 5) (fld x 11 5) (fld x 6 5)) else
  if fld x 0 6 = 0x1D#6 then some (.sel (fld x 23 3) (fld x 21 2) (fld x 16 5) (fld x 11 5) (fld x 6 5)) else
  if fld x 0 6 = 0x1E#6 ∧ fld x 6 5 = 0x1F#5 then some (.clz (fld x 23 3) (fld x 21 2) (fld x 16 5) (fld x 11 5)) else
  if fld x 0 6 = 0x1F#6 ∧ fld x 6 5 = 0x1F#5 then some (.ctz (fld x 23 3) (fld x 21 2) (fld x 16 5) (fld x 11 5)) else
  if fld x 0 6 = 0x20#6 ∧ fld x 6 5 = 0x1F#5 then some (.popc (fld x 23 3) (fld x 21 2) (fld x 16 5) (fld x 11 5)) else
  if fld x 0 6 = 0x21#6 ∧ fld x 6 5 = 0x1F#5 then some (.brev (fld x 23 3) (fld x 21 2) (fld x 16 5) (fld x 11 5)) else
  if fld x 0 6 = 0x22#6 ∧ fld x 6 5 = 0x1F#5 then some (.bswap (fld x 23 3) (fld x 21 2) (fld x 16 5) (fld x 11 5)) else
  if fld x 0 6 = 0x23#6 ∧ fld x 6 5 = 0x1F#5 then some (.mov (fld x 23 3) (fld x 21 2) (fld x 16 5) (fld x 11 5)) else
  none

/-- The words of S major code 0x02. -/
def decS02 (x : BitVec 32) : Option Instr :=
  some (.addi (fld x 23 3) (fld x 21 2) (fld x 16 5) (fld x 11 5) (fld x 0 11))

/-- The words of S major code 0x03. -/
def decS03 (x : BitVec 32) : Option Instr :=
  some (.andi (fld x 23 3) (fld x 21 2) (fld x 16 5) (fld x 11 5) (fld x 0 11))

/-- The words of S major code 0x04. -/
def decS04 (x : BitVec 32) : Option Instr :=
  some (.ori (fld x 23 3) (fld x 21 2) (fld x 16 5) (fld x 11 5) (fld x 0 11))

/-- The words of S major code 0x05. -/
def decS05 (x : BitVec 32) : Option Instr :=
  some (.xori (fld x 23 3) (fld x 21 2) (fld x 16 5) (fld x 11 5) (fld x 0 11))

/-- The words of S major code 0x06. -/
def decS06 (x : BitVec 32) : Option Instr :=
  if fld x 6 5 = 0x0#5 then some (.shli (fld x 23 3) (fld x 21 2) (fld x 16 5) (fld x 11 5) (fld x 0 6)) else
  if fld x 6 5 = 0x8#5 then some (.shri (fld x 23 3) (fld x 21 2) (fld x 16 5) (fld x 11 5) (fld x 0 6)) else
  if fld x 6 5 = 0x10#5 then some (.sari (fld x 23 3) (fld x 21 2) (fld x 16 5) (fld x 11 5) (fld x 0 6)) else
  if fld x 6 5 = 0x18#5 then some (.roli (fld x 23 3) (fld x 21 2) (fld x 16 5) (fld x 11 5) (fld x 0 6)) else
  none

/-- The words of S major code 0x07. -/
def decS07 (x : BitVec 32) : Option Instr :=
  some (.ceqi (fld x 23 3) (fld x 21 2) (fld x 16 5) (fld x 11 5) (fld x 0 11))

/-- The words of S major code 0x08. -/
def decS08 (x : BitVec 32) : Option Instr :=
  some (.clti (fld x 23 3) (fld x 21 2) (fld x 16 5) (fld x 11 5) (fld x 0 11))

/-- The words of S major code 0x09. -/
def decS09 (x : BitVec 32) : Option Instr :=
  some (.cltui (fld x 23 3) (fld x 21 2) (fld x 16 5) (fld x 11 5) (fld x 0 11))

/-- The words of S major code 0x0A. -/
def decS0A (x : BitVec 32) : Option Instr :=
  if fld x 21 2 = 0x0#2 then some (.bfx (fld x 23 3) (fld x 16 5) (fld x 11 5) (fld x 5 6) (fld x 0 5)) else
  none

/-- The words of S major code 0x0B. -/
def decS0B (x : BitVec 32) : Option Instr :=
  if fld x 21 2 = 0x0#2 then some (.bfi (fld x 23 3) (fld x 16 5) (fld x 11 5) (fld x 5 6) (fld x 0 5)) else
  none

/-- The words of S major code 0x0C. -/
def decS0C (x : BitVec 32) : Option Instr :=
  if fld x 21 2 = 0x0#2 then some (.ldk (fld x 23 3) (fld x 16 5) (fld x 0 16)) else
  none

/-- The words of S major code 0x0D. -/
def decS0D (x : BitVec 32) : Option Instr :=
  if fld x 21 2 = 0x0#2 then some (.ldkh (fld x 23 3) (fld x 16 5) (fld x 0 16)) else
  none

/-- The words of S major code 0x0E. -/
def decS0E (x : BitVec 32) : Option Instr :=
  if fld x 21 2 = 0x0#2 then some (.adpc (fld x 23 3) (fld x 16 5) (fld x 0 16)) else
  none

/-- The words of S major code 0x0F. -/
def decS0F (x : BitVec 32) : Option Instr :=
  if fld x 0 6 = 0x0#6 ∧ fld x 21 2 = 0x0#2 then some (.padd (fld x 23 3) (fld x 16 5) (fld x 11 5) (fld x 6 5)) else
  if fld x 0 6 = 0x1#6 ∧ fld x 21 2 = 0x0#2 then some (.padde (fld x 23 3) (fld x 16 5) (fld x 11 5) (fld x 6 5)) else
  if fld x 0 6 = 0x2#6 ∧ fld x 21 2 = 0x0#2 then some (.psube (fld x 23 3) (fld x 16 5) (fld x 11 5) (fld x 6 5)) else
  if fld x 0 6 = 0x3#6 ∧ fld x 21 2 = 0x0#2 then some (.pfmt (fld x 23 3) (fld x 16 5) (fld x 11 5) (fld x 6 5)) else
  if fld x 0 6 = 0x4#6 ∧ fld x 6 5 = 0x1F#5 ∧ fld x 21 2 = 0x0#2 then some (.pgetf (fld x 23 3) (fld x 16 5) (fld x 11 5)) else
  if fld x 0 6 = 0x5#6 ∧ fld x 6 5 = 0x1F#5 ∧ fld x 21 2 = 0x0#2 then some (.pgetb (fld x 23 3) (fld x 16 5) (fld x 11 5)) else
  if fld x 0 6 = 0x6#6 ∧ fld x 21 2 = 0x0#2 then some (.pset (fld x 23 3) (fld x 16 5) (fld x 11 5) (fld x 6 5)) else
  if fld x 0 6 = 0x7#6 ∧ fld x 16 5 = 0x1F#5 ∧ fld x 21 2 = 0x0#2 then some (.pstr (fld x 23 3) (fld x 11 5) (fld x 6 5)) else
  if fld x 0 6 = 0x8#6 ∧ fld x 6 5 = 0x1F#5 ∧ fld x 21 2 = 0x0#2 then some (.pgeta (fld x 23 3) (fld x 16 5) (fld x 11 5)) else
  none

/-- The words of S major code 0x10. -/
def decS10 (x : BitVec 32) : Option Instr :=
  if fld x 21 2 = 0x0#2 then some (.paddi (fld x 23 3) (fld x 16 5) (fld x 11 5) (fld x 0 11)) else
  none

/-- The words of S major code 0x11. -/
def decS11 (x : BitVec 32) : Option Instr :=
  some (.br (fld x 23 3) (fld x 20 3) (fld x 15 5) (fld x 0 15))

/-- The words of S major code 0x12. -/
def decS12 (x : BitVec 32) : Option Instr :=
  some (.jmp (fld x 23 3) (fld x 0 23))

/-- The words of S major code 0x13. -/
def decS13 (x : BitVec 32) : Option Instr :=
  some (.call (fld x 23 3) (fld x 0 23))

/-- The words of S major code 0x14. -/
def decS14 (x : BitVec 32) : Option Instr :=
  if fld x 0 11 = 0x7C0#11 ∧ fld x 16 7 = 0x1F#7 then some (.jmpi (fld x 23 3) (fld x 11 5)) else
  if fld x 0 11 = 0x7C1#11 ∧ fld x 16 7 = 0x1F#7 then some (.calli (fld x 23 3) (fld x 11 5)) else
  if fld x 0 11 = 0x7C2#11 ∧ fld x 11 5 = 0x1F#5 ∧ fld x 16 7 = 0x1F#7 then some (.ret (fld x 23 3)) else
  none

/-- The words of S major code 0x15. -/
def decS15 (x : BitVec 32) : Option Instr :=
  if fld x 20 3 = 0x0#3 then some (.loop (fld x 23 3) (fld x 15 5) (fld x 0 15)) else
  none

/-- The words of S major code 0x16. -/
def decS16 (x : BitVec 32) : Option Instr :=
  if fld x 16 7 = 0x1F#7 then some (.rep (fld x 23 3) (fld x 11 5) (fld x 0 11)) else
  none

/-- The words of S major code 0x17. -/
def decS17 (x : BitVec 32) : Option Instr :=
  if fld x 0 6 = 0x0#6 ∧ fld x 21 2 = 0x0#2 then some (.start (fld x 23 3) (fld x 16 5) (fld x 11 5) (fld x 6 5)) else
  if fld x 0 6 = 0x1#6 ∧ fld x 6 5 = 0x1F#5 ∧ fld x 11 5 = 0x1F#5 ∧ fld x 16 5 = 0x1F#5 ∧ fld x 21 2 = 0x0#2 then some (.halt (fld x 23 3)) else
  if fld x 0 6 = 0x2#6 ∧ fld x 6 5 = 0x1F#5 ∧ fld x 16 5 = 0x1F#5 ∧ fld x 21 2 = 0x0#2 then some (.joinh (fld x 23 3) (fld x 11 5)) else
  if fld x 0 6 = 0x3#6 ∧ fld x 6 5 = 0x1F#5 ∧ fld x 11 5 = 0x1F#5 ∧ fld x 16 5 = 0x1F#5 ∧ fld x 21 2 = 0x0#2 then some (.yield (fld x 23 3)) else
  if fld x 0 6 = 0x4#6 ∧ fld x 21 2 = 0x0#2 then some (.saveh (fld x 23 3) (fld x 16 5) (fld x 11 5) (fld x 6 5)) else
  if fld x 0 6 = 0x5#6 ∧ fld x 21 2 = 0x0#2 then some (.loadh (fld x 23 3) (fld x 16 5) (fld x 11 5) (fld x 6 5)) else
  if fld x 0 6 = 0x6#6 ∧ fld x 6 5 = 0x1F#5 ∧ fld x 21 2 = 0x0#2 then some (.resumeh (fld x 23 3) (fld x 16 5) (fld x 11 5)) else
  if fld x 0 6 = 0x7#6 ∧ fld x 6 5 = 0x1F#5 ∧ fld x 21 2 = 0x0#2 then some (.killh (fld x 23 3) (fld x 16 5) (fld x 11 5)) else
  if fld x 0 6 = 0x8#6 ∧ fld x 6 5 = 0x1F#5 ∧ fld x 21 2 = 0x0#2 then some (.hstat (fld x 23 3) (fld x 16 5) (fld x 11 5)) else
  if fld x 0 6 = 0x9#6 ∧ fld x 6 5 = 0x1F#5 ∧ fld x 11 5 = 0x1F#5 ∧ fld x 16 5 = 0x1F#5 ∧ fld x 21 2 = 0x0#2 then some (.upret (fld x 23 3)) else
  none

/-- The words of S major code 0x18. -/
def decS18 (x : BitVec 32) : Option Instr :=
  if fld x 0 6 = 0x0#6 ∧ fld x 6 5 = 0x1F#5 ∧ fld x 11 5 = 0x1F#5 ∧ fld x 16 5 = 0x1F#5 ∧ fld x 21 2 = 0x0#2 then some (.nop (fld x 23 3)) else
  if fld x 0 6 = 0x1#6 ∧ fld x 6 5 = 0x1F#5 ∧ fld x 16 5 = 0x1F#5 ∧ fld x 21 2 = 0x0#2 then some (.trap (fld x 23 3) (fld x 11 5)) else
  if fld x 0 6 = 0x2#6 ∧ fld x 6 5 = 0x1F#5 ∧ fld x 11 5 = 0x1F#5 ∧ fld x 16 5 = 0x1F#5 ∧ fld x 21 2 = 0x0#2 then some (.eret (fld x 23 3)) else
  if fld x 0 6 = 0x3#6 ∧ fld x 6 5 = 0x1F#5 ∧ fld x 21 2 = 0x0#2 then some (.gets (fld x 23 3) (fld x 16 5) (fld x 11 5)) else
  if fld x 0 6 = 0x4#6 ∧ fld x 16 5 = 0x1F#5 ∧ fld x 21 2 = 0x0#2 then some (.puts (fld x 23 3) (fld x 11 5) (fld x 6 5)) else
  if fld x 0 6 = 0x5#6 ∧ fld x 6 5 = 0x1F#5 ∧ fld x 16 5 = 0x1F#5 ∧ fld x 21 2 = 0x0#2 then some (.fence (fld x 23 3) (fld x 11 5)) else
  if fld x 0 6 = 0x6#6 ∧ fld x 6 5 = 0x1F#5 ∧ fld x 11 5 = 0x1F#5 ∧ fld x 16 5 = 0x1F#5 ∧ fld x 21 2 = 0x0#2 then some (.ifence (fld x 23 3)) else
  if fld x 0 6 = 0x7#6 ∧ fld x 21 2 = 0x0#2 then some (.waita (fld x 23 3) (fld x 16 5) (fld x 11 5) (fld x 6 5)) else
  if fld x 0 6 = 0x8#6 ∧ fld x 16 5 = 0x1F#5 ∧ fld x 21 2 = 0x0#2 then some (.fflag (fld x 23 3) (fld x 11 5) (fld x 6 5)) else
  if fld x 0 6 = 0x9#6 ∧ fld x 6 5 = 0x1F#5 ∧ fld x 11 5 = 0x1F#5 ∧ fld x 16 5 = 0x1F#5 ∧ fld x 21 2 = 0x0#2 then some (.brk (fld x 23 3)) else
  if fld x 0 6 = 0xA#6 ∧ fld x 6 5 = 0x1F#5 ∧ fld x 11 5 = 0x1F#5 ∧ fld x 21 2 = 0x0#2 then some (.sleepr (fld x 23 3) (fld x 16 5)) else
  if fld x 0 6 = 0xB#6 ∧ fld x 16 5 = 0x1F#5 ∧ fld x 21 2 = 0x0#2 then some (.tinv (fld x 23 3) (fld x 11 5) (fld x 6 5)) else
  none

/-- The words of S major code 0x19. -/
def decS19 (x : BitVec 32) : Option Instr :=
  some (.ld (fld x 23 3) (fld x 21 2) (fld x 16 5) (fld x 11 5) (fld x 8 3) (fld x 0 8))

/-- The words of S major code 0x1A. -/
def decS1A (x : BitVec 32) : Option Instr :=
  if fld x 10 1 = 0x0#1 then some (.st (fld x 23 3) (fld x 21 2) (fld x 16 5) (fld x 11 5) (fld x 8 2) (fld x 0 8)) else
  none

/-- The words of S major code 0x1B. -/
def decS1B (x : BitVec 32) : Option Instr :=
  if fld x 8 3 = 0x0#3 then some (.ldl (fld x 23 3) (fld x 21 2) (fld x 16 5) (fld x 11 5) (fld x 0 8)) else
  if fld x 8 3 = 0x3#3 then some (.ldlAcq (fld x 23 3) (fld x 21 2) (fld x 16 5) (fld x 11 5) (fld x 0 8)) else
  if fld x 8 3 = 0x1#3 ∧ fld x 21 2 = 0x3#2 then some (.ldf (fld x 23 3) (fld x 16 5) (fld x 11 5) (fld x 0 8)) else
  if fld x 8 3 = 0x2#3 ∧ fld x 21 2 = 0x3#2 then some (.ldfe (fld x 23 3) (fld x 16 5) (fld x 11 5) (fld x 0 8)) else
  none

/-- The words of S major code 0x1C. -/
def decS1C (x : BitVec 32) : Option Instr :=
  if fld x 8 3 = 0x0#3 then some (.stl (fld x 23 3) (fld x 21 2) (fld x 16 5) (fld x 11 5) (fld x 0 8)) else
  if fld x 8 3 = 0x3#3 then some (.stlRel (fld x 23 3) (fld x 21 2) (fld x 16 5) (fld x 11 5) (fld x 0 8)) else
  if fld x 8 3 = 0x1#3 ∧ fld x 21 2 = 0x3#2 then some (.stf (fld x 23 3) (fld x 16 5) (fld x 11 5) (fld x 0 8)) else
  if fld x 8 3 = 0x2#3 ∧ fld x 21 2 = 0x3#2 then some (.ste (fld x 23 3) (fld x 16 5) (fld x 11 5) (fld x 0 8)) else
  none

/-- The words of S major code 0x1D. -/
def decS1D (x : BitVec 32) : Option Instr :=
  some (.ldv (fld x 23 3) (fld x 21 2) (fld x 16 5) (fld x 11 5) (fld x 8 3) (fld x 0 8))

/-- The words of S major code 0x1E. -/
def decS1E (x : BitVec 32) : Option Instr :=
  some (.stv (fld x 23 3) (fld x 21 2) (fld x 16 5) (fld x 11 5) (fld x 8 3) (fld x 0 8))

/-- The words of S major code 0x1F. -/
def decS1F (x : BitVec 32) : Option Instr :=
  if fld x 8 1 = 0x0#1 ∧ fld x 21 2 = 0x1#2 then some (.ldx (fld x 23 3) (fld x 16 5) (fld x 11 5) (fld x 10 1) (fld x 9 1) (fld x 0 8)) else
  none

/-- The words of S major code 0x20. -/
def decS20 (x : BitVec 32) : Option Instr :=
  if fld x 21 2 = 0x1#2 then some (.stx (fld x 23 3) (fld x 16 5) (fld x 11 5) (fld x 10 1) (fld x 9 1) (fld x 8 1) (fld x 0 8)) else
  none

/-- The words of S major code 0x21. -/
def decS21 (x : BitVec 32) : Option Instr :=
  if fld x 10 1 = 0x0#1 ∧ fld x 16 7 = 0x1F#7 then some (.pref (fld x 23 3) (fld x 11 5) (fld x 8 2) (fld x 0 8)) else
  none

/-- The words of S major code 0x22. -/
def decS22 (x : BitVec 32) : Option Instr :=
  if fld x 0 4 = 0x0#4 ∧ fld x 21 2 = 0x0#2 then some (.atomFadd (fld x 23 3) (fld x 16 5) (fld x 11 5) (fld x 6 5) (fld x 4 2)) else
  if fld x 0 4 = 0x1#4 ∧ fld x 21 2 = 0x0#2 then some (.atomFand (fld x 23 3) (fld x 16 5) (fld x 11 5) (fld x 6 5) (fld x 4 2)) else
  if fld x 0 4 = 0x2#4 ∧ fld x 21 2 = 0x0#2 then some (.atomFor (fld x 23 3) (fld x 16 5) (fld x 11 5) (fld x 6 5) (fld x 4 2)) else
  if fld x 0 4 = 0x3#4 ∧ fld x 21 2 = 0x0#2 then some (.atomFxor (fld x 23 3) (fld x 16 5) (fld x 11 5) (fld x 6 5) (fld x 4 2)) else
  if fld x 0 4 = 0x4#4 ∧ fld x 21 2 = 0x0#2 then some (.atomFmin (fld x 23 3) (fld x 16 5) (fld x 11 5) (fld x 6 5) (fld x 4 2)) else
  if fld x 0 4 = 0x5#4 ∧ fld x 21 2 = 0x0#2 then some (.atomFmax (fld x 23 3) (fld x 16 5) (fld x 11 5) (fld x 6 5) (fld x 4 2)) else
  if fld x 0 4 = 0x6#4 ∧ fld x 21 2 = 0x0#2 then some (.atomFminu (fld x 23 3) (fld x 16 5) (fld x 11 5) (fld x 6 5) (fld x 4 2)) else
  if fld x 0 4 = 0x7#4 ∧ fld x 21 2 = 0x0#2 then some (.atomFmaxu (fld x 23 3) (fld x 16 5) (fld x 11 5) (fld x 6 5) (fld x 4 2)) else
  if fld x 0 4 = 0x8#4 ∧ fld x 21 2 = 0x0#2 then some (.atomSwap (fld x 23 3) (fld x 16 5) (fld x 11 5) (fld x 6 5) (fld x 4 2)) else
  if fld x 0 4 = 0x9#4 ∧ fld x 4 2 = 0x3#2 ∧ fld x 21 2 = 0x1#2 then some (.atomCas (fld x 23 3) (fld x 16 5) (fld x 11 5) (fld x 6 5)) else
  none

/-- The words of S major code 0x23. -/
def decS23 (x : BitVec 32) : Option Instr :=
  if fld x 0 3 = 0x0#3 ∧ fld x 16 7 = 0x1F#7 then some (.updAdd (fld x 23 3) (fld x 11 5) (fld x 6 5) (fld x 3 3)) else
  if fld x 0 3 = 0x1#3 ∧ fld x 16 7 = 0x1F#7 then some (.updMin (fld x 23 3) (fld x 11 5) (fld x 6 5) (fld x 3 3)) else
  if fld x 0 3 = 0x2#3 ∧ fld x 16 7 = 0x1F#7 then some (.updMax (fld x 23 3) (fld x 11 5) (fld x 6 5) (fld x 3 3)) else
  if fld x 0 3 = 0x3#3 ∧ fld x 16 7 = 0x1F#7 then some (.updAmax (fld x 23 3) (fld x 11 5) (fld x 6 5) (fld x 3 3)) else
  if fld x 0 3 = 0x4#3 ∧ fld x 16 7 = 0x1F#7 then some (.updAnd (fld x 23 3) (fld x 11 5) (fld x 6 5) (fld x 3 3)) else
  if fld x 0 3 = 0x5#3 ∧ fld x 16 7 = 0x1F#7 then some (.updOr (fld x 23 3) (fld x 11 5) (fld x 6 5) (fld x 3 3)) else
  if fld x 0 3 = 0x6#3 ∧ fld x 16 7 = 0x1F#7 then some (.updXor (fld x 23 3) (fld x 11 5) (fld x 6 5) (fld x 3 3)) else
  none

/-- The words of S major code 0x24. -/
def decS24 (x : BitVec 32) : Option Instr :=
  if fld x 0 6 = 0x0#6 ∧ fld x 16 5 = 0x1F#5 ∧ fld x 21 2 = 0x0#2 then some (.pbind (fld x 23 3) (fld x 11 5) (fld x 6 5)) else
  if fld x 0 6 = 0x1#6 ∧ fld x 6 5 = 0x1F#5 ∧ fld x 21 2 = 0x0#2 then some (.pstat (fld x 23 3) (fld x 16 5) (fld x 11 5)) else
  if fld x 0 6 = 0x2#6 ∧ fld x 6 5 = 0x1F#5 ∧ fld x 21 2 = 0x0#2 then some (.pdrain (fld x 23 3) (fld x 16 5) (fld x 11 5)) else
  if fld x 0 6 = 0x3#6 ∧ fld x 6 5 = 0x1F#5 ∧ fld x 16 5 = 0x1F#5 ∧ fld x 21 2 = 0x0#2 then some (.pord (fld x 23 3) (fld x 11 5)) else
  none

/-- The words of S major code 0x25. -/
def decS25 (x : BitVec 32) : Option Instr :=
  if fld x 0 6 = 0x0#6 ∧ fld x 6 5 = 0x1F#5 ∧ fld x 16 5 = 0x1F#5 ∧ fld x 21 2 = 0x0#2 then some (.bar (fld x 23 3) (fld x 11 5)) else
  if fld x 0 6 = 0x1#6 ∧ fld x 6 5 = 0x1F#5 ∧ fld x 21 2 = 0x0#2 then some (.bara (fld x 23 3) (fld x 16 5) (fld x 11 5)) else
  if fld x 0 6 = 0x2#6 ∧ fld x 16 5 = 0x1F#5 ∧ fld x 21 2 = 0x0#2 then some (.barw (fld x 23 3) (fld x 11 5) (fld x 6 5)) else
  if fld x 0 6 = 0x3#6 ∧ fld x 6 5 = 0x1F#5 ∧ fld x 21 2 = 0x0#2 then some (.elect (fld x 23 3) (fld x 16 5) (fld x 11 5)) else
  if fld x 0 6 = 0x4#6 ∧ fld x 6 5 = 0x1F#5 ∧ fld x 21 2 = 0x0#2 then some (.gidx (fld x 23 3) (fld x 16 5) (fld x 11 5)) else
  if fld x 0 6 = 0x5#6 ∧ fld x 6 5 = 0x1F#5 ∧ fld x 21 2 = 0x0#2 then some (.gsize (fld x 23 3) (fld x 16 5) (fld x 11 5)) else
  none

/-- The words of S major code 0x26. -/
def decS26 (x : BitVec 32) : Option Instr :=
  if fld x 0 4 = 0x0#4 ∧ fld x 21 2 = 0x1#2 then some (.vadd (fld x 23 3) (fld x 16 5) (fld x 11 5) (fld x 6 5) (fld x 4 2)) else
  if fld x 0 4 = 0x1#4 ∧ fld x 21 2 = 0x1#2 then some (.vsub (fld x 23 3) (fld x 16 5) (fld x 11 5) (fld x 6 5) (fld x 4 2)) else
  if fld x 0 4 = 0x2#4 ∧ fld x 21 2 = 0x1#2 then some (.vmul (fld x 23 3) (fld x 16 5) (fld x 11 5) (fld x 6 5) (fld x 4 2)) else
  if fld x 0 4 = 0x3#4 ∧ fld x 21 2 = 0x1#2 then some (.vmin (fld x 23 3) (fld x 16 5) (fld x 11 5) (fld x 6 5) (fld x 4 2)) else
  if fld x 0 4 = 0x4#4 ∧ fld x 21 2 = 0x1#2 then some (.vmax (fld x 23 3) (fld x 16 5) (fld x 11 5) (fld x 6 5) (fld x 4 2)) else
  if fld x 0 4 = 0x5#4 ∧ fld x 21 2 = 0x1#2 then some (.vminu (fld x 23 3) (fld x 16 5) (fld x 11 5) (fld x 6 5) (fld x 4 2)) else
  if fld x 0 4 = 0x6#4 ∧ fld x 21 2 = 0x1#2 then some (.vmaxu (fld x 23 3) (fld x 16 5) (fld x 11 5) (fld x 6 5) (fld x 4 2)) else
  if fld x 0 4 = 0x7#4 ∧ fld x 21 2 = 0x1#2 then some (.vand (fld x 23 3) (fld x 16 5) (fld x 11 5) (fld x 6 5) (fld x 4 2)) else
  if fld x 0 4 = 0x8#4 ∧ fld x 21 2 = 0x1#2 then some (.vor (fld x 23 3) (fld x 16 5) (fld x 11 5) (fld x 6 5) (fld x 4 2)) else
  if fld x 0 4 = 0x9#4 ∧ fld x 21 2 = 0x1#2 then some (.vxor (fld x 23 3) (fld x 16 5) (fld x 11 5) (fld x 6 5) (fld x 4 2)) else
  if fld x 0 4 = 0xA#4 ∧ fld x 21 2 = 0x1#2 then some (.vshl (fld x 23 3) (fld x 16 5) (fld x 11 5) (fld x 6 5) (fld x 4 2)) else
  if fld x 0 4 = 0xB#4 ∧ fld x 21 2 = 0x1#2 then some (.vshr (fld x 23 3) (fld x 16 5) (fld x 11 5) (fld x 6 5) (fld x 4 2)) else
  if fld x 0 4 = 0xC#4 ∧ fld x 21 2 = 0x1#2 then some (.vsar (fld x 23 3) (fld x 16 5) (fld x 11 5) (fld x 6 5) (fld x 4 2)) else
  if fld x 0 4 = 0xD#4 ∧ fld x 21 2 = 0x1#2 then some (.vceq (fld x 23 3) (fld x 16 5) (fld x 11 5) (fld x 6 5) (fld x 4 2)) else
  if fld x 0 4 = 0xE#4 ∧ fld x 21 2 = 0x1#2 then some (.vclt (fld x 23 3) (fld x 16 5) (fld x 11 5) (fld x 6 5) (fld x 4 2)) else
  if fld x 0 4 = 0xF#4 ∧ fld x 21 2 = 0x1#2 then some (.vcltu (fld x 23 3) (fld x 16 5) (fld x 11 5) (fld x 6 5) (fld x 4 2)) else
  none

/-- The words of S major code 0x27. -/
def decS27 (x : BitVec 32) : Option Instr :=
  if fld x 0 4 = 0x0#4 ∧ fld x 21 2 = 0x1#2 then some (.vfadd (fld x 23 3) (fld x 16 5) (fld x 11 5) (fld x 6 5) (fld x 4 2)) else
  if fld x 0 4 = 0x1#4 ∧ fld x 21 2 = 0x1#2 then some (.vfsub (fld x 23 3) (fld x 16 5) (fld x 11 5) (fld x 6 5) (fld x 4 2)) else
  if fld x 0 4 = 0x2#4 ∧ fld x 21 2 = 0x1#2 then some (.vfmul (fld x 23 3) (fld x 16 5) (fld x 11 5) (fld x 6 5) (fld x 4 2)) else
  if fld x 0 4 = 0x3#4 ∧ fld x 21 2 = 0x1#2 then some (.vfma (fld x 23 3) (fld x 16 5) (fld x 11 5) (fld x 6 5) (fld x 4 2)) else
  if fld x 0 4 = 0x4#4 ∧ fld x 21 2 = 0x1#2 then some (.vfmin (fld x 23 3) (fld x 16 5) (fld x 11 5) (fld x 6 5) (fld x 4 2)) else
  if fld x 0 4 = 0x5#4 ∧ fld x 21 2 = 0x1#2 then some (.vfmax (fld x 23 3) (fld x 16 5) (fld x 11 5) (fld x 6 5) (fld x 4 2)) else
  if fld x 0 4 = 0x6#4 ∧ fld x 6 5 = 0x1F#5 ∧ fld x 21 2 = 0x1#2 then some (.vfabs (fld x 23 3) (fld x 16 5) (fld x 11 5) (fld x 4 2)) else
  if fld x 0 4 = 0x7#4 ∧ fld x 6 5 = 0x1F#5 ∧ fld x 21 2 = 0x1#2 then some (.vfneg (fld x 23 3) (fld x 16 5) (fld x 11 5) (fld x 4 2)) else
  if fld x 0 4 = 0x8#4 ∧ fld x 21 2 = 0x1#2 then some (.vfceq (fld x 23 3) (fld x 16 5) (fld x 11 5) (fld x 6 5) (fld x 4 2)) else
  if fld x 0 4 = 0x9#4 ∧ fld x 21 2 = 0x1#2 then some (.vfclt (fld x 23 3) (fld x 16 5) (fld x 11 5) (fld x 6 5) (fld x 4 2)) else
  if fld x 0 4 = 0xA#4 ∧ fld x 21 2 = 0x1#2 then some (.vfcle (fld x 23 3) (fld x 16 5) (fld x 11 5) (fld x 6 5) (fld x 4 2)) else
  if fld x 0 4 = 0xB#4 ∧ fld x 6 5 = 0x1F#5 ∧ fld x 21 2 = 0x1#2 then some (.vfrnd (fld x 23 3) (fld x 16 5) (fld x 11 5) (fld x 4 2)) else
  if fld x 0 4 = 0xC#4 ∧ fld x 21 2 = 0x1#2 then some (.vfscl (fld x 23 3) (fld x 16 5) (fld x 11 5) (fld x 6 5) (fld x 4 2)) else
  if fld x 0 4 = 0xD#4 ∧ fld x 6 5 = 0x1F#5 ∧ fld x 21 2 = 0x1#2 then some (.vfcls (fld x 23 3) (fld x 16 5) (fld x 11 5) (fld x 4 2)) else
  none

/-- The words of S major code 0x28. -/
def decS28 (x : BitVec 32) : Option Instr :=
  if fld x 0 4 = 0x0#4 ∧ fld x 21 2 = 0x1#2 then some (.vsplat (fld x 23 3) (fld x 16 5) (fld x 11 5) (fld x 6 5) (fld x 4 2)) else
  if fld x 0 4 = 0x1#4 ∧ fld x 21 2 = 0x1#2 then some (.vext (fld x 23 3) (fld x 16 5) (fld x 11 5) (fld x 6 5) (fld x 4 2)) else
  if fld x 0 4 = 0x2#4 ∧ fld x 21 2 = 0x1#2 then some (.vins (fld x 23 3) (fld x 16 5) (fld x 11 5) (fld x 6 5) (fld x 4 2)) else
  if fld x 0 4 = 0x3#4 ∧ fld x 21 2 = 0x1#2 then some (.vshuf (fld x 23 3) (fld x 16 5) (fld x 11 5) (fld x 6 5) (fld x 4 2)) else
  if fld x 0 4 = 0x4#4 ∧ fld x 6 5 = 0x1F#5 ∧ fld x 21 2 = 0x1#2 then some (.vrev (fld x 23 3) (fld x 16 5) (fld x 11 5) (fld x 4 2)) else
  if fld x 0 4 = 0x5#4 ∧ fld x 21 2 = 0x1#2 then some (.vzip (fld x 23 3) (fld x 16 5) (fld x 11 5) (fld x 6 5) (fld x 4 2)) else
  if fld x 0 4 = 0x6#4 ∧ fld x 21 2 = 0x1#2 then some (.vunz (fld x 23 3) (fld x 16 5) (fld x 11 5) (fld x 6 5) (fld x 4 2)) else
  if fld x 0 4 = 0x7#4 ∧ fld x 6 5 = 0x1F#5 ∧ fld x 21 2 = 0x1#2 then some (.vsumh (fld x 23 3) (fld x 16 5) (fld x 11 5) (fld x 4 2)) else
  if fld x 0 4 = 0x8#4 ∧ fld x 6 5 = 0x1F#5 ∧ fld x 21 2 = 0x1#2 then some (.vmaxh (fld x 23 3) (fld x 16 5) (fld x 11 5) (fld x 4 2)) else
  if fld x 0 4 = 0x9#4 ∧ fld x 6 5 = 0x1F#5 ∧ fld x 21 2 = 0x1#2 then some (.vamaxh (fld x 23 3) (fld x 16 5) (fld x 11 5) (fld x 4 2)) else
  if fld x 0 4 = 0xA#4 ∧ fld x 21 2 = 0x1#2 then some (.vsel (fld x 23 3) (fld x 16 5) (fld x 11 5) (fld x 6 5) (fld x 4 2)) else
  if fld x 0 4 = 0xB#4 ∧ fld x 6 5 = 0x1F#5 ∧ fld x 21 2 = 0x1#2 then some (.vabs (fld x 23 3) (fld x 16 5) (fld x 11 5) (fld x 4 2)) else
  if fld x 0 4 = 0xC#4 ∧ fld x 4 2 = 0x0#2 ∧ fld x 21 2 = 0x1#2 then some (.vdot4 (fld x 23 3) (fld x 16 5) (fld x 11 5) (fld x 6 5)) else
  if fld x 0 4 = 0xD#4 ∧ fld x 6 5 = 0x1F#5 ∧ fld x 21 2 = 0x1#2 then some (.vmov (fld x 23 3) (fld x 16 5) (fld x 11 5) (fld x 4 2)) else
  none

/-- The words of S major code 0x29. -/
def decS29 (x : BitVec 32) : Option Instr :=
  if fld x 21 2 = 0x1#2 then some (.vcvt (fld x 23 3) (fld x 16 5) (fld x 11 5) (fld x 6 5) (fld x 1 5) (fld x 0 1)) else
  none

/-- The words of S major code 0x2A. -/
def decS2A (x : BitVec 32) : Option Instr :=
  if fld x 21 2 = 0x1#2 then some (.vcvts (fld x 23 3) (fld x 16 5) (fld x 11 5) (fld x 6 5) (fld x 1 5) (fld x 0 1)) else
  none

/-- The words of S major code 0x2B. -/
def decS2B (x : BitVec 32) : Option Instr :=
  if fld x 0 5 = 0x0#5 ∧ fld x 6 5 = 0x1F#5 ∧ fld x 21 2 = 0x1#2 then some (.frcp (fld x 23 3) (fld x 16 5) (fld x 11 5) (fld x 5 1)) else
  if fld x 0 5 = 0x1#5 ∧ fld x 6 5 = 0x1F#5 ∧ fld x 21 2 = 0x1#2 then some (.frsq (fld x 23 3) (fld x 16 5) (fld x 11 5) (fld x 5 1)) else
  if fld x 0 5 = 0x2#5 ∧ fld x 6 5 = 0x1F#5 ∧ fld x 21 2 = 0x1#2 then some (.fsqrt (fld x 23 3) (fld x 16 5) (fld x 11 5) (fld x 5 1)) else
  if fld x 0 5 = 0x3#5 ∧ fld x 6 5 = 0x1F#5 ∧ fld x 21 2 = 0x1#2 then some (.fexp2 (fld x 23 3) (fld x 16 5) (fld x 11 5) (fld x 5 1)) else
  if fld x 0 5 = 0x4#5 ∧ fld x 6 5 = 0x1F#5 ∧ fld x 21 2 = 0x1#2 then some (.flog2 (fld x 23 3) (fld x 16 5) (fld x 11 5) (fld x 5 1)) else
  if fld x 0 5 = 0x5#5 ∧ fld x 6 5 = 0x1F#5 ∧ fld x 21 2 = 0x1#2 then some (.fsinp (fld x 23 3) (fld x 16 5) (fld x 11 5) (fld x 5 1)) else
  if fld x 0 5 = 0x6#5 ∧ fld x 6 5 = 0x1F#5 ∧ fld x 21 2 = 0x1#2 then some (.fcosp (fld x 23 3) (fld x 16 5) (fld x 11 5) (fld x 5 1)) else
  if fld x 0 5 = 0x7#5 ∧ fld x 6 5 = 0x1F#5 ∧ fld x 21 2 = 0x1#2 then some (.ftanh (fld x 23 3) (fld x 16 5) (fld x 11 5) (fld x 5 1)) else
  if fld x 0 5 = 0x8#5 ∧ fld x 6 5 = 0x1F#5 ∧ fld x 21 2 = 0x1#2 then some (.ferf (fld x 23 3) (fld x 16 5) (fld x 11 5) (fld x 5 1)) else
  none

/-- The words of S major code 0x2C. -/
def decS2C (x : BitVec 32) : Option Instr :=
  if fld x 0 4 = 0x0#4 ∧ fld x 5 1 = 0x0#1 ∧ fld x 21 2 = 0x0#2 then some (.fadd (fld x 23 3) (fld x 16 5) (fld x 11 5) (fld x 6 5) (fld x 4 1)) else
  if fld x 0 4 = 0x1#4 ∧ fld x 5 1 = 0x0#1 ∧ fld x 21 2 = 0x0#2 then some (.fsub (fld x 23 3) (fld x 16 5) (fld x 11 5) (fld x 6 5) (fld x 4 1)) else
  if fld x 0 4 = 0x2#4 ∧ fld x 5 1 = 0x0#1 ∧ fld x 21 2 = 0x0#2 then some (.fmul (fld x 23 3) (fld x 16 5) (fld x 11 5) (fld x 6 5) (fld x 4 1)) else
  if fld x 0 4 = 0x3#4 ∧ fld x 5 1 = 0x0#1 ∧ fld x 21 2 = 0x0#2 then some (.fmin (fld x 23 3) (fld x 16 5) (fld x 11 5) (fld x 6 5) (fld x 4 1)) else
  if fld x 0 4 = 0x4#4 ∧ fld x 5 1 = 0x0#1 ∧ fld x 21 2 = 0x0#2 then some (.fmax (fld x 23 3) (fld x 16 5) (fld x 11 5) (fld x 6 5) (fld x 4 1)) else
  if fld x 0 4 = 0x5#4 ∧ fld x 5 1 = 0x0#1 ∧ fld x 6 5 = 0x1F#5 ∧ fld x 21 2 = 0x0#2 then some (.fabs (fld x 23 3) (fld x 16 5) (fld x 11 5) (fld x 4 1)) else
  if fld x 0 4 = 0x6#4 ∧ fld x 5 1 = 0x0#1 ∧ fld x 21 2 = 0x0#2 then some (.fceq (fld x 23 3) (fld x 16 5) (fld x 11 5) (fld x 6 5) (fld x 4 1)) else
  if fld x 0 4 = 0x7#4 ∧ fld x 5 1 = 0x0#1 ∧ fld x 21 2 = 0x0#2 then some (.fclt (fld x 23 3) (fld x 16 5) (fld x 11 5) (fld x 6 5) (fld x 4 1)) else
  if fld x 0 4 = 0x8#4 ∧ fld x 5 1 = 0x0#1 ∧ fld x 21 2 = 0x0#2 then some (.fcle (fld x 23 3) (fld x 16 5) (fld x 11 5) (fld x 6 5) (fld x 4 1)) else
  if fld x 0 4 = 0x9#4 ∧ fld x 5 1 = 0x0#1 ∧ fld x 6 5 = 0x1F#5 ∧ fld x 21 2 = 0x0#2 then some (.fcvti (fld x 23 3) (fld x 16 5) (fld x 11 5) (fld x 4 1)) else
  if fld x 0 4 = 0xA#4 ∧ fld x 5 1 = 0x0#1 ∧ fld x 6 5 = 0x1F#5 ∧ fld x 21 2 = 0x0#2 then some (.fcvtf (fld x 23 3) (fld x 16 5) (fld x 11 5) (fld x 4 1)) else
  if fld x 0 4 = 0xB#4 ∧ fld x 5 1 = 0x0#1 ∧ fld x 6 5 = 0x1F#5 ∧ fld x 21 2 = 0x0#2 then some (.fcvtw (fld x 23 3) (fld x 16 5) (fld x 11 5) (fld x 4 1)) else
  none

/-- The words of S major code 0x2D. -/
def decS2D (x : BitVec 32) : Option Instr :=
  if fld x 0 6 = 0x0#6 ∧ fld x 21 2 = 0x0#2 then some (.zdraw (fld x 23 3) (fld x 16 5) (fld x 11 5) (fld x 6 5)) else
  if fld x 0 6 = 0x1#6 ∧ fld x 21 2 = 0x0#2 then some (.zltq (fld x 23 3) (fld x 16 5) (fld x 11 5) (fld x 6 5)) else
  if fld x 0 6 = 0x2#6 ∧ fld x 21 2 = 0x0#2 then some (.zltf (fld x 23 3) (fld x 16 5) (fld x 11 5) (fld x 6 5)) else
  if fld x 0 6 = 0x3#6 ∧ fld x 21 2 = 0x0#2 then some (.zltz (fld x 23 3) (fld x 16 5) (fld x 11 5) (fld x 6 5)) else
  if fld x 0 6 = 0x4#6 ∧ fld x 21 2 = 0x0#2 then some (.zfloor (fld x 23 3) (fld x 16 5) (fld x 11 5) (fld x 6 5)) else
  if fld x 0 6 = 0x5#6 ∧ fld x 16 5 = 0x1F#5 ∧ fld x 21 2 = 0x0#2 then some (.zext (fld x 23 3) (fld x 11 5) (fld x 6 5)) else
  if fld x 0 6 = 0x6#6 ∧ fld x 6 5 = 0x1F#5 ∧ fld x 21 2 = 0x0#2 then some (.zlen (fld x 23 3) (fld x 16 5) (fld x 11 5)) else
  if fld x 0 6 = 0x7#6 ∧ fld x 21 2 = 0x0#2 then some (.zbits (fld x 23 3) (fld x 16 5) (fld x 11 5) (fld x 6 5)) else
  if fld x 0 6 = 0x8#6 ∧ fld x 6 5 = 0x1F#5 ∧ fld x 21 2 = 0x0#2 then some (.zmov (fld x 23 3) (fld x 16 5) (fld x 11 5)) else
  if fld x 0 6 = 0x9#6 ∧ fld x 6 5 = 0x1F#5 ∧ fld x 21 2 = 0x0#2 then some (.zld (fld x 23 3) (fld x 16 5) (fld x 11 5)) else
  if fld x 0 6 = 0xA#6 ∧ fld x 16 5 = 0x1F#5 ∧ fld x 21 2 = 0x0#2 then some (.zst (fld x 23 3) (fld x 11 5) (fld x 6 5)) else
  none

/-- The words of S major code 0x2E. -/
def decS2E (x : BitVec 32) : Option Instr :=
  if fld x 0 6 = 0x0#6 ∧ fld x 16 5 = 0x1F#5 ∧ fld x 21 2 = 0x0#2 then some (.sbind (fld x 23 3) (fld x 11 5) (fld x 6 5)) else
  if fld x 0 6 = 0x1#6 ∧ fld x 6 5 = 0x1F#5 ∧ fld x 16 5 = 0x1F#5 ∧ fld x 21 2 = 0x0#2 then some (.sfree (fld x 23 3) (fld x 11 5)) else
  if fld x 0 6 = 0x2#6 ∧ fld x 21 2 = 0x0#2 then some (.rndw (fld x 23 3) (fld x 16 5) (fld x 11 5) (fld x 6 5)) else
  if fld x 0 6 = 0x3#6 ∧ fld x 21 2 = 0x0#2 then some (.rndv (fld x 23 3) (fld x 16 5) (fld x 11 5) (fld x 6 5)) else
  if fld x 0 6 = 0x4#6 ∧ fld x 6 5 = 0x1F#5 ∧ fld x 21 2 = 0x0#2 then some (.sgen (fld x 23 3) (fld x 16 5) (fld x 11 5)) else
  none

/-- The words of S major code 0x2F. -/
def decS2F (x : BitVec 32) : Option Instr :=
  if fld x 0 6 = 0x0#6 ∧ fld x 21 2 = 0x0#2 then some (.glaunch (fld x 23 3) (fld x 16 5) (fld x 11 5) (fld x 6 5)) else
  if fld x 0 6 = 0x1#6 ∧ fld x 6 5 = 0x1F#5 ∧ fld x 21 2 = 0x0#2 then some (.gquery (fld x 23 3) (fld x 16 5) (fld x 11 5)) else
  none

/-- The words of S major code 0x30. -/
def decS30 (x : BitVec 32) : Option Instr :=
  if fld x 0 1 = 0x0#1 ∧ fld x 23 3 = 0x0#3 then some (.cpy (fld x 18 5) (fld x 13 5) (fld x 5 8) (fld x 2 3) (fld x 1 1)) else
  if fld x 0 1 = 0x0#1 ∧ fld x 1 1 = 0x0#1 ∧ fld x 2 3 = 0x0#3 ∧ fld x 5 8 = 0x0#8 ∧ fld x 23 3 = 0x1#3 then some (.csetg (fld x 18 5) (fld x 13 5)) else
  if fld x 0 1 = 0x0#1 ∧ fld x 1 1 = 0x0#1 ∧ fld x 2 3 = 0x0#3 ∧ fld x 5 8 = 0x0#8 ∧ fld x 13 5 = 0x1F#5 ∧ fld x 23 3 = 0x2#3 then some (.cgetg (fld x 18 5)) else
  none

/-- The words of S major code 0x31. -/
def decS31 (x : BitVec 32) : Option Instr :=
  if fld x 0 1 = 0x0#1 ∧ fld x 23 3 = 0x0#3 then some (.mma (fld x 18 5) (fld x 13 5) (fld x 5 8) (fld x 2 3) (fld x 1 1)) else
  if fld x 0 1 = 0x0#1 ∧ fld x 1 1 = 0x0#1 ∧ fld x 2 3 = 0x0#3 ∧ fld x 5 8 = 0x0#8 ∧ fld x 23 3 = 0x1#3 then some (.msetg (fld x 18 5) (fld x 13 5)) else
  if fld x 0 1 = 0x0#1 ∧ fld x 1 1 = 0x0#1 ∧ fld x 2 3 = 0x0#3 ∧ fld x 5 8 = 0x0#8 ∧ fld x 13 5 = 0x1F#5 ∧ fld x 23 3 = 0x2#3 then some (.mgetg (fld x 18 5)) else
  if fld x 0 1 = 0x0#1 ∧ fld x 23 3 = 0x3#3 then some (.mldc (fld x 18 5) (fld x 13 5) (fld x 5 8) (fld x 2 3) (fld x 1 1)) else
  if fld x 0 1 = 0x0#1 ∧ fld x 23 3 = 0x4#3 then some (.mstc (fld x 18 5) (fld x 13 5) (fld x 5 8) (fld x 2 3) (fld x 1 1)) else
  if fld x 0 1 = 0x0#1 ∧ fld x 13 5 = 0x1F#5 ∧ fld x 23 3 = 0x5#3 then some (.mzero (fld x 18 5) (fld x 5 8) (fld x 2 3) (fld x 1 1)) else
  if fld x 0 1 = 0x0#1 ∧ fld x 1 1 = 0x0#1 ∧ fld x 2 3 = 0x0#3 ∧ fld x 5 8 = 0x0#8 ∧ fld x 13 5 = 0x1F#5 ∧ fld x 18 5 = 0x1F#5 ∧ fld x 23 3 = 0x6#3 then some (.mcommit) else
  if fld x 0 1 = 0x0#1 ∧ fld x 1 1 = 0x0#1 ∧ fld x 2 3 = 0x0#3 ∧ fld x 5 8 = 0x0#8 ∧ fld x 13 5 = 0x1F#5 ∧ fld x 23 3 = 0x7#3 then some (.mwait (fld x 18 5)) else
  none

/-- The words of S major code 0x32. -/
def decS32 (x : BitVec 32) : Option Instr :=
  if fld x 0 1 = 0x0#1 ∧ fld x 23 3 = 0x0#3 then some (.coll (fld x 18 5) (fld x 13 5) (fld x 5 8) (fld x 2 3) (fld x 1 1)) else
  if fld x 0 1 = 0x0#1 ∧ fld x 1 1 = 0x0#1 ∧ fld x 2 3 = 0x0#3 ∧ fld x 5 8 = 0x0#8 ∧ fld x 13 5 = 0x1F#5 ∧ fld x 23 3 = 0x1#3 then some (.cquery (fld x 18 5)) else
  if fld x 0 1 = 0x0#1 ∧ fld x 1 1 = 0x0#1 ∧ fld x 2 3 = 0x0#3 ∧ fld x 5 8 = 0x0#8 ∧ fld x 13 5 = 0x1F#5 ∧ fld x 23 3 = 0x2#3 then some (.cabort (fld x 18 5)) else
  none

/-- The words of S major code 0x33. -/
def decS33 (x : BitVec 32) : Option Instr :=
  if fld x 0 1 = 0x0#1 ∧ fld x 23 3 = 0x0#3 then some (.rkovl (fld x 18 5) (fld x 13 5) (fld x 5 8) (fld x 2 3) (fld x 1 1)) else
  if fld x 0 1 = 0x0#1 ∧ fld x 23 3 = 0x1#3 then some (.rkrun (fld x 18 5) (fld x 13 5) (fld x 5 8) (fld x 2 3) (fld x 1 1)) else
  if fld x 0 1 = 0x0#1 ∧ fld x 1 1 = 0x0#1 ∧ fld x 2 3 = 0x0#3 ∧ fld x 23 3 = 0x2#3 then some (.rksig (fld x 18 5) (fld x 13 5) (fld x 5 8)) else
  if fld x 0 1 = 0x0#1 ∧ fld x 1 1 = 0x0#1 ∧ fld x 2 3 = 0x0#3 ∧ fld x 5 8 = 0x0#8 ∧ fld x 13 5 = 0x1F#5 ∧ fld x 23 3 = 0x3#3 then some (.rkstat (fld x 18 5)) else
  if fld x 0 1 = 0x0#1 ∧ fld x 1 1 = 0x0#1 ∧ fld x 2 3 = 0x0#3 ∧ fld x 13 5 = 0x1F#5 ∧ fld x 23 3 = 0x4#3 then some (.rkstop (fld x 18 5) (fld x 5 8)) else
  none

/-- The words of S major code 0x34. -/
def decS34 (x : BitVec 32) : Option Instr :=
  if fld x 0 5 = 0x0#5 ∧ fld x 13 13 = 0x3FF#13 then some (.dwait (fld x 5 8)) else
  if fld x 0 5 = 0x0#5 ∧ fld x 5 8 = 0x0#8 ∧ fld x 13 13 = 0x7FF#13 then some (.dstat) else
  none

/-- The row of the opcode table a S word belongs to, by its major code. -/
def rawS (x : BitVec 32) : Option Instr :=
  match (fld x 26 6).toNat with
  | 0x01 => decS01 x
  | 0x02 => decS02 x
  | 0x03 => decS03 x
  | 0x04 => decS04 x
  | 0x05 => decS05 x
  | 0x06 => decS06 x
  | 0x07 => decS07 x
  | 0x08 => decS08 x
  | 0x09 => decS09 x
  | 0x0A => decS0A x
  | 0x0B => decS0B x
  | 0x0C => decS0C x
  | 0x0D => decS0D x
  | 0x0E => decS0E x
  | 0x0F => decS0F x
  | 0x10 => decS10 x
  | 0x11 => decS11 x
  | 0x12 => decS12 x
  | 0x13 => decS13 x
  | 0x14 => decS14 x
  | 0x15 => decS15 x
  | 0x16 => decS16 x
  | 0x17 => decS17 x
  | 0x18 => decS18 x
  | 0x19 => decS19 x
  | 0x1A => decS1A x
  | 0x1B => decS1B x
  | 0x1C => decS1C x
  | 0x1D => decS1D x
  | 0x1E => decS1E x
  | 0x1F => decS1F x
  | 0x20 => decS20 x
  | 0x21 => decS21 x
  | 0x22 => decS22 x
  | 0x23 => decS23 x
  | 0x24 => decS24 x
  | 0x25 => decS25 x
  | 0x26 => decS26 x
  | 0x27 => decS27 x
  | 0x28 => decS28 x
  | 0x29 => decS29 x
  | 0x2A => decS2A x
  | 0x2B => decS2B x
  | 0x2C => decS2C x
  | 0x2D => decS2D x
  | 0x2E => decS2E x
  | 0x2F => decS2F x
  | 0x30 => decS30 x
  | 0x31 => decS31 x
  | 0x32 => decS32 x
  | 0x33 => decS33 x
  | 0x34 => decS34 x
  | _ => none

/-- The words of M major code 0x01. -/
noncomputable def decM01 (x : BitVec 32) : Option Instr :=
  if fld x 14 4 = 0x0#4 then some (.sli (fld x 22 4) (fld x 18 4) (fld x 0 14)) else
  none

/-- The words of M major code 0x02. -/
noncomputable def decM02 (x : BitVec 32) : Option Instr :=
  if fld x 14 4 = 0x0#4 then some (.slih (fld x 22 4) (fld x 18 4) (fld x 0 14)) else
  none

/-- The words of M major code 0x03. -/
noncomputable def decM03 (x : BitVec 32) : Option Instr :=
  if fld x 0 14 = 0x0#14 then some (.sadd (fld x 22 4) (fld x 18 4) (fld x 14 4)) else
  none

/-- The words of M major code 0x04. -/
noncomputable def decM04 (x : BitVec 32) : Option Instr :=
  if fld x 14 4 = 0x0#4 then some (.saddi (fld x 22 4) (fld x 18 4) (fld x 0 14)) else
  none

/-- The words of M major code 0x05. -/
noncomputable def decM05 (x : BitVec 32) : Option Instr :=
  if fld x 0 14 = 0x0#14 then some (.ssub (fld x 22 4) (fld x 18 4) (fld x 14 4)) else
  none

/-- The words of M major code 0x06. -/
noncomputable def decM06 (x : BitVec 32) : Option Instr :=
  if fld x 0 14 = 0x0#14 then some (.sand (fld x 22 4) (fld x 18 4) (fld x 14 4)) else
  none

/-- The words of M major code 0x07. -/
noncomputable def decM07 (x : BitVec 32) : Option Instr :=
  if fld x 0 14 = 0x0#14 then some (.sor (fld x 22 4) (fld x 18 4) (fld x 14 4)) else
  none

/-- The words of M major code 0x08. -/
noncomputable def decM08 (x : BitVec 32) : Option Instr :=
  if fld x 0 14 = 0x0#14 then some (.sxor (fld x 22 4) (fld x 18 4) (fld x 14 4)) else
  none

/-- The words of M major code 0x09. -/
noncomputable def decM09 (x : BitVec 32) : Option Instr :=
  if fld x 0 14 = 0x0#14 then some (.sshl (fld x 22 4) (fld x 18 4) (fld x 14 4)) else
  none

/-- The words of M major code 0x0A. -/
noncomputable def decM0A (x : BitVec 32) : Option Instr :=
  if fld x 0 14 = 0x0#14 then some (.sshr (fld x 22 4) (fld x 18 4) (fld x 14 4)) else
  none

/-- The words of M major code 0x0B. -/
noncomputable def decM0B (x : BitVec 32) : Option Instr :=
  if fld x 0 14 = 0x0#14 then some (.smul (fld x 22 4) (fld x 18 4) (fld x 14 4)) else
  none

/-- The words of M major code 0x0C. -/
noncomputable def decM0C (x : BitVec 32) : Option Instr :=
  if fld x 0 14 = 0x0#14 then some (.sclt (fld x 22 4) (fld x 18 4) (fld x 14 4)) else
  none

/-- The words of M major code 0x0D. -/
noncomputable def decM0D (x : BitVec 32) : Option Instr :=
  if fld x 14 8 = 0x0#8 then some (.sbz (fld x 22 4) (fld x 0 14)) else
  if fld x 14 8 = 0x10#8 then some (.sbnz (fld x 22 4) (fld x 0 14)) else
  none

/-- The words of M major code 0x0E. -/
noncomputable def decM0E (x : BitVec 32) : Option Instr :=
  if fld x 14 12 = 0x0#12 then some (.sj (fld x 0 14)) else
  none

/-- The words of M major code 0x0F. -/
noncomputable def decM0F (x : BitVec 32) : Option Instr :=
  if fld x 14 8 = 0x0#8 then some (.sloop (fld x 22 4) (fld x 0 14)) else
  none

/-- The words of M major code 0x10. -/
noncomputable def decM10 (x : BitVec 32) : Option Instr :=
  if fld x 5 13 = 0x0#13 then some (.cset (fld x 22 4) (fld x 18 4) (fld x 0 5)) else
  none

/-- The words of M major code 0x11. -/
noncomputable def decM11 (x : BitVec 32) : Option Instr :=
  if fld x 14 8 = 0x0#8 then some (.cstride (fld x 22 4) (fld x 0 14)) else
  none

/-- The words of M major code 0x12. -/
noncomputable def decM12 (x : BitVec 32) : Option Instr :=
  if fld x 0 22 = 0x0#22 then some (.cnext (fld x 22 4)) else
  none

/-- The words of M major code 0x13. -/
noncomputable def decM13 (x : BitVec 32) : Option Instr :=
  if fld x 0 18 = 0x0#18 then some (.vld (fld x 22 4) (fld x 18 4)) else
  none

/-- The words of M major code 0x14. -/
noncomputable def decM14 (x : BitVec 32) : Option Instr :=
  if fld x 0 18 = 0x0#18 then some (.vst (fld x 22 4) (fld x 18 4)) else
  none

/-- The words of M major code 0x15. -/
noncomputable def decM15 (x : BitVec 32) : Option Instr :=
  if fld x 4 10 = 0x0#10 then some (.mwVadd (fld x 22 4) (fld x 18 4) (fld x 14 4) (fld x 1 3) (fld x 0 1)) else
  none

/-- The words of M major code 0x16. -/
noncomputable def decM16 (x : BitVec 32) : Option Instr :=
  if fld x 4 10 = 0x0#10 then some (.mwVsub (fld x 22 4) (fld x 18 4) (fld x 14 4) (fld x 1 3) (fld x 0 1)) else
  none

/-- The words of M major code 0x17. -/
noncomputable def decM17 (x : BitVec 32) : Option Instr :=
  if fld x 4 10 = 0x0#10 then some (.mwVmul (fld x 22 4) (fld x 18 4) (fld x 14 4) (fld x 1 3) (fld x 0 1)) else
  none

/-- The words of M major code 0x18. -/
noncomputable def decM18 (x : BitVec 32) : Option Instr :=
  if fld x 0 1 = 0x0#1 ∧ fld x 4 10 = 0x0#10 then some (.mwVfma (fld x 22 4) (fld x 18 4) (fld x 14 4) (fld x 1 3)) else
  none

/-- The words of M major code 0x19. -/
noncomputable def decM19 (x : BitVec 32) : Option Instr :=
  if fld x 0 1 = 0x0#1 ∧ fld x 4 10 = 0x0#10 then some (.vscl (fld x 22 4) (fld x 18 4) (fld x 14 4) (fld x 1 3)) else
  none

/-- The words of M major code 0x1A. -/
noncomputable def decM1A (x : BitVec 32) : Option Instr :=
  if fld x 4 10 = 0x0#10 then some (.mwVmax (fld x 22 4) (fld x 18 4) (fld x 14 4) (fld x 1 3) (fld x 0 1)) else
  none

/-- The words of M major code 0x1B. -/
noncomputable def decM1B (x : BitVec 32) : Option Instr :=
  if fld x 4 10 = 0x0#10 then some (.mwVmin (fld x 22 4) (fld x 18 4) (fld x 14 4) (fld x 1 3) (fld x 0 1)) else
  none

/-- The words of M major code 0x1C. -/
noncomputable def decM1C (x : BitVec 32) : Option Instr :=
  if fld x 0 2 = 0x0#2 ∧ fld x 14 4 = 0x0#4 then some (.mwVcvt (fld x 22 4) (fld x 18 4) (fld x 11 3) (fld x 8 3) (fld x 6 2) (fld x 5 1) (fld x 2 3)) else
  none

/-- The words of M major code 0x1D. -/
noncomputable def decM1D (x : BitVec 32) : Option Instr :=
  if fld x 0 18 = 0x0#18 then some (.vspl (fld x 22 4) (fld x 18 4)) else
  none

/-- The words of M major code 0x1E. -/
noncomputable def decM1E (x : BitVec 32) : Option Instr :=
  if fld x 0 22 = 0x0#22 then some (.kclr (fld x 22 4)) else
  none

/-- The words of M major code 0x1F. -/
noncomputable def decM1F (x : BitVec 32) : Option Instr :=
  if fld x 1 17 = 0x0#17 then some (.kadd (fld x 22 4) (fld x 18 4) (fld x 0 1)) else
  none

/-- The words of M major code 0x20. -/
noncomputable def decM20 (x : BitVec 32) : Option Instr :=
  if fld x 5 13 = 0x0#13 then some (.krnd (fld x 22 4) (fld x 18 4) (fld x 4 1) (fld x 1 3) (fld x 0 1)) else
  none

/-- The words of M major code 0x21. -/
noncomputable def decM21 (x : BitVec 32) : Option Instr :=
  if fld x 0 18 = 0x0#18 then some (.kanc (fld x 22 4) (fld x 18 4)) else
  none

/-- The words of M major code 0x22. -/
noncomputable def decM22 (x : BitVec 32) : Option Instr :=
  if fld x 9 9 = 0x0#9 then some (.cbegin (fld x 22 4) (fld x 18 4) (fld x 8 1) (fld x 0 8)) else
  none

/-- The words of M major code 0x23. -/
noncomputable def decM23 (x : BitVec 32) : Option Instr :=
  if fld x 0 22 = 0x0#22 then some (.cend (fld x 22 4)) else
  none

/-- The words of M major code 0x24. -/
noncomputable def decM24 (x : BitVec 32) : Option Instr :=
  if fld x 11 3 = 0x0#3 then some (.cshift (fld x 22 4) (fld x 20 2) (fld x 18 2) (fld x 14 4) (fld x 8 3) (fld x 0 8)) else
  none

/-- The words of M major code 0x25. -/
noncomputable def decM25 (x : BitVec 32) : Option Instr :=
  if fld x 11 3 = 0x0#3 then some (.cxpose (fld x 22 4) (fld x 20 2) (fld x 18 2) (fld x 14 4) (fld x 8 3) (fld x 0 8)) else
  none

/-- The words of M major code 0x26. -/
noncomputable def decM26 (x : BitVec 32) : Option Instr :=
  if fld x 11 3 = 0x0#3 then some (.ca2a (fld x 22 4) (fld x 20 2) (fld x 18 2) (fld x 14 4) (fld x 8 3) (fld x 0 8)) else
  none

/-- The words of M major code 0x27. -/
noncomputable def decM27 (x : BitVec 32) : Option Instr :=
  some (.cred (fld x 22 4) (fld x 20 2) (fld x 18 2) (fld x 14 4) (fld x 11 3) (fld x 8 3) (fld x 0 8))

/-- The words of M major code 0x28. -/
noncomputable def decM28 (x : BitVec 32) : Option Instr :=
  some (.crsc (fld x 22 4) (fld x 20 2) (fld x 18 2) (fld x 14 4) (fld x 11 3) (fld x 8 3) (fld x 0 8))

/-- The words of M major code 0x29. -/
noncomputable def decM29 (x : BitVec 32) : Option Instr :=
  if fld x 11 3 = 0x0#3 then some (.cgath (fld x 22 4) (fld x 20 2) (fld x 18 2) (fld x 14 4) (fld x 8 3) (fld x 0 8)) else
  none

/-- The words of M major code 0x2A. -/
noncomputable def decM2A (x : BitVec 32) : Option Instr :=
  if fld x 11 3 = 0x0#3 then some (.cbcast (fld x 22 4) (fld x 20 2) (fld x 18 2) (fld x 14 4) (fld x 8 3) (fld x 0 8)) else
  none

/-- The words of M major code 0x2B. -/
noncomputable def decM2B (x : BitVec 32) : Option Instr :=
  if fld x 8 14 = 0x0#14 then some (.cbar (fld x 22 4) (fld x 0 8)) else
  none

/-- The words of M major code 0x2C. -/
noncomputable def decM2C (x : BitVec 32) : Option Instr :=
  if fld x 0 18 = 0x0#18 ∧ fld x 22 4 = 0x0#4 then some (.msgo (fld x 18 4)) else
  none

/-- The words of M major code 0x2D. -/
noncomputable def decM2D (x : BitVec 32) : Option Instr :=
  if fld x 0 22 = 0x0#22 then some (.msgi (fld x 22 4)) else
  none

/-- The words of M major code 0x2E. -/
noncomputable def decM2E (x : BitVec 32) : Option Instr :=
  if fld x 10 16 = 0x0#16 then some (.ovsw (fld x 0 10)) else
  none

/-- The words of M major code 0x2F. -/
noncomputable def decM2F (x : BitVec 32) : Option Instr :=
  if fld x 0 26 = 0x0#26 then some (.mwHalt) else
  none

/-- The row of the opcode table a M word belongs to, by its major code. -/
noncomputable def rawM (x : BitVec 32) : Option Instr :=
  match (fld x 26 6).toNat with
  | 0x01 => decM01 x
  | 0x02 => decM02 x
  | 0x03 => decM03 x
  | 0x04 => decM04 x
  | 0x05 => decM05 x
  | 0x06 => decM06 x
  | 0x07 => decM07 x
  | 0x08 => decM08 x
  | 0x09 => decM09 x
  | 0x0A => decM0A x
  | 0x0B => decM0B x
  | 0x0C => decM0C x
  | 0x0D => decM0D x
  | 0x0E => decM0E x
  | 0x0F => decM0F x
  | 0x10 => decM10 x
  | 0x11 => decM11 x
  | 0x12 => decM12 x
  | 0x13 => decM13 x
  | 0x14 => decM14 x
  | 0x15 => decM15 x
  | 0x16 => decM16 x
  | 0x17 => decM17 x
  | 0x18 => decM18 x
  | 0x19 => decM19 x
  | 0x1A => decM1A x
  | 0x1B => decM1B x
  | 0x1C => decM1C x
  | 0x1D => decM1D x
  | 0x1E => decM1E x
  | 0x1F => decM1F x
  | 0x20 => decM20 x
  | 0x21 => decM21 x
  | 0x22 => decM22 x
  | 0x23 => decM23 x
  | 0x24 => decM24 x
  | 0x25 => decM25 x
  | 0x26 => decM26 x
  | 0x27 => decM27 x
  | 0x28 => decM28 x
  | 0x29 => decM29 x
  | 0x2A => decM2A x
  | 0x2B => decM2B x
  | 0x2C => decM2C x
  | 0x2D => decM2D x
  | 0x2E => decM2E x
  | 0x2F => decM2F x
  | _ => none
/-- Why a word is rejected. -/
inductive DecodeError where
  /-- No row of the opcode table has this word: a reserved major code, an unlisted FN or FN3, or a fixed field that
  holds another value (R62, R69, R70, R72, R74, R192). -/
  | noRow
  /-- The row is known, and its operand fields break a rule of the word alone (R74 step 1, R192). -/
  | illFormed
  deriving DecidableEq, Repr

/-- A row together with the check of the word's free fields. -/
def checked (r : Option Instr) : Except DecodeError Instr :=
  match r with
  | none => .error .noRow
  | some i => if i.wf then .ok i else .error .illFormed

/-- The instruction a Soras word stands for (R74 step 1). -/
def decodeSoras (x : BitVec 32) : Except DecodeError Instr := checked (rawS x)

/-- The instruction a Melwen word stands for (R192). -/
noncomputable def decodeMelwen (x : BitVec 32) : Except DecodeError Instr := checked (rawM x)

/-- The word of four bytes as memory holds them, the first at the lowest address (R3, R58, R191). -/
def wordOfBytes (b0 b1 b2 b3 : BitVec 8) : BitVec 32 := b3 ++ b2 ++ b1 ++ b0

/-- The instruction that a table word stands for. The two instruction sets share their numbers and a word says nothing
of which set it belongs to: the place it is fetched from does (R58, R189). A word that is a legal Soras word is read as
one; any other word is read as a Melwen word (log 8). -/
noncomputable def decodeTableWord (nbits w : Nat) : Option Instr :=
  if nbits = 32 then
    match decodeSoras (BitVec.ofNat 32 w) with
    | .ok i => some i
    | .error _ =>
      match decodeMelwen (BitVec.ofNat 32 w) with
      | .ok i => some i
      | .error _ => none
  else none

/-- The word of an instruction, from the same tables; an event has none. -/
def encode (i : Instr) : Option (BitVec 32) :=
  match i with
  | .add s w d a b => some ((0x1#6) ++ s ++ w ++ d ++ a ++ b ++ (0x0#6))
  | .sub s w d a b => some ((0x1#6) ++ s ++ w ++ d ++ a ++ b ++ (0x1#6))
  | .and s w d a b => some ((0x1#6) ++ s ++ w ++ d ++ a ++ b ++ (0x2#6))
  | .or s w d a b => some ((0x1#6) ++ s ++ w ++ d ++ a ++ b ++ (0x3#6))
  | .xor s w d a b => some ((0x1#6) ++ s ++ w ++ d ++ a ++ b ++ (0x4#6))
  | .andn s w d a b => some ((0x1#6) ++ s ++ w ++ d ++ a ++ b ++ (0x5#6))
  | .orn s w d a b => some ((0x1#6) ++ s ++ w ++ d ++ a ++ b ++ (0x6#6))
  | .shl s w d a b => some ((0x1#6) ++ s ++ w ++ d ++ a ++ b ++ (0x7#6))
  | .shr s w d a b => some ((0x1#6) ++ s ++ w ++ d ++ a ++ b ++ (0x8#6))
  | .sar s w d a b => some ((0x1#6) ++ s ++ w ++ d ++ a ++ b ++ (0x9#6))
  | .rol s w d a b => some ((0x1#6) ++ s ++ w ++ d ++ a ++ b ++ (0xA#6))
  | .ror s w d a b => some ((0x1#6) ++ s ++ w ++ d ++ a ++ b ++ (0xB#6))
  | .mul s w d a b => some ((0x1#6) ++ s ++ w ++ d ++ a ++ b ++ (0xC#6))
  | .mulh s w d a b => some ((0x1#6) ++ s ++ w ++ d ++ a ++ b ++ (0xD#6))
  | .mulhu s w d a b => some ((0x1#6) ++ s ++ w ++ d ++ a ++ b ++ (0xE#6))
  | .div s w d a b => some ((0x1#6) ++ s ++ w ++ d ++ a ++ b ++ (0xF#6))
  | .divu s w d a b => some ((0x1#6) ++ s ++ w ++ d ++ a ++ b ++ (0x10#6))
  | .rem s w d a b => some ((0x1#6) ++ s ++ w ++ d ++ a ++ b ++ (0x11#6))
  | .remu s w d a b => some ((0x1#6) ++ s ++ w ++ d ++ a ++ b ++ (0x12#6))
  | .min s w d a b => some ((0x1#6) ++ s ++ w ++ d ++ a ++ b ++ (0x13#6))
  | .max s w d a b => some ((0x1#6) ++ s ++ w ++ d ++ a ++ b ++ (0x14#6))
  | .minu s w d a b => some ((0x1#6) ++ s ++ w ++ d ++ a ++ b ++ (0x15#6))
  | .maxu s w d a b => some ((0x1#6) ++ s ++ w ++ d ++ a ++ b ++ (0x16#6))
  | .ceq s w d a b => some ((0x1#6) ++ s ++ w ++ d ++ a ++ b ++ (0x17#6))
  | .cne s w d a b => some ((0x1#6) ++ s ++ w ++ d ++ a ++ b ++ (0x18#6))
  | .clt s w d a b => some ((0x1#6) ++ s ++ w ++ d ++ a ++ b ++ (0x19#6))
  | .cltu s w d a b => some ((0x1#6) ++ s ++ w ++ d ++ a ++ b ++ (0x1A#6))
  | .cle s w d a b => some ((0x1#6) ++ s ++ w ++ d ++ a ++ b ++ (0x1B#6))
  | .cleu s w d a b => some ((0x1#6) ++ s ++ w ++ d ++ a ++ b ++ (0x1C#6))
  | .sel s w d a b => some ((0x1#6) ++ s ++ w ++ d ++ a ++ b ++ (0x1D#6))
  | .clz s w d a => some ((0x1#6) ++ s ++ w ++ d ++ a ++ (0x1F#5) ++ (0x1E#6))
  | .ctz s w d a => some ((0x1#6) ++ s ++ w ++ d ++ a ++ (0x1F#5) ++ (0x1F#6))
  | .popc s w d a => some ((0x1#6) ++ s ++ w ++ d ++ a ++ (0x1F#5) ++ (0x20#6))
  | .brev s w d a => some ((0x1#6) ++ s ++ w ++ d ++ a ++ (0x1F#5) ++ (0x21#6))
  | .bswap s w d a => some ((0x1#6) ++ s ++ w ++ d ++ a ++ (0x1F#5) ++ (0x22#6))
  | .mov s w d a => some ((0x1#6) ++ s ++ w ++ d ++ a ++ (0x1F#5) ++ (0x23#6))
  | .addi s w d a i => some ((0x2#6) ++ s ++ w ++ d ++ a ++ i)
  | .andi s w d a i => some ((0x3#6) ++ s ++ w ++ d ++ a ++ i)
  | .ori s w d a i => some ((0x4#6) ++ s ++ w ++ d ++ a ++ i)
  | .xori s w d a i => some ((0x5#6) ++ s ++ w ++ d ++ a ++ i)
  | .shli s w d a n => some ((0x6#6) ++ s ++ w ++ d ++ a ++ (0x0#5) ++ n)
  | .shri s w d a n => some ((0x6#6) ++ s ++ w ++ d ++ a ++ (0x8#5) ++ n)
  | .sari s w d a n => some ((0x6#6) ++ s ++ w ++ d ++ a ++ (0x10#5) ++ n)
  | .roli s w d a n => some ((0x6#6) ++ s ++ w ++ d ++ a ++ (0x18#5) ++ n)
  | .ceqi s w d a i => some ((0x7#6) ++ s ++ w ++ d ++ a ++ i)
  | .clti s w d a i => some ((0x8#6) ++ s ++ w ++ d ++ a ++ i)
  | .cltui s w d a i => some ((0x9#6) ++ s ++ w ++ d ++ a ++ i)
  | .bfx s d a p l => some ((0xA#6) ++ s ++ (0x0#2) ++ d ++ a ++ p ++ l)
  | .bfi s d a p l => some ((0xB#6) ++ s ++ (0x0#2) ++ d ++ a ++ p ++ l)
  | .ldk s d i => some ((0xC#6) ++ s ++ (0x0#2) ++ d ++ i)
  | .ldkh s d i => some ((0xD#6) ++ s ++ (0x0#2) ++ d ++ i)
  | .adpc s d i => some ((0xE#6) ++ s ++ (0x0#2) ++ d ++ i)
  | .padd s d a b => some ((0xF#6) ++ s ++ (0x0#2) ++ d ++ a ++ b ++ (0x0#6))
  | .padde s d a b => some ((0xF#6) ++ s ++ (0x0#2) ++ d ++ a ++ b ++ (0x1#6))
  | .psube s d a b => some ((0xF#6) ++ s ++ (0x0#2) ++ d ++ a ++ b ++ (0x2#6))
  | .pfmt s d a b => some ((0xF#6) ++ s ++ (0x0#2) ++ d ++ a ++ b ++ (0x3#6))
  | .pgetf s d a => some ((0xF#6) ++ s ++ (0x0#2) ++ d ++ a ++ (0x1F#5) ++ (0x4#6))
  | .pgetb s d a => some ((0xF#6) ++ s ++ (0x0#2) ++ d ++ a ++ (0x1F#5) ++ (0x5#6))
  | .pset s d a b => some ((0xF#6) ++ s ++ (0x0#2) ++ d ++ a ++ b ++ (0x6#6))
  | .pstr s a b => some ((0xF#6) ++ s ++ (0x0#2) ++ (0x1F#5) ++ a ++ b ++ (0x7#6))
  | .pgeta s d a => some ((0xF#6) ++ s ++ (0x0#2) ++ d ++ a ++ (0x1F#5) ++ (0x8#6))
  | .paddi s d a i => some ((0x10#6) ++ s ++ (0x0#2) ++ d ++ a ++ i)
  | .br s c a i => some ((0x11#6) ++ s ++ c ++ a ++ i)
  | .jmp s i => some ((0x12#6) ++ s ++ i)
  | .call s i => some ((0x13#6) ++ s ++ i)
  | .jmpi s a => some ((0x14#6) ++ s ++ (0x1F#7) ++ a ++ (0x7C0#11))
  | .calli s a => some ((0x14#6) ++ s ++ (0x1F#7) ++ a ++ (0x7C1#11))
  | .ret s => some ((0x14#6) ++ s ++ (0x1F#7) ++ (0x1F#5) ++ (0x7C2#11))
  | .loop s a i => some ((0x15#6) ++ s ++ (0x0#3) ++ a ++ i)
  | .rep s a i => some ((0x16#6) ++ s ++ (0x1F#7) ++ a ++ i)
  | .start s d a b => some ((0x17#6) ++ s ++ (0x0#2) ++ d ++ a ++ b ++ (0x0#6))
  | .halt s => some ((0x17#6) ++ s ++ (0x0#2) ++ (0x1F#5) ++ (0x1F#5) ++ (0x1F#5) ++ (0x1#6))
  | .joinh s a => some ((0x17#6) ++ s ++ (0x0#2) ++ (0x1F#5) ++ a ++ (0x1F#5) ++ (0x2#6))
  | .yield s => some ((0x17#6) ++ s ++ (0x0#2) ++ (0x1F#5) ++ (0x1F#5) ++ (0x1F#5) ++ (0x3#6))
  | .saveh s d a b => some ((0x17#6) ++ s ++ (0x0#2) ++ d ++ a ++ b ++ (0x4#6))
  | .loadh s d a b => some ((0x17#6) ++ s ++ (0x0#2) ++ d ++ a ++ b ++ (0x5#6))
  | .resumeh s d a => some ((0x17#6) ++ s ++ (0x0#2) ++ d ++ a ++ (0x1F#5) ++ (0x6#6))
  | .killh s d a => some ((0x17#6) ++ s ++ (0x0#2) ++ d ++ a ++ (0x1F#5) ++ (0x7#6))
  | .hstat s d a => some ((0x17#6) ++ s ++ (0x0#2) ++ d ++ a ++ (0x1F#5) ++ (0x8#6))
  | .upret s => some ((0x17#6) ++ s ++ (0x0#2) ++ (0x1F#5) ++ (0x1F#5) ++ (0x1F#5) ++ (0x9#6))
  | .nop s => some ((0x18#6) ++ s ++ (0x0#2) ++ (0x1F#5) ++ (0x1F#5) ++ (0x1F#5) ++ (0x0#6))
  | .trap s a => some ((0x18#6) ++ s ++ (0x0#2) ++ (0x1F#5) ++ a ++ (0x1F#5) ++ (0x1#6))
  | .eret s => some ((0x18#6) ++ s ++ (0x0#2) ++ (0x1F#5) ++ (0x1F#5) ++ (0x1F#5) ++ (0x2#6))
  | .gets s d a => some ((0x18#6) ++ s ++ (0x0#2) ++ d ++ a ++ (0x1F#5) ++ (0x3#6))
  | .puts s a b => some ((0x18#6) ++ s ++ (0x0#2) ++ (0x1F#5) ++ a ++ b ++ (0x4#6))
  | .fence s a => some ((0x18#6) ++ s ++ (0x0#2) ++ (0x1F#5) ++ a ++ (0x1F#5) ++ (0x5#6))
  | .ifence s => some ((0x18#6) ++ s ++ (0x0#2) ++ (0x1F#5) ++ (0x1F#5) ++ (0x1F#5) ++ (0x6#6))
  | .waita s d a b => some ((0x18#6) ++ s ++ (0x0#2) ++ d ++ a ++ b ++ (0x7#6))
  | .fflag s a b => some ((0x18#6) ++ s ++ (0x0#2) ++ (0x1F#5) ++ a ++ b ++ (0x8#6))
  | .brk s => some ((0x18#6) ++ s ++ (0x0#2) ++ (0x1F#5) ++ (0x1F#5) ++ (0x1F#5) ++ (0x9#6))
  | .sleepr s d => some ((0x18#6) ++ s ++ (0x0#2) ++ d ++ (0x1F#5) ++ (0x1F#5) ++ (0xA#6))
  | .tinv s a b => some ((0x18#6) ++ s ++ (0x0#2) ++ (0x1F#5) ++ a ++ b ++ (0xB#6))
  | .ld s w d b q o => some ((0x19#6) ++ s ++ w ++ d ++ b ++ q ++ o)
  | .st s w d b q o => some ((0x1A#6) ++ s ++ w ++ d ++ b ++ (0x0#1) ++ q ++ o)
  | .ldl s w d b o => some ((0x1B#6) ++ s ++ w ++ d ++ b ++ (0x0#3) ++ o)
  | .ldlAcq s w d b o => some ((0x1B#6) ++ s ++ w ++ d ++ b ++ (0x3#3) ++ o)
  | .ldf s d b o => some ((0x1B#6) ++ s ++ (0x3#2) ++ d ++ b ++ (0x1#3) ++ o)
  | .ldfe s d b o => some ((0x1B#6) ++ s ++ (0x3#2) ++ d ++ b ++ (0x2#3) ++ o)
  | .stl s w d b o => some ((0x1C#6) ++ s ++ w ++ d ++ b ++ (0x0#3) ++ o)
  | .stlRel s w d b o => some ((0x1C#6) ++ s ++ w ++ d ++ b ++ (0x3#3) ++ o)
  | .stf s d b o => some ((0x1C#6) ++ s ++ (0x3#2) ++ d ++ b ++ (0x1#3) ++ o)
  | .ste s d b o => some ((0x1C#6) ++ s ++ (0x3#2) ++ d ++ b ++ (0x2#3) ++ o)
  | .ldv s w d b q o => some ((0x1D#6) ++ s ++ w ++ d ++ b ++ q ++ o)
  | .stv s w d b q o => some ((0x1E#6) ++ s ++ w ++ d ++ b ++ q ++ o)
  | .ldx s d b l t o => some ((0x1F#6) ++ s ++ (0x1#2) ++ d ++ b ++ l ++ t ++ (0x0#1) ++ o)
  | .stx s d b l t u o => some ((0x20#6) ++ s ++ (0x1#2) ++ d ++ b ++ l ++ t ++ u ++ o)
  | .pref s b q o => some ((0x21#6) ++ s ++ (0x1F#7) ++ b ++ (0x0#1) ++ q ++ o)
  | .atomFadd s d a b z => some ((0x22#6) ++ s ++ (0x0#2) ++ d ++ a ++ b ++ z ++ (0x0#4))
  | .atomFand s d a b z => some ((0x22#6) ++ s ++ (0x0#2) ++ d ++ a ++ b ++ z ++ (0x1#4))
  | .atomFor s d a b z => some ((0x22#6) ++ s ++ (0x0#2) ++ d ++ a ++ b ++ z ++ (0x2#4))
  | .atomFxor s d a b z => some ((0x22#6) ++ s ++ (0x0#2) ++ d ++ a ++ b ++ z ++ (0x3#4))
  | .atomFmin s d a b z => some ((0x22#6) ++ s ++ (0x0#2) ++ d ++ a ++ b ++ z ++ (0x4#4))
  | .atomFmax s d a b z => some ((0x22#6) ++ s ++ (0x0#2) ++ d ++ a ++ b ++ z ++ (0x5#4))
  | .atomFminu s d a b z => some ((0x22#6) ++ s ++ (0x0#2) ++ d ++ a ++ b ++ z ++ (0x6#4))
  | .atomFmaxu s d a b z => some ((0x22#6) ++ s ++ (0x0#2) ++ d ++ a ++ b ++ z ++ (0x7#4))
  | .atomSwap s d a b z => some ((0x22#6) ++ s ++ (0x0#2) ++ d ++ a ++ b ++ z ++ (0x8#4))
  | .atomCas s d a b => some ((0x22#6) ++ s ++ (0x1#2) ++ d ++ a ++ b ++ (0x3#2) ++ (0x9#4))
  | .updAdd s a b t => some ((0x23#6) ++ s ++ (0x1F#7) ++ a ++ b ++ t ++ (0x0#3))
  | .updMin s a b t => some ((0x23#6) ++ s ++ (0x1F#7) ++ a ++ b ++ t ++ (0x1#3))
  | .updMax s a b t => some ((0x23#6) ++ s ++ (0x1F#7) ++ a ++ b ++ t ++ (0x2#3))
  | .updAmax s a b t => some ((0x23#6) ++ s ++ (0x1F#7) ++ a ++ b ++ t ++ (0x3#3))
  | .updAnd s a b t => some ((0x23#6) ++ s ++ (0x1F#7) ++ a ++ b ++ t ++ (0x4#3))
  | .updOr s a b t => some ((0x23#6) ++ s ++ (0x1F#7) ++ a ++ b ++ t ++ (0x5#3))
  | .updXor s a b t => some ((0x23#6) ++ s ++ (0x1F#7) ++ a ++ b ++ t ++ (0x6#3))
  | .pbind s a b => some ((0x24#6) ++ s ++ (0x0#2) ++ (0x1F#5) ++ a ++ b ++ (0x0#6))
  | .pstat s d a => some ((0x24#6) ++ s ++ (0x0#2) ++ d ++ a ++ (0x1F#5) ++ (0x1#6))
  | .pdrain s d a => some ((0x24#6) ++ s ++ (0x0#2) ++ d ++ a ++ (0x1F#5) ++ (0x2#6))
  | .pord s a => some ((0x24#6) ++ s ++ (0x0#2) ++ (0x1F#5) ++ a ++ (0x1F#5) ++ (0x3#6))
  | .bar s a => some ((0x25#6) ++ s ++ (0x0#2) ++ (0x1F#5) ++ a ++ (0x1F#5) ++ (0x0#6))
  | .bara s d a => some ((0x25#6) ++ s ++ (0x0#2) ++ d ++ a ++ (0x1F#5) ++ (0x1#6))
  | .barw s a b => some ((0x25#6) ++ s ++ (0x0#2) ++ (0x1F#5) ++ a ++ b ++ (0x2#6))
  | .elect s d a => some ((0x25#6) ++ s ++ (0x0#2) ++ d ++ a ++ (0x1F#5) ++ (0x3#6))
  | .gidx s d a => some ((0x25#6) ++ s ++ (0x0#2) ++ d ++ a ++ (0x1F#5) ++ (0x4#6))
  | .gsize s d a => some ((0x25#6) ++ s ++ (0x0#2) ++ d ++ a ++ (0x1F#5) ++ (0x5#6))
  | .vadd s d a b e => some ((0x26#6) ++ s ++ (0x1#2) ++ d ++ a ++ b ++ e ++ (0x0#4))
  | .vsub s d a b e => some ((0x26#6) ++ s ++ (0x1#2) ++ d ++ a ++ b ++ e ++ (0x1#4))
  | .vmul s d a b e => some ((0x26#6) ++ s ++ (0x1#2) ++ d ++ a ++ b ++ e ++ (0x2#4))
  | .vmin s d a b e => some ((0x26#6) ++ s ++ (0x1#2) ++ d ++ a ++ b ++ e ++ (0x3#4))
  | .vmax s d a b e => some ((0x26#6) ++ s ++ (0x1#2) ++ d ++ a ++ b ++ e ++ (0x4#4))
  | .vminu s d a b e => some ((0x26#6) ++ s ++ (0x1#2) ++ d ++ a ++ b ++ e ++ (0x5#4))
  | .vmaxu s d a b e => some ((0x26#6) ++ s ++ (0x1#2) ++ d ++ a ++ b ++ e ++ (0x6#4))
  | .vand s d a b e => some ((0x26#6) ++ s ++ (0x1#2) ++ d ++ a ++ b ++ e ++ (0x7#4))
  | .vor s d a b e => some ((0x26#6) ++ s ++ (0x1#2) ++ d ++ a ++ b ++ e ++ (0x8#4))
  | .vxor s d a b e => some ((0x26#6) ++ s ++ (0x1#2) ++ d ++ a ++ b ++ e ++ (0x9#4))
  | .vshl s d a b e => some ((0x26#6) ++ s ++ (0x1#2) ++ d ++ a ++ b ++ e ++ (0xA#4))
  | .vshr s d a b e => some ((0x26#6) ++ s ++ (0x1#2) ++ d ++ a ++ b ++ e ++ (0xB#4))
  | .vsar s d a b e => some ((0x26#6) ++ s ++ (0x1#2) ++ d ++ a ++ b ++ e ++ (0xC#4))
  | .vceq s d a b e => some ((0x26#6) ++ s ++ (0x1#2) ++ d ++ a ++ b ++ e ++ (0xD#4))
  | .vclt s d a b e => some ((0x26#6) ++ s ++ (0x1#2) ++ d ++ a ++ b ++ e ++ (0xE#4))
  | .vcltu s d a b e => some ((0x26#6) ++ s ++ (0x1#2) ++ d ++ a ++ b ++ e ++ (0xF#4))
  | .vfadd s d a b t => some ((0x27#6) ++ s ++ (0x1#2) ++ d ++ a ++ b ++ t ++ (0x0#4))
  | .vfsub s d a b t => some ((0x27#6) ++ s ++ (0x1#2) ++ d ++ a ++ b ++ t ++ (0x1#4))
  | .vfmul s d a b t => some ((0x27#6) ++ s ++ (0x1#2) ++ d ++ a ++ b ++ t ++ (0x2#4))
  | .vfma s d a b t => some ((0x27#6) ++ s ++ (0x1#2) ++ d ++ a ++ b ++ t ++ (0x3#4))
  | .vfmin s d a b t => some ((0x27#6) ++ s ++ (0x1#2) ++ d ++ a ++ b ++ t ++ (0x4#4))
  | .vfmax s d a b t => some ((0x27#6) ++ s ++ (0x1#2) ++ d ++ a ++ b ++ t ++ (0x5#4))
  | .vfabs s d a t => some ((0x27#6) ++ s ++ (0x1#2) ++ d ++ a ++ (0x1F#5) ++ t ++ (0x6#4))
  | .vfneg s d a t => some ((0x27#6) ++ s ++ (0x1#2) ++ d ++ a ++ (0x1F#5) ++ t ++ (0x7#4))
  | .vfceq s d a b t => some ((0x27#6) ++ s ++ (0x1#2) ++ d ++ a ++ b ++ t ++ (0x8#4))
  | .vfclt s d a b t => some ((0x27#6) ++ s ++ (0x1#2) ++ d ++ a ++ b ++ t ++ (0x9#4))
  | .vfcle s d a b t => some ((0x27#6) ++ s ++ (0x1#2) ++ d ++ a ++ b ++ t ++ (0xA#4))
  | .vfrnd s d a t => some ((0x27#6) ++ s ++ (0x1#2) ++ d ++ a ++ (0x1F#5) ++ t ++ (0xB#4))
  | .vfscl s d a b t => some ((0x27#6) ++ s ++ (0x1#2) ++ d ++ a ++ b ++ t ++ (0xC#4))
  | .vfcls s d a t => some ((0x27#6) ++ s ++ (0x1#2) ++ d ++ a ++ (0x1F#5) ++ t ++ (0xD#4))
  | .vsplat s d a b e => some ((0x28#6) ++ s ++ (0x1#2) ++ d ++ a ++ b ++ e ++ (0x0#4))
  | .vext s d a b e => some ((0x28#6) ++ s ++ (0x1#2) ++ d ++ a ++ b ++ e ++ (0x1#4))
  | .vins s d a b e => some ((0x28#6) ++ s ++ (0x1#2) ++ d ++ a ++ b ++ e ++ (0x2#4))
  | .vshuf s d a b e => some ((0x28#6) ++ s ++ (0x1#2) ++ d ++ a ++ b ++ e ++ (0x3#4))
  | .vrev s d a e => some ((0x28#6) ++ s ++ (0x1#2) ++ d ++ a ++ (0x1F#5) ++ e ++ (0x4#4))
  | .vzip s d a b e => some ((0x28#6) ++ s ++ (0x1#2) ++ d ++ a ++ b ++ e ++ (0x5#4))
  | .vunz s d a b e => some ((0x28#6) ++ s ++ (0x1#2) ++ d ++ a ++ b ++ e ++ (0x6#4))
  | .vsumh s d a e => some ((0x28#6) ++ s ++ (0x1#2) ++ d ++ a ++ (0x1F#5) ++ e ++ (0x7#4))
  | .vmaxh s d a e => some ((0x28#6) ++ s ++ (0x1#2) ++ d ++ a ++ (0x1F#5) ++ e ++ (0x8#4))
  | .vamaxh s d a e => some ((0x28#6) ++ s ++ (0x1#2) ++ d ++ a ++ (0x1F#5) ++ e ++ (0x9#4))
  | .vsel s d a b e => some ((0x28#6) ++ s ++ (0x1#2) ++ d ++ a ++ b ++ e ++ (0xA#4))
  | .vabs s d a e => some ((0x28#6) ++ s ++ (0x1#2) ++ d ++ a ++ (0x1F#5) ++ e ++ (0xB#4))
  | .vdot4 s d a b => some ((0x28#6) ++ s ++ (0x1#2) ++ d ++ a ++ b ++ (0x0#2) ++ (0xC#4))
  | .vmov s d a e => some ((0x28#6) ++ s ++ (0x1#2) ++ d ++ a ++ (0x1F#5) ++ e ++ (0xD#4))
  | .vcvt s d a x y t => some ((0x29#6) ++ s ++ (0x1#2) ++ d ++ a ++ x ++ y ++ t)
  | .vcvts s d a x y t => some ((0x2A#6) ++ s ++ (0x1#2) ++ d ++ a ++ x ++ y ++ t)
  | .frcp s d a t => some ((0x2B#6) ++ s ++ (0x1#2) ++ d ++ a ++ (0x1F#5) ++ t ++ (0x0#5))
  | .frsq s d a t => some ((0x2B#6) ++ s ++ (0x1#2) ++ d ++ a ++ (0x1F#5) ++ t ++ (0x1#5))
  | .fsqrt s d a t => some ((0x2B#6) ++ s ++ (0x1#2) ++ d ++ a ++ (0x1F#5) ++ t ++ (0x2#5))
  | .fexp2 s d a t => some ((0x2B#6) ++ s ++ (0x1#2) ++ d ++ a ++ (0x1F#5) ++ t ++ (0x3#5))
  | .flog2 s d a t => some ((0x2B#6) ++ s ++ (0x1#2) ++ d ++ a ++ (0x1F#5) ++ t ++ (0x4#5))
  | .fsinp s d a t => some ((0x2B#6) ++ s ++ (0x1#2) ++ d ++ a ++ (0x1F#5) ++ t ++ (0x5#5))
  | .fcosp s d a t => some ((0x2B#6) ++ s ++ (0x1#2) ++ d ++ a ++ (0x1F#5) ++ t ++ (0x6#5))
  | .ftanh s d a t => some ((0x2B#6) ++ s ++ (0x1#2) ++ d ++ a ++ (0x1F#5) ++ t ++ (0x7#5))
  | .ferf s d a t => some ((0x2B#6) ++ s ++ (0x1#2) ++ d ++ a ++ (0x1F#5) ++ t ++ (0x8#5))
  | .fadd s d a b t => some ((0x2C#6) ++ s ++ (0x0#2) ++ d ++ a ++ b ++ (0x0#1) ++ t ++ (0x0#4))
  | .fsub s d a b t => some ((0x2C#6) ++ s ++ (0x0#2) ++ d ++ a ++ b ++ (0x0#1) ++ t ++ (0x1#4))
  | .fmul s d a b t => some ((0x2C#6) ++ s ++ (0x0#2) ++ d ++ a ++ b ++ (0x0#1) ++ t ++ (0x2#4))
  | .fmin s d a b t => some ((0x2C#6) ++ s ++ (0x0#2) ++ d ++ a ++ b ++ (0x0#1) ++ t ++ (0x3#4))
  | .fmax s d a b t => some ((0x2C#6) ++ s ++ (0x0#2) ++ d ++ a ++ b ++ (0x0#1) ++ t ++ (0x4#4))
  | .fabs s d a t => some ((0x2C#6) ++ s ++ (0x0#2) ++ d ++ a ++ (0x1F#5) ++ (0x0#1) ++ t ++ (0x5#4))
  | .fceq s d a b t => some ((0x2C#6) ++ s ++ (0x0#2) ++ d ++ a ++ b ++ (0x0#1) ++ t ++ (0x6#4))
  | .fclt s d a b t => some ((0x2C#6) ++ s ++ (0x0#2) ++ d ++ a ++ b ++ (0x0#1) ++ t ++ (0x7#4))
  | .fcle s d a b t => some ((0x2C#6) ++ s ++ (0x0#2) ++ d ++ a ++ b ++ (0x0#1) ++ t ++ (0x8#4))
  | .fcvti s d a t => some ((0x2C#6) ++ s ++ (0x0#2) ++ d ++ a ++ (0x1F#5) ++ (0x0#1) ++ t ++ (0x9#4))
  | .fcvtf s d a t => some ((0x2C#6) ++ s ++ (0x0#2) ++ d ++ a ++ (0x1F#5) ++ (0x0#1) ++ t ++ (0xA#4))
  | .fcvtw s d a t => some ((0x2C#6) ++ s ++ (0x0#2) ++ d ++ a ++ (0x1F#5) ++ (0x0#1) ++ t ++ (0xB#4))
  | .zdraw s d a b => some ((0x2D#6) ++ s ++ (0x0#2) ++ d ++ a ++ b ++ (0x0#6))
  | .zltq s d a b => some ((0x2D#6) ++ s ++ (0x0#2) ++ d ++ a ++ b ++ (0x1#6))
  | .zltf s d a b => some ((0x2D#6) ++ s ++ (0x0#2) ++ d ++ a ++ b ++ (0x2#6))
  | .zltz s d a b => some ((0x2D#6) ++ s ++ (0x0#2) ++ d ++ a ++ b ++ (0x3#6))
  | .zfloor s d a b => some ((0x2D#6) ++ s ++ (0x0#2) ++ d ++ a ++ b ++ (0x4#6))
  | .zext s a b => some ((0x2D#6) ++ s ++ (0x0#2) ++ (0x1F#5) ++ a ++ b ++ (0x5#6))
  | .zlen s d a => some ((0x2D#6) ++ s ++ (0x0#2) ++ d ++ a ++ (0x1F#5) ++ (0x6#6))
  | .zbits s d a b => some ((0x2D#6) ++ s ++ (0x0#2) ++ d ++ a ++ b ++ (0x7#6))
  | .zmov s d a => some ((0x2D#6) ++ s ++ (0x0#2) ++ d ++ a ++ (0x1F#5) ++ (0x8#6))
  | .zld s d a => some ((0x2D#6) ++ s ++ (0x0#2) ++ d ++ a ++ (0x1F#5) ++ (0x9#6))
  | .zst s a b => some ((0x2D#6) ++ s ++ (0x0#2) ++ (0x1F#5) ++ a ++ b ++ (0xA#6))
  | .sbind s a b => some ((0x2E#6) ++ s ++ (0x0#2) ++ (0x1F#5) ++ a ++ b ++ (0x0#6))
  | .sfree s a => some ((0x2E#6) ++ s ++ (0x0#2) ++ (0x1F#5) ++ a ++ (0x1F#5) ++ (0x1#6))
  | .rndw s d a b => some ((0x2E#6) ++ s ++ (0x0#2) ++ d ++ a ++ b ++ (0x2#6))
  | .rndv s d a b => some ((0x2E#6) ++ s ++ (0x0#2) ++ d ++ a ++ b ++ (0x3#6))
  | .sgen s d a => some ((0x2E#6) ++ s ++ (0x0#2) ++ d ++ a ++ (0x1F#5) ++ (0x4#6))
  | .glaunch s d a b => some ((0x2F#6) ++ s ++ (0x0#2) ++ d ++ a ++ b ++ (0x0#6))
  | .gquery s d a => some ((0x2F#6) ++ s ++ (0x0#2) ++ d ++ a ++ (0x1F#5) ++ (0x1#6))
  | .cpy a b w l s => some ((0x30#6) ++ (0x0#3) ++ a ++ b ++ w ++ l ++ s ++ (0x0#1))
  | .csetg a b => some ((0x30#6) ++ (0x1#3) ++ a ++ b ++ (0x0#8) ++ (0x0#3) ++ (0x0#1) ++ (0x0#1))
  | .cgetg a => some ((0x30#6) ++ (0x2#3) ++ a ++ (0x1F#5) ++ (0x0#8) ++ (0x0#3) ++ (0x0#1) ++ (0x0#1))
  | .mma a b w l s => some ((0x31#6) ++ (0x0#3) ++ a ++ b ++ w ++ l ++ s ++ (0x0#1))
  | .msetg a b => some ((0x31#6) ++ (0x1#3) ++ a ++ b ++ (0x0#8) ++ (0x0#3) ++ (0x0#1) ++ (0x0#1))
  | .mgetg a => some ((0x31#6) ++ (0x2#3) ++ a ++ (0x1F#5) ++ (0x0#8) ++ (0x0#3) ++ (0x0#1) ++ (0x0#1))
  | .mldc a b w l s => some ((0x31#6) ++ (0x3#3) ++ a ++ b ++ w ++ l ++ s ++ (0x0#1))
  | .mstc a b w l s => some ((0x31#6) ++ (0x4#3) ++ a ++ b ++ w ++ l ++ s ++ (0x0#1))
  | .mzero a w l s => some ((0x31#6) ++ (0x5#3) ++ a ++ (0x1F#5) ++ w ++ l ++ s ++ (0x0#1))
  | .mcommit => some ((0x31#6) ++ (0x6#3) ++ (0x1F#5) ++ (0x1F#5) ++ (0x0#8) ++ (0x0#3) ++ (0x0#1) ++ (0x0#1))
  | .mwait a => some ((0x31#6) ++ (0x7#3) ++ a ++ (0x1F#5) ++ (0x0#8) ++ (0x0#3) ++ (0x0#1) ++ (0x0#1))
  | .coll a b w l s => some ((0x32#6) ++ (0x0#3) ++ a ++ b ++ w ++ l ++ s ++ (0x0#1))
  | .cquery a => some ((0x32#6) ++ (0x1#3) ++ a ++ (0x1F#5) ++ (0x0#8) ++ (0x0#3) ++ (0x0#1) ++ (0x0#1))
  | .cabort a => some ((0x32#6) ++ (0x2#3) ++ a ++ (0x1F#5) ++ (0x0#8) ++ (0x0#3) ++ (0x0#1) ++ (0x0#1))
  | .rkovl a b w l s => some ((0x33#6) ++ (0x0#3) ++ a ++ b ++ w ++ l ++ s ++ (0x0#1))
  | .rkrun a b w l s => some ((0x33#6) ++ (0x1#3) ++ a ++ b ++ w ++ l ++ s ++ (0x0#1))
  | .rksig a b w => some ((0x33#6) ++ (0x2#3) ++ a ++ b ++ w ++ (0x0#3) ++ (0x0#1) ++ (0x0#1))
  | .rkstat a => some ((0x33#6) ++ (0x3#3) ++ a ++ (0x1F#5) ++ (0x0#8) ++ (0x0#3) ++ (0x0#1) ++ (0x0#1))
  | .rkstop a w => some ((0x33#6) ++ (0x4#3) ++ a ++ (0x1F#5) ++ w ++ (0x0#3) ++ (0x0#1) ++ (0x0#1))
  | .dwait w => some ((0x34#6) ++ (0x3FF#13) ++ w ++ (0x0#5))
  | .dstat => some ((0x34#6) ++ (0x7FF#13) ++ (0x0#8) ++ (0x0#5))
  | .sli x y i => some ((0x1#6) ++ x ++ y ++ (0x0#4) ++ i)
  | .slih x y i => some ((0x2#6) ++ x ++ y ++ (0x0#4) ++ i)
  | .sadd x y z => some ((0x3#6) ++ x ++ y ++ z ++ (0x0#14))
  | .saddi x y i => some ((0x4#6) ++ x ++ y ++ (0x0#4) ++ i)
  | .ssub x y z => some ((0x5#6) ++ x ++ y ++ z ++ (0x0#14))
  | .sand x y z => some ((0x6#6) ++ x ++ y ++ z ++ (0x0#14))
  | .sor x y z => some ((0x7#6) ++ x ++ y ++ z ++ (0x0#14))
  | .sxor x y z => some ((0x8#6) ++ x ++ y ++ z ++ (0x0#14))
  | .sshl x y z => some ((0x9#6) ++ x ++ y ++ z ++ (0x0#14))
  | .sshr x y z => some ((0xA#6) ++ x ++ y ++ z ++ (0x0#14))
  | .smul x y z => some ((0xB#6) ++ x ++ y ++ z ++ (0x0#14))
  | .sclt x y z => some ((0xC#6) ++ x ++ y ++ z ++ (0x0#14))
  | .sbz x i => some ((0xD#6) ++ x ++ (0x0#8) ++ i)
  | .sbnz x i => some ((0xD#6) ++ x ++ (0x10#8) ++ i)
  | .sj i => some ((0xE#6) ++ (0x0#12) ++ i)
  | .sloop x i => some ((0xF#6) ++ x ++ (0x0#8) ++ i)
  | .cset x y c => some ((0x10#6) ++ x ++ y ++ (0x0#13) ++ c)
  | .cstride x i => some ((0x11#6) ++ x ++ (0x0#8) ++ i)
  | .cnext x => some ((0x12#6) ++ x ++ (0x0#22))
  | .vld x y => some ((0x13#6) ++ x ++ y ++ (0x0#18))
  | .vst x y => some ((0x14#6) ++ x ++ y ++ (0x0#18))
  | .mwVadd x y z r t => some ((0x15#6) ++ x ++ y ++ z ++ (0x0#10) ++ r ++ t)
  | .mwVsub x y z r t => some ((0x16#6) ++ x ++ y ++ z ++ (0x0#10) ++ r ++ t)
  | .mwVmul x y z r t => some ((0x17#6) ++ x ++ y ++ z ++ (0x0#10) ++ r ++ t)
  | .mwVfma x y z r => some ((0x18#6) ++ x ++ y ++ z ++ (0x0#10) ++ r ++ (0x0#1))
  | .vscl x y z r => some ((0x19#6) ++ x ++ y ++ z ++ (0x0#10) ++ r ++ (0x0#1))
  | .mwVmax x y z r t => some ((0x1A#6) ++ x ++ y ++ z ++ (0x0#10) ++ r ++ t)
  | .mwVmin x y z r t => some ((0x1B#6) ++ x ++ y ++ z ++ (0x0#10) ++ r ++ t)
  | .mwVcvt x y d f p u r => some ((0x1C#6) ++ x ++ y ++ (0x0#4) ++ d ++ f ++ p ++ u ++ r ++ (0x0#2))
  | .vspl x y => some ((0x1D#6) ++ x ++ y ++ (0x0#18))
  | .kclr x => some ((0x1E#6) ++ x ++ (0x0#22))
  | .kadd x y t => some ((0x1F#6) ++ x ++ y ++ (0x0#17) ++ t)
  | .krnd x y u r t => some ((0x20#6) ++ x ++ y ++ (0x0#13) ++ u ++ r ++ t)
  | .kanc x y => some ((0x21#6) ++ x ++ y ++ (0x0#18))
  | .cbegin x y u g => some ((0x22#6) ++ x ++ y ++ (0x0#9) ++ u ++ g)
  | .cend x => some ((0x23#6) ++ x ++ (0x0#22))
  | .cshift x d c z f g => some ((0x24#6) ++ x ++ d ++ c ++ z ++ (0x0#3) ++ f ++ g)
  | .cxpose x d c z f g => some ((0x25#6) ++ x ++ d ++ c ++ z ++ (0x0#3) ++ f ++ g)
  | .ca2a x d c z f g => some ((0x26#6) ++ x ++ d ++ c ++ z ++ (0x0#3) ++ f ++ g)
  | .cred x d c z o f g => some ((0x27#6) ++ x ++ d ++ c ++ z ++ o ++ f ++ g)
  | .crsc x d c z o f g => some ((0x28#6) ++ x ++ d ++ c ++ z ++ o ++ f ++ g)
  | .cgath x d c z f g => some ((0x29#6) ++ x ++ d ++ c ++ z ++ (0x0#3) ++ f ++ g)
  | .cbcast x d c z f g => some ((0x2A#6) ++ x ++ d ++ c ++ z ++ (0x0#3) ++ f ++ g)
  | .cbar x g => some ((0x2B#6) ++ x ++ (0x0#14) ++ g)
  | .msgo y => some ((0x2C#6) ++ (0x0#4) ++ y ++ (0x0#18))
  | .msgi x => some ((0x2D#6) ++ x ++ (0x0#22))
  | .ovsw i => some ((0x2E#6) ++ (0x0#16) ++ i)
  | .mwHalt => some ((0x2F#6) ++ (0x0#26))
  | .resultDelivery _ _ => none
  | .instructionFetchReturn _ _ => none
  | .pageWalk _ _ _ _ => none
  | .translationAck _ _ => none
  | .dupRevocation _ _ => none
  | .faultRingEntry _ => none
  | .pagerAnswer _ _ => none
  | .pagerReply _ _ _ => none
  | .upcallDelivery _ => none
  | .pagerNotice _ _ => none
  | .tinvComplete _ _ => none
  | .portWordArrival _ => none
  | .waitaReread _ _ => none
  | .sfuRequestComplete _ => none
  | .engineCommandStart _ => none
  | .cpyCompletion _ => none
  | .muCommandStart _ => none
  | .mxCommandComplete _ => none
  | .commandRingDispatch _ _ => none
  | .courseOpen _ => none
  | .memberReady _ _ => none
  | .keystone _ => none
  | .courseCancel _ => none
  | .keystoneInvalidationDone _ => none
  | .memberLoss _ => none
  | .courseTimeout _ => none
  | .collDeadline _ _ => none
  | .collCompletion _ _ => none
  | .rkovlCompletion _ _ => none
  | .rkrunCompletion _ _ => none
  | .rksigMailboxDelivery _ => none
  | .cbarTimeout _ => none
  | .outsideAccessArrival _ _ _ _ _ _ => none
  | .rankCheckTimer _ => none
  | .bankReturn _ => none
  | .bankRefresh _ => none
  | .channelPowerDown _ => none
  | .channelWake _ => none
  | .launchDoorbell _ _ _ => none
  | .hostApertureAccess _ _ _ _ _ => none
  | .launchStart _ _ => none
  | .terminationSweep _ _ _ => none
  | .rankNodeEnd _ _ _ => none
  | .preemption _ => none
  | .coreResumption _ _ _ => none
  | .create _ _ => none
  | .stop _ _ => none
  | .equinoxStop _ => none
  | .resume _ _ => none
  | .reset _ _ => none
  | .teardown _ _ => none
  | .keygen _ _ => none
  | .keykill _ _ => none
  | .permissionEntryWrite _ _ _ => none
  | .windowEntryWrite _ _ _ => none
  | .rankEnableMapWrite _ _ _ => none
  | .registerWrite _ _ => none
  | .attach => none
  | .detach => none
  | .debugHalt => none
  | .debugResume => none
  | .debugStep => none
  | .debugRead => none
  | .debugWrite => none
  | .vigilCollapse _ => none
  | .wake _ => none
  | .linkPortWake _ => none
  | .uncorrectableError _ => none
  | .patrolScrub _ _ _ => none
  | .spareSubstitution _ => none
  | .bankMigration _ => none
  | .almanacWrite => none
  | .powerGood => none
  | .powerManagerAdjust _ _ _ _ => none
  | .thermalTrip => none
  | .getVersion _ => none
  | .getCapabilities _ => none
  | .negotiateAlgorithms _ => none
  | .getDigests _ => none
  | .getCertificate _ _ _ => none
  | .challenge _ _ => none
  | .getMeasurements _ _ _ => none
  | .keyExchange _ _ => none
  | .finish _ _ => none
  | .endSession _ => none
  | .read _ => none
  | .readResp _ => none
  | .write _ => none
  | .atomic _ => none
  | .atomicResp _ => none
  | .update _ => none
  | .ack _ => none
  | .nack _ => none
  | .step _ => none
  | .stepRed _ => none
  | .stepRes _ => none
  | .keepalive _ => none
  | .keepaliveSend => none
  | .packageLoss _ => none
  | .homeAcknowledgement _ _ => none
  | .pbindAcknowledgement _ _ => none
  | .deviceDma _ _ _ _ => none
  | .applicationCoreAccess _ => none
  | .drainTimeout _ => none
  | .powerLoss => none
  | .flashUpdateCommand _ _ => none
  | .configurationRequest _ _ => none
  | .linkKeyReplacement _ _ _ => none

end Sys2Proof
end

