-- ==== Sys2Proof/Machine/Ops.lean ====
section
/-! DEFINITION. The named operations on cells, contexts, cores and the scratchpad; the order of the traps (R74); taking a
trap (R94) and returning from one (R97); faults served by pagers (R98, R101); and the shape every Soras meaning has. -/

namespace Sys2Proof.Machine

/-! ### Cells (R29 to R31) -/

def Pending.arrived {α : Type} (t : Nat) (p : Pending α) : Bool :=
  match p.due with
  | some d => decide (d ≤ t)
  | none => false

/-- The writes that have arrived by cycle t take effect in issue order; an older one that arrives after a younger is
discarded (R31). -/
def Cell.settle {α : Type} (t : Nat) (c : Cell α) : Cell α :=
  c.pend.foldl (fun acc p => if p.arrived t then ⟨p.val, []⟩ else ⟨acc.cur, acc.pend ++ [p]⟩) ⟨c.cur, []⟩

def Cell.read {α : Type} (t : Nat) (c : Cell α) : α := (c.settle t).cur

/-- R30: the youngest fixed-latency write is not ready. -/
def Cell.undersized {α : Type} (t : Nat) (c : Cell α) : Bool := (c.settle t).pend.any (·.fixed)

/-- R29: an interlocked producer has not delivered. -/
def Cell.interlocked {α : Type} (t : Nat) (c : Cell α) : Bool := (c.settle t).pend.any (fun p => p.due.isNone)

def Cell.write {α : Type} (t : Nat) (p : Pending α) (c : Cell α) : Cell α :=
  ⟨(c.settle t).cur, (c.settle t).pend ++ [p]⟩

/-- The value stands in the cell and nothing is on its way. -/
def Cell.set {α : Type} (v : α) : Cell α := ⟨v, []⟩

/-- The tag of part k of the result of producer `tag`; a result has at most eight parts (R23). -/
def partTag (tag k : Nat) : Nat := 8 * tag + k

/-- The producer delivers `v`, the part tagged `part`, in cycle t. -/
def Cell.deliver {α : Type} (t part : Nat) (v : α) (c : Cell α) : Cell α :=
  ⟨c.cur, c.pend.map (fun p => if p.tag = part ∧ p.due = none then { p with val := v, due := some t } else p)⟩

/-- A part of the result of producer `tag` is awaited. -/
def Cell.waitsFor {α : Type} (tag : Nat) (c : Cell α) : Bool := c.pend.any (fun p => p.tag / 8 == tag && p.due.isNone)

/-- Writes that have arrived by cycle t take their places (R31). -/
def Context.settleAll (t : Nat) (c : Context) : Context :=
  { c with
    belt := c.belt.map (·.settle t), btail := c.btail.settle t, vbelt := c.vbelt.map (·.settle t), vtail := c.vtail.settle t
    n := c.n.map (·.settle t), a := c.a.map (·.settle t) }

/-! ### Reaching the parts of the state -/

/-- R10: cores 0–4,095 by curve number; the model numbers the pager cores 4,096–4,223, two to a cluster. -/
def isPager (c : Nat) : Bool := decide (4096 ≤ c) && decide (c < 4224)

/-- A core that nothing has touched. A pager core is in supervisor mode at all times and belongs to no matrix group (R10, R11):
its features of the matrix units and the copy engines are absent (log 55). -/
def Core.first (c : Nat) : Core :=
  if isPager c then { Core.reset with
    origin := c, feat := 0xFC, ctxs := Core.reset.ctxs.map (fun (x : Context) => { x with sup := true }) }
  else { Core.reset with origin := c }

def State.core (s : State) (c : Nat) : Core := (lookup c s.cores).getD (Core.first c)
def State.setCore (s : State) (c : Nat) (k : Core) : State := { s with cores := put c k s.cores }
def State.updCore (s : State) (c : Nat) (f : Core → Core) : State := s.setCore c (f (s.core c))

def ctxIx (x : Nat) : Fin 11 := Fin.ofNat 11 x

def Core.ctx (k : Core) (x : Nat) : Context := k.ctxs[ctxIx x]
def Core.setCtx (k : Core) (x : Nat) (c : Context) : Core := { k with ctxs := k.ctxs.set (ctxIx x) c }

def State.ctx (s : State) (c x : Nat) : Context := (s.core c).ctx x
def State.updCtx (s : State) (c x : Nat) (f : Context → Context) : State :=
  s.updCore c (fun k => k.setCtx x (f (k.ctx x)))

/-- The core and context that issue. -/
def State.here (s : State) : Core := s.core s.cur.core
def State.me (s : State) : Context := s.here.ctxs[s.cur.ctx]
def State.updHere (s : State) (f : Core → Core) : State := s.updCore s.cur.core f
def State.updMe (s : State) (f : Context → Context) : State :=
  s.updHere (fun k => { k with ctxs := k.ctxs.set s.cur.ctx (f k.ctxs[s.cur.ctx]) })
def State.now (s : State) : Nat := s.here.clock

def State.rank (s : State) (r : Nat) : Rank := (lookup r s.ranks).getD Rank.reset
def State.updRank (s : State) (r : Nat) (f : Rank → Rank) : State := { s with ranks := put r (f (s.rank r)) s.ranks }

def State.vd (s : State) (v : Nat) : Vd := (lookup v s.vds).getD Vd.reset
def State.updVd (s : State) (v : Nat) (f : Vd → Vd) : State := { s with vds := put v (f (s.vd v)) s.vds }

/-- The VD of the issuing core. -/
def State.myVd (s : State) : Vd := s.vd s.here.vd

/-- The state with another issuer. -/
def actAs (c x : Nat) (s : State) : State := { s with cur := ⟨c, ctxIx x, s.cur.rank⟩ }

/-- Something is done in the name of another issuer; who issues, and the transients of its instruction, stay. -/
def asContext (c x : Nat) (f : State → State) (s : State) : State :=
  { f { actAs c x s with banks := [], collisions := 0, target := none } with
    cur := s.cur, banks := s.banks, collisions := s.collisions, target := s.target }

def State.fresh (s : State) : State := { s with nextId := s.nextId + 1 }

def regIx (c : Nat) : Fin 8 := Fin.ofNat 8 c
def ptrIx (c : Nat) : Fin 4 := Fin.ofNat 4 c

/-! ### Stops of an instruction -/

/-- Why an instruction did not complete. A `keep` stop carries the state with the effects it keeps. -/
inductive Stop where
  | trap (cause : Nat) (tval : W64)
  | keepTrap (s : State) (cause : Nat) (tval : W64)
  /-- a translation fault; the walker's changes stay (R287) -/
  | fault (s : State) (cause : Nat) (va : W64) (kind : Nat)
  | wait (r : WaitReason)
  | keepWait (s : State) (r : WaitReason)
  /-- a debugger halts the context before the instruction (R104, R357) -/
  | halt (reason : BitVec 8)

abbrev M := StateT State (Except Stop)

def stop {α : Type} (e : Stop) : M α := fun _ => .error e
def upd (f : State → State) : M Unit := fun s => .ok ((), f s)
def waitIf (b : Bool) (r : WaitReason) : M Unit := if b then stop (.wait r) else pure ()
def trapIf (b : Bool) (cause : Nat) (tval : W64) : M Unit := if b then stop (.trap cause tval) else pure ()

namespace Cause
/-- The causes of R95. -/
def ill : Nat := 0x01
def priv : Nat := 0x03
def understall : Nat := 0x04
def feature : Nat := 0x05
def pflt : Nat := 0x08
def pperm : Nat := 0x09
def align : Nat := 0x0A
def spmrange : Nat := 0x0B
def zexh : Nat := 0x10
def zstale : Nat := 0x11
def handle : Nat := 0x12
def porterr : Nat := 0x18
def grperr : Nat := 0x19
def mchk : Nat := 0x30
def watch : Nat := 0x31
def brk : Nat := 0x32
def trap : Nat := 0x38
end Cause

/-! ### Taking a trap, and returning from one -/

/-- R94 to R96, R123: the current context takes a trap. -/
def takeTrap (cause : Nat) (tval epc : W64) (s : State) : State :=
  s.updMe fun c => { c with
    epc := epc
    cause := (if c.sup then 0x8000000000000000 else 0) ||| BitVec.ofNat 64 cause
    tval := tval
    sup := true
    pc := va55 s.myVd.desc.trapvec
    shadow := c.rep
    rep := none
    wait := none
    hold := none
    ask := none
    answer := none
    sleep := none
    bound := s.now + 1 }

/-- R97, R123. -/
def returnFromTrap (s : State) : State :=
  { s.updMe (fun c => { c with
      pc := va55 c.epc &&& 0x7FFFFFFFFFFFFC
      sup := c.cause.getLsbD 63 || isPager s.cur.core
      rep := c.shadow
      shadow := none }) with target := some (va55 s.me.epc &&& 0x7FFFFFFFFFFFFC) }

/-- Offset of the fault record of helper h (R98). -/
def recOff (h : Nat) : Nat := 0x17EC0 + 32 * (h - 1)

/-- The 32 bytes of a fault record (R98). -/
def faultRecord (va pc : W64) (cause kind h seq : Nat) : List Byte :=
  bytesOf 8 va.toNat ++ bytesOf 8 pc.toNat ++ bytesOf 1 cause ++ bytesOf 1 kind ++ bytesOf 1 h ++ bytesOf 5 0 ++
    bytesOf 8 seq

/-- R98, R101, R102: a fault goes to the pagers. A helper whose core takes upcalls is parked FAULTED with a record in
the scratchpad; any other context sleeps until its $reply is written. -/
def takeFault (cause : Nat) (va : W64) (kind : Nat) (s : State) : State :=
  let k := s.here
  let x := s.cur.ctx.val
  let seq := k.fseq + 1
  let up := x != 0 && k.upc.getLsbD 0 && decide ((k.ctx 0).status ≠ .free)
  let record := faultRecord va s.me.pc cause kind x seq
  let s1 := s.updHere (fun k => { k with
    fseq := seq
    spm := if up then Memory.writeN k.spm (recOff x) record else k.spm
    recs := if up then k.recs ++ [⟨seq, x⟩] else k.recs })
  let s2 := s1.updMe (fun c => if up then { c with status := .faulted, wait := none }
    else { c with pfault := some ⟨BitVec.ofNat 8 cause, va⟩, wait := some .reply })
  s2.updVd k.vd (fun v => { v with faults := v.faults ++
    [⟨record ++ bytesOf 4 s.cur.core ++ bytesOf 1 x ++ bytesOf 1 (if up then 1 else 0), k.origin, x, up, none, x, seq⟩] })

/-! ### The scratchpad (R214 to R216) -/

def spmSize : Nat := 98304

/-- The 16-byte parts of an access to a core's scratchpad take their banks one by one (R214). -/
def touchAt (c off len : Nat) (s : State) : State :=
  (List.range ((off + len - 1) / 16 + 1 - off / 16)).foldl (fun s i =>
    let b := 3 * c + (off / 16 + i) % 3
    if s.banks.contains b then { s with collisions := s.collisions + 1 } else { s with banks := s.banks ++ [b] }) s

/-- An access to the issuing core's own scratchpad. -/
def touch (off len : Nat) (s : State) : State := touchAt s.cur.core off len s

def State.spmRead (s : State) (c off len : Nat) : List Byte := Memory.readN (s.core c).spm off len

/-- A write to a scratchpad; a code word written whole is sound again (R342). -/
def State.spmWrite (s : State) (c off : Nat) (bs : List Byte) : State :=
  s.updCore c (fun k => { k with
    spm := Memory.writeN k.spm off bs
    bad := k.bad.filter (fun w => !(decide (off ≤ 8 * w) && decide (8 * w + 8 ≤ off + bs.length))) })

/-- Results through pointers in the order in which they are ready (R29). -/
def insertDue (w : SpmWrite) : List SpmWrite → List SpmWrite
  | [] => [w]
  | x :: r => if w.due.getD 0 < x.due.getD 0 then w :: x :: r else x :: insertDue w r

/-- The results through pointers that are ready by cycle t, and belong to the contexts of `mine`, are written (R29). -/
def State.flushSpm (s : State) (c t : Nat) (mine : Nat → Bool) : State :=
  let ripe (w : SpmWrite) : Bool := mine w.ctx && w.due.any (fun d => decide (d ≤ t))
  let ws := ((s.core c).spmDue.filter ripe).foldl (fun l w => insertDue w l) []
  if ws.isEmpty then s
  else (ws.foldl (fun s w => s.spmWrite c w.off w.data) s).updCore c (fun k =>
    { k with spmDue := k.spmDue.filter (fun w => !ripe w) })

/-- R38: at a halt every fixed-latency operation the context has issued completes. -/
def State.finishFixed (s : State) (c x : Nat) : State :=
  (s.flushSpm c ((s.core c).clock + 1000) (· == x)).updCtx c x (fun m => m.settleAll ((s.core c).clock + 1000))

/-! ### Which trap a word raises (R74 steps 1 to 3) -/

def wordOf (i : Instr) : Word := (encode i).getD 0

/-- The $feat bit a word needs (R69). -/
def featureBit (w : Word) : Option Nat :=
  match (w.extractLsb' 26 6).toNat with
  | 0x27 => if (w.extractLsb' 4 2) = 3 then some 6 else none
  | 0x2A => some 7
  | 0x2B => some 2
  | 0x2D => some 3
  | 0x2E => some 3
  | 0x30 => some 1
  | 0x31 => some 0
  | 0x32 => some 4
  | 0x33 => some 5
  | _ => none

/-- Special register numbers (R33). -/
def sregReserved (n : Nat) : Bool := (decide (20 ≤ n) && decide (n ≤ 23)) || decide (28 ≤ n)
def sregReadOnly (n : Nat) : Bool := decide (n ≤ 3) || (decide (10 ≤ n) && decide (n ≤ 12)) || (decide (17 ≤ n) && decide (n ≤ 19))
def sregSuper (n : Nat) : Bool := decide (24 ≤ n) && decide (n ≤ 27)

/-- SYS words whose A field names a special register the word may not name (R33). -/
def sregIll (w : Word) : Bool :=
  let n := (w.extractLsb' 11 5).toNat
  (w.extractLsb' 26 6 == 0x18) &&
    ((w.extractLsb' 0 6 == 3 && sregReserved n) || (w.extractLsb' 0 6 == 4 && (sregReserved n || sregReadOnly n)))

/-- Words a user-mode context, or a helper, may not issue (R33, R69). -/
def privileged (w : Word) (sup helper : Bool) : Bool :=
  let n := (w.extractLsb' 11 5).toNat
  let fn := (w.extractLsb' 0 6).toNat
  (w.extractLsb' 26 6 == 0x18) &&
    ((!sup && (fn == 2 || fn == 10 || fn == 11)) || (!sup && (fn == 3 || fn == 4) && sregSuper n) ||
      (helper && fn == 4 && (n == 6 || n == 7)))

/-- The trap of steps 1 to 3 of R74 for a word that a row of the table owns. -/
def gate (w : Word) (feat : W64) (sup helper : Bool) : Option Nat :=
  if sregIll w then some Cause.ill
  else if (featureBit w).any (fun b => !feat.getLsbD b) then some Cause.feature
  else if privileged w sup helper then some Cause.priv
  else none

/-- Steps 1 to 3 of R74 for an instruction of the issuing context. -/
def gateOf (i : Instr) (s : State) : Option Nat :=
  if i.wf then gate (wordOf i) s.here.feat s.me.sup (decide (s.cur.ctx ≠ 0)) else some Cause.ill

/-- The trap of steps 1 to 3 of R74 for any word (R122). -/
def wordTrap (w : Word) (s : State) : Option Nat :=
  match decodeSoras w with
  | .error _ => some Cause.ill
  | .ok _ => gate w s.here.feat s.me.sup (decide (s.cur.ctx ≠ 0))

/-! ### The program counter (R85, R121) -/

/-- The context continues with the next word, or the next word of its repetition body. -/
def Context.advance (c : Context) : Context :=
  match c.rep with
  | none => { c with pc := va55 (c.pc + 4) }
  | some r =>
    if r.pos + 1 < r.len then { c with pc := va55 (c.pc + 4), rep := some { r with pos := r.pos + 1 } }
    else if r.remaining ≤ 1 then { c with pc := va55 (c.pc + 4), rep := none }
    else { c with pc := va55 r.base, rep := some { r with pos := 0, remaining := r.remaining - 1 } }

/-- A debugger's STEP ends after one instruction, or one whole iteration of a repetition body (R357). -/
def Context.stepEnds (c : Context) : Bool := c.dstep && c.rep.all (fun r => r.pos == 0)

/-- The context that issues halts at the boundary that ends its STEP, with the state of R38 (R357). -/
def State.endStep (s : State) : State :=
  if s.me.stepEnds then (s.finishFixed s.cur.core s.cur.ctx.val).updMe (fun c => { c with dstep := false, dhalt := true, reason := 3 })
  else s

/-- The instruction has issued: the program counter moves on and the next issue is bounded (R28). -/
def retire (stall : Nat) (s : State) : State :=
  { (s.updMe (fun c =>
      let c1 := match s.target with
        | some p => { c with pc := p }
        | none => c.advance
      { c1 with bound := s.now + 1 + stall + s.collisions, wait := none, hold := none, ask := none, answer := none })).endStep with
    banks := [], collisions := 0, target := none }

def setWait (r : WaitReason) (s : State) : State := s.updMe (fun c => { c with wait := some r })

/-- The transients of an instruction stand at their rest values. -/
def settled (s : State) : State := { s with banks := [], collisions := 0, target := none }

def stopAt (s : State) : Stop → State
  | .trap c t => takeTrap c t s.me.pc s
  | .keepTrap s' c t => takeTrap c t s.me.pc (settled s')
  | .fault s' c va k => takeFault c va k (settled s')
  | .wait r => setWait r s
  | .keepWait s' r => setWait r (settled s')
  | .halt r => (s.finishFixed s.cur.core s.cur.ctx.val).updMe (fun c =>
      { c with dhalt := true, dstep := false, reason := r, wait := none })

/-- Context x has issued: no YIELD waits for it any more (R92). -/
def Core.released (k : Core) (x : Nat) : Core :=
  { k with ctxs := k.ctxs.map (fun (m : Context) => { m with yield := m.yield.filter (· != x) }) }

abbrev Out := Host.Outcome State Fault Refusal

/-- The shape of every Soras meaning: steps 1 to 3 of R74, then the member's own action; a stop leaves no effect but
the trap, the fault or the wait itself. -/
def issue (i : Instr) (stall : Nat) (m : M Unit) (s : State) : Out :=
  match gateOf i s with
  | some c => .next (takeTrap c ((wordOf i).zeroExtend 64) s.me.pc s)
  | none =>
    match m s with
    | .ok (_, t) => .next (retire stall t)
    | .error e => .next (stopAt s e)

/-- The core with index `ix` in the cluster of core c (R134, R213, R304). -/
def hilbertGo : List Nat → Nat → Nat → Nat → Nat
  | [], _, _, d => d
  | s :: r, x, y, d =>
    let rx := if x &&& s != 0 then 1 else 0
    let ry := if y &&& s != 0 then 1 else 0
    let d' := d + s * s * ((3 * rx) ^^^ ry)
    if ry = 0 then
      let x' := if rx = 1 then 31 - x else x
      let y' := if rx = 1 then 31 - y else y
      hilbertGo r y' x' d'
    else hilbertGo r x y d'

/-- The order-5 Hilbert index h of R304. -/
def hilbert (x y : Nat) : Nat := hilbertGo [16, 8, 4, 2, 1] x y 0

/-- The curve number of logical core `ix` of cluster cl (0–15) of die D (R304). -/
def curveOf (die cl ix : Nat) : Nat := die * 1024 + hilbert (8 * (cl % 4) + ix % 8) (8 * (cl / 4) + ix / 8)

/-- The first curve number of the run of 64 that fills a cluster. -/
def runOf (die cl : Nat) : Nat := curveOf die cl 0 / 64 * 64

/-- The cluster (within its die) whose run of 64 holds a curve number. -/
def clusterOf (c : Nat) : Nat := ((List.range 16).find? (fun cl => runOf (c / 1024) cl == c / 64 * 64)).getD 0

/-- The compute die and the cluster in it of a core (R213); pager cores are numbered by cluster (R10). -/
def dieOf (c : Nat) : Nat := if isPager c then (c - 4096) / 32 else c / 1024
def clusterIn (c : Nat) : Nat := if isPager c then (c - 4096) / 2 % 16 else clusterOf c

/-- The scratchpad a local address names, and the offset (R134). -/
def localTarget (c : Nat) (addr : W64) : Nat × Nat :=
  let a := addr.toNat
  (if bit a 23 then c else curveOf (dieOf c) (clusterIn c) (bits a 22 17), bits a 16 0)

end Sys2Proof.Machine
end

