-- ==== Sys2Proof/Machine/Mem.lean ====
section
/-! DEFINITION. HBM: windows (R221 to R223), permissions (R307), rows and the remap table (R248), held writes (R255), lost and
failing cells (R306, R342), the front end of a bank (R255 to R258, R371), and fault-ring entries (R295, R343). -/

namespace Sys2Proof.Machine

/-! ### Windows and permission entries -/

structure Win where
  base  : Nat
  size  : Nat
  rows  : Nat
  firstRow : Nat
  first : Nat
  count : Nat
  banked : Bool
  valid : Bool
  key   : Nat
  deriving DecidableEq, Repr

/-- The fields of a window entry (R221). -/
def winOf (x : BitVec 128) : Win :=
  let n := x.toNat
  let rows := bits n 113 98
  let banked := bit n 115
  { base := bits n 51 16 * 2 ^ 16
    size := if banked then bits n 68 55 * rows * 1024 else rows * 8 * 2 ^ 20
    rows := rows, firstRow := bits n 97 82, first := bits n 81 69, count := bits n 68 55
    banked := banked, valid := bit n 114, key := bits n 119 116 }

def Win.covers (w : Win) (pa : Nat) : Bool := w.valid && decide (w.base ≤ pa) && decide (pa < w.base + w.size)

/-- R222, R223. -/
def Win.place (w : Win) (pa : Nat) : Place :=
  let x := pa - w.base
  if w.banked then
    let y := x % (w.rows * 1024)
    ⟨w.first + x / (w.rows * 1024), w.firstRow + y / 1024, y % 1024⟩
  else
    let u := x / 256
    let p := u / 256
    ⟨u % 8 * 1024 + u / 8 % 32 * 32 + p % 32, w.firstRow + p / 32 / 4, p / 32 % 4 * 256 + x % 256⟩

/-- The physical address of a place in a window that uses its row (the inverse of R222 and R223). -/
def Win.addr (w : Win) (p : Place) : Nat :=
  w.base + (if w.banked then (p.rank - w.first) * (w.rows * 1024) + (p.row - w.firstRow) * 1024 + p.byte
    else
      let q := (p.row - w.firstRow) * 128 + p.byte / 256 * 32 + p.rank % 32
      (q * 256 + p.rank / 32 % 32 * 8 + p.rank / 1024) * 256 + p.byte % 256)

/-- The window uses the row of the place. -/
def Win.uses (w : Win) (p : Place) : Bool :=
  w.valid && (!w.banked || (decide (w.first ≤ p.rank) && decide (p.rank < w.first + w.count))) &&
    decide (w.firstRow ≤ p.row) && decide (p.row < w.firstRow + w.rows)

/-- The window of a VD that covers a physical address. -/
def State.window (s : State) (vd pa : Nat) : Option Win :=
  ((s.vd vd).wins.map (fun w => winOf w.2)).find? (fun w => w.covers pa)

def State.place (s : State) (vd pa : Nat) : Option Place := (s.window vd pa).map (fun w => w.place pa)

/-- The physical address of a place in a VD's windows; where none maps it, a free value (log 5). -/
def State.addrOf (s : State) (vd : Nat) (p : Place) : W64 :=
  match ((s.vd vd).wins.map (fun w => winOf w.2)).find? (fun w => w.uses p) with
  | some w => BitVec.ofNat 64 (w.addr p)
  | none => Config.freeAddr s.nextId

structure Perm where
  valid : Bool
  vd    : Nat
  key   : Nat
  k     : Bool
  w     : Bool
  r     : Bool
  rows  : Nat
  firstRow : Nat
  rcount : Nat
  rfirst : Nat
  deriving DecidableEq, Repr

/-- The fields of a permission entry (R307). -/
def permOf (x : BitVec 128) : Perm :=
  let n := x.toNat
  { valid := bit n 79, vd := bits n 78 73, key := bits n 72 69, k := bit n 68, w := bit n 67, r := bit n 66
    rows := bits n 65 48, firstRow := bits n 47 32, rcount := bits n 31 21, rfirst := bits n 9 0 }

/-- The entry of base die bd covers a row of a rank. -/
def Perm.covers (p : Perm) (bd rank row : Nat) : Bool :=
  p.valid && rank / 1024 == bd && decide (p.rfirst ≤ rank % 1024) && decide (rank % 1024 < p.rfirst + p.rcount) &&
    decide (p.firstRow ≤ row) && decide (row < p.firstRow + p.rows)

/-- The valid entries that cover a row: base die × 512 + entry numbers the list. -/
def State.permsAt (s : State) (rank row : Nat) : List Perm :=
  (s.perms.filterMap (fun e =>
    if (permOf e.2).covers (e.1 / 512) rank row then some (permOf e.2) else none))

/-- R307: a row activation passes when an entry of the VD has the right. -/
def State.permits (s : State) (vd rank row : Nat) (right : Perm → Bool) : Bool :=
  (s.permsAt rank row).any (fun p => p.vd == vd && right p)

/-! ### Bytes of a bank -/

def Place.key (p : Place) : Nat := (p.rank * 65536 + p.row) * 1024 + p.byte

/-- The physical row of a logical row (R248). -/
def Rank.phys (k : Rank) (row : Nat) : Nat := (lookup row k.remap).getD row

/-- The physical row that an access with a stamp sees: one that the first keystone after the stamp has replaced, else the one mapped
now (R254, R371). -/
def Rank.physAt (k : Rank) (row : Nat) (stamp : Option Nat) : Nat :=
  match stamp.bind (fun t => k.old.find? (fun o => o.row == row && decide (t < o.at_))) with
  | some o => o.phys
  | none => k.phys row

/-- The key of a cell of a physical row. -/
def cellKey (rank phys byte : Nat) : Nat := (rank * 65536 + phys) * 1024 + byte

/-- The number of the key draw under which a row of a bank is read and written now: that of the slot its permission entry names, 0
where there is none (R306). -/
def State.drawAt (s : State) (rank row : Nat) : Nat :=
  match (s.permsAt rank row).head? with
  | some p => (lookup p.key (s.vd p.vd).keys).getD 0
  | none => 0

/-- A cell read under a key: its content, or a free value when its column word was encrypted under another key (R306). -/
def State.cell (s : State) (draw key : Nat) : Byte :=
  match lookup (key / 32) s.draws with
  | none => Memory.read s.mem key
  | some d => if d = draw then Memory.read s.mem key
    else Config.otherKey key d draw (ofBytes (Memory.readN s.mem (key / 16 * 16) 16))

/-- A cell written under a key; the rest of its column word is encrypted anew as it reads under that key. -/
def State.poke (s : State) (draw key : Nat) (b : Byte) : State :=
  let known : Bool := (lookup (key / 32) s.draws).all (· == draw)
  let m := if known then s.mem
    else Memory.writeN s.mem (key / 32 * 32) ((List.range 32).map (fun i => s.cell draw (key / 32 * 32 + i)))
  { s with mem := Memory.write m key b, draws := if known && draw == 0 then s.draws else put (key / 32) draw s.draws }

/-- The byte as the bank holds it, no held write over it. -/
def State.bankByte (s : State) (p : Place) : Byte :=
  s.cell (s.drawAt p.rank p.row) (cellKey p.rank ((s.rank p.rank).phys p.row) p.byte)

/-- A byte of the row as the bank holds it, written. -/
def State.pokeByte (s : State) (p : Place) (b : Byte) : State :=
  s.poke (s.drawAt p.rank p.row) (cellKey p.rank ((s.rank p.rank).phys p.row) p.byte) b

/-- The youngest held write to a byte of a bank (R255). -/
def Rank.heldByte (k : Rank) (at_ : Nat) : Option Byte :=
  k.held.foldl (fun acc h => if h.at_ ≤ at_ ∧ at_ < h.at_ + h.data.length then h.data[at_ - h.at_]? else acc) none

/-- What an outside read of a byte returns (R254): a held write, else the row as mapped now. -/
def State.readByte (s : State) (p : Place) : Byte :=
  ((s.rank p.rank).heldByte (p.row * 1024 + p.byte)).getD (s.bankByte p)

/-- What an outside read with a stamp returns (R254, R371). -/
def State.readAt (s : State) (stamp : Option Nat) (p : Place) : Byte :=
  ((s.rank p.rank).heldByte (p.row * 1024 + p.byte)).getD
    (s.cell (s.drawAt p.rank p.row) (cellKey p.rank ((s.rank p.rank).physAt p.row stamp) p.byte))

/-- The row is in the footprint of an open course (R255). -/
def State.inFootprint (s : State) (rank row : Nat) : Bool :=
  s.courses.any (fun c => c.opened && !c.flipped && c.foot.contains (rank, row))

/-- Runs of bytes that follow one another in one line of 64 bytes of a row. -/
def runsOf : List (Place × Byte) → List (Place × List Byte)
  | [] => []
  | (p, b) :: r =>
    match runsOf r with
    | (q, bs) :: rest =>
      if q.rank = p.rank ∧ q.row = p.row ∧ q.byte = p.byte + 1 ∧ q.byte % 64 ≠ 0 then (p, b :: bs) :: rest
      else (p, [b]) :: (q, bs) :: rest
    | [] => [(p, [b])]

/-- The column word that holds a byte of a row, as badWords numbers it: by the physical row that is read (R342). -/
def State.wordAt (s : State) (stamp : Option Nat) (p : Place) : Nat :=
  cellKey p.rank ((s.rank p.rank).physAt p.row stamp) p.byte / 32

/-- A read of these bytes with a stamp meets a column word that fails its code (R342); a held write needs no read of the bank. -/
def State.failsAt (s : State) (stamp : Option Nat) (ps : List Place) : Bool :=
  !s.badWords.isEmpty && ps.any (fun p => s.badWords.contains (s.wordAt stamp p) &&
    ((s.rank p.rank).heldByte (p.row * 1024 + p.byte)).isNone)

/-- A read of these bytes now fails (R342). -/
def State.fails (s : State) (ps : List Place) : Bool := s.failsAt none ps

/-- Column words that hold these bytes and fail their code, and are written only in part (R342). -/
def State.partOfBad (s : State) (ps : List Place) : Bool :=
  !s.badWords.isEmpty && ps.any (fun p => s.badWords.contains (s.wordAt none p) && !s.inFootprint p.rank p.row &&
    !((List.range 32).all (fun i => (ps.map Place.key).contains (p.key / 32 * 32 + i))))

/-- The context waits in a WAITA for one of these lines: it reads its word again (R107). -/
def Context.reread (lines : List Nat) (m : Context) : Context :=
  match m.wait with
  | some (.waita l) => if lines.contains l then { m with wait := none } else m
  | _ => m

/-- Lines of 64 bytes have been written: contexts that wait in WAITA for one look again (R107, R333), and a VD in vigil that watches one
is woken (R338). -/
def State.wakeLines (s : State) (lines : List Nat) : State :=
  { s with
    cores := s.cores.map (fun e => (e.1, { e.2 with ctxs := e.2.ctxs.map (Context.reread lines) }))
    vds := s.vds.map (fun e =>
      if (e.2.state == .vigil || e.2.state == .stoppedVigil) && e.2.watches.any (fun w => lines.contains w.line)
      then (e.1, { e.2 with woken := true }) else e) }

/-- Copies of lines of the bank leave every L1 data cache (R217), but for the one that the store itself has hit, by the core of its L1;
an update-only line is no copy and waits for its merge (R148). -/
def State.dropLines (s : State) (keys : List Nat) (keep : Option (Nat × L1Line)) : State :=
  if keys.isEmpty then s
  else { s with cores := s.cores.map (fun e =>
      (e.1, { e.2 with l1 := e.2.l1.filter (fun l => l.upd.isSome || !keys.contains l.key || keep == some (e.1, l)) })) }

/-- Bytes of one line of a bank are written by an outside access: held in a footprint row of an open course (R255), else in the row. -/
def State.writeRun (s : State) (run : Place × List Byte) : State :=
  if s.inFootprint run.1.rank run.1.row then
    s.updRank run.1.rank (fun k => { k with held := k.held ++ [⟨run.1.row * 1024 + run.1.byte, run.2⟩] })
  else run.2.zipIdx.foldl (fun s bi => s.pokeByte { run.1 with byte := run.1.byte + bi.2 } bi.1) s

/-- Column words of the rows that are written whole are sound again (R342): by the cells that a write has reached. -/
def State.soundAgain (s : State) (cells : List Nat) : State :=
  if s.badWords.isEmpty then s
  else { s with badWords := s.badWords.filter (fun w =>
    s.deadRows.contains (w / 32) || !((List.range 32).all (fun i => cells.contains (w * 32 + i)))) }

/-- What follows a write of bytes at their places: watched lines wake a VD (R338), column words that the write has reached whole are sound
(R342), and copies that caches hold of the lines are gone (R217), but those of course-locked lines, which the write updates (R257,
R270). `row` gives the physical row that was written. -/
def State.wrote (s : State) (ps : List Place) (keep : Option (Nat × L1Line)) (row : Place → Nat) : State :=
  let now := ps.filter (fun p => !s.inFootprint p.rank p.row)
  ((s.soundAgain (now.map (fun p => cellKey p.rank (row p) p.byte))).wakeLines (ps.map (fun p => p.key / 64))).dropLines
    (now.map (fun p => p.key / 64)) keep

/-- An outside write of bytes at their places, performed now. -/
def State.writePlaces (s : State) (ps : List (Place × Byte)) (keep : Option (Nat × L1Line) := none) : State :=
  ((runsOf ps).foldl (fun s run => s.writeRun run) s).wrote (ps.map (·.1)) keep (fun p => (s.rank p.rank).phys p.row)

/-- Instructions of the VD may issue at a ring time, and its nodes, courses and commands start: it runs, or is to stop and Te has not come
(R313); after a RESET its requests have drained (R316). -/
def Vd.issuing (v : Vd) (ring : Nat) : Bool :=
  (v.state == .running || v.state == .stopping) && v.te.all (fun t => decide (ring < t)) && !v.draining

/-! ### The front end of a bank (R258, R259, R371) -/

/-- A built-in course instruction of the rank has source rows to read or mortar rows to write (R259). -/
def Rank.traffic (k : Rank) : Bool := k.reads != 0 || k.writes != 0

/-- A rank holds its bank: outside accesses wait for a window (R259, R371). A wait in OVSW does not leave the bank (R194), and a course
instruction holds it during its own traffic (R259). -/
def Rank.holdsBank (k : Rank) : Bool :=
  (k.state == .running && k.run.isSome && (k.wait.all (· == .overlay) || k.traffic)) || k.state == .suspended

/-- The row was written at a keystone whose invalidation is not complete: its front end holds every access stamped at or after T
back (R258). -/
def State.blocked (s : State) (rank row : Nat) (stamp : Option Nat) : Bool :=
  s.courses.any (fun c => c.flipped && c.staged.any (fun b => b.1 / 1024 == rank * 65536 + row) &&
    (match c.keystone, stamp with
      | some t, some x => decide (t ≤ x)
      | _, _ => true))

/-- The kinds of outside accesses that differ in what they wait for. -/
def BankOp.reads : BankOp → Bool
  | .write _ => false
  | _ => true
def BankOp.writes : BankOp → Bool
  | .read | .window => false
  | _ => true

/-- A write to the row goes to the hold buffer, and needs no bank (R255). -/
def State.holds (s : State) (op : BankOp) (rank row : Nat) : Bool := op.writes && s.inFootprint rank row

/-- The update-only lines of these lines of a bank, by core (R148). -/
def State.updatesOf (s : State) (keys : List Nat) : List (Nat × L1Line) :=
  s.cores.flatMap (fun e => (e.2.l1.filter (fun l => l.upd.isSome && keys.contains l.key)).map (fun l => (e.1, l)))

/-- Contributions that an access to the line recalls (R148). -/
def State.recalls (s : State) (p : Place) : Nat :=
  ((s.updatesOf [p.key / 64]).map (fun e => (e.2.upd.map (fun u => u.words.length)).getD 0)).sum

/-- R256: the hold buffer has no room for what the access, with the contributions that it recalls, would have held there. -/
def State.holdFull (s : State) (op : BankOp) (p : Place) : Bool :=
  s.inFootprint p.rank p.row &&
    (let n := s.recalls p + (if op.writes then 1 else 0)
     decide (0 < n) && decide (64 < (s.rank p.rank).held.length + n))

/-- An earlier request that writes waits for the same line of 64 bytes: later ones to the line stay behind it, as they come to its home
in order (R146, R228). -/
def Rank.lineBusy (pending : List OutsideReq) (row col : Nat) : Bool :=
  pending.any (fun q => q.op.writes && q.row == row && q.col / 64 == col / 64)

/-- The bank does not serve the access now: its rank holds it (in `window`, an arbitration window that is open counts as free), the row is
held back after a keystone (R258), the hold buffer is full (R256), or an earlier write waits for the line. A write that R255 holds
needs no bank (R270). -/
def State.shut (s : State) (window : Bool) (op : BankOp) (p : Place) : Bool :=
  let k := s.rank p.rank
  s.holdFull op p || Rank.lineBusy k.pending p.row p.byte ||
    ((op.reads || !s.holds op p.rank p.row) && ((k.holdsBank && !(window && k.state == .suspended)) || s.blocked p.rank p.row none))

/-- An access that arrives now has to wait at the bank. -/
def State.mustQueue (s : State) (op : BankOp) (p : Place) : Bool := s.shut false op p

/-- The bank does not serve an access that has not joined its queue. -/
def State.closed (s : State) (op : BankOp) (p : Place) : Bool := s.shut true op p

/-- An access to these places that arrives now has to wait at a bank. -/
def State.busy (s : State) (op : BankOp) (ps : List Place) : Bool := ps.any (fun p => s.mustQueue op p)

/-- An access joins the queue of a bank, stamped unless it waits for room in the hold buffer (R251, R256). -/
def State.post (s : State) (ident vd : Nat) (user : BankUser) (p : Place) (len : Nat) (op : BankOp) : State :=
  s.updRank p.rank (fun k => { k with pending := k.pending ++
    [⟨ident, vd, user, p.row, p.byte, len, op, if op.writes && s.holdFull op p then none else some s.ring, s.holds op p.rank p.row⟩] })

/-- A reader whose bytes lie in banks that ranks hold asks each of them for a window (R259). -/
def State.askWindow (s : State) (vd : Nat) (ps : List Place) : State :=
  ps.foldl (fun s p =>
    if (s.rank p.rank).holdsBank && !(s.rank p.rank).pending.any (fun q => q.op == .window) then s.post s.nextId vd .nobody p 0 .window
    else s) s

/-- R250: replaced rows that no waiting access names any more return to the mortar pool. -/
def Rank.freeOld (k : Rank) : Rank :=
  let needed (o : OldRow) : Bool := k.pending.any (fun q => q.row == o.row && q.stamp.any (fun t => decide (t < o.at_)))
  { k with freed := k.freed ++ (k.old.filter (fun o => !needed o)).map (·.phys), old := k.old.filter needed }

/-- The request has not been served. -/
def State.waiting (s : State) (ident : Nat) : Bool := s.ranks.any (fun e => e.2.pending.any (fun q => q.ident == ident))

/-- Runs of places within lines of 64 bytes, with their lengths. -/
def placeRuns (ps : List Place) : List (Place × Nat) := (runsOf (ps.map (fun p => (p, 0)))).map (fun r => (r.1, r.2.length))

/-- The numbers of a list, each once. -/
def dedup (l : List Nat) : List Nat := l.foldl (fun acc x => if acc.contains x then acc else acc ++ [x]) []

/-- A channel has 32 banks (R12). -/
def channelOf (rank : Nat) : Nat := rank / 32
def ranksOfChannel (ch : Nat) : List Nat := (List.range 32).map (ch * 32 + ·)

/-- The ranks of a channel reload their images; one whose VD is stopped stays spilled (R262, R263, R313). -/
def wakeChannel (ch : Nat) (s : State) : State :=
  (ranksOfChannel ch).foldl (fun s r =>
    if (s.rank r).state = .spilled ∧ (s.rank r).run.all (fun x => (s.vd x.vd).state == .running || (s.vd x.vd).state == .stopping) then
      s.updRank r (fun k => { k with state := .running, timer := 0 })
    else s)
    { s with asleep := s.asleep.filter (· != ch) }

/-- An outside access to a sleeping channel wakes it (R263). -/
def State.wakeBanks (s : State) (ps : List Place) : State :=
  if s.asleep = [] then s else (s.asleep.filter (fun ch => ps.any (fun p => channelOf p.rank == ch))).foldl (fun s ch => wakeChannel ch s) s

/-! ### Structures the device keeps in HBM in the name of VD 0 (R309) -/

/-- The place of a physical address of this package that no window of VD 0 covers: the model takes the map of an interleaved
window of all rows at the package's first address (R222; log 56). -/
def State.flatPlace (s : State) (pa : Nat) : Option Place :=
  if pa / 2 ^ 42 = s.pkg ∧ pa % 2 ^ 42 < 49152 * 8 * 2 ^ 20 then
    some (Win.place ⟨s.pkg * 2 ^ 42, 49152 * 8 * 2 ^ 20, 49152, 0, 0, 0, false, true, 0⟩ pa)
  else none

/-- The place of a byte of a device structure, in rows that VD 0's entries cover with R and W; no window needs to map it (R309). -/
def State.devPlace (s : State) (pa : Nat) : Option Place :=
  match (s.place 0 pa).or (s.flatPlace pa) with
  | none => none
  | some p => if s.permits 0 p.rank p.row (fun e => e.r && e.w) then some p else none

def State.devPlaces (s : State) (pa len : Nat) : Option (List Place) :=
  (List.range len).foldr (fun i acc => match acc, s.devPlace (pa + i) with
    | some ps, some p => some (p :: ps)
    | _, _ => none) (some [])

/-- One line of a write of the device: performed now, or it waits at its bank as request `ident` (R371) or behind contributions to the line
(R148); one that covers only part of a failing word is discarded (R342). -/
def State.devRun (ident : Nat) (s : State) (r : Place × List Byte) : State :=
  let ps := (List.range r.2.length).map (fun i => { r.1 with byte := r.1.byte + i })
  if s.mustQueue (.write r.2) r.1 || !(s.updatesOf [r.1.key / 64]).isEmpty then s.post ident 0 .nobody r.1 r.2.length (.write r.2)
  else if s.partOfBad ps then s
  else s.writePlaces (ps.zip r.2)

/-- A write of the device; bytes outside the rows that VD 0's entries give it are not written. -/
def State.devWrite (s : State) (pa : Nat) (bs : List Byte) : State :=
  let ws := bs.zipIdx.filterMap (fun bi => (s.devPlace (pa + bi.2)).map (fun p => (p, bi.1)))
  (runsOf ws).foldl (fun s r => s.devRun s.nextId r) { s.wakeBanks (ws.map (·.1)) with nextId := s.nextId + 1 }

/-- R311: a write of an identity to the VD's interrupt file; an IFILE that names no file of the application die drops it. Where the VD's
virtual function has MSI-X enabled, it raises vector identity mod 32 there (R354). -/
def State.interrupt (s : State) (vd : Nat) (ident : BitVec 32) : State :=
  if Config.namesFile (s.vd vd).desc.ifile = false then s
  else { s with
    ifile := s.ifile ++ [((s.vd vd).desc.ifile, ident)]
    vectors := if 1 ≤ vd ∧ s.msix.contains vd = true then s.vectors ++ [(vd, ident.toNat % 32)] else s.vectors }

/-- The next fault-ring entry of a VD takes 64 bytes (R295, R343); its physical address. -/
def State.ringEntry (s : State) (vd : Nat) (bs : List Byte) : State × Nat :=
  let v := s.vd vd
  let a := v.desc.fltring.toNat + 64 * (v.frpos % 2 ^ v.desc.frlog)
  ((s.devWrite a bs).updVd vd (fun v => { v with frpos := v.frpos + 1 }), a)

def mgmtBase : Nat := 0x3FFFFF00000

/-- R343, R355: an error record goes to the package log, its address there. -/
def State.logRecord (s : State) (bytes : List Byte) : State × W64 :=
  ({ s with errlog := (s.errlog ++ [bytes]).drop (s.errlog.length + 1 - 4096), errSeq := s.errSeq + 1 },
    BitVec.ofNat 64 (s.pkg * 2 ^ 42 + mgmtBase + 0x40000 + 64 * (s.errSeq % 4096)))

/-- R343: an error record goes to the package log; and, where a VD owns the data, to the fault ring of the VD, whose identity 2 is
raised. Its address. -/
def State.recordFor (s : State) (vd : Option Nat) (addr pc : W64) (source kind : Nat) (syndrome : Nat) (core ctx : Nat) : State × W64 :=
  let bytes := bytesOf 8 addr.toNat ++ bytesOf 8 pc.toNat ++ bytesOf 1 0x30 ++ bytesOf 1 source ++ bytesOf 1 kind ++
    bytesOf 1 0 ++ bytesOf 4 syndrome ++ bytesOf 8 s.errSeq ++ bytesOf 4 core ++ bytesOf 1 ctx ++ bytesOf 3 0 ++
    bytesOf 8 0 ++ bytesOf 8 s.ring ++ bytesOf 8 0
  match vd with
  | none => s.logRecord bytes
  | some v =>
    let (s1, a) := s.ringEntry v bytes
    (((s1.interrupt v 2).logRecord bytes).1, BitVec.ofNat 64 a)

def State.errorRecord (s : State) (vd : Nat) (addr pc : W64) (source kind : Nat) (syndrome : Nat) (core ctx : Nat) : State × W64 :=
  s.recordFor (some vd) addr pc source kind syndrome core ctx

/-- The VD that owns a row: that of the first valid permission entry that covers it, an entry of `vd` before the others (R307, R343). -/
def State.rowOwner (s : State) (vd rank row : Nat) : Option Nat :=
  let es := s.permsAt rank row
  if es.any (fun e => e.vd == vd) then some vd else es.head?.map (·.vd)

/-- An error record for a failing column word among these bytes, read or written in part in the name of a VD (R342, R343). -/
def State.wordRecord (s : State) (vd : Nat) (stamp : Option Nat) (ps : List Place) (pc : W64) (kind core ctx : Nat) : State × W64 :=
  let p := ((ps.find? (fun p => s.badWords.contains (s.wordAt stamp p))).or ps.head?).getD ⟨0, 0, 0⟩
  s.recordFor (s.rowOwner vd p.rank p.row) (s.addrOf vd { p with byte := p.byte / 32 * 32 }) pc 6 kind (Config.syndrome s.errSeq).toNat core ctx

end Sys2Proof.Machine
end

