-- ==== Sys2Proof/Machine/Mgmt.lean ====
section
/-! DEFINITION. The management window (R355): window and permission entries with their refusals (R221, R249, R307, R308), the
rank-enable maps (R249), the VD command word (R302) and the debug port's registers (R356). -/

namespace Sys2Proof.Machine

/-! ### Coverage of windows by permission entries (R308) -/

/-- Every row from lo to hi − 1 lies in one of the row intervals (first, count); `fuel` intervals are tried. -/
def coveredRows : Nat → List (Nat × Nat) → Nat → Nat → Bool
  | 0, _, lo, hi => decide (hi ≤ lo)
  | fuel + 1, es, lo, hi =>
    if hi ≤ lo then true
    else match es.find? (fun e => decide (e.1 ≤ lo) && decide (lo < e.1 + e.2)) with
      | some e => coveredRows fuel es (e.1 + e.2) hi
      | none => false

/-- Ranks a window uses. -/
def Win.ranks (w : Win) : List Nat := if w.banked then (List.range w.count).map (w.first + ·) else List.range 8192

/-- R308, first condition, for one window under a list of permission entries. -/
def windowCovered (perms : List (Nat × BitVec 128)) (vd : Nat) (w : Win) : Bool :=
  let ps := (perms.map (fun e => (e.1 / 512, permOf e.2))).filter (fun e =>
    e.2.valid && e.2.vd == vd && e.2.r && e.2.w && e.2.key == w.key)
  w.ranks.all (fun r =>
    let es := (ps.filter (fun e => r / 1024 == e.1 && decide (e.2.rfirst ≤ r % 1024) &&
      decide (r % 1024 < e.2.rfirst + e.2.rcount))).map (fun e => (e.2.firstRow, e.2.rows))
    coveredRows (es.length + 1) es w.firstRow (w.firstRow + w.rows))

def winMask : BitVec 128 := BitVec.ofNat 128 (2 ^ 120 - 1 - (2 ^ 55 - 2 ^ 52) - (2 ^ 16 - 1))
def permMask : BitVec 128 := BitVec.ofNat 128 (2 ^ 80 - 1 - (2 ^ 21 - 2 ^ 10))

/-- The last row a window may use in the banks it uses (R221, R249). -/
def State.rowLimit (s : State) (w : Win) : Nat := if w.ranks.any (fun r => (s.rank r).enabled) then 46080 else 49152

/-- R221, R308: what a window entry that is to be valid must satisfy. -/
def State.windowOk (s : State) (vd ix : Nat) (w : Win) : Bool :=
  decide (64 ≤ w.rows) && w.rows % 64 == 0 && (!w.banked || (decide (1 ≤ w.count) && decide (w.first + w.count ≤ 8192))) &&
    decide (w.firstRow + w.rows ≤ s.rowLimit w) && (lookup w.key (s.vd vd).keys).isSome &&
    ((s.vd vd).wins.all (fun e => e.1 == ix || !(winOf e.2).valid ||
      decide (w.base + w.size ≤ (winOf e.2).base) || decide ((winOf e.2).base + (winOf e.2).size ≤ w.base))) &&
    windowCovered s.perms vd w

/-- WINDOW_ENTRY_WRITE (R221, R308): a refused write leaves the entry as it was. -/
def State.writeWindow (s : State) (vd ix : Nat) (v : BitVec 128) : State :=
  let x := v &&& winMask
  if (winOf x).valid && !s.windowOk vd ix (winOf x) then s
  else s.updVd vd (fun d => { d with wins := put ix x d.wins })

/-- Two permission entries of one base die cover one row of one bank. -/
def Perm.meets (p q : Perm) : Bool :=
  overlap p.rfirst p.rcount q.rfirst q.rcount && overlap p.firstRow p.rows q.firstRow q.rows

/-- R249, R307, R308: what a permission entry that is to be valid must satisfy. -/
def State.permOk (s : State) (bd ix : Nat) (p : Perm) : Bool :=
  decide (1 ≤ p.rows) && decide (p.firstRow + p.rows ≤ 49152) && decide (1 ≤ p.rcount) && decide (p.rfirst + p.rcount ≤ 1024) &&
    (lookup p.key (s.vd p.vd).keys).isSome &&
    (!p.k || (List.range p.rcount).all (fun i => (s.rank (bd * 1024 + p.rfirst + i)).enabled)) &&
    s.perms.all (fun e => e.1 == bd * 512 + ix || e.1 / 512 != bd || !(permOf e.2).valid || !p.meets (permOf e.2) ||
      ((permOf e.2).vd == p.vd && (permOf e.2).key == p.key))

/-- No valid window loses its cover (R308). -/
def State.windowsCovered (s : State) (perms : List (Nat × BitVec 128)) : Bool :=
  s.vds.all (fun d => d.2.wins.all (fun e => !(winOf e.2).valid || windowCovered perms d.1 (winOf e.2)))

/-- PERMISSION_ENTRY_WRITE (R249, R307, R308). -/
def State.writePerm (s : State) (bd ix : Nat) (v : BitVec 128) : State :=
  let x := v &&& permMask
  let p := permOf x
  let perms := put (bd * 512 + ix) x s.perms
  if (p.valid && !s.permOk bd ix p) || !s.windowsCovered perms then s
  else { s with perms := perms }

/-- The entry of a base die covers some row of a bank from row lo on. -/
def State.permTouches (s : State) (rank lo : Nat) (p : Perm → Bool) : Bool :=
  s.perms.any (fun e => (permOf e.2).valid && p (permOf e.2) && e.1 / 512 == rank / 1024 &&
    decide ((permOf e.2).rfirst ≤ rank % 1024) && decide (rank % 1024 < (permOf e.2).rfirst + (permOf e.2).rcount) &&
    decide (lo < (permOf e.2).firstRow + (permOf e.2).rows))

def State.courseOpenAt (s : State) (rank : Nat) : Bool := s.courses.any (fun c => c.opened && !c.flipped && c.members.contains rank)

/-- R249: a bit may be cleared. -/
def State.mayDisable (s : State) (rank : Nat) : Bool :=
  !s.permTouches rank 0 (·.k) && !s.courseOpenAt rank &&
    ((s.rank rank).state == .idle)

/-- R249: a bit may be set. -/
def State.mayEnable (s : State) (rank : Nat) : Bool :=
  !s.permTouches rank 46080 (fun _ => true) &&
    !s.vds.any (fun d => d.2.wins.any (fun e => (winOf e.2).valid && (winOf e.2).ranks.contains rank &&
      decide (46080 < (winOf e.2).firstRow + (winOf e.2).rows)))

def insertSorted (x : Nat) : List Nat → List Nat
  | [] => [x]
  | y :: r => if x ≤ y then x :: y :: r else y :: insertSorted x r

def sortNat (l : List Nat) : List Nat := l.foldr insertSorted []

/-- The 3,072 physical rows that no logical row 0–46,079 maps to, in increasing order, for an enabled bank. -/
def Rank.spareRows (k : Rank) : List Nat :=
  sortNat (k.freed ++ k.old.map (·.phys) ++ (List.range (49150 - k.nextMortar)).map (k.nextMortar + ·) ++ [k.save.1, k.save.2])

/-- R249: a bank stops or starts being enabled for ranks. -/
def State.setEnable (s : State) (rank : Nat) (on : Bool) : State :=
  let k := s.rank rank
  if on == k.enabled then s
  else if on then
    let rows := sortNat ((List.range 3072).map (fun i => k.phys (46080 + i)))
    s.updRank rank (fun k => { k with
      enabled := true, remap := k.remap.filter (fun e => decide (e.1 < 46080)), freed := rows.take 3070, nextMortar := 49150
      save := (rows.getD 3070 49150, rows.getD 3071 49151) })
  else
    s.updRank rank (fun k => { k with
      enabled := false
      remap := k.spareRows.zipIdx.foldl (fun m x => put (46080 + x.2) x.1 m) k.remap
      freed := [], old := [], nextMortar := 49150 })

/-- RANK_ENABLE_MAP_WRITE (R249): the whole word is refused when one of its changes is. -/
def State.writeEnable (s : State) (bd w : Nat) (v : W64) : State :=
  let ranks := (List.range 64).map (fun i => (bd * 1024 + w * 64 + i, v.getLsbD i))
  if ranks.all (fun e => e.2 == (s.rank e.1).enabled || (if e.2 then s.mayEnable e.1 else s.mayDisable e.1)) then
    ranks.foldl (fun s e => s.setEnable e.1 e.2) s
  else s

/-! ### Registers of the window -/

/-- The core and context that a value of DSEL names (R356): context 15 stands for all. -/
def selCore (sel : W64) : Nat := bits sel.toNat 11 0
def selCtx (sel : W64) : Nat := bits sel.toNat 19 16
def Debug.core (d : Debug) : Nat := selCore d.dsel
def Debug.ctx (d : Debug) : Nat := selCtx d.dsel
def DebugCmd.core (d : DebugCmd) : Nat := selCore d.sel
def DebugCmd.ctx (d : DebugCmd) : Nat := selCtx d.sel

/-- The core that carries a curve number now (R299). -/
def State.route (s : State) (c : Nat) : Nat := (lookup c s.routes).getD c

/-- DSTAT (R356). -/
def State.dstat (s : State) : W64 :=
  let c := (s.core s.dport.core).ctx (if s.dport.ctx = 15 then 0 else s.dport.ctx)
  s.dport.code.zeroExtend 64 ||| (if c.attached then 0x100 else 0) ||| (if c.dhalt then 0x200 else 0) |||
    (c.reason.zeroExtend 64 <<< 16)

def half (v : BitVec 128) (hi : Bool) : W64 := if hi then v.extractLsb' 64 64 else v.extractLsb' 0 64

def withHalf (v : BitVec 128) (hi : Bool) (x : W64) : BitVec 128 :=
  if hi then x ++ v.extractLsb' 0 64 else v.extractLsb' 64 64 ++ x

/-- The 8-byte word of the window at an offset (R355); what no table names, and write-only words, read as zero. -/
def State.mgmtRead (s : State) (off : Nat) : W64 :=
  let o := off / 8 * 8
  if o = 8 then s.vdStat.zeroExtend 64
  else if 0x10000 ≤ o ∧ o < 0x20000 then
    half ((lookup ((o - 0x10000) / 0x2000 * 512 + (o - 0x10000) % 0x2000 / 16) s.perms).getD 0) (bit o 3)
  else if 0x20000 ≤ o ∧ o < 0x24000 then
    half ((lookup ((o - 0x20000) % 256 / 16) (s.vd ((o - 0x20000) / 256)).wins).getD 0) (bit o 3)
  else if o = 0x24000 then s.power
  else if 0x28000 ≤ o ∧ o < 0x28400 then
    let base := (o - 0x28000) / 128 * 1024 + (o - 0x28000) % 128 / 8 * 64
    (List.range 64).foldl (fun acc i => if (s.rank (base + i)).enabled then acc ||| (1 <<< i) else acc) 0
  else if o = 0x30000 then s.dport.dsel
  else if o = 0x30010 then s.dport.daddr
  else if o = 0x30018 then s.dport.ddata
  else if o = 0x30020 then s.dstat
  else if 0x30028 ≤ o ∧ o < 0x30048 then (s.core s.dport.core).watch[ptrIx ((o - 0x30028) / 8)]
  else if 0x40000 ≤ o ∧ o < 0x80000 then
    let slot := (o - 0x40000) / 64
    let first := s.errSeq - s.errlog.length
    match s.errlog.zipIdx.find? (fun e => (first + e.2) % 4096 == slot) with
    | some e => BitVec.ofNat 64 (ofBytes ((e.1.drop (o % 64)).take 8))
    | none => 0
  else 0

/-- The command in progress is a certain operation on a VD, and the device has begun it (R302). -/
def State.doing (s : State) (op vd : Nat) : Bool :=
  s.vdStat == 1 && s.vdBegun && bits s.vdCmd.toNat 7 0 == op && bits s.vdCmd.toNat 13 8 == vd

/-- A RESET of the VD whose STOP is in progress, which ends the stop (R314). -/
def State.endsStop (s : State) (v : W64) : Bool := bits v.toNat 7 0 == 4 && s.doing 2 (bits v.toNat 13 8)

/-- REGISTER_WRITE (R4, R302, R355, R356): an aligned 8-byte write to the window. Read-only and unnamed words ignore it. -/
def State.mgmtWrite (s : State) (off : Nat) (v : W64) : State :=
  let o := off / 8 * 8
  if o = 0 then
    if s.vdStat = 1 ∧ s.endsStop v = false then s
    else if bits v.toNat 15 14 ≠ 0 ∨ bits v.toNat 7 0 = 0 ∨ 7 < bits v.toNat 7 0 then { s with vdCmd := v, vdStat := 2 }
    else { s with vdCmd := v, vdStat := 1, vdBegun := false }
  else if 0x10000 ≤ o ∧ o < 0x20000 then
    let bd := (o - 0x10000) / 0x2000
    let e := (o - 0x10000) % 0x2000 / 16
    s.writePerm bd e (withHalf ((lookup (bd * 512 + e) s.perms).getD 0) (bit o 3) v)
  else if 0x20000 ≤ o ∧ o < 0x24000 then
    let vd := (o - 0x20000) / 256
    let w := (o - 0x20000) % 256 / 16
    s.writeWindow vd w (withHalf ((lookup w (s.vd vd).wins).getD 0) (bit o 3) v)
  else if 0x28000 ≤ o ∧ o < 0x28400 then s.writeEnable ((o - 0x28000) / 128) ((o - 0x28000) % 128 / 8) v
  else if o = 0x30000 then { s with dport := { s.dport with dsel := v &&& 0xF0FFF } }
  else if o = 0x30008 then
    if s.dport.code = 1 then s
    else if bits v.toNat 7 0 = 0 ∨ 7 < bits v.toNat 7 0 then { s with dport := { s.dport with cmd := none, code := 2 } }
    else { s with dport := { s.dport with cmd := some ⟨v.setWidth 8, s.dport.dsel, s.dport.daddr, s.dport.ddata⟩, code := 1 } }
  else if o = 0x30010 then { s with dport := { s.dport with daddr := v &&& 0x3FFFF } }
  else if o = 0x30018 then { s with dport := { s.dport with ddata := v } }
  else if 0x30028 ≤ o ∧ o < 0x30048 then
    s.updCore s.dport.core (fun k =>
      { k with watch := k.watch.set (ptrIx ((o - 0x30028) / 8)) (v &&& 0xF3FFFFFFFFFFFFFF) })
  else s

end Sys2Proof.Machine
end

