-- ==== Sys2Proof/Machine/Operands.lean ====
section
/-! DEFINITION. Every operand form of R60 to R63: reading values (R21 to R25), what holds an instruction back (R25, R29),
undersized reads (R30), the traps of operands (R24, R25), consuming a source, and delivering a result. -/

namespace Sys2Proof.Machine

/-- An operand as an instruction names it: code (R60), 64-bit words moved, and whether it names the vector belt (R22). -/
structure Opnd where
  code  : Nat
  words : Nat
  vec   : Bool
  deriving DecidableEq, Repr

def Opnd.int (c : BitVec 5) (parts : Nat := 1) : Opnd := ⟨c.toNat, parts, false⟩
def Opnd.vector (c : BitVec 5) (slots : Nat := 1) : Opnd := ⟨c.toNat, 2 * slots, true⟩

/-- A pointer position (R61): codes 28–31 name a0–a3 themselves. The model numbers them 32–35. -/
def Opnd.pointer (c : BitVec 5) : Opnd := ⟨c.toNat + 4, 1, false⟩

def Opnd.isAreg (o : Opnd) : Bool := decide (32 ≤ o.code) && decide (o.code ≤ 35)
/-- The integer b0 that R63 names outside the fields; the model numbers it 64. -/
def b0 : Opnd := ⟨64, 1, false⟩
/-- The 5-bit code of an operand. -/
def Opnd.fieldCode (o : Opnd) : Nat := if o.isAreg then o.code - 4 else o.code % 64
def Opnd.isPort (o : Opnd) : Bool := decide (24 ≤ o.code) && decide (o.code ≤ 27)
def Opnd.isPtr (o : Opnd) : Bool := decide (28 ≤ o.code) && decide (o.code ≤ 30)
def Opnd.isReg (o : Opnd) : Bool := decide (16 ≤ o.code) && decide (o.code ≤ 23)
def Opnd.isBelt (o : Opnd) : Bool := decide (o.code ≤ 15) || o.code == 64
/-- Belt slots an operand names: one word each on the integer belt, two on the vector belt. -/
def Opnd.slots (o : Opnd) : Nat := if o.vec then o.words / 2 else o.words

/-- Words that the operands of a list take from port p. -/
def portWords (os : List Opnd) (c : Nat) : Nat := ((os.filter (fun o => o.code == c)).map (·.words)).sum

/-- Uses of a pointer among the operands of a list. -/
def uses (os : List Opnd) (c : Nat) : Nat := (os.filter (fun o => o.code == c)).length

/-! ### Values -/

def Context.intSlot (c : Context) (i : Nat) : Cell W64 := c.belt.getD i (Cell.zero 64)
def Context.vecSlot (c : Context) (i : Nat) : Cell W128 := c.vbelt.getD i (Cell.zero 128)
def Context.reg (c : Context) (j : Nat) : Cell W64 := c.n[regIx j]
def Context.ptr (c : Context) (j : Nat) : Cell W64 := c.a[ptrIx j]

/-- The fat pointer after `u` advances (R24). -/
def advanced (p : W64) (stride : BitVec 32) (u : Nat) : W64 :=
  (p &&& 0xFF80000000000000) ||| va55 (p + BitVec.ofNat 64 u * stride.signExtend 64)

/-- Pointer a(code − 28) as the use after `u` earlier ones finds it. -/
def State.ptrAt (s : State) (code u : Nat) : W64 :=
  advanced ((s.me.ptr (code - 28)).read s.now) s.me.as[ptrIx (code - 28)] u

def ptrOff (p : W64) : Nat := bits p.toNat 16 0

/-- The value of an operand that follows the operands `before` (R60): its 64-bit words, lowest first. -/
def State.value (s : State) (before : List Opnd) (o : Opnd) : List W64 :=
  let c := s.me
  if o.isBelt then
    if o.vec then (List.range (o.words / 2)).flatMap (fun k => ofV ((c.vecSlot (o.code % 64 + k)).read s.now))
    else (List.range o.words).map (fun k => (c.intSlot (o.code % 64 + k)).read s.now)
  else if o.isReg then (List.range o.words).map (fun k => (c.reg (o.code - 16 + k)).read s.now)
  else if o.isPort then
    ((c.ports[ptrIx (o.code - 24)].queue.drop (portWords before o.code)).take o.words)
  else if o.isAreg then [(c.ptr (o.code - 32)).read s.now]
  else if o.isPtr then
    wordsOf o.words (ofBytes (s.spmRead s.cur.core (ptrOff (s.ptrAt o.code (uses before o.code))) (8 * o.words)))
  else List.replicate o.words 0

/-- The values of a list of sources, in order. -/
def State.valuesFrom (s : State) : List Opnd → List Opnd → List (List W64)
  | _, [] => []
  | before, o :: r => s.value before o :: s.valuesFrom (before ++ [o]) r

def State.values (s : State) (os : List Opnd) : List (List W64) := s.valuesFrom [] os

/-! ### Readiness (R25, R29) and undersized reads (R30) -/

/-- The integer cells an operand reads: belt slots, named registers, or the pointer register it goes through. -/
def State.intCells (s : State) (o : Opnd) : List (Cell W64) :=
  if o.isBelt then (if o.vec then [] else (List.range o.words).map (fun k => s.me.intSlot (o.code % 64 + k)))
  else if o.isReg then (List.range o.words).map (fun k => s.me.reg (o.code - 16 + k))
  else if o.isPtr then [s.me.ptr (o.code - 28)]
  else if o.isAreg then [s.me.ptr (o.code - 32)]
  else []

def State.vecCells (s : State) (o : Opnd) : List (Cell W128) :=
  if o.isBelt && o.vec then (List.range (o.words / 2)).map (fun k => s.me.vecSlot (o.code % 64 + k)) else []

/-- The parts of a target, none of which has parts. -/
def Target.leaves : Target → List Target
  | .two _ a b => a.leaves ++ b.leaves
  | t => [t]

/-- Two leaves have a byte in common. -/
def Target.shares : Target → Target → Bool
  | .home ps, .home qs => ps.any (fun p => qs.contains p)
  | .mgmt a n, .mgmt b m => overlap a n b m
  | .remote _ a n, .remote _ b m => overlap a n b m
  | .spm c a n, .spm d b m => c == d && overlap a n b m
  | _, _ => false

/-- Two accesses have a byte in common, whatever their virtual addresses. -/
def Target.overlaps (t u : Target) : Bool := t.leaves.any (fun a => u.leaves.any (fun b => a.shares b))

/-- Writes to scratchpad bytes through pointers that an access of the context to these bytes comes after: those of interlocked producers
(R29), and every one of the context itself (R136). -/
def State.dueBefore (s : State) (t : Target) : List Nat :=
  t.leaves.flatMap (fun u => match u with
    | .spm c off len => ((s.core c).spmDue.filter (fun w =>
        (w.due.isNone || (c == s.cur.core && w.ctx == s.cur.ctx.val)) && overlap w.off w.data.length off len)).map (·.tag)
    | _ => [])

/-- R136: the accesses of the context that a new access to these bytes comes after, and that are not performed: acquires, and those to
one of its bytes. -/
def State.before (s : State) (t : Target) : List Nat :=
  (s.me.loads.filter (fun l => l.acq || l.target.overlaps t)).map (·.tag) ++
    (s.me.parked.filter (fun p => p.target.overlaps t)).map (·.id) ++ s.dueBefore t

/-- An access to these bytes of a scratchpad comes after another of the context, or of an interlocked producer. -/
def State.spmAwaited (s : State) (c off len : Nat) : Bool := !(s.before (.spm c off len)).isEmpty

/-- R29: a cell, or scratchpad bytes that one of the uses of a pointer names, await an interlocked producer. DEDUCED (log 68): an access
through a pointer is one of the context, so it waits for an earlier acquire and for earlier accesses to its bytes (R136). -/
def State.interlocked (s : State) (o : Opnd) : Bool :=
  (s.intCells o).any (·.interlocked s.now) || (s.vecCells o).any (·.interlocked s.now) ||
    (o.isPtr && (List.range 3).any (fun u => s.spmAwaited s.cur.core (ptrOff (s.ptrAt o.code u)) (8 * o.words)))

def State.undersized (s : State) (o : Opnd) : Bool :=
  (s.intCells o).any (·.undersized s.now) || (s.vecCells o).any (·.undersized s.now)

/-- An uncorrectable error was delivered in place of the value of one of these cells (R342). -/
def State.poisoned (s : State) (o : Opnd) : Option W64 :=
  (s.me.poison.find? (fun p => (s.intCells o).any (·.waitsFor p.1) || (s.vecCells o).any (·.waitsFor p.1))).map (·.2)

/-- Words to an origin curve number are diverted: the core that carries it is pre-empted, stopped or asleep, or its image stands in the
save area still (R297, R300, R319). -/
def State.diverts (s : State) (origin : Nat) : Bool :=
  let k := s.core ((lookup origin s.routes).getD origin)
  (k.mode != .running && k.mode != .retired) || (lookup origin (s.vd k.vd).saved).isSome

/-- Words of room in the arrival queue of a port's partner (R153, R226), the words on their way counted; a partner that
is not bound always has room, and a diverted core has the room of its spill queue (R300). -/
def State.roomAt (s : State) (d : PortDest) : Nat :=
  let c := (lookup d.core s.routes).getD d.core
  let k := s.core c
  let flying := ((s.inflight.filter (fun m => decide (m.dst = d))).map (·.words.length)).sum
  let toCore := ((s.inflight.filter (fun m => m.dst.core == d.core)).map (·.words.length)).sum
  if s.diverts d.core then 8192 - toCore - ((((lookup d.core (s.vd k.vd).spill).getD []).map (·.words.length)).sum)
  else
    let p := (k.ctx d.ctx).ports[ptrIx d.port]
    if p.dest.isNone then 16 else 16 - p.queue.length - flying

/-- Writes of the context through pointers that are still to come (R29). -/
def Core.duesOf (k : Core) (x : Nat) : List Nat := (k.spmDue.filter (fun w => w.ctx == x)).map (·.tag)

/-- Contributions that have left the L1 of a core and wait at their banks (R148, R371). -/
def State.merging (s : State) (c : Nat) : List Nat :=
  s.ranks.flatMap (fun e => (e.2.pending.filter (fun q => q.user == .merge c)).map (·.ident))

/-- Accesses of a context that are sent or to come. -/
def Context.clear (c : Context) : Bool := c.remote.isEmpty && c.parked.isEmpty && c.loads.isEmpty

/-- No earlier access of a context is unperformed at DOMAIN scope (R136): remote ones acknowledged and answered, none parked, none
through a pointer to come (R29), and no contribution on its way (R148). -/
def State.clearOf (s : State) (c x : Nat) : Bool :=
  (s.ctx c x).clear && ((s.core c).duesOf x).isEmpty && (s.merging c).isEmpty

def State.releasable (s : State) : Bool := s.clearOf s.cur.core s.cur.ctx.val

/-- R153: the context's send goes before every other send that waits for the same queue. -/
def State.sendFirst (s : State) (d : PortDest) : Bool :=
  match s.sendq.find? (fun w => w.dst == d) with
  | none => true
  | some w => w.core == s.cur.core && w.ctx == s.cur.ctx.val

/-- What holds an instruction with these operands back. -/
def State.waitOf (s : State) (srcs : List Opnd) (dst : Option Opnd) : Option WaitReason :=
  match srcs.find? (fun o => s.interlocked o && (s.poisoned o).isNone) with
  | some _ => some .interlock
  | none =>
    match srcs.find? (fun o => o.isPort && s.me.ports[ptrIx (o.code - 24)].dest.isSome &&
        decide (s.me.ports[ptrIx (o.code - 24)].queue.length < portWords srcs o.code)) with
    | some o => some (.port (o.code - 24))
    | none =>
      match dst with
      | none => none
      | some d =>
        if d.isPtr && s.interlocked d then some .interlock
        else if d.isPort then
          match s.me.ports[ptrIx (d.code - 24)].dest with
          | some p =>
            if s.roomAt p < d.words || !s.sendFirst p then some .room
            else if s.me.mode.getLsbD 5 && !s.releasable then some .remote
            else none
          | none => none
        else none

/-- The first undersized operand in the order A, B, D, and the b0 of R63 last (R30). -/
def State.undersizedCode (s : State) (srcs : List Opnd) (dst : Option Opnd) : Option Nat :=
  if s.me.mode.getLsbD 3 then
    ((srcs.filter (· != b0) ++ (dst.filter (·.isPtr)).toList ++ srcs.filter (· == b0)).find? (fun o => s.undersized o)).map (·.fieldCode)
  else none

/-! ### Traps of operands (R74 step 5) -/

/-- A trap that depends on values: its place in the order of R74 step 5, its cause and $tval. DESIGN CHOICE (log 65): an ILL that
depends on a value comes last for every instruction, as R74 says of SBIND's. -/
structure Cand where
  rank  : Nat
  cause : Nat
  tval  : W64
  deriving DecidableEq, Repr

namespace Cand
def format (t : W64) : Cand := ⟨0, Cause.ill, t⟩
def porterr (t : W64) : Cand := ⟨1, Cause.porterr, t⟩
def align (t : W64) : Cand := ⟨2, Cause.align, t⟩
def spmrange (t : W64) : Cand := ⟨3, Cause.spmrange, t⟩
def handle (t : W64) : Cand := ⟨4, Cause.handle, t⟩
def zstale (t : W64) : Cand := ⟨5, Cause.zstale, t⟩
def grperr (t : W64) : Cand := ⟨7, Cause.grperr, t⟩
def ill (t : W64) : Cand := ⟨9, Cause.ill, t⟩
end Cand

/-- The first of the candidates in the order of R74 step 5. -/
def firstCand (cs : List Cand) : Option Cand :=
  cs.foldl (fun best c => match best with
    | none => some c
    | some b => if c.rank < b.rank then some c else some b) none

/-- What an operand that follows `before` can raise by itself (R24, R25). DESIGN CHOICE (log 59): LDV and STV of 32 or 64 bytes through
a pointer need an offset that is a multiple of the whole. -/
def State.opCands (s : State) (before : List Opnd) (o : Opnd) : List Cand :=
  if o.isPort then
    if s.me.ports[ptrIx (o.code - 24)].dest.isNone then [Cand.porterr (BitVec.ofNat 64 o.code)] else []
  else if o.isPtr then
    let p := s.ptrAt o.code (uses before o.code)
    let size := 8 * o.words
    if ptrOff p % size ≠ 0 then [Cand.align (va55 p)]
    else if spmSize < ptrOff p + size then [Cand.spmrange (va55 p)]
    else []
  else []

def State.opCandsFrom (s : State) : List Opnd → List Opnd → List Cand
  | _, [] => []
  | before, o :: r => s.opCands before o ++ s.opCandsFrom (before ++ [o]) r

/-- R153: a send that finds no room takes its place among those that wait for the queue. -/
def State.queueSend (s : State) (dst : Option Opnd) : State :=
  match dst.bind (fun d => s.me.ports[ptrIx (d.code - 24)].dest) with
  | none => s
  | some d =>
    if s.sendq.any (fun w => w.core == s.cur.core && w.ctx == s.cur.ctx.val) then s
    else { s with sendq := s.sendq ++ [⟨d, s.cur.core, s.cur.ctx.val⟩] }

/-- Everything that can hold the instruction back or trap it before it has an effect: first the waits of R25 and R29,
then a poisoned operand (R342), then UNDERSTALL, then the traps that depend on values, `own` among them. -/
def ready (srcs : List Opnd) (dst : Option Opnd) (own : State → List Cand) : M Unit := fun s =>
  match s.waitOf srcs dst with
  | some r => if r = .room then .error (.keepWait (s.queueSend dst) .room) else .error (.wait r)
  | none =>
    match (srcs.filterMap s.poisoned).head? with
    | some a => .error (.trap Cause.mchk a)
    | none =>
      match s.undersizedCode srcs dst with
      | some c => .error (.trap Cause.understall (BitVec.ofNat 64 c))
      | none =>
        match firstCand (s.opCandsFrom [] (srcs ++ dst.toList) ++ own s) with
        | some c => .error (.trap c.cause c.tval)
        | none => .ok ((), s)

/-- The offset of the first pointer operand whose scratchpad bytes fail their code (R342). -/
def State.badOperand (s : State) : List Opnd → List Opnd → Option Nat
  | _, [] => none
  | before, o :: r =>
    let off := ptrOff (s.ptrAt o.code (uses before o.code))
    if o.isPtr && s.here.bad.any (fun w => decide (8 * w < off + 8 * o.words) && decide (off < 8 * w + 8)) then some off
    else s.badOperand (before ++ [o]) r

/-- The record of an error in the own scratchpad (R343). -/
def spmRecord (off kind : Nat) (s : State) : State × W64 :=
  s.errorRecord s.here.vd (BitVec.ofNat 64 (0x800000 + off)) s.me.pc 1 kind (Config.syndrome s.errSeq).toNat s.cur.core
    s.cur.ctx.val

/-- `ready`; and a pointer operand that meets an uncorrectable error makes the instruction take MCHK (R342, log 13). -/
def prepare (srcs : List Opnd) (dst : Option Opnd) (own : State → List Cand) : M Unit := fun s =>
  match ready srcs dst own s with
  | .error e => .error e
  | .ok _ =>
    match s.badOperand [] srcs with
    | none => .ok ((), s)
    | some off => .error (.keepTrap (spmRecord off 0 s).1 Cause.mchk (spmRecord off 0 s).2)

/-! ### Effects of naming a source -/

/-- A pointer advances by its stride at issue (R24). -/
def advancePtr (k : Nat) (s : State) : State :=
  s.updMe (fun c => { c with
    a := c.a.set (ptrIx k) (Cell.write s.now ⟨advanced ((c.ptr k).read s.now) c.as[ptrIx k] 1, some s.now, false, 0⟩
      (c.ptr k)) })

def consume1 (o : Opnd) (s : State) : State :=
  if o.isPort then
    s.updMe (fun c => { c with
      ports := c.ports.set (ptrIx (o.code - 24))
        { c.ports[ptrIx (o.code - 24)] with queue := c.ports[ptrIx (o.code - 24)].queue.drop o.words } })
  else if o.isPtr then
    advancePtr (o.code - 28) (touch (ptrOff (s.ptrAt o.code 0)) (8 * o.words) s)
  else s

/-- Ports pop and pointers advance, in operand order (R24, R25). -/
def consume (srcs : List Opnd) (s : State) : State := srcs.foldl (fun s o => consume1 o s) s

/-! ### Delivering a result -/

/-- When a result is ready: in a given cycle with fixed latency, at once (an interlocked producer that has its value),
or when producer `tag` delivers. -/
inductive Ready where
  | fixed (due : Nat)
  | now
  | later (tag : Nat)
  deriving DecidableEq, Repr

def Ready.pending {α : Type} (r : Ready) (t : Nat) (v : α) : Pending α :=
  match r with
  | .fixed d => ⟨v, some d, true, 0⟩
  | .now => ⟨v, some t, false, 0⟩
  | .later part => ⟨v, none, false, part⟩

/-- When part k of the result is ready: an interlocked producer tags its parts one by one. -/
def Ready.nth (r : Ready) (k : Nat) : Ready :=
  match r with
  | .later tag => .later (partTag tag k)
  | r => r

/-- R21: every slot ages by one, a new slot becomes b0 and the oldest becomes the tail. -/
def pushInt (r : Ready) (v : W64) (s : State) : State :=
  s.updMe (fun c => { c with
    btail := c.intSlot 15
    belt := Cell.write s.now (r.pending s.now v) (Cell.zero 64) :: c.belt.take 15 })

def pushVec (r : Ready) (v : W128) (s : State) : State :=
  s.updMe (fun c => { c with
    vtail := c.vecSlot 15
    vbelt := Cell.write s.now (r.pending s.now v) (Cell.zero 128) :: c.vbelt.take 15 })

def writeReg (r : Ready) (j : Nat) (v : W64) (s : State) : State :=
  s.updMe (fun c => { c with n := c.n.set (regIx j) (Cell.write s.now (r.pending s.now v) (c.reg j)) })

def writePtr (r : Ready) (j : Nat) (v : W64) (s : State) : State :=
  s.updMe (fun c => { c with a := c.a.set (ptrIx j) (Cell.write s.now (r.pending s.now v) (c.ptr j)) })

/-- The node a core runs or, pre-empted, ran (R281, R299). -/
def State.nodeAt (s : State) (d : PortDest) : Option NodeRef :=
  let c := (lookup d.core s.routes).getD d.core
  match (s.core c).mode with
  | .running | .asleep => (s.core c).node
  | _ => lookup d.core (s.vd (s.core c).vd).savedNode

/-- R281: a word to the partner counts as a message of the core's node when both serve it. -/
def State.countedFor (s : State) (d : PortDest) : Option NodeRef :=
  if s.here.node.isSome && s.nodeAt d == s.here.node then s.here.node else none

/-- A message leaves the core (R153). -/
def State.countSent (s : State) (n : Option NodeRef) : State :=
  if n.isSome then s.updHere (fun k => { k with sent := k.sent + 1 }) else s

/-- R153, R281: words leave the core for the partner's arrival queue; those of an interlocked producer leave when it delivers, and
later sends of the port stay behind them. -/
def sendWords (p : Nat) (r : Ready) (ws : List W64) (s : State) : State :=
  match s.me.ports[ptrIx p].dest with
  | none => s
  | some d =>
    let from_ := (s.here.origin, s.cur.ctx.val)
    match r with
    | .later tag => { s with inflight := s.inflight ++ [⟨d, from_, p, none, ws, some tag, false⟩] }
    | _ => State.countSent { s with inflight := s.inflight ++ [⟨d, from_, p, s.countedFor d, ws, none, false⟩] } (s.countedFor d)

/-- Words of a result numbered k, k + 1, … into named registers j + k, … -/
def writeRegs (r : Ready) (j k : Nat) : List W64 → State → State
  | [], s => s
  | w :: ws, s => writeRegs r (j + 1) (k + 1) ws (writeReg (r.nth k) j w s)

/-- A result through a pointer (R29): written at once, in the cycle it is ready, or when its producer delivers. -/
def writeThrough (r : Ready) (off : Nat) (bs : List Byte) (s : State) : State :=
  match r with
  | .now => s.spmWrite s.cur.core off bs
  | .fixed d => { s.updHere (fun k => { k with spmDue := k.spmDue ++ [⟨s.cur.ctx.val, off, bs, some d, s.nextId⟩] }) with
      nextId := s.nextId + 1 }
  | .later tag => s.updHere (fun k => { k with spmDue := k.spmDue ++ [⟨s.cur.ctx.val, off, bs, none, tag⟩] })

/-- R60: a result goes to its destination. Parts are pushed so that part k ends in bk (R23). -/
def deliver (d : Opnd) (r : Ready) (ws : List W64) (s : State) : State :=
  if d.code = 0 then
    if d.vec then (pairs ws).zipIdx.foldr (fun v s => pushVec (r.nth v.2) v.1 s) s
    else ws.zipIdx.foldr (fun v s => pushInt (r.nth v.2) v.1 s) s
  else if d.isReg then writeRegs r (d.code - 16) 0 ws s
  else if d.isAreg then writePtr (r.nth 0) (d.code - 32) (wd ws 0) s
  else if d.isPort then sendWords (d.code - 24) r ws s
  else if d.isPtr then
    let off := ptrOff (s.ptrAt d.code 0)
    advancePtr (d.code - 28) (writeThrough r off (bytesOf (8 * ws.length) (ofWords ws)) (touch off (8 * ws.length) s))
  else s

/-- The cell gets the parts of a result that it awaits. -/
def Cell.landParts {α : Type} (t tag : Nat) (parts : List α) (c : Cell α) : Cell α :=
  parts.zipIdx.foldl (fun c p => c.deliver t (partTag tag p.2) p.1) c

/-- Producer `tag` delivers its result to the slots, registers, port or scratchpad bytes it was assigned at issue (R29, R38). -/
def deliverTag (tag : Nat) (ws : List W64) (s : State) : State :=
  let t := s.now
  let s1 := s.updMe (fun c => { c with
    belt := c.belt.map (·.landParts t tag ws), btail := c.btail.landParts t tag ws
    vbelt := c.vbelt.map (·.landParts t tag (pairs ws)), vtail := c.vtail.landParts t tag (pairs ws)
    n := c.n.map (·.landParts t tag ws), a := c.a.map (·.landParts t tag ws) })
  let mine (w : SpmWrite) : Bool := w.ctx == s.cur.ctx.val && w.due.isNone && w.tag == tag
  let s2 := match s.here.spmDue.find? mine with
    | none => s1
    | some w => (s1.spmWrite s.cur.core w.off (bytesOf w.data.length (ofWords ws))).updHere (fun k =>
        { k with spmDue := k.spmDue.filter (fun w => !mine w) })
  match s.inflight.find? (fun m => m.due == some tag) with
  | none => s2
  | some m =>
    State.countSent { s2 with inflight := s2.inflight.map (fun (x : PortMsg) => if x.due = some tag then
        { x with words := ws, due := none, node := s2.countedFor m.dst } else x) } (s2.countedFor m.dst)

/-- R29: an operand read through a pointer makes the latency at least 3. -/
def latency (srcs : List Opnd) (l : Nat) : Nat := if srcs.any (·.isPtr) then max l 3 else l

/-- No value is delivered: the destination waits for one that never comes, and the context will take MCHK (R342). -/
def deliverBad (d : Opnd) (record : W64) (s : State) : State :=
  let s1 := s.updMe (fun c => { c with poison := c.poison ++ [(s.nextId, record)] })
  let s2 := if d.isPort || d.isPtr then s1 else deliver d (.later s.nextId) (List.replicate d.words 0) s1
  { s2 with nextId := s.nextId + 1 }

/-! ### The shape of an instruction that computes a result from sources -/

/-- Sources, destination, the latency of a fixed-latency result or none for an interlocked one, and the function from the
source values to the result words. -/
def compute (i : Instr) (stall : Nat) (srcs : List Opnd) (d : Opnd) (lat : Option Nat)
    (f : State → List (List W64) → List W64) : State → Out :=
  issue i stall (do
    ready srcs (some d) (fun _ => [])
    upd (fun s =>
      match s.badOperand [] srcs with
      | some off => deliverBad d (spmRecord off 0 s).2 (consume srcs (spmRecord off 0 s).1)
      | none =>
        let ws := f s (s.values srcs)
        let r := match lat with
          | some l => Ready.fixed (s.now + latency srcs l)
          | none => Ready.now
        deliver d r ws (consume srcs s)))

/-- The k-th value of a list of operand values. -/
def arg (vs : List (List W64)) (k : Nat) : List W64 := vs.getD k []

/-- The one word of the k-th value. -/
def arg1 (vs : List (List W64)) (k : Nat) : W64 := wd (arg vs k) 0

def upd2 (f : State → Except Stop State) : M Unit := fun s =>
  match f s with
  | .ok t => .ok ((), t)
  | .error e => .error e

end Sys2Proof.Machine
end

