-- ==== Sys2Proof/Machine/Stream.lean ====
section
/-! DEFINITION. Keyed and counting streams (R124) and the rounding words drawn from them (R47). -/

namespace Sys2Proof.Machine

abbrev W32 := BitVec 32

/-- The quarter round of RFC 8439 section 2.1 on words a, b, c, d of the state. -/
def quarterRound (a b c d : Nat) (x : List W32) : List W32 :=
  let g (i : Nat) : W32 := x.getD i 0
  let a1 := g a + g b
  let d1 := (g d ^^^ a1).rotateLeft 16
  let c1 := g c + d1
  let b1 := (g b ^^^ c1).rotateLeft 12
  let a2 := a1 + b1
  let d2 := (d1 ^^^ a2).rotateLeft 8
  let c2 := c1 + d2
  let b2 := (b1 ^^^ c2).rotateLeft 7
  (((x.set a a2).set b b2).set c c2).set d d2

/-- One double round: four column and four diagonal quarter rounds (RFC 8439 section 2.3). -/
def doubleRound (x : List W32) : List W32 :=
  quarterRound 3 4 9 14 (quarterRound 2 7 8 13 (quarterRound 1 6 11 12 (quarterRound 0 5 10 15
    (quarterRound 3 7 11 15 (quarterRound 2 6 10 14 (quarterRound 1 5 9 13 (quarterRound 0 4 8 12 x)))))))

def iterate {α : Type} (f : α → α) : Nat → α → α
  | 0, x => x
  | k + 1, x => iterate f k (f x)

/-- The input state of block j (R124). -/
def chachaInput (key : W256) (sid : W64) (j : Nat) : List W32 :=
  [0x61707865, 0x3320646E, 0x79622D32, 0x6B206574] ++ (List.range 8).map (fun i => key.extractLsb' (32 * i) 32) ++
    [BitVec.ofNat 32 j, BitVec.ofNat 32 (j / 2 ^ 32), sid.extractLsb' 0 32, sid.extractLsb' 32 32]

/-- The 16 words of block j: 6 double rounds and the final addition. -/
def chachaBlock (key : W256) (sid : W64) (j : Nat) : List W32 :=
  List.zipWith (· + ·) (iterate doubleRound 6 (chachaInput key sid j)) (chachaInput key sid j)

/-- Word i of a stream (R124). -/
def Stream.word (h : Stream) (i : Nat) : W32 :=
  if h.counting then BitVec.ofNat 32 (i * 0x9E3779B1) + h.sid.extractLsb' 0 32
  else (chachaBlock h.key h.sid (i / 16)).getD (i % 16) 0

def hndIx (h : Nat) : Fin 16 := Fin.ofNat 16 h

/-- $mode.FRM (R34). -/
def Context.frm (c : Context) : Nat := (c.mode &&& 7).toNat

/-- The handle $srh names (R33). -/
def Context.srHandle (c : Context) : Stream := c.hnd[hndIx c.srh.toNat]

/-- The rounding of lane i under mode `m` for the context (R47). -/
def Context.rnd (c : Context) (m : Nat) (i : Nat) : Rnd :=
  ⟨m, if m = 5 then (c.srHandle.word (c.sro.toNat + i)).toNat else 0⟩

/-- R47: rounding under RSR with an unbound handle. -/
def Context.rsrCands (c : Context) (m : Nat) : List Cand :=
  if m = 5 ∧ c.srHandle.bound = false then [Cand.handle (c.srh &&& 15)] else []

/-- R47: n words are used. -/
def useWords (m n : Nat) (s : State) : State :=
  if m = 5 then s.updMe (fun c => { c with sro := c.sro + BitVec.ofNat 64 n }) else s

/-- R53: events set bits of $flags and clear none. -/
def raiseFlags (f : Fl) (s : State) : State := s.updMe (fun c => { c with flags := c.flags ||| f.zeroExtend 64 })

/-! ### Lanes and elements of converting transfers (R40, R140) -/

/-- Lanes of an LDX or STX, and their format. -/
def xLanes (t : BitVec 1) : Nat := if t = 1 then 8 else 4
def xFmt (t : BitVec 1) : Nat := if t = 1 then Fmt.bf16 else Fmt.f32

/-- The first half byte of an I4 or N4 pointer with NIB set is skipped (R44). -/
def nibShift (p : W64) : Nat := if (ptrFmt p = Fmt.i4 ∨ ptrFmt p = Fmt.n4) ∧ ptrNib p then 4 else 0

/-- Element i of packed bytes that start at a pointer (R40). -/
def elementBits (p : W64) (bs : List Byte) (i : Nat) : Nat :=
  ofBytes bs / 2 ^ (nibShift p + i * fmtBits (ptrFmt p)) % 2 ^ fmtBits (ptrFmt p)

/-- Packs fields of `w` bits from bit 0. -/
def packFields (w : Nat) : List Nat → Nat
  | [] => 0
  | x :: r => x % 2 ^ w + 2 ^ w * packFields w r

/-- Splits off fields of `w` bits. -/
def fieldsOf (w : Nat) : Nat → Nat → List Nat
  | 0, _ => []
  | k + 1, x => x % 2 ^ w :: fieldsOf w k (x / 2 ^ w)

def orFlags (l : List (Nat × Fl)) : Fl := l.foldl (fun f x => f ||| x.2) 0

/-- Bits of a lane of LDX and STX. -/
def xBits (t : BitVec 1) : Nat := fmtBits (xFmt t)

/-- Lane i of LDX from packed bytes at pointer p, and its flags, under a rounding (R140). -/
def laneOf (p : W64) (t : BitVec 1) (rnd : Rnd) (bs : List Byte) (i : Nat) : Nat × Fl :=
  convert (xFmt t) false (intFmt (ptrFmt p)).isSome rnd (valueOf (ptrFmt p) (elementBits p bs i))

end Sys2Proof.Machine
end

