-- ==== Sys2Proof/Machine/Update.lean ====
section
/-! DEFINITION. The new value of an atomic (R145), commutative updates (R147, R149, R272), the update-only lines that gather them (R148), and their merges at the home. -/

namespace Sys2Proof.Machine

/-! ### The combining functions -/

/-- Word size of an update type in bytes (R147). -/
def updSize (t : Nat) : Nat := if t % 2 = 0 then 4 else 8

/-- f(x, y) on integer words of n bits (R147). -/
def updInt (signed : Bool) (op n x y : Nat) : Nat :=
  let a := BitVec.ofNat n x
  let b := BitVec.ofNat n y
  let mag (v : BitVec n) : BitVec n := if v.msb then -v else v
  (match op with
  | 0 => a + b
  | 1 => if (if signed then a.slt b else a.ult b) then a else b
  | 2 => if (if signed then a.slt b else a.ult b) then b else a
  | 3 => if (mag a).ult (mag b) then mag b else mag a
  | 4 => a &&& b
  | 5 => a ||| b
  | _ => a ^^^ b).toNat

/-- f(x, y) on floats (R147, R149): a NaN result is quiet with its sign clear. -/
def updFloat (f : FloatFmt) (op x y : Nat) : Nat :=
  let a := f.value x
  let b := f.value y
  let both := f.nan (min a.payload b.payload)
  match op with
  | 0 => (fadd f rne x y).1
  | 3 =>
    if a.isNan && b.isNan then both
    else if a.isNan then f.nan a.payload
    else if b.isNan then f.nan b.payload
    else max (x % f.signBit) (y % f.signBit)
  | o => if a.isNan && b.isNan then both else (fminmax f (o == 2) x y).1

/-- The combining function of an update type and op (R147). -/
def updCombine (t op x y : Nat) : Nat :=
  match t with
  | 4 => updFloat ⟨8, 23, 127, .ieee⟩ op x y
  | 5 => updFloat ⟨11, 52, 1023, .ieee⟩ op x y
  | _ => updInt (decide (t < 2)) op (8 * updSize t) x y

/-- New value of an ATOM on n-bit words (R145): op as R70 numbers it; b the operand, e the expected value of CAS. -/
def atomNew (op n old b e : Nat) : Nat :=
  let x := BitVec.ofNat n old
  let y := BitVec.ofNat n b
  (match op with
  | 0 => x + y
  | 1 => x &&& y
  | 2 => x ||| y
  | 3 => x ^^^ y
  | 4 => if x.slt y then x else y
  | 5 => if x.slt y then y else x
  | 6 => if x.ult y then x else y
  | 7 => if x.ult y then y else x
  | 8 => y
  | _ => if x = BitVec.ofNat n e then y else x).toNat

/-! ### Update-only lines -/

/-- The place that a memory key names. -/
def placeOf (key : Nat) : Place := ⟨key / 1024 / 65536, key / 1024 % 65536, key % 1024⟩

/-- The places of `len` bytes of a line of a bank from byte `off` of it. -/
def linePlaces (key off len : Nat) : List Place := (List.range len).map (fun i => placeOf (key * 64 + off + i))

/-- R148, R370: the home applies a contribution to a word, or a waiting UPDATE of another package, stamped; a failing word keeps its
state and leaves a record (R342). -/
def applyUpdate (vd : Nat) (stamp : Option Nat) (ps : List Place) (ty op v : Nat) (write : State → List (Place × Byte) → State)
    (s : State) : State :=
  if s.failsAt stamp ps then (s.wordRecord vd stamp ps 0 2 0xFFFFFFFF 0xFF).1
  else write s (ps.zip (bytesOf ps.length (updCombine ty op (ofBytes (ps.map (s.readAt stamp))) v)))

/-- One contribution of a line that leaves the L1 of core c reaches its word, or waits at its bank (R371); one that an access served there
recalls (`now`) does not wait. -/
def mergeWord (now : Bool) (c : Nat) (l : L1Line) (u : UpdLine) (off v : Nat) (s0 : State) : State :=
  let ps := linePlaces l.key off (updSize u.ty)
  let s := s0.wakeBanks ps
  if !now && s.busy (.upd u.ty u.op v) (ps.take 1) then
    { s.post s.nextId l.vd (.merge c) (placeOf (l.key * 64 + off)) (updSize u.ty) (.upd u.ty u.op v) with nextId := s.nextId + 1 }
  else applyUpdate l.vd none ps u.ty u.op v State.writePlaces s

/-- A line that has left the L1 of core c is merged if it is update-only (R148). -/
def mergeLine (now : Bool) (c : Nat) (s : State) (l : L1Line) : State :=
  match l.upd with
  | none => s
  | some u => u.words.foldl (fun s w => mergeWord now c l u w.1 w.2 s) s

/-- A line leaves the L1 of a core, and is merged. -/
def State.evictLine (s : State) (c : Nat) (l : L1Line) (now : Bool := false) : State :=
  mergeLine now c (s.updCore c (fun k => { k with l1 := k.l1.filter (· != l) })) l

/-- R148: before the home serves an access to these lines it recalls and merges every update-only line of them. -/
def State.recallKeys (s : State) (keys : List Nat) : State := (s.updatesOf keys).foldl (fun s e => s.evictLine e.1 e.2 true) s

def State.recall (s : State) (ps : List Place) : State := s.recallKeys (ps.map (fun p => p.key / 64))

end Sys2Proof.Machine
end

