-- ==== Sys2Proof/Machine/Walk.lean ====
section
/-! DEFINITION. Reads of the device (R309), and the page-table walk (R286 to R290, R309, R322). -/

namespace Sys2Proof.Machine

/-! ### Reads of the device at their home -/

/-- A read that no context waits for comes to its banks: it wakes their channels (R263). Where one of them is held, the reader gets its
bytes later (R371): the places are noted, and whoever reads for the device takes them up. Otherwise the contributions to them are recalled (R148). -/
def State.comes (s : State) (ps : List Place) : State :=
  let s1 := s.wakeBanks ps
  if ps.any (fun p => s1.closed .read p) then { s1 with stalled := s1.stalled ++ ps.filter (fun p => s1.closed .read p) } else s1.recall ps

/-- Bytes of a structure of the device: none where VD 0's entries do not give them, or where a column word fails, which leaves a
record. DESIGN CHOICE (log 69): a failing word of such a structure reads as a row that is not there. -/
def State.devRead (s : State) (pa len : Nat) : State × Option Nat :=
  match s.devPlaces pa len with
  | none => (s, none)
  | some ps =>
    let s1 := s.comes ps
    if s1.fails ps then ((s1.wordRecord 0 none ps 0 0 0xFFFFFFFF 0xFF).1, none) else (s1, some (ofBytes (ps.map s1.readByte)))

/-! ### The page-table walk -/

def needsR : AccessKind → Bool
  | .load => true
  | .atomic => true
  | _ => false
def needsW : AccessKind → Bool
  | .store => true
  | .atomic => true
  | _ => false
def kindCode : AccessKind → Nat
  | .load => 0
  | .store => 1
  | .atomic => 2
  | .fetch => 3

/-- allowed(e, k) of R287. -/
def ptAllowed (e : Nat) (k : AccessKind) : Bool :=
  (!needsR k || bit e 1) && (!needsW k || bit e 2) && (k != .fetch || bit e 3)

/-- reserved(e) of R287. -/
def ptReserved (e : Nat) : Bool :=
  bits e 55 54 != 0 || (bits e 53 52 != 0 && !(bit e 9 && bit e 7)) || bits e 15 10 != 0

/-- How a translation ends: a physical address, a fault, a pager hold, or an entry whose bank is held (R371). -/
inductive Walk where
  | ok (pa : Nat)
  | fault (cause : Nat)
  | hold
  | busy
  deriving DecidableEq, Repr

/-- The leaf a walk ends at: its own address, the entry, whether it maps 512 MiB. -/
inductive Leaf where
  | at_ (a e : Nat) (big : Bool)
  | none
  deriving DecidableEq, Repr

/-- The levels of the walk; `left` levels remain below and including this one. Each entry is read at its home. -/
def walkLevels (va : Nat) : Nat → State → Nat → State × Leaf
  | 0, s, _ => (s, .none)
  | left + 1, s, t =>
    let level := 3 - left
    let a := t + 8 * (va / 2 ^ (55 - 13 * level) % 8192)
    match s.devRead a 8 with
    | (s1, none) => (s1, .none)
    | (s1, some e) =>
      if !bit e 0 || ptReserved e then (s1, .none)
      else if bit e 9 then
        if level = 1 || (level = 2 && bits e 28 16 != 0) then (s1, .none) else (s1, .at_ a e (level == 2))
      else walkLevels va left s1 (bits e 51 16 * 2 ^ 16)

/-- The domain window of a VD (R321, R322): a PA in another package must lie where the window says. -/
def domainAllows (dom : W64) (va pa : Nat) : Bool :=
  let d := dom.toNat
  if bit d 0 && bits va 54 46 == bits d 54 46 then
    bits va 45 36 == bits pa 51 42 && decide (bits d 45 36 ≤ bits va 45 36) && decide (bits va 45 36 ≤ bits d 35 26)
  else true

/-- The offset of a PA in the management window of this package (R355). -/
def State.mgmtOff (s : State) (pa : Nat) : Option Nat :=
  if s.pkg * 2 ^ 42 + mgmtBase ≤ pa ∧ pa < s.pkg * 2 ^ 42 + mgmtBase + 2 ^ 20 then some (pa - s.pkg * 2 ^ 42 - mgmtBase)
  else none

/-- The last check of R287: a PA of this package lies in a window of the VD, or for VD 0 in the management window; a PA of another
package is open only to a VD with a domain that holds the package (R321, R322). -/
def State.paAllowed (s : State) (vd va pa : Nat) : Bool :=
  let dom := (s.vd vd).desc.dombase
  domainAllows dom va pa &&
    (if bits pa 51 42 == s.pkg then (s.place vd pa).isSome || (vd == 0 && (s.mgmtOff pa).isSome)
     else dom.getLsbD 0 && decide (bits dom.toNat 45 36 ≤ bits pa 51 42) && decide (bits pa 51 42 ≤ bits dom.toNat 35 26))

def leafPa (e : Nat) (big : Bool) (va : Nat) : Nat :=
  if big then bits e 51 29 * 2 ^ 29 + va % 2 ^ 29 else bits e 51 16 * 2 ^ 16 + va % 2 ^ 16

def Tlb.usable (t : Tlb) (k : AccessKind) : Bool :=
  ptAllowed t.leaf.toNat k && (!needsW k || bit t.leaf.toNat 5)

def setAD (e : Nat) (k : AccessKind) : Nat := e ||| 0x10 ||| (if needsW k then 0x20 else 0)

/-- The XOR of the six-bit groups of x, `n` of them, from bit 0 up. -/
def foldSix : Nat → Nat → Nat
  | 0, _ => 0
  | n + 1, x => (x % 64) ^^^ foldSix n (x / 64)

/-- The translation slice of a page in a compute die (R219). -/
def transSlice (vd page : Nat) : Nat := (foldSix 7 page ^^^ vd) % 64

/-- R288: the slice holds the translation; a full one loses one of its 4,096, which one the manual leaves open (log 5). -/
def State.cacheLeaf (s : State) (t : Tlb) : State :=
  let rest := s.tlb.filter (fun x => !(x.die == t.die && x.vd == t.vd && x.page == t.page))
  let slice := rest.filter (fun x => x.die == t.die && transSlice x.vd x.page == transSlice t.vd t.page)
  if slice.length < 4096 then { s with tlb := rest ++ [t] }
  else { s with tlb := rest.erase (slice.getD (Config.victim s.nextId % slice.length) t) ++ [t], nextId := s.nextId + 1 }

/-- The compute die through whose slices the device translates when no core or engine asks (log 57). -/
def deviceDie : Nat := 0

/-- Two page numbers name one page of 64 KiB, or of 512 MiB. -/
def samePage (big : Bool) (p q : Nat) : Bool := if big then p / 8192 == q / 8192 else p == q

/-- R293: while a revocation of a page is open, every write to it is held. -/
def State.revokes (s : State) (vd va : Nat) : Bool := (s.vd vd).revoking.any (fun r => samePage r.big r.page (va / 65536))

/-- R287, R288, R289, R293: a cached translation of the die that serves the access, else a walk, which sets A and D and is cached. -/
def walk (s : State) (die vd va : Nat) (k : AccessKind) : State × Walk :=
  let answer (s : State) (pa : Nat) : State × Walk :=
    if s.paAllowed vd va pa then (s, .ok pa) else (s, .fault Cause.pperm)
  if needsW k && s.revokes vd va then (s, .hold)
  else match s.tlb.find? (fun t => t.die == die && t.vd == vd && t.page == va / 65536 && t.usable k) with
  | some t => answer s (leafPa t.leaf.toNat t.big va)
  | none =>
    let w := walkLevels va 3 s (s.vd vd).desc.ptroot.toNat
    if w.1.stalled.length ≠ s.stalled.length then (w.1, .busy)
    else match w.2 with
    | .none => (w.1, .fault Cause.pflt)
    | .at_ a e big =>
      if !ptAllowed e k then (w.1, .fault Cause.pperm)
      else if (bit e 7 || bit e 8) && needsW k then (w.1, .hold)
      else
        let e' := setAD e k
        let s1 := if e' = e then w.1 else w.1.devWrite a (bytesOf 8 e')
        let leaf : W64 := BitVec.ofNat 64 (if bit e 7 || bit e 8 then e' &&& 0xFFFFFFFFFFFFFFFB else e')
        answer (s1.cacheLeaf ⟨die, vd, va / 65536, leaf, big⟩) (leafPa e big va)

/-- Every page of a range translates, `tr` translating a part of one page; the PAs of its bytes, or the first page that does not. -/
def rangeOf (tr : State → Nat → Nat → State × Walk) : Nat → State → Nat → Nat → State × Except (Walk × Nat) (List Nat)
  | 0, s, _, _ => (s, .ok [])
  | fuel + 1, s, va, len =>
    let n := min len (65536 - va % 65536)
    match tr s va n with
    | (s1, .ok pa) =>
      let first := (List.range n).map (pa + ·)
      if n = len then (s1, .ok first)
      else match rangeOf tr fuel s1 ((va + n) % 2 ^ 55) (len - n) with
        | (s2, .ok rest) => (s2, .ok (first ++ rest))
        | (s2, .error e) => (s2, .error e)
    | (s1, w) => (s1, .error (w, va))

/-- A range translated by the slices of a die. -/
def walkRange (s : State) (die vd va len : Nat) (k : AccessKind) : State × Except (Walk × Nat) (List Nat) :=
  rangeOf (fun s va _ => walk s die vd va k) (len / 65536 + 2) s va len

/-- The places of bytes by their PAs in the windows of a VD; bytes outside are left out. -/
def State.places (s : State) (vd : Nat) (pas : List Nat) : List Place := pas.filterMap (s.place vd)

/-- A byte the device reads at a physical address in a VD's name; one of another package is an input (log 5). -/
def State.farRead (s : State) (vd pa : Nat) : Byte :=
  if bits pa 51 42 ≠ s.pkg then Config.farByte pa s.nextId
  else match s.place vd pa with
    | some p => s.readByte p
    | none => 0

/-- Reads bytes of a VD's virtual memory by the device (graphs, blocks, images): all of them or none, as a failing word reads as a page
that does not translate (R342, log 69). -/
def State.vread (s : State) (vd va len : Nat) : State × Option (List Byte) :=
  match walkRange s deviceDie vd va len .load with
  | (s1, .ok pas) =>
    let ps := s1.places vd pas
    let s2 := s1.comes ps
    if s2.fails ps then ((s2.wordRecord vd none ps 0 0 0xFFFFFFFF 0xFF).1, none)
    else ({ s2 with nextId := s2.nextId + 1 }, some (pas.map (s2.farRead vd)))
  | (s1, .error _) => (s1, none)

/-- An action of the device as a whole: where bytes that it reads lie in a bank that is held, it asks for a window and has no effect yet
(R371). -/
def whenServed (f : State → State) (s : State) : State :=
  let t := f { s with stalled := [] }
  if t.stalled.isEmpty then t else (s.wakeBanks t.stalled).askWindow 0 t.stalled

end Sys2Proof.Machine
end

