-- ==== Sys2Proof/Machine/Access.lean ====
section
/-! DEFINITION. How an access of a context reaches memory: watchpoints (R357), translation (R135, R292), the home in this
package, the management window, or another package (R324, R331, R332). -/

namespace Sys2Proof.Machine

/-- R357: the first enabled watchpoint of the core that matches an access; its TRAP bit. -/
def Core.watchHit (k : Core) (va len : Nat) (rd wr : Bool) : Option Bool :=
  (k.watch.toList.find? (fun w =>
    w.getLsbD 63 && ((rd && w.getLsbD 60) || (wr && w.getLsbD 61)) &&
      overlap va len (bits w.toNat 54 0) (2 ^ bits w.toNat 57 55))).map (·.getLsbD 62)

/-- R357: after every trap of R74 and before any effect. -/
def checkWatch (va len : Nat) (rd wr : Bool) : M Unit := fun s =>
  match s.here.watchHit va len rd wr with
  | none => .ok ((), s)
  | some trap =>
    if !trap && s.me.attached then .error (.halt 4) else .error (.trap Cause.watch (BitVec.ofNat 64 va))

/-! ### The L1 data cache (R217, R218, R289) -/

/-- The core's node runs in a launch that asked for fusion, and every core of the cluster belongs to its VD (R218). -/
def State.fused (s : State) (c : Nat) : Bool :=
  match (s.core c).node with
  | none => false
  | some n =>
    ((s.vd (s.core c).vd).queues[Fin.ofNat 4 n.q]).launches.any (fun l => l.number == n.launch && l.fuse) && !isPager c &&
      (List.range 64).all (fun i => (s.core (c / 64 * 64 + i)).vd == (s.core c).vd)

/-- The core whose L1 holds a virtual line for core c: its own, or that of the fused cache of the cluster (R218). -/
def State.l1Core (s : State) (c line : Nat) : Nat :=
  if s.fused c then curveOf (dieOf c) (clusterIn c) ((line ^^^ line / 64) % 64) else c

/-- Virtual lines that a part of a page touches. -/
def linesOf (va len : Nat) : List Nat := (List.range ((va % 64 + len - 1) / 64 + 1)).map (va / 64 + ·)

/-- The cores whose L1s act as the cache that core c uses (R218). -/
def State.l1Cores (s : State) (c : Nat) : List Nat := if s.fused c then (List.range 64).map (c / 64 * 64 + ·) else [c]

def State.l1Find (s : State) (c vd line : Nat) : Option L1Line :=
  (s.core (s.l1Core c line)).l1.find? (fun l => l.line == line && l.vd == vd)

/-- The line serves an access without a translation (R135, R289): a write needs its W and D, an update the update-only line of its
type and op, any other access a line that holds no contributions (R148). -/
def L1Line.serves (l : L1Line) (k : AccessKind) (u : Option (Nat × Nat)) : Bool :=
  (!needsW k || (l.w && l.d)) && (match l.upd, u with
    | none, none => true
    | some x, some y => (x.ty, x.op) == y
    | _, _ => false)

/-- A part of one page translates for core c: from the lines of its L1, else at the slices of its die (R135, R219, R289). -/
def State.translatePart (s : State) (c : Nat) (k : AccessKind) (u : Option (Nat × Nat)) (va len : Nat) : State × Walk :=
  let vd := (s.core c).vd
  match s.l1Find c vd (va / 64) with
  | some l =>
    if k != .fetch && (linesOf va len).all (fun x => (s.l1Find c vd x).any (·.serves k u)) then (s, .ok (l.pa * 64 + va % 64))
    else walk s (dieOf c) vd va k
  | none => walk s (dieOf c) vd va k

/-- The PAs of the bytes of an access of core c, or the first page that does not translate. -/
def State.translate (s : State) (c : Nat) (k : AccessKind) (u : Option (Nat × Nat)) (va len : Nat) :
    State × Except (Walk × Nat) (List Nat) :=
  rangeOf (fun s va len => s.translatePart c k u va len) (len / 65536 + 2) s va len

/-- A line enters the L1 that core c uses, at its place: no other copy of its physical line stays in that cache, contributions to it are
merged first (R148), and a full L1 of 512 lines loses one, which one the manual leaves open (R217, log 5). DESIGN CHOICE (log 70): R217
gives the 8 ways no index, so any 512 lines may stand together. -/
def State.addLine (s0 : State) (c : Nat) (l : L1Line) : State :=
  let same (x : L1Line) : Bool := x.key == l.key || (x.line == l.line && x.vd == l.vd)
  let s := (s0.l1Cores c).foldl (fun s k => ((s.core k).l1.filter same).foldl (fun s x => s.evictLine k x) s) s0
  let at_ := s.l1Core c l.line
  let old := (s.core at_).l1
  let s1 := s.updCore at_ (fun k => { k with l1 := old ++ [l] })
  if old.length < 512 then s1
  else { s1.evictLine at_ (old.getD (Config.victim s.nextId % old.length) l) with nextId := s1.nextId + 1 }

/-- What an L1 numbers a line of another package by. -/
def farKey (pa : Nat) : Nat := 2 ^ 40 + pa / 64

/-- The line at a virtual line whose first byte has a physical address, tagged with its translation (R289). -/
def State.lineAt (s : State) (c line pa : Nat) (u : Option UpdLine) (data : Option (BitVec 512)) : Option L1Line :=
  let vd := (s.core c).vd
  let t := (s.tlb.find? (fun t => t.die == dieOf c && t.vd == vd && t.page == line / 1024)).getD ⟨0, 0, 0, 0, false⟩
  (if bits pa 51 42 = s.pkg then (s.place vd (pa / 64 * 64)).map (fun p => p.key / 64) else some (farKey pa)).map (fun key =>
    ⟨line, vd, pa / 64, key, t.leaf.getLsbD 2, t.leaf.getLsbD 5, t.leaf.getLsbD 6, t.big, u, data⟩)

/-- A load miss allocates its lines of this package (R217); those of another package enter when they come (`fillFar`). -/
def State.fillL1 (s : State) (c va : Nat) (pas : List Nat) : State :=
  pas.zipIdx.foldl (fun s x =>
    let a := (va + x.2) % 2 ^ 55
    if (x.2 = 0 ∨ a % 64 = 0) ∧ bits x.1 51 42 = s.pkg ∧ (s.l1Find c (s.core c).vd (a / 64)).isNone then
      match s.lineAt c (a / 64) x.1 none none with
      | some l => s.addLine c l
      | none => s
    else s) s

/-- A line of another package enters the L1 with its data (R217, R234). -/
def State.fillFar (s : State) (c va pa : Nat) (data : BitVec 512) : State :=
  match s.lineAt c (va / 64) pa none (some data) with
  | some l => s.addLine c l
  | none => s

/-- The data that the L1 holds of a virtual line of another package. -/
def State.farLine (s : State) (c line : Nat) : Option (BitVec 512) := (s.l1Find c (s.core c).vd line).bind (·.data)

/-- An acquire at DOMAIN drops the lines of other packages from the L1 that core c uses, and those on their way to it (R234). -/
def State.dropFar (s : State) (c : Nat) : State :=
  (s.l1Cores c).foldl (fun s k => s.updCore k (fun k => { k with
    l1 := k.l1.filter (·.data.isNone)
    ctxs := k.ctxs.map (fun (m : Context) => { m with loads := m.loads.map (fun (l : Load) => { l with fill := false }) }) })) s

/-- A store to another package updates the line that it hits; every other copy in this package goes (R217). `new` is none for an update. -/
def State.wroteFar (s : State) (c va pa : Nat) (new : Option (List Byte)) : State :=
  let n := (new.map (·.length)).getD 1
  let keys := (List.range ((pa % 64 + n - 1) / 64 + 1)).map (fun i => farKey (pa + 64 * i))
  let here (e : Nat) (l : L1Line) : Option L1Line :=
    if !keys.contains l.key then some l
    else match new with
      | none => none
      | some bs =>
        if e = s.l1Core c l.line ∧ l.vd = (s.core c).vd ∧ (linesOf va n).contains l.line then
          some { l with data := l.data.map (fun d => BitVec.ofNat 512 (ofBytes ((bytesOf 64 d.toNat).zipIdx.map (fun b =>
            if pa ≤ l.pa * 64 + b.2 ∧ l.pa * 64 + b.2 < pa + n then bs.getD (l.pa * 64 + b.2 - pa) 0 else b.1)))) }
        else none
  { s with cores := s.cores.map (fun e => (e.1, { e.2 with l1 := e.2.l1.filterMap (here e.1) })) }

/-- The core's own access to update-only lines of its L1 merges them first (R148). -/
def State.mergeOwn (s : State) (c : Nat) (u : Option (Nat × Nat)) (va len : Nat) : State :=
  (linesOf va len).foldl (fun s x =>
    match s.l1Find c (s.core c).vd x with
    | some l => if l.upd.any (fun y => some (y.ty, y.op) != u) then s.evictLine (s.l1Core c x) l else s
    | none => s) s

/-! ### Translation and the order of a context's accesses -/

/-- The place an access goes to, by the first of its physical addresses. -/
def State.targetAt (s : State) (vd : Nat) (pas : List Nat) : Target :=
  let pa := pas.headD 0
  if bits pa 51 42 ≠ s.pkg then .remote (bits pa 51 42) pa pas.length
  else match s.mgmtOff pa, s.place vd pa with
    | some o, none => .mgmt o pas.length
    | _, _ => .home (s.places vd pas)

/-- The bytes lie one after another in one package. -/
def contiguous (pas : List Nat) : Bool :=
  pas.zipIdx.all (fun a => a.1 == pas.headD 0 + a.2) && bits (pas.headD 0) 51 42 == bits (pas.getLastD 0) 51 42

/-- The length of the part of an access that lies in its first page. -/
def firstPart (va len : Nat) : Nat := min len (65536 - va % 65536)

def State.targetOf (s : State) (vd va : Nat) (pas : List Nat) : Target :=
  let n := firstPart va pas.length
  if n = pas.length ∨ contiguous pas then s.targetAt vd pas
  else match s.targetAt vd (pas.take n), s.targetAt vd (pas.drop n) with
    | .home a, .home b => .home (a ++ b)
    | a, b => .two n a b

/-- Some byte lies in another package. -/
def Target.far : Target → Bool
  | .remote _ _ _ => true
  | .two _ a b => a.far || b.far
  | _ => false

/-- Its places in the banks of this package. -/
def Target.places : Target → List Place
  | .home ps => ps
  | .two _ a b => a.places ++ b.places
  | _ => []

/-- A part of the access has to wait at a bank (R371). -/
def Target.busy (s : State) (op : BankOp) (t : Target) : Bool := s.busy op t.places

/-- R135, R287, R292: the access translates, faults, waits for an entry whose bank is held (R371), or is held for the pagers, whose answer
decides whether the slice walks again or the access faults PPERM. A load allocates the lines it misses unless it is non-temporal. -/
def reach (va len : Nat) (k : AccessKind) (alloc : Bool := true) (u : Option (Nat × Nat) := none) : M Target := fun s =>
  match (if k = .fetch then none else s.me.hold) with
  | some ⟨_, none⟩ => .error (.wait .hold)
  | some ⟨v, some false⟩ => .error (.fault (s.updMe (fun c => { c with hold := none })) Cause.pperm v (kindCode k))
  | _ =>
    let s0 := if k = .fetch then s else s.mergeOwn s.cur.core u va len
    match s0.translate s.cur.core k u va len with
    | (s1, .ok pas) =>
      let t := s1.targetOf s.here.vd va pas
      .ok (t, (if k = .load ∧ alloc then s1.fillL1 s.cur.core va pas else s1).wakeBanks t.places)
    | (s1, .error (.fault c, va')) => .error (.fault s1 c (BitVec.ofNat 64 va') (kindCode k))
    | (s1, .error (.busy, _)) => .error (.keepWait { s1.askWindow s.here.vd s1.stalled with stalled := [] } .bank)
    | (s1, .error (_, va')) =>
      .error (.keepWait (s1.updMe (fun c => { c with hold := some ⟨BitVec.ofNat 64 va', none⟩ })) .hold)

/-! ### Requests to another package -/

/-- The VD seals every packet it sends to another package (R303, R326). -/
def Vd.seals (v : Vd) : Bool := v.desc.flags.getLsbD 3

/-- A VD with the domain tag seals its packets, so those it receives are sealed too (R326). -/
def State.sealedDomain (s : State) (domain : BitVec 16) : Bool :=
  s.vds.any (fun e => decide (e.2.state ≠ .absent) && e.2.desc.dombase.getLsbD 0 &&
    BitVec.ofNat 16 (bits e.2.desc.dombase.toNat 25 10) == domain && e.2.desc.flags.getLsbD 3)

/-- The number of the key of (DOMAIN, SRC, DST) (R326). -/
def linkKeyIx (domain src dst : Nat) : Nat := (domain * 1024 + src % 1024) * 1024 + dst % 1024

/-- The 16-byte header, and the second one of classes 9 to 11 (R324). -/
def packetHeader (cls : BitVec 8) (p : Packet) : List Byte :=
  [cls, p.vc] ++ bytesOf 2 p.domain.toNat ++ bytesOf 2 p.src.toNat ++ bytesOf 2 p.dst.toNat ++ bytesOf 4 p.seq.toNat ++
    bytesOf 2 p.len.toNat ++ bytesOf 2 0 ++
    (if 9 ≤ cls.toNat ∧ cls.toNat ≤ 11 then
      bytesOf 4 p.group.toNat ++ bytesOf 4 p.tag.toNat ++ bytesOf 2 p.alpha.toNat ++ [p.dtype, p.redop] ++
        bytesOf 2 p.contrib.toNat ++ bytesOf 2 p.step.toNat
    else [])

/-- The payload: the records of a collective step, else LEN bytes. -/
def packetPayload (cls : BitVec 8) (p : Packet) : List Byte :=
  if 9 ≤ cls.toNat ∧ cls.toNat ≤ 11 then p.records.flatMap (fun r => bytesOf 16 r.toNat) else bytesOf p.len.toNat p.data.toNat

/-- The nonce of a sealed packet (R326). -/
def packetNonce (p : Packet) (count : Nat) : BitVec 96 := p.domain ++ p.src ++ p.dst ++ BitVec.ofNat 48 count

/-- The payload of a sealed packet, encrypted, and its 16-byte tag (R326). -/
def sealPayload (ix no : Nat) (nonce : BitVec 96) (header payload : List Byte) : List Byte :=
  payload.zipIdx.map (fun b => b.1 ^^^ Config.gcmStream ix no nonce b.2) ++ bytesOf 16 (Config.gcmTag ix no nonce header payload).toNat

/-- R324 to R326: a packet with the next SEQ of its (SRC, DST, VC) leaves through the link die. A sealed one takes the next nonce of
its key, which is replaced before its counter wraps. -/
def sendPacket (sealing : Bool) (cls : BitVec 8) (p0 : Packet) (s : State) : State :=
  let at_ := p0.dst.toNat * 256 + p0.vc.toNat
  let seq := (lookup at_ s.link.seqOut).getD 0
  let p := { p0 with seq := BitVec.ofNat 32 seq }
  let out (bs : List Byte) : Sent := ⟨bs, p.pa, p.size, p.op, p.ident⟩
  let l := { s.link with seqOut := put at_ (seq + 1) s.link.seqOut }
  if sealing then
    let ix := linkKeyIx p.domain.toNat p.src.toNat p.dst.toNat
    let full : Bool := decide (2 ^ 48 - 1 ≤ (lookup ix s.link.sealedCount).getD 0)
    let no := (lookup ix s.link.keyNo).getD 0 + (if full then 1 else 0)
    let n := if full then 0 else (lookup ix s.link.sealedCount).getD 0
    { s with link := { l with
        keyNo := if full then put ix no s.link.keyNo else s.link.keyNo
        sealedCount := put ix (n + 1) s.link.sealedCount
        outbox := s.link.outbox ++ [out (packetHeader cls p ++ sealPayload ix no (packetNonce p n) (packetHeader cls p) (packetPayload cls p))] } }
  else { s with link := { l with outbox := s.link.outbox ++ [out (packetHeader cls p ++ packetPayload cls p)] } }

/-- A request packet of a VD (R324). -/
def requestPacket (s : State) (vd pkg pa size : Nat) (op : PacketOp) (len : Nat) (data : BitVec 512) : Packet :=
  { vc := 0, domain := BitVec.ofNat 16 (bits (s.vd vd).desc.dombase.toNat 25 10), src := BitVec.ofNat 16 s.pkg
    dst := BitVec.ofNat 16 pkg, seq := 0, len := BitVec.ofNat 16 len, pa := BitVec.ofNat 52 pa, size := size, op := op
    data := data.zeroExtend 4096, ident := s.nextId, tagGood := true, group := 0, tag := 0, alpha := 0, dtype := 0, redop := 0
    contrib := 0, step := 0, records := [] }

/-- Request `ident` leaves; its answer or acknowledgement is awaited. -/
def sendRequest (ident : Nat) (cls : BitVec 8) (pkg pa size : Nat) (op : PacketOp) (len : Nat) (data : BitVec 512) (kind : ReqKind)
    (va : Nat) (s : State) : State :=
  let s1 := sendPacket s.myVd.seals cls { requestPacket s s.here.vd pkg pa size op len data with ident := ident } s
  { s1 with link := { s1.link with
      reqs := s1.link.reqs ++ [⟨ident, pkg, s.cur.core, s.cur.ctx.val, kind, s.here.vd, va, pa⟩] } }

/-- R331: what a load or an ATOM of a lost package takes. -/
def lostTrap {α : Type} (pa : Nat) (kind : Nat) : M α := fun s =>
  let (s1, a) := s.errorRecord s.here.vd (BitVec.ofNat 64 pa) s.me.pc 7 kind 0 s.cur.core s.cur.ctx.val
  .error (.keepTrap s1 Cause.mchk a)

/-- The read of a WAITA at another package: sent once, then awaited (R107, R332). -/
def remoteAsk (pkg pa len va : Nat) : M (BitVec 512) := fun s =>
  match s.me.answer with
  | some v => .ok (v, s)
  | none =>
    if s.link.lost.contains pkg then lostTrap pa 0 s
    else if s.me.ask.isSome then .error (.wait .remote)
    else .error (.keepWait ({ sendRequest s.nextId 1 pkg pa len .none 0 0 .waita va s with nextId := s.nextId + 1 }.updMe
      (fun c => { c with ask := some s.nextId })) .remote)

/-- A store or update to another package leaves as request `ident`; the context goes on (R136, R331). -/
def remoteStore (ident : Nat) (cls : BitVec 8) (pkg pa size : Nat) (op : PacketOp) (data : BitVec 512) (va : Nat) (s : State) : State :=
  if s.link.lost.contains pkg then s.interrupt s.here.vd 2
  else
    ((sendRequest ident cls pkg pa size op size data .store va s).updMe (fun c => { c with remote := c.remote ++ [(ident, pkg)] })).wroteFar
      s.cur.core va pa (if cls = 3 then some (bytesOf size data.toNat) else none)

/-! ### Loads and stores of a context -/

/-- What a load brings: bytes, or the record of an uncorrectable error in place of a value (R342). -/
inductive Loaded where
  | bytes (bs : List Byte)
  | bad (record : W64)
  deriving DecidableEq, Repr

/-- An error record for a failing column word that an access of the issuing context has met at its home (R342, R343). -/
def consumeBad (ps : List Place) (kind : Nat) (s : State) : State × W64 :=
  s.wordRecord s.here.vd none ps s.me.pc kind s.cur.core s.cur.ctx.val

/-- Bytes read at their home, which first recalls update-only lines of them (R148), by the instruction at `pc`. -/
def readAtHome (kind : Nat) (pc : W64) (ps : List Place) (s0 : State) : State × Loaded :=
  let s := s0.recall ps
  if s.fails ps then
    let r := s.wordRecord s.here.vd none ps pc kind s.cur.core s.cur.ctx.val
    (r.1, .bad r.2)
  else (s, .bytes (ps.map s.readByte))

def readHome (k : AccessKind) (ps : List Place) : M Loaded := fun s =>
  .ok ((readAtHome (kindCode k) s.me.pc ps s).2, (readAtHome (kindCode k) s.me.pc ps s).1)

/-- Bytes of the management window. -/
def mgmtBytes (off len : Nat) (s : State) : List Byte :=
  (((List.range (len / 8 + 2)).flatMap (fun i => bytesOf 8 (s.mgmtRead (off / 8 * 8 + 8 * i)).toNat)).drop (off % 8)).take len

/-- The scratchpad belongs to another VD (R216). -/
def State.foreign (s : State) (c : Nat) : Bool := (s.core c).vd != s.here.vd

/-- Bytes of a scratchpad, read by the instruction at `pc`: a failing word gives a record and no value (R342), and a scratchpad of another
VD shows nothing of it (R216, log 58). -/
def spmLoad (c off len : Nat) (addr pc : W64) (s : State) : State × Loaded :=
  if s.foreign c then
    ({ s with nextId := s.nextId + len }, .bytes ((List.range len).map (fun i => (Config.foreignSpm (s.nextId + i)).setWidth 8)))
  else if (s.core c).bad.any (fun w => overlap (8 * w) 8 off len) then
    let r := s.errorRecord s.here.vd addr pc 1 0 (Config.syndrome s.errSeq).toNat s.cur.core s.cur.ctx.val
    (r.1, .bad r.2)
  else (s, .bytes (s.spmRead c off len))

/-- Bytes of a load that are there at once; a part of another package, or one that waits at its bank, reads as zeros here. -/
def readNear (kind : Nat) (pc : W64) (va len : Nat) : Target → State → State × Loaded
  | .home ps, s => if s.busy .read ps then (s, .bytes (List.replicate ps.length 0)) else readAtHome kind pc ps s
  | .mgmt off _, s => (s, .bytes (mgmtBytes off len s))
  | .remote _ _ n, s => (s, .bytes (List.replicate n 0))
  | .spm c off n, s => spmLoad c off n (BitVec.ofNat 64 va) pc s
  | .two n a b, s =>
    let x := readNear kind pc va n a s
    let y := readNear kind pc (va + n) (len - n) b x.1
    (y.1, match x.2, y.2 with
      | .bytes u, .bytes v => .bytes (u ++ v)
      | .bad r, _ => .bad r
      | _, .bad r => .bad r)

def readTarget (k : AccessKind) (len : Nat) (t : Target) : M Loaded := fun s =>
  .ok ((readNear (kindCode k) s.me.pc 0 len t s).2, (readNear (kindCode k) s.me.pc 0 len t s).1)

/-- Bytes of this package read at once, or once the bank gives a window (R371). -/
def readOrAsk (k : AccessKind) (len : Nat) (t : Target) : M Loaded := fun s =>
  if t.places.any (fun p => s.closed .read p) then .error (.keepWait (s.askWindow s.here.vd t.places) .bank)
  else match t with
    | .home ps => .ok ((readAtHome (kindCode k) s.me.pc ps s).2, (readAtHome (kindCode k) s.me.pc ps s).1)
    | t => readTarget k len t s

/-- The line of an access by its first byte, as memory is keyed, or as an L1 numbers a line of another package. -/
def Target.line : Target → Nat
  | .home ps => (ps.headD ⟨0, 0, 0⟩).key / 64
  | .remote _ pa _ => farKey pa
  | _ => 0

/-- The read of WAITA (R107), at a global address, and its line: it comes after earlier accesses of the context to its bytes (R136), and
waits for a window where its bank is held (R371). -/
def loadGlobal (va len : Nat) (k : AccessKind) : M (Loaded × Nat) := do
  let t ← reach va len k
  checkWatch va len true false
  let s ← get
  waitIf (!(s.before t).isEmpty) .fence
  match t with
  | .remote pkg pa _ => do
    let v ← remoteAsk pkg pa len va
    pure (.bytes (bytesOf len v.toNat), t.line)
  | t => do
    let l ← readOrAsk k len t
    pure (l, t.line)

/-! ### Loads whose value comes later (R135, R136, R371) -/

/-- The lane of LDX from the bits of an element (R140); `rounding` is its mode and stream word (R47). -/
def LoadShape.result : LoadShape → List Byte → List W64 × Fl
  | .word size sign, bs => ([if sign then sext64 (8 * size) (ofBytes bs) else BitVec.ofNat 64 (ofBytes bs)], 0)
  | .slots n, bs => (wordsOf n (ofBytes bs), 0)
  | .lanes p t mode ws, bs =>
    let lanes := ws.zipIdx.map (fun x => laneOf p t ⟨mode, x.1⟩ bs x.2)
    (wordsOf 2 (packFields (xBits t) (lanes.map (·.1))), orFlags lanes)

/-- The packages of the parts of a target that lie in others. -/
def Target.packages : Target → List (Nat × Nat)
  | .remote pkg pa _ => [(pkg, pa)]
  | .two _ a b => a.packages ++ b.packages
  | _ => []

/-- What a request does at a bank (R324). -/
def bankOf (op : PacketOp) (data : BitVec 512) : BankOp :=
  match op with
  | .atom o e => .atom o.toNat data.toNat e.toNat
  | .upd t o => .upd t.toNat o.toNat data.toNat
  | .none => .read

/-- The parts of an access from a virtual address that lie in one line each: offset in the access, length. -/
def lineChunks (va : Nat) : Nat → Nat → Nat → List (Nat × Nat)
  | 0, _, _ => []
  | fuel + 1, at_, len =>
    if len = 0 then []
    else
      let n := min len (64 - (va + at_) % 64)
      (at_, n) :: lineChunks va fuel (at_ + n) (len - n)

def chunksOf (va len : Nat) : List (Nat × Nat) := lineChunks va (len / 64 + 2) 0 len

/-- The user of a part of an access of the context that issues, at an offset in it. -/
def State.asUser (s : State) (va off : Nat) : BankUser := .context s.cur.core s.cur.ctx.val ((va + off) % 2 ^ 55 / 64)

/-- The parts of an access that waits at a bank: one request for each line of 64 bytes. -/
def postParts (op : BankOp) (va : Nat) (ps : List Place) (s : State) : State × List LoadPart :=
  (chunksOf va ps.length).foldl (fun acc c =>
    let n := acc.1.nextId
    ({ acc.1.post n acc.1.here.vd (acc.1.asUser va c.1) (ps.getD c.1 ⟨0, 0, 0⟩) c.2 op with nextId := n + 1 },
      acc.2 ++ [⟨n, c.2, 0, c.2, none⟩])) (s, [])

/-- A load of another package: from lines of it that the L1 holds (R234), else a request for each line, the whole of one that it
allocates (R217). -/
def farParts (fill : Bool) (va pkg pa n : Nat) (s : State) : State × List LoadPart :=
  (chunksOf va n).foldl (fun acc c =>
    let a := pa + c.1
    let v := (va + c.1) % 2 ^ 55
    match acc.1.farLine acc.1.cur.core (v / 64) with
    | some d => (acc.1, acc.2 ++ [⟨acc.1.nextId, 64, a % 64, c.2, some (bytesOf 64 d.toNat)⟩])
    | none =>
      let id := acc.1.nextId
      let x := if fill then (a / 64 * 64, 64, a % 64) else (a, c.2, 0)
      ({ sendRequest id 1 pkg x.1 x.2.1 .none 0 0 .load v acc.1 with nextId := id + 1 }, acc.2 ++ [⟨id, x.2.1, x.2.2, c.2, none⟩])) (s, [])

/-- The parts of a load: requests to other packages leave, those of busy banks wait there, other bytes are taken. -/
def sendParts (cls : BitVec 8) (op : PacketOp) (data : BitVec 512) (fill : Bool) (len va : Nat) (near : List Byte) :
    Target → State → State × List LoadPart
  | .remote pkg pa n, s =>
    if cls = 1 then farParts fill va pkg pa n s
    else ({ sendRequest s.nextId cls pkg pa n op n data .load va s with nextId := s.nextId + 1 }, [⟨s.nextId, n, 0, n, none⟩])
  | .two n a b, s =>
    let x := sendParts cls op data fill n va (near.take n) a s
    let y := sendParts cls op data fill (len - n) ((va + n) % 2 ^ 55) (near.drop n) b x.1
    (y.1, x.2 ++ y.2)
  | .home ps, s => if s.busy (bankOf op data) ps then postParts (bankOf op data) va ps s else (s, [⟨s.nextId, len, 0, len, some near⟩])
  | _, s => (s, [⟨s.nextId, len, 0, len, some near⟩])

/-- The bytes that the load wants of a part. -/
def LoadPart.bytes (p : LoadPart) : List Byte := ((p.data.getD []).drop p.skip).take p.len

/-- An acquire at DOMAIN scope is performed (R234); one at CLUSTER scope drops nothing. -/
def Load.acquired (l : Load) (s : State) : State :=
  match l.target with
  | .spm _ _ _ => s
  | _ => if l.acq || l.atomic then s.dropFar s.cur.core else s

/-- A load whose parts have all come delivers (R38, R135). -/
def finishLoad (l : Load) (s : State) : State :=
  let r := l.shape.result (l.parts.flatMap LoadPart.bytes)
  (raiseFlags r.2 (deliverTag l.tag r.1 (l.acquired s))).updMe (fun c => { c with loads := c.loads.filter (fun x => x.tag != l.tag) })

/-- The load as the context now holds it, in place of the one with its tag. -/
def putLoad (l : Load) (s : State) : State :=
  s.updMe (fun c => { c with loads := c.loads.map (fun (x : Load) => if x.tag = l.tag then l else x) })

/-- The context's load that waits for a request. -/
def Context.loadOf (c : Context) (ident : Nat) : Option Load :=
  c.loads.find? (fun l => l.parts.any (fun p => p.ident == ident && p.data.isNone))

/-- Bytes of a part come for the context that acts (R332). -/
def answerPart (ident : Nat) (v : BitVec 512) (s : State) : State :=
  match s.me.loadOf ident with
  | none => s
  | some l =>
    let l1 : Load := { l with parts := l.parts.map (fun (p : LoadPart) =>
      if p.ident = ident ∧ p.data = none then { p with data := some (bytesOf p.asks v.toNat) } else p) }
    if l1.parts.all (fun p => p.data.isSome) then finishLoad l1 s else putLoad l1 s

/-- A load meets an uncorrectable error: the destination gets no value, a port no word and a pointer no store (R342). -/
def failLoad (l : Load) (record : W64) (s : State) : State :=
  let s1 := { s with inflight := s.inflight.filter (fun m => m.due != some l.tag) }
  s1.updHere (fun k => { k with
    spmDue := k.spmDue.filter (fun w => !(w.due.isNone && w.tag == l.tag))
    ctxs := k.ctxs.set s.cur.ctx { k.ctxs[s.cur.ctx] with
      loads := (k.ctxs[s.cur.ctx]).loads.filter (fun x => x.tag != l.tag)
      poison := (k.ctxs[s.cur.ctx]).poison ++ [(l.tag, record)] } })

def failPart (ident : Nat) (record : W64) (s : State) : State :=
  match s.me.loadOf ident with
  | none => s
  | some l => failLoad l record s

/-! ### Accesses that have waited at their bank (R254, R255, R259, R371) -/

/-- A response to a request of another package (R324), sealed as the VD that answers seals (R326). -/
def respond (sealing : Bool) (cls : BitVec 8) (p : Packet) (len : Nat) (data : BitVec 4096) (s : State) : State :=
  sendPacket sealing cls { p with
    vc := 1, src := p.dst, dst := p.src, len := BitVec.ofNat 16 len, data := data, tagGood := true } s

/-- A refusal, which counts as the acknowledgement (R323). No VD answers it: DESIGN CHOICE (log 71), it is sealed where the domain's VDs
here seal. -/
def refuse (p : Packet) (s : State) : State := respond (s.sealedDomain p.domain) 8 p 0 0 s

/-- A read of several lines has a line more; with the last one it is answered. -/
def answerGather (ident : Nat) (v : Nat) (s : State) : State :=
  match s.gathers.find? (fun g => g.parts.any (fun p => p.1 == ident)) with
  | none => s
  | some g =>
    let g1 : Gather := { g with parts := g.parts.map (fun p => if p.1 = ident then (p.1, p.2.1, some (bytesOf p.2.1 v)) else p) }
    if g1.parts.all (fun p => p.2.2.isSome) then
      let bs := g1.parts.flatMap (fun p => p.2.2.getD [])
      let s1 := { s with gathers := s.gathers.filter (· != g) }
      match g.packet with
      | some p => respond (s.vd g.vd).seals 2 p bs.length (BitVec.ofNat 4096 (ofBytes bs)) s1
      | none => { s1 with output := s1.output ++ [.data (BitVec.ofNat 64 (ofBytes bs))] }
    else { s with gathers := s.gathers.map (fun x => if x = g then g1 else x) }

/-- A read of several lines meets an uncorrectable error: the request is refused, the reader outside gets no stated value (log 5). -/
def failGather (ident : Nat) (s : State) : State :=
  match s.gathers.find? (fun g => g.parts.any (fun p => p.1 == ident)) with
  | none => s
  | some g =>
    let s1 := { s with gathers := s.gathers.filter (· != g) }
    match g.packet with
    | some p => refuse p s1
    | none => { s1 with output := s1.output ++ [.data (Config.freeAddr s1.nextId)], nextId := s1.nextId + 1 }

/-- A line comes for an engine command of the core, or fails: the command then ends FAULT and its context takes MCHK (R162, R324, R342). -/
def EngCmd.line (ident : Nat) (v : BitVec 512) (bad : Bool) (e : EngCmd) : EngCmd :=
  if e.lines.any (fun l => l.1 == ident && l.2.2.isNone) then
    { e with
      lines := e.lines.map (fun l => if l.1 = ident then (l.1, l.2.1, some v) else l)
      status := if bad then e.status ||| 0x80 else e.status }
  else e

def engineLine (c ident : Nat) (v : BitVec 512) (s : State) : State :=
  s.updCore c (fun k => { k with copies := k.copies.map (EngCmd.line ident v false), mx := k.mx.map (EngCmd.line ident v false) })

/-- The context whose engine command waits for a request. -/
def Core.engineOf (k : Core) (ident : Nat) : Option Nat :=
  ((k.copies ++ k.mx).find? (fun e => e.lines.any (fun l => l.1 == ident && l.2.2.isNone) || e.idents.contains ident)).map (·.ctx)

def engineFails (c ident : Nat) (record : W64) (s : State) : State :=
  match (s.core c).engineOf ident with
  | none => s
  | some x => (s.updCtx c x (fun m => { m with mchk := some record })).updCore c (fun k =>
      { k with copies := k.copies.map (EngCmd.line ident 0 true), mx := k.mx.map (EngCmd.line ident 0 true) })

/-- The value of a served access reaches whoever asked for it. -/
def answerUser (q : OutsideReq) (v : Nat) (s : State) : State :=
  match q.user with
  | .context c x _ => asContext c x (answerPart q.ident (BitVec.ofNat 512 v)) s
  | .packet p => respond (s.vd q.vd).seals (if q.op = .read then 2 else 5) p q.len (BitVec.ofNat 4096 v) s
  | .gather => answerGather q.ident v s
  | .engine c => engineLine c q.ident (BitVec.ofNat 512 v) s
  | _ => s

/-- A write of an engine command of the core has been performed (R168). -/
def engineAck (c ident : Nat) (s : State) : State :=
  let done (e : EngCmd) : EngCmd := { e with idents := e.idents.filter (· != ident) }
  s.updCore c (fun k => { k with copies := k.copies.map done, mx := k.mx.map done })

/-- A line of a write has been performed: the write is over when each of its lines is (R136). -/
def ackUser (q : OutsideReq) (s : State) : State :=
  match q.user with
  | .context c x _ => s.updCtx c x (fun m =>
      match m.parked.find? (fun p => p.sent && (p.id == q.ident || p.id + 1 == q.ident)) with
      | some p => if s.waiting p.id || s.waiting (p.id + 1) then m
        else { m with parked := m.parked.filter (· != p), unacked := m.unacked + 1 }
      | none => m)
  | .packet p => if s.waiting q.ident then s else respond (s.vd q.vd).seals 7 p 0 0 s
  | .engine c => if s.waiting q.ident then s else engineAck c q.ident s
  | _ => s

/-- The address of the instruction that a waiting access of a context is for (R343). -/
def Context.pcOf (c : Context) (ident : Nat) : W64 :=
  match c.loadOf ident with
  | some l => l.pc
  | none => ((c.parked.find? (fun p => p.id == ident || p.id + 1 == ident)).map (·.pc)).getD c.pc

/-- Who is named as the consumer in a record about a waiting access: core, context, instruction. -/
def OutsideReq.consumer (q : OutsideReq) (s : State) : Nat × Nat × W64 :=
  match q.user with
  | .context c x _ => (c, x, (s.ctx c x).pcOf q.ident)
  | .engine c => (c, ((s.core c).engineOf q.ident).getD 0xFF, 0)
  | _ => (0xFFFFFFFF, 0xFF, 0)

/-- An uncorrectable error in what a waiting access reads or writes in part: a record, and no value (R342, R343). -/
def failUser (q : OutsideReq) (ps : List Place) (kind : Nat) (s : State) : State :=
  let w := q.consumer s
  let kind := match q.user with
    | .engine _ => 4
    | _ => kind
  let r := s.wordRecord q.vd q.stamp ps w.2.2 kind w.1 w.2.1
  if !q.op.reads then ackUser q r.1
  else match q.user with
    | .context c x _ => asContext c x (failPart q.ident r.2) r.1
    | .packet p => refuse p r.1
    | .gather => failGather q.ident r.1
    | .engine c => engineFails c q.ident r.2 r.1
    | _ => r.1

/-- A write that arrived before a course opened at its row is not held (R255): it is performed in the row that its stamp sees, and the
course keeps the bytes as they stood at its opening (R266). -/
def State.writeStamped (s : State) (stamp : Option Nat) (bs : List (Place × Byte)) (keep : Option (Nat × L1Line)) : State :=
  let old (c : Course) (p : Place) : Course :=
    if c.opened && !c.flipped && c.foot.contains (p.rank, p.row) && (lookup p.key c.under).isNone then
      { c with under := put p.key (s.bankByte p) c.under } else c
  let s1 := { s with courses := s.courses.map (fun (c : Course) => bs.foldl (fun c (b : Place × Byte) => old c b.1) c) }
  let cell (p : Place) : Nat := (s.rank p.rank).physAt p.row stamp
  ((bs.foldl (fun (s : State) (b : Place × Byte) =>
      s.poke (s.drawAt b.1.rank b.1.row) (cellKey b.1.rank (cell b.1) b.1.byte) b.2) s1).soundAgain
    (bs.map (fun b => cellKey b.1.rank (cell b.1) b.1.byte))).wrote (bs.map (·.1)) keep cell

/-- The line of the L1 that an access has hit, which a store leaves in place (R217). -/
def State.hitLine (s : State) (user : BankUser) (vd : Nat) : Option (Nat × L1Line) :=
  match user with
  | .context c _ line => (s.l1Find c vd line).map (fun l => (s.l1Core c line, l))
  | _ => none

/-- The bytes of a served write: into the hold buffer of an open course if it arrived after the opening, else into the row. -/
def serveWrite (q : OutsideReq) (s : State) (bs : List (Place × Byte)) : State :=
  let keep := if q.op.reads then none else s.hitLine q.user q.vd
  if q.held then s.writePlaces bs keep else s.writeStamped q.stamp bs keep

/-- The places of a request. -/
def OutsideReq.places (q : OutsideReq) (rank : Nat) : List Place := (List.range q.len).map (fun i => ⟨rank, q.row, q.col + i⟩)

/-- A request is performed at its places (R371). -/
def serveAt (ps : List Place) (q : OutsideReq) (s0 : State) : State :=
  let s := s0.recall ps
  match q.op with
  | .window => s
  | .read => if s.failsAt q.stamp ps then failUser q ps 0 s else answerUser q (ofBytes (ps.map (s.readAt q.stamp))) s
  | .write bs => if s.partOfBad ps then failUser q ps 1 s else ackUser q (serveWrite q s (ps.zip bs))
  | .atom op d e =>
    if s.failsAt q.stamp ps then failUser q ps 2 s
    else
      let old := ofBytes (ps.map (s.readAt q.stamp))
      answerUser q old (serveWrite q s (ps.zip (bytesOf ps.length (atomNew op (8 * ps.length) old d e))))
  | .upd ty op v => ackUser q (applyUpdate q.vd q.stamp ps ty op v (serveWrite q) s)

/-- A request is served at the bank, or accepted into the hold buffer. -/
def serveRequest (rank : Nat) (q : OutsideReq) (s : State) : State :=
  serveAt (q.places rank) q (s.updRank rank (fun k => { k with pending := k.pending.erase q }))

/-- A waiting request can be served, as far as those before it in the queue let it: in a window, or while no rank holds the bank; a held
write needs only room (R256, R258, R270, R371). -/
def State.mayServe (s : State) (rank : Nat) (window : Bool) (before : List OutsideReq) (q : OutsideReq) : Bool :=
  let hold := q.held && s.inFootprint rank q.row && !q.op.reads
  !s.holdFull q.op ⟨rank, q.row, q.col⟩ && !Rank.lineBusy before q.row q.col &&
    (hold || ((window || !(s.rank rank).holdsBank) && !s.blocked rank q.row q.stamp))

/-- Up to n of the waiting requests that can be served are, in the order of their arrival. -/
def serveQueue (window : Bool) (rank : Nat) (before : List OutsideReq) : List OutsideReq → Nat → State → State
  | [], _, s => s
  | q :: r, n, s =>
    if n = 0 then s
    else if s.mayServe rank window before q then serveQueue window rank before r (n - 1) (serveRequest rank q s)
    else serveQueue window rank (before ++ [q]) r n s

def serveBank (window : Bool) (n rank : Nat) (s : State) : State :=
  (serveQueue window rank [] (s.rank rank).pending n s).updRank rank Rank.freeOld

/-- Everything that can be served at a bank now is. -/
def settleBank (rank : Nat) (s : State) : State := serveBank false (s.rank rank).pending.length rank s

/-- Everything that can be served at the banks of these places is. -/
def settlePlaces (ps : List Place) (s : State) : State := (dedup (ps.map (·.rank))).foldl (fun s r => settleBank r s) s

/-- A load that waits for nothing any more is performed as far as its bytes are there; requests for the others leave, or wait at their
banks. One of a lost package, or of a failing word, brings no value (R331, R342). -/
def sendLoad (cls : BitVec 8) (op : PacketOp) (data : BitVec 512) (l : Load) (s : State) : State :=
  match l.target.packages.find? (fun p => s.link.lost.contains p.1) with
  | some p =>
    let r := s.errorRecord s.here.vd (BitVec.ofNat 64 p.2) l.pc 7 (if cls = 4 then 2 else 0) 0 s.cur.core s.cur.ctx.val
    failLoad l r.2 r.1
  | none =>
    match readNear 0 l.pc l.va l.len l.target s with
    | (s1, .bad r) => failLoad l r s1
    | (s1, .bytes near) =>
      let x := sendParts cls op data l.fill l.len l.va near l.target s1
      let l1 : Load := { l with sent := true, parts := x.2 }
      if x.2.all (fun p => p.data.isSome) then finishLoad l1 { x.1 with nextId := x.1.nextId + 1 }
      else settlePlaces (if l.target.busy s1 (bankOf op data) then l.target.places else []) (putLoad l1 { x.1 with nextId := x.1.nextId + 1 })

/-- A load, or an ATOM (class 4), that has no value yet: it goes on, and its destination waits for the value (R135, R136); one of a
lost package takes MCHK (R331). `sources` consumes the operands. -/
def farLoad (cls : BitVec 8) (op : PacketOp) (data : BitVec 512) (d : Opnd) (shape : LoadShape) (acq fill : Bool) (va len : Nat)
    (sources : State → State) (t : Target) : M Unit := fun s =>
  match (if (s.before t).isEmpty then t.packages.find? (fun p => s.link.lost.contains p.1) else none) with
  | some p => lostTrap p.2 (if cls = 4 then 2 else 0) s
  | none =>
    let after := s.before t
    let l : Load := ⟨s.nextId, va, len, shape, s.me.pc, acq, cls == 4, fill, t, after, false, []⟩
    let s1 := (deliver d (.later s.nextId) (List.replicate d.words 0) (sources { s with nextId := s.nextId + 1 })).updMe (fun c =>
      { c with loads := c.loads ++ [l] })
    .ok ((), if after.isEmpty then sendLoad cls op data l s1 else s1)

/-- An outside access arrives at the front end of its bank: it is served at once, or waits (R259, R371). -/
def arrive (ident vd : Nat) (user : BankUser) (p : Place) (len : Nat) (op : BankOp) (s0 : State) : State :=
  let s := s0.wakeBanks [p]
  if s.mustQueue op p then s.post ident vd user p len op
  else serveRequest p.rank ⟨ident, vd, user, p.row, p.byte, len, op, some s.ring, s.holds op p.rank p.row⟩ s

/-- An outside write of bytes at their places arrives, line by line, under one number. -/
def arriveWrite (ident vd : Nat) (user : BankUser) (bs : List (Place × Byte)) (s : State) : State :=
  (runsOf bs).foldl (fun s r => arrive ident vd user r.1 r.2.length (.write r.2) s) s

/-- A read of another package, or of a reader outside, arrives line by line; it is answered with its last line (R332). -/
def arriveRead (vd : Nat) (packet : Option Packet) (ps : List Place) (s : State) : State :=
  let rs := placeRuns ps
  let n := s.nextId
  let s1 := { s with
    gathers := s.gathers ++ [⟨packet, vd, rs.zipIdx.map (fun r => (n + r.2, r.1.2, none))⟩], nextId := n + rs.length }
  rs.zipIdx.foldl (fun s r => arrive (n + r.2) vd .gather r.1.1 r.1.2 .read s) s1

/-! ### Stores -/

/-- An 8-byte-wise write to the management window; a narrower one changes nothing. -/
def mgmtStore (off : Nat) (bs : List Byte) (s : State) : State :=
  if off % 8 = 0 ∧ bs.length % 8 = 0 then
    (List.range (bs.length / 8)).foldl (fun s i =>
      s.mgmtWrite (off + 8 * i) (BitVec.ofNat 64 (ofBytes ((bs.drop (8 * i)).take 8)))) s
  else s

/-- Bytes stored at their home, once nothing can hold the store back: update-only lines are merged first (R148), copies of its lines go but
for the ones it hits (R217), and a footprint row of an open course holds the write (R255, R342). -/
def storeHome (va : Nat) (pc : W64) (ps : List Place) (bs : List Byte) (s0 : State) : State :=
  let s := s0.recall ps
  let s1 := if s.partOfBad ps then (s.wordRecord s.here.vd none ps pc 1 s.cur.core s.cur.ctx.val).1
    else (chunksOf va ps.length).foldl (fun s c =>
      s.writePlaces ((ps.zip bs).drop c.1 |>.take c.2) (s.hitLine (s.asUser va c.1) s.here.vd)) s
  s1.updMe (fun c => { c with unacked := c.unacked + 1 })

/-- A store of which a bank is busy arrives line by line; what cannot be performed waits there (R371). -/
def postStore (ident va : Nat) (ps : List Place) (bs : List Byte) (s : State) : State :=
  let s1 := (chunksOf va ps.length).foldl (fun s c =>
    arrive ident s.here.vd (s.asUser va c.1) (ps.getD c.1 ⟨0, 0, 0⟩) c.2 (.write ((bs.drop c.1).take c.2)) s) s
  if s1.waiting ident then s1 else s1.updMe (fun c => { c with unacked := c.unacked + 1 })

/-- A store of bytes that has translated is performed, waits at its banks, or leaves for another package, as request `ident` (its
second part as the next number). -/
def storeAs (ident va : Nat) (pc : W64) : Target → List Byte → State → State
  | .home ps, bs, s => if s.busy (.write bs) ps then postStore ident va ps bs s else storeHome va pc ps bs s
  | .mgmt off _, bs, s => mgmtStore off bs s
  | .remote pkg pa _, bs, s => remoteStore ident 3 pkg pa bs.length .none (BitVec.ofNat 512 (ofBytes bs)) va s
  | .spm _ _ _, _, s => s
  | .two n a b, bs, s => storeAs (ident + 1) ((va + n) % 2 ^ 55) pc b (bs.drop n) (storeAs ident va pc a (bs.take n) s)

/-- Every access of the context that is not performed, by its numbers (R136). -/
def State.outIds (s : State) : List Nat :=
  s.me.remote.map (·.1) ++ s.me.loads.map (·.tag) ++ s.me.parked.flatMap (fun p => [p.id, p.id + 1]) ++
    s.here.duesOf s.cur.ctx.val ++ s.merging s.cur.core

/-- None of these accesses is outstanding, but for `self` (a parked store has two numbers). -/
def State.mayLeave (s : State) (self : Nat) (ids : List Nat) : Bool :=
  ids.all (fun a => a == self || a == self + 1 || !(s.outIds.contains a || s.cores.any (fun e => e.2.spmDue.any (·.tag == a))))

/-- A store that must wait is parked (R108, R136): the context goes on (R142). -/
def park (va : Nat) (bs : List Byte) (t : Target) (full : Option Bool) (awaits after : List Nat) (s : State) : State :=
  { s.updMe (fun c => { c with parked := c.parked ++ [⟨s.nextId, va, bs, t, full, s.me.pc, awaits, after, false, s.here.vd⟩] }) with
    nextId := s.nextId + 2 }

/-- A store that has its numbers leaves; it stays parked while it waits at a bank. -/
def sendStore (p : Parked) (s : State) : State :=
  let s1 := storeAs p.id p.va p.pc p.target p.data s
  if s1.waiting p.id || s1.waiting (p.id + 1) then s1.updMe (fun c => { c with parked := c.parked ++ [{ p with sent := true }] })
  else s1

/-- A store leaves now; it takes request numbers only for another package or a busy bank. One to bytes of an earlier access that is not
performed, or behind an acquire that is not, stays behind it (R136) without holding its context (R142). -/
def storeTarget (t : Target) (va : Nat) (bs : List Byte) (s : State) : State :=
  match s.before t with
  | [] =>
    if t.far || t.busy s (.write bs) then
      sendStore ⟨s.nextId, va, bs, t, none, s.me.pc, [], [], false, s.here.vd⟩ { s with nextId := s.nextId + 2 }
    else storeAs 0 va s.me.pc t bs s
  | ids => park va bs t none [] ids s

/-- ST.rel and STV.rel (R136, R142): performed at once when every earlier access is, else parked until they are. -/
def storeRelease (t : Target) (va : Nat) (bs : List Byte) (s : State) : State :=
  if s.releasable then storeTarget t va bs s else park va bs t none s.outIds [] s

/-- R136: a release at DOMAIN that has no parked form waits for the earlier accesses of the context. -/
def release : M Unit := fun s => if s.releasable then .ok ((), s) else .error (.wait .remote)

/-- Deliver a loaded value; an uncorrectable error leaves the destination without a value (R342). -/
def deliverLoaded (d : Opnd) (l : Loaded) (f : List Byte → List W64) (s : State) : State :=
  match l with
  | .bytes bs => deliver d .now (f bs) s
  | .bad a => deliverBad d a s

/-! ### Local accesses -/

/-- The core and offset of a local address, and the traps of its range (R134). -/
def localCands (s : State) (addr : W64) (len align : Nat) : List Cand :=
  (if addr.toNat % align ≠ 0 then [Cand.align addr] else []) ++
    (if spmSize < (localTarget s.cur.core addr).2 + len then [Cand.spmrange addr] else [])

/-- The bytes that a local address names. -/
def spmTarget (s : State) (addr : W64) (len : Nat) : Target :=
  .spm (localTarget s.cur.core addr).1 (localTarget s.cur.core addr).2 len

/-- A read of scratchpad bytes by an instruction that has nothing to wait for: banks are taken (R214) and failing words found. -/
def loadLocal (addr : W64) (len : Nat) : M Loaded := fun s =>
  let (c, off) := localTarget s.cur.core addr
  let r := spmLoad c off len addr s.me.pc (touchAt c off len s)
  .ok (r.2, r.1)

/-- Bytes stored at a place of a scratchpad, by the instruction at `pc`. -/
def spmStore (c off : Nat) (addr pc : W64) (bs : List Byte) (s : State) : State :=
  if s.foreign c then s
  else if (s.core c).bad.any (fun w => overlap (8 * w) 8 off bs.length && !(decide (off ≤ 8 * w) && decide (8 * w + 8 ≤ off + bs.length)))
  then (s.errorRecord s.here.vd addr pc 1 1 (Config.syndrome s.errSeq).toNat s.cur.core s.cur.ctx.val).1
  else s.spmWrite c off bs

def storeLocal (addr : W64) (bs : List Byte) (s : State) : State :=
  let (c, off) := localTarget s.cur.core addr
  spmStore c off addr s.me.pc bs (touchAt c off bs.length s)

/-! ### Full/empty words (R143, R144) -/

def isFull (s : State) (c w : Nat) : Bool := (s.core c).full.contains w

/-- Set a full/empty bit; the list of full words stays sorted. -/
def setFull (c w : Nat) (b : Bool) (s : State) : State :=
  s.updCore c (fun k => { k with
    full := if b then (if k.full.contains w then k.full else insertSorted w k.full) else k.full.filter (· != w) })

/-- The waiters on a word in the order of their arrival (R144). -/
def waitersOn (s : State) (c w : Nat) : List FeWaiter := (s.core c).waiters.filter (fun x => x.word == w)

/-- R144: the request of the context is withdrawn, served or not. -/
def withdraw (c core ctx : Nat) (s : State) : State :=
  s.updCore c (fun k => { k with waiters := k.waiters.filter (fun x => !(x.core == core && x.ctx == ctx)) })

/-- An LDF or LDFE whose word is full completes for the context that acts (R143). -/
def feServe (c w : Nat) (x : FeWaiter) (l : Loaded) (s : State) : State :=
  let s1 := withdraw c x.core x.ctx (consume [.int x.base] s)
  deliverLoaded (.int x.dest) l (fun bs => [BitVec.ofNat 64 (ofBytes bs)]) (if x.empties then setFull c w false s1 else s1)

/-- R144: waiters on a full word are served in the order of their arrival, until one has emptied it; each completes in its own
core's name. One that must wait for something else stays, such as one whose destination is a port with no room (R153). -/
def serveWaiters (c w : Nat) : Nat → State → State
  | 0, s => s
  | n + 1, s =>
    match (waitersOn s c w).head? with
    | none => s
    | some x =>
      if isFull s c w then
        serveWaiters c w n (asContext x.core x.ctx (fun s =>
          match s.waitOf [] (some (.int x.dest)), loadLocal x.addr 8 s with
          | none, .ok (l, s1) =>
            if !(s.before (spmTarget s x.addr 8)).isEmpty then s else (retire x.stall (feServe c w x l s1)).updHere (·.released x.ctx)
          | some .room, _ => s.queueSend (some (.int x.dest))
          | _, _ => s) s)
      else s

/-- A word is set full: the waiters on it are served (R144). -/
def fill (c w : Nat) (s : State) : State := serveWaiters c w (waitersOn s c w).length (setFull c w true s)

/-- The new state of the full/empty bit of a word, if the store sets one. -/
def markWord (c off : Nat) (full : Option Bool) (s : State) : State :=
  match full with
  | none => s
  | some true => fill c (off / 8) s
  | some false => setFull c (off / 8) false s

/-! ### Accesses that are performed later -/

/-- A store at CLUSTER scope (R136): a release waits for every earlier access, and any store for earlier ones to its bytes, without
holding its context (R142). -/
def storeCluster (addr : W64) (bs : List Byte) (rel : Bool) (full : Option Bool) (s : State) : State :=
  let (c, off) := localTarget s.cur.core addr
  let t := Target.spm c off bs.length
  if rel && !s.releasable then park addr.toNat bs t full s.outIds [] (touchAt c off bs.length s)
  else if !(s.before t).isEmpty then park addr.toNat bs t full [] (s.before t) (touchAt c off bs.length s)
  else markWord c off full (storeLocal addr bs s)

/-- A parked store of the context that acts is performed, or leaves. -/
def performParked (p : Parked) (s : State) : State :=
  match p.target with
  | .spm c off _ => markWord c off p.full (spmStore c off (BitVec.ofNat 64 p.va) p.pc p.data s)
  | _ => sendStore p s

/-- The next access of the context that acts that waits for nothing any more: a store, or a load. -/
def State.nextOut (s : State) : Option (Parked ⊕ Load) :=
  match s.me.parked.find? (fun p => !p.sent && s.mayLeave p.id (p.awaits ++ p.after)),
    s.me.loads.find? (fun l => !l.sent && s.mayLeave l.tag l.after) with
  | some p, some l => if p.id < l.tag then some (.inl p) else some (.inr l)
  | some p, none => some (.inl p)
  | none, some l => some (.inr l)
  | none, none => none

/-- Every access of the context that acts that waits for nothing any more is performed, or leaves. -/
def drainOut : Nat → State → State
  | 0, s => s
  | n + 1, s =>
    match s.nextOut with
    | none => s
    | some (.inl p) => drainOut n (performParked p (s.updMe (fun c => { c with parked := c.parked.filter (· != p) })))
    | some (.inr l) => drainOut n (sendLoad 1 .none 0 l s)

/-- The accesses of a context that may go are performed (R136). -/
def drain (c x : Nat) (s : State) : State :=
  let m := s.ctx c x
  if m.parked.all (·.sent) && m.loads.all (·.sent) then s else asContext c x (drainOut (m.parked.length + m.loads.length)) s

end Sys2Proof.Machine
end

