-- ==== Sys2Proof/Machine/Memory.lean ====
section
/-! DEFINITION. Loads and stores (R134 to R141) and the full/empty words (R143, R144). -/

namespace Sys2Proof.Machine

/-- BASE + sext(OFF8) × unit (R66, R134). -/
def unitAddr (base : W64) (o : BitVec 8) (unit : Nat) : W64 := base + o.signExtend 64 * BitVec.ofNat 64 unit

/-- The global address of a form M instruction (R134). -/
def globalAddr (base : W64) (o : BitVec 8) (unit : Nat) : Nat := (va55 (unitAddr base o unit)).toNat

def alignCands (va align : Nat) : List Cand := if va % align ≠ 0 then [Cand.align (BitVec.ofNat 64 va)] else []

/-- The value of a load is not there at once: it comes from another package (R135), from a bank that is held (R371), or after an earlier
access of the context (R136). -/
def Target.later (s : State) (t : Target) : Bool := t.far || t.busy s .read || !(s.before t).isEmpty

/-- An acquire at DOMAIN scope is performed (R234). -/
def acquire (acq : Bool) (s : State) : State := if acq then s.dropFar s.cur.core else s

/-- A load from a global address computed from the base: one whose value comes later goes on (R142), else its value is there. A
non-temporal load allocates no line (R136). -/
def globalLoad (i : Instr) (st : BitVec 3) (b d : Opnd) (o : BitVec 8) (unit size align : Nat) (shape : LoadShape)
    (acq nt : Bool) : State → Out :=
  issue i st.toNat (do
    prepare [b] (some d) (fun s => alignCands (globalAddr (arg1 (s.values [b]) 0) o unit) align)
    let s ← get
    let va := globalAddr (arg1 (s.values [b]) 0) o unit
    let t ← reach va size .load (!nt)
    checkWatch va size true false
    let s ← get
    if t.later s then farLoad 1 .none 0 d shape acq (!nt) va size (consume [b]) t
    else do
      let l ← readTarget .load size t
      upd (fun s => deliverLoaded d l (fun bs => (shape.result bs).1) (acquire acq (consume [b] s))))

/-- A load from a local address; one that comes after an earlier access of the context, or of an interlocked producer, to its bytes, or
after an acquire, goes on (R29, R136, R142). -/
def localLoad (i : Instr) (st : BitVec 3) (b d : Opnd) (o : BitVec 8) (unit size align : Nat) (shape : LoadShape) (acq : Bool) :
    State → Out :=
  issue i st.toNat (do
    prepare [b] (some d) (fun s => localCands s (unitAddr (arg1 (s.values [b]) 0) o unit) size align)
    let s ← get
    let addr := unitAddr (arg1 (s.values [b]) 0) o unit
    let t := spmTarget s addr size
    if !(s.before t).isEmpty then
      farLoad 1 .none 0 d shape acq false addr.toNat size (fun s => touchAt (localTarget s.cur.core addr).1
        (localTarget s.cur.core addr).2 size (consume [b] s)) t
    else do
      let l ← loadLocal addr size
      upd (fun s => deliverLoaded d l (fun bs => (shape.result bs).1) (consume [b] s)))

/-- A store of the low `size` bytes of the data operand to a global address. -/
def globalStore (i : Instr) (st : BitVec 3) (b data : Opnd) (o : BitVec 8) (unit size align : Nat) (rel : Bool) :
    State → Out :=
  issue i st.toNat (do
    prepare [b, data] none (fun s => alignCands (globalAddr (arg1 (s.values [b, data]) 0) o unit) align)
    let s ← get
    let vs := s.values [b, data]
    let va := globalAddr (arg1 vs 0) o unit
    let bs := bytesOf size (ofWords (arg vs 1))
    let t ← reach va size .store
    checkWatch va size false true
    upd (fun s => if rel then storeRelease t va bs (consume [b, data] s) else storeTarget t va bs (consume [b, data] s)))

/-- A store to a local address. -/
def localStore (i : Instr) (st : BitVec 3) (b data : Opnd) (o : BitVec 8) (unit size align : Nat) (rel : Bool)
    (full : Option Bool) : State → Out :=
  issue i st.toNat (do
    prepare [b, data] none (fun s => localCands s (unitAddr (arg1 (s.values [b, data]) 0) o unit) size align)
    let s ← get
    let vs := s.values [b, data]
    upd (fun s => storeCluster (unitAddr (arg1 vs 0) o unit) (bytesOf size (ofWords (arg vs 1))) rel full (consume [b, data] s)))

/-- Access size of a W field in bytes (R64). -/
def accSize (w : BitVec 2) : Nat := 2 ^ w.toNat

/-- LD (R137): Q bit 10 sign-extends, bits 9–8 name an acquire (01) or a non-temporal load (10). -/
def execLd (st : BitVec 3) (w : BitVec 2) (d b : BitVec 5) (q : BitVec 3) (o : BitVec 8) : State → Out :=
  globalLoad (.ld st w d b q o) st (.int b) (.int d) o (accSize w) (accSize w) (accSize w)
    (.word (accSize w) (q.getLsbD 2)) (q.getLsbD 0) (q.getLsbD 1)

/-- ST (R137): Q 01 is a release. -/
def execSt (st : BitVec 3) (w : BitVec 2) (d b : BitVec 5) (q : BitVec 2) (o : BitVec 8) : State → Out :=
  globalStore (.st st w d b q o) st (.int b) (.int d) o (accSize w) (accSize w) (accSize w) (q == 1)

def execLdl (st : BitVec 3) (w : BitVec 2) (d b : BitVec 5) (o : BitVec 8) : State → Out :=
  localLoad (.ldl st w d b o) st (.int b) (.int d) o (accSize w) (accSize w) (accSize w) (.word (accSize w) false) false

/-- LDL.acq: later accesses of the context come after it (R136). -/
def execLdlAcq (st : BitVec 3) (w : BitVec 2) (d b : BitVec 5) (o : BitVec 8) : State → Out :=
  localLoad (.ldlAcq st w d b o) st (.int b) (.int d) o (accSize w) (accSize w) (accSize w) (.word (accSize w) false) true

def execStl (st : BitVec 3) (w : BitVec 2) (d b : BitVec 5) (o : BitVec 8) : State → Out :=
  localStore (.stl st w d b o) st (.int b) (.int d) o (accSize w) (accSize w) (accSize w) false none

def execStlRel (st : BitVec 3) (w : BitVec 2) (d b : BitVec 5) (o : BitVec 8) : State → Out :=
  localStore (.stlRel st w d b o) st (.int b) (.int d) o (accSize w) (accSize w) (accSize w) true none

/-! ### Full/empty words -/

/-- The request of an LDF or LDFE of the context that issues (R144). -/
def feRequest (s : State) (st : BitVec 3) (d b : BitVec 5) (addr : W64) (empties : Bool) : FeWaiter :=
  ⟨(localTarget s.cur.core addr).2 / 8, s.cur.core, s.cur.ctx.val, empties, addr, st.toNat, d, b⟩

/-- LDF and LDFE (R143, R144): a context waits while the word is empty or an earlier waiter is ahead of it; the fill serves it. -/
def feLoad (i : Instr) (st : BitVec 3) (d b : BitVec 5) (o : BitVec 8) (empties : Bool) : State → Out :=
  issue i st.toNat (do
    prepare [.int b] (some (.int d)) (fun s => localCands s (unitAddr (arg1 (s.values [.int b]) 0) o 8) 8 8)
    let s ← get
    let addr := unitAddr (arg1 (s.values [.int b]) 0) o 8
    let c := (localTarget s.cur.core addr).1
    let x := feRequest s st d b addr empties
    let ahead := waitersOn s c x.word
    if isFull s c x.word && ahead.head?.all (· == x) then pure ()
    else if ahead.contains x then stop (.wait .full)
    else stop (.keepWait (s.updCore c (fun k => { k with waiters := k.waiters ++ [x] })) .full)
    waitIf (!(s.before (spmTarget s addr 8)).isEmpty) .fence
    let l ← loadLocal addr 8
    upd (fun s => feServe c x.word x l s))

def execLdf (st : BitVec 3) (d b : BitVec 5) (o : BitVec 8) : State → Out := feLoad (.ldf st d b o) st d b o false
def execLdfe (st : BitVec 3) (d b : BitVec 5) (o : BitVec 8) : State → Out := feLoad (.ldfe st d b o) st d b o true

/-- STF (R143, R144): the store and its bit; a release at CLUSTER scope. -/
def execStf (st : BitVec 3) (d b : BitVec 5) (o : BitVec 8) : State → Out :=
  localStore (.stf st d b o) st (.int b) (.int d) o 8 8 8 true (some true)

/-- STE (R143): the store and its bit. -/
def execSte (st : BitVec 3) (d b : BitVec 5) (o : BitVec 8) : State → Out :=
  localStore (.ste st d b o) st (.int b) (.int d) o 8 8 8 false (some false)

/-! ### Vector transfers (R139) -/

/-- Vector slots an LDV or STV moves: 1, 2 or 4. -/
def vecSlots (w : BitVec 2) : Nat := 2 ^ (w.toNat - 1)

/-- LDV (R139). DESIGN CHOICE (log 59): 32 or 64 bytes go to a pointer operand or a port as a whole, where R24 and R25 speak of
16 bytes and two words. -/
def execLdv (st : BitVec 3) (w : BitVec 2) (d b : BitVec 5) (q : BitVec 3) (o : BitVec 8) : State → Out :=
  if q.getLsbD 2 then
    localLoad (.ldv st w d b q o) st (.int b) (.vector d (vecSlots w)) o (16 * vecSlots w) (16 * vecSlots w) 16
      (.slots (2 * vecSlots w)) (q.getLsbD 0)
  else
    globalLoad (.ldv st w d b q o) st (.int b) (.vector d (vecSlots w)) o (16 * vecSlots w) (16 * vecSlots w) 16
      (.slots (2 * vecSlots w)) (q.getLsbD 0) (q.getLsbD 1)

/-- STV (R139); its data operand as in LDV (log 59). -/
def execStv (st : BitVec 3) (w : BitVec 2) (d b : BitVec 5) (q : BitVec 3) (o : BitVec 8) : State → Out :=
  if q.getLsbD 2 then
    localStore (.stv st w d b q o) st (.int b) (.vector d (vecSlots w)) o (16 * vecSlots w) (16 * vecSlots w) 16 (q == 5) none
  else
    globalStore (.stv st w d b q o) st (.int b) (.vector d (vecSlots w)) o (16 * vecSlots w) (16 * vecSlots w) 16 (q == 1)

/-! ### Converting transfers (R140) -/

/-- R140: formats that are element formats of a tensor. -/
def xFormatOk (p : W64) : Bool := decide (ptrFmt p ≤ 0x0E) || ptrFmt p == 0x1D || ptrFmt p == 0x1E

/-- Bytes of n elements in their packing (R40). -/
def span (p : W64) (n : Nat) : Nat := n * fmtBits (ptrFmt p) / 8

def xCands (s : State) (p : W64) (base : Nat) (l : Bool) (addr : W64) (bytes : Nat) (store : Bool) : List Cand :=
  let bad := !xFormatOk p || (store && nibShift p != 0)
  let al := fmtBits (ptrFmt p) / 8
  (if bad then [Cand.format (BitVec.ofNat 64 base)] else []) ++
    (if 1 < al then alignCands (if l then (localTarget s.cur.core addr).2 else (va55 addr).toNat) al |>.map
        (fun c => { c with tval := if l then addr else va55 addr }) else []) ++
    (if l then (if spmSize < (localTarget s.cur.core addr).2 + bytes then [Cand.spmrange addr] else []) else []) ++
    s.me.rsrCands s.me.frm

/-- The result of LDX with the pointer, its lanes rounded under $mode.FRM (R47, R140). -/
def ldxShape (c : Context) (p : W64) (t : BitVec 1) : LoadShape :=
  .lanes p t c.frm ((List.range (xLanes t)).map (fun i => (c.rnd c.frm i).word))

def execLdx (st : BitVec 3) (d b : BitVec 5) (l t : BitVec 1) (o : BitVec 8) : State → Out :=
  issue (.ldx st d b l t o) st.toNat (do
    prepare [.int b] (some (.vector d)) (fun s =>
      let p := arg1 (s.values [.int b]) 0
      xCands s p b.toNat (l == 1) (unitAddr p o (span p (xLanes t))) (span p (xLanes t) + nibShift p / 4) false)
    let s ← get
    let p := arg1 (s.values [.int b]) 0
    let len := span p (xLanes t) + nibShift p / 4
    let addr := unitAddr p o (span p (xLanes t))
    let shape := ldxShape s.me p t
    let near (r : Loaded) (s : State) : State :=
      let f := match r with
        | .bytes bs => (shape.result bs).2
        | .bad _ => 0
      useWords s.me.frm (xLanes t) (raiseFlags f
        (deliverLoaded (.vector d) r (fun bs => (shape.result bs).1) (consume [.int b] s)))
    if l = 1 then
      if !(s.before (spmTarget s addr len)).isEmpty then do
        farLoad 1 .none 0 (.vector d) shape false false addr.toNat len (fun s => touchAt (localTarget s.cur.core addr).1
          (localTarget s.cur.core addr).2 len (consume [.int b] s)) (spmTarget s addr len)
        upd (fun s => useWords s.me.frm (xLanes t) s)
      else do
        let r ← loadLocal addr len
        upd (near r)
    else do
      let va := (va55 addr).toNat
      let tg ← reach va len .load
      checkWatch va len true false
      let s ← get
      if tg.later s then do
        farLoad 1 .none 0 (.vector d) shape false true va len (consume [.int b]) tg
        upd (fun s => useWords s.me.frm (xLanes t) s)
      else do
        let r ← readTarget .load len tg
        upd (near r))

/-- The elements of STX and the flags they raise (R140). -/
def stxElements (c : Context) (p : W64) (t u : BitVec 1) (v : List W64) : List (Nat × Fl) :=
  (fieldsOf (fmtBits (xFmt t)) (xLanes t) (ofWords v)).zipIdx.map (fun x =>
    convert (ptrFmt p) (u == 1) false (c.rnd c.frm x.2) (valueOf (xFmt t) x.1))

def execStx (st : BitVec 3) (d b : BitVec 5) (l t u : BitVec 1) (o : BitVec 8) : State → Out :=
  issue (.stx st d b l t u o) st.toNat (do
    let srcs := [Opnd.int b, Opnd.vector d]
    prepare srcs none (fun s =>
      let p := arg1 (s.values srcs) 0
      xCands s p b.toNat (l == 1) (unitAddr p o (span p (xLanes t))) (span p (xLanes t)) true)
    let s ← get
    let vs := s.values srcs
    let p := arg1 vs 0
    let len := span p (xLanes t)
    let addr := unitAddr p o len
    let es := stxElements s.me p t u (arg vs 1)
    let bs := bytesOf len (packFields (fmtBits (ptrFmt p)) (es.map (·.1)))
    if l = 1 then
      upd (fun s => useWords s.me.frm (xLanes t) (raiseFlags (orFlags es) (storeCluster addr bs false none (consume srcs s))))
    else do
      let tg ← reach (va55 addr).toNat len .store
      checkWatch (va55 addr).toNat len false true
      upd (fun s => useWords s.me.frm (xLanes t) (raiseFlags (orFlags es)
        (storeTarget tg (va55 addr).toNat bs (consume srcs s)))))

/-- PREF (R141): asks for a line, which enters the L1 for Q 00; it changes no value and never traps on its address. -/
def execPref (st : BitVec 3) (b : BitVec 5) (q : BitVec 2) (o : BitVec 8) : State → Out :=
  issue (.pref st b q o) st.toNat (do
    prepare [.int b] none (fun _ => [])
    upd (fun s =>
      let va := globalAddr (arg1 (s.values [.int b]) 0) o 1
      match walk (consume [.int b] s) (dieOf s.cur.core) s.here.vd va .load with
      | (s1, .ok pa) => if q = 0 then s1.fillL1 s.cur.core va [pa] else s1
      | (_, .busy) => consume [.int b] s
      | (s1, _) => s1))

end Sys2Proof.Machine
end

