-- ==== Sys2Proof/Machine/Atomic.lean ====
section
/-! DEFINITION. Atomics (R145, R146, R370) and commutative updates (R147 to R149, R272) at the home. -/

namespace Sys2Proof.Machine

/-- A read-modify-write of a value at its home (R146): update-only lines are merged first, the old value is read with held writes
over it, the new one is written as an outside write (R370). -/
def rmwHome (ps : List Place) (f : Nat → Nat) (s0 : State) : State × Nat :=
  let s := s0.recall ps
  let old := ofBytes (ps.map s.readByte)
  (s.writePlaces (ps.zip (bytesOf ps.length (f old))), old)

/-- An ATOM with its sources: address operand, and data operand of one or two words (CAS: expected, new). -/
def atomOp (i : Instr) (st : BitVec 3) (d a b : BitVec 5) (size : Nat) (op : Nat) : State → Out :=
  let cas := op == 9
  let srcs := [Opnd.int a, Opnd.int b (if cas then 2 else 1)]
  let operand (vs : List (List W64)) : Nat := (wd (arg vs 1) (if cas then 1 else 0)).toNat
  let expected (vs : List (List W64)) : Nat := if cas then (arg1 vs 1).toNat else 0
  issue i st.toNat (do
    prepare srcs (some (.int d)) (fun s => alignCands (va55 (arg1 (s.values srcs) 0)).toNat size)
    release
    let s ← get
    let vs := s.values srcs
    let va := (va55 (arg1 vs 0)).toNat
    let t ← reach va size .atomic
    checkWatch va size true true
    let s ← get
    let far := farLoad 4 (.atom (BitVec.ofNat 4 op) (BitVec.ofNat 64 (expected vs))) (BitVec.ofNat 512 (operand vs)) (.int d)
        (.word size false) true false va size (consume srcs) t
    match t with
    | .home ps =>
      if s.busy (.atom op 0 0) ps then far
      else if (s.recall ps).fails ps then
        upd (fun s => let r := consumeBad ps 2 s; deliverLoaded (.int d) (.bad r.2) (fun _ => []) (consume srcs r.1))
      else
        upd (fun s =>
          let r := rmwHome ps (fun old => atomNew op (8 * size) old (operand vs) (expected vs)) (consume srcs s)
          deliver (.int d) .now [BitVec.ofNat 64 r.2] (acquire true r.1))
    | .mgmt off _ =>
      upd (fun s =>
        let old := (s.mgmtRead off).toNat % 2 ^ (8 * size)
        deliver (.int d) .now [BitVec.ofNat 64 old] (mgmtStore off
          (bytesOf size (atomNew op (8 * size) old (operand vs) (expected vs))) (consume srcs s)))
    | _ => far)

def execAtomFadd (st : BitVec 3) (d a b : BitVec 5) (z : BitVec 2) : State → Out :=
  atomOp (.atomFadd st d a b z) st d a b (accSize z) 0
def execAtomFand (st : BitVec 3) (d a b : BitVec 5) (z : BitVec 2) : State → Out :=
  atomOp (.atomFand st d a b z) st d a b (accSize z) 1
def execAtomFor (st : BitVec 3) (d a b : BitVec 5) (z : BitVec 2) : State → Out :=
  atomOp (.atomFor st d a b z) st d a b (accSize z) 2
def execAtomFxor (st : BitVec 3) (d a b : BitVec 5) (z : BitVec 2) : State → Out :=
  atomOp (.atomFxor st d a b z) st d a b (accSize z) 3
def execAtomFmin (st : BitVec 3) (d a b : BitVec 5) (z : BitVec 2) : State → Out :=
  atomOp (.atomFmin st d a b z) st d a b (accSize z) 4
def execAtomFmax (st : BitVec 3) (d a b : BitVec 5) (z : BitVec 2) : State → Out :=
  atomOp (.atomFmax st d a b z) st d a b (accSize z) 5
def execAtomFminu (st : BitVec 3) (d a b : BitVec 5) (z : BitVec 2) : State → Out :=
  atomOp (.atomFminu st d a b z) st d a b (accSize z) 6
def execAtomFmaxu (st : BitVec 3) (d a b : BitVec 5) (z : BitVec 2) : State → Out :=
  atomOp (.atomFmaxu st d a b z) st d a b (accSize z) 7
def execAtomSwap (st : BitVec 3) (d a b : BitVec 5) (z : BitVec 2) : State → Out :=
  atomOp (.atomSwap st d a b z) st d a b (accSize z) 8
def execAtomCas (st : BitVec 3) (d a b : BitVec 5) : State → Out := atomOp (.atomCas st d a b) st d a b 8 9

/-! ### Updates -/

/-- The contributions of an update-only line with one more (R148). -/
def UpdLine.add (u : UpdLine) (off y : Nat) : UpdLine :=
  { u with words := put off (match lookup off u.words with
      | none => y
      | some x => updCombine u.ty u.op x y) u.words }

/-- R148: an update at an address of this package is combined into the update-only line of the L1 that core c uses, which is
allocated and registered at the home if the L1 holds none of this type and op. -/
def updHome (c va y : Nat) (s : State) : State :=
  let line := va / 64
  let vd := (s.core c).vd
  match s.l1Find c vd line with
  | some l =>
    match l.upd with
    | some u => s.updCore (s.l1Core c line) (fun k => { k with l1 := k.l1.map (fun x =>
        if x = l then { x with upd := some (u.add (va % 64) y) } else x) })
    | none => s
  | none => s

/-- The update-only line of a type and op for an address that has translated, allocated if it is not there (R148): the accesses of
the context count it until the home has registered it. -/
def updAlloc (c va ty op : Nat) (s : State) : State :=
  let line := va / 64
  let vd := (s.core c).vd
  if (s.l1Find c vd line).any (fun l => l.upd.any (fun u => u.ty == ty && u.op == op)) then s
  else match s.tlb.find? (fun t => t.die == dieOf c && t.vd == vd && t.page == va / 65536) with
    | none => s
    | some t =>
      match s.lineAt c line (leafPa t.leaf.toNat t.big va) (some ⟨ty, op, []⟩) none with
      | none => s
      | some l => (s.addLine c l).updMe (fun c => { c with unacked := c.unacked + 1 })

/-- UPD (R147, R148, R272): the contribution is combined into the update-only line; in another package or the management window it is
combined there. -/
def updOp (i : Instr) (st : BitVec 3) (a b : BitVec 5) (t : BitVec 3) (op : Nat) : State → Out :=
  let srcs := [Opnd.int a, Opnd.int b]
  let size := updSize t.toNat
  issue i st.toNat (do
    prepare srcs none (fun s => alignCands (va55 (arg1 (s.values srcs) 0)).toNat size)
    let s ← get
    let vs := s.values srcs
    let va := (va55 (arg1 vs 0)).toNat
    let y := (arg1 vs 1).toNat % 2 ^ (8 * size)
    let tg ← reach va size .atomic true (some (t.toNat, op))
    checkWatch va size false true
    let s ← get
    waitIf (!(s.before tg).isEmpty) .fence
    upd (fun s => match tg with
      | .home _ => updHome s.cur.core va y (updAlloc s.cur.core va t.toNat op (consume srcs s))
      | .mgmt off _ => mgmtStore off (bytesOf size (updCombine t.toNat op ((s.mgmtRead off).toNat % 2 ^ (8 * size)) y))
          (consume srcs s)
      | .remote pkg pa _ =>
        remoteStore s.nextId 6 pkg pa size (.upd t (BitVec.ofNat 3 op)) (BitVec.ofNat 512 y) va
          (consume srcs { s with nextId := s.nextId + 1 })
      | _ => s))

def execUpdAdd (st : BitVec 3) (a b : BitVec 5) (t : BitVec 3) : State → Out := updOp (.updAdd st a b t) st a b t 0
def execUpdMin (st : BitVec 3) (a b : BitVec 5) (t : BitVec 3) : State → Out := updOp (.updMin st a b t) st a b t 1
def execUpdMax (st : BitVec 3) (a b : BitVec 5) (t : BitVec 3) : State → Out := updOp (.updMax st a b t) st a b t 2
def execUpdAmax (st : BitVec 3) (a b : BitVec 5) (t : BitVec 3) : State → Out := updOp (.updAmax st a b t) st a b t 3
def execUpdAnd (st : BitVec 3) (a b : BitVec 5) (t : BitVec 3) : State → Out := updOp (.updAnd st a b t) st a b t 4
def execUpdOr (st : BitVec 3) (a b : BitVec 5) (t : BitVec 3) : State → Out := updOp (.updOr st a b t) st a b t 5
def execUpdXor (st : BitVec 3) (a b : BitVec 5) (t : BitVec 3) : State → Out := updOp (.updXor st a b t) st a b t 6

end Sys2Proof.Machine
end

