-- ==== Sys2Proof/Machine/Course.lean ====
section
/-! DEFINITION. Courses (R204 to R210, R248 to R261, R266, R269): regions and footprints, the share of every member in each
course of a built-in instruction, the checks of an opening, the keystone's flip; and how a run starts at a rank (R185, R190). -/

namespace Sys2Proof.Machine

/-! ### Regions (R197, R199, R204) -/

/-- The row, and the byte in it, of byte i of the region at a cursor. -/
def Cursor.at_ (c : Cursor) (i : Nat) : Nat × Nat :=
  let w := c.col.toNat + i / 32
  ((c.row + c.stride * BitVec.ofNat 16 (w / 32)).toNat, w % 32 * 32 + i % 32)

/-- Rows of a region of n bytes, whole column words. -/
def Cursor.rows (c : Cursor) (n : Nat) : List Nat := dedup ((List.range ((n + 31) / 32)).map (fun w => (c.at_ (32 * w)).1))

/-- Bytes of an element of a rank format, and its device code (R199). -/
def rankBytes (f : Nat) : Nat := [4, 4, 2, 1, 1, 16].getD f 1
def rankCode (f : Nat) : Nat := [Fmt.f32, Fmt.i32, Fmt.bf16, Fmt.i8, Fmt.e4m3, Fmt.a80].getD f 0
def rankInt (f : Nat) : Bool := f == 1 || f == 3

/-- The bytes of a region as the bank holds the logical rows, no held write over them (R255). -/
def readRegion (s : State) (rank : Nat) (c : Cursor) (n : Nat) : List Byte :=
  (List.range n).map (fun i => s.bankByte ⟨rank, (c.at_ i).1, (c.at_ i).2⟩)

/-- The column words under bytes `off` to `off + n` of a region. -/
def Cursor.words (c : Cursor) (off n : Nat) : List (Nat × Nat) :=
  if n = 0 then [] else (List.range ((off + n + 31) / 32 - off / 32)).map (fun w => c.at_ (32 * (off / 32 + w)))

/-- The first column word among those of a bank that fails its code, as a course reads the logical rows (R342). -/
def badAmong (s : State) (rank : Nat) (ws : List (Nat × Nat)) : Option Place :=
  if s.badWords.isEmpty then none
  else (ws.map (fun w => Place.mk rank w.1 w.2)).find? (fun p => s.badWords.contains (s.wordAt none p))

/-! ### Elements under a reduction (R180, R208) -/

/-- A NaN of a selection record (R208): the lowest contributing index. -/
def selNan (x : Nat) : Nat := bits x 127 112
def selVal (x : Nat) : Nat := x % 2 ^ 64
def selRec (v nan : Nat) : Nat := v + nan * 2 ^ 112

/-- The smaller or larger of two encodings of a format; −0 lies below +0. -/
def pickOf (code : Nat) (big : Bool) (x y : Nat) : Nat :=
  match floatFmt code with
  | some f => (fminmax f big x y).1
  | none =>
    let w := fmtBits code
    let less := (BitVec.ofNat w x).slt (BitVec.ofNat w y)
    if less != big then x else y

/-- The magnitude of an encoding, its sign cleared (R147, R180). -/
def magOf (code x : Nat) : Nat :=
  match floatFmt code with
  | some f => x % f.signBit
  | none =>
    let w := fmtBits code
    (if (BitVec.ofNat w x).msb then -(BitVec.ofNat w x) else BitVec.ofNat w x).toNat

/-- MAX, MIN, AMAX, AND, OR and XOR of two encodings, neither a NaN; REDOP 1 to 6. -/
def selectOf (code op x y : Nat) : Nat :=
  match op with
  | 1 => pickOf code true x y
  | 2 => pickOf code false x y
  | 3 => max (magOf code x) (magOf code y)
  | 4 => x &&& y
  | 5 => x ||| y
  | _ => x ^^^ y

/-- An element of member `idx` as a record of the reduction; none for an A80 record that R208 refuses. -/
def contribRec (code op : Nat) (alpha : BitVec 16) (idx raw : Nat) : Option (Nat × Fl) :=
  if op = 0 then
    if code = Fmt.a80 then
      if (A80.dec raw).malformed || (A80.dec raw).alpha != alpha then none else some (raw, 0)
    else
      let r := (A80.empty alpha).contribute idx (valueOf code raw)
      some (r.1.enc, r.2)
  else if op ≤ 3 ∧ (valueOf code raw).isNan = true then some (selRec raw idx, 0)
  else some (selRec (if op = 3 then magOf code raw else raw) 0xFFFF, 0)

/-- A partial record read back from a work region. -/
def partRec (op : Nat) (alpha : BitVec 16) (raw : Nat) : Option (Nat × Fl) :=
  if op = 0 ∧ ((A80.dec raw).malformed || (A80.dec raw).alpha != alpha) = true then none else some (raw, 0)

def mergeRec (code op x y : Nat) : Nat :=
  if op = 0 then ((A80.dec x).combine (A80.dec y)).enc
  else if selNan x ≠ 0xFFFF ∨ selNan y ≠ 0xFFFF then (if selNan y < selNan x then y else x)
  else selRec (selectOf code op (selVal x) (selVal y)) 0xFFFF

/-- The record rounded once into the format (R57, R180): a NaN carries the lowest contributing index. -/
def finalRec (code op x : Nat) : Nat × Fl :=
  if op = 0 then
    if code = Fmt.a80 then (x, 0) else (A80.dec x).round code false rne
  else if selNan x ≠ 0xFFFF then
    (match floatFmt code with
      | some f => f.nan (selNan x)
      | none => selVal x, 0)
  else (selVal x, 0)

/-! ### One course of a built-in instruction (R207, R208, R267) -/

def isPow2 (n : Nat) : Bool := n != 0 && n &&& (n - 1) == 0
def log2Up (n : Nat) : Nat := if n ≤ 1 then 0 else Nat.log2 (n - 1) + 1

/-- Courses of the reducing part. -/
def redCourses (n : Nat) : Nat := if n ≤ 1 then 1 else if isPow2 n then Nat.log2 n else n - 1

/-- R207. -/
def courseTotal (op : CourseOp) (n : Nat) : Nat :=
  match op with
  | .red => if n ≤ 1 then 1 else 2 * redCourses n
  | .rsc => redCourses n
  | .bcast => max 1 (log2Up n)
  | _ => 1

/-- Elements of the whole reduction (R208). -/
def CoursePart.elems (p : CoursePart) (n : Nat) : Nat :=
  match p.op with
  | .rsc | .a2a => n * p.count
  | _ => p.count

/-- Bytes of the source region of member k. -/
def CoursePart.srcLen (p : CoursePart) (n k : Nat) : Nat :=
  match p.op with
  | .bar | .program => 0
  | .bcast => if k = p.extra then p.count * rankBytes p.fmt else 0
  | _ => p.elems n * rankBytes p.fmt

/-- Bytes of the destination region of member k. -/
def CoursePart.dstLen (p : CoursePart) (n k : Nat) : Nat :=
  match p.op with
  | .bar | .program => 0
  | .gath => if k = p.extra then n * p.count * rankBytes p.fmt else 0
  | .red | .rsc => 16 * p.elems n
  | _ => p.elems n * rankBytes p.fmt

def slice (bs : List Byte) (off len : Nat) : List Byte := (bs.drop off).take len
def patch (bs : List Byte) (off : Nat) (xs : List Byte) : List Byte := bs.take off ++ xs ++ bs.drop (off + xs.length)

/-- α of a reduction (R208). -/
def CoursePart.alpha (p : CoursePart) : BitVec 16 := if rankInt p.fmt then 0 else BitVec.ofNat 16 p.extra

/-- Elements of blocks of b elements among e. -/
def blockElems (e b : Nat) (blocks : List Nat) : List Nat :=
  blocks.flatMap (fun j => (List.range (min e ((j + 1) * b) - j * b)).map (j * b + ·))

/-- What one course writes: bytes of a member's destination region from its start, and the events of R53 by member. -/
structure CourseOut where
  out : List (Nat × List Byte)
  fl  : List (Nat × Fl)

def mapAll {α β : Type} (f : α → Option β) : List α → Option (List β)
  | [] => some []
  | a :: r => match f a, mapAll f r with
    | some b, some bs => some (b :: bs)
    | _, _ => none

/-- Member k's share of course t of CRED and CRSC; none is a MISMATCH (R208). DESIGN CHOICE (log 79): with n a power of two and E no
multiple of n, R208 says only that a segment is split in halves; the model makes blocks of ⌈E / n⌉ elements then too. -/
def redShare (p : CoursePart) (n t k : Nat) (src dst : Nat → List Byte) : Option (List Byte × List (Nat × Fl)) :=
  let code := rankCode p.fmt
  let es := rankBytes p.fmt
  let e := p.elems n
  let b := (e + n - 1) / n
  let nred := redCourses n
  let fresh (m : Nat) (x : Nat) : Option (Nat × Fl) :=
    contribRec code p.redop p.alpha m (ofBytes (slice (src m) (x * es) es))
  let kept (m : Nat) (x : Nat) : Option (Nat × Fl) := partRec p.redop p.alpha (ofBytes (slice (dst m) (16 * x) 16))
  let zero := List.replicate (16 * e) (0 : Byte)
  let base := if p.op = .rsc then k * b else 0
  let packed (bs : List (Nat × List Byte)) : List Byte := bs.foldl (fun z x => patch z ((x.1 - base) * es) x.2) zero
  let finals (rs : List (Nat × Nat)) : List Byte × List (Nat × Fl) :=
    let ys := rs.map (fun r => (r.1, finalRec code p.redop r.2))
    (packed (ys.map (fun y => (y.1, bytesOf es y.2.1))), ys.map (fun y => (k, y.2.2)))
  if t ≤ nred then
    let d := n >>> t
    let blocks := if n ≤ 1 then [0] else if isPow2 n then (List.range d).map (k / d * d + ·) else [(k + 2 * n - 1 - t) % n]
    let partner := if isPow2 n then k ^^^ d else (k + n - 1) % n
    let xs := blockElems e b blocks
    let mine (x : Nat) := if n ≤ 1 || t == 1 || !isPow2 n then (fresh k x).map (fun r => (r.1, [(k, r.2)])) else
      (kept k x).map (fun r => (r.1, ([] : List (Nat × Fl))))
    let theirs (x : Nat) := if t = 1 then (fresh partner x).map (fun r => (r.1, [(partner, r.2)])) else
      (kept partner x).map (fun r => (r.1, ([] : List (Nat × Fl))))
    match mapAll (fun x =>
        if n ≤ 1 then (mine x).map (fun m => (x, m.1, m.2))
        else match mine x, theirs x with
          | some m, some o => some (x, mergeRec code p.redop m.1 o.1, m.2 ++ o.2)
          | _, _ => none) xs with
    | none => none
    | some rs =>
      let fl := rs.flatMap (fun r => r.2.2)
      if t = nred then
        let f := finals (rs.map (fun r => (r.1, r.2.1)))
        some (f.1, fl ++ f.2)
      else some (rs.foldl (fun z r => patch z (16 * r.1) (bytesOf 16 r.2.1)) zero, fl)
  else
    let u := t - nred
    let d := 2 ^ (u - 1)
    let partner := if isPow2 n then k ^^^ d else (k + n - 1) % n
    let own := if isPow2 n then (List.range d).map (k / d * d + ·) else (List.range u).map (fun j => (k + n - j) % n)
    let got := if isPow2 n then (List.range d).map (partner / d * d + ·) else [(k + n - u) % n]
    let take (m : Nat) (bl : List Nat) := (blockElems e b bl).map (fun x => (x, slice (dst m) (x * es) es))
    some (packed (take k own ++ take partner got), [])

/-- Course t (from 1) of a built-in instruction with n members: src and dst give the regions as the banks hold them. -/
def courseStep (p : CoursePart) (n t : Nat) (src dst : Nat → List Byte) : Option CourseOut :=
  let all := List.range n
  let size := p.count * rankBytes p.fmt
  match p.op with
  | .bar | .program => some ⟨[], []⟩
  | .shift => some ⟨all.map (fun k => (k, src ((k + n - p.extra) % n))), []⟩
  | .xpose => some ⟨all.map (fun k => (k, all.flatMap (fun j => slice (src j) (k * (size / n)) (size / n)))), []⟩
  | .a2a => some ⟨all.map (fun k => (k, all.flatMap (fun j => slice (src j) (k * size) size))), []⟩
  | .gath => some ⟨[(p.extra, all.flatMap src)], []⟩
  | .bcast =>
    let h := 2 ^ (t - 1)
    some ⟨(if t = 1 then [(p.extra, src p.extra)] else []) ++
      (List.range (min h (n - h))).map (fun j =>
        ((p.extra + j + h) % n, if j = 0 then src p.extra else dst ((p.extra + j) % n))), []⟩
  | .red | .rsc =>
    match mapAll (fun k => (redShare p n t k src dst).map (fun r => (k, r))) all with
    | none => none
    | some rs => some ⟨rs.map (fun r => (r.1, r.2.1)), rs.flatMap (fun r => r.2.2)⟩

/-! ### Course records -/

def State.course (s : State) (id : Nat) : Option Course := s.courses.find? (fun c => c.id == id)
def State.setCourse (s : State) (c : Course) : State :=
  { s with courses := s.courses.map (fun x => if x.id = c.id then c else x) }
def State.dropCourse (s : State) (id : Nat) : State := { s with courses := s.courses.filter (fun c => c.id != id) }

def Course.size (c : Course) : Nat := c.members.length
def Course.rankOf (c : Course) (k : Nat) : Nat := c.members.getD k 0
def Course.part (c : Course) (k : Nat) : Option CoursePart := c.parts.find? (fun p => p.member == k)
/-- The rank's own courses: member 0's parameters stand for all once they agree. -/
def Course.head (c : Course) : CoursePart :=
  (c.part 0).getD ⟨0, .bar, 0, 0, 0, 0, Cursor.reset, Cursor.reset, []⟩

/-- The keystone is acknowledged: no later event undoes the course (R253). -/
def Course.committed (c : Course) (ring : Nat) : Bool :=
  match c.keystone with
  | some t => decide (t ≤ ring + 60)
  | none => false

/-- R209: the members agree. -/
def CoursePart.agrees (p q : CoursePart) : Bool :=
  p.op == q.op && (p.op == .bar || p.op == .program ||
    (p.count == q.count && p.fmt == q.fmt && p.redop == q.redop &&
      (!(p.op == .shift || p.op == .gath || p.op == .bcast || ((p.op == .red || p.op == .rsc) && !rankInt p.fmt)) ||
        p.extra == q.extra)))

def rangeRows (rs : List (Nat × Nat)) : List Nat := dedup (rs.flatMap (fun r => (List.range r.2).map (r.1 + ·)))

/-- Rows of both regions of a member, whole (R209). -/
def CoursePart.rows (p : CoursePart) (n : Nat) : List Nat :=
  match p.op with
  | .program => rangeRows p.ranges
  | _ => dedup (p.src.rows (p.srcLen n p.member) ++ p.dst.rows (p.dstLen n p.member))

/-- What a member reads in course t of CRED and CRSC (R208): parts of its source region (true) or its work region, from a byte, so many. -/
def CoursePart.redReads (p : CoursePart) (n t : Nat) : List (Bool × Nat × Nat) :=
  let k := p.member
  let e := p.elems n
  let b := (e + n - 1) / n
  let es := rankBytes p.fmt
  let nred := redCourses n
  let part (src : Bool) (size lo hi : Nat) : Bool × Nat × Nat := (src, size * min e (lo * b), size * (min e (hi * b) - min e (lo * b)))
  if n ≤ 1 ∨ (isPow2 n = true ∧ t = 1) then [(true, 0, e * es)]
  else if isPow2 n then
    let d := if t ≤ nred then n >>> (t - 1) else 2 ^ (t - nred - 1)
    [part false (if t ≤ nred then 16 else es) (k / d * d) (k / d * d + d)]
  else if t ≤ nred then
    let got := (k + 2 * n - 1 - t) % n
    let sent := (k + n - t) % n
    [part true es got (got + 1), if t = 1 then part true es sent (sent + 1) else part false 16 sent (sent + 1)]
  else (List.range (t - nred)).map (fun j => part false es ((k + n - j) % n) ((k + n - j) % n + 1))

/-- Relative index of a member in a broadcast (R207). -/
def CoursePart.fromRoot (p : CoursePart) (n : Nat) : Nat := (p.member + n - p.extra % n) % n

/-- What a member reads in course t of its instruction. -/
def CoursePart.readsAt (p : CoursePart) (n t : Nat) : List (Bool × Nat × Nat) :=
  match p.op with
  | .bar | .program => []
  | .red | .rsc => p.redReads n t
  | .bcast =>
    if p.member = p.extra then [(true, 0, p.srcLen n p.member)]
    else if p.fromRoot n < 2 ^ (t - 1) ∧ p.fromRoot n + 2 ^ (t - 1) < n then [(false, 0, p.dstLen n p.member)]
    else []
  | _ => [(true, 0, p.srcLen n p.member)]

/-- The member writes its destination region in course t. -/
def CoursePart.writesAt (p : CoursePart) (n t : Nat) : Bool :=
  match p.op with
  | .bar | .program => false
  | .gath => p.member == p.extra
  | .bcast => (t == 1 && p.member == p.extra) || (decide (2 ^ (t - 1) ≤ p.fromRoot n) && decide (p.fromRoot n < 2 ^ t))
  | _ => true

/-- Column words that a member reads in course t. -/
def CoursePart.sources (p : CoursePart) (n t : Nat) : List (Nat × Nat) :=
  (p.readsAt n t).flatMap (fun r => (if r.1 then p.src else p.dst).words r.2.1 r.2.2)

/-- Rows that a member reads in course t, and rows that it writes (R252). -/
def CoursePart.sourceRows (p : CoursePart) (n t : Nat) : List Nat := dedup ((p.sources n t).map (·.1))
def CoursePart.mortarRows (p : CoursePart) (n t : Nat) : List Nat :=
  if p.writesAt n t then p.dst.rows (p.dstLen n p.member) else []

/-- Footprint rows of a member in course t: the source and destination rows of this course (R252). -/
def CoursePart.rowsAt (p : CoursePart) (n t : Nat) : List Nat :=
  match p.op with
  | .program => rangeRows p.ranges
  | _ => dedup (p.sourceRows n t ++ p.mortarRows n t)

/-- R209 RANGE of one member's parameters. -/
def CoursePart.rangeBad (p : CoursePart) (n : Nat) : Bool :=
  match p.op with
  | .program => p.ranges.any (fun r => r.2 != 0 && decide (46080 < r.1 + r.2))
  | .bar => false
  | o =>
    ((o == .shift || o == .gath || o == .bcast) && decide (n ≤ p.extra)) || (o == .xpose && p.count % n != 0) ||
      ((o == .red || o == .rsc) && !rankInt p.fmt &&
        (decide ((BitVec.ofNat 32 p.extra).toInt < -1024) || decide (1023 < (BitVec.ofNat 32 p.extra).toInt))) ||
      (p.rows n).any (fun r => decide (46080 ≤ r))

/-- The footprint of course t at a member: (rank, row) pairs. -/
def Course.footOf (c : Course) (t : Nat) (p : CoursePart) : List (Nat × Nat) :=
  (p.rowsAt c.size t).map (fun r => (c.rankOf p.member, r))

/-- The courses that are checked before this one opens: all of the instruction before its first, as R209 finds NOMEM and PERM before any
course; later each for itself (R252). -/
def Course.checked (c : Course) : List Nat :=
  if c.index = 0 then (List.range (courseTotal c.head.op c.size)).map (· + 1) else [c.index + 1]

/-- Phase 1 of R252: the code of the first check that fails. -/
def checkCourse (s : State) (c : Course) : Option Nat :=
  let any (f : Nat → CoursePart → Bool) : Bool := c.checked.any (fun t => c.parts.any (f t))
  if !c.parts.all (c.head.agrees ·) then some 1
  else if c.parts.any (·.rangeBad c.size) then some 4
  else if any (fun t p => decide (3070 < (p.rowsAt c.size t).length)) then some 9
  else if any (fun t p => (c.footOf t p).any (fun r => !s.permits c.vd r.1 r.2 (·.k))) then some 5
  else none

/-! ### Commands of the ring: what a course changes in them -/

def updCmd (vd n : Nat) (f : RingCmd → RingCmd) (s : State) : State :=
  s.updVd vd (fun v => { v with cmds := v.cmds.map (fun c => if c.n = n then f c else c) })

def State.cmd (s : State) (vd n : Nat) : Option RingCmd := (s.vd vd).cmds.find? (fun c => c.n == n)

/-- The status word (R181). -/
def statusWord (code member : Nat) (flags : Fl) (courses : Nat) : W64 :=
  BitVec.ofNat 64 (code % 256 + member % 65536 * 2 ^ 8 + flags.toNat * 2 ^ 24 + courses % 2 ^ 32 * 2 ^ 32)

def noMember : Nat := 0xFFFF

/-- The command ends with a code; its words are written by its completion. -/
def finishCmd (vd n code member : Nat) (s : State) : State :=
  updCmd vd n (fun c => match c.state with
    | .finished _ => c
    | _ => { c with state := .finished (statusWord code member c.cflags c.courses) }) s

/-! ### Held writes and the flip (R250, R255, R266) -/

/-- A held write reaches its row: column words it covers whole are sound again; what covers only part of a failing one is discarded, which
leaves a record (R342). -/
def landHeld (r : Nat) (h : HeldWrite) (s : State) : State :=
  let ps := h.data.zipIdx.map (fun b => (Place.mk r (h.at_ / 1024) (h.at_ % 1024 + b.2), b.1))
  let cells := ps.map (fun x => cellKey r ((s.rank r).phys x.1.row) x.1.byte)
  let part (p : Place) : Bool := s.badWords.contains (s.wordAt none p) &&
    !((List.range 32).all (fun i => cells.contains (s.wordAt none p * 32 + i)))
  let s1 := ((ps.filter (fun x => !part x.1)).foldl (fun s x => s.pokeByte x.1 x.2) s).soundAgain cells
  match ps.find? (fun x => part x.1) with
  | some x => (s1.wordRecord 0 none [x.1] 0 1 0xFFFFFFFF 0xFF).1
  | none => s1

/-- Held writes to the rows given are applied in the order they were stamped (R255). -/
def applyHeld (foot : List (Nat × Nat)) (s : State) : State :=
  (dedup (foot.map (·.1))).foldl (fun s r =>
    let due (h : HeldWrite) : Bool := foot.contains (r, h.at_ / 1024)
    let s1 := ((s.rank r).held.filter due).foldl (fun s h => landHeld r h s) s
    s1.updRank r (fun k => { k with held := k.held.filter (fun h => !due h) })) s

/-- The rows are no longer in an open course: what waits at their banks for room goes on (R256). -/
def settleRows (foot : List (Nat × Nat)) (s : State) : State := (dedup (foot.map (·.1))).foldl (fun s r => settleBank r s) s

/-- The next physical row of the mortar pool (R248, R250). -/
def Rank.takeRow (k : Rank) : Nat × Rank :=
  if k.nextMortar < 49150 then (k.nextMortar, { k with nextMortar := k.nextMortar + 1 })
  else (k.freed.headD 0, { k with freed := k.freed.tail })

/-- A column word of a mortar row: the bytes the course wrote over those the logical row had when the course opened (R266); a word that
nothing has ever written stays so. -/
def mortarWord (draw rank row old new w : Nat) (c : Course) (s : State) : State :=
  let at_ (phys i : Nat) : Nat := cellKey rank phys (32 * w + i)
  let logical (i : Nat) : Nat := (Place.mk rank row (32 * w + i)).key
  let word (l : List (Nat × Byte)) : Bool := l.any (fun b => b.1 / 32 == logical 0 / 32)
  let s1 := { s with mem := Memory.clear s.mem (at_ new 0) (at_ new 0 + 32), draws := drop (at_ new 0 / 32) s.draws }
  if word c.staged || word c.under || (lookup (at_ old 0 / 32) s.draws).isSome || s.mem.any (fun x => x.1 / 32 == at_ old 0 / 32) then
    (List.range 32).foldl (fun t i =>
      t.poke draw (at_ new i) ((lookup (logical i) c.staged).getD ((lookup (logical i) c.under).getD (s.cell draw (at_ old i))))) s1
  else s1

/-- The remap entry of a logical row takes a mortar row (R266); the row it replaces waits until no access of before T names it (R250). A
failing word of the old row is copied as one unless the course has written all of it (R342). -/
def flipRow (c : Course) (t rank row : Nat) (s : State) : State :=
  let k := s.rank rank
  let old := k.phys row
  let m := k.takeRow
  let draw := s.drawAt rank row
  let s1 := (List.range 32).foldl (fun s w => mortarWord draw rank row old m.1 w c s) s
  let s2 := s1.updRank rank (fun _ => { m.2 with
    remap := put row m.1 m.2.remap, old := m.2.old ++ [OldRow.mk row old t] : Rank }.freeOld)
  let whole (w : Nat) : Bool := (List.range 32).all (fun i => (lookup (Place.mk rank row (32 * w + i)).key c.staged).isSome)
  let copied := (List.range 32).filter (fun w => s2.badWords.contains (cellKey rank old (32 * w) / 32) && !whole w)
  { s2 with badWords := s2.badWords.filter (fun w => w / 32 != rank * 65536 + m.1) ++ copied.map (fun w => cellKey rank m.1 (32 * w) / 32) }

/-- (rank, row) pairs of the bytes a course has staged. -/
def Course.written (c : Course) : List (Nat × Nat) :=
  (dedup (c.staged.map (fun b => b.1 / 1024))).map (fun x => (x / 65536, x % 65536))

/-- The flip of R252 phase 6 at every member, and then the held writes; a commit is a wake write too (R338). -/
def flip (c : Course) (s : State) : State :=
  (applyHeld c.foot (c.written.foldl (fun s r => flipRow c (c.keystone.getD s.ring) r.1 r.2 s) s)).wakeLines (c.staged.map (·.1 / 64))

/-- A pool has a row for every row a course may write there. -/
def poolReady (s : State) (c : Course) : Bool :=
  c.members.all (fun r => decide ((c.foot.filter (fun f => f.1 == r)).length ≤
    (49150 - (s.rank r).nextMortar) + (s.rank r).freed.length))

/-! ### Ranks and their runs (R185, R190, R192) -/

/-- Writes to s0 are discarded (R189). -/
def Rank.setS (k : Rank) (x : Nat) (v : Word) : Rank := if x = 0 then k else { k with s := k.s.set (Fin.ofNat 16 x) v }
def Rank.getS (k : Rank) (x : Nat) : Word := k.s[Fin.ofNat 16 x]

/-- The register state at the start of a run (R185, R190). DEDUCED (log 81): a rank that starts wakes its channel. -/
def startRank (run : RankRun) (arg : Word) (slot entry r : Nat) (s : State) : State :=
  (s.wakeBanks [⟨r, 0, 0⟩]).updRank r (fun k => { k with
    slot := BitVec.ofNat 1 slot
    upc := entry
    s := ((Rank.reset.s.set 1 arg).set 2 (BitVec.ofNat 32 run.k)).set 3 (BitVec.ofNat 32 run.n)
    v := Rank.reset.v, k := Rank.reset.k, c := Rank.reset.c, fl := 0, cfl := 0, reads := 0, writes := 0
    run := some run, state := .running, wait := none, course := none, failed := none, ranges := [], done := 0
    stop := none, timer := 0, open_ := none, fresh := false })

/-- A run starts at a member, or waits there until the member halts. -/
def beginRank (run : RankRun) (arg : Word) (slot entry r : Nat) (s : State) : State :=
  if (s.rank r).state = .idle then startRank run arg slot entry r s
  else s.updRank r (fun k => { k with queued := k.queued ++ [(run, arg, slot, entry)] })

def RankRun.same (a b : RankRun) : Bool :=
  a.vd == b.vd && a.cmd == b.cmd && a.q == b.q && a.launch == b.launch && a.node == b.node

def updQueue (vd q : Nat) (f : LaunchQueue → LaunchQueue) (s : State) : State :=
  s.updVd vd (fun v => { v with queues := v.queues.set (Fin.ofNat 4 q) (f v.queues[Fin.ofNat 4 q]) })

def updLaunch (vd q launch : Nat) (f : Launch → Launch) (s : State) : State :=
  updQueue vd q (fun x => { x with launches := x.launches.map (fun l => if l.number = launch then f l else l) }) s

def updNode (vd q launch node : Nat) (f : Node → Node) (s : State) : State :=
  updLaunch vd q launch (fun l => { l with nodes := l.nodes.zipIdx.map (fun x => if x.2 = node then f x.1 else x.1) }) s

/-- The worst end of a run so far: the first; then a fault with a lower member index, or a stop with a lower one (R184).
An end that CABORT caused names no member (R181). -/
def worse (old : Option (Nat × Nat)) (member code : Nat) : Option (Nat × Nat) :=
  match old with
  | none => some (member, code)
  | some (m, c) => if m != noMember && ((c == 6) == (code == 6)) && decide (member < m) then some (member, code) else some (m, c)

/-- Member k of a run has ended, with a code when it did not halt. -/
def noteEnd (run : RankRun) (code : Option Nat) (s : State) : State :=
  match run.cmd with
  | some n => updCmd run.vd n (fun c => { c with
      halted := c.halted ++ [run.k], fault := match code with | some x => worse c.fault run.k x | none => c.fault }) s
  | none => updNode run.vd run.q run.launch run.node (fun d => { d with
      halted := d.halted ++ [run.k], code := match code with | some x => if d.code = 0 then x else d.code | none => d.code }) s

end Sys2Proof.Machine
end

