-- ==== Sys2Proof/Machine/Control.lean ====
section
/-! DEFINITION. Instruction fetch (R58, R87, R217, R231), branches, jumps, calls and LOOP (R85, R86), and REP (R121, R122). -/

namespace Sys2Proof.Machine

/-! ### Fetch -/

/-- The words of a line fill the L1 instruction cache of a core, which holds 512 lines; a full one loses a line, which one the
manual leaves open (R217, log 5). A word that did not come, from a column word that fails, fills nothing; the tag of the line is that of its
translation (R289). -/
def fillLine (c line : Nat) (ws : List (Option Word)) (s : State) : State :=
  let rest := (s.core c).icache.filter (fun w => w.1 / 16 != line)
  let filled (l : List (Nat × Word)) : List (Nat × Word) := ws.zipIdx.foldl (fun l w => match w.1 with
    | some x => put (line * 16 + w.2) x l
    | none => l) l
  let leaf := s.tlb.find? (fun t => t.die == dieOf c && t.vd == (s.core c).vd && t.page == line / 1024)
  let tags (l : List (Nat × Bool × Bool)) : List (Nat × Bool × Bool) :=
    match leaf with
    | some t => if t.big || t.leaf.getLsbD 6 then put line (t.big, t.leaf.getLsbD 6) (drop line l) else drop line l
    | none => drop line l
  if rest.length + 16 ≤ 8192 then s.updCore c (fun k => { k with icache := filled rest, itags := tags k.itags })
  else
    let gone := (rest.getD (Config.victim s.nextId % rest.length) (0, 0)).1 / 16
    { s.updCore c (fun k => { k with icache := filled (rest.filter (fun w => w.1 / 16 != gone)), itags := tags (drop gone k.itags) }) with
      nextId := s.nextId + 1 }

/-- The 16 words of 64 bytes. -/
def lineWords (bs : List Byte) : List (Option Word) :=
  (List.range 16).map (fun i => some (BitVec.ofNat 32 (ofBytes ((bs.drop (4 * i)).take 4))))

/-- The words of a code line at its home: none of a column word that fails its code. A word that never issues raises nothing (R58). -/
def homeWords (ps : List Place) (s : State) : List (Option Word) :=
  (lineWords (ps.map s.readByte)).zipIdx.map (fun w => if s.fails ((ps.drop (4 * w.2)).take 4) then none else w.1)

/-- The words of a code line, or none while another package has not sent them (R58, R332), or its bank is held (R371). The word at `pc`
itself must be sound (R342). -/
def fetchLine (pc : Nat) : Target → M (List (Option Word))
  | .home ps => fun s0 =>
    let head := ps.headD ⟨0, 0, 0⟩
    let line := (List.range 64).map (fun i => { head with byte := head.byte / 64 * 64 + i })
    if line.any (fun p => s0.closed .read p) then .error (.keepWait (s0.askWindow s0.here.vd (line.take 1)) .bank)
    else
      let s := s0.recall line
      if s.fails ps then .error (.keepTrap (consumeBad ps 3 s).1 Cause.mchk (consumeBad ps 3 s).2)
      else .ok (homeWords line s, s)
  | .remote pkg pa _ => fun s =>
    if s.link.reqs.any (fun r => r.core == s.cur.core && r.kind == .fetch (pc / 64) false) then .error (.wait .remote)
    else if s.link.lost.contains pkg then lostTrap pa 3 s
    else .error (.keepWait { sendRequest s.nextId 1 pkg (pa / 64 * 64) 64 .none 0 0 (.fetch (pc / 64) false) (pc / 64 * 64) s with
      nextId := s.nextId + 1 } .remote)
  | _ => pure []

/-- The instruction word at an address (R58): from the L1 instruction cache, which is not coherent, else from its home. -/
def fetchWord (pc : Nat) : M Word := fun s =>
  match lookup (pc / 4) s.here.icache with
  | some w => .ok (w, s)
  | none =>
    match (reach pc 4 .fetch >>= fetchLine pc) s with
    | .ok (ws, t) =>
      let t1 := fillLine s.cur.core (pc / 64) ws t
      .ok ((lookup (pc / 4) t1.here.icache).getD 0, t1)
    | .error e => .error e

/-- The words from an address on. -/
def fetchWords (pc : Nat) : Nat → M (List Word)
  | 0 => pure []
  | n + 1 => do
    let w ← fetchWord (pc % 2 ^ 55)
    let r ← fetchWords (pc + 4) n
    pure (w :: r)

/-- The next instruction word: from the repetition buffer, which a loaded repetition fills once (log 49), else fetched (R58, R121). -/
def nextWord : M Word := fun s =>
  match s.me.rep with
  | none => fetchWord s.me.pc.toNat s
  | some r =>
    match r.body[r.pos]? with
    | some w => .ok (w, s)
    | none =>
      if r.len ≤ r.pos then fetchWord s.me.pc.toNat s
      else match fetchWords r.base.toNat r.len s with
        | .error e => .error e
        | .ok (ws, t) => .ok (ws.getD r.pos 0, t.updMe (fun c => { c with rep := some { r with body := ws } }))

/-! ### Branches -/

/-- The context continues at an address (R66). -/
def jumpTo (a : W64) (s : State) : State := { s with target := some (va55 a) }

/-- COND of BR on the value of A (R72). -/
def brHolds (c : BitVec 3) (a : W64) : Bool :=
  match c.toNat with
  | 0 => a == 0
  | 1 => a != 0
  | 2 => a.msb
  | 3 => !a.msb
  | 4 => !a.msb && a != 0
  | 5 => a.msb || a == 0
  | 6 => a.getLsbD 0
  | _ => !a.getLsbD 0

def execBr (st : BitVec 3) (c : BitVec 3) (a : BitVec 5) (i : BitVec 15) : State → Out :=
  issue (.br st c a i) st.toNat (do
    prepare [.int a] none (fun _ => [])
    upd (fun s =>
      let t := consume [.int a] s
      if brHolds c (arg1 (s.values [.int a]) 0) then jumpTo (s.me.pc + 4 * i.signExtend 64) t else t))

def execLoop (st : BitVec 3) (a : BitVec 5) (i : BitVec 15) : State → Out :=
  issue (.loop st a i) st.toNat (do
    prepare [.int a] none (fun _ => [])
    upd (fun s =>
      let v := arg1 (s.values [.int a]) 0 - 1
      let t := writeReg (.fixed (s.now + 1)) (a.toNat - 16) v s
      if v ≠ 0 then jumpTo (s.me.pc + 4 * i.signExtend 64) t else t))

def execJmp (st : BitVec 3) (i : BitVec 23) : State → Out :=
  issue (.jmp st i) st.toNat (upd (fun s => jumpTo (s.me.pc + 4 * i.signExtend 64) s))

/-- n7 receives the address of the next word (R86). -/
def link (s : State) : State := writeReg (.fixed (s.now + 1)) 7 (va55 (s.me.pc + 4)) s

def execCall (st : BitVec 3) (i : BitVec 23) : State → Out :=
  issue (.call st i) st.toNat (upd (fun s => jumpTo (s.me.pc + 4 * i.signExtend 64) (link s)))

/-- JREG: the target is the value of an operand; a misaligned one traps ALIGN (R86). -/
def jumpReg (i : Instr) (st : BitVec 3) (a : Opnd) (linked : Bool) : State → Out :=
  issue i st.toNat (do
    prepare [a] none (fun s =>
      if arg1 (s.values [a]) 0 &&& 3 ≠ 0 then [Cand.align (arg1 (s.values [a]) 0)] else [])
    upd (fun s =>
      let t := consume [a] s
      jumpTo (arg1 (s.values [a]) 0) (if linked then link t else t)))

def execJmpi (st : BitVec 3) (a : BitVec 5) : State → Out := jumpReg (.jmpi st a) st (.int a) false
def execCalli (st : BitVec 3) (a : BitVec 5) : State → Out := jumpReg (.calli st a) st (.int a) true
def execRet (st : BitVec 3) : State → Out := jumpReg (.ret st) st ⟨23, 1, false⟩ false

/-! ### Repetition -/

/-- Words that R122 keeps out of a body. -/
def repBanned (w : Word) : Bool :=
  let m := (w.extractLsb' 26 6).toNat
  let fn := (w.extractLsb' 0 6).toNat
  (decide (0x11 ≤ m) && decide (m ≤ 0x17)) || m == 0x2F ||
    (m == 0x18 && (fn == 1 || fn == 2 || fn == 6 || fn == 7 || fn == 9 || fn == 10 || fn == 11))

/-- The trap a body word makes its REP take (R122). -/
def bodyTrap (s : State) (w : Word) : Option Nat := if repBanned w then some Cause.ill else wordTrap w s

/-- Fetches the words of a body; the first that may not stand there stops the REP. -/
def fetchBody (pc : Nat) : Nat → M (List Word)
  | 0 => pure []
  | k + 1 => do
    let w ← fetchWord (pc % 2 ^ 55)
    let s ← get
    match bodyTrap s w with
    | some c => stop (.trap c (w.zeroExtend 64))
    | none => do
      let r ← fetchBody (pc + 4) k
      pure (w :: r)

/-- REP (R121, R122). DESIGN CHOICE (log 49): the body is fetched and checked before the count operand is ready, so a trap or fault of
a body word comes before any wait for the count. -/
def execRep (st : BitVec 3) (a : BitVec 5) (i : BitVec 11) : State → Out :=
  issue (.rep st a i) st.toNat (do
    let s ← get
    let body ← fetchBody (s.me.pc + 4).toNat i.toNat
    prepare [.int a] none (fun _ => [])
    upd (fun s =>
      let c := arg1 (s.values [.int a]) 0
      let t := consume [.int a] s
      let base := va55 (s.me.pc + 4)
      if c = 0 then jumpTo (base + 4 * BitVec.ofNat 64 i.toNat) t
      else jumpTo base (t.updMe (fun x => { x with rep := some ⟨c, base, i.toNat, 0, body⟩ }))))

end Sys2Proof.Machine
end

