-- ==== Sys2Proof/Machine/Lazy.lean ====
section
/-! DEFINITION. Stream instructions (R125) and lazy-uniform values (R126 to R131). -/

namespace Sys2Proof.Machine

/-! ### Streams -/

def handleCands (h : W64) : List Cand := if 15 < h.toNat then [Cand.handle (h &&& 0xFF)] else []

/-- HANDLE for a number above 15 or a handle that is not bound. -/
def boundCands (s : State) (h : W64) : List Cand :=
  if 15 < h.toNat ∨ (s.me.hnd[hndIx h.toNat]).bound = false then [Cand.handle (h &&& 0xFF)] else []

def setHandle (h : Nat) (f : Stream → Stream) (s : State) : State :=
  s.updMe (fun c => { c with hnd := c.hnd.set (hndIx h) (f c.hnd[hndIx h]) })

/-- The 48-byte key record at an offset of the own scratchpad. -/
def keyRecord (s : State) (off : Nat) : List Byte := s.spmRead s.cur.core off 48

/-- The traps of SBIND that come before that of its record (R125). -/
def sbindCands (a h : W64) : List Cand :=
  let off := bits a.toNat 16 0
  (if off % 16 ≠ 0 then [Cand.align a] else []) ++ (if spmSize < off + 48 then [Cand.spmrange a] else []) ++
    handleCands h

/-- Nonzero flag bits 63–1 of the key record at an offset: SBIND's last trap (R125). -/
def keyFlagsBad (s : State) (off : Nat) : Bool := decide (2 ≤ ofBytes (((keyRecord s off).drop 40).take 8))

/-- An instruction that reads own scratchpad bytes: the read comes after earlier accesses of the context to them (R136, log 68), and a
failing word among them makes the instruction take MCHK (R342, log 13). -/
def awaitSpm (off len : Nat) : M Unit := fun s =>
  if s.spmAwaited s.cur.core off len then .error (.wait .interlock)
  else if s.here.bad.any (fun w => overlap (8 * w) 8 off len) then
    .error (.keepTrap (spmRecord off 0 s).1 Cause.mchk (spmRecord off 0 s).2)
  else .ok ((), s)

/-- The handle as SBIND leaves it: a bound one first counts its generation up. -/
def boundHandle (bs : List Byte) (h : Stream) : Stream :=
  { bound := true, key := BitVec.ofNat 256 (ofBytes (bs.take 32)), sid := BitVec.ofNat 64 (ofBytes ((bs.drop 32).take 8))
    counting := bit (ofBytes (bs.drop 40)) 0, gen := if h.bound then h.gen + 1 else h.gen }

def execSbind (st : BitVec 3) (a b : BitVec 5) : State → Out :=
  let srcs := [Opnd.int a, Opnd.int b]
  issue (.sbind st a b) st.toNat (do
    prepare srcs none (fun s => sbindCands (arg1 (s.values srcs) 0) (arg1 (s.values srcs) 1))
    let s ← get
    let off := bits (arg1 (s.values srcs) 0).toNat 16 0
    awaitSpm off 48
    trapIf (keyFlagsBad s off) Cause.ill ((wordOf (.sbind st a b)).zeroExtend 64)
    upd (fun s =>
      let vs := s.values srcs
      let off := bits (arg1 vs 0).toNat 16 0
      setHandle (arg1 vs 1).toNat (boundHandle (keyRecord s off)) (touch off 48 (consume srcs s))))

def execSfree (st : BitVec 3) (a : BitVec 5) : State → Out :=
  issue (.sfree st a) st.toNat (do
    prepare [.int a] none (fun s => handleCands (arg1 (s.values [.int a]) 0))
    upd (fun s => setHandle (arg1 (s.values [.int a]) 0).toNat (fun h => { Stream.reset with gen := h.gen + 1 })
      (consume [.int a] s)))

/-- Stream words 2o and 2o + 1 as one value, low word first. -/
def wordPair (h : Stream) (i : Nat) : W64 := (h.word (i + 1)) ++ (h.word i)

/-- RNDW and RNDV: n values of two words each from word 2n·o on. -/
def drawWords (i : Instr) (st : BitVec 3) (d a b : BitVec 5) (n : Nat) : State → Out :=
  let srcs := [Opnd.int a, Opnd.int b]
  issue i st.toNat (do
    prepare srcs (some (.int d n)) (fun s => boundCands s (arg1 (s.values srcs) 0))
    upd (fun s =>
      let vs := s.values srcs
      let h := s.me.hnd[hndIx (arg1 vs 0).toNat]
      deliver (.int d n) .now ((List.range n).map (fun k => wordPair h (2 * n * (arg1 vs 1).toNat + 2 * k)))
        (consume srcs s)))

def execRndw (st : BitVec 3) (d a b : BitVec 5) : State → Out := drawWords (.rndw st d a b) st d a b 1
def execRndv (st : BitVec 3) (d a b : BitVec 5) : State → Out := drawWords (.rndv st d a b) st d a b 2

def execSgen (st : BitVec 3) (d a : BitVec 5) : State → Out :=
  issue (.sgen st d a) st.toNat (do
    prepare [.int a] (some (.int d)) (fun s => handleCands (arg1 (s.values [.int a]) 0))
    upd (fun s => deliver (.int d) .now [(s.me.hnd[hndIx (arg1 (s.values [.int a]) 0).toNat]).gen.zeroExtend 64]
      (consume [.int a] s)))

/-! ### Lazy values -/

/-- The lazy register a code 16–23 names. -/
def Context.lazy (c : Context) (a : BitVec 5) : Lazy := c.z[regIx (a.toNat - 16)]
def setLazy (a : BitVec 5) (z : Lazy) (s : State) : State :=
  s.updMe (fun c => { c with z := c.z.set (regIx (a.toNat - 16)) z })

/-- P of R128: the held digits as an integer. -/
def Lazy.prefix (z : Lazy) : Nat := z.digits.toNat / 2 ^ (128 - z.len)

/-- The identity of a value (R126). -/
def Lazy.ident (z : Lazy) : BitVec 16 × BitVec 32 × W64 := (z.handle, z.gen, z.off)

/-- extend(z) of R130, or the trap of its check: the digits are the P held and those of the stream word. -/
def extend (c : Context) (z : Lazy) : Except Stop Lazy :=
  let h := c.hnd[hndIx z.handle.toNat]
  if 15 < z.handle.toNat ∨ h.bound = false then .error (.trap Cause.handle (z.handle.zeroExtend 64))
  else if z.gen ≠ h.gen then .error (.trap Cause.zstale (z.handle.zeroExtend 64))
  else
    let k := z.len / 32
    let w := (h.word (16 * z.off.toNat + k)).toNat % 2 ^ (32 - z.len % 32)
    .ok { z with
      digits := BitVec.ofNat 128 (z.prefix * 2 ^ (128 - z.len) + w * 2 ^ (96 - 32 * k)), len := 32 * (k + 1) }

/-- What a comparison comes to: a result with the operand as extended, or undecided at 128 digits. -/
inductive Decided where
  | val (r : W64) (z : Lazy)
  | exhausted (z : Lazy)
  deriving DecidableEq, Repr

/-- The loop of R128: `test P L` decides from a prefix. A value is extended four times at most. -/
def decideLoop (c : Context) (test : Nat → Nat → Option W64) : Nat → Lazy → Except Stop Decided
  | 0, z => .ok (.exhausted z)
  | fuel + 1, z =>
    match test z.prefix z.len with
    | some r => .ok (.val r z)
    | none =>
      if z.len = 128 then .ok (.exhausted z)
      else match extend c z with
        | .error e => .error e
        | .ok z' => decideLoop c test fuel z'

/-- U against the threshold n/m, from the prefix P of L digits. -/
def threshold (n m p l : Nat) : Option W64 :=
  if n * 2 ^ l ≤ p * m then some 0 else if (p + 1) * m ≤ n * 2 ^ l then some 1 else none

/-- A comparison of one lazy operand: `quick` is the case that needs no digits, `last` the result with U = P/2^128. -/
def lazyOp (i : Instr) (st : BitVec 3) (d a : BitVec 5) (src : Opnd) (quick : List W64 → Option W64)
    (test : List W64 → Nat → Nat → Option W64) (last : List W64 → Nat → W64) (flag : List W64 → Fl) : State → Out :=
  issue i st.toNat (do
    prepare [src] (some (.int d)) (fun _ => [])
    let s ← get
    let v := arg (s.values [src]) 0
    let z := s.me.lazy a
    let done (r : W64) (z : Lazy) (s : State) : State :=
      raiseFlags (flag v) (deliver (.int d) .now [r] (setLazy a z (consume [src] s)))
    match quick v with
    | some r => upd (done r z)
    | none =>
      match decideLoop s.me (test v) 5 z with
      | .error e => stop e
      | .ok (.val r z') => upd (done r z')
      | .ok (.exhausted z') =>
        if s.me.mode.getLsbD 4 then upd (done (last v z'.prefix) z')
        else stop (.keepTrap (setLazy a z' s) Cause.zexh (a.zeroExtend 64)))

/-- ZLTQ: n/m is at least 1, or 0. -/
def zltqQuick (v : List W64) : Option W64 :=
  if wd v 1 = 0 ∨ (wd v 1).toNat ≤ (wd v 0).toNat then some 1 else if wd v 0 = 0 then some 0 else none
def zltqTest (v : List W64) : Nat → Nat → Option W64 := threshold (wd v 0).toNat (wd v 1).toNat

def execZltq (st : BitVec 3) (d a b : BitVec 5) : State → Out :=
  lazyOp (.zltq st d a b) st d a (.int b 2) zltqQuick zltqTest
    (fun v p => b2w (decide (p * (wd v 1).toNat < (wd v 0).toNat * 2 ^ 128)))
    (fun _ => 0)

/-- The threshold of ZLTF as n / 2^k, for 0 < t < 1. -/
def zltfNum (v : List W64) : Num := valueOf Fmt.f32 ((wd v 0).toNat % 2 ^ 32)
def zltfFrac (v : List W64) : Nat × Nat :=
  match zltfNum v with
  | .fin _ m e => (m, 2 ^ (-e).toNat)
  | _ => (0, 1)

def zltfQuick (v : List W64) : Option W64 :=
  match zltfNum v with
  | .nan _ _ => some 0
  | .inf neg => some (if neg then 0 else 1)
  | .fin neg m e => if neg || m == 0 then some 0 else if 2 ^ (-e).toNat ≤ m * 2 ^ e.toNat then some 1 else none

def zltfTest (v : List W64) : Nat → Nat → Option W64 := threshold (zltfFrac v).1 (zltfFrac v).2

def execZltf (st : BitVec 3) (d a b : BitVec 5) : State → Out :=
  lazyOp (.zltf st d a b) st d a (.int b) zltfQuick zltfTest
    (fun v p => b2w (decide (p * (zltfFrac v).2 < (zltfFrac v).1 * 2 ^ 128)))
    (fun v => Fl.on (zltfNum v).isNan Fl.NV)

/-- ZFLOOR below 0 or 1 numbers. -/
def zfloorQuick (v : List W64) : Option W64 := if (wd v 0).toNat ≤ 1 then some 0 else none
/-- Both ends of the interval have one floor. -/
def zfloorTest (v : List W64) (p l : Nat) : Option W64 :=
  let n := (wd v 0).toNat
  if p * n / 2 ^ l = ((p + 1) * n - 1) / 2 ^ l then some (BitVec.ofNat 64 (p * n / 2 ^ l)) else none

def execZfloor (st : BitVec 3) (d a b : BitVec 5) : State → Out :=
  lazyOp (.zfloor st d a b) st d a (.int b) zfloorQuick zfloorTest
    (fun v p => BitVec.ofNat 64 (p * (wd v 0).toNat / 2 ^ 128))
    (fun _ => 0)

/-- One interval lies wholly below the other (R128). -/
def ltzTest (x y : Lazy) : Option W64 :=
  if (x.prefix + 1) * 2 ^ y.len ≤ y.prefix * 2 ^ x.len then some 1
  else if (y.prefix + 1) * 2 ^ x.len ≤ x.prefix * 2 ^ y.len then some 0
  else none

/-- The loop of ZLTZ: the operand with fewer digits is extended. DESIGN CHOICE (log 72): of two with the same number of digits, A. -/
def ltzLoop (c : Context) : Nat → Lazy → Lazy → Except Stop (Option W64 × Lazy × Lazy)
  | 0, x, y => .ok (none, x, y)
  | fuel + 1, x, y =>
    match ltzTest x y with
    | some r => .ok (some r, x, y)
    | none =>
      if x.len = 128 ∧ y.len = 128 then .ok (none, x, y)
      else if x.len ≤ y.len then
        match extend c x with
        | .error e => .error e
        | .ok x' => ltzLoop c fuel x' y
      else
        match extend c y with
        | .error e => .error e
        | .ok y' => ltzLoop c fuel x y'

def execZltz (st : BitVec 3) (d a b : BitVec 5) : State → Out :=
  issue (.zltz st d a b) st.toNat (do
    prepare [] (some (.int d)) (fun _ => [])
    let s ← get
    let x := s.me.lazy a
    let y := s.me.lazy b
    if x.ident = y.ident then upd (deliver (.int d) .now [0])
    else
      match ltzLoop s.me 9 x y with
      | .error e => stop e
      | .ok (some r, x', y') => upd (fun s => deliver (.int d) .now [r] (setLazy b y' (setLazy a x' s)))
      | .ok (none, x', y') =>
        if s.me.mode.getLsbD 4 then upd (fun s => deliver (.int d) .now [0] (setLazy b y' (setLazy a x' s)))
        else stop (.keepTrap (setLazy b y' (setLazy a x' s)) Cause.zexh (a.zeroExtend 64)))

def execZdraw (st : BitVec 3) (d a b : BitVec 5) : State → Out :=
  let srcs := [Opnd.int a, Opnd.int b]
  issue (.zdraw st d a b) st.toNat (do
    prepare srcs none (fun s => boundCands s (arg1 (s.values srcs) 0))
    upd (fun s =>
      let vs := s.values srcs
      let h := (arg1 vs 0).toNat
      setLazy d ⟨0, 0, BitVec.ofNat 16 h, (s.me.hnd[hndIx h]).gen, arg1 vs 1⟩ (consume srcs s)))

/-- ZEXT's loop: extends until k digits are held. -/
def extendTo (c : Context) (k : Nat) : Nat → Lazy → Except Stop Lazy
  | 0, z => .ok z
  | fuel + 1, z =>
    if k ≤ z.len then .ok z
    else match extend c z with
      | .error e => .error e
      | .ok z' => extendTo c k fuel z'

def execZext (st : BitVec 3) (a b : BitVec 5) : State → Out :=
  issue (.zext st a b) st.toNat (do
    prepare [.int b] none (fun _ => [])
    let s ← get
    match extendTo s.me (min (arg1 (s.values [.int b]) 0).toNat 128) 4 (s.me.lazy a) with
    | .error e => stop e
    | .ok z => upd (fun s => setLazy a z (consume [.int b] s)))

def execZlen (st : BitVec 3) (d a : BitVec 5) : State → Out :=
  compute (.zlen st d a) st.toNat [] (.int d) none (fun s _ => [BitVec.ofNat 64 (s.me.lazy a).len])

def execZbits (st : BitVec 3) (d a b : BitVec 5) : State → Out :=
  compute (.zbits st d a b) st.toNat [.int b] (.int d) none (fun s vs =>
    [if (arg1 vs 0).getLsbD 0 then (s.me.lazy a).digits.extractLsb' 0 64 else (s.me.lazy a).digits.extractLsb' 64 64])

def execZmov (st : BitVec 3) (d a : BitVec 5) : State → Out :=
  issue (.zmov st d a) st.toNat (upd (fun s => setLazy d (s.me.lazy a) s))

/-- ALIGN and SPMRANGE of a lazy record (R127). -/
def recordCands (a : W64) : List Cand :=
  let off := bits a.toNat 16 0
  (if off % 32 ≠ 0 then [Cand.align a] else []) ++ (if spmSize < off + 32 then [Cand.spmrange a] else [])

/-- PREFIX is stored most significant digit first (R26). -/
def lazyRecord (z : Lazy) : List Byte :=
  (bytesOf 16 z.digits.toNat).reverse ++ bytesOf 2 z.len ++ bytesOf 2 z.handle.toNat ++ bytesOf 4 z.gen.toNat ++
    bytesOf 8 z.off.toNat

/-- The record that 32 bytes hold; digits beyond LENGTH are cleared. -/
def recordOf (bs : List Byte) : Lazy :=
  let n (off len : Nat) : Nat := ofBytes ((bs.drop off).take len)
  let len := n 16 2
  ⟨BitVec.ofNat 128 (ofBytes (bs.take 16).reverse / 2 ^ (128 - len) * 2 ^ (128 - len)), len, BitVec.ofNat 16 (n 18 2),
    BitVec.ofNat 32 (n 20 4), BitVec.ofNat 64 (n 24 8)⟩

def recordAt (s : State) (a : W64) : Lazy := recordOf (s.spmRead s.cur.core (bits a.toNat 16 0) 32)

def execZld (st : BitVec 3) (d a : BitVec 5) : State → Out :=
  issue (.zld st d a) st.toNat (do
    prepare [.int a] none (fun s => recordCands (arg1 (s.values [.int a]) 0))
    let s ← get
    let v := arg1 (s.values [.int a]) 0
    awaitSpm (bits v.toNat 16 0) 32
    trapIf (decide (128 < (recordAt s v).len)) Cause.ill ((wordOf (.zld st d a)).zeroExtend 64)
    upd (fun s =>
      let v := arg1 (s.values [.int a]) 0
      setLazy d (recordAt s v) (touch (bits v.toNat 16 0) 32 (consume [.int a] s))))

def execZst (st : BitVec 3) (a b : BitVec 5) : State → Out :=
  issue (.zst st a b) st.toNat (do
    prepare [.int b] none (fun s => recordCands (arg1 (s.values [.int b]) 0))
    upd (fun s =>
      let off := bits (arg1 (s.values [.int b]) 0).toNat 16 0
      storeCluster (BitVec.ofNat 64 (0x800000 + off)) (lazyRecord (s.me.lazy a)) false none (consume [.int b] s)))

/-! ### A lazy instruction that is stopped (R132) -/

/-- The operand after at most n words, as long as the comparison is undecided; the word that decides stays too. -/
def undecided (c : Context) (test : Nat → Nat → Option W64) : Nat → Lazy → Lazy
  | 0, z => z
  | n + 1, z =>
    if z.len = 128 then z
    else match extend c z with
      | .error _ => z
      | .ok z' => if (test z'.prefix z'.len).isSome then z' else undecided c test n z'

/-- The same for the two operands of ZLTZ. -/
def undecidedPair (c : Context) : Nat → Lazy → Lazy → Lazy × Lazy
  | 0, x, y => (x, y)
  | n + 1, x, y =>
    if x.len = 128 ∧ y.len = 128 then (x, y)
    else if x.len ≤ y.len then
      match extend c x with
      | .error _ => (x, y)
      | .ok x' => if (ltzTest x' y).isSome then (x', y) else undecidedPair c n x' y
    else
      match extend c y with
      | .error _ => (x, y)
      | .ok y' => if (ltzTest x y').isSome then (x, y') else undecidedPair c n x y'

/-- A comparison of one operand that could issue has extended n words at most when it is stopped. -/
def partOne (d a : BitVec 5) (src : Opnd) (quick : List W64 → Option W64) (test : List W64 → Nat → Nat → Option W64) (n : Nat)
    (s : State) : State :=
  match prepare [src] (some (.int d)) (fun _ => []) s with
  | .error _ => s
  | .ok _ =>
    let v := arg (s.values [src]) 0
    let z := s.me.lazy a
    if (quick v).isSome || (test v z.prefix z.len).isSome then s else setLazy a (undecided s.me (test v) n z) s

/-- R132: the words that a lazy instruction has drawn, n at most, stay in its operands when it is stopped; nothing is delivered. -/
def lazyPart (i : Instr) (n : Nat) (s : State) : State :=
  if (gateOf i s).isSome then s
  else match i with
    | .zltq _ d a b => partOne d a (.int b 2) zltqQuick zltqTest n s
    | .zltf _ d a b => partOne d a (.int b) zltfQuick zltfTest n s
    | .zfloor _ d a b => partOne d a (.int b) zfloorQuick zfloorTest n s
    | .zltz _ d a b =>
      match prepare [] (some (.int d)) (fun _ => []) s with
      | .error _ => s
      | .ok _ =>
        if (s.me.lazy a).ident = (s.me.lazy b).ident || (ltzTest (s.me.lazy a) (s.me.lazy b)).isSome then s
        else
          let r := undecidedPair s.me n (s.me.lazy a) (s.me.lazy b)
          setLazy b r.2 (setLazy a r.1 s)
    | .zext _ a b =>
      match prepare [.int b] none (fun _ => []) s with
      | .error _ => s
      | .ok _ =>
        let k := min (arg1 (s.values [.int b]) 0).toNat 128
        setLazy a (undecided s.me (fun _ l => if k ≤ l then some 0 else none) n (s.me.lazy a)) s
    | _ => s

end Sys2Proof.Machine
end

