-- ==== Sys2Proof/Machine/Image.lean ====
section
/-! DEFINITION. The helper image (R37), the context record and the core image (R298), written and read byte by byte. Where R298
gives a field its bytes and not their order (the shadow, the port record), the order is the model's (log 9). -/

namespace Sys2Proof.Machine

/-! ### The bits the geometry registers hold -/

/-- The bits cg n holds (R163, R164), none for a reserved index. A register whose table gives no width holds 64 (log 15). -/
def cgMask (n : Nat) : Option W64 :=
  match n with
  | 0 | 1 | 5 | 6 | 9 => some 0xFFFFFFFF
  | 2 => some 0xFFFFFFFFFF
  | 7 => some 0xFFFFF
  | 3 | 4 | 8 | 10 | 11 | 12 => some (BitVec.allOnes 64)
  | 16 => some 0x1FF
  | _ => none

/-- The bits mg n holds when it is written (R163, R170); STATUS is read-only. -/
def mgMask (n : Nat) : Option W64 :=
  match n with
  | 0 | 3 | 4 | 5 | 6 | 7 => some (BitVec.allOnes 64)
  | 1 | 2 | 9 => some 0xFFFFF
  | 8 => some 0x1F
  | 10 => some 0xFFFFFFFF
  | _ => none

def cgIx (n : Nat) : Fin 17 := Fin.ofNat 17 n
def mgIx (n : Nat) : Fin 12 := Fin.ofNat 12 n

/-- The bits that mg n of a loaded record keeps: STATUS, which MSETG may not write, holds its defined bits (R163, R170). -/
def mgHeld (n : Nat) : W64 := (mgMask n).getD 0x1FF

/-! ### Writing -/

def repBytes (r : Option Rep) : List Byte :=
  match r with
  | none => bytesOf 18 0
  | some r => bytesOf 8 r.remaining.toNat ++ bytesOf 8 r.base.toNat ++ bytesOf 1 r.len ++ bytesOf 1 r.pos

/-- The 1,536 bytes of R37 for a context in cycle t. -/
def helperImage (t : Nat) (c : Context) : List Byte :=
  ((List.range 16).flatMap (fun i => bytesOf 8 ((c.intSlot i).read t).toNat)) ++
  ((List.range 16).flatMap (fun i => bytesOf 16 ((c.vecSlot i).read t).toNat)) ++
  (c.n.toList.flatMap (fun r => bytesOf 8 (r.read t).toNat)) ++
  (c.a.toList.flatMap (fun r => bytesOf 8 (r.read t).toNat)) ++
  (c.as.toList.flatMap (fun r => bytesOf 8 (r.signExtend 64).toNat)) ++
  (c.z.toList.flatMap lazyRecord) ++
  (c.slots.toList.flatMap (fun b => bytesOf 1 b.toNat)) ++
  bytesOf 8 c.pc.toNat ++ bytesOf 8 c.mode.toNat ++ bytesOf 8 c.flags.toNat ++ bytesOf 8 c.srh.toNat ++
  bytesOf 8 c.sro.toNat ++ repBytes c.rep ++ bytesOf 6 0 ++ bytesOf 8 (c.btail.read t).toNat ++
  bytesOf 16 (c.vtail.read t).toNat ++ bytesOf 672 0

def stateCode : CtxState → Nat
  | .free => 0
  | .live => 1
  | .faulted => 2
  | .suspended => 3

/-- The R151 descriptor of a bound port. -/
def portDesc (pkg : Nat) (p : Port) : Nat :=
  match p.dest with
  | none => 0
  | some d => 15 * 2 ^ 40 + d.port * 2 ^ 36 + d.ctx * 2 ^ 32 + pkg * 2 ^ 22 + d.core

def portBytes (pkg : Nat) (p : Port) : List Byte :=
  bytesOf 8 (portDesc pkg p) ++
    bytesOf 8 ((if p.standing then 1 else 0) + (if p.dest.isSome then 2 else 0) + 256 * p.queue.length) ++
    ((List.range 16).flatMap (fun i => bytesOf 8 (p.queue.getD i 0).toNat))

def streamBytes (h : Stream) : List Byte :=
  bytesOf 32 h.key.toNat ++ bytesOf 8 h.sid.toNat ++ bytesOf 8 (if h.counting then 1 else 0) ++ bytesOf 8 h.gen.toNat ++
    bytesOf 8 (if h.bound then 1 else 0)

/-- A 4 KiB context record (R298). -/
def contextRecord (pkg t : Nat) (c : Context) : List Byte :=
  helperImage t c ++ bytesOf 8 (stateCode c.status + (if c.sup then 256 else 0)) ++ bytesOf 8 c.epc.toNat ++
  bytesOf 8 c.cause.toNat ++ bytesOf 8 c.tval.toNat ++ bytesOf 8 c.reply.toNat ++
  repBytes c.shadow ++ bytesOf 6 (if c.shadow.isSome then 1 else 0) ++
  (c.ports.toList.flatMap (portBytes pkg)) ++ (c.hnd.toList.flatMap streamBytes) ++
  (c.cg.toList.flatMap (fun x => bytesOf 8 x.toNat)) ++ (c.mg.toList.flatMap (fun x => bytesOf 8 x.toNat)) ++
  bytesOf 8 c.unrep.toNat ++ bytesOf 8 c.groups.length ++ bytesOf 648 0

/-- A saved engine command of 128 bytes: word, context, commit group (MX only), A, B, geometry (R298). So that they fit, the word and
the context take 4 bytes each (log 9). -/
def cmdBytes (mx : Bool) (n : Nat) (e : EngCmd) : List Byte :=
  let b := bytesOf 4 e.word.toNat ++ bytesOf 4 e.ctx ++ (if mx then bytesOf 8 e.group else []) ++ bytesOf 8 e.a.toNat ++
    bytesOf 8 e.b.toNat ++ ((e.geom.take n).flatMap (fun x => bytesOf 8 x.toNat))
  b.take 128 ++ List.replicate (128 - b.length) 0

def padTo (n : Nat) (bs : List Byte) : List Byte := bs.take n ++ List.replicate (n - bs.length) 0

/-- The header of a core image (R298). -/
def coreHeader (k : Core) (curve : Nat) : List Byte :=
  bytesOf 8 1 ++ bytesOf 8 curve ++ bytesOf 8 k.feat.toNat ++ bytesOf 8 k.upv.toNat ++ bytesOf 8 k.upc.toNat ++
  bytesOf 8 k.mxw.toNat ++ bytesOf 8 (k.rot + (if k.upcall then 256 else 0)) ++ bytesOf 8 k.sent.toNat ++
  bytesOf 8 k.rcvd.toNat ++ bytesOf 8 k.fseq ++ bytesOf 8 k.mx.length ++ bytesOf 8 k.copies.length ++
  (k.tags.toList.flatMap (fun t => bytesOf 2 t.fmt.toNat ++ bytesOf 2 t.alpha.toNat)) ++ bytesOf 96 0 ++
  padTo 0x400 (k.mx.flatMap (cmdBytes true 12)) ++ padTo 0x400 (k.copies.flatMap (cmdBytes false 13)) ++ bytesOf 1792 0

def fullBytes (k : Core) : List Byte :=
  (List.range 1536).map (fun i => BitVec.ofNat 8 ((List.range 8).foldl (fun a j => if k.full.contains (8 * i + j) then a + 2 ^ j else a) 0))

/-- The core image of 0x35000 bytes (R298). -/
def coreImage (pkg curve : Nat) (k : Core) : List Byte :=
  coreHeader k curve ++ ((List.range 11).flatMap (fun x => contextRecord pkg k.clock (k.ctx x))) ++
  Memory.readN k.spm 0 98304 ++ fullBytes k ++ bytesOf 2560 0 ++ Memory.readN k.tile 0 65536

/-- Where the image of an origin curve number stands in the save area of a VD (R297, R305). DEDUCED (log 81): a core that carries another
number's part saves it in that number's slot, so that no image is lost that is still to be resumed (R314, R319). -/
def State.imageAt (s : State) (vd origin : Nat) : Nat :=
  (s.vd vd).desc.savebase.toNat + (origin - (s.vd vd).desc.ibase) * 262144

/-- Bytes of a saved image change where it stands (R182, R295, R300); the image of a core whose own number another core carries holds no
program and has no slot. -/
def patchImage (vd origin off : Nat) (bs : List Byte) (s : State) : State :=
  if 16384 ≤ origin then s else s.devWrite (s.imageAt vd origin + off) bs

/-! ### Reading -/

def num (bs : List Byte) (off len : Nat) : Nat := ofBytes ((bs.drop off).take len)
def w64 (bs : List Byte) (off : Nat) : W64 := BitVec.ofNat 64 (num bs off 8)

/-- A loaded lazy record, digits beyond LENGTH zero (R26); a LENGTH above 128 gives length 0 and no digits (R37). -/
def lazyOf (bs : List Byte) (off : Nat) : Lazy :=
  let z := recordOf ((bs.drop off).take 32)
  if 128 < z.len then { z with digits := 0, len := 0 } else z

def repOf (bs : List Byte) (off : Nat) : Option Rep :=
  if num bs off 8 = 0 then none
  else some ⟨w64 bs off, va55 (w64 bs (off + 8)), num bs (off + 16) 1, num bs (off + 17) 1, []⟩

/-- A write to the content of a cell; what is on its way stays on its way (R38). -/
def Cell.replace {α : Type} (t : Nat) (v : α) (c : Cell α) : Cell α := ⟨v, (c.settle t).pend⟩

/-- $mode as loaded: reserved bits cleared, FRM 6 and 7 replaced by 0 (R37). -/
def loadedMode (m : W64) : W64 := if 6 ≤ (m &&& 7).toNat then m &&& 0x38 else m &&& 0x3F

/-- The fields of a helper image go into a context (R37). DESIGN CHOICE (log 11): bits 1–0 of a loaded program counter stay, and the
word that holds the address is fetched. -/
def loadHelperImage (t : Nat) (bs : List Byte) (c : Context) : Context :=
  { c with
    belt := (List.range 16).map (fun i => (c.intSlot i).replace t (w64 bs (8 * i)))
    vbelt := (List.range 16).map (fun i => (c.vecSlot i).replace t (BitVec.ofNat 128 (num bs (0x80 + 16 * i) 16)))
    n := Vector.ofFn (fun i => c.n[i].replace t (w64 bs (0x180 + 8 * i.val)))
    a := Vector.ofFn (fun i => c.a[i].replace t (w64 bs (0x1C0 + 8 * i.val)))
    as := Vector.ofFn (fun i => BitVec.ofNat 32 (num bs (0x1E0 + 8 * i.val) 4))
    z := Vector.ofFn (fun i => lazyOf bs (0x200 + 32 * i.val))
    pc := va55 (w64 bs 0x308)
    mode := loadedMode (w64 bs 0x310)
    flags := w64 bs 0x318 &&& 0x1F
    srh := w64 bs 0x320 &&& 0xF
    sro := w64 bs 0x328
    rep := repOf bs 0x330
    btail := c.btail.replace t (w64 bs 0x348)
    vtail := c.vtail.replace t (BitVec.ofNat 128 (num bs 0x350 16)) }

def portOf (bs : List Byte) (off : Nat) : Port :=
  let d := num bs off 8
  let f := num bs (off + 8) 8
  ⟨if bit f 1 then some ⟨bits d 20 0, bits d 35 32, bits d 37 36⟩ else none, bit f 0,
    (List.range (min 16 (bits f 15 8))).map (fun i => w64 bs (off + 16 + 8 * i))⟩

def streamOf (bs : List Byte) (off : Nat) : Stream :=
  ⟨bit (num bs (off + 56) 8) 0, BitVec.ofNat 256 (num bs off 32), w64 bs (off + 32), bit (num bs (off + 40) 8) 0,
    BitVec.ofNat 32 (num bs (off + 48) 4)⟩

def stateOf : Nat → CtxState
  | 1 => .live
  | 2 => .faulted
  | 3 => .suspended
  | _ => .free

/-- The fields of a context record go into a context (R298), reserved bits cleared (R4); the slots hold their live counts. -/
def loadContextRecord (t : Nat) (bs : List Byte) (c : Context) : Context :=
  { loadHelperImage t bs c with
    slots := Vector.ofFn (fun i => BitVec.ofNat 8 (num bs (0x300 + i.val) 1))
    status := stateOf (num bs 0x600 1)
    sup := bit (num bs 0x600 8) 8
    epc := w64 bs 0x608
    cause := w64 bs 0x610 &&& 0x80000000000000FF
    tval := w64 bs 0x618
    reply := w64 bs 0x620
    shadow := if bit (num bs 0x63A 1) 0 then some ((repOf bs 0x628).getD ⟨0, 0, 0, 0, []⟩) else none
    ports := Vector.ofFn (fun i => portOf bs (0x640 + 0x90 * i.val))
    hnd := Vector.ofFn (fun i => streamOf bs (0x880 + 64 * i.val))
    cg := Vector.ofFn (fun i => w64 bs (0xC80 + 8 * i.val) &&& (cgMask i.val).getD 0)
    mg := Vector.ofFn (fun i => w64 bs (0xD08 + 8 * i.val) &&& mgHeld i.val)
    unrep := BitVec.ofNat 16 (num bs 0xD68 8) &&& 0x1FF }

/-! ### Core images (R298) -/

/-- The repetition of a record; a body that the core had buffered stays with it (R58). -/
def Rep.same (a b : Option Rep) : Option Rep :=
  match a, b with
  | some x, some y => some (if x.base = y.base ∧ x.len = y.len then { x with body := y.body } else x)
  | a, _ => a

/-- A saved engine command as its 128 bytes give it; what they do not hold is the saved command's (log 9). -/
def cmdOfBytes (mx : Bool) (n : Nat) (bs : List Byte) (old : EngCmd) : EngCmd :=
  let o := if mx then 16 else 8
  { old with
    word := BitVec.ofNat 32 (num bs 0 4), ctx := num bs 4 4 % 11, group := if mx then num bs 8 8 else old.group
    a := w64 bs o, b := w64 bs (o + 8), geom := (List.range n).map (fun i => w64 bs (o + 16 + 8 * i)) ++ old.geom.drop n }

/-- Saved commands in their order: as many as the header counts. -/
def cmdsOfBytes (mx : Bool) (n off count : Nat) (bs : List Byte) (old : List EngCmd) : List EngCmd :=
  (old.take count).zipIdx.map (fun e => cmdOfBytes mx n ((bs.drop (off + 128 * e.2)).take 128) e.1)

/-- Cells that are not zero among bytes. -/
def cellsOf (bs : List Byte) : List Host.Cell := (bs.zipIdx.filter (fun b => b.1 != 0)).map (fun b => (b.2, b.1))

/-- Words whose full/empty bit is set among the 1,536 bytes of R298. -/
def fullOf (bs : List Byte) : List Nat :=
  bs.zipIdx.flatMap (fun b => ((List.range 8).filter (b.1.getLsbD ·)).map (8 * b.2 + ·))

/-- A core as the bytes of its image give it, reserved bits cleared (R4, R33); what R298 has no bytes for is the saved core's (log 9). -/
def coreOfImage (bs : List Byte) (k : Core) : Core :=
  { k with
    upv := w64 bs 0x18 &&& 0xFFFFFFFFFFFFFFFC, upc := w64 bs 0x20 &&& 1
    mxw := if w64 bs 0x28 &&& 0xF = 0 then 1 else w64 bs 0x28 &&& 0xF, rot := num bs 0x30 1 % 16, upcall := bit (num bs 0x31 1) 0
    sent := w64 bs 0x38, rcvd := w64 bs 0x40, fseq := num bs 0x48 8
    mx := cmdsOfBytes true 12 0x100 (num bs 0x50 8) bs k.mx
    copies := cmdsOfBytes false 13 0x500 (num bs 0x58 8) bs k.copies
    tags := Vector.ofFn (fun i => ⟨BitVec.ofNat 8 (num bs (0x60 + 4 * i.val) 1), BitVec.ofNat 16 (num bs (0x62 + 4 * i.val) 2)⟩)
    ctxs := Vector.ofFn (fun i =>
      let c := loadContextRecord k.clock ((bs.drop (0x1000 * (i.val + 1))).take 0x1000) k.ctxs[i]
      { c with rep := Rep.same c.rep k.ctxs[i].rep, shadow := Rep.same c.shadow k.ctxs[i].shadow })
    spm := cellsOf ((bs.drop 0xC000).take 98304)
    full := fullOf ((bs.drop 0x24000).take 1536)
    tile := cellsOf ((bs.drop 0x25000).take 65536) }

/-- The places of an image in the save area, where the device can reach them. -/
def State.imagePlaces (s : State) (vd origin : Nat) : Option (List Place) :=
  if 16384 ≤ origin ∨ (s.devPlace (s.imageAt vd origin)).isNone = true then none else s.devPlaces (s.imageAt vd origin) 0x35000

/-- The bytes of an image in the save area, read at their home, and the offsets of those that fail (R339, R342). -/
def readImage (vd origin : Nat) (s : State) : State × Option (List Byte × List (Nat × Place)) :=
  match s.imagePlaces vd origin with
  | none => (s, none)
  | some ps =>
    let s1 := s.comes ps
    (s1, some (ps.map s1.readByte, if s1.badWords.isEmpty then [] else (ps.zipIdx.filter (fun p => s1.fails [p.1])).map (fun p => (p.2, p.1))))

/-- The context that an offset of an image belongs to. DESIGN CHOICE (log 81): what no context record holds is the control context's. -/
def imageOwner (off : Nat) : Nat := if 0x1000 ≤ off ∧ off < 0xC000 then off / 0x1000 - 1 else 0

end Sys2Proof.Machine
end

