-- ==== Sys2Proof/Machine/Helper.lean ====
section
/-! DEFINITION. Helper control (R88 to R93) and UPRET (R100). -/

namespace Sys2Proof.Machine

/-! ### What a context has outstanding -/

/-- Every write to the cell has arrived by cycle t; a value an error replaced (`bad` producers, R342) is not awaited. -/
def Cell.quiet {α : Type} (t : Nat) (bad : List Nat) (c : Cell α) : Bool :=
  (c.settle t).pend.all (fun p => p.due.isNone && bad.contains (p.tag / 8))

def Context.cellsQuiet (c : Context) (t : Nat) : Bool :=
  let bad := c.poison.map (·.1)
  c.belt.all (·.quiet t bad) && c.btail.quiet t bad && c.vbelt.all (·.quiet t bad) && c.vtail.quiet t bad &&
    c.n.toList.all (·.quiet t bad) && c.a.toList.all (·.quiet t bad)

/-- Every store, atomic and update of context x of core c has been performed (R90, R93, R136): contributions that have left the L1 among
them (R148). -/
def State.storesDone (s : State) (c x : Nat) : Bool :=
  let m := s.ctx c x
  m.unacked == 0 && m.remote.isEmpty && m.parked.isEmpty && !m.loads.any (·.atomic) && (s.merging c).isEmpty

/-- Every access of context x of core c has been performed (R106, R110), those through pointers too (R29). -/
def State.performed (s : State) (c x : Nat) : Bool :=
  s.storesDone c x && (s.ctx c x).loads.isEmpty && ((s.core c).duesOf x).isEmpty

/-- An MX command of the context is queued or running (R90). -/
def Core.mxOf (k : Core) (x : Nat) : Bool := k.mx.any (fun e => e.ctx == x && !e.dead)

/-- A request of the context is in the special-function unit. -/
def Core.sfuOf (k : Core) (x : Nat) : Bool := k.sfu.any (fun e => e.ctx == x && !e.dead)

/-- R37, R120: what SAVEH waits for. -/
def Core.saveReady (k : Core) (x : Nat) : Bool :=
  (k.ctx x).cellsQuiet k.clock && (k.ctx x).slots.toList.all (· == 0) && !k.mxOf x && !k.sfuOf x && (k.ctx x).loads.isEmpty &&
    (k.duesOf x).isEmpty

/-- R90: what a context that executes HALT waits for. -/
def State.haltReady (s : State) (c x : Nat) : Bool :=
  (s.core c).saveReady x && s.performed c x

/-- The request of a context that waits on a full/empty word (R144), and its place among the sends that wait for room (R153), are
withdrawn. -/
def State.withdrawAll (s : State) (c x : Nat) : State :=
  { s with
    cores := s.cores.map (fun e => (e.1, { e.2 with waiters := e.2.waiters.filter (fun w => !(w.core == c && w.ctx == x)) }))
    sendq := s.sendq.filter (fun w => !(w.core == c && w.ctx == x)) }

/-- The instruction a context waits in has not issued (R93): what the wait had set up is undone. -/
def Context.unissued (c : Context) : Context :=
  { c with wait := none, sleep := none, hold := none, pfault := none, ask := none, answer := none, yield := [] }

/-- A context that the rotation looks at in cycle t: nothing outside its own instruction holds it (R92, R285). -/
def Context.eligible (c : Context) (t : Nat) : Bool :=
  decide (c.status = .live) && !c.dhalt && decide (c.bound ≤ t) && c.tinv.isNone && c.pbind.isNone && c.pfault.isNone &&
    (c.yield.isEmpty || decide (c.yieldEnd ≤ t))

/-- R132: the context is stopped; a lazy instruction it may have begun keeps the words it has drawn, how many the manual leaves open
(log 5). -/
def stopLazy (c x : Nat) (s : State) : State :=
  if (s.ctx c x).eligible (s.core c).clock then
    asContext c x (fun s =>
      match nextWord s with
      | .error _ => s
      | .ok (w, _) => match decodeSoras w with
        | .error _ => s
        | .ok i => lazyPart i (Config.lazyDrawn s.nextId) s) { s with nextId := s.nextId + 1 }
  else s

/-! ### START and HALT -/

/-- R20, R89, R125, R152: helper state at START, of a pager core in supervisor mode (R10). A debugger stays (log 10). -/
def startContext (pager : Bool) (ctl old : Context) (entry arg : W64) (t : Nat) : Context :=
  { Context.reset with
    status := .live
    sup := pager
    pc := va55 entry
    n := Context.reset.n.set 0 (Cell.set arg)
    mode := ctl.mode
    srh := ctl.srh
    sro := ctl.sro
    ports := old.ports.map (fun p => if p.standing then p else Port.reset)
    attached := old.attached
    bound := t + 1 }

/-- The lowest-numbered FREE helper (R18). -/
def Core.freeHelper (k : Core) : Option Nat :=
  ((List.range 10).map (· + 1)).find? (fun h => decide ((k.ctx h).status = .free))

def execStart (st : BitVec 3) (d a b : BitVec 5) : State → Out :=
  let srcs := [Opnd.int a, Opnd.int b]
  issue (.start st d a b) st.toNat (do
    prepare srcs (some (.int d)) (fun s =>
      if arg1 (s.values srcs) 0 &&& 3 ≠ 0 then [Cand.align (arg1 (s.values srcs) 0)] else [])
    upd (fun s =>
      let vs := s.values srcs
      let r := Ready.fixed (s.now + latency srcs 1)
      let t := consume srcs s
      match s.here.freeHelper with
      | some h =>
        deliver (.int d) r [BitVec.ofNat 64 h]
          (t.updHere (fun k => k.setCtx h (startContext (isPager s.cur.core) (k.ctx 0) (k.ctx h) (arg1 vs 0) (arg1 vs 1) s.now)))
      | none => deliver (.int d) r [BitVec.allOnes 64] t))

/-- A context has left the LIVE state (R90): its own bindings end (R152) and its handles are freed. -/
def Context.leave (x : Nat) (c : Context) : Context :=
  { c.unissued with
    status := .free
    rep := none
    mchk := none
    poison := []
    barrier := []
    drained := []
    ports := if x = 0 then c.ports else c.ports.map (fun p => if p.standing then p else Port.reset) }

/-- R102: FAULTED helpers of a halted control context become LIVE. -/
def Core.releaseFaulted (k : Core) : Core :=
  { k with
    recs := []
    upcall := false
    upslot := false
    ctxs := k.ctxs.map (fun c => if c.status = .faulted then { c with status := .live, bound := k.clock + 1 } else c) }

def execHalt (st : BitVec 3) : State → Out :=
  issue (.halt st) st.toNat (do
    let s ← get
    waitIf (!s.haltReady s.cur.core s.cur.ctx.val) .drain
    upd (fun s =>
      let t := s.updMe (fun c => c.leave s.cur.ctx.val)
      if s.cur.ctx = 0 then t.updHere (·.releaseFaulted) else t))

/-! ### JOINH, YIELD, HSTAT -/

/-- A helper number (R88). -/
def helperOf (v : W64) : Option Nat := if 1 ≤ v.toInt ∧ v.toInt ≤ 10 then some v.toNat else none

def execJoinh (st : BitVec 3) (a : BitVec 5) : State → Out :=
  issue (.joinh st a) st.toNat (do
    prepare [.int a] none (fun _ => [])
    let s ← get
    match helperOf (arg1 (s.values [.int a]) 0) with
    | some h => waitIf (h != s.cur.ctx.val && decide ((s.here.ctx h).status ≠ .free)) (.joinh h)
    | none => pure ()
    upd (consume [.int a]))

/-- YIELD (R92): every other context is a candidate; those that are not ready in this cycle are no longer waited for when the cycle
ends (`Machine/Turns.lean`). -/
def execYield (st : BitVec 3) : State → Out :=
  issue (.yield st) st.toNat (upd (fun s => s.updMe (fun c => { c with
    yield := (List.range 11).filter (fun x => x != s.cur.ctx.val)
    yieldEnd := s.now + 11 })))

def execHstat (st : BitVec 3) (d a : BitVec 5) : State → Out :=
  compute (.hstat st d a) st.toNat [.int a] (.int d) none (fun s vs =>
    [if s.cur.ctx ≠ 0 then ofInt64 (-2)
     else match helperOf (arg1 vs 0) with
       | none => ofInt64 (-1)
       | some h => BitVec.ofNat 64 (stateCode (s.here.ctx h).status)])

/-! ### SAVEH, LOADH, RESUMEH, KILLH -/

/-- A status code is the result. -/
def status (d : BitVec 5) (srcs : List Opnd) (n : Nat) (s : State) : State :=
  deliver (.int d) .now [BitVec.ofNat 64 n] (consume srcs s)

/-- R93: ALIGN and SPMRANGE of an image offset, for the control context. DESIGN CHOICE (log 73): $tval is the whole of B, as R95 speaks
of "the address" and "the local address". -/
def imageCands (off : W64) (s : State) : List Cand :=
  if s.cur.ctx ≠ 0 then []
  else if bits off.toNat 16 0 % 64 ≠ 0 then [Cand.align off]
  else if spmSize < bits off.toNat 16 0 + 1536 then [Cand.spmrange off]
  else []

/-- A helper number and a state that lets the member act, or the status it reports. -/
def helperArg (v : W64) (s : State) : Except Nat Nat :=
  if s.cur.ctx ≠ 0 then .error 4
  else match helperOf v with
    | none => .error 2
    | some h => .ok h

/-- The helper no longer waits for an upcall of its fault. -/
def Core.dropRec (k : Core) (h : Nat) : Core := { k with recs := k.recs.filter (fun r => r.h != h) }

/-- A helper is stopped at an instruction boundary (R37, R93, R132). -/
def stopHelper (h : Nat) (s : State) : State :=
  let c := s.cur.core
  ((stopLazy c h (s.updHere (·.dropRec h))).withdrawAll c h).updCtx c h (fun x => { x.unissued with status := .suspended })

/-- SAVEH stops the helper and writes its image once it is drained (R37, R93, R214). -/
def saveHelper (h off : Nat) : M Unit := fun s =>
  let s1 := stopHelper h s
  if !s1.here.saveReady h then .error (.keepWait s1 .helper)
  else .ok ((), touch off 1536 (s1.spmWrite s.cur.core off (helperImage s.now (s1.here.ctx h))))

def execSaveh (st : BitVec 3) (d a b : BitVec 5) : State → Out :=
  let srcs := [Opnd.int a, Opnd.int b]
  issue (.saveh st d a b) st.toNat (do
    prepare srcs (some (.int d)) (fun s => imageCands (arg1 (s.values srcs) 1) s)
    let s ← get
    let vs := s.values srcs
    match helperArg (arg1 vs 0) s with
    | .error n => upd (status d srcs n)
    | .ok h =>
      if (s.here.ctx h).status = .free then upd (status d srcs 1)
      else do
        saveHelper h (bits (arg1 vs 1).toNat 16 0)
        upd (status d srcs 0))

def execLoadh (st : BitVec 3) (d a b : BitVec 5) : State → Out :=
  let srcs := [Opnd.int a, Opnd.int b]
  issue (.loadh st d a b) st.toNat (do
    prepare srcs (some (.int d)) (fun s => imageCands (arg1 (s.values srcs) 1) s)
    let s ← get
    let vs := s.values srcs
    let off := bits (arg1 vs 1).toNat 16 0
    match helperArg (arg1 vs 0) s with
    | .error n => upd (status d srcs n)
    | .ok h =>
      if (s.here.ctx h).status = .live ∨ (s.here.ctx h).status = .faulted then upd (status d srcs 3)
      else do
        awaitSpm off 1536
        upd (fun s => status d srcs 0 ((touch off 1536 s).updCtx s.cur.core h (fun c =>
          { loadHelperImage s.now (s.spmRead s.cur.core off 1536) c with
            slots := Vector.replicate 8 0, status := .suspended, barrier := [], drained := [] }))))

def execResumeh (st : BitVec 3) (d a : BitVec 5) : State → Out :=
  let srcs := [Opnd.int a]
  issue (.resumeh st d a) st.toNat (do
    prepare srcs (some (.int d)) (fun _ => [])
    upd (fun s =>
      match helperArg (arg1 (s.values srcs) 0) s with
      | .error n => status d srcs n s
      | .ok h =>
        match (s.here.ctx h).status with
        | .free => status d srcs 1 s
        | .live => status d srcs 3 s
        | _ => status d srcs 0 ((s.updHere (·.dropRec h)).updCtx s.cur.core h
            (fun c => { c with status := .live, wait := none, bound := s.now + 1 }))))

/-- R120: the requests of a context that the unit has not started leave its queue; the one it works on finishes for nothing. -/
def dropSfu (x : Nat) : List SfuReq → List SfuReq
  | [] => []
  | q :: r => (if q.ctx = x then { q with dead := true } else q) :: r.filter (fun q => q.ctx != x)

/-- R93, R177: a killed helper: results due to it, its waiting MX commands and its requests are discarded. -/
def Core.kill (k : Core) (h : Nat) : Core :=
  let c := k.ctx h
  { (k.dropRec h) with
    ctxs := k.ctxs.set (ctxIx h) { c.leave h with
      ports := Vector.replicate 4 Port.reset
      hnd := c.hnd.map (fun g => { Stream.reset with gen := g.gen + 1 })
      belt := c.belt.map (fun x => Cell.set (x.read k.clock))
      btail := Cell.set (c.btail.read k.clock)
      vbelt := c.vbelt.map (fun x => Cell.set (x.read k.clock))
      vtail := Cell.set (c.vtail.read k.clock)
      n := c.n.map (fun x => Cell.set (x.read k.clock))
      a := c.a.map (fun x => Cell.set (x.read k.clock))
      slots := Vector.replicate 8 0
      grpNow := CommitGroup.reset
      groups := []
      unrep := 0
      open_ := []
      cmds := []
      loads := []
      tinv := none
      pbind := none }
    mx := (k.mx.filter (fun e => e.ctx != h || e.started)).map (fun e => if e.ctx = h then { e with dead := true, slot := none } else e)
    copies := k.copies.map (fun e => if e.ctx = h then { e with dead := true, slot := none } else e)
    spmDue := k.spmDue.filter (fun w => w.ctx != h)
    sfu := dropSfu h k.sfu }

/-- Port words of a context that have not reached their queues (R154, R156); those without a value yet have not been sent. -/
def State.unsent (s : State) (origin x p : Nat) : Bool :=
  let of_ (m : PortMsg) : Bool := decide (m.src = (origin, x)) && m.port == p && m.due.isNone
  s.inflight.any of_ || s.vds.any (fun v => v.2.captured.any of_ || v.2.spill.any (fun q => q.2.any of_))

/-- KILLH stops the helper, and completes when its accesses are performed and its ports drained (R93). -/
def killHelper (h : Nat) : M Unit := fun s =>
  let c := s.cur.core
  let s1 := (s.withdrawAll c h).updCtx c h (fun x => { x.unissued with status := .suspended })
  if !s1.storesDone c h || (List.range 4).any (fun p => s.unsent s.here.origin h p) then .error (.keepWait s1 .helper)
  else
    let s2 := s1.updHere (·.kill h)
    let s3 := { s2 with inflight := s2.inflight.filter (fun m => !(m.due.isSome && decide (m.src = (s.here.origin, h)))) }
    .ok ((), s3.updVd s.here.vd (fun v => { v with cmds := v.cmds.map (fun r =>
      if r.core = s.here.origin ∧ r.ctx = h then { r with slot := none } else r) }))

def execKillh (st : BitVec 3) (d a : BitVec 5) : State → Out :=
  let srcs := [Opnd.int a]
  issue (.killh st d a) st.toNat (do
    prepare srcs (some (.int d)) (fun _ => [])
    let s ← get
    match helperArg (arg1 (s.values srcs) 0) s with
    | .error n => upd (status d srcs n)
    | .ok h =>
      if (s.here.ctx h).status = .free then upd (status d srcs 1)
      else do
        killHelper h
        upd (status d srcs 0))

/-! ### UPRET -/

/-- Offset of the upcall frame (R99). -/
def frameOff : Nat := 0x17EA0

/-- A frame's program counter is taken with bits 1–0 clear (log 11). -/
def execUpret (st : BitVec 3) : State → Out :=
  issue (.upret st) st.toNat (do
    let s ← get
    if s.cur.ctx = 0 ∧ s.here.upcall = true then do
      awaitSpm frameOff 24
      upd (fun s =>
        let w (k : Nat) : W64 := BitVec.ofNat 64 (ofBytes (s.spmRead s.cur.core (frameOff + 8 * k) 8))
        { writeReg .now 1 (w 2) (writeReg .now 0 (w 1) (s.updHere (fun k => { k with upcall := false }))) with
          target := some (w 0 &&& 0x7FFFFFFFFFFFFC) })
    else upd id)

end Sys2Proof.Machine
end

