-- ==== Sys2Proof/Machine/Ports.lean ====
section
/-! DEFINITION. Ports (R150 to R156) and groups (R157 to R159, R224). -/

namespace Sys2Proof.Machine

/-! ### Ports -/

/-- The port a port position names (R150). -/
def portOfCode (a : BitVec 5) : Nat := a.toNat - 24

def setPort (x p : Nat) (v : Port) (k : Core) : Core :=
  k.setCtx x { k.ctx x with ports := (k.ctx x).ports.set (ptrIx p) v }

/-- R151: the conditions on a PBIND descriptor. -/
def bindOk (s : State) (v : W64) : Bool :=
  let n := v.toNat
  let owner := bits n 43 40
  bits n 63 44 == 0 && bits n 39 38 == 0 && (owner == 15 || (s.cur.ctx == 0 && decide (1 ≤ owner) && decide (owner ≤ 10))) &&
    decide (bits n 35 32 ≤ 10) && bits n 31 22 == s.pkg && !bit n 21 &&
    decide (s.myVd.desc.ibase ≤ bits n 20 0) && decide (bits n 20 0 < s.myVd.desc.ibase + s.myVd.desc.ilen)

/-- The partner of a descriptor. -/
def bindDest (v : W64) : PortDest := ⟨bits v.toNat 20 0, bits v.toNat 35 32, bits v.toNat 37 36⟩

/-- R151: an unbound partner port, of a saved image too, is bound back to the owner's port; on a helper's port that binding stands
(R152). -/
def bindBack (d back : PortDest) (s : State) : State :=
  let c := s.route d.core
  let vd := (s.core c).vd
  let bound (p : Port) : Port := if p.dest.isSome then p else { p with dest := some back, standing := decide (d.ctx ≠ 0) }
  match lookup d.core (s.vd vd).saved with
  | some k =>
    let p := bound (k.ctx d.ctx).ports[ptrIx d.port]
    patchImage vd d.core (0x1640 + 0x1000 * d.ctx + 0x90 * d.port) (portBytes s.pkg p)
      (s.updVd vd (fun v => { v with saved := put d.core (setPort d.ctx d.port p k) v.saved }))
  | none => s.updCore c (fun k => setPort d.ctx d.port (bound (k.ctx d.ctx).ports[ptrIx d.port]) k)

/-- PBIND binds at once; the partner on another core answers with PBIND_ACKNOWLEDGEMENT. -/
def bind (v : W64) (p : Nat) (s : State) : State :=
  let owner := bits v.toNat 43 40
  let x := if owner = 15 then s.cur.ctx.val else owner
  let old := (s.here.ctx x).ports[ptrIx p]
  let s1 := s.updHere (setPort x p { old with dest := some (bindDest v), standing := decide (owner ≠ 15) })
  if (bindDest v).core = s.here.origin then bindBack (bindDest v) ⟨s.here.origin, x, p⟩ s1
  else s1.updMe (fun c => { c with pbind := some (p, x) })

def execPbind (st : BitVec 3) (a b : BitVec 5) : State → Out :=
  issue (.pbind st a b) st.toNat (do
    prepare [.int b] none (fun s =>
      if bindOk s (arg1 (s.values [.int b]) 0) then [] else [Cand.porterr (b.zeroExtend 64)])
    upd (fun s => bind (arg1 (s.values [.int b]) 0) (portOfCode a) (consume [.int b] s)))

/-- The status word of a port (R155). -/
def portStatus (p : Port) : W64 :=
  BitVec.ofNat 64 (p.queue.length + (if p.standing then 2 ^ 17 else 0) + (match p.dest with
    | some d => 2 ^ 16 + d.core * 2 ^ 32 + d.ctx * 2 ^ 44 + d.port * 2 ^ 48
    | none => 0))

def State.myPort (s : State) (a : BitVec 5) : Port := s.me.ports[ptrIx (portOfCode a)]

def execPstat (st : BitVec 3) (d a : BitVec 5) : State → Out :=
  compute (.pstat st d a) st.toNat [] (.int d) none (fun s _ => [portStatus (s.myPort a)])

/-- PDRAIN (R156): words that enter the queue while it waits are discarded and counted (log 12). -/
def execPdrain (st : BitVec 3) (d a : BitVec 5) : State → Out :=
  issue (.pdrain st d a) st.toNat (do
    prepare [] (some (.int d)) (fun _ => [])
    let s ← get
    let p := s.myPort a
    let pc := s.me.pc.toNat
    let count := (lookup pc s.me.drained).getD 0 + p.queue.length
    let emptied := s.updHere (setPort s.cur.ctx.val (portOfCode a) { p with queue := [] })
    if p.dest.isNone then upd (deliver (.int d) .now [0])
    else if s.unsent s.here.origin s.cur.ctx.val (portOfCode a) then
      stop (.keepWait (emptied.updMe (fun c => { c with drained := put pc count c.drained })) .room)
    else
      upd (fun s => deliver (.int d) .now [BitVec.ofNat 64 count]
        ((s.updHere (setPort s.cur.ctx.val (portOfCode a) Port.reset)).updMe (fun c => { c with drained := drop pc c.drained }))))

def execPord (st : BitVec 3) (a : BitVec 5) : State → Out :=
  issue (.pord st a) st.toNat (do
    prepare [] none (fun s => if (s.myPort a).dest.isNone then [Cand.porterr (a.zeroExtend 64)] else [])
    let s ← get
    waitIf (s.unsent s.here.origin s.cur.ctx.val (portOfCode a)) .room)

/-! ### Groups -/

/-- Kind and number of a member identifier of this package (R224). -/
def memberId (pkg : Nat) (rank : Bool) (n : Nat) : BitVec 32 :=
  BitVec.ofNat 32 (pkg * 2 ^ 22 + (if rank then 2 ^ 21 else 0) + n)

/-- The launch queue whose group table a core uses: that of its node (R224). -/
def State.groupQueue (s : State) : Option (Fin 4) := s.here.node.map (fun n => Fin.ofNat 4 n.q)

/-- The members of group g for the issuing core; an entry the launch left empty has none. -/
def State.groupOf (s : State) (g : Nat) : List (BitVec 32) :=
  match s.groupQueue with
  | none => []
  | some q => s.myVd.queues[q].groups.getD g []

/-- The member index of the issuing core (R157, R299). -/
def State.memberIx (s : State) (g : Nat) : Option Nat := (s.groupOf g).findIdx? (· == memberId s.pkg false s.here.origin)

/-- GRPERR of R157. -/
def groupCands (s : State) (v : W64) (member : Bool) : List Cand :=
  if 255 < v.toNat ∨ (s.groupOf v.toNat).isEmpty ∨ (member = true ∧ (s.memberIx v.toNat).isNone) then
    [Cand.grperr (v &&& 0xFF)] else []

def LaunchQueue.tracker (q : LaunchQueue) (g : Nat) : Tracker :=
  (q.trackers.find? (fun t => t.group == g)).getD ⟨g, [], [], []⟩

def LaunchQueue.setTracker (q : LaunchQueue) (t : Tracker) : LaunchQueue :=
  { q with trackers := t :: q.trackers.filter (fun u => u.group != t.group) }

/-- Arrivals a member has made. -/
def Tracker.count (t : Tracker) (m : Nat) : Nat := (lookup m t.arrived).getD 0
def Tracker.arrive (t : Tracker) (m : Nat) : Tracker := { t with arrived := put m (t.count m + 1) t.arrived }
/-- Round of a member's next ELECT, and whether that ELECT wins it: the first one of a round does (R159). -/
def Tracker.round (t : Tracker) (m : Nat) : Nat := (lookup m t.elected).getD 0
def Tracker.wins (t : Tracker) (m : Nat) : Bool := !t.won.contains (t.round m)
def Tracker.elect (t : Tracker) (m : Nat) : Tracker :=
  { t with elected := put m (t.round m + 1) t.elected, won := if t.wins m then t.won ++ [t.round m] else t.won }
/-- Phase p of a group of n members has completed (R158). -/
def Tracker.complete (t : Tracker) (n p : Nat) : Bool := (List.range n).all (fun m => decide (p < t.count m))

def State.tracker (s : State) (g : Nat) : Tracker :=
  match s.groupQueue with
  | none => ⟨g, [], [], []⟩
  | some q => s.myVd.queues[q].tracker g

def State.updTracker (s : State) (g : Nat) (f : Tracker → Tracker) : State :=
  match s.groupQueue with
  | none => s
  | some q => s.updVd s.here.vd (fun v => { v with queues := v.queues.set q (v.queues[q].setTracker (f (v.queues[q].tracker g))) })

/-- The next arrival of the core (R158). -/
def arriveAt (g : Nat) (s : State) : State := s.updTracker g (fun t => t.arrive ((s.memberIx g).getD 0))

/-- A core member of the group lies in another package: its phases have DOMAIN scope, and the acquire that ends a wait drops the lines of
other packages (R158, R234). -/
def State.crosses (s : State) (g : Nat) : Bool :=
  (s.groupOf g).any (fun m => !m.getLsbD 21 && bits m.toNat 31 22 != s.pkg)

/-- The end of a wait for a phase. -/
def phaseAcquire (g : Nat) (s : State) : State := acquire (s.crosses g) s

def myArrivals (s : State) (g : Nat) : Nat := (s.tracker g).count ((s.memberIx g).getD 0)

def execBara (st : BitVec 3) (d a : BitVec 5) : State → Out :=
  issue (.bara st d a) st.toNat (do
    prepare [.int a] (some (.int d)) (fun s => groupCands s (arg1 (s.values [.int a]) 0) true)
    release
    upd (fun s =>
      let g := (arg1 (s.values [.int a]) 0).toNat
      deliver (.int d) .now [BitVec.ofNat 64 (myArrivals s g)] (arriveAt g (consume [.int a] s))))

def execBarw (st : BitVec 3) (a b : BitVec 5) : State → Out :=
  let srcs := [Opnd.int a, Opnd.int b]
  issue (.barw st a b) st.toNat (do
    prepare srcs none (fun s =>
      let g := arg1 (s.values srcs) 0
      match groupCands s g true with
      | [] => if (arg1 (s.values srcs) 1).toNat < myArrivals s g.toNat then [] else [Cand.grperr (g &&& 0xFF)]
      | cs => cs)
    let s ← get
    let g := (arg1 (s.values srcs) 0).toNat
    waitIf (!(s.tracker g).complete (s.groupOf g).length (arg1 (s.values srcs) 1).toNat) .barrier
    upd (fun s => phaseAcquire g (consume srcs s)))

/-- BAR (R158): one arrival, kept while it waits, then the wait for its phase. -/
def execBar (st : BitVec 3) (a : BitVec 5) : State → Out :=
  issue (.bar st a) st.toNat (do
    prepare [.int a] none (fun s => groupCands s (arg1 (s.values [.int a]) 0) true)
    let s ← get
    let g := (arg1 (s.values [.int a]) 0).toNat
    let pc := s.me.pc.toNat
    match lookup pc s.me.barrier with
    | some p =>
      waitIf (!(s.tracker g).complete (s.groupOf g).length p) .barrier
      upd (fun s => (phaseAcquire g (consume [.int a] s)).updMe (fun c => { c with barrier := drop pc c.barrier }))
    | none => do
      release
      let p := myArrivals s g
      let s1 := arriveAt g s
      if (s1.tracker g).complete (s1.groupOf g).length p then upd (fun s => phaseAcquire g (consume [.int a] (arriveAt g s)))
      else stop (.keepWait (s1.updMe (fun c => { c with barrier := put pc p c.barrier })) .barrier))

/-- ELECT (R159): the first ELECT of a round wins it. -/
def execElect (st : BitVec 3) (d a : BitVec 5) : State → Out :=
  issue (.elect st d a) st.toNat (do
    prepare [.int a] (some (.int d)) (fun s => groupCands s (arg1 (s.values [.int a]) 0) true)
    upd (fun s =>
      let g := (arg1 (s.values [.int a]) 0).toNat
      let m := (s.memberIx g).getD 0
      deliver (.int d) .now [b2w ((s.tracker g).wins m)] ((consume [.int a] s).updTracker g (·.elect m))))

def execGidx (st : BitVec 3) (d a : BitVec 5) : State → Out :=
  issue (.gidx st d a) st.toNat (do
    prepare [.int a] (some (.int d)) (fun s => groupCands s (arg1 (s.values [.int a]) 0) true)
    upd (fun s => deliver (.int d) .now [BitVec.ofNat 64 ((s.memberIx (arg1 (s.values [.int a]) 0).toNat).getD 0)]
      (consume [.int a] s)))

def execGsize (st : BitVec 3) (d a : BitVec 5) : State → Out :=
  issue (.gsize st d a) st.toNat (do
    prepare [.int a] (some (.int d)) (fun s => groupCands s (arg1 (s.values [.int a]) 0) false)
    upd (fun s => deliver (.int d) .now [BitVec.ofNat 64 (s.groupOf (arg1 (s.values [.int a]) 0).toNat).length]
      (consume [.int a] s)))

end Sys2Proof.Machine
end

