-- ==== Sys2Proof/Machine/Graph.lean ====
section
/-! DEFINITION. Graphs and launches (R188, R224, R225, R273 to R284): reading a graph, the launch queues, the ready pool and its
decisions, gangs, the end of a node and of a launch; and words the device writes for a VD. -/

namespace Sys2Proof.Machine

/-! ### Words and images the device writes -/

/-- A record of the pagers for a word whose page does not translate with W; its ANSWER is ignored (helper 255). -/
def wordFault (vd core ctx va cause : Nat) (s : State) : State :=
  let pc := Config.freeAddr s.nextId
  let seq := (Config.freeAddr (s.nextId + 1)).toNat
  { s.updVd vd (fun v => { v with faults := v.faults ++
      [⟨faultRecord (BitVec.ofNat 64 va) pc cause 1 ctx seq ++ bytesOf 4 core ++ bytesOf 1 ctx ++ bytesOf 1 0, core, ctx,
        false, none, 255, seq⟩] }) with nextId := s.nextId + 2 }

/-- How far a word of the device has come: performed, on its way under its number, held by the pagers, behind a bank that its page table
needs (R371), or refused. -/
inductive WordEnd where
  | done
  | sent
  | held (va : Nat)
  | busy
  | fault (cause : Nat)
  deriving DecidableEq, Repr

/-- A request or word has not been performed: it waits, at a bank or to leave, or another package has still to acknowledge it. -/
def State.unperformed (s : State) (ident : Nat) : Bool :=
  s.waiting ident || s.link.reqs.any (fun r => r.ident == ident) || s.vds.any (fun e => e.2.late.any (fun w => w.ident == ident))

/-- A word of the device, under a VD's translation as it stands, as request n (R182): at its home, or in a packet that another package
acknowledges. -/
def sendWord (n vd core ctx : Nat) (addr v : W64) (s : State) : State × WordEnd :=
  if addr = 0 then (s, .done)
  else
    let va := (va55 addr).toNat
    match walk s deviceDie vd va .store with
    | (s1, .ok pa) =>
      let pkg := bits pa 51 42
      if pkg ≠ s1.pkg then
        if s1.link.lost.contains pkg then (s1, .done)
        else
          let s2 := sendPacket (s1.vd vd).seals 3 { requestPacket s1 vd pkg pa 8 .none 8 (v.zeroExtend 512) with ident := n } s1
          ({ s2 with link := { s2.link with reqs := s2.link.reqs ++ [⟨n, pkg, core, ctx, .word, vd, va, pa⟩] } }, .sent)
      else
        let s2 := arriveWrite n vd .nobody ((s1.places vd ((List.range 8).map (pa + ·))).zip (bytesOf 8 v.toNat)) s1
        (s2, if s2.waiting n then .sent else .done)
    | (s1, .fault c) => (s1, .fault c)
    | (s1, .hold) => (s1, .held va)
    | (s1, .busy) => ({ s1.askWindow vd (s1.stalled.drop s.stalled.length) with stalled := s.stalled }, .busy)

/-- A rank is enabled and some K entry of the VD covers rows of it (R186, R249). -/
def State.rankAllowed (s : State) (vd rank : Nat) : Bool :=
  (s.rank rank).enabled && s.permTouches rank 0 (fun p => p.k && p.vd == vd)

/-- The words of a VD's image stand in a slot. -/
def writeSlot (vd slot : Nat) (image : List Byte) (rank : Nat) (s : State) : State :=
  s.updRank rank (fun k => { k with
    loaded := put slot vd k.loaded
    ovl := (List.range (image.length / 4)).foldl (fun o i =>
      put (slot * 1024 + i) (BitVec.ofNat 32 (num image (4 * i) 4)) o) k.ovl })

/-- A late word of a VD tries to leave, once what it waits for has been performed; one whose page does not translate with W, or whose write
the pagers refuse, is not written, which is recorded for a command's (R182). -/
def tryLate (vd : Nat) (s : State) (w : LateWord) : State :=
  let gone (s : State) : State := s.updVd vd (fun v => { v with late := v.late.filter (fun x => x.ident != w.ident) })
  let fault (cause : Nat) (s : State) : State := match w.who with
    | some (c, x) => wordFault vd c x (va55 w.addr).toNat cause (gone s)
    | none => gone s
  if w.after.any s.unperformed then s
  else match w.held with
    | some ⟨_, none⟩ => s
    | some ⟨_, some false⟩ => fault Cause.pperm s
    | _ =>
      match sendWord w.ident vd 0 0 w.addr w.val s with
      | (s1, .fault k) => fault k s1
      | (s1, .held va) => s1.updVd vd (fun v => { v with late := v.late.map (fun x =>
          if x.ident = w.ident then { x with held := some ⟨BitVec.ofNat 64 va, none⟩ } else x) })
      | (s1, .busy) => s1
      | (s1, _) => gone s1

/-- Late words of a VD leave as far as nothing holds them. -/
def flushLate (vd : Nat) (s : State) : State := (s.vd vd).late.foldl (tryLate vd) s

/-- A word of the device leaves once the requests before it are performed (R182, R283, R284). What a later word has to wait for: the word
itself, or where there is none, those requests. -/
def lateWord (vd : Nat) (who : Option (Nat × Nat)) (after : List Nat) (addr v : W64) (s : State) : State × List Nat :=
  if addr = 0 then (s, after)
  else
    let n := s.nextId
    (flushLate vd (({ s with nextId := n + 1 } : State).updVd vd (fun w =>
      { w with late := w.late ++ [⟨n, who, addr, v, after, none⟩] })), [n])

/-- A completion word of a node or launch. -/
def nodeWord (vd : Nat) (after : List Nat) (addr v : W64) (s : State) : State × List Nat := lateWord vd none after addr v s

/-- Members of group g of a group table. -/
def groupIn (gs : List (List (BitVec 32))) (g : Nat) : List (BitVec 32) := if g < 256 then gs.getD g [] else []

/-- The ranks of a group of ranks of this package; none when a member is anything else. -/
def ranksOf (pkg : Nat) (ms : List (BitVec 32)) : Option (List Nat) :=
  mapAll (fun (m : BitVec 32) =>
    if m.getLsbD 21 && bits m.toNat 31 22 == pkg then some (m.toNat % 2 ^ 21) else none) ms

/-! ### Reading a graph (R224, R225, R274 to R276): a failure is −3, and the walks it made stay -/

abbrev G := OptionT (StateM State)

def need (b : Bool) : G Unit := if b then pure () else failure
def readG (vd va len : Nat) : G (List Byte) := fun s => ((s.vread vd (va % 2 ^ 55) len).2, (s.vread vd (va % 2 ^ 55) len).1)

/-- An address translates for an access. -/
def translates (vd va len : Nat) (k : AccessKind) : G Unit := fun s =>
  match walkRange s deviceDie vd (va % 2 ^ 55) len k with
  | (s1, .ok _) => (some (), s1)
  | (s1, .error _) => (none, s1)

/-- A DONEADDR or STATADDR. -/
def wordG (vd a : Nat) : G Unit := if a = 0 then pure () else do
  need (a % 8 == 0)
  translates vd a 8 .store

/-- The group lists of a group table image. -/
def readGroups (vd : Nat) (img : List Byte) : List Nat → G (List (List (BitVec 32)))
  | [] => pure []
  | i :: r => do
    let m := num img (16 * i) 4
    let a := num img (16 * i + 8) 8
    need (num img (16 * i + 4) 4 == 0 && decide (m ≤ 65535))
    let l ← if m = 0 then pure [] else do
      need (a % 4 == 0)
      let bs ← readG vd a (4 * m)
      pure ((List.range m).map (fun k => BitVec.ofNat 32 (num bs (4 * k) 4)))
    need (decide l.Nodup)
    let rest ← readGroups vd img r
    pure (l :: rest)

/-- R225: a member is in at most four groups. -/
def atMostFour (gs : List (List (BitVec 32))) : Bool :=
  gs.all (fun g => g.all (fun m => decide ((gs.filter (fun h => h.contains m)).length ≤ 4)))

/-- A core that no spare has replaced is out of service and leaves its VD's interval to no node (R345). -/
def State.inService (s : State) (c : Nat) : Bool := (s.core c).mode != .retired

/-- R225: the conditions that depend on the VD's interval and permission tables, which the start of the launch checks again (R276). -/
def groupsHeld (s : State) (vd : Nat) (gs : List (List (BitVec 32))) : Bool :=
  let d := (s.vd vd).desc
  gs.all (fun g => g.all (fun m =>
    let p := bits m.toNat 31 22
    let x := m.toNat % 2 ^ 21
    if m.getLsbD 21 then p != s.pkg || (decide (x < 8192) && s.permTouches x 0 (fun e => e.vd == vd))
    else decide (d.ibase ≤ x) && decide (x < d.ibase + d.ilen) && (p != s.pkg || s.inService x)))

/-- R225: every package lies in the domain window. -/
def groupsNear (s : State) (vd : Nat) (gs : List (List (BitVec 32))) : Bool :=
  let dom := (s.vd vd).desc.dombase.toNat
  gs.all (fun g => g.all (fun m =>
    let p := bits m.toNat 31 22
    if bit dom 0 then decide (bits dom 45 36 ≤ p) && decide (p ≤ bits dom 35 26) else p == s.pkg))

/-- Cores of a VD's interval. -/
def Vd.interval (v : Vd) : List Nat := (List.range v.desc.ilen).map (v.desc.ibase + ·)

/-- The core is in service and has every feature of a mask (R36, R345). -/
def State.coreHas (s : State) (c : Nat) (feat : BitVec 8) : Bool := s.inService c && ((s.core c).feat.setWidth 8) &&& feat == feat

/-- One node descriptor (R275) with its successors. -/
def readNode (vd n : Nat) (bs : List Byte) (i : Nat) : G Node := do
  let r := (bs.drop (64 * i)).take 64
  let kind := num r 0 1
  let nsucc := num r 6 2
  let size := num r 8 4
  let len := num r 14 2
  let entry := num r 16 8
  need (decide (kind ≤ 2) && decide (num r 1 1 ≤ 3) && num r 3 1 == 0 && num r 13 1 == 0 && num r 56 8 == 0 &&
    decide (nsucc ≤ 4095))
  if kind = 1 then do
    need (decide (size ≤ 4096) && num r 12 1 == 0 && len == 0)
    if size ≠ 0 then do
      need (entry % 4 == 0)
      translates vd entry 4 .fetch
  else if kind = 2 then do
    need (num r 2 1 == 0 && decide (size ≤ 255) && decide (num r 12 1 ≤ 1) && decide (1 ≤ len) && decide (len ≤ 1024) &&
      entry % 4 == 0)
    translates vd entry (4 * len) .load
  else need (num r 2 1 == 0 && size == 0 && num r 12 1 == 0 && len == 0 && entry == 0 && num r 24 8 == 0)
  let succ ← if nsucc = 0 then pure [] else do
    need (num r 32 8 % 2 == 0)
    let xs ← readG vd (num r 32 8) (2 * nsucc)
    pure ((List.range nsucc).map (fun j => num xs (2 * j) 2))
  need (succ.all (fun j => decide (j < n) && j != i))
  wordG vd (num r 40 8)
  pure { kind := kind, prio := num r 1 1, feat := BitVec.ofNat 8 (num r 2 1), left := num r 4 2, succ := succ, size := size
         slot := num r 12 1, len := len, entry := w64 r 16, arg := w64 r 24, doneAddr := w64 r 40, doneVal := w64 r 48
         state := .waiting, cores := [], sweep := none, halted := [], code := 0 }

def readNodes (vd n : Nat) (bs : List Byte) : List Nat → G (List Node)
  | [] => pure []
  | i :: r => do
    let x ← readNode vd n bs i
    let xs ← readNodes vd n bs r
    pure (x :: xs)

/-- Successor entries that name node i. -/
def named (nodes : List Node) (i : Nat) : Nat := (nodes.map (fun x => (x.succ.filter (· == i)).length)).sum

/-- The edges form no cycle: nodes without an unremoved predecessor are removed until none is left. -/
def acyclic : Nat → List (Nat × Node) → Bool
  | 0, l => l.isEmpty
  | f + 1, l =>
    let free := l.filter (fun x => !l.any (fun y => y.2.succ.contains x.1))
    if free.isEmpty then l.isEmpty else acyclic f (l.filter (fun x => l.any (fun y => y.2.succ.contains x.1)))

/-- R276: what a CORE or RANK node needs of its VD. -/
def nodeFits (s : State) (vd : Nat) (gs : List (List (BitVec 32))) (x : Node) : Bool :=
  match x.kind with
  | 1 => decide (x.size ≤ ((s.vd vd).interval.filter (fun c => s.coreHas c x.feat)).length)
  | 2 => groupIn gs x.size != [] && (ranksOf s.pkg (groupIn gs x.size)).isSome
  | _ => true

/-- The launch of a graph descriptor; none is −3. -/
def readGraph (vd va : Nat) : G Launch := do
  need (va % 8 == 0)
  let d ← readG vd va 64
  let n := num d 0 4
  let flags := num d 4 4
  need (decide (n ≤ 4096) && decide (flags ≤ 3) && num d 8 8 % 64 == 0 && num d 0x34 12 == 0)
  wordG vd (num d 0x18 8)
  wordG vd (num d 0x28 8)
  let raw ← if n = 0 then pure [] else readG vd (num d 8 8) (64 * n)
  let nodes ← readNodes vd n raw (List.range n)
  need (nodes.zipIdx.all (fun x => x.1.left == named nodes x.2))
  need (acyclic n (nodes.zipIdx.map (fun x => (x.2, x.1))))
  let groups ← if num d 0x10 8 = 0 then pure [] else do
    let img ← readG vd (num d 0x10 8) 4096
    readGroups vd img (List.range 256)
  let s ← (StateT.get : StateM State State)
  need (atMostFour groups && groupsHeld s vd groups && groupsNear s vd groups && nodes.all (nodeFits s vd groups))
  pure { number := 0, fuse := bit flags 0, msi := if bit flags 1 then some (BitVec.ofNat 32 (num d 0x30 4)) else none
         groups := groups, doneAddr := w64 d 0x18, doneVal := w64 d 0x20, statAddr := w64 d 0x28, nodes := nodes
         started := false }

/-! ### Launch queues (R188, R273) -/

/-- What GLAUNCH does with a descriptor and a queue number, and the value it delivers; a new entry wakes a VD in vigil (R338). -/
def submit (vd : Nat) (va q : W64) (s : State) : State × W64 :=
  if 3 < q.toNat then (s, ofInt64 (-2))
  else if 64 ≤ ((s.vd vd).queues[Fin.ofNat 4 q.toNat]).launches.length then (s, ofInt64 (-1))
  else match readGraph vd va.toNat s with
    | (none, s1) => (s1, ofInt64 (-3))
    | (some l, s1) =>
      let n := (s1.vd vd).nextLaunch
      ((updQueue vd q.toNat (fun x => { x with launches := x.launches ++ [{ l with number := n }] }) s1).updVd vd (fun v =>
        { v with
          nextLaunch := (n + 1) % 2 ^ 31
          woken := v.woken || v.state == .vigil || v.state == .stoppedVigil
          finished := v.finished.filter (fun m => decide ((n + 2 ^ 31 - m) % 2 ^ 31 < 2 ^ 16)) }), BitVec.ofNat 64 n)

/-- GLAUNCH is a release at PACKAGE scope (R188); what it reads in a bank that is held it reads in a window (R371). -/
def execGlaunch (st : BitVec 3) (d a b : BitVec 5) : State → Out :=
  let srcs := [Opnd.int a, Opnd.int b]
  issue (.glaunch st d a b) st.toNat (do
    prepare srcs (some (.int d)) (fun _ => [])
    let s ← get
    waitIf (!s.performed s.cur.core s.cur.ctx.val) .fence
    fun s =>
      let vs := s.values srcs
      let r := submit s.here.vd (arg1 vs 0) (arg1 vs 1) (consume srcs { s with stalled := [] })
      if r.1.stalled.isEmpty then .ok ((), deliver (.int d) .now [r.2] r.1)
      else .error (.keepWait ((s.wakeBanks r.1.stalled).askWindow s.here.vd r.1.stalled) .bank))

/-- The state of a launch number (R273). -/
def launchState (v : Vd) (n : Nat) : Int :=
  if 2 ^ 16 ≤ (v.nextLaunch + 2 ^ 31 - 1 - n) % 2 ^ 31 then -1
  else match (v.queues.toList.flatMap (·.launches)).find? (fun l => l.number == n) with
    | some l => if l.started then 1 else 0
    | none => if v.finished.contains n then 2 else -1

def execGquery (st : BitVec 3) (d a : BitVec 5) : State → Out :=
  compute (.gquery st d a) st.toNat [.int a] (.int d) none (fun s vs => [ofInt64 (launchState s.myVd (arg1 vs 0).toNat)])

/-! ### The ready pool (R277 to R279) -/

/-- A node in the pool with where it stands. -/
structure Pooled where
  q      : Nat
  launch : Nat
  index  : Nat
  node   : Node
  e      : Nat
  order  : Nat

/-- The effective priority after w ns in the pool. -/
def effective (prio w : Nat) : Nat := min 7 (prio + w / 50000)

def Pooled.before (a b : Pooled) : Bool :=
  decide (b.e < a.e) || (a.e == b.e && (decide (a.order < b.order) || (a.order == b.order &&
    (decide (a.launch < b.launch) || (a.launch == b.launch && decide (a.index < b.index))))))

def insertPooled (a : Pooled) : List Pooled → List Pooled
  | [] => [a]
  | b :: r => if a.before b then a :: b :: r else b :: insertPooled a r

/-- The pool of a VD in the order of a walk. -/
def pool (s : State) (vd : Nat) : List Pooled :=
  ((List.range 4).flatMap (fun q => ((s.vd vd).queues[Fin.ofNat 4 q]).launches.flatMap (fun l =>
    l.nodes.zipIdx.filterMap (fun x => match x.1.state with
      | .pooled since order => some ⟨q, l.number, x.2, x.1, effective x.1.prio (s.ring - since), order⟩
      | _ => none)))).foldr insertPooled []

/-- A core that a gang can take: it runs no node, none that began on it is saved or runs elsewhere (R299), and it has the features. One
pre-empted while it ran no node is free (R297). -/
def coreFree (s : State) (c : Nat) (feat : BitVec 8) : Bool :=
  let k := s.core c
  k.node.isNone && (k.mode == .running || k.mode == .preempted) && s.route c == c &&
    (lookup c (s.vd k.vd).savedNode).isNone && s.coreHas c feat

/-- Maximal runs (first, length) of consecutive numbers that satisfy f. -/
def runsWhere (f : Nat → Bool) : List Nat → List (Nat × Nat)
  | [] => []
  | c :: r =>
    let rest := runsWhere f r
    if f c then
      match rest with
      | (d, n) :: t => if d = c + 1 then (c, n + 1) :: t else (c, 1) :: (d, n) :: t
      | [] => [(c, 1)]
    else rest

/-- The first core of the gang (R279): shortest run of length G or more, of equal ones the first. -/
def findGang (s : State) (vd : Nat) (x : Node) : Option Nat :=
  (((runsWhere (fun c => coreFree s c x.feat) (s.vd vd).interval).filter (fun r => decide (x.size ≤ r.2))).foldl
    (fun (best : Option (Nat × Nat)) r => match best with
      | some b => if r.2 < b.2 then some r else best
      | none => some r) none).map (·.1)

/-- A RANK node can be dispatched: every member rank is idle. -/
def ranksIdle (s : State) (rs : List Nat) : Bool := rs.all (fun r => decide ((s.rank r).state = .idle))

def launchGroups (s : State) (vd q launch : Nat) : List (List (BitVec 32)) :=
  ((((s.vd vd).queues[Fin.ofNat 4 q]).launches.find? (fun l => l.number == launch)).map (·.groups)).getD []

/-- What a walk of the pool does with a node: dispatch it, pass over it, or stop. -/
inductive Choice where
  | go | pass | halt
  deriving DecidableEq, Repr

def choose (s : State) (vd : Nat) (p : Pooled) : Choice :=
  match p.node.kind with
  | 1 =>
    if p.node.size = 0 then .go
    else if (findGang s vd p.node).isSome then .go
    else if p.e = 7 then .halt else .pass
  | 2 =>
    match ranksOf s.pkg (groupIn (launchGroups s vd p.q p.launch) p.node.size) with
    | some rs => if ranksIdle s rs then .go else .pass
    | none => .pass
  | _ => .go

/-- The first node of the walk that is dispatched. -/
def firstGo (s : State) (vd : Nat) : List Pooled → Option Pooled
  | [] => none
  | p :: r => match choose s vd p with
    | .go => some p
    | .pass => firstGo s vd r
    | .halt => none

/-- A core of a gang (R20, R216, R279, R312). The image of a core that was pre-empted without a node holds no program: it goes. -/
def placeCore (vd : Nat) (ref : NodeRef) (entry arg : W64) (c : Nat) (s : State) : State :=
  let v := s.vd vd
  (s.updVd vd (fun v => { v with saved := drop c v.saved, spill := drop c v.spill })).updCore c (fun k =>
    let same : Bool := k.lastVd == some vd
    let ctx (x : Fin 11) : Context := { Context.reset with attached := k.ctxs[x].attached, bound := k.clock }
    { k with
      ctxs := (Vector.ofFn ctx).set 0 { ctx 0 with
        status := .live, pc := va55 entry, n := Context.reset.n.set 0 (Cell.set arg) }
      rot := 10
      vd := vd
      lastVd := some vd
      node := some ref
      sent := 0, rcvd := 0
      mxw := if v.desc.qos &&& 0xF00 = 0 then 1 else ((v.desc.qos >>> 8) &&& 0xF).zeroExtend 64
      spm := if same then k.spm else []
      full := if same then k.full else []
      tile := if same then k.tile else []
      tags := if same then k.tags else Vector.replicate 16 ⟨0, 0⟩
      bad := if same then k.bad else []
      tbad := if same then k.tbad else []
      icache := if same then k.icache else []
      itags := if same then k.itags else []
      mode := .running
      upcall := false, upslot := false, recs := []
      origin := c })

/-- A node is placed on its gang, or its ranks start (R279, R282); a RANK node that cannot start has a code. One whose image lies in a bank
that is held stays in the pool until it can be read (R371). -/
def placeNode (vd : Nat) (p : Pooled) (s : State) : State :=
  let set (f : Node → Node) := updNode vd p.q p.launch p.index f
  match p.node.kind with
  | 1 =>
    if p.node.size = 0 then s
    else
      let first := (findGang s vd p.node).getD 0
      let gang := (List.range p.node.size).map (first + ·)
      gang.foldl (fun s c => placeCore vd ⟨p.q, p.launch, p.index⟩ p.node.entry p.node.arg c s)
        (set (fun x => { x with state := .running, cores := gang }) s)
  | 2 =>
    let gs := launchGroups s vd p.q p.launch
    let rs := (ranksOf s.pkg (groupIn gs p.node.size)).getD []
    let running (s : State) := set (fun x => { x with state := .running }) s
    let image := s.vread vd p.node.entry.toNat (4 * p.node.len)
    if image.1.stalled.length ≠ s.stalled.length then { s with stalled := image.1.stalled }
    else match image with
    | (s1, none) => set (fun x => { x with state := .running, code := 5, halted := List.range rs.length }) s1
    | (s1, some image) =>
      if !rs.all (fun r => (s1.rank r).enabled) then
        set (fun x => { x with state := .running, code := 5, halted := List.range rs.length }) s1
      else
        let run (k : Nat) : RankRun := ⟨vd, p.q, none, p.launch, p.index, k, rs.length, none, gs⟩
        rs.zipIdx.foldl (fun s r =>
          if (s.rank r.1).lost then noteEnd (run r.2) (some 3) s
          else startRank (run r.2) (p.node.arg.setWidth 32) p.node.slot 0 r.1 (writeSlot vd p.node.slot image r.1 s)) (running s1)
  | _ => s

/-! ### The end of a node and of a launch (R280 to R284) -/

/-- A node whose count of predecessors has reached 0 enters the pool. -/
def enterPool (s : State) (x : Node) : Node :=
  if x.left = 0 ∧ x.state = .waiting then { x with state := .pooled s.ring s.nextId } else x

/-- Successor entries are lowered one by one. -/
def lowerAll (succ : List Nat) (nodes : List Node) : List Node :=
  nodes.zipIdx.map (fun x => { x.1 with left := x.1.left - (succ.filter (· == x.2)).length })

/-- A context ends with its node: its ports are unbound and it waits for nothing; its registers stay (R226, R283). -/
def Context.ended (c : Context) : Context :=
  { c.unissued with
    status := .free, ports := Vector.replicate 4 Port.reset, open_ := [], cmds := [], tinv := none, pbind := none
    barrier := [], drained := [], mchk := none, poison := [] }

/-- The core that carries a curve number's part of a node that has ended (R226, R283): its contexts and bindings end. -/
def freeCore (origin : Nat) (s : State) : State :=
  let c := s.route origin
  ({ s with routes := drop origin s.routes }).updCore c (fun k => { k with
    ctxs := k.ctxs.map Context.ended
    node := none, sent := 0, rcvd := 0, upcall := false, upslot := false, recs := [], origin := c })

def launchWord (code index count : Nat) : W64 := BitVec.ofNat 64 (code % 256 + index % 2 ^ 24 * 2 ^ 8 + count * 2 ^ 32)

def NodeState.isDone : NodeState → Bool
  | .done _ => true
  | _ => false
def NodeState.code : NodeState → Nat
  | .done c => c
  | _ => 0

/-- The status word of a launch whose nodes are all done. -/
def Launch.status (l : Launch) : W64 :=
  match l.nodes.zipIdx.find? (fun x => x.1.state.code != 0) with
  | some x => launchWord x.1.state.code x.2 l.nodes.length
  | none => launchWord 0 0 l.nodes.length

/-- The words of a launch (R284): the status word, then DONEVAL over it; what is left to wait for. -/
def launchWords (vd : Nat) (l : Launch) (status : W64) (s : State) : State × List Nat :=
  let x := nodeWord vd [] l.statAddr status s
  let y := nodeWord vd x.2 l.doneAddr l.doneVal x.1
  (y.1, y.2.filter y.1.unperformed)

/-- The end of a launch whose words are performed: the MSI, and the queue entry is free (R284, R311). -/
def closeLaunch (vd q : Nat) (l : Launch) (s : State) : State :=
  (updQueue vd q (fun x => { x with launches := x.launches.filter (fun y => y.number != l.number) }) (match l.msi with
    | some i => s.interrupt vd i
    | none => s)).updVd vd (fun v => { v with finished := v.finished ++ [l.number] })

def addEnding (vd : Nat) (e : Ending) (s : State) : State := s.updVd vd (fun v => { v with endings := v.endings ++ [e] })

/-- R284: a launch ends with a status: at once, or when its words are performed. -/
def endLaunch (vd q : Nat) (l : Launch) (status : W64) (s : State) : State :=
  let x := launchWords vd l status s
  if x.2.isEmpty then closeLaunch vd q l x.1 else addEnding vd ⟨q, l.number, none, 0, x.2⟩ x.1

/-- The node, or the launch, has ended and waits for its words. -/
def Vd.isEnding (v : Vd) (q launch : Nat) (node : Option Nat) : Bool :=
  v.endings.any (fun e => e.q == q && e.launch == launch && e.node == node)

/-- Step 1 of R283: the updates that caches still hold are merged (R148); the numbers of those of the VD that wait at a bank. -/
def mergeUpdates (vd : Nat) (s : State) : State × List Nat :=
  let ls := s.cores.flatMap (fun e => (e.2.l1.filter (fun l => l.upd.isSome && l.vd == vd)).map (fun l => (e.1, l)))
  let s1 := ls.foldl (fun s e => s.evictLine e.1 e.2) s
  (s1, s1.ranks.flatMap (fun e => (e.2.pending.filter (fun q => q.vd == vd && (match q.user with
    | .merge _ => true
    | _ => false))).map (·.ident)))

def State.launch (s : State) (vd q launch : Nat) : Option Launch :=
  ((s.vd vd).queues[Fin.ofNat 4 q]).launches.find? (fun l => l.number == launch)

/-- Steps 3 and 4 of R283, and R284 when it was the launch's last: the node is done with a code. -/
def closeNode (vd q launch index code : Nat) (s : State) : State :=
  match (s.launch vd q launch).bind (fun l => l.nodes[index]?) with
  | none => s
  | some x =>
    let s1 := x.cores.foldl (fun s c => freeCore c s) s
    let s2 := updLaunch vd q launch (fun l => { l with
      nodes := ((lowerAll x.succ l.nodes).zipIdx.map (fun y => if y.2 = index then { y.1 with state := .done code } else y.1)).map
        (enterPool s1) }) { s1 with nextId := s1.nextId + 1 }
    match s2.launch vd q launch with
    | none => s2
    | some l => if l.nodes.all (·.state.isDone) then endLaunch vd q l l.status s2 else s2

/-- R283: a node ends with a code: at once, or when its accesses and its word are performed. -/
def endNode (vd q launch index code : Nat) (s : State) : State :=
  match (s.launch vd q launch).bind (fun l => l.nodes[index]?) with
  | none => s
  | some x =>
    let m := if x.kind = 1 then mergeUpdates vd s else (s, [])
    let y := nodeWord vd m.2 x.doneAddr x.doneVal m.1
    let after := y.2.filter y.1.unperformed
    if after.isEmpty then closeNode vd q launch index code y.1 else addEnding vd ⟨q, launch, some index, code, after⟩ y.1

/-- The engine's decisions (R278): nodes are dispatched in the order of the walk until none can be; EMPTY nodes and gangs of 0
end at once (R281). -/
def decisions (vd : Nat) : Nat → State → State
  | 0, s => s
  | f + 1, s =>
    match firstGo s vd (pool s vd) with
    | none => s
    | some p =>
      let s1 := placeNode vd p s
      let ps := s1.stalled.drop s.stalled.length
      if !ps.isEmpty then ((s.wakeBanks ps).askWindow vd ps).updVd vd (fun v => { v with walkDue := true })
      else decisions vd f (if p.node.kind = 0 ∨ (p.node.kind = 1 ∧ p.node.size = 0) then endNode vd p.q p.launch p.index 0 s1 else s1)

/-- Nodes of a VD's launches. -/
def nodeCount (v : Vd) : Nat := ((v.queues.toList.flatMap (·.launches)).map (·.nodes.length)).sum

/-- A decision for the pool of a VD; a VD that does not run, or whose Te has come, dispatches nothing (R313): it is made when the VD runs
again. -/
def decide_ (vd : Nat) (s : State) : State :=
  if (s.vd vd).issuing s.ring then decisions vd (nodeCount (s.vd vd)) (s.updVd vd (fun v => { v with walkDue := false }))
  else s.updVd vd (fun v => { v with walkDue := true })

/-- What waited for words and requests that have been performed goes on: nodes and launches end (R283, R284), and a decision that is due is
made. -/
def settleVd (vd : Nat) (s : State) : State :=
  let s1 := flushLate vd s
  let due := (s1.vd vd).endings.filter (fun e => !e.after.any s1.unperformed)
  let s2 := due.foldl (fun s e =>
    let s := s.updVd vd (fun v => { v with endings := v.endings.erase e })
    match e.node, s.launch vd e.q e.launch with
    | some i, _ => closeNode vd e.q e.launch i e.code s
    | none, some l => closeLaunch vd e.q l s
    | none, none => s) s1
  if !due.isEmpty || ((s2.vd vd).walkDue && (s2.vd vd).issuing s2.ring) then decide_ vd s2 else s2

/-- A rank has become idle, or left a slot: the pools with a RANK node that names it (and that slot) are walked (R278). -/
def decideFor (rank : Nat) (s : State) (slot : Option Nat := none) : State :=
  let names (vd : Nat) (p : Pooled) : Bool := p.node.kind == 2 && slot.all (· == p.node.slot) &&
    (ranksOf s.pkg (groupIn (launchGroups s vd p.q p.launch) p.node.size)).any (·.contains rank)
  ((s.vds.map (·.1)).filter (fun vd => (pool s vd).any (names vd))).foldl (fun s v => decide_ v s) s

/-- LAUNCH_START (R273, R276, R277): the head launch of a queue starts. -/
def execLaunchStart (vd q : Nat) : State → Out := fun s =>
  match ((s.vd vd).queues[Fin.ofNat 4 q]).launches with
  | l :: _ =>
    if l.started ∨ (s.vd vd).issuing s.ring = false ∨ 4 ≤ q ∨ (s.vd vd).isEnding q l.number none = true then .next s
    else if !groupsHeld s vd l.groups then .next (endLaunch vd q l (launchWord 7 0xFFFFFF 0) s)
    else
      let s1 := updLaunch vd q l.number (fun l => { l with started := true, nodes := l.nodes.map (enterPool s) })
        (updQueue vd q (fun x => { x with groups := l.groups, trackers := [] }) { s with nextId := s.nextId + 1 })
      if l.nodes = [] then .next (endLaunch vd q l (launchWord 0 0 0) s1) else .next (decide_ vd s1)
  | [] => .next s

/-! ### Termination (R280, R281) -/

/-- The context lets its core count as idle: FREE, SUSPENDED, or waiting on an empty port or in WAITA, nothing outstanding. -/
def contextIdle (s : State) (c x : Nat) : Bool :=
  let k := s.core c
  let m := k.ctx x
  let blocked : Bool := match m.wait with
    | some (.port p) => m.ports[ptrIx p].queue.isEmpty
    | some (.waita _) => true
    | _ => false
  (match m.status with
    | .free => true
    | .suspended => x != 0
    | .live => blocked
    | .faulted => false) &&
    s.performed c x && m.slots.toList.all (· == 0) && !k.mxOf x && !k.sfuOf x

/-- The part of a node that an origin curve number names is idle (R280): no image of it is saved, and the core that carries it idles. -/
def originIdle (s : State) (vd origin : Nat) : Bool :=
  let c := s.route origin
  (lookup origin (s.vd vd).saved).isNone && (s.core c).origin == origin && decide ((s.core c).mode = .running) &&
    (List.range 11).all (contextIdle s c)

/-- The counts of an origin's part (R281): in its image while one is saved. -/
def originCounts (s : State) (vd origin : Nat) : W64 × W64 :=
  match lookup origin (s.vd vd).saved with
  | some k => (k.sent, k.rcvd)
  | none => ((s.core (s.route origin)).sent, (s.core (s.route origin)).rcvd)

/-- TERMINATION_SWEEP: the second of two equal balanced all-idle sweeps ends the node. -/
def execTerminationSweep (vd q node : Nat) : State → Out := fun s =>
  match ((s.vd vd).queues[Fin.ofNat 4 q]).launches with
  | [] => .next s
  | l :: _ =>
    match l.nodes[node]? with
    | none => .next s
    | some x =>
      if x.state ≠ .running ∨ x.kind ≠ 1 ∨ (s.vd vd).issuing s.ring = false ∨ (s.vd vd).isEnding q l.number (some node) = true then .next s
      else
        let counts := x.cores.map (originCounts s vd)
        let sent := (counts.map (·.1)).foldl (· + ·) 0
        let rcvd := (counts.map (·.2)).foldl (· + ·) 0
        let balanced : Bool := x.cores.all (originIdle s vd) && sent == rcvd
        if balanced ∧ x.sweep = some (sent, rcvd) then .next (decide_ vd (endNode vd q l.number node 0 s))
        else .next (updNode vd q l.number node (fun x => { x with sweep := if balanced then some (sent, rcvd) else none }) s)

/-- RANK_NODE_END (R282): every member has halted or faulted. -/
def execRankNodeEnd (vd q node : Nat) : State → Out := fun s =>
  match ((s.vd vd).queues[Fin.ofNat 4 q]).launches with
  | [] => .next s
  | l :: _ =>
    match l.nodes[node]? with
    | none => .next s
    | some x =>
      if x.state ≠ .running ∨ x.kind ≠ 2 ∨ (s.vd vd).isEnding q l.number (some node) = true ∨ x.halted.length < (groupIn l.groups x.size).length then .next s
      else .next (decide_ vd (endNode vd q l.number node x.code s))

end Sys2Proof.Machine
end

