-- ==== Sys2Proof/Machine/Ends.lean ====
section
/-! DEFINITION. How a rank's part of a run ends (R185, R192), outside requests at a bank, the failure of a course and its
rollback (R260, R261), and a course from its opening past its keystone (R252, R253). -/

namespace Sys2Proof.Machine

/-- The state of a rank as its spill image holds it, in the order in which R262 names its parts (log 66). -/
def rankImage (k : Rank) : List Byte :=
  bytesOf 2 k.upc ++ bytesOf 1 k.slot.toNat ++ (k.s.toList.flatMap (fun x => bytesOf 4 x.toNat)) ++
    (k.v.toList.flatMap (fun x => bytesOf 32 x.toNat)) ++
    (k.k.toList.flatMap (fun a => bytesOf 2 a.alpha.toNat ++ a.recs.toList.flatMap (fun r => bytesOf 16 r.enc))) ++
    (k.c.toList.flatMap (fun c => bytesOf 2 c.row.toNat ++ bytesOf 1 c.col.toNat ++ bytesOf 2 c.stride.toNat)) ++
    bytesOf 1 k.fl.toNat ++ bytesOf 1 k.mailbox.length ++ k.mailbox.flatMap (fun w => bytesOf 4 w.toNat)

/-- The key draw of the rank's K entry, under which its save rows are encrypted (R306). -/
def saveDraw (s : State) (rank : Nat) : Nat :=
  match s.perms.find? (fun e => (permOf e.2).valid && (permOf e.2).k && e.1 / 512 == rank / 1024 &&
      decide ((permOf e.2).rfirst ≤ rank % 1024) && decide (rank % 1024 < (permOf e.2).rfirst + (permOf e.2).rcount)) with
  | some e => (lookup (permOf e.2).key (s.vd (permOf e.2).vd).keys).getD 0
  | none => 0

/-- A rank writes its spill image into the save row whose turn it is (R262), and its bank is free; an idle one stays idle. -/
def spillRank (rank : Nat) (s : State) : State :=
  let k := s.rank rank
  if k.state = .spilled ∨ k.enabled = false then s
  else
    let row := if k.saves % 2 = 0 then k.save.1 else k.save.2
    let s1 := (rankImage k).zipIdx.foldl (fun s b => s.poke (saveDraw s rank) (cellKey rank row b.2) b.1) s
    settleBank rank (s1.updRank rank (fun k => { k with
      state := if k.state = .idle then .idle else .spilled, saves := k.saves + 1, open_ := none }))

/-- The rank has nothing that keeps its channel from sleeping (R262). -/
def Rank.rests (k : Rank) : Bool :=
  k.state == .idle || k.state == .spilled || (k.state == .running && k.wait.any (· != .overlay) && !k.traffic)

/-- A channel that is to sleep does once every rank of it rests; each writes its image and the request completes SPILLED (R262). -/
def tryNap (ch : Nat) (s : State) : State :=
  if s.napping.contains ch && (ranksOfChannel ch).all (fun r => (s.rank r).rests) then
    let s1 := (ranksOfChannel ch).foldl (fun s r => spillRank r s) s
    { s1 with napping := s1.napping.filter (· != ch), asleep := s1.asleep ++ [ch], output := s1.output ++ [.spilled ch] }
  else s

/-- The rank leaves its bank to outside traffic (R194). -/
def leaveBank (rank : Nat) (s : State) : State :=
  tryNap (channelOf rank) (settleBank rank (s.updRank rank (fun k => { k with timer := 0, fresh := false, open_ := none })))

/-- A request that waits for a window: a held write needs none (R270). -/
def State.needsWindow (s : State) (rank : Nat) (q : OutsideReq) : Bool := q.op.reads || !(s.inFootprint rank q.row)

/-- A check of the front end (R259): requests that wait for it suspend the rank, and up to 8 of them are served; at a boundary a rank whose
channel is to sleep spills (R262). -/
def checkBank (rank : Nat) (s : State) : State :=
  let k := s.rank rank
  if s.napping.contains (channelOf rank) then tryNap (channelOf rank) (spillRank rank s)
  else if k.fresh then s
  else if !k.pending.any (s.needsWindow rank) then s.updRank rank (fun k => { k with timer := 0 })
  else serveBank true 8 rank (s.updRank rank (fun k => { k with state := .suspended, timer := 0, open_ := none }))

/-- The rank waits; only OVSW keeps its bank while it does (R194, R212). -/
def rankWait (w : RankWait) (rank : Nat) (s : State) : State :=
  let s1 := s.updRank rank (fun k => { k with wait := some w })
  if w = .overlay then s1 else leaveBank rank s1

/-- The status register of a course instruction and of CEND (R206). -/
def rankStatus (code courses : Nat) (fl : BitVec 5) : Word :=
  BitVec.ofNat 32 (code % 256 + fl.toNat * 2 ^ 8 + courses % 65536 * 2 ^ 16)

/-- The end of an instruction that may have left the bank: the end of such a wait counts as a check, else its cycle counts (R271). -/
def endWait (rank : Nat) (f : Rank → Rank) (s : State) : State :=
  let k := s.rank rank
  let s1 := s.updRank rank (fun k => { f k with
    upc := k.upc + 1, wait := none, timer := if k.wait.isSome then 0 else k.timer + 1, ns := k.ns + 1 })
  if k.wait.isNone && decide (191 ≤ k.timer) then checkBank rank s1 else s1

/-- A course instruction or CEND completes: its status with FL and the instruction's own events, FL cleared, the next word (R206). -/
def endCourseInstr (rank code : Nat) (s : State) : State :=
  endWait rank (fun k =>
    { (k.setS k.dest (rankStatus code k.done (k.fl ||| k.cfl))) with
      fl := 0, cfl := 0, reads := 0, writes := 0, course := none, failed := none, ranges := [], done := 0 }) s

/-- CBEGIN completes with a code: 0 when the course has opened (R205). DESIGN CHOICE (log 80): R206 says that it writes bits 7–0 only; the
others become zero, on a failure too. -/
def endBegin (rank code : Nat) (course : Option Nat) (s : State) : State :=
  endWait rank (fun k =>
    { (k.setS k.dest (BitVec.ofNat 32 (code % 256))) with
      course := course, ranges := if course.isSome then k.ranges else [] }) s

/-- The failure of a course reaches a member's course instruction, CBEGIN or CEND, or waits for its CEND (R205, R209). -/
def reportFailure (id code rank : Nat) (program : Bool) (s : State) : State :=
  let k := s.rank rank
  if k.wait = some (.course id) then
    if program && k.course.isNone then endBegin rank code none s else endCourseInstr rank code s
  else if k.course = some id then s.updRank rank (fun k => { k with failed := some code })
  else s

/-- R260: a course fails: nothing of it stays, held writes are applied, and every member but `but` learns the code. For a
COLL the command ends with the code and the member that caused it (R181). -/
def failCourse (id code member : Nat) (but : Option Nat) (s : State) : State :=
  match s.course id with
  | none => s
  | some c =>
    if c.flipped then s
    else
      let s1 := s.dropCourse id
      let s2 := if c.opened then settleRows c.foot (applyHeld c.foot s1) else s1
      match c.cmd with
      | some n => finishCmd c.vd n code member s2
      | none => (c.parts.filter (fun p => some (c.rankOf p.member) != but)).foldl
          (fun s p => reportFailure id code (c.rankOf p.member) (p.op == .program) s) s2

/-- The course that a rank has open, or waits in. -/
def Rank.inCourse (k : Rank) : Option Nat :=
  match k.course, k.wait with
  | some id, _ => some id
  | none, some (.course id) => some id
  | none, _ => none

def Course.number (c : Course) (i : Nat) : Nat := if c.numbers = [] then i else c.numbers.getD i noMember
def memberOf (c : Course) (rank : Nat) : Nat := ((c.members.findIdx? (· == rank)).map c.number).getD noMember

/-- The local members of a COLL's group: member index and rank. -/
def RingCmd.localRanks (pkg : Nat) (c : RingCmd) : List (Nat × Nat) :=
  ((groupIn c.groups (num c.block 4 4)).zipIdx.filter (fun m => bits m.1.toNat 31 22 == pkg)).map (fun m => (m.2, m.1.toNat % 2 ^ 21))

/-- A running COLL that has members among the ranks ends with the code and the lowest of them (R181); past a commit it ends after
that course. -/
def abortColl (vd : Nat) (ranks : List Nat) (code : Nat) (s : State) (c : RingCmd) : State :=
  match (c.localRanks s.pkg).find? (fun m => ranks.contains m.2) with
  | none => s
  | some m =>
    match s.courses.find? (fun k => k.vd == vd && k.cmd == some c.n && !k.flipped) with
    | none => finishCmd vd c.n code m.1 s
    | some k =>
      if k.committed s.ring then
        (if code = 6 then updCmd vd c.n (fun x => { x with fault := x.fault.or (some (m.1, 6)) }) s else s)
      else failCourse k.id code m.1 none s

def abortColls (ranks : List Nat) (code : Nat) (s : State) : State :=
  s.vds.foldl (fun s v => (v.2.cmds.filter (fun c => c.op == .coll && c.state == .running)).foldl (abortColl v.1 ranks code) s) s

/-- Who sends a word of a rank: no core has this number. -/
def rankSource (rank : Nat) : Nat × Nat := (2 ^ 21 + rank, 0)

/-- No send of the rank waits for room any more (R153). -/
def State.unqueued (s : State) (rank : Nat) : State := { s with sendq := s.sendq.filter (fun w => w.core != (rankSource rank).1) }

/-- The rank is idle, and the next run that waits for it starts (R185); the pools that name it are walked (R278). -/
def freeRank (rank : Nat) (s : State) : State :=
  let s1 := leaveBank rank ((s.unqueued rank).updRank rank (fun k => { k with
    state := .idle, run := none, wait := none, course := none, failed := none, ranges := [], done := 0, stop := none
    reads := 0, writes := 0, cfl := 0 }))
  decideFor rank (match (s1.rank rank).queued with
    | [] => s1
    | (run, arg, slot, entry) :: r =>
      startRank run arg slot entry rank (s1.updRank rank (fun k => { k with queued := r })))

/-- The courses of a run's groups that a rank belongs to, joined or not, and that can still fail (R209). -/
def coursesWith (run : RankRun) (rank : Nat) (s : State) : List Course :=
  s.courses.filter (fun c => c.cmd.isNone && c.members.contains rank && c.vd == run.vd && c.q == run.q && c.launch == run.launch &&
    !c.flipped && !c.committed s.ring && (!c.solo || (s.rank rank).inCourse == some c.id))

/-- A rank's part of its run ends: by HALT (none), a fault, a stop or a loss. Its courses, those it has not joined among them, fail at
the others with the code `abort` (R192, R209, R260). -/
def endRank (rank : Nat) (code : Option Nat) (abort : Nat) (s : State) : State :=
  let k := s.rank rank
  let s1 := match k.run with
    | some run => (coursesWith run rank s).foldl (fun s c => failCourse c.id abort (memberOf c rank) (some rank) s) s
    | none => s
  match k.run with
  | none => freeRank rank s1
  | some run => noteEnd run code (freeRank rank s1)

/-- RKSTOP of one rank: at once, or after the course that is already committed (R186, R253). -/
def stopRank (rank : Nat) (s : State) : State :=
  let k := s.rank rank
  if k.run.isNone then s
  else if (k.inCourse.bind s.course).any (fun c => !c.flipped && c.committed s.ring) then
    s.updRank rank (fun k => { k with stop := some 6 })
  else endRank rank (some 6) 6 s

/-- A rank is stopped by RKSTOP: a COLL that has it as a member ends too (R181, R186). -/
def rkstop (rank : Nat) (s : State) : State := stopRank rank (abortColls [rank] 6 s)

/-- The other members of a run are stopped by RKSTOP; those that had not started never start (R185). -/
def stopOthers (run : RankRun) (s : State) : State :=
  let rs := ((s.ranks.map (·.1)).filter (fun r => (s.rank r).run.any (·.same run)))
  (s.ranks.map (·.1)).foldl (fun s r =>
    if rs.contains r then stopRank r s
    else ((s.rank r).queued.filter (fun q => q.1.same run)).foldl (fun s q => noteEnd q.1 none s)
      (s.updRank r (fun k => { k with queued := k.queued.filter (fun q => !q.1.same run) }))) (abortColls rs 6 s)

/-- R192: a rank fault. -/
def rankFault (rank code : Nat) (s : State) : State :=
  let run := (s.rank rank).run
  let s1 := endRank rank (some code) 6 (abortColls [rank] 6 s)
  match run with
  | some r => stopOthers r s1
  | none => s1

/-- R261, R342: a member is lost. Courses that have not committed fail at the survivors, and its run ends MEMBER_LOST. -/
def loseRank (rank : Nat) (s : State) : State :=
  let s1 := abortColls [rank] 3 (s.updRank rank (fun k => { k with lost := true }))
  let s2 := (s1.courses.filter (fun c => c.cmd.isNone && c.members.contains rank && !c.flipped && !c.committed s1.ring)).foldl
    (fun s c => failCourse c.id 3 (memberOf c rank) (some rank) s) s1
  if (s2.rank rank).run.isNone then s2
  else if ((s2.rank rank).inCourse.bind s2.course).any (fun c => !c.flipped) then
    s2.updRank rank (fun k => { k with stop := some 3 })
  else endRank rank (some 3) 3 s2

/-! ### Opening, readiness, keystone -/

/-- The events of a member's contributions and roundings, which its status will hold; FL itself stays (R203, R206). -/
def addFl (c : Course) (fl : List (Nat × Fl)) (s : State) : State :=
  fl.foldl (fun s x => s.updRank (c.rankOf x.1) (fun k => { k with cfl := k.cfl ||| x.2 })) s

/-- The members have read their source rows: each has its mortar rows to write (R252, R259). -/
def startWrites (c : Course) (s : State) : State :=
  if c.members.any (fun r => (s.rank r).reads != 0) then s
  else c.parts.foldl (fun s p => s.updRank (c.rankOf p.member) (fun k =>
    { k with writes := (p.mortarRows c.size (c.index + 1)).length })) s

/-- The traffic of a course instruction begins: every member has its source rows to read (R259). -/
def startReads (c : Course) (s : State) : State :=
  startWrites c (c.parts.foldl (fun s p => s.updRank (c.rankOf p.member) (fun k =>
    { k with reads := (p.sourceRows c.size (c.index + 1)).length, writes := 0, timer := 0, fresh := false })) s)

/-- A rank moves one row of its course's traffic, of which the end is a row boundary (R259); with the last it leaves its bank again. The time
of a row is that of its 32 column words (R194). -/
def trafficRow (rank id : Nat) (s : State) : State :=
  let k := s.rank rank
  let s1 := s.updRank rank (fun k => { k with
    reads := k.reads - 1, writes := if k.reads = 0 then k.writes - 1 else k.writes, ns := k.ns + 78, timer := k.timer + 78, fresh := false })
  let s2 := match s.course id with
    | some c => if k.reads = 1 then startWrites c s1 else s1
    | none => s1
  if (s2.rank rank).traffic then checkBank rank s2 else leaveBank rank s2

/-- Bytes of regions, staged by logical row (the last write of a byte stands). -/
def stage (c : Course) (outs : List (Nat × List Byte)) : List (Nat × Byte) :=
  outs.foldl (fun st o =>
    let cur := ((c.part o.1).getD c.head).dst
    o.2.zipIdx.foldl (fun st b =>
      put (Place.mk (c.rankOf o.1) (cur.at_ b.2).1 (cur.at_ b.2).2).key b.1 st) st) []

/-- The next course of the same instruction (R207, R253). -/
def nextCourse (c : Course) (s : State) : State :=
  let id := s.nextId
  let c1 := { c with
    id := id, opened := false, staged := [], under := [], index := c.index + 1, ready := [], keystone := none, flipped := false, since := s.ring }
  let s1 := { s with nextId := id + 1, courses := s.courses ++ [c1] }
  if c.cmd.isSome then s1
  else (c.members).foldl (fun s r => s.updRank r (fun k =>
    if k.wait = some (.course c.id) then { k with wait := some (.course id) } else k)) s1

/-- COURSE_OPEN of the ranks' own courses (R209, R252). -/
def openRankCourse (c : Course) (s : State) : State :=
  let n := c.size
  let t := c.index + 1
  match c.members.findIdx? (fun r => (s.rank r).lost) with
  | some k => failCourse c.id 3 k none s
  | none =>
    match checkCourse s c with
    | some code => failCourse c.id code noMember none s
    | none =>
      let c1 := { c with opened := true, total := courseTotal c.head.op n, foot := c.parts.flatMap (c.footOf t) }
      if !poolReady s c1 then s
      else if c.head.op = .program then
        c.members.foldl (fun s r => endBegin r 0 (some c.id) s) (s.setCourse c1)
      else
        let part (k : Nat) := (c.part k).getD c.head
        match (List.range n).findSome? (fun k => badAmong s (c.rankOf k) ((part k).sources n t)) with
        | some p => loseRank p.rank (s.setCourse c1 |>.wordRecord c.vd none [p] 0 5 0xFFFFFFFF 0xFF).1
        | none =>
          match courseStep c.head n t
              (fun k => readRegion s (c.rankOf k) (part k).src ((part k).srcLen n k))
              (fun k => readRegion s (c.rankOf k) (part k).dst ((part k).dstLen n k)) with
          | none => failCourse c.id 1 noMember none (s.setCourse c1)
          | some o => startReads c1 (addFl c1 o.fl (s.setCourse { c1 with staged := stage c1 o.out }))

/-- MEMBER_READY and KEYSTONE_SCHEDULE (R252, R253): the keystone is set when every member is ready; a member of a program
course is ready in its CEND, one of a course instruction when its rows are written and every member has read its own. -/
def readyMember (c : Course) (k : Nat) (s : State) : State :=
  let early : Bool := c.cmd.isNone &&
    (if c.head.op == .program then (s.rank (c.rankOf k)).wait != some (.course c.id)
     else (s.rank (c.rankOf k)).traffic || c.members.any (fun r => (s.rank r).reads != 0))
  if !c.opened || c.flipped || c.ready.any (fun r => r.1 == k) || decide (c.size ≤ k) || early then s
  else
    let ready := c.ready ++ [(k, s.ring)]
    s.setCourse { c with ready := ready,
                         keystone := if ready.length = c.size then some (s.ring + 200) else none }

/-- A stop that waited for a committed course takes its effect. -/
def lateStops (c : Course) (s : State) : State :=
  c.members.foldl (fun s r => match (s.rank r).stop with
    | some code => endRank r (some code) code s
    | none => s) s

/-- Every member's instruction goes on after the keystone of its course. -/
def afterKeystone (c : Course) (s : State) : State :=
  let s1 := (c.members.filter (fun r => (s.rank r).wait == some (.course c.id))).foldl
    (fun s r => s.updRank r (fun k => { k with done := k.done + 1 })) s
  if c.index + 1 < c.total then lateStops c (nextCourse c s1)
  else lateStops c ((c.members.filter (fun r => (s1.rank r).wait == some (.course c.id))).foldl (fun s r => endCourseInstr r 0 s) s1)

end Sys2Proof.Machine
end

