-- ==== Sys2Proof/Machine/Block.lean ====
section
/-! DEFINITION. Rows of tensors in memory (R40, R42), the values of their elements (R41), and conversion into block formats
(R52). -/

namespace Sys2Proof.Machine

/-! ### Layout of a row -/

/-- Width of an element in bits. -/
def elemWidth (p : W64) : Nat :=
  match blockFmt (ptrFmt p) with
  | some b => fmtBits b.elem
  | none => fmtBits (ptrFmt p)

def scaleBytes (b : BlockFmt) : Nat := fmtBits b.scale / 8

/-- Bit position of element n from the start of its row. -/
def elemBit (p : W64) (n : Nat) : Nat :=
  match blockFmt (ptrFmt p) with
  | none => nibShift p + n * fmtBits (ptrFmt p)
  | some b =>
    8 * (n / (64 * blockLen p) * groupBytes (ptrFmt p) (blockLen p) + 64 * scaleBytes b) +
      n % (64 * blockLen p) * fmtBits b.elem

/-- Byte position and size of the scale of element n; no bytes outside block formats. -/
def scaleAt (p : W64) (n : Nat) : Nat × Nat :=
  match blockFmt (ptrFmt p) with
  | none => (0, 0)
  | some b =>
    (n / (64 * blockLen p) * groupBytes (ptrFmt p) (blockLen p) + n / blockLen p % 64 * scaleBytes b, scaleBytes b)

/-- Bytes of a row of k elements. -/
def rowSize (p : W64) (k : Nat) : Nat :=
  match blockFmt (ptrFmt p) with
  | none => (nibShift p + k * fmtBits (ptrFmt p) + 7) / 8
  | some b =>
    let group := 64 * blockLen p
    k / group * groupBytes (ptrFmt p) (blockLen p) +
      (if k % group = 0 then 0
       else 64 * scaleBytes b + (k % group + blockLen p - 1) / blockLen p * (blockLen p * fmtBits b.elem / 8))

/-- Byte positions of a row that element n occupies, its scale included. -/
def elemBytes (p : W64) (n : Nat) : List Nat :=
  let lo := elemBit p n / 8
  (List.range ((elemBit p n + elemWidth p - 1) / 8 + 1 - lo)).map (lo + ·) ++
    (List.range (scaleAt p n).2).map ((scaleAt p n).1 + ·)

/-- Bits of a row that is read byte by byte. -/
def bitsAt (rd : Nat → Byte) (at_ w : Nat) : Nat :=
  ofBytes ((List.range ((at_ + w - 1) / 8 + 1 - at_ / 8)).map (fun i => rd (at_ / 8 + i))) / 2 ^ (at_ % 8) % 2 ^ w

/-- The encoding of element n. -/
def elemRaw (p : W64) (rd : Nat → Byte) (n : Nat) : Nat := bitsAt rd (elemBit p n) (elemWidth p)

/-- A NaN that an invalid operation creates: its payload saturates to all ones. -/
def createdNan : Num := .nan (2 ^ 64) false

/-- The exact product of a value and a scale; ∞ × 0 is invalid (R50). -/
def scaleNum (x y : Num) : Num × Fl :=
  match mulNum x y with
  | some z => (z, 0)
  | none => (createdNan, Fl.NV)

/-- The value of element n (R39, R41). A NaN scale makes the element NaN whatever it holds. -/
def elemNum (p : W64) (rd : Nat → Byte) (n : Nat) : Num × Fl :=
  match blockFmt (ptrFmt p) with
  | none => (valueOf (ptrFmt p) (elemRaw p rd n), 0)
  | some b =>
    let s := valueOf b.scale (bitsAt rd (8 * (scaleAt p n).1) (8 * (scaleAt p n).2))
    match s with
    | .nan q g => (.nan q g, 0)
    | s => scaleNum (valueOf b.elem (elemRaw p rd n)) s

/-! ### Conversion into a block format (R52) -/

/-- The largest element magnitude, as m · 2^e. -/
def elemMax (code : Nat) : Nat × Int :=
  match code with
  | 0x0E => (6, 0)
  | 0x0C => (28, 0)
  | 0x0D => (15, -1)
  | 0x0A => (448, 0)
  | 0x0B => (57344, 0)
  | 0x03 => (7, 0)
  | _ => (127, 0)

/-- k of the MX family. -/
def mxK (code : Nat) : Int :=
  match code with
  | 0x0E => 2
  | 0x0C => 4
  | 0x0D => 2
  | 0x0A => 8
  | 0x0B => 15
  | _ => 6

/-- a ≤ b for magnitudes m · 2^e. -/
def magLe (a b : Nat × Int) : Bool := decide (scaled false a.1 a.2 (min a.2 b.2) ≤ scaled false b.1 b.2 (min a.2 b.2))

/-- A quotient of magnitudes with a last bit for what lies below it. -/
def magDiv (a b : Nat × Int) : Nat × Int :=
  (2 * (a.1 * 2 ^ 256 / b.1) + (if a.1 * 2 ^ 256 % b.1 = 0 then 0 else 1), a.2 - b.2 - 257)

def mag : Num → Nat × Int
  | .fin _ m e => (m, e)
  | _ => (0, 0)

def Num.finite : Num → Bool
  | .fin _ _ _ => true
  | _ => false

/-- The scale encoding for the largest magnitude a of a block. -/
def blockScale (b : BlockFmt) (a : Nat × Int) : Nat :=
  if a.1 = 0 then 0
  else if b.scale = Fmt.ue3m5 then
    ((List.range 255).map (· + 1)).find? (fun c =>
      let v := mag (valueOf Fmt.ue3m5 c)
      magLe a (v.1 * (elemMax b.elem).1, v.2 + (elemMax b.elem).2)) |>.getD 0xFF
  else if b.scale = Fmt.ue8m0 then
    (max 0 (min 254 (a.2 + (Nat.log2 a.1 : Nat) - mxK b.elem + 127))).toNat
  else
    let q := magDiv a (elemMax b.elem)
    min 0x7BFF (FloatFmt.round ⟨5, 10, 15, .ieee⟩ true rne false q.1 q.2).1

/-- One element over its scale, saturated to ±elemmax. -/
def blockElem (b : BlockFmt) (s : Nat × Int) (r : Rnd) (x : Num) : Nat × Fl :=
  match x with
  | .fin neg m e =>
    if s.1 = 0 then (0, Fl.on (decide (m ≠ 0)) Fl.NX)
    else
      let q := magDiv (m, e) s
      match floatFmt b.elem with
      | some f => f.round true r neg q.1 q.2
      | none =>
        let w := fmtBits b.elem
        let (v, nx) := roundInt r neg q.1 q.2
        let lim : Int := (elemMax b.elem).1
        if lim < v then (toField w lim, Fl.OF ||| Fl.NX)
        else if v < -lim then (toField w (-lim), Fl.OF ||| Fl.NX)
        else (toField w v, Fl.on nx Fl.NX)
  | _ => (0, 0)

/-- A block that holds a NaN or an infinity: its scale, and the encoding of every element. The largest magnitude of a K block with
an infinity gives the limit 1.96875; where it holds a NaN there is no largest magnitude, and its scale is the free value numbered `free`
(log 5). -/
def specialBlock (b : BlockFmt) (nan : Bool) (free : Nat) : Nat × Nat :=
  if b.scale = Fmt.ue8m0 then (0xFF, 0)
  else if b.scale = Fmt.ue3m5 then (if nan then (Config.freeScale free).toNat else 0xFF, if b.elem = Fmt.e4m3 then 0x7F else FloatFmt.maxEnc ((floatFmt b.elem).getD ⟨2, 1, 1, .none⟩))
  else (0x7E00, 0)

/-- A block of source values with their roundings: scale, elements, flags. The scale 0x00 of an MX block of zeros is 2^−127 (R39), so its
elements keep their signs. -/
def encodeBlock (b : BlockFmt) (free : Nat) (xs : List (Num × Rnd)) : Nat × List Nat × Fl :=
  if xs.any (fun x => !x.1.finite) then
    let sp := specialBlock b (xs.any (·.1.isNan)) free
    (sp.1, xs.map (fun _ => sp.2), Fl.NV)
  else
    let a := xs.foldl (fun m x => if magLe (mag x.1) m then m else mag x.1) (0, 0)
    let sc := blockScale b a
    let s := mag (valueOf b.scale sc)
    let es := xs.map (fun x => blockElem b s x.2 x.1)
    (sc, es.map (·.1), orFlags es)

/-- Splits a list into pieces of n. -/
def chunks {α : Type} (n : Nat) : Nat → List α → List (List α)
  | 0, _ => []
  | fuel + 1, l => if l.isEmpty then [] else l.take n :: chunks n fuel (l.drop n)

/-- A row of values in a block format: its bytes (R42) and flags. -/
def encodeBlockRow (p : W64) (b : BlockFmt) (free : Nat) (xs : List (Num × Rnd)) : List Byte × Fl :=
  let bl := (chunks (blockLen p) xs.length xs).zipIdx.map (fun x => encodeBlock b (free + x.2) x.1)
  ((chunks 64 bl.length bl).flatMap (fun g =>
      bytesOf (64 * scaleBytes b) (packFields (fmtBits b.scale) (g.map (·.1))) ++
        bytesOf (g.length * blockLen p * fmtBits b.elem / 8) (packFields (fmtBits b.elem) (g.flatMap (·.2.1)))),
    bl.foldl (fun f x => f ||| x.2.2) 0)

end Sys2Proof.Machine
end

