-- ==== Sys2Proof/Machine/Engines.lean ====
section
/-! DEFINITION. What every engine command shares (R160 to R163), the geometry registers (R164, R170), commit groups (R176) and
dependency slots (R27, R187). -/

namespace Sys2Proof.Machine

/-! ### Geometry registers -/

/-- CSETG and MSETG: value A into the register with index B. -/
def setGeom (i : Instr) (a b : BitVec 5) (mask : Nat → Option W64) (f : Nat → W64 → Context → Context) : State → Out :=
  let srcs := [Opnd.int a, Opnd.int b]
  issue i 0 (do
    prepare srcs none (fun s =>
      if (mask (arg1 (s.values srcs) 1).toNat).isNone then [Cand.ill (arg1 (s.values srcs) 1)] else [])
    upd (fun s =>
      let vs := s.values srcs
      let n := (arg1 vs 1).toNat
      (consume srcs s).updMe (f n (arg1 vs 0 &&& (mask n).getD 0))))

def execCsetg (a b : BitVec 5) : State → Out :=
  setGeom (.csetg a b) a b cgMask (fun n v c => { c with cg := c.cg.set (cgIx n) v })

def execMsetg (a b : BitVec 5) : State → Out :=
  setGeom (.msetg a b) a b mgMask (fun n v c => { c with mg := c.mg.set (mgIx n) v })

/-- CGETG and MGETG: the register with index A is pushed. -/
def getGeom (i : Instr) (a : BitVec 5) (ok : Nat → Bool) (rd : Context → Nat → W64) (after : Nat → Context → Context) :
    State → Out :=
  let srcs := [Opnd.int a]
  issue i 0 (do
    prepare srcs (some (.int 0)) (fun s =>
      if ok (arg1 (s.values srcs) 0).toNat then [] else [Cand.ill (arg1 (s.values srcs) 0)])
    upd (fun s =>
      let n := (arg1 (s.values srcs) 0).toNat
      deliver (.int 0) (.fixed (s.now + latency srcs 1)) [rd s.me n] ((consume srcs s).updMe (after n))))

def execCgetg (a : BitVec 5) : State → Out :=
  getGeom (.cgetg a) a (fun n => (cgMask n).isSome) (fun c n => c.cg[cgIx n]) (fun _ c => c)

/-- Reading STATUS clears it (R170). -/
def execMgetg (a : BitVec 5) : State → Out :=
  getGeom (.mgetg a) a (fun n => decide (n < 12)) (fun c n => c.mg[mgIx n])
    (fun n c => if n = 11 then { c with mg := c.mg.set 11 0 } else c)

/-! ### Issue of a command -/

/-- The commands a WAIT8 field names: those that set a named slot and have not completed (R161). -/
def Context.deps (c : Context) (w : BitVec 8) : List Nat :=
  (c.open_.filter (fun o => w.getLsbD o.2)).map (·.1)

/-- R27: a slot that holds 255 lets no command issue. -/
def slotFull (sl : BitVec 3) (sb : BitVec 1) : M Unit := fun s =>
  if sb = 1 ∧ s.me.slots[regIx sl.toNat] = 255 then .error (.wait .full) else .ok ((), s)

/-- The slot of a command counts up, and the command is open until it completes (R27, R161). -/
def takeSlot (id : Nat) (sl : BitVec 3) (sb : BitVec 1) (s : State) : State :=
  if sb = 1 then s.updMe (fun c => { c with
    slots := c.slots.set (regIx sl.toNat) (c.slots[regIx sl.toNat] + 1)
    open_ := c.open_ ++ [(id, sl.toNat)] })
  else s

def slotOf (sl : BitVec 3) (sb : BitVec 1) : Option Nat := if sb = 1 then some sl.toNat else none

/-- A command of context x of a core has completed: its slot counts down (R27, R182). -/
def releaseSlot (c x id : Nat) (slot : Option Nat) (s : State) : State :=
  match slot with
  | none => s
  | some k => s.updCtx c x (fun m => { m with
      slots := m.slots.set (regIx k) (m.slots[regIx k] - 1)
      open_ := m.open_.filter (fun o => o.1 != id) })

/-- The rounding mode of an engine command: 7 is $mode.FRM at issue (R46). -/
def engineMode (c : Context) (m : Nat) : Nat := if m = 7 then c.frm else m

/-- The command with everything it captures at issue (R160, R161). -/
def engCmd (s : State) (i : Instr) (a b : W64) (w : BitVec 8) (sl : BitVec 3) (sb : BitVec 1) (geom : List W64)
    (mode : Nat) : EngCmd :=
  { id := s.nextId, ctx := s.cur.ctx.val, word := wordOf i, a := a, b := b, slot := slotOf sl sb, deps := s.me.deps w
    group := s.me.grpNow.id, geom := geom, frm := mode, stream := s.me.srHandle, sro := s.me.sro, started := false
    dead := false, lines := [], written := false, idents := [], status := 0, held := none }

/-- Commands that have not started take the 8 entries of a queue (R169, R175). -/
def queued (q : List EngCmd) : Nat := (q.filter (fun e => !e.started)).length

/-- CPY (R166): with CONVERT under RSR it uses a stream word per element of its box (R47). -/
def execCpy (a b : BitVec 5) (w : BitVec 8) (sl : BitVec 3) (sb : BitVec 1) : State → Out :=
  let srcs := [Opnd.int a, Opnd.int b]
  let mode (c : Context) : Nat :=
    if c.cg[8].getLsbD 1 then engineMode c (bits c.cg[8].toNat 5 3) else 0
  issue (.cpy a b w sl sb) 0 (do
    slotFull sl sb
    let s ← get
    waitIf (decide (8 ≤ queued s.here.copies)) .queue
    prepare srcs none (fun s => s.me.rsrCands (mode s.me))
    upd (fun s =>
      let vs := s.values srcs
      let m := mode s.me
      let e := engCmd s (.cpy a b w sl sb) (arg1 vs 0) (arg1 vs 1) w sl sb (s.me.cg.toList.take 13) m
      let s1 := takeSlot s.nextId sl sb ((consume srcs s).updHere (fun k => { k with copies := k.copies ++ [e] }))
      useWords m (s.me.cg[3].toNat * s.me.cg[4].toNat) { s1 with nextId := s.nextId + 1 }))

/-- A tile command enters the MX queue and the open commit group (R161, R175, R176). -/
def mxOp (i : Instr) (srcs : List Opnd) (w : BitVec 8) (sl : BitVec 3) (sb : BitVec 1) (mode : Context → W64 → Nat) :
    State → Out :=
  issue i 0 (do
    slotFull sl sb
    let s ← get
    waitIf (decide (8 ≤ queued s.here.mx)) .queue
    prepare srcs none (fun s => s.me.rsrCands (mode s.me (arg1 (s.values srcs) 1)))
    upd (fun s =>
      let vs := s.values srcs
      let m := mode s.me (arg1 vs 1)
      let e := engCmd s i (arg1 vs 0) (arg1 vs 1) w sl sb s.me.mg.toList m
      let s1 := takeSlot s.nextId sl sb ((consume srcs s).updHere (fun k => { k with mx := k.mx ++ [e] }))
      useWords m 1024 { (s1.updMe (fun c => { c with grpNow := { c.grpNow with left := c.grpNow.left + 1 } })) with
        nextId := s.nextId + 1 }))

def execMma (a b : BitVec 5) (w : BitVec 8) (sl : BitVec 3) (sb : BitVec 1) : State → Out :=
  mxOp (.mma a b w sl sb) [.int a, .int b] w sl sb (fun _ _ => 0)
def execMldc (a b : BitVec 5) (w : BitVec 8) (sl : BitVec 3) (sb : BitVec 1) : State → Out :=
  mxOp (.mldc a b w sl sb) [.int a, .int b] w sl sb (fun _ _ => 0)
def execMzero (a : BitVec 5) (w : BitVec 8) (sl : BitVec 3) (sb : BitVec 1) : State → Out :=
  mxOp (.mzero a w sl sb) [.int a] w sl sb (fun _ _ => 0)
/-- MSTC rounds under bits 4–2 of B (R174); the records of OFMT A80 are not rounded. -/
def execMstc (a b : BitVec 5) (w : BitVec 8) (sl : BitVec 3) (sb : BitVec 1) : State → Out :=
  mxOp (.mstc a b w sl sb) [.int a, .int b] w sl sb
    (fun c v => if c.mg[8] = 0x1F then 0 else engineMode c (bits v.toNat 4 2))

/-! ### Commit groups -/

/-- Groups that are complete join the unreported status (R176). -/
def Context.settleGroups (c : Context) : Context :=
  { c with
    groups := c.groups.filter (fun g => g.left != 0)
    unrep := (c.groups.filter (fun g => g.left == 0)).foldl (fun u g => u ||| g.status) c.unrep }

def execMcommit : State → Out :=
  issue .mcommit 0 (do
    let s ← get
    waitIf (decide (8 ≤ s.me.groups.length)) .queue
    upd (fun s => s.updMe (fun c =>
      { c with groups := c.groups ++ [c.grpNow], grpNow := ⟨c.grpNow.id + 1, 0, 0⟩ }.settleGroups)))

def execMwait (a : BitVec 5) : State → Out :=
  issue (.mwait a) 0 (do
    prepare [.int a] (some (.int 0)) (fun _ => [])
    let s ← get
    waitIf (decide ((arg1 (s.values [.int a]) 0).toNat < s.me.groups.length)) .mwait
    upd (fun s => deliver (.int 0) .now [s.me.unrep.zeroExtend 64]
      ((consume [.int a] s).updMe (fun c => { c with unrep := 0 }))))

/-! ### Dependency slots -/

def execDwait (w : BitVec 8) : State → Out :=
  issue (.dwait w) 0 (do
    let s ← get
    waitIf ((List.range 8).any (fun k => w.getLsbD k && s.me.slots[regIx k] != 0)) .dwait)

/-- The counters, slot k in byte k. -/
def slotWord (c : Context) : W64 := BitVec.ofNat 64 (ofBytes c.slots.toList)

def execDstat : State → Out :=
  issue .dstat 0 (do
    prepare [] (some (.int 0)) (fun _ => [])
    upd (fun s => deliver (.int 0) .now [slotWord s.me] s))

/-! ### Commands that run: where they may read and write -/

/-- Earlier accesses of the context are performed and awaited commands complete (R161, R242). -/
def EngCmd.mayStart (e : EngCmd) (c : Nat) (s : State) : Bool :=
  e.dead || (e.deps.all (fun d => !(s.ctx c e.ctx).open_.any (fun o => o.1 == d)) && s.performed c e.ctx)

/-- A matrix group holds cores 8g to 8g + 7 (R11). -/
def sameMg (c d : Nat) : Bool := c / 8 == d / 8

/-- The `len` bytes from a local address lie in the scratchpad of a core of the matrix group (R166, R170). DESIGN CHOICE (log 58): a core
of the group that belongs to another VD counts as any other core, as no VD sees another's scratchpad (R216). -/
def localOk (s : State) (c addr len : Nat) : Bool :=
  let t := localTarget c (BitVec.ofNat 64 addr)
  sameMg c t.1 && (s.core t.1).vd == (s.core c).vd && decide (t.2 + len ≤ spmSize)

/-- Pages of global addresses, each once. -/
def pagesOf (addrs : List Nat) : List Nat := addrs.foldl (fun l a => if l.contains (a / 65536) then l else l ++ [a / 65536]) []

/-- What the translations of an engine's pages come to: every page with its number and the physical address it starts at, the
status that ends the command, the address of a write that the pagers hold (R167, R292), or an entry at a bank that is held (R371). -/
inductive Pages where
  | ok (pages : List (Nat × Nat))
  | fail (st : BitVec 16)
  | hold (va : Nat)
  | busy
  deriving DecidableEq, Repr

/-- The status bits FMT, RANGE, FAULT, MISMATCH (R162). -/
def stFmt : BitVec 16 := 0x20
def stRange : BitVec 16 := 0x40
def stFault : BitVec 16 := 0x80
def stMismatch : BitVec 16 := 0x100
def stOn (b : Bool) (x : BitVec 16) : BitVec 16 := if b then x else 0
/-- The status is that of a command that wrote nothing. -/
def stFailed (x : BitVec 16) : Bool := x &&& 0x1E0 != 0

/-- Every page translates at the slices of a die. -/
def translateAll (die vd : Nat) (k : AccessKind) : List Nat → State → State × Pages
  | [], s => (s, .ok [])
  | p :: r, s =>
    match walk s die vd (p * 65536 % 2 ^ 55) k with
    | (s1, .ok pa) =>
      match translateAll die vd k r s1 with
      | (s2, .ok l) => (s2, .ok ((p, pa) :: l))
      | x => x
    | (s1, .hold) => (s1, .hold (p * 65536 % 2 ^ 55))
    | (s1, .busy) => ({ s1.askWindow vd s1.stalled with stalled := [] }, .busy)
    | (s1, .fault _) => (s1, .fail stFault)

/-- The physical address of a global one whose page has been translated. -/
def paIn (pages : List (Nat × Nat)) (a : Nat) : Nat := (lookup (a / 65536) pages).getD 0 + a % 65536

/-- Lines of 64 bytes of physical addresses, each once. -/
def lineSet (pas : List Nat) : List Nat := dedup (pas.map (fun a => a / 64 * 64))

/-- Lines of 64 bytes in other packages among physical addresses. -/
def remoteLines (pkg : Nat) (pas : List Nat) : List Nat := lineSet (pas.filter (fun a => bits a 51 42 != pkg))

/-- A byte of a VD's memory by its physical address: from a line that was asked for beforehand, of another package or of a bank that was
held, else from its home. -/
def engineByte (s : State) (vd : Nat) (lines : List (Nat × Nat × Option (BitVec 512))) (pa : Nat) : Byte :=
  match lines.find? (fun l => l.2.1 == pa / 64 * 64) with
  | some (_, _, some v) => BitVec.ofNat 8 (v.toNat / 256 ^ (pa % 64))
  | _ =>
    if bits pa 51 42 ≠ s.pkg then 0
    else match s.place vd pa with
    | some p => s.readByte p
    | none =>
      match s.mgmtOff pa with
      | some o => BitVec.ofNat 8 ((s.mgmtRead o).toNat / 256 ^ (o % 8))
      | none => 0

/-- Runs of bytes at rising addresses within one line. -/
def lineRuns : List (Nat × Byte) → List (Nat × List Byte)
  | [] => []
  | (a, b) :: r =>
    match lineRuns r with
    | (a', bs) :: rest => if a' = a + 1 ∧ a' % 64 ≠ 0 then (a, b :: bs) :: rest else (a, [b]) :: (a', bs) :: rest
    | [] => [(a, [b])]

/-- A virtual address that translated to a physical one. -/
def vaIn (pages : List (Nat × Nat)) (pa : Nat) : Nat :=
  match pages.find? (fun p => p.2 / 65536 == pa / 65536) with
  | some p => (p.1 * 65536 + pa % 65536) % 2 ^ 55
  | none => 0

/-- Lines of other packages are asked for, by request, address and (later) answer (R324). -/
def askLines (pages : List (Nat × Nat)) (pas : List Nat) (s : State) : State × List (Nat × Nat × Option (BitVec 512)) :=
  (remoteLines s.pkg pas).foldl (fun acc a =>
    let n := acc.1.nextId
    ({ sendRequest n 1 (bits a 51 42) a 64 .none 0 0 .engine (vaIn pages a) acc.1 with nextId := n + 1 }, acc.2 ++ [(n, a, none)]))
    (s, [])

/-- The lines of this package among an engine's bytes, but those it has taken (R371). -/
def nearLines (lines : List (Nat × Nat × Option (BitVec 512))) (pas : List Nat) (s : State) : List Nat :=
  (lineSet (pas.filter (fun a => bits a 51 42 == s.pkg))).filter (fun a => !lines.any (fun l => l.2.1 == a) && (s.place s.here.vd a).isSome)

/-- The places of a line. -/
def State.linePlaces (s : State) (a : Nat) : List Place := s.places s.here.vd ((List.range 64).map (a + ·))

/-- The reads of an engine reach their banks: they wake their channels (R263); those of a bank that is held wait there (R371), and the
contributions to the others are recalled (R148). -/
def arriveLines (lines : List (Nat × Nat × Option (BitVec 512))) (pas : List Nat) (s0 : State) :
    State × List (Nat × Nat × Option (BitVec 512)) :=
  let ls := nearLines lines pas s0
  let s := s0.wakeBanks (ls.flatMap (fun a => (s0.linePlaces a).take 1))
  let busy := ls.filter (fun a => s.busy .read ((s.linePlaces a).take 1))
  let r := busy.foldl (fun (acc : State × List (Nat × Nat × Option (BitVec 512))) a =>
    match acc.1.linePlaces a with
    | [] => acc
    | p :: _ =>
      let n := acc.1.nextId
      ({ acc.1.post n s.here.vd (.engine s.cur.core) p 64 .read with nextId := n + 1 }, acc.2 ++ [(n, a, none)])) (s, [])
  (r.1.recall ((ls.filter (fun a => !busy.contains a)).flatMap s.linePlaces), r.2)

/-- The bytes of an engine go to memory: they arrive at their home, line by line, or leave in packets; what is not performed yet by its
numbers. -/
def engineWrite (pages : List (Nat × Nat)) (bs : List (Nat × Byte)) (s : State) : State × List Nat :=
  let here := bs.filter (fun x => bits x.1 51 42 == s.pkg)
  let n := s.nextId
  let s1 := arriveWrite n s.here.vd (.engine s.cur.core)
    (here.filterMap (fun x => (s.place s.here.vd x.1).map (fun p => (p, x.2)))) { s with nextId := n + 1 }
  let s2 := (lineRuns (here.filter (fun x => (s.place s.here.vd x.1).isNone))).foldl (fun s run =>
    match s.mgmtOff run.1 with
    | some o => mgmtStore o run.2 s
    | none => s) s1
  (lineRuns (bs.filter (fun x => bits x.1 51 42 != s.pkg))).foldl (fun acc run =>
    let n := acc.1.nextId
    ({ sendRequest n 3 (bits run.1 51 42) run.1 run.2.length .none run.2.length (BitVec.ofNat 512 (ofBytes run.2)) .engine
        (vaIn pages run.1) acc.1 with nextId := n + 1 }, acc.2 ++ [n])) (s2, if s2.waiting n then [n] else [])

/-- What a command does when its moment comes: it is done with a status and writes still to be performed, lines of it wait at banks, or an
entry of its walk does (R371), or the pagers hold its write (R292). -/
inductive EngRun where
  | done (s : State) (st : BitVec 16) (ids : List Nat)
  | lines (s : State) (ls : List (Nat × Nat × Option (BitVec 512)))
  | busy (s : State)
  | hold (s : State) (va : Nat)

/-- An engine has met an uncorrectable error: MCHK at the next boundary of its context, with the record (R162, R342). -/
def engineMchk (r : State × W64) : State := r.1.updMe (fun c => { c with mchk := c.mchk.or (some r.2) })

/-- An uncorrectable error in a scratchpad (source 1) or the tile memory (source 5) that an engine reads (R162, R342). -/
def engineBad (s : State) (addr : Nat) (source : Nat) : State :=
  engineMchk (s.errorRecord s.here.vd (BitVec.ofNat 64 addr) 0 source 4 (Config.syndrome s.errSeq).toNat s.cur.core s.cur.ctx.val)

/-- Lines of HBM fail under these places. -/
def engineFailed (s : State) (ps : List Place) : State :=
  engineMchk (s.wordRecord s.here.vd none ps 0 4 s.cur.core s.cur.ctx.val)

/-- A scratchpad byte by core and offset. -/
def spmByte (s : State) (c off : Nat) : Byte := Memory.read (s.core c).spm off

/-- The local address of a scratchpad byte, as core c has it (R134). -/
def localAddr (c owner off : Nat) : Nat :=
  if owner = c then 0x800000 + off
  else ((List.range 64).find? (fun i => curveOf (dieOf c) (clusterIn c) i == owner)).getD 0 * 2 ^ 17 + off

/-- A code word of a scratchpad fails under one of these bytes: its local address (R342). -/
def spmBad (s : State) (bytes : List (Nat × Nat)) : Option Nat :=
  (bytes.find? (fun b => (s.core b.1).bad.contains (b.2 / 8))).map (fun b => localAddr s.cur.core b.1 b.2)

/-- The places of an engine's bytes that it reads at their home now. -/
def State.nearPlaces (s : State) (lines : List (Nat × Nat × Option (BitVec 512))) (pas : List Nat) : List Place :=
  s.places s.here.vd (pas.filter (fun a => bits a 51 42 == s.pkg && !lines.any (fun l => l.2.1 == a / 64 * 64)))

end Sys2Proof.Machine
end

