-- ==== Sys2Proof/Machine/System.lean ====
section
/-! DEFINITION. System instructions (R103 to R110), ERET (R97) and the special registers (R33 to R36). -/

namespace Sys2Proof.Machine

def execNop (st : BitVec 3) : State → Out := issue (.nop st) st.toNat (pure ())

/-- TRAP (R104): $epc is the address of the next word (R95). -/
def execTrap (st : BitVec 3) (a : BitVec 5) : State → Out :=
  issue (.trap st a) st.toNat (do
    prepare [.int a] none (fun _ => [])
    upd (fun s =>
      let t := takeTrap Cause.trap (arg1 (s.values [.int a]) 0) (va55 (s.me.pc + 4)) (consume [.int a] s)
      { t with target := some t.me.pc }))

def execEret (st : BitVec 3) : State → Out := issue (.eret st) st.toNat (upd returnFromTrap)

/-- BREAK (R104): a debugger halts the context, or it traps. -/
def execBrk (st : BitVec 3) : State → Out :=
  issue (.brk st) st.toNat (fun s => if s.me.attached then .error (.halt 2) else .error (.trap Cause.brk 0))

/-! ### Special registers -/

/-- $time (R318). -/
def State.time (s : State) : W64 := s.myVd.b + (BitVec.ofNat 64 s.ring - s.myVd.q)

/-- The value GETS delivers (R33); a stride is kept sign-extended (R105). -/
def State.sreg (s : State) (n : Nat) : W64 :=
  let c := s.me
  let k := s.here
  match n with
  | 0 => BitVec.ofNat 64 s.cur.core
  | 1 => BitVec.ofNat 64 s.cur.ctx.val
  | 2 => s.time
  | 3 => BitVec.ofNat 64 k.clock
  | 4 => c.mode
  | 5 => c.flags
  | 6 => k.upv
  | 7 => k.upc
  | 8 => c.srh
  | 9 => c.sro
  | 10 => c.reply
  | 11 => k.feat
  | 12 => BitVec.ofNat 64 k.vd
  | 13 => (c.as[0]).signExtend 64
  | 14 => (c.as[1]).signExtend 64
  | 15 => (c.as[2]).signExtend 64
  | 16 => (c.as[3]).signExtend 64
  | 17 => c.btail.read s.now
  | 18 => (c.vtail.read s.now).extractLsb' 0 64
  | 19 => (c.vtail.read s.now).extractLsb' 64 64
  | 24 => c.epc
  | 25 => c.cause
  | 26 => c.tval
  | 27 => k.mxw
  | _ => 0

/-- A tail whose producer has not completed holds GETS back (R21, R105). -/
def State.tailDue (s : State) (n : Nat) : Bool :=
  (n == 17 && !(s.me.btail.settle s.now).pend.isEmpty) ||
    ((n == 18 || n == 19) && !(s.me.vtail.settle s.now).pend.isEmpty)

/-- An earlier LDX whose lanes are still to come will raise flags (R32, R140). -/
def Context.flagsDue (c : Context) : Bool := c.loads.any (fun l => match l.shape with
  | .lanes _ _ _ _ => true
  | _ => false)

def execGets (st : BitVec 3) (d a : BitVec 5) : State → Out :=
  issue (.gets st d a) st.toNat (do
    let s ← get
    waitIf (s.tailDue a.toNat || (a == 5 && s.me.flagsDue)) .interlock
    prepare [] (some (.int d)) (fun _ => [])
    upd (fun s => deliver (.int d) .now [s.sreg a.toNat] s))

/-- The register as PUTS leaves it (R32 to R34, R96, R105). -/
def putSreg (n : Nat) (v : W64) (s : State) : State :=
  match n with
  | 4 => s.updMe (fun c => { c with mode := v &&& 0x3F })
  | 5 => s.updMe (fun c => { c with flags := v &&& 0x1F })
  | 6 => s.updHere (fun k => { k with upv := v &&& 0xFFFFFFFFFFFFFFFC })
  | 7 => s.updHere (fun k => { k with upc := v &&& 1 })
  | 8 => s.updMe (fun c => { c with srh := v &&& 0xF })
  | 9 => s.updMe (fun c => { c with sro := v })
  | 13 => s.updMe (fun c => { c with as := c.as.set 0 (v.setWidth 32) })
  | 14 => s.updMe (fun c => { c with as := c.as.set 1 (v.setWidth 32) })
  | 15 => s.updMe (fun c => { c with as := c.as.set 2 (v.setWidth 32) })
  | 16 => s.updMe (fun c => { c with as := c.as.set 3 (v.setWidth 32) })
  | 24 => s.updMe (fun c => { c with epc := v })
  | 25 => s.updMe (fun c => { c with cause := v &&& 0x80000000000000FF })
  | 26 => s.updMe (fun c => { c with tval := v })
  | 27 => s.updHere (fun k => { k with mxw := if v &&& 0xF = 0 then 1 else v &&& 0xF })
  | _ => s

def execPuts (st : BitVec 3) (a b : BitVec 5) : State → Out :=
  issue (.puts st a b) st.toNat (do
    let s ← get
    waitIf (a == 5 && s.me.flagsDue) .interlock
    prepare [.int b] none (fun s =>
      if a = 4 ∧ 6 ≤ (arg1 (s.values [.int b]) 0 &&& 7).toNat then
        [Cand.ill ((wordOf (.puts st a b)).zeroExtend 64)] else [])
    upd (fun s => putSreg a.toNat (arg1 (s.values [.int b]) 0) (consume [.int b] s)))

/-! ### Fences -/

/-- FENCE (R106): at every scope the earlier accesses of the context have been performed and acknowledged; at DOMAIN the lines of other
packages go (R234). -/
def execFence (st : BitVec 3) (a : BitVec 5) : State → Out :=
  issue (.fence st a) st.toNat (do
    let s ← get
    waitIf (!s.performed s.cur.core s.cur.ctx.val) .fence
    upd (fun s => if a = 4 then s.dropFar s.cur.core else s))

/-- The fetches that a core has under way bring lines it will not keep (R231). -/
def staleFetches (p : RemoteReq → Bool) (s : State) : State :=
  { s with link := { s.link with reqs := s.link.reqs.map (fun r => match r.kind with
      | .fetch l _ => if p r then { r with kind := .fetch l true } else r
      | _ => r) } }

/-- IFENCE (R106, R231): the lines of the core's L1 instruction cache go, and those on their way; a repetition buffer stays. -/
def execIfence (st : BitVec 3) : State → Out :=
  issue (.ifence st) st.toNat (upd (fun s =>
    staleFetches (fun r => r.core == s.cur.core) (s.updHere (fun k => { k with icache := [] }))))

/-! ### WAITA, FFLAG, SLEEPR -/

/-- WAITA (R107): a read that finds B leaves the context waiting for a write to the line; the next read is a new one. It completes as an
acquire (R234). -/
def execWaita (st : BitVec 3) (d a b : BitVec 5) : State → Out :=
  let srcs := [Opnd.int a, Opnd.int b]
  issue (.waita st d a b) st.toNat (do
    prepare srcs (some (.int d)) (fun s => alignCands (va55 (arg1 (s.values srcs) 0)).toNat 8)
    let s ← get
    let vs := s.values srcs
    let r ← loadGlobal (va55 (arg1 vs 0)).toNat 8 .load
    match r.1 with
    | .bytes bs => do
      let t ← get
      if BitVec.ofNat 64 (ofBytes bs) = arg1 vs 1 then
        stop (.keepWait (t.updMe (fun c => { c with ask := none, answer := none })) (.waita r.2))
    | .bad _ => pure ()
    upd (fun s => deliverLoaded (.int d) r.1 (fun bs => [BitVec.ofNat 64 (ofBytes bs)]) (acquire true (consume srcs s))))

/-- Part of the access goes to the package. -/
def Target.reaches (own pkg : Nat) : Target → Bool
  | .remote p _ _ => p == pkg
  | .two _ a b => a.reaches own pkg || b.reaches own pkg
  | .spm _ _ _ => false
  | _ => own == pkg

/-- What an FFLAG to a package waits for (R108): the stores and atomics of the context that went there, or wait at banks of it, and are
not performed, and its parked stores to it. -/
def flagAwaits (pkg : Nat) (s : State) : List Nat :=
  (s.me.remote.filter (fun r => r.2 == pkg)).map (·.1) ++
    (s.me.loads.filter (fun l => l.atomic && l.target.reaches s.pkg pkg)).map (·.tag) ++
    (s.me.parked.filter (fun p => p.target.reaches s.pkg pkg)).flatMap (fun p => [p.id, p.id + 1])

/-- FFLAG with an address (R108): the store leaves now, or once its package has acknowledged the earlier stores and atomics to it. -/
def flagStore (t : Target) (va : Nat) (v : W64) (s : State) : State :=
  let pkg := match t with
    | .remote pkg _ _ => pkg
    | _ => s.pkg
  match flagAwaits pkg s with
  | [] => storeTarget t va (bytesOf 8 v.toNat) s
  | is => park va (bytesOf 8 v.toNat) t none is (s.before t) s

def execFflag (st : BitVec 3) (a b : BitVec 5) : State → Out :=
  if a = 31 then
    issue (.fflag st a b) st.toNat (do
      prepare [.int b] none (fun _ => [])
      upd (fun s =>
        let v := arg1 (s.values [.int b]) 0
        (consume [.int b] s).updMe (fun c => { c with flags := c.flags &&& ~~~(v &&& 0x1F) })))
  else
    let srcs := [Opnd.int a, Opnd.int b]
    issue (.fflag st a b) st.toNat (do
      prepare srcs none (fun s => alignCands (va55 (arg1 (s.values srcs) 0)).toNat 8)
      let s ← get
      let vs := s.values srcs
      let va := (va55 (arg1 vs 0)).toNat
      let t ← reach va 8 .store
      checkWatch va 8 false true
      upd (fun s => flagStore t va (arg1 vs 1) (consume srcs s)))

/-- SLEEPR (R109): only a write to $reply after the context fell asleep ends the sleep. -/
def execSleepr (st : BitVec 3) (d : BitVec 5) : State → Out :=
  issue (.sleepr st d) st.toNat (do
    prepare [] (some (.int d)) (fun _ => [])
    let s ← get
    match s.me.sleep with
    | some true => upd (fun s => deliver (.int d) .now [s.me.reply] (s.updMe (fun c => { c with sleep := none })))
    | some false => stop (.wait .reply)
    | none => stop (.keepWait (s.updMe (fun c => { c with sleep := some false })) .reply))

/-! ### TINV -/

/-- The control word of TINV covers a cached translation of a page (R110, R286: G is bit 6 of the leaf). -/
def tinvCovers (page ctl : W64) (vd pageNo : Nat) (big g : Bool) : Bool :=
  vd == bits ctl.toNat 5 0 &&
    (if ctl.getLsbD 6 then !g || ctl.getLsbD 7
     else if big then pageNo / 8192 == bits page.toNat 54 29 else pageNo == bits page.toNat 54 16)

/-- The control word covers a code line of a core, by the tag of its translation (R217, R289): a line without one is of 64 KiB and not
global. -/
def Core.codeStale (k : Core) (page ctl : W64) (line : Nat) : Bool :=
  let t := (lookup line k.itags).getD (false, false)
  tinvCovers page ctl k.vd (line / 1024) t.1 t.2

/-- R110, R291: the translations go, the lines of L1 data caches tagged with them (update-only ones are merged), those of the L1 instruction
caches, and the lines of the VD that are on their way to either. -/
def invalidate (page ctl : W64) (s : State) : State :=
  let vd := bits ctl.toNat 5 0
  let lines := s.cores.flatMap (fun e => (e.2.l1.filter (fun l =>
    tinvCovers page ctl l.vd (l.line / 1024) l.big l.g)).map (fun l => (e.1, l)))
  let s1 := lines.foldl (fun s e => s.evictLine e.1 e.2) { s with
    tlb := s.tlb.filter (fun t => !tinvCovers page ctl t.vd t.page t.big (t.leaf.getLsbD 6)) }
  staleFetches (fun r => r.vd == vd) { s1 with
    cores := s1.cores.map (fun e => (e.1, if e.2.vd = vd then { e.2 with
      icache := e.2.icache.filter (fun w => !e.2.codeStale page ctl (w.1 / 16))
      ctxs := e.2.ctxs.map (fun (m : Context) => { m with loads := m.loads.map (fun (l : Load) => { l with fill := false }) }) } else e.2)) }

/-- The bytes of a scratchpad, which no translation names. -/
def Target.isSpm : Target → Bool
  | .spm _ _ _ => true
  | _ => false

/-- An access that has translated and is not yet performed uses a page the TINV names (R291); pages of 512 MiB are compared, which a
leaf may map. What waits at a bank under no address of a context counts for its VD, or, from the device, for every VD. -/
def State.usesPage (s : State) (page ctl : W64) : Bool :=
  let on (vd va : Nat) : Bool := tinvCovers page ctl vd (va / 65536) true false
  let whole (vd : Nat) : Bool := vd == bits ctl.toNat 5 0
  s.link.reqs.any (fun r => on r.vd r.va) ||
    s.cores.any (fun e => e.2.ctxs.toList.any (fun c => c.parked.any (fun p => !p.target.isSpm && on p.vd p.va) ||
      c.loads.any (fun l => !l.target.isSpm && on e.2.vd l.va))) ||
    s.ranks.any (fun e => e.2.pending.any (fun q => match q.user with
      | .context _ _ line => on q.vd (line * 64)
      | .merge _ | .engine _ => whole q.vd
      | .nobody => q.op.writes && (q.vd == 0 || whole q.vd)
      | .packet _ | .gather => false))

/-- TINV is a release at PACKAGE scope; the context goes on after TINV_COMPLETE. -/
def execTinv (st : BitVec 3) (a b : BitVec 5) : State → Out :=
  let srcs := [Opnd.int a, Opnd.int b]
  issue (.tinv st a b) st.toNat (do
    prepare srcs none (fun _ => [])
    let s ← get
    waitIf (!s.performed s.cur.core s.cur.ctx.val) .fence
    upd (fun s =>
      let vs := s.values srcs
      (invalidate (arg1 vs 0) (arg1 vs 1) (consume srcs s)).updMe (fun c =>
        { c with tinv := some (arg1 vs 0, arg1 vs 1) })))

end Sys2Proof.Machine
end

