-- ==== Sys2Proof/Machine/CoreEvents.lean ====
section
/-! DEFINITION. Events at the contexts of a core: results and fetches, translation, holds and faults with their answers (R98 to
R102, R135, R287, R291 to R295), ports (R151, R153), and the special-function unit (R120). -/

namespace Sys2Proof.Machine

/-! ### Results, fetches, acknowledgements -/

/-- RESULT_DELIVERY (R21): results that are ready by now stand in their slots and registers. -/
def execResultDelivery (core ctx : Nat) : State → Out := fun s =>
  .next (s.updCtx core ctx (·.settleAll (s.core core).clock))

/-- INSTRUCTION_FETCH_RETURN (R87): the context has its next word; a word of a repetition buffer is not fetched again (R58). -/
def execInstructionFetchReturn (core ctx : Nat) : State → Out := fun s =>
  if (s.ctx core ctx).status ≠ .live ∨ (s.ctx core ctx).pfault.isSome ∨ 4224 ≤ core ∨ 10 < ctx then .next s
  else .next (asContext core ctx (fun s =>
    match nextWord s with
    | .ok (_, t) => t
    | .error e => stopAt s e) s)

/-- PAGE_WALK (R287): a slice of the core's die walks, sets A and D, and holds the translation. -/
def execPageWalk (core vd : Nat) (va : BitVec 55) (k : AccessKind) : State → Out := fun s =>
  .next (whenServed (fun s => (walk s (dieOf core) vd va.toNat k).1) s)

/-- TRANSLATION_ACK (R135): the context waits for the slice no longer. -/
def execTranslationAck (core ctx : Nat) : State → Out := fun s =>
  .next (s.updCtx core ctx (fun c => if c.wait = some .hold then { c with wait := none } else c))

/-- WAITA_REREAD (R107): the next try of the WAITA reads anew. -/
def execWaitaReread (core ctx : Nat) : State → Out := fun s =>
  .next (s.updCtx core ctx (fun c => match c.wait with
    | some (.waita _) => { c with wait := none }
    | _ => c))

/-- HOME_ACKNOWLEDGEMENT (R136). -/
def execHomeAcknowledgement (core ctx : Nat) : State → Out := fun s =>
  .next (s.updCtx core ctx (fun c => { c with unacked := c.unacked - 1 }))

/-- PBIND_ACKNOWLEDGEMENT (R151): the partner is bound back, and the PBIND completes. -/
def execPbindAcknowledgement (core ctx : Nat) : State → Out := fun s =>
  match (s.ctx core ctx).pbind with
  | none => .next s
  | some (p, x) =>
    let s1 := s.updCtx core ctx (fun c => { c with pbind := none })
    match ((s1.core core).ctx x).ports[ptrIx p].dest with
    | some d => .next (bindBack d ⟨(s.core core).origin, x, p⟩ s1)
    | none => .next s1

/-- SFU_REQUEST_COMPLETE (R120): the oldest request delivers; a killed one only leaves. -/
def execSfuRequestComplete (core : Nat) : State → Out := fun s =>
  match (s.core core).sfu with
  | [] => .next s
  | q :: r =>
    let s1 := s.updCore core (fun k => { k with sfu := r })
    .next (if q.dead then s1 else asContext core q.ctx (deliverTag q.tag (ofV q.result)) s1)

/-! ### Ports -/

/-- A word in flight has its value, and no earlier word of its sender's port, and no spilled word to its queue (R300), before it. -/
def firstOfPort (ms : List PortMsg) (n : Nat) : Bool :=
  match ms[n]? with
  | none => false
  | some m => m.due.isNone && (ms.take n).all (fun x =>
      (decide (x.src ≠ m.src) || x.port != m.port) && (!x.spilled || decide (x.dst ≠ m.dst)))

/-- A word is diverted to the spill queue of its origin (R297, R300): its values follow those already in the save area (R305). -/
def divert (vd : Nat) (m : PortMsg) (s : State) : State :=
  let v := s.vd vd
  let old := (lookup m.dst.core v.spill).getD []
  let at_ := v.desc.savebase.toNat + v.desc.ilen * 262144 + (m.dst.core - v.desc.ibase) * 65536 + 8 * ((old.map (·.words.length)).sum)
  (s.devWrite at_ (m.words.flatMap (fun w => bytesOf 8 w.toNat))).updVd vd (fun v => { v with spill := put m.dst.core (old ++ [m]) v.spill })

/-- A word for a saved core counts as received in its image (R300). -/
def countSaved (vd origin : Nat) (s : State) : State :=
  match lookup origin (s.vd vd).saved with
  | none => s
  | some x => patchImage vd origin 0x40 (bytesOf 8 (x.rcvd + 1).toNat)
      (s.updVd vd (fun v => { v with saved := put origin { x with rcvd := x.rcvd + 1 } v.saved }))

/-- PORT_WORD_ARRIVAL (R153, R281, R300): the words enter the partner's queue, are diverted to the spill queue of a core that is
pre-empted or stopped, or reach an unbound port and are gone. A word counts as received in each case. -/
def execPortWordArrival (n : Nat) : State → Out := fun s =>
  match s.inflight[n]? with
  | none => .next s
  | some m =>
    if !firstOfPort s.inflight n then .next s
    else
      let s1 := { s with inflight := s.inflight.eraseIdx n }
      let c := s.route m.dst.core
      let k := s.core c
      if s.diverts m.dst.core then
        if 8192 < ((((lookup m.dst.core (s.vd k.vd).spill).getD []).map (·.words.length)).sum) + m.words.length then .next s
        else .next ((if m.node.isSome then countSaved k.vd m.dst.core else id) (divert k.vd m s1))
      else
        let p := (k.ctx m.dst.ctx).ports[ptrIx m.dst.port]
        let s2 := s1.updCore c (fun x => if m.node.isSome then { x with rcvd := x.rcvd + 1 } else x)
        if p.dest.isNone then .next s2
        else if 16 < p.queue.length + m.words.length then .next s
        else .next (s2.updCore c (setPort m.dst.ctx m.dst.port { p with queue := p.queue ++ m.words }))

/-! ### Holds (R292 to R294) -/

/-- A held access to a page that the pagers answer. -/
def Hold.answered (page : Nat → Bool) (ok : Bool) (h : Hold) : Hold :=
  if h.answer.isNone && page (h.va.toNat / 65536) then { h with answer := some ok } else h

/-- Contexts, commands and completion words of a VD whose held access lies on a page are answered; words that can leave now do. -/
def answerHolds (vd : Nat) (page : Nat → Bool) (ok : Bool) (s : State) : State :=
  let cmd (e : EngCmd) : EngCmd := { e with held := e.held.map (·.answered page ok) }
  let s1 := s.updVd vd (fun v => { v with
    cmds := v.cmds.map (fun c => { c with held := c.held.map (·.answered page ok) })
    late := v.late.map (fun w => { w with held := w.held.map (·.answered page ok) }) })
  flushLate vd { s1 with cores := s1.cores.map (fun e =>
      if e.2.vd = vd then (e.1, { e.2 with
        copies := e.2.copies.map cmd
        mx := e.2.mx.map cmd
        ctxs := e.2.ctxs.map (fun c => match c.hold with
          | some h => if h.answer.isNone && page (h.va.toNat / 65536) then { c with hold := some (h.answered page ok), wait := none } else c
          | none => c) })
      else e) }

/-- The leaf of a page as the pagers read it: whether it maps 512 MiB, and whether nothing holds a write to it any more. -/
def leafAt (vd page : Nat) (s : State) : State × Bool × Bool :=
  match walkLevels (page * 65536) 3 s (s.vd vd).desc.ptroot.toNat with
  | (s1, .none) => (s1, false, true)
  | (s1, .at_ _ e big) => (s1, big, !bit e 7 && !bit e 8)

/-- Accesses of a core that the pagers hold. -/
def Core.holds (k : Core) : List Hold :=
  (k.ctxs.toList.filterMap (·.hold)) ++ (k.copies.filterMap (·.held)) ++ k.mx.filterMap (·.held)

/-- Held pages of a VD. -/
def heldPages (s : State) (vd : Nat) : List Nat :=
  dedup ((((s.cores.filter (fun e => e.2.vd == vd)).flatMap (·.2.holds) ++ (s.vd vd).cmds.filterMap (·.held) ++
    (s.vd vd).late.filterMap (·.held)).filter (·.answer.isNone)).map (fun h => h.va.toNat / 65536))

/-- TINV_COMPLETE (R291, R294): once no access under an invalidated translation is unperformed the TINV is over, and held writes to
the pages it covers are walked again. -/
def execTinvComplete (core ctx : Nat) : State → Out := fun s =>
  match (s.ctx core ctx).tinv with
  | none => .next s
  | some (page, ctl) =>
    if s.usesPage page ctl then .next s
    else .next (whenServed (fun s =>
      let vd := bits ctl.toNat 5 0
      let s1 := s.updCtx core ctx (fun c => { c with tinv := none })
      let r := (heldPages s1 vd).foldl (fun (acc : State × List Nat) p =>
        let l := leafAt vd p acc.1
        (l.1, if tinvCovers page ctl vd p l.2.1 false && l.2.2 && !s1.revokes vd (p * 65536) then p :: acc.2 else acc.2)) (s1, [])
      answerHolds vd r.2.contains true r.1) s)

/-- The master package of a read-duplicated page (R293). -/
def masterOf (e : Nat) : Nat := bits e 53 52 * 256 + bits e 63 56

/-- The entry after a revocation: DUP is clear; a duplicate maps the master copy, with W, at a page frame that the master's
pagers name and the manual does not (log 5). -/
def revoked (s : State) (e : Nat) (big : Bool) : Nat :=
  let e1 := e &&& (2 ^ 64 - 1 - (2 ^ 7 + 3 * 2 ^ 52))
  if masterOf e = s.pkg then e1
  else
    let frame := if big then bits (Config.freeAddr s.nextId).toNat 41 29 * 2 ^ 29 else bits (Config.freeAddr s.nextId).toNat 41 16 * 2 ^ 16
    (e1 &&& (2 ^ 64 - 1 - (2 ^ 52 - 2 ^ 16))) ||| (masterOf e * 2 ^ 42 + frame) ||| 4

/-- R293: a revocation is refused if a holder is lost. The master is a holder; of the others the pagers know and the manual's state
does not tell (log 5). -/
def revocationRefused (s : State) (master : Nat) : Bool :=
  s.link.lost.contains master || (s.link.lost != [] && Config.holderLost s.nextId)

/-- The entry of a page is rewritten and its translations are invalidated (R293). -/
def rewriteLeaf (vd va a e : Nat) (big : Bool) (s : State) : State :=
  invalidate (BitVec.ofNat 64 va) (BitVec.ofNat 64 (vd % 64 + 128))
    { s.devWrite a (bytesOf 8 (revoked s e big)) with nextId := s.nextId + 1 }

/-- DUP_REVOCATION (R293): the first opens the revocation of a page, and a holder that is not the master rewrites its entry and
acknowledges; the next says that every acknowledgement has arrived, or that a holder was lost: the master clears DUP, and held writes are
serviced, or refused. -/
def dupRevocation (vd va : Nat) (s0 : State) : State :=
  let p := va / 65536
  match walkLevels va 3 s0 (s0.vd vd).desc.ptroot.toNat with
  | (s, .none) => s
  | (s, .at_ a e big) =>
    match (s.vd vd).revoking.find? (fun r => samePage r.big r.page p) with
    | some r =>
      let s1 := { s.updVd vd (fun v => { v with revoking := v.revoking.erase r }) with nextId := s.nextId + 1 }
      if revocationRefused s r.master then answerHolds vd (samePage big p) false s1
      else answerHolds vd (samePage big p) true (if bit e 7 then rewriteLeaf vd va a e big s1 else s1)
    | none =>
      if !bit e 7 then s
      else if revocationRefused s (masterOf e) then answerHolds vd (samePage big p) false { s with nextId := s.nextId + 1 }
      else
        let s1 := s.updVd vd (fun v => { v with revoking := v.revoking ++ [⟨p, big, masterOf e⟩] })
        if masterOf e = s.pkg then s1 else rewriteLeaf vd va a e big s1

def execDupRevocation (vd : Nat) (va : BitVec 55) : State → Out := fun s => .next (whenServed (dupRevocation vd va.toNat) s)

/-! ### Faults and their answers (R98 to R102, R295) -/

def Vd.ringSize (v : Vd) : Nat := 2 ^ v.desc.frlog

/-- FAULT_RING_ENTRY (R295): the oldest fault not yet placed takes the next entry, once its last fault has been answered. -/
def execFaultRingEntry (vd : Nat) : State → Out := fun s =>
  let v := s.vd vd
  match v.faults.find? (fun f => f.slot.isNone) with
  | none => .next s
  | some f =>
    if v.faults.any (fun g => g.slot.any (fun k => decide (k + v.ringSize ≤ v.frpos))) then .next s
    else
      let slot := v.frpos
      let s1 := (s.ringEntry vd (f.bytes ++ List.replicate (64 - f.bytes.length) 0)).1
      let s2 := s1.updVd vd (fun v => { v with
        faults := v.faults.map (fun g => if g.slot = none ∧ g = f then { g with slot := some slot } else g) })
      .next (s2.interrupt vd 1)

/-- A value written to $reply (R101, R109): a sleeping SLEEPR wakes; a context asleep in a fault issues again, or traps. -/
def writeReply (c x : Nat) (v : W64) (s : State) : State :=
  let m := s.ctx c x
  let s1 := s.updCtx c x (fun m => { m with
    reply := v, sleep := if m.sleep = some false then some true else m.sleep, pfault := none
    wait := if m.pfault.isSome || m.sleep.isSome then none else m.wait })
  match m.pfault with
  | some f => if v = 0 then s1 else asContext c x (fun s => takeTrap f.cause.toNat f.va m.pc s) s1
  | none => s1

/-- Pager notices on their way to p3 of the control context enter its queue while there is room. DESIGN CHOICE (log 60): one that
meets a full queue is held; one that finds $upc bit 0 clear is dropped (R100). -/
def flushNotices (core : Nat) : Nat → State → State
  | 0, s => s
  | n + 1, s =>
    match (s.core core).notices with
    | [] => s
    | v :: r =>
      let p := ((s.core core).ctx 0).ports[ptrIx 3]
      let s1 := s.updCore core (fun k => { k with notices := r })
      if !(s.core core).upc.getLsbD 0 then flushNotices core n s1
      else if p.queue.length < 16 then flushNotices core n (s1.updCore core (setPort 0 3 { p with queue := p.queue ++ [v] }))
      else s

/-- A pager notice (R100, R102): its word enters p3's queue while $upc bit 0 is 1. -/
def notice (core : Nat) (v : W64) (s : State) : State :=
  let s1 := s.updCore core (fun k => { k with notices := k.notices ++ [v] })
  flushNotices core (s1.core core).notices.length s1

/-- The number a saved core's state stands under while something acts on it. -/
def parkedCore : Nat := 8192

/-- Acts on the core that carries an origin curve number now, or on its saved image, whose $reply and p3 then stand in the save area
too (R295, R299). -/
def onOrigin (vd origin : Nat) (f : Nat → State → State) (s : State) : State :=
  match lookup origin (s.vd vd).saved with
  | some k =>
    let s1 := f parkedCore (s.setCore parkedCore k)
    let k1 := s1.core parkedCore
    let s2 := { s1.updVd vd (fun v => { v with saved := put origin k1 v.saved }) with cores := drop parkedCore s1.cores }
    let s3 := (List.range 11).foldl (fun s x =>
      if (k1.ctx x).reply = (k.ctx x).reply then s
      else patchImage vd origin (0x1000 * (x + 1) + 0x620) (bytesOf 8 (k1.ctx x).reply.toNat) s) s2
    if (k1.ctx 0).ports[ptrIx 3] = (k.ctx 0).ports[ptrIx 3] then s3
    else patchImage vd origin (0x1640 + 0x90 * 3) (portBytes s.pkg (k1.ctx 0).ports[ptrIx 3]) s3
  | none => f (s.route origin) s

/-- An answer as the pagers deliver it. -/
def answerCode (a : Nat) : Nat := if a % 256 = 0 then 0 else if a % 256 = 8 ∨ a % 256 = 9 then a % 256 else 9

/-- The word of a notice. -/
def noticeWord (h seq : Nat) (refused : Bool) : W64 := BitVec.ofNat 64 (h % 16 + (if refused then 256 else 0) + seq % 2 ^ 32 * 2 ^ 32)

/-- PAGER_ANSWER (R295): the ANSWER of fault-ring entry n is delivered. -/
def execPagerAnswer (vd n : Nat) : State → Out := fun s =>
  let v := s.vd vd
  match v.faults.find? (fun f => f.slot.any (fun k => k % v.ringSize == n)) with
  | none => .next s
  | some f =>
    .next (whenServed (fun s =>
      match s.devRead (v.desc.fltring.toNat + 64 * n + 40) 8 with
      | (s, none) => s
      | (s, some a) =>
        if !bit a 63 then s
        else
          let s1 := s.updVd vd (fun v => { v with faults := v.faults.filter (fun g => g != f) })
          let code := answerCode a
          if f.h = 255 then s1
          else if f.upcall then onOrigin vd f.core (fun c => notice c (noticeWord f.h f.seq (code != 0))) s1
          else onOrigin vd f.core (fun c => writeReply c f.ctx (BitVec.ofNat 64 code)) s1) s)

/-- PAGER_REPLY (R101). -/
def execPagerReply (core ctx : Nat) (v : BitVec 64) : State → Out := fun s =>
  .next (if core < 4224 ∧ ctx ≤ 10 then writeReply core ctx v s else s)

def execPagerNotice (core : Nat) (v : BitVec 64) : State → Out := fun s => .next (if core < 4096 then notice core v s else s)

/-- R99: the control context can be diverted at this boundary; SAVEH and KILLH block it until they are done (R93). DESIGN CHOICE
(log 61): a control context whose HALT still drains can be diverted too. -/
def upcallReady (s : State) (core : Nat) : Bool :=
  let k := s.core core
  let c := k.ctx 0
  k.recs.length != 0 && !k.upcall && decide (c.status = .live) && !c.sup && c.rep.isNone && c.pfault.isNone && c.sleep.isNone &&
    c.tinv.isNone && c.pbind.isNone && !c.dhalt && c.wait != some .helper && decide (k.mode = .running)

/-- UPCALL_DELIVERY (R99). DESIGN CHOICE (log 61): writes to n0 and n1 that are still on their way are older than the upcall's values
and are lost; the frame holds what n0 and n1 hold now, and UPRET restores that. -/
def deliverUpcall (core : Nat) (s : State) : State :=
  match (s.core core).recs with
  | [] => s
  | r :: rest =>
    asContext core 0 (fun s =>
      let c := s.me
      let frame := bytesOf 8 c.pc.toNat ++ bytesOf 8 ((c.reg 0).read s.now).toNat ++ bytesOf 8 ((c.reg 1).read s.now).toNat ++
        bytesOf 8 0
      let s1 := (s.withdrawAll core 0).spmWrite core frameOff frame
      let s2 := writeReg .now 1 (BitVec.ofNat 64 (0x800000 + recOff r.h)) (writeReg .now 0 (BitVec.ofNat 64 r.h) s1)
      (s2.updHere (fun k => { k with upcall := true, upslot := true, recs := rest })).updMe (fun c =>
        { c.unissued with pc := va55 s.here.upv, bound := s.now })) s

def execUpcallDelivery (core : Nat) : State → Out := fun s => .next (if upcallReady s core then deliverUpcall core s else s)

end Sys2Proof.Machine
end

