-- ==== Sys2Proof/Machine/Rank.lean ====
section
/-! DEFINITION. The Melwen instructions (R191 to R212). Ill-formed words fault before they reach a meaning here. -/

namespace Sys2Proof.Machine

/-- How a Melwen instruction can end without its own effect. -/
inductive RankStop where
  | fault (code : Nat)
  | wait (w : RankWait)
  /-- it waits, and has joined a course or made an arrival -/
  | keep (s : State) (w : RankWait)
  /-- its read meets an uncorrectable error (R342) -/
  | lost (p : Place)

def State.rk (s : State) : Rank := s.rank s.cur.rank

/-- The shape of every Melwen meaning. -/
def rankIssue (f : State → Except RankStop State) (s : State) : Out :=
  match f s with
  | .ok t => .next t
  | .error (.fault c) => .next (rankFault s.cur.rank c s)
  | .error (.wait w) => .next (rankWait w s.cur.rank s)
  | .error (.keep t w) => .next (rankWait w s.cur.rank t)
  | .error (.lost p) => .next (loseRank s.cur.rank (s.wordRecord ((s.rk.run.map (·.vd)).getD 0) none [p] 0 5 0xFFFFFFFF 0xFF).1)

/-- The instruction completes after `cost` ns at word `upc`; a row boundary, or 192 ns since the last check, is a check. The end of a
wait that left the bank counts as one too (R271). -/
def rankDone (cost upc : Nat) (boundary : Bool) (f : Rank → Rank) (s : State) : State :=
  let s1 := s.updRank s.cur.rank (fun k =>
    { f k with upc := upc, wait := none, ns := k.ns + cost,
               timer := (if k.wait.any (· != .overlay) then 0 else k.timer) + cost })
  if boundary || decide (192 ≤ s1.rk.timer) then checkBank s.cur.rank s1 else s1

/-- An instruction that only changes registers. -/
def rankStep (cost : Nat) (f : Rank → Rank) : State → Out :=
  rankIssue (fun s => .ok (rankDone cost (s.rk.upc + 1) false f s))

/-! ### Scalar and branch instructions (R195, R196) -/

def scalarOp (x y z : BitVec 4) (f : Word → Word → Word) : State → Out :=
  rankStep 1 (fun k => k.setS x.toNat (f (k.getS y.toNat) (k.getS z.toNat)))

/-- The 18-bit immediate Y:IMM14. -/
def imm18 (y : BitVec 4) (i : BitVec 14) : BitVec 18 := y ++ i

def execSli (x y : BitVec 4) (i : BitVec 14) : State → Out :=
  rankStep 1 (fun k => k.setS x.toNat ((imm18 y i).signExtend 32))
def execSlih (x y : BitVec 4) (i : BitVec 14) : State → Out :=
  rankStep 1 (fun k => k.setS x.toNat (imm18 y i ++ (k.getS x.toNat).extractLsb' 0 14))
def execSadd (x y z : BitVec 4) : State → Out := scalarOp x y z (· + ·)
def execSaddi (x y : BitVec 4) (i : BitVec 14) : State → Out :=
  rankStep 1 (fun k => k.setS x.toNat (k.getS y.toNat + i.signExtend 32))
def execSsub (x y z : BitVec 4) : State → Out := scalarOp x y z (· - ·)
def execSand (x y z : BitVec 4) : State → Out := scalarOp x y z (· &&& ·)
def execSor (x y z : BitVec 4) : State → Out := scalarOp x y z (· ||| ·)
def execSxor (x y z : BitVec 4) : State → Out := scalarOp x y z (· ^^^ ·)
def execSshl (x y z : BitVec 4) : State → Out := scalarOp x y z (fun a b => a <<< (b.toNat % 32))
def execSshr (x y z : BitVec 4) : State → Out := scalarOp x y z (fun a b => a >>> (b.toNat % 32))
def execSmul (x y z : BitVec 4) : State → Out := scalarOp x y z (· * ·)
def execSclt (x y z : BitVec 4) : State → Out := scalarOp x y z (fun a b => if a.slt b then 1 else 0)

/-- A branch: a target outside words 0 to 1,023 faults only when it is taken (R192, R196). -/
def branch (taken : Rank → Bool) (i : BitVec 14) (f : Rank → Rank) : State → Out :=
  rankIssue (fun s =>
    let t : Int := s.rk.upc + i.toInt
    if taken s.rk then
      if t < 0 ∨ 1023 < t then .error (.fault 4) else .ok (rankDone 1 t.toNat false f s)
    else .ok (rankDone 1 (s.rk.upc + 1) false f s))

def execSbz (x : BitVec 4) (i : BitVec 14) : State → Out := branch (fun k => k.getS x.toNat == 0) i id
def execSbnz (x : BitVec 4) (i : BitVec 14) : State → Out := branch (fun k => k.getS x.toNat != 0) i id
def execSj (i : BitVec 14) : State → Out := branch (fun _ => true) i id
/-- SLOOP tests the decremented value, on s0 too, whose write is discarded (R189). -/
def execSloop (x : BitVec 4) (i : BitVec 14) : State → Out :=
  branch (fun k => k.getS x.toNat - 1 != 0) i (fun k => k.setS x.toNat (k.getS x.toNat - 1))

/-! ### Cursors, VLD and VST (R197, R198) -/

def cIx (x : BitVec 4) : Fin 4 := Fin.ofNat 4 x.toNat
def vIx (x : BitVec 4) : Fin 8 := Fin.ofNat 8 x.toNat

def execCset (x y : BitVec 4) (c : BitVec 5) : State → Out :=
  rankStep 1 (fun k => { k with c := k.c.set (cIx x) { k.c[cIx x] with row := (k.getS y.toNat).extractLsb' 0 16, col := c } })
def execCstride (x : BitVec 4) (i : BitVec 14) : State → Out :=
  rankStep 1 (fun k => { k with c := k.c.set (cIx x) { k.c[cIx x] with stride := i.signExtend 16 } })

def Cursor.nextRow (c : Cursor) : Cursor := { c with row := c.row + c.stride, col := 0 }

/-- CNEXT marks a row boundary. -/
def execCnext (x : BitVec 4) : State → Out :=
  rankIssue (fun s =>
    .ok (rankDone 1 (s.rk.upc + 1) true (fun k => { k with c := k.c.set (cIx x) k.c[cIx x].nextRow }) s))

def Cursor.advance (c : Cursor) : Cursor := if c.col = 31 then c.nextRow else { c with col := c.col + 1 }

def inRanges (rs : List (Nat × Nat)) (row : Nat) : Bool := rs.any (fun g => decide (g.1 ≤ row) && decide (row < g.1 + g.2))

/-- A column word as the rank reads it: bytes its course has written, else the logical row (R198, R269). -/
def readWord (s : State) (rank row col : Nat) : List Byte :=
  let staged := match (s.rank rank).course.bind s.course with
    | some c => c.staged
    | none => []
  (List.range 32).map (fun i =>
    let p := Place.mk rank row (32 * col + i)
    (lookup p.key staged).getD (s.bankByte p))

/-- The rank's course has written a byte of a column word of a logical row. -/
def State.inMortar (s : State) (rank row col : Nat) : Bool :=
  ((s.rank rank).course.bind s.course).any (fun c => c.staged.any (fun b => b.1 / 32 == (Place.mk rank row (32 * col)).key / 32))

/-- The physical row that a VLD or VST touches (R269); the mortar row of a logical row, which has its number only from the keystone on,
stands as 65,536 + that row. -/
def State.touchedRow (s : State) (rank row col : Nat) (write : Bool) : Nat :=
  if write || s.inMortar rank row col then 65536 + row else (s.rank rank).phys row

/-- The time of a VLD or VST of a column word of a physical row, and when that row was activated (R194): another row is closed no earlier
than tRAS after its activation and tWR after its last write. -/
def Rank.accessTime (k : Rank) (row : Nat) : Nat × Nat :=
  match k.open_ with
  | none => (16, k.ns)
  | some o =>
    if o.row = row then (2, o.act)
    else
      let t := max k.ns (max (o.act + 28) ((o.wrote.map (· + 12)).getD 0))
      (t - k.ns + 30, t + 14)

/-- The access ends: the row stays open, the cursor advances, and a changed row is a row boundary. -/
def accessDone (y : BitVec 4) (write : Bool) (f : Rank → Rank) (s : State) : State :=
  let c := s.rk.c[cIx y]
  let row := s.touchedRow s.cur.rank c.row.toNat c.col.toNat write
  let t := s.rk.accessTime row
  let wrote := if write then some (s.rk.ns + t.1) else (s.rk.open_.filter (fun o => o.row == row)).bind (·.wrote)
  rankDone t.1 (s.rk.upc + 1) (c.advance.row != c.row)
    (fun k => { f k with c := k.c.set (cIx y) c.advance, fresh := false, open_ := some ⟨row, t.2, wrote⟩ }) s

/-- VLD: the traps of R192, then a column word. -/
def execVld (x y : BitVec 4) : State → Out :=
  rankIssue (fun s =>
    let c := s.rk.c[cIx y]
    let row := c.row.toNat
    let r := s.cur.rank
    let own := s.rk.course.isSome && inRanges s.rk.ranges row
    let p := Place.mk r row (32 * c.col.toNat)
    if !own && decide (46080 ≤ row) then .error (.fault 4)
    else if !own && !s.permits ((s.rk.run.map (·.vd)).getD 0) r row (·.k) then .error (.fault 5)
    else if s.badWords.contains (s.wordAt none p) && !s.inMortar r row c.col.toNat then .error (.lost p)
    else
      .ok (accessDone y false (fun k => { k with v := k.v.set (vIx x) (BitVec.ofNat 256 (ofBytes (readWord s r row c.col.toNat))) }) s))

/-- VST: into the mortar row of the open course; discarded in a failed one (R205). -/
def execVst (x y : BitVec 4) : State → Out :=
  rankIssue (fun s =>
    let c := s.rk.c[cIx y]
    let row := c.row.toNat
    let r := s.cur.rank
    match s.rk.course with
    | none => .error (.fault 7)
    | some id =>
      if !inRanges s.rk.ranges row then .error (.fault 4)
      else
        let bs := bytesOf 32 (s.rk.v[vIx x]).toNat
        let s1 := match s.course id with
          | none => s
          | some k => s.setCourse { k with staged := bs.zipIdx.foldl (fun st b =>
              put (Place.mk r row (32 * c.col.toNat + b.2)).key b.1 st) k.staged }
        .ok (accessDone y true (fun k => k) s1))

/-! ### Vector instructions (R200, R201) -/

def lanes8 (v : W256) : List Nat := fieldsOf 32 8 v.toNat
def ofLanes (ls : List Nat) : W256 := BitVec.ofNat 256 (packFields 32 ls)
def f32 : FloatFmt := ⟨8, 23, 127, .ieee⟩

/-- Lanes of a result go to vX and its events to FL (R203). -/
def Rank.setV (k : Rank) (x : BitVec 4) (rs : List (Nat × Fl)) : Rank :=
  { k with v := k.v.set (vIx x) (ofLanes (rs.map (·.1))), fl := rs.foldl (fun a r => a ||| r.2) k.fl }

/-- A lane-by-lane instruction: F32 or I32 by its type bit. -/
def laneOp (x y z : BitVec 4) (r : BitVec 3) (t : BitVec 1) (ff : Rnd → Nat → Nat → Nat × Fl)
    (fi : Word → Word → Word) : State → Out :=
  rankStep 1 (fun k =>
    let f := fun a b => if t = 1 then ((fi (BitVec.ofNat 32 a) (BitVec.ofNat 32 b)).toNat, (0 : Fl)) else ff ⟨r.toNat, 0⟩ a b
    k.setV x (List.zipWith f (lanes8 k.v[vIx y]) (lanes8 k.v[vIx z])))

def execMwVadd (x y z : BitVec 4) (r : BitVec 3) (t : BitVec 1) : State → Out := laneOp x y z r t (fadd f32) (· + ·)
def execMwVsub (x y z : BitVec 4) (r : BitVec 3) (t : BitVec 1) : State → Out := laneOp x y z r t (fsub f32) (· - ·)
def execMwVmul (x y z : BitVec 4) (r : BitVec 3) (t : BitVec 1) : State → Out := laneOp x y z r t (fmul f32) (· * ·)
def execMwVmax (x y z : BitVec 4) (r : BitVec 3) (t : BitVec 1) : State → Out :=
  laneOp x y z r t (fun _ => fminmax f32 true) (fun a b => if a.slt b then b else a)
def execMwVmin (x y z : BitVec 4) (r : BitVec 3) (t : BitVec 1) : State → Out :=
  laneOp x y z r t (fun _ => fminmax f32 false) (fun a b => if b.slt a then b else a)

/-- vX ← vY × vZ + vX with one rounding. -/
def execMwVfma (x y z : BitVec 4) (r : BitVec 3) : State → Out :=
  rankStep 1 (fun k =>
    k.setV x ((List.range 8).map (fun i => fma f32 ⟨r.toNat, 0⟩ ((lanes8 k.v[vIx y]).getD i 0) ((lanes8 k.v[vIx z]).getD i 0)
      ((lanes8 k.v[vIx x]).getD i 0))))

def execVscl (x y z : BitVec 4) (r : BitVec 3) : State → Out :=
  rankStep 1 (fun k => k.setV x ((lanes8 k.v[vIx y]).map (fun a => fmul f32 ⟨r.toNat, 0⟩ a (k.getS z.toNat).toNat)))

def execVspl (x y : BitVec 4) : State → Out :=
  rankStep 1 (fun k => { k with v := k.v.set (vIx x) (ofLanes (List.replicate 8 (k.getS y.toNat).toNat)) })

/-- VCVT: lane i against element 8p + i of the packed side. -/
def execMwVcvt (x y : BitVec 4) (d f : BitVec 3) (p : BitVec 2) (u : BitVec 1) (r : BitVec 3) : State → Out :=
  rankStep 1 (fun k =>
    let dc := rankCode d.toNat
    let sc := rankCode f.toNat
    let dw := fmtBits dc
    let sw := fmtBits sc
    let src := fieldsOf sw (256 / sw) k.v[vIx y].toNat
    let off (w : Nat) : Nat := if w < 32 then 8 * p.toNat else 0
    let rs := (List.range 8).map (fun i =>
      convert dc (u == 1) (intFmt sc).isSome ⟨r.toNat, 0⟩ (valueOf sc (src.getD (off sw + i) 0)))
    let old := fieldsOf dw (256 / dw) k.v[vIx x].toNat
    let new := old.zipIdx.map (fun e =>
      if off dw ≤ e.2 ∧ e.2 < off dw + 8 then (rs.map (·.1)).getD (e.2 - off dw) 0 else e.1)
    { k with v := k.v.set (vIx x) (BitVec.ofNat 256 (packFields dw new)), fl := rs.foldl (fun a r => a ||| r.2) k.fl })

/-! ### Accumulators (R202) -/

def Acc.empty (alpha : BitVec 16) : Acc := ⟨alpha, Vector.replicate 8 (A80.empty alpha)⟩

def execKclr (x : BitVec 4) : State → Out :=
  rankStep 1 (fun k => { k with k := k.k.set (cIx x) (Acc.empty k.k[cIx x].alpha) })

/-- KANC: an anchor outside −1,024 to +1,023 faults. -/
def execKanc (x y : BitVec 4) : State → Out :=
  rankIssue (fun s =>
    let a := (s.rk.getS y.toNat).extractLsb' 0 16
    if a.toInt < -1024 ∨ 1023 < a.toInt then .error (.fault 4)
    else .ok (rankDone 1 (s.rk.upc + 1) false (fun k => { k with k := k.k.set (cIx x) (Acc.empty a) }) s))

/-- The value of a lane of KADD: F32 or I32. -/
def laneVal (t : BitVec 1) (x : Nat) : Num := valueOf (if t = 1 then Fmt.i32 else Fmt.f32) x

def execKadd (x y : BitVec 4) (t : BitVec 1) : State → Out :=
  rankStep 2 (fun k =>
    let idx := (k.run.map (·.k)).getD 0
    let rs := List.zipWith (fun (r : A80) a => r.contribute idx (laneVal t a)) k.k[cIx x].recs.toList (lanes8 k.v[vIx y])
    { k with
      k := k.k.set (cIx x) { k.k[cIx x] with recs := Vector.ofFn (fun i => (rs.getD i.val (A80.empty 0, 0)).1) }
      fl := rs.foldl (fun a r => a ||| r.2) k.fl })

def execKrnd (x y : BitVec 4) (u : BitVec 1) (r : BitVec 3) (t : BitVec 1) : State → Out :=
  rankStep 2 (fun k => k.setV x (k.k[cIx y].recs.toList.map (fun a =>
    a.round (if t = 1 then Fmt.i32 else Fmt.f32) (u == 1) ⟨r.toNat, 0⟩)))

/-! ### Courses (R204 to R210) -/

def State.myGroup (s : State) (g : Nat) : List (BitVec 32) :=
  match s.rk.run with
  | some r => groupIn r.groups g
  | none => []

/-- The rank joins the course of its group that it can still join, or begins one. -/
def joinCourse (p : CoursePart) (members : List Nat) (group : Nat) (solo : Bool) (s : State) : State × Nat :=
  let run := (s.rk.run.map (fun r => (r.vd, r.q, r.launch))).getD (0, 0, 0)
  match s.courses.find? (fun c => c.cmd.isNone && !solo && !c.solo && decide ((c.vd, c.q, c.launch) = run) && c.group == group &&
      !c.opened && c.index == 0 && (c.part p.member).isNone) with
  | some c => (s.setCourse { c with parts := c.parts ++ [p] }, c.id)
  | none => ({ s with
      nextId := s.nextId + 1
      courses := s.courses ++ [⟨s.nextId, run.1, none, run.2.1, run.2.2, group, solo, members, [p], false, [], [], [], 0, 1, [], none, false, [], s.ring⟩] },
      s.nextId)

def execCbegin (x y : BitVec 4) (u : BitVec 1) (g : BitVec 8) : State → Out :=
  rankIssue (fun s =>
    let k := s.rk
    let w (i : Nat) : Nat := (k.getS (y.toNat + i)).toNat
    let rs := [(w 0, w 1), (w 2, w 3)]
    let s1 := s.updRank s.cur.rank (fun k => { k with dest := x.toNat, ranges := rs })
    let join (ms : List Nat) (i : Nat) : Except RankStop State :=
      let j := joinCourse ⟨i, .program, 0, 0, 0, 0, Cursor.reset, Cursor.reset, rs⟩ ms g.toNat (u == 1) s1
      .error (.keep j.1 (.course j.2))
    if k.course.isSome then .error (.fault 7)
    else if u = 1 then join [s.cur.rank] 0
    else match ranksOf s.pkg (s.myGroup g.toNat) with
      | none => .ok (endBegin s.cur.rank 7 none s1)
      | some ms => match ms.findIdx? (· == s.cur.rank) with
        | none => .ok (endBegin s.cur.rank 7 none s1)
        | some i => join ms i)

/-- CEND: at once with the status of a course that has failed, else after the keystone. -/
def execCend (x : BitVec 4) : State → Out :=
  rankIssue (fun s =>
    let s1 := s.updRank s.cur.rank (fun k => { k with dest := x.toNat })
    match s.rk.course, s.rk.failed with
    | none, _ => .error (.fault 7)
    | some _, some code => .ok (endCourseInstr s.cur.rank code s1)
    | some id, none => .error (.keep s1 (.course id)))

/-- A built-in course instruction with its fields; z = 0 on CBAR. -/
def builtIn (op : CourseOp) (x : BitVec 4) (d c : BitVec 2) (z : BitVec 4) (redop f : BitVec 3) (g : BitVec 8) : State → Out :=
  rankIssue (fun s =>
    let k := s.rk
    let count := (k.getS z.toNat).toNat
    let s1 := s.updRank s.cur.rank (fun k => { k with dest := x.toNat, done := 0 })
    let bad : Bool := (op == .red || op == .rsc) &&
      ((decide (4 ≤ redop.toNat) && !rankInt f.toNat) || (f == 5 && redop != 0))
    if k.course.isSome then .error (.fault 7)
    else if op ≠ .bar ∧ count = 0 then .ok (endCourseInstr s.cur.rank 0 s1)
    else match ranksOf s.pkg (s.myGroup g.toNat) with
      | none => .ok (endCourseInstr s.cur.rank 7 s1)
      | some ms => match ms.findIdx? (· == s.cur.rank) with
        | none => .ok (endCourseInstr s.cur.rank 7 s1)
        | some i =>
          if bad then .ok (endCourseInstr s.cur.rank 7 s1)
          else
            let p : CoursePart := ⟨i, op, f.toNat, redop.toNat, count, (k.getS (z.toNat + 1)).toNat,
              k.c[Fin.ofNat 4 c.toNat], k.c[Fin.ofNat 4 d.toNat], []⟩
            let j := joinCourse p ms g.toNat false s1
            .error (.keep j.1 (.course j.2)))

def execCshift (x : BitVec 4) (d c : BitVec 2) (z : BitVec 4) (f : BitVec 3) (g : BitVec 8) : State → Out :=
  builtIn .shift x d c z 0 f g
def execCxpose (x : BitVec 4) (d c : BitVec 2) (z : BitVec 4) (f : BitVec 3) (g : BitVec 8) : State → Out :=
  builtIn .xpose x d c z 0 f g
def execCa2a (x : BitVec 4) (d c : BitVec 2) (z : BitVec 4) (f : BitVec 3) (g : BitVec 8) : State → Out :=
  builtIn .a2a x d c z 0 f g
def execCred (x : BitVec 4) (d c : BitVec 2) (z : BitVec 4) (o f : BitVec 3) (g : BitVec 8) : State → Out :=
  builtIn .red x d c z o f g
def execCrsc (x : BitVec 4) (d c : BitVec 2) (z : BitVec 4) (o f : BitVec 3) (g : BitVec 8) : State → Out :=
  builtIn .rsc x d c z o f g
def execCgath (x : BitVec 4) (d c : BitVec 2) (z : BitVec 4) (f : BitVec 3) (g : BitVec 8) : State → Out :=
  builtIn .gath x d c z 0 f g
def execCbcast (x : BitVec 4) (d c : BitVec 2) (z : BitVec 4) (f : BitVec 3) (g : BitVec 8) : State → Out :=
  builtIn .bcast x d c z 0 f g

def trackerOf (s : State) (vd q g : Nat) : Tracker := (s.vd vd).queues[Fin.ofNat 4 q].tracker g
def updTrackerOf (vd q g : Nat) (f : Tracker → Tracker) (s : State) : State :=
  s.updVd vd (fun v => { v with queues := v.queues.set (Fin.ofNat 4 q) (v.queues[Fin.ofNat 4 q].setTracker (f (v.queues[Fin.ofNat 4 q].tracker g))) })

/-- CBAR (R210): with core members it works through the phase tracker; else it is a course without rows. -/
def execCbar (x : BitVec 4) (g : BitVec 8) : State → Out :=
  let me (s : State) : BitVec 32 := memberId s.pkg true s.cur.rank
  fun s =>
    let ms := s.myGroup g.toNat
    if ms.all (·.getLsbD 21) then builtIn .bar x 0 0 0 0 0 g s
    else rankIssue (fun s =>
      let run := (s.rk.run.map (fun r => (r.vd, r.q))).getD (0, 0)
      let s1 := s.updRank s.cur.rank (fun k => { k with dest := x.toNat, done := 0 })
      if s.rk.course.isSome then .error (.fault 7)
      else match ms.findIdx? (· == me s) with
        | none => .ok (endCourseInstr s.cur.rank 7 s1)
        | some i =>
          let t := trackerOf s run.1 run.2 g.toNat
          match s.rk.wait with
          | some (.barrier _ p t0) =>
            if t.complete ms.length p then .ok (endCourseInstr s.cur.rank 0 s1) else .error (.wait (.barrier g.toNat p t0))
          | _ =>
            let s2 := updTrackerOf run.1 run.2 g.toNat (·.arrive i) s1
            if (t.arrive i).complete ms.length (t.count i) then .ok (endCourseInstr s.cur.rank 0 s2)
            else .error (.keep s2 (.barrier g.toNat (t.count i) s.ring))) s

/-! ### MSGO, MSGI, OVSW, HALT (R211, R212) -/

/-- A port of a core: of its saved image while the core is pre-empted or stopped. -/
def State.portAt (s : State) (d : PortDest) : Port :=
  let c := s.route d.core
  let k := (lookup d.core (s.vd (s.core c).vd).saved).getD (s.core c)
  (k.ctx d.ctx).ports[ptrIx d.port]

/-- A send of the rank goes before every other send that waits for the same queue (R153). -/
def State.rankFirst (s : State) (rank : Nat) (d : PortDest) : Bool :=
  (s.sendq.find? (fun w => w.dst == d)).all (fun w => w.core == (rankSource rank).1)

/-- A rank's send that finds no room takes its place among those that wait for the queue (R153, R211). -/
def State.queueRank (s : State) (rank : Nat) (d : PortDest) : State :=
  if s.sendq.any (fun w => w.core == (rankSource rank).1) then s else { s with sendq := s.sendq ++ [⟨d, (rankSource rank).1, 0⟩] }

/-- MSGO: sY with the member index above it goes to the owner's port. -/
def execMsgo (y : BitVec 4) : State → Out :=
  rankIssue (fun s =>
    let done (t : State) : State := rankDone 1 (s.rk.upc + 1) false (fun k => k) (t.unqueued s.cur.rank)
    match s.rk.run.bind (·.owner) with
    | none => .ok (done s)
    | some o =>
      let d : PortDest := ⟨o.1, o.2.1, o.2.2⟩
      if (s.portAt d).dest.isNone then .ok (done s)
      else if s.roomAt d < 1 || !s.rankFirst s.cur.rank d then .error (.keep (s.queueRank s.cur.rank d) .port)
      else
        let w : W64 := BitVec.ofNat 32 ((s.rk.run.map (·.k)).getD 0) ++ s.rk.getS y.toNat
        .ok (done { s with inflight := s.inflight ++ [⟨d, rankSource s.cur.rank, 0, none, [w], none, false⟩] }))

def execMsgi (x : BitVec 4) : State → Out :=
  rankIssue (fun s =>
    match s.rk.mailbox with
    | [] => .error (.wait .mailbox)
    | w :: r => .ok (rankDone 1 (s.rk.upc + 1) false (fun k => { (k.setS x.toNat w) with mailbox := r }) s))

/-- OVSW waits while images are being written into the other slot; pools with a RANK node for the slot it leaves are walked (R278). -/
def execOvsw (i : BitVec 10) : State → Out :=
  rankIssue (fun s =>
    if s.rk.writing.any (fun w => w.2.2 == s.rk.slot + 1) then .error (.wait .overlay)
    else .ok (decideFor s.cur.rank (rankDone 1 i.toNat false (fun k => { k with slot := k.slot + 1 }) s) (some s.rk.slot.toNat)))

def execMwHalt : State → Out :=
  rankIssue (fun s => if s.rk.course.isSome then .error (.fault 7) else .ok (endRank s.cur.rank none 6 s))

end Sys2Proof.Machine
end

