-- ==== Sys2Proof/Machine/Ring.lean ====
section
/-! DEFINITION. The command ring (R178, R182 to R186, R310): how COLL, RKOVL, RKRUN, RKSIG and RKSTOP are posted, how the rank
commands start and complete, and the words a completion writes. -/

namespace Sys2Proof.Machine

/-! ### Bytes a command reads at issue -/

/-- A byte the device reads at a physical address in a VD's name. -/
def State.deviceByte (s : State) (vd pa : Nat) : Byte :=
  if bits pa 51 42 ≠ s.pkg then Config.farByte pa s.nextId else engineByte s vd [] pa

/-- The bytes of a parameter block or descriptor; those in a bank that is held are read in a window (R371), and an uncorrectable error in
them is taken as MCHK (R178, log 13). -/
def blockRead (va len : Nat) : M (List Byte) := do
  let _ ← reach va len .load
  fun s =>
    match walkRange s (dieOf s.cur.core) s.here.vd va len .load with
    | (s1, .ok pas) =>
      let ps := s1.places s1.here.vd pas
      if ps.any (fun p => s1.closed .read p) then .error (.keepWait (s1.askWindow s1.here.vd ps) .bank)
      else
        let s2 := s1.recall ps
        if s2.fails ps then .error (.keepTrap (consumeBad ps 0 s2).1 Cause.mchk (consumeBad ps 0 s2).2)
        else .ok (pas.map (s2.deviceByte s2.here.vd), { s2 with nextId := s2.nextId + 1 })
    | (_, .error _) => .error (.wait .hold)

/-- A nonzero STATADDR or DONEADDR is aligned and translates with W (R178). -/
def wordReady (a : W64) : M Unit :=
  if a = 0 then pure ()
  else if a &&& 7 ≠ 0 then stop (.trap Cause.align a)
  else do
    let _ ← reach (va55 a).toNat 8 .store

/-! ### Posting (R178, R310) -/

def Vd.inRing (v : Vd) : Nat := (v.cmds.filter (·.inRing)).length

/-- The command ring of the issuer's VD has no free entry. -/
def State.ringFull (s : State) : Bool := decide (2 ^ s.myVd.desc.crlog ≤ s.myVd.inRing)

/-- The next free entry of the ring, from the one after the last. -/
def Vd.nextEntry (v : Vd) : Nat :=
  let n := 2 ^ v.desc.crlog
  match (v.cmds.filter (·.inRing)).map (·.entry) with
  | [] => v.seq % n
  | taken => ((List.range n).map (fun i => (v.seq + i) % n)).find? (fun e => !taken.contains e) |>.getD (v.seq % n)

/-- Major code and FN3 of a ring command (R69, R72). -/
def RingOp.code : RingOp → List Byte
  | .coll => [0x32, 0]
  | .rkovl => [0x33, 0]
  | .rkrun => [0x33, 1]
  | .rksig => [0x33, 2]
  | .rkstop => [0x33, 4]

/-- The 256 bytes of a ring entry (R310); the packing within its fields is the model's (log 35). -/
def ringBytes (c : RingCmd) (w : BitVec 8) (slots : List (BitVec 8)) : List Byte :=
  let field (n : Nat) (bs : List Byte) : List Byte := bs ++ List.replicate (n - bs.length) 0
  field 128 (c.block.take (if c.op = .coll then 128 else 48)) ++ field 8 c.op.code ++ field 8 (bytesOf 4 c.core ++ bytesOf 1 c.ctx) ++ field 8 (bytesOf 4 c.handle.toNat) ++
    field 8 [w, BitVec.ofNat 8 (c.slot.getD 0xFF)] ++ bytesOf 8 c.n ++ field 88 slots

/-- The command enters the ring with the issuer's identity, launch queue and open dependencies; its entry is written at CMDRING. -/
def postCmd (op : RingOp) (block : List Byte) (handle : BitVec 32) (w : BitVec 8) (slot : Option Nat) (named : Bool)
    (s : State) : State :=
  let c : RingCmd :=
    { n := s.myVd.seq, op := op, core := s.here.origin, ctx := s.cur.ctx.val, q := (s.here.node.map (·.q)).getD 4
      block := block, handle := handle, deps := s.me.deps w, id := s.nextId, slot := slot, state := .posted, entry := s.myVd.nextEntry, inRing := true
      courses := 0, total := 0, plan := [], read := [], cflags := 0, halted := [], fault := none, issued := s.ring
      launch := (s.here.node.map (·.launch)).getD 0, groups := (s.groupQueue.map (fun q => s.myVd.queues[q].groups)).getD []
      bufs := [], alpha := 0, links := 0, own := [], lstep := 0, words := 0, awaits := none, held := none }
  let s0 := s.devWrite (s.myVd.desc.cmdring.toNat + 256 * c.entry) (ringBytes c w s.me.slots.toList)
  let s1 := s0.updVd s.here.vd (fun v => { v with cmds := v.cmds ++ [c], seq := v.seq + 1 })
  let s2 := if named then s1.updMe (fun m => { m with
      cmds := m.cmds.filter (fun x => x.handle != handle) ++ [⟨handle, c.n, none⟩] }) else s1
  { s2 with nextId := s2.nextId + 1 }

/-- COLL, RKOVL and RKRUN: the block at A with its STATADDR and DONEADDR at given offsets, handle B; `more` reads the rest. -/
def ringOp (i : Instr) (a b : BitVec 5) (w : BitVec 8) (sl : BitVec 3) (sb : BitVec 1) (op : RingOp) (len stat done : Nat)
    (more : List Byte → M (List Byte)) : State → Out :=
  let srcs := [Opnd.int a, Opnd.int b]
  issue i 0 (do
    slotFull sl sb
    let s ← get
    waitIf s.ringFull .ring
    prepare srcs none (fun s => alignCands (va55 (arg1 (s.values srcs) 0)).toNat 8)
    let s ← get
    let vs := s.values srcs
    let bs ← blockRead (va55 (arg1 vs 0)).toNat len
    wordReady (w64 bs stat)
    wordReady (w64 bs done)
    let rest ← more bs
    upd (fun s =>
      let id := s.nextId
      takeSlot id sl sb (postCmd op (bs ++ rest) ((arg1 vs 1).setWidth 32) w (slotOf sl sb) true (consume srcs s))))

def execColl (a b : BitVec 5) (w : BitVec 8) (sl : BitVec 3) (sb : BitVec 1) : State → Out :=
  ringOp (.coll a b w sl sb) a b w sl sb .coll 128 0x50 0x40 (fun _ => pure [])

/-- The image of a descriptor as it stands at issue: nothing when the fields forbid it or a page does not translate. -/
def imageRead (vd : Nat) (bs : List Byte) (s : State) : State × List Byte :=
  let len := num bs 6 2
  let va := num bs 8 8
  if len = 0 ∨ 1024 < len ∨ va % 4 ≠ 0 then (s, [])
  else match s.vread vd (va % 2 ^ 55) (4 * len) with
    | (s1, some xs) => (s1, xs)
    | (s1, none) => (s1, [])

/-- RKOVL reads its image at issue (R282); one in a bank that is held in a window (R371). -/
def execRkovl (a b : BitVec 5) (w : BitVec 8) (sl : BitVec 3) (sb : BitVec 1) : State → Out :=
  ringOp (.rkovl a b w sl sb) a b w sl sb .rkovl 48 0x20 0x10 (fun bs s =>
    let r := imageRead s.here.vd bs s
    let ps := r.1.stalled.drop s.stalled.length
    if ps.isEmpty then .ok (r.2, r.1)
    else .error (.keepWait (({ r.1 with stalled := s.stalled } : State).askWindow s.here.vd ps) .bank))

def execRkrun (a b : BitVec 5) (w : BitVec 8) (sl : BitVec 3) (sb : BitVec 1) : State → Out :=
  ringOp (.rkrun a b w sl sb) a b w sl sb .rkrun 48 0x20 0x10 (fun _ => pure [])

/-- RKSIG and RKSTOP carry their operands: group in bytes 0–7, word in bytes 8–11. -/
def groupOp (i : Instr) (srcs : List Opnd) (w : BitVec 8) (op : RingOp) : State → Out :=
  issue i 0 (do
    let s ← get
    waitIf s.ringFull .ring
    prepare srcs none (fun _ => [])
    upd (fun s =>
      let vs := s.values srcs
      postCmd op (bytesOf 8 (arg1 vs 0).toNat ++ bytesOf 4 (arg1 vs 1).toNat) 0 w none false (consume srcs s)))

def execRksig (a b : BitVec 5) (w : BitVec 8) : State → Out := groupOp (.rksig a b w) [.int a, .int b] w .rksig
def execRkstop (a : BitVec 5) (w : BitVec 8) : State → Out := groupOp (.rkstop a w) [.int a] w .rkstop

/-! ### Completion words (R182) -/

/-- The issuing context of a command: of the core that carries its curve number now, or of the saved image. -/
def updIssuer (vd origin ctx : Nat) (f : Context → Context) (s : State) : State :=
  match lookup origin (s.vd vd).saved with
  | some k => patchImage vd origin (0x1000 * (ctx + 1) + 0x300) ((f (k.ctx ctx)).slots.toList.flatMap (fun b => bytesOf 1 b.toNat))
      (s.updVd vd (fun v => { v with saved := put origin (k.setCtx ctx (f (k.ctx ctx))) v.saved }))
  | none => s.updCtx (s.route origin) ctx f

/-- The slot is lowered and the handle has its status; the command is gone (R182, R183). -/
def closeCmd (vd : Nat) (c : RingCmd) (status : W64) (s : State) : State :=
  let s1 := updIssuer vd c.core c.ctx (fun m => { m with
    slots := match c.slot with
      | some k => m.slots.set (regIx k) (m.slots[regIx k] - 1)
      | none => m.slots
    open_ := m.open_.filter (fun o => o.1 != c.id)
    cmds := m.cmds.map (fun x => if x.seq = c.n ∧ x.handle = c.handle then { x with status := some status } else x) }) s
  s1.updVd vd (fun v => { v with cmds := v.cmds.filter (fun x => x.n != c.n) })

/-- Address and value of a completion word of a command: the status word, then DONEVAL (R182). -/
def RingCmd.word (c : RingCmd) (status : W64) : W64 × W64 :=
  let stat := if c.op = .coll then 0x50 else 0x20
  let done := if c.op = .coll then 0x40 else 0x10
  if c.words = 0 then (w64 c.block stat, status) else (w64 c.block done, w64 c.block (done + 8))

/-- R182: the status word, then DONEVAL as a release over it, then the slot: each once the one before it is performed. A word whose page
does not translate with W, or whose write the pagers refuse, is not written; one that they hold waits (R292). -/
def reportWords (vd n : Nat) (status : W64) : Nat → State → State
  | 0, s => s
  | f + 1, s =>
    match s.cmd vd n with
    | none => s
    | some c =>
      let addr := (c.word status).1
      let next (i : Option Nat) (s : State) : State :=
        reportWords vd n status f (updCmd vd n (fun x => { x with words := x.words + 1, awaits := i, held := none }) s)
      if c.awaits.any s.unperformed then s
      else if 2 ≤ c.words then closeCmd vd c status s
      else match c.held with
        | some ⟨_, none⟩ => s
        | some ⟨_, some false⟩ => next none (wordFault vd c.core c.ctx (va55 addr).toNat Cause.pperm s)
        | _ =>
          match sendWord s.nextId vd c.core c.ctx addr (c.word status).2 { s with nextId := s.nextId + 1 } with
          | (s1, .done) => next none s1
          | (s1, .sent) => next (some s.nextId) s1
          | (s1, .busy) => s1
          | (s1, .held va) => updCmd vd n (fun x => { x with held := some ⟨BitVec.ofNat 64 va, none⟩ }) s1
          | (s1, .fault k) => next none (wordFault vd c.core c.ctx (va55 addr).toNat k s1)

/-- A command that has ended reports. -/
def reportCmd (vd : Nat) (c : RingCmd) (status : W64) (s : State) : State := reportWords vd c.n status 3 s

/-- A command without words leaves the ring. -/
def dropCmd (vd n : Nat) (s : State) : State := s.updVd vd (fun v => { v with cmds := v.cmds.filter (fun x => x.n != n) })

/-! ### Starting (R161, R310) -/

def State.issuer (s : State) (vd origin ctx : Nat) : Context :=
  match lookup origin (s.vd vd).saved with
  | some k => k.ctx ctx
  | none => s.ctx (s.route origin) ctx

/-- The issuer's earlier accesses are performed; a saved core has none that are not (R297). -/
def issuerDone (s : State) (vd : Nat) (c : RingCmd) : Bool :=
  (lookup c.core (s.vd vd).saved).isSome || s.performed (s.route c.core) c.ctx

/-- The issuer's awaited commands are complete and its earlier accesses performed; a killed issuer's command starts (R161). -/
def cmdMayStart (s : State) (vd : Nat) (c : RingCmd) : Bool :=
  c.deps.all (fun d => !(s.issuer vd c.core c.ctx).open_.any (fun o => o.1 == d)) && issuerDone s vd c

/-- No earlier entry of the same context waits; a waiting RKSIG holds back none (R310). -/
def cmdFirst (s : State) (vd : Nat) (c : RingCmd) : Bool :=
  (s.vd vd).cmds.all (fun x => decide (c.n ≤ x.n) || x.core != c.core || x.ctx != c.ctx || x.state != .posted || x.op == .rksig)

/-! ### Members of a rank command -/

def firstCore (ms : List (BitVec 32)) : Nat := (ms.findIdx? (fun m => !m.getLsbD 21)).getD noMember

/-- What RKOVL and RKRUN check of their descriptor: a code with its member, or the members. DESIGN CHOICE (log 77): R184 gives no code to
an RKRUN whose descriptor it does not allow; the model gives 7, BADPARAM, as R185 does an RKOVL of a bad LENGTH. -/
def rankMembers (s : State) (c : RingCmd) (lenOk : Bool) : Except (Nat × Nat) (List Nat) :=
  let ms := groupIn c.groups (num c.block 0 4)
  if 1 < num c.block 4 1 ∨ bits (num c.block 5 1) 6 2 ≠ 0 ∨ num c.block 0x28 8 ≠ 0 ∨ lenOk = false ∨ ms = [] then
    .error (7, noMember)
  else match ranksOf s.pkg ms with
    | none => .error (7, firstCore ms)
    | some rs => .ok rs

/-! ### RKOVL (R185, R212) -/

def startRkovl (vd : Nat) (c : RingCmd) (s : State) : State :=
  let len := num c.block 6 2
  let slot := num c.block 4 1
  match rankMembers s c (decide (1 ≤ len) && decide (len ≤ 1024)) with
  | .error e => finishCmd vd c.n e.1 e.2 s
  | .ok rs =>
    if num c.block 8 8 % 4 ≠ 0 then finishCmd vd c.n 4 0 s
    else match rs.findIdx? (fun r => decide ((s.rank r).state ≠ .idle) && (s.rank r).slot.toNat == slot) with
      | some k => finishCmd vd c.n 4 k s
      | none =>
        match rs.findIdx? (fun r => !s.rankAllowed vd r) with
        | some k => finishCmd vd c.n 5 k s
        | none =>
          if c.block.length < 48 + 4 * len then finishCmd vd c.n 5 0 s
          else rs.foldl (fun s r => s.updRank r (fun k => { k with writing := k.writing ++ [(vd, c.n, BitVec.ofNat 1 slot)] }))
            (updCmd vd c.n (fun x => { x with state := .running }) s)

def completeRkovl (vd : Nat) (c : RingCmd) (s : State) : State :=
  match c.state with
  | .posted => s
  | .finished st => reportCmd vd c st s
  | .running =>
    let rs := (ranksOf s.pkg (groupIn c.groups (num c.block 0 4))).getD []
    let write (r : Nat) (s : State) : State :=
      (writeSlot vd (num c.block 4 1) ((c.block.drop 48).take (4 * num c.block 6 2)) r s).updRank r (fun k =>
        { k with writing := k.writing.filter (fun w => !(w.1 == vd && w.2.1 == c.n)) })
    reportCmd vd c 0 (finishCmd vd c.n 0 0 (rs.foldl (fun s r => write r s) s))

/-! ### RKRUN (R184, R185, R265) -/

def startRkrun (vd : Nat) (c : RingCmd) (s : State) : State :=
  let entry := num c.block 6 2
  match rankMembers s c (decide (entry ≤ 1023)) with
  | .error e => finishCmd vd c.n e.1 e.2 s
  | .ok rs =>
    match rs.findIdx? (fun r => !s.rankAllowed vd r) with
    | some k => finishCmd vd c.n 5 k s
    | none =>
      let port := num c.block 5 1
      let run (k : Nat) : RankRun := ⟨vd, c.q, some c.n, c.launch, 0, k, rs.length,
        if bit port 7 then some (c.core, c.ctx, port % 4) else none, c.groups⟩
      rs.zipIdx.foldl (fun s r =>
          if (s.rank r.1).lost then noteEnd (run r.2) (some 3) s
          else beginRank (run r.2) (BitVec.ofNat 32 (num c.block 8 4)) (num c.block 4 1) entry r.1 s)
        (updCmd vd c.n (fun x => { x with state := .running, total := rs.length }) s)

/-- Port words of a run's members that have not entered their queue: on their way, in the spill queue of a pre-empted core, or captured
by a STOP (R265, R300, R313). -/
def msgoPending (s : State) (vd : Nat) (rs : List Nat) : Bool :=
  (s.inflight ++ (s.vd vd).captured ++ (s.vd vd).spill.flatMap (·.2)).any (fun m => rs.any (fun r => decide (m.src = rankSource r)))

def completeRkrun (vd : Nat) (c : RingCmd) (s : State) : State :=
  match c.state with
  | .posted => s
  | .finished st => reportCmd vd c st s
  | .running =>
    let rs := (ranksOf s.pkg (groupIn c.groups (num c.block 0 4))).getD []
    if c.halted.length < c.total || msgoPending s vd rs then s
    else
      let e := c.fault.getD (0, 0)
      reportCmd vd c (statusWord e.2 e.1 0 0) (finishCmd vd c.n e.2 e.1 s)

/-! ### RKSIG and RKSTOP (R186) -/

/-- An earlier RKSIG that names this member and has not reached it goes first: one that has started, or one of the same core that
has not (R186, R211). -/
def sigBlocked (s : State) (vd : Nat) (c : RingCmd) (rank : Nat) : Bool :=
  (s.vd vd).cmds.any (fun x => decide (x.n < c.n) && x.op == .rksig && !x.halted.contains rank &&
    (x.state == .running || (x.state == .posted && x.core == c.core)) &&
    ((ranksOf s.pkg (groupIn x.groups (num x.block 0 8))).getD []).contains rank)

/-- The word of an RKSIG enters the mailbox or the hold store of every member that has room (R186). -/
def pushSig (vd n : Nat) (s : State) : State :=
  match s.cmd vd n with
  | none => s
  | some c =>
    let rs := (ranksOf s.pkg (groupIn c.groups (num c.block 0 8))).getD []
    let w : Word := BitVec.ofNat 32 (num c.block 8 4)
    let s1 := (rs.filter (fun r => !c.halted.contains r)).foldl (fun s r =>
      let k := s.rank r
      if sigBlocked s vd c r then s
      else
        let done (f : Rank → Rank) : State := updCmd vd n (fun x => { x with halted := x.halted ++ [r] }) (s.updRank r f)
        if k.mailbox.length < 16 ∧ k.holdst = [] then done (fun k => { k with mailbox := k.mailbox ++ [w] })
        else if k.holdst.length < 16 then done (fun k => { k with holdst := k.holdst ++ [w] })
        else s) s
    match s1.cmd vd n with
    | some c1 => if rs.all (fun r => c1.halted.contains r) then dropCmd vd n s1 else s1
    | none => s1

/-- RKSTOP stops the members, and a COLL with such members ends ABORTED with the lowest of them (R181, R186). -/
def runRkstop (vd : Nat) (c : RingCmd) (s : State) : State :=
  let rs := (ranksOf s.pkg (groupIn c.groups (num c.block 0 8))).getD []
  rs.foldl (fun s r => stopRank r s) (abortColls rs 6 (dropCmd vd c.n s))

/-! ### CQUERY, CABORT, RKSTAT (R183, R186) -/

def execCquery (a : BitVec 5) : State → Out :=
  issue (.cquery a) 0 (do
    prepare [.int a] (some (.int 0)) (fun _ => [])
    upd (fun s =>
      let h := (arg1 (s.values [.int a]) 0).setWidth 32
      let v : W64 := match s.me.cmds.find? (fun c => c.handle == h) with
        | none => 0xFE
        | some c => c.status.getD 0xFF
      deliver (.int 0) .now [v] (consume [.int a] s)))

/-- CABORT of a command that has not ended: a COLL, an RKRUN, or an RKOVL that has not begun writing. -/
def abortCmd (vd n : Nat) (s : State) : State :=
  match s.cmd vd n with
  | none => s
  | some c =>
    match c.state, c.op with
    | .finished _, _ => s
    | .posted, _ => updCmd vd n (fun x => { x with inRing := false }) (finishCmd vd n 6 noMember s)
    | .running, .coll =>
      match s.courses.find? (fun k => k.vd == vd && k.cmd == some n && !k.flipped) with
      | some k =>
        if k.committed s.ring then updCmd vd n (fun x => { x with fault := x.fault.or (some (noMember, 6)) }) s
        else failCourse k.id 6 noMember none s
      | none => finishCmd vd n 6 noMember s
    | .running, .rkrun =>
      stopOthers ⟨vd, c.q, some n, c.launch, 0, 0, 0, none, []⟩ (updCmd vd n (fun x => { x with fault := x.fault.or (some (noMember, 6)) }) s)
    | .running, _ => s

def execCabort (a : BitVec 5) : State → Out :=
  issue (.cabort a) 0 (do
    prepare [.int a] none (fun _ => [])
    upd (fun s =>
      let h := (arg1 (s.values [.int a]) 0).setWidth 32
      let t := consume [.int a] s
      match s.me.cmds.find? (fun c => c.handle == h) with
      | some c => if c.status.isSome then t else abortCmd s.here.vd c.seq t
      | none => t))

def rankCode' : RankState → Nat
  | .idle => 0
  | .running => 1
  | .suspended => 2
  | .spilled => 3

/-- RKSTAT (R186); a rank of a channel that sleeps has spilled (R262). -/
def execRkstat (a : BitVec 5) : State → Out :=
  issue (.rkstat a) 0 (do
    prepare [.int a] (some (.int 0)) (fun _ => [])
    upd (fun s =>
      let r := (arg1 (s.values [.int a]) 0).toNat % 8192
      let k := s.rank r
      let v : W64 := if s.permTouches r 0 (fun p => p.k && p.vd == s.here.vd) then
          BitVec.ofNat 64 ((if s.asleep.contains (channelOf r) then 3 else rankCode' k.state) + k.slot.toNat * 4 + k.upc % 8192 * 8)
        else BitVec.allOnes 64
      deliver (.int 0) .now [v] (consume [.int a] s)))

end Sys2Proof.Machine
end

