-- ==== Sys2Proof/Machine/Coll.lean ====
section
/-! DEFINITION. COLL (R178 to R182, R372, R373): its block and checks, what every operation moves or reduces, the course that
writes each RECV element, and collectives between packages (R327 to R331). -/

namespace Sys2Proof.Machine

/-! ### The parameter block (R179) -/

structure CollParams where
  op     : Nat
  flags  : Nat
  group  : Nat
  dtype  : Nat
  redop  : Nat
  alg    : Nat
  zero   : Nat
  anchor : Nat
  count  : Nat
  send   : Nat
  recv   : Nat
  counts : Nat
  displs : Nat
  root   : Nat
  done   : Nat
  stat   : Nat
  deadline : Nat
  tag    : Nat
  rest   : Nat
  deriving DecidableEq, Repr

def collParams (b : List Byte) : CollParams :=
  { op := num b 0 2, flags := num b 2 2, group := num b 4 4, dtype := num b 8 1, redop := num b 9 1, alg := num b 10 1
    zero := num b 11 1, anchor := num b 12 4, count := num b 0x10 8, send := num b 0x18 8, recv := num b 0x20 8
    counts := num b 0x28 8, displs := num b 0x30 8, root := num b 0x38 8, done := num b 0x40 8, stat := num b 0x50 8
    deadline := num b 0x58 8, tag := num b 0x60 8, rest := num b 0x68 24 }

namespace CollParams

def inPlace (p : CollParams) : Bool := bit p.flags 0
def a80Out (p : CollParams) : Bool := bit p.flags 1
def auto (p : CollParams) : Bool := bit p.flags 2
def policy (p : CollParams) : Nat := bits p.flags 5 4
def reduces (p : CollParams) : Bool := p.op == 1 || p.op == 2 || p.op == 3
def isInt (p : CollParams) : Bool := p.dtype == Fmt.i8 || p.dtype == Fmt.i32
/-- Bytes of a SEND element, and of a RECV element. -/
def size (p : CollParams) : Nat := fmtBits p.dtype / 8
def outSize (p : CollParams) : Nat := if p.a80Out then 16 else p.size
def anchorInt (p : CollParams) : Int := (BitVec.ofNat 32 p.anchor).toInt
/-- The exponent course of AUTO_ANCHOR. -/
def extra (p : CollParams) : Nat := if p.reduces && p.auto then 1 else 0

/-- BADPARAM of a block field (R179, R181, R329). -/
def bad (p : CollParams) (n : Nat) : Bool :=
  !(decide (1 ≤ p.op) && decide (p.op ≤ 12)) || bits p.flags 15 7 != 0 || bit p.flags 3 || p.policy == 3 ||
    (bit p.flags 6 && p.op != 7) || decide (255 < p.group) || p.zero != 0 || p.rest != 0 ||
    !([Fmt.i8, Fmt.i32, Fmt.f32, Fmt.bf16, Fmt.e4m3, Fmt.a80].contains p.dtype) || decide (6 < p.redop) || decide (4 < p.alg) ||
    (!p.isInt && (decide (p.anchorInt < -1024) || decide (1023 < p.anchorInt))) ||
    (p.op != 10 && (p.send / 2 ^ 59 != p.dtype ||
      p.recv / 2 ^ 59 != (if p.a80Out then Fmt.a80 else p.dtype))) ||
    (p.reduces && ((decide (4 ≤ p.redop) && !p.isInt) || (p.dtype == Fmt.a80 && p.redop != 0))) ||
    (!p.reduces && p.a80Out) || (decide (1 ≤ p.alg) && decide (p.alg ≤ 3) && decide (5 < p.op)) ||
    (p.alg == 3 && !isPow2 n)

end CollParams

/-- COUNTS and DISPLS of an ALLTOALLV as they stand behind the block. -/
def tableAt (b : List Byte) (i : Nat) : Nat := num b (128 + 8 * i) 8
def countAt (b : List Byte) (n k j : Nat) : Nat := tableAt b (k * n + j)
def displAt (b : List Byte) (n k j : Nat) : Nat := tableAt b (n * n + k * n + j)

/-- Elements of SEND of member k, and the extent of its RECV in elements (R180). -/
def sendElems (p : CollParams) (b : List Byte) (n k : Nat) : Nat :=
  match p.op with
  | 3 | 6 => n * p.count
  | 5 => if k = p.root then p.count else 0
  | 7 => ((List.range n).map (countAt b n k)).sum
  | 10 => 0
  | 12 => if k = p.root then n * p.count else 0
  | _ => p.count

def recvElems (p : CollParams) (b : List Byte) (n k : Nat) : Nat :=
  match p.op with
  | 2 => if k = p.root then p.count else 0
  | 4 | 6 => n * p.count
  | 7 => ((List.range n).map (fun j => if countAt b n j k = 0 then 0 else displAt b n j k + countAt b n j k)).foldl max 0
  | 10 => 0
  | 11 => if k = p.root then n * p.count else 0
  | _ => p.count

/-! ### Courses (R372, R373) -/

def bitLength (x : Nat) : Nat := if x = 0 then 0 else Nat.log2 x + 1

/-- The algorithm that runs. -/
def algOf (p : CollParams) (n : Nat) : Nat :=
  if p.alg ≠ 0 then p.alg else if p.op ≤ 5 then (if isPow2 n then 3 else 1) else 4

/-- Courses of a COLL within one package, the exponent course left out. -/
def collCourses (op a n : Nat) : Nat :=
  let c := log2Up n
  if n ≤ 1 then 1
  else match a, op with
    | 1, 1 => 2 * (n - 1)
    | 1, 2 => n
    | 1, _ => n - 1
    | 2, 1 => 2 * c
    | 2, 2 => c
    | 2, 3 => c + 1
    | 2, 4 => 2 * c
    | 2, _ => c
    | 3, 1 => 2 * c
    | 3, 2 => c + 1
    | 3, _ => c
    | _, 1 => 2
    | _, _ => 1

/-- The course (from 1) whose keystone writes block j of RECV of member k. -/
def finalCourse (op a n k j root : Nat) : Nat :=
  let c := log2Up n
  if n ≤ 1 then 1
  else match a, op with
    | 1, 1 => n - 1 + (k + n - j % n) % n
    | 2, 1 => c + bitLength k
    | 3, 1 => c + bitLength (k ^^^ j)
    | 1, 4 => max 1 ((k + n - j % n) % n)
    | 2, 4 => c + bitLength k
    | 3, 4 => max 1 (bitLength (k ^^^ j))
    | 1, 5 => max 1 ((k + n - root) % n)
    | 2, 5 | 3, 5 => max 1 (bitLength ((k + n - root) % n))
    | a, op => collCourses op a n

/-! ### What the operations move and reduce (R180) -/

/-- Element x of SEND of member k as a record of the reduction; none for a record that the collective refuses. -/
def contributed (p : CollParams) (alpha : BitVec 16) (k : Nat) (send : List Byte) (x : Nat) : Option (Nat × Fl) :=
  contribRec p.dtype p.redop alpha k (ofBytes (slice send (x * p.size) p.size))

/-- The records of a reduction by element, of the SENDs as they have been read. -/
def partials (p : CollParams) (alpha : BitVec 16) (elems : Nat) (src : List (Nat × List Byte)) : List Nat :=
  (List.range elems).map (fun x =>
    match src.filterMap (fun m => (contributed p alpha m.1 m.2 x).map (·.1)) with
    | [] => 0
    | r :: rs => rs.foldl (mergeRec p.dtype p.redop) r)

/-- A RECV element of a reduction: the record, or its one rounding. -/
def collElem (p : CollParams) (alpha : BitVec 16) (r : Nat) : List Byte × Fl :=
  if p.a80Out then
    if p.redop = 0 then (bytesOf 16 r, 0)
    else
      let v := if selNan r ≠ 0xFFFF then Num.nan 0 false else valueOf p.dtype (selVal r)
      let x := (A80.empty alpha).contribute (selNan r) v
      (bytesOf 16 x.1.enc, x.2)
  else (bytesOf p.size (finalRec p.dtype p.redop r).1, (finalRec p.dtype p.redop r).2)

/-- The pieces (offset, bytes) of RECV of member k under an operation that moves data. -/
def moved (p : CollParams) (b : List Byte) (n k : Nat) (src : Nat → List Byte) : List (Nat × List Byte) :=
  let all := List.range n
  let sz := p.count * p.size
  match p.op with
  | 4 => [(0, all.flatMap src)]
  | 5 => [(0, src p.root)]
  | 6 => [(0, all.flatMap (fun j => slice (src j) (k * sz) sz))]
  | 7 => all.map (fun j =>
      (displAt b n j k * p.size,
        slice (src j) (((List.range k).map (countAt b n j)).sum * p.size) (countAt b n j k * p.size)))
  | 8 => [(0, src ((k + n - p.root) % n))]
  | 9 => [(0, all.flatMap (fun j => slice (src j) (k * (sz / n)) (sz / n)))]
  | 11 => if k = p.root then [(0, all.flatMap src)] else []
  | 12 => [(0, slice (src p.root) (k * sz) sz)]
  | _ => []

/-- The pieces of RECV of member k under a reduction whose elements have been finished. -/
def reduced (p : CollParams) (k : Nat) (out : List Byte) : List (Nat × List Byte) :=
  match p.op with
  | 1 => [(0, out)]
  | 2 => if k = p.root then [(0, out)] else []
  | _ => [(0, slice out (k * p.count * p.outSize) (p.count * p.outSize))]

/-- A piece cut into the blocks that become final at different courses. -/
def blocksOf (p : CollParams) (n : Nat) (piece : Nat × List Byte) : List (Nat × Nat × List Byte) :=
  let step := (match p.op with
    | 1 => (p.count + n - 1) / n
    | 4 => p.count
    | _ => 0) * p.outSize
  if step = 0 then [(0, piece)]
  else (List.range n).filterMap (fun j =>
    let x := slice piece.2 (j * step) step
    if x = [] then none else some (j, piece.1 + j * step, x))

/-- Bytes of a buffer at the place of a member's slice: first row and offset (R179). -/
def keysAt (rank : Nat) (buf : Nat × Nat) (off : Nat) (bs : List Byte) : List (Nat × Byte) :=
  bs.zipIdx.map (fun x => ((Place.mk rank (buf.1 + (buf.2 + off + x.2) / 1024) ((buf.2 + off + x.2) % 1024)).key, x.1))

/-- The members of this package: member index and rank. -/
def localMembers (pkg : Nat) (ms : List (BitVec 32)) : List (Nat × Nat) :=
  (ms.zipIdx.filter (fun m => bits m.1.toNat 31 22 == pkg)).map (fun m => (m.2, m.1.toNat % 2 ^ 21))

def pkgOf (m : BitVec 32) : Nat := bits m.toNat 31 22
def spans (pkg : Nat) (ms : List (BitVec 32)) : Bool := ms.any (fun m => pkgOf m != pkg)
/-- Packages that take part, by lowest member index (R328). -/
def packagesOf (ms : List (BitVec 32)) : List Nat := dedup (ms.map pkgOf)
/-- A lost or disagreeing package is named by its lowest member index (R181). -/
def firstOf (ms : List (BitVec 32)) (pkg : Nat) : Nat := (ms.findIdx? (fun m => pkgOf m == pkg)).getD noMember

/-- The plan of a COLL's local members: (course, bytes). -/
def planOf (p : CollParams) (b : List Byte) (n : Nat) (loc : List (Nat × Nat)) (buf : Nat × Nat) (course : Nat → Nat → Nat)
    (pieces : Nat → List (Nat × List Byte)) : List (Nat × List (Nat × Byte)) :=
  let _ := b
  loc.flatMap (fun m => ((pieces m.1).flatMap (blocksOf p n)).map (fun x =>
    (course m.1 x.1, keysAt m.2 buf x.2.1 x.2.2)))

/-! ### The exponent course (R180) -/

/-- The value of a source element, an A80 record among them. -/
def collValue (code x : Nat) : Num :=
  if code = Fmt.a80 then
    let r := A80.dec x
    if r.flags.toNat % 8 ≠ 0 then .nan 0 false else .fin (decide (r.val < 0)) r.val.natAbs r.alphaInt
  else valueOf code x

/-- floor(log2) of the largest finite magnitude, none when every value is zero or not finite. -/
def topExp (code size : Nat) (srcs : List (List Byte)) : Option Int :=
  srcs.foldl (fun top bs => (List.range (bs.length / size)).foldl (fun top i =>
    match collValue code (ofBytes (slice bs (i * size) size)) with
    | .fin _ m e => if m = 0 then top else
        let l : Int := (Nat.log2 m : Int) + e
        some (match top with | some t => max t l | none => l)
    | _ => top) top) none

def autoAlpha (top : Option Int) : Int :=
  match top with
  | none => 0
  | some e => max (-1024) (min 1023 (e - 70))

/-- α of a reduction, the exponent of its data given. -/
def alphaOf (p : CollParams) (top : Option Int) : BitVec 16 :=
  if p.isInt then 0
  else if p.auto && p.reduces then BitVec.ofInt 16 (autoAlpha top)
  else BitVec.ofInt 16 p.anchorInt

/-! ### Checks of the buffers (R179, R181, R252, R373) -/

/-- What the checks of a buffer find: RANGE or PERM with the lowest member, where its slice and offset are, and a page that the pagers
hold (R292). -/
structure BufCheck where
  range : Option (Nat × Nat)
  perm  : Option (Nat × Nat)
  buf   : Option (Nat × Nat)
  held  : Option Nat

/-- A page of a buffer: the walk, or the pagers' answer to it. -/
def pageWalk (vd va : Nat) (k : AccessKind) (h : Option Hold) (s : State) : State × Walk :=
  match walk s deviceDie vd va k with
  | (s1, .hold) => match h with
    | some ⟨v, some false⟩ => if v.toNat / 65536 = va / 65536 then (s1, .fault Cause.pperm) else (s1, .hold)
    | _ => (s1, .hold)
  | r => r

/-- A buffer of SEND or RECV (R179, R181). -/
def bufAt (vd ptr : Nat) (loc : List (Nat × Nat)) (size : Nat → Nat) (k : AccessKind) (h : Option Hold) (s : State) : State × BufCheck :=
  let va := ptr % 2 ^ 55
  match pageWalk vd va k h s with
  | (s1, .ok pa) =>
    match s1.window vd pa with
    | none => (s1, ⟨some (4, 0), none, none, none⟩)
    | some w =>
      if !w.banked || bits pa 51 42 != s1.pkg then (s1, ⟨some (4, 0), none, none, none⟩)
      else
        let span := w.rows * 1024
        let off := (pa - w.base) % span
        match loc.find? (fun m => decide (m.2 < w.first) || decide (w.first + w.count ≤ m.2) || decide (span < off + size m.1)) with
        | some m => (s1, ⟨some (4, m.1), none, none, none⟩)
        | none =>
          let pages (m : Nat × Nat) : List Nat :=
            let a := va + (m.2 - w.first) * span + w.base + off - pa
            if size m.1 = 0 then [] else (List.range ((a + size m.1 - 1) / 65536 + 1 - a / 65536)).map (a / 65536 + ·)
          loc.foldl (fun (acc : State × BufCheck) m =>
            (pages m).foldl (fun acc q =>
              if acc.2.perm.isSome then acc
              else match pageWalk vd (q * 65536 % 2 ^ 55) k h acc.1 with
                | (s2, .ok _) => (s2, acc.2)
                | (s2, .hold) => (s2, { acc.2 with held := acc.2.held.or (some (q * 65536 % 2 ^ 55)) })
                | (s2, _) => (s2, { acc.2 with perm := some (5, m.1) })) acc) (s1, ⟨none, none, some (w.firstRow, off), none⟩)
  | (s1, .hold) => (s1, ⟨none, none, none, some va⟩)
  | (s1, _) => (s1, ⟨none, some (5, 0), none, none⟩)

/-- The rows of `len` bytes of a buffer. -/
def bufRows (buf : Nat × Nat) (len : Nat) : List Nat :=
  if len = 0 then [] else (List.range ((buf.2 + len - 1) / 1024 + 1 - buf.2 / 1024)).map (buf.1 + buf.2 / 1024 + ·)

/-- Bytes of SEND and of RECV of member k. -/
def sendLen (p : CollParams) (b : List Byte) (n k : Nat) : Nat := sendElems p b n k * p.size
def recvLen (p : CollParams) (b : List Byte) (n k : Nat) : Nat := recvElems p b n k * p.outSize

/-- The course of a binomial tree over n members in which the member at index j gives its own data. -/
def treeFirst (n j : Nat) : Nat :=
  (((List.range (log2Up n)).find? (fun t => j % 2 ^ (t + 1) == 2 ^ t || (j % 2 ^ (t + 1) == 0 && decide (j + 2 ^ t < n)))).getD 0) + 1

/-- What member k reads in course t (from 1, the exponent course left out) of a COLL within one package (R252, R372): parts of SEND (true) or
RECV (false), from a byte, so many. Partial results lie in rows of the mortar pool (R373). -/
def collReads (p : CollParams) (b : List Byte) (n k t : Nat) : List (Bool × Nat × Nat) :=
  let a := algOf p n
  let c := log2Up n
  let j := (k + n - (if p.op = 2 ∨ p.op = 5 then p.root % n else 0)) % n
  let sends (u : Nat) : Bool := decide (j < 2 ^ (u - 1)) && decide (j + 2 ^ (u - 1) < n)
  let own : List (Bool × Nat × Nat) := [(true, 0, sendLen p b n k)]
  let whole : List (Bool × Nat × Nat) := [(false, 0, recvLen p b n k)]
  let e := if p.op = 4 then n * p.count else sendElems p b n k
  let w := if p.op = 4 then p.count else (e + n - 1) / n
  let part (src : Bool) (size lo hi : Nat) : Bool × Nat × Nat := (src, size * min e (lo * w), size * (min e (hi * w) - min e (lo * w)))
  let halves (d : Nat) : List (Bool × Nat × Nat) := [part false p.outSize (k / d * d) (k / d * d + d)]
  if n ≤ 1 ∨ a = 4 then (if t = 1 then own else [])
  else match a, p.op with
  | 1, 4 => if t = 1 then own else [part false p.outSize ((k + n + 1 - t) % n) ((k + n + 1 - t) % n + 1)]
  | 1, 5 => if j + 1 = t then (if j = 0 then own else whole) else []
  | 1, op =>
    if t < n then
      let got := (k + 2 * n - 1 - t) % n
      let sent := (k + n - 1) % n
      part true p.size got (got + 1) :: (if t = 1 then [part true p.size sent (sent + 1)] else [])
    else if op = 1 then [part false p.outSize ((k + 2 * n - t) % n) ((k + 2 * n - t) % n + 1)] else []
  | 2, 5 | 3, 5 => if sends t || (t == 1 && j == 0) then (if j = 0 then own else whole) else []
  | 2, op =>
    if t = treeFirst n j then own
    else if c < t ∧ (op = 1 ∨ op = 4) ∧ sends (t - c) = true then whole else []
  | 3, 4 => if t = 1 then own else halves (2 ^ (t - 1))
  | _, op => if t = 1 then own else if op = 1 ∧ c < t then halves (2 ^ (t - c - 1)) else []

/-- The pieces of RECV of member k: offset and bytes, as zeros. -/
def piecesOf (p : CollParams) (b : List Byte) (n k : Nat) : List (Nat × List Byte) :=
  if p.reduces then reduced p k (List.replicate (sendElems p b n k * p.outSize) 0)
  else moved p b n k (fun j => List.replicate (sendLen p b n j) 0)

/-- What member k writes in course t: parts of RECV. -/
def collWrites (p : CollParams) (b : List Byte) (n k t : Nat) : List (Nat × Nat) :=
  (((piecesOf p b n k).flatMap (blocksOf p n)).filter (fun x => finalCourse p.op (algOf p n) n k x.1 p.root == t)).map
    (fun x => (x.2.1, x.2.2.length))

/-- A COLL's courses (R372, R327): within one package its own; across packages a first that reads SEND and a last that writes RECV. -/
def stageReads (p : CollParams) (b : List Byte) (n : Nat) (far : Bool) (k t : Nat) : List (Bool × Nat × Nat) :=
  if far then (if t = 1 then [(true, 0, sendLen p b n k)] else [])
  else if t ≤ p.extra then [(true, 0, sendLen p b n k)]
  else collReads p b n k (t - p.extra)

def stageWrites (p : CollParams) (b : List Byte) (n : Nat) (far : Bool) (k t : Nat) : List (Nat × Nat) :=
  if far then (if t = 1 then [] else (piecesOf p b n k).map (fun x => (x.1, x.2.length)))
  else if t ≤ p.extra then []
  else collWrites p b n k (t - p.extra)

def stageCount (p : CollParams) (n : Nat) (far : Bool) : Nat := if far then 2 else p.extra + collCourses p.op (algOf p n) n

/-- Rows of a part of a buffer. -/
def partRows (buf : Option (Nat × Nat)) (off len : Nat) : List Nat := (buf.map (fun x => bufRows (x.1, x.2 + off) len)).getD []

/-- The footprint of member k in course t: its source and destination rows of this course (R252), as far as the buffers are known. -/
def collRows (p : CollParams) (b : List Byte) (n : Nat) (far : Bool) (send recv : Option (Nat × Nat)) (k t : Nat) : List Nat :=
  dedup ((stageReads p b n far k t).flatMap (fun r => partRows (if r.1 then send else recv) r.2.1 r.2.2) ++
    (stageWrites p b n far k t).flatMap (fun w => partRows recv w.1 w.2))

/-- Column words that member k reads in course t: rows with a byte of each. -/
def collSources (p : CollParams) (b : List Byte) (n : Nat) (far : Bool) (bufs : List (Nat × Nat)) (k t : Nat) : List (Nat × Nat) :=
  (stageReads p b n far k t).flatMap (fun r =>
    match if r.1 then bufs[0]? else bufs[1]? with
    | none => []
    | some x => if r.2.2 = 0 then [] else
      let at_ := x.2 + r.2.1
      (List.range ((at_ + r.2.2 + 31) / 32 - at_ / 32)).map (fun w =>
        (x.1 + (at_ / 32 + w) / 32, (at_ / 32 + w) % 32 * 32)))

/-- The worse of two outcomes in the order RANGE, NOMEM, PERM; of equal codes the lower member. -/
def worseCode (a b : Option (Nat × Nat)) : Option (Nat × Nat) :=
  let key (x : Nat × Nat) : Nat := if x.1 = 4 then 0 else if x.1 = 9 then 1 else if x.1 = 5 then 2 else 3
  match a, b with
  | none, x => x
  | x, none => x
  | some x, some y => if key x < key y ∨ (key x = key y ∧ x.2 ≤ y.2) then some x else some y

/-- What the checks of a COLL find: a code with its member, a page that is held, or the buffers. -/
inductive CollCheck where
  | code (c m : Nat)
  | held (va : Nat)
  | ok (bufs : List (Nat × Nat))

/-- RANGE, NOMEM and PERM of a COLL (R181): the first in that order with the lowest member at which it holds. COUNTS or DISPLS that
do not translate with R leave the block without its tables, which is PERM at every member. DESIGN CHOICE (log 78): R373 does not say how
many rows the partial records take; the model counts 16 bytes for each SEND element of a reduction at every member, in every course. -/
def collChecks (vd : Nat) (p : CollParams) (b : List Byte) (n : Nat) (far : Bool) (loc : List (Nat × Nat)) (h : Option Hold) (s : State) :
    State × CollCheck :=
  let rootBad := ([2, 5, 8, 11, 12].contains p.op && decide (n ≤ p.root)) || (p.op == 9 && p.count % n != 0)
  let first (f : Nat × Nat → Bool) (code : Nat) : Option (Nat × Nat) := (loc.find? f).map (fun m => (code, m.1))
  let disabled := first (fun m => !(s.rank m.2).enabled) 5
  let outcome (s : State) (e : Option (Nat × Nat)) (held : Option Nat) (bufs : List (Nat × Nat)) : State × CollCheck :=
    match e, held with
    | some x, _ => (s, .code x.1 x.2)
    | none, some va => (s, .held va)
    | none, none => (s, .ok bufs)
  if rootBad then (s, .code 4 0)
  else if p.op = 10 then outcome s disabled none []
  else if p.count = 0 then (s, .ok [])
  else
    let r1 := bufAt vd p.send loc (sendLen p b n) .load h s
    let r2 := bufAt vd (if p.inPlace then p.send else p.recv) loc (recvLen p b n) .store h r1.1
    let s2 := r2.1
    let tables := if p.op = 7 ∧ b.length < 128 + 16 * n * n then some (5, 0) else none
    let courses := (List.range (stageCount p n far)).map (· + 1)
    let rows (m : Nat × Nat) (t : Nat) : List Nat := collRows p b n far r1.2.buf r2.2.buf m.1 t
    let extra (m : Nat × Nat) : Nat := if p.reduces then (16 * sendElems p b n m.1 + 1023) / 1024 else 0
    let big := first (fun m => courses.any (fun t => decide (3070 < (rows m t).length + extra m))) 9
    let denied := first (fun m => courses.any (fun t => (rows m t).any (fun r => !s2.permits vd m.2 r (·.k)))) 5
    outcome s2 ([r1.2.range, r2.2.range, big, tables, r1.2.perm, r2.2.perm, denied, disabled].foldl worseCode none)
      (r1.2.held.or r2.2.held) (r1.2.buf.toList ++ r2.2.buf.toList)

/-! ### Link steps (R327 to R329) -/

def domainOf (s : State) (vd : Nat) : BitVec 16 := BitVec.ofNat 16 (bits (s.vd vd).desc.dombase.toNat 25 10)

/-- A packet of a collective step; step 0 carries what the packages must agree on and their exponent (log 52). -/
def stepPacket (s : State) (vd dst : Nat) (p : CollParams) (alpha : BitVec 16) (contrib step : Nat) (rs : List (BitVec 128)) : Packet :=
  { vc := 2, domain := domainOf s vd, src := BitVec.ofNat 16 s.pkg, dst := BitVec.ofNat 16 dst, seq := 0
    len := BitVec.ofNat 16 (16 * rs.length), pa := 0, size := 0, op := .none, data := 0, ident := 0, tagGood := true
    group := BitVec.ofNat 32 p.group, tag := BitVec.ofNat 32 p.tag, alpha := alpha, dtype := BitVec.ofNat 8 p.dtype
    redop := BitVec.ofNat 8 p.redop, contrib := BitVec.ofNat 16 contrib, step := BitVec.ofNat 16 step, records := rs }

/-- Payloads hold 512 bytes: 32 records. -/
def payloads : Nat → List (BitVec 128) → List (List (BitVec 128))
  | 0, _ => []
  | f + 1, rs => if rs.length ≤ 32 then [rs] else rs.take 32 :: payloads f (rs.drop 32)

/-- The records of a step leave. A sum travels as A80 records (R327); DESIGN CHOICE (log 52): the other REDOPs, which select exactly (R180)
where an A80 record rounds at α, travel as the selection records of R208. -/
def sendSteps (cls : BitVec 8) (vd : Nat) (dsts : List Nat) (p : CollParams) (alpha : BitVec 16) (contrib step : Nat)
    (rs : List (BitVec 128)) (s : State) : State :=
  dsts.foldl (fun s d => (payloads (rs.length + 1) rs).foldl (fun s c => sendPacket (s.vd vd).seals cls (stepPacket s vd d p alpha contrib step c) s) s) s

/-- The packet belongs to this COLL. -/
def stepOf (s : State) (vd : Nat) (p : CollParams) (x : Packet) : Bool :=
  x.domain == domainOf s vd && x.group == BitVec.ofNat 32 p.group && x.tag == BitVec.ofNat 32 p.tag

/-- Records of its agreement that a source still owes, per source; the packets of those that have begun another one. -/
def nextAgreements (owed : List (Nat × Nat)) : List Packet → List Packet
  | [] => []
  | x :: r =>
    let q := x.src.toNat
    if x.step ≠ 0 then nextAgreements owed r
    else match lookup q owed with
      | none => nextAgreements (put q ((x.records.headD 0).toNat / 2 ^ 96 - x.records.length) owed) r
      | some n => if n = 0 then x :: nextAgreements owed r else nextAgreements (put q (n - x.records.length) owed) r

/-- Packets of a COLL that has ended are not kept; those of the next one with its TAG are, of which only step 0 can have come: its other
steps follow this package's own (R327). -/
def dropSteps (vd : Nat) (c : RingCmd) (s : State) : State :=
  let mine := s.link.steps.filter (fun x => stepOf s vd (collParams c.block) x)
  { s with link := { s.link with
      steps := s.link.steps.filter (fun x => !stepOf s vd (collParams c.block) x) ++ nextAgreements [] mine } }

/-- The records a package has sent for a step, in order of arrival. -/
def received (s : State) (vd : Nat) (p : CollParams) (src step : Nat) : List (BitVec 128) :=
  (s.link.steps.filter (fun x => stepOf s vd p x && x.src.toNat == src && x.step.toNat == step)).flatMap (·.records)

/-- What step 0 says: OP and COUNT with the number of records; the exponent of the package's data plus 2^15, or 0, and above it whether
the VD is sealed (R329) and whether α is found by AUTO_ANCHOR; then the member list. -/
def agreement (p : CollParams) (sealed_ : Bool) (ms : List (BitVec 32)) (top : Option Int) : List (BitVec 128) :=
  let flag (b : Bool) (k : Nat) : Nat := if b then 2 ^ k else 0
  [BitVec.ofNat 128 (p.op + p.count % 2 ^ 64 * 2 ^ 16 + (ms.length + 2) * 2 ^ 96),
    BitVec.ofNat 128 ((match top with | none => 0 | some e => (e + 32768).toNat) + flag sealed_ 64 + flag (p.auto && !p.isInt) 65)] ++
    ms.map (·.setWidth 128)

/-- α that a package states at step 0: none of its own for integers and under AUTO_ANCHOR. -/
def statedAlpha (p : CollParams) : BitVec 16 := if p.isInt || (p.auto && p.reduces) then 0 else BitVec.ofInt 16 p.anchorInt

/-- The step 0 of a package, without one that it has sent for the next COLL of the TAG. -/
def stepZero (s : State) (vd : Nat) (p : CollParams) (src : Nat) : List (BitVec 128) :=
  let rs := received s vd p src 0
  rs.take ((rs.headD 0).toNat / 2 ^ 96)

/-- The step 0 of a package is here whole. -/
def agreed (rs : List (BitVec 128)) : Bool :=
  match rs with
  | r :: _ => decide (r.toNat / 2 ^ 96 ≤ rs.length)
  | [] => false

/-- What a step 0 says that the packages must agree on, with α and DTYPE of its header. -/
def saidOf (rs : List (BitVec 128)) (head : Option (BitVec 16 × BitVec 8)) :
    List (BitVec 128) × List (BitVec 128) × Bool × Option (BitVec 16 × BitVec 8) :=
  (rs.take 1, rs.drop 2, (rs.getD 1 0).getLsbD 65, head)

/-- What package q says, this one by its own records. -/
def saidBy (s : State) (vd : Nat) (p : CollParams) (own : List (BitVec 128)) (q : Nat) :
    List (BitVec 128) × List (BitVec 128) × Bool × Option (BitVec 16 × BitVec 8) :=
  if q = s.pkg then saidOf own (some (if p.isInt || (p.auto && p.reduces) then 0 else BitVec.ofInt 16 p.anchorInt, BitVec.ofNat 8 p.dtype))
  else saidOf (stepZero s vd p q)
    ((s.link.steps.find? (fun x => stepOf s vd p x && x.src.toNat == q && x.step.toNat == 0)).map (fun x => (x.alpha, x.dtype)))

/-- Packages outside this one's list that have sent their step 0: they count this one among their members (R327). -/
def strangers (s : State) (vd : Nat) (p : CollParams) (pkgs : List Nat) : List Nat :=
  (dedup ((s.link.steps.filter (fun x => stepOf s vd p x && x.step.toNat == 0)).map (·.src.toNat))).filter (fun q => !pkgs.contains q)

/-- The packages of a list whose step 0 is here, this one's among them. -/
def heardFrom (s : State) (vd : Nat) (p : CollParams) (pkgs : List Nat) : List Nat :=
  pkgs.filter (fun q => q == s.pkg || agreed (stepZero s vd p q))

/-- Some package disagrees (R181, R327): the lowest member index of the first, in package order, that differs from the first that was heard;
none of its own for a package outside the list. -/
def disagreeing (s : State) (vd : Nat) (p : CollParams) (own : List (BitVec 128)) (ms : List (BitVec 32)) : Option Nat :=
  let here := heardFrom s vd p (packagesOf ms)
  match here.find? (fun q => saidBy s vd p own q != saidBy s vd p own (here.headD s.pkg)) with
  | some q => some (firstOf ms q)
  | none => if (strangers s vd p (packagesOf ms)).isEmpty then none else some noMember

/-- OP is reducing, no member VD is sealed, and every switch on every path reduces (R329). -/
def eligible (s : State) (vd : Nat) (p : CollParams) (others : List Nat) : Bool :=
  p.reduces && !(s.vd vd).seals && others.all (fun q => !((stepZero s vd p q).getD 1 0).getLsbD 64) && Config.pathReduces p.group

/-- This package's block: a record per element of a reduction, or the SEND bytes of its members in member order. -/
def recordsOf (bs : List Byte) : List (BitVec 128) :=
  (List.range ((bs.length + 15) / 16)).map (fun i => BitVec.ofNat 128 (num bs (16 * i) 16))

def bytesOfRecords (rs : List (BitVec 128)) : List Byte := rs.flatMap (fun r => bytesOf 16 r.toNat)

def moveBlock (sends : List (List Byte)) : List (BitVec 128) := sends.flatMap recordsOf

/-- SEND of member k within the blocks of all packages. -/
def sendFrom (p : CollParams) (b : List Byte) (ms : List (BitVec 32)) (block : Nat → List (BitVec 128)) (k : Nat) : List Byte :=
  let n := ms.length
  let q := pkgOf (ms.getD k 0)
  let before := ((localMembers q ms).filter (fun m => decide (m.1 < k))).map (fun m => (sendLen p b n m.1 + 15) / 16)
  ((bytesOfRecords (block q)).drop (16 * before.sum)).take (sendLen p b n k)

/-- Records a package's block has. -/
def blockSize (p : CollParams) (b : List Byte) (ms : List (BitVec 32)) (q : Nat) : Nat :=
  let n := ms.length
  if p.reduces then sendElems p b n 0
  else ((localMembers q ms).map (fun m => (sendLen p b n m.1 + 15) / 16)).sum

/-! ### Running a COLL -/

def State.membersOf (_ : State) (_ : Nat) (c : RingCmd) : List (BitVec 32) := groupIn c.groups (collParams c.block).group

/-- The course record of a COLL's next course. -/
def addCourse (vd : Nat) (c : RingCmd) (index total : Nat) (s : State) : State :=
  let p := collParams c.block
  let ms := s.membersOf vd c
  let loc := localMembers s.pkg ms
  { s with
    nextId := s.nextId + 1
    courses := s.courses ++ [⟨s.nextId, vd, some c.n, c.q, c.launch, p.group, false, loc.map (·.2), [], false, [], [], [], index, total, [],
      none, false, loc.map (·.1), s.ring⟩] }

/-- SEND of a local member with the parts that a course reads as they stand now; `old` is what earlier courses have read. -/
def readSend (s : State) (buf : Nat × Nat) (m : Nat × Nat) (parts : List (Bool × Nat × Nat)) (old : List Byte) : List Byte :=
  (parts.filter (·.1)).foldl (fun bs r => patch bs r.2.1 ((List.range r.2.2).map (fun i =>
    s.bankByte ⟨m.2, buf.1 + (buf.2 + r.2.1 + i) / 1024, (buf.2 + r.2.1 + i) % 1024⟩))) old

def sendBytes (s : State) (p : CollParams) (b : List Byte) (n : Nat) (bufs : List (Nat × Nat)) (m : Nat × Nat) : List Byte :=
  match bufs with
  | x :: _ => readSend s x m [(true, 0, sendLen p b n m.1)] (List.replicate (sendLen p b n m.1) 0)
  | [] => []

/-- A COLL that has passed what it checks before its buffers. While the pagers hold a page of RECV it waits as it was (R292). -/
def checkedColl (vd : Nat) (c : RingCmd) (s : State) : State :=
  let p := collParams c.block
  let ms := s.membersOf vd c
  let n := ms.length
  let others := (packagesOf ms).filter (· != s.pkg)
  match collChecks vd p c.block n (!others.isEmpty) (localMembers s.pkg ms) c.held s with
  | (s1, .code code m) => finishCmd vd c.n code m s1
  | (s1, .held va) => updCmd vd c.n (fun x => { x with
      held := some ⟨BitVec.ofNat 64 va, none⟩, state := if others = [] then .posted else .running }) s1
  | (s1, .ok bufs) =>
    if others ≠ [] ∧ p.policy = 2 ∧ eligible s vd p others = false then finishCmd vd c.n 8 noMember s1
    else if p.op ≠ 10 ∧ p.count = 0 then finishCmd vd c.n 0 0 s1
    else
      let c1 := { c with bufs := bufs }
      let total := stageCount p n (!others.isEmpty)
      addCourse vd c1 0 total (updCmd vd c.n (fun x => { x with
        bufs := bufs, state := .running, held := none, inRing := false, links := if others = [] then 0 else 2, alpha := c.alpha }) s1)

/-- The step 0 of this package leaves for others. -/
def sendZero (vd : Nat) (p : CollParams) (own : List (BitVec 128)) (dsts : List Nat) (s : State) : State :=
  sendSteps 9 vd dsts p (statedAlpha p) 0 0 own s

/-- The packages have all sent step 0: they agree, and α of AUTO_ANCHOR is the one of all data; else MISMATCH. A package outside the list
that waits for this one's step 0 gets it, and all of them fail (R181, R327). -/
def tryAgree (vd n : Nat) (s : State) : State :=
  match s.cmd vd n with
  | none => s
  | some c =>
    let p := collParams c.block
    let ms := s.membersOf vd c
    let pkgs := packagesOf ms
    if c.links ≠ 1 ∨ c.state ≠ .running ∨ c.held.any (·.answer.isNone) = true ∨ heardFrom s vd p pkgs ≠ pkgs then s
    else match disagreeing s vd p c.own ms with
      | some m => finishCmd vd n 1 m (sendZero vd p c.own (strangers s vd p pkgs) s)
      | none =>
        let exps := pkgs.map (fun q => ((if q = s.pkg then c.own else stepZero s vd p q).getD 1 0).toNat % 2 ^ 64)
        let top : Option Int := if exps.foldl max 0 = 0 then none else some ((exps.foldl max 0 : Nat) - 32768)
        checkedColl vd { c with alpha := alphaOf p top } s

/-- The lowest member of a lost package that the group has (R331). -/
def State.lostOf (s : State) (ms : List (BitVec 32)) : Option Nat :=
  ms.findIdx? (fun m => pkgOf m != s.pkg && s.link.lost.contains (pkgOf m))

/-- COLL starts (R178): BADPARAM of the block and of the group; across packages the agreement goes out first, and one that needs a lost
package fails MEMBER_LOST (R331). -/
def startColl (vd : Nat) (c : RingCmd) (s : State) : State :=
  let p0 := collParams c.block
  let ms := groupIn c.groups p0.group
  let n := ms.length
  let running := updCmd vd c.n (fun x => { x with state := .running }) s
  let badAlg := spans s.pkg ms && p0.alg == 3 && !isPow2 (packagesOf ms).length
  if p0.bad n ∨ ms = [] ∨ badAlg then finishCmd vd c.n 7 noMember s
  else if firstCore ms ≠ noMember then finishCmd vd c.n 7 (firstCore ms) s
  else if localMembers s.pkg ms = [] then finishCmd vd c.n 7 noMember s
  else
    let go (b : List Byte) (s : State) : State :=
      let c1 := { c with block := b, state := .running }
      let s1 := updCmd vd c.n (fun x => { x with block := b }) s
      if spans s.pkg ms then
        if (s1.lostOf ms).isSome then finishCmd vd c.n 3 ((s1.lostOf ms).getD 0) s1
        else
        let bufs := (bufAt vd p0.send (localMembers s.pkg ms) (sendLen p0 b n) .load none s1).2.buf.toList
        let top := if p0.extra = 1 then topExp p0.dtype p0.size ((localMembers s.pkg ms).map (sendBytes s1 p0 b n bufs)) else none
        let a := agreement p0 (s.vd vd).seals ms top
        tryAgree vd c.n (sendZero vd p0 a ((packagesOf ms).filter (· != s.pkg))
          (updCmd vd c.n (fun x => { x with links := 1, own := a }) s1))
      else checkedColl vd c1 s1
    if p0.op = 7 ∧ c.block.length < 128 + 16 * n * n then
      match running.vread vd (p0.counts % 2 ^ 55) (8 * n * n) with
      | (s1, none) => go (c.block.take 128) s1
      | (s1, some xs) =>
        match s1.vread vd (p0.displs % 2 ^ 55) (8 * n * n) with
        | (s2, none) => go (c.block.take 128) s2
        | (s2, some ys) => go (c.block.take 128 ++ xs ++ ys) s2
    else go c.block running

/-! ### Courses of a COLL -/

/-- The plan of a reduction whose records are complete. -/
def planReduced (p : CollParams) (b : List Byte) (n : Nat) (loc : List (Nat × Nat)) (buf : Nat × Nat) (alpha : BitVec 16)
    (course : Nat → Nat → Nat) (rs : List Nat) : List (Nat × List (Nat × Byte)) × Fl :=
  let es := rs.map (collElem p alpha)
  let out := es.flatMap (·.1)
  (planOf p b n loc buf course (fun k => reduced p k out), es.foldl (fun a e => a ||| e.2) 0)

/-- Element x of a reduction is final in course t at some local member: the block it lies in is (R373). -/
def finalIn (p : CollParams) (n : Nat) (loc : List (Nat × Nat)) (t x : Nat) : Bool :=
  loc.any (fun m =>
    let at_ (j : Nat) : Bool := finalCourse p.op (algOf p n) n m.1 j p.root == t
    match p.op with
    | 1 => at_ (x / max 1 ((p.count + n - 1) / n))
    | 2 => m.1 == p.root && at_ 0
    | _ => x / max 1 p.count == m.1 && at_ 0)

/-- What course t of a reduction within the package writes, and the events of its roundings: of the elements that it makes final. -/
def reduceStep (p : CollParams) (b : List Byte) (n : Nat) (loc : List (Nat × Nat)) (recv : Nat × Nat) (alpha : BitVec 16) (t : Nat)
    (sends : List (Nat × List Byte)) : List (Nat × Byte) × Fl :=
  let es := (partials p alpha (sendElems p b n 0) sends).zipIdx.map (fun r =>
    if finalIn p n loc t r.2 then collElem p alpha r.1 else (List.replicate p.outSize 0, 0))
  let plan := planOf p b n loc recv (fun k j => finalCourse p.op (algOf p n) n k j p.root) (fun k => reduced p k (es.flatMap (·.1)))
  ((plan.filter (fun x => x.1 == t)).flatMap (·.2), es.foldl (fun a e => a ||| e.2) 0)

/-- The elements of SEND that the parts read cover. -/
def elemsRead (p : CollParams) (parts : List (Bool × Nat × Nat)) : List Nat :=
  (parts.filter (·.1)).flatMap (fun r => (List.range (r.2.2 / p.size)).map (r.2.1 / p.size + ·))

/-- COURSE_OPEN of a COLL's course (R252): it reads the source rows of this course as they stand, and writes the RECV elements that it makes
final (R373). What one member passes on of its RECV is what the command made (log 51). -/
def openCollCourse (k0 : Course) (n : Nat) (s : State) : State :=
  match s.cmd k0.vd n with
  | none => s
  | some c =>
    let p := collParams c.block
    let ms := s.membersOf k0.vd c
    let m := ms.length
    let far := spans s.pkg ms
    let t := k0.index + 1
    let loc := localMembers s.pkg ms
    let recv := c.bufs.getD 1 (0, 0)
    let k : Course := { k0 with foot := loc.flatMap (fun x => (collRows p c.block m far c.bufs[0]? c.bufs[1]? x.1 t).map (fun r => (x.2, r))) }
    let opened (bytes : List (Nat × Byte)) (s : State) : State := s.setCourse { k with opened := true, staged := bytes }
    match k.members.findIdx? (fun r => (s.rank r).lost) with
    | some i => failCourse k.id 3 (k.number i) none s
    | none =>
      match (k.foot.find? (fun f => !(s.rank f.1).enabled || !s.permits k.vd f.1 f.2 (·.k))).or
          ((k.members.find? (fun r => !(s.rank r).enabled)).map (fun r => (r, 0))) with
      | some f => failCourse k.id 5 (memberOf k f.1) none s
      | none =>
      if !poolReady s k then s
      else match loc.findSome? (fun x => badAmong s x.2 (collSources p c.block m far c.bufs x.1 t)) with
        | some w => loseRank w.rank ((s.setCourse { k with opened := true }).wordRecord k.vd none [w] 0 5 0xFFFFFFFF 0xFF).1
        | none =>
          let parts (x : Nat × Nat) : List (Bool × Nat × Nat) := stageReads p c.block m far x.1 t
          let sends := loc.map (fun x => (x.1, match c.bufs with
            | buf :: _ => readSend s buf x (parts x) ((lookup x.1 c.read).getD (List.replicate (sendLen p c.block m x.1) 0))
            | [] => []))
          let src (j : Nat) : List Byte := (lookup j sends).getD []
          if far && t != 1 then opened ((c.plan.filter (fun x => x.1 == t)).flatMap (·.2)) s
          else if !far && decide (t ≤ p.extra) then
            opened [] (updCmd k.vd n (fun x => { x with alpha := alphaOf p (topExp p.dtype p.size (sends.map (·.2))) }) s)
          else
            let alpha := if far || p.extra == 1 then c.alpha else alphaOf p none
            let s1 := updCmd k.vd n (fun x => { x with read := sends, alpha := alpha }) s
            if p.reduces then
              let new := loc.flatMap (fun x => (elemsRead p (parts x)).map (fun e => (x.1, contributed p alpha x.1 (src x.1) e)))
              match new.find? (fun r => r.2.isNone) with
              | some r => failCourse k.id 1 r.1 none (s1.setCourse { k with opened := true })
              | none =>
                let fl := new.foldl (fun a r => a ||| (r.2.map (·.2)).getD 0) 0
                if far then opened [] (updCmd k.vd n (fun x => { x with
                  own := (partials p alpha (sendElems p c.block m 0) sends).map (BitVec.ofNat 128), cflags := x.cflags ||| fl }) s1)
                else
                  let q := reduceStep p c.block m loc recv alpha (t - p.extra) sends
                  opened q.1 (updCmd k.vd n (fun x => { x with cflags := x.cflags ||| fl ||| q.2 }) s1)
            else if far then opened [] (updCmd k.vd n (fun x => { x with own := moveBlock (sends.map (·.2)) }) s1)
            else
              let plan := planOf p c.block m loc recv (fun a b => finalCourse p.op (algOf p m) m a b p.root) (fun j => moved p c.block m j src)
              opened ((plan.filter (fun x => x.1 == t - p.extra)).flatMap (·.2)) s1

/-- A reduced result that disagrees with the request (R329). -/
def badResult (p : CollParams) (c : RingCmd) (m : Nat) (x : Packet) : Bool :=
  x.alpha != c.alpha || x.dtype != BitVec.ofNat 8 p.dtype || x.redop != BitVec.ofNat 8 p.redop || x.contrib.toNat != m

/-- Numbers that the model gives to steps that R328 does not number: a result of switches, and the hops of RAIL with the destination or
source package (R330, log 52). -/
def stepResult : Nat := 0x2000
def stepRail : Nat := 0x4000
def stepForward : Nat := 0x8000

/-- Link steps of an algorithm over p packages (R328). -/
def linkSteps (alg p : Nat) : Nat :=
  match alg with
  | 1 => 2 * (p - 1)
  | 2 => 2 * log2Up p
  | 3 => 2 * log2Up p
  | _ => 1

/-- The algorithm of the link steps over n packages (R328): direct only for ALLTOALL and ALLTOALLV, and where ALG says so. -/
def linkAlg (p : CollParams) (n : Nat) : Nat :=
  if p.op = 6 ∨ p.op = 7 then 4 else if p.alg ≠ 0 then p.alg else if isPow2 n then 3 else 1

/-- The chunks that the package at position i sends at step t (from 1), by destination: as CRED does within a package (R208) for the ring
and for halving and doubling; the tree sends everything to its parent, then back (R328). -/
def linkSends (alg p t i : Nat) : List (Nat × List Nat) :=
  let all := List.range p
  match alg with
  | 1 => [((i + 1) % p, [if t < p then (i + p - t) % p else (i + 2 * p - t) % p])]
  | 2 =>
    let c := log2Up p
    if t ≤ c then
      let d := 2 ^ (t - 1)
      if i % (2 * d) = d then [(i - d, all)] else []
    else
      let d := 2 ^ (2 * c - t)
      if i % (2 * d) = 0 ∧ i + d < p then [(i + d, all)] else []
  | 3 =>
    let l := log2Up p
    if t ≤ l then
      let d := p >>> t
      [(i ^^^ d, (List.range d).map ((i ^^^ d) / d * d + ·))]
    else
      let d := 2 ^ (t - l - 1)
      [(i ^^^ d, (List.range d).map (i / d * d + ·))]
  | _ => (all.filter (· != i)).map (fun d => (d, all))

/-- The chunks that the package at position i receives at step t, by source. -/
def linkReceives (alg p t i : Nat) : List (Nat × List Nat) :=
  (List.range p).flatMap (fun src => ((linkSends alg p t src).filter (fun x => x.1 == i)).map (fun x => (src, x.2)))

/-- The chunks that every package holds after t steps of an operation that moves data. -/
def linkHolds (alg p : Nat) (start : Nat → List Nat) : Nat → List (List Nat)
  | 0 => (List.range p).map start
  | t + 1 =>
    let h := linkHolds alg p start t
    h.zipIdx.map (fun x => dedup (x.1 ++ (linkReceives alg p (t + 1) x.2).flatMap (fun r => r.2.filter ((h.getD r.1 []).contains ·))))

/-- The first record of chunk j, and its length: an even share of the elements of a reduction, or the block of package j. -/
def chunkAt (p : CollParams) (b : List Byte) (ms : List (BitVec 32)) (j : Nat) : Nat × Nat :=
  let pkgs := packagesOf ms
  if p.reduces then
    let e := sendElems p b ms.length 0
    let w := (e + pkgs.length - 1) / pkgs.length
    (min e (j * w), min e ((j + 1) * w) - min e (j * w))
  else (((pkgs.take j).map (blockSize p b ms)).sum, blockSize p b ms (pkgs.getD j 0))

/-- The chunks that package i takes part with at step t, and those that cross: all of a reduction, else those the sender holds. -/
def crossing (p : CollParams) (ms : List (BitVec 32)) (alg n t src : Nat) (chunks : List Nat) : List Nat :=
  if p.reduces then chunks
  else
    let pkgs := packagesOf ms
    let start (i : Nat) : List Nat := if p.op = 5 then (if pkgs.getD i 0 = pkgOf (ms.getD p.root 0) then [i] else []) else [i]
    chunks.filter (((linkHolds alg n start (t - 1)).getD src []).contains ·)

/-- Bytes of SEND of member k for member j: offset and length (R180). -/
def pieceOf (p : CollParams) (b : List Byte) (n k j : Nat) : Nat × Nat :=
  if p.op = 7 then (((List.range j).map (countAt b n k)).sum * p.size, countAt b n k j * p.size)
  else (j * p.count * p.size, p.count * p.size)

/-- ALLTOALL and ALLTOALLV: what package src sends to package dst, member by member. -/
def pairPieces (ms : List (BitVec 32)) (src dst : Nat) : List (Nat × Nat) :=
  (localMembers src ms).flatMap (fun k => (localMembers dst ms).map (fun j => (k.1, j.1)))

def pairRecords (p : CollParams) (b : List Byte) (ms : List (BitVec 32)) (own : List (BitVec 128)) (src dst : Nat) : List (BitVec 128) :=
  (pairPieces ms src dst).flatMap (fun x =>
    let o := pieceOf p b ms.length x.1 x.2
    recordsOf (slice (sendFrom p b ms (fun _ => own) x.1) o.1 o.2))

def pairSize (p : CollParams) (b : List Byte) (ms : List (BitVec 32)) (src dst : Nat) : Nat :=
  ((pairPieces ms src dst).map (fun x => ((pieceOf p b ms.length x.1 x.2).2 + 15) / 16)).sum

/-- SEND of a member of another package, as far as this package has its pieces. -/
def pairSend (p : CollParams) (b : List Byte) (ms : List (BitVec 32)) (got : List (BitVec 128)) (src dst k : Nat) : List Byte :=
  let n := ms.length
  ((pairPieces ms src dst).foldl (fun (acc : List (BitVec 128) × List Byte) x =>
    let o := pieceOf p b n x.1 x.2
    let m := (o.2 + 15) / 16
    (acc.1.drop m, if x.1 = k then patch acc.2 o.1 ((bytesOfRecords (acc.1.take m)).take o.2) else acc.2))
    (got, List.replicate (sendLen p b n k) 0)).2

/-- RAIL: where the block from this package to dst goes first (R330). -/
def railHop (pods src dst : Nat) : Nat := dst - dst % pods + src % pods

/-- Step t of the endpoint algorithm leaves this package; a step with an empty block is a packet without records. -/
def sendLink (vd : Nat) (c : RingCmd) (t : Nat) (s : State) : State :=
  let p := collParams c.block
  let ms := s.membersOf vd c
  let pkgs := packagesOf ms
  let alg := linkAlg p pkgs.length
  let me := (pkgs.findIdx? (· == s.pkg)).getD 0
  let mine := (localMembers s.pkg ms).length
  let out (dst step : Nat) (rs : List (BitVec 128)) (s : State) : State := sendSteps 9 vd [dst] p c.alpha mine step rs s
  if p.op = 6 ∨ p.op = 7 then
    (pkgs.filter (· != s.pkg)).foldl (fun s d =>
      let rs := pairRecords p c.block ms c.own s.pkg d
      let r := railHop (2 ^ bits (s.vd vd).desc.dombase.toNat 9 7) s.pkg d
      if bit p.flags 6 && r != s.pkg && r != d then out r (stepRail + d) rs s else out d 1 rs s) s
  else
    (linkSends alg pkgs.length t me).foldl (fun s x =>
      let rs := (crossing p ms alg pkgs.length t me x.2).flatMap (fun j =>
        (c.own.drop (chunkAt p c.block ms j).1).take (chunkAt p c.block ms j).2)
      out (pkgs.getD x.1 0) t rs s) s

/-- The packets that package src has sent for step t of the endpoint algorithm, directly or over a rail. -/
def linkPackets (s : State) (vd : Nat) (p : CollParams) (src t : Nat) : List Packet :=
  s.link.steps.filter (fun x => stepOf s vd p x &&
    ((x.src.toNat == src && x.step.toNat == t) || ((p.op == 6 || p.op == 7) && x.step.toNat == stepForward + src)))

def linkGot (s : State) (vd : Nat) (p : CollParams) (src t : Nat) : List (BitVec 128) := (linkPackets s vd p src t).flatMap (·.records)

/-- A step of a package is here, with so many records. -/
def linkHere (s : State) (vd : Nat) (p : CollParams) (src t size : Nat) : Bool :=
  !(linkPackets s vd p src t).isEmpty && decide (size ≤ (linkGot s vd p src t).length)

/-- The chunks of step t that this package waits for, by the package that sends them. -/
def linkNeeds (p : CollParams) (ms : List (BitVec 32)) (pkg t : Nat) : List (Nat × List Nat) :=
  let pkgs := packagesOf ms
  let alg := linkAlg p pkgs.length
  (linkReceives alg pkgs.length t ((pkgs.findIdx? (· == pkg)).getD 0)).map (fun x =>
    (pkgs.getD x.1 0, crossing p ms alg pkgs.length t x.1 x.2))

/-- Received chunks join the records of this package: merged while a reduction gathers, else put in their places. -/
def joinChunks (p : CollParams) (b : List Byte) (ms : List (BitVec 32)) (merge : Bool) (own : List (BitVec 128)) (chunks : List Nat)
    (got : List (BitVec 128)) : List (BitVec 128) :=
  (chunks.foldl (fun (acc : List (BitVec 128) × List (BitVec 128)) j =>
    let at_ := chunkAt p b ms j
    let new := acc.2.take at_.2
    let old := (acc.1.drop at_.1).take at_.2
    let put := if merge then List.zipWith (fun x y => BitVec.ofNat 128 (mergeRec p.dtype p.redop x.toNat y.toNat)) old new else new
    (acc.1.take at_.1 ++ put ++ acc.1.drop (at_.1 + at_.2), acc.2.drop at_.2)) (own, got)).1

/-- The last local course places the results (R327). -/
def placeColl (vd : Nat) (c : RingCmd) (plan : List (Nat × List (Nat × Byte))) (fl : Fl) (s : State) : State :=
  addCourse vd { c with links := 5 } 1 2 (updCmd vd c.n (fun x => { x with
    links := 5, plan := plan, cflags := x.cflags ||| fl, own := [] }) (dropSteps vd c s))

/-- The link steps go on as far as the blocks that have come allow (R327, R328); after the last the results are placed. -/
def runLinks (vd n : Nat) : Nat → State → State
  | 0, s => s
  | f + 1, s =>
    match s.cmd vd n with
    | none => s
    | some c =>
      let p := collParams c.block
      let ms := s.membersOf vd c
      let m := ms.length
      let pkgs := packagesOf ms
      let alg := linkAlg p pkgs.length
      let total := linkSteps alg pkgs.length
      let loc := localMembers s.pkg ms
      let recv := c.bufs.getD 1 (0, 0)
      let last (_ _ : Nat) : Nat := 2
      if p.op = 6 ∨ p.op = 7 then
        let others := pkgs.filter (· != s.pkg)
        if others.any (fun q => !linkHere s vd p q 1 (pairSize p c.block ms q s.pkg)) then s
        else
          let send (k : Nat) : List Byte :=
            let q := pkgOf (ms.getD k 0)
            if q = s.pkg then sendFrom p c.block ms (fun _ => c.own) k else pairSend p c.block ms (linkGot s vd p q 1) q s.pkg k
          placeColl vd c (planOf p c.block m loc recv last (fun j => moved p c.block m j send)) 0 s
      else if total ≤ c.lstep then
        if p.reduces then
          let q := planReduced p c.block m loc recv c.alpha last (c.own.map (·.toNat))
          placeColl vd c q.1 q.2 s
        else
          let block (q : Nat) : List (BitVec 128) :=
            let at_ := chunkAt p c.block ms ((pkgs.findIdx? (· == q)).getD 0)
            (c.own.drop at_.1).take at_.2
          placeColl vd c (planOf p c.block m loc recv last (fun j => moved p c.block m j (sendFrom p c.block ms block))) 0 s
      else
        let t := c.lstep + 1
        let needs := linkNeeds p ms s.pkg t
        if needs.any (fun x => !linkHere s vd p x.1 t ((x.2.map (fun j => (chunkAt p c.block ms j).2)).sum)) then s
        else
          let merge : Bool := p.reduces && (alg == 4 || decide (2 * t ≤ total))
          let own := needs.foldl (fun own x => joinChunks p c.block ms merge own x.2 (linkGot s vd p x.1 t)) c.own
          let c1 := { c with own := own, lstep := t }
          let s1 := updCmd vd n (fun x => { x with own := own, lstep := t }) s
          runLinks vd n f (if t < total then sendLink vd c1 (t + 1) s1 else s1)

/-- The link steps of a COLL begin by the endpoint algorithm: its records take their places among those of all packages. -/
def startLinks (vd n : Nat) (s : State) : State :=
  match s.cmd vd n with
  | none => s
  | some c =>
    let p := collParams c.block
    let ms := s.membersOf vd c
    let pkgs := packagesOf ms
    let me := (pkgs.findIdx? (· == s.pkg)).getD 0
    let own := if p.reduces ∨ p.op = 6 ∨ p.op = 7 then c.own
      else List.replicate (chunkAt p c.block ms me).1 0 ++ c.own ++
        List.replicate (((pkgs.drop (me + 1)).map (blockSize p c.block ms)).sum) 0
    let c1 := { c with own := own, links := 4, lstep := 0 }
    runLinks vd n (2 * pkgs.length + 2) (sendLink vd c1 1 (updCmd vd n (fun x => { x with own := own, links := 4, lstep := 0 }) s))

/-- A switch's result is here, or blocks of other packages: the COLL goes on (R327, R329). -/
def tryPlace (vd n : Nat) (s : State) : State :=
  match s.cmd vd n with
  | none => s
  | some c =>
    let p := collParams c.block
    let ms := s.membersOf vd c
    let m := ms.length
    if c.state ≠ .running then s
    else if c.links = 3 then
      let res := s.link.steps.filter (fun x => stepOf s vd p x && x.step.toNat == stepResult)
      if res.any (badResult p c m) then
        if p.policy = 2 then finishCmd vd n 8 noMember s else startLinks vd n s
      else
        let rs := res.flatMap (·.records)
        if rs.length < blockSize p c.block ms s.pkg then s
        else
          let q := planReduced p c.block m (localMembers s.pkg ms) (c.bufs.getD 1 (0, 0)) c.alpha (fun _ _ => 2) (rs.map (·.toNat))
          placeColl vd c q.1 q.2 s
    else if c.links = 4 then runLinks vd n (2 * (packagesOf ms).length + 2) s
    else s

/-- The first local stage has committed: the package's block leaves, to a reducing switch or by the endpoint algorithm. -/
def sendBlocks (vd : Nat) (c : RingCmd) (s : State) : State :=
  let p := collParams c.block
  let ms := s.membersOf vd c
  let others := (packagesOf ms).filter (· != s.pkg)
  if p.policy ≠ 0 ∧ eligible s vd p others = true then
    tryPlace vd c.n (sendSteps 10 vd (others.take 1) p c.alpha (localMembers s.pkg ms).length 1 c.own
      (updCmd vd c.n (fun x => { x with links := 3 }) s))
  else startLinks vd c.n s

/-- A COLL goes on after the keystone of one of its courses (R182, R261, R372). -/
def collKeystone (k : Course) (n : Nat) (s : State) : State :=
  match s.cmd k.vd n with
  | none => s
  | some c =>
    let far := spans s.pkg (s.membersOf k.vd c)
    let count := if far then (Config.stageCourses n) else c.courses + 1
    let c1 := { c with courses := count }
    let s1 := updCmd k.vd n (fun x => { x with courses := count }) s
    if k.index + 1 < k.total then
      match c.fault with
      | some e => finishCmd k.vd n e.2 e.1 s1
      | none => if far then sendBlocks k.vd c1 s1 else nextCourse k s1
    else finishCmd k.vd n 0 0 s1

/-- The VD here that a step packet is for: the one that runs its COLL, else the first of its domain. -/
def State.stepVd (s : State) (x : Packet) : Option Nat :=
  let all := (s.vds.filter (fun e => decide (e.2.state ≠ .absent) && e.2.desc.dombase.getLsbD 0 && domainOf s e.1 == x.domain)).map (·.1)
  (all.find? (fun v => (s.vd v).cmds.any (fun c => c.op == .coll && stepOf s v (collParams c.block) x))).or all.head?

/-- A step packet arrives: one on a rail is forwarded to its package (R330), sealed as its VD seals (R326); any other is kept, and the COLLs
it may serve go on. -/
def stepArrives (x : Packet) (s : State) : State :=
  if stepRail ≤ x.step.toNat ∧ x.step.toNat < stepForward then
    sendPacket ((s.stepVd x).any (fun v => (s.vd v).seals)) 9 { x with
      src := BitVec.ofNat 16 s.pkg, dst := BitVec.ofNat 16 (x.step.toNat - stepRail), step := BitVec.ofNat 16 (stepForward + x.src.toNat) } s
  else
  let s1 := { s with link := { s.link with steps := s.link.steps ++ [x] } }
  s1.vds.foldl (fun s v => v.2.cmds.foldl (fun s c =>
    if c.op = .coll then tryPlace v.1 c.n (whenServed (tryAgree v.1 c.n) s) else s) s) s1

/-- A running COLL still waits for something that a package has not sent (R331). -/
def stillNeeds (s : State) (vd : Nat) (c : RingCmd) (q : Nat) : Bool :=
  let p := collParams c.block
  let ms := s.membersOf vd c
  let pkgs := packagesOf ms
  if c.links = 1 then !agreed (stepZero s vd p q)
  else if c.links = 3 ∨ (c.links = 2 ∧ p.policy ≠ 0 ∧ eligible s vd p (pkgs.filter (· != s.pkg)) = true) then true
  else if p.op = 6 ∨ p.op = 7 then !linkHere s vd p q 1 (pairSize p c.block ms q s.pkg)
  else (List.range (linkSteps (linkAlg p pkgs.length) pkgs.length)).any (fun t => decide (c.lstep ≤ t) &&
    (linkNeeds p ms s.pkg (t + 1)).any (fun x => x.1 == q &&
      !linkHere s vd p q (t + 1) ((x.2.map (fun j => (chunkAt p c.block ms j).2)).sum)))

/-- R331: COLLs that still need a block of a lost package fail MEMBER_LOST. -/
def losePackage (q : Nat) (s : State) : State :=
  s.vds.foldl (fun s v => v.2.cmds.foldl (fun s c =>
    let ms := s.membersOf v.1 c
    if c.op = .coll ∧ c.state = .running ∧ 1 ≤ c.links ∧ c.links < 5 ∧ ms.any (fun m => pkgOf m == q) = true ∧ q ≠ s.pkg ∧
        stillNeeds s v.1 c q = true then
      match s.courses.find? (fun k => k.vd == v.1 && k.cmd == some c.n && !k.flipped) with
      | some k =>
        if k.committed s.ring then updCmd v.1 c.n (fun x => { x with fault := x.fault.or (some (firstOf ms q, 3)) }) s
        else failCourse k.id 3 (firstOf ms q) none s
      | none => finishCmd v.1 c.n 3 (firstOf ms q) s
    else s) s) s

/-- COLL_DEADLINE: the command ends TIMEOUT, its open course first (R181, R261); one whose packages are known to disagree ends MISMATCH
(R327), and while its VD is stopped it does not end (R313). DESIGN CHOICE (log 76): with no course open, which member is late R181 leaves
open, and MEMBER is 0; a COLL whose last course has committed by its deadline ends OK. -/
def timeoutColl (vd n : Nat) (s : State) : State :=
  match s.cmd vd n with
  | none => s
  | some c =>
    let p := collParams c.block
    let after := if p.deadline = 0 then 100000 else p.deadline
    if c.op ≠ .coll ∨ s.ring < c.issued + after ∨ (s.vd vd).issuing s.ring = false then s
    else match c.state with
      | .finished _ => s
      | .posted => updCmd vd n (fun x => { x with inRing := false }) (finishCmd vd n 2 0 s)
      | .running =>
        match s.courses.find? (fun k => k.vd == vd && k.cmd == some n && !k.flipped) with
        | none =>
          match (if c.links = 1 then disagreeing s vd p c.own (s.membersOf vd c) else none) with
          | some m => finishCmd vd n 1 m (sendZero vd p c.own (strangers s vd p (packagesOf (s.membersOf vd c))) s)
          | none => finishCmd vd n 2 0 s
        | some k =>
          let late := ((List.range k.size).find? (fun i => !k.ready.any (fun r => r.1 == i))).map k.number
          if k.committed s.ring then updCmd vd n (fun x => { x with fault := x.fault.or (some (0, 2)) }) s
          else failCourse k.id 2 (late.getD 0) none s

end Sys2Proof.Machine
end

