-- ==== Sys2Proof/Machine/CourseEvents.lean ====
section
/-! DEFINITION. Events of the command ring, of courses, and of ranks and their banks (R182, R185, R186, R210, R252 to R263,
R271, R310). An event whose conditions do not hold leaves the state as it was (log 17). -/

namespace Sys2Proof.Machine

/-- A VD whose commands and courses may start (R313, R316). -/
def Vd.active (v : Vd) (ring : Nat) : Bool := v.issuing ring && !v.draining

/-! ### Keystones (R252, R253) -/

/-- The course has a keystone that an equinox stop of its VD does not undo: one acknowledged by Te (R253, R313). -/
def State.keystoneStands (s : State) (c : Course) : Bool :=
  !c.flipped && c.keystone.any (fun t => (s.vd c.vd).te.all (fun te => decide (t ≤ te + 60)))

/-- At T every member flips; the invalidation of R258 is then outstanding, and what waited at the other rows goes on. -/
def keystoneNow (c : Course) (s : State) : State :=
  let s1 := flip c { s with ring := max s.ring (c.keystone.getD 0) }
  let s2 := settleRows c.foot (s1.setCourse { c with flipped := true })
  match c.cmd with
  | some n => collKeystone c n s2
  | none => afterKeystone c s2

/-- The course whose keystone comes first, of those due by a ring time. -/
def State.nextKeystone (s : State) (t : Nat) : Option Course :=
  (s.courses.filter (fun c => s.keystoneStands c && decide (c.keystone.getD 0 ≤ t))).foldl (fun (a : Option Course) c =>
    match a with
    | some b => if c.keystone.getD 0 < b.keystone.getD 0 then some c else some b
    | none => some c) none

def dueKeystones (t : Nat) : Nat → State → State
  | 0, s => s
  | n + 1, s => match s.nextKeystone t with
    | none => s
    | some c => dueKeystones t n (keystoneNow c s)

/-- The time that a rank spends in a wait of OVSW, in which it keeps its bank, counts for its next check (R194, R271). -/
def Rank.waits (k : Rank) (ns : Nat) : Rank := if k.wait = some .overlay ∧ k.state = .running then { k with timer := k.timer + ns, ns := k.ns + ns } else k

/-- Ring time goes on; the keystones that fall due on the way take place in their order (R253). -/
def advanceTo (t : Nat) (s : State) : State :=
  let s1 := dueKeystones t s.courses.length s
  { s1 with ring := max s1.ring t, ranks := s1.ranks.map (fun e => (e.1, e.2.waits (t - s.ring))) }

/-! ### The command ring -/

/-- RKSIGs that could not reach every member try again, in order. -/
def pushSigs (s : State) : State :=
  s.vds.foldl (fun s v => v.2.cmds.foldl (fun s c =>
    if c.op = .rksig ∧ c.state = .running then pushSig v.1 c.n s else s) s) s

/-- COMMAND_RING_DISPATCH (R310): an entry that is able to start does, and a COLL whose page the pagers have answered for goes on
(R292). The entry of an RKSIG frees later, and its words may let those of later ones go on (R186). -/
def execCommandRingDispatch (vd n : Nat) : State → Out := fun s =>
  match s.cmd vd n with
  | none => .next s
  | some c =>
    if c.held.any (·.answer.isNone) ∨ (s.vd vd).active s.ring = false then .next s
    else if c.state = .running ∧ c.op = .coll ∧ c.links = 1 then .next (whenServed (tryAgree vd n) s)
    else if c.state ≠ .posted ∨ cmdMayStart s vd c = false ∨ cmdFirst s vd c = false then .next s
    else
      let free := updCmd vd n (fun x => { x with inRing := false }) s
      let c1 := { c with inRing := false }
      match c.op with
      | .coll => .next (whenServed (fun s => startColl vd c1 (updCmd vd n (fun x => { x with inRing := false }) s)) s)
      | .rkovl => .next (startRkovl vd c1 free)
      | .rkrun => .next (startRkrun vd c1 free)
      | .rksig => .next (pushSigs (updCmd vd n (fun x => { x with state := .running }) s))
      | .rkstop => .next (runRkstop vd c1 free)

/-- COLL_COMPLETION (R182): after the invalidation of the final keystone. -/
def execCollCompletion (vd n : Nat) : State → Out := fun s =>
  match s.cmd vd n with
  | none => .next s
  | some c =>
    match c.op, c.state with
    | .coll, .finished st =>
      if s.courses.any (fun k => k.vd == vd && k.cmd == some n) then .next s
      else .next (reportCmd vd c st (if bits st.toNat 7 0 = 0 then s else dropSteps vd c s))
    | _, _ => .next s

def execRkovlCompletion (vd n : Nat) : State → Out := fun s =>
  match s.cmd vd n with
  | some c => if c.op = .rkovl then .next (completeRkovl vd c s) else .next s
  | none => .next s

def execRkrunCompletion (vd n : Nat) : State → Out := fun s =>
  match s.cmd vd n with
  | some c => if c.op = .rkrun then .next (completeRkrun vd c s) else .next s
  | none => .next s

/-- RKSIG_MAILBOX_DELIVERY (R186). -/
def execRksigMailboxDelivery (rank : Nat) : State → Out := fun s =>
  match (s.rank rank).holdst with
  | [] => .next s
  | w :: r =>
    if 16 ≤ (s.rank rank).mailbox.length then .next s
    else .next (pushSigs (s.updRank rank (fun k => { k with mailbox := k.mailbox ++ [w], holdst := r })))

/-! ### Courses -/

/-- COURSE_OPEN (R252): every member has joined, no other course is open at a member's bank, and none of the banks migrates (R346). -/
def execCourseOpen (id : Nat) : State → Out := fun s =>
  match s.course id with
  | none => .next s
  | some c =>
    let lost := c.members.any (fun r => (s.rank r).lost)
    if c.opened ∨ c.flipped ∨ (s.vd c.vd).active s.ring = false ∨ c.members.any s.courseOpenAt = true ∨
        c.members.any (fun r => (s.rank r).migrates.isSome) = true ∨
        (c.cmd = none ∧ c.parts.length < c.size ∧ lost = false) then .next s
    else match c.cmd with
      | some n => .next (openCollCourse c n s)
      | none => .next (openRankCourse c s)

/-- MEMBER_READY (R252, R253); a member whose rank is spilled, or whose channel sleeps, is not ready (R263). -/
def execMemberReady (id member : Nat) : State → Out := fun s =>
  match s.course id with
  | none => .next s
  | some c =>
    let r := c.rankOf member
    if (s.rank r).state = .spilled ∨ s.asleep.contains (channelOf r) = true then .next s else .next (readyMember c member s)

/-- KEYSTONE (R252, R253): ring time reaches T, and no keystone before it is left out. -/
def execKeystone (id : Nat) : State → Out := fun s =>
  match s.course id with
  | none => .next s
  | some c => if s.keystoneStands c then .next (advanceTo (c.keystone.getD 0) s) else .next s

/-- COURSE_CANCEL (R253): an acknowledgement is missing at T − 60 ns. -/
def execCourseCancel (id : Nat) : State → Out := fun s =>
  match s.course id with
  | none => .next s
  | some c =>
    match c.keystone with
    | none => .next s
    | some t =>
      if c.flipped ∨ c.committed s.ring then .next s
      else .next (failCourse id 3 ((c.members.findIdx? (fun r => (s.rank r).lost)).elim (c.number 0) c.number) none
        (advanceTo (t - 60) s))

/-- The lines of the rows that a course has written. -/
def Course.lines (c : Course) : List Nat := c.written.flatMap (fun r => (List.range 16).map (fun i => (Place.mk r.1 r.2 (64 * i)).key / 64))

/-- KEYSTONE_INVALIDATION_DONE (R258): no cache holds a line of the destination rows, and what waited for it goes on. -/
def execKeystoneInvalidationDone (id : Nat) : State → Out := fun s =>
  match s.course id with
  | none => .next s
  | some c => if c.flipped then .next (settleRows c.written ((s.dropCourse id).dropLines c.lines none)) else .next s

def execMemberLoss (rank : Nat) : State → Out := fun s => .next (if rank < 8192 then loseRank rank s else s)

/-- COURSE_TIMEOUT (R261): a member is not ready 100 µs after the first; in a course that has not opened, a member has not
joined it 100 µs after the first did (log 14). No course of a VD that is stopped ends so (R313). -/
def execCourseTimeout (id : Nat) : State → Out := fun s =>
  match s.course id with
  | none => .next s
  | some c =>
    let late := ((List.range c.size).find? (fun i => !c.ready.any (fun r => r.1 == i))).map c.number
    let first := (c.ready.map (·.2)).head?
    if c.flipped ∨ late = none ∨ (s.vd c.vd).issuing s.ring = false then .next s
    else match first with
      | some t => if s.ring < t + 100000 then .next s else .next (failCourse id 2 (late.getD 0) none s)
      | none =>
        if !c.opened ∧ c.cmd = none ∧ c.parts.length < c.size ∧ c.since + 100000 ≤ s.ring then .next (failCourse id 2 (late.getD 0) none s) else .next s

def execCollDeadline (vd n : Nat) : State → Out := fun s => .next (timeoutColl vd n s)

/-- CBAR_TIMEOUT (R210): 100 µs after the arrival, which stands; a phase that has completed by then gives OK. -/
def execCbarTimeout (rank : Nat) : State → Out := fun s =>
  match (s.rank rank).wait, (s.rank rank).run with
  | some (.barrier g p t0), some run =>
    let n := (groupIn run.groups g).length
    if s.ring < t0 + 100000 then .next s
    else .next (endCourseInstr rank (if (trackerOf s run.vd run.q g).complete n p then 0 else 2) s)
  | _, _ => .next s

/-! ### Banks -/

/-- OUTSIDE_ACCESS_ARRIVAL (R254, R255, R256, R307, R371): col is a byte in the row. An access that no valid entry lets through writes
nothing, and what it reads the manual does not state (log 5). -/
def execOutsideAccessArrival (rank row col : Nat) (wr : Bool) (len : Nat) (data : BitVec 512) : State → Out := fun s =>
  if 8192 ≤ rank ∨ 1024 < col + len ∨ len = 0 ∨ 64 < len ∨ (if (s.rank rank).enabled then 46080 else 49152) ≤ row then .next s
  else match (s.permsAt rank row).find? (fun e => if wr then e.w else e.r) with
    | none => .next (if wr then s else
        { s with output := s.output ++ [.data (Config.freeAddr s.nextId)], nextId := s.nextId + 1 })
    | some e =>
      let ps := (List.range len).map (fun i => Place.mk rank row (col + i))
      .next (if wr then arriveWrite s.nextId e.vd .nobody (ps.zip (bytesOf len data.toNat)) { s with nextId := s.nextId + 1 }
        else arriveRead e.vd none ps s)

/-- RANK_CHECK_TIMER (R259, R271): a check at the first instruction boundary that comes 192 ns or more after the last. -/
def execRankCheckTimer (rank : Nat) : State → Out := fun s =>
  let k := s.rank rank
  if k.state = .running ∧ k.run.isSome ∧ k.wait = none ∧ 192 ≤ k.timer then .next (checkBank rank s) else .next s

/-- BANK_RETURN (R259): the rank holds the bank until its next check. -/
def execBankReturn (rank : Nat) : State → Out := fun s =>
  if (s.rank rank).state = .suspended then
    .next (s.updRank rank (fun k => { k with state := .running, fresh := true, timer := 0 }))
  else .next s

/-- BANK_REFRESH (R271): a refresh suspends a rank that holds its bank, in a wait of OVSW or course traffic too, and changes no result. -/
def execBankRefresh (rank : Nat) : State → Out := fun s =>
  if (s.rank rank).state = .running ∧ (s.rank rank).holdsBank then
    .next (s.updRank rank (fun k => { k with state := .suspended, open_ := none }))
  else .next s

/-- CHANNEL_POWER_DOWN (R262): the request waits until every rank has come to a row boundary or rests. -/
def execChannelPowerDown (ch : Nat) : State → Out := fun s =>
  if 256 ≤ ch ∨ s.asleep.contains ch ∨ s.napping.contains ch then .next s
  else .next (tryNap ch { s with napping := s.napping ++ [ch] })

/-- CHANNEL_WAKE (R263); a channel that was still to sleep does not. -/
def execChannelWake (ch : Nat) : State → Out := fun s =>
  if s.asleep.contains ch ∨ s.napping.contains ch then
    .next (wakeChannel ch { s with napping := s.napping.filter (· != ch) })
  else .next s

end Sys2Proof.Machine
end

