-- ==== Sys2Proof/Machine/Copy.lean ====
section
/-! DEFINITION. The copy engine: what a CPY does (R166 to R168), and the events that start and complete it. -/

namespace Sys2Proof.Machine

/-! ### The geometry a copy captured -/

def EngCmd.g (e : EngCmd) (n : Nat) : Nat := (e.geom.getD n 0).toNat
/-- A signed 32-bit register. -/
def sgn32 (x : Nat) : Int := (BitVec.ofNat 32 x).toInt

def EngCmd.ctrl (e : EngCmd) (n : Nat) : Bool := bit (e.g 8) n
def EngCmd.transpose (e : EngCmd) : Bool := e.ctrl 0
def EngCmd.convert (e : EngCmd) : Bool := e.ctrl 1
def EngCmd.sat (e : EngCmd) : Bool := e.ctrl 2
def EngCmd.setFull (e : EngCmd) : Bool := e.ctrl 6
def EngCmd.fillSel (e : EngCmd) : Bool := e.ctrl 7
/-- DIR: local source, global destination. -/
def EngCmd.outward (e : EngCmd) : Bool := e.ctrl 8
def EngCmd.rows (e : EngCmd) : Nat := if e.transpose then e.g 3 else e.g 4
def EngCmd.cols (e : EngCmd) : Nat := if e.transpose then e.g 4 else e.g 3
/-- A block format copied as the images of whole rows (R167). -/
def EngCmd.image (e : EngCmd) : Bool := !e.convert && (blockFmt (ptrFmt e.a)).isSome

/-- Row and column of the box that destination row d, column c takes (R166). -/
def EngCmd.from_ (e : EngCmd) (d c : Nat) : Nat × Nat := if e.transpose then (c, d) else (d, c)
/-- The tensor row or column of a box position, when it lies inside the tensor. -/
def EngCmd.tensorRow (e : EngCmd) (i : Nat) : Option Nat :=
  let y := sgn32 (e.g 6) + i
  if 0 ≤ y ∧ y < e.g 1 then some y.toNat else none
def EngCmd.tensorCol (e : EngCmd) (j : Nat) : Option Nat :=
  let x := sgn32 (e.g 5) + j
  if 0 ≤ x ∧ x < e.g 0 then some x.toNat else none

/-- The first checks of R167, which look at no memory. -/
def copyChecks (s : State) (c : Nat) (e : EngCmd) : BitVec 16 :=
  let inBox (n : Nat) : Bool := decide (1 ≤ n) && decide (n ≤ 256)
  let sf := ptrFmt e.a
  let df := ptrFmt e.b
  let scaleFmt (f : Nat) : Bool := f == 0x0F || f == 0x10 || f == 0x1F
  let width := match blockFmt df with
    | some _ => blockLen e.b
    | none => if df = Fmt.e3m2 ∨ df = Fmt.e2m3 then 4 else 1
  stOn (!inBox (e.g 3) || !inBox (e.g 4) || bits (e.g 8) 5 3 == 6 || decide (512 ≤ e.g 8) ||
      (e.g 10 != 0 && (e.g 10 % 8 != 0 || !localOk s c (e.g 10) 8)) || (e.outward && e.setFull)) stRange |||
    stOn ((e.convert && (scaleFmt sf || scaleFmt df)) || ptrFormatError e.a || ptrFormatError e.b ||
      (!e.convert && (sf != df || ((blockFmt sf).isSome && (e.transpose || e.g 5 != 0 || e.g 3 != e.g 0)))) ||
      (width != 0 && e.cols % width != 0) || (e.fillSel && (blockFmt df).isSome)) stFmt

/-- Start of tensor row y. -/
def EngCmd.srcRow (e : EngCmd) (y : Nat) : Nat := ptrAddr e.a + y * e.g 2
/-- Start of destination row d. -/
def EngCmd.dstRow (e : EngCmd) (d : Nat) : Nat := ptrAddr e.b + d * e.g 7

/-- Bytes of a tensor row that the box touches. -/
def EngCmd.srcBytes (e : EngCmd) : List Nat :=
  if e.image then List.range (rowSize e.a (e.g 3))
  else ((List.range (e.g 3)).filterMap e.tensorCol).flatMap (elemBytes e.a)

/-- The tensor rows of the box. -/
def EngCmd.tensorRows (e : EngCmd) : List Nat := (List.range (e.g 4)).filterMap e.tensorRow

/-- Every source byte: row start and position in the row. -/
def EngCmd.sources (e : EngCmd) : List (Nat × Nat) :=
  e.tensorRows.flatMap (fun y => e.srcBytes.map (fun k => (e.srcRow y, k)))

def EngCmd.dstSize (e : EngCmd) : Nat :=
  if e.image then rowSize e.a (e.g 3) else rowSize e.b e.cols

/-- Core and offset of a local byte by its row start. -/
def localByte (c row k : Nat) : Nat × Nat :=
  ((localTarget c (BitVec.ofNat 64 row)).1, (localTarget c (BitVec.ofNat 64 row)).2 + k)

/-- RANGE of a local source or destination byte, or of a local address that names a core of another group (R166, R167). -/
def EngCmd.rangeBad (e : EngCmd) (s : State) (c : Nat) : Bool :=
  if e.outward then !localOk s c (ptrAddr e.a) 0 || e.sources.any (fun b => !localOk s c b.1 (b.2 + 1))
  else (List.range e.rows).any (fun d => !localOk s c (e.dstRow d) e.dstSize)

/-- The global addresses a copy touches. -/
def EngCmd.globals (e : EngCmd) : List Nat :=
  if e.outward then (List.range e.rows).flatMap (fun d => (List.range e.dstSize).map (e.dstRow d + ·))
  else e.sources.map (fun b => b.1 + b.2)

def EngCmd.kind (e : EngCmd) : AccessKind := if e.outward then .store else .load

/-- The first and the last byte of a row of elements keep bits that no element covers. -/
def EngCmd.ragged (e : EngCmd) : Bool :=
  !e.image && (blockFmt (ptrFmt e.b)).isNone && (nibShift e.b != 0 || (nibShift e.b + elemWidth e.b * e.cols) % 8 != 0)

/-- The global addresses a copy reads: its source, or destination bytes that it covers only in part. -/
def EngCmd.reads (e : EngCmd) : List Nat :=
  if !e.outward then e.globals
  else if e.ragged then (List.range e.rows).flatMap (fun d => [e.dstRow d, e.dstRow d + e.dstSize - 1])
  else []

/-- The translations of a copy, or what ends or holds it. -/
def copyPages (e : EngCmd) (s : State) : State × Pages :=
  let st := copyChecks s s.cur.core e
  if st ≠ 0 then (s, .fail st)
  else if e.rangeBad s s.cur.core then (s, .fail stRange)
  else match translateAll (dieOf s.cur.core) s.here.vd e.kind (pagesOf e.globals) s with
    | (s1, .ok pages) =>
      if (e.globals.map (paIn pages)).any (fun a => s1.link.lost.contains (bits a 51 42) && bits a 51 42 != s1.pkg) then
        (s1, .fail stFault)
      else (s1, .ok pages)
    | x => x

/-- A byte of the source tensor. -/
def copyByte (e : EngCmd) (pages : List (Nat × Nat)) (s : State) (row k : Nat) : Byte :=
  if e.outward then spmByte s (localByte s.cur.core row k).1 (localByte s.cur.core row k).2
  else engineByte s s.here.vd e.lines (paIn pages (row + k))

/-- An uncorrectable error under a source byte (R162): the state with its record. -/
def copyBad (e : EngCmd) (pages : List (Nat × Nat)) (s : State) : Option State :=
  if e.outward then (spmBad s (e.sources.map (fun b => localByte s.cur.core b.1 b.2))).map (fun o => engineBad s o 1)
  else
    let ps := s.nearPlaces e.lines (e.globals.map (paIn pages))
    if s.fails ps then some (engineFailed s ps) else none

/-- The value and rounding of destination element (d, c) under CONVERT (R166). -/
def copyValue (e : EngCmd) (rd : Nat → Nat → Byte) (d c : Nat) : (Num × Rnd) × Fl :=
  let r : Rnd := ⟨e.frm, if e.frm = 5 then (e.stream.word (e.sro.toNat + d * e.cols + c)).toNat else 0⟩
  match e.tensorRow (e.from_ d c).1, e.tensorCol (e.from_ d c).2 with
  | some y, some x =>
    let (v, f) := elemNum e.a (rd (e.srcRow y)) x
    let (w, f') := scaleNum v (valueOf Fmt.f32 (e.g 9))
    ((w, r), f ||| f')
  | _, _ => ((.fin false 0 0, r), 0)

/-- The encoding of destination element (d, c) of a plain format, and its flags. DESIGN CHOICE (log 62): a block format with integer
elements is no integer source, so a saturation of its value sets NV (R51). -/
def copyElem (e : EngCmd) (rd : Nat → Nat → Byte) (d c : Nat) : Nat × Fl :=
  match e.tensorRow (e.from_ d c).1, e.tensorCol (e.from_ d c).2 with
  | some y, some x =>
    if e.convert then
      let ((v, r), f) := copyValue e rd d c
      let (n, f') := convert (ptrFmt e.b) e.sat (intFmt (ptrFmt e.a)).isSome r v
      (n, f ||| f')
    else (elemRaw e.a (rd (e.srcRow y)) x, 0)
  | _, _ => (if e.fillSel then e.g 12 % 2 ^ elemWidth e.b else 0, 0)

/-- The bytes of destination row d over what the row held (`old` gives its bytes by position), and the flags. -/
def copyRow (e : EngCmd) (rd : Nat → Nat → Byte) (old : Nat → Byte) (free d : Nat) : List Byte × Fl :=
  if e.image then
    match e.tensorRow d with
    | some y => ((List.range e.dstSize).map (rd (e.srcRow y)), 0)
    | none => (List.replicate e.dstSize 0, 0)
  else match blockFmt (ptrFmt e.b) with
    | some b =>
      let vs := (List.range e.cols).map (copyValue e rd d)
      let (bs, f) := encodeBlockRow e.b b (free * 2 ^ 24 + d * 2 ^ 12) (vs.map (·.1))
      (bs, vs.foldl (fun a v => a ||| v.2) f)
    | none =>
      let es := (List.range e.cols).map (copyElem e rd d)
      let w := elemWidth e.b
      let lo := 2 ^ nibShift e.b
      let hi := 2 ^ (nibShift e.b + w * e.cols)
      let was := if e.ragged then (old 0).toNat + (if e.dstSize ≤ 1 then 0 else (old (e.dstSize - 1)).toNat * 256 ^ (e.dstSize - 1)) else 0
      (bytesOf e.dstSize (was % lo + packFields w (es.map (·.1)) * lo + was / hi * hi), orFlags es)

/-- Where byte k of destination row d lies: one number for each byte of memory, or of the scratchpads. -/
def dstAt (e : EngCmd) (pages : List (Nat × Nat)) (s : State) (d k : Nat) : Nat :=
  if e.outward then paIn pages (e.dstRow d + k)
  else
    let t := localByte s.cur.core (e.dstRow d) k
    t.1 * 2 ^ 17 + t.2

/-- A destination byte as it stands before the copy. -/
def dstByte (e : EngCmd) (pages : List (Nat × Nat)) (s : State) (d k : Nat) : Byte :=
  if e.outward then engineByte s s.here.vd e.lines (paIn pages (e.dstRow d + k))
  else
    let t := localByte s.cur.core (e.dstRow d) k
    spmByte s t.1 t.2

/-- The rows of a destination with their bytes, row after row over what the rows before it leave (R166), and the flags of the command. -/
def copyRows (e : EngCmd) (pages : List (Nat × Nat)) (s : State) : List (Nat × List Byte) × Fl :=
  let step (acc : List (Nat × List Byte) × Fl × List (Nat × Byte)) (d : Nat) : List (Nat × List Byte) × Fl × List (Nat × Byte) :=
    let old (k : Nat) : Byte := (lookup (dstAt e pages s d k) acc.2.2).getD (dstByte e pages s d k)
    let r := copyRow e (copyByte e pages s) old s.nextId d
    let put (k : Nat) : List (Nat × Byte) := (r.1[k]?.map (fun b => (dstAt e pages s d k, b))).toList
    (acc.1 ++ [(d, r.1)], acc.2.1 ||| r.2, if e.ragged then put (e.dstSize - 1) ++ put 0 ++ acc.2.2 else [])
  let r := (List.range e.rows).foldl step ([], 0, [])
  (r.1, r.2.1)

/-- Step 1 of R168: every byte of the destination; what is not performed yet by its numbers. -/
def putRows (e : EngCmd) (pages : List (Nat × Nat)) (rows : List (Nat × List Byte)) (s : State) : State × List Nat :=
  if e.outward then engineWrite pages (rows.flatMap (fun r => r.2.zipIdx.map (fun b => (paIn pages (e.dstRow r.1 + b.2), b.1)))) s
  else
    (rows.foldl (fun s r =>
      let t := localByte s.cur.core (e.dstRow r.1) 0
      s.spmWrite t.1 t.2 r.2) s, [])

/-- Step 2 of R168: the full bits of the words that the rows lie in, once every byte is written. -/
def fillRows (e : EngCmd) (rows : List (Nat × List Byte)) (s : State) : State :=
  let words := rows.flatMap (fun r =>
    let t := localByte s.cur.core (e.dstRow r.1) 0
    (List.range ((t.2 + r.2.length - 1) / 8 + 1 - t.2 / 8)).map (fun k => (t.1, t.2 / 8 + k)))
  words.foldl (fun s w => fill w.1 w.2 s) s

/-- What a copy does when its moment comes (R166, R168). -/
def runCopy (e : EngCmd) (s : State) : EngRun :=
  match copyPages e s with
  | (s1, .fail st) => .done s1 st []
  | (s1, .hold va) => .hold s1 va
  | (s1, .busy) => .busy s1
  | (s0, .ok pages) =>
    let r := arriveLines e.lines (e.reads.map (paIn pages)) s0
    if r.2 ≠ [] then .lines r.1 (e.lines ++ r.2)
    else match copyBad e pages r.1 with
    | some s1 => .done s1 stFault []
    | none =>
      let (rows, f) := copyRows e pages r.1
      let w := putRows e pages rows { r.1 with nextId := r.1.nextId + 1 }
      .done (if e.setFull then fillRows e rows w.1 else w.1) (f.zeroExtend 16) w.2

/-- Steps 3 and 4 of R168, and the queue entry goes. -/
def endCopy (c : Nat) (e : EngCmd) (s : State) : State :=
  let done := localTarget c (BitVec.ofNat 64 (e.g 10))
  let v := if stFailed e.status then 0x8000000000000000 ||| e.status.zeroExtend 64 else e.geom.getD 11 0
  let s1 := if e.g 10 ≠ 0 ∧ e.g 10 % 8 = 0 ∧ localOk s c (e.g 10) 8 = true then
      fill done.1 (done.2 / 8) (s.spmWrite done.1 done.2 (bytesOf 8 v.toNat))
    else s
  let s2 := s1.updCore c (fun k => { k with copies := k.copies.filter (fun x => x.id != e.id) })
  let s3 := if e.dead then s2
    else s2.updCtx c e.ctx (fun m => { m with cg := m.cg.set 16 (m.cg[16] ||| e.status.zeroExtend 64) })
  releaseSlot c e.ctx e.id e.slot s3

def setCopy (c : Nat) (e : EngCmd) (s : State) : State :=
  s.updCore c (fun k => { k with copies := k.copies.map (fun x => if x.id = e.id then e else x) })

/-- The first waiting copy of a core's queue, if it may start. -/
def State.copyHead (s : State) (c : Nat) : Option EngCmd :=
  match (s.core c).copies.find? (fun e => !e.started) with
  | none => none
  | some e => if e.mayStart c s then some e else none

/-- A copy of a core starts: lines of another package are asked for; a held write leaves it waiting (R292). -/
def beginCopy (c : Nat) (e : EngCmd) (s : State) : State :=
  let start (e : EngCmd) (s : State) : State := setCopy c { e with started := true, held := none } s
  match e.held with
  | some ⟨_, none⟩ => s
  | some ⟨_, some false⟩ => start { e with status := stFault } s
  | _ =>
    match copyPages e s with
    | (s2, .ok pages) =>
      let r := askLines pages (e.reads.map (paIn pages)) s2
      start { e with lines := r.2 } r.1
    | (s2, .fail _) => start e s2
    | (s2, .busy) => s2
    | (s2, .hold va) => setCopy c { e with held := some ⟨BitVec.ofNat 64 va, none⟩ } s2

/-- ENGINE_COMMAND_START (R161, R169): the copy engine of a core's matrix group takes the next of its eight queues, in round robin, whose
first waiting copy may start, when one of its 4 places is free. -/
def startCopy (c : Nat) (s : State) : State :=
  let mg := c / 8
  let busy := ((List.range 8).map (fun i => ((s.core (8 * mg + i)).copies.filter (·.started)).length)).sum
  let n := (lookup mg s.ceNext).getD 0
  match ((List.range 8).map (fun i => 8 * mg + (n + i) % 8)).find? (fun d => (s.copyHead d).isSome) with
  | none => s
  | some d =>
    match s.copyHead d with
    | none => s
    | some e =>
      if 4 ≤ busy then s
      else asContext d e.ctx (beginCopy d e) { s with ceNext := put mg ((d + 1) % 8) s.ceNext }

/-- CPY_COMPLETION (R168): the oldest started copy of a core writes its bytes and, once they are performed, completes. -/
def completeCopy (c : Nat) (s : State) : State :=
  match (s.core c).copies.head? with
  | none => s
  | some e =>
    if !e.started || e.lines.any (fun l => l.2.2.isNone && !s.link.lost.contains (bits l.2.1 51 42)) || !e.idents.isEmpty then s
    else if e.written then endCopy c e s
    else
      let done (s1 : State) (st : BitVec 16) (ids : List Nat) : State :=
        let e1 := { e with written := true, status := st, idents := ids, held := none }
        if ids.isEmpty then endCopy c e1 s1 else setCopy c e1 s1
      if stFailed e.status then done s e.status []
      else match e.held with
        | some ⟨_, none⟩ => s
        | some ⟨_, some false⟩ => done s stFault []
        | _ =>
          match runCopy e (actAs c e.ctx s) with
          | .busy s1 => { s1 with cur := s.cur }
          | .lines s1 ls => setCopy c { e with lines := ls } { s1 with cur := s.cur }
          | .hold s1 va => setCopy c { e with held := some ⟨BitVec.ofNat 64 va, none⟩ } s1
          | .done s1 st ids => done s1 st ids

def execEngineCommandStart (core : Nat) (s : State) : Out := .next (startCopy core s)
def execCpyCompletion (core : Nat) (s : State) : Out := .next (completeCopy core s)

end Sys2Proof.Machine
end

