-- ==== Sys2Proof/Machine/Matrix.lean ====
section
/-! DEFINITION. The matrix unit: tiles (R171), MMA (R172, R173), MZERO, MLDC and MSTC (R174), the choice of the next command
(R175) and its completion (R173, R176). -/

namespace Sys2Proof.Machine

/-! ### Tiles -/

def tileSlots (f : Nat) : Nat := if f = Fmt.a80 then 4 else if f = Fmt.f64 then 2 else 1
def tileSize (f : Nat) : Nat := if f = Fmt.a80 then 16 else if f = Fmt.f64 then 8 else 4
def isTileFmt (f : Nat) : Bool := f == Fmt.i32 || f == Fmt.f32 || f == Fmt.f64 || f == Fmt.a80
/-- A tile of format f may start at a slot (R171). -/
def tileFits (slot f : Nat) : Bool := slot % tileSlots f == 0 && decide (slot + tileSlots f ≤ 16)

def tagIx (n : Nat) : Fin 16 := Fin.ofNat 16 n
def Core.tagsAt (k : Core) (slot f : Nat) : List TileTag := (List.range (tileSlots f)).map (fun i => k.tags[tagIx (slot + i)])
def Core.untagged (k : Core) (slot f : Nat) : Bool := (k.tagsAt slot f).all (fun t => t.fmt == 0)
/-- Every slot of the tile carries format f, and for A80 the anchor α (log 16). -/
def Core.tagged (k : Core) (slot f : Nat) (alpha : BitVec 16) : Bool :=
  (k.tagsAt slot f).all (fun t => t.fmt.toNat == f && (f != Fmt.a80 || t.alpha == alpha))

/-- The 1,024 encodings of a tile. -/
def Core.tileRead (k : Core) (slot f : Nat) : List Nat :=
  (List.range 1024).map (fun j => ofBytes (Memory.readN k.tile (4096 * slot + tileSize f * j) (tileSize f)))

/-- The first word of a tile that fails its code, by its offset in the partition (R342): DESIGN CHOICE (log 74), the address of its
record. -/
def Core.tileBad (k : Core) (slot f : Nat) : Option Nat :=
  (k.tbad.find? (fun w => decide (4096 * slot ≤ 8 * w) && decide (8 * w < 4096 * (slot + tileSlots f)))).map (8 * ·)

/-- The whole tile is written as one update, with its tag (R173); its words are sound again (R342). -/
def Core.tileWrite (k : Core) (slot f : Nat) (alpha : BitVec 16) (es : List Nat) : Core :=
  { k with
    tile := Memory.writeN k.tile (4096 * slot) (es.flatMap (bytesOf (tileSize f)))
    tbad := k.tbad.filter (fun w => !(decide (4096 * slot ≤ 8 * w) && decide (8 * w < 4096 * (slot + tileSlots f))))
    tags := (List.range (tileSlots f)).foldl (fun t i =>
      t.set (tagIx (slot + i)) ⟨BitVec.ofNat 8 f, if f = Fmt.a80 then alpha else 0⟩) k.tags }

/-- +0 elements, or empty records (R171). -/
def emptyTile (f : Nat) (alpha : BitVec 16) : List Nat :=
  List.replicate 1024 (if f = Fmt.a80 then (A80.empty alpha).enc else 0)

/-! ### The geometry of a tile command -/

def EngCmd.ctile (e : EngCmd) : Nat := e.g 3
def EngCmd.alpha (e : EngCmd) : BitVec 16 := BitVec.ofNat 16 (e.g 4 / 2 ^ 16)
/-- A reserved ACC bit is set, or α is out of range (R172). -/
def EngCmd.accBad (e : EngCmd) : Bool :=
  bits (e.g 4) 15 1 != 0 || decide (2 ^ 32 ≤ e.g 4) || decide (e.alpha.toInt < -1024) || decide (1023 < e.alpha.toInt)

/-- The tile command of a word, by FN3 (R72). -/
def EngCmd.fn (e : EngCmd) : Nat := (e.word.extractLsb' 23 3).toNat

/-- Row starts of 32 rows. -/
def rowStarts (p : W64) (pitch : Nat) : List Nat := (List.range 32).map (fun m => ptrAddr p + m * pitch)

/-! ### MMA -/

/-- The C format of an MMA (R171). -/
def EngCmd.cFmt (e : EngCmd) : Nat :=
  let int (f : Nat) : Bool := f ≤ 0x05 || f == 0x1D
  if bit (e.g 4) 0 then Fmt.a80
  else if int (ptrFmt e.a) && int (ptrFmt e.b) then Fmt.i32
  else if ptrFmt e.a = Fmt.f64 ∨ ptrFmt e.b = Fmt.f64 then Fmt.f64
  else Fmt.f32

/-- R172: FMT and RANGE of an MMA. -/
def mmaChecks (s : State) (c : Nat) (e : EngCmd) : BitVec 16 :=
  let f := [e.a, e.b]
  let fmtOk (p : W64) : Bool := decide (ptrFmt p ≤ 0x0E) || (decide (0x11 ≤ ptrFmt p) && decide (ptrFmt p ≤ 0x1E))
  let kFmt (p : W64) : Bool := decide (0x11 ≤ ptrFmt p) && decide (ptrFmt p ≤ 0x14)
  let has (n : Nat) : Bool := ptrFmt e.a == n || ptrFmt e.b == n
  let k := e.g 0
  let band := bit (e.g 5) 2
  stOn (f.any (fun p => !fmtOk p || ptrFormatError p || (blockLen p != 0 && k % blockLen p != 0)) ||
      (band && f.any (fun p => !kFmt p))) stFmt |||
    stOn (k % 32 != 0 || decide (k < 32) || decide (4096 < k) || (has Fmt.f64 && decide (768 < k)) ||
      (has Fmt.f32 && decide (3200 < k)) ||
      (rowStarts e.a (e.g 1)).any (fun r => !localOk s c r (rowSize e.a k)) ||
      (rowStarts e.b (e.g 2)).any (fun r => !localOk s c r (rowSize e.b k)) ||
      (band && (!localOk s c (e.g 6) 2 || !localOk s c (e.g 7) 2)) ||
      e.accBad || decide (8 ≤ e.g 5) || !tileFits e.ctile e.cFmt) stRange

/-- The values of the operand rows (R41), with the flags of their scales. -/
def operandRows (s : State) (p : W64) (pitch k : Nat) : List (List Num) × Fl :=
  let rows := (rowStarts p pitch).map (fun r =>
    (List.range k).map (elemNum p (fun o => spmByte s (localByte s.cur.core r o).1 (localByte s.cur.core r o).2)))
  (rows.map (fun r => r.map (·.1)), rows.foldl (fun f r => r.foldl (fun g x => g ||| x.2) f) 0)

/-- The exact sum of a run of products, by the NaN rule of R173; zeros of one sign keep it (R46). -/
def runSum (neg : Bool) (ps : List (Num × Num)) : Num × Fl :=
  let nv := Fl.on (ps.any (fun p => p.1.signalling || p.2.signalling)) Fl.NV
  match ps.find? (fun p => p.1.isNan || p.2.isNan) with
  | some p => (.nan (if p.1.isNan then p.1.payload else p.2.payload) false,
      nv ||| Fl.on (ps.any (fun p => (mulNum p.1 p.2).isNone)) Fl.NV)
  | none =>
    let prod (p : Num × Num) : Option Num := (mulNum p.1 p.2).map (fun x => if neg then x.neg else x)
    let sum : Option Num := match ps with
      | [] => some (.fin false 0 0)
      | p :: r => r.foldl (fun acc q => acc.bind (fun a => (prod q).bind (addNum false a))) (prod p)
    match sum with
    | some x => (x, nv)
    | none => (createdNan, Fl.NV)

/-- F32 and F64: one run of 32 is added to an element. -/
def addRun (f : FloatFmt) (neg : Bool) (ba bb : Num) (c : Nat × Fl) (ps : List (Num × Num)) : Nat × Fl :=
  let (s, f1) := runSum neg ps
  let (s1, f2) := scaleNum s ba
  let (s2, f3) := scaleNum s1 bb
  let (r, f4) := f.convert false rne s2
  let (x, f5) := fadd f rne c.1 r
  (x, c.2 ||| f1 ||| f2 ||| f3 ||| f4 ||| f5)

/-- A80: one product is contributed with index 0 (R55). -/
def addRecord (neg : Bool) (ba bb : Num) (c : A80 × Fl) (p : Num × Num) : A80 × Fl :=
  let nv := Fl.on (p.1.signalling || p.2.signalling) Fl.NV
  let (x, f1) := scaleNum p.1 p.2
  let (y, f2) := scaleNum x ba
  let (z, f3) := scaleNum y bb
  let (r, f4) := c.1.contribute 0 (if neg then z.neg else z)
  (r, c.2 ||| nv ||| f1 ||| f2 ||| f3 ||| f4)

def intOf : Num → Int
  | .fin n m e => scaled n m e 0
  | _ => 0

/-- One element of C (R173). -/
def mmaElem (cf : Nat) (neg : Bool) (ba bb : Num) (c : Nat) (ps : List (Num × Num)) : Nat × Fl :=
  if cf = Fmt.a80 then
    let (r, f) := ps.foldl (addRecord neg ba bb) (A80.dec c, 0)
    (r.enc, f)
  else if cf = Fmt.i32 then
    let s := (ps.map (fun p => intOf p.1 * intOf p.2)).sum
    let v := laneInt32 c + (if neg then -s else s)
    (toField 32 v, Fl.on (decide (v < -2 ^ 31) || decide (2 ^ 31 ≤ v)) Fl.OF)
  else
    let f : FloatFmt := if cf = Fmt.f64 then ⟨11, 52, 1023, .ieee⟩ else ⟨8, 23, 127, .ieee⟩
    (chunks 32 ps.length ps).foldl (addRun f neg ba bb) (c, 0)
where
  laneInt32 (x : Nat) : Int := (BitVec.ofNat 32 x).toInt

/-- The band scale at a local address, 1 without BAND (R43). -/
def bandAt (s : State) (e : EngCmd) (n : Nat) : Num :=
  if bit (e.g 5) 2 then
    valueOf Fmt.bf16 (ofBytes ((List.range 2).map (fun k =>
      spmByte s (localByte s.cur.core (e.g n) k).1 (localByte s.cur.core (e.g n) k).2)))
  else .fin false 1 0

def runMma (e : EngCmd) (s : State) : State × BitVec 16 :=
  let st := mmaChecks s s.cur.core e
  let k := s.here
  let cf := e.cFmt
  let empty := bit (e.g 5) 0 || k.untagged e.ctile cf
  if st ≠ 0 then (s, st)
  else if !empty && !k.tagged e.ctile cf e.alpha then (s, stMismatch)
  else
    let rowsOf (p : W64) (pitch : Nat) : List (Nat × Nat) :=
      (rowStarts p pitch).flatMap (fun r => (List.range (rowSize p (e.g 0))).map (localByte s.cur.core r))
    let band : List (Nat × Nat) :=
      if bit (e.g 5) 2 then [6, 7].flatMap (fun n => (List.range 2).map (localByte s.cur.core (e.g n))) else []
    match spmBad s (rowsOf e.a (e.g 1) ++ rowsOf e.b (e.g 2) ++ band) with
    | some o => (engineBad s o 1, stFault)
    | none =>
      match (if empty then none else k.tileBad e.ctile cf) with
      | some o => (engineBad s o 5, stFault)
      | none =>
      let (ra, fa) := operandRows s e.a (e.g 1) (e.g 0)
      let (rb, fb) := operandRows s e.b (e.g 2) (e.g 0)
      let c := if empty then emptyTile cf e.alpha else k.tileRead e.ctile cf
      let rs := c.zipIdx.map (fun x => mmaElem cf (bit (e.g 5) 1) (bandAt s e 6) (bandAt s e 7) x.1
        ((ra.getD (x.2 / 32) []).zip (rb.getD (x.2 % 32) [])))
      (s.updHere (fun k => k.tileWrite e.ctile cf e.alpha (rs.map (·.1))),
        (rs.foldl (fun f r => f ||| r.2) (fa ||| fb)).zeroExtend 16)

/-! ### MZERO, MLDC, MSTC -/

def runMzero (e : EngCmd) (s : State) : State × BitVec 16 :=
  let f := e.a.toNat
  if !isTileFmt f then (s, stFmt)
  else if !tileFits e.ctile f || (f == Fmt.a80 && e.accBad) then (s, stRange)
  else (s.updHere (fun k => k.tileWrite e.ctile f e.alpha (emptyTile f e.alpha)), 0)

/-- Rows of a tile in memory: 32 of `len` bytes at pitch OPITCH. -/
def EngCmd.tileBytes (e : EngCmd) (len : Nat) : List (Nat × Nat) :=
  (rowStarts e.a (e.g 9)).flatMap (fun r => (List.range len).map (fun k => (r, k)))

def EngCmd.isLocal (e : EngCmd) : Bool := e.b.getLsbD 0

/-- Where the rows of a tile lie, translated when they are global; or what ends or holds the command. -/
def tilePages (e : EngCmd) (len : Nat) (k : AccessKind) (s : State) : State × Pages :=
  if e.isLocal then
    (s, if (rowStarts e.a (e.g 9)).all (fun r => localOk s s.cur.core r len) then .ok [] else .fail stRange)
  else match translateAll (dieOf s.cur.core) s.here.vd k (pagesOf ((e.tileBytes len).map (fun b => b.1 + b.2))) s with
    | (s1, .ok pages) =>
      if ((e.tileBytes len).map (fun b => paIn pages (b.1 + b.2))).any (fun a =>
          bits a 51 42 != s1.pkg && s1.link.lost.contains (bits a 51 42)) then (s1, .fail stFault)
      else (s1, .ok pages)
    | x => x

def mldcChecks (e : EngCmd) : BitVec 16 :=
  let f := ptrFmt e.a
  stOn (!isTileFmt f) stFmt |||
    stOn (decide (2 ≤ e.b.toNat) || (isTileFmt f && (!tileFits e.ctile f || (f == Fmt.a80 && e.accBad)))) stRange

def runMldc (e : EngCmd) (s : State) : EngRun :=
  let f := ptrFmt e.a
  let len := 32 * tileSize f
  let plain (s : State) (st : BitVec 16) : EngRun := .done s st []
  if mldcChecks e ≠ 0 then plain s (mldcChecks e)
  else match tilePages e len .load s with
    | (s1, .fail st) => plain s1 st
    | (s1, .hold va) => .hold s1 va
    | (s1, .busy) => .busy s1
    | (s0, .ok pages) =>
      let at_ := e.tileBytes len
      let pas := if e.isLocal then [] else at_.map (fun b => paIn pages (b.1 + b.2))
      let near := arriveLines e.lines pas s0
      let s1 := near.1
      if near.2 ≠ [] then .lines s1 (e.lines ++ near.2) else
      let bad := if e.isLocal then (spmBad s1 (at_.map (fun b => localByte s1.cur.core b.1 b.2))).map (fun o => engineBad s1 o 1)
        else
          let ps := s1.nearPlaces e.lines pas
          if s1.fails ps then some (engineFailed s1 ps) else none
      match bad with
      | some s2 => plain s2 stFault
      | none =>
        let bytes := at_.map (fun b => if e.isLocal then spmByte s1 (localByte s1.cur.core b.1 b.2).1 (localByte s1.cur.core b.1 b.2).2
          else engineByte s1 s1.here.vd e.lines (paIn pages (b.1 + b.2)))
        let es := (chunks (tileSize f) 1024 bytes).map ofBytes
        let st := stOn (f == Fmt.a80 && es.any (fun x => (A80.dec x).malformed)) stFmt |||
          stOn (f == Fmt.a80 && es.any (fun x => (A80.dec x).alpha != e.alpha)) stMismatch
        if st ≠ 0 then plain s1 st
        else plain (s1.updHere (fun k => k.tileWrite e.ctile f e.alpha es)) 0

/-- The format MSTC finds in the tile: its tag, none when untagged. -/
def EngCmd.stored (e : EngCmd) (k : Core) : Nat := (k.tags[tagIx e.ctile]).fmt.toNat

/-- DESIGN CHOICE (log 75): R174 gives an untagged tile no size; it takes one slot, or for OFMT A80 the four of a tile of records. -/
def mstcChecks (k : Core) (e : EngCmd) : BitVec 16 :=
  let o := e.g 8
  let cf := e.stored k
  let plain := (decide (1 ≤ o) && decide (o ≤ 0x0E)) || o == 0x1D || o == 0x1E
  stOn (!plain && !(o == Fmt.a80 && (cf == 0 || cf == Fmt.a80))) stFmt |||
    stOn (decide (32 ≤ e.b.toNat) || bits e.b.toNat 4 2 == 6 || decide (16 ≤ e.ctile) ||
      !tileFits e.ctile (if cf = 0 then (if o = Fmt.a80 then Fmt.a80 else Fmt.f32) else cf)) stRange

/-- One element in OFMT (R174). -/
def mstcElem (e : EngCmd) (cf j x : Nat) : Nat × Fl :=
  let o := e.g 8
  let r : Rnd := ⟨e.frm, if e.frm = 5 then (e.stream.word (e.sro.toNat + j)).toNat else 0⟩
  let sat := e.b.getLsbD 1
  let scaled (v : Num) (int : Bool) : Nat × Fl :=
    let (y, f) := scaleNum v (valueOf Fmt.f32 (e.g 10))
    let (z, f') := convert o sat int r y
    (if cf = Fmt.a80 then (plusZero o y (z, f ||| f')) else (z, f ||| f'))
  if cf = 0 then (if o = Fmt.a80 then (A80.empty 0).enc else 0, 0)
  else if o = Fmt.a80 then (x, 0)
  else if cf = Fmt.a80 then
    let a := A80.dec x
    if a.flags &&& 7 ≠ 0 ∨ a.w ≠ 0 ∨ a.v = 0 then a.round o sat r else scaled a.num true
  else scaled (valueOf cf x) (cf == Fmt.i32)

def runMstc (e : EngCmd) (s : State) : EngRun :=
  let k := s.here
  let cf := e.stored k
  let len := 4 * fmtBits (e.g 8)
  if mstcChecks k e ≠ 0 then .done s (mstcChecks k e) []
  else if cf ≠ 0 ∧ k.tagged e.ctile cf (k.tags[tagIx e.ctile]).alpha = false then .done s stMismatch []
  else match tilePages e len .store s with
    | (s1, .fail st) => .done s1 st []
    | (s1, .hold va) => .hold s1 va
    | (s1, .busy) => .busy s1
    | (s0, .ok pages) =>
      match (if cf = 0 then none else k.tileBad e.ctile cf) with
      | some o => .done (engineBad s0 o 5) stFault []
      | none =>
      let s1 := s0
      let es := (if cf = 0 then List.replicate 1024 0 else k.tileRead e.ctile cf).zipIdx.map (fun x => mstcElem e cf x.2 x.1)
      let rows := (chunks 32 32 (es.map (·.1))).map (fun r => bytesOf len (packFields (fmtBits (e.g 8)) r))
      let st := (orFlags es).zeroExtend 16
      if e.isLocal then
        .done (((rowStarts e.a (e.g 9)).zip rows).foldl (fun s r =>
          s.spmWrite (localByte s.cur.core r.1 0).1 (localByte s.cur.core r.1 0).2 r.2) s1) st []
      else
        let bs := ((e.tileBytes len).map (fun b => paIn pages (b.1 + b.2))).zip (rows.flatMap id)
        let (s2, ids) := engineWrite pages bs s1
        .done s2 st ids

/-- What the tile command in progress does. -/
def runMx (e : EngCmd) (s : State) : EngRun :=
  let plain (r : State × BitVec 16) : EngRun := .done r.1 r.2 []
  match e.fn with
  | 0 => plain (runMma e s)
  | 3 => runMldc e s
  | 4 => runMstc e s
  | _ => plain (runMzero e s)

/-! ### Choosing and completing (R175, R176) -/

def setMx (c : Nat) (e : EngCmd) (s : State) : State :=
  s.updCore c (fun k => { k with mx := k.mx.map (fun x => if x.id = e.id then e else x) })

/-- The cores whose turn it is, in order: the one being served while its weight lasts, then the next ones. `muNext` holds
8 × the commands it has been given + its position. -/
def muOrder (w n : Nat) : List Nat :=
  (if n / 8 < w then [n % 8] else []) ++ (List.range 8).map (fun i => (n % 8 + 1 + i) % 8)

/-- MU_COMMAND_START (R175): the next queue whose head may start is served. -/
def startMx (mg : Nat) (s : State) : State :=
  let core (i : Nat) : Nat := 8 * mg + i
  let busy := (List.range 8).any (fun i => (s.core (core i)).mx.any (·.started))
  let n := (lookup mg s.muNext).getD 0
  let head (i : Nat) : Option EngCmd :=
    match (s.core (core i)).mx.head? with
    | some e => if e.mayStart (core i) s then some e else none
    | none => none
  if busy then s
  else match (muOrder (s.core (core (n % 8))).mxw.toNat n).find? (fun i => (head i).isSome) with
    | none => s
    | some i =>
      match head i with
      | none => s
      | some e =>
        let used := if i = n % 8 ∧ n / 8 < (s.core (core i)).mxw.toNat then n / 8 + 1 else 1
        let s1 := { actAs (core i) e.ctx s with muNext := put mg (8 * used + i) s.muNext }
        if e.fn = 3 ∧ e.isLocal = false then
          match tilePages e (32 * tileSize (ptrFmt e.a)) .load s1 with
          | (s2, .ok pages) =>
            let r := askLines pages ((e.tileBytes (32 * tileSize (ptrFmt e.a))).map (fun b => paIn pages (b.1 + b.2))) s2
            setMx (core i) { e with started := true, lines := r.2 } r.1
          | (s2, .busy) => s2
          | (s2, _) => setMx (core i) { e with started := true } s2
        else setMx (core i) { e with started := true } s1

/-- A command of a context joins its commit group and STATUS; its slot counts down (R170, R176). -/
def endMx (c : Nat) (e : EngCmd) (s : State) : State :=
  let s1 := s.updCore c (fun k => { k with mx := k.mx.filter (fun x => x.id != e.id) })
  if e.dead then s1
  else
    let join (g : CommitGroup) : CommitGroup :=
      if g.id = e.group then { g with left := g.left - 1, status := g.status ||| e.status } else g
    releaseSlot c e.ctx e.id e.slot (s1.updCtx c e.ctx (fun m =>
      { m with mg := m.mg.set 11 (m.mg[11] ||| e.status.zeroExtend 64), grpNow := join m.grpNow
               groups := m.groups.map join }.settleGroups))

/-- MX_COMMAND_COMPLETE (R173, R176): the command in progress of a matrix group finishes. -/
def completeMx (mg : Nat) (s : State) : State :=
  match (List.range 8).find? (fun i => (s.core (8 * mg + i)).mx.any (·.started)) with
  | none => s
  | some i =>
    let c := 8 * mg + i
    match (s.core c).mx.find? (·.started) with
    | none => s
    | some e =>
      if e.lines.any (fun l => l.2.2.isNone && !s.link.lost.contains (bits l.2.1 51 42)) || !e.idents.isEmpty then s
      else if e.written then endMx c e s
      else
        let done (s1 : State) (st : BitVec 16) (ids : List Nat) : State :=
          let e1 := { e with written := true, status := st, idents := ids, held := none }
          if ids.isEmpty then endMx c e1 s1 else setMx c e1 s1
        if stFailed e.status then done s e.status []
        else match e.held with
          | some ⟨_, none⟩ => s
          | some ⟨_, some false⟩ => done s stFault []
          | _ =>
            match runMx e (actAs c e.ctx s) with
            | .busy s1 => { s1 with cur := s.cur }
            | .lines s1 ls => setMx c { e with lines := ls } { s1 with cur := s.cur }
            | .hold s1 va => setMx c { e with held := some ⟨BitVec.ofNat 64 va, none⟩ } s1
            | .done s1 st ids => done s1 st ids

def execMuCommandStart (mg : Nat) (s : State) : Out := .next (startMx mg s)
def execMxCommandComplete (mg : Nat) (s : State) : Out := .next (completeMx mg s)

end Sys2Proof.Machine
end

