-- ==== Sys2Proof/Machine/Vds.lean ====
section
/-! DEFINITION. Pre-emption and resumption (R296 to R300), the commands on a virtual device (R301 to R318, R321), keys (R306)
and vigil (R334 to R340). -/

namespace Sys2Proof.Machine

/-! ### A core leaves, and its image comes back -/

/-- Everything a core had sent out has come back; no engine command is in progress (R297, R313). -/
def Core.packable (k : Core) : Bool :=
  k.ctxs.toList.all (fun x => x.remote.isEmpty && x.parked.isEmpty && x.loads.isEmpty && x.tinv.isNone && x.pbind.isNone) &&
    k.mx.all (!·.started) && k.copies.all (!·.started)

def State.packable (s : State) (c : Nat) : Bool := (s.core c).packable

/-- The unit completes every queued request (R120). -/
def finishSfu (c : Nat) : Nat → State → State
  | 0, s => s
  | f + 1, s => match execSfuRequestComplete c s with
    | .next t => finishSfu c f t
    | _ => s

/-- A context as its image holds it: a wait has not issued, but a pager's answer to a held access has come (R297). -/
def Context.packed (c : Context) : Context :=
  { c.unissued with bound := 0, unacked := 0, hold := c.hold.filter (·.answer.isSome) }

/-- Contributions that the L1 of a core holds are merged at their homes (R148). -/
def mergeCore (c : Nat) (s : State) : State := ((s.core c).l1.filter (·.upd.isSome)).foldl (fun s l => s.evictLine c l) s

/-- What stops first in a core that leaves: lazy instructions keep the words drawn (R132), waits are withdrawn (R144), SFU requests and
fixed-latency operations complete (R120, R297), and answers to fetches that are still to come are nobody's. -/
def stopCore (c : Nat) (s : State) : State :=
  let s1 := (List.range 11).foldl (fun s x => (stopLazy c x s).withdrawAll c x) s
  let s2 := (List.range 11).foldl (fun s x => s.finishFixed c x) (finishSfu c (s1.core c).sfu.length s1)
  let gone (r : RemoteReq) : Bool := r.core == c && (match r.kind with
    | .waita | .fetch _ _ => true
    | _ => false)
  mergeCore c { s2 with link := { s2.link with reqs := s2.link.reqs.filter (fun r => !gone r) } }

/-- The number under which a saved core stands: the origin whose part it carries; for a core without one, whose own number another core
carries, a number of its own. -/
def saveKey (s : State) (c : Nat) : Nat := if s.route (s.core c).origin = c then (s.core c).origin else 16384 + c

/-- Steps 1 to 4 of R297, and the same at an equinox stop or a collapse: the core's image stands in `saved`, and its bytes in
the save area where `write` says so. A core that collapses without them keeps its memories and its L1 (R336). -/
def packCore (c : Nat) (mode : CoreMode) (write : Bool) (s : State) : State :=
  let s1 := stopCore c s
  let k := s1.core c
  let img := { k with ctxs := k.ctxs.map (·.packed) }
  let key := saveKey s1 c
  let s2 := s1.updVd k.vd (fun v => { v with
    saved := put key img v.saved
    savedNode := match k.node with
      | some n => put key n v.savedNode
      | none => v.savedNode })
  let s3 := s2.setCore c { k with
    ctxs := Vector.replicate 11 Context.reset, mx := [], copies := [], sfu := [], spmDue := [], notices := [], node := none, recs := []
    upcall := false, upslot := false, sent := 0, rcvd := 0, mode := mode
    icache := if write then [] else k.icache, itags := if write then [] else k.itags, l1 := if write then [] else k.l1 }
  if write then patchImage k.vd key 0 (coreImage s.pkg k.origin img) s3 else s3

/-- A captured word takes its values from the save area, where they stand there (R305). -/
def fromArea (a : Nat) (m : PortMsg) (s : State) : State × PortMsg :=
  if (s.devPlace a).isNone then (s, m)
  else match s.devRead a (8 * m.words.length) with
    | (s1, none) => (s1, m)
    | (s1, some x) => (s1, { m with words := (List.range m.words.length).map (fun i => BitVec.ofNat 64 (x / 2 ^ (64 * i))) })

/-- The spilled words of an origin in the order in which they were diverted, as its spill queue holds them (R300, R305). -/
def spilledWords (vd origin : Nat) (s : State) : State × List PortMsg :=
  let v := s.vd vd
  let base := v.desc.savebase.toNat + v.desc.ilen * 262144 + (origin - v.desc.ibase) * 65536
  (((lookup origin v.spill).getD []).foldl (fun (acc : Nat × State × List PortMsg) m =>
    let r := fromArea (base + 8 * acc.1) m acc.2.1
    (acc.1 + m.words.length, r.1, acc.2.2 ++ [{ r.2 with node := none, spilled := true }])) (0, s, [])).2

/-- An uncorrectable error in an image: the context that owns the bytes takes MCHK at its first instruction after the wake, and the record
names the saved image (R339, R342, R343). -/
def imageMchk (vd origin c : Nat) (bad : List (Nat × Place)) (s : State) : State :=
  (List.range 11).foldl (fun s x => match bad.find? (fun o => imageOwner o.1 == x) with
    | none => s
    | some o =>
      let r := s.recordFor (s.rowOwner 0 o.2.rank o.2.row) (BitVec.ofNat 64 ((s.imageAt vd origin + o.1) / 32 * 32)) 0 9 0
        (Config.syndrome s.errSeq).toNat c x
      if (s.ctx c x).status = .free then r.1 else r.1.updCtx c x (fun m => { m with mchk := m.mchk.or (some r.2) })) s

/-- What a core that slept with its memories retained still has of them (R336). -/
def Core.retain (k img : Core) : Core :=
  { img with
    spm := k.spm, full := k.full, tile := k.tile, tags := k.tags, bad := k.bad, tbad := k.tbad, l1 := k.l1, icache := k.icache
    itags := k.itags }

/-- R299, R300: the image of an origin curve number is loaded into a core, from the save area where `bytes` says that it stands there,
and its spilled words come before new ones. -/
def loadCore (vd origin c : Nat) (bytes : Bool) (s : State) : State :=
  match lookup origin (s.vd vd).saved with
  | none => s
  | some old =>
    let k := s.core c
    let read := if bytes then readImage vd origin s else (s, none)
    let img := match read.2 with
      | some b => coreOfImage b.1 old
      | none => old
    let img := if bytes then { img with icache := [], itags := [], l1 := [] } else k.retain img
    let spilled := spilledWords vd origin read.1
    let s1 := spilled.1.setCore c { img with
      clock := k.clock, feat := k.feat, watch := k.watch, mode := .running, waiters := k.waiters
      vd := vd, lastVd := some vd, origin := if origin < 16384 then origin else c
      ctxs := img.ctxs.map (fun x => { x with bound := k.clock }) }
    let s2 := s1.updVd vd (fun v => { v with
      saved := drop origin v.saved, savedNode := drop origin v.savedNode, spill := drop origin v.spill })
    imageMchk vd origin c ((read.2.map (·.2)).getD []) { s2 with
      inflight := spilled.2 ++ s2.inflight
      routes := if 16384 ≤ origin then s2.routes else if c = origin then drop origin s2.routes else put origin c s2.routes }

/-- PREEMPTION (R297): once nothing of the core is on its way. -/
def execPreemption (core : Nat) : State → Out := fun s =>
  if 4096 ≤ core ∨ (s.core core).mode ≠ .running ∨ s.packable core = false then .next s
  else .next (packCore core .preempted true s)

/-- R296: a core without MX or COPY refuses an image with saved commands. -/
def acceptsImage (k img : Core) : Bool :=
  (img.mx.isEmpty || k.feat.getLsbD 0) && (img.copies.isEmpty || k.feat.getLsbD 1)

/-- A core can take the image of an origin: it is pre-empted or runs no node, and no other node than the image's has begun on it and
is still to end (R299, R319). -/
def takesImage (s : State) (vd origin core : Nat) : Bool :=
  let v := s.vd vd
  let k := s.core core
  let node (o : Nat) : Option NodeRef := (lookup o v.savedNode).or (s.core (s.route o)).node
  ((k.mode == .running && k.node.isNone) || k.mode == .preempted) &&
    (core == s.route origin || (s.route core == core && k.mode == .running) || node core == lookup origin v.savedNode)

/-- CORE_RESUMPTION (R296, R299, R319). -/
def execCoreResumption (vd origin core : Nat) : State → Out := fun s =>
  let v := s.vd vd
  let k := s.core core
  match lookup origin v.saved with
  | none => .next s
  | some img =>
    let home := s.route origin
    if v.issuing s.ring = false ∨ 16384 ≤ origin ∨ core < v.desc.ibase ∨ v.desc.ibase + v.desc.ilen ≤ core ∨
        takesImage s vd origin core = false ∨ acceptsImage k img = false then
      .next s
    else .next (whenServed (fun s =>
      let s1 := loadCore vd origin core true s
      if home = core then s1
      else s1.updCore home (fun k => { k with mode := if k.mode = .preempted ∧ k.origin = origin then .running else k.mode })) s)

/-! ### Descriptors (R303, R321) -/

def vdDesc (b : List Byte) : VdDesc :=
  { ibase := num b 0 4, ilen := num b 4 4, ptroot := w64 b 8, trapvec := w64 b 0x10, savebase := w64 b 0x18
    cmdring := w64 b 0x20, fltring := w64 b 0x28, ifile := w64 b 0x30, crlog := num b 0x38 1, frlog := num b 0x39 1
    flags := BitVec.ofNat 16 (num b 0x3A 2), qos := BitVec.ofNat 32 (num b 0x3C 4), time := w64 b 0x40, dombase := w64 b 0x48 }

def wakeClass (f : BitVec 16) : Nat := bits f.toNat 2 1

/-- Every byte of a structure of the device lies in rows that VD 0's entries cover (R309). -/
def State.devCovered (s : State) (pa len : Nat) : Bool :=
  (List.range ((len + 63) / 64)).all (fun i => (s.devPlace (pa + 64 * i)).isSome)

/-- What CREATE and RESUME check of a descriptor (R303, R309, R321). -/
def descOk (s : State) (vd : Nat) (b : List Byte) (d : VdDesc) : Bool :=
  num b 0x50 48 == 0 && d.flags &&& 0xFFF0 == 0 && decide (wakeClass d.flags ≤ 2) && d.qos &&& 0xFFFFF000 == 0 &&
    bits d.dombase.toNat 63 55 == 0 && bits d.dombase.toNat 6 1 == 0 &&
    (!d.dombase.getLsbD 0 || decide (bits d.dombase.toNat 45 36 ≤ bits d.dombase.toNat 35 26)) &&
    decide (d.ilen ≤ 4096) && decide (d.ibase + d.ilen ≤ 4096) && decide (6 ≤ d.crlog) && decide (d.crlog ≤ 12) &&
    decide (6 ≤ d.frlog) && decide (d.frlog ≤ 12) && d.ptroot &&& 0xFFFF == 0 && d.savebase &&& 0xFFFF == 0 &&
    d.cmdring &&& 0xFFF == 0 && d.fltring &&& 0xFFF == 0 && d.trapvec &&& 3 == 0 &&
    s.vds.all (fun e => e.1 == vd || e.2.state == .absent || !overlap d.ibase d.ilen e.2.desc.ibase e.2.desc.ilen ||
      d.ilen == 0 || e.2.desc.ilen == 0) &&
    s.devCovered d.ptroot.toNat 65536 && s.devCovered d.savebase.toNat (d.ilen * 327680 + 2 ^ 24) &&
    s.devCovered d.cmdring.toNat (256 * 2 ^ d.crlog) && s.devCovered d.fltring.toNat (64 * 2 ^ d.frlog)

/-- The 128 bytes of a descriptor in the memory of VD 0; none where they cannot be read (log 69). -/
def readDesc (arg : BitVec 48) (s : State) : State × Option (List Byte) :=
  let pa := arg.toNat * 128
  if (List.range 128).all (fun i => bits (pa + i) 51 42 == s.pkg && (s.place 0 (pa + i)).isSome) then
    let ps := s.places 0 ((List.range 128).map (pa + ·))
    let s1 := s.comes ps
    if s1.fails ps then ((s1.wordRecord 0 none ps 0 0 0xFFFFFFFF 0xFF).1, none) else (s1, some (ps.map s1.readByte))
  else (s, none)

/-- A measurement joins register i (R351): M ← SHA-384(M ∥ d), digests as byte strings from their high end. -/
def digestBytes (x : BitVec 384) : List Byte := (bytesOf 48 x.toNat).reverse

def State.measure (i : Fin 8) (d : List Byte) (s : State) : State :=
  { s with sec := { s.sec with m := s.sec.m.set i (Config.sha384 (digestBytes s.sec.m[i] ++ d)) } }

/-! ### The command word (R302) -/

/-- The command word of an operation. -/
def vdWord (op vd : Nat) (arg : BitVec 48) : W64 := BitVec.ofNat 64 (op + vd % 64 * 2 ^ 8 + arg.toNat * 2 ^ 16)

/-- The VD has nothing outstanding that a reset waits for (R316): requests to other packages, and accesses that wait at banks. -/
def State.outstanding (s : State) (vd : Nat) : Bool :=
  s.link.reqs.any (fun r => r.vd == vd && r.ctx == 11 && r.kind != ReqKind.word) ||
    s.ranks.any (fun e => e.2.pending.any (fun q => q.vd == vd && (match q.user with
      | .context _ _ _ | .engine _ => true
      | _ => false)))

def drainDone (vd : Nat) (s : State) : State :=
  if (s.vd vd).draining && !s.outstanding vd then s.updVd vd (fun v => { v with draining := false }) else s

/-- A core that enters a VD (R33, R216): nothing of an earlier program stays, and what its contexts waited for elsewhere is withdrawn. -/
def cleanCore (vd c : Nat) (s : State) : State :=
  ({ s with
    cores := s.cores.map (fun (e : Nat × Core) => (e.1, { e.2 with waiters := e.2.waiters.filter (fun w => w.core != c) }))
    sendq := s.sendq.filter (fun w => w.core != c) }).updCore c (fun (k : Core) => { Core.reset with
    clock := k.clock, feat := k.feat, watch := k.watch, vd := vd, lastVd := some vd, origin := c
    mode := if k.mode = CoreMode.retired then CoreMode.retired else CoreMode.running
    ctxs := k.ctxs.map (fun (x : Context) => { Context.reset with attached := x.attached }) })

/-- The interval and the number of a VD are free (R317). -/
def freeVd (vd : Nat) (s : State) : State :=
  let s1 := (s.vd vd).interval.foldl (fun s c => cleanCore 0 c s) s
  { s1 with vds := put vd Vd.reset s1.vds }

/-- The ALL bit of a TINV over a VD (R110, R306). -/
def allOf (vd : Nat) : W64 := BitVec.ofNat 64 (vd + 64)

/-- A command that has begun completes when what it waits for is over: RESET its drain (R316), KEYKILL its TINV (R306), TEARDOWN both
(R317). -/
def settleOp (s : State) : State :=
  let vd := bits s.vdCmd.toNat 13 8
  if s.doing 4 vd then
    let s1 := drainDone vd s
    if (s1.vd vd).draining then s1 else { s1 with vdStat := 0 }
  else if s.doing 5 vd then
    let s1 := drainDone vd s
    if (s1.vd vd).draining || s1.usesPage 0 (allOf vd) then s1 else { freeVd vd s1 with vdStat := 0 }
  else if s.doing 7 vd then
    if s.usesPage 0 (allOf vd) then s else { s with vdStat := 0 }
  else s

/-- An operation is performed when no command is in progress, or when it is the command that stands in the command word and has not begun
(R302, R355); its code goes to the status word. One whose reads lie in a bank that is held begins later (R371). -/
def vdOp (op vd : Nat) (arg : BitVec 48) (f : State → State × Nat) (s : State) : Out :=
  let w := vdWord op vd arg
  if 64 ≤ vd ∨ (s.vdStat = 1 ∧ (s.vdBegun = true ∨ s.vdCmd ≠ w)) then .next s
  else
    let r := f { s with stalled := [] }
    if r.1.stalled.isEmpty then
      .next (settleOp { r.1 with vdCmd := w, vdStat := BitVec.ofNat 8 r.2, vdBegun := r.2 == 1 })
    else .next { (s.wakeBanks r.1.stalled).askWindow 0 r.1.stalled with vdCmd := w, vdStat := 1, vdBegun := false }

def refused : Nat := 2
def wrongState : Nat := 3

/-- CREATE (R301, R303, R321). -/
def execCreate (vd : Nat) (arg : BitVec 48) : State → Out :=
  vdOp 1 vd arg (fun s =>
    if (s.vd vd).state ≠ .absent then (s, wrongState)
    else match readDesc arg s with
      | (s, none) => (s, refused)
      | (s, some b) =>
        let d := vdDesc b
        let s := s.measure 7 b
        if !descOk s vd b d then (s, refused)
        else
          let v : Vd := { Vd.reset with
            state := .running, desc := d, wins := (s.vd vd).wins, b := d.time, q := BitVec.ofNat 64 s.ring }
          ((List.range d.ilen).foldl (fun s i => cleanCore vd (d.ibase + i) s) { s with vds := put vd v s.vds }, 0))

/-! ### Equinox stop (R313, R314) -/

/-- The first ring time 2 µs or more from now whose low 48 bits are given. -/
def stopTime (now arg : Nat) : Nat := now + 2000 + (arg + 2 ^ 48 - (now + 2000) % 2 ^ 48) % 2 ^ 48

/-- STOP: the status word reads 1 until the equinox stop is complete. -/
def execStop (vd : Nat) (arg : BitVec 48) : State → Out :=
  vdOp 2 vd arg (fun s =>
    match (s.vd vd).state with
    | .running => (s.updVd vd (fun v => { v with state := .stopping, te := some (stopTime s.ring arg.toNat) }), 1)
    | .vigil => (s.updVd vd (fun v => { v with te := some (stopTime s.ring arg.toNat) }), 1)
    | _ => (s, wrongState))

/-- Courses of a VD lose what they have done, and run again when the VD does; an open program course fails ABORTED. -/
def rollBack (vd : Nat) (s : State) : State :=
  (s.courses.filter (fun c => c.vd == vd && c.opened && !c.flipped)).foldl (fun s c =>
    if c.cmd = none ∧ c.head.op = .program then failCourse c.id 6 noMember none s
    else settleRows c.foot (applyHeld c.foot ((c.members.foldl (fun s r => s.updRank r (fun k => { k with
        reads := 0, writes := 0, cfl := if c.index = 0 then 0 else k.cfl })) s).setCourse { c with
      opened := false, staged := [], under := [], ready := [], keystone := none }))) s

/-- Guest time of a VD (R318). -/
def Vd.guest (v : Vd) (ring : Nat) : W64 :=
  match v.state with
  | .stopped | .vigil | .stoppedVigil => v.p
  | _ => v.b + (BitVec.ofNat 64 ring - v.q)

/-- The VD's ranks (R189): those that run for it. -/
def ranksRunning (s : State) (vd : Nat) : List Nat := (s.ranks.filter (fun e => e.2.run.any (·.vd == vd))).map (·.1)

/-- Captured packets with their places in the overflow region: each router holds 2 KiB of them, and the excess goes there in the order of
the capture (R305, R313). DESIGN CHOICE (log 38): the router of its destination captures a word, which takes 8 bytes a value. -/
def overflowed (ms : List PortMsg) : List (PortMsg × Option Nat) :=
  (ms.foldl (fun (acc : List (Nat × Nat) × Nat × List (PortMsg × Option Nat)) m =>
    let used := (lookup m.dst.core acc.1).getD 0
    let n := 8 * m.words.length
    if used + n ≤ 2048 then (put m.dst.core (used + n) acc.1, acc.2.1, acc.2.2 ++ [(m, none)])
    else (acc.1, acc.2.1 + n, acc.2.2 ++ [(m, some acc.2.1)])) ([], 0, [])).2.2

/-- Where the overflow region of a VD begins (R305). -/
def VdDesc.overflow (d : VdDesc) : Nat := d.savebase.toNat + d.ilen * 327680

/-- The excess of captured packets is written. -/
def writeOverflow (vd : Nat) (ms : List PortMsg) (s : State) : State :=
  (overflowed ms).foldl (fun s x => match x.2 with
    | some o => s.devWrite ((s.vd vd).desc.overflow + o) (x.1.words.flatMap (fun w => bytesOf 8 w.toNat))
    | none => s) s

/-- Captured packets as they are reinjected. -/
def readOverflow (vd : Nat) (ms : List PortMsg) (s : State) : State × List PortMsg :=
  (overflowed ms).foldl (fun (acc : State × List PortMsg) x => match x.2 with
    | some o =>
      let r := fromArea ((acc.1.vd vd).desc.overflow + o) x.1 acc.1
      (r.1, acc.2 ++ [r.2])
    | none => (acc.1, acc.2 ++ [x.1])) (s, [])

/-- In-flight words of a VD's cores. -/
def State.inflightOf (s : State) (vd : Nat) : List PortMsg := s.inflight.filter (fun m => (s.core (s.route m.dst.core)).vd == vd)

/-- EQUINOX_STOP (R313): once nothing of the VD's cores is on its way and no committed course waits for its keystone. -/
def execEquinoxStop (vd : Nat) : State → Out := fun s =>
  let v := s.vd vd
  match v.te with
  | none => .next s
  | some te =>
    let cores := v.interval.filter (fun c => decide ((s.core c).mode = .running))
    let s0 := advanceTo te s
    if !cores.all s0.packable || s0.courses.any (fun c => c.vd == vd && c.keystone.isSome && s0.keystoneStands c) then .next s
    else
      let done (s : State) : State := if s.doing 2 vd then { s with vdStat := 0 } else s
      match v.state with
      | .vigil => .next (done (s0.updVd vd (fun v => { v with state := .stoppedVigil, te := none, stopPkg := s0.pkg })))
      | .stopping =>
        let s1 := writeOverflow vd (v.captured ++ s0.inflightOf vd)
          (s0.updVd vd (fun v => { v with p := v.guest te, captured := v.captured ++ s0.inflightOf vd }))
        let s2 := { s1 with inflight := s1.inflight.filter (fun m => (s1.core (s1.route m.dst.core)).vd != vd) }
        let s3 := cores.foldl (fun s c => packCore c .stopped true s) s2
        let s4 := rollBack vd ((ranksRunning s3 vd).foldl (fun s r => spillRank r s) s3)
        .next (done (s4.updVd vd (fun v => { v with state := .stopped, te := some te, stopPkg := s4.pkg })))
      | _ => .next s

/-! ### RESUME (R315, R318) -/

/-- A curve number of the old interval in the new one. -/
def moved_ (old new len c : Nat) : Nat := if old ≤ c ∧ c < old + len then c - old + new else c

def PortDest.move (f : Nat → Nat) (d : PortDest) : PortDest := { d with core := f d.core }
def PortMsg.move (f : Nat → Nat) (m : PortMsg) : PortMsg :=
  { m with dst := m.dst.move f, src := (if m.src.1 < 4096 then f m.src.1 else m.src.1, m.src.2) }
def moveMember (pkg : Nat) (f : Nat → Nat) (m : BitVec 32) : BitVec 32 :=
  if m.getLsbD 21 || bits m.toNat 31 22 != pkg then m else BitVec.ofNat 32 (pkg * 2 ^ 22 + f (m.toNat % 2 ^ 21))
def Launch.move (pkg : Nat) (f : Nat → Nat) (l : Launch) : Launch :=
  { l with
    groups := l.groups.map (·.map (moveMember pkg f))
    nodes := l.nodes.map (fun n => { n with cores := n.cores.map f }) }
def Core.move (f : Nat → Nat) (k : Core) : Core :=
  { k with
    origin := f k.origin
    ctxs := k.ctxs.map (fun c => { c with ports := c.ports.map (fun p => { p with dest := p.dest.map (·.move f) }) }) }

/-- A new IBASE: routes, memberships and the numbers that name the VD's cores move with them. -/
def Vd.move (pkg : Nat) (f : Nat → Nat) (v : Vd) : Vd :=
  { v with
    saved := v.saved.map (fun e => (if 16384 ≤ e.1 then 16384 + f (e.1 - 16384) else f e.1, e.2.move f))
    savedNode := v.savedNode.map (fun e => (f e.1, e.2))
    spill := v.spill.map (fun e => (f e.1, e.2.map (·.move f)))
    captured := v.captured.map (·.move f)
    cmds := v.cmds.map (fun c => { c with core := f c.core, groups := c.groups.map (·.map (moveMember pkg f)) })
    faults := v.faults.map (fun x => { x with core := f x.core })
    queues := v.queues.map (fun q =>
      { q with launches := q.launches.map (·.move pkg f), groups := q.groups.map (·.map (moveMember pkg f)) }) }

/-- The ranks of a VD reload their images and go on (R262); owners of runs, of those that wait too, move with the interval. -/
def wakeRanks (vd : Nat) (f : Nat → Nat) (s : State) : State :=
  let own (x : RankRun) : RankRun := if x.vd = vd then { x with owner := x.owner.map (fun o => (f o.1, o.2)) } else x
  (s.ranks.map (·.1)).foldl (fun s r => s.updRank r (fun k =>
    let wake : Bool := k.state == .spilled && k.run.any (·.vd == vd) && !s.asleep.contains (channelOf r)
    { k with
      run := k.run.map own, queued := k.queued.map (fun q => (own q.1, q.2))
      state := if wake then .running else k.state, timer := if wake then 0 else k.timer })) s

/-- Guest time goes on at ring time t after a pause that began at te; in wall mode a VD that stopped in another package adds the pause
length that its RESUME descriptor gives (R318, R340). -/
def Vd.restart (v : Vd) (pkg te t : Nat) : Vd :=
  let wall : W64 := if v.stopPkg = pkg then BitVec.ofNat 64 (t - te) else v.desc.time
  { v with b := if v.desc.flags.getLsbD 0 then v.p + wall else v.p, q := BitVec.ofNat 64 t }

/-- Captured packets are reinjected in the order of their capture (R315). -/
def reinject (vd : Nat) (s : State) : State :=
  let r := readOverflow vd (s.vd vd).captured s
  { r.1.updVd vd (fun v => { v with captured := [] }) with inflight := r.2 ++ r.1.inflight }

/-- An image stands with the core that carried it when it was saved. -/
def State.atHome (s : State) (o : Nat) : Bool := decide (o < 16384) && (s.core (s.route o)).origin == o

/-- Images whose core another one has taken go to cores that carry none (R314, R315); the cores that are left. -/
def loadDisplaced (vd : Nat) : List (Nat × Core) → List Nat → State → State × List Nat
  | [], free, s => (s, free)
  | e :: r, free, s => match free.find? (fun c => acceptsImage (s.core c) e.2) with
    | some c => loadDisplaced vd r (free.erase c) (loadCore vd e.1 c true s)
    | none => loadDisplaced vd r free s

/-- Every saved image of a VD is loaded (R315): onto the core that carried it, or, where another has taken that one, onto one that carries
none; an image that no core accepts stays saved (R296). Spilled words go before captured packets (R300). -/
def loadAll (vd : Nat) (s : State) : State :=
  let v := s.vd vd
  let home := v.saved.filter (fun e => s.atHome e.1 && acceptsImage (s.core (s.route e.1)) e.2)
  let other := v.saved.filter (fun e => decide (e.1 < 16384) && !home.any (·.1 == e.1))
  let free := v.interval.filter (fun c => !home.any (fun e => s.route e.1 == c))
  let s1 := home.foldl (fun s e => loadCore vd e.1 (s.route e.1) true s) (reinject vd s)
  let r := loadDisplaced vd other free s1
  let s2 := (v.saved.filter (fun e => decide (16384 ≤ e.1))).foldl (fun s e =>
    if r.2.contains (e.1 - 16384) then loadCore vd e.1 (e.1 - 16384) true s
    else s.updVd vd (fun v => { v with saved := drop e.1 v.saved })) r.1
  { s2 with cores := s2.cores.map (fun e =>
    if e.2.vd = vd ∧ (e.2.mode = .stopped ∨ e.2.mode = .preempted) then (e.1, { e.2 with mode := .running }) else e) }

/-- A new interval: the cores of the old one are free, and those of the new one stand for them. -/
def moveCores (vd : Nat) (old new : VdDesc) (f : Nat → Nat) (s : State) : State :=
  let s1 := (List.range new.ilen).foldl (fun s i => cleanCore vd (new.ibase + i) s)
    ((List.range old.ilen).foldl (fun s i => cleanCore 0 (old.ibase + i) s) s)
  (List.range (min old.ilen new.ilen)).foldl (fun t i =>
    let was := s.core (old.ibase + i)
    t.updCore (new.ibase + i) (fun k =>
      let k := { k with origin := f was.origin }
      if was.mode = .asleep then { was.retain k with mode := .asleep, l1 := [], icache := [], itags := [] } else k)) s1

/-- RESUME (R315, R318): the courses that rolled back begin their waits anew, and decisions that were due are made (R278). -/
def execResume (vd : Nat) (arg : BitVec 48) : State → Out :=
  vdOp 3 vd arg (fun s =>
    let v := s.vd vd
    if v.state ≠ .stopped ∧ v.state ≠ .stoppedVigil then (s, wrongState)
    else match readDesc arg s with
      | (s, none) => (s, refused)
      | (s, some b) =>
        let d := vdDesc b
        let s := s.measure 7 b
        if !descOk s vd b d || d.flags &&& 7 != v.desc.flags &&& 7 then (s, refused)
        else
          let f := moved_ v.desc.ibase d.ibase v.desc.ilen
          let mine (c : Nat) : Bool := decide (v.desc.ibase ≤ c) && decide (c < v.desc.ibase + v.desc.ilen)
          let s1 := s.updVd vd (fun v => { (v.move s.pkg f) with desc := d })
          let s2 := { s1 with
            routes := s1.routes.map (fun e => if mine e.1 then (f e.1, f e.2) else e)
            courses := s1.courses.map (fun c => if c.vd = vd then { c with since := s1.ring } else c) }
          let s3 := if d.ibase = v.desc.ibase ∧ d.ilen = v.desc.ilen then s2 else moveCores vd v.desc d f s2
          let s4 := wakeRanks vd f s3
          match v.state with
          | .stoppedVigil => (s4.updVd vd (fun v => { v with state := .vigil }), 0)
          | _ =>
            let s5 := s4.updVd vd (fun v => { v.restart s.pkg (v.te.getD s.ring) s.ring with state := .running, te := none })
            (loadAll vd s5, 0))

/-! ### RESET, DRAIN_TIMEOUT, TEARDOWN (R316, R317) -/

/-- A rank whose registers and mailbox belong to the VD. -/
def rankOfVd (s : State) (vd r : Nat) : Bool :=
  (s.rank r).run.any (·.vd == vd) ||
    ((s.rank r).run.isNone && s.permTouches r 0 (fun p => p.k && p.vd == vd) && !s.permTouches r 0 (fun p => p.k && p.vd != vd))

/-- A rank of a VD that is reset is idle, its registers and mailbox zeroised; the bank keeps its rows, its table and what waits at it,
the slots stay to whoever loaded them, and the run of another VD that waits here starts (R185, R248, R316). -/
def cleanRank (vd r : Nat) (s : State) : State :=
  freeRank r (s.updRank r (fun k => { Rank.reset with
    ovl := k.ovl, loaded := k.loaded, queued := k.queued.filter (fun q => q.1.vd != vd)
    writing := k.writing.filter (fun w => w.1 != vd)
    enabled := k.enabled, remap := k.remap, nextMortar := k.nextMortar, freed := k.freed, old := k.old, held := k.held
    pending := k.pending, save := k.save, saves := k.saves, spare := k.spare, lost := k.lost, migrates := k.migrates }))

/-- The overlay slots that hold images of the VD are zeroised (R316), and RKRUNs of it that wait are gone. -/
def cleanSlots (vd r : Nat) (s : State) : State :=
  s.updRank r (fun k =>
    let mine (slot : Nat) : Bool := lookup slot k.loaded == some vd
    { k with
      ovl := k.ovl.filter (fun w => !mine (w.1 / 1024)), loaded := k.loaded.filter (fun e => e.2 != vd)
      queued := k.queued.filter (fun q => q.1.vd != vd), writing := k.writing.filter (fun w => w.1 != vd) })

/-- An action that takes place in the next window of each bank that a rank holds (R259). -/
def inWindow (f : State → State) (s : State) : State :=
  let held := s.ranks.filter (fun e => e.2.state == .running && e.2.holdsBank)
  let s1 := f (held.foldl (fun s e => s.updRank e.1 (fun k => { k with state := .suspended })) s)
  held.foldl (fun s e => s.updRank e.1 (fun k => { k with state := .running })) s1

/-- An MSTC to global memory that is in progress runs to its end (R177); nothing else in progress leaves a trace of a core that is
zeroised. -/
def finishStores (c : Nat) (s : State) : State :=
  ((s.core c).mx.filter (fun e => e.started && !e.written && e.fn == 4 && !e.isLocal)).foldl (fun s e =>
    inWindow (fun s => match runMstc e (actAs c e.ctx s) with
      | .done s1 _ _ => { s1 with cur := s.cur }
      | _ => s) s) s

/-- The words of a command that the reset ends (R182, R316): those that have not left do, each once the one before it is performed; no slot
is left to count down. -/
def abortWords (vd : Nat) (c : RingCmd) (s : State) : State :=
  let status := match c.state with
    | .finished st => st
    | _ => statusWord 6 noMember c.cflags c.courses
  match c.op with
  | .coll | .rkovl | .rkrun =>
    ((List.range 2).drop c.words).foldl (fun (acc : State × List Nat) i =>
      let w := ({ c with words := i } : RingCmd).word status
      lateWord vd (some (c.core, c.ctx)) acc.2 w.1 w.2 acc.1) (s, c.awaits.toList) |>.1
  | _ => s

/-- A channel every valid entry of which belongs to the VD, one at least (R337). -/
def exclusive (s : State) (vd ch : Nat) : Bool :=
  let es := s.perms.filter (fun e => (permOf e.2).valid && e.1 / 512 == ch * 32 / 1024 &&
    overlap (permOf e.2).rfirst (permOf e.2).rcount (ch * 32 % 1024) 32)
  !es.isEmpty && es.all (fun e => (permOf e.2).vd == vd)

/-- Function-level reset of a VD: courses that are not committed roll back, and the one course of an instruction that is has no next
(R260); commands and launches end ABORTED, and everything the VD had in its cores and ranks is zeroised (R316). The channels that slept with
it wake (R339); launches whose words are still on their way keep their entries until those are performed (R284). -/
def resetVd (vd : Nat) (s : State) : State :=
  let v := s.vd vd
  let mine (c : Nat) : Bool := v.interval.contains c
  let s0 := if v.state = .vigil ∨ v.state = .stoppedVigil then
      (s.asleep.filter (exclusive s vd)).foldl (fun s ch => wakeChannel ch s) s
    else s
  let s1 := (s0.courses.filter (fun c => c.vd == vd && !c.flipped)).foldl (fun s c =>
    if c.committed s.ring then s.setCourse { c with total := c.index + 1 }
    else settleRows c.foot ((if c.opened then applyHeld c.foot s else s).dropCourse c.id)) s0
  let s1 := v.interval.foldl (fun s c => mergeCore c (finishStores c s)) s1
  let s2 := v.cmds.foldl (fun s c => abortWords vd c s) s1
  let s3 := (List.range 4).foldl (fun s q => ((s.vd vd).queues[Fin.ofNat 4 q]).launches.foldl (fun s l =>
    if l.started && !(s.vd vd).isEnding q l.number none then
      endLaunch vd q { l with msi := none } (launchWord 6 0xFFFFFF ((l.nodes.filter (·.state.isDone)).length)) s
    else s) s) s2
  let ended (s : State) (q : Nat) (l : Launch) : Bool := (s.vd vd).isEnding q l.number none
  let s4 := v.interval.foldl (fun s c => cleanCore vd c s)
    { s3 with
      inflight := s3.inflight.filter (fun m => !mine (s3.route m.dst.core))
      routes := s3.routes.filter (fun e => !mine e.1)
      tlb := s3.tlb.filter (fun t => t.vd != vd)
      link := { s3.link with reqs := s3.link.reqs.map (fun r => if r.vd = vd ∧ r.kind ≠ ReqKind.word then { r with ctx := 11 } else r) } }
  let s5 := s4.updVd vd (fun w => { w with
    state := .running, cmds := [], faults := [], spill := [], captured := []
    queues := Vector.ofFn (fun q => { LaunchQueue.reset with
      launches := (w.queues[q]).launches.filterMap (fun l =>
        if ended s4 q.val l then some { l with msi := if ended s q.val l then l.msi else none } else none) })
    endings := w.endings.filter (·.node.isNone)
    watches := [], saved := [], savedNode := [], woken := false, tc := none, te := none, revoking := []
    walkDue := false, quiet := none
    b := v.guest s.ring, q := BitVec.ofNat 64 s.ring
    draining := s4.outstanding vd })
  let s6 := (s5.ranks.map (·.1)).foldl (fun s r => cleanSlots vd r s) s5
  ((s6.ranks.map (·.1)).filter (rankOfVd s3 vd)).foldl (fun s r => cleanRank vd r s) s6

/-- RESET (R316) ends a STOP in progress (R314); it completes when its requests have drained. -/
def execReset (vd : Nat) (arg : BitVec 48) : State → Out := fun s =>
  vdOp 4 vd arg (fun s =>
    if (s.vd vd).state = .absent then (s, wrongState)
    else if arg ≠ 0 then (s, refused)
    else (resetVd vd s, 1)) (if s.doing 2 vd then { s with vdStat := 0 } else s)

/-- DRAIN_TIMEOUT (R316): what is still outstanding is killed, and its answer discarded; what waits at a bank for another package is
not the VD's to kill. -/
def execDrainTimeout (vd : Nat) : State → Out := fun s =>
  let mine (q : OutsideReq) : Bool := q.vd == vd && (match q.user with
    | .context _ _ _ | .engine _ => true
    | _ => false)
  if (s.vd vd).draining then
    .next (settleOp <| { s with
      link := { s.link with reqs := s.link.reqs.filter (fun r => !(r.vd == vd && r.ctx == 11 && r.kind != ReqKind.word)) }
      ranks := s.ranks.map (fun (e : Nat × Rank) => (e.1, { e.2 with pending := e.2.pending.filter (fun q => !mine q) }.freeOld)) }.updVd vd
        (fun v => { v with draining := false }))
  else .next s

/-! ### Keys (R306) -/

/-- KEYGEN: a fresh key; what another key has written under the slot reads as nothing it was (R306). -/
def execKeygen (vd : Nat) (arg : BitVec 48) : State → Out :=
  vdOp 6 vd arg (fun s =>
    if (s.vd vd).state = .absent then (s, wrongState)
    else if 16 ≤ arg.toNat then (s, refused)
    else
      let n := s.sec.keyDraws + 1
      ({ s.updVd vd (fun v => { v with keys := put arg.toNat n v.keys }) with sec := { s.sec with keyDraws := n } }, 0))

/-- A slot is zeroised: windows and entries that name it become invalid, and a TINV with ALL covers the VD, which KEYKILL waits for. -/
def killKey (vd slot : Nat) (s : State) : State :=
  let s1 := s.updVd vd (fun v => { v with
    keys := drop slot v.keys
    wins := v.wins.map (fun e => if (winOf e.2).key = slot then (e.1, e.2 &&& ~~~((1 : BitVec 128) <<< 114)) else e) })
  invalidate 0 (allOf vd) { s1 with perms := s1.perms.map (fun e =>
    if (permOf e.2).vd = vd ∧ (permOf e.2).key = slot then (e.1, e.2 &&& ~~~((1 : BitVec 128) <<< 79)) else e) }

def execKeykill (vd : Nat) (arg : BitVec 48) : State → Out :=
  vdOp 7 vd arg (fun s =>
    if (s.vd vd).state = .absent then (s, wrongState)
    else if 16 ≤ arg.toNat then (s, refused)
    else (killKey vd arg.toNat s, 1))

/-- TEARDOWN (R317): reset, keys killed, windows and entries invalid; then the interval and the number are free. -/
def execTeardown (vd : Nat) (arg : BitVec 48) : State → Out :=
  vdOp 5 vd arg (fun s =>
    if (s.vd vd).state ≠ .stopped ∧ (s.vd vd).state ≠ .stoppedVigil then (s, wrongState)
    else if arg ≠ 0 then (s, refused)
    else
      let s1 := (List.range 16).foldl (fun s k => killKey vd k s) (resetVd vd s)
      ({ s1.updVd vd (fun v => { v with wins := [] }) with
        perms := s1.perms.map (fun e =>
          if (permOf e.2).vd = vd then (e.1, e.2 &&& ~~~((1 : BitVec 128) <<< 79)) else e) }, 1))

/-! ### Entries and registers of the management window -/

def execPermissionEntryWrite (bd e : Nat) (v : BitVec 128) : State → Out := fun s =>
  .next (if bd < 8 ∧ e < 512 then s.writePerm bd e v else s)
def execWindowEntryWrite (vd w : Nat) (v : BitVec 128) : State → Out := fun s =>
  .next (if vd < 64 ∧ w < 16 then s.writeWindow vd w v else s)
def execRankEnableMapWrite (bd w : Nat) (v : BitVec 64) : State → Out := fun s =>
  .next (if bd < 8 ∧ w < 16 then s.writeEnable bd w v else s)
def execRegisterWrite (off : Nat) (v : BitVec 64) : State → Out := fun s =>
  .next (if off % 8 = 0 ∧ off < 2 ^ 20 then s.mgmtWrite off v else s)

/-! ### Vigil (R334 to R340) -/

/-- R334: a dormant context; `fuel` bounds the chain of JOINHs. A context that the debug port has halted is halted. -/
def dormant (k : Core) : Nat → Nat → Bool
  | 0, _ => false
  | f + 1, x =>
    let c := k.ctx x
    c.dhalt || (match c.status with
    | .free => true
    | .live => match c.wait with
      | some (.waita _) => true
      | some (.port p) => c.ports[ptrIx p].queue.isEmpty
      | some (.joinh h) => x == 0 && dormant k f h
      | _ => false
    | _ => false)

/-- The context is blocked in WAITA. -/
def Context.inWaita (m : Context) : Bool := decide (m.status = .live) && (match m.wait with
  | some (.waita _) => true
  | _ => false)

/-- The physical address of the word a context waits for in WAITA, and the value that keeps it waiting. -/
def waitaPa (s : State) (c x : Nat) : Option (Nat × W64) :=
  let t := actAs c x s
  match fetchWord t.me.pc.toNat t with
  | .error _ => none
  | .ok (w, u) =>
    match decodeSoras w with
    | .ok (.waita _ _ a b) =>
      let vs := u.values [.int a, .int b]
      match walkRange u (dieOf c) u.here.vd (va55 (arg1 vs 0)).toNat 8 .load with
      | (_, .ok pas) => pas.head?.map (fun pa => (pa, arg1 vs 1))
      | _ => none
    | _ => none

/-- The data home slice of an address of this package (R219), numbered over the compute dies. -/
def homeSlice (p : Place) (pa : Nat) : Nat :=
  p.rank / 2048 * 64 + (List.range 6).foldl (fun g i => g ^^^ bits pa (6 * i + 11) (6 * i + 6)) 0

/-- The watch set (R335): the words with their expected values, each once; none when a word is not at home in this package. -/
def watchSet (s : State) (vd : Nat) : Option (List Watch) :=
  (mapAll (fun (cx : Nat × Nat) =>
      match waitaPa s cx.1 cx.2 with
      | none => none
      | some (pa, v) => if bits pa 51 42 ≠ s.pkg then none
        else (s.place vd pa).map (fun p => (⟨p.key / 64, p.key / 8, v, homeSlice p pa⟩ : Watch)))
    ((s.vd vd).interval.flatMap (fun c => (List.range 11).filterMap (fun x =>
      if (s.ctx c x).inWaita then some (c, x) else none)))).map
    (fun ws => ws.foldl (fun acc w => if acc.contains w then acc else acc ++ [w]) [])

/-- What R334 asks of a core, or of a saved one; one that runs no node counts as dormant. -/
def Core.quiet (k : Core) (node : Bool) : Bool :=
  k.packable && k.sfu.isEmpty && k.mx.isEmpty && k.copies.isEmpty && k.recs.isEmpty && k.notices.isEmpty && k.spmDue.isEmpty &&
    (List.range 11).all (fun x =>
      let m := k.ctx x
      (!node || dormant k 11 x) && m.unacked == 0 && m.slots.toList.all (· == 0) && m.hold.isNone && m.pfault.isNone)

/-- R334. A node or launch that has ended and waits for its words has not ended yet. -/
def quiescent (s : State) (vd : Nat) : Bool :=
  let v := s.vd vd
  v.issuing s.ring && v.faults.isEmpty && v.cmds.isEmpty && v.endings.isEmpty && (s.inflightOf vd).isEmpty &&
    v.spill.all (·.2.isEmpty) && (ranksRunning s vd).isEmpty && !s.courses.any (·.vd == vd) && (pool s vd).isEmpty &&
    v.queues.toList.all (fun q => (q.launches.head?.map (·.started)).getD true) &&
    v.interval.all (fun c => (s.core c).quiet (s.core c).node.isSome &&
      (List.range 11).all (fun x => s.performed c x)) &&
    v.saved.all (fun e => e.2.quiet (lookup e.1 v.savedNode).isSome)

/-- A VD whose quiescence is under watch, and that is quiescent no more, begins anew (R335). -/
def breakQuiet (s : State) : State :=
  if s.vds.all (fun e => e.2.quiet.isNone) then s
  else { s with vds := s.vds.map (fun e =>
    if e.2.quiet.isSome && !quiescent s e.1 then (e.1, { e.2 with quiet := none }) else e) }

/-- The watch set fits in the free entries of the home slices: 256 each (R335). -/
def watchesFit (s : State) (ws : List Watch) : Bool :=
  let all := s.vds.flatMap (·.2.watches) ++ ws
  ws.all (fun w => decide ((all.filter (fun x => x.slice == w.slice)).length ≤ 256))

/-- The cores of a quiescent VD and, in class 2, the channels that only it holds go to sleep (R335 to R337). -/
def collapse (vd : Nat) (ws : List Watch) (s : State) : State :=
  let cls := wakeClass (s.vd vd).desc.flags
  let p := (s.vd vd).guest s.ring
  let s2 := ((s.vd vd).interval.filter (fun c => decide ((s.core c).mode = .running))).foldl
    (fun s c => packCore c .asleep (decide (1 ≤ cls)) s) s
  let chs := if cls = 2 then (List.range 256).filter (fun ch => exclusive s2 vd ch && !s2.asleep.contains ch) else []
  let s3 := chs.foldl (fun s ch => tryNap ch { s with napping := s.napping.filter (· != ch) ++ [ch] }) s2
  let s4 := s3.updVd vd (fun v => { v with
    p := p, tc := some s.ring, stopPkg := s.pkg, watches := ws, woken := false, quiet := none, state := .vigil })
  let all2 := s4.vds.all (fun e => e.2.state == .absent ||
    ((e.2.state == .vigil || e.2.state == .stoppedVigil) && wakeClass e.2.desc.flags == 2))
  if all2 then { s4 with link := { s4.link with lowPower := List.range 16 } } else s4

/-- VIGIL_COLLAPSE (R335 to R337): a VD that is quiescent comes under the engine's watch, and one that has been for 50 µs without a break
collapses when its watch set lies at home in this package and fits. DEDUCED (log 54): the first such event begins the 50 µs. -/
def execVigilCollapse (vd : Nat) : State → Out := fun s =>
  if !quiescent s vd then .next s
  else match (s.vd vd).quiet with
    | none => .next (s.updVd vd (fun v => { v with quiet := some s.ring }))
    | some t => if s.ring < t + 50000 then .next s
      else match watchSet s vd with
        | some ws => if watchesFit s ws then .next (collapse vd ws s) else .next s
        | none => .next s

/-- Every core that collapsed is restored (R338): its own image, or the one without a program of a core whose number another carries. -/
def wakeCores (vd : Nat) (bytes : Bool) (s : State) : State :=
  ((s.vd vd).interval.filter (fun c => decide ((s.core c).mode = .asleep))).foldl (fun s c =>
    let o := if s.route (s.core c).origin = c then (s.core c).origin else 16384 + c
    (loadCore vd o c bytes s).updCore c (fun k => { k with mode := .running })) s

/-- WAKE (R338, R340): a wake write or a new launch, which `woken` records, restores every core to its state at the collapse. A STOP that is
pending goes on as for a VD that runs (R314); once its Te has come nothing wakes the VD. -/
def execWake (vd : Nat) : State → Out := fun s =>
  let v := s.vd vd
  if v.state ≠ .vigil ∨ v.woken = false ∨ v.te.any (fun te => decide (te ≤ s.ring)) = true then .next s
  else .next (whenServed (fun s => wakeCores vd (decide (1 ≤ wakeClass v.desc.flags))
    (s.updVd vd (fun v => { v.restart s.pkg (v.tc.getD s.ring) s.ring with
      state := if v.te.isSome then .stopping else .running, tc := none, watches := [], woken := false }))) s)

end Sys2Proof.Machine
end

