-- ==== Sys2Proof/Machine/Repair.lean ====
section
/-! DEFINITION. Errors, the scrubber, spares, migration of a bank and the almanac (R341 to R347). -/

namespace Sys2Proof.Machine

/-! ### Uncorrectable errors (R342, R343) -/

/-- A number joins a list of marks. -/
def addMark (x : Nat) (l : List Nat) : List Nat := if l.contains x then l else l ++ [x]

/-- The place of the data of an error in a bank, where it lies in one of this package. -/
def State.errorPlace (s : State) (e : ErrorReport) : Option Place :=
  if e.source.toNat ∈ [2, 3, 4, 6, 9] ∧ bits e.addr.toNat 51 42 = s.pkg then (s.place e.vd e.addr.toNat).or (s.flatPlace e.addr.toNat) else none

/-- The core whose scratchpad or tile memory failed. -/
def errorCore (e : ErrorReport) : Option Nat :=
  match e.source.toNat, e.reader with
  | 1, .context c _ | 1, .engine c _ | 5, .context c _ | 5, .engine c _ => some c
  | _, _ => none

/-- The column word, or the word of a scratchpad or of the tile memory, keeps its bad check bits until it is written whole. -/
def markBad (e : ErrorReport) (s : State) : State :=
  match s.errorPlace e, errorCore e with
  | some p, _ => { s with badWords := addMark (s.wordAt none p) s.badWords }
  | none, some c =>
    if e.source.toNat = 1 then
      let t := localTarget c e.addr
      s.updCore t.1 (fun k => { k with bad := addMark (t.2 / 8) k.bad })
    else s.updCore c (fun k => { k with tbad := addMark (e.addr.toNat % 65536 / 8) k.tbad })
  | none, none => s

/-- The VD that owns the data (R343). -/
def State.errorOwner (s : State) (e : ErrorReport) : Option Nat :=
  match s.errorPlace e, errorCore e with
  | some p, _ => s.rowOwner e.vd p.rank p.row
  | none, some c => some (s.core (localTarget c e.addr).1).vd
  | none, none => none

/-- A load of the context that still waits for these bytes gets no value: MCHK comes with its destination (R342). Else the context takes
MCHK at its next instruction boundary. -/
def pendMchk (c x : Nat) (p : Option Place) (record : W64) (s : State) : State :=
  match (s.ctx c x).loads.find? (fun l => p.any (fun p => l.target.places.contains p)) with
  | some l => asContext c x (failLoad l record) s
  | none => s.updCtx c x (fun m => { m with mchk := m.mchk.or (some record) })

/-- The command in progress of a context ends FAULT (R162). -/
def faultCommand (x : Nat) : List EngCmd → List EngCmd
  | [] => []
  | e :: r => if e.started && e.ctx == x && !e.written then { e with status := e.status ||| stFault } :: r else e :: faultCommand x r

/-- UNCORRECTABLE_ERROR: the record is written and identity 2 raised, then the reader takes the effect of R342. -/
def execUncorrectableError (e : ErrorReport) : State → Out := fun s =>
  let who : Nat × Nat := match e.reader with
    | .context c x | .engine c x => (c, x)
    | _ => (0xFFFFFFFF, 0xFF)
  let r := (markBad e s).recordFor (s.errorOwner e) e.addr e.pc e.source.toNat e.kind.toNat e.syndrome.toNat who.1 who.2
  match e.reader with
  | .context c x => .next (if c < 4224 ∧ x < 11 then pendMchk c x (s.errorPlace e) r.2 r.1 else r.1)
  | .engine c x =>
    .next (if c < 4224 ∧ x < 11 then
      pendMchk c x none r.2 (r.1.updCore c (fun k =>
        if k.copies.any (fun q => q.started && q.ctx == x && !q.written) then { k with copies := faultCommand x k.copies }
        else { k with mx := faultCommand x k.mx }))
    else r.1)
  | .rank k => .next (if k < 8192 then loseRank k r.1 else r.1)
  | .none => .next r.1

/-! ### The scrubber (R344) -/

/-- The logical row that a physical row holds (R248); mortar, save and spare rows and those of a spare bank hold none. -/
def State.logicalRow (s : State) (rank phys : Nat) : Option Nat :=
  let k := s.rank rank
  match k.remap.find? (fun e => e.2 == phys) with
  | some e => some e.1
  | none => if (lookup phys k.remap).isSome ∨ (if k.enabled then 46080 else 49152) ≤ phys ∨ 8192 ≤ rank then none else some phys

/-- A record of the scrubber or of a row copy about a column word, by its physical row (R342, R343). -/
def scrubRecord (w : Nat) (s : State) : State :=
  let rank := w / 32 / 65536
  let synd := (Config.syndrome s.errSeq).toNat
  match s.logicalRow rank (w / 32 % 65536) with
  | some r =>
    let o := s.rowOwner 0 rank r
    (s.recordFor o (s.addrOf (o.getD 0) ⟨rank, r, w % 32 * 32⟩) 0 6 6 synd 0xFFFFFFFF 0xFF).1
  | none => { (s.recordFor none (Config.freeAddr s.nextId) 0 6 6 synd 0xFFFFFFFF 0xFF).1 with nextId := s.nextId + 1 }

/-- The marked column words of a physical row. -/
def State.badIn (s : State) (rank phys : Nat) : List Nat := s.badWords.filter (fun w => w / 32 == rank * 65536 + phys)

/-- PATROL_SCRUB (R344) of a physical row; the spare bank of channel ch is bank 8,192 + ch. A corrected word is what it was; each
uncorrectable one leaves a record only, and `found` says that a word that was sound fails, which one the manual leaves open (log 5). The
scrubber waits for a window while a rank holds the bank, and skips the footprint of an open course. -/
def execPatrolScrub (rank row : Nat) (found : Bool) : State → Out := fun s =>
  let at_ : Place := ⟨rank, (s.logicalRow rank row).getD 0, 0⟩
  if 8448 ≤ rank ∨ 50176 ≤ row ∨ ((s.logicalRow rank row).any (s.inFootprint rank)) = true then .next s
  else if (s.rank rank).holdsBank ∧ (s.rank rank).state ≠ .suspended then .next (s.askWindow 0 [at_])
  else
    let w := (rank * 65536 + row) * 32 + Config.victim s.nextId % 32
    let s1 := if found = true ∧ s.badIn rank row = [] then { s with badWords := s.badWords ++ [w], nextId := s.nextId + 1 } else s
    .next ((s1.badIn rank row).foldl (fun s w => scrubRecord w s) s1)

/-! ### Spares (R345, R346) -/

/-- The copy of the almanac the device applies: the valid one with the higher version (R347). -/
def Security.selected (x : Security) : Option Almanac :=
  match x.almanac.1.verifies, x.almanac.2.verifies with
  | true, true => some (if x.almanac.1.version < x.almanac.2.version then x.almanac.2 else x.almanac.1)
  | true, false => some x.almanac.1
  | false, true => some x.almanac.2
  | false, false => none

/-- Every substitution so far, those the almanac does not hold yet last. -/
def State.substituted (s : State) : List SpareUnit := ((s.sec.selected.map (·.units)).getD []) ++ s.sec.pendingUnits

/-- Units before this one that took a spare from the same place, and how many spares the place has. -/
def samePlace : SpareUnit → SpareUnit → Bool
  | .core a, .core b => a / 64 == b / 64
  | .mu a, .mu b => a / 8 == b / 8
  | .bank a, .bank b => channelOf a == channelOf b
  | .row a _, .row b _ => a == b
  | .lane a, .lane b => a == b
  | _, _ => false

def sparesOf : SpareUnit → Nat
  | .core _ => 4
  | .mu _ => 1
  | .bank _ => 1
  | .row _ _ => 1024
  | .lane _ => 1

/-- No spare remains. -/
def exhausted (u : SpareUnit) (before : List SpareUnit) : Bool := decide (sparesOf u ≤ (before.filter (samePlace u)).length)

/-- What a substitution changes: nothing a program sees, or the unit is out of service (R345, R346). DESIGN CHOICE (log 83): every column
word of a row that is out of service fails for good. -/
def applyUnit (u : SpareUnit) (before : List SpareUnit) (s : State) : State :=
  match u with
  | .core c => if exhausted u before then s.updCore c (fun k => { k with mode := .retired }) else s
  | .mu g =>
    if exhausted u before then
      (List.range 8).foldl (fun s i => s.updCore (8 * g + i) (fun k => { k with feat := k.feat &&& 0xFE })) s
    else s
  | .bank r => if exhausted u before then loseRank r s else s.updRank r (fun k => { k with spare := true, lost := false })
  | .row r w =>
    if exhausted u before then { s with
      deadRows := addMark (r * 65536 + w) s.deadRows
      badWords := (List.range 32).foldl (fun l i => addMark ((r * 65536 + w) * 32 + i) l) s.badWords }
    else s
  | .lane p => { s with link := { s.link with downLanes := put p ((lookup p s.link.downLanes).getD 0 + 1) s.link.downLanes } }

/-- The bank's rank is idle, or at a row boundary or in a wait, with no course open (R346). -/
def State.mayMigrate (s : State) (r : Nat) : Bool :=
  !s.courseOpenAt r && ((s.rank r).rests || (s.rank r).state == .suspended)

/-- The unit may be replaced now (R345): a core that runs no node or is pre-empted, an MU with empty queues, a bank at a moment when it may
migrate. -/
def mayReplace (u : SpareUnit) (s : State) : Bool :=
  match u with
  | .core c => (s.core c).node.isNone || (s.core c).mode != .running
  | .mu g => (List.range 8).all (fun i => (s.core (8 * g + i)).mx.isEmpty)
  | .bank r => s.mayMigrate r
  | _ => true

/-- A unit is replaced, and the almanac is to be written. -/
def putUnit (u : SpareUnit) (s : State) : State :=
  let s1 := applyUnit u s.substituted s
  { s1 with sec := { s1.sec with pendingUnits := s1.sec.pendingUnits ++ [u] } }

/-- A spare is brought in for a unit, or none is left: a bank migrates to its spare, a row is copied to it, which leaves a record for each
word that fails (R342), and the others change places at once. -/
def replaceUnit (u : SpareUnit) (s : State) : State :=
  if !mayReplace u s then s
  else match u with
    | .bank r => if exhausted u s.substituted then putUnit u s
        else s.updRank r (fun k => { k with migrates := k.migrates.or (some 0) })
    | .row r w => putUnit u ((s.badIn r w).foldl (fun s x => scrubRecord x s) s)
    | _ => putUnit u s

/-- The numbers of a unit exist (R10). -/
def unitExists : SpareUnit → Bool
  | .core c => decide (c < 4096)
  | .mu g => decide (g < 512)
  | .bank r => decide (r < 8192)
  | .row r w => decide (r < 8192) && decide (w < 49152)
  | .lane p => decide (p < 16)

/-- SPARE_SUBSTITUTION (R345): the aging monitor of a unit has crossed its limit. -/
def execSpareSubstitution (u : SpareUnit) : State → Out := fun s => .next (if unitExists u then replaceUnit u s else s)

/-- A store of data of the unit corrects an error: it is counted, and changes nothing else (R341); more than 64 in 24 h bring in a spare
(R345). -/
def correctedError (u : SpareUnit) (s : State) : State :=
  if !unitExists u then s
  else
    let s1 : State := { s with corrected := s.corrected ++ [(u, s.ring)] }
    let recent := s1.corrected.filter (fun e => e.1 == u && decide (s.ring < e.2 + 86400000000000))
    if decide (64 < recent.length) && !s.substituted.contains u then replaceUnit u s1 else s1

/-- A clean line of the L1 data cache of a core fails its check: it is dropped and fetched again, and counts as corrected (R341). -/
def failedLine (c line : Nat) (s : State) : State :=
  if (s.core c).l1.any (fun l => l.line == line && l.upd.isNone) then
    correctedError (.core c) (s.updCore c (fun k => { k with l1 := k.l1.filter (fun l => !(l.line == line && l.upd.isNone)) }))
  else s

/-- BANK_MIGRATION (R346): the migration begins, then each event copies a row into the spare bank, in order; with the last the bank number
is switched. Until then reads are served from the old bank and writes go to both, so that a copied row stays what it is; the rank does not run
and no course opens. -/
def execBankMigration (rank : Nat) : State → Out := fun s =>
  if 8192 ≤ rank then .next s
  else match (s.rank rank).migrates with
    | none => .next (replaceUnit (.bank rank) s)
    | some row =>
      let s1 := (s.badIn rank row).foldl (fun s w => scrubRecord w s) s
      if row + 1 < 49152 then .next (s1.updRank rank (fun k => { k with migrates := some (row + 1) }))
      else .next (putUnit (.bank rank) (s1.updRank rank (fun k => { k with migrates := none })))

/-! ### The almanac (R347) -/

/-- The older copy is written with a version one higher than the newer one's. -/
def writeAlmanac (units : List SpareUnit) (svn : List (Nat × Nat)) (x : Security) : Security :=
  let v := max x.almanac.1.version x.almanac.2.version + 1
  let a := Almanac.signed v units svn
  { x with almanac :=
      if !x.almanac.1.verifies || (x.almanac.2.verifies && decide (x.almanac.1.version < x.almanac.2.version)) then (a, x.almanac.2)
      else (x.almanac.1, a) }

def Security.svns (x : Security) : List (Nat × Nat) := (x.selected.map (·.svn)).getD []

/-- ALMANAC_WRITE (R347): the substitutions made since the last write are in flash. -/
def execAlmanacWrite : State → Out := fun s =>
  if s.sec.pendingUnits = [] then .next s
  else .next { s with sec := { writeAlmanac s.substituted s.sec.svns s.sec with pendingUnits := [] } }

end Sys2Proof.Machine
end

