-- ==== Sys2Proof/Machine/Boot.lean ====
section
/-! DEFINITION. Power, boot, firmware images, recovery (R347 to R352, R358), and the SPDM responder (R353). -/

namespace Sys2Proof.Machine

/-! ### Firmware images (R350) -/

/-- Bytes 0x000 to 0x03F, which both signatures cover. -/
def signedBytes (i : FlashImage) : List Byte :=
  bytesOf 4 i.magic.toNat ++ bytesOf 2 i.type.toNat ++ bytesOf 2 i.zero.toNat ++ bytesOf 4 i.svn.toNat ++
    bytesOf 4 i.length.toNat ++ digestBytes i.digest

/-- The header is well formed for an image of type t. -/
def imageFormed (t : Nat) (i : FlashImage) : Bool :=
  i.magic == 0x594B4D31 && i.type.toNat == t && i.zero == 0 && decide (i.length.toNat ≤ 2 ^ 24) &&
    i.body.length == i.length.toNat && i.lms.length == 2672 && (i.lms.drop 2668).all (· == 0)

/-- The least security version the almanac records for a type. -/
def leastSvn (t : Nat) (x : Security) : Nat := (lookup t x.svns).getD 0

/-- R350: the image is accepted. -/
def imageGood (t : Nat) (x : Security) (i : FlashImage) : Bool :=
  imageFormed t i && Config.sha384 i.body == i.digest && Config.ecdsaGood (signedBytes i) i.ecdsa &&
    Config.lmsGood (signedBytes i) (i.lms.take 2668) && decide (leastSvn t x ≤ i.svn.toNat)

/-- Flash holds two slots for each of the types 1 to 5: slots 2t − 2 and 2t − 1. -/
def imageFor (t : Nat) (x : Security) : Option FlashImage :=
  ([2 * t - 2, 2 * t - 1].filterMap (fun k => lookup k x.flash)).find? (imageGood t x)

/-- An image of type t is verified and measured; a higher SVN is raised in the almanac. -/
def loadImageOf (t : Nat) (s : State) : Option State :=
  match imageFor t s.sec with
  | none => none
  | some i =>
    let s1 := s.measure (Fin.ofNat 8 t) (digestBytes i.digest)
    some (if leastSvn t s.sec < i.svn.toNat then
      { s1 with sec := writeAlmanac ((s1.sec.selected.map (·.units)).getD []) (put t i.svn.toNat s1.sec.svns) s1.sec }
    else s1)

/-! ### The boot steps (R349) -/

/-- Everything volatile as power-on leaves it; flash, with the almanac and the sealed state of the LMS key, stays (R347, R352). -/
def coldState (phase : BootPhase) (s : State) : State :=
  { State.reset with
    vds := [], boot := phase, pkg := s.pkg, agenda := s.agenda, nextId := s.nextId + 1
    sec := { Security.reset with flash := s.sec.flash, almanac := s.sec.almanac, lmsUsed := s.sec.lmsUsed } }

/-- The almanac's units are applied in order (step 5). -/
def applyAll : List SpareUnit → List SpareUnit → State → State
  | _, [], s => s
  | before, u :: r, s => applyAll (before ++ [u]) r (applyUnit u before s)

/-- Step n of R349; none where it fails. -/
def bootStep (n : Nat) (s : State) : Option State :=
  match n with
  | 1 => some (s.measure 0 (digestBytes Config.maskRomDigest))
  | 2 => s.sec.selected.map (fun a => s.measure 6 (digestBytes (Config.almanacDigest (Almanac.contents a.version a.units a.svn))))
  | 3 => loadImageOf 1 s
  | 4 => [2, 3, 4, 5].foldl (fun o t => o.bind (loadImageOf t)) (some s)
  | 5 => some { applyAll [] ((s.sec.selected.map (·.units)).getD []) s with ring := 0 }
  | 7 => some { s with vds := [(0, { Vd.reset with state := .running })], boot := .ready }
  | _ => some s

/-- The next step of the boot sequence: `booting k` has completed k steps. -/
def bootNext (s : State) : State :=
  match s.boot with
  | .booting k =>
    match bootStep (k + 1) s with
    | none => { s with boot := .recovery k }
    | some t => if k + 1 < 7 then { t with boot := .booting (k + 1) } else t
  | _ => s

/-- POWER_GOOD (R349): the sequence starts, and its first step runs. The other steps run as time passes. -/
def execPowerGood : State → Out := fun s =>
  match s.boot with
  | .off => .next (bootNext (coldState (.booting 0) s))
  | _ => .next s

/-- POWER_LOSS (R347). -/
def execPowerLoss : State → Out := fun s => .next (coldState .off s)

/-- THERMAL_TRIP (R358): no issue any more. -/
def execThermalTrip : State → Out := fun s =>
  match s.boot with
  | .ready => .next { s with boot := .recovery 7 }
  | .booting k => .next { s with boot := .recovery k }
  | _ => .next s

/-- FLASH_UPDATE_COMMAND (R349, R350): an image is stored in a slot; it is verified when it is loaded. -/
def execFlashUpdateCommand (slot : Nat) (img : FlashImage) : State → Out := fun s =>
  match s.boot with
  | .off => .next s
  | _ => if slot < 10 then .next { s with sec := { s.sec with flash := put slot img s.sec.flash } } else .next s

/-- CONFIGURATION_REQUEST (R349). -/
def execConfigurationRequest (fn reg : Nat) : State → Out := fun s =>
  match s.boot with
  | .booting _ => .next { s with output := s.output ++ [.retry] }
  | .ready => .next { s with output := s.output ++ [.data (Config.configSpace fn reg)] }
  | _ => .next s

/-! ### SPDM (R353) -/

def Security.path (x : Security) : SpdmPath → Spdm
  | .i3c => x.spdm.1
  | .doe => x.spdm.2

def Security.setPath (p : SpdmPath) (c : Spdm) (x : Security) : Security :=
  match p with
  | .i3c => { x with spdm := (c, x.spdm.2) }
  | .doe => { x with spdm := (x.spdm.1, c) }

/-- Message codes and error codes of SPDM 1.3 (log 18). -/
def spdmHeader (code p1 p2 : Nat) : List Byte := bytesOf 1 0x13 ++ bytesOf 1 code ++ bytesOf 1 p1 ++ bytesOf 1 p2
def spdmError (e : Nat) : List Byte := spdmHeader 0x7F e 0
def notReady : Nat := 0x42
def unexpected : Nat := 0x04
def invalidRequest : Nat := 0x01

/-- A message as it leaves: in an established session it is encrypted under AES-256-GCM, and its tag follows (R353). -/
def Spdm.seal (c : Spdm) (msg : List Byte) : List Byte :=
  match c.session with
  | some k => if c.established then
      msg.zipIdx.map (fun b => b.1 ^^^ Config.sessionStream k c.count b.2) ++ bytesOf 16 (Config.sessionTag k c.count msg).toNat
    else msg
  | none => msg

/-- A message leaves. -/
def putOut (p : SpdmPath) (msg : List Byte) (s : State) : State :=
  let c := s.sec.path p
  { s with sec := { s.sec.setPath p { c with count := if c.established then c.count + 1 else c.count } with
    out := s.sec.out ++ [(p, c.seal msg)] } }

/-- A message leaves, and joins the transcript with its request. -/
def sendSpdm (p : SpdmPath) (req msg : List Byte) (f : Spdm → Spdm) (s : State) : State :=
  let s1 := putOut p msg s
  let c := f (s1.sec.path p)
  { s1 with sec := s1.sec.setPath p { c with transcript := c.transcript ++ req ++ msg } }

def sendError (p : SpdmPath) (e : Nat) (s : State) : State := putOut p (spdmError e) s

/-- Whether a path is answered: before step 3 has completed with ResponseNotReady; in recovery on the management interface only (R349). -/
def spdmOp (p : SpdmPath) (f : Spdm → State → State) : State → Out := fun s =>
  match s.boot with
  | .off => .next s
  | .booting k => if k < 3 then .next (sendError p notReady s) else .next (f (s.sec.path p) s)
  | .recovery k => if p ≠ .i3c then .next s else if k < 3 then .next (sendError p notReady s) else .next (f (s.sec.path p) s)
  | .ready => .next (f (s.sec.path p) s)

/-- The connection has negotiated (the requests of SPDM follow an order). -/
def Spdm.ready (c : Spdm) : Bool := c.versionSent && c.capsSent && c.algsSent

def execGetVersion (iface : SpdmPath) : State → Out :=
  spdmOp iface (fun _ => sendSpdm iface (spdmHeader 0x84 0 0)
    (spdmHeader 0x04 0 0 ++ bytesOf 1 0 ++ bytesOf 1 1 ++ bytesOf 2 0x1300)
    (fun _ => { Spdm.reset with versionSent := true }))

def execGetCapabilities (iface : SpdmPath) : State → Out :=
  spdmOp iface (fun c =>
    if c.versionSent then sendSpdm iface (spdmHeader 0xE1 0 0) (spdmHeader 0x61 0 0 ++ Config.spdmParams 0)
      (fun c => { c with capsSent := true })
    else sendError iface unexpected)

/-- The body of ALGORITHMS for what R353 lists: ECDSA P-384, SHA-384, secp384r1 and AES-256-GCM, as DSP0274 codes them (log 18). -/
def algorithmsBody : List Byte :=
  bytesOf 2 52 ++ bytesOf 1 1 ++ bytesOf 1 2 ++ bytesOf 4 4 ++ bytesOf 4 0x80 ++ bytesOf 4 2 ++ bytesOf 12 0 ++ bytesOf 4 0 ++
    [(2, 0x10), (3, 2), (4, 0), (5, 1)].flatMap (fun (a : Nat × Nat) => bytesOf 1 a.1 ++ bytesOf 1 0x20 ++ bytesOf 2 a.2)

def execNegotiateAlgorithms (iface : SpdmPath) : State → Out :=
  spdmOp iface (fun c =>
    if c.versionSent && c.capsSent then sendSpdm iface (spdmHeader 0xE3 0 0) (spdmHeader 0x63 4 0 ++ algorithmsBody)
      (fun c => { c with algsSent := true })
    else sendError iface unexpected)

/-- The certificate chain of the responder: over the alias key of its M1, which the identity key signs (R352). -/
def State.certBytes (s : State) : List Byte :=
  let pub := Config.aliasKey s.sec.m[1]
  (List.range Config.certLen).map (Config.certChain pub (Config.identityCertifies pub))

def execGetDigests (iface : SpdmPath) : State → Out :=
  spdmOp iface (fun c s =>
    if c.ready then sendSpdm iface (spdmHeader 0x81 0 0) (spdmHeader 0x01 0 1 ++ digestBytes (Config.sha384 s.certBytes)) id s
    else sendError iface unexpected s)

def execGetCertificate (iface : SpdmPath) (off len : BitVec 16) : State → Out :=
  spdmOp iface (fun c s =>
    if !c.ready then sendError iface unexpected s
    else
      let part := (s.certBytes.drop off.toNat).take len.toNat
      sendSpdm iface (spdmHeader 0x82 0 0 ++ bytesOf 2 off.toNat ++ bytesOf 2 len.toNat)
        (spdmHeader 0x02 0 0 ++ bytesOf 2 part.length ++ bytesOf 2 (Config.certLen - off.toNat - part.length) ++ part) id s)

/-- A signature of the alias key, which M1 determines, r then s (R352, R353). -/
def State.aliasSignature (s : State) (t : List Byte) : List Byte := (bytesOf 96 (Config.aliasSign s.sec.m[1] t).toNat).reverse

/-- Opaque data with one element, and its length before it (log 18). -/
def opaqueData (x : List Byte) : List Byte :=
  let e := bytesOf 4 1 ++ bytesOf 2 0 ++ bytesOf 2 x.length ++ x ++ List.replicate ((4 - x.length % 4) % 4) 0
  bytesOf 2 e.length ++ e

def execChallenge (iface : SpdmPath) (nonce : BitVec 256) : State → Out :=
  spdmOp iface (fun c s =>
    if !c.ready then sendError iface unexpected s
    else
      let req := spdmHeader 0x83 0 0 ++ bytesOf 32 nonce.toNat
      let msg := spdmHeader 0x03 0 1 ++ digestBytes (Config.sha384 s.certBytes)
      sendSpdm iface req (msg ++ s.aliasSignature (c.transcript ++ req ++ msg)) id s)

/-- One measurement block: index, then the register. -/
def measurementBlock (s : State) (i : Nat) : List Byte := bytesOf 1 i ++ digestBytes s.sec.m[Fin.ofNat 8 (i + 7)]

/-- GET_MEASUREMENTS: M0 to M7 are indices 1 to 8; 0xFF asks for all, 0 for their number. The opaque data carries the signature of the LMS
key, whose private state goes on with it (R352), over the transcript hash that the alias key signs too. -/
def execGetMeasurements (iface : SpdmPath) (index : BitVec 8) (nonce : BitVec 256) : State → Out :=
  spdmOp iface (fun c s =>
    if !c.ready then sendError iface unexpected s
    else if 8 < index.toNat ∧ index ≠ 0xFF then sendError iface invalidRequest s
    else
      let ix := if index = 0xFF then [1, 2, 3, 4, 5, 6, 7, 8] else if index = 0 then [] else [index.toNat]
      let req := spdmHeader 0xE0 1 index.toNat ++ bytesOf 32 nonce.toNat
      let msg := spdmHeader 0x60 (if index = 0 then 8 else 0) 0 ++ bytesOf 1 ix.length ++ ix.flatMap (measurementBlock s)
      let t := c.transcript ++ req ++ msg
      let hash := digestBytes (Config.sha384 t)
      sendSpdm iface req (msg ++ opaqueData (Config.lmsSign s.sec.lmsUsed hash) ++ s.aliasSignature t) id
        { s with sec := { s.sec with lmsUsed := s.sec.lmsUsed + 1 } })

def execKeyExchange (iface : SpdmPath) (share : BitVec 768) : State → Out :=
  spdmOp iface (fun c s =>
    if !c.ready then sendError iface unexpected s
    else
      let own := Config.keyShare s.nextId
      let req := spdmHeader 0xE4 0 0 ++ bytesOf 96 share.toNat
      let msg := spdmHeader 0x64 0 0 ++ bytesOf 96 own.toNat
      { sendSpdm iface req (msg ++ s.aliasSignature (c.transcript ++ req ++ msg))
          (fun c => { c with session := some (Config.sessionKey s.nextId share), established := false, count := 0 }) s with
        nextId := s.nextId + 1 })

def execFinish (iface : SpdmPath) (mac : BitVec 384) : State → Out :=
  spdmOp iface (fun c =>
    match c.session with
    | none => sendError iface unexpected
    | some k =>
      if c.established then sendError iface unexpected
      else if Config.finishGood k mac then sendSpdm iface (spdmHeader 0xE5 0 0 ++ digestBytes mac) (spdmHeader 0x65 0 0)
        (fun c => { c with established := true })
      else fun s => sendError iface invalidRequest { s with sec := s.sec.setPath iface { c with session := none } })

def execEndSession (iface : SpdmPath) : State → Out :=
  spdmOp iface (fun c =>
    if c.established then sendSpdm iface (spdmHeader 0xEC 0 0) (spdmHeader 0x6C 0 0)
      (fun c => { c with session := none, established := false, count := 0 })
    else sendError iface unexpected)

/-- What a package that is not ready may do (R349): its management interface, and the endpoint's retry answers. -/
def bootAllows (b : BootPhase) (i : Instr) : Bool :=
  match b with
  | .ready => true
  | _ => match i with
    | .powerGood | .powerLoss | .thermalTrip | .flashUpdateCommand _ _ | .configurationRequest _ _ | .getVersion _
    | .getCapabilities _ | .negotiateAlgorithms _ | .getDigests _ | .getCertificate _ _ _ | .challenge _ _
    | .getMeasurements _ _ _ | .keyExchange _ _ | .finish _ _ | .endSession _ => true
    | _ => false

end Sys2Proof.Machine
end

