-- ==== Sys2Proof/Machine/Debug.lean ====
section
/-! DEFINITION. The commands of the debug port (R356, R357) and the halted state of a context (R38). -/

namespace Sys2Proof.Machine

/-- The core that DSEL names belongs to a created VD, and the context exists (R356). -/
def debugSelected (s : State) : Bool :=
  s.vds.any (fun e => decide (e.2.state ≠ .absent) && decide (e.2.desc.ibase ≤ s.dport.core) &&
    decide (s.dport.core < e.2.desc.ibase + e.2.desc.ilen)) && (decide (s.dport.ctx ≤ 10) || s.dport.ctx == 15)

/-- The contexts that DSEL names. -/
def debugContexts (s : State) : List Nat := if s.dport.ctx = 15 then List.range 11 else [s.dport.ctx]

/-- The command that DCMD has taken is performed, on the registers as they stood then; DSTAT.CODE then tells how it ended. Where no such
command is in progress the event changes nothing (log 17). -/
def debugOp (cmd : Nat) (f : State → State × Nat) (s : State) : Out :=
  match s.dport.cmd with
  | none => .next s
  | some d =>
    if s.dport.code ≠ 1 ∨ d.op.toNat ≠ cmd then .next s
    else
      let t := { s with dport := { s.dport with dsel := d.sel, daddr := d.addr, ddata := d.data } }
      let r := if debugSelected t then f t else (t, refused)
      .next { r.1 with dport := { s.dport with
        ddata := if cmd = 6 ∧ r.2 = 0 then r.1.dport.ddata else s.dport.ddata, cmd := none, code := BitVec.ofNat 8 r.2 } }

/-- A change of every context that DSEL names. -/
def debugEach (f : Context → Context) (s : State) : State × Nat :=
  ((debugContexts s).foldl (fun s x => s.updCtx s.dport.core x f) s, 0)

/-- A context lets its instructions issue again (R357). -/
def Context.goOn (c : Context) : Context := { c with dhalt := false, dstep := false, reason := 0 }

/-- A context halts at an instruction boundary (R38, R104, R132): a lazy instruction keeps the words it has drawn, a wait has not
issued, and fixed-latency results have been written. -/
def haltContext (c x : Nat) (s : State) : State :=
  (((stopLazy c x s).withdrawAll c x).finishFixed c x).updCtx c x (fun m => { m with dhalt := true, dstep := false, reason := 1 })

def execAttach : State → Out := debugOp 1 (debugEach (fun c => { c with attached := true }))
def execDetach : State → Out :=
  debugOp 2 (debugEach (fun c => { (if c.dhalt then c.goOn else { c with dstep := false }) with attached := false }))
def execDebugHalt : State → Out :=
  debugOp 3 (fun s => ((debugContexts s).foldl (fun s x => haltContext s.dport.core x s) s, 0))
def execDebugResume : State → Out := debugOp 4 (debugEach (fun c => if c.dhalt then c.goOn else c))

/-- STEP names one context, and that context is halted. -/
def execDebugStep : State → Out :=
  debugOp 5 (fun s =>
    if s.dport.ctx = 15 then (s, refused)
    else if !(s.ctx s.dport.core s.dport.ctx).dhalt then (s, wrongState)
    else debugEach (fun c => { c with dhalt := false, dstep := true }) s)

/-! ### READ and WRITE -/

/-- The context record that an image offset lies in. -/
def ctxOfOffset (off : Nat) : Option Nat := if 0x1000 ≤ off ∧ off < 0xC000 then some ((off - 0x1000) / 0x1000) else none

/-- The 8 bytes of the core image at an offset, as they stand now (R298). -/
def imageWord (s : State) (c off : Nat) : W64 :=
  let k := s.core c
  if off < 0x1000 then w64 (coreHeader k k.origin) off
  else match ctxOfOffset off with
    | some x => w64 (contextRecord s.pkg k.clock (k.ctx x)) (off % 0x1000)
    | none =>
      if off < 0x24000 then BitVec.ofNat 64 (ofBytes (Memory.readN k.spm (off - 0xC000) 8))
      else if off < 0x24600 then w64 (fullBytes k) (off - 0x24000)
      else if off < 0x25000 then 0
      else BitVec.ofNat 64 (ofBytes (Memory.readN k.tile (off - 0x25000) 8))

/-- DADDR names 8 bytes of the image. -/
def debugAddrOk (s : State) : Bool := s.dport.daddr.toNat % 8 == 0 && decide (s.dport.daddr.toNat < 0x35000)

/-- The context of a record is not halted. -/
def debugBusy (s : State) : Bool :=
  (ctxOfOffset s.dport.daddr.toNat).any (fun x => !(s.ctx s.dport.core x).dhalt)

def execDebugRead : State → Out :=
  debugOp 6 (fun s =>
    if !debugAddrOk s then (s, refused)
    else if debugBusy s then (s, wrongState)
    else ({ s with dport := { s.dport with ddata := imageWord s s.dport.core s.dport.daddr.toNat } }, 0))

/-- The zero regions of a context record (R37, R298). -/
def recordZero (o : Nat) : Bool := (decide (0x360 ≤ o) && decide (o < 0x600)) || decide (0xD78 ≤ o)

/-- A repetition whose words are the ones already fetched keeps them (R37). -/
def keepBody (old : Option Rep) (new : Option Rep) : Option Rep :=
  match old, new with
  | some a, some b => if a.base = b.base ∧ a.len = b.len then some { b with body := a.body } else some b
  | _, n => n

/-- A write into a context record (R38); at another program counter the context is in no wait. -/
def writeRecord (pkg t o : Nat) (v : W64) (c : Context) : Context :=
  let bs := contextRecord pkg t c
  let new := loadContextRecord t (bs.take o ++ bytesOf 8 v.toNat ++ bs.drop (o + 8)) c
  let new := { new with rep := keepBody c.rep new.rep, shadow := keepBody c.shadow new.shadow }
  if new.pc = c.pc then new else { new.unissued with pc := new.pc }

/-- A write into the full/empty bits of a core; a word that becomes full serves its waiters (R144). -/
def writeFull (c off : Nat) (v : W64) (s : State) : State :=
  (List.range 64).foldl (fun s i =>
    if v.getLsbD i then (if isFull s c (off * 8 + i) then s else fill c (off * 8 + i) s) else setFull c (off * 8 + i) false s) s

def execDebugWrite : State → Out :=
  debugOp 7 (fun s =>
    let off := s.dport.daddr.toNat
    let c := s.dport.core
    let v := s.dport.ddata
    if !debugAddrOk s then (s, refused)
    else match ctxOfOffset off with
      | some x =>
        if debugBusy s then (s, wrongState)
        else if recordZero (off % 0x1000) then (s, refused)
        else ((if (s.ctx c x).pc = (writeRecord s.pkg (s.core c).clock (off % 0x1000) v (s.ctx c x)).pc then s else s.withdrawAll c x).updCtx
          c x (writeRecord s.pkg (s.core c).clock (off % 0x1000) v), 0)
      | none =>
        if off < 0x1000 ∨ (0x24600 ≤ off ∧ off < 0x25000) then (s, refused)
        else if off < 0x24000 then (s.spmWrite c (off - 0xC000) (bytesOf 8 v.toNat), 0)
        else if off < 0x24600 then (writeFull c (off - 0x24000) v s, 0)
        else (s.updCore c (fun k => { k with tile := Memory.writeN k.tile (off - 0x25000) (bytesOf 8 v.toNat) }), 0))

end Sys2Proof.Machine
end

