-- ==== Sys2Proof/Machine/Int.lean ====
section
/-! DEFINITION. Integer instructions, immediates, bit fields and constants (R75 to R81). -/

namespace Sys2Proof.Machine

/-- INT with two sources (R75, R76): part k of the result from part k of each source. -/
def int2 (i : Instr) (st : BitVec 3) (w : BitVec 2) (d a b : BitVec 5) (lat : Option Nat) (f : W64 → W64 → W64) :
    State → Out :=
  compute i st.toNat [.int a (parts w), .int b (parts w)] (.int d (parts w)) lat
    (fun _ vs => List.zipWith f (arg vs 0) (arg vs 1))

/-- INT with one source. -/
def int1 (i : Instr) (st : BitVec 3) (w : BitVec 2) (d a : BitVec 5) (f : W64 → W64) : State → Out :=
  compute i st.toNat [.int a (parts w)] (.int d (parts w)) (some 1) (fun _ vs => (arg vs 0).map f)

/-! Part functions of R76 and R77. -/

def shAmt (b : W64) : Nat := b.toNat % 64

def mulh (a b : W64) : W64 := BitVec.ofInt 64 (a.toInt * b.toInt / 2 ^ 64)
def mulhu (a b : W64) : W64 := BitVec.ofNat 64 (a.toNat * b.toNat / 2 ^ 64)
def divS (a b : W64) : W64 := if b = 0 then BitVec.allOnes 64 else BitVec.ofInt 64 (a.toInt.tdiv b.toInt)
def divU (a b : W64) : W64 := if b = 0 then BitVec.allOnes 64 else BitVec.ofNat 64 (a.toNat / b.toNat)
def remS (a b : W64) : W64 := if b = 0 then a else BitVec.ofInt 64 (a.toInt.tmod b.toInt)
def remU (a b : W64) : W64 := if b = 0 then a else BitVec.ofNat 64 (a.toNat % b.toNat)
def popc (a : W64) : W64 := BitVec.ofNat 64 (((List.range 64).filter (fun i => a.getLsbD i)).length)
def clz (a : W64) : W64 := BitVec.ofNat 64 (((List.range 64).takeWhile (fun i => !a.getLsbD (63 - i))).length)
def ctz (a : W64) : W64 := BitVec.ofNat 64 (((List.range 64).takeWhile (fun i => !a.getLsbD i)).length)
def bswap (a : W64) : W64 := BitVec.ofNat 64 (ofBytes (bytesOf 8 a.toNat).reverse)

def execAdd (st : BitVec 3) (w : BitVec 2) (d a b : BitVec 5) : State → Out :=
  int2 (.add st w d a b) st w d a b (some 1) (· + ·)
def execSub (st : BitVec 3) (w : BitVec 2) (d a b : BitVec 5) : State → Out :=
  int2 (.sub st w d a b) st w d a b (some 1) (· - ·)
def execAnd (st : BitVec 3) (w : BitVec 2) (d a b : BitVec 5) : State → Out :=
  int2 (.and st w d a b) st w d a b (some 1) (· &&& ·)
def execOr (st : BitVec 3) (w : BitVec 2) (d a b : BitVec 5) : State → Out :=
  int2 (.or st w d a b) st w d a b (some 1) (· ||| ·)
def execXor (st : BitVec 3) (w : BitVec 2) (d a b : BitVec 5) : State → Out :=
  int2 (.xor st w d a b) st w d a b (some 1) (· ^^^ ·)
def execAndn (st : BitVec 3) (w : BitVec 2) (d a b : BitVec 5) : State → Out :=
  int2 (.andn st w d a b) st w d a b (some 1) (fun x y => x &&& ~~~y)
def execOrn (st : BitVec 3) (w : BitVec 2) (d a b : BitVec 5) : State → Out :=
  int2 (.orn st w d a b) st w d a b (some 1) (fun x y => x ||| ~~~y)
def execShl (st : BitVec 3) (w : BitVec 2) (d a b : BitVec 5) : State → Out :=
  int2 (.shl st w d a b) st w d a b (some 1) (fun x y => x <<< shAmt y)
def execShr (st : BitVec 3) (w : BitVec 2) (d a b : BitVec 5) : State → Out :=
  int2 (.shr st w d a b) st w d a b (some 1) (fun x y => x >>> shAmt y)
def execSar (st : BitVec 3) (w : BitVec 2) (d a b : BitVec 5) : State → Out :=
  int2 (.sar st w d a b) st w d a b (some 1) (fun x y => x.sshiftRight (shAmt y))
def execRol (st : BitVec 3) (w : BitVec 2) (d a b : BitVec 5) : State → Out :=
  int2 (.rol st w d a b) st w d a b (some 1) (fun x y => x.rotateLeft (shAmt y))
def execRor (st : BitVec 3) (w : BitVec 2) (d a b : BitVec 5) : State → Out :=
  int2 (.ror st w d a b) st w d a b (some 1) (fun x y => x.rotateRight (shAmt y))
def execMul (st : BitVec 3) (w : BitVec 2) (d a b : BitVec 5) : State → Out :=
  int2 (.mul st w d a b) st w d a b (some 3) (· * ·)
def execMulh (st : BitVec 3) (w : BitVec 2) (d a b : BitVec 5) : State → Out :=
  int2 (.mulh st w d a b) st w d a b (some 3) mulh
def execMulhu (st : BitVec 3) (w : BitVec 2) (d a b : BitVec 5) : State → Out :=
  int2 (.mulhu st w d a b) st w d a b (some 3) mulhu
def execDiv (st : BitVec 3) (w : BitVec 2) (d a b : BitVec 5) : State → Out :=
  int2 (.div st w d a b) st w d a b none divS
def execDivu (st : BitVec 3) (w : BitVec 2) (d a b : BitVec 5) : State → Out :=
  int2 (.divu st w d a b) st w d a b none divU
def execRem (st : BitVec 3) (w : BitVec 2) (d a b : BitVec 5) : State → Out :=
  int2 (.rem st w d a b) st w d a b none remS
def execRemu (st : BitVec 3) (w : BitVec 2) (d a b : BitVec 5) : State → Out :=
  int2 (.remu st w d a b) st w d a b none remU
def execMin (st : BitVec 3) (w : BitVec 2) (d a b : BitVec 5) : State → Out :=
  int2 (.min st w d a b) st w d a b (some 1) (fun x y => if x.slt y then x else y)
def execMax (st : BitVec 3) (w : BitVec 2) (d a b : BitVec 5) : State → Out :=
  int2 (.max st w d a b) st w d a b (some 1) (fun x y => if x.slt y then y else x)
def execMinu (st : BitVec 3) (w : BitVec 2) (d a b : BitVec 5) : State → Out :=
  int2 (.minu st w d a b) st w d a b (some 1) (fun x y => if x.ult y then x else y)
def execMaxu (st : BitVec 3) (w : BitVec 2) (d a b : BitVec 5) : State → Out :=
  int2 (.maxu st w d a b) st w d a b (some 1) (fun x y => if x.ult y then y else x)
def execCeq (st : BitVec 3) (w : BitVec 2) (d a b : BitVec 5) : State → Out :=
  int2 (.ceq st w d a b) st w d a b (some 1) (fun x y => b2w (x == y))
def execCne (st : BitVec 3) (w : BitVec 2) (d a b : BitVec 5) : State → Out :=
  int2 (.cne st w d a b) st w d a b (some 1) (fun x y => b2w (x != y))
def execClt (st : BitVec 3) (w : BitVec 2) (d a b : BitVec 5) : State → Out :=
  int2 (.clt st w d a b) st w d a b (some 1) (fun x y => b2w (x.slt y))
def execCltu (st : BitVec 3) (w : BitVec 2) (d a b : BitVec 5) : State → Out :=
  int2 (.cltu st w d a b) st w d a b (some 1) (fun x y => b2w (x.ult y))
def execCle (st : BitVec 3) (w : BitVec 2) (d a b : BitVec 5) : State → Out :=
  int2 (.cle st w d a b) st w d a b (some 1) (fun x y => b2w (x.sle y))
def execCleu (st : BitVec 3) (w : BitVec 2) (d a b : BitVec 5) : State → Out :=
  int2 (.cleu st w d a b) st w d a b (some 1) (fun x y => b2w (x.ule y))

/-- SEL (R63, R76): the one condition serves every part. -/
def execSel (st : BitVec 3) (w : BitVec 2) (d a b : BitVec 5) : State → Out :=
  compute (.sel st w d a b) st.toNat [.int a (parts w), .int b (parts w), b0] (.int d (parts w)) (some 1)
    (fun _ vs => if arg1 vs 2 ≠ 0 then arg vs 0 else arg vs 1)

def execClz (st : BitVec 3) (w : BitVec 2) (d a : BitVec 5) : State → Out := int1 (.clz st w d a) st w d a clz
def execCtz (st : BitVec 3) (w : BitVec 2) (d a : BitVec 5) : State → Out := int1 (.ctz st w d a) st w d a ctz
def execPopc (st : BitVec 3) (w : BitVec 2) (d a : BitVec 5) : State → Out := int1 (.popc st w d a) st w d a popc
def execBrev (st : BitVec 3) (w : BitVec 2) (d a : BitVec 5) : State → Out := int1 (.brev st w d a) st w d a (·.reverse)
def execBswap (st : BitVec 3) (w : BitVec 2) (d a : BitVec 5) : State → Out := int1 (.bswap st w d a) st w d a bswap

/-- A field of MOV: codes 28–31 name a0–a3 (R61, R78). -/
def movOpnd (c : BitVec 5) (n : Nat) : Opnd := if 28 ≤ c.toNat then .pointer c else .int c n

/-- MOV (R78). -/
def execMov (st : BitVec 3) (w : BitVec 2) (d a : BitVec 5) : State → Out :=
  compute (.mov st w d a) st.toNat [movOpnd a (parts w)] (movOpnd d (parts w)) (some 1) (fun _ vs => arg vs 0)

/-! ### Immediate forms (R66, R79) -/

def imms (x : BitVec 11) : W64 := x.signExtend 64
def immz (x : BitVec 11) : W64 := x.zeroExtend 64

def execAddi (st : BitVec 3) (w : BitVec 2) (d a : BitVec 5) (i : BitVec 11) : State → Out :=
  int1 (.addi st w d a i) st w d a (· + imms i)
def execAndi (st : BitVec 3) (w : BitVec 2) (d a : BitVec 5) (i : BitVec 11) : State → Out :=
  int1 (.andi st w d a i) st w d a (· &&& immz i)
def execOri (st : BitVec 3) (w : BitVec 2) (d a : BitVec 5) (i : BitVec 11) : State → Out :=
  int1 (.ori st w d a i) st w d a (· ||| immz i)
def execXori (st : BitVec 3) (w : BitVec 2) (d a : BitVec 5) (i : BitVec 11) : State → Out :=
  int1 (.xori st w d a i) st w d a (· ^^^ immz i)
def execCeqi (st : BitVec 3) (w : BitVec 2) (d a : BitVec 5) (i : BitVec 11) : State → Out :=
  int1 (.ceqi st w d a i) st w d a (fun x => b2w (x == imms i))
def execClti (st : BitVec 3) (w : BitVec 2) (d a : BitVec 5) (i : BitVec 11) : State → Out :=
  int1 (.clti st w d a i) st w d a (fun x => b2w (x.slt (imms i)))
def execCltui (st : BitVec 3) (w : BitVec 2) (d a : BitVec 5) (i : BitVec 11) : State → Out :=
  int1 (.cltui st w d a i) st w d a (fun x => b2w (x.ult (imms i)))

def execShli (st : BitVec 3) (w : BitVec 2) (d a : BitVec 5) (n : BitVec 6) : State → Out :=
  int1 (.shli st w d a n) st w d a (· <<< n.toNat)
def execShri (st : BitVec 3) (w : BitVec 2) (d a : BitVec 5) (n : BitVec 6) : State → Out :=
  int1 (.shri st w d a n) st w d a (· >>> n.toNat)
def execSari (st : BitVec 3) (w : BitVec 2) (d a : BitVec 5) (n : BitVec 6) : State → Out :=
  int1 (.sari st w d a n) st w d a (fun x => x.sshiftRight n.toNat)
def execRoli (st : BitVec 3) (w : BitVec 2) (d a : BitVec 5) (n : BitVec 6) : State → Out :=
  int1 (.roli st w d a n) st w d a (fun x => x.rotateLeft n.toNat)

/-! ### Bit fields and constants (R80, R81) -/

/-- The mask of `len` low bits. -/
def lowMask (len : Nat) : W64 := BitVec.ofNat 64 (2 ^ len - 1)

/-- The field of BFX: bits p to p + len − 1, zero-extended. -/
def bfx (p len : Nat) (a : W64) : W64 := (a >>> p) &&& lowMask len

/-- The insertion of BFI. -/
def bfi (p len : Nat) (a old : W64) : W64 := (old &&& ~~~(lowMask len <<< p)) ||| ((a &&& lowMask len) <<< p)

def execBfx (st : BitVec 3) (d a : BitVec 5) (p : BitVec 6) (l : BitVec 5) : State → Out :=
  compute (.bfx st d a p l) st.toNat [.int a] (.int d) (some 1)
    (fun _ vs => [bfx p.toNat (l.toNat + 1) (arg1 vs 0)])
def execBfi (st : BitVec 3) (d a : BitVec 5) (p : BitVec 6) (l : BitVec 5) : State → Out :=
  compute (.bfi st d a p l) st.toNat [.int a, .int d] (.int d) (some 1)
    (fun _ vs => [bfi p.toNat (l.toNat + 1) (arg1 vs 0) (arg1 vs 1)])
def execLdk (st : BitVec 3) (d : BitVec 5) (i : BitVec 16) : State → Out :=
  compute (.ldk st d i) st.toNat [] (.int d) (some 1) (fun _ _ => [i.signExtend 64])
def execLdkh (st : BitVec 3) (d : BitVec 5) (i : BitVec 16) : State → Out :=
  compute (.ldkh st d i) st.toNat [b0] (.int d) (some 1)
    (fun _ vs => [(arg1 vs 0 <<< 16) ||| i.zeroExtend 64])
def execAdpc (st : BitVec 3) (d : BitVec 5) (i : BitVec 16) : State → Out :=
  compute (.adpc st d i) st.toNat [] (.int d) (some 1) (fun s _ => [va55 (s.me.pc + 4 * i.signExtend 64)])

end Sys2Proof.Machine
end

