-- ==== Sys2Proof/Machine/Links.lean ====
section
/-! DEFINITION. The Kenavat Link (R323 to R332): packets that arrive, keepalives, lost packages, keys. -/

namespace Sys2Proof.Machine

/-! ### Acceptance -/

/-- The header's form (R324): no reserved bit, the virtual channel of its class, and a payload of at most 512 bytes. -/
def headerOk (vc : Nat) (p : Packet) : Bool :=
  decide (p.src.toNat < 1024) && decide (p.dst.toNat < 1024) && p.vc.toNat == vc && decide (p.len.toNat ≤ 512)

def seqIx (p : Packet) : Nat := p.src.toNat * 256 + p.vc.toNat

/-- The packet is for this package and the next of its (SRC, DST, VC) (R325); the first of a source sets where its numbers start. -/
def acceptable (vc : Nat) (s : State) (p : Packet) : Bool :=
  headerOk vc p && p.dst.toNat == s.pkg && (lookup (seqIx p) s.link.seqIn).all (fun n => n % 2 ^ 32 == p.seq.toNat)

/-- The packet's number is used. -/
def takeSeq (p : Packet) (s : State) : State :=
  { s with link := { s.link with
      seqIn := put (seqIx p) (p.seq.toNat + 1) s.link.seqIn, retried := s.link.retried.filter (· != seqIx p) } }

/-- Requests leave the list. -/
def dropReqs (f : RemoteReq → Bool) (s : State) : State :=
  { s with link := { s.link with reqs := s.link.reqs.filter (fun r => !f r) } }

/-- The requester has been reset since (R316): nobody waits for the answer. -/
def RemoteReq.orphan (r : RemoteReq) : Bool := decide (10 < r.ctx)

/-- A write or update is acknowledged (R108, R136, R161, R182): its context's parked stores may leave, its engine command ends, or its
device word is performed. -/
def acknowledged (r : RemoteReq) (s : State) : State :=
  let s1 := dropReqs (fun x => x.ident == r.ident) s
  if r.orphan then s1
  else match r.kind with
    | .store => drain r.core r.ctx (s1.updCtx r.core r.ctx (fun m => { m with remote := m.remote.filter (fun x => x.1 != r.ident) }))
    | .engine => engineAck r.core r.ident s1
    | _ => s1

/-- A line that a load has asked for as a whole enters the L1 (R217). -/
def fillPart (r : RemoteReq) (v : BitVec 512) (s : State) : State :=
  if ((s.ctx r.core r.ctx).loadOf r.ident).any (fun l => l.fill && l.parts.any (fun p => p.ident == r.ident && p.asks == 64)) then
    s.fillFar r.core r.va r.pa v
  else s

/-- The value of a load, an ATOM, a code line or an engine's line arrives (R135, R231, R332). -/
def answered (r : RemoteReq) (v : BitVec 512) (s : State) : State :=
  let s1 := dropReqs (fun x => x.ident == r.ident) s
  if r.orphan then s1
  else match r.kind with
    | .load => drain r.core r.ctx (asContext r.core r.ctx (answerPart r.ident v) (fillPart r v s1))
    | .waita => s1.updCtx r.core r.ctx (fun m => if m.ask = some r.ident then { m with answer := some v } else m)
    | .fetch line stale => if stale then s1 else 
        fillLine r.core line ((List.range 16).map (fun i => some (v.extractLsb' (32 * i) 32))) s1
    | .engine => engineLine r.core r.ident v s1
    | _ => s1

/-- The request that a response answers. -/
def requestOf (s : State) (p : Packet) : Option RemoteReq :=
  s.link.reqs.find? (fun r => r.ident == p.ident && r.pkg == p.src.toNat)

/-! ### Loss of a package (R331) -/

/-- What a request to a lost package comes to: a load or ATOM takes MCHK with a record and no value; a store, an update, an engine's
write and a word of the device are discarded with identity 2 raised; WAITA and fetches meet the loss when they try again. -/
def loseRequest (r : RemoteReq) (s : State) : State :=
  match r.kind with
  | .load =>
    if r.orphan then s
    else
      let atomic := (s.ctx r.core r.ctx).loads.any (fun l => l.atomic && l.parts.any (fun p => p.ident == r.ident))
      let e := s.errorRecord r.vd (BitVec.ofNat 64 r.pa) ((s.ctx r.core r.ctx).pcOf r.ident) 7 (if atomic then 2 else 0) 0 r.core r.ctx
      asContext r.core r.ctx (failPart r.ident e.2) e.1
  | .store =>
    let s1 := s.interrupt r.vd 2
    if r.orphan then s1
    else s1.updCtx r.core r.ctx (fun m => { m with remote := m.remote.filter (fun x => x.1 != r.ident) })
  | .engine =>
    if r.orphan || !((s.core r.core).copies ++ (s.core r.core).mx).any (fun e => e.idents.contains r.ident) then s
    else engineAck r.core r.ident (s.interrupt r.vd 2)
  | .word => s.interrupt r.vd 2
  | .waita | .fetch _ _ => s

/-- Everything outstanding to the package ends. -/
def dropPackage (q : Nat) (s : State) : State :=
  (s.link.reqs.filter (fun r => r.pkg == q)).foldl (fun s r => loseRequest r s) (dropReqs (fun r => r.pkg == q) s)

/-- A peer is lost: accesses and link steps that need it end as R331 says. -/
def loseLink (q : Nat) (s : State) : State :=
  if q = s.pkg ∨ s.link.lost.contains q = true ∨ 1024 ≤ q then s
  else losePackage q (dropPackage q { s with link := { s.link with lost := s.link.lost ++ [q] } })

/-- A port is down when a second lane of it has failed: the first took the spare (R345). -/
def Link.portDown (l : Link) (port : Nat) : Bool := decide (2 ≤ (lookup port l.downLanes).getD 0)

/-- The port that carries a peer's packets: which one the manual leaves open (log 5), and from a port that is down they move to the next that
is up (R345). -/
def Link.portOf (l : Link) (pkg : Nat) : Nat :=
  let first := Config.linkPort pkg % 16
  (((List.range 16).map (fun i => (first + i) % 16)).find? (fun p => !l.portDown p)).getD first

/-- The port that a packet comes through leaves low power (R337). -/
def wakePort (p : Packet) (s : State) : State :=
  if s.link.lowPower.isEmpty then s
  else { s with link := { s.link with lowPower := s.link.lowPower.filter (· != s.link.portOf p.src.toNat) } }

/-- A packet arrives on its virtual channel (R325, R326): one that breaks the form or the order is discarded; one whose tag fails is retried
once, and a second failure ends the session. -/
def receive (vc : Nat) (p : Packet) (f : State → State) : State → Out := fun s0 =>
  let s := wakePort p s0
  if !acceptable vc s p then .next s
  else if !p.tagGood then
    if s.link.retried.contains (seqIx p) then .next (loseLink p.src.toNat s)
    else .next { s with link := { s.link with retried := s.link.retried ++ [seqIx p] } }
  else .next (f (takeSeq p s))

/-! ### Requests at the target -/

/-- R323: a VD with the tag has a window over the bytes, and an entry grants the right. -/
def acceptingVd (s : State) (p : Packet) (len : Nat) (right : Perm → Bool) : Option (Nat × List Place) :=
  s.vds.findSome? (fun e =>
    if e.2.state ≠ .absent ∧ e.2.desc.dombase.getLsbD 0 = true ∧ BitVec.ofNat 16 (bits e.2.desc.dombase.toNat 25 10) = p.domain then
      let at_ := (List.range len).map (fun i => s.place e.1 (p.pa.toNat + i))
      if bits p.pa.toNat 51 42 == s.pkg && at_.all (fun x => x.any (fun pl => s.permits e.1 pl.rank pl.row right)) then
        some (e.1, at_.filterMap id) else none
    else none)

/-- A write of another package joins the queues of its banks, line by line; it is acknowledged with its last line (R332, R371). -/
def packetWrite (vd : Nat) (p : Packet) (bs : List (Place × Byte)) (s : State) : State :=
  let n := s.nextId
  settlePlaces (bs.map (·.1)) ((runsOf bs).foldl (fun s r => s.post n vd (.packet p) r.1 r.2.length (.write r.2))
    { s.wakeBanks (bs.map (·.1)) with nextId := n + 1 })

/-- A request at its home (R323, R332): refused, or it arrives at its banks like any outside access, may wait there, and is then answered. An
ATOMIC or UPDATE, which no package of this kind sends over several lines, is taken off its channel when every bank serves it (log 39). -/
def atHome (right : Perm → Bool) (len : Nat) (op : BankOp) (p : Packet) : State → Out := fun s =>
  match acceptingVd s p len right with
  | none => receive 0 p (refuse p) s
  | some (vd, ps) =>
    match op with
    | .read => receive 0 p (arriveRead vd (some p) ps) s
    | .write bs => receive 0 p (packetWrite vd p (ps.zip bs)) s
    | _ =>
    if (placeRuns ps).length = 1 then
      receive 0 p (fun s => arrive s.nextId vd (.packet p) (ps.headD ⟨0, 0, 0⟩) len op { s with nextId := s.nextId + 1 }) s
    else
      let shut := ps.filter (s.closed op)
      if shut.isEmpty then receive 0 p (serveAt ps ⟨s.nextId, vd, .packet p, 0, 0, len, op, none, true⟩) s
      else
        let w := wakePort p s
        .next (if acceptable 0 w p then w.askWindow vd shut else w)

/-- READ (R323, R324). -/
def execRead (p : Packet) : State → Out := atHome (·.r) (min p.size 512) .read p

/-- WRITE (R138, R323, R332): the home acknowledges once the bytes are written. -/
def execWrite (p : Packet) : State → Out := atHome (·.w) p.len.toNat (.write (bytesOf p.len.toNat p.data.toNat)) p

/-- ATOMIC (R145, R323, R332). -/
def execAtomic (p : Packet) : State → Out :=
  match p.op with
  | .atom op expected => atHome (fun e => e.r && e.w) (min p.size 512) (.atom op.toNat p.data.toNat expected.toNat) p
  | _ => receive 0 p (refuse p)

/-- UPDATE (R147, R148): combined at the home. -/
def execUpdate (p : Packet) : State → Out :=
  match p.op with
  | .upd t op => atHome (fun e => e.r && e.w) (min p.size 512) (.upd t.toNat op.toNat p.data.toNat) p
  | _ => receive 0 p (refuse p)

/-! ### Responses at the requester -/

/-- A response that brings a value. -/
def valueArrives (p : Packet) : State → Out :=
  receive 1 p (fun s => match requestOf s p with
    | none => s
    | some r => answered r (p.data.setWidth 512) s)

def execReadResp (p : Packet) : State → Out := valueArrives p
def execAtomicResp (p : Packet) : State → Out := valueArrives p

def execAck (p : Packet) : State → Out :=
  receive 1 p (fun s => match requestOf s p with
    | none => s
    | some r => acknowledged r s)

/-- The code of R343 for a refused request. -/
def refusedKind (p : Packet) (r : RemoteReq) (line : Bool) : Nat :=
  match r.kind, p.op with
  | .fetch _ _, _ => 3
  | .engine, _ => if line then 4 else 1
  | .load, .none | .waita, _ => 0
  | .store, .none | .word, _ => 1
  | _, _ => 2

/-- NACK (R323): a load or ATOM delivers 0; the refusal acknowledges the rest; the issuer's VD gets a record. -/
def execNack (p : Packet) : State → Out :=
  receive 1 p (fun s => match requestOf s p with
    | none => s
    | some r =>
      if r.orphan then dropReqs (fun x => x.ident == r.ident) s
      else
        let line := ((s.core r.core).copies ++ (s.core r.core).mx).any (fun e => e.lines.any (fun l => l.1 == r.ident))
        let value : Bool := line || (match r.kind with
          | .load | .waita | .fetch _ _ => true
          | _ => false)
        let s1 := (s.errorRecord r.vd (p.pa.zeroExtend 64) (if value && !line then (s.ctx r.core r.ctx).pc else 0) 7
          (refusedKind p r line) (Config.syndrome s.errSeq).toNat r.core r.ctx).1
        if value then answered r 0 s1 else acknowledged r s1)

/-! ### Collective steps (R327, R329) -/

def execStep (p : Packet) : State → Out := receive 2 p (stepArrives p)

/-- STEP_RED: reducing switches combine these (R325); a package that one reaches adds nothing to it. -/
def execStepRed (p : Packet) : State → Out := receive 2 p id

/-- STEP_RES: the record that the switches have combined. -/
def execStepRes (p : Packet) : State → Out := receive 2 p (stepArrives { p with step := BitVec.ofNat 16 stepResult })

/-! ### Keepalives, losses, keys, ports -/

/-- KEEPALIVE: R324 names no virtual channel for it, so it may come on any. -/
def execKeepalive (p : Packet) : State → Out := receive (min p.vc.toNat 2) p id

/-- A packet with no payload. -/
def keepalivePacket (s : State) (q : Nat) : Packet :=
  { vc := 0, domain := 0, src := BitVec.ofNat 16 s.pkg, dst := BitVec.ofNat 16 q, seq := 0, len := 0, pa := 0, size := 0
    op := .none, data := 0, ident := 0, tagGood := true, group := 0, tag := 0, alpha := 0, dtype := 0, redop := 0
    contrib := 0, step := 0, records := [] }

/-- KEEPALIVE_SEND (R325): one to each peer with traffic outstanding. -/
def execKeepaliveSend : State → Out := fun s =>
  .next ((dedup (s.link.reqs.map (·.pkg))).foldl (fun s q => sendPacket false 12 (keepalivePacket s q) s) s)

def execPackageLoss (pkg : Nat) : State → Out := fun s => .next (loseLink pkg s)

/-- LINK_KEY_REPLACEMENT (R326): a new key, whose nonce counter starts again. DEDUCED (log 82): the session it is agreed over is one that the
security processor has established. -/
def execLinkKeyReplacement (domain : BitVec 16) (src dst : BitVec 10) : State → Out := fun s =>
  let ix := linkKeyIx domain.toNat src.toNat dst.toNat
  if !s.sec.spdm.1.established && !s.sec.spdm.2.established then .next s
  else .next { s with link := { s.link with
    keyNo := put ix ((lookup ix s.link.keyNo).getD 0 + 1) s.link.keyNo, sealedCount := drop ix s.link.sealedCount } }

/-- LINK_PORT_WAKE (R337). -/
def execLinkPortWake (port : Nat) : State → Out := fun s =>
  .next { s with link := { s.link with lowPower := s.link.lowPower.filter (· != port) } }

end Sys2Proof.Machine
end

