-- ==== Sys2Proof/Machine/Outside.lean ====
section
/-! DEFINITION. Accesses from outside the compute dies: doorbells and the aperture of the endpoint, devices, application cores,
and the power manager (R14, R273, R354, R358). -/

namespace Sys2Proof.Machine

/-! ### Launches -/

/-- A launch that a host or a runtime places as GLAUNCH would (R188, R273, R354); its outcome is what BAR0 shows. -/
def ringDoorbell (vd q : Nat) (va : W64) (s : State) : State :=
  if 64 ≤ vd ∨ 4 ≤ q ∨ (s.vd vd).state = .absent then s
  else
    let r := submit vd va (BitVec.ofNat 64 q) s
    r.1.updVd vd (fun v => { v with results := v.results.set (Fin.ofNat 4 q) r.2 })

def execLaunchDoorbell (vd q : Nat) (va : BitVec 64) : State → Out := fun s => .next (whenServed (ringDoorbell vd q va) s)

/-! ### Accesses -/

/-- What an outside read returns. -/
def answer (v : W64) (s : State) : State := { s with output := s.output ++ [.data v] }

/-- A read whose result the manual does not state (log 5). -/
def answerOpen (s : State) : State := { answer (Config.freeAddr s.nextId) s with nextId := s.nextId + 1 }

/-- An outside access at its home: it arrives at its banks line by line (R251, R256, R371). -/
def outsideHome (vd : Nat) (wr : Bool) (ps : List Place) (data : W64) (s : State) : State :=
  if wr then arriveWrite s.nextId vd .nobody (ps.zip (bytesOf ps.length data.toNat)) { s with nextId := s.nextId + 1 }
  else arriveRead vd none ps s

/-- The management window, read and written by aligned 8-byte words. -/
def outsideMgmt (wr : Bool) (off len : Nat) (data : W64) (s : State) : State :=
  if wr then mgmtStore off (bytesOf len data.toNat) s
  else answer (BitVec.ofNat 64 ((s.mgmtRead off).toNat / 256 ^ (off % 8) % 256 ^ len)) s

/-- An access through the aperture of a VD: an access that does not translate writes nothing; a write to a page that the pagers hold stays
at the endpoint (R292). -/
def apertureAccess (vd : Nat) (wr : Bool) (va len : Nat) (data : W64) (s : State) : State :=
  match walkRange s deviceDie vd va len (if wr then .store else .load) with
  | (s1, .ok pas) =>
    let pa := pas.headD 0
    if bits pa 51 42 ≠ s.pkg then
      if wr then { sendPacket (s1.vd vd).seals 3 (requestPacket s1 vd (bits pa 51 42) pa len .none len (data.zeroExtend 512)) s1 with
        nextId := s1.nextId + 1 }
      else { answer (BitVec.ofNat 64 (ofBytes (pas.map (s1.farRead vd)))) s1 with nextId := s1.nextId + 1 }
    else match s1.mgmtOff pa, s1.place vd pa with
      | some o, none => outsideMgmt wr o len data s1
      | _, _ => outsideHome vd wr (s1.places vd pas) data s1
  | (s1, .error (.hold, _)) => s1
  | (s1, .error _) => if wr then s1 else answerOpen s1

/-- HOST_APERTURE_ACCESS (R354): translated by the VD's page tables; it waits at the endpoint while a bank that its walk needs is held
(R371). -/
def execHostApertureAccess (vd : Nat) (wr : Bool) (va : BitVec 55) (len : Nat) (data : BitVec 64) : State → Out := fun s =>
  if 64 ≤ vd ∨ (s.vd vd).state = .absent ∨ 8 < len ∨ len = 0 then .next s
  else .next (whenServed (apertureAccess vd wr va.toNat len data) s)

/-! ### What the host does at a function of the endpoint (R354) -/

/-- A read of the result of the last doorbell of queue q, in BAR0 at 0x40 + 8q. -/
def readResult (vd q : Nat) (s : State) : State := if vd < 64 ∧ q < 4 then answer (s.vd vd).results[Fin.ofNat 4 q] s else s

/-- A read of 8 bytes of the management window through BAR4 of the physical function (R355). -/
def readManage (off : Nat) (s : State) : State := if off % 8 = 0 ∧ off < 2 ^ 20 then answer (s.mgmtRead off) s else s

/-- The MSI-X enable of a function. -/
def enableMsix (vd : Nat) (on : Bool) (s : State) : State :=
  if 64 ≤ vd then s
  else { s with msix := if on then (if s.msix.contains vd then s.msix else s.msix ++ [vd]) else s.msix.filter (· != vd) }

/-- The VD whose windows and entries let a physical access through (R221, R307): the one of the lowest number. -/
def State.ownerOf (s : State) (pa len : Nat) (right : Perm → Bool) : Option (Nat × List Place) :=
  (List.range 64).findSome? (fun vd =>
    let at_ := (List.range len).map (fun i => s.place vd (pa + i))
    if at_.all (fun x => x.any (fun p => s.permits vd p.rank p.row right)) then some (vd, at_.filterMap id) else none)

/-- An access at a physical address. -/
def physAccess (wr : Bool) (pa len : Nat) (data : W64) (s : State) : State :=
  match s.ownerOf pa len (fun e => if wr then e.w else e.r) with
  | some (vd, ps) => outsideHome vd wr ps data s
  | none => if wr then s else answerOpen s

/-- DEVICE_DMA (R338, R354). DEDUCED (log 84): the address is the one that the IOMMU has made, whose tables the manual does not give. -/
def execDeviceDma (wr : Bool) (pa : BitVec 52) (len : Nat) (data : BitVec 64) : State → Out := fun s =>
  if 8 < len ∨ len = 0 then .next s else .next (physAccess wr pa.toNat len data s)

/-- APPLICATION_CORE_ACCESS (R273, R302, R338): memory, the management window, a launch queue. -/
def execApplicationCoreAccess (op : AppOp) : State → Out := fun s =>
  match op with
  | .load pa len =>
    if 8 < len ∨ len = 0 then .next s
    else match s.mgmtOff pa.toNat, s.ownerOf pa.toNat len (·.r) with
      | some o, none => .next (outsideMgmt false o len 0 s)
      | _, _ => .next (physAccess false pa.toNat len 0 s)
  | .store pa len data =>
    if 8 < len ∨ len = 0 then .next s
    else match s.mgmtOff pa.toNat, s.ownerOf pa.toNat len (·.w) with
      | some o, none => .next (outsideMgmt true o len data s)
      | _, _ => .next (physAccess true pa.toNat len data s)
  | .launch vd q va => .next (whenServed (ringDoorbell vd q va) s)

/-! ### Power (R14) -/

/-- POWER_MANAGER_ADJUST: MU rate in eighths, then the rank clock in units of 125 MHz down to 250 MHz. It changes no result. -/
def execPowerManagerAdjust (mustep rclk : BitVec 8) (tj power : BitVec 16) : State → Out := fun s =>
  if mustep = 0 ∨ 8 < mustep.toNat ∨ rclk.toNat < 2 ∨ 8 < rclk.toNat ∨ (rclk ≠ 8 ∧ mustep ≠ 1) then .next s
  else .next { s with power := BitVec.ofNat 64 (power.toNat + tj.toNat * 2 ^ 16 + rclk.toNat * 2 ^ 32 + mustep.toNat * 2 ^ 40) }

end Sys2Proof.Machine
end

