-- ==== Sys2Proof/Machine/Ptr.lean ====
section
/-! DEFINITION. Fat-pointer arithmetic (R82 to R84). -/

namespace Sys2Proof.Machine

/-- The pointer with another address, taken modulo 2^55; every other field stays (R83). -/
def withAddr (p a : W64) : W64 := (p &&& 0xFF80000000000000) ||| va55 a

/-- The element unit of R82: bytes and elements of one unit, or none for a half-byte position. -/
inductive Unit82 where
  | bytes (size elems : Nat)
  | half
  deriving DecidableEq, Repr

def unitOf (p : W64) : Unit82 :=
  let f := ptrFmt p
  if f = Fmt.i4 ∨ f = Fmt.n4 then .half
  else if f = Fmt.e2m1 then .bytes 1 2
  else if f = Fmt.e3m2 ∨ f = Fmt.e2m3 then .bytes 3 4
  else match blockFmt f with
    | some _ => .bytes (groupBytes f (blockLen p)) (64 * blockLen p)
    | none => .bytes (fmtBits f / 8) 1

/-- A count that R82 rejects, or a format error of the pointer itself (R45). -/
def countRejected (p b : W64) : Bool :=
  ptrFormatError p ||
    match unitOf p with
    | .half => false
    | .bytes _ n => n != 0 && b.toInt % n != 0

/-- Half-byte position of an I4 or N4 pointer (R82). -/
def halfPos (p : W64) : Int := 2 * (ptrAddr p : Int) + (if ptrNib p then 1 else 0)

/-- PADDE: p advanced by b element units. -/
def padde (p b : W64) : W64 :=
  match unitOf p with
  | .half =>
    let h := halfPos p + b.toInt
    (withAddr p (BitVec.ofInt 64 (h / 2)) &&& 0xFF7FFFFFFFFFFFFF) ||| (if h % 2 = 1 then 0x80000000000000 else 0)
  | .bytes size n => withAddr p (p + BitVec.ofInt 64 (b.toInt / n * size))

/-- PSUBE: the distance p − q in units of p's format, truncated toward zero. DESIGN CHOICE (log 64): for block and 6-bit formats the
unit of the result is the element, not the block or the group of four. -/
def psube (p q : W64) : W64 :=
  match unitOf p with
  | .half =>
    BitVec.ofInt 64 (2 * (BitVec.ofNat 55 (p - q).toNat).toInt + (if ptrNib p then 1 else 0) - (if ptrNib q then 1 else 0))
  | .bytes size n => BitVec.ofInt 64 (((BitVec.ofNat 55 (p - q).toNat).toInt * n).tdiv size)

/-- PFMT's three fields in their places (R83). -/
def pfmt (p b : W64) : W64 :=
  (p &&& 0x7FFFFFFFFFFFFF) ||| ((b &&& 0x1F) <<< 59) ||| (((b >>> 5) &&& 7) <<< 56) ||| (((b >>> 8) &&& 1) <<< 55)

def pgetf (p : W64) : W64 := (p >>> 59) ||| (((p >>> 56) &&& 7) <<< 5) ||| (((p >>> 55) &&& 1) <<< 8)

/-- A PTR member that writes pointer d from pointer a and, where it has one, operand b; `bad` gives its format error. -/
def ptrOp (i : Instr) (st : BitVec 3) (d a : BitVec 5) (b : Option (BitVec 5)) (bad : W64 → W64 → Bool)
    (f : W64 → W64 → W64) : State → Out :=
  let srcs := Opnd.pointer a :: (b.map (fun b => Opnd.int b)).toList
  issue i st.toNat (do
    prepare srcs (some (.pointer d)) (fun s =>
      let vs := s.values srcs
      if bad (arg1 vs 0) (arg1 vs 1) then [Cand.format (a.zeroExtend 64)] else [])
    upd (fun s =>
      let vs := s.values srcs
      deliver (.pointer d) (.fixed (s.now + latency srcs 1)) [f (arg1 vs 0) (arg1 vs 1)] (consume srcs s)))

/-- A PTR member that delivers an integer. -/
def ptrGet (i : Instr) (st : BitVec 3) (d a : BitVec 5) (f : W64 → W64) : State → Out :=
  compute i st.toNat [.pointer a] (.int d) (some 1) (fun _ vs => [f (arg1 vs 0)])

def execPadd (st : BitVec 3) (d a b : BitVec 5) : State → Out :=
  ptrOp (.padd st d a b) st d a (some b) (fun _ _ => false) (fun p b => withAddr p (p + b))
def execPadde (st : BitVec 3) (d a b : BitVec 5) : State → Out :=
  ptrOp (.padde st d a b) st d a (some b) countRejected padde

/-- PSUBE (R83): the format checked is that of p; a rejected block length is a format error. -/
def execPsube (st : BitVec 3) (d a b : BitVec 5) : State → Out :=
  let srcs := [Opnd.pointer a, Opnd.int b]
  issue (.psube st d a b) st.toNat (do
    prepare srcs (some (.int d)) (fun s =>
      if countRejected (arg1 (s.values srcs) 0) 0 then [Cand.format (a.zeroExtend 64)] else [])
    upd (fun s =>
      let vs := s.values srcs
      deliver (.int d) (.fixed (s.now + latency srcs 1)) [psube (arg1 vs 0) (arg1 vs 1)] (consume srcs s)))

def execPfmt (st : BitVec 3) (d a b : BitVec 5) : State → Out :=
  ptrOp (.pfmt st d a b) st d a (some b) (fun _ _ => false) pfmt
def execPgetf (st : BitVec 3) (d a : BitVec 5) : State → Out := ptrGet (.pgetf st d a) st d a pgetf
def execPgetb (st : BitVec 3) (d a : BitVec 5) : State → Out :=
  ptrGet (.pgetb st d a) st d a (fun p => BitVec.ofNat 64 (blockLen p))
def execPset (st : BitVec 3) (d a b : BitVec 5) : State → Out :=
  ptrOp (.pset st d a b) st d a (some b) (fun _ _ => false) withAddr

/-- PSTR (R83): A names the pointer whose stride is written. -/
def execPstr (st : BitVec 3) (a b : BitVec 5) : State → Out :=
  issue (.pstr st a b) st.toNat (do
    prepare [.int b] none (fun _ => [])
    upd (fun s =>
      let v := (arg1 (s.values [.int b]) 0).setWidth 32
      (consume [.int b] s).updMe (fun c => { c with as := c.as.set (ptrIx (a.toNat - 28)) v })))

def execPgeta (st : BitVec 3) (d a : BitVec 5) : State → Out := ptrGet (.pgeta st d a) st d a va55
def execPaddi (st : BitVec 3) (d a : BitVec 5) (i : BitVec 11) : State → Out :=
  ptrOp (.paddi st d a i) st d a none (fun _ _ => false) (fun p _ => withAddr p (p + i.signExtend 64))

end Sys2Proof.Machine
end

