-- ==== Sys2Proof/Machine/Vector.lean ====
section
/-! DEFINITION. Vector integer, float and exchange instructions (R111 to R116), conversions (R117) and scalar floats (R118). -/

namespace Sys2Proof.Machine

/-! ### Lanes (R111) -/

/-- Lane width of VI and VX. -/
def laneBits (e : BitVec 2) : Nat := 8 * 2 ^ e.toNat
def lanesOf (w : Nat) (v : List W64) : List Nat := fieldsOf w (128 / w) (ofWords v)
/-- Lanes packed from bit 0; bits above them are zero. -/
def joinLanes (w : Nat) (ls : List Nat) : List W64 := wordsOf 2 (packFields w ls)
/-- The signed reading of a lane. -/
def laneInt (w x : Nat) : Int := (BitVec.ofNat w x).toInt
def allOnes (w : Nat) (b : Bool) : Nat := if b then 2 ^ w - 1 else 0

/-- VI: a lane function of two operands (R112). -/
def viOp (i : Instr) (st : BitVec 3) (d a b : BitVec 5) (e : BitVec 2) (f : (w : Nat) → BitVec w → BitVec w → BitVec w) :
    State → Out :=
  compute i st.toNat [.vector a, .vector b] (.vector d) (some 1) (fun _ vs =>
    let w := laneBits e
    joinLanes w (List.zipWith (fun x y => (f w (BitVec.ofNat w x) (BitVec.ofNat w y)).toNat)
      (lanesOf w (arg vs 0)) (lanesOf w (arg vs 1))))

/-- All ones when a compare holds (R112). -/
def ones (w : Nat) (b : Bool) : BitVec w := if b then BitVec.allOnes w else 0

def execVadd (st : BitVec 3) (d a b : BitVec 5) (e : BitVec 2) : State → Out :=
  viOp (.vadd st d a b e) st d a b e (fun _ x y => x + y)
def execVsub (st : BitVec 3) (d a b : BitVec 5) (e : BitVec 2) : State → Out :=
  viOp (.vsub st d a b e) st d a b e (fun _ x y => x - y)
def execVmul (st : BitVec 3) (d a b : BitVec 5) (e : BitVec 2) : State → Out :=
  viOp (.vmul st d a b e) st d a b e (fun _ x y => x * y)
def execVmin (st : BitVec 3) (d a b : BitVec 5) (e : BitVec 2) : State → Out :=
  viOp (.vmin st d a b e) st d a b e (fun _ x y => if x.slt y then x else y)
def execVmax (st : BitVec 3) (d a b : BitVec 5) (e : BitVec 2) : State → Out :=
  viOp (.vmax st d a b e) st d a b e (fun _ x y => if x.slt y then y else x)
def execVminu (st : BitVec 3) (d a b : BitVec 5) (e : BitVec 2) : State → Out :=
  viOp (.vminu st d a b e) st d a b e (fun _ x y => if x.ult y then x else y)
def execVmaxu (st : BitVec 3) (d a b : BitVec 5) (e : BitVec 2) : State → Out :=
  viOp (.vmaxu st d a b e) st d a b e (fun _ x y => if x.ult y then y else x)
def execVand (st : BitVec 3) (d a b : BitVec 5) (e : BitVec 2) : State → Out :=
  viOp (.vand st d a b e) st d a b e (fun _ x y => x &&& y)
def execVor (st : BitVec 3) (d a b : BitVec 5) (e : BitVec 2) : State → Out :=
  viOp (.vor st d a b e) st d a b e (fun _ x y => x ||| y)
def execVxor (st : BitVec 3) (d a b : BitVec 5) (e : BitVec 2) : State → Out :=
  viOp (.vxor st d a b e) st d a b e (fun _ x y => x ^^^ y)
def execVshl (st : BitVec 3) (d a b : BitVec 5) (e : BitVec 2) : State → Out :=
  viOp (.vshl st d a b e) st d a b e (fun w x y => x <<< (y.toNat % w))
def execVshr (st : BitVec 3) (d a b : BitVec 5) (e : BitVec 2) : State → Out :=
  viOp (.vshr st d a b e) st d a b e (fun w x y => x >>> (y.toNat % w))
def execVsar (st : BitVec 3) (d a b : BitVec 5) (e : BitVec 2) : State → Out :=
  viOp (.vsar st d a b e) st d a b e (fun w x y => x.sshiftRight (y.toNat % w))
def execVceq (st : BitVec 3) (d a b : BitVec 5) (e : BitVec 2) : State → Out :=
  viOp (.vceq st d a b e) st d a b e (fun w x y => ones w (x == y))
def execVclt (st : BitVec 3) (d a b : BitVec 5) (e : BitVec 2) : State → Out :=
  viOp (.vclt st d a b e) st d a b e (fun w x y => ones w (x.slt y))
def execVcltu (st : BitVec 3) (d a b : BitVec 5) (e : BitVec 2) : State → Out :=
  viOp (.vcltu st d a b e) st d a b e (fun w x y => ones w (x.ult y))

/-! ### Instructions that round or set flags -/

/-- Sources, destination, latency; the rounding mode and how many stream words are used (R47); the function from the
context and the source values to the result and the flags (R53). -/
def computeF (i : Instr) (stall : Nat) (srcs : List Opnd) (d : Opnd) (lat : Nat) (mode : Context → Nat) (n : Nat)
    (f : Context → List (List W64) → List W64 × Fl) : State → Out :=
  issue i stall (do
    ready srcs (some d) (fun s => if n = 0 then [] else s.me.rsrCands (mode s.me))
    upd (fun s =>
      match s.badOperand [] srcs with
      | some off => useWords (mode s.me) n (deliverBad d (spmRecord off 0 s).2 (consume srcs (spmRecord off 0 s).1))
      | none =>
        let r := f s.me (s.values srcs)
        useWords (mode s.me) n (raiseFlags r.2
          (deliver d (.fixed (s.now + latency srcs lat)) r.1 (consume srcs s)))))

/-- The lane format of VF (R111). -/
def vfFmt (t : BitVec 2) : FloatFmt :=
  match t.toNat with
  | 0 => ⟨5, 10, 15, .ieee⟩
  | 1 => ⟨8, 7, 127, .ieee⟩
  | 2 => ⟨8, 23, 127, .ieee⟩
  | _ => ⟨11, 52, 1023, .ieee⟩

def vfLanes (t : BitVec 2) : Nat := 128 / (vfFmt t).width

/-- VF with a function of lane number, rounding and lanes; `rounds` says whether the member rounds (R113). -/
def vfOp (i : Instr) (st : BitVec 3) (srcs : List Opnd) (d : BitVec 5) (t : BitVec 2) (lat : Nat) (rounds : Bool)
    (f : FloatFmt → Rnd → Nat → Nat → Nat → Nat × Fl) : State → Out :=
  computeF i st.toNat srcs (.vector d) lat Context.frm (if rounds then vfLanes t else 0) (fun c vs =>
    let w := (vfFmt t).width
    let l (k : Nat) : List Nat := lanesOf w (arg vs k)
    let rs := (List.range (vfLanes t)).map (fun j =>
      f (vfFmt t) (c.rnd c.frm j) ((l 0).getD j 0) ((l 1).getD j 0) ((l 2).getD j 0))
    (joinLanes w (rs.map (·.1)), orFlags rs))

/-- The addend of VFMA and VDOT4: named pair D, or vector b0 (R63). -/
def addend (d : BitVec 5) : Opnd := if 16 ≤ d.toNat ∧ d.toNat ≤ 23 then .vector d else .vector 0

def execVfadd (st : BitVec 3) (d a b : BitVec 5) (t : BitVec 2) : State → Out :=
  vfOp (.vfadd st d a b t) st [.vector a, .vector b] d t 3 true (fun f r x y _ => fadd f r x y)
def execVfsub (st : BitVec 3) (d a b : BitVec 5) (t : BitVec 2) : State → Out :=
  vfOp (.vfsub st d a b t) st [.vector a, .vector b] d t 3 true (fun f r x y _ => fsub f r x y)
def execVfmul (st : BitVec 3) (d a b : BitVec 5) (t : BitVec 2) : State → Out :=
  vfOp (.vfmul st d a b t) st [.vector a, .vector b] d t 3 true (fun f r x y _ => fmul f r x y)
def execVfma (st : BitVec 3) (d a b : BitVec 5) (t : BitVec 2) : State → Out :=
  vfOp (.vfma st d a b t) st [.vector a, .vector b, addend d] d t 4 true (fun f r x y z => fma f r x y z)
def execVfmin (st : BitVec 3) (d a b : BitVec 5) (t : BitVec 2) : State → Out :=
  vfOp (.vfmin st d a b t) st [.vector a, .vector b] d t 3 false (fun f _ x y _ => fminmax f false x y)
def execVfmax (st : BitVec 3) (d a b : BitVec 5) (t : BitVec 2) : State → Out :=
  vfOp (.vfmax st d a b t) st [.vector a, .vector b] d t 3 false (fun f _ x y _ => fminmax f true x y)
def execVfabs (st : BitVec 3) (d a : BitVec 5) (t : BitVec 2) : State → Out :=
  vfOp (.vfabs st d a t) st [.vector a] d t 3 false (fun f _ x _ _ => (x % f.signBit, 0))
def execVfneg (st : BitVec 3) (d a : BitVec 5) (t : BitVec 2) : State → Out :=
  vfOp (.vfneg st d a t) st [.vector a] d t 3 false (fun f _ x _ _ =>
    (if x < f.signBit then x + f.signBit else x - f.signBit, 0))
def execVfceq (st : BitVec 3) (d a b : BitVec 5) (t : BitVec 2) : State → Out :=
  vfOp (.vfceq st d a b t) st [.vector a, .vector b] d t 3 false (fun f _ x y _ =>
    (allOnes f.width (fceq f x y).1, (fceq f x y).2))
def execVfclt (st : BitVec 3) (d a b : BitVec 5) (t : BitVec 2) : State → Out :=
  vfOp (.vfclt st d a b t) st [.vector a, .vector b] d t 3 false (fun f _ x y _ =>
    (allOnes f.width (fcmp f false x y).1, (fcmp f false x y).2))
def execVfcle (st : BitVec 3) (d a b : BitVec 5) (t : BitVec 2) : State → Out :=
  vfOp (.vfcle st d a b t) st [.vector a, .vector b] d t 3 false (fun f _ x y _ =>
    (allOnes f.width (fcmp f true x y).1, (fcmp f true x y).2))
def execVfrnd (st : BitVec 3) (d a : BitVec 5) (t : BitVec 2) : State → Out :=
  vfOp (.vfrnd st d a t) st [.vector a] d t 3 true (fun f r x _ _ => frnd f r x)

/-- n of VFSCL; every n beyond ±5,000 gives the result of ±5,000 in every lane type. -/
def scaleBy (w y : Nat) : Int := max (-5000) (min 5000 (laneInt w y))

def execVfscl (st : BitVec 3) (d a b : BitVec 5) (t : BitVec 2) : State → Out :=
  vfOp (.vfscl st d a b t) st [.vector a, .vector b] d t 3 true (fun f r x y _ => fscl f r x (scaleBy f.width y))
def execVfcls (st : BitVec 3) (d a : BitVec 5) (t : BitVec 2) : State → Out :=
  vfOp (.vfcls st d a t) st [.vector a] d t 3 false (fun f _ x _ _ => (fcls f x, 0))

/-! ### VX (R115) -/

/-- A VX member of latency `lat`, none when interlocked (R116): lanes of A, lanes of B, integer b0. -/
def vxOp (i : Instr) (st : BitVec 3) (srcs : List Opnd) (d : BitVec 5) (w : Nat) (lat : Option Nat)
    (f : List Nat → List Nat → Nat → List Nat) : State → Out :=
  compute i st.toNat srcs (.vector d) lat (fun _ vs =>
    joinLanes w (f (lanesOf w (arg vs 0)) (lanesOf w (arg vs 1)) (arg1 vs (srcs.length - 1)).toNat))

def execVsplat (st : BitVec 3) (d a b : BitVec 5) (e : BitVec 2) : State → Out :=
  vxOp (.vsplat st d a b e) st [.vector a] d (laneBits e) (some 1) (fun x _ _ => x.map (fun _ => x.getD b.toNat 0))
def execVext (st : BitVec 3) (d a b : BitVec 5) (e : BitVec 2) : State → Out :=
  compute (.vext st d a b e) st.toNat [.vector a] (.vector d) (some 1) (fun _ vs =>
    [sext64 (laneBits e) ((lanesOf (laneBits e) (arg vs 0)).getD b.toNat 0), 0])
def execVins (st : BitVec 3) (d a b : BitVec 5) (e : BitVec 2) : State → Out :=
  vxOp (.vins st d a b e) st [.vector a, b0] d (laneBits e) (some 1) (fun x _ y => x.set b.toNat y)
def execVshuf (st : BitVec 3) (d a b : BitVec 5) (e : BitVec 2) : State → Out :=
  vxOp (.vshuf st d a b e) st [.vector a, .vector b] d (laneBits e) (some 1) (fun x y _ => y.map (fun j => x.getD j 0))
def execVrev (st : BitVec 3) (d a : BitVec 5) (e : BitVec 2) : State → Out :=
  vxOp (.vrev st d a e) st [.vector a] d (laneBits e) (some 1) (fun x _ _ => x.reverse)
def execVzip (st : BitVec 3) (d a b : BitVec 5) (e : BitVec 2) : State → Out :=
  vxOp (.vzip st d a b e) st [.vector a, .vector b] d (laneBits e) (some 1) (fun x y _ =>
    (List.range (x.length / 2)).flatMap (fun i => [x.getD i 0, y.getD i 0]))

/-- Lanes 0, 2, 4, … -/
def evens (x : List Nat) : List Nat := (List.range (x.length / 2)).map (fun i => x.getD (2 * i) 0)

def execVunz (st : BitVec 3) (d a b : BitVec 5) (e : BitVec 2) : State → Out :=
  vxOp (.vunz st d a b e) st [.vector a, .vector b] d (laneBits e) (some 1) (fun x y _ => evens x ++ evens y)
def execVsumh (st : BitVec 3) (d a : BitVec 5) (e : BitVec 2) : State → Out :=
  vxOp (.vsumh st d a e) st [.vector a] d (laneBits e) none (fun x _ _ => [x.sum])
def execVmaxh (st : BitVec 3) (d a : BitVec 5) (e : BitVec 2) : State → Out :=
  vxOp (.vmaxh st d a e) st [.vector a] d (laneBits e) none (fun x _ _ =>
    [x.foldl (fun m y => if laneInt (laneBits e) m < laneInt (laneBits e) y then y else m) (x.getD 0 0)])
def execVamaxh (st : BitVec 3) (d a : BitVec 5) (e : BitVec 2) : State → Out :=
  vxOp (.vamaxh st d a e) st [.vector a] d (laneBits e) none (fun x _ _ =>
    [x.foldl (fun m y => max m (y % 2 ^ (laneBits e - 1))) 0])
def execVsel (st : BitVec 3) (d a b : BitVec 5) (e : BitVec 2) : State → Out :=
  vxOp (.vsel st d a b e) st [.vector a, .vector b, b0] d (laneBits e) (some 1) (fun x y c =>
    (List.range x.length).map (fun i => if c.testBit i then x.getD i 0 else y.getD i 0))
def execVabs (st : BitVec 3) (d a : BitVec 5) (e : BitVec 2) : State → Out :=
  vxOp (.vabs st d a e) st [.vector a] d (laneBits e) (some 1) (fun x _ _ =>
    x.map (fun y => (laneInt (laneBits e) y).natAbs))

/-- One 32-bit lane of VDOT4 (R115). -/
def dot4 (c : Nat) (x y : List Nat) : Nat :=
  (BitVec.ofInt 32 (c + (List.zipWith (fun p q => laneInt 8 p * laneInt 8 q) x y).sum)).toNat

def execVdot4 (st : BitVec 3) (d a b : BitVec 5) : State → Out :=
  compute (.vdot4 st d a b) st.toNat [.vector a, .vector b, addend d] (.vector d) none (fun _ vs =>
    joinLanes 32 ((List.range 4).map (fun j => dot4 ((lanesOf 32 (arg vs 2)).getD j 0)
      (((lanesOf 8 (arg vs 0)).drop (4 * j)).take 4) (((lanesOf 8 (arg vs 1)).drop (4 * j)).take 4))))
def execVmov (st : BitVec 3) (d a : BitVec 5) (e : BitVec 2) : State → Out :=
  compute (.vmov st d a e) st.toNat [.vector a] (.vector d) (some 1) (fun _ vs => arg vs 0)

/-! ### Conversions (R117) -/

/-- Elements of a conversion: n of them, by the wider format. -/
def cvtCount (x y : BitVec 5) : Nat := 128 / max (fmtBits x.toNat) (fmtBits y.toNat)

def cvtLanes (c : Context) (mode : Nat) (x y : BitVec 5) (sat : Bool) (v : List W64) : List (Nat × Fl) :=
  (fieldsOf (fmtBits y.toNat) (cvtCount x y) (ofWords v)).zipIdx.map (fun e =>
    convert x.toNat sat (intFmt y.toNat).isSome (c.rnd mode e.2) (valueOf y.toNat e.1))

def cvtOp (i : Instr) (st : BitVec 3) (d a x y : BitVec 5) (t : BitVec 1) (mode : Context → Nat) : State → Out :=
  computeF i st.toNat [.vector a] (.vector d) 3 mode (cvtCount x y) (fun c vs =>
    let rs := cvtLanes c (mode c) x y (t == 1) (arg vs 0)
    (joinLanes (fmtBits x.toNat) (rs.map (·.1)), orFlags rs))

def execVcvt (st : BitVec 3) (d a x y : BitVec 5) (t : BitVec 1) : State → Out :=
  cvtOp (.vcvt st d a x y t) st d a x y t Context.frm
/-- VCVTS rounds under RSR. -/
def execVcvts (st : BitVec 3) (d a x y : BitVec 5) (t : BitVec 1) : State → Out :=
  cvtOp (.vcvts st d a x y t) st d a x y t (fun _ => 5)

/-! ### Scalar floats (R118) -/

def sfFmt (t : BitVec 1) : FloatFmt := if t = 0 then ⟨11, 52, 1023, .ieee⟩ else ⟨8, 23, 127, .ieee⟩

/-- SF: lane functions on one value; an f32 operand is the low half. -/
def sfOp (i : Instr) (st : BitVec 3) (srcs : List Opnd) (d : BitVec 5) (rounds : Bool)
    (f : Rnd → Nat → Nat → Nat × Fl) : State → Out :=
  computeF i st.toNat srcs (.int d) 3 Context.frm (if rounds then 1 else 0) (fun c vs =>
    let r := f (c.rnd c.frm 0) (arg1 vs 0).toNat (arg1 vs 1).toNat
    ([BitVec.ofNat 64 r.1], r.2))

/-- The operand bits of the type. -/
def sfBits (t : BitVec 1) (x : Nat) : Nat := x % 2 ^ (sfFmt t).width

def execFadd (st : BitVec 3) (d a b : BitVec 5) (t : BitVec 1) : State → Out :=
  sfOp (.fadd st d a b t) st [.int a, .int b] d true (fun r x y => fadd (sfFmt t) r (sfBits t x) (sfBits t y))
def execFsub (st : BitVec 3) (d a b : BitVec 5) (t : BitVec 1) : State → Out :=
  sfOp (.fsub st d a b t) st [.int a, .int b] d true (fun r x y => fsub (sfFmt t) r (sfBits t x) (sfBits t y))
def execFmul (st : BitVec 3) (d a b : BitVec 5) (t : BitVec 1) : State → Out :=
  sfOp (.fmul st d a b t) st [.int a, .int b] d true (fun r x y => fmul (sfFmt t) r (sfBits t x) (sfBits t y))
def execFmin (st : BitVec 3) (d a b : BitVec 5) (t : BitVec 1) : State → Out :=
  sfOp (.fmin st d a b t) st [.int a, .int b] d false (fun _ x y => fminmax (sfFmt t) false (sfBits t x) (sfBits t y))
def execFmax (st : BitVec 3) (d a b : BitVec 5) (t : BitVec 1) : State → Out :=
  sfOp (.fmax st d a b t) st [.int a, .int b] d false (fun _ x y => fminmax (sfFmt t) true (sfBits t x) (sfBits t y))
def execFabs (st : BitVec 3) (d a : BitVec 5) (t : BitVec 1) : State → Out :=
  sfOp (.fabs st d a t) st [.int a] d false (fun _ x _ => (x % (sfFmt t).signBit, 0))

/-- A compare delivers 1 or 0. -/
def sfFlag (r : Bool × Fl) : Nat × Fl := (if r.1 then 1 else 0, r.2)

def execFceq (st : BitVec 3) (d a b : BitVec 5) (t : BitVec 1) : State → Out :=
  sfOp (.fceq st d a b t) st [.int a, .int b] d false (fun _ x y => sfFlag (fceq (sfFmt t) (sfBits t x) (sfBits t y)))
def execFclt (st : BitVec 3) (d a b : BitVec 5) (t : BitVec 1) : State → Out :=
  sfOp (.fclt st d a b t) st [.int a, .int b] d false (fun _ x y => sfFlag (fcmp (sfFmt t) false (sfBits t x) (sfBits t y)))
def execFcle (st : BitVec 3) (d a b : BitVec 5) (t : BitVec 1) : State → Out :=
  sfOp (.fcle st d a b t) st [.int a, .int b] d false (fun _ x y => sfFlag (fcmp (sfFmt t) true (sfBits t x) (sfBits t y)))
def execFcvti (st : BitVec 3) (d a : BitVec 5) (t : BitVec 1) : State → Out :=
  sfOp (.fcvti st d a t) st [.int a] d true (fun r x _ => toInt 64 true Fl.NV r ((sfFmt t).value (sfBits t x)))
def execFcvtf (st : BitVec 3) (d a : BitVec 5) (t : BitVec 1) : State → Out :=
  sfOp (.fcvtf st d a t) st [.int a] d true (fun r x _ =>
    (sfFmt t).convert false r (.fin (decide (laneInt 64 x < 0)) (laneInt 64 x).natAbs 0))
/-- FCVTW reads the other type. -/
def execFcvtw (st : BitVec 3) (d a : BitVec 5) (t : BitVec 1) : State → Out :=
  sfOp (.fcvtw st d a t) st [.int a] d true (fun r x _ =>
    (sfFmt t).convert false r ((sfFmt (1 - t)).value (sfBits (1 - t) x)))

end Sys2Proof.Machine
end

