-- ==== Sys2Proof/Machine/Sfu.lean ====
section
/-! DEFINITION. The special-function unit (R119, R120). A transcendental value is carried as a number with more than 200 correct
leading bits whose last bit stands for everything below it, so that rounding it once is the correct rounding. -/

namespace Sys2Proof.Machine

/-! ### Series in fixed point: values times 2^p -/

/-- Sum of `part k t` over the terms t of a series that ends when a term is 0. -/
def series (next : Nat → Nat → Nat) (part : Nat → Nat → Int) : Nat → Nat → Nat → Int
  | 0, _, _ => 0
  | fuel + 1, k, t => if t = 0 then 0 else part k t + series next part fuel (k + 1) (next k t)

def alternate (k : Nat) (x : Nat) : Int := if k % 2 = 0 then x else -(x : Int)

/-- e^y for 0 ≤ y < 1. -/
def expSeries (p y : Nat) : Nat :=
  (series (fun k t => t * y / 2 ^ p / (k + 1)) (fun _ t => t) 800 0 (2 ^ p)).toNat

/-- 2 atanh z for 0 ≤ z ≤ 1/3. -/
def atanhSeries (p z : Nat) : Nat :=
  (series (fun _ t => t * z / 2 ^ p * z / 2 ^ p) (fun k t => (2 * t / (2 * k + 1) : Nat)) 800 0 z).toNat

def ln2Fix (p : Nat) : Nat := atanhSeries p (2 ^ p / 3)

/-- arctan (1/n). -/
def atanInv (p n : Nat) : Int :=
  series (fun _ t => t / (n * n)) (fun k t => alternate k (t / (2 * k + 1))) 800 0 (2 ^ p / n)

/-- π by Machin's formula. -/
def piFix (p : Nat) : Nat := (4 * (4 * atanInv p 5 - atanInv p 239)).toNat

/-- sin y for 0 ≤ y ≤ π/2. -/
def sinSeries (p y : Nat) : Nat :=
  (series (fun k t => t * y / 2 ^ p * y / 2 ^ p / ((2 * k + 2) * (2 * k + 3))) alternate 800 0 y).toNat

/-- The sum of the series of erf x · √π / 2. -/
def erfSeries (p x : Nat) : Nat :=
  (series (fun k t => t * x / 2 ^ p * x / 2 ^ p / (k + 1)) (fun k t => alternate k (t / (2 * k + 1))) 800 0 x).toNat

/-- The integer square root, bit by bit. -/
def isqrt (n bits : Nat) : Nat :=
  (List.range bits).foldl (fun r i => if (r + 2 ^ (bits - 1 - i)) * (r + 2 ^ (bits - 1 - i)) ≤ n then r + 2 ^ (bits - 1 - i) else r) 0

/-! ### Values -/

/-- v · 2^−p, not exact: 64 guard bits go and the last bit stands for what lies below. -/
def inexact (neg : Bool) (v p : Nat) : Num := .fin neg (2 * (v / 2 ^ 64) + 1) (63 - (p : Int))

/-- m · 2^e in fixed point. -/
def fix (m : Nat) (e : Int) (p : Nat) : Nat := if 0 ≤ e + p then m * 2 ^ (e + p).toNat else m / 2 ^ (-(e + p)).toNat

/-- The power of two just above m · 2^e. -/
def topOf (m : Nat) (e : Int) : Int := e + (Nat.log2 m : Nat) + 1

/-- Working bits for an operand that may be small. -/
def workBits (m : Nat) (e : Int) : Nat := 320 + 2 * (-(topOf m e)).toNat

def isInteger (m : Nat) (e : Int) : Bool := decide (0 ≤ e) || m % 2 ^ (-e).toNat == 0

/-- 1/x of a nonzero m · 2^e, with a last bit for the remainder. -/
def rcpNum (neg : Bool) (m : Nat) (e : Int) : Num :=
  .fin neg (2 * (2 ^ 128 / m) + (if 2 ^ 128 % m = 0 then 0 else 1)) (-e - 129)

/-- m · 2^e with an even exponent. -/
def evenExp (m : Nat) (e : Int) : Nat × Int := if e % 2 = 0 then (m, e) else (2 * m, e - 1)

def sqrtNum (m : Nat) (e : Int) : Num :=
  let (m, e) := evenExp m e
  let r := isqrt (m * 2 ^ 128) 130
  .fin false (2 * r + (if r * r = m * 2 ^ 128 then 0 else 1)) (e / 2 - 65)

def rsqrtNum (m : Nat) (e : Int) : Num :=
  let (m, e) := evenExp m e
  let q := 2 ^ 256 / m
  let r := isqrt q 130
  .fin false (2 * r + (if 2 ^ 256 % m = 0 ∧ r * r = q then 0 else 1)) (-(e / 2) - 129)

/-- 2^x; from 2^10 on the size of x makes no difference. -/
def exp2Num (neg : Bool) (m : Nat) (e : Int) : Num :=
  if 10 < topOf m e then .fin false 1 (if neg then -1000 else 1000)
  else if isInteger m e then
    let n : Int := fix m e 0
    .fin false 1 (if neg then -n else n)
  else
    let p := workBits m e
    let x : Int := if neg then -(fix m e p : Int) else fix m e p
    let y := (x % 2 ^ p).toNat
    match inexact false (expSeries p (y * ln2Fix p / 2 ^ p)) p with
    | .fin s v q => .fin s v (q + x / 2 ^ p)
    | z => z

/-- log2 of a positive value: k + log2 f with f in (3/4, 3/2]. -/
def log2Num (m : Nat) (e : Int) : Num :=
  let n := Nat.log2 m
  if m = 2 ^ n then .fin (decide (e + n < 0)) (e + n).natAbs 0
  else
    let n := if 3 * 2 ^ n < 2 * m then n + 1 else n
    let k : Int := e + n
    let p := 448
    let below := decide (m < 2 ^ n)
    let d := if below then 2 ^ n - m else m - 2 ^ n
    let l : Int := atanhSeries p (d * 2 ^ p / (m + 2 ^ n)) * 2 ^ p / ln2Fix p
    let v := k * 2 ^ p + (if below then -l else l)
    inexact (decide (v < 0)) v.natAbs p

/-- sin (π t) for t = x / 2^p in [0, 2), exact where it is 0 or ±1. -/
def sinPi (neg : Bool) (x p : Nat) : Num :=
  let flip := decide (2 ^ p ≤ x)
  let x := x % 2 ^ p
  let x := if 2 ^ p < 2 * x then 2 ^ p - x else x
  if 2 * x = 2 ^ p then .fin (neg != flip) 1 0
  else inexact (neg != flip) (sinSeries p (x * piFix p / 2 ^ p)) p

def sinpNum (neg : Bool) (m : Nat) (e : Int) : Num :=
  sinPi neg (fix m e (workBits m e) % 2 ^ (workBits m e + 1)) (workBits m e)

/-- cos (π x) = sin (π (|x| + 1/2)). -/
def cospNum (m : Nat) (e : Int) : Num :=
  let p := workBits m e
  sinPi false ((fix m e p + 2 ^ (p - 1)) % 2 ^ (p + 1)) p

def nearOne (neg : Bool) : Num := .fin neg (2 ^ 300 - 1) (-300)

/-- tanh x = (e^2x − 1) / (e^2x + 1). -/
def tanhNum (neg : Bool) (m : Nat) (e : Int) : Num :=
  if 7 < topOf m e then nearOne neg
  else
    let p := workBits m e + 256
    let x := 2 * fix m e p
    let t := expSeries p (x % ln2Fix p) * 2 ^ (x / ln2Fix p)
    inexact neg ((t - 2 ^ p) * 2 ^ p / (t + 2 ^ p)) p

def erfNum (neg : Bool) (m : Nat) (e : Int) : Num :=
  if 3 < topOf m e then nearOne neg
  else
    let p := workBits m e + 256
    inexact neg (2 * erfSeries p (fix m e p) * 2 ^ p / isqrt (piFix p * 2 ^ p) (p + 2)) p

/-- The functions of R119. -/
inductive SfuFn where
  | rcp | rsq | sqrt | exp2 | log2 | sinp | cosp | tanh | erf
  deriving DecidableEq, Repr

/-- The value of a function, or none for the NaN its table creates (R119). DESIGN CHOICE (log 63): FERF of −0 is −0. -/
def SfuFn.value (g : SfuFn) (x : Num) : Option Num :=
  match g, x with
  | _, .nan p s => some (.nan p s)
  | .rcp, .inf n => some (.fin n 0 0)
  | .rcp, .fin n m e => some (if m = 0 then .inf n else rcpNum n m e)
  | .rsq, .inf n => if n then none else some (.fin false 0 0)
  | .rsq, .fin n m e => if m = 0 then some (.inf n) else if n then none else some (rsqrtNum m e)
  | .sqrt, .inf n => if n then none else some (.inf false)
  | .sqrt, .fin n m e => if m = 0 then some (.fin n 0 0) else if n then none else some (sqrtNum m e)
  | .exp2, .inf n => some (if n then .fin false 0 0 else .inf false)
  | .exp2, .fin n m e => some (if m = 0 then .fin false 1 0 else exp2Num n m e)
  | .log2, .inf n => if n then none else some (.inf false)
  | .log2, .fin n m e => if m = 0 then some (.inf true) else if n then none else some (log2Num m e)
  | .sinp, .inf _ => none
  | .sinp, .fin n m e => some (if isInteger m e then .fin n 0 0 else sinpNum n m e)
  | .cosp, .inf _ => none
  | .cosp, .fin _ m e =>
    some (if m = 0 then .fin false 1 0
      else if !isInteger m e && isInteger m (e + 1) then .fin false 0 0 else cospNum m e)
  | .tanh, .inf n => some (.fin n 1 0)
  | .tanh, .fin n m e => some (if m = 0 then .fin n 0 0 else tanhNum n m e)
  | .erf, .inf n => some (.fin n 1 0)
  | .erf, .fin n m e => some (if m = 0 then .fin n 0 0 else erfNum n m e)

/-- One lane: the exact value rounded once to nearest even (R119). -/
def sfuLane (g : SfuFn) (f : FloatFmt) (x : Nat) : Nat × Fl :=
  match g.value (f.value x) with
  | some v => f.convert false rne v
  | none => (f.nan (2 ^ f.pw - 1), Fl.NV)

/-! ### The unit (R120) -/

/-- The lane type of FN bit 5: f32 or bf16. -/
def sfuFmt (t : BitVec 1) : FloatFmt := if t = 1 then ⟨8, 7, 127, .ieee⟩ else ⟨8, 23, 127, .ieee⟩

def sfuResult (g : SfuFn) (t : BitVec 1) (v : List W64) : List W64 × Fl :=
  let w := (sfuFmt t).width
  let rs := (lanesOf w v).map (sfuLane g (sfuFmt t))
  (joinLanes w (rs.map (·.1)), orFlags rs)

/-- A request of the issuing context enters the queue; its number tags the destination. -/
def enqueueSfu (v : List W64) (s : State) : State :=
  { s.updHere (fun k => { k with sfu := k.sfu ++ [⟨s.cur.ctx.val, s.nextId, toV v, false⟩] }) with nextId := s.nextId + 1 }

/-- An SFU instruction: the destination awaits the result, which is delivered when the unit completes the request (R29, R120). -/
def sfuOp (g : SfuFn) (i : Instr) (st : BitVec 3) (d a : BitVec 5) (t : BitVec 1) : State → Out :=
  let srcs := [Opnd.vector a]
  let dst := Opnd.vector d
  issue i st.toNat (do
    let s ← get
    waitIf (decide (4 ≤ s.here.sfu.length)) .queue
    prepare srcs (some dst) (fun _ => [])
    upd (fun s =>
      let r := sfuResult g t (arg (s.values srcs) 0)
      raiseFlags r.2 (enqueueSfu r.1 (deliver dst (.later s.nextId) r.1 (consume srcs s)))))

def execFrcp (st : BitVec 3) (d a : BitVec 5) (t : BitVec 1) : State → Out := sfuOp .rcp (.frcp st d a t) st d a t
def execFrsq (st : BitVec 3) (d a : BitVec 5) (t : BitVec 1) : State → Out := sfuOp .rsq (.frsq st d a t) st d a t
def execFsqrt (st : BitVec 3) (d a : BitVec 5) (t : BitVec 1) : State → Out := sfuOp .sqrt (.fsqrt st d a t) st d a t
def execFexp2 (st : BitVec 3) (d a : BitVec 5) (t : BitVec 1) : State → Out := sfuOp .exp2 (.fexp2 st d a t) st d a t
def execFlog2 (st : BitVec 3) (d a : BitVec 5) (t : BitVec 1) : State → Out := sfuOp .log2 (.flog2 st d a t) st d a t
def execFsinp (st : BitVec 3) (d a : BitVec 5) (t : BitVec 1) : State → Out := sfuOp .sinp (.fsinp st d a t) st d a t
def execFcosp (st : BitVec 3) (d a : BitVec 5) (t : BitVec 1) : State → Out := sfuOp .cosp (.fcosp st d a t) st d a t
def execFtanh (st : BitVec 3) (d a : BitVec 5) (t : BitVec 1) : State → Out := sfuOp .tanh (.ftanh st d a t) st d a t
def execFerf (st : BitVec 3) (d a : BitVec 5) (t : BitVec 1) : State → Out := sfuOp .erf (.ferf st d a t) st d a t

end Sys2Proof.Machine
end

