-- ==== Sys2Proof/Machine/Dispatch.lean ====
section
/-! DEFINITION. One arm per step of the machine; each arm is one call of that step's meaning. -/

namespace Sys2Proof.Machine

def exec (i : Instr) (s : State) : Host.Outcome State Fault Refusal :=
  match i with
  | .add st w d a b => Sys2Proof.Machine.execAdd st w d a b s
  | .sub st w d a b => Sys2Proof.Machine.execSub st w d a b s
  | .and st w d a b => Sys2Proof.Machine.execAnd st w d a b s
  | .or st w d a b => Sys2Proof.Machine.execOr st w d a b s
  | .xor st w d a b => Sys2Proof.Machine.execXor st w d a b s
  | .andn st w d a b => Sys2Proof.Machine.execAndn st w d a b s
  | .orn st w d a b => Sys2Proof.Machine.execOrn st w d a b s
  | .shl st w d a b => Sys2Proof.Machine.execShl st w d a b s
  | .shr st w d a b => Sys2Proof.Machine.execShr st w d a b s
  | .sar st w d a b => Sys2Proof.Machine.execSar st w d a b s
  | .rol st w d a b => Sys2Proof.Machine.execRol st w d a b s
  | .ror st w d a b => Sys2Proof.Machine.execRor st w d a b s
  | .mul st w d a b => Sys2Proof.Machine.execMul st w d a b s
  | .mulh st w d a b => Sys2Proof.Machine.execMulh st w d a b s
  | .mulhu st w d a b => Sys2Proof.Machine.execMulhu st w d a b s
  | .div st w d a b => Sys2Proof.Machine.execDiv st w d a b s
  | .divu st w d a b => Sys2Proof.Machine.execDivu st w d a b s
  | .rem st w d a b => Sys2Proof.Machine.execRem st w d a b s
  | .remu st w d a b => Sys2Proof.Machine.execRemu st w d a b s
  | .min st w d a b => Sys2Proof.Machine.execMin st w d a b s
  | .max st w d a b => Sys2Proof.Machine.execMax st w d a b s
  | .minu st w d a b => Sys2Proof.Machine.execMinu st w d a b s
  | .maxu st w d a b => Sys2Proof.Machine.execMaxu st w d a b s
  | .ceq st w d a b => Sys2Proof.Machine.execCeq st w d a b s
  | .cne st w d a b => Sys2Proof.Machine.execCne st w d a b s
  | .clt st w d a b => Sys2Proof.Machine.execClt st w d a b s
  | .cltu st w d a b => Sys2Proof.Machine.execCltu st w d a b s
  | .cle st w d a b => Sys2Proof.Machine.execCle st w d a b s
  | .cleu st w d a b => Sys2Proof.Machine.execCleu st w d a b s
  | .sel st w d a b => Sys2Proof.Machine.execSel st w d a b s
  | .clz st w d a => Sys2Proof.Machine.execClz st w d a s
  | .ctz st w d a => Sys2Proof.Machine.execCtz st w d a s
  | .popc st w d a => Sys2Proof.Machine.execPopc st w d a s
  | .brev st w d a => Sys2Proof.Machine.execBrev st w d a s
  | .bswap st w d a => Sys2Proof.Machine.execBswap st w d a s
  | .mov st w d a => Sys2Proof.Machine.execMov st w d a s
  | .addi st w d a imm => Sys2Proof.Machine.execAddi st w d a imm s
  | .andi st w d a imm => Sys2Proof.Machine.execAndi st w d a imm s
  | .ori st w d a imm => Sys2Proof.Machine.execOri st w d a imm s
  | .xori st w d a imm => Sys2Proof.Machine.execXori st w d a imm s
  | .shli st w d a n => Sys2Proof.Machine.execShli st w d a n s
  | .shri st w d a n => Sys2Proof.Machine.execShri st w d a n s
  | .sari st w d a n => Sys2Proof.Machine.execSari st w d a n s
  | .roli st w d a n => Sys2Proof.Machine.execRoli st w d a n s
  | .ceqi st w d a imm => Sys2Proof.Machine.execCeqi st w d a imm s
  | .clti st w d a imm => Sys2Proof.Machine.execClti st w d a imm s
  | .cltui st w d a imm => Sys2Proof.Machine.execCltui st w d a imm s
  | .bfx st d a p l => Sys2Proof.Machine.execBfx st d a p l s
  | .bfi st d a p l => Sys2Proof.Machine.execBfi st d a p l s
  | .ldk st d imm => Sys2Proof.Machine.execLdk st d imm s
  | .ldkh st d imm => Sys2Proof.Machine.execLdkh st d imm s
  | .adpc st d imm => Sys2Proof.Machine.execAdpc st d imm s
  | .padd st d a b => Sys2Proof.Machine.execPadd st d a b s
  | .padde st d a b => Sys2Proof.Machine.execPadde st d a b s
  | .psube st d a b => Sys2Proof.Machine.execPsube st d a b s
  | .pfmt st d a b => Sys2Proof.Machine.execPfmt st d a b s
  | .pgetf st d a => Sys2Proof.Machine.execPgetf st d a s
  | .pgetb st d a => Sys2Proof.Machine.execPgetb st d a s
  | .pset st d a b => Sys2Proof.Machine.execPset st d a b s
  | .pstr st a b => Sys2Proof.Machine.execPstr st a b s
  | .pgeta st d a => Sys2Proof.Machine.execPgeta st d a s
  | .paddi st d a imm => Sys2Proof.Machine.execPaddi st d a imm s
  | .br st c a imm => Sys2Proof.Machine.execBr st c a imm s
  | .jmp st imm => Sys2Proof.Machine.execJmp st imm s
  | .call st imm => Sys2Proof.Machine.execCall st imm s
  | .jmpi st a => Sys2Proof.Machine.execJmpi st a s
  | .calli st a => Sys2Proof.Machine.execCalli st a s
  | .ret st => Sys2Proof.Machine.execRet st s
  | .loop st a imm => Sys2Proof.Machine.execLoop st a imm s
  | .rep st a imm => Sys2Proof.Machine.execRep st a imm s
  | .start st d a b => Sys2Proof.Machine.execStart st d a b s
  | .halt st => Sys2Proof.Machine.execHalt st s
  | .joinh st a => Sys2Proof.Machine.execJoinh st a s
  | .yield st => Sys2Proof.Machine.execYield st s
  | .saveh st d a b => Sys2Proof.Machine.execSaveh st d a b s
  | .loadh st d a b => Sys2Proof.Machine.execLoadh st d a b s
  | .resumeh st d a => Sys2Proof.Machine.execResumeh st d a s
  | .killh st d a => Sys2Proof.Machine.execKillh st d a s
  | .hstat st d a => Sys2Proof.Machine.execHstat st d a s
  | .upret st => Sys2Proof.Machine.execUpret st s
  | .nop st => Sys2Proof.Machine.execNop st s
  | .trap st a => Sys2Proof.Machine.execTrap st a s
  | .eret st => Sys2Proof.Machine.execEret st s
  | .gets st d a => Sys2Proof.Machine.execGets st d a s
  | .puts st a b => Sys2Proof.Machine.execPuts st a b s
  | .fence st a => Sys2Proof.Machine.execFence st a s
  | .ifence st => Sys2Proof.Machine.execIfence st s
  | .waita st d a b => Sys2Proof.Machine.execWaita st d a b s
  | .fflag st a b => Sys2Proof.Machine.execFflag st a b s
  | .brk st => Sys2Proof.Machine.execBrk st s
  | .sleepr st d => Sys2Proof.Machine.execSleepr st d s
  | .tinv st a b => Sys2Proof.Machine.execTinv st a b s
  | .ld st w d b q o => Sys2Proof.Machine.execLd st w d b q o s
  | .st st w d b q o => Sys2Proof.Machine.execSt st w d b q o s
  | .ldl st w d b o => Sys2Proof.Machine.execLdl st w d b o s
  | .ldlAcq st w d b o => Sys2Proof.Machine.execLdlAcq st w d b o s
  | .ldf st d b o => Sys2Proof.Machine.execLdf st d b o s
  | .ldfe st d b o => Sys2Proof.Machine.execLdfe st d b o s
  | .stl st w d b o => Sys2Proof.Machine.execStl st w d b o s
  | .stlRel st w d b o => Sys2Proof.Machine.execStlRel st w d b o s
  | .stf st d b o => Sys2Proof.Machine.execStf st d b o s
  | .ste st d b o => Sys2Proof.Machine.execSte st d b o s
  | .ldv st w d b q o => Sys2Proof.Machine.execLdv st w d b q o s
  | .stv st w d b q o => Sys2Proof.Machine.execStv st w d b q o s
  | .ldx st d b l t o => Sys2Proof.Machine.execLdx st d b l t o s
  | .stx st d b l t u o => Sys2Proof.Machine.execStx st d b l t u o s
  | .pref st b q o => Sys2Proof.Machine.execPref st b q o s
  | .atomFadd st d a b z => Sys2Proof.Machine.execAtomFadd st d a b z s
  | .atomFand st d a b z => Sys2Proof.Machine.execAtomFand st d a b z s
  | .atomFor st d a b z => Sys2Proof.Machine.execAtomFor st d a b z s
  | .atomFxor st d a b z => Sys2Proof.Machine.execAtomFxor st d a b z s
  | .atomFmin st d a b z => Sys2Proof.Machine.execAtomFmin st d a b z s
  | .atomFmax st d a b z => Sys2Proof.Machine.execAtomFmax st d a b z s
  | .atomFminu st d a b z => Sys2Proof.Machine.execAtomFminu st d a b z s
  | .atomFmaxu st d a b z => Sys2Proof.Machine.execAtomFmaxu st d a b z s
  | .atomSwap st d a b z => Sys2Proof.Machine.execAtomSwap st d a b z s
  | .atomCas st d a b => Sys2Proof.Machine.execAtomCas st d a b s
  | .updAdd st a b t => Sys2Proof.Machine.execUpdAdd st a b t s
  | .updMin st a b t => Sys2Proof.Machine.execUpdMin st a b t s
  | .updMax st a b t => Sys2Proof.Machine.execUpdMax st a b t s
  | .updAmax st a b t => Sys2Proof.Machine.execUpdAmax st a b t s
  | .updAnd st a b t => Sys2Proof.Machine.execUpdAnd st a b t s
  | .updOr st a b t => Sys2Proof.Machine.execUpdOr st a b t s
  | .updXor st a b t => Sys2Proof.Machine.execUpdXor st a b t s
  | .pbind st a b => Sys2Proof.Machine.execPbind st a b s
  | .pstat st d a => Sys2Proof.Machine.execPstat st d a s
  | .pdrain st d a => Sys2Proof.Machine.execPdrain st d a s
  | .pord st a => Sys2Proof.Machine.execPord st a s
  | .bar st a => Sys2Proof.Machine.execBar st a s
  | .bara st d a => Sys2Proof.Machine.execBara st d a s
  | .barw st a b => Sys2Proof.Machine.execBarw st a b s
  | .elect st d a => Sys2Proof.Machine.execElect st d a s
  | .gidx st d a => Sys2Proof.Machine.execGidx st d a s
  | .gsize st d a => Sys2Proof.Machine.execGsize st d a s
  | .vadd st d a b e => Sys2Proof.Machine.execVadd st d a b e s
  | .vsub st d a b e => Sys2Proof.Machine.execVsub st d a b e s
  | .vmul st d a b e => Sys2Proof.Machine.execVmul st d a b e s
  | .vmin st d a b e => Sys2Proof.Machine.execVmin st d a b e s
  | .vmax st d a b e => Sys2Proof.Machine.execVmax st d a b e s
  | .vminu st d a b e => Sys2Proof.Machine.execVminu st d a b e s
  | .vmaxu st d a b e => Sys2Proof.Machine.execVmaxu st d a b e s
  | .vand st d a b e => Sys2Proof.Machine.execVand st d a b e s
  | .vor st d a b e => Sys2Proof.Machine.execVor st d a b e s
  | .vxor st d a b e => Sys2Proof.Machine.execVxor st d a b e s
  | .vshl st d a b e => Sys2Proof.Machine.execVshl st d a b e s
  | .vshr st d a b e => Sys2Proof.Machine.execVshr st d a b e s
  | .vsar st d a b e => Sys2Proof.Machine.execVsar st d a b e s
  | .vceq st d a b e => Sys2Proof.Machine.execVceq st d a b e s
  | .vclt st d a b e => Sys2Proof.Machine.execVclt st d a b e s
  | .vcltu st d a b e => Sys2Proof.Machine.execVcltu st d a b e s
  | .vfadd st d a b t => Sys2Proof.Machine.execVfadd st d a b t s
  | .vfsub st d a b t => Sys2Proof.Machine.execVfsub st d a b t s
  | .vfmul st d a b t => Sys2Proof.Machine.execVfmul st d a b t s
  | .vfma st d a b t => Sys2Proof.Machine.execVfma st d a b t s
  | .vfmin st d a b t => Sys2Proof.Machine.execVfmin st d a b t s
  | .vfmax st d a b t => Sys2Proof.Machine.execVfmax st d a b t s
  | .vfabs st d a t => Sys2Proof.Machine.execVfabs st d a t s
  | .vfneg st d a t => Sys2Proof.Machine.execVfneg st d a t s
  | .vfceq st d a b t => Sys2Proof.Machine.execVfceq st d a b t s
  | .vfclt st d a b t => Sys2Proof.Machine.execVfclt st d a b t s
  | .vfcle st d a b t => Sys2Proof.Machine.execVfcle st d a b t s
  | .vfrnd st d a t => Sys2Proof.Machine.execVfrnd st d a t s
  | .vfscl st d a b t => Sys2Proof.Machine.execVfscl st d a b t s
  | .vfcls st d a t => Sys2Proof.Machine.execVfcls st d a t s
  | .vsplat st d a b e => Sys2Proof.Machine.execVsplat st d a b e s
  | .vext st d a b e => Sys2Proof.Machine.execVext st d a b e s
  | .vins st d a b e => Sys2Proof.Machine.execVins st d a b e s
  | .vshuf st d a b e => Sys2Proof.Machine.execVshuf st d a b e s
  | .vrev st d a e => Sys2Proof.Machine.execVrev st d a e s
  | .vzip st d a b e => Sys2Proof.Machine.execVzip st d a b e s
  | .vunz st d a b e => Sys2Proof.Machine.execVunz st d a b e s
  | .vsumh st d a e => Sys2Proof.Machine.execVsumh st d a e s
  | .vmaxh st d a e => Sys2Proof.Machine.execVmaxh st d a e s
  | .vamaxh st d a e => Sys2Proof.Machine.execVamaxh st d a e s
  | .vsel st d a b e => Sys2Proof.Machine.execVsel st d a b e s
  | .vabs st d a e => Sys2Proof.Machine.execVabs st d a e s
  | .vdot4 st d a b => Sys2Proof.Machine.execVdot4 st d a b s
  | .vmov st d a e => Sys2Proof.Machine.execVmov st d a e s
  | .vcvt st d a x y t => Sys2Proof.Machine.execVcvt st d a x y t s
  | .vcvts st d a x y t => Sys2Proof.Machine.execVcvts st d a x y t s
  | .frcp st d a t => Sys2Proof.Machine.execFrcp st d a t s
  | .frsq st d a t => Sys2Proof.Machine.execFrsq st d a t s
  | .fsqrt st d a t => Sys2Proof.Machine.execFsqrt st d a t s
  | .fexp2 st d a t => Sys2Proof.Machine.execFexp2 st d a t s
  | .flog2 st d a t => Sys2Proof.Machine.execFlog2 st d a t s
  | .fsinp st d a t => Sys2Proof.Machine.execFsinp st d a t s
  | .fcosp st d a t => Sys2Proof.Machine.execFcosp st d a t s
  | .ftanh st d a t => Sys2Proof.Machine.execFtanh st d a t s
  | .ferf st d a t => Sys2Proof.Machine.execFerf st d a t s
  | .fadd st d a b t => Sys2Proof.Machine.execFadd st d a b t s
  | .fsub st d a b t => Sys2Proof.Machine.execFsub st d a b t s
  | .fmul st d a b t => Sys2Proof.Machine.execFmul st d a b t s
  | .fmin st d a b t => Sys2Proof.Machine.execFmin st d a b t s
  | .fmax st d a b t => Sys2Proof.Machine.execFmax st d a b t s
  | .fabs st d a t => Sys2Proof.Machine.execFabs st d a t s
  | .fceq st d a b t => Sys2Proof.Machine.execFceq st d a b t s
  | .fclt st d a b t => Sys2Proof.Machine.execFclt st d a b t s
  | .fcle st d a b t => Sys2Proof.Machine.execFcle st d a b t s
  | .fcvti st d a t => Sys2Proof.Machine.execFcvti st d a t s
  | .fcvtf st d a t => Sys2Proof.Machine.execFcvtf st d a t s
  | .fcvtw st d a t => Sys2Proof.Machine.execFcvtw st d a t s
  | .zdraw st d a b => Sys2Proof.Machine.execZdraw st d a b s
  | .zltq st d a b => Sys2Proof.Machine.execZltq st d a b s
  | .zltf st d a b => Sys2Proof.Machine.execZltf st d a b s
  | .zltz st d a b => Sys2Proof.Machine.execZltz st d a b s
  | .zfloor st d a b => Sys2Proof.Machine.execZfloor st d a b s
  | .zext st a b => Sys2Proof.Machine.execZext st a b s
  | .zlen st d a => Sys2Proof.Machine.execZlen st d a s
  | .zbits st d a b => Sys2Proof.Machine.execZbits st d a b s
  | .zmov st d a => Sys2Proof.Machine.execZmov st d a s
  | .zld st d a => Sys2Proof.Machine.execZld st d a s
  | .zst st a b => Sys2Proof.Machine.execZst st a b s
  | .sbind st a b => Sys2Proof.Machine.execSbind st a b s
  | .sfree st a => Sys2Proof.Machine.execSfree st a s
  | .rndw st d a b => Sys2Proof.Machine.execRndw st d a b s
  | .rndv st d a b => Sys2Proof.Machine.execRndv st d a b s
  | .sgen st d a => Sys2Proof.Machine.execSgen st d a s
  | .glaunch st d a b => Sys2Proof.Machine.execGlaunch st d a b s
  | .gquery st d a => Sys2Proof.Machine.execGquery st d a s
  | .cpy a b w l st => Sys2Proof.Machine.execCpy a b w l st s
  | .csetg a b => Sys2Proof.Machine.execCsetg a b s
  | .cgetg a => Sys2Proof.Machine.execCgetg a s
  | .mma a b w l st => Sys2Proof.Machine.execMma a b w l st s
  | .msetg a b => Sys2Proof.Machine.execMsetg a b s
  | .mgetg a => Sys2Proof.Machine.execMgetg a s
  | .mldc a b w l st => Sys2Proof.Machine.execMldc a b w l st s
  | .mstc a b w l st => Sys2Proof.Machine.execMstc a b w l st s
  | .mzero a w l st => Sys2Proof.Machine.execMzero a w l st s
  | .mcommit => Sys2Proof.Machine.execMcommit s
  | .mwait a => Sys2Proof.Machine.execMwait a s
  | .coll a b w l st => Sys2Proof.Machine.execColl a b w l st s
  | .cquery a => Sys2Proof.Machine.execCquery a s
  | .cabort a => Sys2Proof.Machine.execCabort a s
  | .rkovl a b w l st => Sys2Proof.Machine.execRkovl a b w l st s
  | .rkrun a b w l st => Sys2Proof.Machine.execRkrun a b w l st s
  | .rksig a b w => Sys2Proof.Machine.execRksig a b w s
  | .rkstat a => Sys2Proof.Machine.execRkstat a s
  | .rkstop a w => Sys2Proof.Machine.execRkstop a w s
  | .dwait w => Sys2Proof.Machine.execDwait w s
  | .dstat => Sys2Proof.Machine.execDstat s
  | .sli x y imm => Sys2Proof.Machine.execSli x y imm s
  | .slih x y imm => Sys2Proof.Machine.execSlih x y imm s
  | .sadd x y z => Sys2Proof.Machine.execSadd x y z s
  | .saddi x y imm => Sys2Proof.Machine.execSaddi x y imm s
  | .ssub x y z => Sys2Proof.Machine.execSsub x y z s
  | .sand x y z => Sys2Proof.Machine.execSand x y z s
  | .sor x y z => Sys2Proof.Machine.execSor x y z s
  | .sxor x y z => Sys2Proof.Machine.execSxor x y z s
  | .sshl x y z => Sys2Proof.Machine.execSshl x y z s
  | .sshr x y z => Sys2Proof.Machine.execSshr x y z s
  | .smul x y z => Sys2Proof.Machine.execSmul x y z s
  | .sclt x y z => Sys2Proof.Machine.execSclt x y z s
  | .sbz x imm => Sys2Proof.Machine.execSbz x imm s
  | .sbnz x imm => Sys2Proof.Machine.execSbnz x imm s
  | .sj imm => Sys2Proof.Machine.execSj imm s
  | .sloop x imm => Sys2Proof.Machine.execSloop x imm s
  | .cset x y c => Sys2Proof.Machine.execCset x y c s
  | .cstride x imm => Sys2Proof.Machine.execCstride x imm s
  | .cnext x => Sys2Proof.Machine.execCnext x s
  | .vld x y => Sys2Proof.Machine.execVld x y s
  | .vst x y => Sys2Proof.Machine.execVst x y s
  | .mwVadd x y z r t => Sys2Proof.Machine.execMwVadd x y z r t s
  | .mwVsub x y z r t => Sys2Proof.Machine.execMwVsub x y z r t s
  | .mwVmul x y z r t => Sys2Proof.Machine.execMwVmul x y z r t s
  | .mwVfma x y z r => Sys2Proof.Machine.execMwVfma x y z r s
  | .vscl x y z r => Sys2Proof.Machine.execVscl x y z r s
  | .mwVmax x y z r t => Sys2Proof.Machine.execMwVmax x y z r t s
  | .mwVmin x y z r t => Sys2Proof.Machine.execMwVmin x y z r t s
  | .mwVcvt x y d f p u r => Sys2Proof.Machine.execMwVcvt x y d f p u r s
  | .vspl x y => Sys2Proof.Machine.execVspl x y s
  | .kclr x => Sys2Proof.Machine.execKclr x s
  | .kadd x y t => Sys2Proof.Machine.execKadd x y t s
  | .krnd x y u r t => Sys2Proof.Machine.execKrnd x y u r t s
  | .kanc x y => Sys2Proof.Machine.execKanc x y s
  | .cbegin x y u g => Sys2Proof.Machine.execCbegin x y u g s
  | .cend x => Sys2Proof.Machine.execCend x s
  | .cshift x d c z f g => Sys2Proof.Machine.execCshift x d c z f g s
  | .cxpose x d c z f g => Sys2Proof.Machine.execCxpose x d c z f g s
  | .ca2a x d c z f g => Sys2Proof.Machine.execCa2a x d c z f g s
  | .cred x d c z o f g => Sys2Proof.Machine.execCred x d c z o f g s
  | .crsc x d c z o f g => Sys2Proof.Machine.execCrsc x d c z o f g s
  | .cgath x d c z f g => Sys2Proof.Machine.execCgath x d c z f g s
  | .cbcast x d c z f g => Sys2Proof.Machine.execCbcast x d c z f g s
  | .cbar x g => Sys2Proof.Machine.execCbar x g s
  | .msgo y => Sys2Proof.Machine.execMsgo y s
  | .msgi x => Sys2Proof.Machine.execMsgi x s
  | .ovsw imm => Sys2Proof.Machine.execOvsw imm s
  | .mwHalt => Sys2Proof.Machine.execMwHalt s
  | .resultDelivery core ctx => Sys2Proof.Machine.execResultDelivery core ctx s
  | .instructionFetchReturn core ctx => Sys2Proof.Machine.execInstructionFetchReturn core ctx s
  | .pageWalk core vd va k => Sys2Proof.Machine.execPageWalk core vd va k s
  | .translationAck core ctx => Sys2Proof.Machine.execTranslationAck core ctx s
  | .dupRevocation vd va => Sys2Proof.Machine.execDupRevocation vd va s
  | .faultRingEntry vd => Sys2Proof.Machine.execFaultRingEntry vd s
  | .pagerAnswer vd n => Sys2Proof.Machine.execPagerAnswer vd n s
  | .pagerReply core ctx v => Sys2Proof.Machine.execPagerReply core ctx v s
  | .upcallDelivery core => Sys2Proof.Machine.execUpcallDelivery core s
  | .pagerNotice core v => Sys2Proof.Machine.execPagerNotice core v s
  | .tinvComplete core ctx => Sys2Proof.Machine.execTinvComplete core ctx s
  | .portWordArrival n => Sys2Proof.Machine.execPortWordArrival n s
  | .waitaReread core ctx => Sys2Proof.Machine.execWaitaReread core ctx s
  | .sfuRequestComplete core => Sys2Proof.Machine.execSfuRequestComplete core s
  | .engineCommandStart core => Sys2Proof.Machine.execEngineCommandStart core s
  | .cpyCompletion core => Sys2Proof.Machine.execCpyCompletion core s
  | .muCommandStart mg => Sys2Proof.Machine.execMuCommandStart mg s
  | .mxCommandComplete mg => Sys2Proof.Machine.execMxCommandComplete mg s
  | .commandRingDispatch vd n => Sys2Proof.Machine.execCommandRingDispatch vd n s
  | .courseOpen id => Sys2Proof.Machine.execCourseOpen id s
  | .memberReady id member => Sys2Proof.Machine.execMemberReady id member s
  | .keystone id => Sys2Proof.Machine.execKeystone id s
  | .courseCancel id => Sys2Proof.Machine.execCourseCancel id s
  | .keystoneInvalidationDone id => Sys2Proof.Machine.execKeystoneInvalidationDone id s
  | .memberLoss rank => Sys2Proof.Machine.execMemberLoss rank s
  | .courseTimeout id => Sys2Proof.Machine.execCourseTimeout id s
  | .collDeadline vd n => Sys2Proof.Machine.execCollDeadline vd n s
  | .collCompletion vd n => Sys2Proof.Machine.execCollCompletion vd n s
  | .rkovlCompletion vd n => Sys2Proof.Machine.execRkovlCompletion vd n s
  | .rkrunCompletion vd n => Sys2Proof.Machine.execRkrunCompletion vd n s
  | .rksigMailboxDelivery rank => Sys2Proof.Machine.execRksigMailboxDelivery rank s
  | .cbarTimeout rank => Sys2Proof.Machine.execCbarTimeout rank s
  | .outsideAccessArrival rank row col wr len data => Sys2Proof.Machine.execOutsideAccessArrival rank row col wr len data s
  | .rankCheckTimer rank => Sys2Proof.Machine.execRankCheckTimer rank s
  | .bankReturn rank => Sys2Proof.Machine.execBankReturn rank s
  | .bankRefresh rank => Sys2Proof.Machine.execBankRefresh rank s
  | .channelPowerDown ch => Sys2Proof.Machine.execChannelPowerDown ch s
  | .channelWake ch => Sys2Proof.Machine.execChannelWake ch s
  | .launchDoorbell vd q va => Sys2Proof.Machine.execLaunchDoorbell vd q va s
  | .hostApertureAccess vd wr va len data => Sys2Proof.Machine.execHostApertureAccess vd wr va len data s
  | .launchStart vd q => Sys2Proof.Machine.execLaunchStart vd q s
  | .terminationSweep vd q node => Sys2Proof.Machine.execTerminationSweep vd q node s
  | .rankNodeEnd vd q node => Sys2Proof.Machine.execRankNodeEnd vd q node s
  | .preemption core => Sys2Proof.Machine.execPreemption core s
  | .coreResumption vd origin core => Sys2Proof.Machine.execCoreResumption vd origin core s
  | .create vd arg => Sys2Proof.Machine.execCreate vd arg s
  | .stop vd arg => Sys2Proof.Machine.execStop vd arg s
  | .equinoxStop vd => Sys2Proof.Machine.execEquinoxStop vd s
  | .resume vd arg => Sys2Proof.Machine.execResume vd arg s
  | .reset vd arg => Sys2Proof.Machine.execReset vd arg s
  | .teardown vd arg => Sys2Proof.Machine.execTeardown vd arg s
  | .keygen vd arg => Sys2Proof.Machine.execKeygen vd arg s
  | .keykill vd arg => Sys2Proof.Machine.execKeykill vd arg s
  | .permissionEntryWrite bd e v => Sys2Proof.Machine.execPermissionEntryWrite bd e v s
  | .windowEntryWrite vd w v => Sys2Proof.Machine.execWindowEntryWrite vd w v s
  | .rankEnableMapWrite bd w v => Sys2Proof.Machine.execRankEnableMapWrite bd w v s
  | .registerWrite off v => Sys2Proof.Machine.execRegisterWrite off v s
  | .attach => Sys2Proof.Machine.execAttach s
  | .detach => Sys2Proof.Machine.execDetach s
  | .debugHalt => Sys2Proof.Machine.execDebugHalt s
  | .debugResume => Sys2Proof.Machine.execDebugResume s
  | .debugStep => Sys2Proof.Machine.execDebugStep s
  | .debugRead => Sys2Proof.Machine.execDebugRead s
  | .debugWrite => Sys2Proof.Machine.execDebugWrite s
  | .vigilCollapse vd => Sys2Proof.Machine.execVigilCollapse vd s
  | .wake vd => Sys2Proof.Machine.execWake vd s
  | .linkPortWake port => Sys2Proof.Machine.execLinkPortWake port s
  | .uncorrectableError e => Sys2Proof.Machine.execUncorrectableError e s
  | .patrolScrub rank row found => Sys2Proof.Machine.execPatrolScrub rank row found s
  | .spareSubstitution u => Sys2Proof.Machine.execSpareSubstitution u s
  | .bankMigration rank => Sys2Proof.Machine.execBankMigration rank s
  | .almanacWrite => Sys2Proof.Machine.execAlmanacWrite s
  | .powerGood => Sys2Proof.Machine.execPowerGood s
  | .powerManagerAdjust mustep rclk tj power => Sys2Proof.Machine.execPowerManagerAdjust mustep rclk tj power s
  | .thermalTrip => Sys2Proof.Machine.execThermalTrip s
  | .getVersion iface => Sys2Proof.Machine.execGetVersion iface s
  | .getCapabilities iface => Sys2Proof.Machine.execGetCapabilities iface s
  | .negotiateAlgorithms iface => Sys2Proof.Machine.execNegotiateAlgorithms iface s
  | .getDigests iface => Sys2Proof.Machine.execGetDigests iface s
  | .getCertificate iface off len => Sys2Proof.Machine.execGetCertificate iface off len s
  | .challenge iface nonce => Sys2Proof.Machine.execChallenge iface nonce s
  | .getMeasurements iface index nonce => Sys2Proof.Machine.execGetMeasurements iface index nonce s
  | .keyExchange iface share => Sys2Proof.Machine.execKeyExchange iface share s
  | .finish iface mac => Sys2Proof.Machine.execFinish iface mac s
  | .endSession iface => Sys2Proof.Machine.execEndSession iface s
  | .read p => Sys2Proof.Machine.execRead p s
  | .readResp p => Sys2Proof.Machine.execReadResp p s
  | .write p => Sys2Proof.Machine.execWrite p s
  | .atomic p => Sys2Proof.Machine.execAtomic p s
  | .atomicResp p => Sys2Proof.Machine.execAtomicResp p s
  | .update p => Sys2Proof.Machine.execUpdate p s
  | .ack p => Sys2Proof.Machine.execAck p s
  | .nack p => Sys2Proof.Machine.execNack p s
  | .step p => Sys2Proof.Machine.execStep p s
  | .stepRed p => Sys2Proof.Machine.execStepRed p s
  | .stepRes p => Sys2Proof.Machine.execStepRes p s
  | .keepalive p => Sys2Proof.Machine.execKeepalive p s
  | .keepaliveSend => Sys2Proof.Machine.execKeepaliveSend s
  | .packageLoss pkg => Sys2Proof.Machine.execPackageLoss pkg s
  | .homeAcknowledgement core ctx => Sys2Proof.Machine.execHomeAcknowledgement core ctx s
  | .pbindAcknowledgement core ctx => Sys2Proof.Machine.execPbindAcknowledgement core ctx s
  | .deviceDma wr pa len data => Sys2Proof.Machine.execDeviceDma wr pa len data s
  | .applicationCoreAccess op => Sys2Proof.Machine.execApplicationCoreAccess op s
  | .drainTimeout vd => Sys2Proof.Machine.execDrainTimeout vd s
  | .powerLoss => Sys2Proof.Machine.execPowerLoss s
  | .flashUpdateCommand slot img => Sys2Proof.Machine.execFlashUpdateCommand slot img s
  | .configurationRequest fn reg => Sys2Proof.Machine.execConfigurationRequest fn reg s
  | .linkKeyReplacement domain src dst => Sys2Proof.Machine.execLinkKeyReplacement domain src dst s

end Sys2Proof.Machine
end

