-- ==== Sys2Proof/Machine/Turns.lean ====
section
/-! DEFINITION. One cycle of a core (R28, R29, R92, R99, R285), one instruction of a rank (R189 to R194), and the turns of the
agenda (log 3). -/

namespace Sys2Proof.Machine

/-! ### A core -/

/-- A cell of the context waits for a value that never comes. -/
def Context.awaits (c : Context) (tag : Nat) : Bool :=
  c.belt.any (·.waitsFor tag) || c.btail.waitsFor tag || c.vbelt.any (·.waitsFor tag) || c.vtail.waitsFor tag ||
    c.n.toList.any (·.waitsFor tag) || c.a.toList.any (·.waitsFor tag)

/-- The MCHK that is due at this boundary: an engine's, or one whose destination was written or dropped (R162, R342). -/
def Context.mchkDue (c : Context) : Option W64 := c.mchk.or ((c.poison.find? (fun p => !c.awaits p.1)).map (·.2))

/-- The context without that MCHK. -/
def Context.mchkTaken (c : Context) : Context :=
  if c.mchk.isSome then { c with mchk := none }
  else match c.poison.find? (fun p => !c.awaits p.1) with
    | some p => { c with poison := c.poison.erase p }
    | none => c

/-- A fetched word is decoded and issues; a word no instruction owns is illegal (R58, R74). -/
def runWord (w : Word) (s : State) : Out :=
  match decodeSoras w with
  | .ok i => exec i s
  | .error _ => .next (takeTrap Cause.ill (w.zeroExtend 64) s.me.pc s)

/-- A context tries to issue. -/
def tryContext (c x : Nat) (s : State) : Out :=
  let s := actAs c x s
  match s.me.mchkDue with
  | some a => .next (takeTrap Cause.mchk a s.me.pc ((s.withdrawAll c x).updMe (·.mchkTaken)))
  | none =>
    match nextWord s with
    | .error e => .next (stopAt s e)
    | .ok (w, t) => runWord w t

/-- The context has taken the cycle: the rotation goes on from it unless the slot was an upcall's, and no YIELD and no queue of sends
waits for it any more (R92, R153). -/
def issued (c x : Nat) (upslot : Bool) (s : State) : State :=
  ({ s with sendq := s.sendq.filter (fun w => !(w.core == c && w.ctx == x)) } : State).updCore c (fun k =>
    { k.released x with rot := if upslot then k.rot else x })

/-- The first ready context of a list issues; one that turns out to wait leaves the cycle to the next. -/
def tryContexts (c : Nat) (upslot : Bool) : List Nat → State → Out
  | [], s => .next s
  | x :: r, s =>
    if (s.ctx c x).eligible (s.core c).clock then
      match tryContext c x s with
      | .next t => if (t.ctx c x).wait.isNone then .next (issued c x upslot t) else tryContexts c false r t
      | .fault f => .fault f
      | .refused q => .refused q
    else tryContexts c false r s

/-- The rotating order (R285). -/
def rotation (rot : Nat) : List Nat := (List.range 11).map (fun i => (rot + 1 + i) % 11)

/-- The context could issue in this cycle (R285): nothing holds it, and its next instruction does not wait. -/
noncomputable def readyNow (c x : Nat) (s : State) : Bool :=
  (s.ctx c x).eligible (s.core c).clock && (match tryContext c x s with
    | .next t => (t.ctx c x).wait.isNone
    | _ => false)

/-- A YIELD that has issued in this cycle holds its context for those that were ready when the cycle began (R92). -/
noncomputable def narrowYield (c : Nat) (s0 t : State) : State :=
  let now := (s0.core c).clock
  let fresh (m : Context) : Bool := m.yield != [] && m.yieldEnd == now + 11
  if (t.core c).ctxs.toList.any fresh then
    t.updCore c (fun k => { k with ctxs := k.ctxs.map (fun (m : Context) =>
      if fresh m then { m with yield := m.yield.filter (fun y => readyNow c y s0) } else m) })
  else t

/-- The end of a cycle: YIELD is settled, and an upcall that can be delivered is (R92, R99). -/
noncomputable def endCycle (c : Nat) (s0 : State) (o : Out) : Out :=
  match o with
  | .next t =>
    let u := narrowYield c s0 t
    .next (if upcallReady u c then deliverUpcall c u else u)
  | o => o

/-- A cycle of a core begins: results through pointers that are ready are written (R29), pager notices enter p3 (R100), stores that need
not wait any more leave (R136), and the hold of a YIELD may end (R92). -/
def beginCycle (c : Nat) (s : State) : State :=
  let s1 := s.updCore c (fun k => { k with
    clock := k.clock + 1
    upslot := false
    ctxs := if k.ctxs.toList.all (·.yield.isEmpty) then k.ctxs
      else k.ctxs.map (fun (m : Context) => if m.yieldEnd ≤ k.clock + 1 then { m with yield := [] } else m) })
  let s2 := s1.flushSpm c (s1.core c).clock (fun _ => true)
  let s3 := if (s2.core c).notices.isEmpty then s2 else flushNotices c (s2.core c).notices.length s2
  (List.range 11).foldl (fun s x => drain c x s) s3

/-- One cycle of a core. Nothing issues in a core that does not run, or in a VD whose instructions may not issue (R297, R313). DESIGN CHOICE
(log 55): a pager core acts for the VD that its own state names, VD 0 from reset on. -/
noncomputable def coreTurn (c : Nat) (s : State) : Out :=
  let k := s.core c
  let s1 := beginCycle c s
  if k.mode ≠ .running ∨ (s.vd k.vd).issuing s.ring = false then .next s1
  else endCycle c s1 (tryContexts c k.upslot ((if k.upslot then [0] else []) ++ rotation k.rot) s1)

/-- A cycle that the power manager leaves idle (R14): it inserts one only when it can lower neither the MU rate nor the rank clock. DESIGN
CHOICE (log 47): an idle cycle that follows the delivery of an upcall uses up the issue slot that R285 keeps for it. -/
def idleCycle (c : Nat) (s : State) : State :=
  if bits s.power.toNat 39 32 = 2 ∧ bits s.power.toNat 47 40 = 1 then beginCycle c s else s

/-- A line leaves the L1 caches of a core: its contributions are merged (R148, R217). -/
def evictTurn (c line : Nat) (s : State) : State :=
  let s1 := ((s.core c).l1.filter (fun l => l.line == line)).foldl (fun s l => s.evictLine c l) s
  s1.updCore c (fun k => { k with icache := k.icache.filter (fun w => w.1 / 16 != line), itags := drop line k.itags })

/-- An arrival or an ELECT of a member in another package reaches the tracker of a running launch (R158, R159). -/
def farMember (vd q g m : Nat) (elect : Bool) (s : State) : State :=
  match (groupIn (s.vd vd).queues[Fin.ofNat 4 q].groups g)[m]? with
  | none => s
  | some x =>
    if bits x.toNat 31 22 = s.pkg ∨ (elect = true ∧ x.getLsbD 21 = true) then s
    else updTrackerOf vd q g (fun t => if elect then t.elect m else t.arrive m) s

/-! ### A rank -/

/-- What a waiting rank may try again by itself; a course wakes it otherwise (R194). -/
def RankWait.retries : RankWait → Bool
  | .course _ => false
  | _ => true

/-- The rank runs its next instruction (R186, R271); it does not while its bank migrates (R346). -/
def Rank.runs (k : Rank) : Bool := decide (k.state = .running) && k.wait.all (·.retries) && k.migrates.isNone

/-- The course in whose traffic a rank is (R259). -/
def Rank.inTraffic (k : Rank) : Option Nat :=
  match k.wait with
  | some (.course id) => if k.traffic && decide (k.state = .running) then some id else none
  | _ => none

/-- A word of an overlay slot; a word that no RKOVL has written is 0 (R185, R189). -/
def Rank.word (k : Rank) : Word := (lookup (k.slot.toNat * 1024 + k.upc) k.ovl).getD 0

/-- One instruction of a rank, or the fault that its word or its µPC is (R192), or one row of the traffic of its course instruction (R259).
Nothing issues for a VD that has stopped (R313). -/
noncomputable def rankTurn (r : Nat) (s : State) : Out :=
  let k := s.rank r
  if s.asleep.contains (channelOf r) || k.run.any (fun x => !(s.vd x.vd).issuing s.ring) then .next s
  else if k.inTraffic.isSome then .next (trafficRow r (k.inTraffic.getD 0) s)
  else if !k.runs then .next s
  else if 1023 < k.upc then .next (rankFault r 4 s)
  else match decodeMelwen k.word with
    | .ok i => exec i { s with cur := { s.cur with rank := r } }
    | .error _ => .next (rankFault r 7 s)

/-! ### The turns -/

/-- Nothing goes on between turns by itself. -/
def State.atRest (s : State) : Bool :=
  s.vds.all (fun e => e.2.late.isEmpty && e.2.endings.isEmpty && !e.2.walkDue && !e.2.draining && e.2.quiet.isNone) &&
    s.ranks.all (fun e => e.2.pending.isEmpty) && s.vdStat != 1

/-- What goes on between turns: accesses that a free bank can serve are (R371); words of the device that nothing holds back any more leave,
and what waited for them ends (R283, R284); decisions that were due are made (R278); a VD that was reset has drained, and a command that
waited completes (R306, R316); a quiescence that is broken begins anew (R335). -/
def housekeep (s : State) : State :=
  if s.atRest then s
  else
    let s1 := s.ranks.foldl (fun s e => if e.2.pending.isEmpty then s else settleBank e.1 s) s
    let s2 := (s1.vds.map (·.1)).foldl (fun s vd => settleVd vd s) s1
    let s3 := (s2.vds.map (·.1)).foldl (fun s vd => drainDone vd s) s2
    breakQuiet (settleOp s3)

/-- The end of a turn. -/
def endTurn : Out → Out
  | .next s => .next (housekeep s)
  | o => o

/-- One turn (log 3). A package that is not ready issues nothing (R349, R358). -/
noncomputable def takeTurn (t : Turn) (s : State) : Out :=
  match t with
  | .core c => if 4224 ≤ c then .fault .noSuchAgent else if s.boot = .ready then endTurn (coreTurn c s) else .next s
  | .rank r => if 8192 ≤ r then .fault .noSuchAgent else if s.boot = .ready then endTurn (rankTurn r s) else .next s
  | .event i => if bootAllows s.boot i then endTurn (exec i s) else .next s
  | .pass ns => .next (housekeep (advanceTo ((bootNext s).ring + ns) (bootNext s)))
  | .idle c => if 4224 ≤ c then .fault .noSuchAgent else .next (if s.boot = .ready then idleCycle c s else s)
  | .evict c line => .next (if s.boot = .ready then evictTurn c line s else s)
  | .far vd q g m elect => .next (if s.boot = .ready then farMember vd q g m elect s else s)
  | .corrected u => .next (if s.boot = .ready then correctedError u s else s)
  | .failed c line => .next (if s.boot = .ready then failedLine c line s else s)
  | .result vd q => .next (if s.boot = .ready then readResult vd q s else s)
  | .manage off => .next (if s.boot = .ready then readManage off s else s)
  | .msix vd on => .next (if s.boot = .ready then enableMsix vd on s else s)

end Sys2Proof.Machine
end

