-- ==== Sys2Proof/Machine/Step.lean ====
section
/-! DEFINITION. The step of the package: the first turn of the agenda; an empty agenda gives the core that issued last its
turn (log 3). -/

namespace Sys2Proof.Machine

noncomputable def step (s : State) : Host.Outcome State Fault Refusal :=
  match s.agenda with
  | [] => takeTurn (.core s.cur.core) s
  | t :: r => takeTurn t { s with agenda := r }

/-- The instruction stands where the next step fetches (log 8): a legal Soras word in the instruction cache of core 0 at the
program counter of its control context, which runs; any other word in overlay slot 0 of rank 0, which runs. -/
def State.withFetchWord (s : State) (nbits w : Nat) : State :=
  let x : Word := BitVec.ofNat 32 (w % 2 ^ nbits)
  match decodeSoras x with
  | .ok _ =>
    { s.updCore 0 (fun k => { k with
        mode := .running, upslot := false, rot := 10
        icache := put ((k.ctx 0).pc.toNat / 4) x k.icache
        ctxs := k.ctxs.set 0 { k.ctx 0 with status := .live, dhalt := false, rep := none, bound := 0 } }) with
      boot := .ready, agenda := [.core 0] }
  | .error _ =>
    { s.updRank 0 (fun k => { k with
        state := .running, wait := none, ovl := put (k.slot.toNat * 1024 + k.upc) x k.ovl }) with
      boot := .ready, agenda := [.rank 0] }

end Sys2Proof.Machine
end

