-- ==== Sys2Proof/Safety.lean ====
section
/-! DEFINITION. What a safe run is, and the terms the statements use. -/

namespace Sys2Proof.Machine

/-- The memories keep their canonical form: the package's, and every core's scratchpad and tile partition. -/
def State.MemWf (s : State) : Prop :=
  Memory.wf s.mem = true ∧ ∀ e ∈ s.cores, Memory.wf e.2.spm = true ∧ Memory.wf e.2.tile = true

/-- As `MemWf`, for the cores that are saved too. -/
def State.Form (s : State) : Prop :=
  s.MemWf ∧ ∀ v ∈ s.vds, ∀ e ∈ v.2.saved, Memory.wf e.2.spm = true ∧ Memory.wf e.2.tile = true

/-- The step goes on: no fault and no refusal. -/
def State.Goes (s : State) : Prop := ∃ t, step s = .next t

/-- Every one of the first n steps goes on. -/
def State.Safe (n : Nat) (s : State) : Prop := ∃ t, Sys2Proof.core.run n s = .next t

/-! ### When a Soras instruction has its own effect -/

/-- Steps 1 to 3 of R74 let the word through: it is legal, its feature is present, its mode may issue it. -/
def State.Admits (s : State) (i : Instr) : Prop := gateOf i s = none

/-- Nothing holds the operands back (R25, R29) and nothing about them traps (R24, R30, R74, R342). -/
structure State.Clear (s : State) (srcs : List Opnd) (dst : Option Opnd) : Prop where
  free  : s.waitOf srcs dst = none
  sound : ∀ o ∈ srcs, s.poisoned o = none
  sized : s.undersizedCode srcs dst = none
  traps : s.opCandsFrom [] (srcs ++ dst.toList) = []
  spm   : s.badOperand [] srcs = none

/-- Under `ok`, with clear operands, the instruction completes: it makes `T` of the state and retires. -/
def Completes (i : Instr) (stall : Nat) (srcs : List Opnd) (dst : Option Opnd) (ok : State → Prop) (T : State → State) :
    Prop :=
  ∀ s : State, s.Admits i → s.Clear srcs dst → ok s → exec i s = .next (retire stall (T s))

/-- No condition beyond clear operands. -/
def always (_ : State) : Prop := True

/-- A result that is ready `l` cycles after issue, 3 at least through a pointer (R29). -/
def after (srcs : List Opnd) (l : Nat) (s : State) : Ready := .fixed (s.now + latency srcs l)

/-- An interlocked result that the model delivers at once (R28). -/
def atOnce (_ : State) : Ready := .now

/-- The instruction pops and advances its operands and delivers `f` of their values to `d`, ready as `r` says. -/
def gives (srcs : List Opnd) (d : Opnd) (r : State → Ready) (f : State → List (List W64) → List W64) (s : State) : State :=
  deliver d (r s) (f s (s.values srcs)) (consume srcs s)

/-- The instruction computes `f` of its operands into `d`, whatever clear operands it has. -/
def Computes (i : Instr) (stall : Nat) (srcs : List Opnd) (d : Opnd) (r : State → Ready)
    (f : State → List (List W64) → List W64) : Prop :=
  Completes i stall srcs (some d) always (gives srcs d r f)

/-- As `Computes`, for a floating-point instruction: under rounding mode `mode` it uses `n` stream words when the mode is RSR,
and ORs the events of its operations into $flags (R47, R53). -/
def ComputesF (i : Instr) (stall : Nat) (srcs : List Opnd) (d : Opnd) (r : State → Ready) (mode : Context → Nat) (n : Nat)
    (f : Context → List (List W64) → List W64 × Fl) : Prop :=
  Completes i stall srcs (some d) (fun s => n = 0 ∨ mode s.me ≠ 5 ∨ s.me.srHandle.bound = true) (fun s =>
    useWords (mode s.me) n (raiseFlags (f s.me (s.values srcs)).2
      (deliver d (r s) (f s.me (s.values srcs)).1 (consume srcs s))))

/-- A function of two operands, part by part (R23). -/
def byParts (f : W64 → W64 → W64) (_ : State) (vs : List (List W64)) : List W64 := List.zipWith f (arg vs 0) (arg vs 1)

/-- A function of one operand, part by part. -/
def eachPart (f : W64 → W64) (_ : State) (vs : List (List W64)) : List W64 := (arg vs 0).map f

/-- One word from the first words of the operands. -/
def oneWord (f : W64 → W64 → W64) (_ : State) (vs : List (List W64)) : List W64 := [f (arg1 vs 0) (arg1 vs 1)]

/-- An access of `len` bytes translates to bytes at home in this package, the changes of the walk and of the L1 leaving `t`, and no
watchpoint of the core matches it (R135, R287, R357). `alloc` says that a load may allocate its lines; `u` is the type and op of an update. -/
def State.ReachesHome (s : State) (va len : Nat) (k : AccessKind) (rd wr : Bool) (ps : List Place) (t : State) (alloc : Bool := true)
    (u : Option (Nat × Nat) := none) : Prop :=
  reach va len k alloc u s = .ok (.home ps, t) ∧ t.here.watchHit va len rd wr = none

/-- A store of the context to bytes at home is performed as it issues: no acquire and no earlier access of it to its bytes is still to be
performed, and every bank takes a write now (R136, R255, R371). -/
def State.StoresNow (t : State) (ps : List Place) : Prop := t.before (.home ps) = [] ∧ t.busy (.write []) ps = false

/-- Every access of the context has been performed and acknowledged (R106, R110): none to another package, parked, under way to a
destination or to a pointer (R29), and no contribution of its core on its way to a bank (R148). -/
def State.AllPerformed (s : State) : Prop :=
  s.me.unacked = 0 ∧ s.me.remote = [] ∧ s.me.parked = [] ∧ s.me.loads = [] ∧ (∀ w ∈ s.here.spmDue, w.ctx ≠ s.cur.ctx.val) ∧
    ∀ e ∈ s.ranks, ∀ q ∈ e.2.pending, q.user ≠ .merge s.cur.core

/-- What an action of the device made of its state: `t`, or, where bytes that it reads lie in a bank that a rank holds, the state as it was
with a window asked for there (R371). -/
def State.served (t s : State) : State := if t.stalled = [] then t else (s.wakeBanks t.stalled).askWindow 0 t.stalled

/-- No action of the device has met a bank that is held. -/
def State.afresh (s : State) : State := { s with stalled := [] }

/-- Nothing holds a local access of `len` bytes at `off` of core c back, and its bytes are sound and the VD's own (R29, R136, R216, R342). -/
def State.LocalNow (s : State) (c off len : Nat) : Prop :=
  s.before (.spm c off len) = [] ∧ (s.core c).vd = s.here.vd ∧
    ∀ x ∈ (s.core c).bad, 8 * x + 8 ≤ off ∨ off + len ≤ 8 * x

/-! ### Frames -/

/-- Everything but the issuing core, the port words on their way and the transients of the instruction is as it was. -/
structure SameElsewhere (s t : State) : Prop where
  cores : ∀ c, c ≠ s.cur.core → t.core c = s.core c
  rest  : { t with cores := s.cores, inflight := s.inflight, banks := s.banks, collisions := s.collisions, target := s.target } = s

/-- In the issuing core, all but the context that issues, scratchpad bytes, results on their way there and the port word count is as it
was. -/
structure SameCore (s t : State) : Prop where
  ctxs : ∀ x : Fin 11, x ≠ s.cur.ctx → t.here.ctxs[x] = s.here.ctxs[x]
  rest : { t.here with ctxs := s.here.ctxs, spm := s.here.spm, spmDue := s.here.spmDue, bad := s.here.bad, sent := s.here.sent } = s.here

/-- In a context, all but the belts, n0–n7, a0–a3, the port queues and how it continues is as it was: the mode and status
registers, the flags, the strides, lazy registers, handles, slots, geometry and trap registers among them. -/
def SameContext (c e : Context) : Prop :=
  { e with belt := c.belt, btail := c.btail, vbelt := c.vbelt, vtail := c.vtail, n := c.n, a := c.a, ports := c.ports,
           pc := c.pc, rep := c.rep, bound := c.bound, wait := c.wait, hold := c.hold, ask := c.ask, answer := c.answer,
           dstep := c.dstep, dhalt := c.dhalt, reason := c.reason } = c

/-- The operand names register n_j as one of `k` words. -/
def Opnd.namesReg (o : Opnd) (k : Nat) (j : Fin 8) : Prop := o.isReg = true ∧ ∃ i < k, regIx (o.code - 16 + i) = j

/-- The operand advances, or names, pointer register a_j. -/
def Opnd.namesPtr (o : Opnd) (j : Fin 4) : Prop :=
  (o.isPtr = true ∧ ptrIx (o.code - 28) = j) ∨ (o.isAreg = true ∧ ptrIx (o.code - 32) = j)

/-- What an instruction with these operands leaves unchanged when it delivers `k` words to `d`: every register that no operand
names as a destination, an advanced pointer or a popped port, and every scratchpad byte outside the bytes it stores, which
start at the pointer that `d` goes through, as the sources have left it. Bytes that are ready later (R29) are the same bytes, on their
way. -/
structure DeliverFrame (srcs : List Opnd) (d : Opnd) (k : Nat) (s t : State) : Prop where
  elsewhere : SameElsewhere s t
  core : SameCore s t
  context : SameContext s.me t.me
  belts : d.code ≠ 0 → t.me.belt = s.me.belt ∧ t.me.btail = s.me.btail ∧ t.me.vbelt = s.me.vbelt ∧ t.me.vtail = s.me.vtail
  otherBelt : d.code = 0 → if d.vec then t.me.belt = s.me.belt ∧ t.me.btail = s.me.btail
    else t.me.vbelt = s.me.vbelt ∧ t.me.vtail = s.me.vtail
  regs : ∀ j : Fin 8, ¬ d.namesReg k j → t.me.n[j] = s.me.n[j]
  ptrs : ∀ j : Fin 4, ¬ d.namesPtr j → (∀ o ∈ srcs, ¬ o.namesPtr j) → t.me.a[j] = s.me.a[j]
  ports : ∀ p : Fin 4, (∀ o ∈ srcs, o.isPort = true → ptrIx (o.code - 24) ≠ p) → t.me.ports[p] = s.me.ports[p]
  binding : ∀ p : Fin 4, t.me.ports[p].dest = s.me.ports[p].dest ∧ t.me.ports[p].standing = s.me.ports[p].standing
  words : d.isPort = false → t.inflight = s.inflight
  spm : ∀ a, (d.isPtr = true → a < ptrOff ((consume srcs s).ptrAt d.code 0) ∨
      ptrOff ((consume srcs s).ptrAt d.code 0) + 8 * k ≤ a) → Memory.read t.here.spm a = Memory.read s.here.spm a
  due : t.here.spmDue = s.here.spmDue ∨ ∃ w : SpmWrite, t.here.spmDue = s.here.spmDue ++ [w] ∧ d.isPtr = true ∧
    w.off = ptrOff ((consume srcs s).ptrAt d.code 0) ∧ w.data.length = 8 * k ∧ w.ctx = s.cur.ctx.val

end Sys2Proof.Machine
end

