-- ==== Sys2Proof/Certificates/Slice0/Obligations.lean ====
section
/-! DEFINITION. The statements for the provers. Result statements say which state an instruction leaves, as named operations
on the state it met: `gives` (operands consumed, the result delivered) and `retire` (the program counter moves on); what those
operations do, and what they leave unchanged, are statements of their own. -/

open Sys2Proof Sys2Proof.Machine

/-! ### Integer instructions -/

/-- R75, R76, R77: the two-operand INT members complete, and every part of the result is the table's function of the parts of
the operands, with the table's latency. -/
def Obligations.IntegerBinary : Prop :=
  ∀ (st : BitVec 3) (w : BitVec 2) (d a b : BitVec 5),
    let srcs := [Opnd.int a (parts w), Opnd.int b (parts w)]
    let C (i : Instr) (lat : Nat) (f : W64 → W64 → W64) : Prop :=
      Computes i st.toNat srcs (.int d (parts w)) (after srcs lat) (byParts f)
    let D (i : Instr) (f : W64 → W64 → W64) : Prop := Computes i st.toNat srcs (.int d (parts w)) atOnce (byParts f)
    let k (y : W64) : Nat := y.toNat % 64
    let flag (p : Prop) [Decidable p] : W64 := if p then 1 else 0
    C (.add st w d a b) 1 (fun x y => BitVec.ofNat 64 (x.toNat + y.toNat)) ∧
    C (.sub st w d a b) 1 (fun x y => BitVec.ofInt 64 (x.toInt - y.toInt)) ∧
    C (.and st w d a b) 1 (fun x y => x &&& y) ∧
    C (.or st w d a b) 1 (fun x y => x ||| y) ∧
    C (.xor st w d a b) 1 (fun x y => x ^^^ y) ∧
    C (.andn st w d a b) 1 (fun x y => x &&& ~~~y) ∧
    C (.orn st w d a b) 1 (fun x y => x ||| ~~~y) ∧
    C (.shl st w d a b) 1 (fun x y => BitVec.ofNat 64 (x.toNat * 2 ^ k y)) ∧
    C (.shr st w d a b) 1 (fun x y => BitVec.ofNat 64 (x.toNat / 2 ^ k y)) ∧
    C (.sar st w d a b) 1 (fun x y => BitVec.ofInt 64 (x.toInt / 2 ^ k y)) ∧
    C (.rol st w d a b) 1 (fun x y => BitVec.ofNat 64 (x.toNat * 2 ^ k y ||| x.toNat / 2 ^ (64 - k y))) ∧
    C (.ror st w d a b) 1 (fun x y => BitVec.ofNat 64 (x.toNat / 2 ^ k y ||| x.toNat * 2 ^ (64 - k y))) ∧
    C (.mul st w d a b) 3 (fun x y => BitVec.ofNat 64 (x.toNat * y.toNat)) ∧
    C (.mulh st w d a b) 3 (fun x y => BitVec.ofInt 64 (x.toInt * y.toInt / 2 ^ 64)) ∧
    C (.mulhu st w d a b) 3 (fun x y => BitVec.ofNat 64 (x.toNat * y.toNat / 2 ^ 64)) ∧
    D (.div st w d a b) (fun x y => if y.toNat = 0 then BitVec.ofNat 64 (2 ^ 64 - 1) else BitVec.ofInt 64 (x.toInt.tdiv y.toInt)) ∧
    D (.divu st w d a b) (fun x y => if y.toNat = 0 then BitVec.ofNat 64 (2 ^ 64 - 1) else BitVec.ofNat 64 (x.toNat / y.toNat)) ∧
    D (.rem st w d a b) (fun x y => if y.toNat = 0 then x else BitVec.ofInt 64 (x.toInt.tmod y.toInt)) ∧
    D (.remu st w d a b) (fun x y => if y.toNat = 0 then x else BitVec.ofNat 64 (x.toNat % y.toNat)) ∧
    C (.min st w d a b) 1 (fun x y => if x.toInt ≤ y.toInt then x else y) ∧
    C (.max st w d a b) 1 (fun x y => if x.toInt ≤ y.toInt then y else x) ∧
    C (.minu st w d a b) 1 (fun x y => if x.toNat ≤ y.toNat then x else y) ∧
    C (.maxu st w d a b) 1 (fun x y => if x.toNat ≤ y.toNat then y else x) ∧
    C (.ceq st w d a b) 1 (fun x y => flag (x = y)) ∧
    C (.cne st w d a b) 1 (fun x y => flag (x ≠ y)) ∧
    C (.clt st w d a b) 1 (fun x y => flag (x.toInt < y.toInt)) ∧
    C (.cltu st w d a b) 1 (fun x y => flag (x.toNat < y.toNat)) ∧
    C (.cle st w d a b) 1 (fun x y => flag (x.toInt ≤ y.toInt)) ∧
    C (.cleu st w d a b) 1 (fun x y => flag (x.toNat ≤ y.toNat))

/-- R76, R78 to R81: the one-operand INT members, SEL, MOV, the form I members, bit fields and constants. -/
def Obligations.IntegerForms : Prop :=
  (∀ (st : BitVec 3) (w : BitVec 2) (d a b : BitVec 5) (i : BitVec 11) (n : BitVec 6),
    let C (x : Instr) (f : W64 → W64) : Prop :=
      Computes x st.toNat [.int a (parts w)] (.int d (parts w)) (after [.int a (parts w)] 1) (eachPart f)
    let s11 : Int := i.toInt
    let flag (p : Prop) [Decidable p] : W64 := if p then 1 else 0
    let lead (x : W64) (m : Nat) : Prop := m ≤ 64 ∧ (∀ j < m, x.getLsbD (63 - j) = false) ∧ (m < 64 → x.getLsbD (63 - m) = true)
    let trail (x : W64) (m : Nat) : Prop := m ≤ 64 ∧ (∀ j < m, x.getLsbD j = false) ∧ (m < 64 → x.getLsbD m = true)
    (∃ f : W64 → Nat, (∀ x, lead x (f x)) ∧ C (.clz st w d a) (fun x => BitVec.ofNat 64 (f x))) ∧
    (∃ f : W64 → Nat, (∀ x, trail x (f x)) ∧ C (.ctz st w d a) (fun x => BitVec.ofNat 64 (f x))) ∧
    C (.popc st w d a) (fun x => BitVec.ofNat 64 ((List.range 64).countP (fun j => x.getLsbD j))) ∧
    (∃ f : W64 → W64, (∀ x, ∀ j < 64, (f x).getLsbD (63 - j) = x.getLsbD j) ∧ C (.brev st w d a) f) ∧
    (∃ f : W64 → W64, (∀ x, ∀ j < 8, (f x).extractLsb' (8 * (7 - j)) 8 = x.extractLsb' (8 * j) 8) ∧ C (.bswap st w d a) f) ∧
    (Computes (.sel st w d a b) st.toNat [.int a (parts w), .int b (parts w), b0] (.int d (parts w))
      (after [.int a (parts w), .int b (parts w), b0] 1) (fun _ vs => if arg1 vs 2 ≠ 0 then arg vs 0 else arg vs 1)) ∧
    (a.toNat < 28 → d.toNat < 28 → Computes (.mov st w d a) st.toNat [.int a (parts w)] (.int d (parts w))
      (after [.int a (parts w)] 1) (fun _ vs => arg vs 0)) ∧
    (28 ≤ a.toNat → 28 ≤ d.toNat → Computes (.mov st w d a) st.toNat [.pointer a] (.pointer d)
      (after [.pointer a] 1) (fun _ vs => arg vs 0)) ∧
    (28 ≤ a.toNat → d.toNat < 28 → Computes (.mov st w d a) st.toNat [.pointer a] (.int d (parts w))
      (after [.pointer a] 1) (fun _ vs => arg vs 0)) ∧
    (a.toNat < 28 → 28 ≤ d.toNat → Computes (.mov st w d a) st.toNat [.int a (parts w)] (.pointer d)
      (after [.int a (parts w)] 1) (fun _ vs => arg vs 0)) ∧
    C (.addi st w d a i) (fun x => BitVec.ofInt 64 (x.toInt + s11)) ∧
    C (.andi st w d a i) (fun x => x &&& BitVec.ofNat 64 i.toNat) ∧
    C (.ori st w d a i) (fun x => x ||| BitVec.ofNat 64 i.toNat) ∧
    C (.xori st w d a i) (fun x => x ^^^ BitVec.ofNat 64 i.toNat) ∧
    C (.shli st w d a n) (fun x => BitVec.ofNat 64 (x.toNat * 2 ^ n.toNat)) ∧
    C (.shri st w d a n) (fun x => BitVec.ofNat 64 (x.toNat / 2 ^ n.toNat)) ∧
    C (.sari st w d a n) (fun x => BitVec.ofInt 64 (x.toInt / 2 ^ n.toNat)) ∧
    C (.roli st w d a n) (fun x => BitVec.ofNat 64 (x.toNat * 2 ^ n.toNat ||| x.toNat / 2 ^ (64 - n.toNat))) ∧
    C (.ceqi st w d a i) (fun x => flag (x.toInt = s11)) ∧
    C (.clti st w d a i) (fun x => flag (x.toInt < s11)) ∧
    C (.cltui st w d a i) (fun x => flag (x.toNat < (BitVec.ofInt 64 s11).toNat))) ∧
  (∀ (st : BitVec 3) (d a : BitVec 5) (p : BitVec 6) (l : BitVec 5) (i : BitVec 16),
    let len := l.toNat + 1
    let C (x : Instr) (srcs : List Opnd) (f : State → List (List W64) → List W64) : Prop :=
      Computes x st.toNat srcs (.int d) (after srcs 1) f
    C (.bfx st d a p l) [.int a] (fun _ vs => [BitVec.ofNat 64 ((arg1 vs 0).toNat / 2 ^ p.toNat % 2 ^ len)]) ∧
    (∃ f : W64 → W64 → W64,
      (∀ x old, ∀ j < 64, (f x old).getLsbD j =
        (if p.toNat ≤ j ∧ j < p.toNat + len then x.getLsbD (j - p.toNat) else old.getLsbD j)) ∧
      C (.bfi st d a p l) [.int a, .int d] (oneWord f)) ∧
    C (.ldk st d i) [] (fun _ _ => [BitVec.ofInt 64 i.toInt]) ∧
    C (.ldkh st d i) [b0] (fun _ vs => [BitVec.ofNat 64 ((arg1 vs 0).toNat * 2 ^ 16 ||| i.toNat)]) ∧
    C (.adpc st d i) [] (fun s _ => [BitVec.ofInt 64 ((s.me.pc.toInt + 4 * i.toInt) % 2 ^ 55)]))

/-! ### Pointers and control flow -/

/-- R83, R84: the PTR members and PADDI. What `padde` and `psube` make of a pointer is the second part. R82, R83: an advance by whole
element units. In I4 and N4 the address and NIB follow the half-byte position; elsewhere n elements of `size` bytes move the
address, and no other field changes. A difference of two pointers is counted back; that it counts elements where a unit holds more than
one is the model's choice (log 64). -/
def Obligations.PointerArithmetic : Prop :=
  (∀ (st : BitVec 3) (d a b : BitVec 5) (i : BitVec 11),
    let addr (p v : W64) : W64 := (p &&& 0xFF80000000000000) ||| BitVec.ofNat 64 (v.toNat % 2 ^ 55)
    let two := [Opnd.pointer a, Opnd.int b]
    let one := [Opnd.pointer a]
    Computes (.padd st d a b) st.toNat two (.pointer d) (after two 1) (oneWord (fun p v => addr p (p + v))) ∧
    Computes (.pset st d a b) st.toNat two (.pointer d) (after two 1) (oneWord addr) ∧
    Computes (.pfmt st d a b) st.toNat two (.pointer d) (after two 1) (oneWord (fun p v =>
      BitVec.ofNat 64 (p.toNat % 2 ^ 55 + v.toNat / 2 ^ 8 % 2 * 2 ^ 55 + v.toNat / 2 ^ 5 % 8 * 2 ^ 56 + v.toNat % 32 * 2 ^ 59))) ∧
    Completes (.padde st d a b) st.toNat two (some (.pointer d))
      (fun s => countRejected (arg1 (s.values two) 0) (arg1 (s.values two) 1) = false)
      (gives two (.pointer d) (after two 1) (oneWord padde)) ∧
    Completes (.psube st d a b) st.toNat two (some (.int d)) (fun s => countRejected (arg1 (s.values two) 0) 0 = false)
      (gives two (.int d) (after two 1) (oneWord psube)) ∧
    Computes (.pgetf st d a) st.toNat one (.int d) (after one 1) (fun _ vs =>
      [BitVec.ofNat 64 ((arg1 vs 0).toNat / 2 ^ 59 + (arg1 vs 0).toNat / 2 ^ 56 % 8 * 2 ^ 5 + (arg1 vs 0).toNat / 2 ^ 55 % 2 * 2 ^ 8)]) ∧
    Computes (.pgetb st d a) st.toNat one (.int d) (after one 1) (fun _ vs => [BitVec.ofNat 64 (blockLen (arg1 vs 0))]) ∧
    Computes (.pgeta st d a) st.toNat one (.int d) (after one 1) (fun _ vs => [BitVec.ofNat 64 ((arg1 vs 0).toNat % 2 ^ 55)]) ∧
    Computes (.paddi st d a i) st.toNat one (.pointer d) (after one 1) (fun _ vs =>
      [addr (arg1 vs 0) (arg1 vs 0 + BitVec.ofInt 64 i.toInt)]) ∧
    (28 ≤ a.toNat → Completes (.pstr st a b) st.toNat [.int b] none always (fun s => (consume [.int b] s).updMe (fun c =>
      { c with as := c.as.set (ptrIx (a.toNat - 28)) ((arg1 (s.values [.int b]) 0).setWidth 32) })))) ∧
  (∀ p q v : W64,
    (unitOf p = .half → (ptrAddr (padde p v) * 2 + (if ptrNib (padde p v) then 1 else 0) : Int) =
        (2 * ptrAddr p + (if ptrNib p then 1 else 0) + v.toInt) % 2 ^ 56 ∧ ptrFmt (padde p v) = ptrFmt p ∧
        ptrBlk (padde p v) = ptrBlk p) ∧
    (∀ size n, unitOf p = .bytes size n → (ptrAddr (padde p v) : Int) = (ptrAddr p + v.toInt / n * size) % 2 ^ 55 ∧
        padde p v &&& 0xFF80000000000000 = p &&& 0xFF80000000000000) ∧
    (unitOf p = .half ↔ ptrFmt p = 0x03 ∨ ptrFmt p = 0x04) ∧
    (∀ size n, unitOf p = .bytes size n → ∀ m : Int, -2 ^ 40 ≤ m → m < 2 ^ 40 →
        ptrAddr p = (ptrAddr q + m * size) % 2 ^ 55 → (0 : Int) < size → size < 2 ^ 12 → psube p q = BitVec.ofInt 64 (m * n)))

/-- R85, R86: branches, jumps, calls and LOOP go where R66 says; a call leaves the address of the next word in n7.
A misaligned target of JMPI, CALLI or RET traps ALIGN, and the branch does not happen. -/
def Obligations.Branches : Prop :=
  ∀ (st : BitVec 3) (c : BitVec 3) (a : BitVec 5) (i : BitVec 15) (j : BitVec 23),
    let target (s : State) (k : Int) : W64 := BitVec.ofInt 64 ((s.me.pc.toInt + 4 * k) % 2 ^ 55)
    let goto (v : W64) (t : State) : State := { t with target := some (BitVec.ofNat 64 (v.toNat % 2 ^ 55)) }
    let linked (s : State) (t : State) : State := writeReg (.fixed (t.now + 1)) 7 (va55 (s.me.pc + 4)) t
    let cond (v : W64) : Prop := match c.toNat with
      | 0 => v.toInt = 0 | 1 => v.toInt ≠ 0 | 2 => v.toInt < 0 | 3 => 0 ≤ v.toInt | 4 => 0 < v.toInt | 5 => v.toInt ≤ 0
      | 6 => v.toNat % 2 = 1 | _ => v.toNat % 2 = 0
    let va (s : State) : W64 := arg1 (s.values [.int a]) 0
    Completes (.br st c a i) st.toNat [.int a] none (fun s => cond (va s))
      (fun s => goto (target s i.toInt) (consume [.int a] s)) ∧
    Completes (.br st c a i) st.toNat [.int a] none (fun s => ¬ cond (va s)) (consume [.int a]) ∧
    Completes (.jmp st j) st.toNat [] none always (fun s => goto (target s j.toInt) s) ∧
    Completes (.call st j) st.toNat [] none always (fun s => goto (target s j.toInt) (linked s s)) ∧
    Completes (.jmpi st a) st.toNat [.int a] none (fun s => (va s).toNat % 4 = 0) (fun s => goto (va s) (consume [.int a] s)) ∧
    Completes (.calli st a) st.toNat [.int a] none (fun s => (va s).toNat % 4 = 0)
      (fun s => goto (va s) (linked (consume [.int a] s) (consume [.int a] s))) ∧
    Completes (.ret st) st.toNat [⟨23, 1, false⟩] none (fun s => (((s.me.reg 7).read s.now).toNat) % 4 = 0)
      (fun s => goto ((s.me.reg 7).read s.now) s) ∧
    Completes (.loop st a i) st.toNat [.int a] none (fun s => va s ≠ 1 ∧ isNamed a = true) (fun s =>
      goto (target s i.toInt) (writeReg (.fixed (s.now + 1)) (a.toNat - 16) (va s - 1) s)) ∧
    Completes (.loop st a i) st.toNat [.int a] none (fun s => va s = 1 ∧ isNamed a = true) (fun s =>
      writeReg (.fixed (s.now + 1)) (a.toNat - 16) 0 s) ∧
    (∀ i ∈ [Instr.jmpi st a, .calli st a], ∀ s : State, s.Admits i → s.Clear [.int a] none → (va s).toNat % 4 ≠ 0 →
      exec i s = .next (takeTrap 0x0A (va s) s.me.pc s)) ∧
    (∀ s : State, s.Admits (.ret st) → s.Clear [⟨23, 1, false⟩] none → let v := (s.me.reg 7).read s.now
      v.toNat % 4 ≠ 0 → exec (.ret st) s = .next (takeTrap 0x0A v s.me.pc s))

/-- R121, R122: REP checks its body, reads its count and issues the body that often, starting at the word after it; a count of zero
goes on behind the body. A body word that may not stand in a repetition makes the REP trap, with the word in $tval. Which words may not is
the second part: control flow and REP (majors 0x11 to 0x17, 0x2F), TRAP and the other members of SYS that R122 names, and every word that
would trap by itself. That the body is checked before the count is ready is the model's choice (log 49). -/
def Obligations.Repetitions : Prop :=
  (∀ (st : BitVec 3) (a : BitVec 5) (i : BitVec 11) (body : List Word) (t : State),
    let count : W64 := arg1 (t.values [.int a]) 0
    let base : W64 := va55 (t.me.pc + 4)
    ∀ s : State, s.Admits (.rep st a i) → fetchBody (s.me.pc + 4).toNat i.toNat s = .ok (body, t) → t.Clear [.int a] none →
      (count ≠ 0 → exec (.rep st a i) s = .next (retire st.toNat
        { (consume [.int a] t).updMe (fun x => { x with rep := some ⟨count, base, i.toNat, 0, body⟩ }) with target := some base })) ∧
      (count = 0 → exec (.rep st a i) s = .next (retire st.toNat
        { consume [.int a] t with target := some (va55 (base + 4 * BitVec.ofNat 64 i.toNat)) }))) ∧
  (∀ (st : BitVec 3) (a : BitVec 5) (i : BitVec 11) (s : State) (c : Nat) (v : W64), s.Admits (.rep st a i) →
    fetchBody (s.me.pc + 4).toNat i.toNat s = .error (.trap c v) → exec (.rep st a i) s = .next (takeTrap c v s.me.pc s)) ∧
  (∀ (pc k : Nat) (s t : State) (w : Word), fetchWord (pc % 2 ^ 55) s = .ok (w, t) →
    (∀ c, bodyTrap t w = some c → fetchBody pc (k + 1) s = .error (.trap c (w.zeroExtend 64))) ∧
    (bodyTrap t w = none → ∀ c v, fetchBody (pc + 4) k t = .error (.trap c v) → fetchBody pc (k + 1) s = .error (.trap c v)) ∧
    (bodyTrap t w = none → ∀ ws u, fetchBody (pc + 4) k t = .ok (ws, u) → fetchBody pc (k + 1) s = .ok (w :: ws, u))) ∧
  (∀ (s : State) (w : Word),
    let major : Nat := w.toNat / 2 ^ 26
    let fn : Nat := w.toNat % 64
    ((0x11 ≤ major ∧ major ≤ 0x17) ∨ major = 0x2F ∨ (major = 0x18 ∧ (fn = 1 ∨ fn = 2 ∨ fn = 6 ∨ fn = 7 ∨ fn = 9 ∨ fn = 10 ∨ fn = 11)) →
      bodyTrap s w = some 0x01) ∧
    (¬ ((0x11 ≤ major ∧ major ≤ 0x17) ∨ major = 0x2F ∨
        (major = 0x18 ∧ (fn = 1 ∨ fn = 2 ∨ fn = 6 ∨ fn = 7 ∨ fn = 9 ∨ fn = 10 ∨ fn = 11))) →
      ((∀ e, decodeSoras w = .error e → bodyTrap s w = some 0x01) ∧
        ∀ i, decodeSoras w = .ok i → bodyTrap s w = gate w s.here.feat s.me.sup (decide (s.cur.ctx ≠ 0)))))

/-! ### Helpers and system instructions -/

/-- R88 to R92: START, HALT, JOINH, YIELD, HSTAT. YIELD marks every other context; at the end of the cycle the marks of those that were
not ready go (`StepRuns`). -/
def Obligations.HelperControl : Prop :=
  ∀ (st : BitVec 3) (d a b : BitVec 5),
    let two := [Opnd.int a, Opnd.int b]
    let one := [Opnd.int a]
    (∀ h, Completes (.start st d a b) st.toNat two (some (.int d))
      (fun s => (arg1 (s.values two) 0).toNat % 4 = 0 ∧ s.here.freeHelper = some h) (fun s =>
        deliver (.int d) (after two 1 s) [BitVec.ofNat 64 h] ((consume two s).updHere (fun k =>
          k.setCtx h (startContext (isPager s.cur.core) (k.ctx 0) (k.ctx h) (arg1 (s.values two) 0) (arg1 (s.values two) 1) s.now))))) ∧
    Completes (.start st d a b) st.toNat two (some (.int d))
      (fun s => (arg1 (s.values two) 0).toNat % 4 = 0 ∧ ∀ h, 1 ≤ h → h ≤ 10 → (s.here.ctx h).status ≠ .free)
      (gives two (.int d) (after two 1) (fun _ _ => [BitVec.allOnes 64])) ∧
    Completes (.halt st) st.toNat [] none (fun s => s.cur.ctx ≠ 0 ∧ s.haltReady s.cur.core s.cur.ctx.val = true)
      (fun s => s.updMe (fun c => c.leave s.cur.ctx.val)) ∧
    Completes (.halt st) st.toNat [] none (fun s => s.cur.ctx = 0 ∧ s.haltReady s.cur.core 0 = true)
      (fun s => (s.updMe (fun c => c.leave 0)).updHere (·.releaseFaulted)) ∧
    Completes (.joinh st a) st.toNat one none (fun s =>
      ∀ h : Nat, 1 ≤ h → h ≤ 10 → (arg1 (s.values one) 0).toInt = h → h = s.cur.ctx.val ∨ (s.here.ctx h).status = .free) (consume one) ∧
    Completes (.yield st) st.toNat [] none always (fun s => s.updMe (fun c => { c with
      yield := (List.range 11).filter (fun x => x != s.cur.ctx.val), yieldEnd := s.now + 11 })) ∧
    Completes (.hstat st d a) st.toNat one (some (.int d)) (fun s => s.cur.ctx ≠ 0)
      (gives one (.int d) atOnce (fun _ _ => [BitVec.ofInt 64 (-2)])) ∧
    (∀ h : Nat, 1 ≤ h → h ≤ 10 → Completes (.hstat st d a) st.toNat one (some (.int d))
      (fun s => s.cur.ctx = 0 ∧ (arg1 (s.values one) 0).toInt = h)
      (gives one (.int d) atOnce (fun s _ => [match (s.here.ctx h).status with
        | .free => 0 | .live => 1 | .faulted => 2 | .suspended => 3]))) ∧
    Completes (.hstat st d a) st.toNat one (some (.int d))
      (fun s => s.cur.ctx = 0 ∧ ((arg1 (s.values one) 0).toInt < 1 ∨ 10 < (arg1 (s.values one) 0).toInt))
      (gives one (.int d) atOnce (fun _ _ => [BitVec.ofInt 64 (-1)]))

/-- R88 to R92, of a LIVE context: where START, HALT, JOINH, YIELD and HSTAT complete, by what the state holds, and what they leave.
START takes the lowest-numbered FREE helper, or none is FREE and −1 is delivered. HALT completes when nothing of the context is
outstanding. JOINH completes when the helper is FREE, is the issuer or is no helper, and blocks otherwise. YIELD and HSTAT always
complete. -/
def Obligations.HelperCompletions : Prop :=
  ∀ (st : BitVec 3) (d a b : BitVec 5) (s : State), s.me.status = .live →
    let two := [Opnd.int a, Opnd.int b]
    let one := [Opnd.int a]
    let free (h : Nat) : Prop := (s.here.ctx h).status = .free
    let number : Int := (arg1 (s.values one) 0).toInt
    let arrived {α : Type} (x : Cell α) : Prop := ∀ p ∈ x.pend, ∃ n, p.due = some n ∧ n ≤ s.now
    let drained : Prop := (∀ x ∈ s.me.btail :: s.me.belt, arrived x) ∧ (∀ x ∈ s.me.vtail :: s.me.vbelt, arrived x) ∧
      (∀ j : Fin 8, arrived s.me.n[j]) ∧ (∀ j : Fin 4, arrived s.me.a[j]) ∧ (∀ j : Fin 8, s.me.slots[j] = 0) ∧
      (∀ e ∈ s.here.mx, e.ctx ≠ s.cur.ctx.val) ∧ (∀ e ∈ s.here.sfu, e.ctx ≠ s.cur.ctx.val) ∧
      s.AllPerformed
    (∀ h : Nat, 1 ≤ h → h ≤ 10 → free h → (∀ k, 1 ≤ k → k < h → ¬ free k) → s.Admits (.start st d a b) →
      s.Clear two (some (.int d)) → (arg1 (s.values two) 0).toNat % 4 = 0 → ∃ t, exec (.start st d a b) s = .next t ∧
        let m := t.here.ctx h
        m.status = .live ∧ m.pc.toNat = (arg1 (s.values two) 0).toNat % 2 ^ 55 ∧ (m.reg 0).read t.now = arg1 (s.values two) 1 ∧
        m.rep = none ∧ m.wait = none ∧ m.slots = Vector.replicate 8 0 ∧ m.bound = s.now + 1 ∧
        (∀ j : Fin 16, (m.hnd[j]).bound = false ∧ (m.hnd[j]).gen = 0) ∧
        ∃ u, t = retire st.toNat (deliver (.int d) (after two 1 s) [BitVec.ofNat 64 h] u)) ∧
    ((∀ h, 1 ≤ h → h ≤ 10 → ¬ free h) → s.Admits (.start st d a b) → s.Clear two (some (.int d)) →
      (arg1 (s.values two) 0).toNat % 4 = 0 → exec (.start st d a b) s =
        .next (retire st.toNat (deliver (.int d) (after two 1 s) [BitVec.allOnes 64] (consume two s)))) ∧
    ((arg1 (s.values two) 0).toNat % 4 ≠ 0 → s.Admits (.start st d a b) → s.Clear two (some (.int d)) →
      exec (.start st d a b) s = .next (takeTrap 0x0A (arg1 (s.values two) 0) s.me.pc s)) ∧
    (drained → s.Admits (.halt st) → ∃ t, exec (.halt st) s = .next t ∧ t.me.status = .free ∧ t.me.wait = none ∧ t.mem = s.mem ∧
      (∀ x : Fin 11, x ≠ s.cur.ctx → let m := s.here.ctxs[x]
        t.here.ctxs[x] = if s.cur.ctx = 0 ∧ m.status = .faulted then { m with status := .live, bound := s.now + 1 } else m)) ∧
    (s.Admits (.joinh st a) → s.Clear one none → (∀ h : Nat, 1 ≤ h → h ≤ 10 → number = h → h = s.cur.ctx.val ∨ free h) →
      exec (.joinh st a) s = .next (retire st.toNat (consume one s))) ∧
    (∀ h : Nat, 1 ≤ h → h ≤ 10 → s.Admits (.joinh st a) → s.Clear one none → number = h → h ≠ s.cur.ctx.val → ¬ free h →
      exec (.joinh st a) s = .next (s.updMe (fun c => { c with wait := some (.joinh h) }))) ∧
    (s.Admits (.yield st) → ∃ t, exec (.yield st) s = .next (retire st.toNat t) ∧ t.me.yieldEnd = s.now + 11 ∧
      (∀ x : Nat, x ∈ t.me.yield ↔ x < 11 ∧ x ≠ s.cur.ctx.val) ∧ t.me.belt = s.me.belt ∧ t.me.vbelt = s.me.vbelt ∧ t.me.n = s.me.n ∧
      t.me.a = s.me.a ∧ t.me.ports = s.me.ports ∧ t.me.flags = s.me.flags ∧ t.mem = s.mem ∧ t.here.spm = s.here.spm ∧
      ∀ x : Fin 11, x ≠ s.cur.ctx → t.here.ctxs[x] = s.here.ctxs[x]) ∧
    (s.Admits (.hstat st d a) → s.Clear one (some (.int d)) → exec (.hstat st d a) s = .next (retire st.toNat
      (deliver (.int d) .now [BitVec.ofInt 64 (if s.cur.ctx ≠ 0 then -2 else if number < 1 ∨ 10 < number then -1
        else match (s.here.ctx number.toNat).status with
          | .free => 0 | .live => 1 | .faulted => 2 | .suspended => 3)] (consume one s))))

/-- R93, R100: SAVEH, LOADH, RESUMEH and KILLH on a helper in a state that lets them act report 0; a helper number out of range, a
helper in the wrong state, and an issuer that is a helper are reported in the status they deliver, and nothing else changes.
UPRET restores the interrupted program from the upcall frame; that its target is taken with bits 1-0 clear is the model's reading
(log 11). SAVEH stops the helper, SUSPENDED, and writes its image once everything of it has completed, which the third part lays out
byte by byte. KILLH leaves the helper FREE, its handles and ports as free ones, its results and waiting MX commands discarded. -/
def Obligations.HelperImages : Prop :=
  (∀ (st : BitVec 3) (d a b : BitVec 5) (h : Nat), 1 ≤ h → h ≤ 10 →
    let two := [Opnd.int a, Opnd.int b]
    let one := [Opnd.int a]
    let off (s : State) : Nat := (arg1 (s.values two) 1).toNat % 2 ^ 17
    let named (os : List Opnd) (s : State) : Prop := s.cur.ctx = 0 ∧ (arg1 (s.values os) 0).toInt = h
    let fits (s : State) : Prop := off s % 64 = 0 ∧ off s + 1536 ≤ 98304
    let done (os : List Opnd) (t : State) : State := deliver (.int d) .now [0] (consume os t)
    Completes (.saveh st d a b) st.toNat two (some (.int d)) (fun s => named two s ∧ fits s ∧
        (s.here.ctx h).status ≠ .free ∧ (stopHelper h s).here.saveReady h = true) (fun s =>
      let x := stopHelper h s
      done two (touch (off s) 1536 (x.spmWrite s.cur.core (off s) (helperImage s.now (x.here.ctx h))))) ∧
    Completes (.loadh st d a b) st.toNat two (some (.int d)) (fun s => named two s ∧ fits s ∧
        s.LocalNow s.cur.core (off s) 1536 ∧ ((s.here.ctx h).status = .free ∨ (s.here.ctx h).status = .suspended)) (fun s =>
      done two ((touch (off s) 1536 s).updCtx s.cur.core h (fun c =>
        { loadHelperImage s.now (s.spmRead s.cur.core (off s) 1536) c with
          slots := Vector.replicate 8 0, status := .suspended, barrier := [], drained := [] }))) ∧
    Completes (.resumeh st d a) st.toNat one (some (.int d)) (fun s => named one s ∧
        ((s.here.ctx h).status = .faulted ∨ (s.here.ctx h).status = .suspended)) (fun s =>
      done one ((s.updHere (·.dropRec h)).updCtx s.cur.core h (fun c =>
        { c with status := .live, wait := none, bound := s.now + 1 }))) ∧
    (∀ s : State, s.Admits (.killh st d a) → s.Clear one (some (.int d)) → named one s → (s.here.ctx h).status ≠ .free →
      (s.here.ctx h).unacked = 0 → (s.here.ctx h).remote = [] → (s.here.ctx h).parked = [] →
      (∀ l ∈ (s.here.ctx h).loads, l.atomic = false) → (∀ e ∈ s.ranks, ∀ q ∈ e.2.pending, q.user ≠ .merge s.cur.core) →
      (∀ p, p < 4 → s.unsent s.here.origin h p = false) →
      ∃ t, exec (.killh st d a) s = .next (retire st.toNat (done one t)) ∧
        let m := t.here.ctx h
        m.status = .free ∧ (∀ j : Fin 16, m.hnd[j].bound = false ∧ m.hnd[j].gen = ((s.here.ctx h).hnd[j]).gen + 1) ∧
        m.ports = Vector.replicate 4 Port.reset ∧ m.slots = Vector.replicate 8 0 ∧ m.loads = [] ∧ m.rep = none ∧ m.wait = none ∧
        (∀ x ∈ m.btail :: m.belt, x.pend = []) ∧ (∀ x ∈ m.vtail :: m.vbelt, x.pend = []) ∧
        (∀ e ∈ t.here.mx, e.ctx = h → e.dead = true ∧ e.started = true ∧ e.slot = none) ∧
        (∀ x : Fin 11, x.val ≠ h → t.here.ctxs[x] = s.here.ctxs[x])) ∧
    Completes (.upret st) st.toNat [] none (fun s => s.cur.ctx = 0 ∧ s.here.upcall = true ∧ s.LocalNow s.cur.core 0x17EA0 24) (fun s =>
      let w (k : Nat) : W64 := BitVec.ofNat 64 (ofBytes (s.spmRead s.cur.core (0x17EA0 + 8 * k) 8))
      { writeReg .now 1 (w 2) (writeReg .now 0 (w 1) (s.updHere (fun k => { k with upcall := false }))) with
        target := some (w 0 &&& 0x7FFFFFFFFFFFFC) }) ∧
    Completes (.upret st) st.toNat [] none (fun s => ¬ (s.cur.ctx = 0 ∧ s.here.upcall = true)) (fun s => s)) ∧
  (∀ (st : BitVec 3) (d a b : BitVec 5) (h : Nat),
    let two := [Opnd.int a, Opnd.int b]
    let one := [Opnd.int a]
    let number (os : List Opnd) (s : State) : Int := (arg1 (s.values os) 0).toInt
    let tells (i : Instr) (os : List Opnd) (n : W64) (ok : State → Prop) : Prop :=
      Completes i st.toNat os (some (.int d)) ok (gives os (.int d) atOnce (fun _ _ => [n]))
    let fits (s : State) : Prop := (arg1 (s.values two) 1).toNat % 2 ^ 17 % 64 = 0 ∧ (arg1 (s.values two) 1).toNat % 2 ^ 17 + 1536 ≤ 98304
    let on (os : List Opnd) (s : State) : Prop := 1 ≤ h ∧ h ≤ 10 ∧ s.cur.ctx = 0 ∧ number os s = h
    tells (.saveh st d a b) two 4 (fun s => s.cur.ctx ≠ 0) ∧ tells (.loadh st d a b) two 4 (fun s => s.cur.ctx ≠ 0) ∧
    tells (.resumeh st d a) one 4 (fun s => s.cur.ctx ≠ 0) ∧ tells (.killh st d a) one 4 (fun s => s.cur.ctx ≠ 0) ∧
    tells (.saveh st d a b) two 2 (fun s => s.cur.ctx = 0 ∧ fits s ∧ (number two s < 1 ∨ 10 < number two s)) ∧
    tells (.loadh st d a b) two 2 (fun s => s.cur.ctx = 0 ∧ fits s ∧ (number two s < 1 ∨ 10 < number two s)) ∧
    tells (.resumeh st d a) one 2 (fun s => s.cur.ctx = 0 ∧ (number one s < 1 ∨ 10 < number one s)) ∧
    tells (.killh st d a) one 2 (fun s => s.cur.ctx = 0 ∧ (number one s < 1 ∨ 10 < number one s)) ∧
    tells (.saveh st d a b) two 1 (fun s => on two s ∧ fits s ∧ (s.here.ctx h).status = .free) ∧
    tells (.resumeh st d a) one 1 (fun s => on one s ∧ (s.here.ctx h).status = .free) ∧
    tells (.killh st d a) one 1 (fun s => on one s ∧ (s.here.ctx h).status = .free) ∧
    tells (.loadh st d a b) two 3 (fun s => on two s ∧ fits s ∧
      ((s.here.ctx h).status = .live ∨ (s.here.ctx h).status = .faulted)) ∧
    tells (.resumeh st d a) one 3 (fun s => on one s ∧ (s.here.ctx h).status = .live)) ∧
  (∀ (t : Nat) (c : Context),
    let f (off len : Nat) : Nat := ofBytes (((helperImage t c).drop off).take len)
    (helperImage t c).length = 1536 ∧
    (∀ i < 16, f (8 * i) 8 = ((c.intSlot i).read t).toNat ∧ f (0x80 + 16 * i) 16 = ((c.vecSlot i).read t).toNat) ∧
    (∀ i : Fin 8, f (0x180 + 8 * i.val) 8 = ((c.n[i]).read t).toNat ∧ f (0x300 + i.val) 1 = (c.slots[i]).toNat ∧
      f (0x200 + 32 * i.val) 32 = ofBytes (lazyRecord c.z[i])) ∧
    (∀ i : Fin 4, f (0x1C0 + 8 * i.val) 8 = ((c.a[i]).read t).toNat ∧ f (0x1E0 + 8 * i.val) 8 = ((c.as[i]).signExtend 64).toNat) ∧
    f 0x308 8 = c.pc.toNat ∧ f 0x310 8 = c.mode.toNat ∧ f 0x318 8 = c.flags.toNat ∧ f 0x320 8 = c.srh.toNat ∧ f 0x328 8 = c.sro.toNat ∧
    (c.rep = none → f 0x330 18 = 0) ∧
    (∀ r, c.rep = some r → f 0x330 8 = r.remaining.toNat ∧ f 0x338 8 = r.base.toNat ∧ f 0x340 1 = r.len % 256 ∧ f 0x341 1 = r.pos % 256) ∧
    f 0x342 6 = 0 ∧ f 0x348 8 = (c.btail.read t).toNat ∧ f 0x350 16 = (c.vtail.read t).toNat ∧ f 0x360 672 = 0) ∧
  (∀ (h : Nat) (s : State), 1 ≤ h → h ≤ 10 → let m := (stopHelper h s).here.ctx h
    m.status = .suspended ∧ m.wait = none ∧ m.pc = (s.here.ctx h).pc ∧ m.slots = (s.here.ctx h).slots ∧ m.loads = (s.here.ctx h).loads)

/-- R97, R103 to R106: NOP, TRAP, ERET, BREAK, FENCE and IFENCE. FENCE completes when every earlier access of the context is performed and
acknowledged; one at DOMAIN drops the lines of other packages from its L1 (R234). -/
def Obligations.SystemControl : Prop :=
  ∀ (st : BitVec 3) (a : BitVec 5),
    Completes (.nop st) st.toNat [] none always (fun s => s) ∧
    Completes (.trap st a) st.toNat [.int a] none always (fun s =>
      let t := takeTrap 0x38 (arg1 (s.values [.int a]) 0) (va55 (s.me.pc + 4)) (consume [.int a] s)
      { t with target := some t.me.pc }) ∧
    Completes (.eret st) st.toNat [] none always returnFromTrap ∧
    (∀ s : State, s.Admits (.brk st) → s.me.attached = true → exec (.brk st) s = .next ((s.finishFixed s.cur.core s.cur.ctx.val).updMe (fun c =>
      { c with dhalt := true, dstep := false, reason := 2, wait := none }))) ∧
    (∀ s : State, s.Admits (.brk st) → s.me.attached = false → exec (.brk st) s = .next (takeTrap 0x32 0 s.me.pc s)) ∧
    Completes (.fence st a) st.toNat [] none State.AllPerformed (fun s => if a = 4 then s.dropFar s.cur.core else s) ∧
    (∀ (s : State) (c k : Nat), k ∈ s.l1Cores c → ∀ l ∈ ((s.dropFar c).core k).l1, l.data = none ∧ l ∈ (s.core k).l1) ∧
    Completes (.ifence st) st.toNat [] none always (fun s =>
      staleFetches (fun r => r.core == s.cur.core) (s.updHere (fun k => { k with icache := [] })))

/-- R32 to R36, R96, R105: GETS delivers a special register, PUTS writes the writable bits of one. Both wait for $flags while the lanes of
an earlier LDX, and with them its events, are still to come. -/
def Obligations.SpecialRegisters : Prop :=
  ∀ (st : BitVec 3) (d a b : BitVec 5),
    let converts (l : Load) : Prop := ∃ p t m ws, l.shape = .lanes p t m ws
    (∀ s : State, s.Admits (.gets st d 5) → (∃ l ∈ s.me.loads, converts l) → exec (.gets st d 5) s = .next (setWait .interlock s)) ∧
    (∀ s : State, s.Admits (.gets st d a) → s.Clear [] (some (.int d)) →
      ((a = 17 → s.me.btail.pend = []) ∧ (a = 18 ∨ a = 19 → s.me.vtail.pend = []) ∧ (a = 5 → ∀ l ∈ s.me.loads, ¬ converts l)) →
      exec (.gets st d a) s = .next (retire st.toNat (deliver (.int d) .now [s.sreg a.toNat] s))) ∧
    Completes (.puts st a b) st.toNat [.int b] none
      (fun s => (a = 4 → (arg1 (s.values [.int b]) 0).toNat % 8 < 6) ∧ (a = 5 → ∀ l ∈ s.me.loads, ¬ converts l))
      (fun s => putSreg a.toNat (arg1 (s.values [.int b]) 0) (consume [.int b] s)) ∧
    (∀ (s : State) (v : W64),
      (putSreg 4 v s).sreg 4 = v &&& 0x3F ∧ (putSreg 5 v s).sreg 5 = v &&& 0x1F ∧
      (putSreg 6 v s).sreg 6 = v &&& 0xFFFFFFFFFFFFFFFC ∧ (putSreg 7 v s).sreg 7 = v &&& 1 ∧
      (putSreg 8 v s).sreg 8 = v &&& 0xF ∧ (putSreg 9 v s).sreg 9 = v ∧
      (∀ k : Fin 4, (putSreg (13 + k) v s).sreg (13 + k) = BitVec.ofInt 64 (BitVec.ofNat 32 v.toNat).toInt) ∧
      (putSreg 24 v s).sreg 24 = v ∧ (putSreg 25 v s).sreg 25 = v &&& 0x80000000000000FF ∧ (putSreg 26 v s).sreg 26 = v ∧
      (putSreg 27 v s).sreg 27 = (if v &&& 0xF = 0 then 1 else v &&& 0xF)) ∧
    (∀ (s : State) (v : W64) (m n : Nat), m ≠ n → (putSreg m v s).sreg n = s.sreg n)

/-- R107 to R110: WAITA, FFLAG, SLEEPR and TINV. The model performs the store of FFLAG as it issues (log 7), and TINV invalidates as it
issues and holds its context until nothing uses the page (log 19). -/
def Obligations.WaitingInstructions : Prop :=
  ∀ (st : BitVec 3) (d a b : BitVec 5),
    let two := [Opnd.int a, Opnd.int b]
    let va (s : State) : Nat := (arg1 (s.values two) 0).toNat % 2 ^ 55
    let vb (s : State) : W64 := arg1 (s.values two) 1
    (∀ bs line t, Completes (.waita st d a b) st.toNat two (some (.int d)) (fun s => va s % 8 = 0 ∧
        loadGlobal (va s) 8 .load s = .ok ((.bytes bs, line), t) ∧ BitVec.ofNat 64 (ofBytes bs) ≠ vb s) (fun _ =>
      deliver (.int d) .now [BitVec.ofNat 64 (ofBytes bs)] (acquire true (consume two t)))) ∧
    (∀ bs line t s, s.Admits (.waita st d a b) → s.Clear two (some (.int d)) → va s % 8 = 0 →
        loadGlobal (va s) 8 .load s = .ok ((.bytes bs, line), t) → BitVec.ofNat 64 (ofBytes bs) = vb s →
      exec (.waita st d a b) s = .next (setWait (.waita line) (settled (t.updMe (fun c => { c with ask := none, answer := none }))))) ∧
    (∀ ps t, a ≠ 31 → Completes (.fflag st a b) st.toNat two none (fun s => va s % 8 = 0 ∧
        s.ReachesHome (va s) 8 .store false true ps t ∧ flagAwaits t.pkg t = [] ∧ t.StoresNow ps) (fun s =>
      storeHome (va s) t.me.pc ps (bytesOf 8 (vb s).toNat) (consume two t))) ∧
    Completes (.fflag st 31 b) st.toNat [.int b] none always (fun s => (consume [.int b] s).updMe (fun c =>
      { c with flags := c.flags &&& ~~~(arg1 (s.values [.int b]) 0 &&& 0x1F) })) ∧
    Completes (.sleepr st d) st.toNat [] (some (.int d)) (fun s => s.me.sleep = some true) (fun s =>
      deliver (.int d) .now [s.me.reply] (s.updMe (fun c => { c with sleep := none }))) ∧
    (∀ s : State, s.Admits (.sleepr st d) → s.Clear [] (some (.int d)) → s.me.sleep = none →
      exec (.sleepr st d) s = .next (setWait .reply (settled (s.updMe (fun c => { c with sleep := some false }))))) ∧
    Completes (.tinv st a b) st.toNat two none State.AllPerformed
      (fun s => (invalidate (arg1 (s.values two) 0) (vb s) (consume two s)).updMe (fun c =>
        { c with tinv := some (arg1 (s.values two) 0, vb s) }))

/-! ### Memory -/

/-- R66, R134 to R137, R139: a load that reaches sound bytes at home, in banks that serve it now, delivers them, zero- or
sign-extended, low byte first; update-only lines of the bytes are merged before (R148). An acquire drops the lines of other packages from
the L1 that the core uses (R234). The model performs the access as the instruction issues (log 7). -/
def Obligations.GlobalLoads : Prop :=
  ∀ (st : BitVec 3) (w : BitVec 2) (d b : BitVec 5) (q : BitVec 3) (o : BitVec 8) (ps : List Place) (t : State),
    let addr (unit : Nat) (s : State) : Nat := (BitVec.ofInt 64 ((arg1 (s.values [.int b]) 0).toInt + o.toInt * unit)).toNat % 2 ^ 55
    let size : Nat := 2 ^ w.toNat
    let slots : Nat := 2 ^ (w.toNat - 1)
    let u : State := t.recall ps
    let n : Nat := ofBytes (ps.map u.readByte)
    let at_ (a len : Nat) (align : Nat) (s : State) : Prop := a % align = 0 ∧
      s.ReachesHome a len .load true false ps t (alloc := !q.getLsbD 1) ∧ t.busy .read ps = false ∧ t.before (.home ps) = [] ∧
      ∀ x ∈ ps, u.badWords.contains (u.wordAt none x) = false
    let acq (x : State) : State := if q.getLsbD 0 then x.dropFar x.cur.core else x
    Completes (.ld st w d b q o) st.toNat [.int b] (some (.int d)) (fun s => at_ (addr size s) size size s) (fun _ =>
      deliver (.int d) .now [if q.getLsbD 2 then (BitVec.ofNat (8 * size) n).signExtend 64 else BitVec.ofNat 64 n] (acq (consume [.int b] u))) ∧
    (q.getLsbD 2 = false → Completes (.ldv st w d b q o) st.toNat [.int b] (some (.vector d slots))
      (fun s => at_ (addr (16 * slots) s) (16 * slots) 16 s) (fun _ =>
      deliver (.vector d slots) .now (wordsOf (2 * slots) n) (acq (consume [.int b] u))))

/-- R137 to R139: a store that reaches bytes at home writes the low bytes of its data there, low byte first, when no acquire and no earlier
access of the context to them is still to be performed and its banks take it; one that must wait for those is parked behind them (R136),
and the context goes on (R142). A release needs every earlier access performed, and is parked otherwise. The model performs the access as
the instruction issues (log 7). -/
def Obligations.GlobalStores : Prop :=
  ∀ (st : BitVec 3) (w : BitVec 2) (d b : BitVec 5) (q2 : BitVec 2) (q3 : BitVec 3) (o : BitVec 8) (ps : List Place) (t : State),
    let addr (os : List Opnd) (unit : Nat) (s : State) : Nat :=
      (BitVec.ofInt 64 ((arg1 (s.values os) 0).toInt + o.toInt * unit)).toNat % 2 ^ 55
    let size : Nat := 2 ^ w.toNat
    let slots : Nat := 2 ^ (w.toNat - 1)
    let one := [Opnd.int b, Opnd.int d]
    let vec := [Opnd.int b, Opnd.vector d slots]
    let at_ (a len : Nat) (align : Nat) (s : State) : Prop := a % align = 0 ∧ s.ReachesHome a len .store false true ps t
    let free (rel : Prop) : Prop := t.StoresNow ps ∧ (rel → t.releasable = true)
    let bytes (len n : Nat) : List Byte := bytesOf len n
    (∀ v : W64, Completes (.st st w d b q2 o) st.toNat one none (fun s => at_ (addr one size s) size size s ∧
        arg1 (s.values one) 1 = v ∧ free (q2 = 1)) (fun s =>
      storeHome (addr one size s) t.me.pc ps (bytes size v.toNat) (consume one t))) ∧
    (∀ v : W64, Completes (.st st w d b q2 o) st.toNat one none (fun s => at_ (addr one size s) size size s ∧
        arg1 (s.values one) 1 = v ∧ q2 ≠ 1 ∧ t.before (.home ps) ≠ []) (fun s =>
      park (addr one size s) (bytes size v.toNat) (.home ps) none [] (t.before (.home ps)) (consume one t))) ∧
    (∀ v : W64, Completes (.st st w d b q2 o) st.toNat one none (fun s => at_ (addr one size s) size size s ∧
        arg1 (s.values one) 1 = v ∧ q2 = 1 ∧ t.releasable = false) (fun s =>
      park (addr one size s) (bytes size v.toNat) (.home ps) none t.outIds [] (consume one t))) ∧
    (∀ ws : List W64, q3.getLsbD 2 = false → Completes (.stv st w d b q3 o) st.toNat vec none (fun s =>
        at_ (addr vec (16 * slots) s) (16 * slots) 16 s ∧ arg (s.values vec) 1 = ws ∧ free (q3 = 1))
      (fun s => storeHome (addr vec (16 * slots) s) t.me.pc ps (bytes (16 * slots) (ofWords ws)) (consume vec t)))

/-- R134, R137, R139, R214: loads and stores at a local address: the bytes of the scratchpad the address names. The model performs
the access as the instruction issues (log 7). R143, R144: a full/empty load takes a full word, when no earlier waiter is ahead,
and LDFE leaves it empty; on an empty word it waits in the word's queue. STF and STE write the word and set its bit; a fill serves
the word's waiters. -/
def Obligations.LocalMemory : Prop :=
  (∀ (st : BitVec 3) (w : BitVec 2) (d b : BitVec 5) (q : BitVec 3) (o : BitVec 8) (c off : Nat),
    let addr (os : List Opnd) (unit : Nat) (s : State) : W64 := BitVec.ofInt 64 ((arg1 (s.values os) 0).toInt + o.toInt * unit)
    let size : Nat := 2 ^ w.toNat
    let slots : Nat := 2 ^ (w.toNat - 1)
    let one := [Opnd.int b]
    let two := [Opnd.int b, Opnd.int d]
    let vec := [Opnd.int b, Opnd.vector d slots]
    let at_ (a : W64) (len align : Nat) (s : State) : Prop := a.toNat % align = 0 ∧ localTarget s.cur.core a = (c, off) ∧
      off + len ≤ 98304 ∧ s.LocalNow c off len
    let n (s : State) (len : Nat) : Nat := ofBytes (s.spmRead c off len)
    let stored (len n : Nat) (s : State) : State := (touchAt c off len s).spmWrite c off (bytesOf len n)
    (∀ i ∈ [Instr.ldl st w d b o, .ldlAcq st w d b o],
      Completes i st.toNat one (some (.int d)) (fun s => at_ (addr one size s) size size s) (fun s =>
        deliver (.int d) .now [BitVec.ofNat 64 (n s size)] (consume one (touchAt c off size s)))) ∧
    (∀ i ∈ [Instr.stl st w d b o, .stlRel st w d b o], Completes i st.toNat two none
      (fun s => at_ (addr two size s) size size s ∧ (i = .stlRel st w d b o → s.releasable = true)) (fun s =>
        stored size (arg1 (s.values two) 1).toNat (consume two s))) ∧
    (q.getLsbD 2 = true → Completes (.ldv st w d b q o) st.toNat one (some (.vector d slots))
      (fun s => at_ (addr one (16 * slots) s) (16 * slots) 16 s) (fun s =>
        deliver (.vector d slots) .now (wordsOf (2 * slots) (n s (16 * slots))) (consume one (touchAt c off (16 * slots) s)))) ∧
    (q.getLsbD 2 = true → Completes (.stv st w d b q o) st.toNat vec none
      (fun s => at_ (addr vec (16 * slots) s) (16 * slots) 16 s ∧ (q = 5 → s.releasable = true)) (fun s =>
        stored (16 * slots) (ofWords (arg (s.values vec) 1)) (consume vec s)))) ∧
  (∀ (st : BitVec 3) (d b : BitVec 5) (o : BitVec 8) (c off : Nat),
    let addr (os : List Opnd) (s : State) : W64 := BitVec.ofInt 64 ((arg1 (s.values os) 0).toInt + o.toInt * 8)
    let one := [Opnd.int b]
    let two := [Opnd.int b, Opnd.int d]
    let at_ (os : List Opnd) (s : State) : Prop := (addr os s).toNat % 8 = 0 ∧ localTarget s.cur.core (addr os s) = (c, off) ∧
      off + 8 ≤ 98304 ∧ s.LocalNow c off 8
    let value (s : State) : W64 := BitVec.ofNat 64 (ofBytes (s.spmRead c off 8))
    let me (e : Bool) (s : State) : FeWaiter := ⟨off / 8, s.cur.core, s.cur.ctx.val, e, addr one s, st.toNat, d, b⟩
    let first (e : Bool) (s : State) : Prop := ∀ x, (waitersOn s c (off / 8)).head? = some x → x = me e s
    let taken (s : State) : State := withdraw c s.cur.core s.cur.ctx.val (consume one (touchAt c off 8 s))
    let stored (s : State) : State := (touchAt c off 8 (consume two s)).spmWrite c off (bytesOf 8 (arg1 (s.values two) 1).toNat)
    Completes (.ldf st d b o) st.toNat one (some (.int d)) (fun s => at_ one s ∧ isFull s c (off / 8) = true ∧ first false s) (fun s =>
      deliver (.int d) .now [value s] (taken s)) ∧
    Completes (.ldfe st d b o) st.toNat one (some (.int d)) (fun s => at_ one s ∧ isFull s c (off / 8) = true ∧ first true s) (fun s =>
      deliver (.int d) .now [value s] (setFull c (off / 8) false (taken s))) ∧
    (∀ e : Bool, let i := if e then Instr.ldfe st d b o else .ldf st d b o
      ∀ s : State, s.Admits i → s.Clear one (some (.int d)) → at_ one s →
      isFull s c (off / 8) = false → (waitersOn s c (off / 8)).contains (me e s) = false →
      exec i s = .next (setWait .full (settled (s.updCore c (fun k => { k with waiters := k.waiters ++ [me e s] }))))) ∧
    Completes (.stf st d b o) st.toNat two none (fun s => at_ two s ∧ s.releasable = true) (fun s => fill c (off / 8) (stored s)) ∧
    (∀ s : State, waitersOn s c (off / 8) = [] → fill c (off / 8) s = setFull c (off / 8) true s) ∧
    Completes (.ste st d b o) st.toNat two none (fun s => at_ two s) (fun s => setFull c (off / 8) false (stored s)))

/-- R140, R141: LDX converts memory elements to lanes and STX lanes to elements, with the flags of the conversions; an LDX of 4-bit elements
that starts at a high half byte reads one byte more. A format that is none of R140's, and a 4-bit one with NIB = 1 in STX, is a format
error. PREF changes nothing that a program can read but what its translation leaves, and for Q 00 the lines the L1 holds. The model
performs the access as the instruction issues (log 7). -/
def Obligations.ConvertingTransfers : Prop :=
  ∀ (st : BitVec 3) (d b : BitVec 5) (l t u : BitVec 1) (o : BitVec 8) (q : BitVec 2) (ps : List Place) (r : State) (p : W64),
    let one := [Opnd.int b]
    let two := [Opnd.int b, Opnd.vector d]
    let lanes : Nat := if t = 1 then 8 else 4
    let width : Nat := fmtBits (ptrFmt p)
    let len : Nat := lanes * width / 8
    let addr : W64 := BitVec.ofInt 64 (p.toInt + o.toInt * len)
    let rounds (s : State) : Prop := s.me.frm ≠ 5 ∨ s.me.srHandle.bound = true
    let fmtOk : Prop := ptrFmt p ≤ 0x0E ∨ ptrFmt p = 0x1D ∨ ptrFmt p = 0x1E
    let high : Prop := (ptrFmt p = 0x03 ∨ ptrFmt p = 0x04) ∧ ptrNib p = true
    let wide : Nat := if high then len + 1 else len
    let whole : Prop := 8 < width → addr.toNat % 2 ^ 55 % (width / 8) = 0
    let near (s : State) (c off len : Nat) : Prop := localTarget s.cur.core addr = (c, off) ∧ off + len ≤ 98304 ∧
      (8 < width → off % (width / 8) = 0) ∧ s.LocalNow c off len
    let home (k : AccessKind) (len : Nat) (rd wr : Bool) (s : State) : Prop := s.ReachesHome (addr.toNat % 2 ^ 55) len k rd wr ps r
    let read (s : State) (bs : List Byte) : List (Nat × Fl) := (List.range lanes).map (fun j => laneOf p t (s.me.rnd s.me.frm j) bs j)
    let gives (es : List (Nat × Fl)) (x : State) : State := useWords x.me.frm lanes (raiseFlags (orFlags es)
      (deliver (.vector d) .now (wordsOf 2 (packFields (128 / lanes) (es.map (·.1)))) (consume one x)))
    let bytes (es : List (Nat × Fl)) : List Byte := bytesOf len (packFields width (es.map (·.1)))
    (l = 0 → Completes (.ldx st d b l t o) st.toNat one (some (.vector d)) (fun s => arg1 (s.values one) 0 = p ∧ fmtOk ∧ whole ∧
        rounds s ∧ home .load wide true false s ∧ r.busy .read ps = false ∧ r.before (.home ps) = [] ∧
        ∀ x ∈ ps, (r.recall ps).badWords.contains ((r.recall ps).wordAt none x) = false)
      (fun s => gives (read s (ps.map (r.recall ps).readByte)) (r.recall ps))) ∧
    (∀ v : List W64, l = 0 → Completes (.stx st d b l t u o) st.toNat two none (fun s => arg1 (s.values two) 0 = p ∧
        arg (s.values two) 1 = v ∧ fmtOk ∧ ¬ high ∧ whole ∧ rounds s ∧ home .store len false true s ∧ r.StoresNow ps) (fun s =>
      let es := stxElements s.me p t u v
      useWords r.me.frm lanes (raiseFlags (orFlags es) (storeHome (addr.toNat % 2 ^ 55) r.me.pc ps (bytes es) (consume two r))))) ∧
    (∀ c off, l = 1 → Completes (.ldx st d b l t o) st.toNat one (some (.vector d)) (fun s => arg1 (s.values one) 0 = p ∧ fmtOk ∧
        rounds s ∧ near s c off wide) (fun s => gives (read s (s.spmRead c off wide)) (touchAt c off wide s))) ∧
    (∀ c off, l = 1 → Completes (.stx st d b l t u o) st.toNat two none (fun s => arg1 (s.values two) 0 = p ∧ fmtOk ∧
        ¬ high ∧ rounds s ∧ near s c off len) (fun s =>
      let es := stxElements s.me p t u (arg (s.values two) 1)
      useWords s.me.frm lanes (raiseFlags (orFlags es) ((touchAt c off len (consume two s)).spmWrite c off (bytes es))))) ∧
    (∀ s : State, s.Admits (.ldx st d b l t o) → s.Clear one (some (.vector d)) → arg1 (s.values one) 0 = p → ¬ fmtOk →
      exec (.ldx st d b l t o) s = .next (takeTrap 0x01 (BitVec.ofNat 64 b.toNat) s.me.pc s)) ∧
    (∀ s : State, s.Admits (.stx st d b l t u o) → s.Clear two none → arg1 (s.values two) 0 = p → (¬ fmtOk ∨ high) →
      exec (.stx st d b l t u o) s = .next (takeTrap 0x01 (BitVec.ofNat 64 b.toNat) s.me.pc s)) ∧
    Completes (.pref st b q o) st.toNat one none always (fun s =>
      let va : Nat := (BitVec.ofInt 64 ((arg1 (s.values one) 0).toInt + o.toInt)).toNat % 2 ^ 55
      let x := walk (consume one s) (dieOf s.cur.core) s.here.vd va .load
      match x.2 with
      | .ok pa => if q = 0 then x.1.fillL1 s.cur.core va [pa] else x.1
      | .busy => consume one s
      | _ => x.1)

/-- R145, R146, R370: an atomic that reaches its word at home delivers the old value and leaves the new one there; the second part says so of
the read-modify-write, byte by byte, where logical rows share no physical row (R248). The model
performs the access as the instruction issues (log 7). R147 to R149, R272: an update combines its operand into the update-only line
of its address, type and op, which is allocated if the L1 does not hold it; a merge combines each word of the line into the word at
home. -/
def Obligations.AtomicsAndUpdates : Prop :=
  let row (s : State) (p : Place) : Nat := cellKey p.rank ((s.rank p.rank).phys p.row) 0
  let apart (s : State) (ps : List Place) (x : Place) : Prop := ∀ p ∈ ps, row s x = row s p → x.rank = p.rank ∧ x.row = p.row
  let inside (x : Place) : Prop := x.byte < 1024 ∧ x.row < 65536
  (∀ (st : BitVec 3) (d a b : BitVec 5) (z : BitVec 2) (ps : List Place) (t : State) (v e : W64),
    let os := [Opnd.int a, Opnd.int b]
    let oc := [Opnd.int a, Opnd.int b 2]
    let at_ (os : List Opnd) (size : Nat) (s : State) : Prop := (arg1 (s.values os) 0).toNat % 2 ^ 55 % size = 0 ∧
      s.releasable = true ∧ s.ReachesHome ((arg1 (s.values os) 0).toNat % 2 ^ 55) size .atomic true true ps t ∧
      t.busy (.atom 0 0 0) ps = false ∧ ∀ p ∈ ps, (t.recall ps).badWords.contains ((t.recall ps).wordAt none p) = false
    let A (i : Instr) (f : (n : Nat) → BitVec n → BitVec n → BitVec n) : Prop :=
      let n := 8 * 2 ^ z.toNat
      Completes i st.toNat os (some (.int d)) (fun s => at_ os (2 ^ z.toNat) s ∧ arg1 (s.values os) 1 = v) (fun _ =>
        let r := rmwHome ps (fun old => (f n (BitVec.ofNat n old) (BitVec.ofNat n v.toNat)).toNat) (consume os t)
        deliver (.int d) .now [BitVec.ofNat 64 r.2] (acquire true r.1))
    A (.atomFadd st d a b z) (fun _ x y => x + y) ∧
    A (.atomFand st d a b z) (fun _ x y => x &&& y) ∧
    A (.atomFor st d a b z) (fun _ x y => x ||| y) ∧
    A (.atomFxor st d a b z) (fun _ x y => x ^^^ y) ∧
    A (.atomFmin st d a b z) (fun _ x y => if x.toInt < y.toInt then x else y) ∧
    A (.atomFmax st d a b z) (fun _ x y => if x.toInt < y.toInt then y else x) ∧
    A (.atomFminu st d a b z) (fun _ x y => if x.toNat < y.toNat then x else y) ∧
    A (.atomFmaxu st d a b z) (fun _ x y => if x.toNat < y.toNat then y else x) ∧
    A (.atomSwap st d a b z) (fun _ _ y => y) ∧
    Completes (.atomCas st d a b) st.toNat oc (some (.int d))
      (fun s => at_ oc 8 s ∧ wd (arg (s.values oc) 1) 0 = e ∧ wd (arg (s.values oc) 1) 1 = v) (fun _ =>
        let r := rmwHome ps (fun old => if BitVec.ofNat 64 old = e then v.toNat else old % 2 ^ 64) (consume oc t)
        deliver (.int d) .now [BitVec.ofNat 64 r.2] (acquire true r.1))) ∧
  (∀ (ps : List Place) (f : Nat → Nat) (s : State), Memory.wf s.mem = true → ps.Nodup →
    (∀ p ∈ ps, inside p ∧ apart s ps p ∧ (s.inFootprint p.rank p.row = true ∨ (s.rank p.rank).heldByte (p.row * 1024 + p.byte) = none)) →
    s.updatesOf (ps.map (fun p => p.key / 64)) = [] →
    let r := rmwHome ps f s
    let old : Nat := ofBytes (ps.map s.readByte)
    r.2 = old ∧ (∀ i (h : i < ps.length), r.1.readByte ps[i] = BitVec.ofNat 8 (f old / 256 ^ i)) ∧
      ∀ x, inside x → apart s ps x → x ∉ ps → r.1.readByte x = s.readByte x) ∧
  (∀ (st : BitVec 3) (a b : BitVec 5) (ty : BitVec 3) (ps : List Place) (t : State) (v : W64),
    let os := [Opnd.int a, Opnd.int b]
    let size : Nat := if ty.toNat % 2 = 0 then 4 else 8
    let va (s : State) : Nat := (arg1 (s.values os) 0).toNat % 2 ^ 55
    let at_ (op : Nat) (s : State) : Prop := va s % size = 0 ∧
      s.ReachesHome (va s) size .atomic false true ps t (u := some (ty.toNat, op)) ∧
      t.before (.home ps) = [] ∧ arg1 (s.values os) 1 = v
    let U (i : Instr) (op : Nat) : Prop := Completes i st.toNat os none (at_ op) (fun s =>
      updHome s.cur.core (va s) (v.toNat % 2 ^ (8 * size)) (updAlloc s.cur.core (va s) ty.toNat op (consume os t)))
    let int (n : Nat) (op : Nat) (f : BitVec n → BitVec n → BitVec n) (ok : Prop) : Prop :=
      ok → ∀ x y : BitVec n, updCombine ty.toNat op x.toNat y.toNat = (f x y).toNat
    let n := 8 * size
    U (.updAdd st a b ty) 0 ∧ U (.updMin st a b ty) 1 ∧ U (.updMax st a b ty) 2 ∧ U (.updAmax st a b ty) 3 ∧
    U (.updAnd st a b ty) 4 ∧ U (.updOr st a b ty) 5 ∧ U (.updXor st a b ty) 6 ∧
    int n 0 (· + ·) (ty.toNat < 4) ∧ int n 4 (· &&& ·) (ty.toNat < 4) ∧ int n 5 (· ||| ·) (ty.toNat < 4) ∧ int n 6 (· ^^^ ·) (ty.toNat < 4) ∧
    int n 1 (fun x y => if x.toInt < y.toInt then x else y) (ty.toNat < 2) ∧
    int n 2 (fun x y => if x.toInt < y.toInt then y else x) (ty.toNat < 2) ∧
    int n 1 (fun x y => if x.toNat < y.toNat then x else y) (2 ≤ ty.toNat ∧ ty.toNat < 4) ∧
    int n 2 (fun x y => if x.toNat < y.toNat then y else x) (2 ≤ ty.toNat ∧ ty.toNat < 4) ∧
    int n 3 (fun x y => BitVec.ofNat n (max x.toInt.natAbs y.toInt.natAbs)) (ty.toNat < 2)) ∧
  (∀ (l : UpdLine) (off y : Nat),
    lookup off (l.add off y).words = some ((lookup off l.words).elim y (fun x => updCombine l.ty l.op x y)) ∧
    (∀ k, k ≠ off → lookup k (l.add off y).words = lookup k l.words) ∧ (l.add off y).ty = l.ty ∧ (l.add off y).op = l.op) ∧
  (∀ (vd ty op v : Nat) (ps : List Place) (s : State), (∀ p ∈ ps, s.badWords.contains (s.wordAt none p) = false) →
    applyUpdate vd none ps ty op v State.writePlaces s =
      s.writePlaces (ps.zip (bytesOf ps.length (updCombine ty op (ofBytes (ps.map s.readByte)) v))))

/-- R135, R287: an access whose translation fails goes to the pagers as a fault of the cause that the walk names; nothing else
happens but what the walk itself leaves. Loads, stores, atomics and updates alike. -/
def Obligations.TranslationFaults : Prop :=
  ∀ (st : BitVec 3) (d a b : BitVec 5) (w z : BitVec 2) (ty : BitVec 3) (t : State) (c va' : Nat),
    let fails (s : State) (va len : Nat) (k : AccessKind) (u : Option (Nat × Nat)) : Prop := s.me.hold = none ∧
      (s.mergeOwn s.cur.core u va len).translate s.cur.core k u va len = (t, .error (.fault c, va'))
    (∀ s : State, s.Admits (.ld st w d b 0 0) → s.Clear [.int b] (some (.int d)) →
      let va := (arg1 (s.values [.int b]) 0).toNat % 2 ^ 55
      va % 2 ^ w.toNat = 0 → fails s va (2 ^ w.toNat) .load none →
      exec (.ld st w d b 0 0) s = .next (takeFault c (BitVec.ofNat 64 va') 0 (settled t))) ∧
    (∀ s : State, s.Admits (.st st w d b 0 0) → s.Clear [.int b, .int d] none →
      let va := (arg1 (s.values [.int b, .int d]) 0).toNat % 2 ^ 55
      va % 2 ^ w.toNat = 0 → fails s va (2 ^ w.toNat) .store none →
      exec (.st st w d b 0 0) s = .next (takeFault c (BitVec.ofNat 64 va') 1 (settled t))) ∧
    (∀ s : State, s.Admits (.atomFadd st d a b z) → s.Clear [.int a, .int b] (some (.int d)) →
      let va := (arg1 (s.values [.int a, .int b]) 0).toNat % 2 ^ 55
      va % 2 ^ z.toNat = 0 → s.releasable = true → fails s va (2 ^ z.toNat) .atomic none →
      exec (.atomFadd st d a b z) s = .next (takeFault c (BitVec.ofNat 64 va') 2 (settled t))) ∧
    (∀ s : State, s.Admits (.updAdd st a b ty) → s.Clear [.int a, .int b] none →
      let va := (arg1 (s.values [.int a, .int b]) 0).toNat % 2 ^ 55
      let size : Nat := if ty.toNat % 2 = 0 then 4 else 8
      va % size = 0 → fails s va size .atomic (some (ty.toNat, 0)) →
      exec (.updAdd st a b ty) s = .next (takeFault c (BitVec.ofNat 64 va') 2 (settled t)))

/-- R248, R254, R255: bytes written at their places read back, and no other byte changes; in a row of an open course's footprint the
write is held and the bank's own byte stays. Logical rows that share no physical row are assumed (R248). R342: a store at its home
leaves the stored bytes to be read back, every byte outside them as it was, and the registers of every context; it leaves one more access
to acknowledge, and a context that waits in WAITA for one of the lines looks again (R107). R217: other cores lose their copies of the
lines. -/
def Obligations.StoredBytes : Prop :=
  let row (s : State) (p : Place) : Nat := cellKey p.rank ((s.rank p.rank).phys p.row) 0
  let apart (s : State) (ps : List Place) (x : Place) : Prop := ∀ p ∈ ps, row s x = row s p → x.rank = p.rank ∧ x.row = p.row
  let inside (x : Place) : Prop := x.byte < 1024 ∧ x.row < 65536
  (∀ (s : State) (ps : List Place) (bs : List Byte), Memory.wf s.mem = true → ps.length = bs.length → ps.Nodup →
    (∀ p ∈ ps, inside p ∧ apart s ps p) →
    let t := s.writePlaces (ps.zip bs)
    ((∀ p ∈ ps, s.inFootprint p.rank p.row = false ∧ (s.rank p.rank).heldByte (p.row * 1024 + p.byte) = none) →
      ∀ i (h : i < ps.length), t.readByte ps[i] = bs.getD i 0) ∧
    ((∀ p ∈ ps, s.inFootprint p.rank p.row = true) →
      (∀ i (h : i < ps.length), t.readByte ps[i] = bs.getD i 0) ∧ ∀ p, t.bankByte p = s.bankByte p) ∧
    (∀ x : Place, inside x → apart s ps x → x ∉ ps → t.readByte x = s.readByte x)) ∧
  (∀ (s : State) (va : Nat) (pc : W64) (ps : List Place) (bs : List Byte), Memory.wf s.mem = true → s.partOfBad ps = false →
    ps.length = bs.length → ps.Nodup → (∀ p ∈ ps, inside p ∧ apart s ps p) → s.updatesOf (ps.map (fun p => p.key / 64)) = [] →
    let t := storeHome va pc ps bs s
    let lines := ps.map (fun p => p.key / 64)
    (∀ i (h : i < ps.length), (s.inFootprint ps[i].rank ps[i].row = true ∨
        (s.rank ps[i].rank).heldByte (ps[i].row * 1024 + ps[i].byte) = none) → t.readByte ps[i] = bs.getD i 0) ∧
    (∀ x : Place, inside x → apart s ps x → x ∉ ps → t.readByte x = s.readByte x) ∧
    (∀ c, { t.core c with l1 := (s.core c).l1, ctxs := (s.core c).ctxs } = s.core c ∧ ∀ l ∈ (t.core c).l1, l ∈ (s.core c).l1) ∧
    (∀ (c : Nat) (x : Fin 11), (c ≠ s.cur.core ∨ x ≠ s.cur.ctx) → (t.core c).ctxs[x] = ((s.core c).ctxs[x]).reread lines) ∧
    t.me = { s.me.reread lines with unacked := s.me.unacked + 1 })

/-! ### Ports and groups -/

/-- R151, R154 to R156: binding, status, draining and ordering of ports. That PDRAIN counts, besides the words in the queue, those that
came in while it waited is the model's reading (log 12). -/
def Obligations.Ports : Prop :=
  ∀ (st : BitVec 3) (d a b : BitVec 5), 24 ≤ a.toNat → a.toNat < 28 →
    let p : Nat := a.toNat - 24
    let port (s : State) : Port := s.me.ports[ptrIx p]
    let quiet (s : State) : Prop := s.unsent s.here.origin s.cur.ctx.val p = false
    Completes (.pbind st a b) st.toNat [.int b] none (fun s => bindOk s (arg1 (s.values [.int b]) 0) = true) (fun s =>
      bind (arg1 (s.values [.int b]) 0) p (consume [.int b] s)) ∧
    Completes (.pstat st d a) st.toNat [] (some (.int d)) (fun s => (port s).dest = none) (fun s =>
      deliver (.int d) .now [BitVec.ofNat 64 ((port s).queue.length + if (port s).standing then 2 ^ 17 else 0)] s) ∧
    (∀ e : PortDest, Completes (.pstat st d a) st.toNat [] (some (.int d)) (fun s => (port s).dest = some e) (fun s =>
      deliver (.int d) .now [BitVec.ofNat 64 ((port s).queue.length + (if (port s).standing then 2 ^ 17 else 0) + (2 ^ 16 +
        e.core * 2 ^ 32 + e.ctx * 2 ^ 44 + e.port * 2 ^ 48))] s)) ∧
    Completes (.pdrain st d a) st.toNat [] (some (.int d)) (fun s => (port s).dest = none) (deliver (.int d) .now [0]) ∧
    Completes (.pdrain st d a) st.toNat [] (some (.int d)) (fun s => (port s).dest ≠ none ∧ quiet s) (fun s =>
      deliver (.int d) .now [BitVec.ofNat 64 ((lookup s.me.pc.toNat s.me.drained).getD 0 + (port s).queue.length)]
        ((s.updHere (setPort s.cur.ctx.val p Port.reset)).updMe (fun c => { c with drained := drop s.me.pc.toNat c.drained }))) ∧
    Completes (.pord st a) st.toNat [] none (fun s => (port s).dest ≠ none ∧ quiet s) (fun s => s)

/-- R157 to R159: membership, phases and elections of a group the core belongs to. A BARW or BAR of a group with members in another
package drops what an acquire at DOMAIN drops, as `acquire` says. -/
def Obligations.Groups : Prop :=
  ∀ (st : BitVec 3) (d a b : BitVec 5) (g m : Nat),
    let one := [Opnd.int a]
    let two := [Opnd.int a, Opnd.int b]
    let names (os : List Opnd) (s : State) : Prop := (arg1 (s.values os) 0).toNat = g ∧ g < 256 ∧ s.memberIx g = some m ∧ s.groupOf g ≠ []
    let phase (s : State) : Nat := (s.tracker g).count m
    let all (s : State) (p : Nat) : Prop := ∀ k < (s.groupOf g).length, p < (s.tracker g).count k
    Completes (.gidx st d a) st.toNat one (some (.int d)) (names one) (gives one (.int d) atOnce (fun _ _ => [BitVec.ofNat 64 m])) ∧
    Completes (.gsize st d a) st.toNat one (some (.int d))
      (fun s => (arg1 (s.values one) 0).toNat = g ∧ g < 256 ∧ s.groupOf g ≠ [])
      (gives one (.int d) atOnce (fun s _ => [BitVec.ofNat 64 (s.groupOf g).length])) ∧
    Completes (.bara st d a) st.toNat one (some (.int d)) (fun s => names one s ∧ s.releasable = true) (fun s =>
      deliver (.int d) .now [BitVec.ofNat 64 (phase s)] (arriveAt g (consume one s))) ∧
    Completes (.barw st a b) st.toNat two none (fun s => names two s ∧ (arg1 (s.values two) 1).toNat < phase s ∧
      all s (arg1 (s.values two) 1).toNat) (fun s => acquire (s.crosses g) (consume two s)) ∧
    Completes (.bar st a) st.toNat one none (fun s => names one s ∧ lookup s.me.pc.toNat s.me.barrier = none ∧ s.releasable = true ∧
      all (arriveAt g s) (phase s)) (fun s => acquire (s.crosses g) (consume one (arriveAt g s))) ∧
    (∀ p, Completes (.bar st a) st.toNat one none (fun s => names one s ∧ lookup s.me.pc.toNat s.me.barrier = some p ∧ all s p)
      (fun s => (acquire (s.crosses g) (consume one s)).updMe (fun c => { c with barrier := drop s.me.pc.toNat c.barrier }))) ∧
    Completes (.elect st d a) st.toNat one (some (.int d)) (names one) (fun s =>
      let k := (lookup m (s.tracker g).elected).getD 0
      let won := !(s.tracker g).won.contains k
      deliver (.int d) .now [if won then 1 else 0] ((consume one s).updTracker g (fun t =>
        { t with elected := put m (k + 1) t.elected, won := if won then t.won ++ [k] else t.won })))

/-! ### Vectors and floats -/

/-- R111, R112: the VI members work lane by lane, modulo 2^e. -/
def Obligations.VectorIntegers : Prop :=
  ∀ (st : BitVec 3) (d a b : BitVec 5) (e : BitVec 2),
    let w : Nat := 8 * 2 ^ e.toNat
    let os := [Opnd.vector a, Opnd.vector b]
    let V (i : Instr) (f : BitVec w → BitVec w → BitVec w) : Prop := Computes i st.toNat os (.vector d) (after os 1) (fun _ vs =>
      joinLanes w (List.zipWith (fun x y => (f (BitVec.ofNat w x) (BitVec.ofNat w y)).toNat) (lanesOf w (arg vs 0)) (lanesOf w (arg vs 1))))
    let mask (p : Prop) [Decidable p] : BitVec w := if p then BitVec.allOnes w else 0
    V (.vadd st d a b e) (· + ·) ∧ V (.vsub st d a b e) (· - ·) ∧ V (.vmul st d a b e) (· * ·) ∧
    V (.vmin st d a b e) (fun x y => if x.toInt < y.toInt then x else y) ∧
    V (.vmax st d a b e) (fun x y => if x.toInt < y.toInt then y else x) ∧
    V (.vminu st d a b e) (fun x y => if x.toNat < y.toNat then x else y) ∧
    V (.vmaxu st d a b e) (fun x y => if x.toNat < y.toNat then y else x) ∧
    V (.vand st d a b e) (· &&& ·) ∧ V (.vor st d a b e) (· ||| ·) ∧ V (.vxor st d a b e) (· ^^^ ·) ∧
    V (.vshl st d a b e) (fun x y => BitVec.ofNat w (x.toNat * 2 ^ (y.toNat % w))) ∧
    V (.vshr st d a b e) (fun x y => BitVec.ofNat w (x.toNat / 2 ^ (y.toNat % w))) ∧
    V (.vsar st d a b e) (fun x y => BitVec.ofInt w (x.toInt / 2 ^ (y.toNat % w))) ∧
    V (.vceq st d a b e) (fun x y => mask (x = y)) ∧
    V (.vclt st d a b e) (fun x y => mask (x.toInt < y.toInt)) ∧
    V (.vcltu st d a b e) (fun x y => mask (x.toNat < y.toNat))

/-- R47, R53, R63, R113, R114: the VF members: `arith` members round once under $mode.FRM and raise the events of every lane;
`plain` ones do not round. -/
def Obligations.VectorFloats : Prop :=
  ∀ (st : BitVec 3) (d a b : BitVec 5) (t : BitVec 2),
    let F : FloatFmt := vfFmt t
    let w : Nat := F.width
    let n : Nat := 128 / w
    let one := [Opnd.vector a]
    let two := [Opnd.vector a, Opnd.vector b]
    let three := [Opnd.vector a, Opnd.vector b, addend d]
    let run (i : Instr) (os : List Opnd) (lat words : Nat) (f : Rnd → Nat → Nat → Nat → Nat × Fl) : Prop :=
      ComputesF i st.toNat os (.vector d) (after os lat) Context.frm words (fun c vs =>
        let l (k j : Nat) : Nat := (lanesOf w (arg vs k)).getD j 0
        let rs := (List.range n).map (fun j => f (c.rnd c.frm j) (l 0 j) (l 1 j) (l 2 j))
        (joinLanes w (rs.map (·.1)), orFlags rs))
    let ones (r : Bool × Fl) : Nat × Fl := (if r.1 then 2 ^ w - 1 else 0, r.2)
    run (.vfadd st d a b t) two 3 n (fun r x y _ => fadd F r x y) ∧
    run (.vfsub st d a b t) two 3 n (fun r x y _ => fsub F r x y) ∧
    run (.vfmul st d a b t) two 3 n (fun r x y _ => fmul F r x y) ∧
    run (.vfma st d a b t) three 4 n (fun r x y z => fma F r x y z) ∧
    run (.vfmin st d a b t) two 3 0 (fun _ x y _ => fminmax F false x y) ∧
    run (.vfmax st d a b t) two 3 0 (fun _ x y _ => fminmax F true x y) ∧
    run (.vfabs st d a t) one 3 0 (fun _ x _ _ => (x % 2 ^ (w - 1), 0)) ∧
    run (.vfneg st d a t) one 3 0 (fun _ x _ _ => (if x < 2 ^ (w - 1) then x + 2 ^ (w - 1) else x - 2 ^ (w - 1), 0)) ∧
    run (.vfceq st d a b t) two 3 0 (fun _ x y _ => ones (fceq F x y)) ∧
    run (.vfclt st d a b t) two 3 0 (fun _ x y _ => ones (fcmp F false x y)) ∧
    run (.vfcle st d a b t) two 3 0 (fun _ x y _ => ones (fcmp F true x y)) ∧
    run (.vfrnd st d a t) one 3 n (fun r x _ _ => frnd F r x) ∧
    run (.vfscl st d a b t) two 3 n (fun r x y _ => fscl F r x (max (-5000) (min 5000 (BitVec.ofNat w y).toInt))) ∧
    run (.vfcls st d a t) one 3 0 (fun _ x _ _ => (fcls F x, 0))

/-- R115, R116: the VX members. -/
def Obligations.VectorExchange : Prop :=
  ∀ (st : BitVec 3) (d a b : BitVec 5) (e : BitVec 2),
    let w : Nat := 8 * 2 ^ e.toNat
    let n : Nat := 128 / w
    let one := [Opnd.vector a]
    let two := [Opnd.vector a, Opnd.vector b]
    let X (i : Instr) (os : List Opnd) (r : List Opnd → State → Ready) (k : Nat) (f : (Nat → Nat) → (Nat → Nat) → Nat → Nat → Nat) : Prop :=
      Computes i st.toNat os (.vector d) (r os) (fun _ vs =>
        let x (j : Nat) : Nat := (lanesOf w (arg vs 0)).getD j 0
        let y (j : Nat) : Nat := (lanesOf w (arg vs 1)).getD j 0
        joinLanes w ((List.range k).map (f x y (arg1 vs (os.length - 1)).toNat)))
    let fast (os : List Opnd) : State → Ready := after os 1
    let slow (_ : List Opnd) : State → Ready := atOnce
    let sgn (x : Nat) : Int := (BitVec.ofNat w x).toInt
    (b.toNat < n → X (.vsplat st d a b e) one fast n (fun x _ _ _ => x b.toNat)) ∧
    (b.toNat < n → Computes (.vext st d a b e) st.toNat one (.vector d) (fast one) (fun _ vs =>
      [(BitVec.ofNat w ((lanesOf w (arg vs 0)).getD b.toNat 0)).signExtend 64, 0])) ∧
    (b.toNat < n → X (.vins st d a b e) [.vector a, b0] fast n (fun x _ c j => if j = b.toNat then c else x j)) ∧
    X (.vshuf st d a b e) two fast n (fun x y _ j => if y j < n then x (y j) else 0) ∧
    X (.vrev st d a e) one fast n (fun x _ _ j => x (n - 1 - j)) ∧
    X (.vzip st d a b e) two fast n (fun x y _ j => if j % 2 = 0 then x (j / 2) else y (j / 2)) ∧
    X (.vunz st d a b e) two fast n (fun x y _ j => if j < n / 2 then x (2 * j) else y (2 * (j - n / 2))) ∧
    X (.vsumh st d a e) one slow 1 (fun x _ _ _ => ((List.range n).map x).sum) ∧
    X (.vamaxh st d a e) one slow 1 (fun x _ _ _ => ((List.range n).map (fun j => x j % 2 ^ (w - 1))).foldl max 0) ∧
    (∃ f : (Nat → Nat) → Nat, (∀ x, (∃ j < n, f x = x j) ∧ ∀ j < n, sgn (x j) ≤ sgn (f x)) ∧
      X (.vmaxh st d a e) one slow 1 (fun x _ _ _ => f x)) ∧
    X (.vsel st d a b e) [.vector a, .vector b, b0] fast n (fun x y c j => if c / 2 ^ j % 2 = 1 then x j else y j) ∧
    X (.vabs st d a e) one fast n (fun x _ _ j => (sgn (x j)).natAbs) ∧
    Computes (.vdot4 st d a b) st.toNat [.vector a, .vector b, addend d] (.vector d) atOnce (fun _ vs =>
      let x (j : Nat) : Int := (BitVec.ofNat 8 ((lanesOf 8 (arg vs 0)).getD j 0)).toInt
      let y (j : Nat) : Int := (BitVec.ofNat 8 ((lanesOf 8 (arg vs 1)).getD j 0)).toInt
      joinLanes 32 ((List.range 4).map (fun j => (BitVec.ofInt 32 ((lanesOf 32 (arg vs 2)).getD j 0 + (x (4 * j) * y (4 * j) +
        x (4 * j + 1) * y (4 * j + 1) + x (4 * j + 2) * y (4 * j + 2) + x (4 * j + 3) * y (4 * j + 3)))).toNat))) ∧
    Computes (.vmov st d a e) st.toNat one (.vector d) (fast one) (fun _ vs => arg vs 0)

/-- R47, R48 to R51, R117, R118: conversions and the scalar floats. -/
def Obligations.ScalarFloats : Prop :=
  ∀ (st : BitVec 3) (d a b : BitVec 5) (x y : BitVec 5) (t : BitVec 1),
    let one := [Opnd.int a]
    let two := [Opnd.int a, Opnd.int b]
    let F : FloatFmt := sfFmt t
    let cut (v : Nat) : Nat := v % 2 ^ F.width
    let run (i : Instr) (os : List Opnd) (words : Nat) (f : Rnd → Nat → Nat → Nat × Fl) : Prop :=
      ComputesF i st.toNat os (.int d) (after os 3) Context.frm words (fun c vs =>
        let r := f (c.rnd c.frm 0) (arg1 vs 0).toNat (arg1 vs 1).toNat
        ([BitVec.ofNat 64 r.1], r.2))
    let flag (r : Bool × Fl) : Nat × Fl := (if r.1 then 1 else 0, r.2)
    let sat : Bool := t == 1
    let n : Nat := 128 / max (fmtBits x.toNat) (fmtBits y.toNat)
    let conv (i : Instr) (mode : Context → Nat) : Prop :=
      ComputesF i st.toNat [.vector a] (.vector d) (after [.vector a] 3) mode n (fun c vs =>
        let rs := (List.range n).map (fun j => convert x.toNat sat (intFmt y.toNat).isSome (c.rnd (mode c) j)
          (valueOf y.toNat (ofWords (arg vs 0) / 2 ^ (fmtBits y.toNat * j) % 2 ^ fmtBits y.toNat)))
        (joinLanes (fmtBits x.toNat) (rs.map (·.1)), orFlags rs))
    run (.fadd st d a b t) two 1 (fun r x y => fadd F r (cut x) (cut y)) ∧
    run (.fsub st d a b t) two 1 (fun r x y => fsub F r (cut x) (cut y)) ∧
    run (.fmul st d a b t) two 1 (fun r x y => fmul F r (cut x) (cut y)) ∧
    run (.fmin st d a b t) two 0 (fun _ x y => fminmax F false (cut x) (cut y)) ∧
    run (.fmax st d a b t) two 0 (fun _ x y => fminmax F true (cut x) (cut y)) ∧
    run (.fabs st d a t) one 0 (fun _ x _ => (x % 2 ^ (F.width - 1), 0)) ∧
    run (.fceq st d a b t) two 0 (fun _ x y => flag (fceq F (cut x) (cut y))) ∧
    run (.fclt st d a b t) two 0 (fun _ x y => flag (fcmp F false (cut x) (cut y))) ∧
    run (.fcle st d a b t) two 0 (fun _ x y => flag (fcmp F true (cut x) (cut y))) ∧
    run (.fcvti st d a t) one 1 (fun r x _ => toInt 64 true Fl.NV r (F.value (cut x))) ∧
    run (.fcvtf st d a t) one 1 (fun r x _ => F.convert false r (.fin (decide ((BitVec.ofNat 64 x).toInt < 0)) (BitVec.ofNat 64 x).toInt.natAbs 0)) ∧
    run (.fcvtw st d a t) one 1 (fun r x _ => F.convert false r ((sfFmt (1 - t)).value (x % 2 ^ (sfFmt (1 - t)).width))) ∧
    conv (.vcvt st d a x y t) Context.frm ∧ conv (.vcvts st d a x y t) (fun _ => 5)

/-- R119, R120: an SFU instruction whose queue has room enters the queue with its result; its destination, whatever it is, waits for
the unit. -/
def Obligations.SpecialFunctions : Prop :=
  ∀ (st : BitVec 3) (d a : BitVec 5) (t : BitVec 1),
    let os := [Opnd.vector a]
    let F : FloatFmt := if t = 1 then ⟨8, 7, 127, .ieee⟩ else ⟨8, 23, 127, .ieee⟩
    let res (g : SfuFn) (s : State) : List W64 × Fl :=
      let rs := (lanesOf F.width (arg (s.values os) 0)).map (sfuLane g F)
      (joinLanes F.width (rs.map (·.1)), orFlags rs)
    let S (i : Instr) (g : SfuFn) : Prop :=
      Completes i st.toNat os (some (.vector d)) (fun s => s.here.sfu.length < 4) (fun s =>
        let r := res g s
        let q := deliver (.vector d) (.later s.nextId) r.1 (consume os s)
        raiseFlags r.2 { q.updHere (fun k => { k with sfu := k.sfu ++ [⟨q.cur.ctx.val, q.nextId, toV r.1, false⟩] }) with nextId := q.nextId + 1 })
    S (.frcp st d a t) .rcp ∧ S (.frsq st d a t) .rsq ∧ S (.fsqrt st d a t) .sqrt ∧ S (.fexp2 st d a t) .exp2 ∧
    S (.flog2 st d a t) .log2 ∧ S (.fsinp st d a t) .sinp ∧ S (.fcosp st d a t) .cosp ∧ S (.ftanh st d a t) .tanh ∧
    S (.ferf st d a t) .erf

/-! ### Lazy-uniform values and streams -/

/-- R124: word i of a counting stream is i × 9E3779B1h plus the low half of the stream number; word 16j + k of a keyed one is word k
of a ChaCha block of 6 double rounds with counter j. R125: SBIND, SFREE, RNDW, RNDV and SGEN. -/
def Obligations.Streams : Prop :=
  (∀ (h : Stream) (i : Nat),
    (h.counting = true → (h.word i).toNat = (i * 0x9E3779B1 + h.sid.toNat) % 2 ^ 32) ∧
    (h.counting = false → ∀ j k, k < 16 → i = 16 * j + k →
      h.word i = (iterate doubleRound 6 (chachaInput h.key h.sid j)).getD k 0 + (chachaInput h.key h.sid j).getD k 0) ∧
    (∀ j, j < 2 ^ 64 → (chachaInput h.key h.sid j).map BitVec.toNat = [0x61707865, 0x3320646E, 0x79622D32, 0x6B206574] ++
      (List.range 8).map (fun k => h.key.toNat / 2 ^ (32 * k) % 2 ^ 32) ++
      [j % 2 ^ 32, j / 2 ^ 32, h.sid.toNat % 2 ^ 32, h.sid.toNat / 2 ^ 32])) ∧
  (∀ (st : BitVec 3) (d a b : BitVec 5) (k : Fin 16),
    let two := [Opnd.int a, Opnd.int b]
    let one := [Opnd.int a]
    let off (s : State) : Nat := (arg1 (s.values two) 0).toNat % 2 ^ 17
    let field (s : State) (o n : Nat) : Nat := ofBytes (s.spmRead s.cur.core (off s + o) n)
    let handle (s : State) : Stream := s.me.hnd[k]
    let set (f : Stream → Stream) (s : State) : State := s.updMe (fun c => { c with hnd := c.hnd.set k (f c.hnd[k]) })
    let at_ (s : State) (i : Nat) : W64 := BitVec.ofNat 64 (((handle s).word i).toNat + 2 ^ 32 * ((handle s).word (i + 1)).toNat)
    let drawn (s : State) : Prop := (arg1 (s.values two) 0).toNat = k ∧ (handle s).bound = true
    Completes (.sbind st a b) st.toNat two none (fun s => off s % 16 = 0 ∧ off s + 48 ≤ 98304 ∧ s.LocalNow s.cur.core (off s) 48 ∧
        (arg1 (s.values two) 1).toNat = k ∧ field s 40 8 < 2) (fun s =>
      set (fun h => ⟨true, BitVec.ofNat 256 (field s 0 32), BitVec.ofNat 64 (field s 32 8), field s 40 8 == 1,
        if h.bound then h.gen + 1 else h.gen⟩) (touch (off s) 48 (consume two s))) ∧
    Completes (.sfree st a) st.toNat one none (fun s => (arg1 (s.values one) 0).toNat = k) (fun s =>
      set (fun h => ⟨false, 0, 0, false, h.gen + 1⟩) (consume one s)) ∧
    Completes (.rndw st d a b) st.toNat two (some (.int d)) drawn
      (gives two (.int d) atOnce (fun s vs => [at_ s (2 * (arg1 vs 1).toNat)])) ∧
    Completes (.rndv st d a b) st.toNat two (some (.int d 2)) drawn
      (gives two (.int d 2) atOnce (fun s vs => [at_ s (4 * (arg1 vs 1).toNat), at_ s (4 * (arg1 vs 1).toNat + 2)])) ∧
    Completes (.sgen st d a) st.toNat one (some (.int d)) (fun s => (arg1 (s.values one) 0).toNat = k)
      (gives one (.int d) atOnce (fun s _ => [(handle s).gen.zeroExtend 64])))

/-- R128, R130, R131: a comparison that the digits at hand, or digits it draws, decide delivers its result and leaves its operand
with the digits it drew; one that 128 digits leave undecided compares as $mode bit 4 says, or traps ZEXH. R126 to R129: drawing,
comparing, extending, inspecting and moving lazy values. R130: an instruction that extends a value whose handle is not bound, or has
another generation, traps HANDLE or ZSTALE and has no other effect. That ZLTZ extends A first where both operands hold the same number
of digits is the model's choice (log 72). -/
def Obligations.LazyValues : Prop :=
  (∀ (st : BitVec 3) (d a b : BitVec 5),
    let flag (p : Prop) [Decidable p] : W64 := if p then 1 else 0
    let stale (c : Context) (z : Lazy) : Option Nat :=
      if 15 < z.handle.toNat ∨ (c.hnd[hndIx z.handle.toNat]).bound = false then some 0x12
      else if z.gen ≠ (c.hnd[hndIx z.handle.toNat]).gen then some 0x11 else none
    let cmp (i : Instr) (src : Opnd) (quick : List W64 → Option W64) (test : List W64 → Nat → Nat → Option W64)
        (last : List W64 → Nat → W64) (raises : List W64 → Fl) : Prop :=
      let v (s : State) : List W64 := arg (s.values [src]) 0
      let run (s : State) : Except Stop Decided := decideLoop s.me (test (v s)) 5 (s.me.lazy a)
      let done (r : W64) (z : Lazy) (s : State) : State :=
        raiseFlags (raises (v s)) (deliver (.int d) .now [r] (setLazy a z (consume [src] s)))
      (∀ r, Completes i st.toNat [src] (some (.int d)) (fun s => quick (v s) = some r) (fun s => done r (s.me.lazy a) s)) ∧
      (∀ r z, Completes i st.toNat [src] (some (.int d)) (fun s => quick (v s) = none ∧ run s = .ok (.val r z)) (done r z)) ∧
      (∀ z, Completes i st.toNat [src] (some (.int d))
        (fun s => quick (v s) = none ∧ run s = .ok (.exhausted z) ∧ s.me.mode.getLsbD 4 = true)
        (fun s => done (last (v s) z.prefix) z s)) ∧
      (∀ (z : Lazy) (s : State), s.Admits i → s.Clear [src] (some (.int d)) → quick (v s) = none → run s = .ok (.exhausted z) →
        s.me.mode.getLsbD 4 = false → exec i s = .next (takeTrap 0x10 (a.zeroExtend 64) s.me.pc (settled (setLazy a z s)))) ∧
      (∀ (k : Nat) (s : State), s.Admits i → s.Clear [src] (some (.int d)) → quick (v s) = none →
        test (v s) (s.me.lazy a).prefix (s.me.lazy a).len = none → (s.me.lazy a).len ≠ 128 → stale s.me (s.me.lazy a) = some k →
        exec i s = .next (takeTrap k ((s.me.lazy a).handle.zeroExtend 64) s.me.pc s))
    let interval (n m p l : Nat) : Option W64 :=
      if n * 2 ^ l ≤ p * m then some 0 else if (p + 1) * m ≤ n * 2 ^ l then some 1 else none
    cmp (.zltq st d a b) (.int b 2)
      (fun v => if wd v 1 = 0 ∨ (wd v 1).toNat ≤ (wd v 0).toNat then some 1 else if wd v 0 = 0 then some 0 else none)
      (fun v => interval (wd v 0).toNat (wd v 1).toNat)
      (fun v p => flag (p * (wd v 1).toNat < (wd v 0).toNat * 2 ^ 128)) (fun _ => 0) ∧
    cmp (.zltf st d a b) (.int b) zltfQuick (fun v => interval (zltfFrac v).1 (zltfFrac v).2)
      (fun v p => flag (p * (zltfFrac v).2 < (zltfFrac v).1 * 2 ^ 128)) (fun v => Fl.on (zltfNum v).isNan Fl.NV) ∧
    cmp (.zfloor st d a b) (.int b) (fun v => if (wd v 0).toNat ≤ 1 then some 0 else none)
      (fun v p l => if p * (wd v 0).toNat / 2 ^ l = ((p + 1) * (wd v 0).toNat - 1) / 2 ^ l then
        some (BitVec.ofNat 64 (p * (wd v 0).toNat / 2 ^ l)) else none)
      (fun v p => BitVec.ofNat 64 (p * (wd v 0).toNat / 2 ^ 128)) (fun _ => 0)) ∧
  (∀ (st : BitVec 3) (d a b : BitVec 5),
    let two := [Opnd.int a, Opnd.int b]
    let one := [Opnd.int a]
    let right := [Opnd.int b]
    let off (os : List Opnd) (s : State) : Nat := (arg1 (s.values os) 0).toNat % 2 ^ 17
    let both (x y : Lazy) (s : State) : State := setLazy b y (setLazy a x s)
    let loop (s : State) : Except Stop (Option W64 × Lazy × Lazy) := ltzLoop s.me 9 (s.me.lazy a) (s.me.lazy b)
    let stale (c : Context) (z : Lazy) : Option Nat :=
      if 15 < z.handle.toNat ∨ (c.hnd[hndIx z.handle.toNat]).bound = false then some 0x12
      else if z.gen ≠ (c.hnd[hndIx z.handle.toNat]).gen then some 0x11 else none
    let traps (i : Instr) (k : Nat) (z : Lazy) (s : State) : Prop :=
      exec i s = .next (takeTrap k (z.handle.zeroExtend 64) s.me.pc s)
    (∀ k : Fin 16, Completes (.zdraw st d a b) st.toNat two none
      (fun s => (arg1 (s.values two) 0).toNat = k ∧ (s.me.hnd[k]).bound = true) (fun s =>
        setLazy d ⟨0, 0, BitVec.ofNat 16 k, (s.me.hnd[k]).gen, arg1 (s.values two) 1⟩ (consume two s))) ∧
    Completes (.zltz st d a b) st.toNat [] (some (.int d)) (fun s => (s.me.lazy a).ident = (s.me.lazy b).ident)
      (deliver (.int d) .now [0]) ∧
    (∀ r x y, Completes (.zltz st d a b) st.toNat [] (some (.int d))
      (fun s => (s.me.lazy a).ident ≠ (s.me.lazy b).ident ∧ loop s = .ok (some r, x, y))
      (fun s => deliver (.int d) .now [r] (both x y s))) ∧
    (∀ x y, Completes (.zltz st d a b) st.toNat [] (some (.int d))
      (fun s => (s.me.lazy a).ident ≠ (s.me.lazy b).ident ∧ loop s = .ok (none, x, y) ∧ s.me.mode.getLsbD 4 = true)
      (fun s => deliver (.int d) .now [0] (both x y s))) ∧
    (∀ (x y : Lazy) (s : State), s.Admits (.zltz st d a b) → s.Clear [] (some (.int d)) → (s.me.lazy a).ident ≠ (s.me.lazy b).ident →
      (loop s = .ok (none, x, y) → s.me.mode.getLsbD 4 = false →
        exec (.zltz st d a b) s = .next (takeTrap 0x10 (a.zeroExtend 64) s.me.pc (settled (both x y s)))) ∧
      (∀ k, s.me.lazy a = x → s.me.lazy b = y → ltzTest x y = none →
        (stale s.me x = some k → x.len ≤ y.len → x.len < 128 → traps (.zltz st d a b) k x s) ∧
        (stale s.me y = some k → y.len < x.len → traps (.zltz st d a b) k y s))) ∧
    (∀ (k : Nat) (s : State), s.Admits (.zext st a b) → s.Clear right none →
      (s.me.lazy a).len < min (arg1 (s.values right) 0).toNat 128 → stale s.me (s.me.lazy a) = some k →
      traps (.zext st a b) k (s.me.lazy a) s) ∧
    (∀ z, Completes (.zext st a b) st.toNat right none
      (fun s => extendTo s.me (min (arg1 (s.values right) 0).toNat 128) 4 (s.me.lazy a) = .ok z)
      (fun s => setLazy a z (consume right s))) ∧
    Computes (.zlen st d a) st.toNat [] (.int d) atOnce (fun s _ => [BitVec.ofNat 64 (s.me.lazy a).len]) ∧
    Computes (.zbits st d a b) st.toNat right (.int d) atOnce (fun s vs =>
      [BitVec.ofNat 64 ((s.me.lazy a).digits.toNat / (if (arg1 vs 0).toNat % 2 = 1 then 1 else 2 ^ 64))]) ∧
    Completes (.zmov st d a) st.toNat [] none always (fun s => setLazy d (s.me.lazy a) s) ∧
    Completes (.zld st d a) st.toNat one none (fun s => off one s % 32 = 0 ∧ off one s + 32 ≤ 98304 ∧
        s.LocalNow s.cur.core (off one s) 32 ∧
        (recordOf (s.spmRead s.cur.core (off one s) 32)).len ≤ 128) (fun s =>
      setLazy d (recordOf (s.spmRead s.cur.core (off one s) 32)) (touch (off one s) 32 (consume one s))) ∧
    Completes (.zst st a b) st.toNat right none (fun s => off right s % 32 = 0 ∧ off right s + 32 ≤ 98304 ∧
        s.LocalNow s.cur.core (off right s) 32) (fun s =>
      (touch (off right s) 32 (consume right s)).spmWrite s.cur.core (off right s) (lazyRecord (s.me.lazy a))) ∧
    (∀ z : Lazy, z.len ≤ 128 → z.digits.toNat % 2 ^ (128 - z.len) = 0 → recordOf (lazyRecord z) = z))

/-- R126, R128, R130: what a comparison draws and decides. The digits at hand stay, whole stream words join them, and a decided
threshold comparison agrees with every real number that begins with the digits it has then. -/
def Obligations.LazyDigits : Prop :=
  ∀ (c : Context) (z : Lazy), z.len < 128 → z.digits.toNat % 2 ^ (128 - z.len) = 0 →
    (∀ y, extend c z = .ok y → y.len = 32 * (z.len / 32 + 1) ∧ y.ident = z.ident ∧
      z.handle.toNat ≤ 15 ∧ (c.hnd[hndIx z.handle.toNat]).bound = true ∧ (c.hnd[hndIx z.handle.toNat]).gen = z.gen ∧
      y.prefix = z.prefix * 2 ^ (32 - z.len % 32) +
        ((c.hnd[hndIx z.handle.toNat]).word (16 * z.off.toNat + z.len / 32)).toNat % 2 ^ (32 - z.len % 32)) ∧
    (z.handle.toNat ≤ 15 → (c.hnd[hndIx z.handle.toNat]).bound = true → (c.hnd[hndIx z.handle.toNat]).gen = z.gen →
      ∃ y, extend c z = .ok y) ∧
    (∀ n m r y, decideLoop c (threshold n m) 5 z = .ok (.val r y) → z.len ≤ y.len ∧ y.prefix / 2 ^ (y.len - z.len) = z.prefix ∧
      ((r = 1 ∧ ∀ u w : Nat, y.prefix * w ≤ u * 2 ^ y.len → u * 2 ^ y.len < (y.prefix + 1) * w → 0 < w → 0 < m → u * m < n * w) ∨
       (r = 0 ∧ ∀ u w : Nat, y.prefix * w ≤ u * 2 ^ y.len → u * 2 ^ y.len < (y.prefix + 1) * w → 0 < w → n * w ≤ u * m)))

/-! ### Engines -/

/-- R163, R164, R170: the geometry registers keep the bits their tables give them; reading STATUS of the matrix unit clears it. A
register whose row gives no width keeps the 64 bits written: the model's choice (log 15), which the `wide` registers rest on. -/
def Obligations.GeometryRegisters : Prop :=
  ∀ (a b : BitVec 5) (n : Nat) (m : W64),
    let two := [Opnd.int a, Opnd.int b]
    let one := [Opnd.int a]
    let ix (os : List Opnd) (k : Nat) (s : State) : Prop := (arg1 (s.values os) k).toNat = n
    (cgMask n = some m → ∀ h : n < 17,
      Completes (.csetg a b) 0 two none (ix two 1) (fun s => (consume two s).updMe (fun c =>
        { c with cg := c.cg.set n (arg1 (s.values two) 0 &&& m) })) ∧
      Completes (.cgetg a) 0 one (some (.int 0)) (ix one 0) (gives one (.int 0) (after one 1) (fun s _ => [s.me.cg[n]]))) ∧
    (mgMask n = some m → ∀ h : n < 12, Completes (.msetg a b) 0 two none (ix two 1) (fun s => (consume two s).updMe (fun c =>
        { c with mg := c.mg.set n (arg1 (s.values two) 0 &&& m) }))) ∧
    (∀ h : n < 11, Completes (.mgetg a) 0 one (some (.int 0)) (ix one 0) (gives one (.int 0) (after one 1) (fun s _ => [s.me.mg[n]]))) ∧
    (n = 11 → Completes (.mgetg a) 0 one (some (.int 0)) (ix one 0) (fun s =>
      deliver (.int 0) (after one 1 s) [s.me.mg[11]] ((consume one s).updMe (fun c => { c with mg := c.mg.set 11 0 })))) ∧
    ((cgMask n).isSome = true ↔ n ≤ 12 ∨ n = 16) ∧ ((mgMask n).isSome = true ↔ n ≤ 10) ∧
    (n ∈ [0, 1, 5, 6, 9] → cgMask n = some 0xFFFFFFFF) ∧ cgMask 2 = some 0xFFFFFFFFFF ∧ cgMask 7 = some 0xFFFFF ∧ cgMask 16 = some 0x1FF ∧
    (n ∈ [1, 2, 9] → mgMask n = some 0xFFFFF) ∧ mgMask 8 = some 0x1F ∧ mgMask 10 = some 0xFFFFFFFF ∧
    (let wide : W64 := BitVec.allOnes 64
     (n ∈ [3, 4, 8, 10, 11, 12] → cgMask n = some wide) ∧ (n ∈ [0, 3, 4, 5, 6, 7] → mgMask n = some wide))

/-- R27, R160, R161, R169, R175, R176: a copy or tile command whose queue and slot have room enters its queue with its operands, its
geometry, its rounding mode and the commands that WAIT8 names; its slot counts up, and a tile command joins the open group. R27,
R176, R187: MCOMMIT closes the open group, MWAIT reports the status of the groups that are complete, DWAIT passes when the named
slots are zero, DSTAT delivers all slot counts. -/
def Obligations.EngineCommands : Prop :=
  (∀ (a b : BitVec 5) (w : BitVec 8) (sl : BitVec 3) (sb : BitVec 1),
    let two := [Opnd.int a, Opnd.int b]
    let one := [Opnd.int a]
    let waiting (q : List EngCmd) : Nat := (q.filter (fun e => !e.started)).length
    let room (s : State) : Prop := sb = 1 → s.me.slots[sl.toNat] ≠ 255
    let entry (i : Instr) (os : List Opnd) (geom : List W64) (m : Nat) (s : State) : EngCmd :=
      { id := s.nextId, ctx := s.cur.ctx.val, word := wordOf i, a := arg1 (s.values os) 0, b := arg1 (s.values os) 1
        slot := if sb = 1 then some sl.toNat else none
        deps := (s.me.open_.filter (fun o => w.getLsbD o.2)).map (·.1), group := s.me.grpNow.id, geom := geom, frm := m
        stream := s.me.srHandle, sro := s.me.sro, started := false, dead := false, lines := [], written := false, idents := []
        status := 0, held := none }
    let counted (id : Nat) (s : State) : State := if sb = 1 then s.updMe (fun c => { c with
        slots := c.slots.set sl.toNat (c.slots[sl.toNat] + 1), open_ := c.open_ ++ [(id, sl.toNat)] }) else s
    let used (m n : Nat) (s : State) : State :=
      if m = 5 then s.updMe (fun c => { c with sro := c.sro + BitVec.ofNat 64 n }) else s
    let mode (c : Context) (m : Nat) : Nat := if m = 7 then (c.mode.toNat % 8) else m
    let tile (i : Instr) (os : List Opnd) (m : State → Nat) : Prop :=
      Completes i 0 os none (fun s => room s ∧ waiting s.here.mx < 8 ∧ (m s = 5 → s.me.srHandle.bound = true)) (fun s =>
        used (m s) 1024 { ((counted s.nextId ((consume os s).updHere (fun k =>
            { k with mx := k.mx ++ [entry i os s.me.mg.toList (m s) s] }))).updMe (fun c =>
              { c with grpNow := { c.grpNow with left := c.grpNow.left + 1 } })) with nextId := s.nextId + 1 })
    let conv (s : State) : Nat := if s.me.cg[8].toNat / 2 % 2 = 1 then mode s.me (s.me.cg[8].toNat / 2 ^ 3 % 8) else 0
    Completes (.cpy a b w sl sb) 0 two none
      (fun s => room s ∧ waiting s.here.copies < 8 ∧ (conv s = 5 → s.me.srHandle.bound = true)) (fun s =>
        used (conv s) (s.me.cg[3].toNat * s.me.cg[4].toNat) { (counted s.nextId ((consume two s).updHere (fun k =>
          { k with copies := k.copies ++ [entry (.cpy a b w sl sb) two (s.me.cg.toList.take 13) (conv s) s] }))) with
            nextId := s.nextId + 1 }) ∧
    tile (.mma a b w sl sb) two (fun _ => 0) ∧ tile (.mldc a b w sl sb) two (fun _ => 0) ∧ tile (.mzero a w sl sb) one (fun _ => 0) ∧
    tile (.mstc a b w sl sb) two (fun s => if s.me.mg[8] = 0x1F then 0 else mode s.me ((arg1 (s.values two) 1).toNat / 4 % 8))) ∧
  (∀ (a : BitVec 5) (w : BitVec 8),
    let one := [Opnd.int a]
    Completes .mcommit 0 [] none (fun s => s.me.groups.length < 8) (fun s => s.updMe (fun c =>
      let gs := c.groups ++ [c.grpNow]
      { c with grpNow := ⟨c.grpNow.id + 1, 0, 0⟩, groups := gs.filter (fun g => g.left != 0)
               unrep := (gs.filter (fun g => g.left == 0)).foldl (fun u g => u ||| g.status) c.unrep })) ∧
    Completes (.mwait a) 0 one (some (.int 0)) (fun s => s.me.groups.length ≤ (arg1 (s.values one) 0).toNat) (fun s =>
      deliver (.int 0) .now [s.me.unrep.zeroExtend 64] ((consume one s).updMe (fun c => { c with unrep := 0 }))) ∧
    Completes (.dwait w) 0 [] none (fun s => ∀ k : Fin 8, w.getLsbD k = true → s.me.slots[k] = 0) (fun s => s) ∧
    Completes .dstat 0 [] (some (.int 0)) always (fun s =>
      deliver (.int 0) .now [BitVec.ofNat 64 ((List.range 8).map (fun k => (s.me.slots.toList.getD k 0).toNat * 256 ^ k)).sum] s))

/-! ### Commands of the ring, launches -/

/-- R178, R182 to R186, R310: COLL, RKOVL, RKRUN, RKSIG and RKSTOP post a command with the issuer's identity and handle. R178, R310:
what posting leaves: the command stands last in its VD's ring with its issuer, and a named one is the most recent of its handle;
its entry is written at CMDRING, the packing within the entry's fields is the model's (log 35); no register and no other context
changes. -/
def Obligations.RingCommands : Prop :=
  (∀ (a b : BitVec 5) (w : BitVec 8) (sl : BitVec 3) (sb : BitVec 1),
    let two := [Opnd.int a, Opnd.int b]
    let one := [Opnd.int a]
    let room (s : State) : Prop := (sb = 1 → s.me.slots[sl.toNat] ≠ 255) ∧ s.ringFull = false
    let va (s : State) : Nat := (arg1 (s.values two) 0).toNat % 2 ^ 55
    let posted (op : RingOp) (bs : List Byte) (s t : State) : State :=
      takeSlot t.nextId sl sb (postCmd op bs (BitVec.ofNat 32 (arg1 (s.values two) 1).toNat) w
        (if sb = 1 then some sl.toNat else none) true (consume two t))
    let words (bs : List Byte) (stat done : Nat) (s t : State) : Prop := ∃ u,
      wordReady (w64 bs stat) s = .ok ((), u) ∧ wordReady (w64 bs done) u = .ok ((), t)
    let post (i : Instr) (op : RingOp) (len stat done : Nat) : Prop :=
      ∀ bs u t, Completes i 0 two none (fun s => room s ∧ va s % 8 = 0 ∧ blockRead (va s) len s = .ok (bs, u) ∧
        words bs stat done u t) (fun s => posted op bs s t)
    post (.coll a b w sl sb) .coll 128 0x50 0x40 ∧
    post (.rkrun a b w sl sb) .rkrun 48 0x20 0x10 ∧
    (∀ bs u t, Completes (.rkovl a b w sl sb) 0 two none (fun s => room s ∧ va s % 8 = 0 ∧ blockRead (va s) 48 s = .ok (bs, u) ∧
        words bs 0x20 0x10 u t ∧ (imageRead t.here.vd bs t).1.stalled = t.stalled)
        (fun s => let r := imageRead t.here.vd bs t; posted .rkovl (bs ++ r.2) s r.1)) ∧
    Completes (.rksig a b w) 0 two none (fun s => s.ringFull = false) (fun s => postCmd .rksig
      (bytesOf 8 (arg1 (s.values two) 0).toNat ++ bytesOf 4 (arg1 (s.values two) 1).toNat) 0 w none false (consume two s)) ∧
    Completes (.rkstop a w) 0 one none (fun s => s.ringFull = false) (fun s => postCmd .rkstop
      (bytesOf 8 (arg1 (s.values one) 0).toNat ++ bytesOf 4 0) 0 w none false (consume one s))) ∧
  (∀ (op : RingOp) (bs : List Byte) (h : BitVec 32) (w : BitVec 8) (slot : Option Nat) (named : Bool) (s : State),
    let t := postCmd op bs h w slot named s
    (∃ c, (t.vd s.here.vd).cmds = s.myVd.cmds ++ [c] ∧ c.n = s.myVd.seq ∧ c.op = op ∧ c.core = s.here.origin ∧
      c.ctx = s.cur.ctx.val ∧ c.block = bs ∧ c.handle = h ∧ c.slot = slot ∧ c.state = .posted ∧
      c.entry = s.myVd.nextEntry ∧ c.inRing = true ∧ (named = true → t.me.cmds.getLast? = some ⟨h, c.n, none⟩) ∧
      (let u := s.devWrite (s.myVd.desc.cmdring.toNat + 256 * c.entry) (ringBytes c w s.me.slots.toList)
       t.mem = u.mem ∧ t.ranks = u.ranks ∧ (∀ v, v ≠ s.here.vd → t.vd v = u.vd v) ∧ ∀ k, k ≠ s.cur.core → t.core k = u.core k)) ∧
    { t.me with cmds := s.me.cmds, wait := s.me.wait } = s.me ∧ (t.me.wait = s.me.wait ∨ t.me.wait = none)) ∧
  (∀ (c : RingCmd) (w : BitVec 8) (slots : List (BitVec 8)), slots.length = 8 → let e := ringBytes c w slots
    e.length = 256 ∧ (c.op = .coll → c.block.length = 128 → e.take 128 = c.block) ∧ (c.op ≠ .coll → 48 ≤ c.block.length → e.take 48 = c.block.take 48) ∧
     num e 0x88 4 = c.core % 2 ^ 32 ∧ num e 0x8C 1 = c.ctx % 2 ^ 8 ∧
    num e 0x90 4 = c.handle.toNat ∧ num e 0xA0 8 = c.n % 2 ^ 64)

/-- R183, R186, R188, R273: CQUERY, CABORT, RKSTAT, GLAUNCH and GQUERY. R188, R273: GLAUNCH answers −2 for a queue above 3, −1 for a
full queue, −3 for a descriptor that is refused, else the launch number, which then stands last in its queue; GQUERY answers
from the queues. -/
def Obligations.CommandQueries : Prop :=
  (∀ (st : BitVec 3) (d a b : BitVec 5),
    let one := [Opnd.int a]
    let two := [Opnd.int a, Opnd.int b]
    let found (s : State) : Option CmdRef := s.me.cmds.find? (fun c => c.handle.toNat == (arg1 (s.values one) 0).toNat % 2 ^ 32)
    let pushes (i : Instr) (ok : State → Prop) (v : State → W64) : Prop :=
      Completes i 0 one (some (.int 0)) ok (gives one (.int 0) atOnce (fun s _ => [v s]))
    let rank (s : State) : Nat := (arg1 (s.values one) 0).toNat % 8192
    let mine (s : State) : Prop := s.permTouches (rank s) 0 (fun p => p.k && p.vd == s.here.vd) = true
    pushes (.cquery a) (fun s => found s = none) (fun _ => 0xFE) ∧
    (∀ h n, pushes (.cquery a) (fun s => found s = some ⟨h, n, none⟩) (fun _ => 0xFF)) ∧
    (∀ h n v, pushes (.cquery a) (fun s => found s = some ⟨h, n, some v⟩) (fun _ => v)) ∧
    Completes (.cabort a) 0 one none (fun s => ∀ c, found s = some c → c.status ≠ none) (consume one) ∧
    (∀ h n, Completes (.cabort a) 0 one none (fun s => found s = some ⟨h, n, none⟩)
      (fun s => abortCmd s.here.vd n (consume one s))) ∧
    pushes (.rkstat a) (fun s => ¬ mine s) (fun _ => BitVec.allOnes 64) ∧
    pushes (.rkstat a) mine (fun s => let k := s.rank (rank s)
      BitVec.ofNat 64 ((if s.asleep.contains (rank s / 32) then 3
        else match k.state with | .idle => 0 | .running => 1 | .suspended => 2 | .spilled => 3) + 4 * k.slot.toNat + 8 * (k.upc % 8192))) ∧
    Completes (.glaunch st d a b) st.toNat two (some (.int d)) (fun s => s.AllPerformed ∧
        (submit s.here.vd (arg1 (s.values two) 0) (arg1 (s.values two) 1) (consume two s.afresh)).1.stalled = []) (fun s =>
      let r := submit s.here.vd (arg1 (s.values two) 0) (arg1 (s.values two) 1) (consume two s.afresh)
      deliver (.int d) .now [r.2] r.1) ∧
    Computes (.gquery st d a) st.toNat one (.int d) atOnce (fun s vs => [BitVec.ofInt 64 (launchState s.myVd (arg1 vs 0).toNat)])) ∧
  (∀ (vd : Nat) (va q : W64) (s : State),
    (3 < q.toNat → submit vd va q s = (s, BitVec.ofInt 64 (-2))) ∧
    (∀ h : q.toNat < 4, 64 ≤ ((s.vd vd).queues[q.toNat]).launches.length → submit vd va q s = (s, BitVec.ofInt 64 (-1))) ∧
    (∀ h : q.toNat < 4, ((s.vd vd).queues[q.toNat]).launches.length < 64 → ∀ t,
      (readGraph vd va.toNat s = (none, t) → submit vd va q s = (t, BitVec.ofInt 64 (-3))) ∧
      (∀ l, readGraph vd va.toNat s = (some l, t) →
        let r := submit vd va q s
        r.2 = BitVec.ofNat 64 (t.vd vd).nextLaunch ∧ ((r.1.vd vd).queues[q.toNat]).launches =
          ((t.vd vd).queues[q.toNat]).launches ++ [{ l with number := (t.vd vd).nextLaunch }] ∧
        (r.1.vd vd).nextLaunch = ((t.vd vd).nextLaunch + 1) % 2 ^ 31 ∧ r.1.mem = t.mem ∧ r.1.cores = t.cores)))

/-! ### The rank instruction set -/

/-- R189, R195: the scalar instructions compute modulo 2^32 into sX; a write to s0 is discarded. R192, R196: the branches, and the
fault of a taken branch that leaves its slot. -/
def Obligations.RankScalars : Prop :=
  (∀ (x y z : BitVec 4) (i : BitVec 14),
    let imm : Nat := y.toNat * 2 ^ 14 + i.toNat
    let S (j : Instr) (v : Rank → Word) : Prop := ∀ s : State, exec j s = .next (rankDone 1 (s.rk.upc + 1) false
      (fun k => if x.toNat = 0 then k else { k with s := k.s.set x.toNat (v k) }) s)
    let S2 (j : Instr) (f : Word → Word → Word) : Prop := S j (fun k => f k.s[y.toNat] k.s[z.toNat])
    S (.sli x y i) (fun _ => BitVec.ofInt 32 (BitVec.ofNat 18 imm).toInt) ∧
    S (.slih x y i) (fun k => BitVec.ofNat 32 (imm * 2 ^ 14 + k.s[x.toNat].toNat % 2 ^ 14)) ∧
    S (.saddi x y i) (fun k => BitVec.ofInt 32 (k.s[y.toNat].toInt + i.toInt)) ∧
    S2 (.sadd x y z) (fun a b => BitVec.ofNat 32 (a.toNat + b.toNat)) ∧
    S2 (.ssub x y z) (fun a b => BitVec.ofInt 32 (a.toInt - b.toInt)) ∧
    S2 (.sand x y z) (fun a b => a &&& b) ∧ S2 (.sor x y z) (fun a b => a ||| b) ∧ S2 (.sxor x y z) (fun a b => a ^^^ b) ∧
    S2 (.sshl x y z) (fun a b => BitVec.ofNat 32 (a.toNat * 2 ^ (b.toNat % 32))) ∧
    S2 (.sshr x y z) (fun a b => BitVec.ofNat 32 (a.toNat / 2 ^ (b.toNat % 32))) ∧
    S2 (.smul x y z) (fun a b => BitVec.ofNat 32 (a.toNat * b.toNat)) ∧
    S2 (.sclt x y z) (fun a b => if a.toInt < b.toInt then 1 else 0)) ∧
  (∀ (x : BitVec 4) (i : BitVec 14),
    let B (j : Instr) (taken : Rank → Prop) (f : Rank → Rank) : Prop := ∀ s : State,
      let t : Int := s.rk.upc + i.toInt
      (taken s.rk → 0 ≤ t → t ≤ 1023 → exec j s = .next (rankDone 1 t.toNat false f s)) ∧
      (taken s.rk → (t < 0 ∨ 1023 < t) → exec j s = .next (rankFault s.cur.rank 4 s)) ∧
      (¬ taken s.rk → exec j s = .next (rankDone 1 (s.rk.upc + 1) false f s))
    let less (k : Rank) : Word := BitVec.ofInt 32 (k.s[x.toNat].toInt - 1)
    B (.sbz x i) (fun k => k.s[x.toNat] = 0) id ∧ B (.sbnz x i) (fun k => k.s[x.toNat] ≠ 0) id ∧ B (.sj i) (fun _ => True) id ∧
    B (.sloop x i) (fun k => less k ≠ 0) (fun k => if x.toNat = 0 then k else { k with s := k.s.set x.toNat (less k) }))

/-- R194, R259: an instruction of a rank that has completed: the registers it writes, the next word, no wait; a row boundary, or 192
ns since the last check, is a check of the bank, which changes nothing when no outside request waits and the channel is not to sleep. R203, R205, R206: the
status a course instruction and CEND write, with FL, which they clear; CBEGIN writes a code alone. R185, R189, R190: the
registers a run finds at its start: its argument, the member index and the member count in s1 to s3, all else empty; the mailbox
keeps its contents. -/
def Obligations.RankStarts : Prop :=
  (∀ (cost upc : Nat) (boundary : Bool) (f : Rank → Rank) (s : State),
    let t := rankDone cost upc boundary f s
    let k := f s.rk
    (k.pending = [] → s.napping.contains (channelOf s.cur.rank) = false →
      ∃ n, t.rk = { k with upc := upc, wait := none, timer := n, ns := s.rk.ns + cost } ∧
      (∀ r, r ≠ s.cur.rank → t.rank r = s.rank r) ∧ { t with ranks := s.ranks } = s) ∧
    (boundary = false → s.rk.wait = none → s.rk.timer + cost < 192 →
      t.rk = { k with upc := upc, wait := none, timer := s.rk.timer + cost, ns := s.rk.ns + cost })) ∧
  (∀ (r code : Nat) (s : State) (id : Option Nat), code < 256 →
    let k := s.rank r
    let set (v : Word) : Vector Word 16 := if k.dest = 0 then k.s else k.s.set (k.dest % 16) v (Nat.mod_lt _ (by decide))
    let checked (x y : State) : Prop := x = y ∨ (k.wait = none ∧ 191 ≤ k.timer ∧ x = checkBank r y)
    ∃ t u, checked (endCourseInstr r code s) t ∧ checked (endBegin r code id s) u ∧
    (t.rank r).s = set (BitVec.ofNat 32 (code + k.fl.toNat * 2 ^ 8 + k.done % 2 ^ 16 * 2 ^ 16)) ∧ (t.rank r).fl = 0 ∧
    (t.rank r).upc = k.upc + 1 ∧ (t.rank r).wait = none ∧ (t.rank r).course = none ∧
    (u.rank r).s = set (BitVec.ofNat 32 code) ∧ (u.rank r).fl = k.fl ∧ (u.rank r).upc = k.upc + 1 ∧ (u.rank r).wait = none ∧
    (u.rank r).course = id ∧ t.mem = s.mem ∧ u.mem = s.mem ∧ (t.rank r).v = k.v ∧ (t.rank r).k = k.k ∧ (t.rank r).c = k.c) ∧
  (∀ (run : RankRun) (arg : Word) (slot entry r : Nat) (s : State), slot < 2 →
    let k := (startRank run arg slot entry r s).rank r
    k.slot.toNat = slot ∧ k.upc = entry ∧ k.s[1] = arg ∧ k.s[2] = BitVec.ofNat 32 run.k ∧ k.s[3] = BitVec.ofNat 32 run.n ∧
    (∀ j : Fin 16, j = 0 ∨ 3 < j → k.s[j] = 0) ∧ (∀ j : Fin 8, k.v[j] = 0) ∧
    (∀ j : Fin 4, (k.k[j]).alpha = 0 ∧ (∀ i : Fin 8, (k.k[j]).recs[i] = A80.empty 0) ∧ k.c[j] = ⟨0, 0, 1⟩) ∧ k.fl = 0 ∧
    k.mailbox = (s.rank r).mailbox ∧ k.run = some run ∧ k.state = .running ∧ k.ovl = (s.rank r).ovl ∧
    (∀ q, q ≠ r → (startRank run arg slot entry r s).rank q = s.rank q))

/-- R197: cursors. R192, R197, R198, R205: VLD reads the column word at its cursor, the staged bytes of an open course before the
logical row; VST stages one in the open course; each advances its cursor. Each faults where R192 says. -/
def Obligations.RankMemory : Prop :=
  (∀ (x y : BitVec 4) (col : BitVec 5) (i : BitVec 14) (hx : x.toNat < 4) (s : State),
    let upd (f : Cursor → Cursor) (k : Rank) : Rank := { k with c := k.c.set x.toNat (f k.c[x.toNat]) }
    let next := s.rk.upc + 1
    exec (.cset x y col) s = .next (rankDone 1 next false (fun k =>
      upd (fun c => ⟨BitVec.ofNat 16 (k.s[y.toNat]).toNat, col, c.stride⟩) k) s) ∧
    exec (.cstride x i) s = .next (rankDone 1 next false (upd (fun c => ⟨c.row, c.col, BitVec.ofInt 16 i.toInt⟩)) s) ∧
    exec (.cnext x) s = .next (rankDone 1 next true (upd (fun c => ⟨c.row + c.stride, 0, c.stride⟩)) s)) ∧
  (∀ (x y : BitVec 4) (hx : x.toNat < 8) (hy : y.toNat < 4) (s : State),
    let c := s.rk.c[y.toNat]
    let row := c.row.toNat
    let at_ (j : Nat) : Place := ⟨s.cur.rank, row, 32 * c.col.toNat + j⟩
    let ahead : Cursor := if c.col = 31 then ⟨c.row + c.stride, 0, c.stride⟩ else ⟨c.row, c.col + 1, c.stride⟩
    let time := s.rk.accessTime row
    let done (f : Rank → Rank) (wrote : Option Nat) (t : State) : State := rankDone time.1 (s.rk.upc + 1) (ahead.row != c.row)
      (fun k => { f k with c := k.c.set y.toNat ahead, fresh := false, open_ := some ⟨row, time.2, wrote⟩ }) t
    let before : Option Nat := (s.rk.open_.filter (fun o => o.row == row)).bind (·.wrote)
    let after_ : Option Nat := some (s.rk.ns + time.1)
    let inside : Prop := ∃ g ∈ s.rk.ranges, g.1 ≤ row ∧ row < g.1 + g.2
    let allowed : Prop := s.permits ((s.rk.run.map (·.vd)).getD 0) s.cur.rank row (·.k) = true
    let load (byte : Nat → Byte) (k : Rank) : Rank :=
      { k with v := k.v.set x.toNat (BitVec.ofNat 256 (ofBytes ((List.range 32).map byte))) }
    let sound : Prop := s.badWords.contains ((at_ 0).key / 32) = false
    (s.rk.course = none → row < 46080 → allowed → sound →
      exec (.vld x y) s = .next (done (load (fun j => s.bankByte (at_ j))) before s)) ∧
    (∀ id k, s.rk.course = some id → s.course id = some k → inside ∨ (row < 46080 ∧ allowed) → sound →
      exec (.vld x y) s = .next (done (load (fun j => (lookup (at_ j).key k.staged).getD (s.bankByte (at_ j)))) before s)) ∧
    (¬ (s.rk.course ≠ none ∧ inside) → 46080 ≤ row → exec (.vld x y) s = .next (rankFault s.cur.rank 4 s)) ∧
    (¬ (s.rk.course ≠ none ∧ inside) → row < 46080 → ¬ allowed → exec (.vld x y) s = .next (rankFault s.cur.rank 5 s)) ∧
    (∀ id k, s.rk.course = some id → s.course id = some k → inside →
      exec (.vst x y) s = .next (done (fun k => k) after_ (s.setCourse { k with staged := (List.range 32).foldl (fun st j =>
        put (at_ j).key (BitVec.ofNat 8 ((s.rk.v[x.toNat]).toNat / 256 ^ j)) st) k.staged }))) ∧
    (∀ id, s.rk.course = some id → s.course id = none → inside → exec (.vst x y) s = .next (done (fun k => k) after_ s)) ∧
    (s.rk.course = none → exec (.vst x y) s = .next (rankFault s.cur.rank 7 s)) ∧
    (∀ id, s.rk.course = some id → ¬ inside → exec (.vst x y) s = .next (rankFault s.cur.rank 4 s)))

/-- R200 to R203: the vector instructions work on 8 lanes and OR the events of their lanes into FL. R201: VCVT between the 32-bit
lanes of a register and a part of a packed one. R55, R192, R202: the accumulators. -/
def Obligations.RankVectors : Prop :=
  (∀ (x y z w : BitVec 4) (r : BitVec 3) (t u : BitVec 1) (hx : x.toNat < 8) (hy : y.toNat < 8) (hz : z.toNat < 8),
    let F : FloatFmt := ⟨8, 23, 127, .ieee⟩
    let R : Rnd := ⟨r.toNat, 0⟩
    let lane (v : W256) (j : Nat) : Nat := v.toNat / 2 ^ (32 * j) % 2 ^ 32
    let V (i : Instr) (cost : Nat) (f : Rank → Nat → Nat × Fl) : Prop := ∀ s : State, ∃ v : Rank → W256,
      (∀ k, ∀ j < 8, lane (v k) j = (f k j).1 % 2 ^ 32) ∧
      exec i s = .next (rankDone cost (s.rk.upc + 1) false (fun k =>
        { k with v := k.v.set x.toNat (v k), fl := (List.range 8).foldl (fun a j => a ||| (f k j).2) k.fl }) s)
    let two (k : Rank) (j : Nat) (f : Nat → Nat → Nat × Fl) : Nat × Fl := f (lane k.v[y.toNat] j) (lane k.v[z.toNat] j)
    let int (f : Word → Word → Word) (a b : Nat) : Nat × Fl := ((f (BitVec.ofNat 32 a) (BitVec.ofNat 32 b)).toNat, 0)
    V (.mwVadd x y z r 0) 1 (fun k j => two k j (fadd F R)) ∧ V (.mwVadd x y z r 1) 1 (fun k j => two k j (int (· + ·))) ∧
    V (.mwVsub x y z r 0) 1 (fun k j => two k j (fsub F R)) ∧ V (.mwVsub x y z r 1) 1 (fun k j => two k j (int (· - ·))) ∧
    V (.mwVmul x y z r 0) 1 (fun k j => two k j (fmul F R)) ∧ V (.mwVmul x y z r 1) 1 (fun k j => two k j (int (· * ·))) ∧
    V (.mwVmax x y z r 0) 1 (fun k j => two k j (fminmax F true)) ∧
    V (.mwVmax x y z r 1) 1 (fun k j => two k j (int (fun a b => if a.toInt < b.toInt then b else a))) ∧
    V (.mwVmin x y z r 0) 1 (fun k j => two k j (fminmax F false)) ∧
    V (.mwVmin x y z r 1) 1 (fun k j => two k j (int (fun a b => if b.toInt < a.toInt then b else a))) ∧
    V (.mwVfma x y z r) 1 (fun k j => fma F R (lane k.v[y.toNat] j) (lane k.v[z.toNat] j) (lane k.v[x.toNat] j)) ∧
    V (.vscl x y w r) 1 (fun k j => fmul F R (lane k.v[y.toNat] j) (k.s[w.toNat]).toNat) ∧
    V (.vspl x w) 1 (fun k _ => ((k.s[w.toNat]).toNat, 0)) ∧
    (y.toNat < 4 → V (.krnd x y u r t) 2 (fun k j =>
      ((k.k[y.toNat % 4]).recs.toList.getD j (A80.empty 0)).round (if t = 1 then Fmt.i32 else Fmt.f32) (u == 1) R))) ∧
  (∀ (x y : BitVec 4) (d f : BitVec 3) (p : BitVec 2) (u : BitVec 1) (r : BitVec 3) (s : State),
    (Instr.mwVcvt x y d f p u r).wf = true → ∀ (hx : x.toNat < 8) (hy : y.toNat < 8),
    let dw := fmtBits (rankCode d.toNat)
    let sw := fmtBits (rankCode f.toNat)
    let elem (w : Nat) (v : W256) (j : Nat) : Nat := v.toNat / 2 ^ (w * j) % 2 ^ w
    let first (w : Nat) : Nat := if w < 32 then 8 * p.toNat else 0
    let res (k : Rank) (j : Nat) : Nat × Fl := convert (rankCode d.toNat) (u == 1) (f = 1 ∨ f = 3) ⟨r.toNat, 0⟩
      (valueOf (rankCode f.toNat) (elem sw k.v[y.toNat] (first sw + j)))
    ∃ v : Rank → W256,
      (∀ k, ∀ j < 8, elem dw (v k) (first dw + j) = (res k j).1 % 2 ^ dw) ∧
      (∀ k, ∀ j < 256 / dw, (j < first dw ∨ first dw + 8 ≤ j) → elem dw (v k) j = elem dw k.v[x.toNat] j) ∧
      exec (.mwVcvt x y d f p u r) s = .next (rankDone 1 (s.rk.upc + 1) false (fun k =>
        { k with v := k.v.set x.toNat (v k), fl := (List.range 8).foldl (fun a j => a ||| (res k j).2) k.fl }) s)) ∧
  (∀ (x y : BitVec 4) (t : BitVec 1) (hx : x.toNat < 4) (s : State),
    let next := s.rk.upc + 1
    let anchor : BitVec 16 := BitVec.ofNat 16 (s.rk.s[y.toNat]).toNat
    let empty (a : BitVec 16) : Acc := ⟨a, Vector.replicate 8 (A80.empty a)⟩
    let lane (v : W256) (j : Nat) : Nat := v.toNat / 2 ^ (32 * j) % 2 ^ 32
    let res (k : Rank) (j : Fin 8) : A80 × Fl := ((k.k[x.toNat]).recs[j]).contribute ((k.run.map (·.k)).getD 0)
      (valueOf (if t = 1 then Fmt.i32 else Fmt.f32) (lane (k.v[y.toNat % 8]) j))
    exec (.kclr x) s = .next (rankDone 1 next false (fun k => { k with k := k.k.set x.toNat (empty (k.k[x.toNat]).alpha) }) s) ∧
    (-1024 ≤ anchor.toInt → anchor.toInt ≤ 1023 → exec (.kanc x y) s =
      .next (rankDone 1 next false (fun k => { k with k := k.k.set x.toNat (empty anchor) }) s)) ∧
    (anchor.toInt < -1024 ∨ 1023 < anchor.toInt → exec (.kanc x y) s = .next (rankFault s.cur.rank 4 s)) ∧
    (y.toNat < 8 → exec (.kadd x y t) s = .next (rankDone 2 next false (fun k =>
      { k with k := k.k.set x.toNat { k.k[x.toNat] with recs := Vector.ofFn (fun j => (res k j).1) }
               fl := (List.finRange 8).foldl (fun a j => a ||| (res k j).2) k.fl }) s)))

/-- R192, R204 to R206, R209, R210: a course instruction of a member joins the course of its group and waits in it; a COUNT of 0
completes at once with OK; a rank outside the group gets BADPARAM; one with a course open faults. CEND of a failed course
delivers its code; another CEND waits for the keystone. CBAR of a group with cores works through the phase tracker. -/
def Obligations.RankCourses : Prop :=
  ∀ (x y z : BitVec 4) (d c : BitVec 2) (o f : BitVec 3) (g : BitVec 8) (s : State) (ms : List Nat) (i : Nat) (hz : z.toNat < 15),
    let r := s.cur.rank
    let count := (s.rk.s[z.toNat]).toNat
    let aim (s : State) : State := s.updRank r (fun k => { k with dest := x.toNat, done := 0 })
    let waits (p : CoursePart) (solo : Bool) (group : Nat) (l : List Nat) (t : State) : Host.Outcome State Fault Refusal :=
      let j := joinCourse p l group solo t
      .next (rankWait (.course j.2) r j.1)
    let member : Prop := ranksOf s.pkg (s.myGroup g.toNat) = some ms ∧ ms.findIdx? (· == r) = some i
    let stranger : Prop := ∀ l, ranksOf s.pkg (s.myGroup g.toNat) = some l → r ∉ l
    let agree (q : BitVec 3) : Prop := ¬ (4 ≤ q.toNat ∧ f ≠ 1 ∧ f ≠ 3) ∧ ¬ (f = 5 ∧ q ≠ 0)
    let C (j : Instr) (op : CourseOp) (q : BitVec 3) (fits : Prop) : Prop :=
      (s.rk.course = none → count = 0 → exec j s = .next (endCourseInstr r 0 (aim s))) ∧
      (s.rk.course = none → count ≠ 0 → member → fits → exec j s = waits ⟨i, op, f.toNat, q.toNat, count,
        (s.rk.s[z.toNat + 1]).toNat, s.rk.c[c.toNat], s.rk.c[d.toNat], []⟩ false g.toNat ms (aim s)) ∧
      (s.rk.course = none → count ≠ 0 → stranger ∨ ¬ fits → exec j s = .next (endCourseInstr r 7 (aim s))) ∧
      (s.rk.course ≠ none → exec j s = .next (rankFault r 7 s))
    C (.cshift x d c z f g) .shift 0 True ∧ C (.cxpose x d c z f g) .xpose 0 True ∧ C (.ca2a x d c z f g) .a2a 0 True ∧
    C (.cred x d c z o f g) .red o (agree o) ∧ C (.crsc x d c z o f g) .rsc o (agree o) ∧
    C (.cgath x d c z f g) .gath 0 True ∧ C (.cbcast x d c z f g) .bcast 0 True ∧
    (s.rk.course = none → (∀ m ∈ s.myGroup g.toNat, m.getLsbD 21 = true) → member → exec (.cbar x g) s = waits
      ⟨i, .bar, 0, 0, (s.rk.s[0]).toNat, (s.rk.s[1]).toNat, s.rk.c[0], s.rk.c[0], []⟩ false g.toNat ms (aim s)) ∧
    (∀ run m, s.rk.course = none → s.rk.run = some run → (∃ m ∈ s.myGroup g.toNat, m.getLsbD 21 = false) →
      (s.myGroup g.toNat).findIdx? (· == memberId s.pkg true r) = some m → (∀ h p t, s.rk.wait ≠ some (.barrier h p t)) →
      let k := trackerOf s run.vd run.q g.toNat
      let t := updTrackerOf run.vd run.q g.toNat (·.arrive m) (aim s)
      exec (.cbar x g) s = if (k.arrive m).complete (s.myGroup g.toNat).length (k.count m) then .next (endCourseInstr r 0 t)
        else .next (rankWait (.barrier g.toNat (k.count m) s.ring) r t)) ∧
    (∀ run m h p b, s.rk.course = none → s.rk.run = some run → (∃ m ∈ s.myGroup g.toNat, m.getLsbD 21 = false) →
      (s.myGroup g.toNat).findIdx? (· == memberId s.pkg true r) = some m → s.rk.wait = some (.barrier h p b) →
      exec (.cbar x g) s = if (trackerOf s run.vd run.q g.toNat).complete (s.myGroup g.toNat).length p then
        .next (endCourseInstr r 0 (aim s)) else .next (rankWait (.barrier g.toNat p b) r s)) ∧
    (s.rk.course ≠ none → exec (.cend x) s = match s.rk.failed with
      | some code => .next (endCourseInstr r code (s.updRank r (fun k => { k with dest := x.toNat })))
      | none => .next (rankWait (.course (s.rk.course.getD 0)) r (s.updRank r (fun k => { k with dest := x.toNat })))) ∧
    (s.rk.course = none → exec (.cend x) s = .next (rankFault r 7 s)) ∧
    (∀ h : 1 ≤ y.toNat ∧ y.toNat ≤ 12,
      let rs := [((s.rk.s[y.toNat]).toNat, (s.rk.s[y.toNat + 1]).toNat), ((s.rk.s[y.toNat + 2]).toNat, (s.rk.s[y.toNat + 3]).toNat)]
      let t := s.updRank r (fun k => { k with dest := x.toNat, ranges := rs })
      let p (j : Nat) : CoursePart := ⟨j, .program, 0, 0, 0, 0, Cursor.reset, Cursor.reset, rs⟩
      (s.rk.course = none → exec (.cbegin x y 1 g) s = waits (p 0) true g.toNat [r] t) ∧
      (s.rk.course = none → member → exec (.cbegin x y 0 g) s = waits (p i) false g.toNat ms t) ∧
      (s.rk.course = none → stranger → exec (.cbegin x y 0 g) s = .next (endBegin r 7 none t)) ∧
      (∀ u, s.rk.course ≠ none → exec (.cbegin x y u g) s = .next (rankFault r 7 s)))

/-- R185, R192, R211, R212: MSGO, MSGI, OVSW and HALT. -/
def Obligations.RankMessages : Prop :=
  ∀ (x y : BitVec 4) (e : BitVec 10) (s : State),
    let r := s.cur.rank
    let next := s.rk.upc + 1
    let plain (t : State) : State := rankDone 1 next false (fun k => k) t
    ((∀ run, s.rk.run = some run → run.owner = none) → exec (.msgo y) s = .next (plain s)) ∧
    (∀ run c h p, s.rk.run = some run → run.owner = some (c, h, p) →
      let d : PortDest := ⟨c, h, p⟩
      ((s.portAt d).dest = none → exec (.msgo y) s = .next (plain s)) ∧
      ((s.portAt d).dest ≠ none → 1 ≤ s.roomAt d → exec (.msgo y) s = .next (plain { s with inflight := s.inflight ++
        [⟨d, rankSource r, 0, none, [BitVec.ofNat 64 (run.k % 2 ^ 32 * 2 ^ 32 + (s.rk.s[y.toNat]).toNat)], none, false⟩] })) ∧
      ((s.portAt d).dest ≠ none → s.roomAt d = 0 → exec (.msgo y) s = .next (rankWait .port r s))) ∧
    (∀ w l, s.rk.mailbox = w :: l → exec (.msgi x) s = .next (rankDone 1 next false (fun k =>
      { (if x.toNat = 0 then k else { k with s := k.s.set x.toNat w }) with mailbox := l }) s)) ∧
    (s.rk.mailbox = [] → exec (.msgi x) s = .next (rankWait .mailbox r s)) ∧
    ((∀ w ∈ s.rk.writing, w.2.2 ≠ s.rk.slot + 1) → exec (.ovsw e) s =
      .next (decideFor r (rankDone 1 e.toNat false (fun k => { k with slot := k.slot + 1 }) s) (some s.rk.slot.toNat))) ∧
    ((∃ w ∈ s.rk.writing, w.2.2 = s.rk.slot + 1) → exec (.ovsw e) s = .next (rankWait .overlay r s)) ∧
    (s.rk.course = none → exec .mwHalt s = .next (endRank r none 6 s)) ∧
    (s.rk.course ≠ none → exec .mwHalt s = .next (rankFault r 7 s))

/-! ### Events -/

/-- R21, R87, R107, R120, R135, R136, R151, R153, R281: what reaches a context or a core.
The agenda that presents these events is the model's own (log 3). -/
def Obligations.CoreEvents : Prop :=
  ∀ (s : State) (c x : Nat),
    let at_ (f : Context → Context) : Host.Outcome State Fault Refusal := .next (s.updCtx c x f)
    let m := s.ctx c x
    exec (.resultDelivery c x) s = at_ (·.settleAll (s.core c).clock) ∧
    (m.status = .live → m.pfault = none → c < 4224 → x ≤ 10 → ∀ w t,
      nextWord { actAs c x s with banks := [], collisions := 0, target := none } = .ok (w, t) →
      exec (.instructionFetchReturn c x) s = .next { t with
        cur := s.cur, banks := s.banks, collisions := s.collisions, target := s.target }) ∧
    exec (.translationAck c x) s = at_ (fun k => if k.wait = some .hold then { k with wait := none } else k) ∧
    exec (.waitaReread c x) s = at_ (fun k => match k.wait with | some (.waita _) => { k with wait := none } | _ => k) ∧
    exec (.homeAcknowledgement c x) s = at_ (fun k => { k with unacked := k.unacked - 1 }) ∧
    (∀ p y d, m.pbind = some (p, y) → x < 11 → y < 11 → (((s.core c).ctx y).ports[ptrIx p]).dest = some d →
      exec (.pbindAcknowledgement c x) s = .next (bindBack d ⟨(s.core c).origin, y, p⟩ (s.updCtx c x (fun k => { k with pbind := none })))) ∧
    (∀ q r, (s.core c).sfu = q :: r → q.dead = true →
      exec (.sfuRequestComplete c) s = .next (s.updCore c (fun k => { k with sfu := r }))) ∧
    (∀ q r, (s.core c).sfu = q :: r → q.dead = false → exec (.sfuRequestComplete c) s =
      .next (asContext c q.ctx (deliverTag q.tag (ofV q.result)) (s.updCore c (fun k => { k with sfu := r })))) ∧
    (∀ tag ws, (∀ w ∈ s.here.spmDue, ¬ (w.ctx = s.cur.ctx.val ∧ w.due = none ∧ w.tag = tag)) →
      (∀ p ∈ s.inflight, p.due ≠ some tag) → ws.length = 2 →
      let t := deliverTag tag ws s
      let part {α : Type} (k : Nat) (v : α) (q : Cell α) : Cell α := q.deliver s.now (8 * tag + k) v
      t.me.vbelt = s.me.vbelt.map (part 0 (toV ws)) ∧ t.me.vtail = part 0 (toV ws) s.me.vtail ∧
      (∀ j : Fin 8, t.me.n[j] = part 1 (ws.getD 1 0) (part 0 (ws.getD 0 0) s.me.n[j])) ∧ t.inflight = s.inflight ∧
      { t.here with ctxs := s.here.ctxs } = s.here) ∧
    (∀ n msg, s.inflight[n]? = some msg → firstOfPort s.inflight n = true →
      let o := s.route msg.dst.core
      let k := s.core o
      let p := (k.ctx msg.dst.ctx).ports[ptrIx msg.dst.port]
      let gone : State := { s with inflight := s.inflight.eraseIdx n }
      let got (k : Core) : Core := if msg.node.isSome then { k with rcvd := k.rcvd + 1 } else k
      let spilled := (lookup msg.dst.core (s.vd k.vd).spill).getD []
      (s.diverts msg.dst.core = false → p.dest = none → exec (.portWordArrival n) s = .next (gone.updCore o got)) ∧
      (s.diverts msg.dst.core = false → p.dest ≠ none → p.queue.length + msg.words.length ≤ 16 → exec (.portWordArrival n) s =
        .next ((gone.updCore o got).updCore o (setPort msg.dst.ctx msg.dst.port { p with queue := p.queue ++ msg.words }))) ∧
      (s.diverts msg.dst.core = true → (spilled.map (·.words.length)).sum + msg.words.length ≤ 8192 → exec (.portWordArrival n) s =
        .next ((if msg.node.isSome then countSaved k.vd msg.dst.core else id) (divert k.vd msg gone))) ∧
      ((divert k.vd msg gone).vd k.vd).spill = put msg.dst.core (spilled ++ [msg]) (s.vd k.vd).spill ∧
      (k.mode = .preempted ∨ k.mode = .stopped ∨ k.mode = .asleep → s.diverts msg.dst.core = true))

/-- R98 to R102, R287, R291 to R295: translation, faults and their answers. The agenda that presents these events is the model's own
(log 3), and an event that has nothing to act on changes nothing (log 17). The model's choices: the two events that open and end a
revocation, and its master (log 53); a notice that meets a full p3 is held (log 60). What these events read in a bank that a rank holds
they read in a window: `served` (R371). -/
def Obligations.FaultEvents : Prop :=
  ∀ (s : State) (c x vd n : Nat) (va : BitVec 55) (v : W64) (k : AccessKind),
    let becomes (i : Instr) (t : State) : Prop := exec i s = .next (t.served s)
    becomes (.pageWalk c vd va k) (walk s.afresh (dieOf c) vd va.toNat k).1 ∧
    (∀ page ctl, (s.ctx c x).tinv = some (page, ctl) →
      (s.usesPage page ctl = true → exec (.tinvComplete c x) s = .next s) ∧
      (s.usesPage page ctl = false →
        let t := s.afresh.updCtx c x (fun k => { k with tinv := none })
        let d := ctl.toNat % 64
        (∀ p ∈ heldPages t d, (leafAt d p t).1 = t) → ∃ f, becomes (.tinvComplete c x) (answerHolds d f true t) ∧
        (∀ p, f p = true ↔ p ∈ heldPages t d ∧ tinvCovers page ctl d p (leafAt d p t).2.1 false = true ∧ (leafAt d p t).2.2 = true ∧
          t.revokes d (p * 65536) = false))) ∧
    (∀ w a e big, walkLevels va.toNat 3 s.afresh (s.vd vd).desc.ptroot.toNat = (w, .at_ a e big) →
      let here : Nat := va.toNat / 65536
      let answers (ok : Bool) (t : State) : State := answerHolds vd (samePage big here) ok t
      let step : State := { w with nextId := w.nextId + 1 }
      let dup : Prop := e / 2 ^ 7 % 2 = 1
      let event : Instr := .dupRevocation vd va
      let found := (w.vd vd).revoking.find? (fun r => samePage r.big r.page here)
      (found = none → ¬ dup → becomes event w) ∧
      (found = none → dup → revocationRefused w (masterOf e) = true → becomes event (answers false step)) ∧
      (found = none → dup → revocationRefused w (masterOf e) = false →
        let t := w.updVd vd (fun v => { v with revoking := v.revoking ++ [⟨here, big, masterOf e⟩] })
        becomes event (if masterOf e = w.pkg then t else rewriteLeaf vd va.toNat a e big t)) ∧
      (∀ r, found = some r →
        let t := { w.updVd vd (fun v => { v with revoking := v.revoking.erase r }) with nextId := w.nextId + 1 }
        (revocationRefused w r.master = true → becomes event (answers false t)) ∧
        (revocationRefused w r.master = false → dup → becomes event (answers true (rewriteLeaf vd va.toNat a e big t))) ∧
        (revocationRefused w r.master = false → ¬ dup → becomes event (answers true t)))) ∧
    (∀ f, (s.vd vd).faults.find? (fun f => f.slot.isNone) = some f →
      (∀ g ∈ (s.vd vd).faults, ∀ k, g.slot = some k → (s.vd vd).frpos < k + 2 ^ (s.vd vd).desc.frlog) →
      exec (.faultRingEntry vd) s = .next ((((s.ringEntry vd (f.bytes ++ List.replicate (64 - f.bytes.length) 0)).1).updVd vd (fun v =>
        { v with faults := v.faults.map (fun g => if g.slot = none ∧ g = f then { g with slot := some (s.vd vd).frpos } else g) })).interrupt vd 1)) ∧
    (∀ f a w, (s.vd vd).faults.find? (fun f => f.slot.any (fun k => k % 2 ^ (s.vd vd).desc.frlog == n)) = some f →
      s.afresh.devRead ((s.vd vd).desc.fltring.toNat + 64 * n + 40) 8 = (w, some a) → a / 2 ^ 63 % 2 = 1 → f.h ≠ 255 →
      let code := if a % 256 = 0 then 0 else if a % 256 = 8 then 8 else 9
      let t := w.updVd vd (fun v => { v with faults := v.faults.filter (fun g => g != f) })
      (f.upcall = true → becomes (.pagerAnswer vd n) (onOrigin vd f.core (fun c => notice c
        (BitVec.ofNat 64 (f.h % 16 + (if code = 0 then 0 else 256) + f.seq % 2 ^ 32 * 2 ^ 32))) t)) ∧
      (f.upcall = false → becomes (.pagerAnswer vd n) (onOrigin vd f.core (fun c => writeReply c f.ctx (BitVec.ofNat 64 code)) t))) ∧
    (c < 4224 → x ≤ 10 → exec (.pagerReply c x v) s = .next (writeReply c x v s)) ∧
    (x ≤ 10 → ((s.ctx c x).pfault = none ∨ v = 0) → ((writeReply c x v s).ctx c x) = { s.ctx c x with
      reply := v, pfault := none, sleep := if (s.ctx c x).sleep = some false then some true else (s.ctx c x).sleep
      wait := if (s.ctx c x).pfault.isSome || (s.ctx c x).sleep.isSome then none else (s.ctx c x).wait }) ∧
    (∀ f, x ≤ 10 → (s.ctx c x).pfault = some f → v ≠ 0 → let t := (writeReply c x v s).ctx c x
      t.sup = true ∧ t.epc = (s.ctx c x).pc ∧ t.tval = f.va ∧ t.cause.toNat % 256 = f.cause.toNat ∧ t.pfault = none ∧ t.reply = v) ∧
    (c < 4096 → (s.core c).notices = [] → ∃ t, exec (.pagerNotice c v) s = .next t ∧ (∀ d, d ≠ c → t.core d = s.core d) ∧
      { t with cores := s.cores } = s ∧ t.core c = (
        let p := ((s.core c).ctx 0).ports[3]
        if (s.core c).upc.getLsbD 0 = false then s.core c
        else if p.queue.length < 16 then setPort 0 3 { p with queue := p.queue ++ [v] } (s.core c)
        else { s.core c with notices := [v] })) ∧
    (upcallReady s c = true → Memory.wf (s.core c).spm = true → ∃ r l t, (s.core c).recs = r :: l ∧ exec (.upcallDelivery c) s = .next t ∧ (t.core c).recs = l ∧
      (t.core c).upcall = true ∧ ((t.core c).ctx 0).pc = va55 (s.core c).upv ∧
      t.spmRead c 0x17EA0 8 = bytesOf 8 ((s.core c).ctx 0).pc.toNat ∧
      ((((t.core c).ctx 0).reg 0).read (s.core c).clock) = BitVec.ofNat 64 r.h ∧
      ((((t.core c).ctx 0).reg 1).read (s.core c).clock) = BitVec.ofNat 64 (0x800000 + recOff r.h))

/-- R161, R168, R173 to R176, R182 to R186, R261, R273 to R284, R310, R354: engines, command rings and launches.
The agenda that presents these events is the model's own (log 3); a COLL whose page walk, or a doorbell whose graph, lies in a bank that a
rank holds goes on in a window: `served` (R371). -/
def Obligations.CommandEvents : Prop :=
  ∀ (s : State) (c vd n q j : Nat) (va : W64),
    (∀ d e, let g := c / 8
      ((List.range 8).map (fun i => 8 * g + ((lookup g s.ceNext).getD 0 + i) % 8)).find? (fun d => (s.copyHead d).isSome) = some d →
      s.copyHead d = some e → ((List.range 8).map (fun i => ((s.core (8 * g + i)).copies.filter (·.started)).length)).sum < 4 →
      exec (.engineCommandStart c) s = .next (asContext d e.ctx (beginCopy d e) { s with ceNext := put g ((d + 1) % 8) s.ceNext })) ∧
    (∀ e r, (s.copyHead c = some e ↔ (s.core c).copies.find? (fun e => !e.started) = some e ∧ e.mayStart c s = true) ∧
      (e.held = none → copyPages e s = r → beginCopy c e s = (match r with
        | (t, .hold va) => setCopy c { e with held := some ⟨BitVec.ofNat 64 va, none⟩ } t
        | (t, .fail _) => setCopy c { e with started := true, held := none } t
        | (t, .busy) => t
        | (t, .ok pages) => setCopy c { e with started := true, held := none, lines := (askLines pages (e.reads.map (paIn pages)) t).2 }
            (askLines pages (e.reads.map (paIn pages)) t).1))) ∧
    (∀ e l, (s.core c).copies = e :: l → e.started = true → e.lines = [] → e.idents = [] → e.written = true →
      exec (.cpyCompletion c) s = .next (endCopy c e s)) ∧
    (∀ e l t st, (s.core c).copies = e :: l → e.started = true → e.lines = [] → e.idents = [] → e.written = false → e.held = none →
      e.status &&& 0x1E0 = 0 → runCopy e (actAs c e.ctx s) = .done t st [] →
      exec (.cpyCompletion c) s = .next (endCopy c { e with written := true, status := st, idents := [], held := none } t)) ∧
    (∀ g i e, ((List.range 8).any (fun i => (s.core (8 * g + i)).mx.any (·.started))) = false →
      let head (i : Nat) : Option EngCmd := (s.core (8 * g + i)).mx.head?
      let may (i : Nat) : Bool := (head i).any (fun e => e.mayStart (8 * g + i) s)
      let k := (lookup g s.muNext).getD 0
      (muOrder (s.core (8 * g + k % 8)).mxw.toNat k).find? may = some i → head i = some e → e.fn ≠ 3 →
      exec (.muCommandStart g) s = .next (setMx (8 * g + i) { e with started := true }
        { actAs (8 * g + i) e.ctx s with
          muNext := put g (8 * (if i = k % 8 ∧ k / 8 < (s.core (8 * g + i)).mxw.toNat then k / 8 + 1 else 1) + i) s.muNext })) ∧
    (∀ g i e t st, (List.range 8).find? (fun i => (s.core (8 * g + i)).mx.any (·.started)) = some i →
      (s.core (8 * g + i)).mx.find? (·.started) = some e → e.lines = [] → e.idents = [] → e.written = false → e.held = none →
      e.status &&& 0x1E0 = 0 → runMx e (actAs (8 * g + i) e.ctx s) = .done t st [] →
      exec (.mxCommandComplete g) s = .next (endMx (8 * g + i) { e with written := true, status := st, idents := [], held := none } t)) ∧
    (∀ k, s.cmd vd n = some k → k.state = .posted → k.held = none → cmdMayStart s vd k = true → cmdFirst s vd k = true →
      (s.vd vd).active s.ring = true →
      let free := updCmd vd n (fun x => { x with inRing := false }) s
      let k1 := { k with inRing := false }
      exec (.commandRingDispatch vd n) s = .next (match k.op with
        | .coll => (startColl vd k1 (updCmd vd n (fun x => { x with inRing := false }) s.afresh)).served s
        | .rkovl => startRkovl vd k1 free | .rkrun => startRkrun vd k1 free
        | .rksig => pushSigs (updCmd vd n (fun x => { x with state := .running }) s) | .rkstop => runRkstop vd k1 free)) ∧
    (∀ k st, s.cmd vd n = some k → k.op = .coll → k.state = .finished st → (∀ x ∈ s.courses, ¬ (x.vd = vd ∧ x.cmd = some n)) →
      exec (.collCompletion vd n) s = .next (reportCmd vd k st (if st.toNat % 256 = 0 then s else dropSteps vd k s))) ∧
    (∀ k st, s.cmd vd n = some k → k.op = .rkovl → k.state = .finished st → exec (.rkovlCompletion vd n) s = .next (reportCmd vd k st s)) ∧
    (∀ k st, s.cmd vd n = some k → k.op = .rkrun → k.state = .finished st → exec (.rkrunCompletion vd n) s = .next (reportCmd vd k st s)) ∧
    (∀ k, s.cmd vd n = some k → k.op = .rkrun → k.state = .running → k.total ≤ k.halted.length →
      msgoPending s vd ((ranksOf s.pkg (groupIn k.groups (num k.block 0 4))).getD []) = false → let e := k.fault.getD (0, 0)
      exec (.rkrunCompletion vd n) s = .next (reportCmd vd k (BitVec.ofNat 64 (e.2 % 256 + e.1 % 65536 * 2 ^ 8))
        (finishCmd vd k.n e.2 e.1 s))) ∧
    (∀ k, s.cmd vd n = some k → k.op = .coll → k.state = .posted → (s.vd vd).issuing s.ring = true → s.ring ≥ k.issued +
        (if (collParams k.block).deadline = 0 then 100000 else (collParams k.block).deadline) →
      exec (.collDeadline vd n) s = .next (updCmd vd n (fun x => { x with inRing := false }) (finishCmd vd n 2 0 s))) ∧
    (∀ w l, (s.rank c).holdst = w :: l → (s.rank c).mailbox.length < 16 → exec (.rksigMailboxDelivery c) s =
      .next (pushSigs (s.updRank c (fun k => { k with mailbox := k.mailbox ++ [w], holdst := l })))) ∧
    (vd < 64 → ∀ h : q < 4, (s.vd vd).state ≠ .absent → let r := submit vd va (BitVec.ofNat 64 q) s.afresh
      exec (.launchDoorbell vd q va) s = .next ((r.1.updVd vd (fun v => { v with results := v.results.set q r.2 })).served s)) ∧
    (∀ h : q < 4, ∀ l r, ((s.vd vd).queues[q]).launches = l :: r → l.started = false →
      (s.vd vd).issuing s.ring = true → (s.vd vd).isEnding q l.number none = false → groupsHeld s vd l.groups = true → l.nodes ≠ [] →
      exec (.launchStart vd q) s = .next (decide_ vd (updLaunch vd q l.number (fun l =>
        { l with started := true, nodes := l.nodes.map (enterPool s) })
          (updQueue vd q (fun x => { x with groups := l.groups, trackers := [] }) { s with nextId := s.nextId + 1 })))) ∧
    (∀ h : q < 4, ∀ l r x, ((s.vd vd).queues[q]).launches = l :: r → l.nodes[j]? = some x → x.state = .running → (s.vd vd).issuing s.ring = true →
      (s.vd vd).isEnding q l.number (some j) = false →
      let counts := x.cores.map (originCounts s vd)
      let sent := (counts.map (·.1)).foldl (· + ·) 0
      let rcvd := (counts.map (·.2)).foldl (· + ·) 0
      let quiet : Prop := ∀ c ∈ x.cores, originIdle s vd c = true
      (x.kind = 1 → quiet → sent = rcvd → x.sweep = some (sent, rcvd) →
        exec (.terminationSweep vd q j) s = .next (decide_ vd (endNode vd q l.number j 0 s))) ∧
      (x.kind = 1 → quiet → sent = rcvd → x.sweep ≠ some (sent, rcvd) → exec (.terminationSweep vd q j) s =
        .next (updNode vd q l.number j (fun x => { x with sweep := some (sent, rcvd) }) s)) ∧
      (x.kind = 1 → ¬ (quiet ∧ sent = rcvd) → exec (.terminationSweep vd q j) s =
        .next (updNode vd q l.number j (fun x => { x with sweep := none }) s)) ∧
      (x.kind = 2 → (groupIn l.groups x.size).length ≤ x.halted.length →
        exec (.rankNodeEnd vd q j) s = .next (decide_ vd (endNode vd q l.number j x.code s))))

/-- R209, R210, R251 to R263, R270, R271, R307, R371: courses and banks; CBAR's timeout, and outside traffic, refreshes and power states of
banks. The agenda that presents these events is the model's own (log 3). The model's choices: the timeout of a course that has not opened
(log 14); a course is committed once T is at most 60 ns away, and no acknowledgement is a state of its own (log 29); an outside access by
rank and row that no entry lets through writes nothing and reads an open value, any entry that names it permits it, and it acts for the
VD of the first (log 45); the rows of a course instruction's traffic, one by one (log 39). -/
def Obligations.CourseEvents : Prop :=
  (∀ (s : State) (id k r : Nat) (c : Course), s.course id = some c →
    let te : Prop := ∀ e, (s.vd c.vd).te = some e → c.keystone.getD 0 ≤ e + 60
    (c.opened = false → c.flipped = false → (s.vd c.vd).active s.ring = true → (∀ m ∈ c.members, s.courseOpenAt m = false ∧ (s.rank m).migrates = none) →
      (c.cmd = none → c.size ≤ c.parts.length) → exec (.courseOpen id) s = .next (match c.cmd with
        | some n => openCollCourse c n s | none => openRankCourse c s)) ∧
    (c.opened = true → c.flipped = false → (∀ e ∈ c.ready, e.1 ≠ k) → k < c.size →
      (s.rank (c.rankOf k)).state ≠ .spilled → s.asleep.contains (channelOf (c.rankOf k)) = false →
      (c.cmd = none → c.head.op = .program → (s.rank (c.rankOf k)).wait = some (.course id)) →
      (c.cmd = none → c.head.op ≠ .program → (s.rank (c.rankOf k)).traffic = false ∧ ∀ m ∈ c.members, (s.rank m).reads = 0) →
      exec (.memberReady id k) s = .next (s.setCourse { c with
        ready := c.ready ++ [(k, s.ring)]
        keystone := if c.ready.length + 1 = c.size then some (s.ring + 200) else none })) ∧
    (∀ t, c.keystone = some t → c.flipped = false → te → exec (.keystone id) s = .next (advanceTo t s) ∧
      (s.courses = [c] → advanceTo t s = (let u := keystoneNow c s
        { u with ring := max u.ring t, ranks := u.ranks.map (fun e => (e.1, e.2.waits (t - s.ring))) }))) ∧
    (keystoneNow c s =
      let u := settleRows c.foot ((flip c { s with ring := max s.ring (c.keystone.getD 0) }).setCourse { c with flipped := true })
      match c.cmd with | some n => collKeystone c n u | none => afterKeystone c u) ∧
    (∀ t, c.keystone = some t → c.flipped = false → s.ring + 60 < t → exec (.courseCancel id) s =
      .next (failCourse id 3 ((c.members.findIdx? (fun r => (s.rank r).lost)).elim (c.number 0) c.number) none
        (advanceTo (t - 60) s))) ∧
    (c.flipped = true → exec (.keystoneInvalidationDone id) s = .next (settleRows c.written
      (State.dropLines { s with courses := s.courses.filter (fun x => x.id != id) }
        (c.written.flatMap (fun x => (List.range 16).map (fun i => (Place.mk x.1 x.2 (64 * i)).key / 64))) none))) ∧
    ((s.vd c.vd).issuing s.ring = false → exec (.courseTimeout id) s = .next s) ∧
    (∀ m t, (s.vd c.vd).issuing s.ring = true → c.flipped = false → (List.range c.size).find? (fun i => !c.ready.any (fun r => r.1 == i)) = some m →
      c.ready.head? = some (k, t) → t + 100000 ≤ s.ring → exec (.courseTimeout id) s = .next (failCourse id 2 (c.number m) none s)) ∧
    (∀ m, (s.vd c.vd).issuing s.ring = true → c.flipped = false → c.opened = false → c.cmd = none → c.ready = [] → c.parts.length < c.size → c.since + 100000 ≤ s.ring →
      (List.range c.size).head? = some m → exec (.courseTimeout id) s = .next (failCourse id 2 (c.number m) none s)) ∧
    (r < 8192 → exec (.memberLoss r) s = .next (loseRank r s))) ∧
  (∀ (s : State) (t : Nat), s.nextKeystone t = none → advanceTo t s =
    { s with ring := max s.ring t, ranks := s.ranks.map (fun e => (e.1, e.2.waits (t - s.ring))) }) ∧
  (∀ (s : State) (r row col len ch : Nat) (wr : Bool) (data : BitVec 512) (e : Perm),
    let k := s.rank r
    let ps : List Place := (List.range len).map (fun i => ⟨r, row, col + i⟩)
    let holds : Prop := (k.state = .running ∧ k.run ≠ none ∧ k.wait = none)
    let fits : Prop := r < 8192 ∧ col + len ≤ 1024 ∧ 0 < len ∧ len ≤ 64 ∧ row < (if k.enabled then 46080 else 49152)
    let granted : Prop := (s.permsAt r row).find? (fun e => if wr then e.w else e.r) = some e
    let arrival : Instr := .outsideAccessArrival r row col wr len data
    (∀ g p t n, k.wait = some (.barrier g p t) → k.run = some n → t + 100000 ≤ s.ring → exec (.cbarTimeout r) s =
      .next (endCourseInstr r (if (trackerOf s n.vd n.q g).complete (groupIn n.groups g).length p then 0 else 2) s)) ∧
    (fits → granted → exec arrival s = .next (if wr then
        arriveWrite s.nextId e.vd .nobody (ps.zip (bytesOf len data.toNat)) { s with nextId := s.nextId + 1 }
      else arriveRead e.vd none ps s)) ∧
    (0 < len → col / 64 = (col + len - 1) / 64 → ∀ n u, arriveWrite n e.vd .nobody (ps.zip (bytesOf len data.toNat)) u =
      arrive n e.vd .nobody ⟨r, row, col⟩ len (.write (bytesOf len data.toNat)) u) ∧
    (∀ (n vd : Nat) (user : BankUser) (op : BankOp), s.asleep.contains (channelOf r) = false →
      let p : Place := ⟨r, row, col⟩
      let held : Prop := op.writes = true ∧ s.inFootprint r row = true
      let noRoom : Prop := s.holdFull op p = true
      let waits : Prop := noRoom ∨ Rank.lineBusy k.pending row col = true ∨
        ((op.reads = true ∨ ¬ held) ∧ (k.holdsBank = true ∨ s.blocked r row none = true))
      ∃ q : OutsideReq, q.ident = n ∧ q.vd = vd ∧ q.user = user ∧ q.row = row ∧ q.col = col ∧ q.len = len ∧ q.op = op ∧
        (q.held = true ↔ held) ∧ q.stamp = (if op.writes = true ∧ noRoom then none else some s.ring) ∧
        (waits → arrive n vd user p len op s = s.updRank r (fun k => { k with pending := k.pending ++ [q] })) ∧
        (¬ waits → arrive n vd user p len op s = serveRequest r q s)) ∧
    (fits → (s.permsAt r row).find? (fun e => if wr then e.w else e.r) = none → ∃ v, exec arrival s =
      .next (if wr then s else { s with nextId := s.nextId + 1, output := s.output ++ [.data v] })) ∧
    (holds → 192 ≤ k.timer → exec (.rankCheckTimer r) s = .next (checkBank r s)) ∧
    (k.state = .suspended → exec (.bankReturn r) s =
      .next (s.updRank r (fun k => { k with state := .running, fresh := true, timer := 0 }))) ∧
    (k.state = .running → k.holdsBank = true → exec (.bankRefresh r) s =
      .next (s.updRank r (fun k => { k with state := .suspended, open_ := none }))) ∧
    (ch < 256 → s.asleep.contains ch = false → s.napping.contains ch = false →
      ((∃ j < 32, (s.rank (ch * 32 + j)).rests = false) → exec (.channelPowerDown ch) s = .next { s with napping := s.napping ++ [ch] }) ∧
      ((∀ j < 32, (s.rank (ch * 32 + j)).rests = true ∧ (s.rank (ch * 32 + j)).pending = []) →
        ∃ t, exec (.channelPowerDown ch) s = .next t ∧ t.asleep = s.asleep ++ [ch] ∧ t.napping.contains ch = false ∧
          t.output = s.output ++ [.spilled ch] ∧
          (∀ j < 32, (t.rank (ch * 32 + j)).state =
            (if (s.rank (ch * 32 + j)).state = .idle ∨ (s.rank (ch * 32 + j)).enabled = false then (s.rank (ch * 32 + j)).state
             else .spilled)))) ∧
    (s.asleep.contains ch = true → ∃ t, exec (.channelWake ch) s = .next t ∧ t.asleep = s.asleep.filter (· != ch) ∧ t.mem = s.mem ∧
      (∀ j < 32, let m := s.rank (ch * 32 + j)
        (t.rank (ch * 32 + j)).state =
          (if m.state = .spilled ∧ (∀ x, m.run = some x → (s.vd x.vd).state = .running ∨ (s.vd x.vd).state = .stopping) then .running
           else m.state))))

/-- R297, R299, R302 to R306, R313 to R318, R334, R335, R338: the commands on a VD, when its state allows them, and their codes; RESET, KEYKILL
and TEARDOWN end when what they wait for is over; a stop ends at its equinox, a drain after its time; a core leaves and comes back; a VD
that has been quiescent for 50 µs collapses into vigil and wakes. The agenda that presents these events is the model's own (log 3). The
model's choices: a RESET is accepted while a STOP of the VD is in progress, which the table of R302 does not list (log 38); the collapse is
an event after the one that begins the 50 µs (log 54). What these events read in a bank that a rank holds they read in a window: `served`
(R371). -/
def Obligations.DeviceEvents : Prop :=
  ∀ (s : State) (vd c o : Nat) (arg : BitVec 48), vd < 64 →
    let v := s.vd vd
    let z := s.afresh
    let begins (op : Nat) : Prop := s.vdStat ≠ 1 ∨ (s.vdBegun = false ∧ s.vdCmd = vdWord op vd arg)
    let noted (op : Nat) (code : BitVec 8) (t : State) : State :=
      settleOp { t with vdCmd := vdWord op vd arg, vdStat := code, vdBegun := code == 1 }
    let does (op : Nat) (t : State) (code : BitVec 8) (i : Instr) : Prop :=
      begins op → t.stalled = [] → exec i s = .next (noted op code t)
    (∀ w b, readDesc arg z = (w, some b) → let t := w.measure 7 b
      let d := vdDesc b
      (v.state = .absent → descOk t vd b d = true → does 1 ((List.range d.ilen).foldl (fun s i => cleanCore vd (d.ibase + i) s)
        { t with vds := put vd { Vd.reset with
          state := .running, desc := d, wins := (t.vd vd).wins, b := d.time, q := BitVec.ofNat 64 t.ring } t.vds }) 0 (.create vd arg)) ∧
      (v.state = .absent → descOk t vd b d = false → does 1 t 2 (.create vd arg)) ∧
      (v.state = .stoppedVigil → descOk t vd b d = true → d.flags &&& 7 = v.desc.flags &&& 7 → w.stalled = [] → begins 3 →
        ∃ u, exec (.resume vd arg) s = .next u ∧ u.vdStat = 0 ∧ (u.vd vd).state = .vigil ∧ (u.vd vd).desc = d)) ∧
    (∀ w, readDesc arg z = (w, none) → v.state = .absent → does 1 w 2 (.create vd arg)) ∧
    (v.state ≠ .absent → does 1 z 3 (.create vd arg)) ∧
    (v.state = .running → does 2 (z.updVd vd (fun v => { v with state := .stopping, te := some (stopTime s.ring arg.toNat) })) 1
      (.stop vd arg)) ∧
    (v.state = .vigil → does 2 (z.updVd vd (fun v => { v with te := some (stopTime s.ring arg.toNat) })) 1 (.stop vd arg)) ∧
    (s.ring + 2000 ≤ stopTime s.ring arg.toNat ∧ stopTime s.ring arg.toNat % 2 ^ 48 = arg.toNat ∧
      stopTime s.ring arg.toNat < s.ring + 2000 + 2 ^ 48) ∧
    (∀ te, v.te = some te → let u := advanceTo te s
      let done (t : State) : State := if t.doing 2 vd then { t with vdStat := 0 } else t
      (∀ c ∈ v.interval, (s.core c).mode = .running → u.packable c = true) →
      (∀ k ∈ u.courses, ¬ (k.vd = vd ∧ k.keystone ≠ none ∧ u.keystoneStands k = true)) →
      (v.state = .vigil → exec (.equinoxStop vd) s =
        .next (done (u.updVd vd (fun v => { v with state := .stoppedVigil, te := none, stopPkg := u.pkg })))) ∧
      (v.state = .stopping → ∃ t, exec (.equinoxStop vd) s = .next t ∧ (t.vd vd).state = .stopped ∧ (t.vd vd).te = some te ∧
        t.doing 2 vd = false)) ∧
    (v.state ≠ .absent → arg = 0 → does 4 (resetVd vd z) 1 (.reset vd arg)) ∧
    (v.state ≠ .absent → arg = 0 → s.doing 2 vd = true → let t := resetVd vd { z with vdStat := 0 }
      t.stalled = [] → exec (.reset vd arg) s = .next (noted 4 1 t)) ∧
    ((v.state = .stopped ∨ v.state = .stoppedVigil) → arg = 0 →
      let r := (List.range 16).foldl (fun s k => killKey vd k s) (resetVd vd z)
      let t := { r.updVd vd (fun v => { v with wins := [] }) with perms := r.perms.map (fun e =>
        if (permOf e.2).vd = vd then (e.1, e.2 &&& ~~~((1 : BitVec 128) <<< 79)) else e) }
      does 5 t 1 (.teardown vd arg) ∧ (t.vd vd).wins = [] ∧ ∀ e ∈ t.perms, (permOf e.2).vd = vd → (permOf e.2).valid = false) ∧
    (v.state ≠ .absent → arg.toNat < 16 → begins 6 → ∃ t, exec (.keygen vd arg) s = .next t ∧
      t.vdStat = 0 ∧ lookup arg.toNat (t.vd vd).keys = some (s.sec.keyDraws + 1) ∧ t.sec.keyDraws = s.sec.keyDraws + 1) ∧
    (v.state ≠ .absent → arg.toNat < 16 → does 7 (killKey vd arg.toNat z) 1 (.keykill vd arg)) ∧
    (∀ (op : Nat) (t : State), let p : State := { t with vdCmd := vdWord op vd arg, vdStat := 1, vdBegun := true }
      let u := settleOp p
      let drained : Prop := (t.vd vd).draining = true → t.outstanding vd = false
      let quiet : Prop := t.usesPage 0 (BitVec.ofNat 64 (vd + 64)) = false
      (op = 4 → drained → u.vdStat = 0 ∧ (u.vd vd).draining = false) ∧ (op = 4 → ¬ drained → u = p) ∧
      (op = 7 → quiet → u = { p with vdStat := 0 }) ∧ (op = 7 → ¬ quiet → u = p) ∧
      (op = 5 → drained → quiet → u.vdStat = 0 ∧ u.vd vd = Vd.reset) ∧ (op = 5 → ¬ (drained ∧ quiet) → u.vdStat = 1)) ∧
    (v.draining = true → ∃ t, exec (.drainTimeout vd) s = .next t ∧ (t.vd vd).draining = false ∧
      (∀ r ∈ t.link.reqs, ¬ (r.vd = vd ∧ r.ctx = 11 ∧ r.kind ≠ .word))) ∧
    (c < 4096 → (s.core c).mode = .running → s.packable c = true → exec (.preemption c) s = .next (packCore c .preempted true s)) ∧
    (∀ img, lookup o v.saved = some img → v.issuing s.ring = true → o < 16384 → v.desc.ibase ≤ c → c < v.desc.ibase + v.desc.ilen →
      acceptsImage (s.core c) img = true →
      (s.route o = c → (s.core c).mode = .preempted →
        exec (.coreResumption vd o c) s = .next ((loadCore vd o c true z).served s)) ∧
      (s.route o ≠ c → takesImage s vd o c = true → exec (.coreResumption vd o c) s =
        .next (((loadCore vd o c true z).updCore (s.route o) (fun k =>
          { k with mode := if k.mode = .preempted ∧ k.origin = o then .running else k.mode })).served s))) ∧
    (quiescent s vd = false → exec (.vigilCollapse vd) s = .next s) ∧
    (quiescent s vd = true → v.quiet = none → exec (.vigilCollapse vd) s =
      .next (s.updVd vd (fun v => { v with quiet := some s.ring }))) ∧
    (∀ t0, quiescent s vd = true → v.quiet = some t0 →
      (s.ring < t0 + 50000 → exec (.vigilCollapse vd) s = .next s) ∧
      (∀ ws, t0 + 50000 ≤ s.ring → watchSet s vd = some ws → watchesFit s ws = true → ∃ t, exec (.vigilCollapse vd) s = .next t ∧
        (t.vd vd).state = .vigil ∧ (t.vd vd).watches = ws ∧ (t.vd vd).tc = some s.ring)) ∧
    (v.state = .vigil → v.woken = true → (∀ te, v.te = some te → s.ring < te) → exec (.wake vd) s = .next (
      (wakeCores vd (decide (1 ≤ v.desc.flags.toNat / 2 % 4)) (z.updVd vd (fun v => { v.restart s.pkg (v.tc.getD s.ring) s.ring with
        state := if v.te = none then .running else .stopping, tc := none, watches := [], woken := false }))).served s)) ∧
    (v.state ≠ .vigil ∨ v.woken = false → exec (.wake vd) s = .next s)

/-- R4, R14, R221, R249, R273, R302, R308, R354 to R358: the management window, the debug port, accesses from outside, power. The agenda
that presents these events is the model's own (log 3). The model's choices: REASON after a RESUME of the port (log 41); an outside access at
a physical address acts for the VD of the lowest number that it may (log 45); the slices of die 0 translate for the device (log 57); the MU
rate is lowered before the rank clock (log 46). -/
def Obligations.ManagementEvents : Prop :=
  ∀ (s : State) (bd w vd len : Nat) (v : W64) (x : BitVec 128) (va : BitVec 55) (pa : BitVec 52) (ms rc : BitVec 8) (tj pw : BitVec 16),
    let d := s.dport
    let dbg (i : Instr) (op : BitVec 8) (ok : DebugCmd → Prop) (f : DebugCmd → State → State) : Prop := ∀ q, d.cmd = some q → d.code = 1 →
      q.op = op → let t : State := { s with dport := { d with dsel := q.sel, daddr := q.addr, ddata := q.data } }
      debugSelected t = true → ok q → exec i s = .next { f q t with dport := { d with
        ddata := if op = 6 then (f q t).dport.ddata else d.ddata, cmd := none, code := 0 } }
    let ctxs (q : DebugCmd) : List Nat := if q.ctx = 15 then List.range 11 else [q.ctx]
    let any (_ : DebugCmd) : Prop := True
    let each (f : Context → Context) (q : DebugCmd) (s : State) : State := (ctxs q).foldl (fun s x => s.updCtx q.core x f) s
    let off (q : DebugCmd) : Nat := q.addr.toNat
    (bd < 8 → w < 512 → exec (.permissionEntryWrite bd w x) s = .next (s.writePerm bd w x)) ∧
    (vd < 64 → w < 16 → exec (.windowEntryWrite vd w x) s = .next (s.writeWindow vd w x)) ∧
    (bd < 8 → w < 16 → exec (.rankEnableMapWrite bd w v) s = .next (s.writeEnable bd w v)) ∧
    (exec (.registerWrite 0x30018 v) s = .next { s with dport := { d with ddata := v } }) ∧
    (exec (.registerWrite 0x30010 v) s = .next { s with dport := { d with daddr := v &&& 0x3FFFF } }) ∧
    (exec (.registerWrite 0x30000 v) s = .next { s with dport := { d with dsel := v &&& 0xF0FFF } }) ∧
    (∀ j : Fin 4, exec (.registerWrite (0x30028 + 8 * j) v) s = .next (s.updCore d.core (fun k =>
      { k with watch := k.watch.set j (v &&& 0xF3FFFFFFFFFFFFFF) }))) ∧
    (d.code = 1 → exec (.registerWrite 0x30008 v) s = .next s) ∧
    (d.code ≠ 1 → 1 ≤ v.toNat % 256 → v.toNat % 256 ≤ 7 → exec (.registerWrite 0x30008 v) s =
      .next { s with dport := { d with cmd := some ⟨v.setWidth 8, d.dsel, d.daddr, d.ddata⟩, code := 1 } }) ∧
    (s.vdStat ≠ 1 → v.toNat / 2 ^ 14 % 4 = 0 → 1 ≤ v.toNat % 256 → v.toNat % 256 ≤ 7 → exec (.registerWrite 0 v) s =
      .next { s with vdCmd := v, vdStat := 1, vdBegun := false }) ∧
    (∀ i ∈ [Instr.attach, .detach, .debugHalt, .debugResume, .debugStep, .debugRead, .debugWrite], d.cmd = none → exec i s = .next s) ∧
    dbg .attach 1 any (each (fun c => { c with attached := true })) ∧
    dbg .detach 2 any (each (fun c => { c with attached := false, dstep := false, dhalt := false, reason := if c.dhalt then 0 else c.reason })) ∧
    dbg .debugHalt 3 any (fun q s => (ctxs q).foldl (fun s x => haltContext q.core x s) s) ∧
    (∀ c k, k < 11 → let m := (haltContext c k s).ctx c k
      m.dhalt = true ∧ m.reason = 1 ∧ m.dstep = false ∧ m.pc = (s.ctx c k).pc ∧
      (∀ j : Fin 8, ∀ p ∈ (m.n[j]).pend, ∀ t, p.due = some t → (s.core c).clock + 1000 < t)) ∧
    dbg .debugResume 4 any (each (fun c => if c.dhalt then { c with dhalt := false, dstep := false, reason := 0 } else c)) ∧
    dbg .debugStep 5 (fun q => q.ctx ≤ 10 ∧ (s.ctx q.core q.ctx).dhalt = true) (each (fun c => { c with dhalt := false, dstep := true })) ∧
    dbg .debugRead 6 (fun q => off q % 8 = 0 ∧ off q < 0x35000 ∧ ∀ x, ctxOfOffset (off q) = some x → (s.ctx q.core x).dhalt = true)
      (fun q t => { t with dport := { t.dport with ddata := imageWord t q.core (off q) } }) ∧
    dbg .debugWrite 7 (fun q => off q % 8 = 0 ∧ 0xC000 ≤ off q ∧ off q < 0x24000)
      (fun q t => t.spmWrite q.core (off q - 0xC000) (bytesOf 8 q.data.toNat)) ∧
    (∀ q, d.cmd = some q → d.code = 1 → q.op = 7 → off q % 8 = 0 → 0x25000 ≤ off q → off q < 0x35000 →
      debugSelected { s with dport := { d with dsel := q.sel, daddr := q.addr, ddata := q.data } } = true → ∃ t,
      exec .debugWrite s = .next t ∧ t.dport = { d with cmd := none, code := 0 } ∧
      (t.core q.core).tile = Memory.writeN (s.core q.core).tile (off q - 0x25000) (bytesOf 8 q.data.toNat)) ∧
    (∀ pas wr t, 0 < len → len ≤ 8 → vd < 64 → (s.vd vd).state ≠ .absent →
      walkRange s.afresh deviceDie vd va.toNat len (if wr then .store else .load) = (t, .ok pas) →
      (pas.headD 0) / 2 ^ 42 % 2 ^ 10 = t.pkg → t.mgmtOff (pas.headD 0) = none →
      exec (.hostApertureAccess vd wr va len v) s = .next ((outsideHome vd wr (t.places vd pas) v t).served s)) ∧
    (∀ wr o ps, 0 < len → len ≤ 8 → s.ownerOf pa.toNat len (fun e => if wr then e.w else e.r) = some (o, ps) →
      exec (.deviceDma wr pa len v) s = .next (outsideHome o wr ps v s) ∧
      exec (.applicationCoreAccess (if wr then .store pa len v else .load pa len)) s = .next (outsideHome o wr ps v s)) ∧
    (∀ h : w < 4, vd < 64 → (s.vd vd).state ≠ .absent →
      exec (.applicationCoreAccess (.launch vd w v)) s = exec (.launchDoorbell vd w v) s) ∧
    (1 ≤ ms.toNat → ms.toNat ≤ 8 → 2 ≤ rc.toNat → rc.toNat ≤ 8 → (rc = 8 ∨ ms = 1) → exec (.powerManagerAdjust ms rc tj pw) s =
      .next { s with power := BitVec.ofNat 64 (pw.toNat + tj.toNat * 2 ^ 16 + rc.toNat * 2 ^ 32 + ms.toNat * 2 ^ 40) })

/-- R341 to R351, R353, R358: errors, spares, the almanac, power and boot, and the requests of SPDM. The agenda that presents these events
is the model's own (log 3). The model's choices: the codes of SPDM's messages (log 18, PRESUMED); the slots of the flash, and the step at
which recovery began (log 46); which word of a row a scrub finds bad is open (log 5). -/
def Obligations.ServiceEvents : Prop :=
  ∀ (s : State) (e : ErrorReport) (r row slot fn reg : Nat) (u : SpareUnit) (img : FlashImage) (p : SpdmPath)
      (a b : BitVec 16) (ix : BitVec 8) (nonce : BitVec 256) (share : BitVec 768) (mac : BitVec 384),
    let x := s.sec.path p
    let open_ : Prop := s.boot = .ready
    let greeted : Prop := open_ ∧ x.versionSent = true ∧ x.capsSent = true ∧ x.algsSent = true
    let sends (i : Instr) (code : Nat) : Prop := ∃ t msg, exec i s = .next t ∧ t.sec.out = s.sec.out ++ [(p, x.seal msg)] ∧
      msg.take 2 = bytesOf 1 0x13 ++ bytesOf 1 code ∧ t.mem = s.mem ∧ t.cores = s.cores
    let record (c x : Nat) := (markBad e s).recordFor (s.errorOwner e) e.addr e.pc e.source.toNat e.kind.toNat e.syndrome.toNat c x
    let onlyWait (t : State) : Prop := ∀ c k, { t.ctx c k with wait := (s.ctx c k).wait } = s.ctx c k
    (∀ c x, (record c x).1.errSeq = s.errSeq + 1) ∧
    (e.reader = .none → exec (.uncorrectableError e) s = .next (record 0xFFFFFFFF 0xFF).1) ∧
    (∀ c x, e.reader = .context c x → c < 4224 → x < 11 → ((record c x).1.ctx c x).loads = [] → exec (.uncorrectableError e) s =
      .next ((record c x).1.updCtx c x (fun m => { m with mchk := m.mchk.or (some (record c x).2) }))) ∧
    (∀ k, e.reader = .rank k → k < 8192 → exec (.uncorrectableError e) s = .next (loseRank k (record 0xFFFFFFFF 0xFF).1)) ∧
    (r < 8448 → row < 50176 → (∀ l, s.logicalRow r row = some l → s.inFootprint r l = false) →
      let held : Prop := (s.rank r).holdsBank = true ∧ (s.rank r).state ≠ .suspended
      (∀ found, held → exec (.patrolScrub r row found) s = .next (s.askWindow 0 [⟨r, (s.logicalRow r row).getD 0, 0⟩])) ∧
      (¬ held → s.badIn r row = [] → exec (.patrolScrub r row false) s = .next s) ∧
      (∀ found w, ¬ held → s.badIn r row = [w] → exec (.patrolScrub r row found) s = .next (scrubRecord w s) ∧
        (scrubRecord w s).errSeq = s.errSeq + 1 ∧ onlyWait (scrubRecord w s)) ∧
      (¬ held → s.badIn r row = [] → ∃ w, w / 32 = r * 65536 + row ∧ exec (.patrolScrub r row true) s =
        .next (scrubRecord w { s with badWords := s.badWords ++ [w], nextId := s.nextId + 1 }))) ∧
    (unitExists u = true → mayReplace u s = true → (∀ b, u ≠ .bank b) → ∃ t, exec (.spareSubstitution u) s = .next t ∧
      t.sec.pendingUnits = s.sec.pendingUnits ++ [u]) ∧
    (r < 8192 → exhausted (.bank r) s.substituted = false →
      ((s.rank r).migrates = none → s.mayMigrate r = true → exec (.bankMigration r) s =
        .next (s.updRank r (fun k => { k with migrates := some 0 }))) ∧
      ((s.rank r).migrates = none → s.mayMigrate r = false → exec (.bankMigration r) s = .next s) ∧
      (∀ m, (s.rank r).migrates = some m → s.badIn r m = [] →
        (m + 1 < 49152 → exec (.bankMigration r) s = .next (s.updRank r (fun k => { k with migrates := some (m + 1) }))) ∧
        (49152 ≤ m + 1 → ∃ t, exec (.bankMigration r) s = .next t ∧ t.sec.pendingUnits = s.sec.pendingUnits ++ [.bank r] ∧
          (t.rank r).migrates = none ∧ t.mem = s.mem))) ∧
    (s.sec.pendingUnits ≠ [] → ∃ t, exec .almanacWrite s = .next t ∧ t.sec.pendingUnits = [] ∧
      max t.sec.almanac.1.version t.sec.almanac.2.version = max s.sec.almanac.1.version s.sec.almanac.2.version + 1 ∧
      t.sec.flash = s.sec.flash) ∧
    (s.boot = .off → ∃ t, exec .powerGood s = .next t ∧ t.boot = .booting 1 ∧ t.mem = [] ∧ t.cores = [] ∧
      t.sec.m[0] = Config.sha384 (digestBytes 0 ++ digestBytes Config.maskRomDigest)) ∧
    (∃ t, exec .powerLoss s = .next t ∧ t.boot = .off ∧ t.mem = [] ∧ t.cores = [] ∧ t.ranks = [] ∧ t.vds = [] ∧
      t.sec.flash = s.sec.flash ∧ t.sec.almanac = s.sec.almanac ∧ t.sec.lmsUsed = s.sec.lmsUsed) ∧
    (open_ → exec .thermalTrip s = .next { s with boot := .recovery 7 }) ∧
    (∀ k, s.boot = .booting k → exec .thermalTrip s = .next { s with boot := .recovery k }) ∧
    (s.boot ≠ .off → slot < 10 → exec (.flashUpdateCommand slot img) s =
      .next { s with sec := { s.sec with flash := put slot img s.sec.flash } }) ∧
    (∀ k, s.boot = .booting k → exec (.configurationRequest fn reg) s = .next { s with output := s.output ++ [.retry] }) ∧
    (open_ → exec (.configurationRequest fn reg) s = .next { s with output := s.output ++ [.data (Config.configSpace fn reg)] }) ∧
    (open_ → sends (.getVersion p) 0x04) ∧ (open_ → x.versionSent = true → sends (.getCapabilities p) 0x61) ∧
    (open_ → x.versionSent = true → x.capsSent = true → sends (.negotiateAlgorithms p) 0x63) ∧
    (greeted → sends (.getDigests p) 0x01) ∧ (greeted → sends (.getCertificate p a b) 0x02) ∧
    (greeted → sends (.challenge p nonce) 0x03) ∧ (greeted → ix.toNat ≤ 8 ∨ ix = 0xFF → sends (.getMeasurements p ix nonce) 0x60) ∧
    (greeted → sends (.keyExchange p share) 0x64) ∧
    (∀ k, open_ → x.session = some k → x.established = false → sends (.finish p mac) (if Config.finishGood k mac then 0x65 else 0x7F)) ∧
    (open_ → x.established = true → sends (.endSession p) 0x6C) ∧
    (∀ k, k < 3 → s.boot = .booting k ∨ (p = .i3c ∧ s.boot = .recovery k) → x.established = false → exec (.getVersion p) s =
      .next { s with sec := { s.sec with out := s.sec.out ++ [(p, spdmHeader 0x7F 0x42 0)] } })

/-- R138, R145, R147, R148, R323 to R332, R337: a packet in form, in order and whole is taken: requests reach their home's bank and are
answered when it serves them, answers reach the request they name; one out of form or order is discarded, and one whose tag fails is
retried once. The agenda that presents these events is the model's own (log 3). The model's choices: a refusal is a NACK that names the
request (log 31); the first number of a source, and the channel of a keepalive (log 42); a switch's result (log 32) and what step 0 says
(log 52); the session that a link key is agreed over (log 82). -/
def Obligations.LinkEvents : Prop :=
  ∀ (s : State) (p : Packet) (q : Nat) (dom : BitVec 16) (src dst : BitVec 10),
    let formed (vc : Nat) : Prop := p.src.toNat < 1024 ∧ p.dst.toNat < 1024 ∧ p.vc.toNat = vc ∧ p.len.toNat ≤ 512 ∧ p.dst.toNat = s.pkg ∧
      (∀ n, lookup (seqIx p) s.link.seqIn = some n → n % 2 ^ 32 = p.seq.toNat)
    let whole : Prop := p.tagGood = true
    let w := wakePort p s
    let t := takeSeq p w
    let t1 : State := { t with nextId := t.nextId + 1 }
    let rw (e : Perm) : Bool := e.r && e.w
    let takes (vc : Nat) (i : Instr) (u : State) : Prop := formed vc → whole → exec i s = .next u
    let request (i : Instr) (right : Perm → Bool) (len : Nat) (op : BankOp) : Prop :=
      (acceptingVd s p len right = none → takes 0 i (refuse p t)) ∧
      (∀ vd ps, acceptingVd s p len right = some (vd, ps) →
        (op = .read → takes 0 i (arriveRead vd (some p) ps t)) ∧
        (∀ bs, op = .write bs → takes 0 i (packetWrite vd p (ps.zip bs) t)) ∧
        (op.reads = true → op.writes = true → (placeRuns ps).length = 1 →
          takes 0 i (arrive t.nextId vd (.packet p) (ps.headD ⟨0, 0, 0⟩) len op t1)) ∧
        (op.reads = true → op.writes = true → (placeRuns ps).length ≠ 1 → (∀ x ∈ ps, s.closed op x = false) →
          takes 0 i (serveAt ps ⟨s.nextId, vd, .packet p, 0, 0, len, op, none, true⟩ t)))
    let all : List (Nat × Instr) := [(0, .read p), (0, .write p), (0, .atomic p), (0, .update p), (1, .readResp p), (1, .atomicResp p),
      (1, .ack p), (1, .nack p), (2, .step p), (2, .stepRed p), (2, .stepRes p), (min p.vc.toNat 2, .keepalive p)]
    (∀ i ∈ all, ¬ formed i.1 → exec i.2 s = .next w) ∧
    (∀ i ∈ all.drop 4, formed i.1 → ¬ whole → exec i.2 s = .next (if w.link.retried.contains (seqIx p) then
      loseLink p.src.toNat w else { w with link := { w.link with retried := w.link.retried ++ [seqIx p] } })) ∧
    request (.read p) (·.r) (min p.size 512) .read ∧
    request (.write p) (·.w) p.len.toNat (.write (bytesOf p.len.toNat p.data.toNat)) ∧
    (∀ o e, p.op = .atom o e → request (.atomic p) rw (min p.size 512) (.atom o.toNat p.data.toNat e.toNat)) ∧
    (∀ y o, p.op = .upd y o → request (.update p) rw (min p.size 512) (.upd y.toNat o.toNat p.data.toNat)) ∧
    (∀ (ps : List Place) (r : OutsideReq), r.user = .packet p → (s.recall ps).badWords = [] → let u := s.recall ps
      let old := ofBytes (ps.map (u.readAt r.stamp))
      let sealing (t : State) : Bool := (t.vd r.vd).desc.flags.getLsbD 3
      let acks (t : State) : State := if t.waiting r.ident then t else respond (sealing t) 7 p 0 0 t
      (∀ bs, r.op = .write bs → serveAt ps r s = acks (serveWrite r u (ps.zip bs))) ∧
      (∀ o d e, r.op = .atom o d e → let t := serveWrite r u (ps.zip (bytesOf ps.length (atomNew o (8 * ps.length) old d e)))
        serveAt ps r s = respond (sealing t) 5 p r.len (BitVec.ofNat 4096 old) t) ∧
      (∀ y o v, r.op = .upd y o v → serveAt ps r s = acks (serveWrite r u (ps.zip (bytesOf ps.length (updCombine y o old v)))))) ∧
    (∀ (n v : Nat) (g : Gather), s.gathers.find? (fun g => g.parts.any (fun p => p.1 == n)) = some g → g.packet = some p →
      let g1 : Gather := { g with parts := g.parts.map (fun p => if p.1 = n then (p.1, p.2.1, some (bytesOf p.2.1 v)) else p) }
      let bs := g1.parts.flatMap (fun p => p.2.2.getD [])
      ((∀ q ∈ g1.parts, q.2.2 ≠ none) → answerGather n v s = respond (s.vd g.vd).seals 2 p bs.length (BitVec.ofNat 4096 (ofBytes bs))
        { s with gathers := s.gathers.filter (· != g) }) ∧
      ((∃ q ∈ g1.parts, q.2.2 = none) → (answerGather n v s).link = s.link)) ∧
    (∀ r, requestOf t p = some r → takes 1 (.readResp p) (answered r (p.data.setWidth 512) t) ∧
      takes 1 (.atomicResp p) (answered r (p.data.setWidth 512) t) ∧ takes 1 (.ack p) (acknowledged r t)) ∧
    (∀ r, requestOf t p = some r → r.kind = .load → r.ctx < 11 → p.op = .none →
      (∀ e ∈ (t.core r.core).copies ++ (t.core r.core).mx, ∀ l ∈ e.lines, l.1 ≠ r.ident) → takes 1 (.nack p) (answered r 0
        (t.errorRecord r.vd (p.pa.zeroExtend 64) (t.ctx r.core r.ctx).pc 7 0 (Config.syndrome t.errSeq).toNat r.core r.ctx).1)) ∧
    takes 2 (.step p) (stepArrives p t) ∧ takes 2 (.stepRed p) t ∧
    takes 2 (.stepRes p) (stepArrives { p with step := BitVec.ofNat 16 stepResult } t) ∧
    takes (min p.vc.toNat 2) (.keepalive p) t ∧
    (∃ u, exec .keepaliveSend s = .next u ∧ u.mem = s.mem ∧ u.link.reqs = s.link.reqs) ∧
    (q < 1024 → q ≠ s.pkg → s.link.lost.contains q = false → exec (.packageLoss q) s = .next (losePackage q
      (dropPackage q { s with link := { s.link with lost := s.link.lost ++ [q] } }))) ∧
    (s.sec.spdm.1.established = false → s.sec.spdm.2.established = false → exec (.linkKeyReplacement dom src dst) s = .next s) ∧
    (s.sec.spdm.1.established = true ∨ s.sec.spdm.2.established = true → ∃ u, exec (.linkKeyReplacement dom src dst) s = .next u ∧
      lookup (linkKeyIx dom.toNat src.toNat dst.toNat) u.link.sealedCount = none ∧ u.mem = s.mem) ∧
    exec (.linkPortWake q) s = .next { s with link := { s.link with lowPower := s.link.lowPower.filter (· != q) } }

/-! ### Decoding -/

/-- R59, R70, R72, R191, R193: some words, field by field, and what they stand for. -/
def Obligations.DecodedWords : Prop :=
  decodeSoras 0b000001_001_00_10000_00001_00010_000000#32 = .ok (.add 1 0 16 1 2) ∧
  decodeSoras 0b000010_000_01_00000_00100_11111111111#32 = .ok (.addi 0 1 0 4 2047) ∧
  decodeSoras 0b010001_010_001_00101_000000000000011#32 = .ok (.br 2 1 5 3) ∧
  decodeSoras 0b000001_000_00_00001_00000_00000_000000#32 = .error .illFormed ∧
  decodeSoras 0b000001_000_00_00000_00000_00000_100100#32 = .error .noRow ∧
  decodeMelwen 0b000011_0001_0010_0011_00000000000000#32 = .ok (.sadd 1 2 3) ∧
  decodeMelwen 0b001101_0100_0001_0000_11111111111110#32 = .ok (.sbnz 4 16382) ∧
  decodeMelwen 0b001101_0100_0010_0000_00000000000000#32 = .error .noRow

/-- R59, R62, R69 to R73, R191, R193: every well-formed instruction that has a word is the one its word decodes to, at every value
of every operand. -/
def Obligations.EncodeDecode : Prop :=
  ∀ (i : Instr) (w : Word), i.wf = true → encode i = some w → decodeSoras w = .ok i ∨ decodeMelwen w = .ok i

/-- R59, R62, R69 to R74, R191 to R193: a word that decodes is the word of a well-formed instruction, so no two words stand for
one instruction and no bit of a word is ignored. -/
def Obligations.DecodeEncode : Prop :=
  ∀ (w : Word) (i : Instr), decodeSoras w = .ok i ∨ decodeMelwen w = .ok i → i.wf = true ∧ encode i = some w

/-! ### Reset and steps -/

/-- R20, R26, R33, R36, R164, R170, R185, R189, R248, R301, R302, R349: the values that reset gives; the memories keep their form. The
fields of which the manual gives no reset value (log 6) are not named. -/
def Obligations.ResetState : Prop :=
  State.reset.Form ∧ State.reset.boot = .ready ∧ State.reset.vdStat = 0 ∧ (State.reset.vd 0).state = .running ∧
  (∀ v, v ≠ 0 → (State.reset.vd v).state = .absent) ∧
  (∀ c x : Nat, x < 11 → let k := State.reset.core c; let m := k.ctx x
    m.mode = 0 ∧ m.flags = 0 ∧ m.status = .free ∧ k.mxw = 1 ∧ k.upc = 0 ∧ k.upcall = false ∧ k.node = none ∧ k.full = [] ∧
    m.rep = none ∧ (∀ j : Fin 4, m.ports[j] = ⟨none, false, []⟩) ∧ (∀ j : Fin 8, m.slots[j] = 0) ∧
    (∀ j : Fin 8, (m.z[j]).len = 0 ∧ (m.z[j]).handle = 0xFFFF) ∧ (∀ j : Fin 16, (m.hnd[j]).bound = false) ∧
    m.cg[9] = 0x3F800000 ∧ m.mg[0] = 32 ∧ m.mg[8] = 7 ∧ m.mg[10] = 0x3F800000 ∧
    (∀ j : Fin 16, (k.tags[j]).fmt = 0)) ∧
  (∀ r, (State.reset.rank r).state = .idle ∧ (State.reset.rank r).remap = [] ∧ (State.reset.rank r).run = none)

/-- R28, R58, R285: in a core's turn the first context of the rotating order that may issue runs the instruction that its next word
decodes to; the core's cycle goes on around it. R58, R121: the next word of a context is the one its repetition buffer holds,
else the one the instruction cache holds for its program counter; a word that decodes to nothing is illegal. R29, R92, R99, R100, R136:
what goes on at the begin and the end of a cycle changes only the core's cycle count where nothing of the kind is due. R189 to R194,
R313, R349, log 3: in a rank's turn the word at its µPC runs, or faults where R192 says; an event of the agenda happens; time passes. -/
def Obligations.StepRuns : Prop :=
  (∀ (s t u : State) (c x : Nat) (l : List Turn) (w : Word) (i : Instr) (before after_ : List Nat),
    let s2 := beginCycle c { s with agenda := l }
    s.agenda = .core c :: l → c < 4224 → s.boot = .ready → (s.core c).mode = .running → (s.core c).upslot = false →
    (s.vd (s.core c).vd).issuing s.ring = true → rotation (s.core c).rot = before ++ x :: after_ →
    (∀ y ∈ before, (s2.ctx c y).eligible (s2.core c).clock = false) → (s2.ctx c x).eligible (s2.core c).clock = true →
    (actAs c x s2).me.mchkDue = none → nextWord (actAs c x s2) = .ok (w, t) → decodeSoras w = .ok i → exec i t = .next u →
    (u.ctx c x).wait = none → step s = endTurn (endCycle c s2 (.next (issued c x false u)))) ∧
  (∀ (s : State) (c : Nat),
    ((s.core c).spmDue = [] → (s.core c).notices = [] → (∀ x : Fin 11, ((s.core c).ctxs[x]).parked = [] ∧ ((s.core c).ctxs[x]).yield = []) →
      beginCycle c s = s.updCore c (fun k => { k with clock := k.clock + 1, upslot := false })) ∧
    (∀ s0, (∀ x : Fin 11, ((s.core c).ctxs[x]).yield = []) → upcallReady s c = false → endCycle c s0 (.next s) = .next s) ∧
    ((∀ v ∈ s.vds, v.2.late = [] ∧ v.2.endings = [] ∧ v.2.walkDue = false ∧ v.2.draining = false ∧ v.2.quiet = none) →
      (∀ r ∈ s.ranks, r.2.pending = []) → s.vdStat ≠ 1 → endTurn (.next s) = .next s)) ∧
  (∀ (s : State) (w : Word),
    (s.me.rep = none → lookup (s.me.pc.toNat / 4) s.here.icache = some w → nextWord s = .ok (w, s)) ∧
    (∀ r, s.me.rep = some r → r.body[r.pos]? = some w → nextWord s = .ok (w, s)) ∧
    (∀ e, decodeSoras w = .error e → runWord w s = .next (takeTrap 0x01 (w.zeroExtend 64) s.me.pc s)) ∧
    (∀ i, decodeSoras w = .ok i → runWord w s = exec i s)) ∧
  (∀ (s : State) (l : List Turn), s.boot = .ready → let s1 : State := { s with agenda := l }
    (∀ r, s.agenda = .rank r :: l → r < 8192 → (s.rank r).runs = true → s.asleep.contains (channelOf r) = false →
      (∀ x, (s.rank r).run = some x → (s.vd x.vd).issuing s.ring = true) →
      (∀ i, (s.rank r).upc ≤ 1023 → decodeMelwen (s.rank r).word = .ok i →
        step s = endTurn (exec i { s1 with cur := { s.cur with rank := r } })) ∧
      (1023 < (s.rank r).upc → step s = endTurn (.next (rankFault r 4 s1))) ∧
      (∀ e, (s.rank r).upc ≤ 1023 → decodeMelwen (s.rank r).word = .error e → step s = endTurn (.next (rankFault r 7 s1)))) ∧
    (∀ r id, s.agenda = .rank r :: l → r < 8192 → s.asleep.contains (channelOf r) = false →
      (∀ x, (s.rank r).run = some x → (s.vd x.vd).issuing s.ring = true) → (s.rank r).inTraffic = some id →
      step s = endTurn (.next (trafficRow r id s1))) ∧
    (∀ i, s.agenda = .event i :: l → step s = endTurn (exec i s1)) ∧
    (∀ n, s.agenda = .pass n :: l → step s = endTurn (.next (advanceTo (s.ring + n) s1))))

/-- Every instruction and event has a next state in every state, and so has a step of every agent that R10 numbers (the 128 pager cores
are 4,096 to 4,223 in the model, log 55). -/
def Obligations.NothingStops : Prop :=
  (∀ (i : Instr) (s : State), ∃ t, exec i s = .next t) ∧
  (∀ s : State, (∀ c l, s.agenda = .core c :: l ∨ s.agenda = .idle c :: l → c < 4224) → (∀ r l, s.agenda = .rank r :: l → r < 8192) →
    (s.agenda = [] → s.cur.core < 4224) → ∃ t, step s = .next t)

/-! ### Traps -/

/-- R33, R69, R74, R94: a word that steps 1 to 3 of R74 stop takes its trap with the word in $tval and has no other effect. -/
def Obligations.GateTraps : Prop :=
  ∀ (i : Instr) (s : State),
    let trap (i : Instr) (c : Nat) : Prop := exec i s = .next (takeTrap c ((wordOf i).zeroExtend 64) s.me.pc s)
    let has (b : Nat) : Prop := s.here.feat.getLsbD b = true
    ((∃ w, encode i = some w ∧ decodeSoras w = .ok i) → ∀ c, gateOf i s = some c → trap i c) ∧
    (∀ st, s.me.sup = false → trap (.eret st) 0x03) ∧
    (∀ st d a, s.me.sup = false → (Instr.gets st d a).wf = true → 24 ≤ a.toNat → a.toNat ≤ 27 → trap (.gets st d a) 0x03) ∧
    (∀ st a b, s.me.sup = false → (Instr.puts st a b).wf = true → 24 ≤ a.toNat → a.toNat ≤ 27 → trap (.puts st a b) 0x03) ∧
    (∀ st a b, s.cur.ctx ≠ 0 → (Instr.puts st a b).wf = true → a = 6 ∨ a = 7 → trap (.puts st a b) 0x03) ∧
    (∀ st a b, a.toNat ≤ 3 ∨ (10 ≤ a.toNat ∧ a.toNat ≤ 12) ∨ (17 ≤ a.toNat ∧ a.toNat ≤ 23) ∨ 28 ≤ a.toNat →
      trap (.puts st a b) 0x01) ∧
    (∀ a b w sl sb, ¬ has 0 → (Instr.mma a b w sl sb).wf = true → trap (.mma a b w sl sb) 0x05) ∧
    (∀ a b w sl sb, ¬ has 1 → (Instr.cpy a b w sl sb).wf = true → trap (.cpy a b w sl sb) 0x05) ∧
    (∀ a b w sl sb, ¬ has 4 → (Instr.coll a b w sl sb).wf = true → trap (.coll a b w sl sb) 0x05)

/-- R94 to R98, R101, R123: what taking a trap saves and where the context goes, what ERET restores, and what a fault leaves for the
pagers. -/
def Obligations.Traps : Prop :=
  ∀ (s : State) (cause : Nat) (tval epc : W64), cause < 2 ^ 63 →
    let t := takeTrap cause tval epc s
    let u := returnFromTrap s
    (t.me.epc = epc ∧ t.me.cause.toNat % 2 ^ 63 = cause ∧ t.me.cause.getLsbD 63 = s.me.sup ∧ t.me.tval = tval ∧ t.me.sup = true ∧
      t.me.pc.toNat = s.myVd.desc.trapvec.toNat % 2 ^ 55 ∧ t.me.shadow = s.me.rep ∧ t.me.rep = none ∧ t.me.wait = none ∧
      t.me.hold = none ∧ t.me.ask = none ∧ t.me.answer = none ∧
      { t.me with epc := s.me.epc, cause := s.me.cause, tval := s.me.tval, sup := s.me.sup, pc := s.me.pc, shadow := s.me.shadow,
                  rep := s.me.rep, wait := s.me.wait, hold := s.me.hold, ask := s.me.ask, answer := s.me.answer,
                  bound := s.me.bound } = s.me ∧
      (∀ c, c ≠ s.cur.core → t.core c = s.core c) ∧ (∀ x : Fin 11, x ≠ s.cur.ctx → t.here.ctxs[x] = s.here.ctxs[x]) ∧
      { t with cores := s.cores } = s) ∧
    (u.me.pc.toNat = s.me.epc.toNat % 2 ^ 55 / 4 * 4 ∧ u.target = some u.me.pc ∧ u.me.sup = (s.me.cause.getLsbD 63 || isPager s.cur.core) ∧
      u.me.rep = s.me.shadow ∧ u.me.shadow = none ∧ { u.me with pc := s.me.pc, sup := s.me.sup, rep := s.me.rep, shadow := s.me.shadow } = s.me ∧
      { u with cores := s.cores, target := s.target } = s) ∧
    (∀ va kind, let f := takeFault cause va kind s
      let up : Prop := s.cur.ctx ≠ 0 ∧ s.here.upc.getLsbD 0 = true ∧ (s.here.ctx 0).status ≠ .free
      f.here.fseq = s.here.fseq + 1 ∧ f.me.pc = s.me.pc ∧ f.mem = s.mem ∧
      (¬ up → f.me.pfault = some ⟨BitVec.ofNat 8 cause, va⟩ ∧ f.me.wait = some .reply ∧ f.me.status = s.me.status ∧ f.here.spm = s.here.spm) ∧
      (up → f.me.status = .faulted ∧ f.here.recs = s.here.recs ++ [⟨s.here.fseq + 1, s.cur.ctx⟩] ∧
        f.here.spm = Memory.writeN s.here.spm (0x17EC0 + 32 * (s.cur.ctx - 1)) (bytesOf 8 va.toNat ++ bytesOf 8 s.me.pc.toNat ++
          bytesOf 1 cause ++ bytesOf 1 kind ++ bytesOf 1 s.cur.ctx ++ bytesOf 5 0 ++ bytesOf 8 (s.here.fseq + 1))))

/-- R24, R25, R29, R30, R74, R94: an instruction that computes a result waits while its operands are not ready, and traps before any
effect when one is undersized, misaligned, out of the scratchpad, or names a port that is not bound. -/
def Obligations.OperandStops : Prop :=
  ∀ (i : Instr) (stall : Nat) (srcs : List Opnd) (d : Opnd) (lat : Option Nat) (f : State → List (List W64) → List W64) (s : State),
    s.Admits i → let run := compute i stall srcs d lat f s
    let trap (c : Nat) (v : W64) : Prop := run = .next (takeTrap c v s.me.pc s)
    let free : Prop := s.waitOf srcs (some d) = none ∧ ∀ o ∈ srcs, s.poisoned o = none
    (∀ r, s.waitOf srcs (some d) = some r → run = .next (s.updMe (fun c => { c with wait := some r }))) ∧
    (∀ c, free → s.undersizedCode srcs (some d) = some c → trap 0x04 (BitVec.ofNat 64 c)) ∧
    (∀ c, free → s.undersizedCode srcs (some d) = none → firstCand (s.opCandsFrom [] (srcs ++ [d])) = some c → trap c.cause c.tval) ∧
    (s.me.mode.getLsbD 3 = false → s.undersizedCode srcs (some d) = none) ∧
    (∀ o before, o.isPort = true → (s.me.ports[ptrIx (o.code - 24)]).dest = none → s.opCands before o = [⟨1, 0x18, BitVec.ofNat 64 o.code⟩]) ∧
    (∀ o before, o.isPtr = true → let p := s.ptrAt o.code (uses before o.code)
      (p.toNat % 2 ^ 17 % (8 * o.words) ≠ 0 → s.opCands before o = [⟨2, 0x0A, BitVec.ofNat 64 (p.toNat % 2 ^ 55)⟩]) ∧
      (p.toNat % 2 ^ 17 % (8 * o.words) = 0 → 98304 < p.toNat % 2 ^ 17 + 8 * o.words →
        s.opCands before o = [⟨3, 0x0B, BitVec.ofNat 64 (p.toNat % 2 ^ 55)⟩]) ∧
      (p.toNat % 2 ^ 17 % (8 * o.words) = 0 → p.toNat % 2 ^ 17 + 8 * o.words ≤ 98304 → s.opCands before o = []))

/-! ### What an instruction does around its result, and what it leaves unchanged -/

/-- R28, R38, R85, R121, R357: after an instruction the context goes on at its target, at the next word, or through the body of its
repetition; its next issue is bounded by its stall. At the boundary that ends a STEP of the debugger it halts, with its fixed-latency
results written; else nothing but how it continues is changed. -/
def Obligations.ProgramCounter : Prop :=
  ∀ (s : State) (stall : Nat),
    let t := retire stall s
    let plain : Prop := s.target = none
    (∀ p, s.target = some p → t.me.pc = p ∧ t.me.rep = s.me.rep) ∧
    (plain → s.me.rep = none → t.me.pc.toNat = (s.me.pc.toNat + 4) % 2 ^ 55 ∧ t.me.rep = none) ∧
    (∀ r, plain → s.me.rep = some r → r.pos + 1 < r.len →
      t.me.pc.toNat = (s.me.pc.toNat + 4) % 2 ^ 55 ∧ t.me.rep = some { r with pos := r.pos + 1 }) ∧
    (∀ r, plain → s.me.rep = some r → r.len ≤ r.pos + 1 → 1 < r.remaining →
      t.me.pc.toNat = r.base.toNat % 2 ^ 55 ∧ t.me.rep = some { r with pos := 0, remaining := r.remaining - 1 }) ∧
    (∀ r, plain → s.me.rep = some r → r.len ≤ r.pos + 1 → r.remaining ≤ 1 →
      t.me.pc.toNat = (s.me.pc.toNat + 4) % 2 ^ 55 ∧ t.me.rep = none) ∧
    t.me.bound = s.now + 1 + stall + s.collisions ∧ t.me.wait = none ∧ t.target = none ∧ t.collisions = 0 ∧
    SameElsewhere s t ∧ SameCore s t ∧ SameContext s.me t.me ∧ t.me.ports = s.me.ports ∧ t.inflight = s.inflight ∧
    (let ends : Prop := s.me.dstep = true ∧ ∀ r, t.me.rep = some r → r.pos = 0
     (¬ ends → t.me.belt = s.me.belt ∧ t.me.btail = s.me.btail ∧ t.me.vbelt = s.me.vbelt ∧ t.me.vtail = s.me.vtail ∧
       t.me.n = s.me.n ∧ t.me.a = s.me.a ∧ t.here.spm = s.here.spm ∧ t.here.spmDue = s.here.spmDue ∧ t.me.dstep = s.me.dstep ∧
       t.me.dhalt = s.me.dhalt ∧ t.me.reason = s.me.reason) ∧
     (ends → t.me.dhalt = true ∧ t.me.reason = 3 ∧ t.me.dstep = false ∧ (∀ j : Fin 8, t.me.n[j] = (s.me.n[j]).settle (s.now + 1000)) ∧
       ∀ w ∈ t.here.spmDue, ¬ (w.ctx = s.cur.ctx.val ∧ ∃ d, w.due = some d ∧ d ≤ s.now + 1000)))

/-- R21, R22, R24, R25, R29, R31, R60: where a result goes and when it is seen there; what naming a source pops and advances. -/
def Obligations.OperandEffects : Prop :=
  ∀ (s : State) (v : W64) (x : W128) (due j : Nat), s.now < due → s.me.belt.length = 16 → s.me.vbelt.length = 16 →
    let push := deliver ⟨0, 1, false⟩ (.fixed due) [v] s
    let vpush := deliver ⟨0, 2, true⟩ (.fixed due) (ofV x) s
    let reg := deliver ⟨16 + j, 1, false⟩ (.fixed due) [v] s
    let ptr := advancePtr j s
    (((push.me.intSlot 0).read due = v ∧ (push.me.intSlot 0).undersized s.now = true ∧ push.me.belt.length = 16 ∧
      (∀ k < 15, push.me.intSlot (k + 1) = s.me.intSlot k) ∧ push.me.btail = s.me.intSlot 15 ∧ push.me.vbelt = s.me.vbelt)) ∧
    ((vpush.me.vecSlot 0).read due = x ∧ (∀ k < 15, vpush.me.vecSlot (k + 1) = s.me.vecSlot k) ∧
      vpush.me.vtail = s.me.vecSlot 15 ∧ vpush.me.belt = s.me.belt) ∧
    (j < 8 → (∀ p ∈ (s.me.reg j).pend, ∃ d, p.due = some d ∧ d ≤ due) → (reg.me.reg j).read due = v ∧ reg.me.belt = s.me.belt ∧
      ∀ k < 8, k ≠ j → reg.me.reg k = s.me.reg k) ∧
    (j < 4 → (s.me.ptr j).pend = [] → let p := (s.me.ptr j).cur
      let q := (ptr.me.ptr j).read s.now
      q.toNat % 2 ^ 55 = ((p.toNat : Int) + (s.me.as[ptrIx j]).toInt) % 2 ^ 55 ∧ q.toNat / 2 ^ 55 = p.toNat / 2 ^ 55 ∧ ptr.me.as = s.me.as) ∧
    (24 ≤ j → j ≤ 27 → ∀ n, ((consume1 ⟨j, n, false⟩ s).me.ports[ptrIx (j - 24)]).queue = ((s.me.ports[ptrIx (j - 24)]).queue).drop n) ∧
    deliver ⟨31, 1, false⟩ (.fixed due) [v] s = s ∧ s.value [] ⟨31, 1, false⟩ = [0]

/-- R21 to R25, R60: the frame of every instruction that computes `k` words from its operands: what it leaves unchanged in the state that
it retires in; what retiring does is `ProgramCounter`. -/
def Obligations.ComputeFrame : Prop :=
  ∀ (i : Instr) (stall : Nat) (srcs : List Opnd) (d : Opnd) (r : State → Ready) (f : State → List (List W64) → List W64) (k : Nat),
    Computes i stall srcs d r f → ∀ s t : State, s.Admits i → s.Clear srcs (some d) → (f s (s.values srcs)).length = k →
      exec i s = .next t → ∃ u, t = retire stall u ∧ DeliverFrame srcs d k s u

/-- The memories keep their canonical form under every write to them (the model's own form, log 4): the bytes of a store, a scratchpad
write, and every instruction that computes a result. -/
def Obligations.MemoryForm : Prop :=
  (∀ (s : State) (bs : List (Place × Byte)), s.MemWf → (s.writePlaces bs).MemWf) ∧
  (∀ (s : State) (c off : Nat) (bs : List Byte), s.MemWf → (s.spmWrite c off bs).MemWf) ∧
  (∀ (i : Instr) (stall : Nat) (srcs : List Opnd) (d : Opnd) (r : State → Ready) (f : State → List (List W64) → List W64),
    Computes i stall srcs d r f → ∀ s t : State, s.MemWf → s.Admits i → s.Clear srcs (some d) → exec i s = .next t → t.MemWf)

/-- Every step keeps the memories, and the scratchpads and tiles of the cores that are saved, in their canonical form (the model's
own form, log 4), from every state that has it. -/
def Obligations.StepKeepsForm : Prop :=
  ∀ s t : State, s.Form → step s = .next t → t.Form
end

