-- ==== Sys2Proof/Laws/Dispatch.lean ====
section
/-! SUPPORT. Which meaning each constructor has: one equation per arm of `exec`, so that no proof unfolds the dispatch. -/

namespace Sys2Proof.Machine

theorem exec_add (st : BitVec 3) (w : BitVec 2) (d : BitVec 5) (a : BitVec 5) (b : BitVec 5) (s : State) :
    exec (.add st w d a b) s = execAdd st w d a b s := rfl
theorem exec_sub (st : BitVec 3) (w : BitVec 2) (d : BitVec 5) (a : BitVec 5) (b : BitVec 5) (s : State) :
    exec (.sub st w d a b) s = execSub st w d a b s := rfl
theorem exec_and (st : BitVec 3) (w : BitVec 2) (d : BitVec 5) (a : BitVec 5) (b : BitVec 5) (s : State) :
    exec (.and st w d a b) s = execAnd st w d a b s := rfl
theorem exec_or (st : BitVec 3) (w : BitVec 2) (d : BitVec 5) (a : BitVec 5) (b : BitVec 5) (s : State) :
    exec (.or st w d a b) s = execOr st w d a b s := rfl
theorem exec_xor (st : BitVec 3) (w : BitVec 2) (d : BitVec 5) (a : BitVec 5) (b : BitVec 5) (s : State) :
    exec (.xor st w d a b) s = execXor st w d a b s := rfl
theorem exec_andn (st : BitVec 3) (w : BitVec 2) (d : BitVec 5) (a : BitVec 5) (b : BitVec 5) (s : State) :
    exec (.andn st w d a b) s = execAndn st w d a b s := rfl
theorem exec_orn (st : BitVec 3) (w : BitVec 2) (d : BitVec 5) (a : BitVec 5) (b : BitVec 5) (s : State) :
    exec (.orn st w d a b) s = execOrn st w d a b s := rfl
theorem exec_shl (st : BitVec 3) (w : BitVec 2) (d : BitVec 5) (a : BitVec 5) (b : BitVec 5) (s : State) :
    exec (.shl st w d a b) s = execShl st w d a b s := rfl
theorem exec_shr (st : BitVec 3) (w : BitVec 2) (d : BitVec 5) (a : BitVec 5) (b : BitVec 5) (s : State) :
    exec (.shr st w d a b) s = execShr st w d a b s := rfl
theorem exec_sar (st : BitVec 3) (w : BitVec 2) (d : BitVec 5) (a : BitVec 5) (b : BitVec 5) (s : State) :
    exec (.sar st w d a b) s = execSar st w d a b s := rfl
theorem exec_rol (st : BitVec 3) (w : BitVec 2) (d : BitVec 5) (a : BitVec 5) (b : BitVec 5) (s : State) :
    exec (.rol st w d a b) s = execRol st w d a b s := rfl
theorem exec_ror (st : BitVec 3) (w : BitVec 2) (d : BitVec 5) (a : BitVec 5) (b : BitVec 5) (s : State) :
    exec (.ror st w d a b) s = execRor st w d a b s := rfl
theorem exec_mul (st : BitVec 3) (w : BitVec 2) (d : BitVec 5) (a : BitVec 5) (b : BitVec 5) (s : State) :
    exec (.mul st w d a b) s = execMul st w d a b s := rfl
theorem exec_mulh (st : BitVec 3) (w : BitVec 2) (d : BitVec 5) (a : BitVec 5) (b : BitVec 5) (s : State) :
    exec (.mulh st w d a b) s = execMulh st w d a b s := rfl
theorem exec_mulhu (st : BitVec 3) (w : BitVec 2) (d : BitVec 5) (a : BitVec 5) (b : BitVec 5) (s : State) :
    exec (.mulhu st w d a b) s = execMulhu st w d a b s := rfl
theorem exec_div (st : BitVec 3) (w : BitVec 2) (d : BitVec 5) (a : BitVec 5) (b : BitVec 5) (s : State) :
    exec (.div st w d a b) s = execDiv st w d a b s := rfl
theorem exec_divu (st : BitVec 3) (w : BitVec 2) (d : BitVec 5) (a : BitVec 5) (b : BitVec 5) (s : State) :
    exec (.divu st w d a b) s = execDivu st w d a b s := rfl
theorem exec_rem (st : BitVec 3) (w : BitVec 2) (d : BitVec 5) (a : BitVec 5) (b : BitVec 5) (s : State) :
    exec (.rem st w d a b) s = execRem st w d a b s := rfl
theorem exec_remu (st : BitVec 3) (w : BitVec 2) (d : BitVec 5) (a : BitVec 5) (b : BitVec 5) (s : State) :
    exec (.remu st w d a b) s = execRemu st w d a b s := rfl
theorem exec_min (st : BitVec 3) (w : BitVec 2) (d : BitVec 5) (a : BitVec 5) (b : BitVec 5) (s : State) :
    exec (.min st w d a b) s = execMin st w d a b s := rfl
theorem exec_max (st : BitVec 3) (w : BitVec 2) (d : BitVec 5) (a : BitVec 5) (b : BitVec 5) (s : State) :
    exec (.max st w d a b) s = execMax st w d a b s := rfl
theorem exec_minu (st : BitVec 3) (w : BitVec 2) (d : BitVec 5) (a : BitVec 5) (b : BitVec 5) (s : State) :
    exec (.minu st w d a b) s = execMinu st w d a b s := rfl
theorem exec_maxu (st : BitVec 3) (w : BitVec 2) (d : BitVec 5) (a : BitVec 5) (b : BitVec 5) (s : State) :
    exec (.maxu st w d a b) s = execMaxu st w d a b s := rfl
theorem exec_ceq (st : BitVec 3) (w : BitVec 2) (d : BitVec 5) (a : BitVec 5) (b : BitVec 5) (s : State) :
    exec (.ceq st w d a b) s = execCeq st w d a b s := rfl
theorem exec_cne (st : BitVec 3) (w : BitVec 2) (d : BitVec 5) (a : BitVec 5) (b : BitVec 5) (s : State) :
    exec (.cne st w d a b) s = execCne st w d a b s := rfl
theorem exec_clt (st : BitVec 3) (w : BitVec 2) (d : BitVec 5) (a : BitVec 5) (b : BitVec 5) (s : State) :
    exec (.clt st w d a b) s = execClt st w d a b s := rfl
theorem exec_cltu (st : BitVec 3) (w : BitVec 2) (d : BitVec 5) (a : BitVec 5) (b : BitVec 5) (s : State) :
    exec (.cltu st w d a b) s = execCltu st w d a b s := rfl
theorem exec_cle (st : BitVec 3) (w : BitVec 2) (d : BitVec 5) (a : BitVec 5) (b : BitVec 5) (s : State) :
    exec (.cle st w d a b) s = execCle st w d a b s := rfl
theorem exec_cleu (st : BitVec 3) (w : BitVec 2) (d : BitVec 5) (a : BitVec 5) (b : BitVec 5) (s : State) :
    exec (.cleu st w d a b) s = execCleu st w d a b s := rfl
theorem exec_sel (st : BitVec 3) (w : BitVec 2) (d : BitVec 5) (a : BitVec 5) (b : BitVec 5) (s : State) :
    exec (.sel st w d a b) s = execSel st w d a b s := rfl
theorem exec_clz (st : BitVec 3) (w : BitVec 2) (d : BitVec 5) (a : BitVec 5) (s : State) :
    exec (.clz st w d a) s = execClz st w d a s := rfl
theorem exec_ctz (st : BitVec 3) (w : BitVec 2) (d : BitVec 5) (a : BitVec 5) (s : State) :
    exec (.ctz st w d a) s = execCtz st w d a s := rfl
theorem exec_popc (st : BitVec 3) (w : BitVec 2) (d : BitVec 5) (a : BitVec 5) (s : State) :
    exec (.popc st w d a) s = execPopc st w d a s := rfl
theorem exec_brev (st : BitVec 3) (w : BitVec 2) (d : BitVec 5) (a : BitVec 5) (s : State) :
    exec (.brev st w d a) s = execBrev st w d a s := rfl
theorem exec_bswap (st : BitVec 3) (w : BitVec 2) (d : BitVec 5) (a : BitVec 5) (s : State) :
    exec (.bswap st w d a) s = execBswap st w d a s := rfl
theorem exec_mov (st : BitVec 3) (w : BitVec 2) (d : BitVec 5) (a : BitVec 5) (s : State) :
    exec (.mov st w d a) s = execMov st w d a s := rfl
theorem exec_addi (st : BitVec 3) (w : BitVec 2) (d : BitVec 5) (a : BitVec 5) (i : BitVec 11) (s : State) :
    exec (.addi st w d a i) s = execAddi st w d a i s := rfl
theorem exec_andi (st : BitVec 3) (w : BitVec 2) (d : BitVec 5) (a : BitVec 5) (i : BitVec 11) (s : State) :
    exec (.andi st w d a i) s = execAndi st w d a i s := rfl
theorem exec_ori (st : BitVec 3) (w : BitVec 2) (d : BitVec 5) (a : BitVec 5) (i : BitVec 11) (s : State) :
    exec (.ori st w d a i) s = execOri st w d a i s := rfl
theorem exec_xori (st : BitVec 3) (w : BitVec 2) (d : BitVec 5) (a : BitVec 5) (i : BitVec 11) (s : State) :
    exec (.xori st w d a i) s = execXori st w d a i s := rfl
theorem exec_shli (st : BitVec 3) (w : BitVec 2) (d : BitVec 5) (a : BitVec 5) (n : BitVec 6) (s : State) :
    exec (.shli st w d a n) s = execShli st w d a n s := rfl
theorem exec_shri (st : BitVec 3) (w : BitVec 2) (d : BitVec 5) (a : BitVec 5) (n : BitVec 6) (s : State) :
    exec (.shri st w d a n) s = execShri st w d a n s := rfl
theorem exec_sari (st : BitVec 3) (w : BitVec 2) (d : BitVec 5) (a : BitVec 5) (n : BitVec 6) (s : State) :
    exec (.sari st w d a n) s = execSari st w d a n s := rfl
theorem exec_roli (st : BitVec 3) (w : BitVec 2) (d : BitVec 5) (a : BitVec 5) (n : BitVec 6) (s : State) :
    exec (.roli st w d a n) s = execRoli st w d a n s := rfl
theorem exec_ceqi (st : BitVec 3) (w : BitVec 2) (d : BitVec 5) (a : BitVec 5) (i : BitVec 11) (s : State) :
    exec (.ceqi st w d a i) s = execCeqi st w d a i s := rfl
theorem exec_clti (st : BitVec 3) (w : BitVec 2) (d : BitVec 5) (a : BitVec 5) (i : BitVec 11) (s : State) :
    exec (.clti st w d a i) s = execClti st w d a i s := rfl
theorem exec_cltui (st : BitVec 3) (w : BitVec 2) (d : BitVec 5) (a : BitVec 5) (i : BitVec 11) (s : State) :
    exec (.cltui st w d a i) s = execCltui st w d a i s := rfl
theorem exec_bfx (st : BitVec 3) (d : BitVec 5) (a : BitVec 5) (p : BitVec 6) (l : BitVec 5) (s : State) :
    exec (.bfx st d a p l) s = execBfx st d a p l s := rfl
theorem exec_bfi (st : BitVec 3) (d : BitVec 5) (a : BitVec 5) (p : BitVec 6) (l : BitVec 5) (s : State) :
    exec (.bfi st d a p l) s = execBfi st d a p l s := rfl
theorem exec_ldk (st : BitVec 3) (d : BitVec 5) (i : BitVec 16) (s : State) :
    exec (.ldk st d i) s = execLdk st d i s := rfl
theorem exec_ldkh (st : BitVec 3) (d : BitVec 5) (i : BitVec 16) (s : State) :
    exec (.ldkh st d i) s = execLdkh st d i s := rfl
theorem exec_adpc (st : BitVec 3) (d : BitVec 5) (i : BitVec 16) (s : State) :
    exec (.adpc st d i) s = execAdpc st d i s := rfl
theorem exec_padd (st : BitVec 3) (d : BitVec 5) (a : BitVec 5) (b : BitVec 5) (s : State) :
    exec (.padd st d a b) s = execPadd st d a b s := rfl
theorem exec_padde (st : BitVec 3) (d : BitVec 5) (a : BitVec 5) (b : BitVec 5) (s : State) :
    exec (.padde st d a b) s = execPadde st d a b s := rfl
theorem exec_psube (st : BitVec 3) (d : BitVec 5) (a : BitVec 5) (b : BitVec 5) (s : State) :
    exec (.psube st d a b) s = execPsube st d a b s := rfl
theorem exec_pfmt (st : BitVec 3) (d : BitVec 5) (a : BitVec 5) (b : BitVec 5) (s : State) :
    exec (.pfmt st d a b) s = execPfmt st d a b s := rfl
theorem exec_pgetf (st : BitVec 3) (d : BitVec 5) (a : BitVec 5) (s : State) :
    exec (.pgetf st d a) s = execPgetf st d a s := rfl
theorem exec_pgetb (st : BitVec 3) (d : BitVec 5) (a : BitVec 5) (s : State) :
    exec (.pgetb st d a) s = execPgetb st d a s := rfl
theorem exec_pset (st : BitVec 3) (d : BitVec 5) (a : BitVec 5) (b : BitVec 5) (s : State) :
    exec (.pset st d a b) s = execPset st d a b s := rfl
theorem exec_pstr (st : BitVec 3) (a : BitVec 5) (b : BitVec 5) (s : State) :
    exec (.pstr st a b) s = execPstr st a b s := rfl
theorem exec_pgeta (st : BitVec 3) (d : BitVec 5) (a : BitVec 5) (s : State) :
    exec (.pgeta st d a) s = execPgeta st d a s := rfl
theorem exec_paddi (st : BitVec 3) (d : BitVec 5) (a : BitVec 5) (i : BitVec 11) (s : State) :
    exec (.paddi st d a i) s = execPaddi st d a i s := rfl
theorem exec_br (st : BitVec 3) (c : BitVec 3) (a : BitVec 5) (i : BitVec 15) (s : State) :
    exec (.br st c a i) s = execBr st c a i s := rfl
theorem exec_jmp (st : BitVec 3) (i : BitVec 23) (s : State) :
    exec (.jmp st i) s = execJmp st i s := rfl
theorem exec_call (st : BitVec 3) (i : BitVec 23) (s : State) :
    exec (.call st i) s = execCall st i s := rfl
theorem exec_jmpi (st : BitVec 3) (a : BitVec 5) (s : State) :
    exec (.jmpi st a) s = execJmpi st a s := rfl
theorem exec_calli (st : BitVec 3) (a : BitVec 5) (s : State) :
    exec (.calli st a) s = execCalli st a s := rfl
theorem exec_ret (st : BitVec 3) (s : State) :
    exec (.ret st) s = execRet st s := rfl
theorem exec_loop (st : BitVec 3) (a : BitVec 5) (i : BitVec 15) (s : State) :
    exec (.loop st a i) s = execLoop st a i s := rfl
theorem exec_rep (st : BitVec 3) (a : BitVec 5) (i : BitVec 11) (s : State) :
    exec (.rep st a i) s = execRep st a i s := rfl
theorem exec_start (st : BitVec 3) (d : BitVec 5) (a : BitVec 5) (b : BitVec 5) (s : State) :
    exec (.start st d a b) s = execStart st d a b s := rfl
theorem exec_halt (st : BitVec 3) (s : State) :
    exec (.halt st) s = execHalt st s := rfl
theorem exec_joinh (st : BitVec 3) (a : BitVec 5) (s : State) :
    exec (.joinh st a) s = execJoinh st a s := rfl
theorem exec_yield (st : BitVec 3) (s : State) :
    exec (.yield st) s = execYield st s := rfl
theorem exec_saveh (st : BitVec 3) (d : BitVec 5) (a : BitVec 5) (b : BitVec 5) (s : State) :
    exec (.saveh st d a b) s = execSaveh st d a b s := rfl
theorem exec_loadh (st : BitVec 3) (d : BitVec 5) (a : BitVec 5) (b : BitVec 5) (s : State) :
    exec (.loadh st d a b) s = execLoadh st d a b s := rfl
theorem exec_resumeh (st : BitVec 3) (d : BitVec 5) (a : BitVec 5) (s : State) :
    exec (.resumeh st d a) s = execResumeh st d a s := rfl
theorem exec_killh (st : BitVec 3) (d : BitVec 5) (a : BitVec 5) (s : State) :
    exec (.killh st d a) s = execKillh st d a s := rfl
theorem exec_hstat (st : BitVec 3) (d : BitVec 5) (a : BitVec 5) (s : State) :
    exec (.hstat st d a) s = execHstat st d a s := rfl
theorem exec_upret (st : BitVec 3) (s : State) :
    exec (.upret st) s = execUpret st s := rfl
theorem exec_nop (st : BitVec 3) (s : State) :
    exec (.nop st) s = execNop st s := rfl
theorem exec_trap (st : BitVec 3) (a : BitVec 5) (s : State) :
    exec (.trap st a) s = execTrap st a s := rfl
theorem exec_eret (st : BitVec 3) (s : State) :
    exec (.eret st) s = execEret st s := rfl
theorem exec_gets (st : BitVec 3) (d : BitVec 5) (a : BitVec 5) (s : State) :
    exec (.gets st d a) s = execGets st d a s := rfl
theorem exec_puts (st : BitVec 3) (a : BitVec 5) (b : BitVec 5) (s : State) :
    exec (.puts st a b) s = execPuts st a b s := rfl
theorem exec_fence (st : BitVec 3) (a : BitVec 5) (s : State) :
    exec (.fence st a) s = execFence st a s := rfl
theorem exec_ifence (st : BitVec 3) (s : State) :
    exec (.ifence st) s = execIfence st s := rfl
theorem exec_waita (st : BitVec 3) (d : BitVec 5) (a : BitVec 5) (b : BitVec 5) (s : State) :
    exec (.waita st d a b) s = execWaita st d a b s := rfl
theorem exec_fflag (st : BitVec 3) (a : BitVec 5) (b : BitVec 5) (s : State) :
    exec (.fflag st a b) s = execFflag st a b s := rfl
theorem exec_brk (st : BitVec 3) (s : State) :
    exec (.brk st) s = execBrk st s := rfl
theorem exec_sleepr (st : BitVec 3) (d : BitVec 5) (s : State) :
    exec (.sleepr st d) s = execSleepr st d s := rfl
theorem exec_tinv (st : BitVec 3) (a : BitVec 5) (b : BitVec 5) (s : State) :
    exec (.tinv st a b) s = execTinv st a b s := rfl
theorem exec_ld (st : BitVec 3) (w : BitVec 2) (d : BitVec 5) (b : BitVec 5) (q : BitVec 3) (o : BitVec 8) (s : State) :
    exec (.ld st w d b q o) s = execLd st w d b q o s := rfl
theorem exec_st (st : BitVec 3) (w : BitVec 2) (d : BitVec 5) (b : BitVec 5) (q : BitVec 2) (o : BitVec 8) (s : State) :
    exec (.st st w d b q o) s = execSt st w d b q o s := rfl
theorem exec_ldl (st : BitVec 3) (w : BitVec 2) (d : BitVec 5) (b : BitVec 5) (o : BitVec 8) (s : State) :
    exec (.ldl st w d b o) s = execLdl st w d b o s := rfl
theorem exec_ldlAcq (st : BitVec 3) (w : BitVec 2) (d : BitVec 5) (b : BitVec 5) (o : BitVec 8) (s : State) :
    exec (.ldlAcq st w d b o) s = execLdlAcq st w d b o s := rfl
theorem exec_ldf (st : BitVec 3) (d : BitVec 5) (b : BitVec 5) (o : BitVec 8) (s : State) :
    exec (.ldf st d b o) s = execLdf st d b o s := rfl
theorem exec_ldfe (st : BitVec 3) (d : BitVec 5) (b : BitVec 5) (o : BitVec 8) (s : State) :
    exec (.ldfe st d b o) s = execLdfe st d b o s := rfl
theorem exec_stl (st : BitVec 3) (w : BitVec 2) (d : BitVec 5) (b : BitVec 5) (o : BitVec 8) (s : State) :
    exec (.stl st w d b o) s = execStl st w d b o s := rfl
theorem exec_stlRel (st : BitVec 3) (w : BitVec 2) (d : BitVec 5) (b : BitVec 5) (o : BitVec 8) (s : State) :
    exec (.stlRel st w d b o) s = execStlRel st w d b o s := rfl
theorem exec_stf (st : BitVec 3) (d : BitVec 5) (b : BitVec 5) (o : BitVec 8) (s : State) :
    exec (.stf st d b o) s = execStf st d b o s := rfl
theorem exec_ste (st : BitVec 3) (d : BitVec 5) (b : BitVec 5) (o : BitVec 8) (s : State) :
    exec (.ste st d b o) s = execSte st d b o s := rfl
theorem exec_ldv (st : BitVec 3) (w : BitVec 2) (d : BitVec 5) (b : BitVec 5) (q : BitVec 3) (o : BitVec 8) (s : State) :
    exec (.ldv st w d b q o) s = execLdv st w d b q o s := rfl
theorem exec_stv (st : BitVec 3) (w : BitVec 2) (d : BitVec 5) (b : BitVec 5) (q : BitVec 3) (o : BitVec 8) (s : State) :
    exec (.stv st w d b q o) s = execStv st w d b q o s := rfl
theorem exec_ldx (st : BitVec 3) (d : BitVec 5) (b : BitVec 5) (l : BitVec 1) (t : BitVec 1) (o : BitVec 8) (s : State) :
    exec (.ldx st d b l t o) s = execLdx st d b l t o s := rfl
theorem exec_stx (st : BitVec 3) (d : BitVec 5) (b : BitVec 5) (l : BitVec 1) (t : BitVec 1) (u : BitVec 1) (o : BitVec 8) (s : State) :
    exec (.stx st d b l t u o) s = execStx st d b l t u o s := rfl
theorem exec_pref (st : BitVec 3) (b : BitVec 5) (q : BitVec 2) (o : BitVec 8) (s : State) :
    exec (.pref st b q o) s = execPref st b q o s := rfl
theorem exec_atomFadd (st : BitVec 3) (d : BitVec 5) (a : BitVec 5) (b : BitVec 5) (z : BitVec 2) (s : State) :
    exec (.atomFadd st d a b z) s = execAtomFadd st d a b z s := rfl
theorem exec_atomFand (st : BitVec 3) (d : BitVec 5) (a : BitVec 5) (b : BitVec 5) (z : BitVec 2) (s : State) :
    exec (.atomFand st d a b z) s = execAtomFand st d a b z s := rfl
theorem exec_atomFor (st : BitVec 3) (d : BitVec 5) (a : BitVec 5) (b : BitVec 5) (z : BitVec 2) (s : State) :
    exec (.atomFor st d a b z) s = execAtomFor st d a b z s := rfl
theorem exec_atomFxor (st : BitVec 3) (d : BitVec 5) (a : BitVec 5) (b : BitVec 5) (z : BitVec 2) (s : State) :
    exec (.atomFxor st d a b z) s = execAtomFxor st d a b z s := rfl
theorem exec_atomFmin (st : BitVec 3) (d : BitVec 5) (a : BitVec 5) (b : BitVec 5) (z : BitVec 2) (s : State) :
    exec (.atomFmin st d a b z) s = execAtomFmin st d a b z s := rfl
theorem exec_atomFmax (st : BitVec 3) (d : BitVec 5) (a : BitVec 5) (b : BitVec 5) (z : BitVec 2) (s : State) :
    exec (.atomFmax st d a b z) s = execAtomFmax st d a b z s := rfl
theorem exec_atomFminu (st : BitVec 3) (d : BitVec 5) (a : BitVec 5) (b : BitVec 5) (z : BitVec 2) (s : State) :
    exec (.atomFminu st d a b z) s = execAtomFminu st d a b z s := rfl
theorem exec_atomFmaxu (st : BitVec 3) (d : BitVec 5) (a : BitVec 5) (b : BitVec 5) (z : BitVec 2) (s : State) :
    exec (.atomFmaxu st d a b z) s = execAtomFmaxu st d a b z s := rfl
theorem exec_atomSwap (st : BitVec 3) (d : BitVec 5) (a : BitVec 5) (b : BitVec 5) (z : BitVec 2) (s : State) :
    exec (.atomSwap st d a b z) s = execAtomSwap st d a b z s := rfl
theorem exec_atomCas (st : BitVec 3) (d : BitVec 5) (a : BitVec 5) (b : BitVec 5) (s : State) :
    exec (.atomCas st d a b) s = execAtomCas st d a b s := rfl
theorem exec_updAdd (st : BitVec 3) (a : BitVec 5) (b : BitVec 5) (t : BitVec 3) (s : State) :
    exec (.updAdd st a b t) s = execUpdAdd st a b t s := rfl
theorem exec_updMin (st : BitVec 3) (a : BitVec 5) (b : BitVec 5) (t : BitVec 3) (s : State) :
    exec (.updMin st a b t) s = execUpdMin st a b t s := rfl
theorem exec_updMax (st : BitVec 3) (a : BitVec 5) (b : BitVec 5) (t : BitVec 3) (s : State) :
    exec (.updMax st a b t) s = execUpdMax st a b t s := rfl
theorem exec_updAmax (st : BitVec 3) (a : BitVec 5) (b : BitVec 5) (t : BitVec 3) (s : State) :
    exec (.updAmax st a b t) s = execUpdAmax st a b t s := rfl
theorem exec_updAnd (st : BitVec 3) (a : BitVec 5) (b : BitVec 5) (t : BitVec 3) (s : State) :
    exec (.updAnd st a b t) s = execUpdAnd st a b t s := rfl
theorem exec_updOr (st : BitVec 3) (a : BitVec 5) (b : BitVec 5) (t : BitVec 3) (s : State) :
    exec (.updOr st a b t) s = execUpdOr st a b t s := rfl
theorem exec_updXor (st : BitVec 3) (a : BitVec 5) (b : BitVec 5) (t : BitVec 3) (s : State) :
    exec (.updXor st a b t) s = execUpdXor st a b t s := rfl
theorem exec_pbind (st : BitVec 3) (a : BitVec 5) (b : BitVec 5) (s : State) :
    exec (.pbind st a b) s = execPbind st a b s := rfl
theorem exec_pstat (st : BitVec 3) (d : BitVec 5) (a : BitVec 5) (s : State) :
    exec (.pstat st d a) s = execPstat st d a s := rfl
theorem exec_pdrain (st : BitVec 3) (d : BitVec 5) (a : BitVec 5) (s : State) :
    exec (.pdrain st d a) s = execPdrain st d a s := rfl
theorem exec_pord (st : BitVec 3) (a : BitVec 5) (s : State) :
    exec (.pord st a) s = execPord st a s := rfl
theorem exec_bar (st : BitVec 3) (a : BitVec 5) (s : State) :
    exec (.bar st a) s = execBar st a s := rfl
theorem exec_bara (st : BitVec 3) (d : BitVec 5) (a : BitVec 5) (s : State) :
    exec (.bara st d a) s = execBara st d a s := rfl
theorem exec_barw (st : BitVec 3) (a : BitVec 5) (b : BitVec 5) (s : State) :
    exec (.barw st a b) s = execBarw st a b s := rfl
theorem exec_elect (st : BitVec 3) (d : BitVec 5) (a : BitVec 5) (s : State) :
    exec (.elect st d a) s = execElect st d a s := rfl
theorem exec_gidx (st : BitVec 3) (d : BitVec 5) (a : BitVec 5) (s : State) :
    exec (.gidx st d a) s = execGidx st d a s := rfl
theorem exec_gsize (st : BitVec 3) (d : BitVec 5) (a : BitVec 5) (s : State) :
    exec (.gsize st d a) s = execGsize st d a s := rfl
theorem exec_vadd (st : BitVec 3) (d : BitVec 5) (a : BitVec 5) (b : BitVec 5) (e : BitVec 2) (s : State) :
    exec (.vadd st d a b e) s = execVadd st d a b e s := rfl
theorem exec_vsub (st : BitVec 3) (d : BitVec 5) (a : BitVec 5) (b : BitVec 5) (e : BitVec 2) (s : State) :
    exec (.vsub st d a b e) s = execVsub st d a b e s := rfl
theorem exec_vmul (st : BitVec 3) (d : BitVec 5) (a : BitVec 5) (b : BitVec 5) (e : BitVec 2) (s : State) :
    exec (.vmul st d a b e) s = execVmul st d a b e s := rfl
theorem exec_vmin (st : BitVec 3) (d : BitVec 5) (a : BitVec 5) (b : BitVec 5) (e : BitVec 2) (s : State) :
    exec (.vmin st d a b e) s = execVmin st d a b e s := rfl
theorem exec_vmax (st : BitVec 3) (d : BitVec 5) (a : BitVec 5) (b : BitVec 5) (e : BitVec 2) (s : State) :
    exec (.vmax st d a b e) s = execVmax st d a b e s := rfl
theorem exec_vminu (st : BitVec 3) (d : BitVec 5) (a : BitVec 5) (b : BitVec 5) (e : BitVec 2) (s : State) :
    exec (.vminu st d a b e) s = execVminu st d a b e s := rfl
theorem exec_vmaxu (st : BitVec 3) (d : BitVec 5) (a : BitVec 5) (b : BitVec 5) (e : BitVec 2) (s : State) :
    exec (.vmaxu st d a b e) s = execVmaxu st d a b e s := rfl
theorem exec_vand (st : BitVec 3) (d : BitVec 5) (a : BitVec 5) (b : BitVec 5) (e : BitVec 2) (s : State) :
    exec (.vand st d a b e) s = execVand st d a b e s := rfl
theorem exec_vor (st : BitVec 3) (d : BitVec 5) (a : BitVec 5) (b : BitVec 5) (e : BitVec 2) (s : State) :
    exec (.vor st d a b e) s = execVor st d a b e s := rfl
theorem exec_vxor (st : BitVec 3) (d : BitVec 5) (a : BitVec 5) (b : BitVec 5) (e : BitVec 2) (s : State) :
    exec (.vxor st d a b e) s = execVxor st d a b e s := rfl
theorem exec_vshl (st : BitVec 3) (d : BitVec 5) (a : BitVec 5) (b : BitVec 5) (e : BitVec 2) (s : State) :
    exec (.vshl st d a b e) s = execVshl st d a b e s := rfl
theorem exec_vshr (st : BitVec 3) (d : BitVec 5) (a : BitVec 5) (b : BitVec 5) (e : BitVec 2) (s : State) :
    exec (.vshr st d a b e) s = execVshr st d a b e s := rfl
theorem exec_vsar (st : BitVec 3) (d : BitVec 5) (a : BitVec 5) (b : BitVec 5) (e : BitVec 2) (s : State) :
    exec (.vsar st d a b e) s = execVsar st d a b e s := rfl
theorem exec_vceq (st : BitVec 3) (d : BitVec 5) (a : BitVec 5) (b : BitVec 5) (e : BitVec 2) (s : State) :
    exec (.vceq st d a b e) s = execVceq st d a b e s := rfl
theorem exec_vclt (st : BitVec 3) (d : BitVec 5) (a : BitVec 5) (b : BitVec 5) (e : BitVec 2) (s : State) :
    exec (.vclt st d a b e) s = execVclt st d a b e s := rfl
theorem exec_vcltu (st : BitVec 3) (d : BitVec 5) (a : BitVec 5) (b : BitVec 5) (e : BitVec 2) (s : State) :
    exec (.vcltu st d a b e) s = execVcltu st d a b e s := rfl
theorem exec_vfadd (st : BitVec 3) (d : BitVec 5) (a : BitVec 5) (b : BitVec 5) (t : BitVec 2) (s : State) :
    exec (.vfadd st d a b t) s = execVfadd st d a b t s := rfl
theorem exec_vfsub (st : BitVec 3) (d : BitVec 5) (a : BitVec 5) (b : BitVec 5) (t : BitVec 2) (s : State) :
    exec (.vfsub st d a b t) s = execVfsub st d a b t s := rfl
theorem exec_vfmul (st : BitVec 3) (d : BitVec 5) (a : BitVec 5) (b : BitVec 5) (t : BitVec 2) (s : State) :
    exec (.vfmul st d a b t) s = execVfmul st d a b t s := rfl
theorem exec_vfma (st : BitVec 3) (d : BitVec 5) (a : BitVec 5) (b : BitVec 5) (t : BitVec 2) (s : State) :
    exec (.vfma st d a b t) s = execVfma st d a b t s := rfl
theorem exec_vfmin (st : BitVec 3) (d : BitVec 5) (a : BitVec 5) (b : BitVec 5) (t : BitVec 2) (s : State) :
    exec (.vfmin st d a b t) s = execVfmin st d a b t s := rfl
theorem exec_vfmax (st : BitVec 3) (d : BitVec 5) (a : BitVec 5) (b : BitVec 5) (t : BitVec 2) (s : State) :
    exec (.vfmax st d a b t) s = execVfmax st d a b t s := rfl
theorem exec_vfabs (st : BitVec 3) (d : BitVec 5) (a : BitVec 5) (t : BitVec 2) (s : State) :
    exec (.vfabs st d a t) s = execVfabs st d a t s := rfl
theorem exec_vfneg (st : BitVec 3) (d : BitVec 5) (a : BitVec 5) (t : BitVec 2) (s : State) :
    exec (.vfneg st d a t) s = execVfneg st d a t s := rfl
theorem exec_vfceq (st : BitVec 3) (d : BitVec 5) (a : BitVec 5) (b : BitVec 5) (t : BitVec 2) (s : State) :
    exec (.vfceq st d a b t) s = execVfceq st d a b t s := rfl
theorem exec_vfclt (st : BitVec 3) (d : BitVec 5) (a : BitVec 5) (b : BitVec 5) (t : BitVec 2) (s : State) :
    exec (.vfclt st d a b t) s = execVfclt st d a b t s := rfl
theorem exec_vfcle (st : BitVec 3) (d : BitVec 5) (a : BitVec 5) (b : BitVec 5) (t : BitVec 2) (s : State) :
    exec (.vfcle st d a b t) s = execVfcle st d a b t s := rfl
theorem exec_vfrnd (st : BitVec 3) (d : BitVec 5) (a : BitVec 5) (t : BitVec 2) (s : State) :
    exec (.vfrnd st d a t) s = execVfrnd st d a t s := rfl
theorem exec_vfscl (st : BitVec 3) (d : BitVec 5) (a : BitVec 5) (b : BitVec 5) (t : BitVec 2) (s : State) :
    exec (.vfscl st d a b t) s = execVfscl st d a b t s := rfl
theorem exec_vfcls (st : BitVec 3) (d : BitVec 5) (a : BitVec 5) (t : BitVec 2) (s : State) :
    exec (.vfcls st d a t) s = execVfcls st d a t s := rfl
theorem exec_vsplat (st : BitVec 3) (d : BitVec 5) (a : BitVec 5) (b : BitVec 5) (e : BitVec 2) (s : State) :
    exec (.vsplat st d a b e) s = execVsplat st d a b e s := rfl
theorem exec_vext (st : BitVec 3) (d : BitVec 5) (a : BitVec 5) (b : BitVec 5) (e : BitVec 2) (s : State) :
    exec (.vext st d a b e) s = execVext st d a b e s := rfl
theorem exec_vins (st : BitVec 3) (d : BitVec 5) (a : BitVec 5) (b : BitVec 5) (e : BitVec 2) (s : State) :
    exec (.vins st d a b e) s = execVins st d a b e s := rfl
theorem exec_vshuf (st : BitVec 3) (d : BitVec 5) (a : BitVec 5) (b : BitVec 5) (e : BitVec 2) (s : State) :
    exec (.vshuf st d a b e) s = execVshuf st d a b e s := rfl
theorem exec_vrev (st : BitVec 3) (d : BitVec 5) (a : BitVec 5) (e : BitVec 2) (s : State) :
    exec (.vrev st d a e) s = execVrev st d a e s := rfl
theorem exec_vzip (st : BitVec 3) (d : BitVec 5) (a : BitVec 5) (b : BitVec 5) (e : BitVec 2) (s : State) :
    exec (.vzip st d a b e) s = execVzip st d a b e s := rfl
theorem exec_vunz (st : BitVec 3) (d : BitVec 5) (a : BitVec 5) (b : BitVec 5) (e : BitVec 2) (s : State) :
    exec (.vunz st d a b e) s = execVunz st d a b e s := rfl
theorem exec_vsumh (st : BitVec 3) (d : BitVec 5) (a : BitVec 5) (e : BitVec 2) (s : State) :
    exec (.vsumh st d a e) s = execVsumh st d a e s := rfl
theorem exec_vmaxh (st : BitVec 3) (d : BitVec 5) (a : BitVec 5) (e : BitVec 2) (s : State) :
    exec (.vmaxh st d a e) s = execVmaxh st d a e s := rfl
theorem exec_vamaxh (st : BitVec 3) (d : BitVec 5) (a : BitVec 5) (e : BitVec 2) (s : State) :
    exec (.vamaxh st d a e) s = execVamaxh st d a e s := rfl
theorem exec_vsel (st : BitVec 3) (d : BitVec 5) (a : BitVec 5) (b : BitVec 5) (e : BitVec 2) (s : State) :
    exec (.vsel st d a b e) s = execVsel st d a b e s := rfl
theorem exec_vabs (st : BitVec 3) (d : BitVec 5) (a : BitVec 5) (e : BitVec 2) (s : State) :
    exec (.vabs st d a e) s = execVabs st d a e s := rfl
theorem exec_vdot4 (st : BitVec 3) (d : BitVec 5) (a : BitVec 5) (b : BitVec 5) (s : State) :
    exec (.vdot4 st d a b) s = execVdot4 st d a b s := rfl
theorem exec_vmov (st : BitVec 3) (d : BitVec 5) (a : BitVec 5) (e : BitVec 2) (s : State) :
    exec (.vmov st d a e) s = execVmov st d a e s := rfl
theorem exec_vcvt (st : BitVec 3) (d : BitVec 5) (a : BitVec 5) (x : BitVec 5) (y : BitVec 5) (t : BitVec 1) (s : State) :
    exec (.vcvt st d a x y t) s = execVcvt st d a x y t s := rfl
theorem exec_vcvts (st : BitVec 3) (d : BitVec 5) (a : BitVec 5) (x : BitVec 5) (y : BitVec 5) (t : BitVec 1) (s : State) :
    exec (.vcvts st d a x y t) s = execVcvts st d a x y t s := rfl
theorem exec_frcp (st : BitVec 3) (d : BitVec 5) (a : BitVec 5) (t : BitVec 1) (s : State) :
    exec (.frcp st d a t) s = execFrcp st d a t s := rfl
theorem exec_frsq (st : BitVec 3) (d : BitVec 5) (a : BitVec 5) (t : BitVec 1) (s : State) :
    exec (.frsq st d a t) s = execFrsq st d a t s := rfl
theorem exec_fsqrt (st : BitVec 3) (d : BitVec 5) (a : BitVec 5) (t : BitVec 1) (s : State) :
    exec (.fsqrt st d a t) s = execFsqrt st d a t s := rfl
theorem exec_fexp2 (st : BitVec 3) (d : BitVec 5) (a : BitVec 5) (t : BitVec 1) (s : State) :
    exec (.fexp2 st d a t) s = execFexp2 st d a t s := rfl
theorem exec_flog2 (st : BitVec 3) (d : BitVec 5) (a : BitVec 5) (t : BitVec 1) (s : State) :
    exec (.flog2 st d a t) s = execFlog2 st d a t s := rfl
theorem exec_fsinp (st : BitVec 3) (d : BitVec 5) (a : BitVec 5) (t : BitVec 1) (s : State) :
    exec (.fsinp st d a t) s = execFsinp st d a t s := rfl
theorem exec_fcosp (st : BitVec 3) (d : BitVec 5) (a : BitVec 5) (t : BitVec 1) (s : State) :
    exec (.fcosp st d a t) s = execFcosp st d a t s := rfl
theorem exec_ftanh (st : BitVec 3) (d : BitVec 5) (a : BitVec 5) (t : BitVec 1) (s : State) :
    exec (.ftanh st d a t) s = execFtanh st d a t s := rfl
theorem exec_ferf (st : BitVec 3) (d : BitVec 5) (a : BitVec 5) (t : BitVec 1) (s : State) :
    exec (.ferf st d a t) s = execFerf st d a t s := rfl
theorem exec_fadd (st : BitVec 3) (d : BitVec 5) (a : BitVec 5) (b : BitVec 5) (t : BitVec 1) (s : State) :
    exec (.fadd st d a b t) s = execFadd st d a b t s := rfl
theorem exec_fsub (st : BitVec 3) (d : BitVec 5) (a : BitVec 5) (b : BitVec 5) (t : BitVec 1) (s : State) :
    exec (.fsub st d a b t) s = execFsub st d a b t s := rfl
theorem exec_fmul (st : BitVec 3) (d : BitVec 5) (a : BitVec 5) (b : BitVec 5) (t : BitVec 1) (s : State) :
    exec (.fmul st d a b t) s = execFmul st d a b t s := rfl
theorem exec_fmin (st : BitVec 3) (d : BitVec 5) (a : BitVec 5) (b : BitVec 5) (t : BitVec 1) (s : State) :
    exec (.fmin st d a b t) s = execFmin st d a b t s := rfl
theorem exec_fmax (st : BitVec 3) (d : BitVec 5) (a : BitVec 5) (b : BitVec 5) (t : BitVec 1) (s : State) :
    exec (.fmax st d a b t) s = execFmax st d a b t s := rfl
theorem exec_fabs (st : BitVec 3) (d : BitVec 5) (a : BitVec 5) (t : BitVec 1) (s : State) :
    exec (.fabs st d a t) s = execFabs st d a t s := rfl
theorem exec_fceq (st : BitVec 3) (d : BitVec 5) (a : BitVec 5) (b : BitVec 5) (t : BitVec 1) (s : State) :
    exec (.fceq st d a b t) s = execFceq st d a b t s := rfl
theorem exec_fclt (st : BitVec 3) (d : BitVec 5) (a : BitVec 5) (b : BitVec 5) (t : BitVec 1) (s : State) :
    exec (.fclt st d a b t) s = execFclt st d a b t s := rfl
theorem exec_fcle (st : BitVec 3) (d : BitVec 5) (a : BitVec 5) (b : BitVec 5) (t : BitVec 1) (s : State) :
    exec (.fcle st d a b t) s = execFcle st d a b t s := rfl
theorem exec_fcvti (st : BitVec 3) (d : BitVec 5) (a : BitVec 5) (t : BitVec 1) (s : State) :
    exec (.fcvti st d a t) s = execFcvti st d a t s := rfl
theorem exec_fcvtf (st : BitVec 3) (d : BitVec 5) (a : BitVec 5) (t : BitVec 1) (s : State) :
    exec (.fcvtf st d a t) s = execFcvtf st d a t s := rfl
theorem exec_fcvtw (st : BitVec 3) (d : BitVec 5) (a : BitVec 5) (t : BitVec 1) (s : State) :
    exec (.fcvtw st d a t) s = execFcvtw st d a t s := rfl
theorem exec_zdraw (st : BitVec 3) (d : BitVec 5) (a : BitVec 5) (b : BitVec 5) (s : State) :
    exec (.zdraw st d a b) s = execZdraw st d a b s := rfl
theorem exec_zltq (st : BitVec 3) (d : BitVec 5) (a : BitVec 5) (b : BitVec 5) (s : State) :
    exec (.zltq st d a b) s = execZltq st d a b s := rfl
theorem exec_zltf (st : BitVec 3) (d : BitVec 5) (a : BitVec 5) (b : BitVec 5) (s : State) :
    exec (.zltf st d a b) s = execZltf st d a b s := rfl
theorem exec_zltz (st : BitVec 3) (d : BitVec 5) (a : BitVec 5) (b : BitVec 5) (s : State) :
    exec (.zltz st d a b) s = execZltz st d a b s := rfl
theorem exec_zfloor (st : BitVec 3) (d : BitVec 5) (a : BitVec 5) (b : BitVec 5) (s : State) :
    exec (.zfloor st d a b) s = execZfloor st d a b s := rfl
theorem exec_zext (st : BitVec 3) (a : BitVec 5) (b : BitVec 5) (s : State) :
    exec (.zext st a b) s = execZext st a b s := rfl
theorem exec_zlen (st : BitVec 3) (d : BitVec 5) (a : BitVec 5) (s : State) :
    exec (.zlen st d a) s = execZlen st d a s := rfl
theorem exec_zbits (st : BitVec 3) (d : BitVec 5) (a : BitVec 5) (b : BitVec 5) (s : State) :
    exec (.zbits st d a b) s = execZbits st d a b s := rfl
theorem exec_zmov (st : BitVec 3) (d : BitVec 5) (a : BitVec 5) (s : State) :
    exec (.zmov st d a) s = execZmov st d a s := rfl
theorem exec_zld (st : BitVec 3) (d : BitVec 5) (a : BitVec 5) (s : State) :
    exec (.zld st d a) s = execZld st d a s := rfl
theorem exec_zst (st : BitVec 3) (a : BitVec 5) (b : BitVec 5) (s : State) :
    exec (.zst st a b) s = execZst st a b s := rfl
theorem exec_sbind (st : BitVec 3) (a : BitVec 5) (b : BitVec 5) (s : State) :
    exec (.sbind st a b) s = execSbind st a b s := rfl
theorem exec_sfree (st : BitVec 3) (a : BitVec 5) (s : State) :
    exec (.sfree st a) s = execSfree st a s := rfl
theorem exec_rndw (st : BitVec 3) (d : BitVec 5) (a : BitVec 5) (b : BitVec 5) (s : State) :
    exec (.rndw st d a b) s = execRndw st d a b s := rfl
theorem exec_rndv (st : BitVec 3) (d : BitVec 5) (a : BitVec 5) (b : BitVec 5) (s : State) :
    exec (.rndv st d a b) s = execRndv st d a b s := rfl
theorem exec_sgen (st : BitVec 3) (d : BitVec 5) (a : BitVec 5) (s : State) :
    exec (.sgen st d a) s = execSgen st d a s := rfl
theorem exec_glaunch (st : BitVec 3) (d : BitVec 5) (a : BitVec 5) (b : BitVec 5) (s : State) :
    exec (.glaunch st d a b) s = execGlaunch st d a b s := rfl
theorem exec_gquery (st : BitVec 3) (d : BitVec 5) (a : BitVec 5) (s : State) :
    exec (.gquery st d a) s = execGquery st d a s := rfl
theorem exec_cpy (a : BitVec 5) (b : BitVec 5) (w : BitVec 8) (l : BitVec 3) (st : BitVec 1) (s : State) :
    exec (.cpy a b w l st) s = execCpy a b w l st s := rfl
theorem exec_csetg (a : BitVec 5) (b : BitVec 5) (s : State) :
    exec (.csetg a b) s = execCsetg a b s := rfl
theorem exec_cgetg (a : BitVec 5) (s : State) :
    exec (.cgetg a) s = execCgetg a s := rfl
theorem exec_mma (a : BitVec 5) (b : BitVec 5) (w : BitVec 8) (l : BitVec 3) (st : BitVec 1) (s : State) :
    exec (.mma a b w l st) s = execMma a b w l st s := rfl
theorem exec_msetg (a : BitVec 5) (b : BitVec 5) (s : State) :
    exec (.msetg a b) s = execMsetg a b s := rfl
theorem exec_mgetg (a : BitVec 5) (s : State) :
    exec (.mgetg a) s = execMgetg a s := rfl
theorem exec_mldc (a : BitVec 5) (b : BitVec 5) (w : BitVec 8) (l : BitVec 3) (st : BitVec 1) (s : State) :
    exec (.mldc a b w l st) s = execMldc a b w l st s := rfl
theorem exec_mstc (a : BitVec 5) (b : BitVec 5) (w : BitVec 8) (l : BitVec 3) (st : BitVec 1) (s : State) :
    exec (.mstc a b w l st) s = execMstc a b w l st s := rfl
theorem exec_mzero (a : BitVec 5) (w : BitVec 8) (l : BitVec 3) (st : BitVec 1) (s : State) :
    exec (.mzero a w l st) s = execMzero a w l st s := rfl
theorem exec_mcommit (s : State) :
    exec .mcommit s = execMcommit s := rfl
theorem exec_mwait (a : BitVec 5) (s : State) :
    exec (.mwait a) s = execMwait a s := rfl
theorem exec_coll (a : BitVec 5) (b : BitVec 5) (w : BitVec 8) (l : BitVec 3) (st : BitVec 1) (s : State) :
    exec (.coll a b w l st) s = execColl a b w l st s := rfl
theorem exec_cquery (a : BitVec 5) (s : State) :
    exec (.cquery a) s = execCquery a s := rfl
theorem exec_cabort (a : BitVec 5) (s : State) :
    exec (.cabort a) s = execCabort a s := rfl
theorem exec_rkovl (a : BitVec 5) (b : BitVec 5) (w : BitVec 8) (l : BitVec 3) (st : BitVec 1) (s : State) :
    exec (.rkovl a b w l st) s = execRkovl a b w l st s := rfl
theorem exec_rkrun (a : BitVec 5) (b : BitVec 5) (w : BitVec 8) (l : BitVec 3) (st : BitVec 1) (s : State) :
    exec (.rkrun a b w l st) s = execRkrun a b w l st s := rfl
theorem exec_rksig (a : BitVec 5) (b : BitVec 5) (w : BitVec 8) (s : State) :
    exec (.rksig a b w) s = execRksig a b w s := rfl
theorem exec_rkstat (a : BitVec 5) (s : State) :
    exec (.rkstat a) s = execRkstat a s := rfl
theorem exec_rkstop (a : BitVec 5) (w : BitVec 8) (s : State) :
    exec (.rkstop a w) s = execRkstop a w s := rfl
theorem exec_dwait (w : BitVec 8) (s : State) :
    exec (.dwait w) s = execDwait w s := rfl
theorem exec_dstat (s : State) :
    exec .dstat s = execDstat s := rfl
theorem exec_sli (x : BitVec 4) (y : BitVec 4) (i : BitVec 14) (s : State) :
    exec (.sli x y i) s = execSli x y i s := rfl
theorem exec_slih (x : BitVec 4) (y : BitVec 4) (i : BitVec 14) (s : State) :
    exec (.slih x y i) s = execSlih x y i s := rfl
theorem exec_sadd (x : BitVec 4) (y : BitVec 4) (z : BitVec 4) (s : State) :
    exec (.sadd x y z) s = execSadd x y z s := rfl
theorem exec_saddi (x : BitVec 4) (y : BitVec 4) (i : BitVec 14) (s : State) :
    exec (.saddi x y i) s = execSaddi x y i s := rfl
theorem exec_ssub (x : BitVec 4) (y : BitVec 4) (z : BitVec 4) (s : State) :
    exec (.ssub x y z) s = execSsub x y z s := rfl
theorem exec_sand (x : BitVec 4) (y : BitVec 4) (z : BitVec 4) (s : State) :
    exec (.sand x y z) s = execSand x y z s := rfl
theorem exec_sor (x : BitVec 4) (y : BitVec 4) (z : BitVec 4) (s : State) :
    exec (.sor x y z) s = execSor x y z s := rfl
theorem exec_sxor (x : BitVec 4) (y : BitVec 4) (z : BitVec 4) (s : State) :
    exec (.sxor x y z) s = execSxor x y z s := rfl
theorem exec_sshl (x : BitVec 4) (y : BitVec 4) (z : BitVec 4) (s : State) :
    exec (.sshl x y z) s = execSshl x y z s := rfl
theorem exec_sshr (x : BitVec 4) (y : BitVec 4) (z : BitVec 4) (s : State) :
    exec (.sshr x y z) s = execSshr x y z s := rfl
theorem exec_smul (x : BitVec 4) (y : BitVec 4) (z : BitVec 4) (s : State) :
    exec (.smul x y z) s = execSmul x y z s := rfl
theorem exec_sclt (x : BitVec 4) (y : BitVec 4) (z : BitVec 4) (s : State) :
    exec (.sclt x y z) s = execSclt x y z s := rfl
theorem exec_sbz (x : BitVec 4) (i : BitVec 14) (s : State) :
    exec (.sbz x i) s = execSbz x i s := rfl
theorem exec_sbnz (x : BitVec 4) (i : BitVec 14) (s : State) :
    exec (.sbnz x i) s = execSbnz x i s := rfl
theorem exec_sj (i : BitVec 14) (s : State) :
    exec (.sj i) s = execSj i s := rfl
theorem exec_sloop (x : BitVec 4) (i : BitVec 14) (s : State) :
    exec (.sloop x i) s = execSloop x i s := rfl
theorem exec_cset (x : BitVec 4) (y : BitVec 4) (c : BitVec 5) (s : State) :
    exec (.cset x y c) s = execCset x y c s := rfl
theorem exec_cstride (x : BitVec 4) (i : BitVec 14) (s : State) :
    exec (.cstride x i) s = execCstride x i s := rfl
theorem exec_cnext (x : BitVec 4) (s : State) :
    exec (.cnext x) s = execCnext x s := rfl
theorem exec_vld (x : BitVec 4) (y : BitVec 4) (s : State) :
    exec (.vld x y) s = execVld x y s := rfl
theorem exec_vst (x : BitVec 4) (y : BitVec 4) (s : State) :
    exec (.vst x y) s = execVst x y s := rfl
theorem exec_mwVadd (x : BitVec 4) (y : BitVec 4) (z : BitVec 4) (r : BitVec 3) (t : BitVec 1) (s : State) :
    exec (.mwVadd x y z r t) s = execMwVadd x y z r t s := rfl
theorem exec_mwVsub (x : BitVec 4) (y : BitVec 4) (z : BitVec 4) (r : BitVec 3) (t : BitVec 1) (s : State) :
    exec (.mwVsub x y z r t) s = execMwVsub x y z r t s := rfl
theorem exec_mwVmul (x : BitVec 4) (y : BitVec 4) (z : BitVec 4) (r : BitVec 3) (t : BitVec 1) (s : State) :
    exec (.mwVmul x y z r t) s = execMwVmul x y z r t s := rfl
theorem exec_mwVfma (x : BitVec 4) (y : BitVec 4) (z : BitVec 4) (r : BitVec 3) (s : State) :
    exec (.mwVfma x y z r) s = execMwVfma x y z r s := rfl
theorem exec_vscl (x : BitVec 4) (y : BitVec 4) (z : BitVec 4) (r : BitVec 3) (s : State) :
    exec (.vscl x y z r) s = execVscl x y z r s := rfl
theorem exec_mwVmax (x : BitVec 4) (y : BitVec 4) (z : BitVec 4) (r : BitVec 3) (t : BitVec 1) (s : State) :
    exec (.mwVmax x y z r t) s = execMwVmax x y z r t s := rfl
theorem exec_mwVmin (x : BitVec 4) (y : BitVec 4) (z : BitVec 4) (r : BitVec 3) (t : BitVec 1) (s : State) :
    exec (.mwVmin x y z r t) s = execMwVmin x y z r t s := rfl
theorem exec_mwVcvt (x : BitVec 4) (y : BitVec 4) (d : BitVec 3) (f : BitVec 3) (p : BitVec 2) (u : BitVec 1) (r : BitVec 3) (s : State) :
    exec (.mwVcvt x y d f p u r) s = execMwVcvt x y d f p u r s := rfl
theorem exec_vspl (x : BitVec 4) (y : BitVec 4) (s : State) :
    exec (.vspl x y) s = execVspl x y s := rfl
theorem exec_kclr (x : BitVec 4) (s : State) :
    exec (.kclr x) s = execKclr x s := rfl
theorem exec_kadd (x : BitVec 4) (y : BitVec 4) (t : BitVec 1) (s : State) :
    exec (.kadd x y t) s = execKadd x y t s := rfl
theorem exec_krnd (x : BitVec 4) (y : BitVec 4) (u : BitVec 1) (r : BitVec 3) (t : BitVec 1) (s : State) :
    exec (.krnd x y u r t) s = execKrnd x y u r t s := rfl
theorem exec_kanc (x : BitVec 4) (y : BitVec 4) (s : State) :
    exec (.kanc x y) s = execKanc x y s := rfl
theorem exec_cbegin (x : BitVec 4) (y : BitVec 4) (u : BitVec 1) (g : BitVec 8) (s : State) :
    exec (.cbegin x y u g) s = execCbegin x y u g s := rfl
theorem exec_cend (x : BitVec 4) (s : State) :
    exec (.cend x) s = execCend x s := rfl
theorem exec_cshift (x : BitVec 4) (d : BitVec 2) (c : BitVec 2) (z : BitVec 4) (f : BitVec 3) (g : BitVec 8) (s : State) :
    exec (.cshift x d c z f g) s = execCshift x d c z f g s := rfl
theorem exec_cxpose (x : BitVec 4) (d : BitVec 2) (c : BitVec 2) (z : BitVec 4) (f : BitVec 3) (g : BitVec 8) (s : State) :
    exec (.cxpose x d c z f g) s = execCxpose x d c z f g s := rfl
theorem exec_ca2a (x : BitVec 4) (d : BitVec 2) (c : BitVec 2) (z : BitVec 4) (f : BitVec 3) (g : BitVec 8) (s : State) :
    exec (.ca2a x d c z f g) s = execCa2a x d c z f g s := rfl
theorem exec_cred (x : BitVec 4) (d : BitVec 2) (c : BitVec 2) (z : BitVec 4) (o : BitVec 3) (f : BitVec 3) (g : BitVec 8) (s : State) :
    exec (.cred x d c z o f g) s = execCred x d c z o f g s := rfl
theorem exec_crsc (x : BitVec 4) (d : BitVec 2) (c : BitVec 2) (z : BitVec 4) (o : BitVec 3) (f : BitVec 3) (g : BitVec 8) (s : State) :
    exec (.crsc x d c z o f g) s = execCrsc x d c z o f g s := rfl
theorem exec_cgath (x : BitVec 4) (d : BitVec 2) (c : BitVec 2) (z : BitVec 4) (f : BitVec 3) (g : BitVec 8) (s : State) :
    exec (.cgath x d c z f g) s = execCgath x d c z f g s := rfl
theorem exec_cbcast (x : BitVec 4) (d : BitVec 2) (c : BitVec 2) (z : BitVec 4) (f : BitVec 3) (g : BitVec 8) (s : State) :
    exec (.cbcast x d c z f g) s = execCbcast x d c z f g s := rfl
theorem exec_cbar (x : BitVec 4) (g : BitVec 8) (s : State) :
    exec (.cbar x g) s = execCbar x g s := rfl
theorem exec_msgo (y : BitVec 4) (s : State) :
    exec (.msgo y) s = execMsgo y s := rfl
theorem exec_msgi (x : BitVec 4) (s : State) :
    exec (.msgi x) s = execMsgi x s := rfl
theorem exec_ovsw (i : BitVec 10) (s : State) :
    exec (.ovsw i) s = execOvsw i s := rfl
theorem exec_mwHalt (s : State) :
    exec .mwHalt s = execMwHalt s := rfl
theorem exec_resultDelivery (core : Nat) (ctx : Nat) (s : State) :
    exec (.resultDelivery core ctx) s = execResultDelivery core ctx s := rfl
theorem exec_instructionFetchReturn (core : Nat) (ctx : Nat) (s : State) :
    exec (.instructionFetchReturn core ctx) s = execInstructionFetchReturn core ctx s := rfl
theorem exec_pageWalk (core : Nat) (vd : Nat) (va : BitVec 55) (k : AccessKind) (s : State) :
    exec (.pageWalk core vd va k) s = execPageWalk core vd va k s := rfl
theorem exec_translationAck (core : Nat) (ctx : Nat) (s : State) :
    exec (.translationAck core ctx) s = execTranslationAck core ctx s := rfl
theorem exec_dupRevocation (vd : Nat) (va : BitVec 55) (s : State) :
    exec (.dupRevocation vd va) s = execDupRevocation vd va s := rfl
theorem exec_faultRingEntry (vd : Nat) (s : State) :
    exec (.faultRingEntry vd) s = execFaultRingEntry vd s := rfl
theorem exec_pagerAnswer (vd : Nat) (n : Nat) (s : State) :
    exec (.pagerAnswer vd n) s = execPagerAnswer vd n s := rfl
theorem exec_pagerReply (core : Nat) (ctx : Nat) (v : BitVec 64) (s : State) :
    exec (.pagerReply core ctx v) s = execPagerReply core ctx v s := rfl
theorem exec_upcallDelivery (core : Nat) (s : State) :
    exec (.upcallDelivery core) s = execUpcallDelivery core s := rfl
theorem exec_pagerNotice (core : Nat) (v : BitVec 64) (s : State) :
    exec (.pagerNotice core v) s = execPagerNotice core v s := rfl
theorem exec_tinvComplete (core : Nat) (ctx : Nat) (s : State) :
    exec (.tinvComplete core ctx) s = execTinvComplete core ctx s := rfl
theorem exec_portWordArrival (n : Nat) (s : State) :
    exec (.portWordArrival n) s = execPortWordArrival n s := rfl
theorem exec_waitaReread (core : Nat) (ctx : Nat) (s : State) :
    exec (.waitaReread core ctx) s = execWaitaReread core ctx s := rfl
theorem exec_sfuRequestComplete (core : Nat) (s : State) :
    exec (.sfuRequestComplete core) s = execSfuRequestComplete core s := rfl
theorem exec_engineCommandStart (core : Nat) (s : State) :
    exec (.engineCommandStart core) s = execEngineCommandStart core s := rfl
theorem exec_cpyCompletion (core : Nat) (s : State) :
    exec (.cpyCompletion core) s = execCpyCompletion core s := rfl
theorem exec_muCommandStart (mg : Nat) (s : State) :
    exec (.muCommandStart mg) s = execMuCommandStart mg s := rfl
theorem exec_mxCommandComplete (mg : Nat) (s : State) :
    exec (.mxCommandComplete mg) s = execMxCommandComplete mg s := rfl
theorem exec_commandRingDispatch (vd : Nat) (n : Nat) (s : State) :
    exec (.commandRingDispatch vd n) s = execCommandRingDispatch vd n s := rfl
theorem exec_courseOpen (id : Nat) (s : State) :
    exec (.courseOpen id) s = execCourseOpen id s := rfl
theorem exec_memberReady (id : Nat) (member : Nat) (s : State) :
    exec (.memberReady id member) s = execMemberReady id member s := rfl
theorem exec_keystone (id : Nat) (s : State) :
    exec (.keystone id) s = execKeystone id s := rfl
theorem exec_courseCancel (id : Nat) (s : State) :
    exec (.courseCancel id) s = execCourseCancel id s := rfl
theorem exec_keystoneInvalidationDone (id : Nat) (s : State) :
    exec (.keystoneInvalidationDone id) s = execKeystoneInvalidationDone id s := rfl
theorem exec_memberLoss (rank : Nat) (s : State) :
    exec (.memberLoss rank) s = execMemberLoss rank s := rfl
theorem exec_courseTimeout (id : Nat) (s : State) :
    exec (.courseTimeout id) s = execCourseTimeout id s := rfl
theorem exec_collDeadline (vd : Nat) (n : Nat) (s : State) :
    exec (.collDeadline vd n) s = execCollDeadline vd n s := rfl
theorem exec_collCompletion (vd : Nat) (n : Nat) (s : State) :
    exec (.collCompletion vd n) s = execCollCompletion vd n s := rfl
theorem exec_rkovlCompletion (vd : Nat) (n : Nat) (s : State) :
    exec (.rkovlCompletion vd n) s = execRkovlCompletion vd n s := rfl
theorem exec_rkrunCompletion (vd : Nat) (n : Nat) (s : State) :
    exec (.rkrunCompletion vd n) s = execRkrunCompletion vd n s := rfl
theorem exec_rksigMailboxDelivery (rank : Nat) (s : State) :
    exec (.rksigMailboxDelivery rank) s = execRksigMailboxDelivery rank s := rfl
theorem exec_cbarTimeout (rank : Nat) (s : State) :
    exec (.cbarTimeout rank) s = execCbarTimeout rank s := rfl
theorem exec_outsideAccessArrival (rank : Nat) (row : Nat) (col : Nat) (wr : Bool) (len : Nat) (data : BitVec 512) (s : State) :
    exec (.outsideAccessArrival rank row col wr len data) s = execOutsideAccessArrival rank row col wr len data s := rfl
theorem exec_rankCheckTimer (rank : Nat) (s : State) :
    exec (.rankCheckTimer rank) s = execRankCheckTimer rank s := rfl
theorem exec_bankReturn (rank : Nat) (s : State) :
    exec (.bankReturn rank) s = execBankReturn rank s := rfl
theorem exec_bankRefresh (rank : Nat) (s : State) :
    exec (.bankRefresh rank) s = execBankRefresh rank s := rfl
theorem exec_channelPowerDown (ch : Nat) (s : State) :
    exec (.channelPowerDown ch) s = execChannelPowerDown ch s := rfl
theorem exec_channelWake (ch : Nat) (s : State) :
    exec (.channelWake ch) s = execChannelWake ch s := rfl
theorem exec_launchDoorbell (vd : Nat) (q : Nat) (va : BitVec 64) (s : State) :
    exec (.launchDoorbell vd q va) s = execLaunchDoorbell vd q va s := rfl
theorem exec_hostApertureAccess (vd : Nat) (wr : Bool) (va : BitVec 55) (len : Nat) (data : BitVec 64) (s : State) :
    exec (.hostApertureAccess vd wr va len data) s = execHostApertureAccess vd wr va len data s := rfl
theorem exec_launchStart (vd : Nat) (q : Nat) (s : State) :
    exec (.launchStart vd q) s = execLaunchStart vd q s := rfl
theorem exec_terminationSweep (vd : Nat) (q : Nat) (node : Nat) (s : State) :
    exec (.terminationSweep vd q node) s = execTerminationSweep vd q node s := rfl
theorem exec_rankNodeEnd (vd : Nat) (q : Nat) (node : Nat) (s : State) :
    exec (.rankNodeEnd vd q node) s = execRankNodeEnd vd q node s := rfl
theorem exec_preemption (core : Nat) (s : State) :
    exec (.preemption core) s = execPreemption core s := rfl
theorem exec_coreResumption (vd : Nat) (origin : Nat) (core : Nat) (s : State) :
    exec (.coreResumption vd origin core) s = execCoreResumption vd origin core s := rfl
theorem exec_create (vd : Nat) (arg : BitVec 48) (s : State) :
    exec (.create vd arg) s = execCreate vd arg s := rfl
theorem exec_stop (vd : Nat) (arg : BitVec 48) (s : State) :
    exec (.stop vd arg) s = execStop vd arg s := rfl
theorem exec_equinoxStop (vd : Nat) (s : State) :
    exec (.equinoxStop vd) s = execEquinoxStop vd s := rfl
theorem exec_resume (vd : Nat) (arg : BitVec 48) (s : State) :
    exec (.resume vd arg) s = execResume vd arg s := rfl
theorem exec_reset (vd : Nat) (arg : BitVec 48) (s : State) :
    exec (.reset vd arg) s = execReset vd arg s := rfl
theorem exec_teardown (vd : Nat) (arg : BitVec 48) (s : State) :
    exec (.teardown vd arg) s = execTeardown vd arg s := rfl
theorem exec_keygen (vd : Nat) (arg : BitVec 48) (s : State) :
    exec (.keygen vd arg) s = execKeygen vd arg s := rfl
theorem exec_keykill (vd : Nat) (arg : BitVec 48) (s : State) :
    exec (.keykill vd arg) s = execKeykill vd arg s := rfl
theorem exec_permissionEntryWrite (bd : Nat) (e : Nat) (v : BitVec 128) (s : State) :
    exec (.permissionEntryWrite bd e v) s = execPermissionEntryWrite bd e v s := rfl
theorem exec_windowEntryWrite (vd : Nat) (w : Nat) (v : BitVec 128) (s : State) :
    exec (.windowEntryWrite vd w v) s = execWindowEntryWrite vd w v s := rfl
theorem exec_rankEnableMapWrite (bd : Nat) (w : Nat) (v : BitVec 64) (s : State) :
    exec (.rankEnableMapWrite bd w v) s = execRankEnableMapWrite bd w v s := rfl
theorem exec_registerWrite (off : Nat) (v : BitVec 64) (s : State) :
    exec (.registerWrite off v) s = execRegisterWrite off v s := rfl
theorem exec_attach (s : State) :
    exec .attach s = execAttach s := rfl
theorem exec_detach (s : State) :
    exec .detach s = execDetach s := rfl
theorem exec_debugHalt (s : State) :
    exec .debugHalt s = execDebugHalt s := rfl
theorem exec_debugResume (s : State) :
    exec .debugResume s = execDebugResume s := rfl
theorem exec_debugStep (s : State) :
    exec .debugStep s = execDebugStep s := rfl
theorem exec_debugRead (s : State) :
    exec .debugRead s = execDebugRead s := rfl
theorem exec_debugWrite (s : State) :
    exec .debugWrite s = execDebugWrite s := rfl
theorem exec_vigilCollapse (vd : Nat) (s : State) :
    exec (.vigilCollapse vd) s = execVigilCollapse vd s := rfl
theorem exec_wake (vd : Nat) (s : State) :
    exec (.wake vd) s = execWake vd s := rfl
theorem exec_linkPortWake (port : Nat) (s : State) :
    exec (.linkPortWake port) s = execLinkPortWake port s := rfl
theorem exec_uncorrectableError (e : ErrorReport) (s : State) :
    exec (.uncorrectableError e) s = execUncorrectableError e s := rfl
theorem exec_patrolScrub (rank : Nat) (row : Nat) (found : Bool) (s : State) :
    exec (.patrolScrub rank row found) s = execPatrolScrub rank row found s := rfl
theorem exec_spareSubstitution (u : SpareUnit) (s : State) :
    exec (.spareSubstitution u) s = execSpareSubstitution u s := rfl
theorem exec_bankMigration (rank : Nat) (s : State) :
    exec (.bankMigration rank) s = execBankMigration rank s := rfl
theorem exec_almanacWrite (s : State) :
    exec .almanacWrite s = execAlmanacWrite s := rfl
theorem exec_powerGood (s : State) :
    exec .powerGood s = execPowerGood s := rfl
theorem exec_powerManagerAdjust (mustep : BitVec 8) (rclk : BitVec 8) (tj : BitVec 16) (power : BitVec 16) (s : State) :
    exec (.powerManagerAdjust mustep rclk tj power) s = execPowerManagerAdjust mustep rclk tj power s := rfl
theorem exec_thermalTrip (s : State) :
    exec .thermalTrip s = execThermalTrip s := rfl
theorem exec_getVersion (iface : SpdmPath) (s : State) :
    exec (.getVersion iface) s = execGetVersion iface s := rfl
theorem exec_getCapabilities (iface : SpdmPath) (s : State) :
    exec (.getCapabilities iface) s = execGetCapabilities iface s := rfl
theorem exec_negotiateAlgorithms (iface : SpdmPath) (s : State) :
    exec (.negotiateAlgorithms iface) s = execNegotiateAlgorithms iface s := rfl
theorem exec_getDigests (iface : SpdmPath) (s : State) :
    exec (.getDigests iface) s = execGetDigests iface s := rfl
theorem exec_getCertificate (iface : SpdmPath) (off : BitVec 16) (len : BitVec 16) (s : State) :
    exec (.getCertificate iface off len) s = execGetCertificate iface off len s := rfl
theorem exec_challenge (iface : SpdmPath) (nonce : BitVec 256) (s : State) :
    exec (.challenge iface nonce) s = execChallenge iface nonce s := rfl
theorem exec_getMeasurements (iface : SpdmPath) (index : BitVec 8) (nonce : BitVec 256) (s : State) :
    exec (.getMeasurements iface index nonce) s = execGetMeasurements iface index nonce s := rfl
theorem exec_keyExchange (iface : SpdmPath) (share : BitVec 768) (s : State) :
    exec (.keyExchange iface share) s = execKeyExchange iface share s := rfl
theorem exec_finish (iface : SpdmPath) (mac : BitVec 384) (s : State) :
    exec (.finish iface mac) s = execFinish iface mac s := rfl
theorem exec_endSession (iface : SpdmPath) (s : State) :
    exec (.endSession iface) s = execEndSession iface s := rfl
theorem exec_read (p : Packet) (s : State) :
    exec (.read p) s = execRead p s := rfl
theorem exec_readResp (p : Packet) (s : State) :
    exec (.readResp p) s = execReadResp p s := rfl
theorem exec_write (p : Packet) (s : State) :
    exec (.write p) s = execWrite p s := rfl
theorem exec_atomic (p : Packet) (s : State) :
    exec (.atomic p) s = execAtomic p s := rfl
theorem exec_atomicResp (p : Packet) (s : State) :
    exec (.atomicResp p) s = execAtomicResp p s := rfl
theorem exec_update (p : Packet) (s : State) :
    exec (.update p) s = execUpdate p s := rfl
theorem exec_ack (p : Packet) (s : State) :
    exec (.ack p) s = execAck p s := rfl
theorem exec_nack (p : Packet) (s : State) :
    exec (.nack p) s = execNack p s := rfl
theorem exec_step (p : Packet) (s : State) :
    exec (.step p) s = execStep p s := rfl
theorem exec_stepRed (p : Packet) (s : State) :
    exec (.stepRed p) s = execStepRed p s := rfl
theorem exec_stepRes (p : Packet) (s : State) :
    exec (.stepRes p) s = execStepRes p s := rfl
theorem exec_keepalive (p : Packet) (s : State) :
    exec (.keepalive p) s = execKeepalive p s := rfl
theorem exec_keepaliveSend (s : State) :
    exec .keepaliveSend s = execKeepaliveSend s := rfl
theorem exec_packageLoss (pkg : Nat) (s : State) :
    exec (.packageLoss pkg) s = execPackageLoss pkg s := rfl
theorem exec_homeAcknowledgement (core : Nat) (ctx : Nat) (s : State) :
    exec (.homeAcknowledgement core ctx) s = execHomeAcknowledgement core ctx s := rfl
theorem exec_pbindAcknowledgement (core : Nat) (ctx : Nat) (s : State) :
    exec (.pbindAcknowledgement core ctx) s = execPbindAcknowledgement core ctx s := rfl
theorem exec_deviceDma (wr : Bool) (pa : BitVec 52) (len : Nat) (data : BitVec 64) (s : State) :
    exec (.deviceDma wr pa len data) s = execDeviceDma wr pa len data s := rfl
theorem exec_applicationCoreAccess (op : AppOp) (s : State) :
    exec (.applicationCoreAccess op) s = execApplicationCoreAccess op s := rfl
theorem exec_drainTimeout (vd : Nat) (s : State) :
    exec (.drainTimeout vd) s = execDrainTimeout vd s := rfl
theorem exec_powerLoss (s : State) :
    exec .powerLoss s = execPowerLoss s := rfl
theorem exec_flashUpdateCommand (slot : Nat) (img : FlashImage) (s : State) :
    exec (.flashUpdateCommand slot img) s = execFlashUpdateCommand slot img s := rfl
theorem exec_configurationRequest (fn : Nat) (reg : Nat) (s : State) :
    exec (.configurationRequest fn reg) s = execConfigurationRequest fn reg s := rfl
theorem exec_linkKeyReplacement (domain : BitVec 16) (src : BitVec 10) (dst : BitVec 10) (s : State) :
    exec (.linkKeyReplacement domain src dst) s = execLinkKeyReplacement domain src dst s := rfl

end Sys2Proof.Machine
end

