-- ==== Sys2Proof/Laws/Issue.lean ====
section
/-! SUPPORT. What the shared shape of a Soras meaning does, said once: the monad of actions, `ready`, `prepare`, `issue` and
`compute`. -/

namespace Sys2Proof.Machine

theorem M_bind_ok {α β : Type} {m : M α} {f : α → M β} {s t : State} {a : α} (h : m s = .ok (a, t)) :
    (m >>= f) s = f a t := by
  show StateT.bind m f s = _
  simp only [StateT.bind, h]
  rfl

theorem M_bind_error {α β : Type} {m : M α} {f : α → M β} {s : State} {e : Stop} (h : m s = .error e) :
    (m >>= f) s = .error e := by
  show StateT.bind m f s = _
  simp only [StateT.bind, h]
  rfl

@[simp] theorem upd_apply (f : State → State) (s : State) : upd f s = .ok ((), f s) := rfl
@[simp] theorem stop_apply {α : Type} (e : Stop) (s : State) : (stop e : M α) s = .error e := rfl
@[simp] theorem get_apply (s : State) : (get : M State) s = .ok (s, s) := rfl
@[simp] theorem pure_apply {α : Type} (a : α) (s : State) : (pure a : M α) s = .ok (a, s) := rfl
@[simp] theorem waitIf_false (r : WaitReason) (s : State) : waitIf false r s = .ok ((), s) := rfl
@[simp] theorem waitIf_true (r : WaitReason) (s : State) : waitIf true r s = .error (.wait r) := rfl

theorem ready_of_clear {s : State} {srcs : List Opnd} {dst : Option Opnd} {own : State → List Cand}
    (h : s.Clear srcs dst) (ho : own s = []) : ready srcs dst own s = .ok ((), s) := by
  have hp : srcs.filterMap s.poisoned = [] := by
    simpa [List.filterMap_eq_nil_iff] using h.sound
  simp only [ready, h.free, hp, List.head?_nil, h.sized, h.traps, ho]
  rfl

theorem prepare_of_clear {s : State} {srcs : List Opnd} {dst : Option Opnd} {own : State → List Cand}
    (h : s.Clear srcs dst) (ho : own s = []) : prepare srcs dst own s = .ok ((), s) := by
  simp only [prepare, ready_of_clear h ho, h.spm]

/-- An instruction that its gate lets through and whose action succeeds retires. -/
theorem issue_of_ok {i : Instr} {st : Nat} {m : M Unit} {s t : State} (hg : s.Admits i) (hm : m s = .ok ((), t)) :
    issue i st m s = .next (retire st t) := by
  simp only [issue, show gateOf i s = none from hg, hm]

/-- An action that stops leaves only the trap, the fault or the wait. -/
theorem issue_of_error {i : Instr} {st : Nat} {m : M Unit} {s : State} {e : Stop} (hg : s.Admits i)
    (hm : m s = .error e) : issue i st m s = .next (stopAt s e) := by
  simp only [issue, show gateOf i s = none from hg, hm]

/-- A gated word takes its trap whatever its action is. -/
theorem issue_of_gate {i : Instr} {st : Nat} {m : M Unit} {s : State} {c : Nat} (hg : gateOf i s = some c) :
    issue i st m s = .next (takeTrap c ((wordOf i).zeroExtend 64) s.me.pc s) := by
  simp only [issue, hg]

/-- Every Soras meaning answers a next state. -/
theorem issue_next (i : Instr) (st : Nat) (m : M Unit) (s : State) : ∃ t, issue i st m s = .next t := by
  unfold issue
  cases gateOf i s with
  | some c => exact ⟨_, rfl⟩
  | none =>
    cases m s with
    | ok r => exact ⟨_, rfl⟩
    | error e => exact ⟨_, rfl⟩

/-- `compute` with clear operands, said once for every instruction that computes a result. -/
theorem compute_completes (i : Instr) (stall : Nat) (srcs : List Opnd) (d : Opnd) (lat : Option Nat)
    (f : State → List (List W64) → List W64) (s : State) (hg : s.Admits i) (hc : s.Clear srcs (some d)) :
    compute i stall srcs d lat f s = .next (retire stall (gives srcs d
      (match lat with | some l => after srcs l | none => atOnce) f s)) := by
  refine issue_of_ok hg ?_
  rw [M_bind_ok (ready_of_clear (own := fun _ => []) hc rfl)]
  simp only [upd_apply, hc.spm]
  cases lat <;> rfl

/-- An action that first checks its operands and then changes the state. -/
theorem prepared_completes {i : Instr} {stall : Nat} {srcs : List Opnd} {dst : Option Opnd} {own : State → List Cand}
    {f : State → State} {s : State} (hg : s.Admits i) (hc : s.Clear srcs dst) (ho : own s = []) :
    issue i stall (do prepare srcs dst own; upd f) s = .next (retire stall (f s)) := by
  refine issue_of_ok hg ?_
  rw [M_bind_ok (prepare_of_clear hc ho)]
  rfl

end Sys2Proof.Machine
end

