-- ==== Sys2Proof/Laws/Memory.lean ====
section
/-! SUPPORT. The sparse maps and memories: what is read after a write, and the canonical form every memory operation keeps. -/

namespace Sys2Proof.Machine

/-! ### Maps -/

@[simp] theorem lookup_put_self {α : Type} (k : Nat) (v : α) (l : List (Nat × α)) : lookup k (put k v l) = some v := by
  induction l with
  | nil => simp [put, lookup]
  | cons e r ih =>
    obtain ⟨k', v'⟩ := e
    unfold put
    split
    · simp [lookup]
    · split
      · simp [lookup]
      · simp [lookup, *]

theorem lookup_put_ne {α : Type} {j k : Nat} (h : j ≠ k) (v : α) (l : List (Nat × α)) :
    lookup j (put k v l) = lookup j l := by
  induction l with
  | nil => simp [put, lookup, h]
  | cons e r ih =>
    obtain ⟨k', v'⟩ := e
    unfold put
    split
    · next hk => subst hk; simp [lookup, h]
    · split
      · simp [lookup, h]
      · simp only [lookup, ih]

/-! ### Memories -/

theorem Memory.read_write_same (m : List Host.Cell) (a : Nat) (b : Byte) (lo : Nat) (h : Memory.wfFrom lo m = true) :
    Memory.read (Memory.write m a b) a = b := by
  induction m generalizing lo with
  | nil => unfold Memory.write; split <;> simp_all [Memory.read]
  | cons e r ih =>
    obtain ⟨a', b'⟩ := e
    simp only [Memory.wfFrom, Bool.and_eq_true, decide_eq_true_eq] at h
    have hr : ∀ (q : List Host.Cell) (l : Nat), Memory.wfFrom l q = true → a < l → Memory.read q a = 0 := by
      intro q
      induction q with
      | nil => intros; rfl
      | cons e q ihq =>
        intro l hl hal
        obtain ⟨c, d⟩ := e
        simp only [Memory.wfFrom, Bool.and_eq_true, decide_eq_true_eq] at hl
        have : a ≠ c := by omega
        simp only [Memory.read, this, if_false]
        exact ihq (c + 1) hl.2 (by omega)
    unfold Memory.write
    split
    · split
      · next hb => subst hb; exact hr _ (a + 1) (by simp [Memory.wfFrom]; exact ⟨⟨by omega, by simpa using h.1.2⟩, h.2⟩) (by omega)
      · simp [Memory.read]
    · split
      · next heq =>
        subst heq
        split
        · next hb => subst hb; exact hr r (a + 1) h.2 (by omega)
        · simp [Memory.read]
      · next hne => simp only [Memory.read, hne, if_false]; exact ih (a' + 1) h.2

theorem Memory.read_write_ne (m : List Host.Cell) {a c : Nat} (b : Byte) (h : c ≠ a) :
    Memory.read (Memory.write m a b) c = Memory.read m c := by
  induction m with
  | nil => unfold Memory.write; split <;> simp [Memory.read, h]
  | cons e r ih =>
    obtain ⟨a', b'⟩ := e
    unfold Memory.write
    split
    · split <;> simp [Memory.read, h]
    · split
      · next heq => subst heq; split <;> simp [Memory.read, h]
      · simp only [Memory.read, ih]

theorem Memory.wfFrom_mono {lo lo' : Nat} (h : lo' ≤ lo) (m : List Host.Cell) (hm : Memory.wfFrom lo m = true) :
    Memory.wfFrom lo' m = true := by
  cases m with
  | nil => rfl
  | cons e r =>
    simp only [Memory.wfFrom, Bool.and_eq_true, decide_eq_true_eq] at hm ⊢
    exact ⟨⟨by omega, hm.1.2⟩, hm.2⟩

/-- A write keeps the canonical form. -/
theorem Memory.wfFrom_write (m : List Host.Cell) (lo a : Nat) (b : Byte) (h : Memory.wfFrom lo m = true) (ha : lo ≤ a) :
    Memory.wfFrom lo (Memory.write m a b) = true := by
  induction m generalizing lo with
  | nil => unfold Memory.write; split <;> simp_all [Memory.wfFrom]
  | cons e r ih =>
    obtain ⟨a', b'⟩ := e
    have h' := h
    simp only [Memory.wfFrom, Bool.and_eq_true, decide_eq_true_eq, bne_iff_ne, ne_eq] at h
    unfold Memory.write
    split
    · split
      · exact h'
      · simp only [Memory.wfFrom, Bool.and_eq_true, decide_eq_true_eq, bne_iff_ne, ne_eq]
        exact ⟨⟨ha, ‹_›⟩, ⟨by omega, h.1.2⟩, h.2⟩
    · split
      · next heq =>
        subst heq
        split
        · exact Memory.wfFrom_mono (by omega) r h.2
        · simp only [Memory.wfFrom, Bool.and_eq_true, decide_eq_true_eq, bne_iff_ne, ne_eq]
          exact ⟨⟨ha, ‹_›⟩, h.2⟩
      · simp only [Memory.wfFrom, Bool.and_eq_true, decide_eq_true_eq, bne_iff_ne, ne_eq]
        exact ⟨h.1, ih (a' + 1) h.2 (by omega)⟩

theorem Memory.wf_write {m : List Host.Cell} (a : Nat) (b : Byte) (h : Memory.wf m = true) :
    Memory.wf (Memory.write m a b) = true := Memory.wfFrom_write m 0 a b h (by omega)

theorem Memory.wf_writeN {m : List Host.Cell} (a : Nat) (bs : List Byte) (h : Memory.wf m = true) :
    Memory.wf (Memory.writeN m a bs) = true := by
  induction bs generalizing m a with
  | nil => exact h
  | cons b r ih => exact ih (a + 1) (Memory.wf_write a b h)

theorem Memory.wfFrom_clear (m : List Host.Cell) (lo l h : Nat) (hm : Memory.wfFrom lo m = true) :
    Memory.wfFrom lo (Memory.clear m l h) = true := by
  induction m generalizing lo with
  | nil => rfl
  | cons e r ih =>
    simp only [Memory.wfFrom, Bool.and_eq_true, decide_eq_true_eq, bne_iff_ne, ne_eq] at hm
    have hr := ih (e.1 + 1) hm.2
    unfold Memory.clear at hr ⊢
    rw [List.filter_cons]
    split
    · simp only [Memory.wfFrom, Bool.and_eq_true, decide_eq_true_eq, bne_iff_ne, ne_eq]
      exact ⟨hm.1, hr⟩
    · exact Memory.wfFrom_mono (by omega) _ hr

theorem Memory.wf_clear {m : List Host.Cell} (l h : Nat) (hm : Memory.wf m = true) : Memory.wf (Memory.clear m l h) = true :=
  Memory.wfFrom_clear m 0 l h hm

/-- A write of bytes leaves every address outside them alone. -/
theorem Memory.read_writeN_outside (m : List Host.Cell) (a c : Nat) (bs : List Byte) (h : c < a ∨ a + bs.length ≤ c) :
    Memory.read (Memory.writeN m a bs) c = Memory.read m c := by
  induction bs generalizing m a with
  | nil => rfl
  | cons b r ih =>
    simp only [List.length_cons] at h
    show Memory.read (Memory.writeN (Memory.write m a b) (a + 1) r) c = _
    rw [ih (Memory.write m a b) (a + 1) (by omega), Memory.read_write_ne m b (by omega)]

/-- And the bytes written are read back. -/
theorem Memory.read_writeN_inside (m : List Host.Cell) (a i : Nat) (bs : List Byte) (hm : Memory.wf m = true)
    (h : i < bs.length) : Memory.read (Memory.writeN m a bs) (a + i) = bs[i] := by
  induction bs generalizing m a i with
  | nil => simp at h
  | cons b r ih =>
    show Memory.read (Memory.writeN (Memory.write m a b) (a + 1) r) (a + i) = _
    cases i with
    | zero =>
      rw [Memory.read_writeN_outside _ _ _ _ (by omega)]
      simpa using Memory.read_write_same m a b 0 hm
    | succ j =>
      have := ih (Memory.write m a b) (a + 1) j (Memory.wf_write a b hm) (by simpa using h)
      rw [show a + (j + 1) = a + 1 + j by omega, this]
      simp

end Sys2Proof.Machine
end

