-- ==== Sys2Proof/Laws/State.lean ====
section
/-! SUPPORT. What each update of the state leaves: one lemma for each field of the state and each update, true by unfolding, so
that no later proof unfolds a record update. -/

namespace Sys2Proof.Machine

variable (s : State)

/-! ### `setCore` -/

@[simp] theorem State.setCore_cur (c : Nat) (k : Core) : (s.setCore c k).cur = s.cur := rfl
@[simp] theorem State.setCore_agenda (c : Nat) (k : Core) : (s.setCore c k).agenda = s.agenda := rfl
@[simp] theorem State.setCore_ranks (c : Nat) (k : Core) : (s.setCore c k).ranks = s.ranks := rfl
@[simp] theorem State.setCore_vds (c : Nat) (k : Core) : (s.setCore c k).vds = s.vds := rfl
@[simp] theorem State.setCore_mem (c : Nat) (k : Core) : (s.setCore c k).mem = s.mem := rfl
@[simp] theorem State.setCore_draws (c : Nat) (k : Core) : (s.setCore c k).draws = s.draws := rfl
@[simp] theorem State.setCore_badWords (c : Nat) (k : Core) : (s.setCore c k).badWords = s.badWords := rfl
@[simp] theorem State.setCore_deadRows (c : Nat) (k : Core) : (s.setCore c k).deadRows = s.deadRows := rfl
@[simp] theorem State.setCore_perms (c : Nat) (k : Core) : (s.setCore c k).perms = s.perms := rfl
@[simp] theorem State.setCore_tlb (c : Nat) (k : Core) : (s.setCore c k).tlb = s.tlb := rfl
@[simp] theorem State.setCore_courses (c : Nat) (k : Core) : (s.setCore c k).courses = s.courses := rfl
@[simp] theorem State.setCore_gathers (c : Nat) (k : Core) : (s.setCore c k).gathers = s.gathers := rfl
@[simp] theorem State.setCore_asleep (c : Nat) (k : Core) : (s.setCore c k).asleep = s.asleep := rfl
@[simp] theorem State.setCore_napping (c : Nat) (k : Core) : (s.setCore c k).napping = s.napping := rfl
@[simp] theorem State.setCore_inflight (c : Nat) (k : Core) : (s.setCore c k).inflight = s.inflight := rfl
@[simp] theorem State.setCore_sendq (c : Nat) (k : Core) : (s.setCore c k).sendq = s.sendq := rfl
@[simp] theorem State.setCore_pkg (c : Nat) (k : Core) : (s.setCore c k).pkg = s.pkg := rfl
@[simp] theorem State.setCore_ring (c : Nat) (k : Core) : (s.setCore c k).ring = s.ring := rfl
@[simp] theorem State.setCore_boot (c : Nat) (k : Core) : (s.setCore c k).boot = s.boot := rfl
@[simp] theorem State.setCore_vdCmd (c : Nat) (k : Core) : (s.setCore c k).vdCmd = s.vdCmd := rfl
@[simp] theorem State.setCore_vdStat (c : Nat) (k : Core) : (s.setCore c k).vdStat = s.vdStat := rfl
@[simp] theorem State.setCore_vdBegun (c : Nat) (k : Core) : (s.setCore c k).vdBegun = s.vdBegun := rfl
@[simp] theorem State.setCore_dport (c : Nat) (k : Core) : (s.setCore c k).dport = s.dport := rfl
@[simp] theorem State.setCore_power (c : Nat) (k : Core) : (s.setCore c k).power = s.power := rfl
@[simp] theorem State.setCore_errlog (c : Nat) (k : Core) : (s.setCore c k).errlog = s.errlog := rfl
@[simp] theorem State.setCore_errSeq (c : Nat) (k : Core) : (s.setCore c k).errSeq = s.errSeq := rfl
@[simp] theorem State.setCore_corrected (c : Nat) (k : Core) : (s.setCore c k).corrected = s.corrected := rfl
@[simp] theorem State.setCore_ifile (c : Nat) (k : Core) : (s.setCore c k).ifile = s.ifile := rfl
@[simp] theorem State.setCore_output (c : Nat) (k : Core) : (s.setCore c k).output = s.output := rfl
@[simp] theorem State.setCore_msix (c : Nat) (k : Core) : (s.setCore c k).msix = s.msix := rfl
@[simp] theorem State.setCore_vectors (c : Nat) (k : Core) : (s.setCore c k).vectors = s.vectors := rfl
@[simp] theorem State.setCore_link (c : Nat) (k : Core) : (s.setCore c k).link = s.link := rfl
@[simp] theorem State.setCore_sec (c : Nat) (k : Core) : (s.setCore c k).sec = s.sec := rfl
@[simp] theorem State.setCore_muNext (c : Nat) (k : Core) : (s.setCore c k).muNext = s.muNext := rfl
@[simp] theorem State.setCore_ceNext (c : Nat) (k : Core) : (s.setCore c k).ceNext = s.ceNext := rfl
@[simp] theorem State.setCore_routes (c : Nat) (k : Core) : (s.setCore c k).routes = s.routes := rfl
@[simp] theorem State.setCore_nextId (c : Nat) (k : Core) : (s.setCore c k).nextId = s.nextId := rfl
@[simp] theorem State.setCore_banks (c : Nat) (k : Core) : (s.setCore c k).banks = s.banks := rfl
@[simp] theorem State.setCore_collisions (c : Nat) (k : Core) : (s.setCore c k).collisions = s.collisions := rfl
@[simp] theorem State.setCore_stalled (c : Nat) (k : Core) : (s.setCore c k).stalled = s.stalled := rfl
@[simp] theorem State.setCore_target (c : Nat) (k : Core) : (s.setCore c k).target = s.target := rfl

/-! ### `updCore` -/

@[simp] theorem State.updCore_cur (c : Nat) (f : Core → Core) : (s.updCore c f).cur = s.cur := rfl
@[simp] theorem State.updCore_agenda (c : Nat) (f : Core → Core) : (s.updCore c f).agenda = s.agenda := rfl
@[simp] theorem State.updCore_ranks (c : Nat) (f : Core → Core) : (s.updCore c f).ranks = s.ranks := rfl
@[simp] theorem State.updCore_vds (c : Nat) (f : Core → Core) : (s.updCore c f).vds = s.vds := rfl
@[simp] theorem State.updCore_mem (c : Nat) (f : Core → Core) : (s.updCore c f).mem = s.mem := rfl
@[simp] theorem State.updCore_draws (c : Nat) (f : Core → Core) : (s.updCore c f).draws = s.draws := rfl
@[simp] theorem State.updCore_badWords (c : Nat) (f : Core → Core) : (s.updCore c f).badWords = s.badWords := rfl
@[simp] theorem State.updCore_deadRows (c : Nat) (f : Core → Core) : (s.updCore c f).deadRows = s.deadRows := rfl
@[simp] theorem State.updCore_perms (c : Nat) (f : Core → Core) : (s.updCore c f).perms = s.perms := rfl
@[simp] theorem State.updCore_tlb (c : Nat) (f : Core → Core) : (s.updCore c f).tlb = s.tlb := rfl
@[simp] theorem State.updCore_courses (c : Nat) (f : Core → Core) : (s.updCore c f).courses = s.courses := rfl
@[simp] theorem State.updCore_gathers (c : Nat) (f : Core → Core) : (s.updCore c f).gathers = s.gathers := rfl
@[simp] theorem State.updCore_asleep (c : Nat) (f : Core → Core) : (s.updCore c f).asleep = s.asleep := rfl
@[simp] theorem State.updCore_napping (c : Nat) (f : Core → Core) : (s.updCore c f).napping = s.napping := rfl
@[simp] theorem State.updCore_inflight (c : Nat) (f : Core → Core) : (s.updCore c f).inflight = s.inflight := rfl
@[simp] theorem State.updCore_sendq (c : Nat) (f : Core → Core) : (s.updCore c f).sendq = s.sendq := rfl
@[simp] theorem State.updCore_pkg (c : Nat) (f : Core → Core) : (s.updCore c f).pkg = s.pkg := rfl
@[simp] theorem State.updCore_ring (c : Nat) (f : Core → Core) : (s.updCore c f).ring = s.ring := rfl
@[simp] theorem State.updCore_boot (c : Nat) (f : Core → Core) : (s.updCore c f).boot = s.boot := rfl
@[simp] theorem State.updCore_vdCmd (c : Nat) (f : Core → Core) : (s.updCore c f).vdCmd = s.vdCmd := rfl
@[simp] theorem State.updCore_vdStat (c : Nat) (f : Core → Core) : (s.updCore c f).vdStat = s.vdStat := rfl
@[simp] theorem State.updCore_vdBegun (c : Nat) (f : Core → Core) : (s.updCore c f).vdBegun = s.vdBegun := rfl
@[simp] theorem State.updCore_dport (c : Nat) (f : Core → Core) : (s.updCore c f).dport = s.dport := rfl
@[simp] theorem State.updCore_power (c : Nat) (f : Core → Core) : (s.updCore c f).power = s.power := rfl
@[simp] theorem State.updCore_errlog (c : Nat) (f : Core → Core) : (s.updCore c f).errlog = s.errlog := rfl
@[simp] theorem State.updCore_errSeq (c : Nat) (f : Core → Core) : (s.updCore c f).errSeq = s.errSeq := rfl
@[simp] theorem State.updCore_corrected (c : Nat) (f : Core → Core) : (s.updCore c f).corrected = s.corrected := rfl
@[simp] theorem State.updCore_ifile (c : Nat) (f : Core → Core) : (s.updCore c f).ifile = s.ifile := rfl
@[simp] theorem State.updCore_output (c : Nat) (f : Core → Core) : (s.updCore c f).output = s.output := rfl
@[simp] theorem State.updCore_msix (c : Nat) (f : Core → Core) : (s.updCore c f).msix = s.msix := rfl
@[simp] theorem State.updCore_vectors (c : Nat) (f : Core → Core) : (s.updCore c f).vectors = s.vectors := rfl
@[simp] theorem State.updCore_link (c : Nat) (f : Core → Core) : (s.updCore c f).link = s.link := rfl
@[simp] theorem State.updCore_sec (c : Nat) (f : Core → Core) : (s.updCore c f).sec = s.sec := rfl
@[simp] theorem State.updCore_muNext (c : Nat) (f : Core → Core) : (s.updCore c f).muNext = s.muNext := rfl
@[simp] theorem State.updCore_ceNext (c : Nat) (f : Core → Core) : (s.updCore c f).ceNext = s.ceNext := rfl
@[simp] theorem State.updCore_routes (c : Nat) (f : Core → Core) : (s.updCore c f).routes = s.routes := rfl
@[simp] theorem State.updCore_nextId (c : Nat) (f : Core → Core) : (s.updCore c f).nextId = s.nextId := rfl
@[simp] theorem State.updCore_banks (c : Nat) (f : Core → Core) : (s.updCore c f).banks = s.banks := rfl
@[simp] theorem State.updCore_collisions (c : Nat) (f : Core → Core) : (s.updCore c f).collisions = s.collisions := rfl
@[simp] theorem State.updCore_stalled (c : Nat) (f : Core → Core) : (s.updCore c f).stalled = s.stalled := rfl
@[simp] theorem State.updCore_target (c : Nat) (f : Core → Core) : (s.updCore c f).target = s.target := rfl

/-! ### `updCtx` -/

@[simp] theorem State.updCtx_cur (c x : Nat) (f : Context → Context) : (s.updCtx c x f).cur = s.cur := rfl
@[simp] theorem State.updCtx_agenda (c x : Nat) (f : Context → Context) : (s.updCtx c x f).agenda = s.agenda := rfl
@[simp] theorem State.updCtx_ranks (c x : Nat) (f : Context → Context) : (s.updCtx c x f).ranks = s.ranks := rfl
@[simp] theorem State.updCtx_vds (c x : Nat) (f : Context → Context) : (s.updCtx c x f).vds = s.vds := rfl
@[simp] theorem State.updCtx_mem (c x : Nat) (f : Context → Context) : (s.updCtx c x f).mem = s.mem := rfl
@[simp] theorem State.updCtx_draws (c x : Nat) (f : Context → Context) : (s.updCtx c x f).draws = s.draws := rfl
@[simp] theorem State.updCtx_badWords (c x : Nat) (f : Context → Context) : (s.updCtx c x f).badWords = s.badWords := rfl
@[simp] theorem State.updCtx_deadRows (c x : Nat) (f : Context → Context) : (s.updCtx c x f).deadRows = s.deadRows := rfl
@[simp] theorem State.updCtx_perms (c x : Nat) (f : Context → Context) : (s.updCtx c x f).perms = s.perms := rfl
@[simp] theorem State.updCtx_tlb (c x : Nat) (f : Context → Context) : (s.updCtx c x f).tlb = s.tlb := rfl
@[simp] theorem State.updCtx_courses (c x : Nat) (f : Context → Context) : (s.updCtx c x f).courses = s.courses := rfl
@[simp] theorem State.updCtx_gathers (c x : Nat) (f : Context → Context) : (s.updCtx c x f).gathers = s.gathers := rfl
@[simp] theorem State.updCtx_asleep (c x : Nat) (f : Context → Context) : (s.updCtx c x f).asleep = s.asleep := rfl
@[simp] theorem State.updCtx_napping (c x : Nat) (f : Context → Context) : (s.updCtx c x f).napping = s.napping := rfl
@[simp] theorem State.updCtx_inflight (c x : Nat) (f : Context → Context) : (s.updCtx c x f).inflight = s.inflight := rfl
@[simp] theorem State.updCtx_sendq (c x : Nat) (f : Context → Context) : (s.updCtx c x f).sendq = s.sendq := rfl
@[simp] theorem State.updCtx_pkg (c x : Nat) (f : Context → Context) : (s.updCtx c x f).pkg = s.pkg := rfl
@[simp] theorem State.updCtx_ring (c x : Nat) (f : Context → Context) : (s.updCtx c x f).ring = s.ring := rfl
@[simp] theorem State.updCtx_boot (c x : Nat) (f : Context → Context) : (s.updCtx c x f).boot = s.boot := rfl
@[simp] theorem State.updCtx_vdCmd (c x : Nat) (f : Context → Context) : (s.updCtx c x f).vdCmd = s.vdCmd := rfl
@[simp] theorem State.updCtx_vdStat (c x : Nat) (f : Context → Context) : (s.updCtx c x f).vdStat = s.vdStat := rfl
@[simp] theorem State.updCtx_vdBegun (c x : Nat) (f : Context → Context) : (s.updCtx c x f).vdBegun = s.vdBegun := rfl
@[simp] theorem State.updCtx_dport (c x : Nat) (f : Context → Context) : (s.updCtx c x f).dport = s.dport := rfl
@[simp] theorem State.updCtx_power (c x : Nat) (f : Context → Context) : (s.updCtx c x f).power = s.power := rfl
@[simp] theorem State.updCtx_errlog (c x : Nat) (f : Context → Context) : (s.updCtx c x f).errlog = s.errlog := rfl
@[simp] theorem State.updCtx_errSeq (c x : Nat) (f : Context → Context) : (s.updCtx c x f).errSeq = s.errSeq := rfl
@[simp] theorem State.updCtx_corrected (c x : Nat) (f : Context → Context) : (s.updCtx c x f).corrected = s.corrected := rfl
@[simp] theorem State.updCtx_ifile (c x : Nat) (f : Context → Context) : (s.updCtx c x f).ifile = s.ifile := rfl
@[simp] theorem State.updCtx_output (c x : Nat) (f : Context → Context) : (s.updCtx c x f).output = s.output := rfl
@[simp] theorem State.updCtx_msix (c x : Nat) (f : Context → Context) : (s.updCtx c x f).msix = s.msix := rfl
@[simp] theorem State.updCtx_vectors (c x : Nat) (f : Context → Context) : (s.updCtx c x f).vectors = s.vectors := rfl
@[simp] theorem State.updCtx_link (c x : Nat) (f : Context → Context) : (s.updCtx c x f).link = s.link := rfl
@[simp] theorem State.updCtx_sec (c x : Nat) (f : Context → Context) : (s.updCtx c x f).sec = s.sec := rfl
@[simp] theorem State.updCtx_muNext (c x : Nat) (f : Context → Context) : (s.updCtx c x f).muNext = s.muNext := rfl
@[simp] theorem State.updCtx_ceNext (c x : Nat) (f : Context → Context) : (s.updCtx c x f).ceNext = s.ceNext := rfl
@[simp] theorem State.updCtx_routes (c x : Nat) (f : Context → Context) : (s.updCtx c x f).routes = s.routes := rfl
@[simp] theorem State.updCtx_nextId (c x : Nat) (f : Context → Context) : (s.updCtx c x f).nextId = s.nextId := rfl
@[simp] theorem State.updCtx_banks (c x : Nat) (f : Context → Context) : (s.updCtx c x f).banks = s.banks := rfl
@[simp] theorem State.updCtx_collisions (c x : Nat) (f : Context → Context) : (s.updCtx c x f).collisions = s.collisions := rfl
@[simp] theorem State.updCtx_stalled (c x : Nat) (f : Context → Context) : (s.updCtx c x f).stalled = s.stalled := rfl
@[simp] theorem State.updCtx_target (c x : Nat) (f : Context → Context) : (s.updCtx c x f).target = s.target := rfl

/-! ### `updHere` -/

@[simp] theorem State.updHere_cur (f : Core → Core) : (s.updHere f).cur = s.cur := rfl
@[simp] theorem State.updHere_agenda (f : Core → Core) : (s.updHere f).agenda = s.agenda := rfl
@[simp] theorem State.updHere_ranks (f : Core → Core) : (s.updHere f).ranks = s.ranks := rfl
@[simp] theorem State.updHere_vds (f : Core → Core) : (s.updHere f).vds = s.vds := rfl
@[simp] theorem State.updHere_mem (f : Core → Core) : (s.updHere f).mem = s.mem := rfl
@[simp] theorem State.updHere_draws (f : Core → Core) : (s.updHere f).draws = s.draws := rfl
@[simp] theorem State.updHere_badWords (f : Core → Core) : (s.updHere f).badWords = s.badWords := rfl
@[simp] theorem State.updHere_deadRows (f : Core → Core) : (s.updHere f).deadRows = s.deadRows := rfl
@[simp] theorem State.updHere_perms (f : Core → Core) : (s.updHere f).perms = s.perms := rfl
@[simp] theorem State.updHere_tlb (f : Core → Core) : (s.updHere f).tlb = s.tlb := rfl
@[simp] theorem State.updHere_courses (f : Core → Core) : (s.updHere f).courses = s.courses := rfl
@[simp] theorem State.updHere_gathers (f : Core → Core) : (s.updHere f).gathers = s.gathers := rfl
@[simp] theorem State.updHere_asleep (f : Core → Core) : (s.updHere f).asleep = s.asleep := rfl
@[simp] theorem State.updHere_napping (f : Core → Core) : (s.updHere f).napping = s.napping := rfl
@[simp] theorem State.updHere_inflight (f : Core → Core) : (s.updHere f).inflight = s.inflight := rfl
@[simp] theorem State.updHere_sendq (f : Core → Core) : (s.updHere f).sendq = s.sendq := rfl
@[simp] theorem State.updHere_pkg (f : Core → Core) : (s.updHere f).pkg = s.pkg := rfl
@[simp] theorem State.updHere_ring (f : Core → Core) : (s.updHere f).ring = s.ring := rfl
@[simp] theorem State.updHere_boot (f : Core → Core) : (s.updHere f).boot = s.boot := rfl
@[simp] theorem State.updHere_vdCmd (f : Core → Core) : (s.updHere f).vdCmd = s.vdCmd := rfl
@[simp] theorem State.updHere_vdStat (f : Core → Core) : (s.updHere f).vdStat = s.vdStat := rfl
@[simp] theorem State.updHere_vdBegun (f : Core → Core) : (s.updHere f).vdBegun = s.vdBegun := rfl
@[simp] theorem State.updHere_dport (f : Core → Core) : (s.updHere f).dport = s.dport := rfl
@[simp] theorem State.updHere_power (f : Core → Core) : (s.updHere f).power = s.power := rfl
@[simp] theorem State.updHere_errlog (f : Core → Core) : (s.updHere f).errlog = s.errlog := rfl
@[simp] theorem State.updHere_errSeq (f : Core → Core) : (s.updHere f).errSeq = s.errSeq := rfl
@[simp] theorem State.updHere_corrected (f : Core → Core) : (s.updHere f).corrected = s.corrected := rfl
@[simp] theorem State.updHere_ifile (f : Core → Core) : (s.updHere f).ifile = s.ifile := rfl
@[simp] theorem State.updHere_output (f : Core → Core) : (s.updHere f).output = s.output := rfl
@[simp] theorem State.updHere_msix (f : Core → Core) : (s.updHere f).msix = s.msix := rfl
@[simp] theorem State.updHere_vectors (f : Core → Core) : (s.updHere f).vectors = s.vectors := rfl
@[simp] theorem State.updHere_link (f : Core → Core) : (s.updHere f).link = s.link := rfl
@[simp] theorem State.updHere_sec (f : Core → Core) : (s.updHere f).sec = s.sec := rfl
@[simp] theorem State.updHere_muNext (f : Core → Core) : (s.updHere f).muNext = s.muNext := rfl
@[simp] theorem State.updHere_ceNext (f : Core → Core) : (s.updHere f).ceNext = s.ceNext := rfl
@[simp] theorem State.updHere_routes (f : Core → Core) : (s.updHere f).routes = s.routes := rfl
@[simp] theorem State.updHere_nextId (f : Core → Core) : (s.updHere f).nextId = s.nextId := rfl
@[simp] theorem State.updHere_banks (f : Core → Core) : (s.updHere f).banks = s.banks := rfl
@[simp] theorem State.updHere_collisions (f : Core → Core) : (s.updHere f).collisions = s.collisions := rfl
@[simp] theorem State.updHere_stalled (f : Core → Core) : (s.updHere f).stalled = s.stalled := rfl
@[simp] theorem State.updHere_target (f : Core → Core) : (s.updHere f).target = s.target := rfl

/-! ### `updMe` -/

@[simp] theorem State.updMe_cur (f : Context → Context) : (s.updMe f).cur = s.cur := rfl
@[simp] theorem State.updMe_agenda (f : Context → Context) : (s.updMe f).agenda = s.agenda := rfl
@[simp] theorem State.updMe_ranks (f : Context → Context) : (s.updMe f).ranks = s.ranks := rfl
@[simp] theorem State.updMe_vds (f : Context → Context) : (s.updMe f).vds = s.vds := rfl
@[simp] theorem State.updMe_mem (f : Context → Context) : (s.updMe f).mem = s.mem := rfl
@[simp] theorem State.updMe_draws (f : Context → Context) : (s.updMe f).draws = s.draws := rfl
@[simp] theorem State.updMe_badWords (f : Context → Context) : (s.updMe f).badWords = s.badWords := rfl
@[simp] theorem State.updMe_deadRows (f : Context → Context) : (s.updMe f).deadRows = s.deadRows := rfl
@[simp] theorem State.updMe_perms (f : Context → Context) : (s.updMe f).perms = s.perms := rfl
@[simp] theorem State.updMe_tlb (f : Context → Context) : (s.updMe f).tlb = s.tlb := rfl
@[simp] theorem State.updMe_courses (f : Context → Context) : (s.updMe f).courses = s.courses := rfl
@[simp] theorem State.updMe_gathers (f : Context → Context) : (s.updMe f).gathers = s.gathers := rfl
@[simp] theorem State.updMe_asleep (f : Context → Context) : (s.updMe f).asleep = s.asleep := rfl
@[simp] theorem State.updMe_napping (f : Context → Context) : (s.updMe f).napping = s.napping := rfl
@[simp] theorem State.updMe_inflight (f : Context → Context) : (s.updMe f).inflight = s.inflight := rfl
@[simp] theorem State.updMe_sendq (f : Context → Context) : (s.updMe f).sendq = s.sendq := rfl
@[simp] theorem State.updMe_pkg (f : Context → Context) : (s.updMe f).pkg = s.pkg := rfl
@[simp] theorem State.updMe_ring (f : Context → Context) : (s.updMe f).ring = s.ring := rfl
@[simp] theorem State.updMe_boot (f : Context → Context) : (s.updMe f).boot = s.boot := rfl
@[simp] theorem State.updMe_vdCmd (f : Context → Context) : (s.updMe f).vdCmd = s.vdCmd := rfl
@[simp] theorem State.updMe_vdStat (f : Context → Context) : (s.updMe f).vdStat = s.vdStat := rfl
@[simp] theorem State.updMe_vdBegun (f : Context → Context) : (s.updMe f).vdBegun = s.vdBegun := rfl
@[simp] theorem State.updMe_dport (f : Context → Context) : (s.updMe f).dport = s.dport := rfl
@[simp] theorem State.updMe_power (f : Context → Context) : (s.updMe f).power = s.power := rfl
@[simp] theorem State.updMe_errlog (f : Context → Context) : (s.updMe f).errlog = s.errlog := rfl
@[simp] theorem State.updMe_errSeq (f : Context → Context) : (s.updMe f).errSeq = s.errSeq := rfl
@[simp] theorem State.updMe_corrected (f : Context → Context) : (s.updMe f).corrected = s.corrected := rfl
@[simp] theorem State.updMe_ifile (f : Context → Context) : (s.updMe f).ifile = s.ifile := rfl
@[simp] theorem State.updMe_output (f : Context → Context) : (s.updMe f).output = s.output := rfl
@[simp] theorem State.updMe_msix (f : Context → Context) : (s.updMe f).msix = s.msix := rfl
@[simp] theorem State.updMe_vectors (f : Context → Context) : (s.updMe f).vectors = s.vectors := rfl
@[simp] theorem State.updMe_link (f : Context → Context) : (s.updMe f).link = s.link := rfl
@[simp] theorem State.updMe_sec (f : Context → Context) : (s.updMe f).sec = s.sec := rfl
@[simp] theorem State.updMe_muNext (f : Context → Context) : (s.updMe f).muNext = s.muNext := rfl
@[simp] theorem State.updMe_ceNext (f : Context → Context) : (s.updMe f).ceNext = s.ceNext := rfl
@[simp] theorem State.updMe_routes (f : Context → Context) : (s.updMe f).routes = s.routes := rfl
@[simp] theorem State.updMe_nextId (f : Context → Context) : (s.updMe f).nextId = s.nextId := rfl
@[simp] theorem State.updMe_banks (f : Context → Context) : (s.updMe f).banks = s.banks := rfl
@[simp] theorem State.updMe_collisions (f : Context → Context) : (s.updMe f).collisions = s.collisions := rfl
@[simp] theorem State.updMe_stalled (f : Context → Context) : (s.updMe f).stalled = s.stalled := rfl
@[simp] theorem State.updMe_target (f : Context → Context) : (s.updMe f).target = s.target := rfl

/-! ### `updRank` -/

@[simp] theorem State.updRank_cur (r : Nat) (f : Rank → Rank) : (s.updRank r f).cur = s.cur := rfl
@[simp] theorem State.updRank_agenda (r : Nat) (f : Rank → Rank) : (s.updRank r f).agenda = s.agenda := rfl
@[simp] theorem State.updRank_cores (r : Nat) (f : Rank → Rank) : (s.updRank r f).cores = s.cores := rfl
@[simp] theorem State.updRank_vds (r : Nat) (f : Rank → Rank) : (s.updRank r f).vds = s.vds := rfl
@[simp] theorem State.updRank_mem (r : Nat) (f : Rank → Rank) : (s.updRank r f).mem = s.mem := rfl
@[simp] theorem State.updRank_draws (r : Nat) (f : Rank → Rank) : (s.updRank r f).draws = s.draws := rfl
@[simp] theorem State.updRank_badWords (r : Nat) (f : Rank → Rank) : (s.updRank r f).badWords = s.badWords := rfl
@[simp] theorem State.updRank_deadRows (r : Nat) (f : Rank → Rank) : (s.updRank r f).deadRows = s.deadRows := rfl
@[simp] theorem State.updRank_perms (r : Nat) (f : Rank → Rank) : (s.updRank r f).perms = s.perms := rfl
@[simp] theorem State.updRank_tlb (r : Nat) (f : Rank → Rank) : (s.updRank r f).tlb = s.tlb := rfl
@[simp] theorem State.updRank_courses (r : Nat) (f : Rank → Rank) : (s.updRank r f).courses = s.courses := rfl
@[simp] theorem State.updRank_gathers (r : Nat) (f : Rank → Rank) : (s.updRank r f).gathers = s.gathers := rfl
@[simp] theorem State.updRank_asleep (r : Nat) (f : Rank → Rank) : (s.updRank r f).asleep = s.asleep := rfl
@[simp] theorem State.updRank_napping (r : Nat) (f : Rank → Rank) : (s.updRank r f).napping = s.napping := rfl
@[simp] theorem State.updRank_inflight (r : Nat) (f : Rank → Rank) : (s.updRank r f).inflight = s.inflight := rfl
@[simp] theorem State.updRank_sendq (r : Nat) (f : Rank → Rank) : (s.updRank r f).sendq = s.sendq := rfl
@[simp] theorem State.updRank_pkg (r : Nat) (f : Rank → Rank) : (s.updRank r f).pkg = s.pkg := rfl
@[simp] theorem State.updRank_ring (r : Nat) (f : Rank → Rank) : (s.updRank r f).ring = s.ring := rfl
@[simp] theorem State.updRank_boot (r : Nat) (f : Rank → Rank) : (s.updRank r f).boot = s.boot := rfl
@[simp] theorem State.updRank_vdCmd (r : Nat) (f : Rank → Rank) : (s.updRank r f).vdCmd = s.vdCmd := rfl
@[simp] theorem State.updRank_vdStat (r : Nat) (f : Rank → Rank) : (s.updRank r f).vdStat = s.vdStat := rfl
@[simp] theorem State.updRank_vdBegun (r : Nat) (f : Rank → Rank) : (s.updRank r f).vdBegun = s.vdBegun := rfl
@[simp] theorem State.updRank_dport (r : Nat) (f : Rank → Rank) : (s.updRank r f).dport = s.dport := rfl
@[simp] theorem State.updRank_power (r : Nat) (f : Rank → Rank) : (s.updRank r f).power = s.power := rfl
@[simp] theorem State.updRank_errlog (r : Nat) (f : Rank → Rank) : (s.updRank r f).errlog = s.errlog := rfl
@[simp] theorem State.updRank_errSeq (r : Nat) (f : Rank → Rank) : (s.updRank r f).errSeq = s.errSeq := rfl
@[simp] theorem State.updRank_corrected (r : Nat) (f : Rank → Rank) : (s.updRank r f).corrected = s.corrected := rfl
@[simp] theorem State.updRank_ifile (r : Nat) (f : Rank → Rank) : (s.updRank r f).ifile = s.ifile := rfl
@[simp] theorem State.updRank_output (r : Nat) (f : Rank → Rank) : (s.updRank r f).output = s.output := rfl
@[simp] theorem State.updRank_msix (r : Nat) (f : Rank → Rank) : (s.updRank r f).msix = s.msix := rfl
@[simp] theorem State.updRank_vectors (r : Nat) (f : Rank → Rank) : (s.updRank r f).vectors = s.vectors := rfl
@[simp] theorem State.updRank_link (r : Nat) (f : Rank → Rank) : (s.updRank r f).link = s.link := rfl
@[simp] theorem State.updRank_sec (r : Nat) (f : Rank → Rank) : (s.updRank r f).sec = s.sec := rfl
@[simp] theorem State.updRank_muNext (r : Nat) (f : Rank → Rank) : (s.updRank r f).muNext = s.muNext := rfl
@[simp] theorem State.updRank_ceNext (r : Nat) (f : Rank → Rank) : (s.updRank r f).ceNext = s.ceNext := rfl
@[simp] theorem State.updRank_routes (r : Nat) (f : Rank → Rank) : (s.updRank r f).routes = s.routes := rfl
@[simp] theorem State.updRank_nextId (r : Nat) (f : Rank → Rank) : (s.updRank r f).nextId = s.nextId := rfl
@[simp] theorem State.updRank_banks (r : Nat) (f : Rank → Rank) : (s.updRank r f).banks = s.banks := rfl
@[simp] theorem State.updRank_collisions (r : Nat) (f : Rank → Rank) : (s.updRank r f).collisions = s.collisions := rfl
@[simp] theorem State.updRank_stalled (r : Nat) (f : Rank → Rank) : (s.updRank r f).stalled = s.stalled := rfl
@[simp] theorem State.updRank_target (r : Nat) (f : Rank → Rank) : (s.updRank r f).target = s.target := rfl

/-! ### `updVd` -/

@[simp] theorem State.updVd_cur (v : Nat) (f : Vd → Vd) : (s.updVd v f).cur = s.cur := rfl
@[simp] theorem State.updVd_agenda (v : Nat) (f : Vd → Vd) : (s.updVd v f).agenda = s.agenda := rfl
@[simp] theorem State.updVd_cores (v : Nat) (f : Vd → Vd) : (s.updVd v f).cores = s.cores := rfl
@[simp] theorem State.updVd_ranks (v : Nat) (f : Vd → Vd) : (s.updVd v f).ranks = s.ranks := rfl
@[simp] theorem State.updVd_mem (v : Nat) (f : Vd → Vd) : (s.updVd v f).mem = s.mem := rfl
@[simp] theorem State.updVd_draws (v : Nat) (f : Vd → Vd) : (s.updVd v f).draws = s.draws := rfl
@[simp] theorem State.updVd_badWords (v : Nat) (f : Vd → Vd) : (s.updVd v f).badWords = s.badWords := rfl
@[simp] theorem State.updVd_deadRows (v : Nat) (f : Vd → Vd) : (s.updVd v f).deadRows = s.deadRows := rfl
@[simp] theorem State.updVd_perms (v : Nat) (f : Vd → Vd) : (s.updVd v f).perms = s.perms := rfl
@[simp] theorem State.updVd_tlb (v : Nat) (f : Vd → Vd) : (s.updVd v f).tlb = s.tlb := rfl
@[simp] theorem State.updVd_courses (v : Nat) (f : Vd → Vd) : (s.updVd v f).courses = s.courses := rfl
@[simp] theorem State.updVd_gathers (v : Nat) (f : Vd → Vd) : (s.updVd v f).gathers = s.gathers := rfl
@[simp] theorem State.updVd_asleep (v : Nat) (f : Vd → Vd) : (s.updVd v f).asleep = s.asleep := rfl
@[simp] theorem State.updVd_napping (v : Nat) (f : Vd → Vd) : (s.updVd v f).napping = s.napping := rfl
@[simp] theorem State.updVd_inflight (v : Nat) (f : Vd → Vd) : (s.updVd v f).inflight = s.inflight := rfl
@[simp] theorem State.updVd_sendq (v : Nat) (f : Vd → Vd) : (s.updVd v f).sendq = s.sendq := rfl
@[simp] theorem State.updVd_pkg (v : Nat) (f : Vd → Vd) : (s.updVd v f).pkg = s.pkg := rfl
@[simp] theorem State.updVd_ring (v : Nat) (f : Vd → Vd) : (s.updVd v f).ring = s.ring := rfl
@[simp] theorem State.updVd_boot (v : Nat) (f : Vd → Vd) : (s.updVd v f).boot = s.boot := rfl
@[simp] theorem State.updVd_vdCmd (v : Nat) (f : Vd → Vd) : (s.updVd v f).vdCmd = s.vdCmd := rfl
@[simp] theorem State.updVd_vdStat (v : Nat) (f : Vd → Vd) : (s.updVd v f).vdStat = s.vdStat := rfl
@[simp] theorem State.updVd_vdBegun (v : Nat) (f : Vd → Vd) : (s.updVd v f).vdBegun = s.vdBegun := rfl
@[simp] theorem State.updVd_dport (v : Nat) (f : Vd → Vd) : (s.updVd v f).dport = s.dport := rfl
@[simp] theorem State.updVd_power (v : Nat) (f : Vd → Vd) : (s.updVd v f).power = s.power := rfl
@[simp] theorem State.updVd_errlog (v : Nat) (f : Vd → Vd) : (s.updVd v f).errlog = s.errlog := rfl
@[simp] theorem State.updVd_errSeq (v : Nat) (f : Vd → Vd) : (s.updVd v f).errSeq = s.errSeq := rfl
@[simp] theorem State.updVd_corrected (v : Nat) (f : Vd → Vd) : (s.updVd v f).corrected = s.corrected := rfl
@[simp] theorem State.updVd_ifile (v : Nat) (f : Vd → Vd) : (s.updVd v f).ifile = s.ifile := rfl
@[simp] theorem State.updVd_output (v : Nat) (f : Vd → Vd) : (s.updVd v f).output = s.output := rfl
@[simp] theorem State.updVd_msix (v : Nat) (f : Vd → Vd) : (s.updVd v f).msix = s.msix := rfl
@[simp] theorem State.updVd_vectors (v : Nat) (f : Vd → Vd) : (s.updVd v f).vectors = s.vectors := rfl
@[simp] theorem State.updVd_link (v : Nat) (f : Vd → Vd) : (s.updVd v f).link = s.link := rfl
@[simp] theorem State.updVd_sec (v : Nat) (f : Vd → Vd) : (s.updVd v f).sec = s.sec := rfl
@[simp] theorem State.updVd_muNext (v : Nat) (f : Vd → Vd) : (s.updVd v f).muNext = s.muNext := rfl
@[simp] theorem State.updVd_ceNext (v : Nat) (f : Vd → Vd) : (s.updVd v f).ceNext = s.ceNext := rfl
@[simp] theorem State.updVd_routes (v : Nat) (f : Vd → Vd) : (s.updVd v f).routes = s.routes := rfl
@[simp] theorem State.updVd_nextId (v : Nat) (f : Vd → Vd) : (s.updVd v f).nextId = s.nextId := rfl
@[simp] theorem State.updVd_banks (v : Nat) (f : Vd → Vd) : (s.updVd v f).banks = s.banks := rfl
@[simp] theorem State.updVd_collisions (v : Nat) (f : Vd → Vd) : (s.updVd v f).collisions = s.collisions := rfl
@[simp] theorem State.updVd_stalled (v : Nat) (f : Vd → Vd) : (s.updVd v f).stalled = s.stalled := rfl
@[simp] theorem State.updVd_target (v : Nat) (f : Vd → Vd) : (s.updVd v f).target = s.target := rfl

/-! ### `fresh` -/

@[simp] theorem State.fresh_cur : (s.fresh).cur = s.cur := rfl
@[simp] theorem State.fresh_agenda : (s.fresh).agenda = s.agenda := rfl
@[simp] theorem State.fresh_cores : (s.fresh).cores = s.cores := rfl
@[simp] theorem State.fresh_ranks : (s.fresh).ranks = s.ranks := rfl
@[simp] theorem State.fresh_vds : (s.fresh).vds = s.vds := rfl
@[simp] theorem State.fresh_mem : (s.fresh).mem = s.mem := rfl
@[simp] theorem State.fresh_draws : (s.fresh).draws = s.draws := rfl
@[simp] theorem State.fresh_badWords : (s.fresh).badWords = s.badWords := rfl
@[simp] theorem State.fresh_deadRows : (s.fresh).deadRows = s.deadRows := rfl
@[simp] theorem State.fresh_perms : (s.fresh).perms = s.perms := rfl
@[simp] theorem State.fresh_tlb : (s.fresh).tlb = s.tlb := rfl
@[simp] theorem State.fresh_courses : (s.fresh).courses = s.courses := rfl
@[simp] theorem State.fresh_gathers : (s.fresh).gathers = s.gathers := rfl
@[simp] theorem State.fresh_asleep : (s.fresh).asleep = s.asleep := rfl
@[simp] theorem State.fresh_napping : (s.fresh).napping = s.napping := rfl
@[simp] theorem State.fresh_inflight : (s.fresh).inflight = s.inflight := rfl
@[simp] theorem State.fresh_sendq : (s.fresh).sendq = s.sendq := rfl
@[simp] theorem State.fresh_pkg : (s.fresh).pkg = s.pkg := rfl
@[simp] theorem State.fresh_ring : (s.fresh).ring = s.ring := rfl
@[simp] theorem State.fresh_boot : (s.fresh).boot = s.boot := rfl
@[simp] theorem State.fresh_vdCmd : (s.fresh).vdCmd = s.vdCmd := rfl
@[simp] theorem State.fresh_vdStat : (s.fresh).vdStat = s.vdStat := rfl
@[simp] theorem State.fresh_vdBegun : (s.fresh).vdBegun = s.vdBegun := rfl
@[simp] theorem State.fresh_dport : (s.fresh).dport = s.dport := rfl
@[simp] theorem State.fresh_power : (s.fresh).power = s.power := rfl
@[simp] theorem State.fresh_errlog : (s.fresh).errlog = s.errlog := rfl
@[simp] theorem State.fresh_errSeq : (s.fresh).errSeq = s.errSeq := rfl
@[simp] theorem State.fresh_corrected : (s.fresh).corrected = s.corrected := rfl
@[simp] theorem State.fresh_ifile : (s.fresh).ifile = s.ifile := rfl
@[simp] theorem State.fresh_output : (s.fresh).output = s.output := rfl
@[simp] theorem State.fresh_msix : (s.fresh).msix = s.msix := rfl
@[simp] theorem State.fresh_vectors : (s.fresh).vectors = s.vectors := rfl
@[simp] theorem State.fresh_link : (s.fresh).link = s.link := rfl
@[simp] theorem State.fresh_sec : (s.fresh).sec = s.sec := rfl
@[simp] theorem State.fresh_muNext : (s.fresh).muNext = s.muNext := rfl
@[simp] theorem State.fresh_ceNext : (s.fresh).ceNext = s.ceNext := rfl
@[simp] theorem State.fresh_routes : (s.fresh).routes = s.routes := rfl
@[simp] theorem State.fresh_banks : (s.fresh).banks = s.banks := rfl
@[simp] theorem State.fresh_collisions : (s.fresh).collisions = s.collisions := rfl
@[simp] theorem State.fresh_stalled : (s.fresh).stalled = s.stalled := rfl
@[simp] theorem State.fresh_target : (s.fresh).target = s.target := rfl

@[simp] theorem State.fresh_nextId : s.fresh.nextId = s.nextId + 1 := rfl

end Sys2Proof.Machine
end

