-- ==== Sys2Proof/Laws/Ops.lean ====
section
/-! SUPPORT. What the shared operations of a step leave: the parts of the state each of them does not touch, and that the updates of
a core, a context, a VD, a rank and a bank keep the canonical form of the memories. -/

namespace Sys2Proof.Machine

/-! ### The parts of a state -/

@[simp] theorem core_setCore (s : State) (c : Nat) (k : Core) : (s.setCore c k).core c = k := by
  simp [State.core, State.setCore]

theorem core_setCore_ne (s : State) {c d : Nat} (k : Core) (h : d ≠ c) : (s.setCore c k).core d = s.core d := by
  simp [State.core, State.setCore, lookup_put_ne h]

@[simp] theorem core_updCore (s : State) (c : Nat) (f : Core → Core) : (s.updCore c f).core c = f (s.core c) := core_setCore _ _ _

theorem core_updCore_ne (s : State) {c d : Nat} (f : Core → Core) (h : d ≠ c) : (s.updCore c f).core d = s.core d :=
  core_setCore_ne _ _ h

@[simp] theorem here_updHere (s : State) (f : Core → Core) : (s.updHere f).here = f s.here := core_updCore _ _ _

theorem here_updMe (s : State) (f : Context → Context) :
    (s.updMe f).here = { s.here with ctxs := s.here.ctxs.set s.cur.ctx (f s.here.ctxs[s.cur.ctx]) } := core_updCore _ _ _

@[simp] theorem me_updMe (s : State) (f : Context → Context) : (s.updMe f).me = f s.me := by
  show (s.updMe f).here.ctxs[s.cur.ctx] = f s.here.ctxs[s.cur.ctx]
  rw [here_updMe]
  simp

theorem ctx_updMe_ne (s : State) (f : Context → Context) {x : Fin 11} (h : x ≠ s.cur.ctx) :
    (s.updMe f).here.ctxs[x] = s.here.ctxs[x] := by
  rw [here_updMe]
  exact Vector.getElem_set_ne s.cur.ctx.isLt x.isLt (fun e => h (Fin.ext e.symm))

@[simp] theorem rank_updRank (s : State) (r : Nat) (f : Rank → Rank) : (s.updRank r f).rank r = f (s.rank r) := by
  simp [State.rank, State.updRank]

theorem rank_updRank_ne (s : State) {r q : Nat} (f : Rank → Rank) (h : q ≠ r) : (s.updRank r f).rank q = s.rank q := by
  simp [State.rank, State.updRank, lookup_put_ne h]

@[simp] theorem vd_updVd (s : State) (v : Nat) (f : Vd → Vd) : (s.updVd v f).vd v = f (s.vd v) := by
  simp [State.vd, State.updVd]

theorem vd_updVd_ne (s : State) {v w : Nat} (f : Vd → Vd) (h : w ≠ v) : (s.updVd v f).vd w = s.vd w := by
  simp [State.vd, State.updVd, lookup_put_ne h]

/-! ### What a trap, a fault and a retirement leave -/

@[simp] theorem takeTrap_mem (c : Nat) (v e : W64) (s : State) : (takeTrap c v e s).mem = s.mem := rfl
@[simp] theorem takeTrap_vds (c : Nat) (v e : W64) (s : State) : (takeTrap c v e s).vds = s.vds := rfl
@[simp] theorem takeTrap_ranks (c : Nat) (v e : W64) (s : State) : (takeTrap c v e s).ranks = s.ranks := rfl
@[simp] theorem takeTrap_cur (c : Nat) (v e : W64) (s : State) : (takeTrap c v e s).cur = s.cur := rfl
@[simp] theorem takeTrap_agenda (c : Nat) (v e : W64) (s : State) : (takeTrap c v e s).agenda = s.agenda := rfl
@[simp] theorem takeFault_mem (c : Nat) (v : W64) (k : Nat) (s : State) : (takeFault c v k s).mem = s.mem := rfl
@[simp] theorem takeFault_ranks (c : Nat) (v : W64) (k : Nat) (s : State) : (takeFault c v k s).ranks = s.ranks := rfl
@[simp] theorem takeFault_cur (c : Nat) (v : W64) (k : Nat) (s : State) : (takeFault c v k s).cur = s.cur := rfl
@[simp] theorem takeFault_agenda (c : Nat) (v : W64) (k : Nat) (s : State) : (takeFault c v k s).agenda = s.agenda := rfl
/-- Results through pointers that land change the cores alone. -/
theorem flushSpm_cores (s : State) (c t : Nat) (mine : Nat → Bool) : ∃ cs, s.flushSpm c t mine = { s with cores := cs } := by
  have fold : ∀ (l : List SpmWrite) (s : State), ∃ cs, l.foldl (fun s w => s.spmWrite c w.off w.data) s = { s with cores := cs } := by
    intro l
    induction l with
    | nil => exact fun s => ⟨s.cores, rfl⟩
    | cons w r ih => exact fun s => (ih (s.spmWrite c w.off w.data)).imp fun _ h => h
  unfold State.flushSpm
  dsimp only
  split
  · exact ⟨s.cores, rfl⟩
  · obtain ⟨cs, h⟩ := fold _ s
    exact ⟨_, by rw [h]; rfl⟩

/-- The halt at the end of a step changes the cores alone. -/
theorem endStep_cores (s : State) : ∃ cs, s.endStep = { s with cores := cs } := by
  unfold State.endStep State.finishFixed
  split
  · obtain ⟨cs, h⟩ := flushSpm_cores s s.cur.core ((s.core s.cur.core).clock + 1000) (· == s.cur.ctx.val)
    exact ⟨_, by rw [h]; rfl⟩
  · exact ⟨s.cores, rfl⟩

/-- A retirement changes the cores and puts the transients of the instruction at rest. -/
theorem retire_cores (n : Nat) (s : State) :
    ∃ cs, retire n s = { s with cores := cs, banks := [], collisions := 0, target := none } := by
  obtain ⟨cs, h⟩ := endStep_cores (s.updMe (fun c =>
    let c1 := match s.target with
      | some p => { c with pc := p }
      | none => c.advance
    { c1 with bound := s.now + 1 + n + s.collisions, wait := none, hold := none, ask := none, answer := none }))
  exact ⟨cs, congrArg (fun t : State => { t with banks := [], collisions := 0, target := none }) h⟩

@[simp] theorem retire_mem (n : Nat) (s : State) : (retire n s).mem = s.mem := by obtain ⟨_, h⟩ := retire_cores n s; rw [h]
@[simp] theorem retire_vds (n : Nat) (s : State) : (retire n s).vds = s.vds := by obtain ⟨_, h⟩ := retire_cores n s; rw [h]
@[simp] theorem retire_ranks (n : Nat) (s : State) : (retire n s).ranks = s.ranks := by obtain ⟨_, h⟩ := retire_cores n s; rw [h]
@[simp] theorem retire_cur (n : Nat) (s : State) : (retire n s).cur = s.cur := by obtain ⟨_, h⟩ := retire_cores n s; rw [h]
@[simp] theorem retire_agenda (n : Nat) (s : State) : (retire n s).agenda = s.agenda := by obtain ⟨_, h⟩ := retire_cores n s; rw [h]
@[simp] theorem settled_cores (s : State) : (settled s).cores = s.cores := rfl
@[simp] theorem settled_mem (s : State) : (settled s).mem = s.mem := rfl
@[simp] theorem settled_vds (s : State) : (settled s).vds = s.vds := rfl

/-! ### The canonical form of the memories (log 4) -/

/-- The scratchpad and the tile partition of a core have the form. -/
def Core.Wf (k : Core) : Prop := Memory.wf k.spm = true ∧ Memory.wf k.tile = true

/-- The saved cores of a VD have it. -/
def Vd.Wf (v : Vd) : Prop := ∀ e ∈ v.saved, Memory.wf e.2.spm = true ∧ Memory.wf e.2.tile = true

theorem mem_of_lookup {α : Type} {k : Nat} {v : α} {l : List (Nat × α)} (h : lookup k l = some v) : (k, v) ∈ l := by
  induction l with
  | nil => simp [lookup] at h
  | cons e r ih =>
    obtain ⟨k', v'⟩ := e
    unfold lookup at h
    split at h
    · next hk => simp at h; simp [hk, h]
    · exact List.mem_cons_of_mem _ (ih h)

theorem of_mem_put {α : Type} {k : Nat} {v : α} {l : List (Nat × α)} {e : Nat × α} (h : e ∈ put k v l) : e = (k, v) ∨ e ∈ l := by
  induction l with
  | nil => simpa [put] using h
  | cons d r ih =>
    obtain ⟨k', v'⟩ := d
    unfold put at h
    split at h
    · simp at h; rcases h with h | h
      · exact .inl h
      · exact .inr (List.mem_cons_of_mem _ h)
    · split at h
      · simp at h; rcases h with h | h | h
        · exact .inl h
        · exact .inr (by simp [h])
        · exact .inr (List.mem_cons_of_mem _ h)
      · simp only [List.mem_cons] at h ⊢; rcases h with h | h
        · exact .inr (.inl h)
        · exact (ih h).imp id .inr

theorem State.Form.core {s : State} (h : s.Form) (c : Nat) : (s.core c).Wf := by
  unfold State.core
  cases hl : lookup c s.cores with
  | none =>
    show (Core.first c).Wf
    unfold Core.first
    split <;> exact ⟨rfl, rfl⟩
  | some k => exact h.1.2 _ (mem_of_lookup hl)

theorem State.Form.vd {s : State} (h : s.Form) (v : Nat) : (s.vd v).Wf := by
  unfold State.vd
  cases hl : lookup v s.vds with
  | none => intro e he; simp [Vd.reset] at he
  | some k => exact h.2 _ (mem_of_lookup hl)

theorem State.Form.of_same {s t : State} (h : s.Form) (hm : t.mem = s.mem) (hc : t.cores = s.cores) (hv : t.vds = s.vds) :
    t.Form := by
  unfold State.Form State.MemWf
  rw [hm, hc, hv]
  exact h

theorem State.Form.setCore {s : State} (h : s.Form) (c : Nat) {k : Core} (hk : k.Wf) : (s.setCore c k).Form :=
  ⟨⟨h.1.1, fun e he => by
    rcases of_mem_put he with rfl | he
    · exact hk
    · exact h.1.2 e he⟩, h.2⟩

theorem State.Form.updCore {s : State} (h : s.Form) (c : Nat) {f : Core → Core} (hf : ∀ k : Core, k.Wf → (f k).Wf) :
    (s.updCore c f).Form := h.setCore c (hf _ (h.core c))

theorem State.Form.updHere {s : State} (h : s.Form) {f : Core → Core} (hf : ∀ k : Core, k.Wf → (f k).Wf) :
    (s.updHere f).Form := h.updCore _ hf

theorem State.Form.updCtx {s : State} (h : s.Form) (c x : Nat) (f : Context → Context) : (s.updCtx c x f).Form :=
  h.updCore c (fun _ hk => hk)

theorem State.Form.updMe {s : State} (h : s.Form) (f : Context → Context) : (s.updMe f).Form := h.updCore _ (fun _ hk => hk)

theorem State.Form.updRank {s : State} (h : s.Form) (r : Nat) (f : Rank → Rank) : (s.updRank r f).Form := h.of_same rfl rfl rfl

theorem State.Form.updVd {s : State} (h : s.Form) (v : Nat) {f : Vd → Vd} (hf : ∀ x : Vd, x.Wf → (f x).Wf) :
    (s.updVd v f).Form :=
  ⟨h.1, fun e he => by
    rcases of_mem_put he with rfl | he
    · exact hf _ (h.vd v)
    · exact h.2 e he⟩

theorem State.Form.poke {s : State} (h : s.Form) (d k : Nat) (b : Byte) : (s.poke d k b).Form := by
  refine ⟨⟨Memory.wf_write _ _ ?_, h.1.2⟩, h.2⟩
  split
  · exact h.1.1
  · exact Memory.wf_writeN _ _ h.1.1

theorem State.Form.pokeByte {s : State} (h : s.Form) (p : Place) (b : Byte) : (s.pokeByte p b).Form := h.poke _ _ _

theorem State.Form.foldl {α : Type} {f : State → α → State} (hf : ∀ s a, s.Form → (f s a).Form) (l : List α) {s : State}
    (h : s.Form) : (l.foldl f s).Form := by
  induction l generalizing s with
  | nil => exact h
  | cons a r ih => exact ih (hf _ _ h)

theorem State.Form.takeTrap {s : State} (h : s.Form) (c : Nat) (v e : W64) : (takeTrap c v e s).Form := h.updMe _

theorem State.Form.spmWrite {s : State} (h : s.Form) (c off : Nat) (bs : List Byte) : (s.spmWrite c off bs).Form :=
  h.updCore c (fun _ hk => ⟨Memory.wf_writeN _ _ hk.1, hk.2⟩)

theorem State.Form.flushSpm {s : State} (h : s.Form) (c t : Nat) (mine : Nat → Bool) : (s.flushSpm c t mine).Form := by
  unfold State.flushSpm
  dsimp only
  split
  · exact h
  · exact State.Form.updCore (State.Form.foldl (fun _ _ hs => hs.spmWrite _ _ _) _ h) _ (fun _ hk => hk)

theorem State.Form.finishFixed {s : State} (h : s.Form) (c x : Nat) : (s.finishFixed c x).Form := (h.flushSpm _ _ _).updCtx _ _ _

theorem State.Form.endStep {s : State} (h : s.Form) : s.endStep.Form := by
  unfold State.endStep
  split
  · exact (h.finishFixed _ _).updMe _
  · exact h

theorem State.Form.retire {s : State} (h : s.Form) (n : Nat) : (retire n s).Form := by
  have hu := (h.updMe (fun c =>
    let c1 := match s.target with
      | some p => { c with pc := p }
      | none => c.advance
    { c1 with bound := s.now + 1 + n + s.collisions, wait := none, hold := none, ask := none, answer := none })).endStep
  exact hu.of_same rfl rfl rfl

theorem State.Form.settled {s : State} (h : s.Form) : (settled s).Form := h.of_same rfl rfl rfl

theorem State.Form.takeFault {s : State} (h : s.Form) (c : Nat) (v : W64) (k : Nat) : (takeFault c v k s).Form := by
  refine State.Form.updVd (State.Form.updMe (h.updHere ?_) _) _ (fun _ hx => hx)
  intro k hk
  refine ⟨?_, hk.2⟩
  dsimp only
  split
  · exact Memory.wf_writeN _ _ hk.1
  · exact hk.1

/-- A stop keeps the form when the effects it keeps do. -/
theorem State.Form.stopAt {s : State} (h : s.Form) {e : Stop}
    (he : match e with | .keepTrap t _ _ => t.Form | .fault t _ _ _ => t.Form | .keepWait t _ => t.Form | _ => True) :
    (stopAt s e).Form := by
  cases e with
  | trap c t => exact h.takeTrap _ _ _
  | keepTrap t c v => exact (State.Form.settled he).takeTrap _ _ _
  | fault t c v k => exact (State.Form.settled he).takeFault _ _ _
  | wait r => exact h.updMe _
  | keepWait t r => exact (State.Form.settled he).updMe _
  | halt r => exact (h.finishFixed _ _).updMe _

/-- What an action must keep for its instruction to keep the form. -/
def M.KeepsForm {α : Type} (m : M α) : Prop :=
  ∀ s : State, s.Form → match m s with
    | .ok (_, t) => t.Form
    | .error (.keepTrap t _ _) => t.Form
    | .error (.fault t _ _ _) => t.Form
    | .error (.keepWait t _) => t.Form
    | .error _ => True

theorem M.KeepsForm.upd {f : State → State} (hf : ∀ s : State, s.Form → (f s).Form) : M.KeepsForm (upd f) := fun s h => hf s h

theorem M.KeepsForm.bind {α β : Type} {m : M α} {f : α → M β} (hm : M.KeepsForm m) (hf : ∀ a, M.KeepsForm (f a)) :
    M.KeepsForm (m >>= f) := by
  intro s h
  have hs := hm s h
  cases hr : m s with
  | ok x =>
    rw [hr] at hs
    rw [M_bind_ok (a := x.1) (t := x.2) hr]
    exact hf x.1 x.2 hs
  | error e =>
    rw [hr] at hs
    rw [M_bind_error hr]
    cases e <;> exact hs

/-- Every instruction whose action keeps the form keeps it. -/
theorem issue_form {i : Instr} {st : Nat} {m : M Unit} (hm : M.KeepsForm m) {s t : State} (h : s.Form)
    (ht : issue i st m s = .next t) : t.Form := by
  unfold issue at ht
  have hs := hm s h
  split at ht
  · cases ht; exact h.takeTrap _ _ _
  · split at ht
    · next r q hr => rw [hr] at hs; cases ht; exact State.Form.retire hs _
    · next e hr =>
      rw [hr] at hs
      cases ht
      refine h.stopAt ?_
      cases e <;> exact hs

end Sys2Proof.Machine
end

