-- ==== Sys2Proof/Laws/PerInstr.lean ====
section
/-! SUPPORT. One lemma per constructor: the word that `encode` writes for an instruction is read as that instruction. The
lemmas `fields<k>` say, once per layout of the encoding tables, which bits of a word each field takes. -/

namespace Sys2Proof.Laws

theorem extract_append_hi {v m : Nat} (x : BitVec v) (y : BitVec m) (lo n : Nat) (h : m ≤ lo) :
    (x ++ y).extractLsb' lo n = x.extractLsb' (lo - m) n := by
  ext i hi
  simp [BitVec.getLsbD_append]
  rw [if_neg (by omega)]
  congr 1
  omega

theorem extract_append_lo {v m : Nat} (x : BitVec v) (y : BitVec m) (lo n : Nat) (h : lo + n ≤ m) :
    (x ++ y).extractLsb' lo n = y.extractLsb' lo n := by
  ext i hi
  simp [BitVec.getLsbD_append]
  intro h2
  omega

theorem extract_all {m : Nat} (y : BitVec m) : y.extractLsb' 0 m = y := by
  ext i hi
  simp

theorem fields1 (f0 : BitVec 6) (f1 : BitVec 3) (f2 : BitVec 2) (f3 : BitVec 5) (f4 : BitVec 5) (f5 : BitVec 5) (f6 : BitVec 6) (x : BitVec 32)
    (h : x = f0 ++ f1 ++ f2 ++ f3 ++ f4 ++ f5 ++ f6) :
    fld x 26 6 = f0 ∧ fld x 23 3 = f1 ∧ fld x 21 2 = f2 ∧ fld x 16 5 = f3 ∧ fld x 11 5 = f4 ∧ fld x 6 5 = f5 ∧ fld x 0 6 = f6 := by
  subst h
  refine ⟨?_, ?_, ?_, ?_, ?_, ?_, ?_⟩ <;> unfold fld <;>
    (repeat first
      | exact extract_all _
      | (refine (extract_append_lo _ _ _ _ (by omega)).trans ?_)
      | (refine (extract_append_hi _ _ _ _ (by omega)).trans ?_))

theorem fields2 (f0 : BitVec 6) (f1 : BitVec 3) (f2 : BitVec 2) (f3 : BitVec 5) (f4 : BitVec 5) (f5 : BitVec 11) (x : BitVec 32)
    (h : x = f0 ++ f1 ++ f2 ++ f3 ++ f4 ++ f5) :
    fld x 26 6 = f0 ∧ fld x 23 3 = f1 ∧ fld x 21 2 = f2 ∧ fld x 16 5 = f3 ∧ fld x 11 5 = f4 ∧ fld x 0 11 = f5 := by
  subst h
  refine ⟨?_, ?_, ?_, ?_, ?_, ?_⟩ <;> unfold fld <;>
    (repeat first
      | exact extract_all _
      | (refine (extract_append_lo _ _ _ _ (by omega)).trans ?_)
      | (refine (extract_append_hi _ _ _ _ (by omega)).trans ?_))

theorem fields3 (f0 : BitVec 6) (f1 : BitVec 3) (f2 : BitVec 2) (f3 : BitVec 5) (f4 : BitVec 5) (f5 : BitVec 6) (f6 : BitVec 5) (x : BitVec 32)
    (h : x = f0 ++ f1 ++ f2 ++ f3 ++ f4 ++ f5 ++ f6) :
    fld x 26 6 = f0 ∧ fld x 23 3 = f1 ∧ fld x 21 2 = f2 ∧ fld x 16 5 = f3 ∧ fld x 11 5 = f4 ∧ fld x 5 6 = f5 ∧ fld x 0 5 = f6 := by
  subst h
  refine ⟨?_, ?_, ?_, ?_, ?_, ?_, ?_⟩ <;> unfold fld <;>
    (repeat first
      | exact extract_all _
      | (refine (extract_append_lo _ _ _ _ (by omega)).trans ?_)
      | (refine (extract_append_hi _ _ _ _ (by omega)).trans ?_))

theorem fields4 (f0 : BitVec 6) (f1 : BitVec 3) (f2 : BitVec 2) (f3 : BitVec 5) (f4 : BitVec 16) (x : BitVec 32)
    (h : x = f0 ++ f1 ++ f2 ++ f3 ++ f4) :
    fld x 26 6 = f0 ∧ fld x 23 3 = f1 ∧ fld x 21 2 = f2 ∧ fld x 16 5 = f3 ∧ fld x 0 16 = f4 := by
  subst h
  refine ⟨?_, ?_, ?_, ?_, ?_⟩ <;> unfold fld <;>
    (repeat first
      | exact extract_all _
      | (refine (extract_append_lo _ _ _ _ (by omega)).trans ?_)
      | (refine (extract_append_hi _ _ _ _ (by omega)).trans ?_))

theorem fields5 (f0 : BitVec 6) (f1 : BitVec 3) (f2 : BitVec 3) (f3 : BitVec 5) (f4 : BitVec 15) (x : BitVec 32)
    (h : x = f0 ++ f1 ++ f2 ++ f3 ++ f4) :
    fld x 26 6 = f0 ∧ fld x 23 3 = f1 ∧ fld x 20 3 = f2 ∧ fld x 15 5 = f3 ∧ fld x 0 15 = f4 := by
  subst h
  refine ⟨?_, ?_, ?_, ?_, ?_⟩ <;> unfold fld <;>
    (repeat first
      | exact extract_all _
      | (refine (extract_append_lo _ _ _ _ (by omega)).trans ?_)
      | (refine (extract_append_hi _ _ _ _ (by omega)).trans ?_))

theorem fields6 (f0 : BitVec 6) (f1 : BitVec 3) (f2 : BitVec 23) (x : BitVec 32)
    (h : x = f0 ++ f1 ++ f2) :
    fld x 26 6 = f0 ∧ fld x 23 3 = f1 ∧ fld x 0 23 = f2 := by
  subst h
  refine ⟨?_, ?_, ?_⟩ <;> unfold fld <;>
    (repeat first
      | exact extract_all _
      | (refine (extract_append_lo _ _ _ _ (by omega)).trans ?_)
      | (refine (extract_append_hi _ _ _ _ (by omega)).trans ?_))

theorem fields7 (f0 : BitVec 6) (f1 : BitVec 3) (f2 : BitVec 7) (f3 : BitVec 5) (f4 : BitVec 11) (x : BitVec 32)
    (h : x = f0 ++ f1 ++ f2 ++ f3 ++ f4) :
    fld x 26 6 = f0 ∧ fld x 23 3 = f1 ∧ fld x 16 7 = f2 ∧ fld x 11 5 = f3 ∧ fld x 0 11 = f4 := by
  subst h
  refine ⟨?_, ?_, ?_, ?_, ?_⟩ <;> unfold fld <;>
    (repeat first
      | exact extract_all _
      | (refine (extract_append_lo _ _ _ _ (by omega)).trans ?_)
      | (refine (extract_append_hi _ _ _ _ (by omega)).trans ?_))

theorem fields8 (f0 : BitVec 6) (f1 : BitVec 3) (f2 : BitVec 2) (f3 : BitVec 5) (f4 : BitVec 5) (f5 : BitVec 3) (f6 : BitVec 8) (x : BitVec 32)
    (h : x = f0 ++ f1 ++ f2 ++ f3 ++ f4 ++ f5 ++ f6) :
    fld x 26 6 = f0 ∧ fld x 23 3 = f1 ∧ fld x 21 2 = f2 ∧ fld x 16 5 = f3 ∧ fld x 11 5 = f4 ∧ fld x 8 3 = f5 ∧ fld x 0 8 = f6 := by
  subst h
  refine ⟨?_, ?_, ?_, ?_, ?_, ?_, ?_⟩ <;> unfold fld <;>
    (repeat first
      | exact extract_all _
      | (refine (extract_append_lo _ _ _ _ (by omega)).trans ?_)
      | (refine (extract_append_hi _ _ _ _ (by omega)).trans ?_))

theorem fields9 (f0 : BitVec 6) (f1 : BitVec 3) (f2 : BitVec 2) (f3 : BitVec 5) (f4 : BitVec 5) (f5 : BitVec 1) (f6 : BitVec 2) (f7 : BitVec 8) (x : BitVec 32)
    (h : x = f0 ++ f1 ++ f2 ++ f3 ++ f4 ++ f5 ++ f6 ++ f7) :
    fld x 26 6 = f0 ∧ fld x 23 3 = f1 ∧ fld x 21 2 = f2 ∧ fld x 16 5 = f3 ∧ fld x 11 5 = f4 ∧ fld x 10 1 = f5 ∧ fld x 8 2 = f6 ∧ fld x 0 8 = f7 := by
  subst h
  refine ⟨?_, ?_, ?_, ?_, ?_, ?_, ?_, ?_⟩ <;> unfold fld <;>
    (repeat first
      | exact extract_all _
      | (refine (extract_append_lo _ _ _ _ (by omega)).trans ?_)
      | (refine (extract_append_hi _ _ _ _ (by omega)).trans ?_))

theorem fields10 (f0 : BitVec 6) (f1 : BitVec 3) (f2 : BitVec 2) (f3 : BitVec 5) (f4 : BitVec 5) (f5 : BitVec 1) (f6 : BitVec 1) (f7 : BitVec 1) (f8 : BitVec 8) (x : BitVec 32)
    (h : x = f0 ++ f1 ++ f2 ++ f3 ++ f4 ++ f5 ++ f6 ++ f7 ++ f8) :
    fld x 26 6 = f0 ∧ fld x 23 3 = f1 ∧ fld x 21 2 = f2 ∧ fld x 16 5 = f3 ∧ fld x 11 5 = f4 ∧ fld x 10 1 = f5 ∧ fld x 9 1 = f6 ∧ fld x 8 1 = f7 ∧ fld x 0 8 = f8 := by
  subst h
  refine ⟨?_, ?_, ?_, ?_, ?_, ?_, ?_, ?_, ?_⟩ <;> unfold fld <;>
    (repeat first
      | exact extract_all _
      | (refine (extract_append_lo _ _ _ _ (by omega)).trans ?_)
      | (refine (extract_append_hi _ _ _ _ (by omega)).trans ?_))

theorem fields11 (f0 : BitVec 6) (f1 : BitVec 3) (f2 : BitVec 7) (f3 : BitVec 5) (f4 : BitVec 1) (f5 : BitVec 2) (f6 : BitVec 8) (x : BitVec 32)
    (h : x = f0 ++ f1 ++ f2 ++ f3 ++ f4 ++ f5 ++ f6) :
    fld x 26 6 = f0 ∧ fld x 23 3 = f1 ∧ fld x 16 7 = f2 ∧ fld x 11 5 = f3 ∧ fld x 10 1 = f4 ∧ fld x 8 2 = f5 ∧ fld x 0 8 = f6 := by
  subst h
  refine ⟨?_, ?_, ?_, ?_, ?_, ?_, ?_⟩ <;> unfold fld <;>
    (repeat first
      | exact extract_all _
      | (refine (extract_append_lo _ _ _ _ (by omega)).trans ?_)
      | (refine (extract_append_hi _ _ _ _ (by omega)).trans ?_))

theorem fields12 (f0 : BitVec 6) (f1 : BitVec 3) (f2 : BitVec 2) (f3 : BitVec 5) (f4 : BitVec 5) (f5 : BitVec 5) (f6 : BitVec 2) (f7 : BitVec 4) (x : BitVec 32)
    (h : x = f0 ++ f1 ++ f2 ++ f3 ++ f4 ++ f5 ++ f6 ++ f7) :
    fld x 26 6 = f0 ∧ fld x 23 3 = f1 ∧ fld x 21 2 = f2 ∧ fld x 16 5 = f3 ∧ fld x 11 5 = f4 ∧ fld x 6 5 = f5 ∧ fld x 4 2 = f6 ∧ fld x 0 4 = f7 := by
  subst h
  refine ⟨?_, ?_, ?_, ?_, ?_, ?_, ?_, ?_⟩ <;> unfold fld <;>
    (repeat first
      | exact extract_all _
      | (refine (extract_append_lo _ _ _ _ (by omega)).trans ?_)
      | (refine (extract_append_hi _ _ _ _ (by omega)).trans ?_))

theorem fields13 (f0 : BitVec 6) (f1 : BitVec 3) (f2 : BitVec 7) (f3 : BitVec 5) (f4 : BitVec 5) (f5 : BitVec 3) (f6 : BitVec 3) (x : BitVec 32)
    (h : x = f0 ++ f1 ++ f2 ++ f3 ++ f4 ++ f5 ++ f6) :
    fld x 26 6 = f0 ∧ fld x 23 3 = f1 ∧ fld x 16 7 = f2 ∧ fld x 11 5 = f3 ∧ fld x 6 5 = f4 ∧ fld x 3 3 = f5 ∧ fld x 0 3 = f6 := by
  subst h
  refine ⟨?_, ?_, ?_, ?_, ?_, ?_, ?_⟩ <;> unfold fld <;>
    (repeat first
      | exact extract_all _
      | (refine (extract_append_lo _ _ _ _ (by omega)).trans ?_)
      | (refine (extract_append_hi _ _ _ _ (by omega)).trans ?_))

theorem fields14 (f0 : BitVec 6) (f1 : BitVec 3) (f2 : BitVec 2) (f3 : BitVec 5) (f4 : BitVec 5) (f5 : BitVec 5) (f6 : BitVec 5) (f7 : BitVec 1) (x : BitVec 32)
    (h : x = f0 ++ f1 ++ f2 ++ f3 ++ f4 ++ f5 ++ f6 ++ f7) :
    fld x 26 6 = f0 ∧ fld x 23 3 = f1 ∧ fld x 21 2 = f2 ∧ fld x 16 5 = f3 ∧ fld x 11 5 = f4 ∧ fld x 6 5 = f5 ∧ fld x 1 5 = f6 ∧ fld x 0 1 = f7 := by
  subst h
  refine ⟨?_, ?_, ?_, ?_, ?_, ?_, ?_, ?_⟩ <;> unfold fld <;>
    (repeat first
      | exact extract_all _
      | (refine (extract_append_lo _ _ _ _ (by omega)).trans ?_)
      | (refine (extract_append_hi _ _ _ _ (by omega)).trans ?_))

theorem fields15 (f0 : BitVec 6) (f1 : BitVec 3) (f2 : BitVec 2) (f3 : BitVec 5) (f4 : BitVec 5) (f5 : BitVec 5) (f6 : BitVec 1) (f7 : BitVec 5) (x : BitVec 32)
    (h : x = f0 ++ f1 ++ f2 ++ f3 ++ f4 ++ f5 ++ f6 ++ f7) :
    fld x 26 6 = f0 ∧ fld x 23 3 = f1 ∧ fld x 21 2 = f2 ∧ fld x 16 5 = f3 ∧ fld x 11 5 = f4 ∧ fld x 6 5 = f5 ∧ fld x 5 1 = f6 ∧ fld x 0 5 = f7 := by
  subst h
  refine ⟨?_, ?_, ?_, ?_, ?_, ?_, ?_, ?_⟩ <;> unfold fld <;>
    (repeat first
      | exact extract_all _
      | (refine (extract_append_lo _ _ _ _ (by omega)).trans ?_)
      | (refine (extract_append_hi _ _ _ _ (by omega)).trans ?_))

theorem fields16 (f0 : BitVec 6) (f1 : BitVec 3) (f2 : BitVec 2) (f3 : BitVec 5) (f4 : BitVec 5) (f5 : BitVec 5) (f6 : BitVec 1) (f7 : BitVec 1) (f8 : BitVec 4) (x : BitVec 32)
    (h : x = f0 ++ f1 ++ f2 ++ f3 ++ f4 ++ f5 ++ f6 ++ f7 ++ f8) :
    fld x 26 6 = f0 ∧ fld x 23 3 = f1 ∧ fld x 21 2 = f2 ∧ fld x 16 5 = f3 ∧ fld x 11 5 = f4 ∧ fld x 6 5 = f5 ∧ fld x 5 1 = f6 ∧ fld x 4 1 = f7 ∧ fld x 0 4 = f8 := by
  subst h
  refine ⟨?_, ?_, ?_, ?_, ?_, ?_, ?_, ?_, ?_⟩ <;> unfold fld <;>
    (repeat first
      | exact extract_all _
      | (refine (extract_append_lo _ _ _ _ (by omega)).trans ?_)
      | (refine (extract_append_hi _ _ _ _ (by omega)).trans ?_))

theorem fields17 (f0 : BitVec 6) (f1 : BitVec 3) (f2 : BitVec 5) (f3 : BitVec 5) (f4 : BitVec 8) (f5 : BitVec 3) (f6 : BitVec 1) (f7 : BitVec 1) (x : BitVec 32)
    (h : x = f0 ++ f1 ++ f2 ++ f3 ++ f4 ++ f5 ++ f6 ++ f7) :
    fld x 26 6 = f0 ∧ fld x 23 3 = f1 ∧ fld x 18 5 = f2 ∧ fld x 13 5 = f3 ∧ fld x 5 8 = f4 ∧ fld x 2 3 = f5 ∧ fld x 1 1 = f6 ∧ fld x 0 1 = f7 := by
  subst h
  refine ⟨?_, ?_, ?_, ?_, ?_, ?_, ?_, ?_⟩ <;> unfold fld <;>
    (repeat first
      | exact extract_all _
      | (refine (extract_append_lo _ _ _ _ (by omega)).trans ?_)
      | (refine (extract_append_hi _ _ _ _ (by omega)).trans ?_))

theorem fields18 (f0 : BitVec 6) (f1 : BitVec 13) (f2 : BitVec 8) (f3 : BitVec 5) (x : BitVec 32)
    (h : x = f0 ++ f1 ++ f2 ++ f3) :
    fld x 26 6 = f0 ∧ fld x 13 13 = f1 ∧ fld x 5 8 = f2 ∧ fld x 0 5 = f3 := by
  subst h
  refine ⟨?_, ?_, ?_, ?_⟩ <;> unfold fld <;>
    (repeat first
      | exact extract_all _
      | (refine (extract_append_lo _ _ _ _ (by omega)).trans ?_)
      | (refine (extract_append_hi _ _ _ _ (by omega)).trans ?_))

theorem fields19 (f0 : BitVec 6) (f1 : BitVec 4) (f2 : BitVec 4) (f3 : BitVec 4) (f4 : BitVec 14) (x : BitVec 32)
    (h : x = f0 ++ f1 ++ f2 ++ f3 ++ f4) :
    fld x 26 6 = f0 ∧ fld x 22 4 = f1 ∧ fld x 18 4 = f2 ∧ fld x 14 4 = f3 ∧ fld x 0 14 = f4 := by
  subst h
  refine ⟨?_, ?_, ?_, ?_, ?_⟩ <;> unfold fld <;>
    (repeat first
      | exact extract_all _
      | (refine (extract_append_lo _ _ _ _ (by omega)).trans ?_)
      | (refine (extract_append_hi _ _ _ _ (by omega)).trans ?_))

theorem fields20 (f0 : BitVec 6) (f1 : BitVec 4) (f2 : BitVec 8) (f3 : BitVec 14) (x : BitVec 32)
    (h : x = f0 ++ f1 ++ f2 ++ f3) :
    fld x 26 6 = f0 ∧ fld x 22 4 = f1 ∧ fld x 14 8 = f2 ∧ fld x 0 14 = f3 := by
  subst h
  refine ⟨?_, ?_, ?_, ?_⟩ <;> unfold fld <;>
    (repeat first
      | exact extract_all _
      | (refine (extract_append_lo _ _ _ _ (by omega)).trans ?_)
      | (refine (extract_append_hi _ _ _ _ (by omega)).trans ?_))

theorem fields21 (f0 : BitVec 6) (f1 : BitVec 12) (f2 : BitVec 14) (x : BitVec 32)
    (h : x = f0 ++ f1 ++ f2) :
    fld x 26 6 = f0 ∧ fld x 14 12 = f1 ∧ fld x 0 14 = f2 := by
  subst h
  refine ⟨?_, ?_, ?_⟩ <;> unfold fld <;>
    (repeat first
      | exact extract_all _
      | (refine (extract_append_lo _ _ _ _ (by omega)).trans ?_)
      | (refine (extract_append_hi _ _ _ _ (by omega)).trans ?_))

theorem fields22 (f0 : BitVec 6) (f1 : BitVec 4) (f2 : BitVec 4) (f3 : BitVec 13) (f4 : BitVec 5) (x : BitVec 32)
    (h : x = f0 ++ f1 ++ f2 ++ f3 ++ f4) :
    fld x 26 6 = f0 ∧ fld x 22 4 = f1 ∧ fld x 18 4 = f2 ∧ fld x 5 13 = f3 ∧ fld x 0 5 = f4 := by
  subst h
  refine ⟨?_, ?_, ?_, ?_, ?_⟩ <;> unfold fld <;>
    (repeat first
      | exact extract_all _
      | (refine (extract_append_lo _ _ _ _ (by omega)).trans ?_)
      | (refine (extract_append_hi _ _ _ _ (by omega)).trans ?_))

theorem fields23 (f0 : BitVec 6) (f1 : BitVec 4) (f2 : BitVec 22) (x : BitVec 32)
    (h : x = f0 ++ f1 ++ f2) :
    fld x 26 6 = f0 ∧ fld x 22 4 = f1 ∧ fld x 0 22 = f2 := by
  subst h
  refine ⟨?_, ?_, ?_⟩ <;> unfold fld <;>
    (repeat first
      | exact extract_all _
      | (refine (extract_append_lo _ _ _ _ (by omega)).trans ?_)
      | (refine (extract_append_hi _ _ _ _ (by omega)).trans ?_))

theorem fields24 (f0 : BitVec 6) (f1 : BitVec 4) (f2 : BitVec 4) (f3 : BitVec 18) (x : BitVec 32)
    (h : x = f0 ++ f1 ++ f2 ++ f3) :
    fld x 26 6 = f0 ∧ fld x 22 4 = f1 ∧ fld x 18 4 = f2 ∧ fld x 0 18 = f3 := by
  subst h
  refine ⟨?_, ?_, ?_, ?_⟩ <;> unfold fld <;>
    (repeat first
      | exact extract_all _
      | (refine (extract_append_lo _ _ _ _ (by omega)).trans ?_)
      | (refine (extract_append_hi _ _ _ _ (by omega)).trans ?_))

theorem fields25 (f0 : BitVec 6) (f1 : BitVec 4) (f2 : BitVec 4) (f3 : BitVec 4) (f4 : BitVec 10) (f5 : BitVec 3) (f6 : BitVec 1) (x : BitVec 32)
    (h : x = f0 ++ f1 ++ f2 ++ f3 ++ f4 ++ f5 ++ f6) :
    fld x 26 6 = f0 ∧ fld x 22 4 = f1 ∧ fld x 18 4 = f2 ∧ fld x 14 4 = f3 ∧ fld x 4 10 = f4 ∧ fld x 1 3 = f5 ∧ fld x 0 1 = f6 := by
  subst h
  refine ⟨?_, ?_, ?_, ?_, ?_, ?_, ?_⟩ <;> unfold fld <;>
    (repeat first
      | exact extract_all _
      | (refine (extract_append_lo _ _ _ _ (by omega)).trans ?_)
      | (refine (extract_append_hi _ _ _ _ (by omega)).trans ?_))

theorem fields26 (f0 : BitVec 6) (f1 : BitVec 4) (f2 : BitVec 4) (f3 : BitVec 4) (f4 : BitVec 3) (f5 : BitVec 3) (f6 : BitVec 2) (f7 : BitVec 1) (f8 : BitVec 3) (f9 : BitVec 2) (x : BitVec 32)
    (h : x = f0 ++ f1 ++ f2 ++ f3 ++ f4 ++ f5 ++ f6 ++ f7 ++ f8 ++ f9) :
    fld x 26 6 = f0 ∧ fld x 22 4 = f1 ∧ fld x 18 4 = f2 ∧ fld x 14 4 = f3 ∧ fld x 11 3 = f4 ∧ fld x 8 3 = f5 ∧ fld x 6 2 = f6 ∧ fld x 5 1 = f7 ∧ fld x 2 3 = f8 ∧ fld x 0 2 = f9 := by
  subst h
  refine ⟨?_, ?_, ?_, ?_, ?_, ?_, ?_, ?_, ?_, ?_⟩ <;> unfold fld <;>
    (repeat first
      | exact extract_all _
      | (refine (extract_append_lo _ _ _ _ (by omega)).trans ?_)
      | (refine (extract_append_hi _ _ _ _ (by omega)).trans ?_))

theorem fields27 (f0 : BitVec 6) (f1 : BitVec 4) (f2 : BitVec 4) (f3 : BitVec 17) (f4 : BitVec 1) (x : BitVec 32)
    (h : x = f0 ++ f1 ++ f2 ++ f3 ++ f4) :
    fld x 26 6 = f0 ∧ fld x 22 4 = f1 ∧ fld x 18 4 = f2 ∧ fld x 1 17 = f3 ∧ fld x 0 1 = f4 := by
  subst h
  refine ⟨?_, ?_, ?_, ?_, ?_⟩ <;> unfold fld <;>
    (repeat first
      | exact extract_all _
      | (refine (extract_append_lo _ _ _ _ (by omega)).trans ?_)
      | (refine (extract_append_hi _ _ _ _ (by omega)).trans ?_))

theorem fields28 (f0 : BitVec 6) (f1 : BitVec 4) (f2 : BitVec 4) (f3 : BitVec 13) (f4 : BitVec 1) (f5 : BitVec 3) (f6 : BitVec 1) (x : BitVec 32)
    (h : x = f0 ++ f1 ++ f2 ++ f3 ++ f4 ++ f5 ++ f6) :
    fld x 26 6 = f0 ∧ fld x 22 4 = f1 ∧ fld x 18 4 = f2 ∧ fld x 5 13 = f3 ∧ fld x 4 1 = f4 ∧ fld x 1 3 = f5 ∧ fld x 0 1 = f6 := by
  subst h
  refine ⟨?_, ?_, ?_, ?_, ?_, ?_, ?_⟩ <;> unfold fld <;>
    (repeat first
      | exact extract_all _
      | (refine (extract_append_lo _ _ _ _ (by omega)).trans ?_)
      | (refine (extract_append_hi _ _ _ _ (by omega)).trans ?_))

theorem fields29 (f0 : BitVec 6) (f1 : BitVec 4) (f2 : BitVec 4) (f3 : BitVec 9) (f4 : BitVec 1) (f5 : BitVec 8) (x : BitVec 32)
    (h : x = f0 ++ f1 ++ f2 ++ f3 ++ f4 ++ f5) :
    fld x 26 6 = f0 ∧ fld x 22 4 = f1 ∧ fld x 18 4 = f2 ∧ fld x 9 9 = f3 ∧ fld x 8 1 = f4 ∧ fld x 0 8 = f5 := by
  subst h
  refine ⟨?_, ?_, ?_, ?_, ?_, ?_⟩ <;> unfold fld <;>
    (repeat first
      | exact extract_all _
      | (refine (extract_append_lo _ _ _ _ (by omega)).trans ?_)
      | (refine (extract_append_hi _ _ _ _ (by omega)).trans ?_))

theorem fields30 (f0 : BitVec 6) (f1 : BitVec 4) (f2 : BitVec 2) (f3 : BitVec 2) (f4 : BitVec 4) (f5 : BitVec 3) (f6 : BitVec 3) (f7 : BitVec 8) (x : BitVec 32)
    (h : x = f0 ++ f1 ++ f2 ++ f3 ++ f4 ++ f5 ++ f6 ++ f7) :
    fld x 26 6 = f0 ∧ fld x 22 4 = f1 ∧ fld x 20 2 = f2 ∧ fld x 18 2 = f3 ∧ fld x 14 4 = f4 ∧ fld x 11 3 = f5 ∧ fld x 8 3 = f6 ∧ fld x 0 8 = f7 := by
  subst h
  refine ⟨?_, ?_, ?_, ?_, ?_, ?_, ?_, ?_⟩ <;> unfold fld <;>
    (repeat first
      | exact extract_all _
      | (refine (extract_append_lo _ _ _ _ (by omega)).trans ?_)
      | (refine (extract_append_hi _ _ _ _ (by omega)).trans ?_))

theorem fields31 (f0 : BitVec 6) (f1 : BitVec 4) (f2 : BitVec 14) (f3 : BitVec 8) (x : BitVec 32)
    (h : x = f0 ++ f1 ++ f2 ++ f3) :
    fld x 26 6 = f0 ∧ fld x 22 4 = f1 ∧ fld x 8 14 = f2 ∧ fld x 0 8 = f3 := by
  subst h
  refine ⟨?_, ?_, ?_, ?_⟩ <;> unfold fld <;>
    (repeat first
      | exact extract_all _
      | (refine (extract_append_lo _ _ _ _ (by omega)).trans ?_)
      | (refine (extract_append_hi _ _ _ _ (by omega)).trans ?_))

theorem fields32 (f0 : BitVec 6) (f1 : BitVec 16) (f2 : BitVec 10) (x : BitVec 32)
    (h : x = f0 ++ f1 ++ f2) :
    fld x 26 6 = f0 ∧ fld x 10 16 = f1 ∧ fld x 0 10 = f2 := by
  subst h
  refine ⟨?_, ?_, ?_⟩ <;> unfold fld <;>
    (repeat first
      | exact extract_all _
      | (refine (extract_append_lo _ _ _ _ (by omega)).trans ?_)
      | (refine (extract_append_hi _ _ _ _ (by omega)).trans ?_))

theorem fields33 (f0 : BitVec 6) (f1 : BitVec 26) (x : BitVec 32)
    (h : x = f0 ++ f1) :
    fld x 26 6 = f0 ∧ fld x 0 26 = f1 := by
  subst h
  refine ⟨?_, ?_⟩ <;> unfold fld <;>
    (repeat first
      | exact extract_all _
      | (refine (extract_append_lo _ _ _ _ (by omega)).trans ?_)
      | (refine (extract_append_hi _ _ _ _ (by omega)).trans ?_))

theorem rawM01 {x : BitVec 32} (h : fld x 26 6 = 0x01#6) : rawM x = decM01 x := by
  unfold rawM
  rw [h]
  rfl

theorem rawM02 {x : BitVec 32} (h : fld x 26 6 = 0x02#6) : rawM x = decM02 x := by
  unfold rawM
  rw [h]
  rfl

theorem rawM03 {x : BitVec 32} (h : fld x 26 6 = 0x03#6) : rawM x = decM03 x := by
  unfold rawM
  rw [h]
  rfl

theorem rawM04 {x : BitVec 32} (h : fld x 26 6 = 0x04#6) : rawM x = decM04 x := by
  unfold rawM
  rw [h]
  rfl

theorem rawM05 {x : BitVec 32} (h : fld x 26 6 = 0x05#6) : rawM x = decM05 x := by
  unfold rawM
  rw [h]
  rfl

theorem rawM06 {x : BitVec 32} (h : fld x 26 6 = 0x06#6) : rawM x = decM06 x := by
  unfold rawM
  rw [h]
  rfl

theorem rawM07 {x : BitVec 32} (h : fld x 26 6 = 0x07#6) : rawM x = decM07 x := by
  unfold rawM
  rw [h]
  rfl

theorem rawM08 {x : BitVec 32} (h : fld x 26 6 = 0x08#6) : rawM x = decM08 x := by
  unfold rawM
  rw [h]
  rfl

theorem rawM09 {x : BitVec 32} (h : fld x 26 6 = 0x09#6) : rawM x = decM09 x := by
  unfold rawM
  rw [h]
  rfl

theorem rawM0A {x : BitVec 32} (h : fld x 26 6 = 0x0A#6) : rawM x = decM0A x := by
  unfold rawM
  rw [h]
  rfl

theorem rawM0B {x : BitVec 32} (h : fld x 26 6 = 0x0B#6) : rawM x = decM0B x := by
  unfold rawM
  rw [h]
  rfl

theorem rawM0C {x : BitVec 32} (h : fld x 26 6 = 0x0C#6) : rawM x = decM0C x := by
  unfold rawM
  rw [h]
  rfl

theorem rawM0D {x : BitVec 32} (h : fld x 26 6 = 0x0D#6) : rawM x = decM0D x := by
  unfold rawM
  rw [h]
  rfl

theorem rawM0E {x : BitVec 32} (h : fld x 26 6 = 0x0E#6) : rawM x = decM0E x := by
  unfold rawM
  rw [h]
  rfl

theorem rawM0F {x : BitVec 32} (h : fld x 26 6 = 0x0F#6) : rawM x = decM0F x := by
  unfold rawM
  rw [h]
  rfl

theorem rawM10 {x : BitVec 32} (h : fld x 26 6 = 0x10#6) : rawM x = decM10 x := by
  unfold rawM
  rw [h]
  rfl

theorem rawM11 {x : BitVec 32} (h : fld x 26 6 = 0x11#6) : rawM x = decM11 x := by
  unfold rawM
  rw [h]
  rfl

theorem rawM12 {x : BitVec 32} (h : fld x 26 6 = 0x12#6) : rawM x = decM12 x := by
  unfold rawM
  rw [h]
  rfl

theorem rawM13 {x : BitVec 32} (h : fld x 26 6 = 0x13#6) : rawM x = decM13 x := by
  unfold rawM
  rw [h]
  rfl

theorem rawM14 {x : BitVec 32} (h : fld x 26 6 = 0x14#6) : rawM x = decM14 x := by
  unfold rawM
  rw [h]
  rfl

theorem rawM15 {x : BitVec 32} (h : fld x 26 6 = 0x15#6) : rawM x = decM15 x := by
  unfold rawM
  rw [h]
  rfl

theorem rawM16 {x : BitVec 32} (h : fld x 26 6 = 0x16#6) : rawM x = decM16 x := by
  unfold rawM
  rw [h]
  rfl

theorem rawM17 {x : BitVec 32} (h : fld x 26 6 = 0x17#6) : rawM x = decM17 x := by
  unfold rawM
  rw [h]
  rfl

theorem rawM18 {x : BitVec 32} (h : fld x 26 6 = 0x18#6) : rawM x = decM18 x := by
  unfold rawM
  rw [h]
  rfl

theorem rawM19 {x : BitVec 32} (h : fld x 26 6 = 0x19#6) : rawM x = decM19 x := by
  unfold rawM
  rw [h]
  rfl

theorem rawM1A {x : BitVec 32} (h : fld x 26 6 = 0x1A#6) : rawM x = decM1A x := by
  unfold rawM
  rw [h]
  rfl

theorem rawM1B {x : BitVec 32} (h : fld x 26 6 = 0x1B#6) : rawM x = decM1B x := by
  unfold rawM
  rw [h]
  rfl

theorem rawM1C {x : BitVec 32} (h : fld x 26 6 = 0x1C#6) : rawM x = decM1C x := by
  unfold rawM
  rw [h]
  rfl

theorem rawM1D {x : BitVec 32} (h : fld x 26 6 = 0x1D#6) : rawM x = decM1D x := by
  unfold rawM
  rw [h]
  rfl

theorem rawM1E {x : BitVec 32} (h : fld x 26 6 = 0x1E#6) : rawM x = decM1E x := by
  unfold rawM
  rw [h]
  rfl

theorem rawM1F {x : BitVec 32} (h : fld x 26 6 = 0x1F#6) : rawM x = decM1F x := by
  unfold rawM
  rw [h]
  rfl

theorem rawM20 {x : BitVec 32} (h : fld x 26 6 = 0x20#6) : rawM x = decM20 x := by
  unfold rawM
  rw [h]
  rfl

theorem rawM21 {x : BitVec 32} (h : fld x 26 6 = 0x21#6) : rawM x = decM21 x := by
  unfold rawM
  rw [h]
  rfl

theorem rawM22 {x : BitVec 32} (h : fld x 26 6 = 0x22#6) : rawM x = decM22 x := by
  unfold rawM
  rw [h]
  rfl

theorem rawM23 {x : BitVec 32} (h : fld x 26 6 = 0x23#6) : rawM x = decM23 x := by
  unfold rawM
  rw [h]
  rfl

theorem rawM24 {x : BitVec 32} (h : fld x 26 6 = 0x24#6) : rawM x = decM24 x := by
  unfold rawM
  rw [h]
  rfl

theorem rawM25 {x : BitVec 32} (h : fld x 26 6 = 0x25#6) : rawM x = decM25 x := by
  unfold rawM
  rw [h]
  rfl

theorem rawM26 {x : BitVec 32} (h : fld x 26 6 = 0x26#6) : rawM x = decM26 x := by
  unfold rawM
  rw [h]
  rfl

theorem rawM27 {x : BitVec 32} (h : fld x 26 6 = 0x27#6) : rawM x = decM27 x := by
  unfold rawM
  rw [h]
  rfl

theorem rawM28 {x : BitVec 32} (h : fld x 26 6 = 0x28#6) : rawM x = decM28 x := by
  unfold rawM
  rw [h]
  rfl

theorem rawM29 {x : BitVec 32} (h : fld x 26 6 = 0x29#6) : rawM x = decM29 x := by
  unfold rawM
  rw [h]
  rfl

theorem rawM2A {x : BitVec 32} (h : fld x 26 6 = 0x2A#6) : rawM x = decM2A x := by
  unfold rawM
  rw [h]
  rfl

theorem rawM2B {x : BitVec 32} (h : fld x 26 6 = 0x2B#6) : rawM x = decM2B x := by
  unfold rawM
  rw [h]
  rfl

theorem rawM2C {x : BitVec 32} (h : fld x 26 6 = 0x2C#6) : rawM x = decM2C x := by
  unfold rawM
  rw [h]
  rfl

theorem rawM2D {x : BitVec 32} (h : fld x 26 6 = 0x2D#6) : rawM x = decM2D x := by
  unfold rawM
  rw [h]
  rfl

theorem rawM2E {x : BitVec 32} (h : fld x 26 6 = 0x2E#6) : rawM x = decM2E x := by
  unfold rawM
  rw [h]
  rfl

theorem rawM2F {x : BitVec 32} (h : fld x 26 6 = 0x2F#6) : rawM x = decM2F x := by
  unfold rawM
  rw [h]
  rfl

theorem rawS01 {x : BitVec 32} (h : fld x 26 6 = 0x01#6) : rawS x = decS01 x := by
  unfold rawS
  rw [h]
  rfl

theorem rawS02 {x : BitVec 32} (h : fld x 26 6 = 0x02#6) : rawS x = decS02 x := by
  unfold rawS
  rw [h]
  rfl

theorem rawS03 {x : BitVec 32} (h : fld x 26 6 = 0x03#6) : rawS x = decS03 x := by
  unfold rawS
  rw [h]
  rfl

theorem rawS04 {x : BitVec 32} (h : fld x 26 6 = 0x04#6) : rawS x = decS04 x := by
  unfold rawS
  rw [h]
  rfl

theorem rawS05 {x : BitVec 32} (h : fld x 26 6 = 0x05#6) : rawS x = decS05 x := by
  unfold rawS
  rw [h]
  rfl

theorem rawS06 {x : BitVec 32} (h : fld x 26 6 = 0x06#6) : rawS x = decS06 x := by
  unfold rawS
  rw [h]
  rfl

theorem rawS07 {x : BitVec 32} (h : fld x 26 6 = 0x07#6) : rawS x = decS07 x := by
  unfold rawS
  rw [h]
  rfl

theorem rawS08 {x : BitVec 32} (h : fld x 26 6 = 0x08#6) : rawS x = decS08 x := by
  unfold rawS
  rw [h]
  rfl

theorem rawS09 {x : BitVec 32} (h : fld x 26 6 = 0x09#6) : rawS x = decS09 x := by
  unfold rawS
  rw [h]
  rfl

theorem rawS0A {x : BitVec 32} (h : fld x 26 6 = 0x0A#6) : rawS x = decS0A x := by
  unfold rawS
  rw [h]
  rfl

theorem rawS0B {x : BitVec 32} (h : fld x 26 6 = 0x0B#6) : rawS x = decS0B x := by
  unfold rawS
  rw [h]
  rfl

theorem rawS0C {x : BitVec 32} (h : fld x 26 6 = 0x0C#6) : rawS x = decS0C x := by
  unfold rawS
  rw [h]
  rfl

theorem rawS0D {x : BitVec 32} (h : fld x 26 6 = 0x0D#6) : rawS x = decS0D x := by
  unfold rawS
  rw [h]
  rfl

theorem rawS0E {x : BitVec 32} (h : fld x 26 6 = 0x0E#6) : rawS x = decS0E x := by
  unfold rawS
  rw [h]
  rfl

theorem rawS0F {x : BitVec 32} (h : fld x 26 6 = 0x0F#6) : rawS x = decS0F x := by
  unfold rawS
  rw [h]
  rfl

theorem rawS10 {x : BitVec 32} (h : fld x 26 6 = 0x10#6) : rawS x = decS10 x := by
  unfold rawS
  rw [h]
  rfl

theorem rawS11 {x : BitVec 32} (h : fld x 26 6 = 0x11#6) : rawS x = decS11 x := by
  unfold rawS
  rw [h]
  rfl

theorem rawS12 {x : BitVec 32} (h : fld x 26 6 = 0x12#6) : rawS x = decS12 x := by
  unfold rawS
  rw [h]
  rfl

theorem rawS13 {x : BitVec 32} (h : fld x 26 6 = 0x13#6) : rawS x = decS13 x := by
  unfold rawS
  rw [h]
  rfl

theorem rawS14 {x : BitVec 32} (h : fld x 26 6 = 0x14#6) : rawS x = decS14 x := by
  unfold rawS
  rw [h]
  rfl

theorem rawS15 {x : BitVec 32} (h : fld x 26 6 = 0x15#6) : rawS x = decS15 x := by
  unfold rawS
  rw [h]
  rfl

theorem rawS16 {x : BitVec 32} (h : fld x 26 6 = 0x16#6) : rawS x = decS16 x := by
  unfold rawS
  rw [h]
  rfl

theorem rawS17 {x : BitVec 32} (h : fld x 26 6 = 0x17#6) : rawS x = decS17 x := by
  unfold rawS
  rw [h]
  rfl

theorem rawS18 {x : BitVec 32} (h : fld x 26 6 = 0x18#6) : rawS x = decS18 x := by
  unfold rawS
  rw [h]
  rfl

theorem rawS19 {x : BitVec 32} (h : fld x 26 6 = 0x19#6) : rawS x = decS19 x := by
  unfold rawS
  rw [h]
  rfl

theorem rawS1A {x : BitVec 32} (h : fld x 26 6 = 0x1A#6) : rawS x = decS1A x := by
  unfold rawS
  rw [h]
  rfl

theorem rawS1B {x : BitVec 32} (h : fld x 26 6 = 0x1B#6) : rawS x = decS1B x := by
  unfold rawS
  rw [h]
  rfl

theorem rawS1C {x : BitVec 32} (h : fld x 26 6 = 0x1C#6) : rawS x = decS1C x := by
  unfold rawS
  rw [h]
  rfl

theorem rawS1D {x : BitVec 32} (h : fld x 26 6 = 0x1D#6) : rawS x = decS1D x := by
  unfold rawS
  rw [h]
  rfl

theorem rawS1E {x : BitVec 32} (h : fld x 26 6 = 0x1E#6) : rawS x = decS1E x := by
  unfold rawS
  rw [h]
  rfl

theorem rawS1F {x : BitVec 32} (h : fld x 26 6 = 0x1F#6) : rawS x = decS1F x := by
  unfold rawS
  rw [h]
  rfl

theorem rawS20 {x : BitVec 32} (h : fld x 26 6 = 0x20#6) : rawS x = decS20 x := by
  unfold rawS
  rw [h]
  rfl

theorem rawS21 {x : BitVec 32} (h : fld x 26 6 = 0x21#6) : rawS x = decS21 x := by
  unfold rawS
  rw [h]
  rfl

theorem rawS22 {x : BitVec 32} (h : fld x 26 6 = 0x22#6) : rawS x = decS22 x := by
  unfold rawS
  rw [h]
  rfl

theorem rawS23 {x : BitVec 32} (h : fld x 26 6 = 0x23#6) : rawS x = decS23 x := by
  unfold rawS
  rw [h]
  rfl

theorem rawS24 {x : BitVec 32} (h : fld x 26 6 = 0x24#6) : rawS x = decS24 x := by
  unfold rawS
  rw [h]
  rfl

theorem rawS25 {x : BitVec 32} (h : fld x 26 6 = 0x25#6) : rawS x = decS25 x := by
  unfold rawS
  rw [h]
  rfl

theorem rawS26 {x : BitVec 32} (h : fld x 26 6 = 0x26#6) : rawS x = decS26 x := by
  unfold rawS
  rw [h]
  rfl

theorem rawS27 {x : BitVec 32} (h : fld x 26 6 = 0x27#6) : rawS x = decS27 x := by
  unfold rawS
  rw [h]
  rfl

theorem rawS28 {x : BitVec 32} (h : fld x 26 6 = 0x28#6) : rawS x = decS28 x := by
  unfold rawS
  rw [h]
  rfl

theorem rawS29 {x : BitVec 32} (h : fld x 26 6 = 0x29#6) : rawS x = decS29 x := by
  unfold rawS
  rw [h]
  rfl

theorem rawS2A {x : BitVec 32} (h : fld x 26 6 = 0x2A#6) : rawS x = decS2A x := by
  unfold rawS
  rw [h]
  rfl

theorem rawS2B {x : BitVec 32} (h : fld x 26 6 = 0x2B#6) : rawS x = decS2B x := by
  unfold rawS
  rw [h]
  rfl

theorem rawS2C {x : BitVec 32} (h : fld x 26 6 = 0x2C#6) : rawS x = decS2C x := by
  unfold rawS
  rw [h]
  rfl

theorem rawS2D {x : BitVec 32} (h : fld x 26 6 = 0x2D#6) : rawS x = decS2D x := by
  unfold rawS
  rw [h]
  rfl

theorem rawS2E {x : BitVec 32} (h : fld x 26 6 = 0x2E#6) : rawS x = decS2E x := by
  unfold rawS
  rw [h]
  rfl

theorem rawS2F {x : BitVec 32} (h : fld x 26 6 = 0x2F#6) : rawS x = decS2F x := by
  unfold rawS
  rw [h]
  rfl

theorem rawS30 {x : BitVec 32} (h : fld x 26 6 = 0x30#6) : rawS x = decS30 x := by
  unfold rawS
  rw [h]
  rfl

theorem rawS31 {x : BitVec 32} (h : fld x 26 6 = 0x31#6) : rawS x = decS31 x := by
  unfold rawS
  rw [h]
  rfl

theorem rawS32 {x : BitVec 32} (h : fld x 26 6 = 0x32#6) : rawS x = decS32 x := by
  unfold rawS
  rw [h]
  rfl

theorem rawS33 {x : BitVec 32} (h : fld x 26 6 = 0x33#6) : rawS x = decS33 x := by
  unfold rawS
  rw [h]
  rfl

theorem rawS34 {x : BitVec 32} (h : fld x 26 6 = 0x34#6) : rawS x = decS34 x := by
  unfold rawS
  rw [h]
  rfl

/-- The word of an instruction is read, by one of the two tables, as that instruction. -/
def Encodes.Statement (i : Instr) : Prop := ∀ word, encode i = some word → rawS word = some i ∨ rawM word = some i

theorem Encodes.add (s : BitVec 3) (w : BitVec 2) (d : BitVec 5) (a : BitVec 5) (b : BitVec 5) : Encodes.Statement (.add s w d a b) := by
  intro word hw
  obtain ⟨h0, h1, h2, h3, h4, h5, h6⟩ := fields1 0x1#6 s w d a b 0x0#6 word (Option.some.inj hw).symm
  exact .inl ((rawS01 h0).trans (by simp only [decS01, h1, h2, h3, h4, h5, h6]; rfl))
theorem Encodes.sub (s : BitVec 3) (w : BitVec 2) (d : BitVec 5) (a : BitVec 5) (b : BitVec 5) : Encodes.Statement (.sub s w d a b) := by
  intro word hw
  obtain ⟨h0, h1, h2, h3, h4, h5, h6⟩ := fields1 0x1#6 s w d a b 0x1#6 word (Option.some.inj hw).symm
  exact .inl ((rawS01 h0).trans (by simp only [decS01, h1, h2, h3, h4, h5, h6]; rfl))
theorem Encodes.and (s : BitVec 3) (w : BitVec 2) (d : BitVec 5) (a : BitVec 5) (b : BitVec 5) : Encodes.Statement (.and s w d a b) := by
  intro word hw
  obtain ⟨h0, h1, h2, h3, h4, h5, h6⟩ := fields1 0x1#6 s w d a b 0x2#6 word (Option.some.inj hw).symm
  exact .inl ((rawS01 h0).trans (by simp only [decS01, h1, h2, h3, h4, h5, h6]; rfl))
theorem Encodes.or (s : BitVec 3) (w : BitVec 2) (d : BitVec 5) (a : BitVec 5) (b : BitVec 5) : Encodes.Statement (.or s w d a b) := by
  intro word hw
  obtain ⟨h0, h1, h2, h3, h4, h5, h6⟩ := fields1 0x1#6 s w d a b 0x3#6 word (Option.some.inj hw).symm
  exact .inl ((rawS01 h0).trans (by simp only [decS01, h1, h2, h3, h4, h5, h6]; rfl))
theorem Encodes.xor (s : BitVec 3) (w : BitVec 2) (d : BitVec 5) (a : BitVec 5) (b : BitVec 5) : Encodes.Statement (.xor s w d a b) := by
  intro word hw
  obtain ⟨h0, h1, h2, h3, h4, h5, h6⟩ := fields1 0x1#6 s w d a b 0x4#6 word (Option.some.inj hw).symm
  exact .inl ((rawS01 h0).trans (by simp only [decS01, h1, h2, h3, h4, h5, h6]; rfl))
theorem Encodes.andn (s : BitVec 3) (w : BitVec 2) (d : BitVec 5) (a : BitVec 5) (b : BitVec 5) : Encodes.Statement (.andn s w d a b) := by
  intro word hw
  obtain ⟨h0, h1, h2, h3, h4, h5, h6⟩ := fields1 0x1#6 s w d a b 0x5#6 word (Option.some.inj hw).symm
  exact .inl ((rawS01 h0).trans (by simp only [decS01, h1, h2, h3, h4, h5, h6]; rfl))
theorem Encodes.orn (s : BitVec 3) (w : BitVec 2) (d : BitVec 5) (a : BitVec 5) (b : BitVec 5) : Encodes.Statement (.orn s w d a b) := by
  intro word hw
  obtain ⟨h0, h1, h2, h3, h4, h5, h6⟩ := fields1 0x1#6 s w d a b 0x6#6 word (Option.some.inj hw).symm
  exact .inl ((rawS01 h0).trans (by simp only [decS01, h1, h2, h3, h4, h5, h6]; rfl))
theorem Encodes.shl (s : BitVec 3) (w : BitVec 2) (d : BitVec 5) (a : BitVec 5) (b : BitVec 5) : Encodes.Statement (.shl s w d a b) := by
  intro word hw
  obtain ⟨h0, h1, h2, h3, h4, h5, h6⟩ := fields1 0x1#6 s w d a b 0x7#6 word (Option.some.inj hw).symm
  exact .inl ((rawS01 h0).trans (by simp only [decS01, h1, h2, h3, h4, h5, h6]; rfl))
theorem Encodes.shr (s : BitVec 3) (w : BitVec 2) (d : BitVec 5) (a : BitVec 5) (b : BitVec 5) : Encodes.Statement (.shr s w d a b) := by
  intro word hw
  obtain ⟨h0, h1, h2, h3, h4, h5, h6⟩ := fields1 0x1#6 s w d a b 0x8#6 word (Option.some.inj hw).symm
  exact .inl ((rawS01 h0).trans (by simp only [decS01, h1, h2, h3, h4, h5, h6]; rfl))
theorem Encodes.sar (s : BitVec 3) (w : BitVec 2) (d : BitVec 5) (a : BitVec 5) (b : BitVec 5) : Encodes.Statement (.sar s w d a b) := by
  intro word hw
  obtain ⟨h0, h1, h2, h3, h4, h5, h6⟩ := fields1 0x1#6 s w d a b 0x9#6 word (Option.some.inj hw).symm
  exact .inl ((rawS01 h0).trans (by simp only [decS01, h1, h2, h3, h4, h5, h6]; rfl))
theorem Encodes.rol (s : BitVec 3) (w : BitVec 2) (d : BitVec 5) (a : BitVec 5) (b : BitVec 5) : Encodes.Statement (.rol s w d a b) := by
  intro word hw
  obtain ⟨h0, h1, h2, h3, h4, h5, h6⟩ := fields1 0x1#6 s w d a b 0xA#6 word (Option.some.inj hw).symm
  exact .inl ((rawS01 h0).trans (by simp only [decS01, h1, h2, h3, h4, h5, h6]; rfl))
theorem Encodes.ror (s : BitVec 3) (w : BitVec 2) (d : BitVec 5) (a : BitVec 5) (b : BitVec 5) : Encodes.Statement (.ror s w d a b) := by
  intro word hw
  obtain ⟨h0, h1, h2, h3, h4, h5, h6⟩ := fields1 0x1#6 s w d a b 0xB#6 word (Option.some.inj hw).symm
  exact .inl ((rawS01 h0).trans (by simp only [decS01, h1, h2, h3, h4, h5, h6]; rfl))
theorem Encodes.mul (s : BitVec 3) (w : BitVec 2) (d : BitVec 5) (a : BitVec 5) (b : BitVec 5) : Encodes.Statement (.mul s w d a b) := by
  intro word hw
  obtain ⟨h0, h1, h2, h3, h4, h5, h6⟩ := fields1 0x1#6 s w d a b 0xC#6 word (Option.some.inj hw).symm
  exact .inl ((rawS01 h0).trans (by simp only [decS01, h1, h2, h3, h4, h5, h6]; rfl))
theorem Encodes.mulh (s : BitVec 3) (w : BitVec 2) (d : BitVec 5) (a : BitVec 5) (b : BitVec 5) : Encodes.Statement (.mulh s w d a b) := by
  intro word hw
  obtain ⟨h0, h1, h2, h3, h4, h5, h6⟩ := fields1 0x1#6 s w d a b 0xD#6 word (Option.some.inj hw).symm
  exact .inl ((rawS01 h0).trans (by simp only [decS01, h1, h2, h3, h4, h5, h6]; rfl))
theorem Encodes.mulhu (s : BitVec 3) (w : BitVec 2) (d : BitVec 5) (a : BitVec 5) (b : BitVec 5) : Encodes.Statement (.mulhu s w d a b) := by
  intro word hw
  obtain ⟨h0, h1, h2, h3, h4, h5, h6⟩ := fields1 0x1#6 s w d a b 0xE#6 word (Option.some.inj hw).symm
  exact .inl ((rawS01 h0).trans (by simp only [decS01, h1, h2, h3, h4, h5, h6]; rfl))
theorem Encodes.div (s : BitVec 3) (w : BitVec 2) (d : BitVec 5) (a : BitVec 5) (b : BitVec 5) : Encodes.Statement (.div s w d a b) := by
  intro word hw
  obtain ⟨h0, h1, h2, h3, h4, h5, h6⟩ := fields1 0x1#6 s w d a b 0xF#6 word (Option.some.inj hw).symm
  exact .inl ((rawS01 h0).trans (by simp only [decS01, h1, h2, h3, h4, h5, h6]; rfl))
theorem Encodes.divu (s : BitVec 3) (w : BitVec 2) (d : BitVec 5) (a : BitVec 5) (b : BitVec 5) : Encodes.Statement (.divu s w d a b) := by
  intro word hw
  obtain ⟨h0, h1, h2, h3, h4, h5, h6⟩ := fields1 0x1#6 s w d a b 0x10#6 word (Option.some.inj hw).symm
  exact .inl ((rawS01 h0).trans (by simp only [decS01, h1, h2, h3, h4, h5, h6]; rfl))
theorem Encodes.rem (s : BitVec 3) (w : BitVec 2) (d : BitVec 5) (a : BitVec 5) (b : BitVec 5) : Encodes.Statement (.rem s w d a b) := by
  intro word hw
  obtain ⟨h0, h1, h2, h3, h4, h5, h6⟩ := fields1 0x1#6 s w d a b 0x11#6 word (Option.some.inj hw).symm
  exact .inl ((rawS01 h0).trans (by simp only [decS01, h1, h2, h3, h4, h5, h6]; rfl))
theorem Encodes.remu (s : BitVec 3) (w : BitVec 2) (d : BitVec 5) (a : BitVec 5) (b : BitVec 5) : Encodes.Statement (.remu s w d a b) := by
  intro word hw
  obtain ⟨h0, h1, h2, h3, h4, h5, h6⟩ := fields1 0x1#6 s w d a b 0x12#6 word (Option.some.inj hw).symm
  exact .inl ((rawS01 h0).trans (by simp only [decS01, h1, h2, h3, h4, h5, h6]; rfl))
theorem Encodes.min (s : BitVec 3) (w : BitVec 2) (d : BitVec 5) (a : BitVec 5) (b : BitVec 5) : Encodes.Statement (.min s w d a b) := by
  intro word hw
  obtain ⟨h0, h1, h2, h3, h4, h5, h6⟩ := fields1 0x1#6 s w d a b 0x13#6 word (Option.some.inj hw).symm
  exact .inl ((rawS01 h0).trans (by simp only [decS01, h1, h2, h3, h4, h5, h6]; rfl))
theorem Encodes.max (s : BitVec 3) (w : BitVec 2) (d : BitVec 5) (a : BitVec 5) (b : BitVec 5) : Encodes.Statement (.max s w d a b) := by
  intro word hw
  obtain ⟨h0, h1, h2, h3, h4, h5, h6⟩ := fields1 0x1#6 s w d a b 0x14#6 word (Option.some.inj hw).symm
  exact .inl ((rawS01 h0).trans (by simp only [decS01, h1, h2, h3, h4, h5, h6]; rfl))
theorem Encodes.minu (s : BitVec 3) (w : BitVec 2) (d : BitVec 5) (a : BitVec 5) (b : BitVec 5) : Encodes.Statement (.minu s w d a b) := by
  intro word hw
  obtain ⟨h0, h1, h2, h3, h4, h5, h6⟩ := fields1 0x1#6 s w d a b 0x15#6 word (Option.some.inj hw).symm
  exact .inl ((rawS01 h0).trans (by simp only [decS01, h1, h2, h3, h4, h5, h6]; rfl))
theorem Encodes.maxu (s : BitVec 3) (w : BitVec 2) (d : BitVec 5) (a : BitVec 5) (b : BitVec 5) : Encodes.Statement (.maxu s w d a b) := by
  intro word hw
  obtain ⟨h0, h1, h2, h3, h4, h5, h6⟩ := fields1 0x1#6 s w d a b 0x16#6 word (Option.some.inj hw).symm
  exact .inl ((rawS01 h0).trans (by simp only [decS01, h1, h2, h3, h4, h5, h6]; rfl))
theorem Encodes.ceq (s : BitVec 3) (w : BitVec 2) (d : BitVec 5) (a : BitVec 5) (b : BitVec 5) : Encodes.Statement (.ceq s w d a b) := by
  intro word hw
  obtain ⟨h0, h1, h2, h3, h4, h5, h6⟩ := fields1 0x1#6 s w d a b 0x17#6 word (Option.some.inj hw).symm
  exact .inl ((rawS01 h0).trans (by simp only [decS01, h1, h2, h3, h4, h5, h6]; rfl))
theorem Encodes.cne (s : BitVec 3) (w : BitVec 2) (d : BitVec 5) (a : BitVec 5) (b : BitVec 5) : Encodes.Statement (.cne s w d a b) := by
  intro word hw
  obtain ⟨h0, h1, h2, h3, h4, h5, h6⟩ := fields1 0x1#6 s w d a b 0x18#6 word (Option.some.inj hw).symm
  exact .inl ((rawS01 h0).trans (by simp only [decS01, h1, h2, h3, h4, h5, h6]; rfl))
theorem Encodes.clt (s : BitVec 3) (w : BitVec 2) (d : BitVec 5) (a : BitVec 5) (b : BitVec 5) : Encodes.Statement (.clt s w d a b) := by
  intro word hw
  obtain ⟨h0, h1, h2, h3, h4, h5, h6⟩ := fields1 0x1#6 s w d a b 0x19#6 word (Option.some.inj hw).symm
  exact .inl ((rawS01 h0).trans (by simp only [decS01, h1, h2, h3, h4, h5, h6]; rfl))
theorem Encodes.cltu (s : BitVec 3) (w : BitVec 2) (d : BitVec 5) (a : BitVec 5) (b : BitVec 5) : Encodes.Statement (.cltu s w d a b) := by
  intro word hw
  obtain ⟨h0, h1, h2, h3, h4, h5, h6⟩ := fields1 0x1#6 s w d a b 0x1A#6 word (Option.some.inj hw).symm
  exact .inl ((rawS01 h0).trans (by simp only [decS01, h1, h2, h3, h4, h5, h6]; rfl))
theorem Encodes.cle (s : BitVec 3) (w : BitVec 2) (d : BitVec 5) (a : BitVec 5) (b : BitVec 5) : Encodes.Statement (.cle s w d a b) := by
  intro word hw
  obtain ⟨h0, h1, h2, h3, h4, h5, h6⟩ := fields1 0x1#6 s w d a b 0x1B#6 word (Option.some.inj hw).symm
  exact .inl ((rawS01 h0).trans (by simp only [decS01, h1, h2, h3, h4, h5, h6]; rfl))
theorem Encodes.cleu (s : BitVec 3) (w : BitVec 2) (d : BitVec 5) (a : BitVec 5) (b : BitVec 5) : Encodes.Statement (.cleu s w d a b) := by
  intro word hw
  obtain ⟨h0, h1, h2, h3, h4, h5, h6⟩ := fields1 0x1#6 s w d a b 0x1C#6 word (Option.some.inj hw).symm
  exact .inl ((rawS01 h0).trans (by simp only [decS01, h1, h2, h3, h4, h5, h6]; rfl))
theorem Encodes.sel (s : BitVec 3) (w : BitVec 2) (d : BitVec 5) (a : BitVec 5) (b : BitVec 5) : Encodes.Statement (.sel s w d a b) := by
  intro word hw
  obtain ⟨h0, h1, h2, h3, h4, h5, h6⟩ := fields1 0x1#6 s w d a b 0x1D#6 word (Option.some.inj hw).symm
  exact .inl ((rawS01 h0).trans (by simp only [decS01, h1, h2, h3, h4, h5, h6]; rfl))
theorem Encodes.clz (s : BitVec 3) (w : BitVec 2) (d : BitVec 5) (a : BitVec 5) : Encodes.Statement (.clz s w d a) := by
  intro word hw
  obtain ⟨h0, h1, h2, h3, h4, h5, h6⟩ := fields1 0x1#6 s w d a 0x1F#5 0x1E#6 word (Option.some.inj hw).symm
  exact .inl ((rawS01 h0).trans (by simp only [decS01, h1, h2, h3, h4, h5, h6]; rfl))
theorem Encodes.ctz (s : BitVec 3) (w : BitVec 2) (d : BitVec 5) (a : BitVec 5) : Encodes.Statement (.ctz s w d a) := by
  intro word hw
  obtain ⟨h0, h1, h2, h3, h4, h5, h6⟩ := fields1 0x1#6 s w d a 0x1F#5 0x1F#6 word (Option.some.inj hw).symm
  exact .inl ((rawS01 h0).trans (by simp only [decS01, h1, h2, h3, h4, h5, h6]; rfl))
theorem Encodes.popc (s : BitVec 3) (w : BitVec 2) (d : BitVec 5) (a : BitVec 5) : Encodes.Statement (.popc s w d a) := by
  intro word hw
  obtain ⟨h0, h1, h2, h3, h4, h5, h6⟩ := fields1 0x1#6 s w d a 0x1F#5 0x20#6 word (Option.some.inj hw).symm
  exact .inl ((rawS01 h0).trans (by simp only [decS01, h1, h2, h3, h4, h5, h6]; rfl))
theorem Encodes.brev (s : BitVec 3) (w : BitVec 2) (d : BitVec 5) (a : BitVec 5) : Encodes.Statement (.brev s w d a) := by
  intro word hw
  obtain ⟨h0, h1, h2, h3, h4, h5, h6⟩ := fields1 0x1#6 s w d a 0x1F#5 0x21#6 word (Option.some.inj hw).symm
  exact .inl ((rawS01 h0).trans (by simp only [decS01, h1, h2, h3, h4, h5, h6]; rfl))
theorem Encodes.bswap (s : BitVec 3) (w : BitVec 2) (d : BitVec 5) (a : BitVec 5) : Encodes.Statement (.bswap s w d a) := by
  intro word hw
  obtain ⟨h0, h1, h2, h3, h4, h5, h6⟩ := fields1 0x1#6 s w d a 0x1F#5 0x22#6 word (Option.some.inj hw).symm
  exact .inl ((rawS01 h0).trans (by simp only [decS01, h1, h2, h3, h4, h5, h6]; rfl))
theorem Encodes.mov (s : BitVec 3) (w : BitVec 2) (d : BitVec 5) (a : BitVec 5) : Encodes.Statement (.mov s w d a) := by
  intro word hw
  obtain ⟨h0, h1, h2, h3, h4, h5, h6⟩ := fields1 0x1#6 s w d a 0x1F#5 0x23#6 word (Option.some.inj hw).symm
  exact .inl ((rawS01 h0).trans (by simp only [decS01, h1, h2, h3, h4, h5, h6]; rfl))
theorem Encodes.addi (s : BitVec 3) (w : BitVec 2) (d : BitVec 5) (a : BitVec 5) (i : BitVec 11) : Encodes.Statement (.addi s w d a i) := by
  intro word hw
  obtain ⟨h0, h1, h2, h3, h4, h5⟩ := fields2 0x2#6 s w d a i word (Option.some.inj hw).symm
  exact .inl ((rawS02 h0).trans (by simp only [decS02, h1, h2, h3, h4, h5]))
theorem Encodes.andi (s : BitVec 3) (w : BitVec 2) (d : BitVec 5) (a : BitVec 5) (i : BitVec 11) : Encodes.Statement (.andi s w d a i) := by
  intro word hw
  obtain ⟨h0, h1, h2, h3, h4, h5⟩ := fields2 0x3#6 s w d a i word (Option.some.inj hw).symm
  exact .inl ((rawS03 h0).trans (by simp only [decS03, h1, h2, h3, h4, h5]))
theorem Encodes.ori (s : BitVec 3) (w : BitVec 2) (d : BitVec 5) (a : BitVec 5) (i : BitVec 11) : Encodes.Statement (.ori s w d a i) := by
  intro word hw
  obtain ⟨h0, h1, h2, h3, h4, h5⟩ := fields2 0x4#6 s w d a i word (Option.some.inj hw).symm
  exact .inl ((rawS04 h0).trans (by simp only [decS04, h1, h2, h3, h4, h5]))
theorem Encodes.xori (s : BitVec 3) (w : BitVec 2) (d : BitVec 5) (a : BitVec 5) (i : BitVec 11) : Encodes.Statement (.xori s w d a i) := by
  intro word hw
  obtain ⟨h0, h1, h2, h3, h4, h5⟩ := fields2 0x5#6 s w d a i word (Option.some.inj hw).symm
  exact .inl ((rawS05 h0).trans (by simp only [decS05, h1, h2, h3, h4, h5]))
theorem Encodes.shli (s : BitVec 3) (w : BitVec 2) (d : BitVec 5) (a : BitVec 5) (n : BitVec 6) : Encodes.Statement (.shli s w d a n) := by
  intro word hw
  obtain ⟨h0, h1, h2, h3, h4, h5, h6⟩ := fields1 0x6#6 s w d a 0x0#5 n word (Option.some.inj hw).symm
  exact .inl ((rawS06 h0).trans (by simp only [decS06, h1, h2, h3, h4, h5, h6]; rfl))
theorem Encodes.shri (s : BitVec 3) (w : BitVec 2) (d : BitVec 5) (a : BitVec 5) (n : BitVec 6) : Encodes.Statement (.shri s w d a n) := by
  intro word hw
  obtain ⟨h0, h1, h2, h3, h4, h5, h6⟩ := fields1 0x6#6 s w d a 0x8#5 n word (Option.some.inj hw).symm
  exact .inl ((rawS06 h0).trans (by simp only [decS06, h1, h2, h3, h4, h5, h6]; rfl))
theorem Encodes.sari (s : BitVec 3) (w : BitVec 2) (d : BitVec 5) (a : BitVec 5) (n : BitVec 6) : Encodes.Statement (.sari s w d a n) := by
  intro word hw
  obtain ⟨h0, h1, h2, h3, h4, h5, h6⟩ := fields1 0x6#6 s w d a 0x10#5 n word (Option.some.inj hw).symm
  exact .inl ((rawS06 h0).trans (by simp only [decS06, h1, h2, h3, h4, h5, h6]; rfl))
theorem Encodes.roli (s : BitVec 3) (w : BitVec 2) (d : BitVec 5) (a : BitVec 5) (n : BitVec 6) : Encodes.Statement (.roli s w d a n) := by
  intro word hw
  obtain ⟨h0, h1, h2, h3, h4, h5, h6⟩ := fields1 0x6#6 s w d a 0x18#5 n word (Option.some.inj hw).symm
  exact .inl ((rawS06 h0).trans (by simp only [decS06, h1, h2, h3, h4, h5, h6]; rfl))
theorem Encodes.ceqi (s : BitVec 3) (w : BitVec 2) (d : BitVec 5) (a : BitVec 5) (i : BitVec 11) : Encodes.Statement (.ceqi s w d a i) := by
  intro word hw
  obtain ⟨h0, h1, h2, h3, h4, h5⟩ := fields2 0x7#6 s w d a i word (Option.some.inj hw).symm
  exact .inl ((rawS07 h0).trans (by simp only [decS07, h1, h2, h3, h4, h5]))
theorem Encodes.clti (s : BitVec 3) (w : BitVec 2) (d : BitVec 5) (a : BitVec 5) (i : BitVec 11) : Encodes.Statement (.clti s w d a i) := by
  intro word hw
  obtain ⟨h0, h1, h2, h3, h4, h5⟩ := fields2 0x8#6 s w d a i word (Option.some.inj hw).symm
  exact .inl ((rawS08 h0).trans (by simp only [decS08, h1, h2, h3, h4, h5]))
theorem Encodes.cltui (s : BitVec 3) (w : BitVec 2) (d : BitVec 5) (a : BitVec 5) (i : BitVec 11) : Encodes.Statement (.cltui s w d a i) := by
  intro word hw
  obtain ⟨h0, h1, h2, h3, h4, h5⟩ := fields2 0x9#6 s w d a i word (Option.some.inj hw).symm
  exact .inl ((rawS09 h0).trans (by simp only [decS09, h1, h2, h3, h4, h5]))
theorem Encodes.bfx (s : BitVec 3) (d : BitVec 5) (a : BitVec 5) (p : BitVec 6) (l : BitVec 5) : Encodes.Statement (.bfx s d a p l) := by
  intro word hw
  obtain ⟨h0, h1, h2, h3, h4, h5, h6⟩ := fields3 0xA#6 s 0x0#2 d a p l word (Option.some.inj hw).symm
  exact .inl ((rawS0A h0).trans (by simp only [decS0A, h1, h2, h3, h4, h5, h6]; rfl))
theorem Encodes.bfi (s : BitVec 3) (d : BitVec 5) (a : BitVec 5) (p : BitVec 6) (l : BitVec 5) : Encodes.Statement (.bfi s d a p l) := by
  intro word hw
  obtain ⟨h0, h1, h2, h3, h4, h5, h6⟩ := fields3 0xB#6 s 0x0#2 d a p l word (Option.some.inj hw).symm
  exact .inl ((rawS0B h0).trans (by simp only [decS0B, h1, h2, h3, h4, h5, h6]; rfl))
theorem Encodes.ldk (s : BitVec 3) (d : BitVec 5) (i : BitVec 16) : Encodes.Statement (.ldk s d i) := by
  intro word hw
  obtain ⟨h0, h1, h2, h3, h4⟩ := fields4 0xC#6 s 0x0#2 d i word (Option.some.inj hw).symm
  exact .inl ((rawS0C h0).trans (by simp only [decS0C, h1, h2, h3, h4]; rfl))
theorem Encodes.ldkh (s : BitVec 3) (d : BitVec 5) (i : BitVec 16) : Encodes.Statement (.ldkh s d i) := by
  intro word hw
  obtain ⟨h0, h1, h2, h3, h4⟩ := fields4 0xD#6 s 0x0#2 d i word (Option.some.inj hw).symm
  exact .inl ((rawS0D h0).trans (by simp only [decS0D, h1, h2, h3, h4]; rfl))
theorem Encodes.adpc (s : BitVec 3) (d : BitVec 5) (i : BitVec 16) : Encodes.Statement (.adpc s d i) := by
  intro word hw
  obtain ⟨h0, h1, h2, h3, h4⟩ := fields4 0xE#6 s 0x0#2 d i word (Option.some.inj hw).symm
  exact .inl ((rawS0E h0).trans (by simp only [decS0E, h1, h2, h3, h4]; rfl))
theorem Encodes.padd (s : BitVec 3) (d : BitVec 5) (a : BitVec 5) (b : BitVec 5) : Encodes.Statement (.padd s d a b) := by
  intro word hw
  obtain ⟨h0, h1, h2, h3, h4, h5, h6⟩ := fields1 0xF#6 s 0x0#2 d a b 0x0#6 word (Option.some.inj hw).symm
  exact .inl ((rawS0F h0).trans (by simp only [decS0F, h1, h2, h3, h4, h5, h6]; rfl))
theorem Encodes.padde (s : BitVec 3) (d : BitVec 5) (a : BitVec 5) (b : BitVec 5) : Encodes.Statement (.padde s d a b) := by
  intro word hw
  obtain ⟨h0, h1, h2, h3, h4, h5, h6⟩ := fields1 0xF#6 s 0x0#2 d a b 0x1#6 word (Option.some.inj hw).symm
  exact .inl ((rawS0F h0).trans (by simp only [decS0F, h1, h2, h3, h4, h5, h6]; rfl))
theorem Encodes.psube (s : BitVec 3) (d : BitVec 5) (a : BitVec 5) (b : BitVec 5) : Encodes.Statement (.psube s d a b) := by
  intro word hw
  obtain ⟨h0, h1, h2, h3, h4, h5, h6⟩ := fields1 0xF#6 s 0x0#2 d a b 0x2#6 word (Option.some.inj hw).symm
  exact .inl ((rawS0F h0).trans (by simp only [decS0F, h1, h2, h3, h4, h5, h6]; rfl))
theorem Encodes.pfmt (s : BitVec 3) (d : BitVec 5) (a : BitVec 5) (b : BitVec 5) : Encodes.Statement (.pfmt s d a b) := by
  intro word hw
  obtain ⟨h0, h1, h2, h3, h4, h5, h6⟩ := fields1 0xF#6 s 0x0#2 d a b 0x3#6 word (Option.some.inj hw).symm
  exact .inl ((rawS0F h0).trans (by simp only [decS0F, h1, h2, h3, h4, h5, h6]; rfl))
theorem Encodes.pgetf (s : BitVec 3) (d : BitVec 5) (a : BitVec 5) : Encodes.Statement (.pgetf s d a) := by
  intro word hw
  obtain ⟨h0, h1, h2, h3, h4, h5, h6⟩ := fields1 0xF#6 s 0x0#2 d a 0x1F#5 0x4#6 word (Option.some.inj hw).symm
  exact .inl ((rawS0F h0).trans (by simp only [decS0F, h1, h2, h3, h4, h5, h6]; rfl))
theorem Encodes.pgetb (s : BitVec 3) (d : BitVec 5) (a : BitVec 5) : Encodes.Statement (.pgetb s d a) := by
  intro word hw
  obtain ⟨h0, h1, h2, h3, h4, h5, h6⟩ := fields1 0xF#6 s 0x0#2 d a 0x1F#5 0x5#6 word (Option.some.inj hw).symm
  exact .inl ((rawS0F h0).trans (by simp only [decS0F, h1, h2, h3, h4, h5, h6]; rfl))
theorem Encodes.pset (s : BitVec 3) (d : BitVec 5) (a : BitVec 5) (b : BitVec 5) : Encodes.Statement (.pset s d a b) := by
  intro word hw
  obtain ⟨h0, h1, h2, h3, h4, h5, h6⟩ := fields1 0xF#6 s 0x0#2 d a b 0x6#6 word (Option.some.inj hw).symm
  exact .inl ((rawS0F h0).trans (by simp only [decS0F, h1, h2, h3, h4, h5, h6]; rfl))
theorem Encodes.pstr (s : BitVec 3) (a : BitVec 5) (b : BitVec 5) : Encodes.Statement (.pstr s a b) := by
  intro word hw
  obtain ⟨h0, h1, h2, h3, h4, h5, h6⟩ := fields1 0xF#6 s 0x0#2 0x1F#5 a b 0x7#6 word (Option.some.inj hw).symm
  exact .inl ((rawS0F h0).trans (by simp only [decS0F, h1, h2, h3, h4, h5, h6]; rfl))
theorem Encodes.pgeta (s : BitVec 3) (d : BitVec 5) (a : BitVec 5) : Encodes.Statement (.pgeta s d a) := by
  intro word hw
  obtain ⟨h0, h1, h2, h3, h4, h5, h6⟩ := fields1 0xF#6 s 0x0#2 d a 0x1F#5 0x8#6 word (Option.some.inj hw).symm
  exact .inl ((rawS0F h0).trans (by simp only [decS0F, h1, h2, h3, h4, h5, h6]; rfl))
theorem Encodes.paddi (s : BitVec 3) (d : BitVec 5) (a : BitVec 5) (i : BitVec 11) : Encodes.Statement (.paddi s d a i) := by
  intro word hw
  obtain ⟨h0, h1, h2, h3, h4, h5⟩ := fields2 0x10#6 s 0x0#2 d a i word (Option.some.inj hw).symm
  exact .inl ((rawS10 h0).trans (by simp only [decS10, h1, h2, h3, h4, h5]; rfl))
theorem Encodes.br (s : BitVec 3) (c : BitVec 3) (a : BitVec 5) (i : BitVec 15) : Encodes.Statement (.br s c a i) := by
  intro word hw
  obtain ⟨h0, h1, h2, h3, h4⟩ := fields5 0x11#6 s c a i word (Option.some.inj hw).symm
  exact .inl ((rawS11 h0).trans (by simp only [decS11, h1, h2, h3, h4]))
theorem Encodes.jmp (s : BitVec 3) (i : BitVec 23) : Encodes.Statement (.jmp s i) := by
  intro word hw
  obtain ⟨h0, h1, h2⟩ := fields6 0x12#6 s i word (Option.some.inj hw).symm
  exact .inl ((rawS12 h0).trans (by simp only [decS12, h1, h2]))
theorem Encodes.call (s : BitVec 3) (i : BitVec 23) : Encodes.Statement (.call s i) := by
  intro word hw
  obtain ⟨h0, h1, h2⟩ := fields6 0x13#6 s i word (Option.some.inj hw).symm
  exact .inl ((rawS13 h0).trans (by simp only [decS13, h1, h2]))
theorem Encodes.jmpi (s : BitVec 3) (a : BitVec 5) : Encodes.Statement (.jmpi s a) := by
  intro word hw
  obtain ⟨h0, h1, h2, h3, h4⟩ := fields7 0x14#6 s 0x1F#7 a 0x7C0#11 word (Option.some.inj hw).symm
  exact .inl ((rawS14 h0).trans (by simp only [decS14, h1, h2, h3, h4]; rfl))
theorem Encodes.calli (s : BitVec 3) (a : BitVec 5) : Encodes.Statement (.calli s a) := by
  intro word hw
  obtain ⟨h0, h1, h2, h3, h4⟩ := fields7 0x14#6 s 0x1F#7 a 0x7C1#11 word (Option.some.inj hw).symm
  exact .inl ((rawS14 h0).trans (by simp only [decS14, h1, h2, h3, h4]; rfl))
theorem Encodes.ret (s : BitVec 3) : Encodes.Statement (.ret s) := by
  intro word hw
  obtain ⟨h0, h1, h2, h3, h4⟩ := fields7 0x14#6 s 0x1F#7 0x1F#5 0x7C2#11 word (Option.some.inj hw).symm
  exact .inl ((rawS14 h0).trans (by simp only [decS14, h1, h2, h3, h4]; rfl))
theorem Encodes.loop (s : BitVec 3) (a : BitVec 5) (i : BitVec 15) : Encodes.Statement (.loop s a i) := by
  intro word hw
  obtain ⟨h0, h1, h2, h3, h4⟩ := fields5 0x15#6 s 0x0#3 a i word (Option.some.inj hw).symm
  exact .inl ((rawS15 h0).trans (by simp only [decS15, h1, h2, h3, h4]; rfl))
theorem Encodes.rep (s : BitVec 3) (a : BitVec 5) (i : BitVec 11) : Encodes.Statement (.rep s a i) := by
  intro word hw
  obtain ⟨h0, h1, h2, h3, h4⟩ := fields7 0x16#6 s 0x1F#7 a i word (Option.some.inj hw).symm
  exact .inl ((rawS16 h0).trans (by simp only [decS16, h1, h2, h3, h4]; rfl))
theorem Encodes.start (s : BitVec 3) (d : BitVec 5) (a : BitVec 5) (b : BitVec 5) : Encodes.Statement (.start s d a b) := by
  intro word hw
  obtain ⟨h0, h1, h2, h3, h4, h5, h6⟩ := fields1 0x17#6 s 0x0#2 d a b 0x0#6 word (Option.some.inj hw).symm
  exact .inl ((rawS17 h0).trans (by simp only [decS17, h1, h2, h3, h4, h5, h6]; rfl))
theorem Encodes.halt (s : BitVec 3) : Encodes.Statement (.halt s) := by
  intro word hw
  obtain ⟨h0, h1, h2, h3, h4, h5, h6⟩ := fields1 0x17#6 s 0x0#2 0x1F#5 0x1F#5 0x1F#5 0x1#6 word (Option.some.inj hw).symm
  exact .inl ((rawS17 h0).trans (by simp only [decS17, h1, h2, h3, h4, h5, h6]; rfl))
theorem Encodes.joinh (s : BitVec 3) (a : BitVec 5) : Encodes.Statement (.joinh s a) := by
  intro word hw
  obtain ⟨h0, h1, h2, h3, h4, h5, h6⟩ := fields1 0x17#6 s 0x0#2 0x1F#5 a 0x1F#5 0x2#6 word (Option.some.inj hw).symm
  exact .inl ((rawS17 h0).trans (by simp only [decS17, h1, h2, h3, h4, h5, h6]; rfl))
theorem Encodes.yield (s : BitVec 3) : Encodes.Statement (.yield s) := by
  intro word hw
  obtain ⟨h0, h1, h2, h3, h4, h5, h6⟩ := fields1 0x17#6 s 0x0#2 0x1F#5 0x1F#5 0x1F#5 0x3#6 word (Option.some.inj hw).symm
  exact .inl ((rawS17 h0).trans (by simp only [decS17, h1, h2, h3, h4, h5, h6]; rfl))
theorem Encodes.saveh (s : BitVec 3) (d : BitVec 5) (a : BitVec 5) (b : BitVec 5) : Encodes.Statement (.saveh s d a b) := by
  intro word hw
  obtain ⟨h0, h1, h2, h3, h4, h5, h6⟩ := fields1 0x17#6 s 0x0#2 d a b 0x4#6 word (Option.some.inj hw).symm
  exact .inl ((rawS17 h0).trans (by simp only [decS17, h1, h2, h3, h4, h5, h6]; rfl))
theorem Encodes.loadh (s : BitVec 3) (d : BitVec 5) (a : BitVec 5) (b : BitVec 5) : Encodes.Statement (.loadh s d a b) := by
  intro word hw
  obtain ⟨h0, h1, h2, h3, h4, h5, h6⟩ := fields1 0x17#6 s 0x0#2 d a b 0x5#6 word (Option.some.inj hw).symm
  exact .inl ((rawS17 h0).trans (by simp only [decS17, h1, h2, h3, h4, h5, h6]; rfl))
theorem Encodes.resumeh (s : BitVec 3) (d : BitVec 5) (a : BitVec 5) : Encodes.Statement (.resumeh s d a) := by
  intro word hw
  obtain ⟨h0, h1, h2, h3, h4, h5, h6⟩ := fields1 0x17#6 s 0x0#2 d a 0x1F#5 0x6#6 word (Option.some.inj hw).symm
  exact .inl ((rawS17 h0).trans (by simp only [decS17, h1, h2, h3, h4, h5, h6]; rfl))
theorem Encodes.killh (s : BitVec 3) (d : BitVec 5) (a : BitVec 5) : Encodes.Statement (.killh s d a) := by
  intro word hw
  obtain ⟨h0, h1, h2, h3, h4, h5, h6⟩ := fields1 0x17#6 s 0x0#2 d a 0x1F#5 0x7#6 word (Option.some.inj hw).symm
  exact .inl ((rawS17 h0).trans (by simp only [decS17, h1, h2, h3, h4, h5, h6]; rfl))
theorem Encodes.hstat (s : BitVec 3) (d : BitVec 5) (a : BitVec 5) : Encodes.Statement (.hstat s d a) := by
  intro word hw
  obtain ⟨h0, h1, h2, h3, h4, h5, h6⟩ := fields1 0x17#6 s 0x0#2 d a 0x1F#5 0x8#6 word (Option.some.inj hw).symm
  exact .inl ((rawS17 h0).trans (by simp only [decS17, h1, h2, h3, h4, h5, h6]; rfl))
theorem Encodes.upret (s : BitVec 3) : Encodes.Statement (.upret s) := by
  intro word hw
  obtain ⟨h0, h1, h2, h3, h4, h5, h6⟩ := fields1 0x17#6 s 0x0#2 0x1F#5 0x1F#5 0x1F#5 0x9#6 word (Option.some.inj hw).symm
  exact .inl ((rawS17 h0).trans (by simp only [decS17, h1, h2, h3, h4, h5, h6]; rfl))
theorem Encodes.nop (s : BitVec 3) : Encodes.Statement (.nop s) := by
  intro word hw
  obtain ⟨h0, h1, h2, h3, h4, h5, h6⟩ := fields1 0x18#6 s 0x0#2 0x1F#5 0x1F#5 0x1F#5 0x0#6 word (Option.some.inj hw).symm
  exact .inl ((rawS18 h0).trans (by simp only [decS18, h1, h2, h3, h4, h5, h6]; rfl))
theorem Encodes.trap (s : BitVec 3) (a : BitVec 5) : Encodes.Statement (.trap s a) := by
  intro word hw
  obtain ⟨h0, h1, h2, h3, h4, h5, h6⟩ := fields1 0x18#6 s 0x0#2 0x1F#5 a 0x1F#5 0x1#6 word (Option.some.inj hw).symm
  exact .inl ((rawS18 h0).trans (by simp only [decS18, h1, h2, h3, h4, h5, h6]; rfl))
theorem Encodes.eret (s : BitVec 3) : Encodes.Statement (.eret s) := by
  intro word hw
  obtain ⟨h0, h1, h2, h3, h4, h5, h6⟩ := fields1 0x18#6 s 0x0#2 0x1F#5 0x1F#5 0x1F#5 0x2#6 word (Option.some.inj hw).symm
  exact .inl ((rawS18 h0).trans (by simp only [decS18, h1, h2, h3, h4, h5, h6]; rfl))
theorem Encodes.gets (s : BitVec 3) (d : BitVec 5) (a : BitVec 5) : Encodes.Statement (.gets s d a) := by
  intro word hw
  obtain ⟨h0, h1, h2, h3, h4, h5, h6⟩ := fields1 0x18#6 s 0x0#2 d a 0x1F#5 0x3#6 word (Option.some.inj hw).symm
  exact .inl ((rawS18 h0).trans (by simp only [decS18, h1, h2, h3, h4, h5, h6]; rfl))
theorem Encodes.puts (s : BitVec 3) (a : BitVec 5) (b : BitVec 5) : Encodes.Statement (.puts s a b) := by
  intro word hw
  obtain ⟨h0, h1, h2, h3, h4, h5, h6⟩ := fields1 0x18#6 s 0x0#2 0x1F#5 a b 0x4#6 word (Option.some.inj hw).symm
  exact .inl ((rawS18 h0).trans (by simp only [decS18, h1, h2, h3, h4, h5, h6]; rfl))
theorem Encodes.fence (s : BitVec 3) (a : BitVec 5) : Encodes.Statement (.fence s a) := by
  intro word hw
  obtain ⟨h0, h1, h2, h3, h4, h5, h6⟩ := fields1 0x18#6 s 0x0#2 0x1F#5 a 0x1F#5 0x5#6 word (Option.some.inj hw).symm
  exact .inl ((rawS18 h0).trans (by simp only [decS18, h1, h2, h3, h4, h5, h6]; rfl))
theorem Encodes.ifence (s : BitVec 3) : Encodes.Statement (.ifence s) := by
  intro word hw
  obtain ⟨h0, h1, h2, h3, h4, h5, h6⟩ := fields1 0x18#6 s 0x0#2 0x1F#5 0x1F#5 0x1F#5 0x6#6 word (Option.some.inj hw).symm
  exact .inl ((rawS18 h0).trans (by simp only [decS18, h1, h2, h3, h4, h5, h6]; rfl))
theorem Encodes.waita (s : BitVec 3) (d : BitVec 5) (a : BitVec 5) (b : BitVec 5) : Encodes.Statement (.waita s d a b) := by
  intro word hw
  obtain ⟨h0, h1, h2, h3, h4, h5, h6⟩ := fields1 0x18#6 s 0x0#2 d a b 0x7#6 word (Option.some.inj hw).symm
  exact .inl ((rawS18 h0).trans (by simp only [decS18, h1, h2, h3, h4, h5, h6]; rfl))
theorem Encodes.fflag (s : BitVec 3) (a : BitVec 5) (b : BitVec 5) : Encodes.Statement (.fflag s a b) := by
  intro word hw
  obtain ⟨h0, h1, h2, h3, h4, h5, h6⟩ := fields1 0x18#6 s 0x0#2 0x1F#5 a b 0x8#6 word (Option.some.inj hw).symm
  exact .inl ((rawS18 h0).trans (by simp only [decS18, h1, h2, h3, h4, h5, h6]; rfl))
theorem Encodes.brk (s : BitVec 3) : Encodes.Statement (.brk s) := by
  intro word hw
  obtain ⟨h0, h1, h2, h3, h4, h5, h6⟩ := fields1 0x18#6 s 0x0#2 0x1F#5 0x1F#5 0x1F#5 0x9#6 word (Option.some.inj hw).symm
  exact .inl ((rawS18 h0).trans (by simp only [decS18, h1, h2, h3, h4, h5, h6]; rfl))
theorem Encodes.sleepr (s : BitVec 3) (d : BitVec 5) : Encodes.Statement (.sleepr s d) := by
  intro word hw
  obtain ⟨h0, h1, h2, h3, h4, h5, h6⟩ := fields1 0x18#6 s 0x0#2 d 0x1F#5 0x1F#5 0xA#6 word (Option.some.inj hw).symm
  exact .inl ((rawS18 h0).trans (by simp only [decS18, h1, h2, h3, h4, h5, h6]; rfl))
theorem Encodes.tinv (s : BitVec 3) (a : BitVec 5) (b : BitVec 5) : Encodes.Statement (.tinv s a b) := by
  intro word hw
  obtain ⟨h0, h1, h2, h3, h4, h5, h6⟩ := fields1 0x18#6 s 0x0#2 0x1F#5 a b 0xB#6 word (Option.some.inj hw).symm
  exact .inl ((rawS18 h0).trans (by simp only [decS18, h1, h2, h3, h4, h5, h6]; rfl))
theorem Encodes.ld (s : BitVec 3) (w : BitVec 2) (d : BitVec 5) (b : BitVec 5) (q : BitVec 3) (o : BitVec 8) : Encodes.Statement (.ld s w d b q o) := by
  intro word hw
  obtain ⟨h0, h1, h2, h3, h4, h5, h6⟩ := fields8 0x19#6 s w d b q o word (Option.some.inj hw).symm
  exact .inl ((rawS19 h0).trans (by simp only [decS19, h1, h2, h3, h4, h5, h6]))
theorem Encodes.st (s : BitVec 3) (w : BitVec 2) (d : BitVec 5) (b : BitVec 5) (q : BitVec 2) (o : BitVec 8) : Encodes.Statement (.st s w d b q o) := by
  intro word hw
  obtain ⟨h0, h1, h2, h3, h4, h5, h6, h7⟩ := fields9 0x1A#6 s w d b 0x0#1 q o word (Option.some.inj hw).symm
  exact .inl ((rawS1A h0).trans (by simp only [decS1A, h1, h2, h3, h4, h5, h6, h7]; rfl))
theorem Encodes.ldl (s : BitVec 3) (w : BitVec 2) (d : BitVec 5) (b : BitVec 5) (o : BitVec 8) : Encodes.Statement (.ldl s w d b o) := by
  intro word hw
  obtain ⟨h0, h1, h2, h3, h4, h5, h6⟩ := fields8 0x1B#6 s w d b 0x0#3 o word (Option.some.inj hw).symm
  exact .inl ((rawS1B h0).trans (by simp only [decS1B, h1, h2, h3, h4, h5, h6]; rfl))
theorem Encodes.ldlAcq (s : BitVec 3) (w : BitVec 2) (d : BitVec 5) (b : BitVec 5) (o : BitVec 8) : Encodes.Statement (.ldlAcq s w d b o) := by
  intro word hw
  obtain ⟨h0, h1, h2, h3, h4, h5, h6⟩ := fields8 0x1B#6 s w d b 0x3#3 o word (Option.some.inj hw).symm
  exact .inl ((rawS1B h0).trans (by simp only [decS1B, h1, h2, h3, h4, h5, h6]; rfl))
theorem Encodes.ldf (s : BitVec 3) (d : BitVec 5) (b : BitVec 5) (o : BitVec 8) : Encodes.Statement (.ldf s d b o) := by
  intro word hw
  obtain ⟨h0, h1, h2, h3, h4, h5, h6⟩ := fields8 0x1B#6 s 0x3#2 d b 0x1#3 o word (Option.some.inj hw).symm
  exact .inl ((rawS1B h0).trans (by simp only [decS1B, h1, h2, h3, h4, h5, h6]; rfl))
theorem Encodes.ldfe (s : BitVec 3) (d : BitVec 5) (b : BitVec 5) (o : BitVec 8) : Encodes.Statement (.ldfe s d b o) := by
  intro word hw
  obtain ⟨h0, h1, h2, h3, h4, h5, h6⟩ := fields8 0x1B#6 s 0x3#2 d b 0x2#3 o word (Option.some.inj hw).symm
  exact .inl ((rawS1B h0).trans (by simp only [decS1B, h1, h2, h3, h4, h5, h6]; rfl))
theorem Encodes.stl (s : BitVec 3) (w : BitVec 2) (d : BitVec 5) (b : BitVec 5) (o : BitVec 8) : Encodes.Statement (.stl s w d b o) := by
  intro word hw
  obtain ⟨h0, h1, h2, h3, h4, h5, h6⟩ := fields8 0x1C#6 s w d b 0x0#3 o word (Option.some.inj hw).symm
  exact .inl ((rawS1C h0).trans (by simp only [decS1C, h1, h2, h3, h4, h5, h6]; rfl))
theorem Encodes.stlRel (s : BitVec 3) (w : BitVec 2) (d : BitVec 5) (b : BitVec 5) (o : BitVec 8) : Encodes.Statement (.stlRel s w d b o) := by
  intro word hw
  obtain ⟨h0, h1, h2, h3, h4, h5, h6⟩ := fields8 0x1C#6 s w d b 0x3#3 o word (Option.some.inj hw).symm
  exact .inl ((rawS1C h0).trans (by simp only [decS1C, h1, h2, h3, h4, h5, h6]; rfl))
theorem Encodes.stf (s : BitVec 3) (d : BitVec 5) (b : BitVec 5) (o : BitVec 8) : Encodes.Statement (.stf s d b o) := by
  intro word hw
  obtain ⟨h0, h1, h2, h3, h4, h5, h6⟩ := fields8 0x1C#6 s 0x3#2 d b 0x1#3 o word (Option.some.inj hw).symm
  exact .inl ((rawS1C h0).trans (by simp only [decS1C, h1, h2, h3, h4, h5, h6]; rfl))
theorem Encodes.ste (s : BitVec 3) (d : BitVec 5) (b : BitVec 5) (o : BitVec 8) : Encodes.Statement (.ste s d b o) := by
  intro word hw
  obtain ⟨h0, h1, h2, h3, h4, h5, h6⟩ := fields8 0x1C#6 s 0x3#2 d b 0x2#3 o word (Option.some.inj hw).symm
  exact .inl ((rawS1C h0).trans (by simp only [decS1C, h1, h2, h3, h4, h5, h6]; rfl))
theorem Encodes.ldv (s : BitVec 3) (w : BitVec 2) (d : BitVec 5) (b : BitVec 5) (q : BitVec 3) (o : BitVec 8) : Encodes.Statement (.ldv s w d b q o) := by
  intro word hw
  obtain ⟨h0, h1, h2, h3, h4, h5, h6⟩ := fields8 0x1D#6 s w d b q o word (Option.some.inj hw).symm
  exact .inl ((rawS1D h0).trans (by simp only [decS1D, h1, h2, h3, h4, h5, h6]))
theorem Encodes.stv (s : BitVec 3) (w : BitVec 2) (d : BitVec 5) (b : BitVec 5) (q : BitVec 3) (o : BitVec 8) : Encodes.Statement (.stv s w d b q o) := by
  intro word hw
  obtain ⟨h0, h1, h2, h3, h4, h5, h6⟩ := fields8 0x1E#6 s w d b q o word (Option.some.inj hw).symm
  exact .inl ((rawS1E h0).trans (by simp only [decS1E, h1, h2, h3, h4, h5, h6]))
theorem Encodes.ldx (s : BitVec 3) (d : BitVec 5) (b : BitVec 5) (l : BitVec 1) (t : BitVec 1) (o : BitVec 8) : Encodes.Statement (.ldx s d b l t o) := by
  intro word hw
  obtain ⟨h0, h1, h2, h3, h4, h5, h6, h7, h8⟩ := fields10 0x1F#6 s 0x1#2 d b l t 0x0#1 o word (Option.some.inj hw).symm
  exact .inl ((rawS1F h0).trans (by simp only [decS1F, h1, h2, h3, h4, h5, h6, h7, h8]; rfl))
theorem Encodes.stx (s : BitVec 3) (d : BitVec 5) (b : BitVec 5) (l : BitVec 1) (t : BitVec 1) (u : BitVec 1) (o : BitVec 8) : Encodes.Statement (.stx s d b l t u o) := by
  intro word hw
  obtain ⟨h0, h1, h2, h3, h4, h5, h6, h7, h8⟩ := fields10 0x20#6 s 0x1#2 d b l t u o word (Option.some.inj hw).symm
  exact .inl ((rawS20 h0).trans (by simp only [decS20, h1, h2, h3, h4, h5, h6, h7, h8]; rfl))
theorem Encodes.pref (s : BitVec 3) (b : BitVec 5) (q : BitVec 2) (o : BitVec 8) : Encodes.Statement (.pref s b q o) := by
  intro word hw
  obtain ⟨h0, h1, h2, h3, h4, h5, h6⟩ := fields11 0x21#6 s 0x1F#7 b 0x0#1 q o word (Option.some.inj hw).symm
  exact .inl ((rawS21 h0).trans (by simp only [decS21, h1, h2, h3, h4, h5, h6]; rfl))
theorem Encodes.atomFadd (s : BitVec 3) (d : BitVec 5) (a : BitVec 5) (b : BitVec 5) (z : BitVec 2) : Encodes.Statement (.atomFadd s d a b z) := by
  intro word hw
  obtain ⟨h0, h1, h2, h3, h4, h5, h6, h7⟩ := fields12 0x22#6 s 0x0#2 d a b z 0x0#4 word (Option.some.inj hw).symm
  exact .inl ((rawS22 h0).trans (by simp only [decS22, h1, h2, h3, h4, h5, h6, h7]; rfl))
theorem Encodes.atomFand (s : BitVec 3) (d : BitVec 5) (a : BitVec 5) (b : BitVec 5) (z : BitVec 2) : Encodes.Statement (.atomFand s d a b z) := by
  intro word hw
  obtain ⟨h0, h1, h2, h3, h4, h5, h6, h7⟩ := fields12 0x22#6 s 0x0#2 d a b z 0x1#4 word (Option.some.inj hw).symm
  exact .inl ((rawS22 h0).trans (by simp only [decS22, h1, h2, h3, h4, h5, h6, h7]; rfl))
theorem Encodes.atomFor (s : BitVec 3) (d : BitVec 5) (a : BitVec 5) (b : BitVec 5) (z : BitVec 2) : Encodes.Statement (.atomFor s d a b z) := by
  intro word hw
  obtain ⟨h0, h1, h2, h3, h4, h5, h6, h7⟩ := fields12 0x22#6 s 0x0#2 d a b z 0x2#4 word (Option.some.inj hw).symm
  exact .inl ((rawS22 h0).trans (by simp only [decS22, h1, h2, h3, h4, h5, h6, h7]; rfl))
theorem Encodes.atomFxor (s : BitVec 3) (d : BitVec 5) (a : BitVec 5) (b : BitVec 5) (z : BitVec 2) : Encodes.Statement (.atomFxor s d a b z) := by
  intro word hw
  obtain ⟨h0, h1, h2, h3, h4, h5, h6, h7⟩ := fields12 0x22#6 s 0x0#2 d a b z 0x3#4 word (Option.some.inj hw).symm
  exact .inl ((rawS22 h0).trans (by simp only [decS22, h1, h2, h3, h4, h5, h6, h7]; rfl))
theorem Encodes.atomFmin (s : BitVec 3) (d : BitVec 5) (a : BitVec 5) (b : BitVec 5) (z : BitVec 2) : Encodes.Statement (.atomFmin s d a b z) := by
  intro word hw
  obtain ⟨h0, h1, h2, h3, h4, h5, h6, h7⟩ := fields12 0x22#6 s 0x0#2 d a b z 0x4#4 word (Option.some.inj hw).symm
  exact .inl ((rawS22 h0).trans (by simp only [decS22, h1, h2, h3, h4, h5, h6, h7]; rfl))
theorem Encodes.atomFmax (s : BitVec 3) (d : BitVec 5) (a : BitVec 5) (b : BitVec 5) (z : BitVec 2) : Encodes.Statement (.atomFmax s d a b z) := by
  intro word hw
  obtain ⟨h0, h1, h2, h3, h4, h5, h6, h7⟩ := fields12 0x22#6 s 0x0#2 d a b z 0x5#4 word (Option.some.inj hw).symm
  exact .inl ((rawS22 h0).trans (by simp only [decS22, h1, h2, h3, h4, h5, h6, h7]; rfl))
theorem Encodes.atomFminu (s : BitVec 3) (d : BitVec 5) (a : BitVec 5) (b : BitVec 5) (z : BitVec 2) : Encodes.Statement (.atomFminu s d a b z) := by
  intro word hw
  obtain ⟨h0, h1, h2, h3, h4, h5, h6, h7⟩ := fields12 0x22#6 s 0x0#2 d a b z 0x6#4 word (Option.some.inj hw).symm
  exact .inl ((rawS22 h0).trans (by simp only [decS22, h1, h2, h3, h4, h5, h6, h7]; rfl))
theorem Encodes.atomFmaxu (s : BitVec 3) (d : BitVec 5) (a : BitVec 5) (b : BitVec 5) (z : BitVec 2) : Encodes.Statement (.atomFmaxu s d a b z) := by
  intro word hw
  obtain ⟨h0, h1, h2, h3, h4, h5, h6, h7⟩ := fields12 0x22#6 s 0x0#2 d a b z 0x7#4 word (Option.some.inj hw).symm
  exact .inl ((rawS22 h0).trans (by simp only [decS22, h1, h2, h3, h4, h5, h6, h7]; rfl))
theorem Encodes.atomSwap (s : BitVec 3) (d : BitVec 5) (a : BitVec 5) (b : BitVec 5) (z : BitVec 2) : Encodes.Statement (.atomSwap s d a b z) := by
  intro word hw
  obtain ⟨h0, h1, h2, h3, h4, h5, h6, h7⟩ := fields12 0x22#6 s 0x0#2 d a b z 0x8#4 word (Option.some.inj hw).symm
  exact .inl ((rawS22 h0).trans (by simp only [decS22, h1, h2, h3, h4, h5, h6, h7]; rfl))
theorem Encodes.atomCas (s : BitVec 3) (d : BitVec 5) (a : BitVec 5) (b : BitVec 5) : Encodes.Statement (.atomCas s d a b) := by
  intro word hw
  obtain ⟨h0, h1, h2, h3, h4, h5, h6, h7⟩ := fields12 0x22#6 s 0x1#2 d a b 0x3#2 0x9#4 word (Option.some.inj hw).symm
  exact .inl ((rawS22 h0).trans (by simp only [decS22, h1, h2, h3, h4, h5, h6, h7]; rfl))
theorem Encodes.updAdd (s : BitVec 3) (a : BitVec 5) (b : BitVec 5) (t : BitVec 3) : Encodes.Statement (.updAdd s a b t) := by
  intro word hw
  obtain ⟨h0, h1, h2, h3, h4, h5, h6⟩ := fields13 0x23#6 s 0x1F#7 a b t 0x0#3 word (Option.some.inj hw).symm
  exact .inl ((rawS23 h0).trans (by simp only [decS23, h1, h2, h3, h4, h5, h6]; rfl))
theorem Encodes.updMin (s : BitVec 3) (a : BitVec 5) (b : BitVec 5) (t : BitVec 3) : Encodes.Statement (.updMin s a b t) := by
  intro word hw
  obtain ⟨h0, h1, h2, h3, h4, h5, h6⟩ := fields13 0x23#6 s 0x1F#7 a b t 0x1#3 word (Option.some.inj hw).symm
  exact .inl ((rawS23 h0).trans (by simp only [decS23, h1, h2, h3, h4, h5, h6]; rfl))
theorem Encodes.updMax (s : BitVec 3) (a : BitVec 5) (b : BitVec 5) (t : BitVec 3) : Encodes.Statement (.updMax s a b t) := by
  intro word hw
  obtain ⟨h0, h1, h2, h3, h4, h5, h6⟩ := fields13 0x23#6 s 0x1F#7 a b t 0x2#3 word (Option.some.inj hw).symm
  exact .inl ((rawS23 h0).trans (by simp only [decS23, h1, h2, h3, h4, h5, h6]; rfl))
theorem Encodes.updAmax (s : BitVec 3) (a : BitVec 5) (b : BitVec 5) (t : BitVec 3) : Encodes.Statement (.updAmax s a b t) := by
  intro word hw
  obtain ⟨h0, h1, h2, h3, h4, h5, h6⟩ := fields13 0x23#6 s 0x1F#7 a b t 0x3#3 word (Option.some.inj hw).symm
  exact .inl ((rawS23 h0).trans (by simp only [decS23, h1, h2, h3, h4, h5, h6]; rfl))
theorem Encodes.updAnd (s : BitVec 3) (a : BitVec 5) (b : BitVec 5) (t : BitVec 3) : Encodes.Statement (.updAnd s a b t) := by
  intro word hw
  obtain ⟨h0, h1, h2, h3, h4, h5, h6⟩ := fields13 0x23#6 s 0x1F#7 a b t 0x4#3 word (Option.some.inj hw).symm
  exact .inl ((rawS23 h0).trans (by simp only [decS23, h1, h2, h3, h4, h5, h6]; rfl))
theorem Encodes.updOr (s : BitVec 3) (a : BitVec 5) (b : BitVec 5) (t : BitVec 3) : Encodes.Statement (.updOr s a b t) := by
  intro word hw
  obtain ⟨h0, h1, h2, h3, h4, h5, h6⟩ := fields13 0x23#6 s 0x1F#7 a b t 0x5#3 word (Option.some.inj hw).symm
  exact .inl ((rawS23 h0).trans (by simp only [decS23, h1, h2, h3, h4, h5, h6]; rfl))
theorem Encodes.updXor (s : BitVec 3) (a : BitVec 5) (b : BitVec 5) (t : BitVec 3) : Encodes.Statement (.updXor s a b t) := by
  intro word hw
  obtain ⟨h0, h1, h2, h3, h4, h5, h6⟩ := fields13 0x23#6 s 0x1F#7 a b t 0x6#3 word (Option.some.inj hw).symm
  exact .inl ((rawS23 h0).trans (by simp only [decS23, h1, h2, h3, h4, h5, h6]; rfl))
theorem Encodes.pbind (s : BitVec 3) (a : BitVec 5) (b : BitVec 5) : Encodes.Statement (.pbind s a b) := by
  intro word hw
  obtain ⟨h0, h1, h2, h3, h4, h5, h6⟩ := fields1 0x24#6 s 0x0#2 0x1F#5 a b 0x0#6 word (Option.some.inj hw).symm
  exact .inl ((rawS24 h0).trans (by simp only [decS24, h1, h2, h3, h4, h5, h6]; rfl))
theorem Encodes.pstat (s : BitVec 3) (d : BitVec 5) (a : BitVec 5) : Encodes.Statement (.pstat s d a) := by
  intro word hw
  obtain ⟨h0, h1, h2, h3, h4, h5, h6⟩ := fields1 0x24#6 s 0x0#2 d a 0x1F#5 0x1#6 word (Option.some.inj hw).symm
  exact .inl ((rawS24 h0).trans (by simp only [decS24, h1, h2, h3, h4, h5, h6]; rfl))
theorem Encodes.pdrain (s : BitVec 3) (d : BitVec 5) (a : BitVec 5) : Encodes.Statement (.pdrain s d a) := by
  intro word hw
  obtain ⟨h0, h1, h2, h3, h4, h5, h6⟩ := fields1 0x24#6 s 0x0#2 d a 0x1F#5 0x2#6 word (Option.some.inj hw).symm
  exact .inl ((rawS24 h0).trans (by simp only [decS24, h1, h2, h3, h4, h5, h6]; rfl))
theorem Encodes.pord (s : BitVec 3) (a : BitVec 5) : Encodes.Statement (.pord s a) := by
  intro word hw
  obtain ⟨h0, h1, h2, h3, h4, h5, h6⟩ := fields1 0x24#6 s 0x0#2 0x1F#5 a 0x1F#5 0x3#6 word (Option.some.inj hw).symm
  exact .inl ((rawS24 h0).trans (by simp only [decS24, h1, h2, h3, h4, h5, h6]; rfl))
theorem Encodes.bar (s : BitVec 3) (a : BitVec 5) : Encodes.Statement (.bar s a) := by
  intro word hw
  obtain ⟨h0, h1, h2, h3, h4, h5, h6⟩ := fields1 0x25#6 s 0x0#2 0x1F#5 a 0x1F#5 0x0#6 word (Option.some.inj hw).symm
  exact .inl ((rawS25 h0).trans (by simp only [decS25, h1, h2, h3, h4, h5, h6]; rfl))
theorem Encodes.bara (s : BitVec 3) (d : BitVec 5) (a : BitVec 5) : Encodes.Statement (.bara s d a) := by
  intro word hw
  obtain ⟨h0, h1, h2, h3, h4, h5, h6⟩ := fields1 0x25#6 s 0x0#2 d a 0x1F#5 0x1#6 word (Option.some.inj hw).symm
  exact .inl ((rawS25 h0).trans (by simp only [decS25, h1, h2, h3, h4, h5, h6]; rfl))
theorem Encodes.barw (s : BitVec 3) (a : BitVec 5) (b : BitVec 5) : Encodes.Statement (.barw s a b) := by
  intro word hw
  obtain ⟨h0, h1, h2, h3, h4, h5, h6⟩ := fields1 0x25#6 s 0x0#2 0x1F#5 a b 0x2#6 word (Option.some.inj hw).symm
  exact .inl ((rawS25 h0).trans (by simp only [decS25, h1, h2, h3, h4, h5, h6]; rfl))
theorem Encodes.elect (s : BitVec 3) (d : BitVec 5) (a : BitVec 5) : Encodes.Statement (.elect s d a) := by
  intro word hw
  obtain ⟨h0, h1, h2, h3, h4, h5, h6⟩ := fields1 0x25#6 s 0x0#2 d a 0x1F#5 0x3#6 word (Option.some.inj hw).symm
  exact .inl ((rawS25 h0).trans (by simp only [decS25, h1, h2, h3, h4, h5, h6]; rfl))
theorem Encodes.gidx (s : BitVec 3) (d : BitVec 5) (a : BitVec 5) : Encodes.Statement (.gidx s d a) := by
  intro word hw
  obtain ⟨h0, h1, h2, h3, h4, h5, h6⟩ := fields1 0x25#6 s 0x0#2 d a 0x1F#5 0x4#6 word (Option.some.inj hw).symm
  exact .inl ((rawS25 h0).trans (by simp only [decS25, h1, h2, h3, h4, h5, h6]; rfl))
theorem Encodes.gsize (s : BitVec 3) (d : BitVec 5) (a : BitVec 5) : Encodes.Statement (.gsize s d a) := by
  intro word hw
  obtain ⟨h0, h1, h2, h3, h4, h5, h6⟩ := fields1 0x25#6 s 0x0#2 d a 0x1F#5 0x5#6 word (Option.some.inj hw).symm
  exact .inl ((rawS25 h0).trans (by simp only [decS25, h1, h2, h3, h4, h5, h6]; rfl))
theorem Encodes.vadd (s : BitVec 3) (d : BitVec 5) (a : BitVec 5) (b : BitVec 5) (e : BitVec 2) : Encodes.Statement (.vadd s d a b e) := by
  intro word hw
  obtain ⟨h0, h1, h2, h3, h4, h5, h6, h7⟩ := fields12 0x26#6 s 0x1#2 d a b e 0x0#4 word (Option.some.inj hw).symm
  exact .inl ((rawS26 h0).trans (by simp only [decS26, h1, h2, h3, h4, h5, h6, h7]; rfl))
theorem Encodes.vsub (s : BitVec 3) (d : BitVec 5) (a : BitVec 5) (b : BitVec 5) (e : BitVec 2) : Encodes.Statement (.vsub s d a b e) := by
  intro word hw
  obtain ⟨h0, h1, h2, h3, h4, h5, h6, h7⟩ := fields12 0x26#6 s 0x1#2 d a b e 0x1#4 word (Option.some.inj hw).symm
  exact .inl ((rawS26 h0).trans (by simp only [decS26, h1, h2, h3, h4, h5, h6, h7]; rfl))
theorem Encodes.vmul (s : BitVec 3) (d : BitVec 5) (a : BitVec 5) (b : BitVec 5) (e : BitVec 2) : Encodes.Statement (.vmul s d a b e) := by
  intro word hw
  obtain ⟨h0, h1, h2, h3, h4, h5, h6, h7⟩ := fields12 0x26#6 s 0x1#2 d a b e 0x2#4 word (Option.some.inj hw).symm
  exact .inl ((rawS26 h0).trans (by simp only [decS26, h1, h2, h3, h4, h5, h6, h7]; rfl))
theorem Encodes.vmin (s : BitVec 3) (d : BitVec 5) (a : BitVec 5) (b : BitVec 5) (e : BitVec 2) : Encodes.Statement (.vmin s d a b e) := by
  intro word hw
  obtain ⟨h0, h1, h2, h3, h4, h5, h6, h7⟩ := fields12 0x26#6 s 0x1#2 d a b e 0x3#4 word (Option.some.inj hw).symm
  exact .inl ((rawS26 h0).trans (by simp only [decS26, h1, h2, h3, h4, h5, h6, h7]; rfl))
theorem Encodes.vmax (s : BitVec 3) (d : BitVec 5) (a : BitVec 5) (b : BitVec 5) (e : BitVec 2) : Encodes.Statement (.vmax s d a b e) := by
  intro word hw
  obtain ⟨h0, h1, h2, h3, h4, h5, h6, h7⟩ := fields12 0x26#6 s 0x1#2 d a b e 0x4#4 word (Option.some.inj hw).symm
  exact .inl ((rawS26 h0).trans (by simp only [decS26, h1, h2, h3, h4, h5, h6, h7]; rfl))
theorem Encodes.vminu (s : BitVec 3) (d : BitVec 5) (a : BitVec 5) (b : BitVec 5) (e : BitVec 2) : Encodes.Statement (.vminu s d a b e) := by
  intro word hw
  obtain ⟨h0, h1, h2, h3, h4, h5, h6, h7⟩ := fields12 0x26#6 s 0x1#2 d a b e 0x5#4 word (Option.some.inj hw).symm
  exact .inl ((rawS26 h0).trans (by simp only [decS26, h1, h2, h3, h4, h5, h6, h7]; rfl))
theorem Encodes.vmaxu (s : BitVec 3) (d : BitVec 5) (a : BitVec 5) (b : BitVec 5) (e : BitVec 2) : Encodes.Statement (.vmaxu s d a b e) := by
  intro word hw
  obtain ⟨h0, h1, h2, h3, h4, h5, h6, h7⟩ := fields12 0x26#6 s 0x1#2 d a b e 0x6#4 word (Option.some.inj hw).symm
  exact .inl ((rawS26 h0).trans (by simp only [decS26, h1, h2, h3, h4, h5, h6, h7]; rfl))
theorem Encodes.vand (s : BitVec 3) (d : BitVec 5) (a : BitVec 5) (b : BitVec 5) (e : BitVec 2) : Encodes.Statement (.vand s d a b e) := by
  intro word hw
  obtain ⟨h0, h1, h2, h3, h4, h5, h6, h7⟩ := fields12 0x26#6 s 0x1#2 d a b e 0x7#4 word (Option.some.inj hw).symm
  exact .inl ((rawS26 h0).trans (by simp only [decS26, h1, h2, h3, h4, h5, h6, h7]; rfl))
theorem Encodes.vor (s : BitVec 3) (d : BitVec 5) (a : BitVec 5) (b : BitVec 5) (e : BitVec 2) : Encodes.Statement (.vor s d a b e) := by
  intro word hw
  obtain ⟨h0, h1, h2, h3, h4, h5, h6, h7⟩ := fields12 0x26#6 s 0x1#2 d a b e 0x8#4 word (Option.some.inj hw).symm
  exact .inl ((rawS26 h0).trans (by simp only [decS26, h1, h2, h3, h4, h5, h6, h7]; rfl))
theorem Encodes.vxor (s : BitVec 3) (d : BitVec 5) (a : BitVec 5) (b : BitVec 5) (e : BitVec 2) : Encodes.Statement (.vxor s d a b e) := by
  intro word hw
  obtain ⟨h0, h1, h2, h3, h4, h5, h6, h7⟩ := fields12 0x26#6 s 0x1#2 d a b e 0x9#4 word (Option.some.inj hw).symm
  exact .inl ((rawS26 h0).trans (by simp only [decS26, h1, h2, h3, h4, h5, h6, h7]; rfl))
theorem Encodes.vshl (s : BitVec 3) (d : BitVec 5) (a : BitVec 5) (b : BitVec 5) (e : BitVec 2) : Encodes.Statement (.vshl s d a b e) := by
  intro word hw
  obtain ⟨h0, h1, h2, h3, h4, h5, h6, h7⟩ := fields12 0x26#6 s 0x1#2 d a b e 0xA#4 word (Option.some.inj hw).symm
  exact .inl ((rawS26 h0).trans (by simp only [decS26, h1, h2, h3, h4, h5, h6, h7]; rfl))
theorem Encodes.vshr (s : BitVec 3) (d : BitVec 5) (a : BitVec 5) (b : BitVec 5) (e : BitVec 2) : Encodes.Statement (.vshr s d a b e) := by
  intro word hw
  obtain ⟨h0, h1, h2, h3, h4, h5, h6, h7⟩ := fields12 0x26#6 s 0x1#2 d a b e 0xB#4 word (Option.some.inj hw).symm
  exact .inl ((rawS26 h0).trans (by simp only [decS26, h1, h2, h3, h4, h5, h6, h7]; rfl))
theorem Encodes.vsar (s : BitVec 3) (d : BitVec 5) (a : BitVec 5) (b : BitVec 5) (e : BitVec 2) : Encodes.Statement (.vsar s d a b e) := by
  intro word hw
  obtain ⟨h0, h1, h2, h3, h4, h5, h6, h7⟩ := fields12 0x26#6 s 0x1#2 d a b e 0xC#4 word (Option.some.inj hw).symm
  exact .inl ((rawS26 h0).trans (by simp only [decS26, h1, h2, h3, h4, h5, h6, h7]; rfl))
theorem Encodes.vceq (s : BitVec 3) (d : BitVec 5) (a : BitVec 5) (b : BitVec 5) (e : BitVec 2) : Encodes.Statement (.vceq s d a b e) := by
  intro word hw
  obtain ⟨h0, h1, h2, h3, h4, h5, h6, h7⟩ := fields12 0x26#6 s 0x1#2 d a b e 0xD#4 word (Option.some.inj hw).symm
  exact .inl ((rawS26 h0).trans (by simp only [decS26, h1, h2, h3, h4, h5, h6, h7]; rfl))
theorem Encodes.vclt (s : BitVec 3) (d : BitVec 5) (a : BitVec 5) (b : BitVec 5) (e : BitVec 2) : Encodes.Statement (.vclt s d a b e) := by
  intro word hw
  obtain ⟨h0, h1, h2, h3, h4, h5, h6, h7⟩ := fields12 0x26#6 s 0x1#2 d a b e 0xE#4 word (Option.some.inj hw).symm
  exact .inl ((rawS26 h0).trans (by simp only [decS26, h1, h2, h3, h4, h5, h6, h7]; rfl))
theorem Encodes.vcltu (s : BitVec 3) (d : BitVec 5) (a : BitVec 5) (b : BitVec 5) (e : BitVec 2) : Encodes.Statement (.vcltu s d a b e) := by
  intro word hw
  obtain ⟨h0, h1, h2, h3, h4, h5, h6, h7⟩ := fields12 0x26#6 s 0x1#2 d a b e 0xF#4 word (Option.some.inj hw).symm
  exact .inl ((rawS26 h0).trans (by simp only [decS26, h1, h2, h3, h4, h5, h6, h7]; rfl))
theorem Encodes.vfadd (s : BitVec 3) (d : BitVec 5) (a : BitVec 5) (b : BitVec 5) (t : BitVec 2) : Encodes.Statement (.vfadd s d a b t) := by
  intro word hw
  obtain ⟨h0, h1, h2, h3, h4, h5, h6, h7⟩ := fields12 0x27#6 s 0x1#2 d a b t 0x0#4 word (Option.some.inj hw).symm
  exact .inl ((rawS27 h0).trans (by simp only [decS27, h1, h2, h3, h4, h5, h6, h7]; rfl))
theorem Encodes.vfsub (s : BitVec 3) (d : BitVec 5) (a : BitVec 5) (b : BitVec 5) (t : BitVec 2) : Encodes.Statement (.vfsub s d a b t) := by
  intro word hw
  obtain ⟨h0, h1, h2, h3, h4, h5, h6, h7⟩ := fields12 0x27#6 s 0x1#2 d a b t 0x1#4 word (Option.some.inj hw).symm
  exact .inl ((rawS27 h0).trans (by simp only [decS27, h1, h2, h3, h4, h5, h6, h7]; rfl))
theorem Encodes.vfmul (s : BitVec 3) (d : BitVec 5) (a : BitVec 5) (b : BitVec 5) (t : BitVec 2) : Encodes.Statement (.vfmul s d a b t) := by
  intro word hw
  obtain ⟨h0, h1, h2, h3, h4, h5, h6, h7⟩ := fields12 0x27#6 s 0x1#2 d a b t 0x2#4 word (Option.some.inj hw).symm
  exact .inl ((rawS27 h0).trans (by simp only [decS27, h1, h2, h3, h4, h5, h6, h7]; rfl))
theorem Encodes.vfma (s : BitVec 3) (d : BitVec 5) (a : BitVec 5) (b : BitVec 5) (t : BitVec 2) : Encodes.Statement (.vfma s d a b t) := by
  intro word hw
  obtain ⟨h0, h1, h2, h3, h4, h5, h6, h7⟩ := fields12 0x27#6 s 0x1#2 d a b t 0x3#4 word (Option.some.inj hw).symm
  exact .inl ((rawS27 h0).trans (by simp only [decS27, h1, h2, h3, h4, h5, h6, h7]; rfl))
theorem Encodes.vfmin (s : BitVec 3) (d : BitVec 5) (a : BitVec 5) (b : BitVec 5) (t : BitVec 2) : Encodes.Statement (.vfmin s d a b t) := by
  intro word hw
  obtain ⟨h0, h1, h2, h3, h4, h5, h6, h7⟩ := fields12 0x27#6 s 0x1#2 d a b t 0x4#4 word (Option.some.inj hw).symm
  exact .inl ((rawS27 h0).trans (by simp only [decS27, h1, h2, h3, h4, h5, h6, h7]; rfl))
theorem Encodes.vfmax (s : BitVec 3) (d : BitVec 5) (a : BitVec 5) (b : BitVec 5) (t : BitVec 2) : Encodes.Statement (.vfmax s d a b t) := by
  intro word hw
  obtain ⟨h0, h1, h2, h3, h4, h5, h6, h7⟩ := fields12 0x27#6 s 0x1#2 d a b t 0x5#4 word (Option.some.inj hw).symm
  exact .inl ((rawS27 h0).trans (by simp only [decS27, h1, h2, h3, h4, h5, h6, h7]; rfl))
theorem Encodes.vfabs (s : BitVec 3) (d : BitVec 5) (a : BitVec 5) (t : BitVec 2) : Encodes.Statement (.vfabs s d a t) := by
  intro word hw
  obtain ⟨h0, h1, h2, h3, h4, h5, h6, h7⟩ := fields12 0x27#6 s 0x1#2 d a 0x1F#5 t 0x6#4 word (Option.some.inj hw).symm
  exact .inl ((rawS27 h0).trans (by simp only [decS27, h1, h2, h3, h4, h5, h6, h7]; rfl))
theorem Encodes.vfneg (s : BitVec 3) (d : BitVec 5) (a : BitVec 5) (t : BitVec 2) : Encodes.Statement (.vfneg s d a t) := by
  intro word hw
  obtain ⟨h0, h1, h2, h3, h4, h5, h6, h7⟩ := fields12 0x27#6 s 0x1#2 d a 0x1F#5 t 0x7#4 word (Option.some.inj hw).symm
  exact .inl ((rawS27 h0).trans (by simp only [decS27, h1, h2, h3, h4, h5, h6, h7]; rfl))
theorem Encodes.vfceq (s : BitVec 3) (d : BitVec 5) (a : BitVec 5) (b : BitVec 5) (t : BitVec 2) : Encodes.Statement (.vfceq s d a b t) := by
  intro word hw
  obtain ⟨h0, h1, h2, h3, h4, h5, h6, h7⟩ := fields12 0x27#6 s 0x1#2 d a b t 0x8#4 word (Option.some.inj hw).symm
  exact .inl ((rawS27 h0).trans (by simp only [decS27, h1, h2, h3, h4, h5, h6, h7]; rfl))
theorem Encodes.vfclt (s : BitVec 3) (d : BitVec 5) (a : BitVec 5) (b : BitVec 5) (t : BitVec 2) : Encodes.Statement (.vfclt s d a b t) := by
  intro word hw
  obtain ⟨h0, h1, h2, h3, h4, h5, h6, h7⟩ := fields12 0x27#6 s 0x1#2 d a b t 0x9#4 word (Option.some.inj hw).symm
  exact .inl ((rawS27 h0).trans (by simp only [decS27, h1, h2, h3, h4, h5, h6, h7]; rfl))
theorem Encodes.vfcle (s : BitVec 3) (d : BitVec 5) (a : BitVec 5) (b : BitVec 5) (t : BitVec 2) : Encodes.Statement (.vfcle s d a b t) := by
  intro word hw
  obtain ⟨h0, h1, h2, h3, h4, h5, h6, h7⟩ := fields12 0x27#6 s 0x1#2 d a b t 0xA#4 word (Option.some.inj hw).symm
  exact .inl ((rawS27 h0).trans (by simp only [decS27, h1, h2, h3, h4, h5, h6, h7]; rfl))
theorem Encodes.vfrnd (s : BitVec 3) (d : BitVec 5) (a : BitVec 5) (t : BitVec 2) : Encodes.Statement (.vfrnd s d a t) := by
  intro word hw
  obtain ⟨h0, h1, h2, h3, h4, h5, h6, h7⟩ := fields12 0x27#6 s 0x1#2 d a 0x1F#5 t 0xB#4 word (Option.some.inj hw).symm
  exact .inl ((rawS27 h0).trans (by simp only [decS27, h1, h2, h3, h4, h5, h6, h7]; rfl))
theorem Encodes.vfscl (s : BitVec 3) (d : BitVec 5) (a : BitVec 5) (b : BitVec 5) (t : BitVec 2) : Encodes.Statement (.vfscl s d a b t) := by
  intro word hw
  obtain ⟨h0, h1, h2, h3, h4, h5, h6, h7⟩ := fields12 0x27#6 s 0x1#2 d a b t 0xC#4 word (Option.some.inj hw).symm
  exact .inl ((rawS27 h0).trans (by simp only [decS27, h1, h2, h3, h4, h5, h6, h7]; rfl))
theorem Encodes.vfcls (s : BitVec 3) (d : BitVec 5) (a : BitVec 5) (t : BitVec 2) : Encodes.Statement (.vfcls s d a t) := by
  intro word hw
  obtain ⟨h0, h1, h2, h3, h4, h5, h6, h7⟩ := fields12 0x27#6 s 0x1#2 d a 0x1F#5 t 0xD#4 word (Option.some.inj hw).symm
  exact .inl ((rawS27 h0).trans (by simp only [decS27, h1, h2, h3, h4, h5, h6, h7]; rfl))
theorem Encodes.vsplat (s : BitVec 3) (d : BitVec 5) (a : BitVec 5) (b : BitVec 5) (e : BitVec 2) : Encodes.Statement (.vsplat s d a b e) := by
  intro word hw
  obtain ⟨h0, h1, h2, h3, h4, h5, h6, h7⟩ := fields12 0x28#6 s 0x1#2 d a b e 0x0#4 word (Option.some.inj hw).symm
  exact .inl ((rawS28 h0).trans (by simp only [decS28, h1, h2, h3, h4, h5, h6, h7]; rfl))
theorem Encodes.vext (s : BitVec 3) (d : BitVec 5) (a : BitVec 5) (b : BitVec 5) (e : BitVec 2) : Encodes.Statement (.vext s d a b e) := by
  intro word hw
  obtain ⟨h0, h1, h2, h3, h4, h5, h6, h7⟩ := fields12 0x28#6 s 0x1#2 d a b e 0x1#4 word (Option.some.inj hw).symm
  exact .inl ((rawS28 h0).trans (by simp only [decS28, h1, h2, h3, h4, h5, h6, h7]; rfl))
theorem Encodes.vins (s : BitVec 3) (d : BitVec 5) (a : BitVec 5) (b : BitVec 5) (e : BitVec 2) : Encodes.Statement (.vins s d a b e) := by
  intro word hw
  obtain ⟨h0, h1, h2, h3, h4, h5, h6, h7⟩ := fields12 0x28#6 s 0x1#2 d a b e 0x2#4 word (Option.some.inj hw).symm
  exact .inl ((rawS28 h0).trans (by simp only [decS28, h1, h2, h3, h4, h5, h6, h7]; rfl))
theorem Encodes.vshuf (s : BitVec 3) (d : BitVec 5) (a : BitVec 5) (b : BitVec 5) (e : BitVec 2) : Encodes.Statement (.vshuf s d a b e) := by
  intro word hw
  obtain ⟨h0, h1, h2, h3, h4, h5, h6, h7⟩ := fields12 0x28#6 s 0x1#2 d a b e 0x3#4 word (Option.some.inj hw).symm
  exact .inl ((rawS28 h0).trans (by simp only [decS28, h1, h2, h3, h4, h5, h6, h7]; rfl))
theorem Encodes.vrev (s : BitVec 3) (d : BitVec 5) (a : BitVec 5) (e : BitVec 2) : Encodes.Statement (.vrev s d a e) := by
  intro word hw
  obtain ⟨h0, h1, h2, h3, h4, h5, h6, h7⟩ := fields12 0x28#6 s 0x1#2 d a 0x1F#5 e 0x4#4 word (Option.some.inj hw).symm
  exact .inl ((rawS28 h0).trans (by simp only [decS28, h1, h2, h3, h4, h5, h6, h7]; rfl))
theorem Encodes.vzip (s : BitVec 3) (d : BitVec 5) (a : BitVec 5) (b : BitVec 5) (e : BitVec 2) : Encodes.Statement (.vzip s d a b e) := by
  intro word hw
  obtain ⟨h0, h1, h2, h3, h4, h5, h6, h7⟩ := fields12 0x28#6 s 0x1#2 d a b e 0x5#4 word (Option.some.inj hw).symm
  exact .inl ((rawS28 h0).trans (by simp only [decS28, h1, h2, h3, h4, h5, h6, h7]; rfl))
theorem Encodes.vunz (s : BitVec 3) (d : BitVec 5) (a : BitVec 5) (b : BitVec 5) (e : BitVec 2) : Encodes.Statement (.vunz s d a b e) := by
  intro word hw
  obtain ⟨h0, h1, h2, h3, h4, h5, h6, h7⟩ := fields12 0x28#6 s 0x1#2 d a b e 0x6#4 word (Option.some.inj hw).symm
  exact .inl ((rawS28 h0).trans (by simp only [decS28, h1, h2, h3, h4, h5, h6, h7]; rfl))
theorem Encodes.vsumh (s : BitVec 3) (d : BitVec 5) (a : BitVec 5) (e : BitVec 2) : Encodes.Statement (.vsumh s d a e) := by
  intro word hw
  obtain ⟨h0, h1, h2, h3, h4, h5, h6, h7⟩ := fields12 0x28#6 s 0x1#2 d a 0x1F#5 e 0x7#4 word (Option.some.inj hw).symm
  exact .inl ((rawS28 h0).trans (by simp only [decS28, h1, h2, h3, h4, h5, h6, h7]; rfl))
theorem Encodes.vmaxh (s : BitVec 3) (d : BitVec 5) (a : BitVec 5) (e : BitVec 2) : Encodes.Statement (.vmaxh s d a e) := by
  intro word hw
  obtain ⟨h0, h1, h2, h3, h4, h5, h6, h7⟩ := fields12 0x28#6 s 0x1#2 d a 0x1F#5 e 0x8#4 word (Option.some.inj hw).symm
  exact .inl ((rawS28 h0).trans (by simp only [decS28, h1, h2, h3, h4, h5, h6, h7]; rfl))
theorem Encodes.vamaxh (s : BitVec 3) (d : BitVec 5) (a : BitVec 5) (e : BitVec 2) : Encodes.Statement (.vamaxh s d a e) := by
  intro word hw
  obtain ⟨h0, h1, h2, h3, h4, h5, h6, h7⟩ := fields12 0x28#6 s 0x1#2 d a 0x1F#5 e 0x9#4 word (Option.some.inj hw).symm
  exact .inl ((rawS28 h0).trans (by simp only [decS28, h1, h2, h3, h4, h5, h6, h7]; rfl))
theorem Encodes.vsel (s : BitVec 3) (d : BitVec 5) (a : BitVec 5) (b : BitVec 5) (e : BitVec 2) : Encodes.Statement (.vsel s d a b e) := by
  intro word hw
  obtain ⟨h0, h1, h2, h3, h4, h5, h6, h7⟩ := fields12 0x28#6 s 0x1#2 d a b e 0xA#4 word (Option.some.inj hw).symm
  exact .inl ((rawS28 h0).trans (by simp only [decS28, h1, h2, h3, h4, h5, h6, h7]; rfl))
theorem Encodes.vabs (s : BitVec 3) (d : BitVec 5) (a : BitVec 5) (e : BitVec 2) : Encodes.Statement (.vabs s d a e) := by
  intro word hw
  obtain ⟨h0, h1, h2, h3, h4, h5, h6, h7⟩ := fields12 0x28#6 s 0x1#2 d a 0x1F#5 e 0xB#4 word (Option.some.inj hw).symm
  exact .inl ((rawS28 h0).trans (by simp only [decS28, h1, h2, h3, h4, h5, h6, h7]; rfl))
theorem Encodes.vdot4 (s : BitVec 3) (d : BitVec 5) (a : BitVec 5) (b : BitVec 5) : Encodes.Statement (.vdot4 s d a b) := by
  intro word hw
  obtain ⟨h0, h1, h2, h3, h4, h5, h6, h7⟩ := fields12 0x28#6 s 0x1#2 d a b 0x0#2 0xC#4 word (Option.some.inj hw).symm
  exact .inl ((rawS28 h0).trans (by simp only [decS28, h1, h2, h3, h4, h5, h6, h7]; rfl))
theorem Encodes.vmov (s : BitVec 3) (d : BitVec 5) (a : BitVec 5) (e : BitVec 2) : Encodes.Statement (.vmov s d a e) := by
  intro word hw
  obtain ⟨h0, h1, h2, h3, h4, h5, h6, h7⟩ := fields12 0x28#6 s 0x1#2 d a 0x1F#5 e 0xD#4 word (Option.some.inj hw).symm
  exact .inl ((rawS28 h0).trans (by simp only [decS28, h1, h2, h3, h4, h5, h6, h7]; rfl))
theorem Encodes.vcvt (s : BitVec 3) (d : BitVec 5) (a : BitVec 5) (x : BitVec 5) (y : BitVec 5) (t : BitVec 1) : Encodes.Statement (.vcvt s d a x y t) := by
  intro word hw
  obtain ⟨h0, h1, h2, h3, h4, h5, h6, h7⟩ := fields14 0x29#6 s 0x1#2 d a x y t word (Option.some.inj hw).symm
  exact .inl ((rawS29 h0).trans (by simp only [decS29, h1, h2, h3, h4, h5, h6, h7]; rfl))
theorem Encodes.vcvts (s : BitVec 3) (d : BitVec 5) (a : BitVec 5) (x : BitVec 5) (y : BitVec 5) (t : BitVec 1) : Encodes.Statement (.vcvts s d a x y t) := by
  intro word hw
  obtain ⟨h0, h1, h2, h3, h4, h5, h6, h7⟩ := fields14 0x2A#6 s 0x1#2 d a x y t word (Option.some.inj hw).symm
  exact .inl ((rawS2A h0).trans (by simp only [decS2A, h1, h2, h3, h4, h5, h6, h7]; rfl))
theorem Encodes.frcp (s : BitVec 3) (d : BitVec 5) (a : BitVec 5) (t : BitVec 1) : Encodes.Statement (.frcp s d a t) := by
  intro word hw
  obtain ⟨h0, h1, h2, h3, h4, h5, h6, h7⟩ := fields15 0x2B#6 s 0x1#2 d a 0x1F#5 t 0x0#5 word (Option.some.inj hw).symm
  exact .inl ((rawS2B h0).trans (by simp only [decS2B, h1, h2, h3, h4, h5, h6, h7]; rfl))
theorem Encodes.frsq (s : BitVec 3) (d : BitVec 5) (a : BitVec 5) (t : BitVec 1) : Encodes.Statement (.frsq s d a t) := by
  intro word hw
  obtain ⟨h0, h1, h2, h3, h4, h5, h6, h7⟩ := fields15 0x2B#6 s 0x1#2 d a 0x1F#5 t 0x1#5 word (Option.some.inj hw).symm
  exact .inl ((rawS2B h0).trans (by simp only [decS2B, h1, h2, h3, h4, h5, h6, h7]; rfl))
theorem Encodes.fsqrt (s : BitVec 3) (d : BitVec 5) (a : BitVec 5) (t : BitVec 1) : Encodes.Statement (.fsqrt s d a t) := by
  intro word hw
  obtain ⟨h0, h1, h2, h3, h4, h5, h6, h7⟩ := fields15 0x2B#6 s 0x1#2 d a 0x1F#5 t 0x2#5 word (Option.some.inj hw).symm
  exact .inl ((rawS2B h0).trans (by simp only [decS2B, h1, h2, h3, h4, h5, h6, h7]; rfl))
theorem Encodes.fexp2 (s : BitVec 3) (d : BitVec 5) (a : BitVec 5) (t : BitVec 1) : Encodes.Statement (.fexp2 s d a t) := by
  intro word hw
  obtain ⟨h0, h1, h2, h3, h4, h5, h6, h7⟩ := fields15 0x2B#6 s 0x1#2 d a 0x1F#5 t 0x3#5 word (Option.some.inj hw).symm
  exact .inl ((rawS2B h0).trans (by simp only [decS2B, h1, h2, h3, h4, h5, h6, h7]; rfl))
theorem Encodes.flog2 (s : BitVec 3) (d : BitVec 5) (a : BitVec 5) (t : BitVec 1) : Encodes.Statement (.flog2 s d a t) := by
  intro word hw
  obtain ⟨h0, h1, h2, h3, h4, h5, h6, h7⟩ := fields15 0x2B#6 s 0x1#2 d a 0x1F#5 t 0x4#5 word (Option.some.inj hw).symm
  exact .inl ((rawS2B h0).trans (by simp only [decS2B, h1, h2, h3, h4, h5, h6, h7]; rfl))
theorem Encodes.fsinp (s : BitVec 3) (d : BitVec 5) (a : BitVec 5) (t : BitVec 1) : Encodes.Statement (.fsinp s d a t) := by
  intro word hw
  obtain ⟨h0, h1, h2, h3, h4, h5, h6, h7⟩ := fields15 0x2B#6 s 0x1#2 d a 0x1F#5 t 0x5#5 word (Option.some.inj hw).symm
  exact .inl ((rawS2B h0).trans (by simp only [decS2B, h1, h2, h3, h4, h5, h6, h7]; rfl))
theorem Encodes.fcosp (s : BitVec 3) (d : BitVec 5) (a : BitVec 5) (t : BitVec 1) : Encodes.Statement (.fcosp s d a t) := by
  intro word hw
  obtain ⟨h0, h1, h2, h3, h4, h5, h6, h7⟩ := fields15 0x2B#6 s 0x1#2 d a 0x1F#5 t 0x6#5 word (Option.some.inj hw).symm
  exact .inl ((rawS2B h0).trans (by simp only [decS2B, h1, h2, h3, h4, h5, h6, h7]; rfl))
theorem Encodes.ftanh (s : BitVec 3) (d : BitVec 5) (a : BitVec 5) (t : BitVec 1) : Encodes.Statement (.ftanh s d a t) := by
  intro word hw
  obtain ⟨h0, h1, h2, h3, h4, h5, h6, h7⟩ := fields15 0x2B#6 s 0x1#2 d a 0x1F#5 t 0x7#5 word (Option.some.inj hw).symm
  exact .inl ((rawS2B h0).trans (by simp only [decS2B, h1, h2, h3, h4, h5, h6, h7]; rfl))
theorem Encodes.ferf (s : BitVec 3) (d : BitVec 5) (a : BitVec 5) (t : BitVec 1) : Encodes.Statement (.ferf s d a t) := by
  intro word hw
  obtain ⟨h0, h1, h2, h3, h4, h5, h6, h7⟩ := fields15 0x2B#6 s 0x1#2 d a 0x1F#5 t 0x8#5 word (Option.some.inj hw).symm
  exact .inl ((rawS2B h0).trans (by simp only [decS2B, h1, h2, h3, h4, h5, h6, h7]; rfl))
theorem Encodes.fadd (s : BitVec 3) (d : BitVec 5) (a : BitVec 5) (b : BitVec 5) (t : BitVec 1) : Encodes.Statement (.fadd s d a b t) := by
  intro word hw
  obtain ⟨h0, h1, h2, h3, h4, h5, h6, h7, h8⟩ := fields16 0x2C#6 s 0x0#2 d a b 0x0#1 t 0x0#4 word (Option.some.inj hw).symm
  exact .inl ((rawS2C h0).trans (by simp only [decS2C, h1, h2, h3, h4, h5, h6, h7, h8]; rfl))
theorem Encodes.fsub (s : BitVec 3) (d : BitVec 5) (a : BitVec 5) (b : BitVec 5) (t : BitVec 1) : Encodes.Statement (.fsub s d a b t) := by
  intro word hw
  obtain ⟨h0, h1, h2, h3, h4, h5, h6, h7, h8⟩ := fields16 0x2C#6 s 0x0#2 d a b 0x0#1 t 0x1#4 word (Option.some.inj hw).symm
  exact .inl ((rawS2C h0).trans (by simp only [decS2C, h1, h2, h3, h4, h5, h6, h7, h8]; rfl))
theorem Encodes.fmul (s : BitVec 3) (d : BitVec 5) (a : BitVec 5) (b : BitVec 5) (t : BitVec 1) : Encodes.Statement (.fmul s d a b t) := by
  intro word hw
  obtain ⟨h0, h1, h2, h3, h4, h5, h6, h7, h8⟩ := fields16 0x2C#6 s 0x0#2 d a b 0x0#1 t 0x2#4 word (Option.some.inj hw).symm
  exact .inl ((rawS2C h0).trans (by simp only [decS2C, h1, h2, h3, h4, h5, h6, h7, h8]; rfl))
theorem Encodes.fmin (s : BitVec 3) (d : BitVec 5) (a : BitVec 5) (b : BitVec 5) (t : BitVec 1) : Encodes.Statement (.fmin s d a b t) := by
  intro word hw
  obtain ⟨h0, h1, h2, h3, h4, h5, h6, h7, h8⟩ := fields16 0x2C#6 s 0x0#2 d a b 0x0#1 t 0x3#4 word (Option.some.inj hw).symm
  exact .inl ((rawS2C h0).trans (by simp only [decS2C, h1, h2, h3, h4, h5, h6, h7, h8]; rfl))
theorem Encodes.fmax (s : BitVec 3) (d : BitVec 5) (a : BitVec 5) (b : BitVec 5) (t : BitVec 1) : Encodes.Statement (.fmax s d a b t) := by
  intro word hw
  obtain ⟨h0, h1, h2, h3, h4, h5, h6, h7, h8⟩ := fields16 0x2C#6 s 0x0#2 d a b 0x0#1 t 0x4#4 word (Option.some.inj hw).symm
  exact .inl ((rawS2C h0).trans (by simp only [decS2C, h1, h2, h3, h4, h5, h6, h7, h8]; rfl))
theorem Encodes.fabs (s : BitVec 3) (d : BitVec 5) (a : BitVec 5) (t : BitVec 1) : Encodes.Statement (.fabs s d a t) := by
  intro word hw
  obtain ⟨h0, h1, h2, h3, h4, h5, h6, h7, h8⟩ := fields16 0x2C#6 s 0x0#2 d a 0x1F#5 0x0#1 t 0x5#4 word (Option.some.inj hw).symm
  exact .inl ((rawS2C h0).trans (by simp only [decS2C, h1, h2, h3, h4, h5, h6, h7, h8]; rfl))
theorem Encodes.fceq (s : BitVec 3) (d : BitVec 5) (a : BitVec 5) (b : BitVec 5) (t : BitVec 1) : Encodes.Statement (.fceq s d a b t) := by
  intro word hw
  obtain ⟨h0, h1, h2, h3, h4, h5, h6, h7, h8⟩ := fields16 0x2C#6 s 0x0#2 d a b 0x0#1 t 0x6#4 word (Option.some.inj hw).symm
  exact .inl ((rawS2C h0).trans (by simp only [decS2C, h1, h2, h3, h4, h5, h6, h7, h8]; rfl))
theorem Encodes.fclt (s : BitVec 3) (d : BitVec 5) (a : BitVec 5) (b : BitVec 5) (t : BitVec 1) : Encodes.Statement (.fclt s d a b t) := by
  intro word hw
  obtain ⟨h0, h1, h2, h3, h4, h5, h6, h7, h8⟩ := fields16 0x2C#6 s 0x0#2 d a b 0x0#1 t 0x7#4 word (Option.some.inj hw).symm
  exact .inl ((rawS2C h0).trans (by simp only [decS2C, h1, h2, h3, h4, h5, h6, h7, h8]; rfl))
theorem Encodes.fcle (s : BitVec 3) (d : BitVec 5) (a : BitVec 5) (b : BitVec 5) (t : BitVec 1) : Encodes.Statement (.fcle s d a b t) := by
  intro word hw
  obtain ⟨h0, h1, h2, h3, h4, h5, h6, h7, h8⟩ := fields16 0x2C#6 s 0x0#2 d a b 0x0#1 t 0x8#4 word (Option.some.inj hw).symm
  exact .inl ((rawS2C h0).trans (by simp only [decS2C, h1, h2, h3, h4, h5, h6, h7, h8]; rfl))
theorem Encodes.fcvti (s : BitVec 3) (d : BitVec 5) (a : BitVec 5) (t : BitVec 1) : Encodes.Statement (.fcvti s d a t) := by
  intro word hw
  obtain ⟨h0, h1, h2, h3, h4, h5, h6, h7, h8⟩ := fields16 0x2C#6 s 0x0#2 d a 0x1F#5 0x0#1 t 0x9#4 word (Option.some.inj hw).symm
  exact .inl ((rawS2C h0).trans (by simp only [decS2C, h1, h2, h3, h4, h5, h6, h7, h8]; rfl))
theorem Encodes.fcvtf (s : BitVec 3) (d : BitVec 5) (a : BitVec 5) (t : BitVec 1) : Encodes.Statement (.fcvtf s d a t) := by
  intro word hw
  obtain ⟨h0, h1, h2, h3, h4, h5, h6, h7, h8⟩ := fields16 0x2C#6 s 0x0#2 d a 0x1F#5 0x0#1 t 0xA#4 word (Option.some.inj hw).symm
  exact .inl ((rawS2C h0).trans (by simp only [decS2C, h1, h2, h3, h4, h5, h6, h7, h8]; rfl))
theorem Encodes.fcvtw (s : BitVec 3) (d : BitVec 5) (a : BitVec 5) (t : BitVec 1) : Encodes.Statement (.fcvtw s d a t) := by
  intro word hw
  obtain ⟨h0, h1, h2, h3, h4, h5, h6, h7, h8⟩ := fields16 0x2C#6 s 0x0#2 d a 0x1F#5 0x0#1 t 0xB#4 word (Option.some.inj hw).symm
  exact .inl ((rawS2C h0).trans (by simp only [decS2C, h1, h2, h3, h4, h5, h6, h7, h8]; rfl))
theorem Encodes.zdraw (s : BitVec 3) (d : BitVec 5) (a : BitVec 5) (b : BitVec 5) : Encodes.Statement (.zdraw s d a b) := by
  intro word hw
  obtain ⟨h0, h1, h2, h3, h4, h5, h6⟩ := fields1 0x2D#6 s 0x0#2 d a b 0x0#6 word (Option.some.inj hw).symm
  exact .inl ((rawS2D h0).trans (by simp only [decS2D, h1, h2, h3, h4, h5, h6]; rfl))
theorem Encodes.zltq (s : BitVec 3) (d : BitVec 5) (a : BitVec 5) (b : BitVec 5) : Encodes.Statement (.zltq s d a b) := by
  intro word hw
  obtain ⟨h0, h1, h2, h3, h4, h5, h6⟩ := fields1 0x2D#6 s 0x0#2 d a b 0x1#6 word (Option.some.inj hw).symm
  exact .inl ((rawS2D h0).trans (by simp only [decS2D, h1, h2, h3, h4, h5, h6]; rfl))
theorem Encodes.zltf (s : BitVec 3) (d : BitVec 5) (a : BitVec 5) (b : BitVec 5) : Encodes.Statement (.zltf s d a b) := by
  intro word hw
  obtain ⟨h0, h1, h2, h3, h4, h5, h6⟩ := fields1 0x2D#6 s 0x0#2 d a b 0x2#6 word (Option.some.inj hw).symm
  exact .inl ((rawS2D h0).trans (by simp only [decS2D, h1, h2, h3, h4, h5, h6]; rfl))
theorem Encodes.zltz (s : BitVec 3) (d : BitVec 5) (a : BitVec 5) (b : BitVec 5) : Encodes.Statement (.zltz s d a b) := by
  intro word hw
  obtain ⟨h0, h1, h2, h3, h4, h5, h6⟩ := fields1 0x2D#6 s 0x0#2 d a b 0x3#6 word (Option.some.inj hw).symm
  exact .inl ((rawS2D h0).trans (by simp only [decS2D, h1, h2, h3, h4, h5, h6]; rfl))
theorem Encodes.zfloor (s : BitVec 3) (d : BitVec 5) (a : BitVec 5) (b : BitVec 5) : Encodes.Statement (.zfloor s d a b) := by
  intro word hw
  obtain ⟨h0, h1, h2, h3, h4, h5, h6⟩ := fields1 0x2D#6 s 0x0#2 d a b 0x4#6 word (Option.some.inj hw).symm
  exact .inl ((rawS2D h0).trans (by simp only [decS2D, h1, h2, h3, h4, h5, h6]; rfl))
theorem Encodes.zext (s : BitVec 3) (a : BitVec 5) (b : BitVec 5) : Encodes.Statement (.zext s a b) := by
  intro word hw
  obtain ⟨h0, h1, h2, h3, h4, h5, h6⟩ := fields1 0x2D#6 s 0x0#2 0x1F#5 a b 0x5#6 word (Option.some.inj hw).symm
  exact .inl ((rawS2D h0).trans (by simp only [decS2D, h1, h2, h3, h4, h5, h6]; rfl))
theorem Encodes.zlen (s : BitVec 3) (d : BitVec 5) (a : BitVec 5) : Encodes.Statement (.zlen s d a) := by
  intro word hw
  obtain ⟨h0, h1, h2, h3, h4, h5, h6⟩ := fields1 0x2D#6 s 0x0#2 d a 0x1F#5 0x6#6 word (Option.some.inj hw).symm
  exact .inl ((rawS2D h0).trans (by simp only [decS2D, h1, h2, h3, h4, h5, h6]; rfl))
theorem Encodes.zbits (s : BitVec 3) (d : BitVec 5) (a : BitVec 5) (b : BitVec 5) : Encodes.Statement (.zbits s d a b) := by
  intro word hw
  obtain ⟨h0, h1, h2, h3, h4, h5, h6⟩ := fields1 0x2D#6 s 0x0#2 d a b 0x7#6 word (Option.some.inj hw).symm
  exact .inl ((rawS2D h0).trans (by simp only [decS2D, h1, h2, h3, h4, h5, h6]; rfl))
theorem Encodes.zmov (s : BitVec 3) (d : BitVec 5) (a : BitVec 5) : Encodes.Statement (.zmov s d a) := by
  intro word hw
  obtain ⟨h0, h1, h2, h3, h4, h5, h6⟩ := fields1 0x2D#6 s 0x0#2 d a 0x1F#5 0x8#6 word (Option.some.inj hw).symm
  exact .inl ((rawS2D h0).trans (by simp only [decS2D, h1, h2, h3, h4, h5, h6]; rfl))
theorem Encodes.zld (s : BitVec 3) (d : BitVec 5) (a : BitVec 5) : Encodes.Statement (.zld s d a) := by
  intro word hw
  obtain ⟨h0, h1, h2, h3, h4, h5, h6⟩ := fields1 0x2D#6 s 0x0#2 d a 0x1F#5 0x9#6 word (Option.some.inj hw).symm
  exact .inl ((rawS2D h0).trans (by simp only [decS2D, h1, h2, h3, h4, h5, h6]; rfl))
theorem Encodes.zst (s : BitVec 3) (a : BitVec 5) (b : BitVec 5) : Encodes.Statement (.zst s a b) := by
  intro word hw
  obtain ⟨h0, h1, h2, h3, h4, h5, h6⟩ := fields1 0x2D#6 s 0x0#2 0x1F#5 a b 0xA#6 word (Option.some.inj hw).symm
  exact .inl ((rawS2D h0).trans (by simp only [decS2D, h1, h2, h3, h4, h5, h6]; rfl))
theorem Encodes.sbind (s : BitVec 3) (a : BitVec 5) (b : BitVec 5) : Encodes.Statement (.sbind s a b) := by
  intro word hw
  obtain ⟨h0, h1, h2, h3, h4, h5, h6⟩ := fields1 0x2E#6 s 0x0#2 0x1F#5 a b 0x0#6 word (Option.some.inj hw).symm
  exact .inl ((rawS2E h0).trans (by simp only [decS2E, h1, h2, h3, h4, h5, h6]; rfl))
theorem Encodes.sfree (s : BitVec 3) (a : BitVec 5) : Encodes.Statement (.sfree s a) := by
  intro word hw
  obtain ⟨h0, h1, h2, h3, h4, h5, h6⟩ := fields1 0x2E#6 s 0x0#2 0x1F#5 a 0x1F#5 0x1#6 word (Option.some.inj hw).symm
  exact .inl ((rawS2E h0).trans (by simp only [decS2E, h1, h2, h3, h4, h5, h6]; rfl))
theorem Encodes.rndw (s : BitVec 3) (d : BitVec 5) (a : BitVec 5) (b : BitVec 5) : Encodes.Statement (.rndw s d a b) := by
  intro word hw
  obtain ⟨h0, h1, h2, h3, h4, h5, h6⟩ := fields1 0x2E#6 s 0x0#2 d a b 0x2#6 word (Option.some.inj hw).symm
  exact .inl ((rawS2E h0).trans (by simp only [decS2E, h1, h2, h3, h4, h5, h6]; rfl))
theorem Encodes.rndv (s : BitVec 3) (d : BitVec 5) (a : BitVec 5) (b : BitVec 5) : Encodes.Statement (.rndv s d a b) := by
  intro word hw
  obtain ⟨h0, h1, h2, h3, h4, h5, h6⟩ := fields1 0x2E#6 s 0x0#2 d a b 0x3#6 word (Option.some.inj hw).symm
  exact .inl ((rawS2E h0).trans (by simp only [decS2E, h1, h2, h3, h4, h5, h6]; rfl))
theorem Encodes.sgen (s : BitVec 3) (d : BitVec 5) (a : BitVec 5) : Encodes.Statement (.sgen s d a) := by
  intro word hw
  obtain ⟨h0, h1, h2, h3, h4, h5, h6⟩ := fields1 0x2E#6 s 0x0#2 d a 0x1F#5 0x4#6 word (Option.some.inj hw).symm
  exact .inl ((rawS2E h0).trans (by simp only [decS2E, h1, h2, h3, h4, h5, h6]; rfl))
theorem Encodes.glaunch (s : BitVec 3) (d : BitVec 5) (a : BitVec 5) (b : BitVec 5) : Encodes.Statement (.glaunch s d a b) := by
  intro word hw
  obtain ⟨h0, h1, h2, h3, h4, h5, h6⟩ := fields1 0x2F#6 s 0x0#2 d a b 0x0#6 word (Option.some.inj hw).symm
  exact .inl ((rawS2F h0).trans (by simp only [decS2F, h1, h2, h3, h4, h5, h6]; rfl))
theorem Encodes.gquery (s : BitVec 3) (d : BitVec 5) (a : BitVec 5) : Encodes.Statement (.gquery s d a) := by
  intro word hw
  obtain ⟨h0, h1, h2, h3, h4, h5, h6⟩ := fields1 0x2F#6 s 0x0#2 d a 0x1F#5 0x1#6 word (Option.some.inj hw).symm
  exact .inl ((rawS2F h0).trans (by simp only [decS2F, h1, h2, h3, h4, h5, h6]; rfl))
theorem Encodes.cpy (a : BitVec 5) (b : BitVec 5) (w : BitVec 8) (l : BitVec 3) (s : BitVec 1) : Encodes.Statement (.cpy a b w l s) := by
  intro word hw
  obtain ⟨h0, h1, h2, h3, h4, h5, h6, h7⟩ := fields17 0x30#6 0x0#3 a b w l s 0x0#1 word (Option.some.inj hw).symm
  exact .inl ((rawS30 h0).trans (by simp only [decS30, h1, h2, h3, h4, h5, h6, h7]; rfl))
theorem Encodes.csetg (a : BitVec 5) (b : BitVec 5) : Encodes.Statement (.csetg a b) := by
  intro word hw
  obtain ⟨h0, h1, h2, h3, h4, h5, h6, h7⟩ := fields17 0x30#6 0x1#3 a b 0x0#8 0x0#3 0x0#1 0x0#1 word (Option.some.inj hw).symm
  exact .inl ((rawS30 h0).trans (by simp only [decS30, h1, h2, h3, h4, h5, h6, h7]; rfl))
theorem Encodes.cgetg (a : BitVec 5) : Encodes.Statement (.cgetg a) := by
  intro word hw
  obtain ⟨h0, h1, h2, h3, h4, h5, h6, h7⟩ := fields17 0x30#6 0x2#3 a 0x1F#5 0x0#8 0x0#3 0x0#1 0x0#1 word (Option.some.inj hw).symm
  exact .inl ((rawS30 h0).trans (by simp only [decS30, h1, h2, h3, h4, h5, h6, h7]; rfl))
theorem Encodes.mma (a : BitVec 5) (b : BitVec 5) (w : BitVec 8) (l : BitVec 3) (s : BitVec 1) : Encodes.Statement (.mma a b w l s) := by
  intro word hw
  obtain ⟨h0, h1, h2, h3, h4, h5, h6, h7⟩ := fields17 0x31#6 0x0#3 a b w l s 0x0#1 word (Option.some.inj hw).symm
  exact .inl ((rawS31 h0).trans (by simp only [decS31, h1, h2, h3, h4, h5, h6, h7]; rfl))
theorem Encodes.msetg (a : BitVec 5) (b : BitVec 5) : Encodes.Statement (.msetg a b) := by
  intro word hw
  obtain ⟨h0, h1, h2, h3, h4, h5, h6, h7⟩ := fields17 0x31#6 0x1#3 a b 0x0#8 0x0#3 0x0#1 0x0#1 word (Option.some.inj hw).symm
  exact .inl ((rawS31 h0).trans (by simp only [decS31, h1, h2, h3, h4, h5, h6, h7]; rfl))
theorem Encodes.mgetg (a : BitVec 5) : Encodes.Statement (.mgetg a) := by
  intro word hw
  obtain ⟨h0, h1, h2, h3, h4, h5, h6, h7⟩ := fields17 0x31#6 0x2#3 a 0x1F#5 0x0#8 0x0#3 0x0#1 0x0#1 word (Option.some.inj hw).symm
  exact .inl ((rawS31 h0).trans (by simp only [decS31, h1, h2, h3, h4, h5, h6, h7]; rfl))
theorem Encodes.mldc (a : BitVec 5) (b : BitVec 5) (w : BitVec 8) (l : BitVec 3) (s : BitVec 1) : Encodes.Statement (.mldc a b w l s) := by
  intro word hw
  obtain ⟨h0, h1, h2, h3, h4, h5, h6, h7⟩ := fields17 0x31#6 0x3#3 a b w l s 0x0#1 word (Option.some.inj hw).symm
  exact .inl ((rawS31 h0).trans (by simp only [decS31, h1, h2, h3, h4, h5, h6, h7]; simp))
theorem Encodes.mstc (a : BitVec 5) (b : BitVec 5) (w : BitVec 8) (l : BitVec 3) (s : BitVec 1) : Encodes.Statement (.mstc a b w l s) := by
  intro word hw
  obtain ⟨h0, h1, h2, h3, h4, h5, h6, h7⟩ := fields17 0x31#6 0x4#3 a b w l s 0x0#1 word (Option.some.inj hw).symm
  exact .inl ((rawS31 h0).trans (by simp only [decS31, h1, h2, h3, h4, h5, h6, h7]; simp))
theorem Encodes.mzero (a : BitVec 5) (w : BitVec 8) (l : BitVec 3) (s : BitVec 1) : Encodes.Statement (.mzero a w l s) := by
  intro word hw
  obtain ⟨h0, h1, h2, h3, h4, h5, h6, h7⟩ := fields17 0x31#6 0x5#3 a 0x1F#5 w l s 0x0#1 word (Option.some.inj hw).symm
  exact .inl ((rawS31 h0).trans (by simp only [decS31, h1, h2, h3, h4, h5, h6, h7]; simp))
theorem Encodes.mcommit : Encodes.Statement .mcommit := by
  intro word hw
  obtain ⟨h0, h1, h2, h3, h4, h5, h6, h7⟩ := fields17 0x31#6 0x6#3 0x1F#5 0x1F#5 0x0#8 0x0#3 0x0#1 0x0#1 word (Option.some.inj hw).symm
  exact .inl ((rawS31 h0).trans (by simp only [decS31, h1, h2, h3, h4, h5, h6, h7]; rfl))
theorem Encodes.mwait (a : BitVec 5) : Encodes.Statement (.mwait a) := by
  intro word hw
  obtain ⟨h0, h1, h2, h3, h4, h5, h6, h7⟩ := fields17 0x31#6 0x7#3 a 0x1F#5 0x0#8 0x0#3 0x0#1 0x0#1 word (Option.some.inj hw).symm
  exact .inl ((rawS31 h0).trans (by simp only [decS31, h1, h2, h3, h4, h5, h6, h7]; simp))
theorem Encodes.coll (a : BitVec 5) (b : BitVec 5) (w : BitVec 8) (l : BitVec 3) (s : BitVec 1) : Encodes.Statement (.coll a b w l s) := by
  intro word hw
  obtain ⟨h0, h1, h2, h3, h4, h5, h6, h7⟩ := fields17 0x32#6 0x0#3 a b w l s 0x0#1 word (Option.some.inj hw).symm
  exact .inl ((rawS32 h0).trans (by simp only [decS32, h1, h2, h3, h4, h5, h6, h7]; rfl))
theorem Encodes.cquery (a : BitVec 5) : Encodes.Statement (.cquery a) := by
  intro word hw
  obtain ⟨h0, h1, h2, h3, h4, h5, h6, h7⟩ := fields17 0x32#6 0x1#3 a 0x1F#5 0x0#8 0x0#3 0x0#1 0x0#1 word (Option.some.inj hw).symm
  exact .inl ((rawS32 h0).trans (by simp only [decS32, h1, h2, h3, h4, h5, h6, h7]; rfl))
theorem Encodes.cabort (a : BitVec 5) : Encodes.Statement (.cabort a) := by
  intro word hw
  obtain ⟨h0, h1, h2, h3, h4, h5, h6, h7⟩ := fields17 0x32#6 0x2#3 a 0x1F#5 0x0#8 0x0#3 0x0#1 0x0#1 word (Option.some.inj hw).symm
  exact .inl ((rawS32 h0).trans (by simp only [decS32, h1, h2, h3, h4, h5, h6, h7]; rfl))
theorem Encodes.rkovl (a : BitVec 5) (b : BitVec 5) (w : BitVec 8) (l : BitVec 3) (s : BitVec 1) : Encodes.Statement (.rkovl a b w l s) := by
  intro word hw
  obtain ⟨h0, h1, h2, h3, h4, h5, h6, h7⟩ := fields17 0x33#6 0x0#3 a b w l s 0x0#1 word (Option.some.inj hw).symm
  exact .inl ((rawS33 h0).trans (by simp only [decS33, h1, h2, h3, h4, h5, h6, h7]; rfl))
theorem Encodes.rkrun (a : BitVec 5) (b : BitVec 5) (w : BitVec 8) (l : BitVec 3) (s : BitVec 1) : Encodes.Statement (.rkrun a b w l s) := by
  intro word hw
  obtain ⟨h0, h1, h2, h3, h4, h5, h6, h7⟩ := fields17 0x33#6 0x1#3 a b w l s 0x0#1 word (Option.some.inj hw).symm
  exact .inl ((rawS33 h0).trans (by simp only [decS33, h1, h2, h3, h4, h5, h6, h7]; rfl))
theorem Encodes.rksig (a : BitVec 5) (b : BitVec 5) (w : BitVec 8) : Encodes.Statement (.rksig a b w) := by
  intro word hw
  obtain ⟨h0, h1, h2, h3, h4, h5, h6, h7⟩ := fields17 0x33#6 0x2#3 a b w 0x0#3 0x0#1 0x0#1 word (Option.some.inj hw).symm
  exact .inl ((rawS33 h0).trans (by simp only [decS33, h1, h2, h3, h4, h5, h6, h7]; rfl))
theorem Encodes.rkstat (a : BitVec 5) : Encodes.Statement (.rkstat a) := by
  intro word hw
  obtain ⟨h0, h1, h2, h3, h4, h5, h6, h7⟩ := fields17 0x33#6 0x3#3 a 0x1F#5 0x0#8 0x0#3 0x0#1 0x0#1 word (Option.some.inj hw).symm
  exact .inl ((rawS33 h0).trans (by simp only [decS33, h1, h2, h3, h4, h5, h6, h7]; rfl))
theorem Encodes.rkstop (a : BitVec 5) (w : BitVec 8) : Encodes.Statement (.rkstop a w) := by
  intro word hw
  obtain ⟨h0, h1, h2, h3, h4, h5, h6, h7⟩ := fields17 0x33#6 0x4#3 a 0x1F#5 w 0x0#3 0x0#1 0x0#1 word (Option.some.inj hw).symm
  exact .inl ((rawS33 h0).trans (by simp only [decS33, h1, h2, h3, h4, h5, h6, h7]; simp))
theorem Encodes.dwait (w : BitVec 8) : Encodes.Statement (.dwait w) := by
  intro word hw
  obtain ⟨h0, h1, h2, h3⟩ := fields18 0x34#6 0x3FF#13 w 0x0#5 word (Option.some.inj hw).symm
  exact .inl ((rawS34 h0).trans (by simp only [decS34, h1, h2, h3]; rfl))
theorem Encodes.dstat : Encodes.Statement .dstat := by
  intro word hw
  obtain ⟨h0, h1, h2, h3⟩ := fields18 0x34#6 0x7FF#13 0x0#8 0x0#5 word (Option.some.inj hw).symm
  exact .inl ((rawS34 h0).trans (by simp only [decS34, h1, h2, h3]; rfl))
theorem Encodes.sli (x : BitVec 4) (y : BitVec 4) (i : BitVec 14) : Encodes.Statement (.sli x y i) := by
  intro word hw
  obtain ⟨h0, h1, h2, h3, h4⟩ := fields19 0x1#6 x y 0x0#4 i word (Option.some.inj hw).symm
  exact .inr ((rawM01 h0).trans (by simp only [decM01, h1, h2, h3, h4]; rfl))
theorem Encodes.slih (x : BitVec 4) (y : BitVec 4) (i : BitVec 14) : Encodes.Statement (.slih x y i) := by
  intro word hw
  obtain ⟨h0, h1, h2, h3, h4⟩ := fields19 0x2#6 x y 0x0#4 i word (Option.some.inj hw).symm
  exact .inr ((rawM02 h0).trans (by simp only [decM02, h1, h2, h3, h4]; rfl))
theorem Encodes.sadd (x : BitVec 4) (y : BitVec 4) (z : BitVec 4) : Encodes.Statement (.sadd x y z) := by
  intro word hw
  obtain ⟨h0, h1, h2, h3, h4⟩ := fields19 0x3#6 x y z 0x0#14 word (Option.some.inj hw).symm
  exact .inr ((rawM03 h0).trans (by simp only [decM03, h1, h2, h3, h4]; rfl))
theorem Encodes.saddi (x : BitVec 4) (y : BitVec 4) (i : BitVec 14) : Encodes.Statement (.saddi x y i) := by
  intro word hw
  obtain ⟨h0, h1, h2, h3, h4⟩ := fields19 0x4#6 x y 0x0#4 i word (Option.some.inj hw).symm
  exact .inr ((rawM04 h0).trans (by simp only [decM04, h1, h2, h3, h4]; rfl))
theorem Encodes.ssub (x : BitVec 4) (y : BitVec 4) (z : BitVec 4) : Encodes.Statement (.ssub x y z) := by
  intro word hw
  obtain ⟨h0, h1, h2, h3, h4⟩ := fields19 0x5#6 x y z 0x0#14 word (Option.some.inj hw).symm
  exact .inr ((rawM05 h0).trans (by simp only [decM05, h1, h2, h3, h4]; rfl))
theorem Encodes.sand (x : BitVec 4) (y : BitVec 4) (z : BitVec 4) : Encodes.Statement (.sand x y z) := by
  intro word hw
  obtain ⟨h0, h1, h2, h3, h4⟩ := fields19 0x6#6 x y z 0x0#14 word (Option.some.inj hw).symm
  exact .inr ((rawM06 h0).trans (by simp only [decM06, h1, h2, h3, h4]; rfl))
theorem Encodes.sor (x : BitVec 4) (y : BitVec 4) (z : BitVec 4) : Encodes.Statement (.sor x y z) := by
  intro word hw
  obtain ⟨h0, h1, h2, h3, h4⟩ := fields19 0x7#6 x y z 0x0#14 word (Option.some.inj hw).symm
  exact .inr ((rawM07 h0).trans (by simp only [decM07, h1, h2, h3, h4]; rfl))
theorem Encodes.sxor (x : BitVec 4) (y : BitVec 4) (z : BitVec 4) : Encodes.Statement (.sxor x y z) := by
  intro word hw
  obtain ⟨h0, h1, h2, h3, h4⟩ := fields19 0x8#6 x y z 0x0#14 word (Option.some.inj hw).symm
  exact .inr ((rawM08 h0).trans (by simp only [decM08, h1, h2, h3, h4]; rfl))
theorem Encodes.sshl (x : BitVec 4) (y : BitVec 4) (z : BitVec 4) : Encodes.Statement (.sshl x y z) := by
  intro word hw
  obtain ⟨h0, h1, h2, h3, h4⟩ := fields19 0x9#6 x y z 0x0#14 word (Option.some.inj hw).symm
  exact .inr ((rawM09 h0).trans (by simp only [decM09, h1, h2, h3, h4]; rfl))
theorem Encodes.sshr (x : BitVec 4) (y : BitVec 4) (z : BitVec 4) : Encodes.Statement (.sshr x y z) := by
  intro word hw
  obtain ⟨h0, h1, h2, h3, h4⟩ := fields19 0xA#6 x y z 0x0#14 word (Option.some.inj hw).symm
  exact .inr ((rawM0A h0).trans (by simp only [decM0A, h1, h2, h3, h4]; rfl))
theorem Encodes.smul (x : BitVec 4) (y : BitVec 4) (z : BitVec 4) : Encodes.Statement (.smul x y z) := by
  intro word hw
  obtain ⟨h0, h1, h2, h3, h4⟩ := fields19 0xB#6 x y z 0x0#14 word (Option.some.inj hw).symm
  exact .inr ((rawM0B h0).trans (by simp only [decM0B, h1, h2, h3, h4]; rfl))
theorem Encodes.sclt (x : BitVec 4) (y : BitVec 4) (z : BitVec 4) : Encodes.Statement (.sclt x y z) := by
  intro word hw
  obtain ⟨h0, h1, h2, h3, h4⟩ := fields19 0xC#6 x y z 0x0#14 word (Option.some.inj hw).symm
  exact .inr ((rawM0C h0).trans (by simp only [decM0C, h1, h2, h3, h4]; rfl))
theorem Encodes.sbz (x : BitVec 4) (i : BitVec 14) : Encodes.Statement (.sbz x i) := by
  intro word hw
  obtain ⟨h0, h1, h2, h3⟩ := fields20 0xD#6 x 0x0#8 i word (Option.some.inj hw).symm
  exact .inr ((rawM0D h0).trans (by simp only [decM0D, h1, h2, h3]; rfl))
theorem Encodes.sbnz (x : BitVec 4) (i : BitVec 14) : Encodes.Statement (.sbnz x i) := by
  intro word hw
  obtain ⟨h0, h1, h2, h3⟩ := fields20 0xD#6 x 0x10#8 i word (Option.some.inj hw).symm
  exact .inr ((rawM0D h0).trans (by simp only [decM0D, h1, h2, h3]; rfl))
theorem Encodes.sj (i : BitVec 14) : Encodes.Statement (.sj i) := by
  intro word hw
  obtain ⟨h0, h1, h2⟩ := fields21 0xE#6 0x0#12 i word (Option.some.inj hw).symm
  exact .inr ((rawM0E h0).trans (by simp only [decM0E, h1, h2]; rfl))
theorem Encodes.sloop (x : BitVec 4) (i : BitVec 14) : Encodes.Statement (.sloop x i) := by
  intro word hw
  obtain ⟨h0, h1, h2, h3⟩ := fields20 0xF#6 x 0x0#8 i word (Option.some.inj hw).symm
  exact .inr ((rawM0F h0).trans (by simp only [decM0F, h1, h2, h3]; rfl))
theorem Encodes.cset (x : BitVec 4) (y : BitVec 4) (c : BitVec 5) : Encodes.Statement (.cset x y c) := by
  intro word hw
  obtain ⟨h0, h1, h2, h3, h4⟩ := fields22 0x10#6 x y 0x0#13 c word (Option.some.inj hw).symm
  exact .inr ((rawM10 h0).trans (by simp only [decM10, h1, h2, h3, h4]; rfl))
theorem Encodes.cstride (x : BitVec 4) (i : BitVec 14) : Encodes.Statement (.cstride x i) := by
  intro word hw
  obtain ⟨h0, h1, h2, h3⟩ := fields20 0x11#6 x 0x0#8 i word (Option.some.inj hw).symm
  exact .inr ((rawM11 h0).trans (by simp only [decM11, h1, h2, h3]; rfl))
theorem Encodes.cnext (x : BitVec 4) : Encodes.Statement (.cnext x) := by
  intro word hw
  obtain ⟨h0, h1, h2⟩ := fields23 0x12#6 x 0x0#22 word (Option.some.inj hw).symm
  exact .inr ((rawM12 h0).trans (by simp only [decM12, h1, h2]; rfl))
theorem Encodes.vld (x : BitVec 4) (y : BitVec 4) : Encodes.Statement (.vld x y) := by
  intro word hw
  obtain ⟨h0, h1, h2, h3⟩ := fields24 0x13#6 x y 0x0#18 word (Option.some.inj hw).symm
  exact .inr ((rawM13 h0).trans (by simp only [decM13, h1, h2, h3]; rfl))
theorem Encodes.vst (x : BitVec 4) (y : BitVec 4) : Encodes.Statement (.vst x y) := by
  intro word hw
  obtain ⟨h0, h1, h2, h3⟩ := fields24 0x14#6 x y 0x0#18 word (Option.some.inj hw).symm
  exact .inr ((rawM14 h0).trans (by simp only [decM14, h1, h2, h3]; rfl))
theorem Encodes.mwVadd (x : BitVec 4) (y : BitVec 4) (z : BitVec 4) (r : BitVec 3) (t : BitVec 1) : Encodes.Statement (.mwVadd x y z r t) := by
  intro word hw
  obtain ⟨h0, h1, h2, h3, h4, h5, h6⟩ := fields25 0x15#6 x y z 0x0#10 r t word (Option.some.inj hw).symm
  exact .inr ((rawM15 h0).trans (by simp only [decM15, h1, h2, h3, h4, h5, h6]; rfl))
theorem Encodes.mwVsub (x : BitVec 4) (y : BitVec 4) (z : BitVec 4) (r : BitVec 3) (t : BitVec 1) : Encodes.Statement (.mwVsub x y z r t) := by
  intro word hw
  obtain ⟨h0, h1, h2, h3, h4, h5, h6⟩ := fields25 0x16#6 x y z 0x0#10 r t word (Option.some.inj hw).symm
  exact .inr ((rawM16 h0).trans (by simp only [decM16, h1, h2, h3, h4, h5, h6]; rfl))
theorem Encodes.mwVmul (x : BitVec 4) (y : BitVec 4) (z : BitVec 4) (r : BitVec 3) (t : BitVec 1) : Encodes.Statement (.mwVmul x y z r t) := by
  intro word hw
  obtain ⟨h0, h1, h2, h3, h4, h5, h6⟩ := fields25 0x17#6 x y z 0x0#10 r t word (Option.some.inj hw).symm
  exact .inr ((rawM17 h0).trans (by simp only [decM17, h1, h2, h3, h4, h5, h6]; rfl))
theorem Encodes.mwVfma (x : BitVec 4) (y : BitVec 4) (z : BitVec 4) (r : BitVec 3) : Encodes.Statement (.mwVfma x y z r) := by
  intro word hw
  obtain ⟨h0, h1, h2, h3, h4, h5, h6⟩ := fields25 0x18#6 x y z 0x0#10 r 0x0#1 word (Option.some.inj hw).symm
  exact .inr ((rawM18 h0).trans (by simp only [decM18, h1, h2, h3, h4, h5, h6]; rfl))
theorem Encodes.vscl (x : BitVec 4) (y : BitVec 4) (z : BitVec 4) (r : BitVec 3) : Encodes.Statement (.vscl x y z r) := by
  intro word hw
  obtain ⟨h0, h1, h2, h3, h4, h5, h6⟩ := fields25 0x19#6 x y z 0x0#10 r 0x0#1 word (Option.some.inj hw).symm
  exact .inr ((rawM19 h0).trans (by simp only [decM19, h1, h2, h3, h4, h5, h6]; rfl))
theorem Encodes.mwVmax (x : BitVec 4) (y : BitVec 4) (z : BitVec 4) (r : BitVec 3) (t : BitVec 1) : Encodes.Statement (.mwVmax x y z r t) := by
  intro word hw
  obtain ⟨h0, h1, h2, h3, h4, h5, h6⟩ := fields25 0x1A#6 x y z 0x0#10 r t word (Option.some.inj hw).symm
  exact .inr ((rawM1A h0).trans (by simp only [decM1A, h1, h2, h3, h4, h5, h6]; rfl))
theorem Encodes.mwVmin (x : BitVec 4) (y : BitVec 4) (z : BitVec 4) (r : BitVec 3) (t : BitVec 1) : Encodes.Statement (.mwVmin x y z r t) := by
  intro word hw
  obtain ⟨h0, h1, h2, h3, h4, h5, h6⟩ := fields25 0x1B#6 x y z 0x0#10 r t word (Option.some.inj hw).symm
  exact .inr ((rawM1B h0).trans (by simp only [decM1B, h1, h2, h3, h4, h5, h6]; rfl))
theorem Encodes.mwVcvt (x : BitVec 4) (y : BitVec 4) (d : BitVec 3) (f : BitVec 3) (p : BitVec 2) (u : BitVec 1) (r : BitVec 3) : Encodes.Statement (.mwVcvt x y d f p u r) := by
  intro word hw
  obtain ⟨h0, h1, h2, h3, h4, h5, h6, h7, h8, h9⟩ := fields26 0x1C#6 x y 0x0#4 d f p u r 0x0#2 word (Option.some.inj hw).symm
  exact .inr ((rawM1C h0).trans (by simp only [decM1C, h1, h2, h3, h4, h5, h6, h7, h8, h9]; rfl))
theorem Encodes.vspl (x : BitVec 4) (y : BitVec 4) : Encodes.Statement (.vspl x y) := by
  intro word hw
  obtain ⟨h0, h1, h2, h3⟩ := fields24 0x1D#6 x y 0x0#18 word (Option.some.inj hw).symm
  exact .inr ((rawM1D h0).trans (by simp only [decM1D, h1, h2, h3]; rfl))
theorem Encodes.kclr (x : BitVec 4) : Encodes.Statement (.kclr x) := by
  intro word hw
  obtain ⟨h0, h1, h2⟩ := fields23 0x1E#6 x 0x0#22 word (Option.some.inj hw).symm
  exact .inr ((rawM1E h0).trans (by simp only [decM1E, h1, h2]; rfl))
theorem Encodes.kadd (x : BitVec 4) (y : BitVec 4) (t : BitVec 1) : Encodes.Statement (.kadd x y t) := by
  intro word hw
  obtain ⟨h0, h1, h2, h3, h4⟩ := fields27 0x1F#6 x y 0x0#17 t word (Option.some.inj hw).symm
  exact .inr ((rawM1F h0).trans (by simp only [decM1F, h1, h2, h3, h4]; rfl))
theorem Encodes.krnd (x : BitVec 4) (y : BitVec 4) (u : BitVec 1) (r : BitVec 3) (t : BitVec 1) : Encodes.Statement (.krnd x y u r t) := by
  intro word hw
  obtain ⟨h0, h1, h2, h3, h4, h5, h6⟩ := fields28 0x20#6 x y 0x0#13 u r t word (Option.some.inj hw).symm
  exact .inr ((rawM20 h0).trans (by simp only [decM20, h1, h2, h3, h4, h5, h6]; rfl))
theorem Encodes.kanc (x : BitVec 4) (y : BitVec 4) : Encodes.Statement (.kanc x y) := by
  intro word hw
  obtain ⟨h0, h1, h2, h3⟩ := fields24 0x21#6 x y 0x0#18 word (Option.some.inj hw).symm
  exact .inr ((rawM21 h0).trans (by simp only [decM21, h1, h2, h3]; rfl))
theorem Encodes.cbegin (x : BitVec 4) (y : BitVec 4) (u : BitVec 1) (g : BitVec 8) : Encodes.Statement (.cbegin x y u g) := by
  intro word hw
  obtain ⟨h0, h1, h2, h3, h4, h5⟩ := fields29 0x22#6 x y 0x0#9 u g word (Option.some.inj hw).symm
  exact .inr ((rawM22 h0).trans (by simp only [decM22, h1, h2, h3, h4, h5]; rfl))
theorem Encodes.cend (x : BitVec 4) : Encodes.Statement (.cend x) := by
  intro word hw
  obtain ⟨h0, h1, h2⟩ := fields23 0x23#6 x 0x0#22 word (Option.some.inj hw).symm
  exact .inr ((rawM23 h0).trans (by simp only [decM23, h1, h2]; rfl))
theorem Encodes.cshift (x : BitVec 4) (d : BitVec 2) (c : BitVec 2) (z : BitVec 4) (f : BitVec 3) (g : BitVec 8) : Encodes.Statement (.cshift x d c z f g) := by
  intro word hw
  obtain ⟨h0, h1, h2, h3, h4, h5, h6, h7⟩ := fields30 0x24#6 x d c z 0x0#3 f g word (Option.some.inj hw).symm
  exact .inr ((rawM24 h0).trans (by simp only [decM24, h1, h2, h3, h4, h5, h6, h7]; rfl))
theorem Encodes.cxpose (x : BitVec 4) (d : BitVec 2) (c : BitVec 2) (z : BitVec 4) (f : BitVec 3) (g : BitVec 8) : Encodes.Statement (.cxpose x d c z f g) := by
  intro word hw
  obtain ⟨h0, h1, h2, h3, h4, h5, h6, h7⟩ := fields30 0x25#6 x d c z 0x0#3 f g word (Option.some.inj hw).symm
  exact .inr ((rawM25 h0).trans (by simp only [decM25, h1, h2, h3, h4, h5, h6, h7]; rfl))
theorem Encodes.ca2a (x : BitVec 4) (d : BitVec 2) (c : BitVec 2) (z : BitVec 4) (f : BitVec 3) (g : BitVec 8) : Encodes.Statement (.ca2a x d c z f g) := by
  intro word hw
  obtain ⟨h0, h1, h2, h3, h4, h5, h6, h7⟩ := fields30 0x26#6 x d c z 0x0#3 f g word (Option.some.inj hw).symm
  exact .inr ((rawM26 h0).trans (by simp only [decM26, h1, h2, h3, h4, h5, h6, h7]; rfl))
theorem Encodes.cred (x : BitVec 4) (d : BitVec 2) (c : BitVec 2) (z : BitVec 4) (o : BitVec 3) (f : BitVec 3) (g : BitVec 8) : Encodes.Statement (.cred x d c z o f g) := by
  intro word hw
  obtain ⟨h0, h1, h2, h3, h4, h5, h6, h7⟩ := fields30 0x27#6 x d c z o f g word (Option.some.inj hw).symm
  exact .inr ((rawM27 h0).trans (by simp only [decM27, h1, h2, h3, h4, h5, h6, h7]))
theorem Encodes.crsc (x : BitVec 4) (d : BitVec 2) (c : BitVec 2) (z : BitVec 4) (o : BitVec 3) (f : BitVec 3) (g : BitVec 8) : Encodes.Statement (.crsc x d c z o f g) := by
  intro word hw
  obtain ⟨h0, h1, h2, h3, h4, h5, h6, h7⟩ := fields30 0x28#6 x d c z o f g word (Option.some.inj hw).symm
  exact .inr ((rawM28 h0).trans (by simp only [decM28, h1, h2, h3, h4, h5, h6, h7]))
theorem Encodes.cgath (x : BitVec 4) (d : BitVec 2) (c : BitVec 2) (z : BitVec 4) (f : BitVec 3) (g : BitVec 8) : Encodes.Statement (.cgath x d c z f g) := by
  intro word hw
  obtain ⟨h0, h1, h2, h3, h4, h5, h6, h7⟩ := fields30 0x29#6 x d c z 0x0#3 f g word (Option.some.inj hw).symm
  exact .inr ((rawM29 h0).trans (by simp only [decM29, h1, h2, h3, h4, h5, h6, h7]; rfl))
theorem Encodes.cbcast (x : BitVec 4) (d : BitVec 2) (c : BitVec 2) (z : BitVec 4) (f : BitVec 3) (g : BitVec 8) : Encodes.Statement (.cbcast x d c z f g) := by
  intro word hw
  obtain ⟨h0, h1, h2, h3, h4, h5, h6, h7⟩ := fields30 0x2A#6 x d c z 0x0#3 f g word (Option.some.inj hw).symm
  exact .inr ((rawM2A h0).trans (by simp only [decM2A, h1, h2, h3, h4, h5, h6, h7]; rfl))
theorem Encodes.cbar (x : BitVec 4) (g : BitVec 8) : Encodes.Statement (.cbar x g) := by
  intro word hw
  obtain ⟨h0, h1, h2, h3⟩ := fields31 0x2B#6 x 0x0#14 g word (Option.some.inj hw).symm
  exact .inr ((rawM2B h0).trans (by simp only [decM2B, h1, h2, h3]; rfl))
theorem Encodes.msgo (y : BitVec 4) : Encodes.Statement (.msgo y) := by
  intro word hw
  obtain ⟨h0, h1, h2, h3⟩ := fields24 0x2C#6 0x0#4 y 0x0#18 word (Option.some.inj hw).symm
  exact .inr ((rawM2C h0).trans (by simp only [decM2C, h1, h2, h3]; rfl))
theorem Encodes.msgi (x : BitVec 4) : Encodes.Statement (.msgi x) := by
  intro word hw
  obtain ⟨h0, h1, h2⟩ := fields23 0x2D#6 x 0x0#22 word (Option.some.inj hw).symm
  exact .inr ((rawM2D h0).trans (by simp only [decM2D, h1, h2]; rfl))
theorem Encodes.ovsw (i : BitVec 10) : Encodes.Statement (.ovsw i) := by
  intro word hw
  obtain ⟨h0, h1, h2⟩ := fields32 0x2E#6 0x0#16 i word (Option.some.inj hw).symm
  exact .inr ((rawM2E h0).trans (by simp only [decM2E, h1, h2]; rfl))
theorem Encodes.mwHalt : Encodes.Statement .mwHalt := by
  intro word hw
  obtain ⟨h0, h1⟩ := fields33 0x2F#6 0x0#26 word (Option.some.inj hw).symm
  exact .inr ((rawM2F h0).trans (by simp only [decM2F, h1]; rfl))
theorem Encodes.resultDelivery (core : Nat) (ctx : Nat) : Encodes.Statement (.resultDelivery core ctx) := nofun
theorem Encodes.instructionFetchReturn (core : Nat) (ctx : Nat) : Encodes.Statement (.instructionFetchReturn core ctx) := nofun
theorem Encodes.pageWalk (core : Nat) (vd : Nat) (va : BitVec 55) (k : AccessKind) : Encodes.Statement (.pageWalk core vd va k) := nofun
theorem Encodes.translationAck (core : Nat) (ctx : Nat) : Encodes.Statement (.translationAck core ctx) := nofun
theorem Encodes.dupRevocation (vd : Nat) (va : BitVec 55) : Encodes.Statement (.dupRevocation vd va) := nofun
theorem Encodes.faultRingEntry (vd : Nat) : Encodes.Statement (.faultRingEntry vd) := nofun
theorem Encodes.pagerAnswer (vd : Nat) (n : Nat) : Encodes.Statement (.pagerAnswer vd n) := nofun
theorem Encodes.pagerReply (core : Nat) (ctx : Nat) (v : BitVec 64) : Encodes.Statement (.pagerReply core ctx v) := nofun
theorem Encodes.upcallDelivery (core : Nat) : Encodes.Statement (.upcallDelivery core) := nofun
theorem Encodes.pagerNotice (core : Nat) (v : BitVec 64) : Encodes.Statement (.pagerNotice core v) := nofun
theorem Encodes.tinvComplete (core : Nat) (ctx : Nat) : Encodes.Statement (.tinvComplete core ctx) := nofun
theorem Encodes.portWordArrival (n : Nat) : Encodes.Statement (.portWordArrival n) := nofun
theorem Encodes.waitaReread (core : Nat) (ctx : Nat) : Encodes.Statement (.waitaReread core ctx) := nofun
theorem Encodes.sfuRequestComplete (core : Nat) : Encodes.Statement (.sfuRequestComplete core) := nofun
theorem Encodes.engineCommandStart (core : Nat) : Encodes.Statement (.engineCommandStart core) := nofun
theorem Encodes.cpyCompletion (core : Nat) : Encodes.Statement (.cpyCompletion core) := nofun
theorem Encodes.muCommandStart (mg : Nat) : Encodes.Statement (.muCommandStart mg) := nofun
theorem Encodes.mxCommandComplete (mg : Nat) : Encodes.Statement (.mxCommandComplete mg) := nofun
theorem Encodes.commandRingDispatch (vd : Nat) (n : Nat) : Encodes.Statement (.commandRingDispatch vd n) := nofun
theorem Encodes.courseOpen (id : Nat) : Encodes.Statement (.courseOpen id) := nofun
theorem Encodes.memberReady (id : Nat) (member : Nat) : Encodes.Statement (.memberReady id member) := nofun
theorem Encodes.keystone (id : Nat) : Encodes.Statement (.keystone id) := nofun
theorem Encodes.courseCancel (id : Nat) : Encodes.Statement (.courseCancel id) := nofun
theorem Encodes.keystoneInvalidationDone (id : Nat) : Encodes.Statement (.keystoneInvalidationDone id) := nofun
theorem Encodes.memberLoss (rank : Nat) : Encodes.Statement (.memberLoss rank) := nofun
theorem Encodes.courseTimeout (id : Nat) : Encodes.Statement (.courseTimeout id) := nofun
theorem Encodes.collDeadline (vd : Nat) (n : Nat) : Encodes.Statement (.collDeadline vd n) := nofun
theorem Encodes.collCompletion (vd : Nat) (n : Nat) : Encodes.Statement (.collCompletion vd n) := nofun
theorem Encodes.rkovlCompletion (vd : Nat) (n : Nat) : Encodes.Statement (.rkovlCompletion vd n) := nofun
theorem Encodes.rkrunCompletion (vd : Nat) (n : Nat) : Encodes.Statement (.rkrunCompletion vd n) := nofun
theorem Encodes.rksigMailboxDelivery (rank : Nat) : Encodes.Statement (.rksigMailboxDelivery rank) := nofun
theorem Encodes.cbarTimeout (rank : Nat) : Encodes.Statement (.cbarTimeout rank) := nofun
theorem Encodes.outsideAccessArrival (rank : Nat) (row : Nat) (col : Nat) (wr : Bool) (len : Nat) (data : BitVec 512) : Encodes.Statement (.outsideAccessArrival rank row col wr len data) := nofun
theorem Encodes.rankCheckTimer (rank : Nat) : Encodes.Statement (.rankCheckTimer rank) := nofun
theorem Encodes.bankReturn (rank : Nat) : Encodes.Statement (.bankReturn rank) := nofun
theorem Encodes.bankRefresh (rank : Nat) : Encodes.Statement (.bankRefresh rank) := nofun
theorem Encodes.channelPowerDown (ch : Nat) : Encodes.Statement (.channelPowerDown ch) := nofun
theorem Encodes.channelWake (ch : Nat) : Encodes.Statement (.channelWake ch) := nofun
theorem Encodes.launchDoorbell (vd : Nat) (q : Nat) (va : BitVec 64) : Encodes.Statement (.launchDoorbell vd q va) := nofun
theorem Encodes.hostApertureAccess (vd : Nat) (wr : Bool) (va : BitVec 55) (len : Nat) (data : BitVec 64) : Encodes.Statement (.hostApertureAccess vd wr va len data) := nofun
theorem Encodes.launchStart (vd : Nat) (q : Nat) : Encodes.Statement (.launchStart vd q) := nofun
theorem Encodes.terminationSweep (vd : Nat) (q : Nat) (node : Nat) : Encodes.Statement (.terminationSweep vd q node) := nofun
theorem Encodes.rankNodeEnd (vd : Nat) (q : Nat) (node : Nat) : Encodes.Statement (.rankNodeEnd vd q node) := nofun
theorem Encodes.preemption (core : Nat) : Encodes.Statement (.preemption core) := nofun
theorem Encodes.coreResumption (vd : Nat) (origin : Nat) (core : Nat) : Encodes.Statement (.coreResumption vd origin core) := nofun
theorem Encodes.create (vd : Nat) (arg : BitVec 48) : Encodes.Statement (.create vd arg) := nofun
theorem Encodes.stop (vd : Nat) (arg : BitVec 48) : Encodes.Statement (.stop vd arg) := nofun
theorem Encodes.equinoxStop (vd : Nat) : Encodes.Statement (.equinoxStop vd) := nofun
theorem Encodes.resume (vd : Nat) (arg : BitVec 48) : Encodes.Statement (.resume vd arg) := nofun
theorem Encodes.reset (vd : Nat) (arg : BitVec 48) : Encodes.Statement (.reset vd arg) := nofun
theorem Encodes.teardown (vd : Nat) (arg : BitVec 48) : Encodes.Statement (.teardown vd arg) := nofun
theorem Encodes.keygen (vd : Nat) (arg : BitVec 48) : Encodes.Statement (.keygen vd arg) := nofun
theorem Encodes.keykill (vd : Nat) (arg : BitVec 48) : Encodes.Statement (.keykill vd arg) := nofun
theorem Encodes.permissionEntryWrite (bd : Nat) (e : Nat) (v : BitVec 128) : Encodes.Statement (.permissionEntryWrite bd e v) := nofun
theorem Encodes.windowEntryWrite (vd : Nat) (w : Nat) (v : BitVec 128) : Encodes.Statement (.windowEntryWrite vd w v) := nofun
theorem Encodes.rankEnableMapWrite (bd : Nat) (w : Nat) (v : BitVec 64) : Encodes.Statement (.rankEnableMapWrite bd w v) := nofun
theorem Encodes.registerWrite (off : Nat) (v : BitVec 64) : Encodes.Statement (.registerWrite off v) := nofun
theorem Encodes.attach : Encodes.Statement .attach := nofun
theorem Encodes.detach : Encodes.Statement .detach := nofun
theorem Encodes.debugHalt : Encodes.Statement .debugHalt := nofun
theorem Encodes.debugResume : Encodes.Statement .debugResume := nofun
theorem Encodes.debugStep : Encodes.Statement .debugStep := nofun
theorem Encodes.debugRead : Encodes.Statement .debugRead := nofun
theorem Encodes.debugWrite : Encodes.Statement .debugWrite := nofun
theorem Encodes.vigilCollapse (vd : Nat) : Encodes.Statement (.vigilCollapse vd) := nofun
theorem Encodes.wake (vd : Nat) : Encodes.Statement (.wake vd) := nofun
theorem Encodes.linkPortWake (port : Nat) : Encodes.Statement (.linkPortWake port) := nofun
theorem Encodes.uncorrectableError (e : ErrorReport) : Encodes.Statement (.uncorrectableError e) := nofun
theorem Encodes.patrolScrub (rank : Nat) (row : Nat) (found : Bool) : Encodes.Statement (.patrolScrub rank row found) := nofun
theorem Encodes.spareSubstitution (u : SpareUnit) : Encodes.Statement (.spareSubstitution u) := nofun
theorem Encodes.bankMigration (rank : Nat) : Encodes.Statement (.bankMigration rank) := nofun
theorem Encodes.almanacWrite : Encodes.Statement .almanacWrite := nofun
theorem Encodes.powerGood : Encodes.Statement .powerGood := nofun
theorem Encodes.powerManagerAdjust (mustep : BitVec 8) (rclk : BitVec 8) (tj : BitVec 16) (power : BitVec 16) : Encodes.Statement (.powerManagerAdjust mustep rclk tj power) := nofun
theorem Encodes.thermalTrip : Encodes.Statement .thermalTrip := nofun
theorem Encodes.getVersion (iface : SpdmPath) : Encodes.Statement (.getVersion iface) := nofun
theorem Encodes.getCapabilities (iface : SpdmPath) : Encodes.Statement (.getCapabilities iface) := nofun
theorem Encodes.negotiateAlgorithms (iface : SpdmPath) : Encodes.Statement (.negotiateAlgorithms iface) := nofun
theorem Encodes.getDigests (iface : SpdmPath) : Encodes.Statement (.getDigests iface) := nofun
theorem Encodes.getCertificate (iface : SpdmPath) (off : BitVec 16) (len : BitVec 16) : Encodes.Statement (.getCertificate iface off len) := nofun
theorem Encodes.challenge (iface : SpdmPath) (nonce : BitVec 256) : Encodes.Statement (.challenge iface nonce) := nofun
theorem Encodes.getMeasurements (iface : SpdmPath) (index : BitVec 8) (nonce : BitVec 256) : Encodes.Statement (.getMeasurements iface index nonce) := nofun
theorem Encodes.keyExchange (iface : SpdmPath) (share : BitVec 768) : Encodes.Statement (.keyExchange iface share) := nofun
theorem Encodes.finish (iface : SpdmPath) (mac : BitVec 384) : Encodes.Statement (.finish iface mac) := nofun
theorem Encodes.endSession (iface : SpdmPath) : Encodes.Statement (.endSession iface) := nofun
theorem Encodes.read (p : Packet) : Encodes.Statement (.read p) := nofun
theorem Encodes.readResp (p : Packet) : Encodes.Statement (.readResp p) := nofun
theorem Encodes.write (p : Packet) : Encodes.Statement (.write p) := nofun
theorem Encodes.atomic (p : Packet) : Encodes.Statement (.atomic p) := nofun
theorem Encodes.atomicResp (p : Packet) : Encodes.Statement (.atomicResp p) := nofun
theorem Encodes.update (p : Packet) : Encodes.Statement (.update p) := nofun
theorem Encodes.ack (p : Packet) : Encodes.Statement (.ack p) := nofun
theorem Encodes.nack (p : Packet) : Encodes.Statement (.nack p) := nofun
theorem Encodes.step (p : Packet) : Encodes.Statement (.step p) := nofun
theorem Encodes.stepRed (p : Packet) : Encodes.Statement (.stepRed p) := nofun
theorem Encodes.stepRes (p : Packet) : Encodes.Statement (.stepRes p) := nofun
theorem Encodes.keepalive (p : Packet) : Encodes.Statement (.keepalive p) := nofun
theorem Encodes.keepaliveSend : Encodes.Statement .keepaliveSend := nofun
theorem Encodes.packageLoss (pkg : Nat) : Encodes.Statement (.packageLoss pkg) := nofun
theorem Encodes.homeAcknowledgement (core : Nat) (ctx : Nat) : Encodes.Statement (.homeAcknowledgement core ctx) := nofun
theorem Encodes.pbindAcknowledgement (core : Nat) (ctx : Nat) : Encodes.Statement (.pbindAcknowledgement core ctx) := nofun
theorem Encodes.deviceDma (wr : Bool) (pa : BitVec 52) (len : Nat) (data : BitVec 64) : Encodes.Statement (.deviceDma wr pa len data) := nofun
theorem Encodes.applicationCoreAccess (op : AppOp) : Encodes.Statement (.applicationCoreAccess op) := nofun
theorem Encodes.drainTimeout (vd : Nat) : Encodes.Statement (.drainTimeout vd) := nofun
theorem Encodes.powerLoss : Encodes.Statement .powerLoss := nofun
theorem Encodes.flashUpdateCommand (slot : Nat) (img : FlashImage) : Encodes.Statement (.flashUpdateCommand slot img) := nofun
theorem Encodes.configurationRequest (fn : Nat) (reg : Nat) : Encodes.Statement (.configurationRequest fn reg) := nofun
theorem Encodes.linkKeyReplacement (domain : BitVec 16) (src : BitVec 10) (dst : BitVec 10) : Encodes.Statement (.linkKeyReplacement domain src dst) := nofun

end Sys2Proof.Laws
end

