-- ==== Sys2Proof/Tests/Slice0.lean ====
section
/-! SUPPORT. Tests: words of the encoding tables and of the manual's examples, terms that are not well formed, one step on small
states with the manual's results, and for each statement states and operands that meet its hypotheses. -/

namespace Sys2Proof.Tests

open Sys2Proof Sys2Proof.Machine

set_option maxRecDepth 100000

/-! ### Words, field by field as the encoding tables lay them out (R59, R69 to R73, R191) -/

theorem test_words_integer : ∀ p ∈ ([
    (0b000001_101_01_10010_00110_10100_000000, .add 5 1 18 6 20),
    (0b000001_101_01_10010_00110_10100_000001, .sub 5 1 18 6 20),
    (0b000001_101_01_10010_00110_10100_000010, .and 5 1 18 6 20),
    (0b000001_101_01_10010_00110_10100_000011, .or 5 1 18 6 20),
    (0b000001_101_01_10010_00110_10100_000100, .xor 5 1 18 6 20),
    (0b000001_101_01_10010_00110_10100_000101, .andn 5 1 18 6 20),
    (0b000001_101_01_10010_00110_10100_000110, .orn 5 1 18 6 20),
    (0b000001_101_01_10010_00110_10100_000111, .shl 5 1 18 6 20),
    (0b000001_101_01_10010_00110_10100_001000, .shr 5 1 18 6 20),
    (0b000001_101_01_10010_00110_10100_001001, .sar 5 1 18 6 20),
    (0b000001_101_01_10010_00110_10100_001010, .rol 5 1 18 6 20),
    (0b000001_101_01_10010_00110_10100_001011, .ror 5 1 18 6 20),
    (0b000001_101_01_10010_00110_10100_001100, .mul 5 1 18 6 20),
    (0b000001_101_01_10010_00110_10100_001101, .mulh 5 1 18 6 20),
    (0b000001_101_01_10010_00110_10100_001110, .mulhu 5 1 18 6 20),
    (0b000001_101_01_10010_00110_10100_001111, .div 5 1 18 6 20),
    (0b000001_101_01_10010_00110_10100_010000, .divu 5 1 18 6 20),
    (0b000001_101_01_10010_00110_10100_010001, .rem 5 1 18 6 20),
    (0b000001_101_01_10010_00110_10100_010010, .remu 5 1 18 6 20),
    (0b000001_101_01_10010_00110_10100_010011, .min 5 1 18 6 20),
    (0b000001_101_01_10010_00110_10100_010100, .max 5 1 18 6 20),
    (0b000001_101_01_10010_00110_10100_010101, .minu 5 1 18 6 20),
    (0b000001_101_01_10010_00110_10100_010110, .maxu 5 1 18 6 20),
    (0b000001_101_01_10010_00110_10100_010111, .ceq 5 1 18 6 20),
    (0b000001_101_01_10010_00110_10100_011000, .cne 5 1 18 6 20),
    (0b000001_101_01_10010_00110_10100_011001, .clt 5 1 18 6 20),
    (0b000001_101_01_10010_00110_10100_011010, .cltu 5 1 18 6 20),
    (0b000001_101_01_10010_00110_10100_011011, .cle 5 1 18 6 20),
    (0b000001_101_01_10010_00110_10100_011100, .cleu 5 1 18 6 20),
    (0b000001_101_01_10010_00110_10100_011101, .sel 5 1 18 6 20),
    (0b000001_101_01_10010_00110_11111011110, .clz 5 1 18 6),
    (0b000001_101_01_10010_00110_11111011111, .ctz 5 1 18 6),
    (0b000001_101_01_10010_00110_11111100000, .popc 5 1 18 6),
    (0b000001_101_01_10010_00110_11111100001, .brev 5 1 18 6),
    (0b000001_101_01_10010_00110_11111100010, .bswap 5 1 18 6),
    (0b000001_101_01_10010_00110_11111100011, .mov 5 1 18 6)] : List (Word × Instr)),
    decodeSoras p.1 = .ok p.2 := by
  decide

theorem test_words_immediates : ∀ p ∈ ([
    (0b000010_101_01_10010_00110_01101101001, .addi 5 1 18 6 873),
    (0b000011_101_01_10010_00110_01101101001, .andi 5 1 18 6 873),
    (0b000100_101_01_10010_00110_01101101001, .ori 5 1 18 6 873),
    (0b000101_101_01_10010_00110_01101101001, .xori 5 1 18 6 873),
    (0b000110_101_01_10010_00110_00000_101001, .shli 5 1 18 6 41),
    (0b000110_101_01_10010_00110_01000_101001, .shri 5 1 18 6 41),
    (0b000110_101_01_10010_00110_10000_101001, .sari 5 1 18 6 41),
    (0b000110_101_01_10010_00110_11000_101001, .roli 5 1 18 6 41),
    (0b000111_101_01_10010_00110_01101101001, .ceqi 5 1 18 6 873),
    (0b001000_101_01_10010_00110_01101101001, .clti 5 1 18 6 873),
    (0b001001_101_01_10010_00110_01101101001, .cltui 5 1 18 6 873),
    (0b001010_101_00_10010_00110_001001_10110, .bfx 5 18 6 9 22),
    (0b001011_101_00_10010_00110_001001_10110, .bfi 5 18 6 9 22),
    (0b001100_101_00_10010_0110101101101001, .ldk 5 18 27497),
    (0b001101_101_00_10010_0110101101101001, .ldkh 5 18 27497),
    (0b001110_101_00_10010_0110101101101001, .adpc 5 18 27497)] : List (Word × Instr)),
    decodeSoras p.1 = .ok p.2 := by
  decide

theorem test_words_pointers : ∀ p ∈ ([
    (0b001111_101_00_11110_11101_10100_000000, .padd 5 30 29 20),
    (0b001111_101_00_11110_11101_10100_000001, .padde 5 30 29 20),
    (0b001111_101_00_10010_11101_10100_000010, .psube 5 18 29 20),
    (0b001111_101_00_11110_11101_10100_000011, .pfmt 5 30 29 20),
    (0b001111_101_00_10010_11101_11111000100, .pgetf 5 18 29),
    (0b001111_101_00_10010_11101_11111000101, .pgetb 5 18 29),
    (0b001111_101_00_11110_11101_10100_000110, .pset 5 30 29 20),
    (0b001111_101_0011111_11101_10100_000111, .pstr 5 29 20),
    (0b001111_101_00_10010_11101_11111001000, .pgeta 5 18 29),
    (0b010000_101_00_11110_11101_01101101001, .paddi 5 30 29 873)] : List (Word × Instr)),
    decodeSoras p.1 = .ok p.2 := by
  decide

theorem test_words_control : ∀ p ∈ ([
    (0b010001_101_011_00110_110101101101001, .br 5 3 6 27497),
    (0b010010_101_10110100110101101101001, .jmp 5 5925737),
    (0b010011_101_10110100110101101101001, .call 5 5925737),
    (0b010100_101_0011111_00110_11111000000, .jmpi 5 6),
    (0b010100_101_0011111_00110_11111000001, .calli 5 6),
    (0b010100_101_00111111111111111000010, .ret 5),
    (0b010101_101_000_10101_110101101101001, .loop 5 21 27497),
    (0b010110_101_0011111_00110_00000111101, .rep 5 6 61),
    (0b010111_101_00_10010_00110_10100_000000, .start 5 18 6 20),
    (0b010111_101_00111111111111111000001, .halt 5),
    (0b010111_101_0011111_00110_11111000010, .joinh 5 6),
    (0b010111_101_00111111111111111000011, .yield 5),
    (0b010111_101_00_10010_00110_10100_000100, .saveh 5 18 6 20),
    (0b010111_101_00_10010_00110_10100_000101, .loadh 5 18 6 20),
    (0b010111_101_00_10010_00110_11111000110, .resumeh 5 18 6),
    (0b010111_101_00_10010_00110_11111000111, .killh 5 18 6),
    (0b010111_101_00_10010_00110_11111001000, .hstat 5 18 6),
    (0b010111_101_00111111111111111001001, .upret 5)] : List (Word × Instr)),
    decodeSoras p.1 = .ok p.2 := by
  decide

theorem test_words_system : ∀ p ∈ ([
    (0b011000_101_00111111111111111000000, .nop 5),
    (0b011000_101_0011111_00110_11111000001, .trap 5 6),
    (0b011000_101_00111111111111111000010, .eret 5),
    (0b011000_101_00_10010_00110_11111000011, .gets 5 18 6),
    (0b011000_101_0011111_00110_10100_000100, .puts 5 6 20),
    (0b011000_101_0011111_00011_11111000101, .fence 5 3),
    (0b011000_101_00111111111111111000110, .ifence 5),
    (0b011000_101_00_10010_00110_10100_000111, .waita 5 18 6 20),
    (0b011000_101_0011111_00110_10100_001000, .fflag 5 6 20),
    (0b011000_101_00111111111111111001001, .brk 5),
    (0b011000_101_00_10010_1111111111001010, .sleepr 5 18),
    (0b011000_101_0011111_00110_10100_001011, .tinv 5 6 20)] : List (Word × Instr)),
    decodeSoras p.1 = .ok p.2 := by
  decide

theorem test_words_loads_and_stores : ∀ p ∈ ([
    (0b011001_101_01_10010_10100_000_10011100, .ld 5 1 18 20 0 156),
    (0b011010_101_01_10010_10100_0_00_10011100, .st 5 1 18 20 0 156),
    (0b011011_101_01_10010_10100_000_10011100, .ldl 5 1 18 20 156),
    (0b011011_101_01_10010_10100_011_10011100, .ldlAcq 5 1 18 20 156),
    (0b011011_101_11_10010_10100_001_10011100, .ldf 5 18 20 156),
    (0b011011_101_11_10010_10100_010_10011100, .ldfe 5 18 20 156),
    (0b011100_101_01_10010_10100_000_10011100, .stl 5 1 18 20 156),
    (0b011100_101_01_10010_10100_011_10011100, .stlRel 5 1 18 20 156),
    (0b011100_101_11_10010_10100_001_10011100, .stf 5 18 20 156),
    (0b011100_101_11_10010_10100_010_10011100, .ste 5 18 20 156),
    (0b011101_101_01_10010_10100_000_10011100, .ldv 5 1 18 20 0 156),
    (0b011110_101_01_10010_10100_000_10011100, .stv 5 1 18 20 0 156),
    (0b011111_101_01_10010_10100_0_1_0_10011100, .ldx 5 18 20 0 1 156),
    (0b100000_101_01_10010_10100_0_1_1_10011100, .stx 5 18 20 0 1 1 156),
    (0b100001_101_0011111_10100_0_00_10011100, .pref 5 20 0 156)] : List (Word × Instr)),
    decodeSoras p.1 = .ok p.2 := by
  decide

theorem test_words_atomics : ∀ p ∈ ([
    (0b100010_101_00_10010_00110_10100_01_0000, .atomFadd 5 18 6 20 1),
    (0b100010_101_00_10010_00110_10100_01_0001, .atomFand 5 18 6 20 1),
    (0b100010_101_00_10010_00110_10100_01_0010, .atomFor 5 18 6 20 1),
    (0b100010_101_00_10010_00110_10100_01_0011, .atomFxor 5 18 6 20 1),
    (0b100010_101_00_10010_00110_10100_01_0100, .atomFmin 5 18 6 20 1),
    (0b100010_101_00_10010_00110_10100_01_0101, .atomFmax 5 18 6 20 1),
    (0b100010_101_00_10010_00110_10100_10_0110, .atomFminu 5 18 6 20 2),
    (0b100010_101_00_10010_00110_10100_10_0111, .atomFmaxu 5 18 6 20 2),
    (0b100010_101_00_10010_00110_10100_01_1000, .atomSwap 5 18 6 20 1),
    (0b100010_101_01_10010_00110_10100_111001, .atomCas 5 18 6 20)] : List (Word × Instr)),
    decodeSoras p.1 = .ok p.2 := by
  decide

theorem test_words_updates : ∀ p ∈ ([
    (0b100011_101_0011111_00110_10100_001_000, .updAdd 5 6 20 1),
    (0b100011_101_0011111_00110_10100_001_001, .updMin 5 6 20 1),
    (0b100011_101_0011111_00110_10100_001_010, .updMax 5 6 20 1),
    (0b100011_101_0011111_00110_10100_001_011, .updAmax 5 6 20 1),
    (0b100011_101_0011111_00110_10100_001_100, .updAnd 5 6 20 1),
    (0b100011_101_0011111_00110_10100_001_101, .updOr 5 6 20 1),
    (0b100011_101_0011111_00110_10100_001_110, .updXor 5 6 20 1)] : List (Word × Instr)),
    decodeSoras p.1 = .ok p.2 := by
  decide

theorem test_words_ports_and_groups : ∀ p ∈ ([
    (0b100100_101_0011111_11001_10100_000000, .pbind 5 25 20),
    (0b100100_101_00_10010_11001_11111000001, .pstat 5 18 25),
    (0b100100_101_00_10010_11001_11111000010, .pdrain 5 18 25),
    (0b100100_101_0011111_11001_11111000011, .pord 5 25),
    (0b100101_101_0011111_00110_11111000000, .bar 5 6),
    (0b100101_101_00_10010_00110_11111000001, .bara 5 18 6),
    (0b100101_101_0011111_00110_10100_000010, .barw 5 6 20),
    (0b100101_101_00_10010_00110_11111000011, .elect 5 18 6),
    (0b100101_101_00_10010_00110_11111000100, .gidx 5 18 6),
    (0b100101_101_00_10010_00110_11111000101, .gsize 5 18 6)] : List (Word × Instr)),
    decodeSoras p.1 = .ok p.2 := by
  decide

theorem test_words_vector_integer : ∀ p ∈ ([
    (0b100110_101_01_10010_00110_10100_10_0000, .vadd 5 18 6 20 2),
    (0b100110_101_01_10010_00110_10100_10_0001, .vsub 5 18 6 20 2),
    (0b100110_101_01_10010_00110_10100_10_0010, .vmul 5 18 6 20 2),
    (0b100110_101_01_10010_00110_10100_10_0011, .vmin 5 18 6 20 2),
    (0b100110_101_01_10010_00110_10100_10_0100, .vmax 5 18 6 20 2),
    (0b100110_101_01_10010_00110_10100_10_0101, .vminu 5 18 6 20 2),
    (0b100110_101_01_10010_00110_10100_10_0110, .vmaxu 5 18 6 20 2),
    (0b100110_101_01_10010_00110_10100_10_0111, .vand 5 18 6 20 2),
    (0b100110_101_01_10010_00110_10100_10_1000, .vor 5 18 6 20 2),
    (0b100110_101_01_10010_00110_10100_10_1001, .vxor 5 18 6 20 2),
    (0b100110_101_01_10010_00110_10100_10_1010, .vshl 5 18 6 20 2),
    (0b100110_101_01_10010_00110_10100_10_1011, .vshr 5 18 6 20 2),
    (0b100110_101_01_10010_00110_10100_10_1100, .vsar 5 18 6 20 2),
    (0b100110_101_01_10010_00110_10100_10_1101, .vceq 5 18 6 20 2),
    (0b100110_101_01_10010_00110_10100_10_1110, .vclt 5 18 6 20 2),
    (0b100110_101_01_10010_00110_10100_10_1111, .vcltu 5 18 6 20 2)] : List (Word × Instr)),
    decodeSoras p.1 = .ok p.2 := by
  decide

theorem test_words_vector_float : ∀ p ∈ ([
    (0b100111_101_01_10010_00110_10100_01_0000, .vfadd 5 18 6 20 1),
    (0b100111_101_01_10010_00110_10100_01_0001, .vfsub 5 18 6 20 1),
    (0b100111_101_01_10010_00110_10100_01_0010, .vfmul 5 18 6 20 1),
    (0b100111_101_01_10010_00110_10100_01_0011, .vfma 5 18 6 20 1),
    (0b100111_101_01_10010_00110_10100_01_0100, .vfmin 5 18 6 20 1),
    (0b100111_101_01_10010_00110_10100_01_0101, .vfmax 5 18 6 20 1),
    (0b100111_101_01_10010_00110_11111_01_0110, .vfabs 5 18 6 1),
    (0b100111_101_01_10010_00110_11111_01_0111, .vfneg 5 18 6 1),
    (0b100111_101_01_10010_00110_10100_01_1000, .vfceq 5 18 6 20 1),
    (0b100111_101_01_10010_00110_10100_01_1001, .vfclt 5 18 6 20 1),
    (0b100111_101_01_10010_00110_10100_01_1010, .vfcle 5 18 6 20 1),
    (0b100111_101_01_10010_00110_11111_01_1011, .vfrnd 5 18 6 1),
    (0b100111_101_01_10010_00110_10100_01_1100, .vfscl 5 18 6 20 1),
    (0b100111_101_01_10010_00110_11111_01_1101, .vfcls 5 18 6 1)] : List (Word × Instr)),
    decodeSoras p.1 = .ok p.2 := by
  decide

theorem test_words_vector_exchange : ∀ p ∈ ([
    (0b101000_101_01_10010_00110_00011_10_0000, .vsplat 5 18 6 3 2),
    (0b101000_101_01_10010_00110_00011_10_0001, .vext 5 18 6 3 2),
    (0b101000_101_01_10010_00110_00011_10_0010, .vins 5 18 6 3 2),
    (0b101000_101_01_10010_00110_10100_10_0011, .vshuf 5 18 6 20 2),
    (0b101000_101_01_10010_00110_11111_10_0100, .vrev 5 18 6 2),
    (0b101000_101_01_10010_00110_10100_10_0101, .vzip 5 18 6 20 2),
    (0b101000_101_01_10010_00110_10100_10_0110, .vunz 5 18 6 20 2),
    (0b101000_101_01_10010_00110_11111_10_0111, .vsumh 5 18 6 2),
    (0b101000_101_01_10010_00110_11111_10_1000, .vmaxh 5 18 6 2),
    (0b101000_101_01_10010_00110_11111_10_1001, .vamaxh 5 18 6 2),
    (0b101000_101_01_10010_00110_10100_10_1010, .vsel 5 18 6 20 2),
    (0b101000_101_01_10010_00110_11111_10_1011, .vabs 5 18 6 2),
    (0b101000_101_01_10010_00110_10100_001100, .vdot4 5 18 6 20),
    (0b101000_101_01_10010_00110_11111_10_1101, .vmov 5 18 6 2)] : List (Word × Instr)),
    decodeSoras p.1 = .ok p.2 := by
  decide

theorem test_words_conversions : ∀ p ∈ ([
    (0b101001_101_01_10010_00110_00011_00010_1, .vcvt 5 18 6 3 2 1),
    (0b101010_101_01_10010_00110_00011_00010_1, .vcvts 5 18 6 3 2 1)] : List (Word × Instr)),
    decodeSoras p.1 = .ok p.2 := by
  decide

theorem test_words_special_functions : ∀ p ∈ ([
    (0b101011_101_01_10010_00110_11111_1_00000, .frcp 5 18 6 1),
    (0b101011_101_01_10010_00110_11111_1_00001, .frsq 5 18 6 1),
    (0b101011_101_01_10010_00110_11111_1_00010, .fsqrt 5 18 6 1),
    (0b101011_101_01_10010_00110_11111_1_00011, .fexp2 5 18 6 1),
    (0b101011_101_01_10010_00110_11111_1_00100, .flog2 5 18 6 1),
    (0b101011_101_01_10010_00110_11111_1_00101, .fsinp 5 18 6 1),
    (0b101011_101_01_10010_00110_11111_1_00110, .fcosp 5 18 6 1),
    (0b101011_101_01_10010_00110_11111_1_00111, .ftanh 5 18 6 1),
    (0b101011_101_01_10010_00110_11111_1_01000, .ferf 5 18 6 1)] : List (Word × Instr)),
    decodeSoras p.1 = .ok p.2 := by
  decide

theorem test_words_scalar_float : ∀ p ∈ ([
    (0b101100_101_00_10010_00110_10100_0_1_0000, .fadd 5 18 6 20 1),
    (0b101100_101_00_10010_00110_10100_0_1_0001, .fsub 5 18 6 20 1),
    (0b101100_101_00_10010_00110_10100_0_1_0010, .fmul 5 18 6 20 1),
    (0b101100_101_00_10010_00110_10100_0_1_0011, .fmin 5 18 6 20 1),
    (0b101100_101_00_10010_00110_10100_0_1_0100, .fmax 5 18 6 20 1),
    (0b101100_101_00_10010_00110_111110_1_0101, .fabs 5 18 6 1),
    (0b101100_101_00_10010_00110_10100_0_1_0110, .fceq 5 18 6 20 1),
    (0b101100_101_00_10010_00110_10100_0_1_0111, .fclt 5 18 6 20 1),
    (0b101100_101_00_10010_00110_10100_0_1_1000, .fcle 5 18 6 20 1),
    (0b101100_101_00_10010_00110_111110_1_1001, .fcvti 5 18 6 1),
    (0b101100_101_00_10010_00110_111110_1_1010, .fcvtf 5 18 6 1),
    (0b101100_101_00_10010_00110_111110_1_1011, .fcvtw 5 18 6 1)] : List (Word × Instr)),
    decodeSoras p.1 = .ok p.2 := by
  decide

theorem test_words_lazy_and_streams : ∀ p ∈ ([
    (0b101101_101_00_10010_00110_10100_000000, .zdraw 5 18 6 20),
    (0b101101_101_00_10010_10110_10100_000001, .zltq 5 18 22 20),
    (0b101101_101_00_10010_10110_10100_000010, .zltf 5 18 22 20),
    (0b101101_101_00_10010_10110_10100_000011, .zltz 5 18 22 20),
    (0b101101_101_00_10010_10110_10100_000100, .zfloor 5 18 22 20),
    (0b101101_101_0011111_10110_10100_000101, .zext 5 22 20),
    (0b101101_101_00_10010_10110_11111000110, .zlen 5 18 22),
    (0b101101_101_00_10010_10110_10100_000111, .zbits 5 18 22 20),
    (0b101101_101_00_10010_10110_11111001000, .zmov 5 18 22),
    (0b101101_101_00_10010_00110_11111001001, .zld 5 18 6),
    (0b101101_101_0011111_10110_10100_001010, .zst 5 22 20),
    (0b101110_101_0011111_00110_10100_000000, .sbind 5 6 20),
    (0b101110_101_0011111_00110_11111000001, .sfree 5 6),
    (0b101110_101_00_10010_00110_10100_000010, .rndw 5 18 6 20),
    (0b101110_101_00_10010_00110_10100_000011, .rndv 5 18 6 20),
    (0b101110_101_00_10010_00110_11111000100, .sgen 5 18 6)] : List (Word × Instr)),
    decodeSoras p.1 = .ok p.2 := by
  decide

theorem test_words_launch_and_engines : ∀ p ∈ ([
    (0b101111_101_00_10010_00110_10100_000000, .glaunch 5 18 6 20),
    (0b101111_101_00_10010_00110_11111000001, .gquery 5 18 6),
    (0b110000000_00110_10100_00000001_110_1_0, .cpy 6 20 1 6 1),
    (0b110000001_00110_10100_0000000000000, .csetg 6 20),
    (0b110000010_00110_111110000000000000, .cgetg 6),
    (0b110001000_00110_10100_00000001_110_1_0, .mma 6 20 1 6 1),
    (0b110001001_00110_10100_0000000000000, .msetg 6 20),
    (0b110001010_00110_111110000000000000, .mgetg 6),
    (0b110001011_00110_10100_00000001_110_1_0, .mldc 6 20 1 6 1),
    (0b110001100_00110_10100_00000001_110_1_0, .mstc 6 20 1 6 1),
    (0b110001101_00110_11111_00000001_110_1_0, .mzero 6 1 6 1),
    (0b11000111011111111110000000000000, .mcommit),
    (0b110001111_00110_111110000000000000, .mwait 6),
    (0b110010000_00110_10100_00000001_110_1_0, .coll 6 20 1 6 1),
    (0b110010001_00110_111110000000000000, .cquery 6),
    (0b110010010_00110_111110000000000000, .cabort 6),
    (0b110011000_00110_10100_00000001_110_1_0, .rkovl 6 20 1 6 1),
    (0b110011001_00110_10100_00000001_110_1_0, .rkrun 6 20 1 6 1),
    (0b110011010_00110_10100_00000001_00000, .rksig 6 20 1),
    (0b110011011_00110_111110000000000000, .rkstat 6),
    (0b110011100_00110_11111_00000001_00000, .rkstop 6 1),
    (0b1101000001111111111_00000001_00000, .dwait 1),
    (0b11010000111111111110000000000000, .dstat)] : List (Word × Instr)),
    decodeSoras p.1 = .ok p.2 := by
  decide

theorem test_words_rank_scalars : ∀ p ∈ ([
    (0b000001_0011_0010_0000_10101101101001, .sli 3 2 11113),
    (0b000010_0011_0010_0000_10101101101001, .slih 3 2 11113),
    (0b000011_0011_0010_0101_00000000000000, .sadd 3 2 5),
    (0b000100_0011_0010_0000_10101101101001, .saddi 3 2 11113),
    (0b000101_0011_0010_0101_00000000000000, .ssub 3 2 5),
    (0b000110_0011_0010_0101_00000000000000, .sand 3 2 5),
    (0b000111_0011_0010_0101_00000000000000, .sor 3 2 5),
    (0b001000_0011_0010_0101_00000000000000, .sxor 3 2 5),
    (0b001001_0011_0010_0101_00000000000000, .sshl 3 2 5),
    (0b001010_0011_0010_0101_00000000000000, .sshr 3 2 5),
    (0b001011_0011_0010_0101_00000000000000, .smul 3 2 5),
    (0b001100_0011_0010_0101_00000000000000, .sclt 3 2 5),
    (0b001101_0011_00000000_10101101101001, .sbz 3 11113),
    (0b001101_0011_00010000_10101101101001, .sbnz 3 11113)] : List (Word × Instr)),
    decodeMelwen p.1 = .ok p.2 := by
  decide

theorem test_words_rank_memory_and_vectors : ∀ p ∈ ([
    (0b001110000000000000_10101101101001, .sj 11113),
    (0b001111_0011_00000000_10101101101001, .sloop 3 11113),
    (0b010000_0011_0010_0000000000000_00011, .cset 3 2 3),
    (0b010001_0011_00000000_10101101101001, .cstride 3 11113),
    (0b010010_0011_0000000000000000000000, .cnext 3),
    (0b010011_0011_0010_000000000000000000, .vld 3 2),
    (0b010100_0011_0010_000000000000000000, .vst 3 2),
    (0b010101_0011_0010_0101_0000000000_100_0, .mwVadd 3 2 5 4 0),
    (0b010110_0011_0010_0101_0000000000_100_0, .mwVsub 3 2 5 4 0),
    (0b010111_0011_0010_0101_0000000000_100_0, .mwVmul 3 2 5 4 0),
    (0b011000_0011_0010_0101_0000000000_100_0, .mwVfma 3 2 5 4),
    (0b011001_0011_0010_0101_0000000000_100_0, .vscl 3 2 5 4),
    (0b011010_0011_0010_0101_0000000000_100_0, .mwVmax 3 2 5 4 0),
    (0b011011_0011_0010_0101_0000000000_100_0, .mwVmin 3 2 5 4 0),
    (0b011100_0011_0010_0000_010_001_01_1_100_00, .mwVcvt 3 2 2 1 1 1 4),
    (0b011101_0011_0010_000000000000000000, .vspl 3 2),
    (0b011110_0011_0000000000000000000000, .kclr 3)] : List (Word × Instr)),
    decodeMelwen p.1 = .ok p.2 := by
  decide

theorem test_words_rank_courses_and_messages : ∀ p ∈ ([
    (0b011111_0011_0010_00000000000000000_1, .kadd 3 2 1),
    (0b100000_0011_0010_0000000000000_1_100_1, .krnd 3 2 1 4 1),
    (0b100001_0011_0010_000000000000000000, .kanc 3 2),
    (0b100010_0011_0010_000000000_0_00101101, .cbegin 3 2 0 45),
    (0b100011_0011_0000000000000000000000, .cend 3),
    (0b100100_0011_10_11_0101_000_001_00101101, .cshift 3 2 3 5 1 45),
    (0b100101_0011_10_11_0101_000_001_00101101, .cxpose 3 2 3 5 1 45),
    (0b100110_0011_10_11_0101_000_001_00101101, .ca2a 3 2 3 5 1 45),
    (0b100111_0011_10_11_0101_100_001_00101101, .cred 3 2 3 5 4 1 45),
    (0b101000_0011_10_11_0101_100_001_00101101, .crsc 3 2 3 5 4 1 45),
    (0b101001_0011_10_11_0101_000_001_00101101, .cgath 3 2 3 5 1 45),
    (0b101010_0011_10_11_0101_000_001_00101101, .cbcast 3 2 3 5 1 45),
    (0b101011_0011_00000000000000_00101101, .cbar 3 45),
    (0b1011000000_0010_000000000000000000, .msgo 2),
    (0b101101_0011_0000000000000000000000, .msgi 3),
    (0b1011100000000000000000_1101101001, .ovsw 873),
    (0b10111100000000000000000000000000, .mwHalt)] : List (Word × Instr)),
    decodeMelwen p.1 = .ok p.2 := by
  decide

/-- The words that the manual itself prints (R74, R84, R104, R115 to R117, R127, R140, R145, R147, R151, R158, R163, R183, R187, R188,
and the tables of "Worked encodings" and "Six fragments"). -/
theorem test_words_of_the_manual : ∀ p ∈ ([
    (0x30000005, .ldk 0 0 5), (0x04130080, .add 0 0 19 0 2), (0x04130081, .sub 0 0 19 0 2), (0x30001234, .ldk 0 0 0x1234),
    (0x3400DEF0, .ldkh 0 0 0xDEF0), (0x6460A900, .ld 0 3 0 21 1 0), (0x6440AD00, .ld 0 2 0 21 5 0),
    (0x44007FFF, .br 0 0 0 0x7FFF), (0x581F8001, .rep 0 16 1), (0xC4422000, .mma 16 17 0 0 0), (0xC442202A, .mma 16 17 1 2 1),
    (0xC7FFE000, .mwait 31), (0x401CE040, .paddi 0 28 28 0x40), (0x629FFFC0, .nop 5), (0xA02007E9, .vamaxh 0 0 0 2),
    (0x9C3EE760, .vfadd 0 30 28 29 2), (0xA420024E, .vcvt 0 0 0 9 7 0), (0xB4009501, .zltq 0 0 18 20),
    (0x7C209400, .ldx 0 0 18 1 0 0), (0x88138CB0, .atomFadd 0 19 17 18 3), (0x88208CB9, .atomCas 0 0 17 18),
    (0x8C1F8823, .updAmax 0 17 0 4), (0x901FC480, .pbind 0 24 18), (0x941F8FC0, .bar 0 17), (0x94008FC3, .elect 0 0 17),
    (0xC0C64000, .csetg 17 18), (0xCCC64000, .rkrun 17 18 0 0 0), (0xD07FE0C0, .dwait 6), (0xBC008C80, .glaunch 0 0 17 18),
    (0x601F8C8B, .tinv 0 17 18)] : List (Word × Instr)),
    decodeSoras p.1 = .ok p.2 := by
  decide

theorem test_illegal_words_of_the_manual : ∀ p ∈ ([
    (0x04130024, .noRow), (0x6460AB00, .illFormed), (0x6460AD00, .illFormed), (0, .noRow), (0xFFFFFFFF, .noRow)] : List (Word × DecodeError)),
    decodeSoras p.1 = .error p.2 := by
  decide

/-! ### Terms that are not well formed, one for each check of `Instr.wf` -/

theorem test_ill_formed_words :
    ∀ i ∈ [Instr.add 0 1 0 15 0, .add 0 1 0 0 17, .add 0 0 1 0 0, .addi 0 2 18 0 0, .mov 0 1 0 28, .mov 0 0 9 0, .adpc 0 15 0,
      .bfx 0 0 0 33 31, .bfi 0 0 0 0 0, .padd 0 28 27 0, .padd 0 0 28 0, .pstr 0 16 0, .pgeta 0 5 28, .loop 0 15 0, .rep 0 0 0,
      .rep 0 0 65, .fence 0 5, .gets 0 0 20, .puts 0 0 0, .puts 0 20 0, .ld 0 0 0 24 0 0, .ld 0 0 0 0 3 0, .ld 0 3 0 0 4 0,
      .st 0 0 0 0 3 0, .ldf 0 0 30 0, .ste 0 0 24 0, .ldv 0 0 0 0 0 0, .ldv 0 1 0 0 3 0, .ldv 0 1 17 0 0 0, .stv 0 2 15 0 0 0,
      .ldx 0 2 0 0 0 0, .stx 0 19 0 0 0 0 0, .pref 0 0 3 0, .atomFmaxu 0 0 0 0 1, .atomCas 0 0 0 15, .atomCas 0 0 0 17,
      .updAdd 0 0 0 6, .updAmax 0 0 0 2, .updAnd 0 0 0 4, .pbind 0 23 0, .pdrain 0 3 24, .vadd 0 0 17 0 0,
      .vfma 0 17 0 0 1, .vfcls 0 0 0 0, .vext 0 0 0 16 0, .vext 0 0 0 2 3, .vdot4 0 24 0 0, .vcvt 0 0 0 12 0 0, .vcvt 0 0 0 0 31 0,
      .fcosp 0 19 0 0, .zdraw 0 0 0 0, .zltq 0 0 16 15, .zltq 0 0 15 0, .zltz 0 0 16 24, .zmov 0 16 0, .zbits 0 0 0 0,
      .rndv 0 17 0 0, .mma 0 0 0 1 0, .coll 0 0 0 1 0], i.wf = false := by
  decide

theorem test_ill_formed_rank_words :
    ∀ i ∈ [Instr.vld 8 0, .vld 0 4, .cnext 4, .kadd 4 0 0, .kadd 0 8 0, .krnd 0 0 0 5 0, .vscl 0 0 0 5, .vspl 8 0,
      .mwVadd 0 0 0 5 0, .mwVadd 0 0 0 1 1, .mwVfma 0 0 8 0, .mwVcvt 0 0 5 0 0 0 0, .mwVcvt 0 0 0 1 1 0 0, .mwVcvt 0 0 2 0 2 0 0,
      .mwVcvt 0 0 3 4 0 0 0, .ca2a 0 0 0 15 0 0, .ca2a 0 0 0 0 0 0, .ca2a 0 0 0 1 6 0, .cred 0 0 0 1 7 0 0, .cbegin 0 13 0 0,
      .cbegin 0 0 0 0, .cbegin 0 1 1 1], i.wf = false := by
  decide

theorem test_ill_formed_events :
    ∀ i ∈ [Instr.homeAcknowledgement 0 11, .homeAcknowledgement 4096 0, .cpyCompletion 4096, .pageWalk 0 64 0 .load,
      .muCommandStart 512, .channelPowerDown 256, .packageLoss 1024, .linkPortWake 16, .permissionEntryWrite 8 0 0,
      .permissionEntryWrite 0 512 0, .windowEntryWrite 0 16 0, .rankEnableMapWrite 0 16 0, .bankMigration 8192,
      .patrolScrub 0 49152 true, .outsideAccessArrival 0 0 1000 true 64 0, .outsideAccessArrival 0 0 0 true 0 0,
      .coreResumption 64 0 0, .launchDoorbell 0 4 0, .collCompletion 64 0, .deviceDma true 0 3 0,
      .hostApertureAccess 0 true 0 16 0], i.wf = false := by
  decide

/-! ### Small states -/

/-- Nothing of R74 stops the word, before its operands are looked at. -/
def admits (s : State) (i : Instr) : Bool := decide (gateOf i s = none)

/-- The operands are ready, sound and sized. -/
def clear (s : State) (srcs : List Opnd) (dst : Option Opnd) : Bool :=
  decide (s.waitOf srcs dst = none) && srcs.all (fun o => decide (s.poisoned o = none)) &&
    decide (s.undersizedCode srcs dst = none) && decide (s.opCandsFrom [] (srcs ++ dst.toList) = []) &&
    decide (s.badOperand [] srcs = none)

theorem clear_of {s : State} {srcs : List Opnd} {dst : Option Opnd} (h : clear s srcs dst = true) : s.Clear srcs dst := by
  simp only [clear, Bool.and_eq_true, decide_eq_true_eq, List.all_eq_true] at h
  exact ⟨h.1.1.1.1, h.1.1.1.2, h.1.1.2, h.1.2, h.2⟩

/-- Every instruction of the list may issue on the state, with these operands clear. -/
def meets (s : State) (l : List Instr) (srcs : List Opnd) (dst : Option Opnd) : Bool := l.all (admits s) && clear s srcs dst

theorem meets_of {s : State} {l : List Instr} {srcs : List Opnd} {dst : Option Opnd} (h : meets s l srcs dst = true) :
    (∀ i ∈ l, s.Admits i) ∧ s.Clear srcs dst := by
  simp only [meets, Bool.and_eq_true, List.all_eq_true, admits, decide_eq_true_eq] at h
  exact ⟨h.1, clear_of h.2⟩

/-- An action answers with what `p` says. -/
def answers {α : Type} (r : Except Stop (α × State)) (p : α → State → Bool) : Bool :=
  match r with
  | .ok (a, t) => p a t
  | .error _ => false

theorem answers_of {α : Type} {r : Except Stop (α × State)} {p : α → State → Bool} (h : answers r p = true) :
    ∃ a t, r = .ok (a, t) ∧ p a t = true := by
  cases r with
  | error e => simp [answers] at h
  | ok x => exact ⟨x.1, x.2, rfl, h⟩

/-- The access reaches bytes at home with what `p` says of them. -/
def reachesHome (s : State) (va len : Nat) (k : AccessKind) (rd wr : Bool) (p : List Place → State → Bool) (alloc : Bool := true)
    (u : Option (Nat × Nat) := none) : Bool :=
  answers (reach va len k alloc u s) (fun a t => match a with
    | .home ps => decide (t.here.watchHit va len rd wr = none) && p ps t
    | _ => false)

theorem reachesHome_of {s : State} {va len : Nat} {k : AccessKind} {rd wr : Bool} {p : List Place → State → Bool} {alloc : Bool}
    {u : Option (Nat × Nat)} (h : reachesHome s va len k rd wr p alloc u = true) :
    ∃ ps t, s.ReachesHome va len k rd wr ps t alloc u ∧ p ps t = true := by
  obtain ⟨a, t, ha, hp⟩ := answers_of h
  cases a with
  | home ps =>
    simp only [Bool.and_eq_true, decide_eq_true_eq] at hp
    exact ⟨ps, t, ⟨ha, hp.1⟩, hp.2⟩
  | mgmt o _ => simp at hp
  | spm c o n => simp at hp
  | remote k v n => simp at hp
  | two n a b => simp at hp

/-- Window 0 of VD 0: banked, rows 0 to 63 of ranks 0 and 1, at physical address 0 (R221). -/
def demoWin : BitVec 128 := 2 ^ 114 + 2 ^ 115 + 64 * 2 ^ 98 + 2 * 2 ^ 55

/-- A permission entry that lets VD 0 read, write and run programs in the same rows (R307). -/
def demoPerm : BitVec 128 := 2 ^ 79 + 2 ^ 68 + 2 ^ 67 + 2 ^ 66 + 64 * 2 ^ 48 + 2 * 2 ^ 21

/-- A package in which VD 0 has the window and the entry, and virtual page 1 is cached for physical page 0 with every right. -/
def demo0 : State := { State.reset with
  vds := [(0, { Vd.reset with state := .running, wins := [(0, demoWin)], desc := { VdDesc.reset with ilen := 8 } })]
  perms := [(0, demoPerm)]
  tlb := [⟨0, 0, 1, 0x23F, false⟩] }

def regs (ns : List W64) : Vector (Cell W64) 8 := Vector.ofFn (fun j : Fin 8 => ⟨ns.getD j 0, []⟩)

/-- Context x of core 0 issues; its registers n0 to n7 hold `ns`. -/
def demo (ns : List W64) (x : Fin 11 := 0) : State :=
  { demo0.updCtx 0 x (fun c => { c with status := .live, pc := 0x10000, n := regs ns }) with cur := ⟨0, x, 0⟩ }

/-- Core 0 with a change. -/
def demoCore (f : Core → Core) : State := (demo []).updCore 0 f

/-- VD 0 with a change. -/
def demoVd (f : Vd → Vd) : State := (demo []).updVd 0 f

/-- What a step from the state after `s.withFetchWord` answers. -/
noncomputable def stepped (s : State) (w : Word) (p : State → Bool) : Bool :=
  match step (s.withFetchWord 32 w.toNat) with
  | .next t => p t
  | _ => false

/-- What a meaning answers. -/
noncomputable def ran (i : Instr) (s : State) (p : State → Bool) : Bool :=
  match exec i s with
  | .next t => p t
  | _ => false

/-- `LocalNow` and `AllPerformed`, decided. -/
def localNow (s : State) (c off len : Nat) : Bool := decide (s.before (.spm c off len) = []) && decide ((s.core c).vd = s.here.vd) &&
  (s.core c).bad.all (fun x => decide (8 * x + 8 ≤ off ∨ off + len ≤ 8 * x))

theorem localNow_of {s : State} {c off len : Nat} (h : localNow s c off len = true) : s.LocalNow c off len := by
  simp only [localNow, Bool.and_eq_true, decide_eq_true_eq, List.all_eq_true] at h
  exact ⟨h.1.1, h.1.2, h.2⟩

/-! ### Integer and control instructions -/

theorem test_states_IntegerBinary :
    (∀ i ∈ [Instr.add 0 0 0 16 1, .sub 0 0 0 16 1, .and 0 0 0 16 1, .or 0 0 0 16 1, .xor 0 0 0 16 1, .andn 0 0 0 16 1,
      .orn 0 0 0 16 1, .shl 0 0 0 16 1, .shr 0 0 0 16 1, .sar 0 0 0 16 1, .rol 0 0 0 16 1, .ror 0 0 0 16 1, .mul 0 0 0 16 1,
      .mulh 0 0 0 16 1, .mulhu 0 0 0 16 1, .div 0 0 0 16 1, .divu 0 0 0 16 1, .rem 0 0 0 16 1, .remu 0 0 0 16 1, .min 0 0 0 16 1,
      .max 0 0 0 16 1, .minu 0 0 0 16 1, .maxu 0 0 0 16 1, .ceq 0 0 0 16 1, .cne 0 0 0 16 1, .clt 0 0 0 16 1, .cltu 0 0 0 16 1,
      .cle 0 0 0 16 1, .cleu 0 0 0 16 1], (demo [5]).Admits i) ∧ (demo [5]).Clear [.int 16, .int 1] (some (.int 0)) :=
  meets_of (by decide)

theorem test_states_IntegerBinary_of_eight_parts :
    (∀ i ∈ [Instr.add 7 3 16 0 8], (demo [5]).Admits i) ∧ (demo [5]).Clear [.int 0 8, .int 8 8] (some (.int 16 8)) :=
  meets_of (by decide)

theorem test_states_IntegerForms :
    (∀ i ∈ [Instr.clz 0 0 0 16, .ctz 0 0 0 16, .popc 0 0 0 16, .brev 0 0 0 16, .bswap 0 0 0 16, .mov 0 0 0 16, .addi 0 0 0 16 2047,
      .andi 0 0 0 16 1, .ori 0 0 0 16 1, .xori 0 0 0 16 1, .shli 0 0 0 16 63, .shri 0 0 0 16 63, .sari 0 0 0 16 63, .roli 0 0 0 16 0,
      .ceqi 0 0 0 16 1024, .clti 0 0 0 16 1, .cltui 0 0 0 16 1, .bfx 0 0 16 63 0], (demo []).Admits i) ∧
    (demo []).Clear [.int 16] (some (.int 0)) := meets_of (by decide)

theorem test_states_IntegerForms_others :
    ((∀ i ∈ [Instr.sel 0 0 0 16 1], (demo []).Admits i) ∧ (demo []).Clear [.int 16, .int 1, b0] (some (.int 0))) ∧
    ((∀ i ∈ [Instr.mov 0 0 29 28], (demo []).Admits i) ∧ (demo []).Clear [.pointer 28] (some (.pointer 29))) ∧
    ((∀ i ∈ [Instr.mov 0 0 0 28], (demo []).Admits i) ∧ (demo []).Clear [.pointer 28] (some (.int 0))) ∧
    ((∀ i ∈ [Instr.mov 0 0 29 16], (demo []).Admits i) ∧ (demo []).Clear [.int 16] (some (.pointer 29))) ∧
    ((∀ i ∈ [Instr.bfi 0 17 16 32 31], (demo []).Admits i) ∧ (demo []).Clear [.int 16, .int 17] (some (.int 17))) ∧
    ((∀ i ∈ [Instr.ldk 0 0 0x8000, .adpc 0 0 0xFFFF], (demo []).Admits i) ∧ (demo []).Clear [] (some (.int 0))) ∧
    ((∀ i ∈ [Instr.ldkh 0 0 1], (demo []).Admits i) ∧ (demo []).Clear [b0] (some (.int 0))) :=
  ⟨meets_of (by decide), meets_of (by decide), meets_of (by decide), meets_of (by decide), meets_of (by decide),
    meets_of (by decide), meets_of (by decide)⟩

/-- A context with pointer registers a0 to a3. -/
def demoPtr (as : List W64) (ns : List W64 := []) : State :=
  (demo ns).updCtx 0 0 (fun c => { c with a := Vector.ofFn (fun j : Fin 4 => ⟨as.getD j 0, []⟩) })

theorem test_states_PointerArithmetic :
    ((∀ i ∈ [Instr.padd 0 29 28 16, .pset 0 29 28 16, .pfmt 0 29 28 16, .padde 0 29 28 16],
        (demoPtr [0x1800000000000010] [3]).Admits i) ∧
      (demoPtr [0x1800000000000010] [3]).Clear [.pointer 28, .int 16] (some (.pointer 29))) ∧
    ((∀ i ∈ [Instr.psube 0 0 28 16], (demoPtr [0x1800000000000010] [3]).Admits i) ∧
      (demoPtr [0x1800000000000010] [3]).Clear [.pointer 28, .int 16] (some (.int 0))) ∧
    ((∀ i ∈ [Instr.pgetf 0 0 28, .pgetb 0 0 28, .pgeta 0 0 28], (demoPtr []).Admits i) ∧
      (demoPtr []).Clear [.pointer 28] (some (.int 0))) ∧
    ((∀ i ∈ [Instr.paddi 0 31 31 0x7FF], (demoPtr []).Admits i) ∧ (demoPtr []).Clear [.pointer 31] (some (.pointer 31))) ∧
    ((∀ i ∈ [Instr.pstr 0 31 16], (demoPtr [] [4]).Admits i) ∧ (demoPtr [] [4]).Clear [.int 16] none) ∧
    countRejected 0x1800000000000010 3 = false ∧ countRejected 0x1800000000000010 0 = false :=
  ⟨meets_of (by decide), meets_of (by decide), meets_of (by decide), meets_of (by decide), meets_of (by decide), by decide, by decide⟩

/-- I4 (code 3) counts half bytes, E3M2 (0x0C) four elements in three bytes, F32 one element in four bytes (R82). -/
theorem test_states_PointerArithmetic_units :
    unitOf 0x1800000000000010 = .half ∧ unitOf (0x0C * 2 ^ 59) = .bytes 3 4 ∧ unitOf (0x07 * 2 ^ 59) = .bytes 4 1 ∧
    unitOf 0 = .bytes 1 1 ∧ ptrAddr 0x0000000000000010 = (ptrAddr 0x0000000000000020 + (-16 : Int) * 1) % 2 ^ 55 := by
  decide

theorem test_states_Branches :
    (∀ v ∈ ([0, 5, -1] : List W64), (∀ i ∈ [Instr.br 0 0 16 0x7FFF, .br 0 1 16 2, .br 0 2 16 2, .br 0 3 16 2, .br 0 4 16 2, .br 0 5 16 2,
        .br 0 6 16 2, .br 0 7 16 2, .loop 0 16 1], (demo [v]).Admits i) ∧ (demo [v]).Clear [.int 16] none) ∧
    ((∀ i ∈ [Instr.jmp 0 0x7FFFFF, .call 0 1], (demo []).Admits i) ∧ (demo []).Clear [] none) ∧
    (∀ v ∈ ([8, 2] : List W64), (∀ i ∈ [Instr.jmpi 0 23, .calli 0 23], (demo [0, 0, 0, 0, 0, 0, 0, v]).Admits i) ∧
      (demo [0, 0, 0, 0, 0, 0, 0, v]).Clear [.int 23] none) ∧
    (∀ v ∈ ([8, 2] : List W64), (∀ i ∈ [Instr.ret 0], (demo [0, 0, 0, 0, 0, 0, 0, v]).Admits i) ∧
      (demo [0, 0, 0, 0, 0, 0, 0, v]).Clear [⟨23, 1, false⟩] none) := by
  refine ⟨?_, meets_of (by decide), ?_, ?_⟩ <;> intro v hv <;> simp only [List.mem_cons, List.not_mem_nil, or_false] at hv <;>
    rcases hv with rfl | rfl | rfl <;> exact meets_of (by decide)

/-- The instruction cache holds `ws` from the program counter on. -/
def demoCode (ns : List W64) (ws : List Word) : State :=
  (demo ns).updCore 0 (fun k => { k with icache := ws.zipIdx.map (fun p => (0x10000 / 4 + p.2, p.1)) })

/-- `REP n0, 1` over NOP, counting 2 and 0; over JMP its body is refused. -/
theorem test_states_Repetitions :
    (∃ b t, fetchBody ((demoCode [2] [0x581F8001, 0x601FFFC0]).me.pc + 4).toNat 1 (demoCode [2] [0x581F8001, 0x601FFFC0]) = .ok (b, t) ∧
      (clear t [.int 16] none && decide (arg1 (t.values [.int 16]) 0 ≠ 0)) = true) ∧
    (∃ b t, fetchBody ((demoCode [0] [0x581F8001, 0x601FFFC0]).me.pc + 4).toNat 1 (demoCode [0] [0x581F8001, 0x601FFFC0]) = .ok (b, t) ∧
      (clear t [.int 16] none && decide (arg1 (t.values [.int 16]) 0 = 0)) = true) ∧
    admits (demoCode [2] [0x581F8001, 0x601FFFC0]) (.rep 0 16 1) = true ∧
    (∃ w t, fetchWord (0x10004 % 2 ^ 55) (demoCode [0] [0x581F8001, 0x4BFFFFFF]) = .ok (w, t) ∧
      decide (bodyTrap t w = some 1) = true) :=
  ⟨answers_of (by decide), answers_of (by decide), by decide, answers_of (by decide)⟩

/-! ### Helpers and system instructions -/

/-- The same with every helper live. -/
def demoBusy (ns : List W64) : State := (List.range 10).foldl (fun s h => s.updCtx 0 (h + 1) (fun c => { c with status := .live })) (demo ns)

/-- The same with helper h in a state. -/
def demoHelper (h : Nat) (f : CtxState) (ns : List W64) : State := (demo ns).updCtx 0 h (fun c => { c with status := f })

theorem test_states_HelperControl :
    ((∀ i ∈ [Instr.start 0 0 16 17], (demo [0x1000, 5]).Admits i) ∧ (demo [0x1000, 5]).Clear [.int 16, .int 17] (some (.int 0))) ∧
    ((∀ i ∈ [Instr.start 0 0 16 17], (demoBusy [0x1000, 5]).Admits i) ∧
      (demoBusy [0x1000, 5]).Clear [.int 16, .int 17] (some (.int 0))) ∧
    ((∀ i ∈ [Instr.halt 0], (demo [] 10).Admits i) ∧ (demo [] 10).Clear [] none) ∧
    ((∀ i ∈ [Instr.halt 0, .yield 0], (demo []).Admits i) ∧ (demo []).Clear [] none) ∧
    ((∀ i ∈ [Instr.joinh 0 16], (demo [10]).Admits i) ∧ (demo [10]).Clear [.int 16] none) ∧
    ((∀ i ∈ [Instr.hstat 0 0 16], (demo [3] 1).Admits i) ∧ (demo [3] 1).Clear [.int 16] (some (.int 0))) ∧
    ((∀ i ∈ [Instr.hstat 0 0 16], (demo [10]).Admits i) ∧ (demo [10]).Clear [.int 16] (some (.int 0))) ∧
    ((∀ i ∈ [Instr.hstat 0 0 16], (demo [11]).Admits i) ∧ (demo [11]).Clear [.int 16] (some (.int 0))) :=
  ⟨meets_of (by decide), meets_of (by decide), meets_of (by decide), meets_of (by decide), meets_of (by decide), meets_of (by decide),
    meets_of (by decide), meets_of (by decide)⟩

theorem test_states_HelperControl_conditions :
    (demo [0x1000, 5]).here.freeHelper = some 1 ∧ (∀ h < 11, 1 ≤ h → ((demoBusy []).here.ctx h).status ≠ .free) ∧
    ((demo [] 10).cur.ctx ≠ 0 ∧ (demo [] 10).haltReady 0 10 = true) ∧
    ((demo []).cur.ctx = 0 ∧ (demo []).haltReady 0 0 = true) ∧ ((demo [10]).here.ctx 10).status = .free ∧
    (arg1 ((demo [10]).values [.int 16]) 0).toInt = 10 ∧ (arg1 ((demo [11]).values [.int 16]) 0).toInt = 11 := by
  decide

/-- Nothing of the issuing context is outstanding (R90). -/
theorem test_states_HelperCompletions :
    (∀ s ∈ [demo [10], demo [10] 10], s.me.status = .live ∧ (∀ x ∈ s.me.btail :: s.me.belt, x.pend = []) ∧
      (∀ x ∈ s.me.vtail :: s.me.vbelt, x.pend = []) ∧ (∀ j : Fin 8, (s.me.n[j]).pend = []) ∧ (∀ j : Fin 4, (s.me.a[j]).pend = []) ∧
      (∀ j : Fin 8, s.me.slots[j] = 0) ∧ s.here.mx = [] ∧ s.here.sfu = [] ∧ s.here.spmDue = [] ∧ s.me.loads = [] ∧ s.me.unacked = 0 ∧
      s.me.remote = [] ∧ s.me.parked = [] ∧ s.ranks = []) ∧
    (((demo []).here.ctx 1).status = .free ∧ ∀ h < 11, 1 ≤ h → ((demoBusy []).here.ctx h).status ≠ .free) ∧
    ((∀ i ∈ [Instr.start 0 0 16 17], (demo [0x1002, 5]).Admits i) ∧ (demo [0x1002, 5]).Clear [.int 16, .int 17] (some (.int 0))) ∧
    ((∀ i ∈ [Instr.joinh 0 16], (demoHelper 10 .live [10]).Admits i) ∧ (demoHelper 10 .live [10]).Clear [.int 16] none) ∧
    ((demoHelper 10 .live [10]).here.ctx 10).status ≠ .free :=
  ⟨by decide, by decide, meets_of (by decide), meets_of (by decide), by decide⟩

theorem test_states_HelperImages :
    (∀ f ∈ [CtxState.free, .live, .faulted, .suspended],
      ((∀ i ∈ [Instr.saveh 0 0 16 17, .loadh 0 0 16 17], (demoHelper 10 f [10, 0x40]).Admits i) ∧
        (demoHelper 10 f [10, 0x40]).Clear [.int 16, .int 17] (some (.int 0)))) ∧
    (∀ f ∈ [CtxState.free, .live, .faulted, .suspended],
      ((∀ i ∈ [Instr.resumeh 0 0 16, .killh 0 0 16], (demoHelper 10 f [10]).Admits i) ∧
        (demoHelper 10 f [10]).Clear [.int 16] (some (.int 0)))) ∧
    (stopHelper 10 (demoHelper 10 .live [10, 0x40])).here.saveReady 10 = true ∧
    (let m := (demoHelper 10 .live [10]).here.ctx 10;
      m.unacked = 0 ∧ m.remote = [] ∧ m.parked = [] ∧ m.loads = [] ∧ (demoHelper 10 .live [10]).ranks = [] ∧
      ∀ p < 4, (demoHelper 10 .live [10]).unsent 0 10 p = false) ∧
    ((demo []).LocalNow 0 0x40 1536 ∧ (demo []).LocalNow 0 0x17EA0 24) ∧
    ((∀ i ∈ [Instr.upret 0], (demo []).Admits i) ∧ (demo []).Clear [] none) ∧
    ((∀ i ∈ [Instr.upret 0], ((demo []).updCore 0 (fun k => { k with upcall := true })).Admits i) ∧
      ((demo []).updCore 0 (fun k => { k with upcall := true })).Clear [] none) := by
  refine ⟨?_, ?_, by decide, by decide, ⟨localNow_of (by decide), localNow_of (by decide)⟩, meets_of (by decide), meets_of (by decide)⟩ <;>
    intro f hf <;> simp only [List.mem_cons, List.not_mem_nil, or_false] at hf <;>
    rcases hf with rfl | rfl | rfl | rfl <;> exact meets_of (by decide)

theorem test_states_HelperImages_refusals :
    ((∀ i ∈ [Instr.saveh 0 0 16 17, .loadh 0 0 16 17], (demo [10, 0x40] 1).Admits i) ∧
      (demo [10, 0x40] 1).Clear [.int 16, .int 17] (some (.int 0))) ∧
    ((∀ i ∈ [Instr.resumeh 0 0 16, .killh 0 0 16], (demo [10] 1).Admits i) ∧ (demo [10] 1).Clear [.int 16] (some (.int 0))) ∧
    ((∀ i ∈ [Instr.saveh 0 0 16 17, .loadh 0 0 16 17], (demo [11, 96768]).Admits i) ∧
      (demo [11, 96768]).Clear [.int 16, .int 17] (some (.int 0))) ∧
    ((∀ i ∈ [Instr.resumeh 0 0 16, .killh 0 0 16], (demo [0]).Admits i) ∧ (demo [0]).Clear [.int 16] (some (.int 0))) ∧
    96768 % 64 = 0 ∧ 96768 + 1536 = 98304 :=
  ⟨meets_of (by decide), meets_of (by decide), meets_of (by decide), meets_of (by decide), by decide, by decide⟩

theorem demo_performed : (demo []).AllPerformed :=
  ⟨by decide, by decide, by decide, by decide, fun _ h => (List.not_mem_nil h).elim, fun _ h => (List.not_mem_nil h).elim⟩

/-- The load of an LDX whose lanes are still to come. -/
def demoLoad (shape : LoadShape) (sent : Bool) : Load := ⟨0, 0x10000, 8, shape, 0x10000, false, false, false, .spm 0 0 8, [], sent, [⟨1, 8, 0, 8, none⟩]⟩

theorem test_states_SystemControl :
    ((∀ i ∈ [Instr.nop 7, .ifence 0, .brk 0], (demo []).Admits i) ∧ (demo []).Clear [] none) ∧
    ((∀ i ∈ [Instr.trap 0 16], (demo [9]).Admits i) ∧ (demo [9]).Clear [.int 16] none) ∧
    ((∀ i ∈ [Instr.eret 0], ((demo []).updMe (fun c => { c with sup := true })).Admits i) ∧
      ((demo []).updMe (fun c => { c with sup := true })).Clear [] none) ∧
    ((∀ i ∈ [Instr.brk 0], ((demo []).updMe (fun c => { c with attached := true })).Admits i) ∧
      ((demo []).updMe (fun c => { c with attached := true })).Clear [] none) ∧
    ((∀ i ∈ [Instr.fence 0 4], (demo []).Admits i) ∧ (demo []).Clear [] none) ∧
    (demo []).AllPerformed ∧ (demo []).me.attached = false ∧ 0 ∈ (demo []).l1Cores 0 :=
  ⟨meets_of (by decide), meets_of (by decide), meets_of (by decide), meets_of (by decide), meets_of (by decide), demo_performed, by decide,
    by decide⟩

theorem test_states_SpecialRegisters :
    ((∀ i ∈ (List.range 20).map (fun a => Instr.gets 0 0 (BitVec.ofNat 5 a)), (demo []).Admits i) ∧
      (demo []).Clear [] (some (.int 0))) ∧
    ((∀ i ∈ [Instr.gets 0 0 24, .gets 0 0 25, .gets 0 0 26, .gets 0 0 27], ((demo []).updMe (fun c => { c with sup := true })).Admits i) ∧
      ((demo []).updMe (fun c => { c with sup := true })).Clear [] (some (.int 0))) ∧
    ((∀ i ∈ [Instr.puts 0 4 16, .puts 0 5 16, .puts 0 6 16, .puts 0 7 16, .puts 0 8 16, .puts 0 9 16, .puts 0 13 16, .puts 0 16 16,
        .puts 0 24 16, .puts 0 27 16], ((demo [5]).updMe (fun c => { c with sup := true })).Admits i) ∧
      ((demo [5]).updMe (fun c => { c with sup := true })).Clear [.int 16] none) ∧
    (demo []).me.btail.pend = [] ∧ (demo []).me.vtail.pend = [] ∧ (demo []).me.loads = [] ∧
    (let s := (demo []).updMe (fun c => { c with loads := [demoLoad (.lanes 0 0 0 [1]) false] });
     gateOf (.gets 0 0 5) s = none ∧ s.me.loads = [demoLoad (.lanes 0 0 0 [1]) false]) ∧
    (∃ p t m ws, (demoLoad (.lanes 0 0 0 [1]) false).shape = .lanes p t m ws) :=
  ⟨meets_of (by decide), meets_of (by decide), meets_of (by decide), by decide, by decide, by decide, by decide,
    ⟨_, _, _, _, rfl⟩⟩

/-- Nothing keeps a store back. -/
def storesNow (ps : List Place) (t : State) : Bool := decide (t.before (.home ps) = []) && !t.busy (.write []) ps

theorem test_states_WaitingInstructions :
    ((∀ i ∈ [Instr.waita 0 0 16 17], (demo [0x10008, 1]).Admits i) ∧ (demo [0x10008, 1]).Clear [.int 16, .int 17] (some (.int 0))) ∧
    (∀ v ∈ ([0, 1] : List W64), ∃ l t, loadGlobal 0x10008 8 .load (demo [0x10008, v]) = .ok (l, t) ∧
      decide (l.1 = .bytes [0, 0, 0, 0, 0, 0, 0, 0]) = true) ∧
    ((∀ i ∈ [Instr.waita 0 0 16 17], (demo [0x10008, 0]).Admits i) ∧ (demo [0x10008, 0]).Clear [.int 16, .int 17] (some (.int 0))) ∧
    ((∀ i ∈ [Instr.fflag 0 16 17], (demo [0x1FFF8, 7]).Admits i) ∧ (demo [0x1FFF8, 7]).Clear [.int 16, .int 17] none) ∧
    (∃ ps t, (demo [0x1FFF8, 7]).ReachesHome 0x1FFF8 8 .store false true ps t ∧ (storesNow ps t && decide (flagAwaits t.pkg t = [])) = true) ∧
    ((∀ i ∈ [Instr.fflag 0 31 17], (demo [0, 7]).Admits i) ∧ (demo [0, 7]).Clear [.int 17] none) ∧
    ((∀ i ∈ [Instr.sleepr 0 0], ((demo []).updMe (fun c => { c with sup := true })).Admits i) ∧
      ((demo []).updMe (fun c => { c with sup := true })).Clear [] (some (.int 0))) ∧
    ((∀ i ∈ [Instr.sleepr 0 0], ((demo []).updMe (fun c => { c with sup := true, sleep := some true })).Admits i) ∧
      ((demo []).updMe (fun c => { c with sup := true, sleep := some true })).Clear [] (some (.int 0))) ∧
    ((∀ i ∈ [Instr.tinv 0 16 17], ((demo [1, 0]).updMe (fun c => { c with sup := true })).Admits i) ∧
      ((demo [1, 0]).updMe (fun c => { c with sup := true })).Clear [.int 16, .int 17] none) := by
  refine ⟨meets_of (by decide), ?_, meets_of (by decide), meets_of (by decide), reachesHome_of (by decide), meets_of (by decide),
    meets_of (by decide), meets_of (by decide), meets_of (by decide)⟩
  intro v hv
  simp only [List.mem_cons, List.not_mem_nil, or_false] at hv
  rcases hv with rfl | rfl <;> exact answers_of (by decide)

/-! ### Memory -/

/-- Banks serve the places now, and none of their column words fails its code. -/
def soundAt (ps : List Place) (t : State) : Bool := !t.busy .read ps && decide (t.before (.home ps) = []) &&
  ps.all (fun x => !(t.recall ps).badWords.contains ((t.recall ps).wordAt none x))

theorem test_states_GlobalLoads :
    ((∀ i ∈ [Instr.ld 0 3 0 16 0 0xFF, .ld 0 2 0 16 4 0, .ldv 0 1 0 16 0 0], (demo [0x10010]).Admits i) ∧
      (demo [0x10010]).Clear [.int 16] (some (.int 0))) ∧
    (∃ ps t, (demo [0x10010]).ReachesHome 0x10008 8 .load true false ps t ∧ soundAt ps t = true) ∧
    ((∀ i ∈ [Instr.ldv 0 3 0 16 3 0], (demo [0x10040]).Admits i) → (demo [0x10040]).Clear [.int 16] (some (.vector 0 4))) ∧
    (∃ ps t, (demo [0x10040]).ReachesHome 0x10040 64 .load true false ps t (alloc := false) ∧ soundAt ps t = true) :=
  ⟨meets_of (by decide), reachesHome_of (by decide), fun _ => clear_of (by decide), reachesHome_of (by decide)⟩

theorem test_states_GlobalStores :
    ((∀ i ∈ [Instr.st 0 3 17 16 1 0, .st 0 0 17 16 0 0x80], (demo [0x10008, 5]).Admits i) ∧
      (demo [0x10008, 5]).Clear [.int 16, .int 17] none) ∧
    ((∀ i ∈ [Instr.stv 0 3 0 16 1 0], (demo [0x10040]).Admits i) ∧ (demo [0x10040]).Clear [.int 16, .vector 0 4] none) ∧
    (∃ ps t, (demo [0x10008, 5]).ReachesHome 0x10008 8 .store false true ps t ∧ (storesNow ps t && t.releasable) = true) ∧
    (∃ ps t, (demo [0x10040]).ReachesHome 0x10040 64 .store false true ps t ∧ (storesNow ps t && t.releasable) = true) ∧
    (let s := (demo [0x10008, 5]).updMe (fun c => { c with loads := [{ demoLoad (.word 8 false) true with acq := true }] })
     ((∀ i ∈ [Instr.st 0 3 17 16 0 0], s.Admits i) ∧ s.Clear [.int 16, .int 17] none) ∧
      ∃ ps t, s.ReachesHome 0x10008 8 .store false true ps t ∧ decide (t.before (.home ps) ≠ []) = true) ∧
    (let s := (demo [0x10008, 5]).updMe (fun c => { c with remote := [(9, 1)] })
     ((∀ i ∈ [Instr.st 0 3 17 16 1 0], s.Admits i) ∧ s.Clear [.int 16, .int 17] none) ∧
      ∃ ps t, s.ReachesHome 0x10008 8 .store false true ps t ∧ (!t.releasable) = true) :=
  ⟨meets_of (by decide), meets_of (by decide), reachesHome_of (by decide), reachesHome_of (by decide),
    ⟨meets_of (by decide), reachesHome_of (by decide)⟩, meets_of (by decide), reachesHome_of (by decide)⟩

/-- Word 1 of the scratchpad of core 0 is full, or one waiter is ahead. -/
def demoFull (ns : List W64) : State := (demo ns).updCore 0 (fun k => { k with full := [1] })

theorem test_states_LocalMemory :
    ((∀ i ∈ [Instr.ldl 0 3 0 16 0, .ldlAcq 0 3 0 16 0, .ldv 0 1 0 16 4 0, .ldf 0 0 16 0, .ldfe 0 0 16 0], (demoFull [8]).Admits i) ∧
      (demoFull [8]).Clear [.int 16] (some (.int 0))) ∧
    (demoFull [8]).Clear [.int 16] (some (.vector 0 1)) ∧
    ((∀ i ∈ [Instr.stl 0 3 17 16 0, .stlRel 0 3 17 16 0, .stf 0 17 16 0, .ste 0 17 16 0], (demo [98296, 5]).Admits i) ∧
      (demo [98296, 5]).Clear [.int 16, .int 17] none) ∧
    ((∀ i ∈ [Instr.stv 0 3 0 16 5 0], (demo [98240]).Admits i) ∧ (demo [98240]).Clear [.int 16, .vector 0 4] none) ∧
    localTarget 0 8 = (0, 8) ∧ localTarget 0 98296 = (0, 98296) ∧ localTarget 0 98240 = (0, 98240) ∧ 98240 + 64 = 98304 ∧
    isFull (demoFull [8]) 0 1 = true ∧ (waitersOn (demoFull [8]) 0 1).head? = none ∧ isFull (demo [8]) 0 1 = false ∧
    (waitersOn (demo [8]) 0 1).contains ⟨1, 0, 0, false, 8, 0, 0, 16⟩ = false ∧ waitersOn (demo [8]) 0 1 = [] ∧
    (∀ p ∈ [(8, 8), (98296, 8), (98240, 64)], (demo []).LocalNow 0 p.1 p.2) ∧ (demo []).releasable = true := by
  have h : (∀ p ∈ [(8, 8), (98296, 8), (98240, 64)], localNow (demo []) 0 p.1 p.2 = true) := by decide
  refine ⟨meets_of (by decide), clear_of (by decide), meets_of (by decide), meets_of (by decide), by decide, by decide, by decide, by decide,
    by decide, by decide, by decide, by decide, by decide, fun p hp => localNow_of (h p hp), by decide⟩

/-- An I4 pointer with NIB = 1, and a pointer to no format of R140. -/
theorem test_states_nibbles : ∀ p ∈ ([3 * 2 ^ 59 + 2 ^ 55 + 0x10010, 0] : List W64),
    ((∀ i ∈ [Instr.ldx 0 0 16 0 0 1], (demo [p]).Admits i) ∧ (demo [p]).Clear [.int 16] (some (.vector 0))) ∧
    ((∀ i ∈ [Instr.stx 0 0 16 0 0 0 1], (demo [p]).Admits i) ∧ (demo [p]).Clear [.int 16, .vector 0] none) := by
  intro p hp
  simp only [List.mem_cons, List.not_mem_nil, or_false] at hp
  rcases hp with rfl | rfl <;> exact ⟨meets_of (by decide), meets_of (by decide)⟩

/-- n0 is a fat pointer to E4M3 elements, at a global or a local address. -/
theorem test_states_ConvertingTransfers :
    ((∀ i ∈ [Instr.ldx 0 0 16 0 0 1, .ldx 0 0 16 0 1 0], (demo [0x5000000000010010]).Admits i) ∧
      (demo [0x5000000000010010]).Clear [.int 16] (some (.vector 0))) ∧
    ((∀ i ∈ [Instr.stx 0 0 16 0 0 0 1, .stx 0 0 16 0 1 1 0], (demo [0x5000000000010010]).Admits i) ∧
      (demo [0x5000000000010010]).Clear [.int 16, .vector 0] none) ∧
    ((∀ i ∈ [Instr.ldx 0 0 16 1 1 0], (demo [0x5000000000000010]).Admits i) ∧
      (demo [0x5000000000000010]).Clear [.int 16] (some (.vector 0))) ∧
    ((∀ i ∈ [Instr.stx 0 0 16 1 1 0 0], (demo [0x5000000000000010]).Admits i) ∧
      (demo [0x5000000000000010]).Clear [.int 16, .vector 0] none) ∧
    ((∀ i ∈ [Instr.pref 0 16 0 0], (demo [0x10000]).Admits i) ∧ (demo [0x10000]).Clear [.int 16] none) ∧
    (∃ ps t, (demo []).ReachesHome 0x10014 4 .load true false ps t ∧ soundAt ps t = true) ∧
    (∃ ps t, (demo []).ReachesHome 0x10014 4 .store false true ps t ∧ storesNow ps t = true) ∧
    (demo []).LocalNow 0 0x10 4 ∧
    (∀ p ∈ [3 * 2 ^ 59 + 2 ^ 55 + 0x10010, 0], ((∀ i ∈ [Instr.ldx 0 0 16 0 0 1], (demo [p]).Admits i) ∧ (demo [p]).Clear [.int 16] (some (.vector 0))) ∧
      ((∀ i ∈ [Instr.stx 0 0 16 0 0 0 1], (demo [p]).Admits i) ∧ (demo [p]).Clear [.int 16, .vector 0] none)) ∧
    (ptrFmt (3 * 2 ^ 59 + 2 ^ 55 + 0x10010) = 3 ∧ ptrNib (3 * 2 ^ 59 + 2 ^ 55 + 0x10010) = true ∧ ptrFmt 0 = 0) ∧
    ptrFmt 0x5000000000010010 = 10 ∧ fmtBits 10 = 8 ∧ nibShift 0x5000000000010010 = 0 ∧ (demo []).me.frm = 0 ∧
    localTarget 0 0x5000000000000010 = (0, 0x10) :=
  ⟨meets_of (by decide), meets_of (by decide), meets_of (by decide), meets_of (by decide), meets_of (by decide),
    reachesHome_of (by decide), reachesHome_of (by decide), localNow_of (by decide), test_states_nibbles, by decide, by decide, by decide, by decide, by decide, by decide⟩

theorem test_states_AtomicsAndUpdates :
    ((∀ i ∈ [Instr.atomFadd 0 0 16 17 3, .atomFand 0 0 16 17 2, .atomFor 0 0 16 17 1, .atomFxor 0 0 16 17 0, .atomFmin 0 0 16 17 3,
        .atomFmax 0 0 16 17 3, .atomFminu 0 0 16 17 3, .atomFmaxu 0 0 16 17 2, .atomSwap 0 0 16 17 3], (demo [0x10008, 5]).Admits i) ∧
      (demo [0x10008, 5]).Clear [.int 16, .int 17] (some (.int 0))) ∧
    ((∀ i ∈ [Instr.atomCas 0 0 16 18], (demo [0x10008, 0, 0, 5]).Admits i) ∧
      (demo [0x10008, 0, 0, 5]).Clear [.int 16, .int 18 2] (some (.int 0))) ∧
    ((∀ i ∈ [Instr.updAdd 0 16 17 5, .updMin 0 16 17 4, .updMax 0 16 17 3, .updAmax 0 16 17 1, .updAnd 0 16 17 0, .updOr 0 16 17 1,
        .updXor 0 16 17 3], (demo [0x10008, 5]).Admits i) ∧ (demo [0x10008, 5]).Clear [.int 16, .int 17] none) ∧
    (∃ ps t, (demo [0x10008, 5]).ReachesHome 0x10008 8 .atomic true true ps t ∧
      (!t.busy (.atom 0 0 0) ps && ps.all (fun p => !(t.recall ps).badWords.contains ((t.recall ps).wordAt none p))) = true) ∧
    (∃ ps t, (demo [0x10008, 5]).ReachesHome 0x10008 8 .atomic false true ps t (u := some (5, 0)) ∧
      (decide (t.before (.home ps) = []) && ps.all (fun p => !t.badWords.contains (t.wordAt none p))) = true) ∧
    (demo []).releasable = true ∧
    (let ps : List Place := (List.range 8).map (fun k => ⟨0, 0, 8 + k⟩)
     let row (p : Place) : Nat := cellKey p.rank (((demo []).rank p.rank).phys p.row) 0
     ps.Nodup ∧ Memory.wf (demo []).mem = true ∧ (demo []).updatesOf (ps.map (fun p => p.key / 64)) = [] ∧
      ∀ p ∈ ps, p.byte < 1024 ∧ p.row < 65536 ∧ (∀ q ∈ ps, row p = row q → p.rank = q.rank ∧ p.row = q.row) ∧
        (demo []).inFootprint p.rank p.row = false ∧ ((demo []).rank p.rank).heldByte (p.row * 1024 + p.byte) = none) :=
  ⟨meets_of (by decide), meets_of (by decide), meets_of (by decide), reachesHome_of (by decide), reachesHome_of (by decide), by decide,
    by decide⟩

/-- Page 2 has no translation: VD 0 has no page table. -/
theorem test_states_TranslationFaults :
    ((∀ i ∈ [Instr.ld 0 3 0 16 0 0], (demo [0x20008]).Admits i) ∧ (demo [0x20008]).Clear [.int 16] (some (.int 0))) ∧
    ((∀ i ∈ [Instr.st 0 3 17 16 0 0], (demo [0x20008, 1]).Admits i) ∧ (demo [0x20008, 1]).Clear [.int 16, .int 17] none) ∧
    ((∀ i ∈ [Instr.atomFadd 0 0 16 17 3], (demo [0x20008, 1]).Admits i) ∧
      (demo [0x20008, 1]).Clear [.int 16, .int 17] (some (.int 0))) ∧
    (∀ k ∈ [(AccessKind.load, none), (.store, none), (.atomic, none), (.atomic, some (5, 0))], ∃ t,
      ((demo []).mergeOwn 0 k.2 0x20008 8).translate 0 k.1 k.2 0x20008 8 = (t, .error (.fault 8, 0x20008)) ∧
      (demo []).me.hold = none) ∧ (demo []).releasable = true := by
  refine ⟨meets_of (by decide), meets_of (by decide), meets_of (by decide), ?_, by decide⟩
  intro k hk
  have h : (((demo []).mergeOwn 0 k.2 0x20008 8).translate 0 k.1 k.2 0x20008 8).2 = .error (.fault 8, 0x20008) := by
    simp only [List.mem_cons, List.not_mem_nil, or_false] at hk
    rcases hk with rfl | rfl | rfl | rfl <;> rfl
  exact ⟨_, Prod.ext rfl h, rfl⟩

/-- Places of a row outside every footprint, and of a row in one. -/
theorem test_states_StoredBytes :
    let ps : List Place := [⟨0, 0, 1022⟩, ⟨0, 0, 1023⟩, ⟨1, 65535, 0⟩]
    let c : Course := ⟨0, 0, none, 0, 0, 0, true, [0], [], true, [(0, 0), (1, 65535)], [], [], 0, 1, [], none, false, [], 0⟩
    let s : State := { demo [] with courses := [c] }
    let row (p : Place) : Nat := cellKey p.rank (((demo []).rank p.rank).phys p.row) 0
    ps.Nodup ∧ (∀ p ∈ ps, ∀ x ∈ (⟨0, 1, 0⟩ : Place) :: ps, row x = row p → x.rank = p.rank ∧ x.row = p.row) ∧
    (∀ p ∈ ps, p.byte < 1024 ∧ p.row < 65536) ∧ (demo []).updatesOf (ps.map (fun p => p.key / 64)) = [] ∧
    (∀ p ∈ ps, (demo []).inFootprint p.rank p.row = false ∧ ((demo []).rank p.rank).heldByte (p.row * 1024 + p.byte) = none) ∧
    (∀ p ∈ ps, s.inFootprint p.rank p.row = true) ∧ Memory.wf (demo []).mem = true ∧ (demo []).partOfBad ps = false ∧
    (⟨0, 1, 0⟩ : Place) ∉ ps := by
  decide

/-! ### Ports and groups -/

/-- Port p0 of the issuing context is bound to port 1 of context 2 of core 3. -/
def demoPort (ns : List W64) : State := (demo ns).updMe (fun c => { c with ports := c.ports.set 0 ⟨some ⟨3, 2, 1⟩, false, [5]⟩ })

theorem test_states_Ports :
    ((∀ i ∈ [Instr.pbind 0 24 16], (demo [0xF3A00000007]).Admits i) ∧ (demo [0xF3A00000007]).Clear [.int 16] none) ∧
    ((∀ i ∈ [Instr.pstat 0 0 27, .pdrain 0 0 24], (demo []).Admits i) ∧ (demo []).Clear [] (some (.int 0))) ∧
    ((∀ i ∈ [Instr.pstat 0 0 24, .pdrain 0 0 24], (demoPort []).Admits i) ∧ (demoPort []).Clear [] (some (.int 0))) ∧
    ((∀ i ∈ [Instr.pord 0 24], (demoPort []).Admits i) ∧ (demoPort []).Clear [] none) ∧
    bindOk (demo []) 0xF3A00000007 = true ∧ ((demo []).me.ports[ptrIx 0]).dest = none ∧ ((demo []).me.ports[ptrIx 3]).dest = none ∧
    ((demoPort []).me.ports[ptrIx 0]).dest = some ⟨3, 2, 1⟩ ∧ (demoPort []).unsent (demoPort []).here.origin 0 0 = false :=
  ⟨meets_of (by decide), meets_of (by decide), meets_of (by decide), meets_of (by decide), by decide, by decide, by decide, by decide,
    by decide⟩

/-- Core 0 runs a node of queue 0, whose launch puts cores 1 and 0 into group 255 (R224); member m has arrived `c m` times. -/
def demoGroup (ns : List W64) (arrived : List (Nat × Nat)) : State :=
  ((demo ns).updCore 0 (fun k => { k with node := some ⟨0, 0, 0⟩ })).updVd 0 (fun v => { v with
    queues := v.queues.set 0 ⟨[], List.replicate 255 [] ++ [[1, 0]], [⟨255, arrived, [], []⟩]⟩ })

theorem test_states_Groups :
    ((∀ i ∈ [Instr.gidx 0 0 16, .gsize 0 0 16, .bara 0 0 16, .elect 0 0 16], (demoGroup [255] []).Admits i) ∧
      (demoGroup [255] []).Clear [.int 16] (some (.int 0))) ∧
    ((∀ i ∈ [Instr.barw 0 16 17], (demoGroup [255, 0] [(0, 1), (1, 1)]).Admits i) ∧
      (demoGroup [255, 0] [(0, 1), (1, 1)]).Clear [.int 16, .int 17] none) ∧
    ((∀ i ∈ [Instr.bar 0 16], (demoGroup [255] [(0, 1)]).Admits i) ∧ (demoGroup [255] [(0, 1)]).Clear [.int 16] none) ∧
    ((∀ i ∈ [Instr.bar 0 16], ((demoGroup [255] [(0, 1), (1, 1)]).updMe (fun c => { c with barrier := [(0x10000, 0)] })).Admits i) ∧
      ((demoGroup [255] [(0, 1), (1, 1)]).updMe (fun c => { c with barrier := [(0x10000, 0)] })).Clear [.int 16] none) ∧
    (demoGroup [] []).memberIx 255 = some 1 ∧ (demoGroup [] []).groupOf 255 = [1, 0] :=
  ⟨meets_of (by decide), meets_of (by decide), meets_of (by decide), meets_of (by decide), by decide, by decide⟩

theorem test_states_Groups_phases :
    (∀ k < 2, 0 < ((demoGroup [255, 0] [(0, 1), (1, 1)]).tracker 255).count k) ∧
    (∀ k < 2, 0 < ((arriveAt 255 (demoGroup [255] [(0, 1)])).tracker 255).count k) ∧
    ((demoGroup [255] [(0, 1)]).tracker 255).count 1 = 0 ∧ lookup 0x10000 (demoGroup [] []).me.barrier = none ∧
    (demoGroup [] []).me.pc.toNat = 0x10000 ∧ (demoGroup [] []).releasable = true := by
  decide

/-! ### Vectors, floats, streams, lazy values -/

theorem test_states_VectorIntegers :
    (∀ i ∈ [Instr.vadd 0 0 0 18 0, .vsub 0 0 0 18 1, .vmul 0 0 0 18 2, .vmin 0 0 0 18 3, .vmax 0 0 0 18 0, .vminu 0 0 0 18 0,
      .vmaxu 0 0 0 18 0, .vand 0 0 0 18 0, .vor 0 0 0 18 0, .vxor 0 0 0 18 0, .vshl 0 0 0 18 0, .vshr 0 0 0 18 0, .vsar 0 0 0 18 0,
      .vceq 0 0 0 18 0, .vclt 0 0 0 18 0, .vcltu 0 0 0 18 0], (demo []).Admits i) ∧
    (demo []).Clear [.vector 0, .vector 18] (some (.vector 0)) := meets_of (by decide)

/-- The same with rounding mode RSR and stream handle 0 bound, so that every operation draws words (R47). -/
def demoRsr (ns : List W64) : State := (demo ns).updMe (fun c => { c with mode := 5, hnd := c.hnd.set 0 ⟨true, 0, 0, true, 0⟩ })

theorem test_states_VectorFloats :
    (∀ s ∈ [demo [], demoRsr []],
      ((∀ i ∈ [Instr.vfadd 0 0 0 18 3, .vfsub 0 0 0 18 2, .vfmul 0 0 0 18 1, .vfmin 0 0 0 18 2, .vfmax 0 0 0 18 2, .vfceq 0 0 0 18 2,
          .vfclt 0 0 0 18 2, .vfcle 0 0 0 18 2, .vfscl 0 0 0 18 2], s.Admits i) ∧
        s.Clear [.vector 0, .vector 18] (some (.vector 0))) ∧
      ((∀ i ∈ [Instr.vfma 0 0 0 18 2], s.Admits i) ∧ s.Clear [.vector 0, .vector 18, addend 0] (some (.vector 0))) ∧
      ((∀ i ∈ [Instr.vfabs 0 0 0 2, .vfneg 0 0 0 2, .vfrnd 0 0 0 2, .vfcls 0 0 0 3], s.Admits i) ∧ s.Clear [.vector 0] (some (.vector 0)))) ∧
    (demo []).me.frm = 0 ∧ (demoRsr []).me.frm = 5 ∧ (demoRsr []).me.srHandle.bound = true := by
  refine ⟨?_, by decide, by decide, by decide⟩
  intro s hs
  simp only [List.mem_cons, List.not_mem_nil, or_false] at hs
  rcases hs with rfl | rfl <;> exact ⟨meets_of (by decide), meets_of (by decide), meets_of (by decide)⟩

theorem test_states_VectorExchange :
    ((∀ i ∈ [Instr.vsplat 0 0 0 15 0, .vext 0 0 0 1 3, .vrev 0 0 0 0, .vsumh 0 0 0 2, .vamaxh 0 0 0 2, .vmaxh 0 0 0 1, .vabs 0 0 0 0,
        .vmov 0 0 0 0], (demo []).Admits i) ∧ (demo []).Clear [.vector 0] (some (.vector 0))) ∧
    ((∀ i ∈ [Instr.vshuf 0 0 0 1 0, .vzip 0 0 0 1 3, .vunz 0 0 0 1 2], (demo []).Admits i) ∧
      (demo []).Clear [.vector 0, .vector 1] (some (.vector 0))) ∧
    ((∀ i ∈ [Instr.vins 0 0 0 15 0], (demo []).Admits i) ∧ (demo []).Clear [.vector 0, b0] (some (.vector 0))) ∧
    ((∀ i ∈ [Instr.vsel 0 0 0 1 0], (demo []).Admits i) ∧ (demo []).Clear [.vector 0, .vector 1, b0] (some (.vector 0))) ∧
    ((∀ i ∈ [Instr.vdot4 0 0 0 1], (demo []).Admits i) ∧ (demo []).Clear [.vector 0, .vector 1, addend 0] (some (.vector 0))) :=
  ⟨meets_of (by decide), meets_of (by decide), meets_of (by decide), meets_of (by decide), meets_of (by decide)⟩

theorem test_states_ScalarFloats :
    (∀ s ∈ [demo [], demoRsr []],
      ((∀ i ∈ [Instr.fadd 0 0 0 16 0, .fsub 0 0 0 16 1, .fmul 0 0 0 16 1, .fmin 0 0 0 16 0, .fmax 0 0 0 16 0, .fceq 0 0 0 16 0,
          .fclt 0 0 0 16 0, .fcle 0 0 0 16 0], s.Admits i) ∧ s.Clear [.int 0, .int 16] (some (.int 0))) ∧
      ((∀ i ∈ [Instr.fabs 0 0 0 0, .fcvti 0 0 0 1, .fcvtf 0 0 0 1, .fcvtw 0 0 0 0], s.Admits i) ∧ s.Clear [.int 0] (some (.int 0))) ∧
      ((∀ i ∈ [Instr.vcvt 0 0 0 9 7 0, .vcvt 0 0 0 3 0x1E 1], s.Admits i) ∧ s.Clear [.vector 0] (some (.vector 0)))) ∧
    ((∀ i ∈ [Instr.vcvts 0 0 0 9 7 1], (demoRsr []).Admits i) ∧ (demoRsr []).Clear [.vector 0] (some (.vector 0))) := by
  refine ⟨?_, meets_of (by decide)⟩
  intro s hs
  simp only [List.mem_cons, List.not_mem_nil, or_false] at hs
  rcases hs with rfl | rfl <;> exact ⟨meets_of (by decide), meets_of (by decide), meets_of (by decide)⟩

theorem test_states_SpecialFunctions :
    ((∀ i ∈ [Instr.frcp 0 0 0 0, .frsq 0 0 0 0, .fsqrt 0 0 0 0, .fexp2 0 0 0 1, .flog2 0 0 0 1, .fsinp 0 0 0 0, .fcosp 0 0 0 0,
        .ftanh 0 0 0 0, .ferf 0 0 0 0], (demo []).Admits i) ∧ (demo []).Clear [.vector 0] (some (.vector 0))) ∧
    ((∀ i ∈ [Instr.frcp 0 24 0 0, .ferf 0 24 0 0], ((demoPort []).updMe (fun c => { c with answer := some 0 })).Admits i) ∧
      ((demoPort []).updMe (fun c => { c with answer := some 0 })).Clear [.vector 0] (some (.vector 24))) ∧
    (demo []).here.sfu.length < 4 :=
  ⟨meets_of (by decide), meets_of (by decide), by decide⟩

theorem test_states_Streams :
    ((∀ i ∈ [Instr.sbind 0 16 17], (demo [98256, 15]).Admits i) ∧ (demo [98256, 15]).Clear [.int 16, .int 17] none) ∧
    ((∀ i ∈ [Instr.sfree 0 16], (demo [15]).Admits i) ∧ (demo [15]).Clear [.int 16] none) ∧
    ((∀ i ∈ [Instr.rndw 0 0 16 17], (demoRsr [0, 7]).Admits i) ∧ (demoRsr [0, 7]).Clear [.int 16, .int 17] (some (.int 0))) ∧
    ((∀ i ∈ [Instr.rndv 0 18 16 17], (demoRsr [0, 7]).Admits i) ∧ (demoRsr [0, 7]).Clear [.int 16, .int 17] (some (.int 18 2))) ∧
    ((∀ i ∈ [Instr.sgen 0 0 16], (demo [15]).Admits i) ∧ (demo [15]).Clear [.int 16] (some (.int 0))) ∧
    98256 % 16 = 0 ∧ 98256 + 48 = 98304 ∧ ofBytes ((demo []).spmRead 0 (98256 + 40) 8) = 0 ∧ ((demoRsr []).me.hnd[0]).bound = true ∧
    (demo []).LocalNow 0 98256 48 :=
  ⟨meets_of (by decide), meets_of (by decide), meets_of (by decide), meets_of (by decide), meets_of (by decide), by decide, by decide,
    by decide, by decide, localNow_of (by decide)⟩

/-- Lazy register z0 holds 128 digits; z1 none, with handle 0, which is bound; `zx` is bit 4 of $mode. -/
def demoLazy (p : Nat) (ns : List W64) (zx : Bool) : State :=
  (demo ns).updMe (fun c => { c with
    mode := if zx then 16 else 0
    hnd := c.hnd.set 0 ⟨true, 0, 0, true, 0⟩
    z := (c.z.set 0 ⟨BitVec.ofNat 128 p, 128, 0, 0, 0⟩).set 1 ⟨0, 0, 0, 0, 5⟩ })

/-- What a computation answers, nothing when it stops. -/
def result {α : Type} : Except Stop α → Option α
  | .ok d => some d
  | .error _ => none

theorem result_of {α : Type} {r : Except Stop α} {d : α} (h : result r = some d) : r = .ok d := by
  cases r with
  | error e => simp [result] at h
  | ok x => exact congrArg Except.ok (Option.some.inj h)

/-- Thresholds 1/2 (decided for 1/4), 1/3 (never decided by its own first digits), 2^-149, and floors of thirds. -/
theorem test_states_LazyValues :
    let third := 2 ^ 128 / 3
    decideLoop (demoLazy (2 ^ 126) [] false).me (threshold 1 2) 5 ⟨BitVec.ofNat 128 (2 ^ 126), 128, 0, 0, 0⟩ =
      .ok (.val 1 ⟨BitVec.ofNat 128 (2 ^ 126), 128, 0, 0, 0⟩) ∧
    decideLoop (demoLazy third [] false).me (threshold 1 3) 5 ⟨BitVec.ofNat 128 third, 128, 0, 0, 0⟩ =
      .ok (.exhausted ⟨BitVec.ofNat 128 third, 128, 0, 0, 0⟩) ∧
    decideLoop (demoLazy 0 [] true).me (threshold (zltfFrac [1]).1 (zltfFrac [1]).2) 5 ⟨0, 128, 0, 0, 0⟩ =
      .ok (.exhausted ⟨0, 128, 0, 0, 0⟩) ∧ zltfQuick [1] = none ∧ zltfQuick [0x3F000000] = none ∧
    ltzLoop (demoLazy 0 [] true).me 9 ⟨0, 128, 0, 0, 0⟩ ⟨1, 128, 0, 0, 1⟩ = .ok (some 1, ⟨0, 128, 0, 0, 0⟩, ⟨1, 128, 0, 0, 1⟩) ∧
    ltzLoop (demoLazy 0 [] true).me 9 ⟨0, 128, 0, 0, 0⟩ ⟨0, 128, 0, 0, 1⟩ = .ok (none, ⟨0, 128, 0, 0, 0⟩, ⟨0, 128, 0, 0, 1⟩) ∧
    ((demoLazy 0 [] true).me.lazy 16).ident ≠ ((demoLazy 0 [] true).me.lazy 17).ident :=
  ⟨result_of (by decide), result_of (by decide), result_of (by decide), by decide, by decide, result_of (by decide),
    result_of (by decide), by decide⟩

theorem test_states_LazyValues_operands :
    (∀ zx ∈ [true, false],
      ((∀ i ∈ [Instr.zltq 0 0 16 18], (demoLazy 0 [0, 0, 1, 3] zx).Admits i) ∧
        (demoLazy 0 [0, 0, 1, 3] zx).Clear [.int 18 2] (some (.int 0))) ∧
      ((∀ i ∈ [Instr.zltf 0 0 16 18, .zfloor 0 0 16 18, .zbits 0 0 16 18], (demoLazy 0 [0, 0, 3] zx).Admits i) ∧
        (demoLazy 0 [0, 0, 3] zx).Clear [.int 18] (some (.int 0))) ∧
      ((∀ i ∈ [Instr.zltz 0 0 16 17, .zlen 0 0 16], (demoLazy 0 [] zx).Admits i) ∧ (demoLazy 0 [] zx).Clear [] (some (.int 0)))) ∧
    ((∀ i ∈ [Instr.zdraw 0 16 16 17], (demoLazy 0 [0, 7] false).Admits i) ∧ (demoLazy 0 [0, 7] false).Clear [.int 16, .int 17] none) ∧
    ((∀ i ∈ [Instr.zext 0 17 16, .zst 0 16 18], gateOf i (demoLazy 0 [128, 0, 98272] false) = none) ∧
      (demoLazy 0 [128, 0, 98272] false).Clear [.int 16] none ∧ (demoLazy 0 [128, 0, 98272] false).Clear [.int 18] none) ∧
    ((∀ i ∈ [Instr.zld 0 17 18], (demo [0, 0, 98272]).Admits i) ∧ (demo [0, 0, 98272]).Clear [.int 18] none) ∧
    ((∀ i ∈ [Instr.zmov 0 17 16], (demo []).Admits i) ∧ (demo []).Clear [] none) ∧
    (recordOf ((demo []).spmRead 0 98272 32)).len = 0 ∧ 98272 + 32 = 98304 ∧ (demo []).LocalNow 0 98272 32 := by
  refine ⟨?_, meets_of (by decide), ⟨by decide, clear_of (by decide), clear_of (by decide)⟩, meets_of (by decide),
    meets_of (by decide), by decide, by decide, localNow_of (by decide)⟩
  intro zx hz
  simp only [List.mem_cons, List.not_mem_nil, or_false] at hz
  rcases hz with rfl | rfl <;> exact ⟨meets_of (by decide), meets_of (by decide), meets_of (by decide)⟩

/-- z0 names a handle of which the context has another generation, or that is not bound; z1 a handle that is not bound. -/
def demoStale (h : BitVec 16) : Context :=
  ((demo []).updMe (fun c => { c with hnd := c.hnd.set 0 ⟨true, 0, 0, true, 0⟩, z := (c.z.set 0 ⟨0, 0, h, 7, 0⟩).set 1 ⟨0, 0, 1, 7, 1⟩ })).me

theorem test_states_LazyValues_stale :
    ((demoStale 1).hnd[hndIx 1]).bound = false ∧ 15 < (0xFFFF : BitVec 16).toNat ∧
    ((demoStale 0).hnd[hndIx 0]).bound = true ∧ ((demoStale 0).hnd[hndIx 0]).gen ≠ 7 ∧
    threshold 1 3 0 0 = none ∧ zfloorTest [3] 0 0 = none ∧ (0 : Nat) < min 1 128 ∧
    ((demoStale 0).lazy 16).ident ≠ ((demoStale 0).lazy 17).ident := by
  decide

theorem test_states_LazyValues_undecided :
    ltzTest ⟨0, 0, 0, 7, 0⟩ ⟨0, 0, 1, 7, 1⟩ = none ∧ ltzTest ⟨0, 32, 0, 7, 0⟩ ⟨0, 0, 1, 7, 1⟩ = none := by
  decide

/-- z1 of `demoLazy` has no digits, and its handle is bound with its generation. -/
theorem test_states_LazyDigits :
    let z : Lazy := ⟨0, 0, 0, 0, 5⟩
    z.len < 128 ∧ z.digits.toNat % 2 ^ (128 - z.len) = 0 ∧ ((demoLazy 0 [] false).me.hnd[hndIx 0]).bound = true ∧
    (∃ y, extend (demoLazy 0 [] false).me z = .ok y) ∧
    (∃ y r, decideLoop (demoLazy 0 [] false).me (threshold 1 2) 5 z = .ok (.val r y)) :=
  ⟨by decide, by decide, by decide, ⟨_, rfl⟩, ⟨_, _, rfl⟩⟩

/-! ### Engines, commands, launches -/

theorem test_states_GeometryRegisters :
    (∀ n ∈ ([0, 12, 16] : List W64), ((∀ i ∈ [Instr.csetg 17 16], (demo [n, 5]).Admits i) ∧ (demo [n, 5]).Clear [.int 17, .int 16] none) ∧
      ((∀ i ∈ [Instr.cgetg 16], (demo [n, 5]).Admits i) ∧ (demo [n, 5]).Clear [.int 16] (some (.int 0)))) ∧
    (∀ n ∈ ([0, 10, 11] : List W64), ((∀ i ∈ [Instr.msetg 17 16], (demo [n, 5]).Admits i) ∧ (demo [n, 5]).Clear [.int 17, .int 16] none) ∧
      ((∀ i ∈ [Instr.mgetg 16], (demo [n, 5]).Admits i) ∧ (demo [n, 5]).Clear [.int 16] (some (.int 0)))) ∧
    (cgMask 0).isSome = true ∧ (cgMask 12).isSome = true ∧ (cgMask 16).isSome = true ∧ (mgMask 0).isSome = true ∧ (mgMask 10).isSome = true := by
  refine ⟨?_, ?_, by decide, by decide, by decide, by decide, by decide⟩ <;> intro n hn <;>
    simp only [List.mem_cons, List.not_mem_nil, or_false] at hn <;>
    rcases hn with rfl | rfl | rfl <;> exact ⟨meets_of (by decide), meets_of (by decide)⟩

/-- Slot 7 with a slot count of 254, and a geometry whose conversion and rounding draw stream words. -/
def demoEngine (ns : List W64) : State := (demoRsr ns).updMe (fun c => { c with
  slots := c.slots.set 7 254, cg := c.cg.set 8 0x3A })

theorem test_states_EngineCommands :
    (∀ s ∈ [demo [], demoEngine []],
      ((∀ i ∈ [Instr.cpy 16 17 255 7 1, .mma 16 17 0 0 0, .mldc 16 17 128 7 1, .mstc 16 17 1 7 1], s.Admits i) ∧
        s.Clear [.int 16, .int 17] none) ∧
      ((∀ i ∈ [Instr.mzero 16 0 7 1], s.Admits i) ∧ s.Clear [.int 16] none) ∧
      (s.me.slots[7] ≠ 255 ∧ s.here.mx.length < 8 ∧ s.here.copies.length < 8)) ∧
    ((∀ i ∈ [Instr.mcommit, .dwait 0xFF], (demo []).Admits i) ∧ (demo []).Clear [] none) ∧
    ((∀ i ∈ [Instr.mwait 31], (demo []).Admits i) ∧ (demo []).Clear [.int 31] (some (.int 0))) ∧
    ((∀ i ∈ [Instr.dstat], (demo []).Admits i) ∧ (demo []).Clear [] (some (.int 0))) ∧
    (demoEngine []).me.srHandle.bound = true ∧ (demo []).me.groups.length = 0 ∧ ∀ k : Fin 8, (demo []).me.slots[k] = 0 := by
  refine ⟨?_, meets_of (by decide), meets_of (by decide), meets_of (by decide), by decide, by decide, by decide⟩
  intro s hs
  simp only [List.mem_cons, List.not_mem_nil, or_false] at hs
  rcases hs with rfl | rfl <;> exact ⟨meets_of (by decide), meets_of (by decide), by decide⟩

theorem test_states_RingCommands :
    ((∀ i ∈ [Instr.coll 16 17 0 7 1, .rkrun 16 17 0 0 0, .rkovl 16 17 0 7 1, .rksig 16 17 0], (demo [0x10000, 0]).Admits i) ∧
      (demo [0x10000, 0]).Clear [.int 16, .int 17] none) ∧
    ((∀ i ∈ [Instr.rkstop 16 0], (demo [1]).Admits i) ∧ (demo [1]).Clear [.int 16] none) ∧
    (∃ bs u, blockRead 0x10000 128 (demo [0x10000, 0]) = .ok (bs, u) ∧
      (decide (w64 bs 0x50 = 0) && decide (w64 bs 0x40 = 0) && answers (wordReady (w64 bs 0x50) u) (fun _ _ => true)) = true) ∧
    (∃ bs u, blockRead 0x10000 48 (demo [0x10000, 0]) = .ok (bs, u) ∧
      (answers (wordReady (w64 bs 0x20) u) (fun _ v => answers (wordReady (w64 bs 0x10) v) (fun _ _ => true))) = true) ∧
    (imageRead 0 (List.replicate 48 0) (demo [])).1.stalled = (demo []).stalled ∧
    (demo []).ringFull = false ∧ (demo []).me.slots[7] ≠ 255 ∧ (demo []).me.slots.toList.length = 8 :=
  ⟨meets_of (by decide), meets_of (by decide), answers_of (by decide), answers_of (by decide), by decide, by decide, by decide, by decide⟩

/-- The context knows a command with handle 3, finished with 0x55 or not. -/
def demoHandle (v : Option W64) : State := (demo [3]).updMe (fun c => { c with cmds := [⟨3, 0, v⟩] })

theorem test_states_CommandQueries :
    (∀ s ∈ [demo [3], demoHandle none, demoHandle (some 0x55)],
      (∀ i ∈ [Instr.cquery 16, .rkstat 16, .cabort 16], s.Admits i) ∧ s.Clear [.int 16] (some (.int 0)) ∧ s.Clear [.int 16] none) ∧
    ((∀ i ∈ [Instr.glaunch 0 0 16 17], (demo [0x10000, 3]).Admits i) ∧ (demo [0x10000, 3]).Clear [.int 16, .int 17] (some (.int 0))) ∧
    ((∀ i ∈ [Instr.gquery 0 0 16], (demo [0]).Admits i) ∧ (demo [0]).Clear [.int 16] (some (.int 0))) ∧
    (demoHandle none).me.cmds.find? (fun c => c.handle.toNat == 3 % 2 ^ 32) = some ⟨3, 0, none⟩ ∧
    (demo []).permTouches 1 0 (fun p => p.k && p.vd == 0) = true ∧ (demo []).permTouches 2 0 (fun p => p.k && p.vd == 0) = false ∧
    (demo []).AllPerformed ∧
    (submit 0 0x10000 3 (consume [.int 16, .int 17] (demo [0x10000, 3]).afresh)).1.stalled = [] := by
  refine ⟨?_, meets_of (by decide), meets_of (by decide), by decide, by decide, by decide, demo_performed, by decide⟩
  intro s hs
  simp only [List.mem_cons, List.not_mem_nil, or_false] at hs
  rcases hs with rfl | rfl | rfl <;> exact ⟨(meets_of (srcs := [.int 16]) (dst := none) (by decide)).1, clear_of (by decide), clear_of (by decide)⟩

/-- A misaligned descriptor is refused; one of zeros, in memory that holds nothing, has no nodes and is accepted. -/
theorem test_states_CommandQueries_launches :
    (readGraph 0 1 (demo [])).1 = none ∧ (readGraph 0 0x10000 (demo [])).1.isSome = true ∧
    ((((demo []).vd 0).queues[3]).launches).length < 64 ∧
    64 ≤ (((((demo []).updVd 0 (fun v => { v with queues := v.queues.set 3 ⟨List.replicate 64
      ⟨0, false, none, [], 0, 0, 0, [], false⟩, [], []⟩ })).vd 0).queues[3]).launches).length := by
  decide

/-! ### Ranks -/

/-- Rank 0 runs member 1 of 2 of a run whose launch puts ranks 1 and 0 into group 1 and core 0 and rank 0 into group 2. -/
def demoRun : RankRun := ⟨0, 0, none, 0, 0, 1, 2, some (3, 2, 1), [[], [0x200001, 0x200000], [0, 0x200000]]⟩

/-- Rank 0 at word `upc`, its scalar registers `ss`. -/
def demoRank (ss : List Word) (upc : Nat := 5) (f : Rank → Rank := id) : State :=
  (demo []).updRank 0 (fun k => f { k with
    state := .running, upc := upc, run := some demoRun, s := Vector.ofFn (fun j : Fin 16 => ss.getD j 0) })

theorem test_states_RankScalars :
    (demoRank [0, 1, 2]).rk.s[1] ≠ 0 ∧ (demoRank []).rk.s[1] = 0 ∧ ((demoRank []).rk.upc : Int) + (-5) = 0 ∧
    ((demoRank []).rk.upc : Int) + (-6) < 0 ∧ ((demoRank [] 1023).rk.upc : Int) + 1 > 1023 ∧
    (BitVec.ofInt 32 (((demoRank [0, 1]).rk.s[1]).toInt - 1)) = 0 ∧ (BitVec.ofInt 32 (((demoRank []).rk.s[1]).toInt - 1)) ≠ 0 := by
  decide

theorem test_states_RankStarts :
    (demoRank []).rk.pending = [] ∧ (demoRank []).rk.wait = none ∧ (demoRank []).rk.timer + 191 < 192 ∧
    (demoRank []).napping.contains (channelOf (demoRank []).cur.rank) = false ∧
    ((demoRank [] 5 (fun k => { k with dest := 15, fl := 31 })).rank 0).dest ≠ 0 := by
  decide

/-- A course of rank 0 alone, with one staged byte. -/
def demoCourse : Course := ⟨7, 0, none, 0, 0, 1, false, [1, 0], [], true, [(0, 0), (1, 0)], [(3, 9)], [], 0, 1, [], none, false, [], 0⟩

/-- The rank has the program course open; its ranges are rows 8 and 46,080. -/
def demoProgram (row : Nat) : State := { demoRank [] 5 (fun k => { k with
  course := some 7, ranges := [(8, 1), (46080, 1)], c := k.c.set 0 ⟨BitVec.ofNat 16 row, 31, 1⟩ }) with courses := [demoCourse] }

/-- Cursor 0 in a row the VD may use, in the mortar rows, and in a row no entry covers; inside and outside the ranges. -/
theorem test_states_RankMemory :
    let at_ (row : Nat) : State := demoRank [] 5 (fun k => { k with c := k.c.set 0 ⟨BitVec.ofNat 16 row, 31, 1⟩ })
    ((at_ 63).rk.course = none ∧ (at_ 63).permits 0 0 63 (·.k) = true ∧ (at_ 63).badWords = []) ∧
    (at_ 46080).rk.c[0].row.toNat = 46080 ∧ (at_ 64).permits 0 0 64 (·.k) = false ∧
    ((demoProgram 8).rk.course = some 7 ∧ ((demoProgram 8).course 7) = some demoCourse ∧ (∃ g ∈ (demoProgram 8).rk.ranges, g.1 ≤ 8 ∧ 8 < g.1 + g.2)) ∧
    ((∃ g ∈ (demoProgram 46080).rk.ranges, g.1 ≤ 46080 ∧ 46080 < g.1 + g.2) ∧ (demoProgram 46080).rk.c[0].row.toNat = 46080) ∧
    (¬ (∃ g ∈ (demoProgram 9).rk.ranges, g.1 ≤ 9 ∧ 9 < g.1 + g.2) ∧ (demoProgram 9).permits 0 0 9 (·.k) = true) ∧
    ({ demoProgram 8 with courses := [] }).course 7 = none := by
  decide

theorem test_states_RankVectors :
    (Instr.mwVcvt 7 7 1 0 0 1 4).wf = true ∧ (Instr.mwVcvt 0 1 2 0 1 0 0).wf = true ∧ (Instr.mwVcvt 0 1 0 3 3 0 0).wf = true ∧
    (BitVec.ofNat 16 1023).toInt = 1023 ∧ (BitVec.ofNat 16 1024).toInt > 1023 ∧ (BitVec.ofNat 16 64512).toInt = -1024 ∧
    (BitVec.ofNat 16 64511).toInt < -1024 := by
  decide

/-- A member of group 1, a group that does not exist and so has no ranks, a course that is open, and the codes of CRED. -/
theorem test_states_RankCourses :
    ranksOf (demoRank []).pkg ((demoRank []).myGroup 1) = some [1, 0] ∧ [1, 0].findIdx? (· == (demoRank []).cur.rank) = some 1 ∧
    (∀ l, ranksOf (demoRank []).pkg ((demoRank []).myGroup 3) = some l → (demoRank []).cur.rank ∉ l) ∧
    (demoRank [0, 4]).rk.s[1].toNat ≠ 0 ∧ (demoRank []).rk.s[14].toNat = 0 ∧ (demoRank []).rk.course = none ∧
    (demoProgram 8).rk.course ≠ none ∧ (∀ m ∈ (demoRank []).myGroup 1, m.getLsbD 21 = true) ∧
    (∃ m ∈ (demoRank []).myGroup 2, m.getLsbD 21 = false) ∧
    ((demoRank []).myGroup 2).findIdx? (· == memberId 0 true 0) = some 1 ∧ (demoRank []).rk.run = some demoRun ∧
    (demoRank []).rk.wait = none ∧
    (demoRank [] 5 (fun k => { k with wait := some (.barrier 0 0 0) })).rk.wait = some (.barrier 0 0 0) := by
  refine ⟨by decide, by decide, ?_, by decide, by decide, by decide, by decide, ?_, ⟨0, by decide, by decide⟩, by decide,
    by decide, by decide, by decide⟩
  · intro l h
    have e : ranksOf (demoRank []).pkg ((demoRank []).myGroup 3) = some [] := by decide
    rw [e] at h
    cases h
    decide
  · intro m hm
    have e : (demoRank []).myGroup 1 = [0x200001, 0x200000] := by decide
    rw [e] at hm
    simp only [List.mem_cons, List.not_mem_nil, or_false] at hm
    rcases hm with rfl | rfl <;> decide

/-- The owner's port, port 1 of context 2 of core 3, bound, unbound or full. -/
def demoOwner (p : Port) (f : Rank → Rank := id) : State := (demoRank [] 5 f).updCtx 3 2 (fun c => { c with ports := c.ports.set 1 p })

theorem test_states_RankMessages :
    ((demoOwner Port.reset).portAt ⟨3, 2, 1⟩).dest = none ∧ ((demoOwner ⟨some ⟨0, 0, 0⟩, false, []⟩).portAt ⟨3, 2, 1⟩).dest ≠ none ∧
    1 ≤ (demoOwner ⟨some ⟨0, 0, 0⟩, false, List.replicate 15 0⟩).roomAt ⟨3, 2, 1⟩ ∧
    (demoOwner ⟨some ⟨0, 0, 0⟩, false, List.replicate 16 0⟩).roomAt ⟨3, 2, 1⟩ = 0 ∧
    (demoRank [] 5 (fun k => { k with mailbox := [9] })).rk.mailbox = [9] ∧ (demoRank []).rk.mailbox = [] ∧
    (∀ w ∈ (demoRank [] 5 (fun k => { k with writing := [(0, 4, 0)] })).rk.writing, w.2.2 ≠ (demoRank []).rk.slot + 1) ∧
    (∃ w ∈ (demoRank [] 5 (fun k => { k with writing := [(0, 4, 1)] })).rk.writing, w.2.2 = (demoRank []).rk.slot + 1) ∧
    (demoRank []).rk.course = none ∧ (demoProgram 8).rk.course ≠ none ∧
    (demoRank [] 5 (fun k => { k with run := some { demoRun with owner := none } })).rk.run = some { demoRun with owner := none } := by
  decide

/-! ### Events -/

theorem test_states_CoreEvents :
    (∃ w t, nextWord { actAs 0 0 (demoCode [] [0x601FFFC0]) with banks := [], collisions := 0, target := none } = .ok (w, t) ∧
      (decide (((demoCode [] [0x601FFFC0]).ctx 0 0).status = .live) && decide (((demoCode [] []).ctx 0 0).pfault = none)) = true) ∧
    (let s := (demoPort []).updCtx 0 0 (fun c => { c with pbind := some (0, 0) });
      (s.ctx 0 0).pbind = some (0, 0) ∧ (((s.core 0).ctx 0).ports[ptrIx 0]).dest = some ⟨3, 2, 1⟩) ∧
    (∀ dead ∈ [true, false], ((demoCore (fun k => { k with sfu := [⟨10, 1, 5, dead⟩] })).core 0).sfu = [⟨10, 1, 5, dead⟩]) ∧
    ((demo []).here.spmDue = [] ∧ (demo []).inflight = [] ∧ (ofV 5).length = 2) ∧
    (let m : PortMsg := ⟨⟨0, 0, 0⟩, (3, 2), 1, none, [7], none, false⟩;
      ∀ s ∈ [{ demoPort [] with inflight := [m] }, { demo [] with inflight := [m] },
          { (demo []).updCore 0 (fun k => { k with mode := .preempted }) with inflight := [m] }],
        s.inflight[0]? = some m ∧ firstOfPort s.inflight 0 = true) ∧
    ((demoPort []).diverts 0 = false ∧ (demo []).diverts 0 = false ∧ (demoCore (fun k => { k with mode := .preempted })).diverts 0 = true ∧
      (((lookup 0 ((demo []).vd 0).spill).getD []).map (·.words.length)).sum + 1 ≤ 8192) ∧
    (((((demoPort []).core 0).ctx 0).ports[ptrIx 0]).dest ≠ none ∧ (((((demoPort []).core 0).ctx 0).ports[ptrIx 0]).queue).length + 1 ≤ 16) ∧
    ((((demo []).core 0).ctx 0).ports[ptrIx 0]).dest = none ∧
    ((demoCore (fun k => { k with mode := .preempted })).core 0).mode = .preempted :=
  ⟨answers_of (by decide), by decide, by decide, by decide, by decide, by decide, by decide, by decide, by decide⟩

/-- VD 0's page-table root is physical address 0: word 0 is a DUP leaf of 512 MiB, word 1 names the table at 0 again; byte 47 answers
entry 0 of a fault ring at 0. -/
def demoTable : State := { (demo []).updVd 0 (fun v => v) with mem := [(0, 0x83), (1, 2), (8, 1), (47, 0x80)], tlb := [] }

def demoFault (upcall : Bool) (slot : Option Nat) : RingFault := ⟨[1], 0, 0, upcall, slot, 3, 1⟩

/-- A walk ends at a leaf, of which `p` holds. -/
theorem leaf_of {r : State × Leaf} {p : State → Nat → Bool} (h : (match r with | (w, .at_ _ e _) => p w e | _ => false) = true) :
    ∃ w a e big, r = (w, .at_ a e big) ∧ p w e = true := by
  match r, h with
  | (w, .at_ a e big), h => exact ⟨w, a, e, big, rfl, h⟩

/-- A read of the device answers, with what `p` says. -/
theorem read_of {r : State × Option Nat} {p : Nat → Bool} (h : (match r with | (_, some a) => p a | _ => false) = true) :
    ∃ w a, r = (w, some a) ∧ p a = true := by
  match r, h with
  | (w, some a), h => exact ⟨w, a, rfl, h⟩

theorem test_states_answers : ∀ u ∈ [true, false], let s := demoTable.updVd 0 (fun v => { v with faults := [demoFault u (some 64)] })
    (s.vd 0).faults.find? (fun f => f.slot.any (fun k => k % 2 ^ (s.vd 0).desc.frlog == 0)) = some (demoFault u (some 64)) ∧
    ∃ w a, s.afresh.devRead ((s.vd 0).desc.fltring.toNat + 64 * 0 + 40) 8 = (w, some a) ∧ decide (a = 2 ^ 63) = true := by
  intro u hu
  simp only [List.mem_cons, List.not_mem_nil, or_false] at hu
  rcases hu with rfl | rfl <;> exact ⟨by decide, read_of (by decide)⟩

theorem test_states_FaultEvents :
    (let s := (demo []).updCtx 0 0 (fun c => { c with tinv := some (1, 0) }); (s.ctx 0 0).tinv = some (1, 0) ∧ s.usesPage 1 0 = false ∧
      (s.updCtx 0 1 (fun c => { c with loads := [{ demoLoad (.word 8 false) true with target := .home [] }] })).usesPage 1 0 = true) ∧
    (∃ w a e big, walkLevels (2 ^ 42) 3 demoTable.afresh ((demoTable.vd 0).desc.ptroot.toNat) = (w, .at_ a e big) ∧
      (decide (e / 2 ^ 7 % 2 = 1) && decide ((w.vd 0).revoking = [])) = true) ∧
    (heldPages demoTable 0 = [] ∧ (demoTable.vd 0).revoking.find? (fun r => samePage r.big r.page (2 ^ 42 / 65536)) = none ∧
      [(⟨2 ^ 42 / 65536, true, 5⟩ : Revoke)].find? (fun r => samePage r.big r.page (2 ^ 42 / 65536 + 1)) = some ⟨2 ^ 42 / 65536, true, 5⟩ ∧
      revocationRefused demoTable (masterOf 0x83) = false ∧ masterOf 0x83 = demoTable.pkg ∧ masterOf (2 ^ 56) ≠ demoTable.pkg ∧
      revocationRefused { demoTable with link := { demoTable.link with lost := [0] } } (masterOf 0x83) = true) ∧
    (let s := demoTable.updVd 0 (fun v => { v with faults := [demoFault true none] });
      (s.vd 0).faults.find? (fun f => f.slot.isNone) = some (demoFault true none) ∧
      (demoFault true none).h ≠ 255 ∧ ∀ g ∈ (s.vd 0).faults, g.slot = none) ∧
    (∀ u ∈ [true, false], let s := demoTable.updVd 0 (fun v => { v with faults := [demoFault u (some 64)] });
      (s.vd 0).faults.find? (fun f => f.slot.any (fun k => k % 2 ^ (s.vd 0).desc.frlog == 0)) = some (demoFault u (some 64)) ∧
      ∃ w a, s.afresh.devRead ((s.vd 0).desc.fltring.toNat + 64 * 0 + 40) 8 = (w, some a) ∧ decide (a = 2 ^ 63) = true) ∧
    ((demo []).ctx 0 10).pfault = none ∧
    (((demo []).updCtx 0 10 (fun c => { c with pfault := some ⟨8, 5⟩ })).ctx 0 10).pfault = some ⟨8, 5⟩ ∧
    (let k := (demoCore (fun k => { k with upc := 1 })).core 0;
      k.upc.getLsbD 0 = true ∧ ((k.ctx 0).ports[3]).queue.length < 16 ∧ k.notices = []) ∧
    ((demo []).core 0).upc.getLsbD 0 = false ∧
    upcallReady (demoCore (fun k => { k with recs := [⟨1, 10⟩], upc := 1 })) 0 = true ∧
    Memory.wf ((demo []).core 0).spm = true :=
  ⟨by decide, leaf_of (by decide), by decide, by decide, test_states_answers, by decide, by decide, by decide, by decide, by decide,
    by decide⟩

/-- A copy or matrix command of the control context of core 0. -/
def demoCmd (w : Word) (ctrl : W64) (started written : Bool) : EngCmd :=
  { id := 1, ctx := 0, word := w, a := 0, b := 0, slot := none, deps := [], group := 0, geom := (List.replicate 17 0).set 8 ctrl
    frm := 0, stream := Stream.reset, sro := 0, started := started, dead := false, lines := [], written := written, idents := []
    status := 0, held := none }

/-- What a run of an engine command writes at once, with no line outstanding. -/
def runs (r : EngRun) : Bool :=
  match r with
  | .done _ _ [] => true
  | _ => false

theorem runs_of {r : EngRun} (h : runs r = true) : ∃ t st, r = .done t st [] := by
  cases r with
  | done t st ids =>
    cases ids with
    | nil => exact ⟨t, st, rfl⟩
    | cons _ _ => simp [runs] at h
  | lines _ _ => simp [runs] at h
  | busy _ => simp [runs] at h
  | hold _ _ => simp [runs] at h

theorem test_states_CommandEvents_engines :
    let cpy : Word := 0xC0420000
    let mzero : Word := 0xC4400000
    (let e := demoCmd cpy 256 false false; let s := demoCore (fun k => { k with copies := [e] });
      (s.core 0).copies.find? (fun e => !e.started) = some e ∧ e.mayStart 0 s = true ∧ s.copyHead 0 = some e ∧
      ((List.range 8).map (fun i => (0 + i) % 8)).find? (fun d => (s.copyHead d).isSome) = some 0 ∧
      ((List.range 8).map (fun i => ((s.core i).copies.filter (·.started)).length)).sum < 4 ∧ e.outward = true ∧ e.held = none) ∧
    (let e := demoCmd cpy 0 true true; e.started = true ∧ e.lines = [] ∧ e.idents = [] ∧ e.written = true) ∧
    (let e := demoCmd cpy 0 true false; ∃ t st, runCopy e (actAs 0 0 (demoCore (fun k => { k with copies := [e] }))) = .done t st []) ∧
    (let e := demoCmd mzero 0 false false; let s := demoCore (fun k => { k with mx := [e] });
      ((List.range 8).any (fun i => (s.core i).mx.any (·.started))) = false ∧ e.mayStart 0 s = true ∧ e.fn ≠ 3 ∧
      (s.core 0).mx.head? = some e ∧ (muOrder (s.core 0).mxw.toNat 0).find? (fun i => ((s.core i).mx.head?).isSome) = some 0) ∧
    (let e := demoCmd mzero 0 true false; let s := demoCore (fun k => { k with mx := [e] });
      (s.core 0).mx.find? (·.started) = some e ∧ ∃ t st, runMx e (actAs 0 0 s) = .done t st []) :=
  ⟨by decide, by decide, runs_of (by decide), by decide, by decide, runs_of (by decide)⟩

/-- A command of the ring of VD 0. -/
def demoRing (op : RingOp) (c : CmdState) : RingCmd :=
  { n := 4, op := op, core := 0, ctx := 0, q := 0, block := List.replicate 128 0, handle := 3, deps := [], id := 1, slot := none
    state := c, entry := 0, inRing := true, courses := 0, total := 0, plan := [], read := [], cflags := 0, halted := [], fault := none, issued := 0
    launch := 0, groups := [], bufs := [], alpha := 0, links := 0, own := [], lstep := 0, words := 0, awaits := none, held := none }

/-- A launch with one node of a kind, which runs on core 1. -/
def demoLaunch (kind : Nat) (started : Bool) (sweep : Option (W64 × W64)) : Launch :=
  ⟨0, false, none, [], 0, 0, 0, [⟨kind, 0, 0, 0, [], 0, 0, 0, 0, 0, 0, 0, .running, [1], sweep, [], 0⟩], started⟩

theorem test_states_CommandEvents :
    (∀ op ∈ [RingOp.coll, .rkovl, .rkrun, .rksig, .rkstop], let k := demoRing op .posted; let s := demoVd (fun v => { v with cmds := [k] });
      s.cmd 0 4 = some k ∧ cmdMayStart s 0 k = true ∧ cmdFirst s 0 k = true ∧ (s.vd 0).active s.ring = true ∧ k.held = none) ∧
    (∀ op ∈ [RingOp.coll, .rkovl, .rkrun], (demoVd (fun v => { v with cmds := [demoRing op (.finished 0)] })).cmd 0 4 = some (demoRing op (.finished 0))) ∧
    (let k := demoRing .rkrun .running; k.total ≤ k.halted.length ∧ msgoPending (demoVd (fun v => { v with cmds := [k] })) 0 [] = false) ∧
    (collParams (demoRing .coll .posted).block).deadline = 0 ∧ { demo [] with ring := 100000 }.ring ≥ (demoRing .coll .posted).issued + 100000 ∧
    (demoRank [] 5 (fun k => { k with holdst := [7], mailbox := List.replicate 15 0 })).rk.holdst = [7] ∧
    ((demo []).vd 0).state ≠ .absent ∧
    (let s := demoVd (fun v => { v with queues := v.queues.set 3 ⟨[demoLaunch 0 false none], [], []⟩ });
      (s.vd 0).queues[3].launches = [demoLaunch 0 false none] ∧ (s.vd 0).issuing s.ring = true ∧ groupsHeld s 0 [] = true ∧
        (demoLaunch 0 false none).nodes ≠ [] ∧ (s.vd 0).isEnding 3 0 none = false) ∧
    (∀ x ∈ [none, some (0, 0)], let s := demoVd (fun v => { v with queues := v.queues.set 3 ⟨[demoLaunch 1 true x], [], []⟩ });
      (s.vd 0).queues[3].launches = [demoLaunch 1 true x] ∧ originIdle s 0 1 = true ∧ originCounts s 0 1 = (0, 0) ∧
        (s.vd 0).isEnding 3 0 (some 0) = false) ∧
    (let s := demoVd (fun v => { v with queues := v.queues.set 3 ⟨[demoLaunch 2 true none], [], []⟩ });
      (s.vd 0).queues[3].launches = [demoLaunch 2 true none] ∧ (groupIn [] 0).length = 0) := by
  refine ⟨by decide, by decide, by decide, by decide, by decide, by decide, by decide, by decide, ?_, by decide⟩
  intro x hx
  simp only [List.mem_cons, List.not_mem_nil, or_false] at hx
  rcases hx with rfl | rfl <;> decide

/-- A COLL's course, and courses in each of its stages. -/
def demoStage (opened flipped : Bool) (ready : List (Nat × Nat)) (keystone : Option Nat) (cmd : Option Nat) : State :=
  { demo [] with courses := [⟨7, 0, cmd, 0, 0, 1, false, [1, 0], [], opened, [], [], [], 0, 1, ready, keystone, flipped, [], 0⟩] }

theorem test_states_CourseEvents :
    (∀ m ∈ [0, 1], (demoStage false false [] none (some 4)).courseOpenAt m = false) ∧
    ((demoStage false false [] none (some 4)).vd 0).active 0 = true ∧
    ((demoStage true false [(0, 5)] none (some 4)).course 7).isSome = true ∧ (∀ e ∈ [(0, 5)], e.1 ≠ 1) ∧
    (((demo []).rank 0).state ≠ .spilled ∧ (demo []).asleep.contains (channelOf 0) = false) ∧
    (((demo []).vd 0).te = none ∧ (demo []).nextKeystone 1000 = none) ∧
    ((demoStage true false [(0, 5), (1, 6)] (some 206) (some 4)).course 7).isSome = true ∧
    (demoStage true false [(0, 5), (1, 6)] (some 206) (some 4)).ring + 60 < 206 ∧
    ((demoStage true true [(0, 5), (1, 6)] (some 206) none).course 7).isSome = true ∧
    (List.range 2).find? (fun i => !([(0, 5)].any (fun r => r.1 == i))) = some 1 ∧
    5 + 100000 ≤ { demoStage true false [(0, 5)] none none with ring := 100005 }.ring := by
  decide

/-- The course of the ranks' own that `demoStage` holds, with the parts of both members, or of the first alone. -/
def demoMembers (op : CourseOp) (n : Nat) (opened : Bool) : Course :=
  ⟨7, 0, none, 0, 0, 1, false, [1, 0], (List.range n).map (fun k => ⟨k, op, 0, 0, 0, 0, Cursor.reset, Cursor.reset, []⟩), opened,
    [], [], [], 0, 1, [], none, false, [], 0⟩

theorem test_states_CourseEvents_members :
    (let c := demoMembers .program 2 false; let s : State := { demo [] with courses := [c] };
      s.course 7 = some c ∧ c.size ≤ c.parts.length ∧ (∀ m ∈ c.members, s.courseOpenAt m = false ∧ (s.rank m).migrates = none)) ∧
    (let c := demoMembers .program 2 true; let s : State := { (demo []).updRank 1 (fun k => { k with wait := some (.course 7) }) with courses := [c] };
      s.course 7 = some c ∧ c.head.op = .program ∧ (s.rank (c.rankOf 0)).wait = some (.course 7)) ∧
    (let c := demoMembers .shift 2 true; let s : State := { demo [] with courses := [c] };
      s.course 7 = some c ∧ c.head.op ≠ .program ∧ (s.rank (c.rankOf 0)).traffic = false ∧ ∀ m ∈ c.members, (s.rank m).reads = 0) ∧
    (let c := demoMembers .shift 1 false; let s : State := { demo [] with courses := [c], ring := 100000 };
      (s.vd c.vd).issuing s.ring = true ∧ c.ready = [] ∧ c.parts.length < c.size ∧ c.since + 100000 ≤ s.ring ∧ (List.range c.size).head? = some 0) ∧
    ((demoVd (fun v => { v with state := .stopped, te := some 0 })).vd 0).issuing 5 = false := by
  decide

theorem test_states_CourseEvents_banks :
    { demoRank [] 5 (fun k => { k with wait := some (.barrier 0 0 0) }) with ring := 100000 }.ring ≥ 0 + 100000 ∧
    (((demoRank []).permsAt 0 0).find? (·.r)).isSome = true ∧ (((demoRank []).permsAt 0 0).find? (·.w)).isSome = true ∧
    ((demoRank []).permsAt 0 64).find? (·.w) = none ∧ (demoRank []).blocked 0 0 none = false ∧
    64 ≤ (demoRank [] 5 (fun k => { k with held := List.replicate 64 ⟨0, []⟩ })).rk.held.length ∧ 192 ≤ (demoRank [] 5 (fun k => { k with timer := 192 })).rk.timer ∧
    (demoRank []).napping.contains 0 = false ∧ ((demoRank []).rank 0).rests = false ∧
    (∀ j < 32, ((demoRank []).rank (255 * 32 + j)).rests = true ∧ ((demoRank []).rank (255 * 32 + j)).pending = []) ∧
    (demoRank []).asleep.contains (channelOf 0) = false ∧ 960 + 64 ≤ 1024 ∧ (46079 < if (demoRank []).rk.enabled then 46080 else 49152) ∧
    (demoRank []).inFootprint 0 0 = false ∧ (demoProgram 8).inFootprint 0 0 = true ∧ (demoProgram 8).rk.held.length < 64 ∧
    (demoRank []).rk.holdsBank = true ∧ (demo []).rk.holdsBank = false ∧
    ((demoRank []).rk.state = .running ∧ (demoRank []).rk.run ≠ none ∧ (demoRank []).rk.wait = none) ∧
    (demoRank [] 5 (fun k => { k with wait := some (.barrier 0 0 0) })).rk.wait = some (.barrier 0 0 0) ∧
    (demoRank []).asleep.contains 255 = false ∧ ({ demoRank [] with asleep := [255] }).asleep.contains 255 = true := by
  decide

/-- VD 0 with 32 MiB of rank 0; the descriptor at physical address 0 asks for rings of 64 entries and no core. -/
def demoBig (f : State → State := id) : State := f { demo [] with
  vds := [(0, { Vd.reset with state := .running, wins := [(0, 2 ^ 114 + 2 ^ 115 + 32768 * 2 ^ 98 + 2 ^ 55)] })]
  perms := [(0, 2 ^ 79 + 2 ^ 68 + 2 ^ 67 + 2 ^ 66 + 32768 * 2 ^ 48 + 2 ^ 21)]
  mem := [(56, 6), (57, 6)] }

/-- What the state reads as a descriptor at physical address 0. -/
def demoDesc : List Byte := (List.replicate 56 0 ++ [6, 6]) ++ List.replicate 70 0

/-- In a state with the windows and entries of `demoBig`, every 64 bytes below 32 MiB are the device's own. -/
theorem covered_of {s : State} (hw : (s.vd 0).wins = (demoBig.vd 0).wins) (hp : s.perms = demoBig.perms) {pa len : Nat}
    (h : pa + len ≤ 2 ^ 25) : s.devCovered pa len = true := by
  have e1 : (demoBig.vd 0).wins.map (fun w => winOf w.2) = [⟨0, 2 ^ 25, 32768, 0, 0, 1, true, true, 0⟩] := by decide
  have e2 : demoBig.perms.map (fun e => (e.1, permOf e.2)) = [(0, ⟨true, 0, 0, true, true, true, 32768, 0, 1, 0⟩)] := by decide
  have e3 : permOf (2 ^ 79 + 2 ^ 68 + 2 ^ 67 + 2 ^ 66 + 32768 * 2 ^ 48 + 2 ^ 21) = ⟨true, 0, 0, true, true, true, 32768, 0, 1, 0⟩ := by
    decide
  simp only [State.devCovered, List.all_eq_true, List.mem_range]
  intro i hi
  have hlt : pa + 64 * i < 2 ^ 25 := by omega
  have hx : s.place 0 (pa + 64 * i) = some ⟨0, (pa + 64 * i) / 1024, (pa + 64 * i) % 1024⟩ := by
    simp only [State.place, State.window, hw, e1]
    have hc : (Win.covers ⟨0, 2 ^ 25, 32768, 0, 0, 1, true, true, 0⟩ (pa + 64 * i)) = true := by
      simp only [Win.covers, Bool.true_and, Bool.and_eq_true, decide_eq_true_eq]
      omega
    simp only [List.find?, hc, Option.map_some, Win.place, if_true, Option.some.injEq, Place.mk.injEq]
    omega
  simp only [State.devPlace, hx, State.permits, State.permsAt, hp, demoBig, id, List.filterMap, e3, Perm.covers,
    Bool.and_eq_true, decide_eq_true_eq]
  have h1 : (pa + 64 * i) / 1024 < 32768 := by omega
  simp [h1]

/-- VD 1 in a state, beside `demoBig`. -/
def demoTwo (f : Vd → Vd) : State := demoBig (fun s => { s with vds := put 1 (f Vd.reset) s.vds })

theorem descriptor_of {s : State} (hw : (s.vd 0).wins = (demoBig.vd 0).wins) (hp : s.perms = demoBig.perms)
    (hv : (s.vds.all (fun e => e.1 == 1 || e.2.state == .absent || !overlap 0 0 e.2.desc.ibase e.2.desc.ilen ||
      (0 : Nat) == 0 || e.2.desc.ilen == 0)) = true) :
    descOk s 1 demoDesc (vdDesc demoDesc) = true := by
  have c1 : s.devCovered ((vdDesc demoDesc).ptroot.toNat) 65536 = true := covered_of hw hp (by decide)
  have c2 : s.devCovered ((vdDesc demoDesc).savebase.toNat) ((vdDesc demoDesc).ilen * 327680 + 2 ^ 24) = true :=
    covered_of hw hp (by decide)
  have c3 : s.devCovered ((vdDesc demoDesc).cmdring.toNat) (256 * 2 ^ (vdDesc demoDesc).crlog) = true := covered_of hw hp (by decide)
  have c4 : s.devCovered ((vdDesc demoDesc).fltring.toNat) (64 * 2 ^ (vdDesc demoDesc).frlog) = true := covered_of hw hp (by decide)
  simp only [descOk, c1, c2, c3, c4, Bool.and_true]
  have e : (vdDesc demoDesc).ilen = 0 := by decide
  have e' : (vdDesc demoDesc).ibase = 0 := by decide
  rw [e, e', hv]
  decide

theorem test_states_DeviceEvents_descriptors :
    ((demoBig.vd 1).state = .absent ∧ (∃ w, readDesc 0 demoBig.afresh = (w, some demoDesc) ∧
      descOk (w.measure 7 demoDesc) 1 demoDesc (vdDesc demoDesc) = true)) ∧
    (let s := demoTwo (fun v => { v with state := .stoppedVigil }); (s.vd 1).state = .stoppedVigil ∧
      (∃ w, readDesc 0 s.afresh = (w, some demoDesc) ∧
        descOk (w.measure 7 demoDesc) 1 demoDesc (vdDesc demoDesc) = true ∧ w.stalled = []) ∧
      (vdDesc demoDesc).flags &&& 7 = (s.vd 1).desc.flags &&& 7) ∧
    (readDesc (2 ^ 40) demoBig.afresh).2 = none :=
  ⟨⟨by decide, (readDesc 0 demoBig.afresh).1, Prod.ext rfl (by decide +kernel),
      descriptor_of (by decide +kernel) (by decide +kernel) (by decide +kernel)⟩,
    ⟨by decide, ⟨(readDesc 0 (demoTwo (fun v => { v with state := .stoppedVigil })).afresh).1, Prod.ext rfl (by decide +kernel),
      descriptor_of (by decide +kernel) (by decide +kernel) (by decide +kernel), by decide +kernel⟩, by decide⟩,
    by decide +kernel⟩

theorem test_states_DeviceEvents :
    ((demo []).vd 0).state = .running ∧ (demo []).vdStat = 0 ∧
    (let s := (demoVd (fun v => { v with state := .vigil, te := some 2000, woken := true, desc := { v.desc with ilen := 1 } })).updCore 0
        (fun k => { k with mode := .asleep });
      (s.vd 0).te = some 2000 ∧ (s.vd 0).state = .vigil ∧ (∀ c ∈ (s.vd 0).interval, (s.core c).mode ≠ .running) ∧
      (advanceTo 2000 s).courses = [] ∧ (s.vd 0).woken = true ∧ s.ring < 2000) ∧
    (let s := demoVd (fun v => { v with state := .stopping, te := some 2000 });
      (s.vd 0).te = some 2000 ∧ (s.vd 0).state = .stopping ∧ (∀ c ∈ (s.vd 0).interval, (advanceTo 2000 s).packable c = true) ∧
        (advanceTo 2000 s).courses = []) ∧
    (let s : State := { demo [] with vdStat := 1, vdBegun := false, vdCmd := vdWord 2 0 5 }; s.vdStat = 1 ∧ s.vdBegun = false ∧
      s.vdCmd = vdWord 2 0 5) ∧
    (let s : State := { demo [] with vdStat := 1, vdBegun := true, vdCmd := vdWord 2 0 0 }; s.doing 2 0 = true) ∧
    (resetVd 0 (demo []).afresh).stalled = [] ∧ (killKey 0 15 (demo []).afresh).stalled = [] ∧
    (∀ d ∈ [true, false], let t := demoVd (fun v => { v with draining := d }); t.outstanding 0 = false ∧ t.usesPage 0 64 = false) ∧
    (let t := (demoVd (fun v => { v with draining := true })).updRank 0 (fun k => { k with pending := [⟨0, 0, .engine 0, 0, 0, 8, .write [], none, false⟩] });
      (t.vd 0).draining = true ∧ t.outstanding 0 = true ∧ t.usesPage 0 64 = true) ∧
    (let s := demoVd (fun v => { v with saved := [(7, { Core.reset with origin := 7 })] });
      let s := (s.updCore 7 (fun k => { k with mode := .preempted })).updCore 5 (fun k => { k with mode := .running })
      s.route 7 ≠ 5 ∧ takesImage s 0 7 5 = true ∧ acceptsImage (s.core 5) { Core.reset with origin := 7 } = true) ∧
    (∀ f ∈ [VdState.stopped, .stoppedVigil], ((demoVd (fun v => { v with state := f })).vd 0).state = f) ∧
    ((demoVd (fun v => { v with draining := true })).vd 0).draining = true ∧
    ((demo []).core 7).mode = .running ∧ (demo []).packable 7 = true ∧
    (let s := (demoVd (fun v => { v with saved := [(7, { Core.reset with origin := 7 })] })).updCore 7 (fun k => { k with mode := .preempted });
      lookup 7 (s.vd 0).saved = some { Core.reset with origin := 7 } ∧ 7 ∈ (s.vd 0).interval ∧ s.route 7 = 7 ∧
      acceptsImage (s.core 7) { Core.reset with origin := 7 } = true) ∧
    (∀ s ∈ [demo [], { demoVd (fun v => { v with quiet := some 0 }) with ring := 50000 }, demoVd (fun v => { v with quiet := some 0 })],
      watchSet s 0 = some [] ∧ quiescent s 0 = true ∧ watchesFit s [] = true) ∧
    quiescent (demoCore (fun k => { k with notices := [0] })) 0 = false :=
  ⟨by decide, by decide, by decide, by decide, by decide, by decide, by decide, by decide, by decide, by decide, by decide, by decide,
    by decide, by decide, by decide, by decide, by decide, by decide⟩

/-- The debug port has taken a command for a context of core 0. -/
def demoDebug (op : BitVec 8) (x : W64) (addr : W64) : State := { (demo []).updCtx 0 0 (fun c => { c with dhalt := true }) with
  dport := ⟨0, 0, 0, some ⟨op, x, addr, 0⟩, 1⟩ }

/-- A range translates. -/
def walks (r : State × Except (Walk × Nat) (List Nat)) (p : List Nat → State → Bool) : Bool :=
  match r with
  | (t, .ok pas) => p pas t
  | _ => false

theorem walks_of {r : State × Except (Walk × Nat) (List Nat)} {p : List Nat → State → Bool} (h : walks r p = true) :
    ∃ pas t, r = (t, .ok pas) ∧ p pas t = true := by
  match r, h with
  | (t, .ok pas), h => exact ⟨pas, t, rfl, h⟩

theorem test_states_ManagementEvents :
    (∀ op x, (demoDebug op x 0x1FF8).dport.cmd = some ⟨op, x, 0x1FF8, 0⟩ ∧ (demoDebug op x 0x1FF8).dport.code = 1) ∧
    (∀ n ∈ [0, 0xF0000], let s := demoDebug 1 (BitVec.ofNat 64 n) 0x1FF8;
      debugSelected { s with dport := { s.dport with dsel := BitVec.ofNat 64 n, daddr := 0x1FF8, ddata := 0 } } = true ∧
      (s.ctx 0 0).dhalt = true) ∧
    ((⟨1, 0, 0, 0⟩ : DebugCmd).ctx = 0 ∧ (⟨1, 0xF0000, 0, 0⟩ : DebugCmd).ctx = 15 ∧ ctxOfOffset 0x1FF8 = some 0) ∧
    ((demo []).dport.cmd = none ∧ (demo []).dport.code ≠ 1 ∧ (demo []).vdStat ≠ 1 ∧
      (∀ n ∈ [1, 7], let v := BitVec.ofNat 64 n; v.toNat / 2 ^ 14 % 4 = 0 ∧ 1 ≤ v.toNat % 256 ∧ v.toNat % 256 ≤ 7)) ∧
    (∃ pas t, walkRange (demo []).afresh deviceDie 0 0x10008 8 .load = (t, .ok pas) ∧
      (pas.headD 0 == 8 && pas.headD 0 / 2 ^ 42 % 2 ^ 10 == t.pkg && t.mgmtOff (pas.headD 0) == none) = true) ∧
    (∃ pas t, walkRange (demo []).afresh deviceDie 0 0x10008 8 .store = (t, .ok pas) ∧
      (pas.headD 0 == 8 && pas.headD 0 / 2 ^ 42 % 2 ^ 10 == t.pkg && t.mgmtOff (pas.headD 0) == none) = true) ∧
    (((demo []).ownerOf 8 8 (·.w)).isSome = true ∧ ((demo []).ownerOf 131064 8 (·.r)).isSome = true) ∧
    ((demo []).vd 0).state ≠ .absent :=
  ⟨fun _ _ => ⟨rfl, rfl⟩, by decide, by decide, by decide, walks_of (by decide), walks_of (by decide), by decide, by decide⟩

theorem test_states_ServiceEvents_rows :
    (∀ p ∈ [(8191, 49151), (8447, 50175)], ∀ l, (demo []).logicalRow p.1 p.2 = some l → (demo []).inFootprint p.1 l = false) ∧
    (((demo []).rank 8191).holdsBank = false ∧ (demo []).badIn 8191 49151 = []) ∧
    ({ demo [] with badWords := [(8191 * 65536 + 49151) * 32 + 31] }).badIn 8191 49151 = [(8191 * 65536 + 49151) * 32 + 31] ∧
    (((demoRank []).rank 0).holdsBank = true ∧ ((demoRank []).rank 0).state ≠ .suspended) ∧
    (exhausted (.bank 0) [] = false ∧ (demo []).substituted = [] ∧ (demo []).mayMigrate 0 = true ∧ (demoRank []).mayMigrate 0 = false ∧
      (demoRank []).rk.migrates = none) ∧
    (∀ m ∈ [0, 49151], let s := (demo []).updRank 0 (fun k => { k with migrates := some m }); (s.rank 0).migrates = some m ∧ s.badIn 0 m = []) := by
  refine ⟨?_, by decide, by decide, by decide, ⟨by decide, ?_, by decide, by decide, by decide⟩, by decide⟩
  · intro p _ l _
    rfl
  · simp only [State.substituted, Security.selected]
    split <;> rfl

theorem test_states_ServiceEvents :
    (∀ u ∈ [SpareUnit.core 4095, .mu 511, .row 8191 49151, .lane 15], unitExists u = true ∧ mayReplace u (demo []) = true) ∧
    (let e : ErrorReport := ⟨0, 0, 0, 0, 0, 0, .context 0 10⟩;
      (((markBad e (demo [])).recordFor ((demo []).errorOwner e) 0 0 0 0 0 0 10).1.ctx 0 10).loads = []) ∧
    ({ demo [] with sec := { Security.reset with pendingUnits := [.core 1] } }).sec.pendingUnits ≠ [] ∧
    ({ demo [] with boot := .off }).boot = .off ∧ ({ demo [] with boot := .booting 2 }).boot = .booting 2 ∧ (demo []).boot ≠ .off ∧
    ({ demo [] with boot := .recovery 2 }).boot = .recovery 2 ∧ ((demo []).sec.path .i3c).established = false ∧
    (∀ p ∈ [SpdmPath.i3c, .doe],
      let s := { demo [] with sec := { Security.reset with spdm := (⟨true, true, true, [], some 1, false, 0⟩, ⟨true, true, true, [], some 1, true, 0⟩) } };
      s.boot = .ready ∧ (s.sec.path p).versionSent = true ∧ (s.sec.path p).capsSent = true ∧ (s.sec.path p).algsSent = true ∧
      (s.sec.path .i3c).session.isSome = true ∧ (s.sec.path .i3c).established = false ∧ (s.sec.path .doe).established = true) := by
  decide

/-- VD 0 in domain 0, and a packet for its memory. -/
def demoLink : State := demoVd (fun v => { v with desc := { v.desc with dombase := 1 } })

def demoPacket (op : PacketOp) : Packet :=
  ⟨0, 0, 1, 0, 0, 8, 8, 8, op, 5, 9, true, 0, 0, 0, 0, 0, 0, 0, []⟩

theorem test_states_LinkEvents :
    (∀ op ∈ [PacketOp.none, .atom 0 0, .upd 0 0], let p := demoPacket op;
      (p.src.toNat < 1024 ∧ p.dst.toNat < 1024 ∧ p.len.toNat ≤ 512 ∧ p.dst.toNat = demoLink.pkg ∧ acceptable 0 demoLink p = true ∧
        demoLink.sealedDomain p.domain = false) ∧
      (acceptingVd demoLink p 8 (·.r)).isSome = true ∧ (acceptingVd demoLink p 8 (·.w)).isSome = true ∧
      (acceptingVd demoLink p 8 (fun e => e.r && e.w)).isSome = true ∧ acceptingVd demoLink { p with pa := 131072 } 8 (·.r) = none ∧
      (placeRuns (((acceptingVd demoLink p 8 (·.r)).map (·.2)).getD [])).length = 1 ∧
      (placeRuns (((acceptingVd demoLink { p with pa := 60 } 8 (·.r)).map (·.2)).getD [])).length = 2 ∧
      (∀ x ∈ ((acceptingVd demoLink { p with pa := 60 } 8 (·.w)).map (·.2)).getD [], demoLink.closed (.write []) x = false) ∧
      (demoLink.recall (((acceptingVd demoLink p 8 (·.r)).map (·.2)).getD [])).badWords = []) ∧
    acceptable 0 { demoLink with link := { demoLink.link with seqIn := [(seqIx (demoPacket .none), 7)] } } (demoPacket .none) = false ∧
    (let r : RemoteReq := ⟨9, 1, 0, 10, .load, 0, 0x10000, 2 ^ 42⟩; let s := { demoLink with link := { demoLink.link with reqs := [r] } };
      requestOf (takeSeq (demoPacket .none) s) (demoPacket .none) = some r ∧ r.ctx < 11 ∧ (s.core 0).copies = [] ∧ (s.core 0).mx = []) ∧
    demoLink.link.lost.contains 1023 = false ∧ 1023 ≠ demoLink.pkg ∧
    (let p := demoPacket .none; p.tagGood = true ∧ ({ p with tagGood := false } : Packet).tagGood = false ∧ p.op = .none) ∧
    (∀ d ∈ [none, some [5]], let g : Gather := ⟨some (demoPacket .none), 0, [(9, 1, none), (10, 1, d)]⟩;
      let s : State := { demoLink with gathers := [g] }
      s.gathers.find? (fun g => g.parts.any (fun p => p.1 == 9)) = some g ∧ g.packet = some (demoPacket .none)) ∧
    demoLink.sec.spdm.1.established = false ∧ demoLink.sec.spdm.2.established = false :=
  ⟨by decide, by decide, by decide, by decide, by decide, by decide, by decide, by decide, by decide⟩

/-! ### Steps, traps and frames -/

/-- The package of `demo` with the word at the program counter of its only live context, at the head of the agenda. -/
def demoTurn (t : Turn) (w : Word) : State := { demoCode [] [w] with agenda := [t] }

theorem test_states_StepRuns_core :
    let s := demoTurn (.core 0) 0x601FFFC0
    let s1 : State := { s with agenda := [] }
    let s2 := beginCycle 0 s1
    s.boot = .ready ∧ (s.vd (s.core 0).vd).issuing s.ring = true ∧ (s1.core 0).spmDue = [] ∧ (s1.core 0).notices = [] ∧
    (∀ x : Fin 11, (((s1.core 0).ctxs[x]).parked = [] ∧ ((s1.core 0).ctxs[x]).yield = [])) ∧ upcallReady s1 0 = false ∧
    (∀ v ∈ s.vds, v.2.late = [] ∧ v.2.endings = [] ∧ v.2.walkDue = false ∧ v.2.draining = false ∧ v.2.quiet = none) ∧
    s.ranks = [] ∧ s.vdStat ≠ 1 ∧ (s.core 0).mode = .running ∧ (s.core 0).upslot = false ∧
    rotation (s.core 0).rot = [] ++ 0 :: [1, 2, 3, 4, 5, 6, 7, 8, 9, 10] ∧ (s2.ctx 0 0).eligible (s2.core 0).clock = true ∧
    (actAs 0 0 s2).me.mchkDue = none := by
  decide

theorem test_states_StepRuns_word :
    ∃ w t, nextWord (actAs 0 0 (beginCycle 0 { demoTurn (.core 0) 0x601FFFC0 with agenda := [] })) = .ok (w, t) ∧
      (match decodeSoras w with
        | .ok i => (match exec i t with | .next u => (u.ctx 0 0).wait.isNone | _ => false)
        | .error _ => false) = true :=
  answers_of (p := fun w t => match decodeSoras w with
        | .ok i => (match exec i t with | .next u => (u.ctx 0 0).wait.isNone | _ => false)
        | .error _ => false) (by decide)

theorem test_states_StepRuns_others :
    lookup ((demoCode [] [0x601FFFC0]).me.pc.toNat / 4) (demoCode [] [0x601FFFC0]).here.icache = some 0x601FFFC0 ∧
    (decodeSoras 0).isOk = false ∧
    (let k := (demoRank [] 5 (fun k => { k with ovl := [(5, 0x0C48C000)] })).rank 0; k.runs = true ∧ decodeMelwen k.word = .ok (.sadd 1 2 3)) ∧
    (let k := (demoRank [] 1024).rank 0; k.runs = true ∧ 1023 < k.upc) ∧
    (let k := (demoRank [] 5 (fun k => { k with ovl := [(5, 0xFFFFFFFF)] })).rank 0; k.runs = true ∧ (decodeMelwen k.word).isOk = false) ∧
    ((demoRank [] 5 (fun k => { k with wait := some (.course 7), reads := 1 })).rank 0).inTraffic = some 7 ∧
    ((demoRank []).vd 0).issuing 0 = true ∧ (demoRank []).boot = .ready ∧ (demoRank []).asleep.contains (channelOf 0) = false := by
  decide

/-- A package whose core 0 misses some features, its context x issuing. -/
def demoFeat (w : W64) (x : Fin 11 := 0) : State := (demo [] x).updCore 0 (fun k => { k with feat := w })

theorem test_states_GateTraps :
    (gateOf (.eret 0) (demoFeat (-1)) = some 3 ∧ encode (.eret 0) ≠ none) ∧ (demoFeat 0).me.sup = false ∧
    (Instr.gets 0 0 27).wf = true ∧ (Instr.puts 0 27 16).wf = true ∧ (Instr.puts 0 7 16).wf = true ∧ (demoFeat 0 1).cur.ctx ≠ 0 ∧
    (demoFeat 0).here.feat.getLsbD 0 = false ∧ (demoFeat 0).here.feat.getLsbD 1 = false ∧ (demoFeat 0).here.feat.getLsbD 4 = false ∧
    (Instr.mma 16 17 1 2 1).wf = true ∧ (Instr.cpy 16 17 0 0 0).wf = true ∧ (Instr.coll 16 17 0 0 0).wf = true := by
  decide

/-- Core 0 of a package whose helper 3 issues and whose upcalls are on. -/
theorem test_states_Traps :
    let s := (demo [] 3).updCore 0 (fun k => { k with upc := 1, ctxs := k.ctxs.set 0 { k.ctx 0 with status := .live } })
    (s.cur.ctx ≠ 0 ∧ s.here.upc.getLsbD 0 = true ∧ (s.here.ctx 0).status ≠ .free) ∧
    ¬ ((demo []).cur.ctx ≠ 0 ∧ (demo []).here.upc.getLsbD 0 = true ∧ ((demo []).here.ctx 0).status ≠ .free) ∧ 0x19 < 2 ^ 63 := by
  decide

theorem test_states_OperandStops :
    (let s := (demo []).updMe (fun c => { c with n := c.n.set 0 ⟨0, [⟨7, none, false, 9⟩]⟩ }); gateOf (.add 0 0 0 16 1) s = none ∧ s.waitOf [.int 16, .int 1] (some (.int 0)) ≠ none) ∧
    (let s := (demo []).updMe (fun c => { c with mode := 8, belt := (c.belt.set 1 ⟨0, [⟨7, some 9, true, 9⟩]⟩) }); s.me.mode.getLsbD 3 = true ∧ s.undersizedCode [.int 1, .int 16] (some (.int 0)) = some 1 ∧
        s.waitOf [.int 1, .int 16] (some (.int 0)) = none ∧ s.poisoned (.int 1) = none ∧ s.poisoned (.int 16) = none) ∧
    (let s := demo []; s.waitOf [.int 24, .int 1] (some (.int 0)) = none ∧ s.undersizedCode [.int 24, .int 1] (some (.int 0)) = none ∧
      s.poisoned (.int 24) = none ∧ (firstCand (s.opCandsFrom [] [.int 24, .int 1, .int 0])).isSome = true ∧
      (s.me.ports[ptrIx 0]).dest = none ∧ s.me.mode.getLsbD 3 = false) ∧
    (((demoPtr [4]).ptrAt 28 0).toNat % 2 ^ 17 % 8 ≠ 0 ∧
      ((demoPtr [98304]).ptrAt 28 0).toNat % 2 ^ 17 % 8 = 0 ∧ 98304 < ((demoPtr [98304]).ptrAt 28 0).toNat % 2 ^ 17 + 8 ∧
      ((demoPtr [98296]).ptrAt 28 0).toNat % 2 ^ 17 % 8 = 0 ∧ ((demoPtr [98296]).ptrAt 28 0).toNat % 2 ^ 17 + 8 ≤ 98304) := by
  decide

theorem test_states_ProgramCounter :
    ((demo []).target = none ∧ (demo []).me.rep = none) ∧ ({ demo [] with target := some 0 } : State).target = some 0 ∧
    (let s (pos remaining : Nat) : State := (demo []).updMe (fun c => { c with rep := some ⟨0, 2, remaining, pos, [0, 0]⟩ }); ∃ r, (s 0 5).me.rep = some r ∧ r.pos + 1 < r.len) ∧
    (let s := (demo []).updMe (fun c => { c with dstep := true }); s.me.dstep = true ∧ (retire 0 s).me.rep = none) ∧
    (demo []).me.dstep = false := by
  refine ⟨by decide, rfl, ⟨_, rfl, by decide⟩, by decide, by decide⟩

theorem test_states_OperandEffects :
    (demo []).now < 5 ∧ (demo []).me.belt.length = 16 ∧ (demo []).me.vbelt.length = 16 ∧
    (∀ j < 8, ((demo []).me.reg j).pend = []) ∧ (∀ j < 4, ((demo []).me.ptr j).pend = []) := by
  decide

theorem test_states_ComputeFrame :
    Computes (.ldk 0 16 5) 0 [] (.int 16) (after [] 1) (fun _ _ => [5]) ∧ (demo []).Admits (.ldk 0 16 5) ∧
    (demo []).Clear [] (some (.int 16)) ∧ ∃ t, exec (.ldk 0 16 5) (demo []) = .next t :=
  have h : Computes (.ldk 0 16 5) 0 [] (.int 16) (after [] 1) (fun _ _ => [5]) := fun s hg hc _ =>
    compute_completes (.ldk 0 16 5) 0 [] (.int 16) (some 1) (fun _ _ => [5]) s hg hc
  have hm : (∀ i ∈ [Instr.ldk 0 16 5], (demo []).Admits i) ∧ (demo []).Clear [] (some (.int 16)) := meets_of (by decide)
  ⟨h, hm.1 _ (by simp), hm.2, _, h _ (hm.1 _ (by simp)) hm.2 trivial⟩

theorem test_states_MemoryForm : (demo []).MemWf ∧ (demo []).Form := by
  have h : (demo []).MemWf := by
    refine ⟨by decide, ?_⟩
    decide
  exact ⟨h, h, by decide⟩

theorem test_states_StepKeepsForm : ∃ t, step ({ demo [] with agenda := [.pass 3] } : State) = .next t := ⟨_, rfl⟩

theorem test_states_EncodeDecode :
    (Instr.add 0 0 19 0 2).wf = true ∧ encode (.add 0 0 19 0 2) = some 0x04130080 ∧ (Instr.sadd 1 2 3).wf = true ∧
    encode (.sadd 1 2 3) = some 0x0C48C000 ∧ decodeSoras 0x04130080 = .ok (.add 0 0 19 0 2) := by
  decide

/-! ### One step or one operation, with the manual's results -/

/-- What the control context of core 0 will hold in belt slot 0 and in a register once everything is due. -/
def top (s : State) : W64 := ((s.ctx 0 0).intSlot 0).read 1000
def regAt (s : State) (j : Nat) : W64 := ((s.ctx 0 0).reg j).read 1000

/-- R23's example: `ADD.w2 n0, n2 -> n4` on 6, 1, 4, 2 writes n4 = 10 and n5 = 3; the program counter goes on. -/
theorem test_step_add_of_two_parts :
    stepped (demo [6, 1, 4, 2]) 0x04348480 (fun t => regAt t 4 == 10 && regAt t 5 == 3 && (t.ctx 0 0).pc == 0x10004) = true := by
  decide +kernel

/-- R81's example: the first and the last of the four lines. -/
theorem test_step_ldk : stepped (demo []) 0x30001234 (fun t => top t == 0x1234) = true := by decide +kernel
theorem test_step_ldkh :
    stepped ((demo []).updMe (fun c => { c with belt := c.belt.set 0 ⟨0x123456789ABC, []⟩ })) 0x3400DEF0
      (fun t => top t == 0x123456789ABCDEF0) = true := by decide +kernel

/-- R84's example. -/
theorem test_step_paddi : stepped (demoPtr [0x1800000000000010]) 0x401CE040
    (fun t => ((t.ctx 0 0).ptr 0).read 1000 == 0x1800000000000050) = true := by decide +kernel

/-- R77's table. -/
theorem test_div : ran (.div 0 0 0 16 17) (demo [-7, 2]) (fun t => top t == -3) = true ∧
    ran (.div 0 0 0 16 17) (demo [BitVec.intMin 64, -1]) (fun t => top t == BitVec.intMin 64) = true := by decide +kernel
theorem test_rem : ran (.rem 0 0 0 16 17) (demo [-7, 2]) (fun t => top t == -1) = true ∧
    ran (.rem 0 0 0 16 17) (demo [BitVec.intMin 64, -1]) (fun t => top t == 0) = true := by decide +kernel
theorem test_divu_remu : ran (.divu 0 0 0 16 17) (demo [7, 0]) (fun t => top t == 0xFFFFFFFFFFFFFFFF) = true ∧
    ran (.remu 0 0 0 16 17) (demo [7, 0]) (fun t => top t == 7) = true := by decide +kernel

/-- R104's example: LDX.f32 over the E4M3 bytes 38 FE 04 7E, then R115's VAMAXH.32 of that slot. -/
theorem test_ldx :
    ran (.ldx 0 0 18 1 0 0) ((demo [0, 0, 0x0A * 2 ^ 59 + 0x40]).spmWrite 0 0x40 [0x38, 0xFE, 0x04, 0x7E])
      (fun t => ((t.ctx 0 0).vecSlot 0).read 1000 == 0x43E000003C000000C3E000003F800000) = true := by decide +kernel
theorem test_vamaxh :
    ran (.vamaxh 0 0 0 2) ((demo []).updMe (fun c => { c with vbelt := c.vbelt.set 0 ⟨0x43E000003C000000C3E000003F800000, []⟩ }))
      (fun t => ((t.ctx 0 0).vecSlot 0).read 1000 == 0x43E00000) = true := by decide +kernel

/-- R49's example: 500 and −1,000 converted to E4M3, with SAT and without. -/
theorem test_conversion_to_e4m3 :
    (convert Fmt.e4m3 true false rne (.fin false 500 0)).1 = 0x7E ∧ (convert Fmt.e4m3 true false rne (.fin true 1000 0)).1 = 0xFE ∧
    (convert Fmt.e4m3 false false rne (.fin false 500 0)).1 = 0x7F ∧ (convert Fmt.e4m3 false false rne (.fin true 1000 0)).1 = 0x7F := by
  decide

/-- The worked example of R57: 1.5, 1.5 × 2^−8 and −0.75 under α = −8, in two orders; BF16 and E4M3 of the record. -/
theorem test_anchored_example :
    let z : A80 := ⟨0, 0, 0, -8, 0xFFFF⟩
    let a (r : A80) (n : Bool) (m : Nat) (e : Int) : A80 := (r.contribute 0 (.fin n m e)).1
    let r := a (a (a z false 3 (-1)) false 3 (-9)) true 3 (-2)
    r = ⟨194, 0, 8, -8, 0xFFFF⟩ ∧ (a (a z true 3 (-2)) false 3 (-1)).combine (a z false 3 (-9)) = r ∧
    r.round Fmt.bf16 false rne = (0x3F42, 0) ∧ (r.round Fmt.e4m3 false rne).1 = 0x34 ∧
    (({ r with flags := 9, nan := 3 } : A80).round Fmt.bf16 false rne).1 = 0x7FC3 := by
  decide +kernel

/-- R46, R57: a final rounding of an anchored sum that comes to zero is +0. -/
theorem test_anchored_zero :
    ((⟨-1, 0, 0, -1000, 0xFFFF⟩ : A80).round Fmt.f32 false rne).1 = 0 ∧ ((⟨-1, 0, 0, -40, 0xFFFF⟩ : A80).round Fmt.e4m3 false rne).1 = 0 := by
  decide +kernel

/-- The two examples after R223. -/
theorem test_window_examples :
    (⟨0, 0, 0, 100, 0, 0, false, true, 0⟩ : Win).place 0x123456 = ⟨4 * 1024 + 6 * 32 + 18, 100, 86⟩ ∧
    (⟨0, 0, 64, 2000, 5, 0, true, true, 0⟩ : Win).place 0x2A345 = ⟨7, 2040, 837⟩ := by
  decide

/-- R319's third ratio: 32 digits do not decide it, 64 reject. -/
theorem test_lazy_example :
    decideLoop (demoLazy 0 [] true).me (threshold 0x46EF3623 0x7FFFFFFF) 1 ⟨0x8DDE6C472C15E5F80000000000000000, 64, 0, 0, 0⟩ =
      .ok (.val 0 ⟨0x8DDE6C472C15E5F80000000000000000, 64, 0, 0, 0⟩) := result_of (by decide)

/-- The worked fragment of the rank instruction set: its SLI −40 and its closing SLOOP. -/
theorem test_rank_sli :
    (match step { demoRank [] 5 (fun k => { k with ovl := [(5, 0x05BC3FD8)] }) with agenda := [.rank 0] } with
      | .next t => (t.rank 0).s[6] == -40 && (t.rank 0).upc == 6
      | _ => false) = true := by
  decide +kernel
theorem test_rank_sloop :
    stepped (demoRank [0, 0, 0, 0, 0, 8] 7) 0x3D403FFE (fun t => (t.rank 0).s[5] == 7 && (t.rank 0).upc == 5) = true ∧
    stepped (demoRank [0, 0, 0, 0, 0, 1] 7) 0x3D403FFE (fun t => (t.rank 0).s[5] == 0 && (t.rank 0).upc == 8) = true := by
  decide +kernel

/-- R74: a word that no row owns. -/
theorem test_step_illegal_word :
    (match runWord 0xFFFFFFFF (demo []) with | .next t => t.me.cause == 1 && t.me.sup && t.me.tval == 0xFFFFFFFF | _ => false) = true := by
  decide +kernel

end Sys2Proof.Tests
end

section
/-! PROOFS. The management window, the debug port, accesses from outside and power (O43). -/

namespace Sys2Proof.Machine

/-! ### A core and a context after an update -/

@[simp] theorem ctx_updCtx (s : State) (c x : Nat) (f : Context → Context) : (s.updCtx c x f).ctx c x = f (s.ctx c x) := by
  simp [State.ctx, State.updCtx, Core.ctx, Core.setCtx]

theorem Core.ctx_setCtx (k : Core) (x y : Nat) (m : Context) : (k.setCtx x m).ctx y = if ctxIx x = ctxIx y then m else k.ctx y := by
  unfold Core.setCtx Core.ctx
  split
  · next h => simp [h]
  · next h => exact Vector.getElem_set_ne (ctxIx x).isLt (ctxIx y).isLt (fun e => h (Fin.ext e))

theorem updMe_eq_updCtx (s : State) (f : Context → Context) : s.updMe f = s.updCtx s.cur.core s.cur.ctx.val f := by
  have h : ctxIx s.cur.ctx.val = s.cur.ctx := Fin.ext (Nat.mod_eq_of_lt s.cur.ctx.isLt)
  simp only [State.updMe, State.updHere, State.updCtx, Core.setCtx, Core.ctx, h]

/-! ### What keeps the place of every context

A context that a debugger halts has no effect but to let what it has issued land (R38), so its program counter stands, and so do the
clocks and the registers of the port. -/

/-- The clock of every core, the program counter of every context and the debug port are as they were. -/
structure KeepsPlace (s t : State) : Prop where
  dport : t.dport = s.dport
  clock : ∀ c, (t.core c).clock = (s.core c).clock
  pc    : ∀ c x, (t.ctx c x).pc = (s.ctx c x).pc

theorem KeepsPlace.refl (s : State) : KeepsPlace s s := ⟨rfl, fun _ => rfl, fun _ _ => rfl⟩

theorem KeepsPlace.trans {s t u : State} (h : KeepsPlace s t) (g : KeepsPlace t u) : KeepsPlace s u where
  dport := g.dport.trans h.dport
  clock c := (g.clock c).trans (h.clock c)
  pc c x := (g.pc c x).trans (h.pc c x)

theorem KeepsPlace.of_same {s t : State} (hd : t.dport = s.dport) (hc : t.cores = s.cores) : KeepsPlace s t where
  dport := hd
  clock c := by simp only [State.core, hc]
  pc c x := by simp only [State.ctx, State.core, hc]

theorem KeepsPlace.updCore (s : State) (c : Nat) {f : Core → Core} (hc : (f (s.core c)).clock = (s.core c).clock)
    (hp : ∀ x, ((f (s.core c)).ctx x).pc = ((s.core c).ctx x).pc) : KeepsPlace s (s.updCore c f) where
  dport := rfl
  clock d := by
    by_cases h : d = c
    · subst h; rw [core_updCore]; exact hc
    · rw [core_updCore_ne s f h]
  pc d x := by
    by_cases h : d = c
    · subst h; simp only [State.ctx, core_updCore]; exact hp x
    · simp only [State.ctx, core_updCore_ne s f h]

theorem KeepsPlace.updCtx (s : State) (c x : Nat) {f : Context → Context} (hf : (f (s.ctx c x)).pc = (s.ctx c x).pc) :
    KeepsPlace s (s.updCtx c x f) := by
  refine .updCore s c rfl fun y => ?_
  rw [Core.ctx_setCtx]
  split
  · next h => rw [show (s.core c).ctx y = s.ctx c x by simp only [State.ctx, Core.ctx, h]]; exact hf
  · rfl

theorem KeepsPlace.updMe (s : State) {f : Context → Context} (hf : ∀ m : Context, (f m).pc = m.pc) : KeepsPlace s (s.updMe f) := by
  rw [updMe_eq_updCtx]
  exact .updCtx s _ _ (hf _)

theorem KeepsPlace.foldl {α : Type} {f : State → α → State} (hf : ∀ s a, KeepsPlace s (f s a)) (l : List α) (s : State) :
    KeepsPlace s (l.foldl f s) := by
  induction l generalizing s with
  | nil => exact .refl s
  | cons a r ih => exact (hf s a).trans (ih (f s a))

/-! ### A lazy instruction that is stopped, waits withdrawn, results that land -/

theorem setLazy_keepsPlace (a : BitVec 5) (z : Lazy) (s : State) : KeepsPlace s (setLazy a z s) := .updMe s fun _ => rfl

theorem partOne_keepsPlace (d a : BitVec 5) (src : Opnd) (quick : List W64 → Option W64) (test : List W64 → Nat → Nat → Option W64)
    (n : Nat) (s : State) : KeepsPlace s (partOne d a src quick test n s) := by
  unfold partOne
  split
  · exact .refl s
  · dsimp only
    split
    · exact .refl s
    · exact setLazy_keepsPlace _ _ s

theorem lazyPart_keepsPlace (i : Instr) (n : Nat) (s : State) : KeepsPlace s (lazyPart i n s) := by
  unfold lazyPart
  split
  · exact .refl s
  · split
    · exact partOne_keepsPlace _ _ _ _ _ _ s
    · exact partOne_keepsPlace _ _ _ _ _ _ s
    · exact partOne_keepsPlace _ _ _ _ _ _ s
    · split
      · exact .refl s
      · split
        · exact .refl s
        · exact (setLazy_keepsPlace _ _ s).trans (setLazy_keepsPlace _ _ _)
    · split
      · exact .refl s
      · exact setLazy_keepsPlace _ _ s
    · exact .refl s

theorem asContext_keepsPlace (c x : Nat) {f : State → State} (hf : ∀ s, KeepsPlace s (f s)) (s : State) :
    KeepsPlace s (asContext c x f s) :=
  have h := hf { actAs c x s with banks := [], collisions := 0, target := none }
  ⟨h.dport, h.clock, h.pc⟩

theorem stopLazy_keepsPlace (c x : Nat) (s : State) : KeepsPlace s (stopLazy c x s) := by
  unfold stopLazy
  split
  · refine (KeepsPlace.of_same (s := s) (t := { s with nextId := s.nextId + 1 }) rfl rfl).trans (asContext_keepsPlace c x ?_ _)
    intro t
    split
    · exact .refl t
    · split
      · exact .refl t
      · exact lazyPart_keepsPlace _ _ t
  · exact .refl s

theorem lookup_map {α β : Type} (f : α → β) (k : Nat) (l : List (Nat × α)) :
    lookup k (l.map fun e => (e.1, f e.2)) = (lookup k l).map f := by
  induction l with
  | nil => rfl
  | cons e r ih =>
    obtain ⟨j, v⟩ := e
    simp only [List.map_cons, lookup, ih]
    split <;> rfl

/-- The core without the requests that context x of core c has waiting there. -/
def Core.withdrawn (c x : Nat) (k : Core) : Core := { k with waiters := k.waiters.filter (fun w => !(w.core == c && w.ctx == x)) }

theorem Core.withdrawn_first (c x d : Nat) : (Core.first d).withdrawn c x = Core.first d := by
  unfold Core.first
  split <;> rfl

theorem withdrawAll_core (s : State) (c x d : Nat) : (s.withdrawAll c x).core d = (s.core d).withdrawn c x := by
  have h : lookup d (s.withdrawAll c x).cores = (lookup d s.cores).map (Core.withdrawn c x) :=
    lookup_map (Core.withdrawn c x) d s.cores
  unfold State.core
  rw [h]
  cases lookup d s.cores with
  | none => exact (Core.withdrawn_first c x d).symm
  | some k => rfl

theorem withdrawAll_keepsPlace (s : State) (c x : Nat) : KeepsPlace s (s.withdrawAll c x) where
  dport := rfl
  clock d := by rw [withdrawAll_core]; rfl
  pc d y := by rw [State.ctx, withdrawAll_core]; rfl

theorem flushSpm_keepsPlace (s : State) (c t : Nat) (mine : Nat → Bool) : KeepsPlace s (s.flushSpm c t mine) := by
  unfold State.flushSpm
  dsimp only
  split
  · exact .refl s
  · exact (KeepsPlace.foldl (fun s w => .updCore s c rfl fun _ => rfl) _ s).trans (.updCore _ c rfl fun _ => rfl)

theorem finishFixed_keepsPlace (s : State) (c x : Nat) : KeepsPlace s (s.finishFixed c x) :=
  (flushSpm_keepsPlace s c _ _).trans (.updCtx _ c x rfl)

/-! ### A halted context (R38, R357) -/

/-- What has not arrived stays pending, and nothing else does (R31). -/
theorem not_arrived_of_mem_settle {α : Type} (t : Nat) (c : Cell α) {p : Pending α} (hp : p ∈ (c.settle t).pend) :
    p.arrived t = false := by
  suffices h : ∀ (l : List (Pending α)) (acc : Cell α), (∀ q ∈ acc.pend, q.arrived t = false) →
      ∀ q ∈ (l.foldl (fun acc p => if p.arrived t then ⟨p.val, []⟩ else ⟨acc.cur, acc.pend ++ [p]⟩) acc).pend, q.arrived t = false from
    h c.pend ⟨c.cur, []⟩ (by simp) p hp
  intro l
  induction l with
  | nil => exact fun _ h => h
  | cons a r ih =>
    intro acc hacc
    refine ih _ fun q hq => ?_
    dsimp only at hq
    split at hq
    · simp at hq
    · next ha =>
      rcases List.mem_append.mp hq with hq | hq
      · exact hacc q hq
      · rw [List.mem_singleton.mp hq]; exact eq_false_of_ne_true ha

theorem lt_due_of_mem_settle {α : Type} {t d : Nat} {c : Cell α} {p : Pending α} (hp : p ∈ (c.settle t).pend) (hd : p.due = some d) :
    t < d := by
  have h := not_arrived_of_mem_settle t c hp
  simpa [Pending.arrived, hd] using h

theorem finishFixed_ctx (s : State) (c x : Nat) : ∃ m : Context, (s.finishFixed c x).ctx c x = m.settleAll ((s.core c).clock + 1000) :=
  ⟨_, ctx_updCtx _ c x _⟩

theorem haltContext_keepsPlace (c x : Nat) (s : State) : KeepsPlace s (haltContext c x s) :=
  (((stopLazy_keepsPlace c x s).trans (withdrawAll_keepsPlace _ c x)).trans (finishFixed_keepsPlace _ c x)).trans (.updCtx _ c x rfl)

/-- R38, R357: the context is halted where it stands, and nothing of a fixed latency is on its way to its registers. -/
theorem haltContext_ctx (c x : Nat) (s : State) :
    let m := (haltContext c x s).ctx c x
    m.dhalt = true ∧ m.reason = 1 ∧ m.dstep = false ∧ m.pc = (s.ctx c x).pc ∧
    (∀ j : Fin 8, ∀ p ∈ (m.n[j]).pend, ∀ t, p.due = some t → (s.core c).clock + 1000 < t) := by
  let t := (stopLazy c x s).withdrawAll c x
  have hclock : (t.core c).clock = (s.core c).clock :=
    ((stopLazy_keepsPlace c x s).trans (withdrawAll_keepsPlace _ c x)).clock c
  obtain ⟨m, hm⟩ := finishFixed_ctx t c x
  have hctx : (haltContext c x s).ctx c x =
      { m.settleAll ((s.core c).clock + 1000) with dhalt := true, dstep := false, reason := 1 } := by
    rw [← hclock, ← hm]
    exact ctx_updCtx _ c x _
  have hpc := (haltContext_keepsPlace c x s).pc c x
  rw [hctx] at hpc ⊢
  refine ⟨rfl, rfl, rfl, hpc, fun j p hp d hd => lt_due_of_mem_settle (c := m.n[j]) ?_ hd⟩
  simpa [Context.settleAll] using hp

/-! ### Commands of the debug port (R356, R357) -/

/-- The registers of the port as they stood when DCMD took the command. -/
def State.onRegisters (s : State) (q : DebugCmd) : State :=
  { s with dport := { s.dport with dsel := q.sel, daddr := q.addr, ddata := q.data } }

/-- Event i performs the command whose code is op, where the core and contexts that DSEL names are there and `ok` holds: the change is f on
the registers as they stood, DSTAT.CODE tells of no failure, and only READ leaves a value in DDATA. -/
def PerformsDebug (s : State) (i : Instr) (op : BitVec 8) (ok : DebugCmd → Prop) (f : DebugCmd → State → State) : Prop :=
  ∀ q, s.dport.cmd = some q → s.dport.code = 1 → q.op = op → debugSelected (s.onRegisters q) = true → ok q →
    exec i s = .next { f q (s.onRegisters q) with dport := { s.dport with
      ddata := if op = 6 then (f q (s.onRegisters q)).dport.ddata else s.dport.ddata, cmd := none, code := 0 } }

theorem debugOp_idle {s : State} (h : s.dport.cmd = none) (cmd : Nat) (f : State → State × Nat) : debugOp cmd f s = .next s := by
  simp only [debugOp, h]

/-- The end of a command: what its change made of the package, and the port with DSTAT.CODE at the change's code. -/
def State.endDebug (s : State) (cmd : Nat) (r : State × Nat) : State :=
  { r.1 with dport := { s.dport with
    ddata := if cmd = 6 ∧ r.2 = 0 then r.1.dport.ddata else s.dport.ddata, cmd := none, code := BitVec.ofNat 8 r.2 } }

theorem debugOp_performed {s : State} {q : DebugCmd} (f : State → State × Nat) (hq : s.dport.cmd = some q) (hc : s.dport.code = 1)
    (hsel : debugSelected (s.onRegisters q) = true) :
    debugOp q.op.toNat f s = .next (s.endDebug q.op.toNat (f (s.onRegisters q))) := by
  unfold debugOp
  split
  · next h => rw [hq] at h; cases h
  · next d h =>
    obtain rfl : q = d := Option.some.inj (hq.symm.trans h)
    rw [if_neg (by simp [hc])]
    exact congrArg (fun r => Host.Outcome.next (s.endDebug q.op.toNat r)) (if_pos hsel)

theorem performsDebug_of {s : State} {i : Instr} {op : BitVec 8} {ok : DebugCmd → Prop} {f : DebugCmd → State → State}
    {g : State → State × Nat} (hexec : exec i s = debugOp op.toNat g s)
    (hg : ∀ q, ok q → g (s.onRegisters q) = (f q (s.onRegisters q), 0)) : PerformsDebug s i op ok f := by
  rintro q hq hc rfl hsel hok
  have hop : q.op.toNat = 6 ↔ q.op = 6 := by rw [← BitVec.toNat_inj]; rfl
  rw [hexec, debugOp_performed g hq hc hsel, hg q hok]
  simp only [State.endDebug, and_true, hop]
  rfl

/-- The contexts that a command names. -/
def DebugCmd.contexts (q : DebugCmd) : List Nat := if q.ctx = 15 then List.range 11 else [q.ctx]

/-- A change of every context that a command names. -/
def DebugCmd.each (f : Context → Context) (q : DebugCmd) (s : State) : State := q.contexts.foldl (fun s x => s.updCtx q.core x f) s

/-- A change that keeps the port meets the same core at every context of a list. -/
theorem foldl_selected {g : Nat → Nat → State → State} (hg : ∀ c x s, (g c x s).dport = s.dport) (l : List Nat) (s : State) :
    l.foldl (fun s x => g s.dport.core x s) s = l.foldl (fun t x => g s.dport.core x t) s := by
  induction l generalizing s with
  | nil => rfl
  | cons x r ih => simpa only [List.foldl_cons, hg] using ih (g s.dport.core x s)

theorem debugEach_onRegisters (f : Context → Context) (q : DebugCmd) (s : State) :
    debugEach f (s.onRegisters q) = (q.each f (s.onRegisters q), 0) :=
  congrArg (·, 0) (foldl_selected (g := fun c x s => s.updCtx c x f) (fun _ _ _ => rfl) _ (s.onRegisters q))

theorem performsDebug_attach (s : State) :
    PerformsDebug s .attach 1 (fun _ => True) (DebugCmd.each (fun c => { c with attached := true })) :=
  performsDebug_of (exec_attach s) fun q _ => debugEach_onRegisters _ q s

theorem performsDebug_detach (s : State) :
    PerformsDebug s .detach 2 (fun _ => True) (DebugCmd.each (fun c =>
      { c with attached := false, dstep := false, dhalt := false, reason := if c.dhalt then 0 else c.reason })) := by
  have hf : (fun c : Context => { (if c.dhalt then c.goOn else { c with dstep := false }) with attached := false }) =
      fun c => { c with attached := false, dstep := false, dhalt := false, reason := if c.dhalt then 0 else c.reason } := by
    funext c
    cases h : c.dhalt <;> simp [Context.goOn]
  refine performsDebug_of (exec_detach s) fun q _ => ?_
  rw [hf]
  exact debugEach_onRegisters _ q s

theorem performsDebug_halt (s : State) :
    PerformsDebug s .debugHalt 3 (fun _ => True) (fun q s => q.contexts.foldl (fun s x => haltContext q.core x s) s) :=
  performsDebug_of (exec_debugHalt s) fun q _ =>
    congrArg (·, 0) (foldl_selected (fun c x s => (haltContext_keepsPlace c x s).dport) _ (s.onRegisters q))

theorem performsDebug_resume (s : State) :
    PerformsDebug s .debugResume 4 (fun _ => True) (DebugCmd.each (fun c =>
      if c.dhalt then { c with dhalt := false, dstep := false, reason := 0 } else c)) :=
  performsDebug_of (exec_debugResume s) fun q _ => debugEach_onRegisters _ q s

theorem performsDebug_step (s : State) :
    PerformsDebug s .debugStep 5 (fun q => q.ctx ≤ 10 ∧ (s.ctx q.core q.ctx).dhalt = true)
      (DebugCmd.each (fun c => { c with dhalt := false, dstep := true })) := by
  refine performsDebug_of (exec_debugStep s) fun q ⟨hctx, hhalt⟩ => ?_
  have hone : (s.onRegisters q).dport.ctx ≠ 15 := by
    show q.ctx ≠ 15
    omega
  have hhalt' : ((s.onRegisters q).ctx (s.onRegisters q).dport.core (s.onRegisters q).dport.ctx).dhalt = true := hhalt
  simp only [hone, hhalt', if_false, Bool.not_true, Bool.false_eq_true]
  exact debugEach_onRegisters _ q s

/-! READ and WRITE. -/

theorem debugAddrOk_onRegisters {s : State} {q : DebugCmd} (h8 : q.addr.toNat % 8 = 0) (h : q.addr.toNat < 0x35000) :
    debugAddrOk (s.onRegisters q) = true := by
  simp [debugAddrOk, State.onRegisters, h8, h]

/-- No context of the record that DADDR names runs. -/
theorem debugBusy_onRegisters {s : State} {q : DebugCmd}
    (h : ∀ x, ctxOfOffset q.addr.toNat = some x → (s.ctx q.core x).dhalt = true) : debugBusy (s.onRegisters q) = false := by
  show (ctxOfOffset q.addr.toNat).any (fun x => !(s.ctx q.core x).dhalt) = false
  cases hx : ctxOfOffset q.addr.toNat with
  | none => rfl
  | some x => simp [h x hx]

theorem ctxOfOffset_of_le {off : Nat} (h : 0xC000 ≤ off) : ctxOfOffset off = none := if_neg (by omega)

theorem performsDebug_read (s : State) :
    PerformsDebug s .debugRead 6
      (fun q => q.addr.toNat % 8 = 0 ∧ q.addr.toNat < 0x35000 ∧
        ∀ x, ctxOfOffset q.addr.toNat = some x → (s.ctx q.core x).dhalt = true)
      (fun q t => { t with dport := { t.dport with ddata := imageWord t q.core q.addr.toNat } }) := by
  refine performsDebug_of (exec_debugRead s) fun q ⟨h8, hlt, hx⟩ => ?_
  simp only [debugAddrOk_onRegisters h8 hlt, debugBusy_onRegisters hx, Bool.not_true, Bool.false_eq_true, if_false]
  rfl

theorem performsDebug_write_spm (s : State) :
    PerformsDebug s .debugWrite 7 (fun q => q.addr.toNat % 8 = 0 ∧ 0xC000 ≤ q.addr.toNat ∧ q.addr.toNat < 0x24000)
      (fun q t => t.spmWrite q.core (q.addr.toNat - 0xC000) (bytesOf 8 q.data.toNat)) := by
  refine performsDebug_of (exec_debugWrite s) fun q ⟨h8, hge, hlt⟩ => ?_
  have haddr : (s.onRegisters q).dport.daddr = q.addr := rfl
  have hwritable : ¬ (q.addr.toNat < 0x1000 ∨ (0x24600 ≤ q.addr.toNat ∧ q.addr.toNat < 0x25000)) := by omega
  simp only [debugAddrOk_onRegisters h8 (by omega : q.addr.toNat < 0x35000), haddr, ctxOfOffset_of_le hge, Bool.not_true,
    Bool.false_eq_true, if_false, if_neg hwritable, if_pos hlt]
  rfl

theorem performsDebug_write_tile (s : State) :
    PerformsDebug s .debugWrite 7 (fun q => q.addr.toNat % 8 = 0 ∧ 0x25000 ≤ q.addr.toNat ∧ q.addr.toNat < 0x35000)
      (fun q t => t.updCore q.core (fun k =>
        { k with tile := Memory.writeN k.tile (q.addr.toNat - 0x25000) (bytesOf 8 q.data.toNat) })) := by
  refine performsDebug_of (exec_debugWrite s) fun q ⟨h8, hge, hlt⟩ => ?_
  have haddr : (s.onRegisters q).dport.daddr = q.addr := rfl
  have hwritable : ¬ (q.addr.toNat < 0x1000 ∨ (0x24600 ≤ q.addr.toNat ∧ q.addr.toNat < 0x25000)) := by omega
  have hspm : ¬ q.addr.toNat < 0x24000 := by omega
  have hfull : ¬ q.addr.toNat < 0x24600 := by omega
  simp only [debugAddrOk_onRegisters h8 hlt, haddr, ctxOfOffset_of_le (by omega : 0xC000 ≤ q.addr.toNat), Bool.not_true,
    Bool.false_eq_true, if_false, if_neg hwritable, if_neg hspm, if_neg hfull]
  rfl

/-- A write into the tile memory: the bytes, and the port at rest again. -/
theorem debugWrite_tile {s : State} {q : DebugCmd} (hq : s.dport.cmd = some q) (hc : s.dport.code = 1) (ho : q.op = 7)
    (h8 : q.addr.toNat % 8 = 0) (hge : 0x25000 ≤ q.addr.toNat) (hlt : q.addr.toNat < 0x35000)
    (hsel : debugSelected (s.onRegisters q) = true) :
    ∃ t, exec .debugWrite s = .next t ∧ t.dport = { s.dport with cmd := none, code := 0 } ∧
      (t.core q.core).tile = Memory.writeN (s.core q.core).tile (q.addr.toNat - 0x25000) (bytesOf 8 q.data.toNat) := by
  refine ⟨_, performsDebug_write_tile s q hq hc ho hsel ⟨h8, hge, hlt⟩, rfl, ?_⟩
  exact congrArg Core.tile (core_updCore (s.onRegisters q) q.core (fun k =>
    { k with tile := Memory.writeN k.tile (q.addr.toNat - 0x25000) (bytesOf 8 q.data.toNat) }))

theorem debug_events_idle {s : State} (h : s.dport.cmd = none) :
    ∀ i ∈ [Instr.attach, .detach, .debugHalt, .debugResume, .debugStep, .debugRead, .debugWrite], exec i s = .next s := by
  simp only [List.forall_mem_cons, List.not_mem_nil, false_implies, implies_true, and_true, exec_attach, exec_detach, exec_debugHalt,
    exec_debugResume, exec_debugStep, exec_debugRead, exec_debugWrite, execAttach, execDetach, execDebugHalt, execDebugResume,
    execDebugStep, execDebugRead, execDebugWrite, debugOp_idle h]

/-! ### Registers of the window (R355, R356) -/

theorem exec_registerWrite_aligned (s : State) (v : W64) {off : Nat} (h8 : off % 8 = 0) (h : off < 2 ^ 20) :
    exec (.registerWrite off v) s = .next (s.mgmtWrite off v) := by
  rw [exec_registerWrite, execRegisterWrite, if_pos ⟨h8, h⟩]

theorem mgmtWrite_ddata (s : State) (v : W64) : s.mgmtWrite 0x30018 v = { s with dport := { s.dport with ddata := v } } := rfl
theorem mgmtWrite_daddr (s : State) (v : W64) : s.mgmtWrite 0x30010 v = { s with dport := { s.dport with daddr := v &&& 0x3FFFF } } := rfl
theorem mgmtWrite_dsel (s : State) (v : W64) : s.mgmtWrite 0x30000 v = { s with dport := { s.dport with dsel := v &&& 0xF0FFF } } := rfl

theorem mgmtWrite_watch (s : State) (v : W64) (j : Fin 4) :
    s.mgmtWrite (0x30028 + 8 * j) v = s.updCore s.dport.core (fun k =>
      { k with watch := k.watch.set j (v &&& 0xF3FFFFFFFFFFFFFF) }) := by
  match j with
  | 0 => rfl
  | 1 => rfl
  | 2 => rfl
  | 3 => rfl

/-- A command whose code R302 or R356 lists: bits 7–0 from 1 to 7. -/
theorem listed_command {v : W64} (h1 : 1 ≤ v.toNat % 256) (h7 : v.toNat % 256 ≤ 7) :
    ¬ (bits v.toNat 7 0 = 0 ∨ 7 < bits v.toNat 7 0) := by
  simp only [bits, Nat.pow_zero, Nat.div_one, Nat.reduceSub, Nat.reduceAdd, Nat.reducePow]
  omega

theorem mgmtWrite_dcmd_busy {s : State} (h : s.dport.code = 1) (v : W64) : s.mgmtWrite 0x30008 v = s :=
  show (if s.dport.code = 1 then s else _) = s from if_pos h

theorem mgmtWrite_dcmd {s : State} {v : W64} (h : s.dport.code ≠ 1) (h1 : 1 ≤ v.toNat % 256) (h7 : v.toNat % 256 ≤ 7) :
    s.mgmtWrite 0x30008 v =
      { s with dport := { s.dport with cmd := some ⟨v.setWidth 8, s.dport.dsel, s.dport.daddr, s.dport.ddata⟩, code := 1 } } := by
  show (if s.dport.code = 1 then s else if bits v.toNat 7 0 = 0 ∨ 7 < bits v.toNat 7 0 then _ else _) = _
  rw [if_neg h, if_neg (listed_command h1 h7)]

theorem mgmtWrite_vdCmd {s : State} {v : W64} (h : s.vdStat ≠ 1) (hz : v.toNat / 2 ^ 14 % 4 = 0) (h1 : 1 ≤ v.toNat % 256)
    (h7 : v.toNat % 256 ≤ 7) : s.mgmtWrite 0 v = { s with vdCmd := v, vdStat := 1, vdBegun := false } := by
  have hlisted : ¬ (bits v.toNat 15 14 ≠ 0 ∨ bits v.toNat 7 0 = 0 ∨ 7 < bits v.toNat 7 0) :=
    not_or.mpr ⟨not_not.mpr hz, listed_command h1 h7⟩
  show (if s.vdStat = 1 ∧ s.endsStop v = false then s
    else if bits v.toNat 15 14 ≠ 0 ∨ bits v.toNat 7 0 = 0 ∨ 7 < bits v.toNat 7 0 then _ else _) = _
  rw [if_neg (fun e => h e.1), if_neg hlisted]

/-! ### Entries of the window (R221, R249, R307) -/

theorem exec_permissionEntryWrite_numbered (s : State) (x : BitVec 128) {bd e : Nat} (hb : bd < 8) (he : e < 512) :
    exec (.permissionEntryWrite bd e x) s = .next (s.writePerm bd e x) := congrArg _ (if_pos ⟨hb, he⟩)

theorem exec_windowEntryWrite_numbered (s : State) (x : BitVec 128) {vd w : Nat} (hv : vd < 64) (hw : w < 16) :
    exec (.windowEntryWrite vd w x) s = .next (s.writeWindow vd w x) := congrArg _ (if_pos ⟨hv, hw⟩)

theorem exec_rankEnableMapWrite_numbered (s : State) (v : W64) {bd w : Nat} (hb : bd < 8) (hw : w < 16) :
    exec (.rankEnableMapWrite bd w v) s = .next (s.writeEnable bd w v) := congrArg _ (if_pos ⟨hb, hw⟩)

/-! ### The package stays the same

A page-table walk reads, writes and records at banks of the package, and changes everything there but the number of the package. -/

theorem foldl_pkg {α : Type} {f : State → α → State} (hf : ∀ s a, (f s a).pkg = s.pkg) (l : List α) (s : State) :
    (l.foldl f s).pkg = s.pkg := by
  induction l generalizing s with
  | nil => rfl
  | cons a r ih => exact (ih (f s a)).trans (hf s a)

theorem writeRun_pkg (s : State) (run : Place × List Byte) : (s.writeRun run).pkg = s.pkg := by
  unfold State.writeRun
  split
  · rfl
  · refine foldl_pkg ?_ _ s
    exact fun _ _ => rfl

theorem soundAgain_pkg (s : State) (cells : List Nat) : (s.soundAgain cells).pkg = s.pkg := by
  unfold State.soundAgain
  split <;> rfl

theorem dropLines_pkg (s : State) (keys : List Nat) (keep : Option (Nat × L1Line)) : (s.dropLines keys keep).pkg = s.pkg := by
  unfold State.dropLines
  split <;> rfl

theorem wrote_pkg (s : State) (ps : List Place) (keep : Option (Nat × L1Line)) (row : Place → Nat) :
    (s.wrote ps keep row).pkg = s.pkg :=
  (dropLines_pkg _ _ _).trans (soundAgain_pkg s _)

theorem writePlaces_pkg (s : State) (ps : List (Place × Byte)) (keep : Option (Nat × L1Line)) : (s.writePlaces ps keep).pkg = s.pkg :=
  (wrote_pkg _ _ _ _).trans (foldl_pkg writeRun_pkg _ s)

theorem wakeChannel_pkg (ch : Nat) (s : State) : (wakeChannel ch s).pkg = s.pkg := by
  refine foldl_pkg ?_ _ { s with asleep := s.asleep.filter (· != ch) }
  intro t r
  split <;> rfl

theorem wakeBanks_pkg (s : State) (ps : List Place) : (s.wakeBanks ps).pkg = s.pkg := by
  unfold State.wakeBanks
  split
  · rfl
  · exact foldl_pkg (fun t ch => wakeChannel_pkg ch t) _ s

/-! Writes of the device, and the records of errors. -/

theorem devRun_pkg (ident : Nat) (s : State) (r : Place × List Byte) : (s.devRun ident r).pkg = s.pkg := by
  unfold State.devRun
  dsimp only
  split
  · rfl
  · split
    · rfl
    · exact writePlaces_pkg s _ _

theorem devWrite_pkg (s : State) (pa : Nat) (bs : List Byte) : (s.devWrite pa bs).pkg = s.pkg :=
  (foldl_pkg (fun t r => devRun_pkg t.nextId t r) _ _).trans (wakeBanks_pkg s _)

theorem interrupt_pkg (s : State) (vd : Nat) (ident : BitVec 32) : (s.interrupt vd ident).pkg = s.pkg := by
  unfold State.interrupt
  split <;> rfl

theorem ringEntry_pkg (s : State) (vd : Nat) (bs : List Byte) : (s.ringEntry vd bs).1.pkg = s.pkg := devWrite_pkg s _ bs

/-- The log that results is left open: unfolding how it drops its entries past 4,096 is too deep for the kernel. -/
theorem logRecord_pkg (s : State) (bs : List Byte) : (s.logRecord bs).1.pkg = s.pkg := by
  have h : ∃ log, (s.logRecord bs).1 = { s with errlog := log, errSeq := s.errSeq + 1 } := ⟨_, rfl⟩
  obtain ⟨log, h⟩ := h
  rw [h]

theorem recordFor_none (s : State) (addr pc : W64) (source kind syndrome core ctx : Nat) :
    ∃ bs, s.recordFor none addr pc source kind syndrome core ctx = s.logRecord bs := ⟨_, rfl⟩

theorem recordFor_some (s : State) (v : Nat) (addr pc : W64) (source kind syndrome core ctx : Nat) :
    ∃ bs, (s.recordFor (some v) addr pc source kind syndrome core ctx).1 = (((s.ringEntry v bs).1.interrupt v 2).logRecord bs).1 :=
  ⟨_, rfl⟩

theorem recordFor_pkg (s : State) (vd : Option Nat) (addr pc : W64) (source kind syndrome core ctx : Nat) :
    (s.recordFor vd addr pc source kind syndrome core ctx).1.pkg = s.pkg := by
  cases vd with
  | none =>
    obtain ⟨bs, h⟩ := recordFor_none s addr pc source kind syndrome core ctx
    rw [h, logRecord_pkg]
  | some v =>
    obtain ⟨bs, h⟩ := recordFor_some s v addr pc source kind syndrome core ctx
    rw [h, logRecord_pkg, interrupt_pkg, ringEntry_pkg]

theorem wordRecord_pkg (s : State) (vd : Nat) (stamp : Option Nat) (ps : List Place) (pc : W64) (kind core ctx : Nat) :
    (s.wordRecord vd stamp ps pc kind core ctx).1.pkg = s.pkg := recordFor_pkg s _ _ _ _ _ _ _ _

/-! Contributions that a read recalls, and reads of the device. -/

theorem mergeWord_pkg (now : Bool) (c : Nat) (l : L1Line) (u : UpdLine) (off v : Nat) (s : State) :
    (mergeWord now c l u off v s).pkg = s.pkg := by
  unfold mergeWord
  dsimp only
  split
  · exact wakeBanks_pkg s _
  · unfold applyUpdate
    split
    · rw [wordRecord_pkg, wakeBanks_pkg]
    · rw [writePlaces_pkg, wakeBanks_pkg]

theorem mergeLine_pkg (now : Bool) (c : Nat) (s : State) (l : L1Line) : (mergeLine now c s l).pkg = s.pkg := by
  unfold mergeLine
  split
  · rfl
  · next u _ =>
    refine foldl_pkg ?_ _ s
    exact fun t w => mergeWord_pkg now c l u w.1 w.2 t

theorem evictLine_pkg (s : State) (c : Nat) (l : L1Line) (now : Bool) : (s.evictLine c l now).pkg = s.pkg :=
  (mergeLine_pkg now c _ l).trans (State.updCore_pkg s c _)

theorem recall_pkg (s : State) (ps : List Place) : (s.recall ps).pkg = s.pkg := by
  refine foldl_pkg ?_ _ s
  exact fun t e => evictLine_pkg t e.1 e.2 true

theorem comes_pkg (s : State) (ps : List Place) : (s.comes ps).pkg = s.pkg := by
  unfold State.comes
  dsimp only
  split
  · exact wakeBanks_pkg s ps
  · exact (recall_pkg _ ps).trans (wakeBanks_pkg s ps)

theorem devRead_pkg (s : State) (pa len : Nat) : (s.devRead pa len).1.pkg = s.pkg := by
  unfold State.devRead
  split
  · rfl
  · dsimp only
    split
    · exact (wordRecord_pkg _ _ _ _ _ _ _ _).trans (comes_pkg s _)
    · exact comes_pkg s _

/-! The walk itself. -/

theorem walkLevels_pkg (va left : Nat) (s : State) (t : Nat) : (walkLevels va left s t).1.pkg = s.pkg := by
  induction left generalizing s t with
  | zero => rfl
  | succ n ih =>
    have hread := devRead_pkg s (t + 8 * (va / 2 ^ (55 - 13 * (3 - n)) % 8192)) 8
    unfold walkLevels
    dsimp only
    split
    · next h => rwa [h] at hread
    · next h =>
      rw [h] at hread
      split
      · exact hread
      · split
        · split <;> exact hread
        · exact (ih _ _).trans hread

theorem cacheLeaf_pkg (s : State) (t : Tlb) : (s.cacheLeaf t).pkg = s.pkg := by
  unfold State.cacheLeaf
  dsimp only
  split <;> rfl

theorem walk_pkg (s : State) (die vd va : Nat) (k : AccessKind) : (walk s die vd va k).1.pkg = s.pkg := by
  have hlevels := walkLevels_pkg va 3 s (s.vd vd).desc.ptroot.toNat
  unfold walk
  dsimp only
  split
  · rfl
  · split
    · split <;> rfl
    · split
      · exact hlevels
      · split
        · exact hlevels
        · split
          · exact hlevels
          · split
            · exact hlevels
            · rw [apply_ite Prod.fst, ite_self, cacheLeaf_pkg, apply_ite State.pkg, devWrite_pkg, ite_self]
              exact hlevels

theorem rangeOf_pkg {tr : State → Nat → Nat → State × Walk} (htr : ∀ s va n, (tr s va n).1.pkg = s.pkg) (fuel : Nat) (s : State)
    (va len : Nat) : (rangeOf tr fuel s va len).1.pkg = s.pkg := by
  induction fuel generalizing s va len with
  | zero => rfl
  | succ n ih =>
    have hfirst := htr s va (min len (65536 - va % 65536))
    unfold rangeOf
    dsimp only
    split
    · next s1 pa h =>
      rw [h] at hfirst
      have hrest := ih s1 ((va + min len (65536 - va % 65536)) % 2 ^ 55) (len - min len (65536 - va % 65536))
      split
      · exact hfirst
      · split
        · next h2 => rw [h2] at hrest; exact hrest.trans hfirst
        · next h2 => rw [h2] at hrest; exact hrest.trans hfirst
    · next h => rwa [h] at hfirst

theorem walkRange_pkg (s : State) (die vd va len : Nat) (k : AccessKind) : (walkRange s die vd va len k).1.pkg = s.pkg :=
  rangeOf_pkg (fun t va _ => walk_pkg t die vd va k) _ s va len

/-! ### Accesses from outside (R273, R354) -/

theorem whenServed_eq_served (f : State → State) (s : State) : whenServed f s = (f s.afresh).served s := by
  simp only [whenServed, State.served, List.isEmpty_iff]
  rfl

/-- An access through the aperture whose pages translate to this package, outside the window, acts at its home. -/
theorem apertureAccess_home {s t : State} {vd va len : Nat} {wr : Bool} {pas : List Nat} (data : W64)
    (hw : walkRange s deviceDie vd va len (if wr then .store else .load) = (t, .ok pas))
    (hpkg : bits (pas.headD 0) 51 42 = t.pkg) (hm : t.mgmtOff (pas.headD 0) = none) :
    apertureAccess vd wr va len data s = outsideHome vd wr (t.places vd pas) data t := by
  have hsame : t.pkg = s.pkg := by simpa only [hw] using walkRange_pkg s deviceDie vd va len (if wr then .store else .load)
  have hhere : ¬ bits (pas.headD 0) 51 42 ≠ s.pkg := not_not.mpr (hpkg.trans hsame)
  simp only [apertureAccess, hw]
  rw [if_neg hhere, hm]

theorem exec_hostApertureAccess_home {s t : State} {vd len : Nat} {va : BitVec 55} {wr : Bool} {pas : List Nat} (data : W64)
    (h0 : 0 < len) (h8 : len ≤ 8) (hvd : vd < 64) (hst : (s.vd vd).state ≠ .absent)
    (hw : walkRange s.afresh deviceDie vd va.toNat len (if wr then .store else .load) = (t, .ok pas))
    (hpkg : bits (pas.headD 0) 51 42 = t.pkg) (hm : t.mgmtOff (pas.headD 0) = none) :
    exec (.hostApertureAccess vd wr va len data) s = .next ((outsideHome vd wr (t.places vd pas) data t).served s) := by
  have hgo : ¬ (64 ≤ vd ∨ (s.vd vd).state = .absent ∨ 8 < len ∨ len = 0) := by
    rintro (h | h | h | h)
    · omega
    · exact hst h
    · omega
    · omega
  rw [exec_hostApertureAccess, execHostApertureAccess, if_neg hgo, whenServed_eq_served, apertureAccess_home data hw hpkg hm]

theorem physAccess_owned {s : State} {pa len o : Nat} {wr : Bool} {ps : List Place} (data : W64)
    (h : s.ownerOf pa len (fun e => if wr then e.w else e.r) = some (o, ps)) :
    physAccess wr pa len data s = outsideHome o wr ps data s := by
  simp only [physAccess, h]

theorem exec_deviceDma_owned {s : State} {pa : BitVec 52} {len o : Nat} {wr : Bool} {ps : List Place} (data : W64)
    (h0 : 0 < len) (h8 : len ≤ 8) (h : s.ownerOf pa.toNat len (fun e => if wr then e.w else e.r) = some (o, ps)) :
    exec (.deviceDma wr pa len data) s = .next (outsideHome o wr ps data s) := by
  rw [exec_deviceDma, execDeviceDma, if_neg (by omega), physAccess_owned data h]

/-- An application core's load or store that a VD may make goes to memory, and the data of a load count for nothing. -/
theorem exec_applicationCoreAccess_owned {s : State} {pa : BitVec 52} {len o : Nat} {wr : Bool} {ps : List Place} (data : W64)
    (h0 : 0 < len) (h8 : len ≤ 8) (h : s.ownerOf pa.toNat len (fun e => if wr then e.w else e.r) = some (o, ps)) :
    exec (.applicationCoreAccess (if wr then .store pa len data else .load pa len)) s = .next (outsideHome o wr ps data s) := by
  have hlen : ¬ (8 < len ∨ len = 0) := by omega
  cases wr with
  | true =>
    have hp := physAccess_owned data h
    simp only [if_true] at h ⊢
    simp only [exec_applicationCoreAccess, execApplicationCoreAccess, if_neg hlen, h, hp]
    cases s.mgmtOff pa.toNat <;> rfl
  | false =>
    have hp := physAccess_owned 0 h
    simp only [Bool.false_eq_true, if_false] at h ⊢
    simp only [exec_applicationCoreAccess, execApplicationCoreAccess, if_neg hlen, h, hp]
    cases s.mgmtOff pa.toNat <;> rfl

/-! ### Power (R14) -/

theorem exec_powerManagerAdjust_allowed (s : State) {ms rc : BitVec 8} (tj pw : BitVec 16) (hms : 1 ≤ ms.toNat) (hms8 : ms.toNat ≤ 8)
    (hrc : 2 ≤ rc.toNat) (hrc8 : rc.toNat ≤ 8) (horder : rc = 8 ∨ ms = 1) :
    exec (.powerManagerAdjust ms rc tj pw) s =
      .next { s with power := BitVec.ofNat 64 (pw.toNat + tj.toNat * 2 ^ 16 + rc.toNat * 2 ^ 32 + ms.toNat * 2 ^ 40) } := by
  refine if_neg ?_
  rintro (h | h | h | h | ⟨h, h'⟩)
  · simp [h] at hms
  · omega
  · omega
  · omega
  · exact horder.elim h h'

/-! ### Every clause together -/

/-- Settles O43, clause by clause: the entries and registers of the window, the commands of the port, accesses from outside, power. -/
theorem managementEvents : Obligations.ManagementEvents := by
  intro s bd w vd len v x va pa ms rc tj pw
  refine ⟨exec_permissionEntryWrite_numbered s x, exec_windowEntryWrite_numbered s x, exec_rankEnableMapWrite_numbered s v,
    exec_registerWrite_aligned s v rfl (by decide), exec_registerWrite_aligned s v rfl (by decide),
    exec_registerWrite_aligned s v rfl (by decide), fun j => ?watch, fun h => ?busy, fun h h1 h7 => ?dcmd, fun h hz h1 h7 => ?vdCmd,
    fun i hi h => debug_events_idle h i hi, performsDebug_attach s, performsDebug_detach s, performsDebug_halt s,
    fun c k _ => haltContext_ctx c k s, performsDebug_resume s, performsDebug_step s, performsDebug_read s, performsDebug_write_spm s,
    fun q hq hc ho h8 hge hlt hsel => debugWrite_tile hq hc ho h8 hge hlt hsel,
    fun pas wr t h0 h8 hvd hst => exec_hostApertureAccess_home v h0 h8 hvd hst,
    fun wr o ps h0 h8 h => ⟨exec_deviceDma_owned v h0 h8 h, exec_applicationCoreAccess_owned v h0 h8 h⟩,
    fun _ _ _ => rfl, exec_powerManagerAdjust_allowed s tj pw⟩
  case watch => rw [exec_registerWrite_aligned s v (by omega) (by omega), mgmtWrite_watch]
  case busy => rw [exec_registerWrite_aligned s v rfl (by decide), mgmtWrite_dcmd_busy h]
  case dcmd => rw [exec_registerWrite_aligned s v rfl (by decide), mgmtWrite_dcmd h h1 h7]
  case vdCmd => rw [exec_registerWrite_aligned s v rfl (by decide), mgmtWrite_vdCmd h hz h1 h7]

end Sys2Proof.Machine
end

section
/-! PROOFS. No instruction, event or turn of an agent stops (O51): once for each shared shape of a meaning, then for the
branches of each event, then for the turns of the agenda. -/

namespace Sys2Proof.Machine

/-- The outcome is a next state: neither a fault of the machine nor a refusal. -/
def Answers (o : Out) : Prop := ∃ t, o = .next t

theorem Answers.next (t : State) : Answers (.next t) := ⟨t, rfl⟩

theorem Answers.ite {c : Prop} [Decidable c] {o p : Out} (ho : Answers o) (hp : Answers p) : Answers (if c then o else p) := by
  split
  · exact ho
  · exact hp

/-! ### The shared shapes of meanings -/

theorem issue_answers (i : Instr) (stall : Nat) (m : M Unit) (s : State) : Answers (issue i stall m s) := issue_next i stall m s

/-- A rank's instruction ends, takes its fault, waits, or loses its rank (R192, R194, R342). -/
theorem rankIssue_answers (f : State → Except RankStop State) (s : State) : Answers (rankIssue f s) := by
  unfold rankIssue
  cases f s with
  | ok t => exact .next _
  | error e => cases e <;> exact .next _

theorem rankStep_answers (cost : Nat) (f : Rank → Rank) (s : State) : Answers (rankStep cost f s) := rankIssue_answers _ s

theorem scalarOp_answers (x y z : BitVec 4) (f : Word → Word → Word) (s : State) : Answers (scalarOp x y z f s) :=
  rankStep_answers _ _ s

theorem branch_answers (taken : Rank → Bool) (i : BitVec 14) (f : Rank → Rank) (s : State) : Answers (branch taken i f s) :=
  rankIssue_answers _ s

theorem laneOp_answers (x y z : BitVec 4) (r : BitVec 3) (t : BitVec 1) (ff : Rnd → Nat → Nat → Nat × Fl) (fi : Word → Word → Word)
    (s : State) : Answers (laneOp x y z r t ff fi s) :=
  rankStep_answers _ _ s

theorem builtIn_answers (op : CourseOp) (x : BitVec 4) (d c : BitVec 2) (z : BitVec 4) (redop f : BitVec 3) (g : BitVec 8) (s : State) :
    Answers (builtIn op x d c z redop f g s) :=
  rankIssue_answers _ s

theorem vdOp_answers (op vd : Nat) (arg : BitVec 48) (f : State → State × Nat) (s : State) : Answers (vdOp op vd arg f s) :=
  .ite (.next _) (.ite (.next _) (.next _))

theorem debugOp_answers (cmd : Nat) (f : State → State × Nat) (s : State) : Answers (debugOp cmd f s) := by
  unfold debugOp
  cases s.dport.cmd with
  | none => exact .next _
  | some d => exact .ite (.next _) (.next _)

theorem spdmOp_answers (p : SpdmPath) (f : Spdm → State → State) (s : State) : Answers (spdmOp p f s) := by
  unfold spdmOp
  cases s.boot with
  | off => exact .next _
  | booting k => exact .ite (.next _) (.next _)
  | recovery k => exact .ite (.next _) (.ite (.next _) (.next _))
  | ready => exact .next _

theorem receive_answers (vc : Nat) (p : Packet) (f : State → State) (s : State) : Answers (receive vc p f s) :=
  .ite (.next _) (.ite (.ite (.next _) (.next _)) (.next _))

theorem valueArrives_answers (p : Packet) (s : State) : Answers (valueArrives p s) := receive_answers _ p _ s

/-- A request of several runs is served at its home at once, or asks for the banks that are shut. -/
theorem atHome_answers (right : Perm → Bool) (len : Nat) (op : BankOp) (p : Packet) (s : State) : Answers (atHome right len op p s) := by
  unfold atHome
  cases acceptingVd s p len right with
  | none => exact receive_answers _ _ _ _
  | some h =>
    cases op with
    | read | write => exact receive_answers _ _ _ _
    | atom | upd | window => exact .ite (receive_answers _ _ _ _) (.ite (receive_answers _ _ _ _) (.next _))

/-! ### Instructions whose meaning has a branch before it issues -/

theorem execFflag_answers (st : BitVec 3) (a b : BitVec 5) (s : State) : Answers (execFflag st a b s) := by
  unfold execFflag
  split <;> exact issue_answers _ _ _ _

theorem execLdv_answers (st : BitVec 3) (w : BitVec 2) (d b : BitVec 5) (q : BitVec 3) (o : BitVec 8) (s : State) :
    Answers (execLdv st w d b q o s) := by
  unfold execLdv
  split <;> exact issue_answers _ _ _ _

theorem execStv_answers (st : BitVec 3) (w : BitVec 2) (d b : BitVec 5) (q : BitVec 3) (o : BitVec 8) (s : State) :
    Answers (execStv st w d b q o s) := by
  unfold execStv
  split <;> exact issue_answers _ _ _ _

theorem execCbar_answers (x : BitVec 4) (g : BitVec 8) (s : State) : Answers (execCbar x g s) :=
  .ite (builtIn_answers _ _ _ _ _ _ _ _ s) (rankIssue_answers _ s)

/-! ### Cores, pagers and the ring (R28, R98 to R102, R120) -/

theorem execFaultRingEntry_answers (vd : Nat) (s : State) : Answers (execFaultRingEntry vd s) := by
  dsimp only [execFaultRingEntry]
  cases (s.vd vd).faults.find? (fun f => f.slot.isNone) with
  | none => exact .next _
  | some f => exact .ite (.next _) (.next _)

theorem execPagerAnswer_answers (vd n : Nat) (s : State) : Answers (execPagerAnswer vd n s) := by
  dsimp only [execPagerAnswer]
  split <;> exact .next _

theorem execTinvComplete_answers (core ctx : Nat) (s : State) : Answers (execTinvComplete core ctx s) := by
  unfold execTinvComplete
  cases (s.ctx core ctx).tinv with
  | none => exact .next _
  | some r => exact .ite (.next _) (.next _)

theorem execPortWordArrival_answers (n : Nat) (s : State) : Answers (execPortWordArrival n s) := by
  unfold execPortWordArrival
  cases s.inflight[n]? with
  | none => exact .next _
  | some m => exact .ite (.next _) (.ite (.ite (.next _) (.next _)) (.ite (.next _) (.ite (.next _) (.next _))))

theorem execSfuRequestComplete_answers (core : Nat) (s : State) : Answers (execSfuRequestComplete core s) := by
  unfold execSfuRequestComplete
  cases (s.core core).sfu with
  | nil => exact .next _
  | cons q r => exact .next _

theorem execPbindAcknowledgement_answers (core ctx : Nat) (s : State) : Answers (execPbindAcknowledgement core ctx s) := by
  unfold execPbindAcknowledgement
  cases (s.ctx core ctx).pbind with
  | none => exact .next _
  | some b =>
    dsimp only
    split <;> exact .next _

/-! ### Commands and courses (R177 to R188, R252 to R263) -/

theorem execCommandRingDispatch_answers (vd n : Nat) (s : State) : Answers (execCommandRingDispatch vd n s) := by
  unfold execCommandRingDispatch
  cases s.cmd vd n with
  | none => exact .next _
  | some c =>
    refine .ite (.next _) (.ite (.next _) (.ite (.next _) ?_))
    cases c.op <;> exact .next _

theorem execCollCompletion_answers (vd n : Nat) (s : State) : Answers (execCollCompletion vd n s) := by
  unfold execCollCompletion
  cases s.cmd vd n with
  | none => exact .next _
  | some c =>
    dsimp only
    split
    · exact .ite (.next _) (.next _)
    · exact .next _

theorem execRkovlCompletion_answers (vd n : Nat) (s : State) : Answers (execRkovlCompletion vd n s) := by
  unfold execRkovlCompletion
  cases s.cmd vd n with
  | none => exact .next _
  | some c => exact .ite (.next _) (.next _)

theorem execRkrunCompletion_answers (vd n : Nat) (s : State) : Answers (execRkrunCompletion vd n s) := by
  unfold execRkrunCompletion
  cases s.cmd vd n with
  | none => exact .next _
  | some c => exact .ite (.next _) (.next _)

theorem execRksigMailboxDelivery_answers (rank : Nat) (s : State) : Answers (execRksigMailboxDelivery rank s) := by
  unfold execRksigMailboxDelivery
  cases (s.rank rank).holdst with
  | nil => exact .next _
  | cons w r => exact .ite (.next _) (.next _)

theorem execCourseOpen_answers (id : Nat) (s : State) : Answers (execCourseOpen id s) := by
  unfold execCourseOpen
  cases s.course id with
  | none => exact .next _
  | some c =>
    refine .ite (.next _) ?_
    cases c.cmd <;> exact .next _

theorem execMemberReady_answers (id member : Nat) (s : State) : Answers (execMemberReady id member s) := by
  unfold execMemberReady
  cases s.course id with
  | none => exact .next _
  | some c => exact .ite (.next _) (.next _)

theorem execKeystone_answers (id : Nat) (s : State) : Answers (execKeystone id s) := by
  unfold execKeystone
  cases s.course id with
  | none => exact .next _
  | some c => exact .ite (.next _) (.next _)

theorem execCourseCancel_answers (id : Nat) (s : State) : Answers (execCourseCancel id s) := by
  unfold execCourseCancel
  cases s.course id with
  | none => exact .next _
  | some c =>
    dsimp only
    cases c.keystone with
    | none => exact .next _
    | some t => exact .ite (.next _) (.next _)

theorem execKeystoneInvalidationDone_answers (id : Nat) (s : State) : Answers (execKeystoneInvalidationDone id s) := by
  unfold execKeystoneInvalidationDone
  cases s.course id with
  | none => exact .next _
  | some c => exact .ite (.next _) (.next _)

theorem execCourseTimeout_answers (id : Nat) (s : State) : Answers (execCourseTimeout id s) := by
  unfold execCourseTimeout
  cases s.course id with
  | none => exact .next _
  | some c =>
    refine .ite (.next _) ?_
    cases (c.ready.map (·.2)).head? <;> exact .ite (.next _) (.next _)

theorem execCbarTimeout_answers (rank : Nat) (s : State) : Answers (execCbarTimeout rank s) := by
  unfold execCbarTimeout
  split
  · exact .ite (.next _) (.next _)
  · exact .next _

theorem execOutsideAccessArrival_answers (rank row col : Nat) (wr : Bool) (len : Nat) (data : BitVec 512) (s : State) :
    Answers (execOutsideAccessArrival rank row col wr len data s) := by
  unfold execOutsideAccessArrival
  refine .ite (.next _) ?_
  cases (s.permsAt rank row).find? (fun e => if wr then e.w else e.r) <;> exact .next _

/-! ### Launches and virtual devices (R273 to R284, R297 to R316, R335) -/

theorem execLaunchStart_answers (vd q : Nat) (s : State) : Answers (execLaunchStart vd q s) := by
  unfold execLaunchStart
  cases (s.vd vd).queues[Fin.ofNat 4 q].launches with
  | nil => exact .next _
  | cons l r => exact .ite (.next _) (.ite (.next _) (.ite (.next _) (.next _)))

theorem execTerminationSweep_answers (vd q node : Nat) (s : State) : Answers (execTerminationSweep vd q node s) := by
  unfold execTerminationSweep
  cases (s.vd vd).queues[Fin.ofNat 4 q].launches with
  | nil => exact .next _
  | cons l r =>
    dsimp only
    cases l.nodes[node]? with
    | none => exact .next _
    | some x => exact .ite (.next _) (.ite (.next _) (.next _))

theorem execRankNodeEnd_answers (vd q node : Nat) (s : State) : Answers (execRankNodeEnd vd q node s) := by
  unfold execRankNodeEnd
  cases (s.vd vd).queues[Fin.ofNat 4 q].launches with
  | nil => exact .next _
  | cons l r =>
    dsimp only
    cases l.nodes[node]? with
    | none => exact .next _
    | some x => exact .ite (.next _) (.next _)

theorem execCoreResumption_answers (vd origin core : Nat) (s : State) : Answers (execCoreResumption vd origin core s) := by
  dsimp only [execCoreResumption]
  cases lookup origin (s.vd vd).saved with
  | none => exact .next _
  | some img => exact .ite (.next _) (.next _)

theorem execEquinoxStop_answers (vd : Nat) (s : State) : Answers (execEquinoxStop vd s) := by
  dsimp only [execEquinoxStop]
  cases (s.vd vd).te with
  | none => exact .next _
  | some te =>
    refine .ite (.next _) ?_
    cases (s.vd vd).state <;> exact .next _

theorem execVigilCollapse_answers (vd : Nat) (s : State) : Answers (execVigilCollapse vd s) := by
  unfold execVigilCollapse
  refine .ite (.next _) ?_
  cases (s.vd vd).quiet with
  | none => exact .next _
  | some t =>
    refine .ite (.next _) ?_
    cases watchSet s vd with
    | none => exact .next _
    | some ws => exact .ite (.next _) (.next _)

/-! ### Errors, boot and the outside (R341 to R358) -/

theorem execUncorrectableError_answers (e : ErrorReport) (s : State) : Answers (execUncorrectableError e s) := by
  unfold execUncorrectableError
  cases e.reader <;> exact .next _

theorem execBankMigration_answers (rank : Nat) (s : State) : Answers (execBankMigration rank s) := by
  unfold execBankMigration
  refine .ite (.next _) ?_
  cases (s.rank rank).migrates with
  | none => exact .next _
  | some row => exact .ite (.next _) (.next _)

theorem execPowerGood_answers (s : State) : Answers (execPowerGood s) := by
  unfold execPowerGood
  cases s.boot <;> exact .next _

theorem execThermalTrip_answers (s : State) : Answers (execThermalTrip s) := by
  unfold execThermalTrip
  cases s.boot <;> exact .next _

theorem execFlashUpdateCommand_answers (slot : Nat) (img : FlashImage) (s : State) : Answers (execFlashUpdateCommand slot img s) := by
  unfold execFlashUpdateCommand
  cases s.boot with
  | off => exact .next _
  | booting k | recovery k | ready => exact .ite (.next _) (.next _)

theorem execConfigurationRequest_answers (fn reg : Nat) (s : State) : Answers (execConfigurationRequest fn reg s) := by
  unfold execConfigurationRequest
  cases s.boot <;> exact .next _

theorem execApplicationCoreAccess_answers (op : AppOp) (s : State) : Answers (execApplicationCoreAccess op s) := by
  unfold execApplicationCoreAccess
  cases op with
  | load | store =>
    refine .ite (.next _) ?_
    split <;> exact .next _
  | launch vd q va => exact .next _

/-! ### Packets (R323 to R332) -/

theorem execAtomic_answers (p : Packet) (s : State) : Answers (execAtomic p s) := by
  unfold execAtomic
  cases p.op with
  | atom => exact atHome_answers _ _ _ _ _
  | none | upd => exact receive_answers _ _ _ _

theorem execUpdate_answers (p : Packet) (s : State) : Answers (execUpdate p s) := by
  unfold execUpdate
  cases p.op with
  | upd => exact atHome_answers _ _ _ _ _
  | none | atom => exact receive_answers _ _ _ _

/-! ### Every instruction and every event -/

/-- By the shape of each meaning: a Soras instruction issues, a Melwen instruction runs through its rank, a command or packet
through its port, and each branch of an event ends in a next state. -/
theorem exec_answers (i : Instr) (s : State) : Answers (exec i s) := by
  unfold exec
  cases i with
  | add | sub | and | or | xor | andn | orn | shl | shr | sar | rol | ror | mul | mulh | mulhu | div | divu | rem | remu | min
    | max | minu | maxu | ceq | cne | clt | cltu | cle | cleu | clz | ctz | popc | brev | bswap | addi | andi | ori | xori | shli
    | shri | sari | roli | ceqi | clti | cltui | sel | mov | bfx | bfi | ldk | ldkh | adpc | padd | padde | pfmt | pset | paddi
    | pgetf | pgetb | pgeta | psube | pstr | br | jmp | call | loop | rep | jmpi | calli | ret =>
    exact issue_answers _ _ _ _
  | hstat | pstat | start | halt | joinh | yield | saveh | loadh | resumeh | killh | upret | nop | trap | eret | gets | puts
    | fence | ifence | waita | brk | sleepr | tinv | pbind | pdrain | pord | bar | bara | barw | elect | gidx | gsize =>
    exact issue_answers _ _ _ _
  | ld | st | ldl | ldlAcq | stl | stlRel | stf | ste | ldf | ldfe | ldx | stx | pref | atomFadd | atomFand | atomFor | atomFxor
    | atomFmin | atomFmax | atomFminu | atomFmaxu | atomSwap | atomCas | updAdd | updMin | updMax | updAmax | updAnd | updOr | updXor =>
    exact issue_answers _ _ _ _
  | vadd | vsub | vmul | vmin | vmax | vminu | vmaxu | vand | vor | vxor | vshl | vshr | vsar | vceq | vclt | vcltu | vfadd
    | vfsub | vfmul | vfma | vfmin | vfmax | vfabs | vfneg | vfceq | vfclt | vfcle | vfrnd | vfscl | vfcls | vsplat | vins | vshuf
    | vrev | vzip | vunz | vsumh | vmaxh | vamaxh | vsel | vabs | vcvt | vcvts | fadd | fsub | fmul | fmin | fmax | fabs | fceq | fclt
    | fcle | fcvti | fcvtf | fcvtw | frcp | frsq | fsqrt | fexp2 | flog2 | fsinp | fcosp | ftanh | ferf | vext | vdot4 | vmov =>
    exact issue_answers _ _ _ _
  | zltq | zltf | zfloor | rndw | rndv | zlen | zbits | zdraw | zltz | zext | zmov | zld | zst | sbind | sfree | sgen =>
    exact issue_answers _ _ _ _
  | csetg | msetg | cgetg | mgetg | mma | mldc | mstc | mzero | coll | rkovl | rkrun | rksig | rkstop | cpy | glaunch | gquery
    | mcommit | mwait | cquery | cabort | rkstat | dwait | dstat =>
    exact issue_answers _ _ _ _
  | fflag st a b => exact execFflag_answers st a b s
  | ldv st w d b q o => exact execLdv_answers st w d b q o s
  | stv st w d b q o => exact execStv_answers st w d b q o s
  | sli | slih | saddi | cset | cstride | mwVfma | vscl | mwVcvt | vspl | kclr | kadd | krnd => exact rankStep_answers _ _ _
  | sadd | ssub | sand | sor | sxor | sshl | sshr | smul | sclt => exact scalarOp_answers _ _ _ _ _
  | sbz | sbnz | sj | sloop => exact branch_answers _ _ _ _
  | cnext | vld | vst | kanc | cbegin | cend | msgo | msgi | ovsw | mwHalt => exact rankIssue_answers _ _
  | mwVadd | mwVsub | mwVmul | mwVmax | mwVmin => exact laneOp_answers _ _ _ _ _ _ _ _
  | cshift | cxpose | ca2a | cred | crsc | cgath | cbcast => exact builtIn_answers _ _ _ _ _ _ _ _ _
  | cbar x g => exact execCbar_answers x g s
  | create | stop | resume | teardown | keygen | keykill | reset =>
    exact vdOp_answers _ _ _ _ _
  | attach | detach | debugHalt | debugResume | debugStep | debugRead | debugWrite =>
    exact debugOp_answers _ _ _
  | getVersion | getCapabilities | negotiateAlgorithms | getDigests | getCertificate | challenge | getMeasurements | keyExchange
    | finish | endSession =>
    exact spdmOp_answers _ _ _
  | read | write =>
    exact atHome_answers _ _ _ _ _
  | readResp | atomicResp => exact valueArrives_answers _ _
  | ack | nack | step | stepRed | stepRes | keepalive =>
    exact receive_answers _ _ _ _
  | resultDelivery | pageWalk | translationAck | dupRevocation | pagerReply | upcallDelivery | pagerNotice | waitaReread
    | memberLoss | collDeadline | launchDoorbell | permissionEntryWrite | windowEntryWrite | rankEnableMapWrite | registerWrite
    | linkPortWake | spareSubstitution | keepaliveSend | packageLoss | homeAcknowledgement | powerLoss | engineCommandStart
    | cpyCompletion | muCommandStart | mxCommandComplete =>
    exact .next _
  | instructionFetchReturn | rankCheckTimer | bankReturn | bankRefresh | channelPowerDown | channelWake | hostApertureAccess
    | preemption | wake | almanacWrite | powerManagerAdjust | deviceDma | drainTimeout | linkKeyReplacement =>
    exact .ite (.next _) (.next _)
  | patrolScrub =>
    exact .ite (.next _) (.ite (.next _) (.next _))
  | faultRingEntry vd => exact execFaultRingEntry_answers vd s
  | pagerAnswer vd n => exact execPagerAnswer_answers vd n s
  | tinvComplete core ctx => exact execTinvComplete_answers core ctx s
  | portWordArrival n => exact execPortWordArrival_answers n s
  | sfuRequestComplete core => exact execSfuRequestComplete_answers core s
  | commandRingDispatch vd n => exact execCommandRingDispatch_answers vd n s
  | courseOpen id => exact execCourseOpen_answers id s
  | memberReady id member => exact execMemberReady_answers id member s
  | keystone id => exact execKeystone_answers id s
  | courseCancel id => exact execCourseCancel_answers id s
  | keystoneInvalidationDone id => exact execKeystoneInvalidationDone_answers id s
  | courseTimeout id => exact execCourseTimeout_answers id s
  | collCompletion vd n => exact execCollCompletion_answers vd n s
  | rkovlCompletion vd n => exact execRkovlCompletion_answers vd n s
  | rkrunCompletion vd n => exact execRkrunCompletion_answers vd n s
  | rksigMailboxDelivery rank => exact execRksigMailboxDelivery_answers rank s
  | cbarTimeout rank => exact execCbarTimeout_answers rank s
  | outsideAccessArrival rank row col wr len data => exact execOutsideAccessArrival_answers rank row col wr len data s
  | launchStart vd q => exact execLaunchStart_answers vd q s
  | terminationSweep vd q node => exact execTerminationSweep_answers vd q node s
  | rankNodeEnd vd q node => exact execRankNodeEnd_answers vd q node s
  | coreResumption vd origin core => exact execCoreResumption_answers vd origin core s
  | equinoxStop vd => exact execEquinoxStop_answers vd s
  | vigilCollapse vd => exact execVigilCollapse_answers vd s
  | uncorrectableError e => exact execUncorrectableError_answers e s
  | bankMigration rank => exact execBankMigration_answers rank s
  | powerGood => exact execPowerGood_answers s
  | thermalTrip => exact execThermalTrip_answers s
  | pbindAcknowledgement core ctx => exact execPbindAcknowledgement_answers core ctx s
  | applicationCoreAccess op => exact execApplicationCoreAccess_answers op s
  | flashUpdateCommand slot img => exact execFlashUpdateCommand_answers slot img s
  | configurationRequest fn reg => exact execConfigurationRequest_answers fn reg s
  | atomic p => exact execAtomic_answers p s
  | update p => exact execUpdate_answers p s

/-! ### Turns (R10, R28, R92, R99, R189, R285; log 3) -/

/-- The core or rank whose turn it is, if it is one's, is one that R10 numbers (log 55: pager cores are 4,096 to 4,223). -/
def Turn.Numbered : Turn → Prop
  | .core c | .idle c => c < 4224
  | .rank r => r < 8192
  | _ => True

/-- A word that no instruction owns takes its trap; any other issues. -/
theorem runWord_answers (w : Word) (s : State) : Answers (runWord w s) := by
  unfold runWord
  cases decodeSoras w with
  | ok i => exact exec_answers i s
  | error e => exact .next _

theorem tryContext_answers (c x : Nat) (s : State) : Answers (tryContext c x s) := by
  dsimp only [tryContext]
  cases (actAs c x s).me.mchkDue with
  | some a => exact .next _
  | none =>
    cases nextWord (actAs c x s) with
    | error e => exact .next _
    | ok r => exact runWord_answers _ _

/-- A context that turns out to wait leaves the cycle to the rest of the list. -/
theorem tryContexts_answers (c : Nat) (upslot : Bool) (l : List Nat) (s : State) : Answers (tryContexts c upslot l s) := by
  induction l generalizing upslot s with
  | nil => exact .next s
  | cons x r ih =>
    unfold tryContexts
    refine .ite ?_ (ih false s)
    obtain ⟨t, ht⟩ := tryContext_answers c x s
    rw [ht]
    exact .ite (.next _) (ih false t)

theorem Answers.endCycle {o : Out} (h : Answers o) (c : Nat) (s : State) : Answers (endCycle c s o) := by
  obtain ⟨t, rfl⟩ := h
  exact .next _

theorem Answers.endTurn {o : Out} (h : Answers o) : Answers (endTurn o) := by
  obtain ⟨t, rfl⟩ := h
  exact .next _

theorem coreTurn_answers (c : Nat) (s : State) : Answers (coreTurn c s) :=
  .ite (.next _) ((tryContexts_answers _ _ _ _).endCycle _ _)

theorem rankTurn_answers (r : Nat) (s : State) : Answers (rankTurn r s) := by
  unfold rankTurn
  refine .ite (.next _) (.ite (.next _) (.ite (.next _) (.ite (.next _) ?_)))
  cases decodeMelwen (s.rank r).word with
  | ok i => exact exec_answers i _
  | error e => exact .next _

/-- Only the check that the core or rank is one that R10 numbers stops a turn (noSuchAgent). -/
theorem takeTurn_answers {t : Turn} (h : t.Numbered) (s : State) : Answers (takeTurn t s) := by
  cases t with
  | core c =>
    rw [takeTurn, if_neg (Nat.not_le.mpr h)]
    exact .ite (coreTurn_answers c s).endTurn (.next s)
  | rank r =>
    rw [takeTurn, if_neg (Nat.not_le.mpr h)]
    exact .ite (rankTurn_answers r s).endTurn (.next s)
  | event i => exact .ite (exec_answers i s).endTurn (.next s)
  | idle c =>
    rw [takeTurn, if_neg (Nat.not_le.mpr h)]
    exact .next _
  | pass | evict | far | corrected | failed | result | manage | msix => exact .next _

/-- Settles O51: whoever has the turn, the first of the agenda or the core that issued last, R10 numbers it. -/
theorem nothingStops : Obligations.NothingStops := by
  refine ⟨exec_answers, fun s hcore hrank hlast => ?_⟩
  cases ha : s.agenda with
  | nil =>
    rw [step, ha]
    exact takeTurn_answers (t := .core s.cur.core) (hlast ha) s
  | cons t l =>
    rw [step, ha]
    refine takeTurn_answers ?_ _
    cases t with
    | core c => exact hcore c l (.inl ha)
    | idle c => exact hcore c l (.inr ha)
    | rank r => exact hrank r l ha
    | event | pass | evict | far | corrected | failed | result | manage | msix => trivial

/-- The state after reset meets the hypotheses: no entry of its agenda, and core 0 has the turn. -/
theorem reset_goes : State.reset.Goes :=
  nothingStops.2 State.reset (fun _ _ h => h.elim nofun nofun) (fun _ _ h => nomatch h) (fun _ => by decide)

end Sys2Proof.Machine
end

section
/-! PROOFS. The special registers: GETS and PUTS (O9). -/

namespace Sys2Proof.Machine

@[simp] theorem updMe_myVd (s : State) (f : Context → Context) : (s.updMe f).myVd = s.myVd := by
  simp only [State.myVd, State.vd, here_updMe, State.updMe_vds]

@[simp] theorem updMe_now (s : State) (f : Context → Context) : (s.updMe f).now = s.now := by
  simp only [State.now, here_updMe]

theorem me_updHere (s : State) {f : Core → Core} (hf : (f s.here).ctxs = s.here.ctxs) : (s.updHere f).me = s.me := by
  show (s.updHere f).here.ctxs[s.cur.ctx] = _
  rw [here_updHere, hf]
  rfl

/-- The special registers 0 to 27 as GETS delivers them (R33). -/
def State.specials (s : State) : List W64 := (List.range 28).map s.sreg

theorem specials_eq (s : State) : s.specials =
    [BitVec.ofNat 64 s.cur.core, BitVec.ofNat 64 s.cur.ctx.val, s.time, BitVec.ofNat 64 s.now, s.me.mode, s.me.flags, s.here.upv,
      s.here.upc, s.me.srh, s.me.sro, s.me.reply, s.here.feat, BitVec.ofNat 64 s.here.vd, (s.me.as[0]).signExtend 64,
      (s.me.as[1]).signExtend 64, (s.me.as[2]).signExtend 64, (s.me.as[3]).signExtend 64, s.me.btail.read s.now,
      (s.me.vtail.read s.now).extractLsb' 0 64, (s.me.vtail.read s.now).extractLsb' 64 64, 0, 0, 0, 0, s.me.epc, s.me.cause,
      s.me.tval, s.here.mxw] := rfl

theorem sreg_of_ge (s : State) {n : Nat} (h : 28 ≤ n) : s.sreg n = 0 := by
  unfold State.sreg
  split
  case h_25 => rfl
  all_goals omega

theorem sreg_eq_getD (s : State) (n : Nat) : s.sreg n = s.specials.getD n 0 := by
  rcases Nat.lt_or_ge n 28 with h | h
  · simp [State.specials, List.getD, h]
  · simp [State.specials, List.getD, h, sreg_of_ge s h]

/-- What PUTS leaves in special register n: its writable bits (R33, R36, R96, R105). -/
def writtenSpecial (n : Nat) (v : W64) : W64 :=
  match n with
  | 4 => v &&& 0x3F
  | 5 => v &&& 0x1F
  | 6 => v &&& 0xFFFFFFFFFFFFFFFC
  | 7 => v &&& 1
  | 8 => v &&& 0xF
  | 13 | 14 | 15 | 16 => (v.setWidth 32).signExtend 64
  | 25 => v &&& 0x80000000000000FF
  | 27 => if v &&& 0xF = 0 then 1 else v &&& 0xF
  | _ => v

/-- A special register that PUTS may write (R33). -/
def writableSpecial (n : Nat) : Bool := !sregReserved n && !sregReadOnly n

theorem writableSpecial_iff (n : Nat) :
    writableSpecial n = true ↔ (4 ≤ n ∧ n ≤ 9) ∨ (13 ≤ n ∧ n ≤ 16) ∨ (24 ≤ n ∧ n ≤ 27) := by
  simp only [writableSpecial, sregReserved, sregReadOnly, Bool.and_eq_true, Bool.not_eq_true', Bool.or_eq_false_iff,
    Bool.and_eq_false_iff, decide_eq_false_iff_not]
  omega

theorem putSreg_of_not_writable {m : Nat} (h : writableSpecial m = false) (v : W64) (s : State) : putSreg m v s = s := by
  unfold putSreg
  split
  case h_15 => rfl
  all_goals cases h

/-- PUTS sets the entry of its register among the special registers. -/
theorem specials_putSreg {m : Nat} (h : writableSpecial m = true) (v : W64) (s : State) :
    (putSreg m v s).specials = s.specials.set m (writtenSpecial m v) := by
  unfold putSreg
  split
  case h_3 | h_4 | h_14 =>
    simp only [specials_eq, here_updHere, me_updHere, State.time, State.myVd, State.vd, State.now, State.updHere_cur, State.updHere_vds,
      State.updHere_ring, List.set, writtenSpecial]
  case h_15 =>
    simp only [writableSpecial_iff, imp_false] at *
    omega
  all_goals
    simp only [specials_eq, me_updMe, State.time, State.myVd, State.vd, State.now, here_updMe, List.set, State.updMe_cur, State.updMe_vds,
      State.updMe_ring, writtenSpecial, Vector.getElem_set, reduceIte, OfNat.ofNat_ne_zero, Nat.reduceEqDiff, one_ne_zero, zero_ne_one, OfNat.zero_ne_ofNat]

theorem sreg_putSreg_same {m : Nat} (h : writableSpecial m = true) (s : State) (v : W64) : (putSreg m v s).sreg m = writtenSpecial m v := by
  have hm : m < s.specials.length := by
    rw [writableSpecial_iff] at h
    simp only [specials_eq, List.length_cons, List.length_nil]
    omega
  rw [sreg_eq_getD, specials_putSreg h, List.getD_eq_getElem?_getD, List.getElem?_set_self hm, Option.getD_some]

theorem sreg_putSreg_ne (s : State) (v : W64) {m n : Nat} (h : m ≠ n) : (putSreg m v s).sreg n = s.sreg n := by
  cases hw : writableSpecial m with
  | false => rw [putSreg_of_not_writable hw]
  | true => simp only [sreg_eq_getD, specials_putSreg hw, List.getD_eq_getElem?_getD, List.getElem?_set_ne h]


theorem Context.flagsDue_iff (m : Context) : m.flagsDue = true ↔ ∃ l ∈ m.loads, ∃ p t md ws, l.shape = .lanes p t md ws := by
  simp only [Context.flagsDue, List.any_eq_true]
  refine exists_congr fun l => and_congr_right fun _ => ?_
  cases l.shape <;> simp

theorem flags_free {a : BitVec 5} {m : Context} (h : a = 5 → ∀ l ∈ m.loads, ¬ ∃ p t md ws, l.shape = .lanes p t md ws) :
    (a == 5 && m.flagsDue) = false := by
  rw [Bool.and_eq_false_imp, beq_iff_eq]
  intro ha
  refine eq_false_of_ne_true fun hd => ?_
  obtain ⟨l, hl, hs⟩ := m.flagsDue_iff.mp hd
  exact h ha l hl hs

theorem tailDue_eq_false {s : State} {a : BitVec 5} (h17 : a = 17 → s.me.btail.pend = [])
    (h18 : a = 18 ∨ a = 19 → s.me.vtail.pend = []) : s.tailDue a.toNat = false := by
  have hcode (n : BitVec 5) : a.toNat = n.toNat ↔ a = n := BitVec.toNat_inj
  have e17 : a.toNat = 17 ↔ a = 17 := hcode 17
  have e18 : a.toNat = 18 ↔ a = 18 := hcode 18
  have e19 : a.toNat = 19 ↔ a = 19 := hcode 19
  simp only [State.tailDue, Bool.or_eq_false_iff, Bool.and_eq_false_imp, beq_iff_eq, Bool.or_eq_true, e17, e18, e19, Cell.settle]
  refine ⟨fun h => by simp [h17 h], fun h => by simp [h18 h]⟩

theorem exec_gets_waits {s : State} {st : BitVec 3} {d a : BitVec 5} (hg : s.Admits (.gets st d a))
    (hw : (s.tailDue a.toNat || (a == 5 && s.me.flagsDue)) = true) : exec (.gets st d a) s = .next (setWait .interlock s) := by
  rw [exec_gets]
  refine issue_of_error (e := .wait .interlock) hg ?_
  rw [M_bind_ok (get_apply s), hw]
  exact M_bind_error (waitIf_true _ s)

theorem exec_gets_delivers {s : State} {st : BitVec 3} {d a : BitVec 5} (hg : s.Admits (.gets st d a))
    (hc : s.Clear [] (some (.int d))) (hw : (s.tailDue a.toNat || (a == 5 && s.me.flagsDue)) = false) :
    exec (.gets st d a) s = .next (retire st.toNat (deliver (.int d) .now [s.sreg a.toNat] s)) := by
  rw [exec_gets]
  refine issue_of_ok hg ?_
  rw [M_bind_ok (get_apply s), hw, M_bind_ok (waitIf_false _ s), M_bind_ok (prepare_of_clear hc rfl)]
  rfl

theorem exec_puts_writes {s : State} {st : BitVec 3} {a b : BitVec 5} (hg : s.Admits (.puts st a b)) (hc : s.Clear [.int b] none)
    (hmode : a = 4 → (arg1 (s.values [.int b]) 0).toNat % 8 < 6) (hw : (a == 5 && s.me.flagsDue) = false) :
    exec (.puts st a b) s =
      .next (retire st.toNat (putSreg a.toNat (arg1 (s.values [.int b]) 0) (consume [.int b] s))) := by
  have hlow : ∀ v : W64, (v &&& 7).toNat = v.toNat % 8 := fun v => by
    rw [BitVec.toNat_and]; exact Nat.and_two_pow_sub_one_eq_mod v.toNat 3
  have hown : ¬ (a = 4 ∧ 6 ≤ (arg1 (s.values [.int b]) 0 &&& 7).toNat) := by
    rw [hlow]
    exact fun ⟨ha, h⟩ => absurd (hmode ha) (by omega)
  rw [exec_puts]
  refine issue_of_ok hg ?_
  rw [M_bind_ok (get_apply s), hw, M_bind_ok (waitIf_false _ s), M_bind_ok (prepare_of_clear hc (if_neg hown))]
  rfl

/-- A stride is kept in 32 bits and read with its sign (R105). -/
theorem stride_read_back (v : W64) : (v.setWidth 32).signExtend 64 = BitVec.ofInt 64 (BitVec.ofNat 32 v.toNat).toInt := rfl

/-- Settles O9: the waits by the branches of GETS and PUTS, the writes by the entry that PUTS sets among the special registers. -/
theorem specialRegisters : Obligations.SpecialRegisters := by
  intro st d a b
  refine ⟨fun s hg hl => ?waits, fun s hg hc ⟨h17, h18, h5⟩ => ?delivers, fun s hg hc ⟨hmode, h5⟩ => ?puts, fun s v => ?same,
    fun s v m n h => sreg_putSreg_ne s v h⟩
  case waits =>
    refine exec_gets_waits hg ?_
    simp [(Context.flagsDue_iff s.me).mpr hl]
  case delivers =>
    refine exec_gets_delivers hg hc ?_
    rw [tailDue_eq_false h17 h18, Bool.false_or, flags_free h5]
  case puts => exact exec_puts_writes hg hc hmode (flags_free h5)
  case same =>
    have hs {m : Nat} (h : writableSpecial m = true) := sreg_putSreg_same h s v
    refine ⟨hs rfl, hs rfl, hs rfl, hs rfl, hs rfl, hs rfl, fun k => ?_, hs rfl, hs rfl, hs rfl, hs rfl⟩
    match k with
    | 0 | 1 | 2 | 3 => exact hs rfl

end Sys2Proof.Machine
end

section
/-! PROOFS. Engine commands, commit groups and dependency slots (O29). -/

namespace Sys2Proof.Machine

/-! ### The room and the slot of a command (R27, R161) -/

theorem regIx_slot (sl : BitVec 3) : regIx sl.toNat = ⟨sl.toNat, sl.isLt⟩ := Fin.ext (Nat.mod_eq_of_lt sl.isLt)

theorem slotFull_of_room {s : State} {sl : BitVec 3} {sb : BitVec 1} (h : sb = 1 → s.me.slots[sl.toNat] ≠ 255) :
    slotFull sl sb s = .ok ((), s) := by
  refine if_neg fun ⟨hb, hf⟩ => h hb ?_
  simp only [regIx_slot] at hf
  exact hf

theorem takeSlot_eq (id : Nat) (sl : BitVec 3) (sb : BitVec 1) (s : State) :
    takeSlot id sl sb s = if sb = 1 then s.updMe (fun c => { c with
      slots := c.slots.set sl.toNat (c.slots[sl.toNat] + 1), open_ := c.open_ ++ [(id, sl.toNat)] }) else s := by
  simp only [takeSlot, regIx_slot]
  rfl

/-! ### The rounding mode of a command (R46, R47) -/

theorem frm_eq_mod (c : Context) : c.frm = c.mode.toNat % 8 := by
  rw [Context.frm, BitVec.toNat_and]
  exact Nat.and_two_pow_sub_one_eq_mod c.mode.toNat 3

theorem engineMode_eq (c : Context) (m : Nat) : engineMode c m = if m = 7 then c.mode.toNat % 8 else m := by
  rw [engineMode, frm_eq_mod]

theorem rsrCands_of_bound {c : Context} {m : Nat} (h : m = 5 → c.srHandle.bound = true) : c.rsrCands m = [] :=
  if_neg fun ⟨hm, hb⟩ => by simp [h hm] at hb

/-- The mode of a CPY: that of its CONVERT field, 0 when it does not convert (R164, R166). -/
theorem cpyMode_eq (c : Context) :
    (if c.cg[8].getLsbD 1 then engineMode c (bits c.cg[8].toNat 5 3) else 0) =
      if c.cg[8].toNat / 2 % 2 = 1 then (if c.cg[8].toNat / 2 ^ 3 % 8 = 7 then c.mode.toNat % 8 else c.cg[8].toNat / 2 ^ 3 % 8)
      else 0 := by
  have hbit : c.cg[8].getLsbD 1 = decide (c.cg[8].toNat / 2 % 2 = 1) := Nat.testBit_eq_decide_div_mod_eq
  rw [hbit, engineMode_eq]
  simp only [decide_eq_true_eq]
  rfl

/-! ### A command enters its queue -/

/-- The state in which a CPY has entered the queue of its copy engine. -/
def cpyQueued (a b : BitVec 5) (w : BitVec 8) (sl : BitVec 3) (sb : BitVec 1) (m : Nat) (s : State) : State :=
  let vs := s.values [.int a, .int b]
  let e := engCmd s (.cpy a b w sl sb) (arg1 vs 0) (arg1 vs 1) w sl sb (s.me.cg.toList.take 13) m
  useWords m (s.me.cg[3].toNat * s.me.cg[4].toNat)
    { takeSlot s.nextId sl sb ((consume [.int a, .int b] s).updHere (fun k => { k with copies := k.copies ++ [e] })) with
      nextId := s.nextId + 1 }

theorem exec_cpy_queued {a b : BitVec 5} {w : BitVec 8} {sl : BitVec 3} {sb : BitVec 1} {m : Nat} {s : State}
    (hm : (if s.me.cg[8].getLsbD 1 then engineMode s.me (bits s.me.cg[8].toNat 5 3) else 0) = m)
    (hg : s.Admits (.cpy a b w sl sb)) (hc : s.Clear [.int a, .int b] none) (hroom : sb = 1 → s.me.slots[sl.toNat] ≠ 255)
    (hq : queued s.here.copies < 8) (hb : m = 5 → s.me.srHandle.bound = true) :
    exec (.cpy a b w sl sb) s = .next (retire 0 (cpyQueued a b w sl sb m s)) := by
  subst hm
  rw [exec_cpy]
  refine issue_of_ok hg ?_
  rw [M_bind_ok (slotFull_of_room hroom), M_bind_ok (get_apply s), decide_eq_false (by omega), M_bind_ok (waitIf_false _ s),
    M_bind_ok (prepare_of_clear hc (rsrCands_of_bound hb))]
  rfl

/-- The state in which a tile command has entered the queue of its matrix unit and the open group. -/
def tileQueued (i : Instr) (os : List Opnd) (w : BitVec 8) (sl : BitVec 3) (sb : BitVec 1) (m : Nat) (s : State) : State :=
  let vs := s.values os
  let e := engCmd s i (arg1 vs 0) (arg1 vs 1) w sl sb s.me.mg.toList m
  useWords m 1024
    { (takeSlot s.nextId sl sb ((consume os s).updHere (fun k => { k with mx := k.mx ++ [e] }))).updMe
        (fun c => { c with grpNow := { c.grpNow with left := c.grpNow.left + 1 } }) with nextId := s.nextId + 1 }

theorem mxOp_queued {i : Instr} {os : List Opnd} {w : BitVec 8} {sl : BitVec 3} {sb : BitVec 1} {mode : Context → W64 → Nat} {m : Nat}
    {s : State} (hm : mode s.me (arg1 (s.values os) 1) = m) (hg : s.Admits i) (hc : s.Clear os none)
    (hroom : sb = 1 → s.me.slots[sl.toNat] ≠ 255) (hq : queued s.here.mx < 8) (hb : m = 5 → s.me.srHandle.bound = true) :
    mxOp i os w sl sb mode s = .next (retire 0 (tileQueued i os w sl sb m s)) := by
  subst hm
  refine issue_of_ok hg ?_
  rw [M_bind_ok (slotFull_of_room hroom), M_bind_ok (get_apply s), decide_eq_false (by omega), M_bind_ok (waitIf_false _ s),
    M_bind_ok (prepare_of_clear hc (rsrCands_of_bound hb))]
  rfl

/-! ### Groups and slots (R176, R187) -/

theorem exec_mcommit_closes {s : State} (hg : s.Admits .mcommit) (h : s.me.groups.length < 8) :
    exec .mcommit s = .next (retire 0 (s.updMe (fun c =>
      { c with groups := c.groups ++ [c.grpNow], grpNow := ⟨c.grpNow.id + 1, 0, 0⟩ }.settleGroups))) := by
  rw [exec_mcommit]
  refine issue_of_ok hg ?_
  rw [M_bind_ok (get_apply s), decide_eq_false (by omega), M_bind_ok (waitIf_false _ s)]
  rfl

theorem exec_mwait_reports {s : State} {a : BitVec 5} (hg : s.Admits (.mwait a)) (hc : s.Clear [.int a] (some (.int 0)))
    (h : s.me.groups.length ≤ (arg1 (s.values [.int a]) 0).toNat) :
    exec (.mwait a) s = .next (retire 0 (deliver (.int 0) .now [s.me.unrep.zeroExtend 64]
      ((consume [.int a] s).updMe (fun c => { c with unrep := 0 })))) := by
  rw [exec_mwait]
  refine issue_of_ok hg ?_
  rw [M_bind_ok (prepare_of_clear hc rfl), M_bind_ok (get_apply s), decide_eq_false (by omega), M_bind_ok (waitIf_false _ s)]
  rfl

theorem exec_dwait_passes {s : State} {w : BitVec 8} (hg : s.Admits (.dwait w))
    (h : ∀ k : Fin 8, w.getLsbD k = true → s.me.slots[k] = 0) : exec (.dwait w) s = .next (retire 0 s) := by
  have hz : (List.range 8).any (fun k => w.getLsbD k && s.me.slots[regIx k] != 0) = false := by
    rw [List.any_eq_false]
    intro k hk hbad
    have hk8 : k < 8 := List.mem_range.mp hk
    obtain ⟨hw, hslot⟩ := (Bool.and_eq_true _ _).mp hbad
    simp only [show regIx k = ⟨k, hk8⟩ from Fin.ext (Nat.mod_eq_of_lt hk8), bne_iff_ne] at hslot
    exact hslot (h ⟨k, hk8⟩ hw)
  rw [exec_dwait]
  refine issue_of_ok hg ?_
  rw [M_bind_ok (get_apply s), hz]
  rfl

theorem ofBytes_eq_sum (l : List Byte) :
    ofBytes l = ((List.range l.length).map (fun k => (l.getD k 0).toNat * 256 ^ k)).sum := by
  induction l with
  | nil => rfl
  | cons b r ih =>
    rw [ofBytes, ih, List.length_cons, List.range_succ_eq_map, List.map_cons, List.map_map, List.sum_cons, ← List.sum_map_mul_left]
    congr 2
    · simp
    · refine List.map_congr_left fun k _ => ?_
      simp only [Function.comp_apply, List.getD_cons_succ, pow_succ]
      ring

/-- Slot k stands in byte k of the word that DSTAT delivers. -/
theorem slotWord_eq_sum (c : Context) :
    slotWord c = BitVec.ofNat 64 ((List.range 8).map (fun k => (c.slots.toList.getD k 0).toNat * 256 ^ k)).sum := by
  rw [slotWord, ofBytes_eq_sum, Vector.length_toList]

theorem exec_dstat_delivers {s : State} (hg : s.Admits .dstat) (hc : s.Clear [] (some (.int 0))) :
    exec .dstat s = .next (retire 0 (deliver (.int 0) .now [slotWord s.me] s)) := by
  rw [exec_dstat]
  exact prepared_completes hg hc rfl

/-- Settles O29: each command by the state in which it has entered its queue. -/
theorem engineCommands : Obligations.EngineCommands := by
  constructor
  · intro a b w sl sb
    refine ⟨fun s hg hc ⟨hroom, hq, hb⟩ => ?cpy, fun s hg hc ⟨hroom, hq, hb⟩ => ?mma, fun s hg hc ⟨hroom, hq, hb⟩ => ?mldc,
      fun s hg hc ⟨hroom, hq, hb⟩ => ?mzero, fun s hg hc ⟨hroom, hq, hb⟩ => ?mstc⟩
    case cpy =>
      rw [exec_cpy_queued (cpyMode_eq s.me) hg hc hroom hq hb, cpyQueued, takeSlot_eq]
      rfl
    case mma =>
      rw [exec_mma, execMma, mxOp_queued rfl hg hc hroom hq hb, tileQueued, takeSlot_eq]
      rfl
    case mldc =>
      rw [exec_mldc, execMldc, mxOp_queued rfl hg hc hroom hq hb, tileQueued, takeSlot_eq]
      rfl
    case mzero =>
      rw [exec_mzero, execMzero, mxOp_queued rfl hg hc hroom hq hb, tileQueued, takeSlot_eq]
      rfl
    case mstc =>
      have hmode : (if s.me.mg[8] = 0x1F then 0 else engineMode s.me (bits (arg1 (s.values [.int a, .int b]) 1).toNat 4 2)) = _ :=
        if_congr Iff.rfl rfl (engineMode_eq s.me _)
      rw [exec_mstc, execMstc, mxOp_queued hmode hg hc hroom hq hb, tileQueued, takeSlot_eq]
      rfl
  · intro a w
    refine ⟨fun s hg _ h => exec_mcommit_closes hg h, fun s hg hc h => exec_mwait_reports hg hc h,
      fun s hg _ h => exec_dwait_passes hg h, fun s hg hc _ => ?_⟩
    rw [exec_dstat_delivers hg hc, slotWord_eq_sum]

end Sys2Proof.Machine
end

section
/-! PROOFS. Events that reach a context or a core (O38). -/

namespace Sys2Proof.Machine

/-! ### The spill queues stay the same

A write of the device touches banks, caches and waits; of a VD it changes only that a watched line has woken it (R338). -/

/-- Every VD's spill queues are as they were. -/
def KeepsSpill (s t : State) : Prop := ∀ v, (t.vd v).spill = (s.vd v).spill

theorem KeepsSpill.refl (s : State) : KeepsSpill s s := fun _ => rfl

theorem KeepsSpill.trans {s t u : State} (h : KeepsSpill s t) (g : KeepsSpill t u) : KeepsSpill s u := fun v => (g v).trans (h v)

theorem KeepsSpill.of_vds {s t : State} (h : t.vds = s.vds) : KeepsSpill s t := fun v => by simp only [State.vd, h]

theorem KeepsSpill.foldl {α : Type} {f : State → α → State} (hf : ∀ s a, KeepsSpill s (f s a)) (l : List α) (s : State) :
    KeepsSpill s (l.foldl f s) := by
  induction l generalizing s with
  | nil => exact .refl s
  | cons a r ih => exact (hf s a).trans (ih (f s a))

theorem wakeLines_keepsSpill (s : State) (lines : List Nat) : KeepsSpill s (s.wakeLines lines) := by
  let wake (v : Vd) : Vd :=
    if (v.state == .vigil || v.state == .stoppedVigil) && v.watches.any (fun w => lines.contains w.line) then { v with woken := true } else v
  have hwake (v : Vd) : (wake v).spill = v.spill := by
    dsimp only [wake]
    split <;> rfl
  have hvds : (s.wakeLines lines).vds = s.vds.map (fun e => (e.1, wake e.2)) := by
    refine List.map_congr_left fun e _ => ?_
    dsimp only [wake]
    split <;> rfl
  intro v
  rw [State.vd, State.vd, hvds, lookup_map wake v s.vds]
  cases lookup v s.vds with
  | none => rfl
  | some x => exact hwake x

theorem wrote_keepsSpill (s : State) (ps : List Place) (keep : Option (Nat × L1Line)) (row : Place → Nat) :
    KeepsSpill s (s.wrote ps keep row) := by
  have hsound (t : State) (cells : List Nat) : KeepsSpill t (t.soundAgain cells) := by
    unfold State.soundAgain
    split
    · exact .refl t
    · exact .of_vds rfl
  have hdrop (t : State) (keys : List Nat) : KeepsSpill t (t.dropLines keys keep) := by
    unfold State.dropLines
    split
    · exact .refl t
    · exact .of_vds rfl
  exact ((hsound s _).trans (wakeLines_keepsSpill _ _)).trans (hdrop _ _)

theorem writeRun_keepsSpill (s : State) (run : Place × List Byte) : KeepsSpill s (s.writeRun run) := by
  unfold State.writeRun
  split
  · exact .of_vds rfl
  · refine .foldl (fun _ _ => ?_) _ s
    exact .of_vds rfl

theorem writePlaces_keepsSpill (s : State) (ps : List (Place × Byte)) (keep : Option (Nat × L1Line)) :
    KeepsSpill s (s.writePlaces ps keep) :=
  (KeepsSpill.foldl writeRun_keepsSpill _ s).trans (wrote_keepsSpill _ _ _ _)

theorem wakeBanks_keepsSpill (s : State) (ps : List Place) : KeepsSpill s (s.wakeBanks ps) := by
  have hchannel (t : State) (ch : Nat) : KeepsSpill t (wakeChannel ch t) := by
    refine (KeepsSpill.of_vds (t := { t with asleep := t.asleep.filter (· != ch) }) rfl).trans (.foldl (fun u r => ?_) _ _)
    split
    · exact .of_vds rfl
    · exact .refl u
  unfold State.wakeBanks
  split
  · exact .refl s
  · exact .foldl hchannel _ s

theorem devWrite_keepsSpill (s : State) (pa : Nat) (bs : List Byte) : KeepsSpill s (s.devWrite pa bs) := by
  have hrun (ident : Nat) (t : State) (r : Place × List Byte) : KeepsSpill t (t.devRun ident r) := by
    unfold State.devRun
    dsimp only
    split
    · exact .of_vds rfl
    · split
      · exact .refl t
      · exact writePlaces_keepsSpill t _ _
  exact ((wakeBanks_keepsSpill s _).trans (.of_vds rfl)).trans (.foldl (fun t r => hrun t.nextId t r) _ _)

/-- A diverted word stands last in the spill queue of its origin (R297, R300). -/
theorem divert_spill (vd : Nat) (m : PortMsg) (s : State) :
    ((divert vd m s).vd vd).spill = put m.dst.core (((lookup m.dst.core (s.vd vd).spill).getD []) ++ [m]) (s.vd vd).spill := by
  rw [divert, vd_updVd]
  dsimp only
  rw [devWrite_keepsSpill s _ _ vd]

/-! ### A result that its producer delivers (R29, R38) -/

/-- The cells of a context when producer `tag` delivers two words in cycle t. -/
def Context.landed (t tag : Nat) (ws : List W64) (c : Context) : Context :=
  { c with
    belt := c.belt.map (·.landParts t tag ws), btail := c.btail.landParts t tag ws
    vbelt := c.vbelt.map (·.landParts t tag (pairs ws)), vtail := c.vtail.landParts t tag (pairs ws)
    n := c.n.map (·.landParts t tag ws), a := c.a.map (·.landParts t tag ws) }

/-- A producer whose result goes through no pointer and to no port changes the cells of its context alone. -/
theorem deliverTag_cells {s : State} {tag : Nat} {ws : List W64}
    (hspm : ∀ w ∈ s.here.spmDue, ¬ (w.ctx = s.cur.ctx.val ∧ w.due = none ∧ w.tag = tag)) (hport : ∀ p ∈ s.inflight, p.due ≠ some tag) :
    deliverTag tag ws s = s.updMe (Context.landed s.now tag ws) := by
  have hfind : s.here.spmDue.find? (fun w => w.ctx == s.cur.ctx.val && w.due.isNone && w.tag == tag) = none := by
    refine List.find?_eq_none.mpr fun w hw hmine => hspm w hw ?_
    simpa [and_assoc] using hmine
  have hmsg : s.inflight.find? (fun m => m.due == some tag) = none :=
    List.find?_eq_none.mpr fun p hp h => hport p hp (by simpa using h)
  unfold deliverTag
  simp only [hfind, hmsg]
  rfl

/-! ### A word arrives at a port (R153, R281, R300) -/

theorem exec_portWordArrival_first {s : State} {n : Nat} {msg : PortMsg} (hn : s.inflight[n]? = some msg)
    (hfirst : firstOfPort s.inflight n = true) : exec (.portWordArrival n) s =
      let s1 : State := { s with inflight := s.inflight.eraseIdx n }
      let c := s.route msg.dst.core
      let k := s.core c
      if s.diverts msg.dst.core then
        if 8192 < ((((lookup msg.dst.core (s.vd k.vd).spill).getD []).map (·.words.length)).sum) + msg.words.length then .next s
        else .next ((if msg.node.isSome then countSaved k.vd msg.dst.core else id) (divert k.vd msg s1))
      else
        let p := (k.ctx msg.dst.ctx).ports[ptrIx msg.dst.port]
        let s2 := s1.updCore c (fun x => if msg.node.isSome then { x with rcvd := x.rcvd + 1 } else x)
        if p.dest.isNone then .next s2
        else if 16 < p.queue.length + msg.words.length then .next s
        else .next (s2.updCore c (setPort msg.dst.ctx msg.dst.port { p with queue := p.queue ++ msg.words })) := by
  rw [exec_portWordArrival, execPortWordArrival]
  simp only [hn, hfirst, Bool.not_true, Bool.false_eq_true, if_false]

/-- R300: words to a core that is pre-empted, stopped or asleep are diverted. -/
theorem diverts_of_mode {s : State} {origin : Nat} (h : (s.core (s.route origin)).mode = .preempted ∨
    (s.core (s.route origin)).mode = .stopped ∨ (s.core (s.route origin)).mode = .asleep) : s.diverts origin = true := by
  simp only [State.route] at h
  rcases h with h | h | h <;> simp [State.diverts, h]

/-! ### A PBIND is acknowledged (R151) -/

/-- The change of the context that waits leaves every port of its core as it was. -/
theorem ports_updCtx_pbind (s : State) (c x y : Nat) :
    (((s.updCtx c x (fun m => { m with pbind := none })).core c).ctx y).ports = ((s.core c).ctx y).ports := by
  rw [State.updCtx, core_updCore, Core.ctx_setCtx]
  split
  · next h => simp only [Core.ctx, h]
  · rfl

theorem exec_pbindAcknowledgement_binds {s : State} {c x p y : Nat} {d : PortDest} (hb : (s.ctx c x).pbind = some (p, y))
    (hd : (((s.core c).ctx y).ports[ptrIx p]).dest = some d) : exec (.pbindAcknowledgement c x) s =
      .next (bindBack d ⟨(s.core c).origin, y, p⟩ (s.updCtx c x (fun k => { k with pbind := none }))) := by
  rw [← ports_updCtx_pbind s c x y] at hd
  rw [exec_pbindAcknowledgement, execPbindAcknowledgement, hb]
  simp only [hd]

/-- Settles O38, event by event: what each finds at its context decides the branch it takes. -/
theorem coreEvents : Obligations.CoreEvents := by
  intro s c x
  refine ⟨exec_resultDelivery c x s, fun hlive hpf hc hx w t hw => ?fetch, exec_translationAck c x s, exec_waitaReread c x s,
    exec_homeAcknowledgement c x s, fun p y d hb hx hy hd => ?bound, fun q r hq hdead => ?dead, fun q r hq hdead => ?sfu,
    fun tag ws hspm hport hlen => ?delivered, fun n msg hn hfirst => ⟨fun hdiv hp => ?unbound, fun hdiv hp hroom => ?queued,
      fun hdiv hroom => ?diverted, divert_spill _ _ _, fun hmode => ?diverts⟩⟩
  case fetch =>
    have hgo : ¬ ((s.ctx c x).status ≠ .live ∨ (s.ctx c x).pfault.isSome ∨ 4224 ≤ c ∨ 10 < x) := by
      simp only [hlive, hpf, ne_eq, not_true_eq_false, Option.isSome_none, Bool.false_eq_true, false_or, not_or, not_le, not_lt]
      exact ⟨hc, hx⟩
    rw [exec_instructionFetchReturn, execInstructionFetchReturn, if_neg hgo, asContext, hw]
  case bound => exact exec_pbindAcknowledgement_binds hb hd
  case dead =>
    rw [exec_sfuRequestComplete, execSfuRequestComplete, hq]
    exact congrArg Host.Outcome.next (if_pos hdead)
  case sfu =>
    rw [exec_sfuRequestComplete, execSfuRequestComplete, hq]
    exact congrArg Host.Outcome.next (if_neg (by simp [hdead]))
  case delivered =>
    obtain ⟨v, w, rfl⟩ := List.length_eq_two.mp hlen
    have ht := deliverTag_cells (ws := [v, w]) hspm hport
    have hme := (congrArg State.me ht).trans (me_updMe s _)
    refine ⟨congrArg Context.vbelt hme, congrArg Context.vtail hme, fun j => ?_, ?_, ?_⟩
    · exact (congrArg (fun m : Context => m.n[j]) hme).trans (Vector.getElem_map _ j.isLt)
    · rw [ht]
      rfl
    · rw [ht, here_updMe]
  case unbound =>
    rw [exec_portWordArrival_first hn hfirst]
    simp only [hdiv, hp, Option.isNone_none, if_true, Bool.false_eq_true, if_false]
  case queued =>
    rw [exec_portWordArrival_first hn hfirst]
    simp only [hdiv, Option.isNone_iff_eq_none, hp, Bool.false_eq_true, if_false, if_neg (Nat.not_lt.mpr hroom)]
  case diverted =>
    rw [exec_portWordArrival_first hn hfirst]
    simp only [hdiv, if_true, if_neg (Nat.not_lt.mpr hroom)]
  case diverts => exact diverts_of_mode hmode

end Sys2Proof.Machine
end

section
/-! PROOFS. Where a result goes, and what naming a source does (O56). -/

namespace Sys2Proof.Machine

/-! ### Cells (R29 to R31) -/

/-- The youngest write, once it has arrived, is what the cell holds, whatever came before it (R31). -/
theorem Cell.settle_write {α : Type} {t due : Nat} (h : due ≤ t) (now : Nat) (v : α) (fixed : Bool) (tag : Nat) (c : Cell α) :
    (Cell.write now ⟨v, some due, fixed, tag⟩ c).settle t = ⟨v, []⟩ := by
  have harrived : (⟨v, some due, fixed, tag⟩ : Pending α).arrived t = true := decide_eq_true h
  rw [Cell.settle, Cell.write, List.foldl_append, List.foldl_cons, List.foldl_nil, if_pos harrived]

theorem Cell.read_write {α : Type} {t due : Nat} (h : due ≤ t) (now : Nat) (v : α) (fixed : Bool) (tag : Nat) (c : Cell α) :
    (Cell.write now ⟨v, some due, fixed, tag⟩ c).read t = v := congrArg Cell.cur (Cell.settle_write h now v fixed tag c)

theorem Cell.settle_of_rest {α : Type} {c : Cell α} (h : c.pend = []) (t : Nat) : c.settle t = c := by
  obtain ⟨v, l⟩ := c
  subst h
  rfl

/-- A fixed-latency write to a new slot is not ready before its cycle (R30). -/
theorem Cell.undersized_write_zero {w t due : Nat} (h : t < due) (v : BitVec w) :
    (Cell.write t ⟨v, some due, true, 0⟩ (Cell.zero w)).undersized t = true := by
  have hwaits : (⟨v, some due, true, 0⟩ : Pending (BitVec w)).arrived t = false := decide_eq_false (Nat.not_le.mpr h)
  simp [Cell.undersized, Cell.settle, Cell.write, Cell.zero, hwaits]

/-! ### Results on the belts and in registers (R21, R22, R60) -/

theorem intSlot_pushInt_zero (r : Ready) (v : W64) (s : State) :
    (pushInt r v s).me.intSlot 0 = Cell.write s.now (r.pending s.now v) (Cell.zero 64) := by
  rw [pushInt, me_updMe]
  rfl

theorem intSlot_pushInt_succ (r : Ready) (v : W64) (s : State) {k : Nat} (h : k < 15) :
    (pushInt r v s).me.intSlot (k + 1) = s.me.intSlot k := by
  rw [pushInt, me_updMe, Context.intSlot, List.getD_cons_succ, Context.intSlot, List.getD_eq_getElem?_getD, List.getD_eq_getElem?_getD,
    List.getElem?_take_of_lt h]

theorem vecSlot_pushVec_zero (r : Ready) (v : W128) (s : State) :
    (pushVec r v s).me.vecSlot 0 = Cell.write s.now (r.pending s.now v) (Cell.zero 128) := by
  rw [pushVec, me_updMe]
  rfl

theorem vecSlot_pushVec_succ (r : Ready) (v : W128) (s : State) {k : Nat} (h : k < 15) :
    (pushVec r v s).me.vecSlot (k + 1) = s.me.vecSlot k := by
  rw [pushVec, me_updMe, Context.vecSlot, List.getD_cons_succ, Context.vecSlot, List.getD_eq_getElem?_getD, List.getD_eq_getElem?_getD,
    List.getElem?_take_of_lt h]

theorem deliver_int (due : Nat) (v : W64) (s : State) : deliver ⟨0, 1, false⟩ (.fixed due) [v] s = pushInt (.fixed due) v s := rfl

/-- The two words of a vector are its halves. -/
theorem toV_ofV (x : W128) : toV (ofV x) = x := by
  apply BitVec.eq_of_toNat_eq
  simp only [toV, ofV, ofWords, BitVec.extractLsb'_toNat, BitVec.toNat_ofNat, Nat.shiftRight_eq_div_pow]
  omega

theorem deliver_vector (due : Nat) (x : W128) (s : State) :
    deliver ⟨0, 2, true⟩ (.fixed due) (ofV x) s = pushVec (.fixed due) x s := by
  show pushVec (.fixed due) (toV (ofV x)) s = _
  rw [toV_ofV]

theorem deliver_reg {j : Nat} (h : j < 8) (due : Nat) (v : W64) (s : State) :
    deliver ⟨16 + j, 1, false⟩ (.fixed due) [v] s = writeReg (.fixed due) j v s := by
  have hreg : (⟨16 + j, 1, false⟩ : Opnd).isReg = true := by
    simp only [Opnd.isReg, Bool.and_eq_true, decide_eq_true_eq]
    omega
  have hj : 16 + j - 16 = j := by omega
  rw [deliver, if_neg (by simp), if_pos hreg, hj]
  rfl

theorem reg_writeReg_same (r : Ready) (j : Nat) (v : W64) (s : State) :
    (writeReg r j v s).me.reg j = Cell.write s.now (r.pending s.now v) (s.me.reg j) := by
  rw [writeReg, me_updMe, Context.reg]
  exact Vector.getElem_set_self _

theorem reg_writeReg_ne (r : Ready) {j k : Nat} (v : W64) (s : State) (hj : j < 8) (hk : k < 8) (h : k ≠ j) :
    (writeReg r j v s).me.reg k = s.me.reg k := by
  have hne : (regIx j : Nat) ≠ (regIx k : Nat) := by
    simp only [regIx, Fin.ofNat, Nat.mod_eq_of_lt hj, Nat.mod_eq_of_lt hk]
    exact fun e => h e.symm
  rw [writeReg, me_updMe, Context.reg]
  exact Vector.getElem_set_ne (regIx j).isLt (regIx k).isLt hne

/-! ### Pointers that advance and ports that pop (R24, R25) -/

theorem toNat_va55 (x : W64) : (va55 x).toNat = x.toNat % 2 ^ 55 := by
  rw [va55, BitVec.toNat_and]
  exact Nat.and_two_pow_sub_one_eq_mod x.toNat 55

/-- The nine bits above the address of a fat pointer (R24). -/
theorem toNat_top9 (p : W64) : (p &&& 0xFF80000000000000).toNat = 2 ^ 55 * (p.toNat / 2 ^ 55) := by
  have hmask : ∀ i : Fin 64, (0xFF80000000000000 : W64).getLsbD i = decide (55 ≤ i.val) := by decide
  have h : p &&& (0xFF80000000000000 : W64) = (p >>> 55) <<< 55 := by
    apply BitVec.eq_of_getLsbD_eq
    intro i hi
    rw [BitVec.getLsbD_and, hmask ⟨i, hi⟩]
    by_cases h55 : 55 ≤ i
    · simp [h55, Nat.not_lt.mpr h55, hi]
    · simp [h55, Nat.lt_of_not_le h55]
  rw [h, BitVec.toNat_shiftLeft, BitVec.toNat_ushiftRight, Nat.shiftRight_eq_div_pow, Nat.shiftLeft_eq]
  omega

theorem toNat_advanced (p : W64) (st : BitVec 32) (u : Nat) :
    (advanced p st u).toNat = 2 ^ 55 * (p.toNat / 2 ^ 55) + (p + BitVec.ofNat 64 u * st.signExtend 64).toNat % 2 ^ 55 := by
  rw [advanced, BitVec.toNat_or, toNat_top9, toNat_va55, Nat.two_pow_add_eq_or_of_lt (Nat.mod_lt _ (by decide))]

theorem advanced_once_offset (p : W64) (st : BitVec 32) :
    (((advanced p st 1).toNat : Int)) % 2 ^ 55 = ((p.toNat : Int) + st.toInt) % 2 ^ 55 := by
  have hs : ((st.signExtend 64).toNat : Int) % 2 ^ 64 = st.toInt % 2 ^ 64 := by
    rw [← BitVec.toInt_signExtend_of_le (by decide : 32 ≤ 64), BitVec.toInt_eq_toNat_bmod]
    exact (Int.bmod_emod ..).symm
  rw [toNat_advanced]
  simp only [BitVec.one_mul, BitVec.toNat_add]
  omega

theorem advanced_top (p : W64) (st : BitVec 32) (u : Nat) : (advanced p st u).toNat / 2 ^ 55 = p.toNat / 2 ^ 55 := by
  rw [toNat_advanced]
  omega

theorem ptr_advancePtr (j : Nat) (s : State) : ((advancePtr j s).me.ptr j).read s.now =
    advanced ((s.me.ptr j).read s.now) s.me.as[ptrIx j] 1 := by
  have hcell : (advancePtr j s).me.ptr j =
      Cell.write s.now ⟨advanced ((s.me.ptr j).read s.now) s.me.as[ptrIx j] 1, some s.now, false, 0⟩ (s.me.ptr j) := by
    rw [advancePtr, me_updMe, Context.ptr]
    exact Vector.getElem_set_self _
  rw [hcell, Cell.read_write (Nat.le_refl _)]

theorem queue_consume1_port {j : Nat} (h24 : 24 ≤ j) (h27 : j ≤ 27) (n : Nat) (s : State) :
    ((consume1 ⟨j, n, false⟩ s).me.ports[ptrIx (j - 24)]).queue = ((s.me.ports[ptrIx (j - 24)]).queue).drop n := by
  have hport : (⟨j, n, false⟩ : Opnd).isPort = true := by simp [Opnd.isPort, h24, h27]
  rw [consume1, if_pos hport, me_updMe]
  exact congrArg Port.queue (Vector.getElem_set_self _)

/-- Settles O56: one clause for each kind of place that a result goes to or a source names. -/
theorem operandEffects : Obligations.OperandEffects := by
  intro s v x due j hdue hbelt hvbelt
  refine ⟨?push, ?vpush, fun hj _ => ?reg, fun hj hp => ?ptr, fun h24 h27 n => queue_consume1_port h24 h27 n s, rfl, rfl⟩
  case push =>
    rw [deliver_int]
    refine ⟨?_, ?_, ?_, fun k hk => intSlot_pushInt_succ _ v s hk, ?_, ?_⟩
    · rw [intSlot_pushInt_zero]
      exact Cell.read_write (Nat.le_refl due) _ _ _ _ _
    · rw [intSlot_pushInt_zero]
      exact Cell.undersized_write_zero hdue v
    · rw [pushInt, me_updMe]
      simp only [List.length_cons, List.length_take, hbelt]
      rfl
    · rw [pushInt, me_updMe]
    · rw [pushInt, me_updMe]
  case vpush =>
    rw [deliver_vector]
    refine ⟨?_, fun k hk => vecSlot_pushVec_succ _ x s hk, ?_, ?_⟩
    · rw [vecSlot_pushVec_zero]
      exact Cell.read_write (Nat.le_refl due) _ _ _ _ _
    · rw [pushVec, me_updMe]
    · rw [pushVec, me_updMe]
  case reg =>
    rw [deliver_reg hj]
    refine ⟨?_, ?_, fun k hk hne => reg_writeReg_ne _ v s hj hk hne⟩
    · rw [reg_writeReg_same]
      exact Cell.read_write (Nat.le_refl due) _ _ _ _ _
    · rw [writeReg, me_updMe]
  case ptr =>
    have hread : (s.me.ptr j).read s.now = (s.me.ptr j).cur := congrArg Cell.cur (Cell.settle_of_rest hp s.now)
    have hq := ptr_advancePtr j s
    rw [hread] at hq
    refine ⟨?_, ?_, ?_⟩
    · rw [hq]
      exact advanced_once_offset _ _
    · rw [hq]
      exact advanced_top _ _ 1
    · rw [advancePtr, me_updMe]

end Sys2Proof.Machine
end

section
/-! PROOFS. Where a context goes on after an instruction (O55). -/

namespace Sys2Proof.Machine

/-! ### Results through pointers that land (R29, R38) -/

/-- The result is ready by cycle t and belongs to a context of `mine`. -/
def SpmWrite.ripe (t : Nat) (mine : Nat → Bool) (w : SpmWrite) : Bool := mine w.ctx && w.due.any (fun d => decide (d ≤ t))

theorem insertDue_ne_nil (w : SpmWrite) (l : List SpmWrite) : insertDue w l ≠ [] := by
  cases l with
  | nil => exact List.cons_ne_nil _ _
  | cons x r =>
    unfold insertDue
    split <;> exact List.cons_ne_nil _ _

theorem foldl_insertDue_eq_nil (l acc : List SpmWrite) :
    l.foldl (fun l w => insertDue w l) acc = [] ↔ acc = [] ∧ l = [] := by
  induction l generalizing acc with
  | nil => simp
  | cons w r ih => simp [ih, insertDue_ne_nil]

theorem foldl_spmWrite_core (c : Nat) (ws : List SpmWrite) (s : State) : ∃ spm bad,
    (ws.foldl (fun s w => s.spmWrite c w.off w.data) s).core c = { s.core c with spm := spm, bad := bad } := by
  induction ws generalizing s with
  | nil => exact ⟨(s.core c).spm, (s.core c).bad, rfl⟩
  | cons w r ih =>
    obtain ⟨spm, bad, h⟩ := ih (s.spmWrite c w.off w.data)
    refine ⟨spm, bad, h.trans ?_⟩
    rw [State.spmWrite, core_updCore]

theorem foldl_spmWrite_core_ne {c d : Nat} (hd : d ≠ c) (ws : List SpmWrite) (s : State) :
    (ws.foldl (fun s w => s.spmWrite c w.off w.data) s).core d = s.core d := by
  induction ws generalizing s with
  | nil => rfl
  | cons w r ih => exact (ih _).trans (core_updCore_ne s _ hd)

/-- Landing changes scratchpad bytes, which words of it are sound, and the results that have landed. -/
theorem flushSpm_core (s : State) (c t : Nat) (mine : Nat → Bool) : ∃ spm bad, (s.flushSpm c t mine).core c =
    { s.core c with spm := spm, bad := bad, spmDue := (s.core c).spmDue.filter (fun w => !w.ripe t mine) } := by
  unfold State.flushSpm
  dsimp only
  split
  · next h =>
    have hnone : (s.core c).spmDue.filter (SpmWrite.ripe t mine) = [] :=
      ((foldl_insertDue_eq_nil _ _).mp (List.isEmpty_iff.mp h)).2
    have hall : (s.core c).spmDue.filter (fun w => !w.ripe t mine) = (s.core c).spmDue :=
      List.filter_eq_self.mpr fun w hw => by simp [List.filter_eq_nil_iff.mp hnone w hw]
    exact ⟨(s.core c).spm, (s.core c).bad, by rw [hall]⟩
  · obtain ⟨spm, bad, h⟩ := foldl_spmWrite_core c
      (((s.core c).spmDue.filter (SpmWrite.ripe t mine)).foldl (fun l w => insertDue w l) []) s
    refine ⟨spm, bad, (core_updCore _ _ _).trans ?_⟩
    exact congrArg (fun k : Core => { k with spmDue := k.spmDue.filter (fun w => !w.ripe t mine) }) h

theorem flushSpm_core_ne (s : State) {c d : Nat} (hd : d ≠ c) (t : Nat) (mine : Nat → Bool) :
    (s.flushSpm c t mine).core d = s.core d := by
  unfold State.flushSpm
  dsimp only
  split
  · rfl
  · exact (core_updCore_ne _ _ hd).trans (foldl_spmWrite_core_ne hd _ s)

/-! ### The halt at the end of a debugger's step (R38, R357) -/

/-- What a core keeps when fixed-latency results of one of its contexts land: all but that context, scratchpad bytes and the results
still to come. -/
theorem finishFixed_core (s : State) (c x : Nat) : ∃ spm bad, (s.finishFixed c x).core c =
    { s.core c with
      spm := spm, bad := bad, spmDue := (s.core c).spmDue.filter (fun w => !w.ripe ((s.core c).clock + 1000) (· == x))
      ctxs := (s.core c).ctxs.set (ctxIx x) (((s.core c).ctx x).settleAll ((s.core c).clock + 1000)) } := by
  obtain ⟨spm, bad, h⟩ := flushSpm_core s c ((s.core c).clock + 1000) (· == x)
  refine ⟨spm, bad, ?_⟩
  rw [State.finishFixed, State.updCtx, core_updCore, h]
  rfl

theorem finishFixed_core_ne (s : State) {c d : Nat} (hd : d ≠ c) (x : Nat) : (s.finishFixed c x).core d = s.core d :=
  (core_updCore_ne _ _ hd).trans (flushSpm_core_ne s hd _ _)

theorem finishFixed_cores (s : State) (c x : Nat) : ∃ cs, s.finishFixed c x = { s with cores := cs } := by
  obtain ⟨cs, h⟩ := flushSpm_cores s c ((s.core c).clock + 1000) (· == x)
  exact ⟨_, by rw [State.finishFixed, h]; rfl⟩

/-! ### The context when its instruction has issued (R28, R85, R121) -/

/-- The context of `s` as it goes on: at its target, at the next word, or through the body of its repetition. -/
def State.goesOn (stall : Nat) (s : State) : Context :=
  { (match s.target with
      | some p => { s.me with pc := p }
      | none => s.me.advance) with
    bound := s.now + 1 + stall + s.collisions, wait := none, hold := none, ask := none, answer := none }

/-- The context as it halts where its step ends. -/
def Context.stepHalted (t : Nat) (m : Context) : Context := { m.settleAll t with dstep := false, dhalt := true, reason := 3 }

theorem retire_eq (stall : Nat) (s : State) :
    retire stall s = { (s.updMe (fun _ => s.goesOn stall)).endStep with banks := [], collisions := 0, target := none } := rfl

theorem advance_eq (m : Context) : m.advance = { m with pc := m.advance.pc, rep := m.advance.rep } := by
  unfold Context.advance
  split
  · rfl
  · split
    · rfl
    · split <;> rfl

/-- Only where the context goes on, and what held it, is changed. -/
theorem goesOn_eq (stall : Nat) (s : State) : ∃ pc rep, s.goesOn stall = { s.me with
    pc := pc, rep := rep, bound := s.now + 1 + stall + s.collisions, wait := none, hold := none, ask := none, answer := none } := by
  unfold State.goesOn
  split
  · exact ⟨_, s.me.rep, rfl⟩
  · rw [advance_eq]
    exact ⟨_, _, rfl⟩

theorem goesOn_of_target {s : State} {p : W64} (h : s.target = some p) (stall : Nat) :
    (s.goesOn stall).pc = p ∧ (s.goesOn stall).rep = s.me.rep := by
  simp only [State.goesOn, h, and_self]

theorem goesOn_of_plain {s : State} (h : s.target = none) (stall : Nat) :
    (s.goesOn stall).pc = s.me.advance.pc ∧ (s.goesOn stall).rep = s.me.advance.rep := by
  simp only [State.goesOn, h, and_self]

theorem advance_of_no_rep {m : Context} (h : m.rep = none) : m.advance = { m with pc := va55 (m.pc + 4) } := by
  simp only [Context.advance, h]

theorem advance_within {m : Context} {r : Rep} (h : m.rep = some r) (hpos : r.pos + 1 < r.len) :
    m.advance = { m with pc := va55 (m.pc + 4), rep := some { r with pos := r.pos + 1 } } := by
  simp only [Context.advance, h, if_pos hpos]

theorem advance_again {m : Context} {r : Rep} (h : m.rep = some r) (hpos : r.len ≤ r.pos + 1) (hrem : 1 < r.remaining) :
    m.advance = { m with pc := va55 r.base, rep := some { r with pos := 0, remaining := r.remaining - 1 } } := by
  simp only [Context.advance, h, if_neg (Nat.not_lt.mpr hpos), if_neg (BitVec.not_le.mpr hrem)]

theorem advance_last {m : Context} {r : Rep} (h : m.rep = some r) (hpos : r.len ≤ r.pos + 1) (hrem : r.remaining ≤ 1) :
    m.advance = { m with pc := va55 (m.pc + 4), rep := none } := by
  simp only [Context.advance, h, if_neg (Nat.not_lt.mpr hpos), if_pos hrem]

theorem toNat_next_pc (pc : W64) : (va55 (pc + 4)).toNat = (pc.toNat + 4) % 2 ^ 55 := by
  rw [toNat_va55, BitVec.toNat_add]
  exact Nat.mod_mod_of_dvd _ (by decide)

/-! ### The state that an instruction retires in -/

theorem ctxIx_cur (s : State) : ctxIx s.cur.ctx.val = s.cur.ctx := Fin.ext (Nat.mod_eq_of_lt s.cur.ctx.isLt)

theorem endStep_plain {s : State} (h : s.me.stepEnds = false) : s.endStep = s := if_neg (by simp [h])

theorem endStep_here {s : State} (h : s.me.stepEnds = true) : ∃ spm bad, s.endStep.here = { s.here with
    spm := spm, bad := bad, spmDue := s.here.spmDue.filter (fun w => !w.ripe (s.now + 1000) (· == s.cur.ctx.val))
    ctxs := s.here.ctxs.set s.cur.ctx (s.me.stepHalted (s.now + 1000)) } := by
  obtain ⟨spm, bad, hcore⟩ := finishFixed_core s s.cur.core s.cur.ctx.val
  obtain ⟨cs, hf⟩ := finishFixed_cores s s.cur.core s.cur.ctx.val
  simp only [hf, Core.ctx, ctxIx_cur] at hcore
  have hhere : ({ s with cores := cs } : State).here = _ := hcore
  refine ⟨spm, bad, ?_⟩
  rw [State.endStep, if_pos h, hf, here_updMe]
  simp only [hhere, Fin.getElem_fin, Vector.set_set, Vector.getElem_set_self]
  rfl

theorem endStep_core_ne (s : State) {c : Nat} (hc : c ≠ s.cur.core) : s.endStep.core c = s.core c := by
  unfold State.endStep
  split
  · obtain ⟨cs, hf⟩ := finishFixed_cores s s.cur.core s.cur.ctx.val
    have hne := finishFixed_core_ne s hc s.cur.ctx.val
    rw [hf] at hne ⊢
    exact (core_updCore_ne _ _ hc).trans hne
  · rfl

theorem retire_here_plain {stall : Nat} {s : State} (h : (s.goesOn stall).stepEnds = false) :
    (retire stall s).here = { s.here with ctxs := s.here.ctxs.set s.cur.ctx (s.goesOn stall) } := by
  rw [retire_eq, endStep_plain (by rwa [me_updMe])]
  exact here_updMe s (fun _ => s.goesOn stall)

theorem retire_here_ends {stall : Nat} {s : State} (h : (s.goesOn stall).stepEnds = true) : ∃ spm bad, (retire stall s).here =
    { s.here with
      spm := spm, bad := bad, spmDue := s.here.spmDue.filter (fun w => !w.ripe (s.now + 1000) (· == s.cur.ctx.val))
      ctxs := s.here.ctxs.set s.cur.ctx ((s.goesOn stall).stepHalted (s.now + 1000)) } := by
  have hme : (s.updMe (fun _ => s.goesOn stall)).me = s.goesOn stall := me_updMe s _
  obtain ⟨spm, bad, hend⟩ := endStep_here (s := s.updMe (fun _ => s.goesOn stall)) (by rwa [hme])
  refine ⟨spm, bad, ?_⟩
  rw [retire_eq]
  refine hend.trans ?_
  simp only [hme, updMe_now, here_updMe, State.updMe_cur, Vector.set_set]

theorem retire_core_ne (stall : Nat) (s : State) {c : Nat} (h : c ≠ s.cur.core) : (retire stall s).core c = s.core c := by
  rw [retire_eq]
  exact (endStep_core_ne (s.updMe fun _ => s.goesOn stall) h).trans (core_updCore_ne s _ h)

theorem retire_me (stall : Nat) (s : State) : (retire stall s).me =
    if (s.goesOn stall).stepEnds then (s.goesOn stall).stepHalted (s.now + 1000) else s.goesOn stall := by
  rw [State.me]
  split
  · next h =>
    obtain ⟨spm, bad, hh⟩ := retire_here_ends h
    simp only [hh, retire_cur, Fin.getElem_fin, Vector.getElem_set_self]
  · next h => simp only [retire_here_plain (eq_false_of_ne_true h), retire_cur, Fin.getElem_fin, Vector.getElem_set_self]

/-- Halting at the end of a step changes nothing of where the context goes on, nor its ports. -/
theorem retire_me_place (stall : Nat) (s : State) : (retire stall s).me.pc = (s.goesOn stall).pc ∧
    (retire stall s).me.rep = (s.goesOn stall).rep ∧ (retire stall s).me.bound = (s.goesOn stall).bound ∧
    (retire stall s).me.wait = (s.goesOn stall).wait ∧ (retire stall s).me.ports = (s.goesOn stall).ports := by
  rw [retire_me]
  split <;> exact ⟨rfl, rfl, rfl, rfl, rfl⟩

theorem stepEnds_iff (m : Context) : m.stepEnds = true ↔ m.dstep = true ∧ ∀ r, m.rep = some r → r.pos = 0 := by
  rw [Context.stepEnds, Bool.and_eq_true]
  cases m.rep <;> simp

theorem retire_stepEnds_iff (stall : Nat) (s : State) : (s.goesOn stall).stepEnds = true ↔
    s.me.dstep = true ∧ ∀ r, (retire stall s).me.rep = some r → r.pos = 0 := by
  obtain ⟨pc, rep, h⟩ := goesOn_eq stall s
  rw [stepEnds_iff, (retire_me_place stall s).2.1, h]

theorem retire_here (stall : Nat) (s : State) : ∃ spm bad due m, (retire stall s).here =
    { s.here with spm := spm, bad := bad, spmDue := due, ctxs := s.here.ctxs.set s.cur.ctx m } := by
  cases h : (s.goesOn stall).stepEnds with
  | true =>
    obtain ⟨spm, bad, hh⟩ := retire_here_ends h
    exact ⟨spm, bad, _, _, hh⟩
  | false => exact ⟨s.here.spm, s.here.bad, s.here.spmDue, _, retire_here_plain h⟩

theorem retire_sameElsewhere (stall : Nat) (s : State) : SameElsewhere s (retire stall s) where
  cores _ hc := retire_core_ne stall s hc
  rest := by
    obtain ⟨cs, h⟩ := retire_cores stall s
    rw [h]

theorem retire_sameCore (stall : Nat) (s : State) : SameCore s (retire stall s) := by
  obtain ⟨spm, bad, due, m, h⟩ := retire_here stall s
  refine ⟨fun x hx => ?_, ?_⟩
  · rw [h]
    exact Vector.getElem_set_ne s.cur.ctx.isLt x.isLt (fun e => hx (Fin.ext e.symm))
  · rw [h]

theorem retire_sameContext (stall : Nat) (s : State) : SameContext s.me (retire stall s).me := by
  obtain ⟨pc, rep, h⟩ := goesOn_eq stall s
  rw [retire_me, h]
  split <;> rfl

theorem retire_inflight (stall : Nat) (s : State) : (retire stall s).inflight = s.inflight := by
  obtain ⟨cs, h⟩ := retire_cores stall s
  rw [h]

/-- A result that was to be ready within the 1,000 cycles has landed (R38). -/
theorem not_ripe_of_mem_filter {t x : Nat} {l : List SpmWrite} {w : SpmWrite} (h : w ∈ l.filter (fun w => !w.ripe t (· == x))) :
    ¬ (w.ctx = x ∧ ∃ d, w.due = some d ∧ d ≤ t) := by
  rintro ⟨hx, d, hd, hle⟩
  have hripe := (List.mem_filter.mp h).2
  simp [SpmWrite.ripe, hx, hd, hle] at hripe

/-- Settles O55: where the context goes on by the cases of its target and its repetition, the rest by what retiring leaves. -/
theorem programCounter : Obligations.ProgramCounter := by
  intro s stall
  obtain ⟨hpc, hrep, hbound, hwait, hports⟩ := retire_me_place stall s
  obtain ⟨pc, rep, hgo⟩ := goesOn_eq stall s
  obtain ⟨cs, hcs⟩ := retire_cores stall s
  refine ⟨fun p hp => ?target, fun hplain hr => ?next, fun r hplain hr hpos => ?within, fun r hplain hr hpos hrem => ?again,
    fun r hplain hr hpos hrem => ?last, hbound.trans (by rw [hgo]), hwait.trans (by rw [hgo]), by rw [hcs], by rw [hcs],
    retire_sameElsewhere stall s, retire_sameCore stall s, retire_sameContext stall s, hports.trans (by rw [hgo]),
    retire_inflight stall s, fun hno => ?goes, fun hends => ?halts⟩
  case target =>
    rw [hpc, hrep]
    exact goesOn_of_target hp stall
  case goes =>
    have hstep := eq_false_of_ne_true (mt (retire_stepEnds_iff stall s).mp hno)
    have hme : (retire stall s).me = s.goesOn stall := by rw [retire_me, if_neg (by simp [hstep])]
    rw [hme, retire_here_plain hstep, hgo]
    exact ⟨rfl, rfl, rfl, rfl, rfl, rfl, rfl, rfl, rfl, rfl, rfl⟩
  case halts =>
    have hstep := (retire_stepEnds_iff stall s).mpr hends
    obtain ⟨spm, bad, hhere⟩ := retire_here_ends hstep
    rw [retire_me, if_pos hstep, hhere, hgo]
    exact ⟨rfl, rfl, rfl, fun j => Vector.getElem_map _ j.isLt, fun w hw => not_ripe_of_mem_filter hw⟩
  all_goals rw [hpc, hrep, (goesOn_of_plain hplain stall).1, (goesOn_of_plain hplain stall).2]
  case next =>
    rw [advance_of_no_rep hr]
    exact ⟨toNat_next_pc _, hr⟩
  case within =>
    rw [advance_within hr hpos]
    exact ⟨toNat_next_pc _, rfl⟩
  case again =>
    rw [advance_again hr hpos hrem]
    exact ⟨toNat_va55 _, rfl⟩
  case last =>
    rw [advance_last hr hpos hrem]
    exact ⟨toNat_next_pc _, rfl⟩

end Sys2Proof.Machine
end

section
/-! PROOFS. What fails of three statements: a send that finds no room takes its place in the queue of sends (O54), a result on its way
through a pointer takes a number (O57), and a cycle lets a load go that waits for nothing any more (O50). -/

namespace Sys2Proof.Machine

/-! ### A send that finds no room (R153) -/

/-- R153: the wait for room is not the only effect, for the send joins those that wait for the queue of its partner. -/
theorem compute_waits_for_room {i : Instr} {stall : Nat} {srcs : List Opnd} {d : Opnd} {lat : Option Nat}
    {f : State → List (List W64) → List W64} {s : State} (hg : s.Admits i) (hw : s.waitOf srcs (some d) = some .room) :
    compute i stall srcs d lat f s = .next (setWait .room (settled (s.queueSend (some d)))) := by
  refine issue_of_error (e := .keepWait (s.queueSend (some d)) .room) hg (M_bind_error ?_)
  simp only [ready, hw, if_true]

/-- Port 0 of the control context of core 0 is bound to itself, and its arrival queue is full. -/
def fullPort : State :=
  State.reset.updMe (fun c => { c with ports := c.ports.set 0 ⟨some ⟨0, 0, 0⟩, false, List.replicate 16 0⟩ })

/-- Refutes O54: LDK to a port whose partner has no room waits, and has joined the queue of sends (R153). -/
theorem not_operandStops : ¬ Obligations.OperandStops := by
  intro h
  have hg : fullPort.Admits (.ldk 0 24 5) := by
    show gateOf (.ldk 0 24 5) fullPort = none
    decide
  have hw : fullPort.waitOf [] (some (.int 24)) = some .room := by decide
  obtain ⟨hwaits, -⟩ := h (.ldk 0 24 5) 0 [] (.int 24) (some 1) (fun _ _ => [5]) fullPort hg
  have heq := (compute_waits_for_room hg hw).symm.trans (hwaits .room hw)
  have hsendq : (fullPort.queueSend (some (.int 24))).sendq = fullPort.sendq := (congrArg State.sendq (Host.Outcome.next.inj heq) :)
  exact absurd hsendq (by decide)

/-! ### A result on its way through a pointer (R29) -/

/-- LDK computes its constant into its destination, whatever clear destination it has. -/
theorem ldk_computes (d : BitVec 5) (k : BitVec 16) :
    Computes (.ldk 0 d k) 0 [] (.int d) (after [] 1) (fun _ _ => [k.signExtend 64]) := fun s hg hc _ =>
  compute_completes (.ldk 0 d k) 0 [] (.int d) (some 1) (fun _ _ => [k.signExtend 64]) s hg hc

theorem retire_nextId (stall : Nat) (s : State) : (retire stall s).nextId = s.nextId := by
  obtain ⟨cs, h⟩ := retire_cores stall s
  rw [h]

/-- What delivers as a frame says takes no number of the package. -/
theorem DeliverFrame.nextId {srcs : List Opnd} {d : Opnd} {k : Nat} {s t : State} (h : DeliverFrame srcs d k s t) :
    t.nextId = s.nextId := (congrArg State.nextId h.elsewhere.rest :)

/-- Refutes O57: LDK through a0 puts its result on its way under the next number of the package, which the frame holds unchanged. -/
theorem not_computeFrame : ¬ Obligations.ComputeFrame := by
  intro h
  have hg : State.reset.Admits (.ldk 0 28 5) := by
    show gateOf (.ldk 0 28 5) State.reset = none
    decide
  have hc : State.reset.Clear [] (some (.int 28)) := ⟨by decide, by simp, by decide, by decide, rfl⟩
  obtain ⟨u, hu, hframe⟩ := h _ _ _ _ _ _ 1 (ldk_computes 28 5) State.reset _ hg hc rfl (ldk_computes 28 5 State.reset hg hc trivial)
  have hnumber : (gives [] (.int 28) (after [] 1) (fun _ _ => [(5 : BitVec 16).signExtend 64]) State.reset).nextId = 0 := by
    rw [← retire_nextId 0, hu, retire_nextId, hframe.nextId]
    rfl
  exact absurd hnumber (by decide)

/-! ### A load that waits for nothing any more (R136) -/

/-- A load of one byte of bank 0 that came after an access which has been performed by now. -/
def freedLoad : Load := ⟨7, 0, 1, .word 1 false, 0, false, false, false, .home [⟨0, 0, 0⟩], [5], false, []⟩

/-- The control context of core 0 has that load, and nothing else is under way. -/
def loadFreed : State := State.reset.updMe (fun c => { c with loads := [freedLoad] })

/-- Refutes O50: with no parked store, no YIELD, no result and no notice on its way, a cycle still lets a load leave that has waited. -/
theorem not_stepRuns : ¬ Obligations.StepRuns := by
  intro h
  obtain ⟨-, hcycle, -, -⟩ := h
  obtain ⟨hbegin, -, -⟩ := hcycle loadFreed 0
  have hquiet : ∀ x : Fin 11, ((loadFreed.core 0).ctxs[x]).parked = [] ∧ ((loadFreed.core 0).ctxs[x]).yield = [] := by decide
  have heq := hbegin (by decide) (by decide) hquiet
  have hsame : (beginCycle 0 loadFreed).nextId = loadFreed.nextId := (congrArg State.nextId heq :)
  exact absurd hsame (by decide)

end Sys2Proof.Machine
end

section
/-! PROOFS. The state after reset (O49). -/

namespace Sys2Proof.Machine

/-- A core that nothing has touched has its own number, the features and the mode of its kind (R10, log 55), and reset contexts. -/
theorem first_eq (c : Nat) : ∃ feat sup, Core.first c =
    { Core.reset with origin := c, feat := feat, ctxs := Vector.replicate 11 { Context.reset with sup := sup } } := by
  unfold Core.first
  split
  · exact ⟨0xFC, true, by rw [Core.reset, Vector.map_replicate]⟩
  · exact ⟨0xFF, false, rfl⟩

theorem reset_core (c : Nat) : State.reset.core c = Core.first c := rfl

theorem ctx_replicate {k : Core} {m : Context} (h : k.ctxs = Vector.replicate 11 m) (x : Nat) : k.ctx x = m := by
  simp only [Core.ctx, h, Fin.getElem_fin, Vector.getElem_replicate]

theorem reset_vd_absent {v : Nat} (h : v ≠ 0) : (State.reset.vd v).state = .absent := by
  simp only [State.vd, State.reset, lookup, if_neg h]
  rfl

theorem reset_form : State.reset.Form := by
  refine ⟨⟨rfl, fun e he => absurd he List.not_mem_nil⟩, fun v hv e he => ?_⟩
  obtain rfl := List.mem_singleton.mp hv
  exact absurd he List.not_mem_nil

/-- Settles O49: every core is that of `first_eq`, and the package holds VD 0 alone. -/
theorem resetState : Obligations.ResetState := by
  refine ⟨reset_form, rfl, rfl, rfl, fun v hv => reset_vd_absent hv, fun c x _ => ?_, fun r => ⟨rfl, rfl, rfl⟩⟩
  obtain ⟨feat, sup, hk⟩ := first_eq c
  have hm : (State.reset.core c).ctx x = { Context.reset with sup := sup } := ctx_replicate (by rw [reset_core, hk]) x
  dsimp only
  rw [hm, reset_core, hk]
  refine ⟨rfl, rfl, rfl, rfl, rfl, rfl, rfl, rfl, rfl, fun j => Vector.getElem_replicate j.isLt,
    fun j => Vector.getElem_replicate j.isLt, fun j => ?_, fun j => ?_, rfl, rfl, rfl, rfl, fun j => ?_⟩
  · have hz : Context.reset.z[j] = Lazy.reset := Vector.getElem_replicate j.isLt
    exact ⟨congrArg Lazy.len hz, congrArg Lazy.handle hz⟩
  · exact congrArg Stream.bound (Vector.getElem_replicate (a := Stream.reset) j.isLt)
  · exact congrArg TileTag.fmt (Vector.getElem_replicate j.isLt)

end Sys2Proof.Machine
end

section
/-! PROOFS. Words that steps 1 to 3 of R74 stop (O52). -/

namespace Sys2Proof.Machine
open Sys2Proof.Laws

/-! ### Soras words stand for Soras instructions -/

/-- A Soras instruction: the rows of the table up to DSTAT. -/
def isSoras (i : Instr) : Bool := decide (i.ctorIdx ≤ Instr.dstat.ctorIdx)

theorem isSoras_ite {c : Prop} [Decidable c] {i : Instr} {r : Option Instr} (hi : isSoras i = true)
    (hr : r.all isSoras = true) : (if c then some i else r).all isSoras = true := by
  split
  · exact hi
  · exact hr

/-- Along the rows of each major code. -/
theorem rawS_isSoras (x : BitVec 32) : (rawS x).all isSoras = true := by
  unfold rawS
  split
  case h_53 => rfl
  all_goals
    repeat refine isSoras_ite rfl ?_
    rfl

theorem isSoras_of_decodeSoras {w : Word} {i : Instr} (h : decodeSoras w = .ok i) : isSoras i = true := by
  have hraw := rawS_isSoras w
  unfold decodeSoras checked at h
  split at h
  · cases h
  · next j hj =>
    rw [hj] at hraw
    split at h
    · cases h
      exact hraw
    · cases h

/-! ### A gated word takes its trap -/

/-- Every Soras meaning asks its gate first. -/
theorem exec_of_gate {i : Instr} {s : State} {c : Nat} (hi : isSoras i = true) (hg : gateOf i s = some c) :
    exec i s = .next (takeTrap c ((wordOf i).zeroExtend 64) s.me.pc s) := by
  unfold exec
  cases i with
  | add | sub | and | or | xor | andn | orn | shl | shr | sar | rol | ror | mul | mulh | mulhu | div | divu | rem | remu
    | min | max | minu | maxu | ceq | cne | clt | cltu | cle | cleu | sel | clz | ctz | popc | brev | bswap | mov | addi
    | andi | ori | xori | shli | shri | sari | roli | ceqi | clti | cltui | bfx | bfi | ldk | ldkh | adpc | padd | padde
    | psube | pfmt | pgetf | pgetb | pset | pstr | pgeta | paddi | br | jmp | call | jmpi | calli | ret | loop | rep | start
    | halt | joinh | yield | saveh | loadh | resumeh | killh | hstat | upret | nop | trap | eret | gets | puts | fence
    | ifence | waita | brk | sleepr | tinv | ld | st | ldl | ldlAcq | ldf | ldfe | stl | stlRel | stf | ste | ldx | stx
    | pref | atomFadd | atomFand | atomFor | atomFxor | atomFmin | atomFmax | atomFminu | atomFmaxu | atomSwap | atomCas
    | updAdd | updMin | updMax | updAmax | updAnd | updOr | updXor | pbind | pstat | pdrain | pord | bar | bara | barw
    | elect | gidx | gsize | vadd | vsub | vmul | vmin | vmax | vminu | vmaxu | vand | vor | vxor | vshl | vshr | vsar | vceq
    | vclt | vcltu | vfadd | vfsub | vfmul | vfma | vfmin | vfmax | vfabs | vfneg | vfceq | vfclt | vfcle | vfrnd | vfscl
    | vfcls | vsplat | vext | vins | vshuf | vrev | vzip | vunz | vsumh | vmaxh | vamaxh | vsel | vabs | vdot4 | vmov | vcvt
    | vcvts | frcp | frsq | fsqrt | fexp2 | flog2 | fsinp | fcosp | ftanh | ferf | fadd | fsub | fmul | fmin | fmax | fabs
    | fceq | fclt | fcle | fcvti | fcvtf | fcvtw | zdraw | zltq | zltf | zltz | zfloor | zext | zlen | zbits | zmov | zld
    | zst | sbind | sfree | rndw | rndv | sgen | glaunch | gquery | cpy | csetg | cgetg | mma | msetg | mgetg | mldc | mstc
    | mzero | mcommit | mwait | coll | cquery | cabort | rkovl | rkrun | rksig | rkstat | rkstop | dwait | dstat =>
    exact issue_of_gate hg
  | fflag st a b =>
    dsimp only [execFflag]
    split <;> exact issue_of_gate hg
  | ldv st w d b q o =>
    dsimp only [execLdv]
    split <;> exact issue_of_gate hg
  | stv st w d b q o =>
    dsimp only [execStv]
    split <;> exact issue_of_gate hg
  | _ => cases hi

/-! ### What the gate says of a word, by its fields -/

section Gate
variable {w : Word} {feat : W64} {sup helper : Bool}

theorem gate_of_privileged (hi : sregIll w = false) (hf : featureBit w = none) (hp : privileged w sup helper = true) :
    gate w feat sup helper = some Cause.priv := by
  simp [gate, hi, hf, hp]

theorem gate_of_featureBit {b : Nat} (hi : sregIll w = false) (hf : featureBit w = some b) (hb : ¬ feat.getLsbD b = true) :
    gate w feat sup helper = some Cause.feature := by
  simp [gate, hi, hf, hb]

/-- Only words of SYS name a special register. -/
theorem sregIll_of_major_ne (h : fld w 26 6 ≠ 0x18#6) : sregIll w = false := by
  have h' : (w.extractLsb' 26 6 == 0x18#6) = false := beq_false_of_ne h
  simp [sregIll, h']

theorem featureBit_tile (hmaj : fld w 26 6 = 0x31#6) : featureBit w = some 0 := by
  unfold featureBit
  rw [show w.extractLsb' 26 6 = 0x31#6 from hmaj]
  rfl

theorem featureBit_copy (hmaj : fld w 26 6 = 0x30#6) : featureBit w = some 1 := by
  unfold featureBit
  rw [show w.extractLsb' 26 6 = 0x30#6 from hmaj]
  rfl

theorem featureBit_ring (hmaj : fld w 26 6 = 0x32#6) : featureBit w = some 4 := by
  unfold featureBit
  rw [show w.extractLsb' 26 6 = 0x32#6 from hmaj]
  rfl

section Sys
variable {n : BitVec 5} {f : BitVec 6} (hmaj : fld w 26 6 = 0x18#6) (ha : fld w 11 5 = n) (hfn : fld w 0 6 = f)
include hmaj

theorem featureBit_sys : featureBit w = none := by
  unfold featureBit
  rw [show w.extractLsb' 26 6 = 0x18#6 from hmaj]
  rfl

include ha hfn

theorem sregIll_sys : sregIll w =
    ((f == 3 && sregReserved n.toNat) || (f == 4 && (sregReserved n.toNat || sregReadOnly n.toNat))) := by
  unfold sregIll
  rw [show w.extractLsb' 26 6 = 0x18#6 from hmaj, show w.extractLsb' 11 5 = n from ha, show w.extractLsb' 0 6 = f from hfn]
  rfl

theorem privileged_sys : privileged w sup helper =
    ((!sup && (f.toNat == 2 || f.toNat == 10 || f.toNat == 11)) || (!sup && (f.toNat == 3 || f.toNat == 4) && sregSuper n.toNat) ||
      (helper && f.toNat == 4 && (n.toNat == 6 || n.toNat == 7))) := by
  unfold privileged
  rw [show w.extractLsb' 26 6 = 0x18#6 from hmaj, show w.extractLsb' 11 5 = n from ha, show w.extractLsb' 0 6 = f from hfn]
  rfl

end Sys

end Gate

/-! ### The gates of ERET, GETS, PUTS and the engine commands -/

section Gates
variable {s : State} {st : BitVec 3}

/-- A well-formed instruction is gated by its word. -/
theorem gateOf_of_wf {i : Instr} (hwf : i.wf = true) :
    gateOf i s = gate (wordOf i) s.here.feat s.me.sup (decide (s.cur.ctx ≠ 0)) := if_pos hwf

theorem gateOf_eret (hs : s.me.sup = false) : gateOf (.eret st) s = some Cause.priv := by
  obtain ⟨hmaj, -, -, -, ha, -, hfn⟩ := fields1 _ _ _ _ _ _ _ (wordOf (.eret st)) rfl
  rw [gateOf_of_wf rfl]
  exact gate_of_privileged ((sregIll_sys hmaj ha hfn).trans rfl) (featureBit_sys hmaj) (by simp [privileged_sys hmaj ha hfn, hs])

theorem gateOf_gets {d a : BitVec 5} (hs : s.me.sup = false) (hwf : (Instr.gets st d a).wf = true) (hlo : 24 ≤ a.toNat)
    (hhi : a.toNat ≤ 27) : gateOf (.gets st d a) s = some Cause.priv := by
  obtain ⟨hmaj, -, -, -, ha, -, hfn⟩ := fields1 _ _ _ _ _ _ _ (wordOf (.gets st d a)) rfl
  rw [gateOf_of_wf hwf]
  refine gate_of_privileged ?_ (featureBit_sys hmaj) ?_
  · simp [sregIll_sys hmaj ha hfn, sregReserved]
    omega
  · simp [privileged_sys hmaj ha hfn, hs, sregSuper, hlo, hhi]

/-- PUTS of a writable special register is no reserved and no read-only one. -/
theorem sregIll_puts {a b : BitVec 5} (hwf : (Instr.puts st a b).wf = true) : sregIll (wordOf (.puts st a b)) = false := by
  obtain ⟨hmaj, -, -, -, ha, -, hfn⟩ := fields1 _ _ _ _ _ _ _ (wordOf (.puts st a b)) rfl
  have hw : (specialKnown a && specialWritable a) = true := hwf
  simp [specialWritable] at hw
  simp [sregIll_sys hmaj ha hfn, sregReserved, sregReadOnly]
  omega

theorem gateOf_puts_super {a b : BitVec 5} (hs : s.me.sup = false) (hwf : (Instr.puts st a b).wf = true) (hlo : 24 ≤ a.toNat)
    (hhi : a.toNat ≤ 27) : gateOf (.puts st a b) s = some Cause.priv := by
  obtain ⟨hmaj, -, -, -, ha, -, hfn⟩ := fields1 _ _ _ _ _ _ _ (wordOf (.puts st a b)) rfl
  rw [gateOf_of_wf hwf]
  exact gate_of_privileged (sregIll_puts hwf) (featureBit_sys hmaj)
    (by simp [privileged_sys hmaj ha hfn, hs, sregSuper, hlo, hhi])

theorem gateOf_puts_helper {a b : BitVec 5} (hs : s.cur.ctx ≠ 0) (hwf : (Instr.puts st a b).wf = true) (h67 : a = 6 ∨ a = 7) :
    gateOf (.puts st a b) s = some Cause.priv := by
  obtain ⟨hmaj, -, -, -, ha, -, hfn⟩ := fields1 _ _ _ _ _ _ _ (wordOf (.puts st a b)) rfl
  rw [gateOf_of_wf hwf]
  refine gate_of_privileged (sregIll_puts hwf) (featureBit_sys hmaj) ?_
  rw [privileged_sys hmaj ha hfn]
  obtain rfl | rfl := h67 <;> simp [hs]

theorem gateOf_puts_readOnly {a b : BitVec 5}
    (h : a.toNat ≤ 3 ∨ (10 ≤ a.toNat ∧ a.toNat ≤ 12) ∨ (17 ≤ a.toNat ∧ a.toNat ≤ 23) ∨ 28 ≤ a.toNat) :
    gateOf (.puts st a b) s = some Cause.ill := by
  refine if_neg (fun hwf => ?_)
  have hw : (specialKnown a && specialWritable a) = true := hwf
  simp [specialWritable] at hw
  omega

theorem gateOf_mma {a b : BitVec 5} {w : BitVec 8} {sl : BitVec 3} {sb : BitVec 1} (hf : ¬ s.here.feat.getLsbD 0 = true)
    (hwf : (Instr.mma a b w sl sb).wf = true) : gateOf (.mma a b w sl sb) s = some Cause.feature := by
  obtain ⟨hmaj, -⟩ := fields17 _ _ _ _ _ _ _ _ (wordOf (.mma a b w sl sb)) rfl
  rw [gateOf_of_wf hwf]
  exact gate_of_featureBit (sregIll_of_major_ne (by rw [hmaj]; decide)) (featureBit_tile hmaj) hf

theorem gateOf_cpy {a b : BitVec 5} {w : BitVec 8} {sl : BitVec 3} {sb : BitVec 1} (hf : ¬ s.here.feat.getLsbD 1 = true)
    (hwf : (Instr.cpy a b w sl sb).wf = true) : gateOf (.cpy a b w sl sb) s = some Cause.feature := by
  obtain ⟨hmaj, -⟩ := fields17 _ _ _ _ _ _ _ _ (wordOf (.cpy a b w sl sb)) rfl
  rw [gateOf_of_wf hwf]
  exact gate_of_featureBit (sregIll_of_major_ne (by rw [hmaj]; decide)) (featureBit_copy hmaj) hf

theorem gateOf_coll {a b : BitVec 5} {w : BitVec 8} {sl : BitVec 3} {sb : BitVec 1} (hf : ¬ s.here.feat.getLsbD 4 = true)
    (hwf : (Instr.coll a b w sl sb).wf = true) : gateOf (.coll a b w sl sb) s = some Cause.feature := by
  obtain ⟨hmaj, -⟩ := fields17 _ _ _ _ _ _ _ _ (wordOf (.coll a b w sl sb)) rfl
  rw [gateOf_of_wf hwf]
  exact gate_of_featureBit (sregIll_of_major_ne (by rw [hmaj]; decide)) (featureBit_ring hmaj) hf

end Gates

/-- Settles O52: every Soras meaning asks its gate first, and the gate is a function of the word's fields. -/
theorem gateTraps : Obligations.GateTraps := by
  unfold Obligations.GateTraps
  intro i s
  refine ⟨?_, ?_, ?_, ?_, ?_, ?_, ?_, ?_, ?_⟩
  · rintro ⟨w, -, hdec⟩ c hgate
    exact exec_of_gate (isSoras_of_decodeSoras hdec) hgate
  · intro st hs
    exact exec_of_gate rfl (gateOf_eret hs)
  · intro st d a hs hwf hlo hhi
    exact exec_of_gate rfl (gateOf_gets hs hwf hlo hhi)
  · intro st a b hs hwf hlo hhi
    exact exec_of_gate rfl (gateOf_puts_super hs hwf hlo hhi)
  · intro st a b hs hwf h67
    exact exec_of_gate rfl (gateOf_puts_helper hs hwf h67)
  · intro st a b h
    exact exec_of_gate rfl (gateOf_puts_readOnly h)
  · intro a b w sl sb hf hwf
    exact exec_of_gate rfl (gateOf_mma hf hwf)
  · intro a b w sl sb hf hwf
    exact exec_of_gate rfl (gateOf_cpy hf hwf)
  · intro a b w sl sb hf hwf
    exact exec_of_gate rfl (gateOf_coll hf hwf)

end Sys2Proof.Machine
end

section
/-! PROOFS. The floating-point instructions: VF lane by lane (O21), conversions and scalar floats (O23). -/

namespace Sys2Proof.Machine

/-! ### What rounds or raises events, with clear operands (R47, R53) -/

/-- Under RSR an instruction that uses stream words names a bound handle, so that R47 stops nothing. -/
theorem rsrCands_of_ready {c : Context} {m n : Nat} (h : n = 0 ∨ m ≠ 5 ∨ c.srHandle.bound = true) :
    (if n = 0 then [] else c.rsrCands m) = [] := by
  split
  · rfl
  · next hn => exact rsrCands_of_bound fun hm => (h.resolve_left hn).resolve_left (not_not_intro hm)

/-- `computeF` with clear operands, said once for every instruction whose meaning it is. -/
theorem computesF_of_exec {i : Instr} {stall : Nat} {srcs : List Opnd} {d : Opnd} {lat : Nat} {mode : Context → Nat} {n : Nat}
    {f : Context → List (List W64) → List W64 × Fl} (hexec : ∀ s, exec i s = computeF i stall srcs d lat mode n f s) :
    ComputesF i stall srcs d (after srcs lat) mode n f := by
  intro s hg hc hrsr
  rw [hexec]
  refine issue_of_ok hg ?_
  rw [M_bind_ok (ready_of_clear hc (rsrCands_of_ready hrsr))]
  simp only [upd_apply, hc.spm]
  rfl

/-- The sign is the top bit of an encoding (R39). -/
theorem FloatFmt.signBit_eq (f : FloatFmt) : f.signBit = 2 ^ (f.width - 1) := by
  rw [signBit, width, Nat.add_assoc, Nat.add_sub_cancel_left]

/-! ### VF (R113, R114) -/

/-- The results of all lanes, each under the rounding of its own lane, and the events of all of them (R47, R53, R111). -/
def vfResult (t : BitVec 2) (f : Rnd → Nat → Nat → Nat → Nat × Fl) (c : Context) (vs : List (List W64)) : List W64 × Fl :=
  let l (k j : Nat) : Nat := (lanesOf (vfFmt t).width (arg vs k)).getD j 0
  let rs := (List.range (vfLanes t)).map (fun j => f (c.rnd c.frm j) (l 0 j) (l 1 j) (l 2 j))
  (joinLanes (vfFmt t).width (rs.map (·.1)), orFlags rs)

/-- A VF member computes its lane function in every lane; one that rounds uses a stream word for each (R47). -/
theorem computesF_of_vfOp {i : Instr} {st : BitVec 3} {srcs : List Opnd} {d : BitVec 5} {t : BitVec 2} {lat : Nat} {rounds : Bool}
    {f : FloatFmt → Rnd → Nat → Nat → Nat → Nat × Fl} (hexec : ∀ s, exec i s = vfOp i st srcs d t lat rounds f s) :
    ComputesF i st.toNat srcs (.vector d) (after srcs lat) Context.frm (if rounds then vfLanes t else 0)
      (vfResult t (f (vfFmt t))) :=
  computesF_of_exec hexec

/-- Settles O21, member by member: what `vfOp` computes, with the lane function that R114 gives the member. -/
theorem vectorFloats : Obligations.VectorFloats := by
  unfold Obligations.VectorFloats
  intro st d a b t
  refine ⟨?vfadd, ?vfsub, ?vfmul, ?vfma, ?vfmin, ?vfmax, ?vfabs, ?vfneg, ?vfceq, ?vfclt, ?vfcle, ?vfrnd, ?vfscl, ?vfcls⟩
  case vfadd => exact (computesF_of_vfOp (exec_vfadd st d a b t) :)
  case vfsub => exact (computesF_of_vfOp (exec_vfsub st d a b t) :)
  case vfmul => exact (computesF_of_vfOp (exec_vfmul st d a b t) :)
  case vfma => exact (computesF_of_vfOp (exec_vfma st d a b t) :)
  case vfmin => exact (computesF_of_vfOp (exec_vfmin st d a b t) :)
  case vfmax => exact (computesF_of_vfOp (exec_vfmax st d a b t) :)
  case vfabs =>
    rw [← FloatFmt.signBit_eq]
    exact (computesF_of_vfOp (exec_vfabs st d a t) :)
  case vfneg =>
    rw [← FloatFmt.signBit_eq]
    exact (computesF_of_vfOp (exec_vfneg st d a t) :)
  case vfceq => exact (computesF_of_vfOp (exec_vfceq st d a b t) :)
  case vfclt => exact (computesF_of_vfOp (exec_vfclt st d a b t) :)
  case vfcle => exact (computesF_of_vfOp (exec_vfcle st d a b t) :)
  case vfrnd => exact (computesF_of_vfOp (exec_vfrnd st d a t) :)
  case vfscl => exact (computesF_of_vfOp (exec_vfscl st d a b t) :)
  case vfcls => exact (computesF_of_vfOp (exec_vfcls st d a t) :)

/-! ### Conversions (R117) -/

/-- Field j of packed fields of w bits begins at bit w · j (R40). -/
theorem fieldsOf_eq_map_range (w k x : Nat) : fieldsOf w k x = (List.range k).map (fun j => x / 2 ^ (w * j) % 2 ^ w) := by
  induction k generalizing x with
  | zero => rfl
  | succ k ih =>
    have hshift (j : Nat) : x / 2 ^ w / 2 ^ (w * j) = x / 2 ^ (w * (j + 1)) := by
      rw [Nat.div_div_eq_div_mul, ← Nat.pow_add, Nat.mul_succ, Nat.add_comm]
    simp [fieldsOf, ih, List.range_succ_eq_map, hshift]

/-- Element j of a conversion, read from its own bits of v and rounded as r says. -/
def cvtElement (x y : BitVec 5) (sat : Bool) (v : List W64) (r : Rnd) (j : Nat) : Nat × Fl :=
  convert x.toNat sat (intFmt y.toNat).isSome r (valueOf y.toNat (ofWords v / 2 ^ (fmtBits y.toNat * j) % 2 ^ fmtBits y.toNat))

/-- Every element takes the rounding of its number (R47, R117). -/
theorem cvtLanes_eq (c : Context) (mode : Nat) (x y : BitVec 5) (sat : Bool) (v : List W64) :
    cvtLanes c mode x y sat v = (List.range (cvtCount x y)).map (fun j => cvtElement x y sat v (c.rnd mode j) j) := by
  rw [cvtLanes, fieldsOf_eq_map_range]
  exact List.ext_getElem (by simp) fun j _ _ => by simp [cvtElement]

/-- The converted elements, and the events of all of them (R53). -/
def cvtResult (x y : BitVec 5) (sat : Bool) (mode : Context → Nat) (c : Context) (vs : List (List W64)) : List W64 × Fl :=
  let rs := (List.range (cvtCount x y)).map (fun j => cvtElement x y sat (arg vs 0) (c.rnd (mode c) j) j)
  (joinLanes (fmtBits x.toNat) (rs.map (·.1)), orFlags rs)

theorem computesF_of_cvtOp {i : Instr} {st : BitVec 3} {d a x y : BitVec 5} {t : BitVec 1} {mode : Context → Nat}
    (hexec : ∀ s, exec i s = cvtOp i st d a x y t mode s) :
    ComputesF i st.toNat [.vector a] (.vector d) (after [.vector a] 3) mode (cvtCount x y) (cvtResult x y (t == 1) mode) := by
  refine computesF_of_exec fun s => ?_
  rw [hexec, cvtOp]
  simp only [cvtLanes_eq]
  rfl

/-! ### Scalar floats (R118) -/

/-- The result of an SF member in an integer destination, and its events. -/
def sfResult (f : Rnd → Nat → Nat → Nat × Fl) (c : Context) (vs : List (List W64)) : List W64 × Fl :=
  let r := f (c.rnd c.frm 0) (arg1 vs 0).toNat (arg1 vs 1).toNat
  ([BitVec.ofNat 64 r.1], r.2)

/-- An SF member computes its function; one that rounds uses one stream word (R47). -/
theorem computesF_of_sfOp {i : Instr} {st : BitVec 3} {srcs : List Opnd} {d : BitVec 5} {rounds : Bool}
    {f : Rnd → Nat → Nat → Nat × Fl} (hexec : ∀ s, exec i s = sfOp i st srcs d rounds f s) :
    ComputesF i st.toNat srcs (.int d) (after srcs 3) Context.frm (if rounds then 1 else 0) (sfResult f) :=
  computesF_of_exec hexec

/-- Settles O23, member by member: what `sfOp` computes, with the function that R118 gives the member, and the conversions. -/
theorem scalarFloats : Obligations.ScalarFloats := by
  unfold Obligations.ScalarFloats
  intro st d a b x y t
  refine ⟨?fadd, ?fsub, ?fmul, ?fmin, ?fmax, ?fabs, ?fceq, ?fclt, ?fcle, ?fcvti, ?fcvtf, ?fcvtw, ?vcvt, ?vcvts⟩
  case fadd => exact (computesF_of_sfOp (exec_fadd st d a b t) :)
  case fsub => exact (computesF_of_sfOp (exec_fsub st d a b t) :)
  case fmul => exact (computesF_of_sfOp (exec_fmul st d a b t) :)
  case fmin => exact (computesF_of_sfOp (exec_fmin st d a b t) :)
  case fmax => exact (computesF_of_sfOp (exec_fmax st d a b t) :)
  case fabs =>
    rw [← FloatFmt.signBit_eq]
    exact (computesF_of_sfOp (exec_fabs st d a t) :)
  case fceq => exact (computesF_of_sfOp (exec_fceq st d a b t) :)
  case fclt => exact (computesF_of_sfOp (exec_fclt st d a b t) :)
  case fcle => exact (computesF_of_sfOp (exec_fcle st d a b t) :)
  case fcvti => exact (computesF_of_sfOp (exec_fcvti st d a t) :)
  case fcvtf => exact (computesF_of_sfOp (exec_fcvtf st d a t) :)
  case fcvtw => exact (computesF_of_sfOp (exec_fcvtw st d a t) :)
  case vcvt => exact computesF_of_cvtOp (exec_vcvt st d a x y t)
  case vcvts => exact computesF_of_cvtOp (exec_vcvts st d a x y t)

end Sys2Proof.Machine
end

section
/-! PROOFS. Words and instructions stand for each other: what a word of the tables decodes to (O46), that an instruction is the one its
word decodes to (O47) and a word the one that its instruction has (O48). -/

namespace Sys2Proof.Machine
open Sys2Proof.Laws

/-! ### A word from its fields -/

theorem fld_all (x : BitVec 32) : fld x 0 32 = x := BitVec.extractLsb'_eq_self

/-- Fields that lie next to each other are one field. -/
theorem append_eq_fld {n m lo : Nat} {x : BitVec 32} {a : BitVec n} {b : BitVec m} (ha : a = fld x (lo + m) n)
    (hb : b = fld x lo m) : a ++ b = fld x lo (n + m) := by
  subst ha hb
  ext i hi
  simp only [fld, BitVec.getElem_append, BitVec.getElem_extractLsb']
  split
  · rfl
  · next h => rw [Nat.add_assoc, Nat.add_sub_cancel' (Nat.le_of_not_lt h)]

theorem encode_of_eq_fld {i : Instr} {w x : BitVec 32} (hi : encode i = some w) (hw : w = fld x 0 32) : encode i = some x :=
  hi.trans (congrArg some (hw.trans (fld_all x)))

/-! ### The instruction of a row has the word that the row has read -/

/-- The instruction that a row answers, if it answers one, has the word x. -/
def IsWordOf (x : BitVec 32) (r : Option Instr) : Prop := ∀ i, r = some i → encode i = some x

theorem isWordOf_none {x : BitVec 32} : IsWordOf x none := fun _ h => nomatch h

theorem isWordOf_some {x : BitVec 32} {i : Instr} (h : encode i = some x) : IsWordOf x (some i) := by
  rintro _ ⟨⟩
  exact h

theorem isWordOf_ite {x : BitVec 32} {c : Prop} [Decidable c] {i : Instr} {r : Option Instr} (hr : IsWordOf x r)
    (hi : c → encode i = some x) : IsWordOf x (if c then some i else r) := by
  split
  · next h => exact isWordOf_some (hi h)
  · exact hr

/-- Along the major codes, those of one row without fixed fields first, and along the rows of each other one: the fields of a row, the
fixed ones (`hmaj`, `hrow`) and the free ones, follow one another from bit 31 to bit 0. -/
theorem rawS_isWordOf (x : BitVec 32) : IsWordOf x (rawS x) := by
  unfold rawS
  split
  case h_53 => exact isWordOf_none
  case h_2 | h_3 | h_4 | h_5 | h_7 | h_8 | h_9 | h_17 | h_18 | h_19 | h_25 | h_29 | h_30 =>
    next hmaj =>
    have hmaj := (BitVec.toNat_eq_nat.mp hmaj).2
    refine isWordOf_some (encode_of_eq_fld rfl ?_)
    repeat' refine append_eq_fld ?_ ?_
    all_goals simp only [hmaj, Nat.reduceAdd]
  all_goals
    next hmaj =>
    have hmaj := (BitVec.toNat_eq_nat.mp hmaj).2
    repeat refine isWordOf_ite ?_ (fun hrow => encode_of_eq_fld rfl ?_)
    · exact isWordOf_none
    all_goals
      repeat' refine append_eq_fld ?_ ?_
      all_goals simp only [hmaj, hrow, Nat.reduceAdd]

/-- As for the Soras words. -/
theorem rawM_isWordOf (x : BitVec 32) : IsWordOf x (rawM x) := by
  unfold rawM
  split
  case h_48 => exact isWordOf_none
  case h_39 | h_40 =>
    next hmaj =>
    have hmaj := (BitVec.toNat_eq_nat.mp hmaj).2
    refine isWordOf_some (encode_of_eq_fld rfl ?_)
    repeat' refine append_eq_fld ?_ ?_
    all_goals simp only [hmaj, Nat.reduceAdd]
  all_goals
    next hmaj =>
    have hmaj := (BitVec.toNat_eq_nat.mp hmaj).2
    repeat refine isWordOf_ite ?_ (fun hrow => encode_of_eq_fld rfl ?_)
    · exact isWordOf_none
    all_goals
      repeat' refine append_eq_fld ?_ ?_
      all_goals simp only [hmaj, hrow, Nat.reduceAdd]

/-! ### The word of an instruction is read by a row -/

/-- The word of an instruction is read as that instruction, by the table of its set; an event has no word. -/
theorem encodes (i : Instr) : Encodes.Statement i := by
  cases i with
  | add => apply Encodes.add | sub => apply Encodes.sub | and => apply Encodes.and | or => apply Encodes.or
  | xor => apply Encodes.xor | andn => apply Encodes.andn | orn => apply Encodes.orn | shl => apply Encodes.shl
  | shr => apply Encodes.shr | sar => apply Encodes.sar | rol => apply Encodes.rol | ror => apply Encodes.ror
  | mul => apply Encodes.mul | mulh => apply Encodes.mulh | mulhu => apply Encodes.mulhu | div => apply Encodes.div
  | divu => apply Encodes.divu | rem => apply Encodes.rem | remu => apply Encodes.remu | min => apply Encodes.min
  | max => apply Encodes.max | minu => apply Encodes.minu | maxu => apply Encodes.maxu | ceq => apply Encodes.ceq
  | cne => apply Encodes.cne | clt => apply Encodes.clt | cltu => apply Encodes.cltu | cle => apply Encodes.cle
  | cleu => apply Encodes.cleu | sel => apply Encodes.sel | clz => apply Encodes.clz | ctz => apply Encodes.ctz
  | popc => apply Encodes.popc | brev => apply Encodes.brev | bswap => apply Encodes.bswap | mov => apply Encodes.mov
  | addi => apply Encodes.addi | andi => apply Encodes.andi | ori => apply Encodes.ori | xori => apply Encodes.xori
  | shli => apply Encodes.shli | shri => apply Encodes.shri | sari => apply Encodes.sari | roli => apply Encodes.roli
  | ceqi => apply Encodes.ceqi | clti => apply Encodes.clti | cltui => apply Encodes.cltui | bfx => apply Encodes.bfx
  | bfi => apply Encodes.bfi | ldk => apply Encodes.ldk | ldkh => apply Encodes.ldkh | adpc => apply Encodes.adpc
  | padd => apply Encodes.padd | padde => apply Encodes.padde | psube => apply Encodes.psube | pfmt => apply Encodes.pfmt
  | pgetf => apply Encodes.pgetf | pgetb => apply Encodes.pgetb | pset => apply Encodes.pset | pstr => apply Encodes.pstr
  | pgeta => apply Encodes.pgeta | paddi => apply Encodes.paddi | br => apply Encodes.br | jmp => apply Encodes.jmp
  | call => apply Encodes.call | jmpi => apply Encodes.jmpi | calli => apply Encodes.calli | ret => apply Encodes.ret
  | loop => apply Encodes.loop | rep => apply Encodes.rep | start => apply Encodes.start | halt => apply Encodes.halt
  | joinh => apply Encodes.joinh | yield => apply Encodes.yield | saveh => apply Encodes.saveh | loadh => apply Encodes.loadh
  | resumeh => apply Encodes.resumeh | killh => apply Encodes.killh | hstat => apply Encodes.hstat | upret => apply Encodes.upret
  | nop => apply Encodes.nop | trap => apply Encodes.trap | eret => apply Encodes.eret | gets => apply Encodes.gets
  | puts => apply Encodes.puts | fence => apply Encodes.fence | ifence => apply Encodes.ifence | waita => apply Encodes.waita
  | fflag => apply Encodes.fflag | brk => apply Encodes.brk | sleepr => apply Encodes.sleepr | tinv => apply Encodes.tinv
  | ld => apply Encodes.ld | st => apply Encodes.st | ldl => apply Encodes.ldl | ldlAcq => apply Encodes.ldlAcq
  | ldf => apply Encodes.ldf | ldfe => apply Encodes.ldfe | stl => apply Encodes.stl | stlRel => apply Encodes.stlRel
  | stf => apply Encodes.stf | ste => apply Encodes.ste | ldv => apply Encodes.ldv | stv => apply Encodes.stv
  | ldx => apply Encodes.ldx | stx => apply Encodes.stx | pref => apply Encodes.pref | atomFadd => apply Encodes.atomFadd
  | atomFand => apply Encodes.atomFand | atomFor => apply Encodes.atomFor | atomFxor => apply Encodes.atomFxor
  | atomFmin => apply Encodes.atomFmin | atomFmax => apply Encodes.atomFmax | atomFminu => apply Encodes.atomFminu
  | atomFmaxu => apply Encodes.atomFmaxu | atomSwap => apply Encodes.atomSwap | atomCas => apply Encodes.atomCas
  | updAdd => apply Encodes.updAdd | updMin => apply Encodes.updMin | updMax => apply Encodes.updMax
  | updAmax => apply Encodes.updAmax | updAnd => apply Encodes.updAnd | updOr => apply Encodes.updOr
  | updXor => apply Encodes.updXor | pbind => apply Encodes.pbind | pstat => apply Encodes.pstat | pdrain => apply Encodes.pdrain
  | pord => apply Encodes.pord | bar => apply Encodes.bar | bara => apply Encodes.bara | barw => apply Encodes.barw
  | elect => apply Encodes.elect | gidx => apply Encodes.gidx | gsize => apply Encodes.gsize | vadd => apply Encodes.vadd
  | vsub => apply Encodes.vsub | vmul => apply Encodes.vmul | vmin => apply Encodes.vmin | vmax => apply Encodes.vmax
  | vminu => apply Encodes.vminu | vmaxu => apply Encodes.vmaxu | vand => apply Encodes.vand | vor => apply Encodes.vor
  | vxor => apply Encodes.vxor | vshl => apply Encodes.vshl | vshr => apply Encodes.vshr | vsar => apply Encodes.vsar
  | vceq => apply Encodes.vceq | vclt => apply Encodes.vclt | vcltu => apply Encodes.vcltu | vfadd => apply Encodes.vfadd
  | vfsub => apply Encodes.vfsub | vfmul => apply Encodes.vfmul | vfma => apply Encodes.vfma | vfmin => apply Encodes.vfmin
  | vfmax => apply Encodes.vfmax | vfabs => apply Encodes.vfabs | vfneg => apply Encodes.vfneg | vfceq => apply Encodes.vfceq
  | vfclt => apply Encodes.vfclt | vfcle => apply Encodes.vfcle | vfrnd => apply Encodes.vfrnd | vfscl => apply Encodes.vfscl
  | vfcls => apply Encodes.vfcls | vsplat => apply Encodes.vsplat | vext => apply Encodes.vext | vins => apply Encodes.vins
  | vshuf => apply Encodes.vshuf | vrev => apply Encodes.vrev | vzip => apply Encodes.vzip | vunz => apply Encodes.vunz
  | vsumh => apply Encodes.vsumh | vmaxh => apply Encodes.vmaxh | vamaxh => apply Encodes.vamaxh | vsel => apply Encodes.vsel
  | vabs => apply Encodes.vabs | vdot4 => apply Encodes.vdot4 | vmov => apply Encodes.vmov | vcvt => apply Encodes.vcvt
  | vcvts => apply Encodes.vcvts | frcp => apply Encodes.frcp | frsq => apply Encodes.frsq | fsqrt => apply Encodes.fsqrt
  | fexp2 => apply Encodes.fexp2 | flog2 => apply Encodes.flog2 | fsinp => apply Encodes.fsinp | fcosp => apply Encodes.fcosp
  | ftanh => apply Encodes.ftanh | ferf => apply Encodes.ferf | fadd => apply Encodes.fadd | fsub => apply Encodes.fsub
  | fmul => apply Encodes.fmul | fmin => apply Encodes.fmin | fmax => apply Encodes.fmax | fabs => apply Encodes.fabs
  | fceq => apply Encodes.fceq | fclt => apply Encodes.fclt | fcle => apply Encodes.fcle | fcvti => apply Encodes.fcvti
  | fcvtf => apply Encodes.fcvtf | fcvtw => apply Encodes.fcvtw | zdraw => apply Encodes.zdraw | zltq => apply Encodes.zltq
  | zltf => apply Encodes.zltf | zltz => apply Encodes.zltz | zfloor => apply Encodes.zfloor | zext => apply Encodes.zext
  | zlen => apply Encodes.zlen | zbits => apply Encodes.zbits | zmov => apply Encodes.zmov | zld => apply Encodes.zld
  | zst => apply Encodes.zst | sbind => apply Encodes.sbind | sfree => apply Encodes.sfree | rndw => apply Encodes.rndw
  | rndv => apply Encodes.rndv | sgen => apply Encodes.sgen | glaunch => apply Encodes.glaunch | gquery => apply Encodes.gquery
  | cpy => apply Encodes.cpy | csetg => apply Encodes.csetg | cgetg => apply Encodes.cgetg | mma => apply Encodes.mma
  | msetg => apply Encodes.msetg | mgetg => apply Encodes.mgetg | mldc => apply Encodes.mldc | mstc => apply Encodes.mstc
  | mzero => apply Encodes.mzero | mcommit => apply Encodes.mcommit | mwait => apply Encodes.mwait | coll => apply Encodes.coll
  | cquery => apply Encodes.cquery | cabort => apply Encodes.cabort | rkovl => apply Encodes.rkovl | rkrun => apply Encodes.rkrun
  | rksig => apply Encodes.rksig | rkstat => apply Encodes.rkstat | rkstop => apply Encodes.rkstop | dwait => apply Encodes.dwait
  | dstat => apply Encodes.dstat | sli => apply Encodes.sli | slih => apply Encodes.slih | sadd => apply Encodes.sadd
  | saddi => apply Encodes.saddi | ssub => apply Encodes.ssub | sand => apply Encodes.sand | sor => apply Encodes.sor
  | sxor => apply Encodes.sxor | sshl => apply Encodes.sshl | sshr => apply Encodes.sshr | smul => apply Encodes.smul
  | sclt => apply Encodes.sclt | sbz => apply Encodes.sbz | sbnz => apply Encodes.sbnz | sj => apply Encodes.sj
  | sloop => apply Encodes.sloop | cset => apply Encodes.cset | cstride => apply Encodes.cstride | cnext => apply Encodes.cnext
  | vld => apply Encodes.vld | vst => apply Encodes.vst | mwVadd => apply Encodes.mwVadd | mwVsub => apply Encodes.mwVsub
  | mwVmul => apply Encodes.mwVmul | mwVfma => apply Encodes.mwVfma | vscl => apply Encodes.vscl | mwVmax => apply Encodes.mwVmax
  | mwVmin => apply Encodes.mwVmin | mwVcvt => apply Encodes.mwVcvt | vspl => apply Encodes.vspl | kclr => apply Encodes.kclr
  | kadd => apply Encodes.kadd | krnd => apply Encodes.krnd | kanc => apply Encodes.kanc | cbegin => apply Encodes.cbegin
  | cend => apply Encodes.cend | cshift => apply Encodes.cshift | cxpose => apply Encodes.cxpose | ca2a => apply Encodes.ca2a
  | cred => apply Encodes.cred | crsc => apply Encodes.crsc | cgath => apply Encodes.cgath | cbcast => apply Encodes.cbcast
  | cbar => apply Encodes.cbar | msgo => apply Encodes.msgo | msgi => apply Encodes.msgi | ovsw => apply Encodes.ovsw
  | mwHalt => apply Encodes.mwHalt
  | _ => nofun

/-! ### The three statements -/

/-- A decoder answers what its table reads, when its free fields pass the check of the word. -/
theorem checked_eq_ok_iff {r : Option Instr} {i : Instr} : checked r = .ok i ↔ r = some i ∧ i.wf = true := by
  cases r with
  | none => simp [checked]
  | some j =>
    simp only [checked, Option.some.injEq]
    split
    · next hj => simp only [Except.ok.injEq, iff_self_and]; rintro rfl; exact hj
    · next hj => simp only [reduceCtorEq, false_iff, not_and]; rintro rfl; exact hj

/-- Settles O47: the table that reads the word gives the instruction back, and its fields pass the check of the word. -/
theorem encodeDecode : Obligations.EncodeDecode := by
  unfold Obligations.EncodeDecode
  intro i w hwf hw
  exact (encodes i w hw).imp (fun h => checked_eq_ok_iff.mpr ⟨h, hwf⟩) (fun h => checked_eq_ok_iff.mpr ⟨h, hwf⟩)

/-- Settles O48: the table answers the instruction of a row, whose word is put together from the fields that the row has read. -/
theorem decodeEncode : Obligations.DecodeEncode := by
  unfold Obligations.DecodeEncode
  rintro w i (h | h)
  · obtain ⟨hraw, hwf⟩ := checked_eq_ok_iff.mp h
    exact ⟨hwf, rawS_isWordOf w i hraw⟩
  · obtain ⟨hraw, hwf⟩ := checked_eq_ok_iff.mp h
    exact ⟨hwf, rawM_isWordOf w i hraw⟩

/-- Settles O46: eight closed words, each decoded. -/
theorem decodedWords : Obligations.DecodedWords := by
  unfold Obligations.DecodedWords
  decide

end Sys2Proof.Machine
end

section
/-! PROOFS. Loads of bytes at home (O11). -/

namespace Sys2Proof.Machine

/-! ### The address of a form M instruction (R66, R134) -/

theorem unitAddr_eq_ofInt (base : W64) (o : BitVec 8) (unit : Nat) :
    unitAddr base o unit = BitVec.ofInt 64 (base.toInt + o.toInt * unit) := by
  simp only [unitAddr, BitVec.ofInt_add, BitVec.ofInt_mul, BitVec.ofInt_toInt, BitVec.ofInt_natCast]
  rfl

theorem globalAddr_eq (base : W64) (o : BitVec 8) (unit : Nat) :
    globalAddr base o unit = (BitVec.ofInt 64 (base.toInt + o.toInt * unit)).toNat % 2 ^ 55 := by
  rw [globalAddr, toNat_va55, unitAddr_eq_ofInt]

theorem alignCands_of_aligned {va align : Nat} (h : va % align = 0) : alignCands va align = [] := if_neg (not_not_intro h)

/-! ### An access that reaches its bytes at home -/

theorem checkWatch_of_unwatched {s : State} {va len : Nat} {rd wr : Bool} (h : s.here.watchHit va len rd wr = none) :
    checkWatch va len rd wr s = .ok ((), s) := by
  simp only [checkWatch, h]

/-- Banks serve the bytes now, and nothing that the context has issued comes before them (R136, R371). -/
theorem later_home {s : State} {ps : List Place} (hbusy : s.busy .read ps = false) (hbefore : s.before (.home ps) = []) :
    (Target.home ps).later s = false := by
  simp [Target.later, Target.far, Target.busy, Target.places, hbusy, hbefore]

theorem fails_of_sound {s : State} {ps : List Place} (h : ∀ x ∈ ps, s.badWords.contains (s.wordAt none x) = false) :
    s.fails ps = false := by
  rw [State.fails, State.failsAt, List.any_eq_false.mpr, Bool.and_false]
  intro x hx
  rw [h x hx, Bool.false_and]
  exact Bool.false_ne_true

/-- Sound bytes in banks that serve them are read at once, with the contributions to them that L1s hold (R148). -/
theorem readTarget_home {s : State} {k : AccessKind} {len : Nat} {ps : List Place} (hbusy : s.busy .read ps = false)
    (hsound : ∀ x ∈ ps, (s.recall ps).badWords.contains ((s.recall ps).wordAt none x) = false) :
    readTarget k len (.home ps) s = .ok (.bytes (ps.map (s.recall ps).readByte), s.recall ps) := by
  simp [readTarget, readNear, hbusy, readAtHome, fails_of_sound hsound]

/-- A global load that reaches sound bytes at home delivers what its shape makes of them. -/
theorem globalLoad_home {i : Instr} {st : BitVec 3} {b d : Opnd} {o : BitVec 8} {unit size align : Nat} {shape : LoadShape}
    {acq nt : Bool} {ps : List Place} {s t : State} (hg : s.Admits i) (hc : s.Clear [b] (some d))
    (halign : globalAddr (arg1 (s.values [b]) 0) o unit % align = 0)
    (hreach : s.ReachesHome (globalAddr (arg1 (s.values [b]) 0) o unit) size .load true false ps t (alloc := !nt))
    (hbusy : t.busy .read ps = false) (hbefore : t.before (.home ps) = [])
    (hsound : ∀ x ∈ ps, (t.recall ps).badWords.contains ((t.recall ps).wordAt none x) = false) :
    globalLoad i st b d o unit size align shape acq nt s = .next (retire st.toNat
      (deliver d .now (shape.result (ps.map (t.recall ps).readByte)).1 (acquire acq (consume [b] (t.recall ps))))) := by
  obtain ⟨hok, hwatch⟩ := hreach
  refine issue_of_ok hg ?_
  rw [M_bind_ok (prepare_of_clear hc (alignCands_of_aligned halign)), M_bind_ok (get_apply s), M_bind_ok hok,
    M_bind_ok (checkWatch_of_unwatched hwatch), M_bind_ok (get_apply t), later_home hbusy hbefore]
  exact M_bind_ok (readTarget_home hbusy hsound)

/-- Settles O11: both instructions are `globalLoad`, LD with one word of the bytes and LDV with the words of its slots. -/
theorem globalLoads : Obligations.GlobalLoads := by
  unfold Obligations.GlobalLoads
  intro st w d b q o ps t
  constructor
  · rintro s hg hc ⟨halign, hreach, hbusy, hbefore, hsound⟩
    simp only [← globalAddr_eq] at halign hreach
    rw [exec_ld]
    exact globalLoad_home hg hc halign hreach hbusy hbefore hsound
  · rintro hq s hg hc ⟨halign, hreach, hbusy, hbefore, hsound⟩
    simp only [← globalAddr_eq] at halign hreach
    rw [exec_ldv, execLdv, if_neg (ne_true_of_eq_false hq)]
    exact globalLoad_home hg hc halign hreach hbusy hbefore hsound

end Sys2Proof.Machine
end

section
/-! PROOFS. Numbers as bytes: what the bytes of a number are, and the number that bytes make (R3). -/

namespace Sys2Proof.Machine

@[simp] theorem length_bytesOf (n x : Nat) : (bytesOf n x).length = n := by
  induction n generalizing x with
  | zero => rfl
  | succ n ih => rw [bytesOf, List.length_cons, ih]

theorem getElem_bytesOf {n k : Nat} (x : Nat) (h : k < (bytesOf n x).length) : (bytesOf n x)[k] = BitVec.ofNat 8 (x / 256 ^ k) := by
  induction n generalizing x k with
  | zero => exact absurd h (Nat.not_lt_zero k)
  | succ n ih =>
    cases k with
    | zero => simp [bytesOf]
    | succ k =>
      simp only [bytesOf, List.getElem_cons_succ, ih]
      rw [Nat.div_div_eq_div_mul, pow_succ']

theorem ofBytes_lt (l : List Byte) : ofBytes l < 256 ^ l.length := by
  induction l with
  | nil => exact Nat.one_pos
  | cons b r ih =>
    rw [ofBytes, List.length_cons, pow_succ]
    have := b.isLt
    omega

theorem ofBytes_append (l r : List Byte) : ofBytes (l ++ r) = ofBytes l + 256 ^ l.length * ofBytes r := by
  induction l with
  | nil => simp [ofBytes]
  | cons b l ih =>
    rw [List.cons_append, ofBytes, ih, ofBytes, List.length_cons, pow_succ]
    ring

theorem ofBytes_drop (k : Nat) (l : List Byte) : ofBytes (l.drop k) = ofBytes l / 256 ^ k := by
  rcases Nat.lt_or_ge l.length k with hk | hk
  · rw [List.drop_of_length_le hk.le, Nat.div_eq_of_lt ((ofBytes_lt l).trans_le (Nat.pow_le_pow_right (by decide) hk.le))]
    rfl
  · have hlen : (l.take k).length = k := List.length_take_of_le hk
    have h := ofBytes_append (l.take k) (l.drop k)
    rw [List.take_append_drop, hlen] at h
    rw [h, Nat.add_mul_div_left _ _ (Nat.pow_pos (by decide)), Nat.div_eq_of_lt ((ofBytes_lt _).trans_eq (by rw [hlen])), Nat.zero_add]

theorem ofBytes_take (k : Nat) (l : List Byte) : ofBytes (l.take k) = ofBytes l % 256 ^ k := by
  rcases Nat.lt_or_ge l.length k with hk | hk
  · rw [List.take_of_length_le hk.le, Nat.mod_eq_of_lt ((ofBytes_lt l).trans_le (Nat.pow_le_pow_right (by decide) hk.le))]
  · have hlen : (l.take k).length = k := List.length_take_of_le hk
    have h := ofBytes_append (l.take k) (l.drop k)
    rw [List.take_append_drop, hlen] at h
    rw [h, Nat.add_mul_mod_self_left, Nat.mod_eq_of_lt ((ofBytes_lt _).trans_eq (by rw [hlen]))]

theorem ofBytes_bytesOf (n x : Nat) : ofBytes (bytesOf n x) = x % 256 ^ n := by
  induction n generalizing x with
  | zero => exact (Nat.mod_one x).symm
  | succ n ih => rw [bytesOf, ofBytes, ih, BitVec.toNat_ofNat, pow_succ' 256 n, Nat.mod_mul]

/-- Byte k of a number made of bytes. -/
theorem ofBytes_digit {l : List Byte} {k : Nat} (h : k < l.length) : ofBytes l / 256 ^ k % 256 = l[k].toNat := by
  have hk : (l.drop k).take 1 = [l[k]] := by rw [List.drop_eq_getElem_cons h]; rfl
  rw [← ofBytes_drop, ← Nat.pow_one 256, ← ofBytes_take, hk]
  rfl

end Sys2Proof.Machine
end

section
/-! PROOFS. Two-operand integer instructions (O1). -/

namespace Sys2Proof.Machine

/-! ### Instructions that compute a result from clear operands -/

theorem computes_of_fixed {i : Instr} {stall : Nat} {srcs : List Opnd} {d : Opnd} {l : Nat} {f : State → List (List W64) → List W64}
    (hex : ∀ s, exec i s = compute i stall srcs d (some l) f s) : Computes i stall srcs d (after srcs l) f :=
  fun s hg hc _ => (hex s).trans (compute_completes i stall srcs d (some l) f s hg hc)

theorem computes_of_interlocked {i : Instr} {stall : Nat} {srcs : List Opnd} {d : Opnd} {f : State → List (List W64) → List W64}
    (hex : ∀ s, exec i s = compute i stall srcs d none f s) : Computes i stall srcs d atOnce f :=
  fun s hg hc _ => (hex s).trans (compute_completes i stall srcs d none f s hg hc)

/-- An INT member with two sources and a fixed latency, by a part function that is the model's (R75, R77). -/
theorem computes_of_int2 {i : Instr} {st : BitVec 3} {w : BitVec 2} {d a b : BitVec 5} {l : Nat} {f g : W64 → W64 → W64}
    (hex : ∀ s, exec i s = int2 i st w d a b (some l) f s) (hfg : ∀ x y, f x y = g x y) :
    Computes i st.toNat [.int a (parts w), .int b (parts w)] (.int d (parts w)) (after [.int a (parts w), .int b (parts w)] l)
      (byParts g) := by
  obtain rfl : f = g := funext fun x => funext (hfg x)
  exact computes_of_fixed hex

/-- As `computes_of_int2`, for a member whose result is interlocked. -/
theorem computes_of_int2_interlocked {i : Instr} {st : BitVec 3} {w : BitVec 2} {d a b : BitVec 5} {f g : W64 → W64 → W64}
    (hex : ∀ s, exec i s = int2 i st w d a b none f s) (hfg : ∀ x y, f x y = g x y) :
    Computes i st.toNat [.int a (parts w), .int b (parts w)] (.int d (parts w)) atOnce (byParts g) := by
  obtain rfl : f = g := funext fun x => funext (hfg x)
  exact computes_of_interlocked hex

/-- An INT member with one source. -/
theorem computes_of_int1 {i : Instr} {st : BitVec 3} {w : BitVec 2} {d a : BitVec 5} {f g : W64 → W64}
    (hex : ∀ s, exec i s = int1 i st w d a f s) (hfg : ∀ x, f x = g x) :
    Computes i st.toNat [.int a (parts w)] (.int d (parts w)) (after [.int a (parts w)] 1) (eachPart g) := by
  obtain rfl : f = g := funext hfg
  exact computes_of_fixed hex

/-! ### The part functions as numbers (R76, R77) -/

theorem sub_eq_ofInt (x y : W64) : x - y = BitVec.ofInt 64 (x.toInt - y.toInt) := by
  rw [Int.sub_eq_add_neg, BitVec.ofInt_add, BitVec.ofInt_neg, BitVec.ofInt_toInt, BitVec.ofInt_toInt, BitVec.sub_eq_add_neg]

theorem shiftLeft_eq_ofNat (x : W64) (k : Nat) : x <<< k = BitVec.ofNat 64 (x.toNat * 2 ^ k) := by
  apply BitVec.eq_of_toNat_eq
  rw [BitVec.toNat_shiftLeft, BitVec.toNat_ofNat, Nat.shiftLeft_eq]

theorem ushiftRight_eq_ofNat (x : W64) (k : Nat) : x >>> k = BitVec.ofNat 64 (x.toNat / 2 ^ k) := by
  rw [← Nat.shiftRight_eq_div_pow, ← BitVec.toNat_ushiftRight, BitVec.ofNat_toNat, BitVec.setWidth_eq]

theorem sshiftRight_eq_ofInt (x : W64) (k : Nat) : x.sshiftRight k = BitVec.ofInt 64 (x.toInt / 2 ^ k) := by
  rw [← BitVec.ofInt_toInt (x := x.sshiftRight k), BitVec.toInt_sshiftRight, Int.shiftRight_eq_div_pow]
  simp

theorem rotateLeft_eq_ofNat (x : W64) {k : Nat} (h : k < 64) :
    x.rotateLeft k = BitVec.ofNat 64 (x.toNat * 2 ^ k ||| x.toNat / 2 ^ (64 - k)) := by
  rw [BitVec.rotateLeft_def, Nat.mod_eq_of_lt h, BitVec.ofNat_or, shiftLeft_eq_ofNat, ushiftRight_eq_ofNat]

theorem rotateRight_eq_ofNat (x : W64) {k : Nat} (h : k < 64) :
    x.rotateRight k = BitVec.ofNat 64 (x.toNat / 2 ^ k ||| x.toNat * 2 ^ (64 - k)) := by
  rw [BitVec.rotateRight_def, Nat.mod_eq_of_lt h, BitVec.ofNat_or, shiftLeft_eq_ofNat, ushiftRight_eq_ofNat]

theorem shAmt_lt (y : W64) : shAmt y < 64 := Nat.mod_lt _ (by decide)

theorem eq_zero_iff_toNat (y : W64) : y = 0 ↔ y.toNat = 0 := BitVec.toNat_eq

/-- A choice by a strict test is the choice by the other when equal keys choose alike. -/
theorem ite_lt_eq_ite_le {α : Type} [LinearOrder α] {j k : α} {b : Bool} {u v : W64} (hb : b = true ↔ j < k) (heq : j = k → u = v) :
    (if b then u else v) = if j ≤ k then u else v := by
  rcases lt_trichotomy j k with h | h | h
  · rw [if_pos (hb.mpr h), if_pos h.le]
  · rw [heq h, ite_self, ite_self]
  · rw [if_neg (mt hb.mp h.not_gt), if_neg h.not_ge]

/-- A Boolean test and the proposition it decides make the same word. -/
theorem b2w_eq_ite {b : Bool} {p : Prop} [Decidable p] (h : b = true ↔ p) : b2w b = if p then 1 else 0 := if_congr h rfl rfl

/-- Settles O1, member by member: the model's part function, and the number that R76 and R77 give. -/
theorem integerBinary : Obligations.IntegerBinary := by
  intro st w d a b
  refine ⟨?add, ?sub, ?and, ?or, ?xor, ?andn, ?orn, ?shl, ?shr, ?sar, ?rol, ?ror, ?mul, ?mulh, ?mulhu, ?div, ?divu, ?rem, ?remu,
    ?min, ?max, ?minu, ?maxu, ?ceq, ?cne, ?clt, ?cltu, ?cle, ?cleu⟩
  case add => exact computes_of_int2 (exec_add st w d a b) fun _ _ => rfl
  case sub => exact computes_of_int2 (exec_sub st w d a b) sub_eq_ofInt
  case and => exact computes_of_int2 (exec_and st w d a b) fun _ _ => rfl
  case or => exact computes_of_int2 (exec_or st w d a b) fun _ _ => rfl
  case xor => exact computes_of_int2 (exec_xor st w d a b) fun _ _ => rfl
  case andn => exact computes_of_int2 (exec_andn st w d a b) fun _ _ => rfl
  case orn => exact computes_of_int2 (exec_orn st w d a b) fun _ _ => rfl
  case shl => exact computes_of_int2 (exec_shl st w d a b) fun x y => shiftLeft_eq_ofNat x (shAmt y)
  case shr => exact computes_of_int2 (exec_shr st w d a b) fun x y => ushiftRight_eq_ofNat x (shAmt y)
  case sar => exact computes_of_int2 (exec_sar st w d a b) fun x y => sshiftRight_eq_ofInt x (shAmt y)
  case rol => exact computes_of_int2 (exec_rol st w d a b) fun x y => rotateLeft_eq_ofNat x (shAmt_lt y)
  case ror => exact computes_of_int2 (exec_ror st w d a b) fun x y => rotateRight_eq_ofNat x (shAmt_lt y)
  case mul => exact computes_of_int2 (exec_mul st w d a b) fun _ _ => rfl
  case mulh => exact computes_of_int2 (exec_mulh st w d a b) fun _ _ => rfl
  case mulhu => exact computes_of_int2 (exec_mulhu st w d a b) fun _ _ => rfl
  case div => exact computes_of_int2_interlocked (exec_div st w d a b) fun _ y => if_congr (eq_zero_iff_toNat y) rfl rfl
  case divu => exact computes_of_int2_interlocked (exec_divu st w d a b) fun _ y => if_congr (eq_zero_iff_toNat y) rfl rfl
  case rem => exact computes_of_int2_interlocked (exec_rem st w d a b) fun _ y => if_congr (eq_zero_iff_toNat y) rfl rfl
  case remu => exact computes_of_int2_interlocked (exec_remu st w d a b) fun _ y => if_congr (eq_zero_iff_toNat y) rfl rfl
  case min => exact computes_of_int2 (exec_min st w d a b) fun _ _ =>
    ite_lt_eq_ite_le BitVec.slt_iff_toInt_lt BitVec.eq_of_toInt_eq
  case max => exact computes_of_int2 (exec_max st w d a b) fun _ _ =>
    ite_lt_eq_ite_le BitVec.slt_iff_toInt_lt fun h => (BitVec.eq_of_toInt_eq h).symm
  case minu => exact computes_of_int2 (exec_minu st w d a b) fun _ _ =>
    ite_lt_eq_ite_le BitVec.ult_iff_toNat_lt BitVec.eq_of_toNat_eq
  case maxu => exact computes_of_int2 (exec_maxu st w d a b) fun _ _ =>
    ite_lt_eq_ite_le BitVec.ult_iff_toNat_lt fun h => (BitVec.eq_of_toNat_eq h).symm
  case ceq => exact computes_of_int2 (exec_ceq st w d a b) fun _ _ => b2w_eq_ite beq_iff_eq
  case cne => exact computes_of_int2 (exec_cne st w d a b) fun _ _ => b2w_eq_ite bne_iff_ne
  case clt => exact computes_of_int2 (exec_clt st w d a b) fun _ _ => b2w_eq_ite BitVec.slt_iff_toInt_lt
  case cltu => exact computes_of_int2 (exec_cltu st w d a b) fun _ _ => b2w_eq_ite BitVec.ult_iff_toNat_lt
  case cle => exact computes_of_int2 (exec_cle st w d a b) fun _ _ => b2w_eq_ite BitVec.sle_iff_toInt_le
  case cleu => exact computes_of_int2 (exec_cleu st w d a b) fun _ _ => b2w_eq_ite BitVec.ule_iff_toNat_le

end Sys2Proof.Machine
end

section
/-! PROOFS. One-operand integer instructions, immediates, bit fields and constants (O2). -/

namespace Sys2Proof.Machine

/-! ### The one-operand part functions (R76) -/

/-- The run of members that pass a test, from 0 on, ends at the first that fails it. -/
theorem length_takeWhile_range (n : Nat) (p : Nat → Bool) : let m := ((List.range n).takeWhile p).length
    m ≤ n ∧ (∀ j < m, p j = true) ∧ (m < n → p m = false) := by
  have hm : ((List.range n).takeWhile p).length = (List.range n).findIdx (fun j => !p j) := by
    rw [List.takeWhile_eq_take_findIdx_not, List.length_take, Nat.min_eq_left List.findIdx_le_length]
  simp only [hm]
  refine ⟨List.findIdx_le_length.trans_eq List.length_range, fun j hj => ?_, fun hn => ?_⟩
  · have h := List.not_of_lt_findIdx hj
    simpa using h
  · have h := List.findIdx_getElem (p := fun j => !p j) (w := hn.trans_eq List.length_range.symm)
    simpa using h

theorem getLsbD_reverse_sub (x : W64) {j : Nat} (h : j < 64) : x.reverse.getLsbD (63 - j) = x.getLsbD j := by
  rw [BitVec.getLsbD_reverse, BitVec.getMsbD_eq_getLsbD]
  simp [show 63 - j < 64 by omega, show 64 - 1 - (63 - j) = j by omega]

theorem extractLsb'_ofBytes {l : List Byte} (hl : l.length = 8) {k : Nat} (hk : k < l.length) :
    (BitVec.ofNat 64 (ofBytes l)).extractLsb' (8 * k) 8 = l[k] := by
  apply BitVec.eq_of_toNat_eq
  have hlt : ofBytes l < 2 ^ 64 := (ofBytes_lt l).trans_eq (by rw [hl]; norm_num)
  rw [BitVec.extractLsb'_toNat, BitVec.toNat_ofNat, Nat.mod_eq_of_lt hlt, Nat.shiftRight_eq_div_pow, Nat.pow_mul, ← ofBytes_digit hk]

theorem extractLsb'_bswap (x : W64) {j : Nat} (h : j < 8) :
    (bswap x).extractLsb' (8 * (7 - j)) 8 = x.extractLsb' (8 * j) 8 := by
  rw [bswap, extractLsb'_ofBytes (by simp) (by simp; omega), List.getElem_reverse]
  simp only [length_bytesOf, getElem_bytesOf, show 8 - 1 - (7 - j) = j by omega]
  apply BitVec.eq_of_toNat_eq
  rw [BitVec.extractLsb'_toNat, Nat.shiftRight_eq_div_pow, Nat.pow_mul]
  rfl

/-! ### Immediates, bit fields and constants (R66, R79 to R81) -/

theorem imms_eq_ofInt (i : BitVec 11) : imms i = BitVec.ofInt 64 i.toInt := rfl

theorem toInt_imms (i : BitVec 11) : (imms i).toInt = i.toInt := BitVec.toInt_signExtend_of_le (by decide)

theorem immz_eq_ofNat (i : BitVec 11) : immz i = BitVec.ofNat 64 i.toNat := (BitVec.ofNat_toNat 64 i).symm

theorem add_imms (x : W64) (i : BitVec 11) : x + imms i = BitVec.ofInt 64 (x.toInt + i.toInt) := by
  rw [BitVec.ofInt_add, BitVec.ofInt_toInt, imms_eq_ofInt]

theorem eq_imms_iff (x : W64) (i : BitVec 11) : (x == imms i) = true ↔ x.toInt = i.toInt := by
  rw [beq_iff_eq, ← BitVec.toInt_inj, toInt_imms]

theorem slt_imms_iff (x : W64) (i : BitVec 11) : x.slt (imms i) = true ↔ x.toInt < i.toInt := by
  rw [BitVec.slt_iff_toInt_lt, toInt_imms]

theorem toNat_lowMask {len : Nat} (h : len ≤ 64) : (lowMask len).toNat = 2 ^ len - 1 := by
  have := Nat.pow_le_pow_right (n := 2) (by decide) h
  have := Nat.two_pow_pos len
  exact Nat.mod_eq_of_lt (by omega)

theorem getLsbD_lowMask {len : Nat} (h : len ≤ 64) (j : Nat) : (lowMask len).getLsbD j = decide (j < len) := by
  rw [BitVec.getLsbD, toNat_lowMask h, Nat.testBit_two_pow_sub_one]

theorem bfx_eq_ofNat (p : Nat) {len : Nat} (h : len ≤ 64) (x : W64) : bfx p len x = BitVec.ofNat 64 (x.toNat / 2 ^ p % 2 ^ len) := by
  rw [← Nat.and_two_pow_sub_one_eq_mod, ← toNat_lowMask h, ← Nat.shiftRight_eq_div_pow, ← BitVec.toNat_ushiftRight,
    ← BitVec.toNat_and, BitVec.ofNat_toNat, BitVec.setWidth_eq]
  rfl

theorem getLsbD_bfi (p : Nat) {len : Nat} (h : len ≤ 64) (x old : W64) {j : Nat} (hj : j < 64) :
    (bfi p len x old).getLsbD j = if p ≤ j ∧ j < p + len then x.getLsbD (j - p) else old.getLsbD j := by
  simp only [bfi, BitVec.getLsbD_or, BitVec.getLsbD_and, BitVec.getLsbD_not, BitVec.getLsbD_shiftLeft, getLsbD_lowMask h, hj,
    decide_true, Bool.true_and]
  by_cases hp : p ≤ j
  · by_cases hl : j < p + len
    · simp [hp, hl, show ¬ j < p by omega, show j - p < len by omega]
    · simp [hp, hl, show ¬ j < p by omega, show ¬ j - p < len by omega]
  · simp [hp, show j < p by omega]

theorem ldkh_eq_ofNat (x : W64) (i : BitVec 16) :
    (x <<< 16) ||| i.zeroExtend 64 = BitVec.ofNat 64 (x.toNat * 2 ^ 16 ||| i.toNat) := by
  rw [BitVec.ofNat_or, shiftLeft_eq_ofNat, BitVec.ofNat_toNat]

/-- An address is taken modulo 2^55 (R19). -/
theorem va55_ofInt (z : Int) : va55 (BitVec.ofInt 64 z) = BitVec.ofInt 64 (z % 2 ^ 55) := by
  apply BitVec.eq_of_toNat_eq
  rw [toNat_va55, BitVec.toNat_ofInt, BitVec.toNat_ofInt]
  omega

/-- The address of R66: the place of the instruction and four times its displacement. -/
theorem va55_displaced (pc : W64) {n : Nat} (i : BitVec n) :
    va55 (pc + 4 * i.signExtend 64) = BitVec.ofInt 64 ((pc.toInt + 4 * i.toInt) % 2 ^ 55) := by
  rw [← va55_ofInt, BitVec.ofInt_add, BitVec.ofInt_mul, BitVec.ofInt_toInt]
  rfl

theorem movOpnd_of_lt {c : BitVec 5} (h : c.toNat < 28) (n : Nat) : movOpnd c n = .int c n := if_neg (by omega)

theorem movOpnd_of_ge {c : BitVec 5} (h : 28 ≤ c.toNat) (n : Nat) : movOpnd c n = .pointer c := if_pos h

theorem computes_mov {st : BitVec 3} {w : BitVec 2} {d a : BitVec 5} {src dst : Opnd} (hs : movOpnd a (parts w) = src)
    (hd : movOpnd d (parts w) = dst) : Computes (.mov st w d a) st.toNat [src] dst (after [src] 1) (fun _ vs => arg vs 0) := by
  subst hs hd
  exact computes_of_fixed (exec_mov st w d a)

/-- An instruction whose one result word is the model's function of its operands. -/
theorem computes_of_word {i : Instr} {stall : Nat} {srcs : List Opnd} {d : Opnd} {l : Nat} {f g : State → List (List W64) → W64}
    (hex : ∀ s, exec i s = compute i stall srcs d (some l) (fun s vs => [f s vs]) s) (hfg : ∀ s vs, f s vs = g s vs) :
    Computes i stall srcs d (after srcs l) (fun s vs => [g s vs]) := by
  obtain rfl : f = g := funext fun s => funext (hfg s)
  exact computes_of_fixed hex

/-- Settles O2, member by member: the model's function of the operands, and the number or the bits that the rules give. -/
theorem integerForms : Obligations.IntegerForms := by
  constructor
  · intro st w d a b i n
    refine ⟨?clz, ?ctz, ?popc, ?brev, ?bswap, ?sel, fun ha hd => ?mov, fun ha hd => ?movPtr, fun ha hd => ?movFrom,
      fun ha hd => ?movTo, ?addi, ?andi, ?ori, ?xori, ?shli, ?shri, ?sari, ?roli, ?ceqi, ?clti, ?cltui⟩
    case clz =>
      refine ⟨fun x => ((List.range 64).takeWhile (fun j => !x.getLsbD (63 - j))).length, fun x => ?_,
        computes_of_int1 (exec_clz st w d a) fun _ => rfl⟩
      simpa using length_takeWhile_range 64 (fun j => !x.getLsbD (63 - j))
    case ctz =>
      refine ⟨fun x => ((List.range 64).takeWhile (fun j => !x.getLsbD j)).length, fun x => ?_,
        computes_of_int1 (exec_ctz st w d a) fun _ => rfl⟩
      simpa using length_takeWhile_range 64 (fun j => !x.getLsbD j)
    case popc =>
      refine computes_of_int1 (exec_popc st w d a) fun x => ?_
      rw [List.countP_eq_length_filter, popc]
    case brev => exact ⟨_, fun _ _ => getLsbD_reverse_sub _, computes_of_int1 (exec_brev st w d a) fun _ => rfl⟩
    case bswap => exact ⟨_, fun _ _ => extractLsb'_bswap _, computes_of_int1 (exec_bswap st w d a) fun _ => rfl⟩
    case sel => exact computes_of_fixed (exec_sel st w d a b)
    case mov => exact computes_mov (movOpnd_of_lt ha _) (movOpnd_of_lt hd _)
    case movPtr => exact computes_mov (movOpnd_of_ge ha _) (movOpnd_of_ge hd _)
    case movFrom => exact computes_mov (movOpnd_of_ge ha _) (movOpnd_of_lt hd _)
    case movTo => exact computes_mov (movOpnd_of_lt ha _) (movOpnd_of_ge hd _)
    case addi => exact computes_of_int1 (exec_addi st w d a i) fun x => add_imms x i
    case andi => exact computes_of_int1 (exec_andi st w d a i) fun x => congrArg (x &&& ·) (immz_eq_ofNat i)
    case ori => exact computes_of_int1 (exec_ori st w d a i) fun x => congrArg (x ||| ·) (immz_eq_ofNat i)
    case xori => exact computes_of_int1 (exec_xori st w d a i) fun x => congrArg (x ^^^ ·) (immz_eq_ofNat i)
    case shli => exact computes_of_int1 (exec_shli st w d a n) fun x => shiftLeft_eq_ofNat x n.toNat
    case shri => exact computes_of_int1 (exec_shri st w d a n) fun x => ushiftRight_eq_ofNat x n.toNat
    case sari => exact computes_of_int1 (exec_sari st w d a n) fun x => sshiftRight_eq_ofInt x n.toNat
    case roli => exact computes_of_int1 (exec_roli st w d a n) fun x => rotateLeft_eq_ofNat x n.isLt
    case ceqi => exact computes_of_int1 (exec_ceqi st w d a i) fun x => b2w_eq_ite (eq_imms_iff x i)
    case clti => exact computes_of_int1 (exec_clti st w d a i) fun x => b2w_eq_ite (slt_imms_iff x i)
    case cltui => exact computes_of_int1 (exec_cltui st w d a i) fun _ => b2w_eq_ite BitVec.ult_iff_toNat_lt
  · intro st d a p l i
    have hlen : l.toNat + 1 ≤ 64 := by omega
    refine ⟨?bfx, ?bfi, ?ldk, ?ldkh, ?adpc⟩
    case bfx => exact computes_of_word (exec_bfx st d a p l) fun _ vs => bfx_eq_ofNat p.toNat hlen (arg1 vs 0)
    case bfi =>
      exact ⟨bfi p.toNat (l.toNat + 1), fun x old _ hj => getLsbD_bfi p.toNat hlen x old hj, computes_of_fixed (exec_bfi st d a p l)⟩
    case ldk => exact computes_of_word (exec_ldk st d i) fun _ _ => rfl
    case ldkh => exact computes_of_word (exec_ldkh st d i) fun _ vs => ldkh_eq_ofNat (arg1 vs 0) i
    case adpc => exact computes_of_word (exec_adpc st d i) fun s _ => va55_displaced s.me.pc i

end Sys2Proof.Machine
end

section
/-! PROOFS. Pointer instructions and pointer units (O3). -/

namespace Sys2Proof.Machine

/-! ### The fields of a fat pointer as numbers (R44) -/

theorem toNat_withAddr (p v : W64) : (withAddr p v).toNat = 2 ^ 55 * (p.toNat / 2 ^ 55) + v.toNat % 2 ^ 55 := by
  rw [withAddr, BitVec.toNat_or, toNat_top9, toNat_va55, Nat.two_pow_add_eq_or_of_lt (Nat.mod_lt _ (by decide))]

theorem va55_eq_ofNat (v : W64) : va55 v = BitVec.ofNat 64 (v.toNat % 2 ^ 55) := by
  rw [← toNat_va55, BitVec.ofNat_toNat, BitVec.setWidth_eq]

theorem withAddr_eq (p v : W64) : withAddr p v = (p &&& 0xFF80000000000000) ||| BitVec.ofNat 64 (v.toNat % 2 ^ 55) := by
  rw [withAddr, va55_eq_ofNat]

/-- A field of a word, shifted into the low bits. -/
theorem toNat_field (x : W64) (lo k : Nat) (m : W64) (hm : m.toNat = 2 ^ k - 1) : ((x >>> lo) &&& m).toNat = x.toNat / 2 ^ lo % 2 ^ k := by
  rw [BitVec.toNat_and, hm, Nat.and_two_pow_sub_one_eq_mod, BitVec.toNat_ushiftRight, Nat.shiftRight_eq_div_pow]

/-- A field that fits where it is put. -/
theorem toNat_placed (x : W64) {lo n : Nat} (h : x.toNat < 2 ^ n) (hn : n + lo ≤ 64) : (x <<< lo).toNat = 2 ^ lo * x.toNat := by
  rw [BitVec.toNat_shiftLeft, Nat.shiftLeft_eq, Nat.mul_comm, Nat.mod_eq_of_lt]
  calc 2 ^ lo * x.toNat < 2 ^ lo * 2 ^ n := Nat.mul_lt_mul_of_pos_left h (Nat.two_pow_pos lo)
    _ = 2 ^ (n + lo) := by rw [← Nat.pow_add, Nat.add_comm]
    _ ≤ 2 ^ 64 := Nat.pow_le_pow_right (by decide) hn

theorem pfmt_eq_ofNat (p v : W64) : pfmt p v = BitVec.ofNat 64
    (p.toNat % 2 ^ 55 + v.toNat / 2 ^ 8 % 2 * 2 ^ 55 + v.toNat / 2 ^ 5 % 8 * 2 ^ 56 + v.toNat % 32 * 2 ^ 59) := by
  have hp : (p &&& 0x7FFFFFFFFFFFFF).toNat = p.toNat % 2 ^ 55 := toNat_va55 p
  have hf := toNat_field v 0 5 0x1F rfl
  have hb := toNat_field v 5 3 7 rfl
  have hn := toNat_field v 8 1 1 rfl
  rw [BitVec.ushiftRight_zero] at hf
  have hf' := toNat_placed (lo := 59) _ (hf.trans_lt (Nat.mod_lt _ (by decide))) (by decide)
  have hb' := toNat_placed (lo := 56) _ (hb.trans_lt (Nat.mod_lt _ (by decide))) (by decide)
  have hn' := toNat_placed (lo := 55) _ (hn.trans_lt (Nat.mod_lt _ (by decide))) (by decide)
  rw [hf] at hf'
  rw [hb] at hb'
  rw [hn] at hn'
  have hcomm : pfmt p v = ((v &&& 0x1F) <<< 59) ||| ((((v >>> 5) &&& 7) <<< 56) ||| ((((v >>> 8) &&& 1) <<< 55) ||| (p &&& 0x7FFFFFFFFFFFFF))) := by
    rw [pfmt, BitVec.or_assoc, BitVec.or_assoc, BitVec.or_comm, BitVec.or_assoc, BitVec.or_assoc]
    rfl
  apply BitVec.eq_of_toNat_eq
  rw [hcomm, BitVec.toNat_or, BitVec.toNat_or, BitVec.toNat_or, hp, hf', hb', hn', BitVec.toNat_ofNat]
  simp only [Nat.reducePow]
  rw [← Nat.two_pow_add_eq_or_of_lt (i := 55) (by omega), ← Nat.two_pow_add_eq_or_of_lt (i := 56) (by omega),
    ← Nat.two_pow_add_eq_or_of_lt (i := 59) (by omega)]
  omega

theorem pgetf_eq_ofNat (p : W64) : pgetf p =
    BitVec.ofNat 64 (p.toNat / 2 ^ 59 + p.toNat / 2 ^ 56 % 8 * 2 ^ 5 + p.toNat / 2 ^ 55 % 2 * 2 ^ 8) := by
  have hf : (p >>> 59).toNat = p.toNat / 2 ^ 59 := by rw [BitVec.toNat_ushiftRight, Nat.shiftRight_eq_div_pow]
  have hb := toNat_field p 56 3 7 rfl
  have hn := toNat_field p 55 1 1 rfl
  have hb' := toNat_placed (lo := 5) _ (hb.trans_lt (Nat.mod_lt _ (by decide))) (by decide)
  have hn' := toNat_placed (lo := 8) _ (hn.trans_lt (Nat.mod_lt _ (by decide))) (by decide)
  rw [hb] at hb'
  rw [hn] at hn'
  have hcomm : pgetf p = (((p >>> 55) &&& 1) <<< 8) ||| ((((p >>> 56) &&& 7) <<< 5) ||| (p >>> 59)) := by
    rw [pgetf, BitVec.or_comm, BitVec.or_comm (p >>> 59)]
  have hp := p.isLt
  apply BitVec.eq_of_toNat_eq
  rw [hcomm, BitVec.toNat_or, BitVec.toNat_or, hf, hb', hn', BitVec.toNat_ofNat]
  simp only [Nat.reducePow] at hp ⊢
  rw [← Nat.two_pow_add_eq_or_of_lt (i := 5) (by omega), ← Nat.two_pow_add_eq_or_of_lt (i := 8) (by omega)]
  omega

/-! ### Advances by element units (R82, R83) -/

theorem ptrAddr_eq (p : W64) : ptrAddr p = p.toNat % 2 ^ 55 := by rw [ptrAddr, bits, Nat.pow_zero, Nat.div_one]

theorem ptrNib_eq (p : W64) : ptrNib p = decide (p.toNat / 2 ^ 55 % 2 = 1) := Nat.testBit_eq_decide_div_mod_eq

/-- The NIB bit of a pointer is replaced. -/
theorem toNat_withNib (x : W64) (b : Prop) [Decidable b] :
    ((x &&& 0xFF7FFFFFFFFFFFFF) ||| (if b then 0x80000000000000 else 0)).toNat =
      2 ^ 56 * (x.toNat / 2 ^ 56) + ((if b then 2 ^ 55 else 0) + x.toNat % 2 ^ 55) := by
  have hmask : ∀ i : Fin 64, (0xFF7FFFFFFFFFFFFF : W64).getLsbD i = decide (i.val ≠ 55) := by decide
  have h : x &&& (0xFF7FFFFFFFFFFFFF : W64) = ((x >>> 56) <<< 56) ||| va55 x := by
    have hlow : ∀ i : Fin 64, (0x7FFFFFFFFFFFFF : W64).getLsbD i = decide (i.val < 55) := by decide
    apply BitVec.eq_of_getLsbD_eq
    intro i hi
    rw [BitVec.getLsbD_or, va55, BitVec.getLsbD_and, BitVec.getLsbD_and, hmask ⟨i, hi⟩, hlow ⟨i, hi⟩]
    rcases Nat.lt_trichotomy i 55 with h55 | rfl | h55
    · simp [h55, h55.ne, show i < 56 by omega]
    · simp
    · simp [h55.ne', hi, show ¬ i < 56 by omega, show ¬ i < 55 by omega, show 56 + (i - 56) = i by omega]
  have hx := x.isLt
  have hhi : ((x >>> 56) <<< 56).toNat = 2 ^ 56 * (x.toNat / 2 ^ 56) := by
    rw [BitVec.toNat_shiftLeft, BitVec.toNat_ushiftRight, Nat.shiftRight_eq_div_pow, Nat.shiftLeft_eq]
    omega
  have hnib : (if b then (0x80000000000000 : W64) else 0).toNat = 2 ^ 55 * (if b then 1 else 0) := by split <;> rfl
  have hif : (if b then 1 else 0) < 2 := by split <;> decide
  rw [h, BitVec.or_assoc, BitVec.or_comm (va55 x), BitVec.toNat_or, BitVec.toNat_or, hhi, hnib, toNat_va55,
    ← Nat.two_pow_add_eq_or_of_lt (Nat.mod_lt _ (by decide)), ← Nat.two_pow_add_eq_or_of_lt (by omega), mul_ite, Nat.mul_one, Nat.mul_zero]

theorem padde_of_half {p : W64} (h : unitOf p = .half) (v : W64) : padde p v =
    (withAddr p (BitVec.ofInt 64 ((halfPos p + v.toInt) / 2)) &&& 0xFF7FFFFFFFFFFFFF) |||
      (if (halfPos p + v.toInt) % 2 = 1 then 0x80000000000000 else 0) := by
  simp only [padde, h]

theorem padde_of_bytes {p : W64} {size n : Nat} (h : unitOf p = .bytes size n) (v : W64) :
    padde p v = withAddr p (p + BitVec.ofInt 64 (v.toInt / n * size)) := by
  simp only [padde, h]

/-- The half-byte position stands in the address and NIB; the fields above stay. -/
theorem toNat_padde_half {p : W64} (h : unitOf p = .half) (v : W64) : (padde p v).toNat / 2 ^ 56 = p.toNat / 2 ^ 56 ∧
    ((padde p v).toNat / 2 ^ 55 % 2 = 1 ↔ (halfPos p + v.toInt) % 2 = 1) ∧
    ((padde p v).toNat % 2 ^ 55 : Int) = (halfPos p + v.toInt) / 2 % 2 ^ 55 := by
  rw [padde_of_half h, toNat_withNib, toNat_withAddr, BitVec.toNat_ofInt]
  refine ⟨?_, ?_, ?_⟩
  · split <;> omega
  · split <;> omega
  · split <;> omega

/-- A position counted in halves: its whole part and its last half. -/
theorem half_position (h : Int) : h / 2 % 2 ^ 55 * 2 + h % 2 = h % 2 ^ 56 := by omega

theorem unitOf_eq_half_iff (p : W64) : unitOf p = .half ↔ ptrFmt p = 0x03 ∨ ptrFmt p = 0x04 := by
  unfold unitOf
  dsimp only
  split
  · next h => exact iff_of_true rfl h
  · next h =>
    refine iff_of_false (fun hu => ?_) h
    split at hu
    · nomatch hu
    · split at hu
      · nomatch hu
      · split at hu <;> nomatch hu

/-- In I4 and N4 an advance moves the half-byte position, and no other field. -/
theorem padde_half {p : W64} (h : unitOf p = .half) (v : W64) :
    (ptrAddr (padde p v) * 2 + (if ptrNib (padde p v) then 1 else 0) : Int) = (halfPos p + v.toInt) % 2 ^ 56 ∧
      ptrFmt (padde p v) = ptrFmt p ∧ ptrBlk (padde p v) = ptrBlk p := by
  obtain ⟨hhi, hnib, haddr⟩ := toNat_padde_half h v
  have hfmt (y : W64) : ptrFmt y = y.toNat / 2 ^ 56 / 8 % 32 := by rw [Nat.div_div_eq_div_mul]; rfl
  refine ⟨?_, by rw [hfmt, hfmt, hhi], congrArg (· % 8) hhi⟩
  rw [← half_position, ← haddr, ptrAddr_eq, ptrNib_eq]
  simp only [decide_eq_true_eq, hnib, Int.natCast_mod]
  split <;> omega

theorem ptrAddr_padde_bytes {p : W64} {size n : Nat} (h : unitOf p = .bytes size n) (v : W64) :
    (ptrAddr (padde p v) : Int) = (ptrAddr p + v.toInt / n * size) % 2 ^ 55 := by
  rw [padde_of_bytes h, ptrAddr_eq, ptrAddr_eq, toNat_withAddr, BitVec.toNat_add, BitVec.toNat_ofInt]
  generalize v.toInt / n * size = z
  omega

theorem padde_bytes_top {p : W64} {size n : Nat} (h : unitOf p = .bytes size n) (v : W64) :
    padde p v &&& 0xFF80000000000000 = p &&& 0xFF80000000000000 := by
  apply BitVec.eq_of_toNat_eq
  rw [padde_of_bytes h, toNat_top9, toNat_top9, toNat_withAddr]
  omega

/-- The distance of two addresses, counted in 55 bits with its sign. -/
theorem toInt_distance {p q : W64} {z : Int} (h : (ptrAddr p : Int) = (ptrAddr q + z) % 2 ^ 55) (hlo : -2 ^ 54 ≤ z) (hhi : z < 2 ^ 54) :
    (BitVec.ofNat 55 (p - q).toNat).toInt = z := by
  have hp := p.isLt
  have hq := q.isLt
  rw [ptrAddr_eq, ptrAddr_eq] at h
  rw [BitVec.toInt_ofNat', BitVec.toNat_sub, Int.bmod_def]
  split <;> omega

theorem psube_bytes {p q : W64} {size n : Nat} (h : unitOf p = .bytes size n) {m : Int} (hlo : -2 ^ 40 ≤ m) (hhi : m < 2 ^ 40)
    (ha : (ptrAddr p : Int) = (ptrAddr q + m * size) % 2 ^ 55) (hs : (0 : Int) < size) (hs' : size < 2 ^ 12) :
    psube p q = BitVec.ofInt 64 (m * n) := by
  have hs'' : (size : Int) < 2 ^ 12 := by exact_mod_cast hs'
  have hz : (BitVec.ofNat 55 (p - q).toNat).toInt = m * size := toInt_distance ha (by nlinarith) (by nlinarith)
  simp only [psube, h, hz]
  rw [mul_right_comm, Int.mul_tdiv_cancel _ hs.ne']

/-! ### The instructions (R83, R84) -/

/-- A PTR member that writes a pointer, by a function that is the model's. -/
theorem completes_of_ptrOp {i : Instr} {st : BitVec 3} {d a : BitVec 5} {b : Option (BitVec 5)} {bad : W64 → W64 → Bool}
    {f g : W64 → W64 → W64} {srcs : List Opnd} (hex : ∀ s, exec i s = ptrOp i st d a b bad f s)
    (hsrcs : Opnd.pointer a :: (b.map (fun b => Opnd.int b)).toList = srcs) (hfg : ∀ p v, f p v = g p v) :
    Completes i st.toNat srcs (some (.pointer d)) (fun s => bad (arg1 (s.values srcs) 0) (arg1 (s.values srcs) 1) = false)
      (gives srcs (.pointer d) (after srcs 1) (oneWord g)) := by
  subst hsrcs
  obtain rfl : f = g := funext fun p => funext (hfg p)
  intro s hg hc hbad
  rw [hex]
  exact prepared_completes hg hc (if_neg (ne_true_of_eq_false hbad))

/-- As `completes_of_ptrOp`, for a member that has no format error. -/
theorem computes_of_ptrOp {i : Instr} {st : BitVec 3} {d a : BitVec 5} {b : Option (BitVec 5)} {f g : W64 → W64 → W64}
    {srcs : List Opnd} (hex : ∀ s, exec i s = ptrOp i st d a b (fun _ _ => false) f s)
    (hsrcs : Opnd.pointer a :: (b.map (fun b => Opnd.int b)).toList = srcs) (hfg : ∀ p v, f p v = g p v) :
    Computes i st.toNat srcs (.pointer d) (after srcs 1) (oneWord g) :=
  fun s hg hc _ => completes_of_ptrOp hex hsrcs hfg s hg hc rfl

/-- Settles O3: each instruction by the function of the model, whose fields the lemmas above count. -/
theorem pointerArithmetic : Obligations.PointerArithmetic := by
  constructor
  · intro st d a b i
    refine ⟨?padd, ?pset, ?pfmt, ?padde, fun s hg hc hok => ?psube, ?pgetf, ?pgetb, ?pgeta, ?paddi, fun ha s hg hc _ => ?pstr⟩
    case padd => exact computes_of_ptrOp (exec_padd st d a b) rfl fun p v => withAddr_eq p (p + v)
    case pset => exact computes_of_ptrOp (exec_pset st d a b) rfl withAddr_eq
    case pfmt => exact computes_of_ptrOp (exec_pfmt st d a b) rfl pfmt_eq_ofNat
    case padde => exact completes_of_ptrOp (exec_padde st d a b) rfl fun _ _ => rfl
    case psube =>
      rw [exec_psube, execPsube]
      exact prepared_completes hg hc (if_neg (ne_true_of_eq_false hok))
    case pgetf =>
      simp only [← pgetf_eq_ofNat]
      exact computes_of_fixed (exec_pgetf st d a)
    case pgetb => exact computes_of_fixed (exec_pgetb st d a)
    case pgeta =>
      simp only [← va55_eq_ofNat]
      exact computes_of_fixed (exec_pgeta st d a)
    case paddi =>
      simp only [← withAddr_eq]
      exact computes_of_ptrOp (g := fun p _ => withAddr p (p + i.signExtend 64)) (exec_paddi st d a i) rfl fun _ _ => rfl
    case pstr =>
      rw [exec_pstr, execPstr]
      exact prepared_completes hg hc rfl
  · intro p q v
    refine ⟨fun h => padde_half h v, fun _ _ h => ⟨ptrAddr_padde_bytes h v, padde_bytes_top h v⟩, unitOf_eq_half_iff p,
      fun _ _ h m hlo hhi ha hs hs' => psube_bytes h hlo hhi ha hs hs'⟩

end Sys2Proof.Machine
end

section
/-! PROOFS. Branches, jumps, calls and LOOP (O4). -/

namespace Sys2Proof.Machine

/-! ### Conditions and targets (R66, R72, R85) -/

theorem msb_iff_toInt_neg (v : W64) : v.msb = true ↔ v.toInt < 0 := by rw [BitVec.msb_eq_toInt, decide_eq_true_iff]

theorem beq_zero_iff_toInt (v : W64) : (v == 0) = true ↔ v.toInt = 0 := by rw [beq_iff_eq, ← BitVec.toInt_inj]; rfl

theorem getLsbD_zero_iff_odd (v : W64) : v.getLsbD 0 = true ↔ v.toNat % 2 = 1 := by
  rw [BitVec.getLsbD, Nat.testBit_zero, decide_eq_true_iff]

/-- COND of BR on the value of A, as a number. -/
theorem brHolds_iff (c : BitVec 3) (v : W64) : brHolds c v = true ↔ match c.toNat with
    | 0 => v.toInt = 0 | 1 => v.toInt ≠ 0 | 2 => v.toInt < 0 | 3 => 0 ≤ v.toInt | 4 => 0 < v.toInt | 5 => v.toInt ≤ 0
    | 6 => v.toNat % 2 = 1 | _ => v.toNat % 2 = 0 := by
  have hc : ∀ c : BitVec 3, c = 0 ∨ c = 1 ∨ c = 2 ∨ c = 3 ∨ c = 4 ∨ c = 5 ∨ c = 6 ∨ c = 7 := by decide
  have hz := beq_zero_iff_toInt v
  have hneg := msb_iff_toInt_neg v
  have hodd := getLsbD_zero_iff_odd v
  have hne : (v != 0) = true ↔ v.toInt ≠ 0 := by rw [bne, Bool.not_eq_true', Bool.eq_false_iff, Ne, hz]
  have hpos : (!v.msb) = true ↔ 0 ≤ v.toInt := by rw [Bool.not_eq_true', Bool.eq_false_iff, Ne, hneg, Int.not_lt]
  have heven : (!v.getLsbD 0) = true ↔ v.toNat % 2 = 0 := by rw [Bool.not_eq_true', Bool.eq_false_iff, Ne, hodd]; omega
  rcases hc c with rfl | rfl | rfl | rfl | rfl | rfl | rfl | rfl
  · exact hz
  · exact hne
  · exact hneg
  · exact hpos
  · refine (Bool.and_eq_true _ _).to_iff.trans ((and_congr hpos hne).trans ?_)
    show 0 ≤ v.toInt ∧ v.toInt ≠ 0 ↔ 0 < v.toInt
    omega
  · refine (Bool.or_eq_true _ _).to_iff.trans ((or_congr hneg hz).trans ?_)
    show v.toInt < 0 ∨ v.toInt = 0 ↔ v.toInt ≤ 0
    omega
  · exact hodd
  · exact heven

theorem va55_va55 (v : W64) : va55 (va55 v) = va55 v := by
  apply BitVec.eq_of_toNat_eq
  rw [toNat_va55, toNat_va55, Nat.mod_mod]

theorem jumpTo_eq (v : W64) (s : State) : jumpTo v s = { s with target := some (BitVec.ofNat 64 (v.toNat % 2 ^ 55)) } := by
  rw [jumpTo, va55_eq_ofNat]

/-- A branch to the target of R66. -/
theorem jumpTo_displaced (pc : W64) {n : Nat} (i : BitVec n) (s : State) : jumpTo (pc + 4 * i.signExtend 64) s =
    { s with target := some (BitVec.ofNat 64 ((BitVec.ofInt 64 ((pc.toInt + 4 * i.toInt) % 2 ^ 55)).toNat % 2 ^ 55)) } := by
  rw [← va55_displaced, ← va55_eq_ofNat, va55_va55, jumpTo]

/-! ### Traps of an instruction's own operands (R74 step 5) -/

/-- Of clear operands only the instruction itself makes a trap. -/
theorem prepare_of_cand {s : State} {srcs : List Opnd} {dst : Option Opnd} {own : State → List Cand} {c : Cand}
    (h : s.Clear srcs dst) (ho : own s = [c]) : prepare srcs dst own s = .error (.trap c.cause c.tval) := by
  have hp : srcs.filterMap s.poisoned = [] := by
    simpa [List.filterMap_eq_nil_iff] using h.sound
  simp only [prepare, ready, h.free, hp, List.head?_nil, h.sized, h.traps, ho]
  rfl

theorem and_three_iff (v : W64) : v &&& 3 = 0 ↔ v.toNat % 4 = 0 := by
  rw [BitVec.toNat_eq, BitVec.toNat_and]
  exact Iff.of_eq (congrArg (· = 0) (Nat.and_two_pow_sub_one_eq_mod v.toNat 2))

/-- A misaligned target, or none. -/
theorem targetCands_of_aligned {v : W64} (h : v.toNat % 4 = 0) : (if v &&& 3 ≠ 0 then [Cand.align v] else []) = [] :=
  if_neg (not_not_intro ((and_three_iff v).mpr h))

theorem targetCands_of_misaligned {v : W64} (h : v.toNat % 4 ≠ 0) : (if v &&& 3 ≠ 0 then [Cand.align v] else []) = [Cand.align v] :=
  if_pos (mt (and_three_iff v).mp h)

/-! ### The members of JREG and LOOP (R86) -/

section
variable {i : Instr} {st : BitVec 3} {o : Opnd} {linked : Bool} {s : State}

theorem jumpReg_aligned (hg : s.Admits i) (hc : s.Clear [o] none) (h : (arg1 (s.values [o]) 0).toNat % 4 = 0) :
    jumpReg i st o linked s = .next (retire st.toNat (jumpTo (arg1 (s.values [o]) 0)
      (if linked then link (consume [o] s) else consume [o] s))) :=
  prepared_completes hg hc (targetCands_of_aligned h)

theorem jumpReg_misaligned (hg : s.Admits i) (hc : s.Clear [o] none) (h : (arg1 (s.values [o]) 0).toNat % 4 ≠ 0) :
    jumpReg i st o linked s = .next (takeTrap 0x0A (arg1 (s.values [o]) 0) s.me.pc s) := by
  unfold jumpReg
  exact issue_of_error hg (M_bind_error (prepare_of_cand (c := Cand.align _) hc (targetCands_of_misaligned h)))

end

/-- Settles O4, member by member, by where each lets its context go on. -/
theorem branches : Obligations.Branches := by
  intro st c a i j
  refine ⟨fun s hg hc hcond => ?br, fun s hg hc hcond => ?brNot, fun s hg _ _ => ?jmp, fun s hg _ _ => ?call,
    fun s hg hc h => ?jmpi, fun s hg hc h => ?calli, fun s hg hc h => ?ret, fun s hg hc ⟨h, _⟩ => ?loop, fun s hg hc ⟨h, _⟩ => ?loopEnd,
    ?traps, fun s hg hc h => ?retTraps⟩
  case br =>
    rw [exec_br, execBr, prepared_completes hg hc rfl, if_pos ((brHolds_iff c _).mpr hcond), jumpTo_displaced]
  case brNot =>
    rw [exec_br, execBr, prepared_completes hg hc rfl, if_neg (mt (brHolds_iff c _).mp hcond)]
  case jmp =>
    rw [exec_jmp, execJmp, issue_of_ok hg (upd_apply _ s), jumpTo_displaced]
  case call =>
    rw [exec_call, execCall, issue_of_ok hg (upd_apply _ s), jumpTo_displaced]
    rfl
  case jmpi =>
    rw [exec_jmpi, execJmpi, jumpReg_aligned hg hc h, jumpTo_eq]
    rfl
  case calli =>
    rw [exec_calli, execCalli, jumpReg_aligned hg hc h, jumpTo_eq, if_pos rfl]
    rfl
  case ret =>
    rw [exec_ret, execRet, jumpReg_aligned hg hc h, jumpTo_eq]
    rfl
  case loop =>
    have hne : arg1 (s.values [.int a]) 0 - 1 ≠ 0 := sub_ne_zero.mpr h
    rw [exec_loop, execLoop, prepared_completes hg hc rfl, if_pos hne, jumpTo_displaced]
  case loopEnd =>
    have hz : arg1 (s.values [.int a]) 0 - 1 = 0 := sub_eq_zero.mpr h
    rw [exec_loop, execLoop, prepared_completes hg hc rfl, if_neg (not_not_intro hz), hz]
  case traps =>
    intro k hk s hg hc h
    simp only [List.mem_cons, List.not_mem_nil, or_false] at hk
    rcases hk with rfl | rfl
    · exact jumpReg_misaligned hg hc h
    · exact jumpReg_misaligned hg hc h
  case retTraps => exact jumpReg_misaligned hg hc h

end Sys2Proof.Machine
end

section
/-! PROOFS. System instructions: NOP, TRAP, ERET, BREAK, FENCE and IFENCE (O8), and what a trap does to a SLEEPR that it ends (O53). -/

namespace Sys2Proof.Machine

/-! ### Accesses that have been performed (R106) -/

theorem ctx_cur (s : State) : s.ctx s.cur.core s.cur.ctx.val = s.me := by
  simp only [State.ctx, Core.ctx, ctxIx_cur]
  rfl

theorem merging_eq_nil_iff (s : State) (c : Nat) :
    s.merging c = [] ↔ ∀ e ∈ s.ranks, ∀ q ∈ e.2.pending, q.user ≠ .merge c := by
  simp [State.merging, List.flatMap_eq_nil_iff, List.filter_eq_nil_iff]

theorem duesOf_eq_nil_iff (k : Core) (x : Nat) : k.duesOf x = [] ↔ ∀ w ∈ k.spmDue, w.ctx ≠ x := by
  simp [Core.duesOf, List.filter_eq_nil_iff]

theorem performed_of_allPerformed {s : State} (h : s.AllPerformed) : s.performed s.cur.core s.cur.ctx.val = true := by
  obtain ⟨hun, hrem, hpark, hload, hdue, hmerge⟩ := h
  have hd : (s.core s.cur.core).duesOf s.cur.ctx.val = [] := (duesOf_eq_nil_iff _ _).mpr hdue
  simp only [State.performed, State.storesDone, ctx_cur, hun, hrem, hpark, hload, (merging_eq_nil_iff s _).mpr hmerge, hd]
  rfl

/-! ### Lines that an acquire at DOMAIN drops (R234) -/

/-- A core without the lines of other packages, and with none on their way. -/
def Core.withoutFar (k : Core) : Core := { k with
  l1 := k.l1.filter (·.data.isNone)
  ctxs := k.ctxs.map (fun (m : Context) => { m with loads := m.loads.map (fun (l : Load) => { l with fill := false }) }) }

/-- Every core of the list drops its lines, and no core gets any. -/
theorem foldl_withoutFar_l1 (l : List Nat) (s : State) (k : Nat) :
    ∀ x ∈ ((l.foldl (fun s k => s.updCore k Core.withoutFar) s).core k).l1, x ∈ (s.core k).l1 ∧ (k ∈ l → x.data = none) := by
  induction l generalizing s with
  | nil => exact fun x hx => ⟨hx, fun h => nomatch h⟩
  | cons c r ih =>
    intro x hx
    obtain ⟨hin, hdata⟩ := ih (s.updCore c Core.withoutFar) x hx
    by_cases hk : k = c
    · subst hk
      rw [core_updCore] at hin
      obtain ⟨hold, hnone⟩ := List.mem_filter.mp hin
      exact ⟨hold, fun _ => Option.isNone_iff_eq_none.mp hnone⟩
    · rw [core_updCore_ne s _ hk] at hin
      exact ⟨hin, fun h => hdata ((List.mem_cons.mp h).resolve_left hk)⟩

/-- Settles O8, member by member. -/
theorem systemControl : Obligations.SystemControl := by
  intro st a
  refine ⟨fun s hg _ _ => ?nop, fun s hg hc _ => ?trap, fun s hg _ _ => ?eret, fun s hg h => ?brkHalts, fun s hg h => ?brkTraps,
    fun s hg _ h => ?fence, fun s c k hk l hl => ?lines, fun s hg _ _ => ?ifence⟩
  case nop => exact (exec_nop st s).trans (issue_of_ok hg (pure_apply () s))
  case trap =>
    rw [exec_trap, execTrap]
    exact prepared_completes hg hc rfl
  case eret => exact (exec_eret st s).trans (issue_of_ok hg (upd_apply _ s))
  case brkHalts => exact (exec_brk st s).trans (issue_of_error (e := .halt 2) hg (if_pos h))
  case brkTraps => exact (exec_brk st s).trans (issue_of_error (e := .trap Cause.brk 0) hg (if_neg (ne_true_of_eq_false h)))
  case fence =>
    rw [exec_fence, execFence]
    refine issue_of_ok hg ?_
    rw [M_bind_ok (get_apply s), performed_of_allPerformed h, Bool.not_true, M_bind_ok (waitIf_false _ s)]
    rfl
  case lines =>
    obtain ⟨hold, hnone⟩ := foldl_withoutFar_l1 (s.l1Cores c) s k l hl
    exact ⟨hnone hk, hold⟩
  case ifence => exact (exec_ifence st s).trans (issue_of_ok hg (upd_apply _ s))

/-! ### A trap ends a SLEEPR -/

/-- The context sleeps in SLEEPR (R109). -/
def sleeping : State := State.reset.updMe (fun c => { c with sleep := some false })

/-- Refutes O53: a trap taken ends the sleep of its context, which the frame of the statement holds unchanged. -/
theorem not_traps : ¬ Obligations.Traps := by
  intro h
  obtain ⟨⟨_, _, _, _, _, _, _, _, _, _, _, _, hframe, _⟩, _⟩ := h sleeping 0x32 0 0 (by decide)
  have hsleep := congrArg Context.sleep hframe
  change (takeTrap 0x32 0 0 sleeping).me.sleep = sleeping.me.sleep at hsleep
  rw [takeTrap, me_updMe, sleeping, me_updMe] at hsleep
  exact nomatch hsleep

end Sys2Proof.Machine
end

section
/-! PROOFS. Helpers: START, HALT, JOINH, YIELD and HSTAT (O6, O60). -/

namespace Sys2Proof.Machine

/-! ### Helper numbers and FREE helpers (R18, R88) -/

theorem freeHelper_eq_none {k : Core} (h : ∀ x, 1 ≤ x → x ≤ 10 → (k.ctx x).status ≠ .free) : k.freeHelper = none := by
  rw [Core.freeHelper, List.find?_eq_none]
  intro x hx
  obtain ⟨j, hj, rfl⟩ := List.mem_map.mp hx
  exact fun hd => h (j + 1) (Nat.le_add_left 1 j) (List.mem_range.mp hj) (of_decide_eq_true hd)

theorem freeHelper_eq_some {k : Core} {h : Nat} (h1 : 1 ≤ h) (h10 : h ≤ 10) (hf : (k.ctx h).status = .free)
    (hlow : ∀ x, 1 ≤ x → x < h → (k.ctx x).status ≠ .free) : k.freeHelper = some h := by
  have hl : (List.range 10).map (· + 1) = List.range' 1 10 := by decide
  rw [Core.freeHelper, hl, List.find?_range'_eq_some]
  refine ⟨decide_eq_true hf, List.mem_range'_1.mpr ⟨h1, Nat.lt_succ_of_le h10⟩, fun x hx1 hxh => ?_⟩
  simpa using hlow x hx1 hxh

theorem helperOf_eq_some {v : W64} {h : Nat} (h1 : 1 ≤ h) (h10 : h ≤ 10) (hv : v.toInt = h) : helperOf v = some h := by
  have hn : v.toNat = h := by
    have h2 := BitVec.toInt_eq_toNat_bmod v
    have hlt := v.isLt
    rw [BitVec.toInt_eq_toNat_cond] at hv
    omega
  rw [helperOf, if_pos (by omega), hn]

theorem helperOf_eq_none {v : W64} (h : v.toInt < 1 ∨ 10 < v.toInt) : helperOf v = none := if_neg (by omega)

/-- A word is the number of a helper, or of none. -/
theorem helperOf_cases (v : W64) : (∃ h : Nat, 1 ≤ h ∧ h ≤ 10 ∧ v.toInt = h ∧ helperOf v = some h) ∨
    ((v.toInt < 1 ∨ 10 < v.toInt) ∧ helperOf v = none) := by
  by_cases hv : v.toInt < 1 ∨ 10 < v.toInt
  · exact .inr ⟨hv, helperOf_eq_none hv⟩
  · have hn : v.toInt = v.toInt.toNat := by omega
    exact .inl ⟨v.toInt.toNat, by omega, by omega, hn, helperOf_eq_some (by omega) (by omega) hn⟩

/-! ### Where the members complete -/

section
variable {st : BitVec 3} {d a b : BitVec 5} {s : State}

theorem start_starts {h : Nat} (hg : s.Admits (.start st d a b)) (hc : s.Clear [.int a, .int b] (some (.int d)))
    (hal : (arg1 (s.values [.int a, .int b]) 0).toNat % 4 = 0) (hf : s.here.freeHelper = some h) :
    exec (.start st d a b) s = .next (retire st.toNat (deliver (.int d) (after [.int a, .int b] 1 s) [BitVec.ofNat 64 h]
      ((consume [.int a, .int b] s).updHere (fun k => k.setCtx h (startContext (isPager s.cur.core) (k.ctx 0) (k.ctx h)
        (arg1 (s.values [.int a, .int b]) 0) (arg1 (s.values [.int a, .int b]) 1) s.now))))) := by
  rw [exec_start, execStart, prepared_completes hg hc (targetCands_of_aligned hal)]
  simp only [hf]
  rfl

theorem start_without_free (hg : s.Admits (.start st d a b)) (hc : s.Clear [.int a, .int b] (some (.int d)))
    (hal : (arg1 (s.values [.int a, .int b]) 0).toNat % 4 = 0) (hf : s.here.freeHelper = none) :
    exec (.start st d a b) s = .next (retire st.toNat (gives [.int a, .int b] (.int d) (after [.int a, .int b] 1)
      (fun _ _ => [BitVec.allOnes 64]) s)) := by
  rw [exec_start, execStart, prepared_completes hg hc (targetCands_of_aligned hal)]
  simp only [hf]
  rfl

/-- A context that HALT stops, and of the control context what that does to the FAULTED helpers (R90, R102). -/
def State.halted (s : State) : State :=
  let t := s.updMe (fun c => c.leave s.cur.ctx.val)
  if s.cur.ctx = 0 then t.updHere (·.releaseFaulted) else t

theorem halt_completes (hg : s.Admits (.halt st)) (hr : s.haltReady s.cur.core s.cur.ctx.val = true) :
    exec (.halt st) s = .next (retire st.toNat s.halted) := by
  rw [exec_halt, execHalt]
  refine issue_of_ok hg ?_
  rw [M_bind_ok (get_apply s), hr]
  rfl

theorem joinh_completes (hg : s.Admits (.joinh st a)) (hc : s.Clear [.int a] none)
    (h : ∀ h : Nat, 1 ≤ h → h ≤ 10 → (arg1 (s.values [.int a]) 0).toInt = h → h = s.cur.ctx.val ∨ (s.here.ctx h).status = .free) :
    exec (.joinh st a) s = .next (retire st.toNat (consume [.int a] s)) := by
  rw [exec_joinh, execJoinh]
  refine issue_of_ok hg ?_
  rw [M_bind_ok (prepare_of_clear hc rfl), M_bind_ok (get_apply s)]
  rcases helperOf_cases (arg1 (s.values [.int a]) 0) with ⟨x, h1, h10, hx, ho⟩ | ⟨_, ho⟩
  · have hgo : (x != s.cur.ctx.val && decide ((s.here.ctx x).status ≠ .free)) = false := by
      rcases h x h1 h10 hx with he | he <;> simp [he]
    simp only [ho, hgo]
    rfl
  · simp only [ho]
    rfl

theorem joinh_waits {h : Nat} (h1 : 1 ≤ h) (h10 : h ≤ 10) (hg : s.Admits (.joinh st a)) (hc : s.Clear [.int a] none)
    (hn : (arg1 (s.values [.int a]) 0).toInt = h) (hcur : h ≠ s.cur.ctx.val) (hf : (s.here.ctx h).status ≠ .free) :
    exec (.joinh st a) s = .next (s.updMe (fun c => { c with wait := some (.joinh h) })) := by
  have hstop : (h != s.cur.ctx.val && decide ((s.here.ctx h).status ≠ .free)) = true := by simp [hcur, hf]
  rw [exec_joinh, execJoinh]
  refine issue_of_error (e := .wait (.joinh h)) hg ?_
  rw [M_bind_ok (prepare_of_clear hc rfl), M_bind_ok (get_apply s)]
  simp only [helperOf_eq_some h1 h10 hn, hstop]
  rfl

/-- The word that HSTAT delivers (R88). -/
def State.hstatWord (s : State) (v : W64) : W64 :=
  if s.cur.ctx ≠ 0 then ofInt64 (-2)
  else match helperOf v with
    | none => ofInt64 (-1)
    | some h => BitVec.ofNat 64 (stateCode (s.here.ctx h).status)

theorem hstat_completes (hg : s.Admits (.hstat st d a)) (hc : s.Clear [.int a] (some (.int d))) :
    exec (.hstat st d a) s = .next (retire st.toNat (gives [.int a] (.int d) atOnce (fun s vs => [s.hstatWord (arg1 vs 0)]) s)) := by
  rw [exec_hstat]
  exact compute_completes _ _ _ _ none _ s hg hc

theorem hstatWord_of_helper (v : W64) (h : s.cur.ctx ≠ 0) : s.hstatWord v = BitVec.ofInt 64 (-2) := if_pos h

theorem hstatWord_of_none {v : W64} (h0 : s.cur.ctx = 0) (h : v.toInt < 1 ∨ 10 < v.toInt) : s.hstatWord v = BitVec.ofInt 64 (-1) := by
  rw [State.hstatWord, if_neg (not_not_intro h0), helperOf_eq_none h]
  rfl

theorem hstatWord_of_some {v : W64} {h : Nat} (h0 : s.cur.ctx = 0) (h1 : 1 ≤ h) (h10 : h ≤ 10) (hv : v.toInt = h) :
    s.hstatWord v = BitVec.ofNat 64 (stateCode (s.here.ctx h).status) := by
  rw [State.hstatWord, if_neg (not_not_intro h0), helperOf_eq_some h1 h10 hv]

end

/-- Settles O6, member by member, by where each completes. -/
theorem helperControl : Obligations.HelperControl := by
  intro st d a b
  refine ⟨fun h s hg hc ⟨hal, hf⟩ => ?start, fun s hg hc ⟨hal, hf⟩ => ?none, fun s hg _ ⟨h0, hr⟩ => ?halt,
    fun s hg _ ⟨h0, hr⟩ => ?haltControl, fun s hg hc h => joinh_completes hg hc h, fun s hg _ _ => ?yield, fun s hg hc h0 => ?hstatHelper,
    fun h h1 h10 s hg hc ⟨h0, hv⟩ => ?hstat, fun s hg hc ⟨h0, hv⟩ => ?hstatNone⟩
  case start => exact start_starts hg hc hal hf
  case none => exact start_without_free hg hc hal (freeHelper_eq_none hf)
  case halt => rw [halt_completes hg hr, State.halted, if_neg h0]
  case haltControl =>
    have h0v : s.cur.ctx.val = 0 := congrArg Fin.val h0
    rw [halt_completes hg (by rwa [h0v]), State.halted, if_pos h0, h0v]
  case yield => exact (exec_yield st s).trans (issue_of_ok hg (upd_apply _ s))
  case hstatHelper =>
    rw [hstat_completes hg hc]
    simp only [gives, hstatWord_of_helper _ h0]
  case hstat =>
    rw [hstat_completes hg hc]
    simp only [gives, hstatWord_of_some h0 h1 h10 hv]
    cases (s.here.ctx h).status <;> rfl
  case hstatNone =>
    rw [hstat_completes hg hc]
    simp only [gives, hstatWord_of_none h0 hv]

end Sys2Proof.Machine
end

section
/-! PROOFS. Where START, HALT, JOINH, YIELD and HSTAT complete, and what they leave (O60). -/

namespace Sys2Proof.Machine

/-! ### What naming operands leaves of the other contexts -/

/-- The issuing context, the clock of its core and the core's other contexts are as they were. -/
structure LeavesOthers (s t : State) : Prop where
  cur : t.cur = s.cur
  clock : t.now = s.now
  ctxs : ∀ x : Fin 11, x ≠ s.cur.ctx → t.here.ctxs[x] = s.here.ctxs[x]

namespace LeavesOthers

theorem refl (s : State) : LeavesOthers s s := ⟨rfl, rfl, fun _ _ => rfl⟩

theorem trans {s t u : State} (h : LeavesOthers s t) (g : LeavesOthers t u) : LeavesOthers s u where
  cur := g.cur.trans h.cur
  clock := g.clock.trans h.clock
  ctxs x hx := (g.ctxs x (by rwa [h.cur])).trans (h.ctxs x hx)

theorem of_same {s t : State} (hc : t.cur = s.cur) (hk : t.cores = s.cores) : LeavesOthers s t := by
  have hh : t.here = s.here := by simp only [State.here, State.core, hc, hk]
  exact ⟨hc, congrArg Core.clock hh, fun x _ => congrArg (fun k : Core => k.ctxs[x]) hh⟩

theorem updMe (s : State) (f : Context → Context) : LeavesOthers s (s.updMe f) where
  cur := rfl
  clock := updMe_now s f
  ctxs x hx := by
    rw [here_updMe]
    exact Vector.getElem_set_ne s.cur.ctx.isLt x.isLt (fun e => hx (Fin.ext e.symm))

theorem updHere (s : State) {f : Core → Core} (hk : (f s.here).clock = s.here.clock) (hc : (f s.here).ctxs = s.here.ctxs) :
    LeavesOthers s (s.updHere f) where
  cur := rfl
  clock := (congrArg Core.clock (here_updHere s f)).trans hk
  ctxs x _ := by rw [here_updHere, hc]

theorem foldr {α : Type} {f : α → State → State} (hf : ∀ a s, LeavesOthers s (f a s)) (l : List α) (s : State) :
    LeavesOthers s (l.foldr f s) := by
  induction l with
  | nil => exact refl s
  | cons a r ih => exact ih.trans (hf a _)

theorem foldl {α : Type} {f : State → α → State} (hf : ∀ s a, LeavesOthers s (f s a)) (l : List α) (s : State) :
    LeavesOthers s (l.foldl f s) := by
  induction l generalizing s with
  | nil => exact refl s
  | cons a r ih => exact (hf s a).trans (ih _)

theorem retire (stall : Nat) (s : State) : LeavesOthers s (retire stall s) where
  cur := retire_cur stall s
  clock := by
    obtain ⟨spm, bad, due, m, h⟩ := retire_here stall s
    rw [State.now, h]
    rfl
  ctxs := (retire_sameCore stall s).ctxs

/-- Context h of the core, which is not the one that issues, is as it was. -/
theorem ctx_eq {s t : State} (h : LeavesOthers s t) {x : Nat} (hx : ctxIx x ≠ s.cur.ctx) : t.here.ctx x = s.here.ctx x :=
  h.ctxs (ctxIx x) hx

end LeavesOthers

/-- An access to a scratchpad takes its banks, and changes nothing else (R214). -/
theorem touchAt_eq (c off len : Nat) (s : State) : ∃ bk co, touchAt c off len s = { s with banks := bk, collisions := co } := by
  unfold touchAt
  generalize List.range ((off + len - 1) / 16 + 1 - off / 16) = l
  induction l generalizing s with
  | nil => exact ⟨s.banks, s.collisions, rfl⟩
  | cons i r ih =>
    rw [List.foldl_cons]
    dsimp only
    split
    · exact ih _
    · exact ih _

theorem touch_leavesOthers (off len : Nat) (s : State) : LeavesOthers s (touch off len s) := by
  obtain ⟨bk, co, h⟩ := touchAt_eq s.cur.core off len s
  rw [touch, h]
  exact .of_same rfl rfl

theorem consume1_leavesOthers (s : State) (o : Opnd) : LeavesOthers s (consume1 o s) := by
  unfold consume1
  split
  · exact .updMe s _
  · split
    · exact (touch_leavesOthers _ _ s).trans (.updMe _ _)
    · exact .refl s

theorem consume_leavesOthers (srcs : List Opnd) (s : State) : LeavesOthers s (consume srcs s) := .foldl consume1_leavesOthers srcs s

theorem sendWords_leavesOthers (p : Nat) (r : Ready) (ws : List W64) (s : State) : LeavesOthers s (sendWords p r ws s) := by
  have hcount : ∀ (n : Option NodeRef) (t : State), LeavesOthers t (t.countSent n) := fun n t => by
    unfold State.countSent
    split
    · exact .updHere t rfl rfl
    · exact .refl t
  unfold sendWords
  split
  · exact .refl s
  · dsimp only
    split
    · exact .of_same rfl rfl
    · refine .trans ?_ (hcount _ _)
      exact .of_same rfl rfl

theorem writeThrough_leavesOthers (r : Ready) (off : Nat) (bs : List Byte) (s : State) : LeavesOthers s (writeThrough r off bs s) := by
  cases r with
  | now => exact .updHere s rfl rfl
  | fixed t =>
    refine .trans (.updHere s (f := fun k => { k with spmDue := k.spmDue ++ [⟨s.cur.ctx.val, off, bs, some t, s.nextId⟩] }) rfl rfl) ?_
    exact .of_same rfl rfl
  | later tag => exact .updHere s rfl rfl

theorem writeRegs_leavesOthers (r : Ready) (ws : List W64) (j k : Nat) (s : State) : LeavesOthers s (writeRegs r j k ws s) := by
  induction ws generalizing j k s with
  | nil => exact .refl s
  | cons w ws ih => exact (LeavesOthers.updMe s _).trans (ih _ _ _)

/-- A result goes to the issuing context, to its core's scratchpad, or leaves on a port: no other context of the core changes (R60). -/
theorem deliver_leavesOthers (d : Opnd) (r : Ready) (ws : List W64) (s : State) : LeavesOthers s (deliver d r ws s) := by
  unfold deliver
  split
  · split
    · exact .foldr (fun _ t => .updMe t _) _ s
    · exact .foldr (fun _ t => .updMe t _) _ s
  split
  · exact writeRegs_leavesOthers r ws _ _ s
  split
  · exact .updMe s _
  split
  · exact sendWords_leavesOthers _ _ _ s
  split
  · exact ((touch_leavesOthers _ _ s).trans (writeThrough_leavesOthers _ _ _ _)).trans (.updMe _ _)
  · exact .refl s

theorem retire_deliver_leavesOthers (stall : Nat) (d : Opnd) (r : Ready) (ws : List W64) (s : State) :
    LeavesOthers s (retire stall (deliver d r ws s)) := (deliver_leavesOthers d r ws s).trans (.retire stall _)

/-! ### A drained context (R90) -/

theorem mem_pend_of_mem_settle {α : Type} {t : Nat} {c : Cell α} {p : Pending α} (hp : p ∈ (c.settle t).pend) : p ∈ c.pend := by
  suffices h : ∀ (l : List (Pending α)) (acc : Cell α),
      p ∈ (l.foldl (fun acc p => if p.arrived t then ⟨p.val, []⟩ else ⟨acc.cur, acc.pend ++ [p]⟩) acc).pend → p ∈ acc.pend ∨ p ∈ l from
    (h c.pend ⟨c.cur, []⟩ hp).resolve_left List.not_mem_nil
  intro l
  induction l with
  | nil => exact fun _ => .inl
  | cons a r ih =>
    intro acc h
    rcases ih _ h with h | h
    · dsimp only at h
      split at h
      · exact absurd h List.not_mem_nil
      · exact (List.mem_append.mp h).imp id fun h => List.mem_cons.mpr (.inl (List.mem_singleton.mp h))
    · exact .inr (List.mem_cons_of_mem a h)

/-- A cell all of whose writes have arrived is quiet. -/
theorem quiet_of_arrived {α : Type} {t : Nat} {c : Cell α} (bad : List Nat) (h : ∀ p ∈ c.pend, ∃ n, p.due = some n ∧ n ≤ t) :
    c.quiet t bad = true := by
  have hrest : (c.settle t).pend = [] := by
    refine List.eq_nil_iff_forall_not_mem.mpr fun p hp => ?_
    obtain ⟨n, hn, hle⟩ := h p (mem_pend_of_mem_settle hp)
    exact absurd (lt_due_of_mem_settle hp hn) (Nat.not_lt.mpr hle)
  rw [Cell.quiet, hrest]
  rfl

section
variable {s : State}

/-- Every write to the cell has arrived by now. -/
def State.arrived {α : Type} (s : State) (x : Cell α) : Prop := ∀ p ∈ x.pend, ∃ n, p.due = some n ∧ n ≤ s.now

theorem cellsQuiet_of_arrived (hb : ∀ x ∈ s.me.btail :: s.me.belt, s.arrived x) (hv : ∀ x ∈ s.me.vtail :: s.me.vbelt, s.arrived x)
    (hn : ∀ j : Fin 8, s.arrived s.me.n[j]) (ha : ∀ j : Fin 4, s.arrived s.me.a[j]) : s.me.cellsQuiet s.now = true := by
  have hq {α : Type} {x : Cell α} (h : s.arrived x) := quiet_of_arrived (s.me.poison.map (·.1)) h
  obtain ⟨hbt, hbl⟩ := List.forall_mem_cons.mp hb
  obtain ⟨hvt, hvl⟩ := List.forall_mem_cons.mp hv
  have hbl : s.me.belt.all (·.quiet s.now (s.me.poison.map (·.1))) = true := List.all_eq_true.mpr fun x hx => hq (hbl x hx)
  have hvl : s.me.vbelt.all (·.quiet s.now (s.me.poison.map (·.1))) = true := List.all_eq_true.mpr fun x hx => hq (hvl x hx)
  have hnl : s.me.n.toList.all (·.quiet s.now (s.me.poison.map (·.1))) = true := by
    refine List.all_eq_true.mpr fun x hx => ?_
    obtain ⟨j, hj, rfl⟩ := Vector.getElem_of_mem (Vector.mem_toList_iff.mp hx)
    exact hq (hn ⟨j, hj⟩)
  have hal : s.me.a.toList.all (·.quiet s.now (s.me.poison.map (·.1))) = true := by
    refine List.all_eq_true.mpr fun x hx => ?_
    obtain ⟨j, hj, rfl⟩ := Vector.getElem_of_mem (Vector.mem_toList_iff.mp hx)
    exact hq (ha ⟨j, hj⟩)
  simp only [Context.cellsQuiet, hbl, hq hbt, hvl, hq hvt, hnl, hal, Bool.and_self]

theorem ctx_here_cur (s : State) : s.here.ctx s.cur.ctx.val = s.me := ctx_cur s

/-- A context with nothing outstanding may halt (R90). -/
theorem haltReady_of_drained (hcells : s.me.cellsQuiet s.now = true) (hslots : ∀ j : Fin 8, s.me.slots[j] = 0)
    (hmx : ∀ e ∈ s.here.mx, e.ctx ≠ s.cur.ctx.val) (hsfu : ∀ e ∈ s.here.sfu, e.ctx ≠ s.cur.ctx.val) (hp : s.AllPerformed) :
    s.haltReady s.cur.core s.cur.ctx.val = true := by
  have hslots : s.me.slots.toList.all (· == 0) = true := by
    refine List.all_eq_true.mpr fun x hx => ?_
    obtain ⟨j, hj, rfl⟩ := Vector.getElem_of_mem (Vector.mem_toList_iff.mp hx)
    exact beq_iff_eq.mpr (hslots ⟨j, hj⟩)
  have hmx : s.here.mxOf s.cur.ctx.val = false := by simpa [Core.mxOf] using fun e he hx => absurd hx (hmx e he)
  have hsfu : s.here.sfuOf s.cur.ctx.val = false := by simpa [Core.sfuOf] using fun e he hx => absurd hx (hsfu e he)
  have hperf := performed_of_allPerformed hp
  obtain ⟨-, -, -, hload, hdue, -⟩ := hp
  have hdue : s.here.duesOf s.cur.ctx.val = [] := (duesOf_eq_nil_iff _ _).mpr hdue
  have hsave : s.here.saveReady s.cur.ctx.val = true := by
    simp only [Core.saveReady, ctx_here_cur, show s.me.cellsQuiet s.here.clock = true from hcells, hslots, hmx, hsfu, hload, hdue]
    rfl
  rw [State.haltReady, show s.core s.cur.core = s.here from rfl, hsave, hperf]
  rfl

end

/-! ### What the members leave -/

/-- A context at its START (R89). -/
theorem startContext_facts (pager : Bool) (ctl old : Context) (entry arg : W64) (t u : Nat) :
    let m := startContext pager ctl old entry arg t
    m.status = .live ∧ m.pc.toNat = entry.toNat % 2 ^ 55 ∧ (m.reg 0).read u = arg ∧ m.rep = none ∧ m.wait = none ∧
    m.slots = Vector.replicate 8 0 ∧ m.bound = t + 1 ∧ ∀ j : Fin 16, (m.hnd[j]).bound = false ∧ (m.hnd[j]).gen = 0 := by
  refine ⟨rfl, toNat_va55 entry, rfl, rfl, rfl, rfl, rfl, fun j => ?_⟩
  have h : Context.reset.hnd = Vector.replicate 16 Stream.reset := rfl
  simp only [startContext, h, Fin.getElem_fin, Vector.getElem_replicate]
  exact ⟨rfl, rfl⟩

/-- A context that another context of its core has set stands while only the issuing context works. -/
theorem LeavesOthers.ctx_of_setCtx {s t : State} {h : Nat} {k : Core → Context} (hne : ctxIx h ≠ s.cur.ctx)
    (ht : LeavesOthers (s.updHere (fun c => c.setCtx h (k c))) t) : t.here.ctx h = k s.here := by
  rw [ht.ctx_eq hne, here_updHere, Core.ctx_setCtx, if_pos rfl]

section
variable {s : State}

theorem halted_cur : s.halted.cur = s.cur := by
  unfold State.halted
  dsimp only
  split <;> rfl

theorem halted_mem : s.halted.mem = s.mem := by
  unfold State.halted
  dsimp only
  split <;> rfl

/-- What becomes of each context of the core of a context that halts (R90, R102). -/
theorem halted_ctxs (x : Fin 11) : s.halted.here.ctxs[x] =
    let m := if x = s.cur.ctx then s.me.leave s.cur.ctx.val else s.here.ctxs[x]
    if s.cur.ctx = 0 ∧ m.status = .faulted then { m with status := .live, bound := s.now + 1 } else m := by
  have hx : (s.updMe (fun c => c.leave s.cur.ctx.val)).here.ctxs[x] =
      if x = s.cur.ctx then s.me.leave s.cur.ctx.val else s.here.ctxs[x] := by
    rw [here_updMe]
    split
    · next h => subst h; exact Vector.getElem_set_self _
    · next h => exact Vector.getElem_set_ne s.cur.ctx.isLt x.isLt (fun e => h (Fin.ext e.symm))
  have hclock : (s.updMe (fun c => c.leave s.cur.ctx.val)).here.clock = s.now := updMe_now s _
  dsimp only
  rw [← hx]
  by_cases h : s.cur.ctx = 0
  · have hh : s.halted.here = (s.updMe (fun c => c.leave s.cur.ctx.val)).here.releaseFaulted := by
      rw [State.halted, if_pos h]
      exact here_updHere _ _
    rw [hh, ← hclock]
    simp only [h, true_and]
    exact Vector.getElem_map _ _
  · rw [State.halted, if_neg h]
    simp only [h, false_and, if_false]

theorem halted_me : s.halted.me = s.me.leave s.cur.ctx.val := by
  have h := halted_ctxs (s := s) s.cur.ctx
  dsimp only at h
  rw [if_pos rfl, if_neg (fun h => CtxState.noConfusion h.2)] at h
  exact (congrArg (fun c => s.halted.here.ctxs[c.ctx]) halted_cur).trans h

theorem halt_leaves (stall : Nat) : let t := retire stall s.halted
    t.me.status = .free ∧ t.me.wait = none ∧ t.mem = s.mem ∧ ∀ x : Fin 11, x ≠ s.cur.ctx → let m := s.here.ctxs[x]
      t.here.ctxs[x] = if s.cur.ctx = 0 ∧ m.status = .faulted then { m with status := .live, bound := s.now + 1 } else m := by
  obtain ⟨pc, rep, hgo⟩ := goesOn_eq stall s.halted
  refine ⟨?_, ?_, (retire_mem _ _).trans halted_mem, fun x hx => ?_⟩
  · have h := congrArg Context.status (retire_sameContext stall s.halted)
    rw [halted_me] at h
    exact h
  · rw [(retire_me_place stall s.halted).2.2.2.1, hgo]
  · rw [(LeavesOthers.retire stall s.halted).ctxs x (by rwa [halted_cur]), halted_ctxs, if_neg hx]

theorem yield_leaves : let t := s.updMe (fun c => { c with
      yield := (List.range 11).filter (fun x => x != s.cur.ctx.val), yieldEnd := s.now + 11 })
    t.me.yieldEnd = s.now + 11 ∧ (∀ x : Nat, x ∈ t.me.yield ↔ x < 11 ∧ x ≠ s.cur.ctx.val) ∧ t.me.belt = s.me.belt ∧
    t.me.vbelt = s.me.vbelt ∧ t.me.n = s.me.n ∧ t.me.a = s.me.a ∧ t.me.ports = s.me.ports ∧ t.me.flags = s.me.flags ∧
    t.mem = s.mem ∧ t.here.spm = s.here.spm ∧ ∀ x : Fin 11, x ≠ s.cur.ctx → t.here.ctxs[x] = s.here.ctxs[x] := by
  dsimp only
  rw [me_updMe]
  refine ⟨rfl, fun x => by simp, rfl, rfl, rfl, rfl, rfl, rfl, rfl, by rw [here_updMe], (LeavesOthers.updMe s _).ctxs⟩

/-- The word of HSTAT by the number's range and the helper's state (R88). -/
theorem hstatWord_eq (v : W64) : s.hstatWord v = BitVec.ofInt 64 (if s.cur.ctx ≠ 0 then -2 else
    if v.toInt < 1 ∨ 10 < v.toInt then -1 else match (s.here.ctx v.toInt.toNat).status with
      | .free => 0 | .live => 1 | .faulted => 2 | .suspended => 3) := by
  by_cases h0 : s.cur.ctx = 0
  · rw [if_neg (not_not_intro h0)]
    split
    · next h => exact hstatWord_of_none h0 h
    · next h =>
      rw [hstatWord_of_some (h := v.toInt.toNat) h0 (by omega) (by omega) (by omega)]
      cases (s.here.ctx v.toInt.toNat).status <;> rfl
  · rw [if_pos h0, hstatWord_of_helper _ h0]

end

/-- Settles O60, member by member, from where each completes and what it leaves. -/
theorem helperCompletions : Obligations.HelperCompletions := by
  intro st d a b s hlive two one free number arrived drained
  refine ⟨fun h h1 h10 hf hlow hg hc hal => ?start, fun hf hg hc hal => ?none, fun hal hg hc => ?trap, fun hd hg => ?halt,
    fun hg hc h => joinh_completes hg hc h, fun h h1 h10 hg hc hn hcur hf => joinh_waits h1 h10 hg hc hn hcur hf, fun hg => ?yield,
    fun hg hc => ?hstat⟩
  case start =>
    refine ⟨_, start_starts hg hc hal (freeHelper_eq_some h1 h10 hf hlow), ?_⟩
    have hne : ctxIx h ≠ s.cur.ctx := fun he => by
      have hme : s.here.ctx h = s.me := congrArg (fun x => s.here.ctxs[x]) he
      rw [show s.me.status = .free from hme ▸ hf] at hlive
      exact CtxState.noConfusion hlive
    have hcur : ctxIx h ≠ (consume two s).cur.ctx := by rwa [(consume_leavesOthers two s).cur]
    have hstart := LeavesOthers.ctx_of_setCtx (k := fun k => startContext (isPager s.cur.core) (k.ctx 0) (k.ctx h)
      (arg1 (s.values two) 0) (arg1 (s.values two) 1) s.now) hcur
      (retire_deliver_leavesOthers st.toNat (.int d) (after two 1 s) [BitVec.ofNat 64 h] _)
    dsimp only
    rw [hstart]
    obtain ⟨hst, hpc, hreg, hrep, hwait, hslots, hbound, hhnd⟩ := startContext_facts (isPager s.cur.core)
      ((consume two s).here.ctx 0) ((consume two s).here.ctx h) (arg1 (s.values two) 0) (arg1 (s.values two) 1) s.now (State.now _)
    exact ⟨hst, hpc, hreg, hrep, hwait, hslots, hbound, hhnd, _, rfl⟩
  case none => exact start_without_free hg hc hal (freeHelper_eq_none hf)
  case trap =>
    rw [exec_start, execStart]
    exact issue_of_error hg (M_bind_error (prepare_of_cand (c := Cand.align _) hc (targetCands_of_misaligned hal)))
  case halt =>
    obtain ⟨hb, hv, hn, ha, hslots, hmx, hsfu, hp⟩ := hd
    exact ⟨_, halt_completes hg (haltReady_of_drained (cellsQuiet_of_arrived hb hv hn ha) hslots hmx hsfu hp), halt_leaves _⟩
  case yield => exact ⟨_, (exec_yield st s).trans (issue_of_ok hg (upd_apply _ s)), yield_leaves⟩
  case hstat =>
    rw [hstat_completes hg hc]
    simp only [gives, hstatWord_eq]
    rfl

end Sys2Proof.Machine
end

section
/-! PROOFS. The helper image, byte by byte (O7). -/

namespace Sys2Proof.Machine

/-! ### Fields of a record that is made of parts -/

/-- The number in `len` bytes at `off`. -/
def fieldOf (bs : List Byte) (off len : Nat) : Nat := ofBytes ((bs.drop off).take len)

theorem fieldOf_whole {bs : List Byte} {len : Nat} (h : bs.length = len) : fieldOf bs 0 len = ofBytes bs := by
  rw [fieldOf, List.drop_zero, List.take_of_length_le h.le]

theorem fieldOf_bytesOf {n x : Nat} (h : x < 256 ^ n) : fieldOf (bytesOf n x) 0 n = x := by
  rw [fieldOf_whole (length_bytesOf n x), ofBytes_bytesOf, Nat.mod_eq_of_lt h]

theorem ofBytes_bytesOf_toNat {w : Nat} (x : BitVec w) {n : Nat} (h : w ≤ 8 * n) : ofBytes (bytesOf n x.toNat) = x.toNat := by
  rw [ofBytes_bytesOf, Nat.mod_eq_of_lt (x.isLt.trans_le _)]
  rw [show 256 = 2 ^ 8 from rfl, ← Nat.pow_mul]
  exact Nat.pow_le_pow_right (by decide) h

/-- A field within part j stands behind the parts before it. -/
theorem fieldOf_flatten {l : List (List Byte)} {j : Nat} {b : List Byte} (hb : l[j]? = some b) {k len : Nat} (hfit : k + len ≤ b.length) :
    fieldOf l.flatten (((l.map List.length).take j).sum + k) len = fieldOf b k len := by
  induction l generalizing j with
  | nil => cases hb
  | cons a r ih =>
    cases j with
    | zero =>
      obtain rfl : a = b := Option.some.inj hb
      rw [List.take_zero, List.sum_nil, Nat.zero_add, List.flatten_cons, fieldOf, List.drop_append_of_le_length (by omega),
        List.take_append_of_le_length (by rw [List.length_drop]; omega)]
      rfl
    | succ j =>
      rw [List.map_cons, List.take_succ_cons, List.sum_cons, List.flatten_cons, fieldOf, Nat.add_assoc, List.drop_length_add_append]
      exact ih hb

/-- Record i of equally long ones. -/
theorem fieldOf_flatMap {α : Type} {l : List α} {g : α → List Byte} {w : Nat} (hw : ∀ a, (g a).length = w) {i : Nat} (hi : i < l.length) :
    fieldOf (l.flatMap g) (w * i) w = ofBytes (g l[i]) := by
  have hl : (l.map g).map List.length = List.replicate l.length w := by
    simp [List.eq_replicate_iff, hw]
  have hget : (l.map g)[i]? = some (g l[i]) := by simp [hi]
  have h := fieldOf_flatten (k := 0) (len := w) hget (by rw [hw, Nat.zero_add])
  rw [hl, List.take_replicate, Nat.min_eq_left hi.le, List.sum_replicate, smul_eq_mul, Nat.add_zero, Nat.mul_comm] at h
  rw [List.flatMap, h, fieldOf_whole (hw _)]

theorem length_flatMap_eq {α : Type} (l : List α) {g : α → List Byte} {w : Nat} (hw : ∀ a, (g a).length = w) :
    (l.flatMap g).length = l.length * w := by
  simp [List.length_flatMap, hw]

/-! ### The parts of the helper image (R37) -/

/-- The parts of the helper image, in the order of R37. -/
def imageParts (t : Nat) (c : Context) : List (List Byte) :=
  [(List.range 16).flatMap (fun i => bytesOf 8 ((c.intSlot i).read t).toNat),
    (List.range 16).flatMap (fun i => bytesOf 16 ((c.vecSlot i).read t).toNat),
    c.n.toList.flatMap (fun r => bytesOf 8 (r.read t).toNat), c.a.toList.flatMap (fun r => bytesOf 8 (r.read t).toNat),
    c.as.toList.flatMap (fun r => bytesOf 8 (r.signExtend 64).toNat), c.z.toList.flatMap lazyRecord,
    c.slots.toList.flatMap (fun b => bytesOf 1 b.toNat), bytesOf 8 c.pc.toNat, bytesOf 8 c.mode.toNat, bytesOf 8 c.flags.toNat,
    bytesOf 8 c.srh.toNat, bytesOf 8 c.sro.toNat, repBytes c.rep, bytesOf 6 0, bytesOf 8 (c.btail.read t).toNat,
    bytesOf 16 (c.vtail.read t).toNat, bytesOf 672 0]

theorem helperImage_eq_flatten (t : Nat) (c : Context) : helperImage t c = (imageParts t c).flatten := by
  simp only [helperImage, imageParts, List.flatten_cons, List.flatten_nil, List.append_nil, List.append_assoc]

theorem length_lazyRecord (z : Lazy) : (lazyRecord z).length = 32 := by simp [lazyRecord]

theorem length_repBytes (r : Option Rep) : (repBytes r).length = 18 := by
  cases r <;> simp [repBytes]

/-- The bytes of each part (R37). -/
def imageLengths : List Nat := [128, 256, 64, 32, 32, 256, 8, 8, 8, 8, 8, 8, 18, 6, 8, 16, 672]

theorem length_imageParts (t : Nat) (c : Context) : (imageParts t c).map List.length = imageLengths := by
  simp only [imageLengths, imageParts, List.map_cons, List.map_nil, length_bytesOf, length_repBytes,
    length_flatMap_eq _ (fun _ => length_bytesOf _ _), length_flatMap_eq _ length_lazyRecord, Vector.length_toList, List.length_range]

theorem length_helperImage (t : Nat) (c : Context) : (helperImage t c).length = 1536 := by
  rw [helperImage_eq_flatten, List.length_flatten, length_imageParts]
  rfl

section
variable (t : Nat) (c : Context) {j base : Nat}

/-- A field within part j of the image, by where that part begins. -/
theorem field_of_part {b : List Byte} (hb : (imageParts t c)[j]? = some b) (hbase : (imageLengths.take j).sum = base) {k len : Nat}
    (hfit : k + len ≤ b.length) : fieldOf (helperImage t c) (base + k) len = fieldOf b k len := by
  rw [helperImage_eq_flatten, ← hbase, ← length_imageParts t c]
  exact fieldOf_flatten hb hfit

/-- Record i of a part that is made of records. -/
theorem field_of_record {α : Type} {l : List α} {g : α → List Byte} {w : Nat} (hb : (imageParts t c)[j]? = some (l.flatMap g))
    (hbase : (imageLengths.take j).sum = base) (hw : ∀ a, (g a).length = w) {i : Nat} (hi : i < l.length) :
    fieldOf (helperImage t c) (base + w * i) w = ofBytes (g l[i]) := by
  rw [field_of_part t c hb hbase (k := w * i), fieldOf_flatMap hw hi]
  rw [length_flatMap_eq l hw, ← Nat.mul_succ, Nat.mul_comm]
  exact Nat.mul_le_mul_right w hi

/-- Record i of a part that is made of numbers. -/
theorem field_of_word {α : Type} {l : List α} {v : Nat} {g : α → BitVec v} {w : Nat}
    (hb : (imageParts t c)[j]? = some (l.flatMap fun a => bytesOf w (g a).toNat)) (hbase : (imageLengths.take j).sum = base)
    (hv : v ≤ 8 * w) {i : Nat} (hi : i < l.length) : fieldOf (helperImage t c) (base + w * i) w = (g l[i]).toNat :=
  (field_of_record t c hb hbase (fun _ => length_bytesOf _ _) hi).trans (ofBytes_bytesOf_toNat _ hv)

/-- A part that is one number. -/
theorem field_of_number {n x : Nat} (hb : (imageParts t c)[j]? = some (bytesOf n x)) (hbase : (imageLengths.take j).sum = base)
    (hx : x < 256 ^ n) : fieldOf (helperImage t c) base n = x :=
  (field_of_part t c hb hbase (k := 0) (by simp)).trans (fieldOf_bytesOf hx)

theorem field_of_rep (k len : Nat) (hfit : k + len ≤ 18) : fieldOf (helperImage t c) (0x330 + k) len = fieldOf (repBytes c.rep) k len :=
  field_of_part t c (j := 12) rfl rfl (by rwa [length_repBytes])

end

/-- The repetition in progress, field by field (R37, R121). -/
theorem repBytes_fields (r : Rep) : fieldOf (repBytes (some r)) 0 8 = r.remaining.toNat ∧ fieldOf (repBytes (some r)) 8 8 = r.base.toNat ∧
    fieldOf (repBytes (some r)) 16 1 = r.len % 256 ∧ fieldOf (repBytes (some r)) 17 1 = r.pos % 256 := by
  have hr : repBytes (some r) = [bytesOf 8 r.remaining.toNat, bytesOf 8 r.base.toNat, bytesOf 1 r.len, bytesOf 1 r.pos].flatten := by
    simp [repBytes]
  have hl : [bytesOf 8 r.remaining.toNat, bytesOf 8 r.base.toNat, bytesOf 1 r.len, bytesOf 1 r.pos].map List.length = [8, 8, 1, 1] := by
    simp
  have hpart {j : Nat} {b : List Byte} {n : Nat}
      (hb : [bytesOf 8 r.remaining.toNat, bytesOf 8 r.base.toNat, bytesOf 1 r.len, bytesOf 1 r.pos][j]? = some b) (hn : b.length = n) :
      fieldOf (repBytes (some r)) (([8, 8, 1, 1].take j).sum + 0) n = ofBytes b := by
    rw [hr, ← hl, fieldOf_flatten hb (by rw [hn, Nat.zero_add]), fieldOf_whole hn]
  refine ⟨(hpart (j := 0) rfl (by simp)).trans (ofBytes_bytesOf_toNat _ (by decide)),
    (hpart (j := 1) rfl (by simp)).trans (ofBytes_bytesOf_toNat _ (by decide)), (hpart (j := 2) rfl (by simp)).trans (ofBytes_bytesOf _ _),
    (hpart (j := 3) rfl (by simp)).trans (ofBytes_bytesOf _ _)⟩

/-- Every field of the image at its offset (R37). -/
theorem helperImage_fields (t : Nat) (c : Context) : let f := fieldOf (helperImage t c)
    (∀ i < 16, f (8 * i) 8 = ((c.intSlot i).read t).toNat ∧ f (0x80 + 16 * i) 16 = ((c.vecSlot i).read t).toNat) ∧
    (∀ i : Fin 8, f (0x180 + 8 * i.val) 8 = ((c.n[i]).read t).toNat ∧ f (0x300 + i.val) 1 = (c.slots[i]).toNat ∧
      f (0x200 + 32 * i.val) 32 = ofBytes (lazyRecord c.z[i])) ∧
    (∀ i : Fin 4, f (0x1C0 + 8 * i.val) 8 = ((c.a[i]).read t).toNat ∧ f (0x1E0 + 8 * i.val) 8 = ((c.as[i]).signExtend 64).toNat) ∧
    f 0x308 8 = c.pc.toNat ∧ f 0x310 8 = c.mode.toNat ∧ f 0x318 8 = c.flags.toNat ∧ f 0x320 8 = c.srh.toNat ∧ f 0x328 8 = c.sro.toNat ∧
    (c.rep = none → f 0x330 18 = 0) ∧
    (∀ r, c.rep = some r → f 0x330 8 = r.remaining.toNat ∧ f 0x338 8 = r.base.toNat ∧ f 0x340 1 = r.len % 256 ∧ f 0x341 1 = r.pos % 256) ∧
    f 0x342 6 = 0 ∧ f 0x348 8 = (c.btail.read t).toNat ∧ f 0x350 16 = (c.vtail.read t).toNat ∧ f 0x360 672 = 0 := by
  refine ⟨fun i hi => ⟨?belt, ?vbelt⟩, fun i => ⟨?n, ?slot, ?z⟩, fun i => ⟨?a, ?as⟩, ?pc, ?mode, ?flags, ?srh, ?sro, fun hr => ?norep,
    fun r hr => ?rep, ?pad, ?btail, ?vtail, ?rest⟩
  case belt =>
    have h := field_of_word t c (j := 0) (base := 0) rfl rfl (by decide) (i := i) (hi.trans_eq List.length_range.symm)
    rwa [Nat.zero_add, List.getElem_range] at h
  case vbelt =>
    have h := field_of_word t c (j := 1) rfl rfl (by decide) (i := i) (hi.trans_eq List.length_range.symm)
    rwa [List.getElem_range] at h
  case n => exact field_of_word t c (j := 2) rfl rfl (by decide) (i := i) (i.isLt.trans_eq (Vector.length_toList).symm)
  case slot =>
    have h := field_of_word t c (j := 6) rfl rfl (by decide) (i := i) (i.isLt.trans_eq (Vector.length_toList).symm)
    rwa [Nat.one_mul] at h
  case z => exact field_of_record t c (j := 5) rfl rfl length_lazyRecord (i := i) (i.isLt.trans_eq (Vector.length_toList).symm)
  case a => exact field_of_word t c (j := 3) rfl rfl (by decide) (i := i) (i.isLt.trans_eq (Vector.length_toList).symm)
  case as => exact field_of_word t c (j := 4) rfl rfl (by decide) (i := i) (i.isLt.trans_eq (Vector.length_toList).symm)
  case pc => exact field_of_number t c (j := 7) rfl rfl c.pc.isLt
  case mode => exact field_of_number t c (j := 8) rfl rfl c.mode.isLt
  case flags => exact field_of_number t c (j := 9) rfl rfl c.flags.isLt
  case srh => exact field_of_number t c (j := 10) rfl rfl c.srh.isLt
  case sro => exact field_of_number t c (j := 11) rfl rfl c.sro.isLt
  case norep =>
    have h := field_of_rep t c 0 18 le_rfl
    rw [hr] at h
    exact h.trans (fieldOf_bytesOf (by decide))
  case rep =>
    obtain ⟨h0, h8, h16, h17⟩ := repBytes_fields r
    rw [← hr] at h0 h8 h16 h17
    exact ⟨(field_of_rep t c 0 8 (by decide)).trans h0, (field_of_rep t c 8 8 (by decide)).trans h8,
      (field_of_rep t c 16 1 (by decide)).trans h16, (field_of_rep t c 17 1 (by decide)).trans h17⟩
  case pad => exact field_of_number t c (j := 13) rfl rfl (by decide)
  case btail => exact field_of_number t c (j := 14) rfl rfl (c.btail.read t).isLt
  case vtail => exact field_of_number t c (j := 15) rfl rfl (c.vtail.read t).isLt
  case rest => exact field_of_number t c (j := 16) rfl rfl (by positivity)

end Sys2Proof.Machine
end

section
/-! PROOFS. SAVEH, LOADH, RESUMEH, KILLH and UPRET (O7). -/

namespace Sys2Proof.Machine

/-! ### A lazy instruction that is stopped changes lazy registers (R132) -/

/-- Who issues is as it was, and so is every context but for its lazy registers. -/
structure SameButLazy (s t : State) : Prop where
  cur : t.cur = s.cur
  ctx : ∀ c x, { t.ctx c x with z := (s.ctx c x).z } = s.ctx c x

namespace SameButLazy

theorem refl (s : State) : SameButLazy s s := ⟨rfl, fun _ _ => rfl⟩

theorem trans {s t u : State} (h : SameButLazy s t) (g : SameButLazy t u) : SameButLazy s u where
  cur := g.cur.trans h.cur
  ctx c x := by
    rw [← h.ctx c x, ← g.ctx c x]

theorem of_same {s t : State} (hc : t.cur = s.cur) (hk : t.cores = s.cores) : SameButLazy s t :=
  ⟨hc, fun c x => by simp only [State.ctx, State.core, hk]⟩

theorem setLazy (a : BitVec 5) (z : Lazy) (s : State) : SameButLazy s (setLazy a z s) where
  cur := rfl
  ctx c x := by
    rw [Machine.setLazy, updMe_eq_updCtx]
    by_cases hc : c = s.cur.core
    · subst hc
      simp only [State.ctx, State.updCtx, core_updCore, Core.ctx_setCtx]
      split
      · next h => rw [show (s.core s.cur.core).ctx s.cur.ctx.val = (s.core s.cur.core).ctx x from congrArg (fun y => (s.core s.cur.core).ctxs[y]) h]
      · rfl
    · simp only [State.ctx, State.updCtx, core_updCore_ne s _ hc]

theorem partOne (d a : BitVec 5) (src : Opnd) (quick : List W64 → Option W64) (test : List W64 → Nat → Nat → Option W64)
    (n : Nat) (s : State) : SameButLazy s (partOne d a src quick test n s) := by
  unfold Machine.partOne
  split
  · exact .refl s
  · dsimp only
    split
    · exact .refl s
    · exact .setLazy _ _ s

theorem lazyPart (i : Instr) (n : Nat) (s : State) : SameButLazy s (lazyPart i n s) := by
  unfold Machine.lazyPart
  split
  · exact .refl s
  split
  · exact .partOne _ _ _ _ _ _ s
  · exact .partOne _ _ _ _ _ _ s
  · exact .partOne _ _ _ _ _ _ s
  · split
    · exact .refl s
    · split
      · exact .refl s
      · exact (SameButLazy.setLazy _ _ s).trans (.setLazy _ _ _)
  · split
    · exact .refl s
    · exact .setLazy _ _ s
  · exact .refl s

theorem asContext (c x : Nat) {f : State → State} (hf : ∀ s, SameButLazy s (f s)) (s : State) : SameButLazy s (asContext c x f s) where
  cur := rfl
  ctx := (hf { actAs c x s with banks := [], collisions := 0, target := none }).ctx

theorem stopLazy (c x : Nat) (s : State) : SameButLazy s (stopLazy c x s) := by
  unfold Machine.stopLazy
  split
  · refine (SameButLazy.of_same (s := s) (t := { s with nextId := s.nextId + 1 }) rfl rfl).trans (.asContext c x (fun t => ?_) _)
    split
    · exact .refl t
    · split
      · exact .refl t
      · exact .lazyPart _ _ t
  · exact .refl s

end SameButLazy

theorem ctx_updHere (s : State) {f : Core → Core} (hf : (f s.here).ctxs = s.here.ctxs) (c x : Nat) :
    (s.updHere f).ctx c x = s.ctx c x := by
  by_cases hc : c = s.cur.core
  · subst hc
    exact congrArg (·[ctxIx x]) ((congrArg Core.ctxs (here_updHere s f)).trans hf)
  · rw [State.ctx, State.updHere, core_updCore_ne s f hc]
    rfl

theorem here_ctx (s : State) (x : Nat) : s.here.ctx x = s.ctx s.cur.core x := rfl

/-- A stopped helper is SUSPENDED, and keeps what it is to save and what it waits for (R93). -/
theorem stopHelper_ctx (h : Nat) (s : State) : (stopHelper h s).cur = s.cur ∧ let m := (stopHelper h s).here.ctx h
    m.status = .suspended ∧ m.wait = none ∧ m.pc = (s.here.ctx h).pc ∧ m.slots = (s.here.ctx h).slots ∧
    m.loads = (s.here.ctx h).loads := by
  have hlazy := SameButLazy.stopLazy s.cur.core h (s.updHere (·.dropRec h))
  have hcur : (stopHelper h s).cur = s.cur := hlazy.cur
  have hctx := hlazy.ctx s.cur.core h
  rw [ctx_updHere s (f := fun k => k.dropRec h) rfl] at hctx
  have hm : (stopHelper h s).here.ctx h =
      { ((stopLazy s.cur.core h (s.updHere (·.dropRec h))).ctx s.cur.core h).unissued with status := .suspended } := by
    rw [here_ctx, hcur]
    refine (ctx_updCtx _ _ _ _).trans ?_
    rw [State.ctx, withdrawAll_core]
    rfl
  dsimp only
  rw [hm, here_ctx, ← hctx]
  exact ⟨hcur, rfl, rfl, rfl, rfl, rfl⟩

/-! ### Status codes (R93) -/

section
variable {v : W64} {s : State} {h : Nat}

theorem helperArg_of_helper (v : W64) (h0 : s.cur.ctx ≠ 0) : helperArg v s = .error 4 := if_pos h0

theorem helperArg_of_none (h0 : s.cur.ctx = 0) (hv : v.toInt < 1 ∨ 10 < v.toInt) : helperArg v s = .error 2 := by
  rw [helperArg, if_neg (not_not_intro h0), helperOf_eq_none hv]

theorem helperArg_of_some (h0 : s.cur.ctx = 0) (h1 : 1 ≤ h) (h10 : h ≤ 10) (hv : v.toInt = h) : helperArg v s = .ok h := by
  rw [helperArg, if_neg (not_not_intro h0), helperOf_eq_some h1 h10 hv]

theorem imageCands_of_helper (v : W64) (h0 : s.cur.ctx ≠ 0) : imageCands v s = [] := if_pos h0

/-- The offset that a word names (R93). -/
theorem bits_low (x : Nat) : bits x 16 0 = x % 2 ^ 17 := by rw [bits, Nat.pow_zero, Nat.div_one]

theorem imageCands_of_fits (h64 : v.toNat % 2 ^ 17 % 64 = 0) (hfit : v.toNat % 2 ^ 17 + 1536 ≤ 98304) : imageCands v s = [] := by
  rw [imageCands, bits_low, if_neg (not_not_intro h64), if_neg (show ¬ spmSize < _ from Nat.not_lt.mpr hfit), ite_self]

theorem awaitSpm_of_localNow {off len : Nat} (h : s.LocalNow s.cur.core off len) : awaitSpm off len s = .ok ((), s) := by
  obtain ⟨hbefore, -, hbad⟩ := h
  have hb : s.here.bad.any (fun w => overlap (8 * w) 8 off len) = false := by
    refine List.any_eq_false.mpr fun w hw => ?_
    have := hbad w hw
    simp only [overlap, Bool.and_eq_true, decide_eq_true_eq]
    omega
  simp only [awaitSpm, State.spmAwaited, hbefore, hb]
  rfl

end

/-! ### Where the members complete -/

section
variable {st : BitVec 3} {d a b : BitVec 5} {s : State} {h n : Nat}

theorem prepare_image {srcs : List Opnd} {dst : Option Opnd} (hc : s.Clear srcs dst) (hi : imageCands (arg1 (s.values srcs) 1) s = []) :
    prepare srcs dst (fun s => imageCands (arg1 (s.values srcs) 1) s) s = .ok ((), s) := prepare_of_clear hc hi

theorem saveh_tells (hg : s.Admits (.saveh st d a b)) (hc : s.Clear [.int a, .int b] (some (.int d)))
    (hi : imageCands (arg1 (s.values [.int a, .int b]) 1) s = [])
    (ht : helperArg (arg1 (s.values [.int a, .int b]) 0) s = .error n ∨
      helperArg (arg1 (s.values [.int a, .int b]) 0) s = .ok h ∧ (s.here.ctx h).status = .free ∧ n = 1) :
    exec (.saveh st d a b) s = .next (retire st.toNat (status d [.int a, .int b] n s)) := by
  rw [exec_saveh, execSaveh]
  refine issue_of_ok hg ?_
  rw [M_bind_ok (prepare_image hc hi), M_bind_ok (get_apply s)]
  rcases ht with ht | ⟨ht, hf, rfl⟩
  · simp only [ht]
    rfl
  · simp only [ht, hf, if_true]
    rfl

theorem saveh_saves (hg : s.Admits (.saveh st d a b)) (hc : s.Clear [.int a, .int b] (some (.int d)))
    (hi : imageCands (arg1 (s.values [.int a, .int b]) 1) s = []) (ha : helperArg (arg1 (s.values [.int a, .int b]) 0) s = .ok h)
    (hf : (s.here.ctx h).status ≠ .free) (hr : (stopHelper h s).here.saveReady h = true) :
    exec (.saveh st d a b) s = .next (retire st.toNat (status d [.int a, .int b] 0
      (touch (bits (arg1 (s.values [.int a, .int b]) 1).toNat 16 0) 1536 ((stopHelper h s).spmWrite s.cur.core
        (bits (arg1 (s.values [.int a, .int b]) 1).toNat 16 0) (helperImage s.now ((stopHelper h s).here.ctx h)))))) := by
  rw [exec_saveh, execSaveh]
  refine issue_of_ok hg ?_
  rw [M_bind_ok (prepare_image hc hi), M_bind_ok (get_apply s)]
  simp only [ha, if_neg hf]
  refine M_bind_ok (a := ()) ?_
  simp only [saveHelper, hr]
  rfl

theorem loadh_tells (hg : s.Admits (.loadh st d a b)) (hc : s.Clear [.int a, .int b] (some (.int d)))
    (hi : imageCands (arg1 (s.values [.int a, .int b]) 1) s = [])
    (ht : helperArg (arg1 (s.values [.int a, .int b]) 0) s = .error n ∨
      helperArg (arg1 (s.values [.int a, .int b]) 0) s = .ok h ∧ ((s.here.ctx h).status = .live ∨ (s.here.ctx h).status = .faulted) ∧ n = 3) :
    exec (.loadh st d a b) s = .next (retire st.toNat (status d [.int a, .int b] n s)) := by
  rw [exec_loadh, execLoadh]
  refine issue_of_ok hg ?_
  rw [M_bind_ok (prepare_image hc hi), M_bind_ok (get_apply s)]
  rcases ht with ht | ⟨ht, hf, rfl⟩
  · simp only [ht]
    rfl
  · simp only [ht, if_pos hf]
    rfl

theorem loadh_loads (hg : s.Admits (.loadh st d a b)) (hc : s.Clear [.int a, .int b] (some (.int d)))
    (hi : imageCands (arg1 (s.values [.int a, .int b]) 1) s = []) (ha : helperArg (arg1 (s.values [.int a, .int b]) 0) s = .ok h)
    (hf : ¬ ((s.here.ctx h).status = .live ∨ (s.here.ctx h).status = .faulted))
    (hl : s.LocalNow s.cur.core (bits (arg1 (s.values [.int a, .int b]) 1).toNat 16 0) 1536) :
    exec (.loadh st d a b) s = .next (retire st.toNat (status d [.int a, .int b] 0
      ((touch (bits (arg1 (s.values [.int a, .int b]) 1).toNat 16 0) 1536 s).updCtx s.cur.core h (fun c =>
        { loadHelperImage s.now (s.spmRead s.cur.core (bits (arg1 (s.values [.int a, .int b]) 1).toNat 16 0) 1536) c with
          slots := Vector.replicate 8 0, status := .suspended, barrier := [], drained := [] })))) := by
  rw [exec_loadh, execLoadh]
  refine issue_of_ok hg ?_
  rw [M_bind_ok (prepare_image hc hi), M_bind_ok (get_apply s)]
  simp only [ha, if_neg hf]
  rw [M_bind_ok (awaitSpm_of_localNow hl)]
  rfl

/-- RESUMEH completes whatever its operand; this is what it does where the helper is there and waits. -/
theorem resumeh_completes (hg : s.Admits (.resumeh st d a)) (hc : s.Clear [.int a] (some (.int d))) :
    exec (.resumeh st d a) s = .next (retire st.toNat (match helperArg (arg1 (s.values [.int a]) 0) s with
      | .error n => status d [.int a] n s
      | .ok h => match (s.here.ctx h).status with
        | .free => status d [.int a] 1 s
        | .live => status d [.int a] 3 s
        | _ => status d [.int a] 0 ((s.updHere (·.dropRec h)).updCtx s.cur.core h
            (fun c => { c with status := .live, wait := none, bound := s.now + 1 })))) := by
  rw [exec_resumeh, execResumeh]
  exact prepared_completes hg hc rfl

theorem killh_tells (hg : s.Admits (.killh st d a)) (hc : s.Clear [.int a] (some (.int d)))
    (ht : helperArg (arg1 (s.values [.int a]) 0) s = .error n ∨
      helperArg (arg1 (s.values [.int a]) 0) s = .ok h ∧ (s.here.ctx h).status = .free ∧ n = 1) :
    exec (.killh st d a) s = .next (retire st.toNat (status d [.int a] n s)) := by
  rw [exec_killh, execKillh]
  refine issue_of_ok hg ?_
  rw [M_bind_ok (prepare_of_clear hc rfl), M_bind_ok (get_apply s)]
  rcases ht with ht | ⟨ht, hf, rfl⟩
  · simp only [ht]
    rfl
  · simp only [ht, hf, if_true]
    rfl

theorem killh_kills {t : State} (hg : s.Admits (.killh st d a)) (hc : s.Clear [.int a] (some (.int d)))
    (ha : helperArg (arg1 (s.values [.int a]) 0) s = .ok h) (hf : (s.here.ctx h).status ≠ .free) (hk : killHelper h s = .ok ((), t)) :
    exec (.killh st d a) s = .next (retire st.toNat (status d [.int a] 0 t)) := by
  rw [exec_killh, execKillh]
  refine issue_of_ok hg ?_
  rw [M_bind_ok (prepare_of_clear hc rfl), M_bind_ok (get_apply s)]
  simp only [ha, if_neg hf]
  exact M_bind_ok hk

theorem upret_returns (hg : s.Admits (.upret st)) (hu : s.cur.ctx = 0 ∧ s.here.upcall = true) (hl : s.LocalNow s.cur.core frameOff 24) :
    exec (.upret st) s = .next (retire st.toNat
      (let w (k : Nat) : W64 := BitVec.ofNat 64 (ofBytes (s.spmRead s.cur.core (frameOff + 8 * k) 8))
      { writeReg .now 1 (w 2) (writeReg .now 0 (w 1) (s.updHere (fun k => { k with upcall := false }))) with
        target := some (w 0 &&& 0x7FFFFFFFFFFFFC) })) := by
  rw [exec_upret, execUpret]
  refine issue_of_ok hg ?_
  rw [M_bind_ok (get_apply s)]
  simp only [hu]
  exact M_bind_ok (awaitSpm_of_localNow hl)

theorem upret_idles (hg : s.Admits (.upret st)) (hu : ¬ (s.cur.ctx = 0 ∧ s.here.upcall = true)) :
    exec (.upret st) s = .next (retire st.toNat s) := by
  rw [exec_upret, execUpret]
  refine issue_of_ok hg ?_
  rw [M_bind_ok (get_apply s)]
  simp only [hu]
  rfl

end

/-! ### A killed helper (R93) -/

/-- The helper stops where it stands before KILLH frees it. -/
def State.stoppedAt (s : State) (h : Nat) : State :=
  (s.withdrawAll s.cur.core h).updCtx s.cur.core h (fun x => { x.unissued with status := .suspended })

/-- The state that KILLH leaves of a helper with nothing outstanding. -/
def State.killed (s : State) (h : Nat) : State :=
  let t := (s.stoppedAt h).updHere (·.kill h)
  let u : State := { t with inflight := t.inflight.filter (fun m => !(m.due.isSome && decide (m.src = (s.here.origin, h)))) }
  u.updVd s.here.vd (fun v => { v with cmds := v.cmds.map (fun r =>
    if r.core = s.here.origin ∧ r.ctx = h then { r with slot := none } else r) })

section
variable {s : State} {h : Nat}

theorem stoppedAt_ctx : (s.stoppedAt h).ctx s.cur.core h = { (s.here.ctx h).unissued with status := .suspended } := by
  refine (ctx_updCtx _ _ _ _).trans ?_
  rw [State.ctx, withdrawAll_core]
  rfl

theorem stoppedAt_ctxs {x : Fin 11} (hx : x ≠ ctxIx h) : (s.stoppedAt h).here.ctxs[x] = s.here.ctxs[x] := by
  have hcore : (s.stoppedAt h).here = ((s.core s.cur.core).withdrawn s.cur.core h).setCtx h
      { (((s.core s.cur.core).withdrawn s.cur.core h).ctx h).unissued with status := .suspended } := by
    rw [← withdrawAll_core]
    exact core_updCore _ _ _
  rw [hcore]
  exact Vector.getElem_set_ne (ctxIx h).isLt x.isLt (fun e => hx (Fin.ext e.symm))

theorem killHelper_kills (hun : (s.here.ctx h).unacked = 0) (hrem : (s.here.ctx h).remote = []) (hpark : (s.here.ctx h).parked = [])
    (hload : ∀ l ∈ (s.here.ctx h).loads, l.atomic = false) (hmerge : ∀ e ∈ s.ranks, ∀ q ∈ e.2.pending, q.user ≠ .merge s.cur.core)
    (hsent : ∀ p, p < 4 → s.unsent s.here.origin h p = false) : killHelper h s = .ok ((), s.killed h) := by
  have hports : (List.range 4).any (fun p => s.unsent s.here.origin h p) = false :=
    List.any_eq_false.mpr fun p hp => ne_true_of_eq_false (hsent p (List.mem_range.mp hp))
  have hloads : (s.here.ctx h).loads.any (·.atomic) = false := List.any_eq_false.mpr fun l hl => ne_true_of_eq_false (hload l hl)
  have hm : (s.stoppedAt h).merging s.cur.core = [] := (merging_eq_nil_iff (s.stoppedAt h) _).mpr hmerge
  have hdone : (s.stoppedAt h).storesDone s.cur.core h = true := by
    simp only [State.storesDone, stoppedAt_ctx, Context.unissued, hun, hrem, hpark, hloads, hm]
    rfl
  have hgo : (!(s.stoppedAt h).storesDone s.cur.core h || (List.range 4).any (fun p => s.unsent s.here.origin h p)) = false := by
    rw [hdone, hports]
    rfl
  unfold killHelper
  exact if_neg (ne_true_of_eq_false hgo)

theorem killed_here : (s.killed h).here = (s.stoppedAt h).here.kill h := here_updHere (s.stoppedAt h) (·.kill h)

theorem killed_leaves (h10 : h ≤ 10) : let t := s.killed h
    let m := t.here.ctx h
    m.status = .free ∧ (∀ j : Fin 16, m.hnd[j].bound = false ∧ m.hnd[j].gen = ((s.here.ctx h).hnd[j]).gen + 1) ∧
    m.ports = Vector.replicate 4 Port.reset ∧ m.slots = Vector.replicate 8 0 ∧ m.loads = [] ∧ m.rep = none ∧ m.wait = none ∧
    (∀ x ∈ m.btail :: m.belt, x.pend = []) ∧ (∀ x ∈ m.vtail :: m.vbelt, x.pend = []) ∧
    (∀ e ∈ t.here.mx, e.ctx = h → e.dead = true ∧ e.started = true ∧ e.slot = none) ∧
    (∀ x : Fin 11, x.val ≠ h → t.here.ctxs[x] = s.here.ctxs[x]) := by
  have hold : (s.stoppedAt h).here.ctx h = { (s.here.ctx h).unissued with status := .suspended } := stoppedAt_ctx
  dsimp only
  rw [killed_here, Core.ctx, show ((s.stoppedAt h).here.kill h).ctxs[ctxIx h] = _ from Vector.getElem_set_self _, hold]
  refine ⟨rfl, fun j => ?hnd, rfl, rfl, rfl, rfl, rfl, ?belt, ?vbelt, fun e he hx => ?mx, fun x hx => ?others⟩
  case hnd =>
    simp only [Fin.getElem_fin, Vector.getElem_map]
    exact ⟨rfl, rfl⟩
  case belt => simp [Cell.set]
  case vbelt => simp [Cell.set]
  case mx =>
    obtain ⟨q, hq, rfl⟩ := List.mem_map.mp he
    obtain ⟨-, hstart⟩ := List.mem_filter.mp hq
    by_cases hqx : q.ctx = h
    · rw [if_pos hqx]
      exact ⟨rfl, by simpa [hqx] using hstart, rfl⟩
    · rw [if_neg hqx] at hx
      exact absurd hx hqx
  case others =>
    have hne : x ≠ ctxIx h := fun e => hx (by rw [e]; exact Nat.mod_eq_of_lt (Nat.lt_succ_of_le h10))
    exact (Vector.getElem_set_ne (ctxIx h).isLt x.isLt (fun e => hne (Fin.ext e.symm))).trans (stoppedAt_ctxs hne)

end

/-- Settles O7: where each member completes, the status it delivers elsewhere, the image byte by byte, and the stopped helper. -/
theorem helperImages : Obligations.HelperImages := by
  refine ⟨fun st d a b h h1 h10 => ⟨fun s hg hc ⟨⟨h0, hv⟩, ⟨h64, hfit⟩, hf, hr⟩ => ?saveh,
      fun s hg hc ⟨⟨h0, hv⟩, ⟨h64, hfit⟩, hl, hf⟩ => ?loadh, fun s hg hc ⟨⟨h0, hv⟩, hf⟩ => ?resumeh,
      fun s hg hc ⟨h0, hv⟩ hf hun hrem hpark hload hmerge hsent => ?killh, fun s hg _ ⟨h0, hup, hl⟩ => ?upret,
      fun s hg _ hu => upret_idles hg hu⟩,
    fun st d a b h => ⟨?tells4s, ?tells4l, ?tells4r, ?tells4k, ?tells2s, ?tells2l, ?tells2r, ?tells2k, ?tells1s, ?tells1r, ?tells1k,
      ?tells3l, ?tells3r⟩,
    fun t c => ⟨length_helperImage t c, helperImage_fields t c⟩, fun h s _ _ => (stopHelper_ctx h s).2⟩
  case saveh =>
    have hs := saveh_saves hg hc (imageCands_of_fits h64 hfit) (helperArg_of_some h0 h1 h10 hv) hf hr
    rwa [bits_low] at hs
  case loadh =>
    have hidle : ¬ ((s.here.ctx h).status = .live ∨ (s.here.ctx h).status = .faulted) := by
      rcases hf with hf | hf <;> simp [hf]
    have hs := loadh_loads hg hc (imageCands_of_fits h64 hfit) (helperArg_of_some h0 h1 h10 hv) hidle (by rwa [bits_low])
    rwa [bits_low] at hs
  case resumeh =>
    rw [resumeh_completes hg hc, helperArg_of_some h0 h1 h10 hv]
    rcases hf with hf | hf <;> simp only [hf] <;> rfl
  case killh =>
    exact ⟨s.killed h, killh_kills hg hc (helperArg_of_some h0 h1 h10 hv) hf (killHelper_kills hun hrem hpark hload hmerge hsent),
      killed_leaves h10⟩
  case upret => exact upret_returns hg ⟨h0, hup⟩ hl
  case tells4s => exact fun s hg hc h0 => saveh_tells (h := 0) hg hc (imageCands_of_helper _ h0) (.inl (helperArg_of_helper _ h0))
  case tells4l => exact fun s hg hc h0 => loadh_tells (h := 0) hg hc (imageCands_of_helper _ h0) (.inl (helperArg_of_helper _ h0))
  case tells4r =>
    intro s hg hc h0
    rw [resumeh_completes hg hc, helperArg_of_helper _ h0]
    rfl
  case tells4k => exact fun s hg hc h0 => killh_tells (h := 0) hg hc (.inl (helperArg_of_helper _ h0))
  case tells2s =>
    exact fun s hg hc ⟨h0, ⟨h64, hfit⟩, hv⟩ => saveh_tells (h := 0) hg hc (imageCands_of_fits h64 hfit) (.inl (helperArg_of_none h0 hv))
  case tells2l =>
    exact fun s hg hc ⟨h0, ⟨h64, hfit⟩, hv⟩ => loadh_tells (h := 0) hg hc (imageCands_of_fits h64 hfit) (.inl (helperArg_of_none h0 hv))
  case tells2r =>
    intro s hg hc ⟨h0, hv⟩
    rw [resumeh_completes hg hc, helperArg_of_none h0 hv]
    rfl
  case tells2k => exact fun s hg hc ⟨h0, hv⟩ => killh_tells (h := 0) hg hc (.inl (helperArg_of_none h0 hv))
  case tells1s =>
    exact fun s hg hc ⟨⟨h1, h10, h0, hv⟩, ⟨h64, hfit⟩, hf⟩ =>
      saveh_tells hg hc (imageCands_of_fits h64 hfit) (.inr ⟨helperArg_of_some h0 h1 h10 hv, hf, rfl⟩)
  case tells1r =>
    intro s hg hc ⟨⟨h1, h10, h0, hv⟩, hf⟩
    rw [resumeh_completes hg hc, helperArg_of_some h0 h1 h10 hv]
    simp only [hf]
    rfl
  case tells1k => exact fun s hg hc ⟨⟨h1, h10, h0, hv⟩, hf⟩ => killh_tells hg hc (.inr ⟨helperArg_of_some h0 h1 h10 hv, hf, rfl⟩)
  case tells3l =>
    exact fun s hg hc ⟨⟨h1, h10, h0, hv⟩, ⟨h64, hfit⟩, hf⟩ =>
      loadh_tells hg hc (imageCands_of_fits h64 hfit) (.inr ⟨helperArg_of_some h0 h1 h10 hv, hf, rfl⟩)
  case tells3r =>
    intro s hg hc ⟨⟨h1, h10, h0, hv⟩, hf⟩
    rw [resumeh_completes hg hc, helperArg_of_some h0 h1 h10 hv]
    simp only [hf]
    rfl

end Sys2Proof.Machine
end

section
/-! PROOFS. Translation, faults and their answers (O39). -/

namespace Sys2Proof.Machine

/-! ### Invalidations and revocations (R291, R293, R294) -/

/-- The pages that a test picks while it leaves the state as it is. -/
theorem mem_foldl_picked {α : Type} {g : Nat → State → State × α} {q : Nat → α → Bool} {t : State} (l : List Nat)
    (hg : ∀ p ∈ l, (g p t).1 = t) (acc : List Nat) :
    let r := l.foldl (fun (acc : State × List Nat) p =>
      let e := g p acc.1
      (e.1, if q p e.2 then p :: acc.2 else acc.2)) (t, acc)
    r.1 = t ∧ ∀ p, p ∈ r.2 ↔ p ∈ acc ∨ p ∈ l ∧ q p (g p t).2 = true := by
  induction l generalizing acc with
  | nil => exact ⟨rfl, by simp⟩
  | cons a l ih =>
    obtain ⟨ha, hl⟩ := List.forall_mem_cons.mp hg
    obtain ⟨h1, h2⟩ := ih hl (if q a (g a t).2 then a :: acc else acc)
    simp only [List.foldl_cons, ha]
    refine ⟨h1, fun p => (h2 p).trans ?_⟩
    split <;> grind

theorem bit_eq_decide (e i : Nat) : bit e i = decide (e / 2 ^ i % 2 = 1) := Nat.testBit_eq_decide_div_mod_eq

section
variable {s : State} {c x vd n : Nat} {va : BitVec 55}

theorem tinvComplete_waits {page ctl : W64} (hp : (s.ctx c x).tinv = some (page, ctl)) (hu : s.usesPage page ctl = true) :
    exec (.tinvComplete c x) s = .next s := by
  rw [exec_tinvComplete, execTinvComplete]
  simp only [hp, hu, if_true]

/-- The pages whose held writes are walked again as a TINV completes (R294). -/
def releasedPages (page ctl : W64) (d : Nat) (t : State) : State × List Nat :=
  (heldPages t d).foldl (fun (acc : State × List Nat) p =>
    let l := leafAt d p acc.1
    (l.1, if tinvCovers page ctl d p l.2.1 false && l.2.2 && !t.revokes d (p * 65536) then p :: acc.2 else acc.2)) (t, [])

theorem tinvComplete_ends {page ctl : W64} (hp : (s.ctx c x).tinv = some (page, ctl)) (hu : s.usesPage page ctl = false) :
    let t := s.afresh.updCtx c x (fun k => { k with tinv := none })
    let d := ctl.toNat % 64
    exec (.tinvComplete c x) s = .next ((answerHolds d (releasedPages page ctl d t).2.contains true (releasedPages page ctl d t).1).served s) := by
  have hd : bits ctl.toNat 5 0 = ctl.toNat % 64 := by simp [bits]
  rw [exec_tinvComplete, execTinvComplete]
  simp only [hp, hu, hd, whenServed_eq_served]
  rfl

theorem releasedPages_of_read {page ctl : W64} {d : Nat} {t : State} (h : ∀ p ∈ heldPages t d, (leafAt d p t).1 = t) :
    (releasedPages page ctl d t).1 = t ∧ ∀ p, (releasedPages page ctl d t).2.contains p = true ↔ p ∈ heldPages t d ∧
      tinvCovers page ctl d p (leafAt d p t).2.1 false = true ∧ (leafAt d p t).2.2 = true ∧ t.revokes d (p * 65536) = false := by
  obtain ⟨h1, h2⟩ := mem_foldl_picked (g := leafAt d)
    (q := fun p l => tinvCovers page ctl d p l.1 false && l.2 && !t.revokes d (p * 65536)) (heldPages t d) h []
  refine ⟨h1, fun p => List.contains_iff_mem.trans ((h2 p).trans ?_)⟩
  simp [and_assoc]

section
variable {w : State} {a e : Nat} {big : Bool}
  (hw : walkLevels va.toNat 3 s.afresh (s.vd vd).desc.ptroot.toNat = (w, .at_ a e big))
include hw

/-- DUP_REVOCATION of a page that no revocation is under way for (R293). -/
theorem dupRevocation_opens (hf : (w.vd vd).revoking.find? (fun r => samePage r.big r.page (va.toNat / 65536)) = none) :
    exec (.dupRevocation vd va) s = .next (State.served (
      if !bit e 7 then w
      else if revocationRefused w (masterOf e) then answerHolds vd (samePage big (va.toNat / 65536)) false { w with nextId := w.nextId + 1 }
      else
        let t := w.updVd vd (fun v => { v with revoking := v.revoking ++ [⟨va.toNat / 65536, big, masterOf e⟩] })
        if masterOf e = w.pkg then t else rewriteLeaf vd va.toNat a e big t) s) := by
  have hw : walkLevels va.toNat 3 s.afresh (s.afresh.vd vd).desc.ptroot.toNat = (w, .at_ a e big) := hw
  rw [exec_dupRevocation, execDupRevocation, whenServed_eq_served, dupRevocation]
  simp only [hw, hf]

/-- DUP_REVOCATION of a page whose revocation is under way (R293). -/
theorem dupRevocation_ends {r : Revoke}
    (hf : (w.vd vd).revoking.find? (fun r => samePage r.big r.page (va.toNat / 65536)) = some r) :
    exec (.dupRevocation vd va) s = .next (State.served (
      let t := { w.updVd vd (fun v => { v with revoking := v.revoking.erase r }) with nextId := w.nextId + 1 }
      if revocationRefused w r.master then answerHolds vd (samePage big (va.toNat / 65536)) false t
      else answerHolds vd (samePage big (va.toNat / 65536)) true (if bit e 7 then rewriteLeaf vd va.toNat a e big t else t)) s) := by
  have hw : walkLevels va.toNat 3 s.afresh (s.afresh.vd vd).desc.ptroot.toNat = (w, .at_ a e big) := hw
  rw [exec_dupRevocation, execDupRevocation, whenServed_eq_served, dupRevocation]
  simp only [hw, hf]

end

end

/-! ### The fault ring and its answers (R295) -/

section
variable {s : State} {c x vd n : Nat} {v : W64}

theorem faultRingEntry_places {f : RingFault} (hf : (s.vd vd).faults.find? (fun f => f.slot.isNone) = some f)
    (hroom : ∀ g ∈ (s.vd vd).faults, ∀ k, g.slot = some k → (s.vd vd).frpos < k + 2 ^ (s.vd vd).desc.frlog) :
    exec (.faultRingEntry vd) s = .next ((((s.ringEntry vd (f.bytes ++ List.replicate (64 - f.bytes.length) 0)).1).updVd vd (fun v =>
      { v with faults := v.faults.map (fun g => if g.slot = none ∧ g = f then { g with slot := some (s.vd vd).frpos } else g) })).interrupt vd 1) := by
  have hfull : (s.vd vd).faults.any (fun g => g.slot.any (fun k => decide (k + (s.vd vd).ringSize ≤ (s.vd vd).frpos))) = false := by
    refine List.any_eq_false.mpr fun g hg => ?_
    rw [Option.any_eq_true]
    rintro ⟨k, hk, hle⟩
    exact absurd (hroom g hg k hk) (Nat.not_lt.mpr (of_decide_eq_true hle))
  rw [exec_faultRingEntry, execFaultRingEntry]
  simp only [hf, hfull]
  rfl

/-- What PAGER_ANSWER does of an entry that the pagers have answered (R295). -/
theorem pagerAnswer_eq {f : RingFault} {a : Nat} {w : State}
    (hf : (s.vd vd).faults.find? (fun f => f.slot.any (fun k => k % 2 ^ (s.vd vd).desc.frlog == n)) = some f)
    (hr : s.afresh.devRead ((s.vd vd).desc.fltring.toNat + 64 * n + 40) 8 = (w, some a)) (ha : a / 2 ^ 63 % 2 = 1) (hh : f.h ≠ 255) :
    let t := w.updVd vd (fun v => { v with faults := v.faults.filter (fun g => g != f) })
    exec (.pagerAnswer vd n) s = .next (State.served (
      if f.upcall then onOrigin vd f.core (fun c => notice c (noticeWord f.h f.seq (answerCode a != 0))) t
      else onOrigin vd f.core (fun c => writeReply c f.ctx (BitVec.ofNat 64 (answerCode a))) t) s) := by
  have hb : bit a 63 = true := by rw [bit_eq_decide, ha]; rfl
  rw [exec_pagerAnswer, execPagerAnswer]
  simp only [Vd.ringSize, hf, whenServed_eq_served, hr, hb, hh, Bool.not_true, Bool.false_eq_true, if_false]

theorem answerCode_eq (a : Nat) : answerCode a = if a % 256 = 0 then 0 else if a % 256 = 8 then 8 else 9 := by
  unfold answerCode
  split
  · rfl
  · split <;> grind

theorem pagerReply_writes (hc : c < 4224) (hx : x ≤ 10) : exec (.pagerReply c x v) s = .next (writeReply c x v s) := by
  rw [exec_pagerReply, execPagerReply, if_pos ⟨hc, hx⟩]

/-- What an answer leaves of the context before a trap of its fault (R101, R109). -/
def Context.replied (v : W64) (m : Context) : Context := { m with
  reply := v, pfault := none, sleep := if m.sleep = some false then some true else m.sleep
  wait := if m.pfault.isSome || m.sleep.isSome then none else m.wait }

theorem writeReply_ctx_of_served (h : (s.ctx c x).pfault = none ∨ v = 0) :
    (writeReply c x v s).ctx c x = (s.ctx c x).replied v := by
  have hw : writeReply c x v s = s.updCtx c x (Context.replied v) := by
    unfold writeReply
    dsimp only
    split
    · next f hf => exact if_pos (h.resolve_left (by rw [hf]; exact Option.some_ne_none f))
    · rfl
  rw [hw]
  exact ctx_updCtx s c x _

/-- What a context changes of itself in the name of another issuer. -/
theorem asContext_updMe_ctx (c x : Nat) (f : State → Context → Context) (s : State) :
    (asContext c x (fun s => s.updMe (f s)) s).ctx c x =
      f { actAs c x s with banks := [], collisions := 0, target := none } (s.ctx c x) :=
  me_updMe { actAs c x s with banks := [], collisions := 0, target := none } _

theorem trap_cause_low (sup : Bool) (k : BitVec 8) :
    (((if sup then 0x8000000000000000 else 0 : W64) ||| BitVec.ofNat 64 k.toNat).toNat) % 256 = k.toNat := by
  have hk := k.isLt
  have hmod (a b : Nat) : (a ||| b) % 256 = a % 256 ||| b % 256 := Nat.or_mod_two_pow (n := 8)
  rw [BitVec.toNat_or, hmod, BitVec.toNat_ofNat, Nat.mod_mod_of_dvd _ (by decide), Nat.mod_eq_of_lt hk]
  cases sup <;> exact Nat.zero_or _

theorem writeReply_ctx_of_refused {f : PendingFault} (hf : (s.ctx c x).pfault = some f) (hv : v ≠ 0) :
    let t := (writeReply c x v s).ctx c x
    t.sup = true ∧ t.epc = (s.ctx c x).pc ∧ t.tval = f.va ∧ t.cause.toNat % 256 = f.cause.toNat ∧ t.pfault = none ∧ t.reply = v := by
  have hw : writeReply c x v s = asContext c x (fun t => takeTrap f.cause.toNat f.va (s.ctx c x).pc t)
      (s.updCtx c x (Context.replied v)) := by
    unfold writeReply
    simp only [hf, if_neg hv]
    rfl
  dsimp only
  rw [hw]
  simp only [takeTrap, asContext_updMe_ctx, ctx_updCtx, true_and]
  exact ⟨trap_cause_low _ _, rfl, rfl⟩

/-! ### Notices (R100, R102) -/

/-- A core's own update leaves all else as it was. -/
structure UpdatesCore (c : Nat) (s t : State) : Prop where
  others : ∀ d, d ≠ c → t.core d = s.core d
  rest : { t with cores := s.cores } = s

theorem UpdatesCore.updCore (s : State) (c : Nat) (f : Core → Core) : UpdatesCore c s (s.updCore c f) :=
  ⟨fun _ hd => core_updCore_ne s f hd, rfl⟩

theorem UpdatesCore.trans {s t u : State} (h : UpdatesCore c s t) (g : UpdatesCore c t u) : UpdatesCore c s u :=
  ⟨fun d hd => (g.others d hd).trans (h.others d hd), by rw [← h.rest, ← g.rest]⟩

/-- The core with these notices on their way to its p3. -/
def Core.withNotices (l : List W64) (k : Core) : Core := { k with notices := l }

theorem Core.withNotices_same {k : Core} {l : List W64} (h : k.notices = l) : k.withNotices l = k := by rw [← h]; rfl

/-- One more notice on its way. -/
def State.noticed (s : State) (c : Nat) (v : W64) : State := s.updCore c (fun k => { k with notices := k.notices ++ [v] })

section
variable (hn : (s.core c).notices = [])
include hn

theorem noticed_core : (s.noticed c v).core c = (s.core c).withNotices [v] := by
  rw [State.noticed, core_updCore, hn]
  rfl

/-- A notice that is alone on its way is dropped, enters the queue, or stays (R100). -/
theorem notice_alone : notice c v s =
    (let p := ((s.core c).ctx 0).ports[ptrIx 3]
    let u := (s.noticed c v).updCore c (Core.withNotices [])
    if (s.core c).upc.getLsbD 0 = false then u
    else if p.queue.length < 16 then u.updCore c (setPort 0 3 { p with queue := p.queue ++ [v] }) else s.noticed c v) := by
  have hc := noticed_core (v := v) hn
  have hlen : notice c v s = flushNotices c 1 (s.noticed c v) := by
    show flushNotices c ((s.noticed c v).core c).notices.length (s.noticed c v) = _
    rw [hc]
    rfl
  rw [hlen]
  simp only [flushNotices, hc, Core.withNotices, Bool.not_eq_true']
  rfl

theorem notice_first : UpdatesCore c s (notice c v s) ∧ (notice c v s).core c = (
    let p := ((s.core c).ctx 0).ports[3]
    if (s.core c).upc.getLsbD 0 = false then s.core c
    else if p.queue.length < 16 then setPort 0 3 { p with queue := p.queue ++ [v] } (s.core c)
    else { s.core c with notices := [v] }) := by
  have hc := noticed_core (v := v) hn
  have hup : UpdatesCore c s (s.noticed c v) := .updCore s c _
  have hu : ((s.noticed c v).updCore c (Core.withNotices [])).core c = s.core c := by
    rw [core_updCore, hc]
    exact Core.withNotices_same hn
  rw [notice_alone hn]
  dsimp only
  split
  · exact ⟨hup.trans (.updCore _ c _), hu⟩
  split
  · next hroom =>
    refine ⟨(hup.trans (.updCore _ c _)).trans (.updCore _ c _), ?_⟩
    rw [core_updCore, hu]
    exact (if_pos hroom).symm
  · next hroom => exact ⟨hup, hc.trans (if_neg hroom).symm⟩

end

end

/-! ### The upcall (R99) -/

/-- The upcall frame of the control context. -/
def State.upcallFrame (s : State) : List Byte :=
  bytesOf 8 s.me.pc.toNat ++ bytesOf 8 ((s.me.reg 0).read s.now).toNat ++ bytesOf 8 ((s.me.reg 1).read s.now).toNat ++ bytesOf 8 0

/-- The frame is in place, and n0 and n1 tell of the fault of helper h. -/
def State.framed (s : State) (h : Nat) : State :=
  writeReg .now 1 (BitVec.ofNat 64 (0x800000 + recOff h)) (writeReg .now 0 (BitVec.ofNat 64 h)
    ((s.withdrawAll s.cur.core 0).spmWrite s.cur.core frameOff s.upcallFrame))

/-- The core while an upcall is under way, the faults of `rest` still to be delivered. -/
def Core.inUpcall (rest : List UpRec) (k : Core) : Core := { k with upcall := true, upslot := true, recs := rest }

/-- The upcall begins; the faults of `rest` are still to be delivered. -/
def State.upcalled (s : State) (h : Nat) (rest : List UpRec) : State :=
  ((s.framed h).updHere (·.inUpcall rest)).updMe (fun c =>
    { c.unissued with pc := va55 s.here.upv, bound := s.now })

section
variable {s : State} {h : Nat} {rest : List UpRec}

theorem spmWrite_withdrawAll (s : State) (off : Nat) (bs : List Byte) :
    ((s.withdrawAll s.cur.core 0).spmWrite s.cur.core off bs).now = s.now ∧
    ((s.withdrawAll s.cur.core 0).spmWrite s.cur.core off bs).here.spm = Memory.writeN s.here.spm off bs := by
  have hhere : ((s.withdrawAll s.cur.core 0).spmWrite s.cur.core off bs).here = _ := core_updCore _ _ _
  rw [State.now, hhere, withdrawAll_core]
  exact ⟨rfl, rfl⟩

theorem framed_spm : (s.framed h).here.spm = Memory.writeN s.here.spm frameOff s.upcallFrame := by
  rw [State.framed, writeReg, here_updMe, writeReg, here_updMe]
  exact (spmWrite_withdrawAll s _ _).2

/-- n0 and n1 hold the helper's number and the address of its record (R99). -/
theorem framed_regs : ((s.framed h).me.reg 0).read s.now = BitVec.ofNat 64 h ∧
    ((s.framed h).me.reg 1).read s.now = BitVec.ofNat 64 (0x800000 + recOff h) := by
  have hnow := (spmWrite_withdrawAll s frameOff s.upcallFrame).1
  rw [State.framed]
  constructor
  · rw [reg_writeReg_ne _ _ _ (by decide) (by decide) (by decide), reg_writeReg_same, hnow]
    exact Cell.read_write le_rfl _ _ _ _ _
  · rw [reg_writeReg_same, writeReg, updMe_now, hnow]
    exact Cell.read_write le_rfl _ _ _ _ _

theorem upcalled_me : (s.upcalled h rest).me = { (s.framed h).me.unissued with pc := va55 s.here.upv, bound := s.now } := by
  rw [State.upcalled, me_updMe, me_updHere (s.framed h) (f := Core.inUpcall rest) rfl]

theorem upcalled_core : (s.upcalled h rest).here.recs = rest ∧ (s.upcalled h rest).here.upcall = true ∧
    (s.upcalled h rest).here.spm = Memory.writeN s.here.spm frameOff s.upcallFrame := by
  rw [State.upcalled, here_updMe, here_updHere]
  exact ⟨rfl, rfl, framed_spm⟩

end

/-- The bytes at the start of what has been written. -/
theorem readN_writeN_start {m : List Host.Cell} (hm : Memory.wf m = true) (a : Nat) (l r : List Byte) :
    Memory.readN (Memory.writeN m a (l ++ r)) a l.length = l := by
  refine List.ext_getElem (by simp [Memory.readN]) fun i hi hl => ?_
  simp only [Memory.readN, List.getElem_map, List.getElem_range]
  rw [Memory.read_writeN_inside m a i _ hm (by rw [List.length_append]; omega), List.getElem_append_left hl]

/-- Context x of core c issues, with no transients of an instruction. -/
def State.inNameOf (s : State) (c x : Nat) : State := { actAs c x s with banks := [], collisions := 0, target := none }

section
variable {s : State} {c x : Nat} {f g : State → State}

theorem asContext_congr (h : f (s.inNameOf c x) = g (s.inNameOf c x)) : asContext c x f s = asContext c x g s :=
  congrArg (fun t : State => { t with cur := s.cur, banks := s.banks, collisions := s.collisions, target := s.target }) h

theorem asContext_core (hf : (f (s.inNameOf c x)).cur = (s.inNameOf c x).cur) :
    (asContext c x f s).core c = (f (s.inNameOf c x)).here :=
  congrArg (fun u : Cur => (f (s.inNameOf c x)).core u.core) hf.symm

theorem asContext_ctx (hf : (f (s.inNameOf c x)).cur = (s.inNameOf c x).cur) :
    ((asContext c x f s).core c).ctx x = (f (s.inNameOf c x)).me := by
  rw [asContext_core hf]
  exact congrArg (fun u : Cur => (f (s.inNameOf c x)).here.ctxs[u.ctx]) hf.symm

end

theorem upcallDelivery_eq {s : State} {c : Nat} {r : UpRec} {l : List UpRec} (hr : upcallReady s c = true) (hrecs : (s.core c).recs = r :: l) :
    exec (.upcallDelivery c) s = .next (asContext c 0 (fun s => s.upcalled r.h l) s) := by
  rw [exec_upcallDelivery, execUpcallDelivery, if_pos hr]
  simp only [deliverUpcall, hrecs]
  exact congrArg Host.Outcome.next (asContext_congr rfl)

theorem upcallDelivery_delivers {s : State} {c : Nat} (hr : upcallReady s c = true) (hm : Memory.wf (s.core c).spm = true) :
    ∃ r l t, (s.core c).recs = r :: l ∧ exec (.upcallDelivery c) s = .next t ∧ (t.core c).recs = l ∧
      (t.core c).upcall = true ∧ ((t.core c).ctx 0).pc = va55 (s.core c).upv ∧
      t.spmRead c 0x17EA0 8 = bytesOf 8 ((s.core c).ctx 0).pc.toNat ∧
      ((((t.core c).ctx 0).reg 0).read (s.core c).clock) = BitVec.ofNat 64 r.h ∧
      ((((t.core c).ctx 0).reg 1).read (s.core c).clock) = BitVec.ofNat 64 (0x800000 + recOff r.h) := by
  cases hrecs : (s.core c).recs with
  | nil => simp [upcallReady, hrecs] at hr
  | cons r l =>
    have hcur : ((s.inNameOf c 0).upcalled r.h l).cur = (s.inNameOf c 0).cur := rfl
    have hcore := asContext_core (s := s) (c := c) (x := 0) (f := fun s => s.upcalled r.h l) hcur
    have hctx := asContext_ctx (s := s) (c := c) (x := 0) (f := fun s => s.upcalled r.h l) hcur
    obtain ⟨hl, hup, hspm⟩ := upcalled_core (s := s.inNameOf c 0) (h := r.h) (rest := l)
    obtain ⟨h0, h1⟩ := framed_regs (s := s.inNameOf c 0) (h := r.h)
    refine ⟨r, l, _, rfl, upcallDelivery_eq hr hrecs, by rw [hcore, hl], by rw [hcore, hup], ?_, ?_, ?_, ?_⟩
    · rw [hctx, upcalled_me]
      rfl
    · have hread := readN_writeN_start (m := (s.inNameOf c 0).here.spm) hm frameOff (bytesOf 8 (s.inNameOf c 0).me.pc.toNat)
        (bytesOf 8 (((s.inNameOf c 0).me.reg 0).read (s.inNameOf c 0).now).toNat ++
          (bytesOf 8 (((s.inNameOf c 0).me.reg 1).read (s.inNameOf c 0).now).toNat ++ bytesOf 8 0))
      rw [length_bytesOf, ← List.append_assoc, ← List.append_assoc] at hread
      rw [State.spmRead, hcore, hspm]
      exact hread
    · rw [hctx, upcalled_me]
      exact h0
    · rw [hctx, upcalled_me]
      exact h1

/-- Settles O39, event by event. -/
theorem faultEvents : Obligations.FaultEvents := by
  intro s c x vd n va v k becomes
  refine ⟨?pageWalk, fun page ctl hp => ⟨tinvComplete_waits hp, fun hu => ?tinvComplete⟩, fun w a e big hw => ?dupRevocation,
    fun f hf hroom => faultRingEntry_places hf hroom, fun f a w hf hr ha hh => ?pagerAnswer,
    fun hc hx => pagerReply_writes hc hx, fun _ h => writeReply_ctx_of_served h, fun f _ hf hv => writeReply_ctx_of_refused hf hv,
    fun hc hn => ?pagerNotice, fun hr hm => upcallDelivery_delivers hr hm⟩
  case pageWalk => exact (exec_pageWalk c vd va k s).trans (congrArg Host.Outcome.next (whenServed_eq_served _ s))
  case tinvComplete =>
    intro t d hread
    obtain ⟨hstate, hpages⟩ := releasedPages_of_read (page := page) (ctl := ctl) hread
    refine ⟨(releasedPages page ctl d t).2.contains, ?_, hpages⟩
    have hend := tinvComplete_ends hp hu
    dsimp only at hend
    rwa [hstate] at hend
  case dupRevocation =>
    intro here answers step dup event found
    have hdup : bit e 7 = decide dup := bit_eq_decide e 7
    refine ⟨fun hf hd => (dupRevocation_opens hw hf).trans ?_, fun hf hd hr => (dupRevocation_opens hw hf).trans ?_,
      fun hf hd hr => (dupRevocation_opens hw hf).trans ?_, fun r hf => ⟨fun hr => (dupRevocation_ends hw hf).trans ?_,
      fun hr hd => (dupRevocation_ends hw hf).trans ?_, fun hr hd => (dupRevocation_ends hw hf).trans ?_⟩⟩
    · simp only [hdup, hd]
      rfl
    · simp only [hdup, hd, hr]
      rfl
    · simp only [hdup, hd, hr]
      rfl
    · simp only [hr]
      rfl
    · simp only [hdup, hr, hd]
      rfl
    · simp only [hdup, hr, hd]
      rfl
  case pagerAnswer =>
    intro code t
    have heq := pagerAnswer_eq hf hr ha hh
    have hcode : answerCode a = code := answerCode_eq a
    refine ⟨fun hup => ?_, fun hup => ?_⟩
    · refine heq.trans ?_
      simp only [hup, if_true, noticeWord, hcode]
      by_cases h0 : code = 0 <;> simp [h0, t]
    · refine heq.trans ?_
      simp only [hup, hcode]
      rfl
  case pagerNotice =>
    obtain ⟨⟨hothers, hrest⟩, hcore⟩ := notice_first (v := v) hn
    exact ⟨_, by rw [exec_pagerNotice, execPagerNotice, if_pos hc], hothers, hrest, hcore⟩

end Sys2Proof.Machine
end

section
/-! PROOFS. WAITA, FFLAG, SLEEPR and TINV (O10): a state in which the operands of FFLAG fill the hold buffer of its bank. -/

namespace Sys2Proof.Machine

/-! ### FFLAG is performed at once on what its operands have left, not on what it has reached (R108)

`StoresNow` asks whether the bank takes the store before the port of the operand has popped. Of a package that lists its cores out of
order, the pop lists the issuing core once more, and so counts the contribution in its L1 twice: the hold buffer has room for the store
and the contribution that it recalls (R148, R256), but for one more it has not. -/

/-- An update-only line with one contribution, at the first line of row 0 of rank 0. -/
def contributing : L1Line where
  line := 0x800
  vd := 0
  pa := 0
  key := 0
  w := true
  d := true
  g := false
  big := false
  upd := some ⟨0, 0, [(0, 1)]⟩
  data := none

/-- An open course with row 0 of rank 0 in its footprint. -/
def holding : Course where
  id := 0
  vd := 0
  cmd := none
  q := 0
  launch := 0
  group := 0
  solo := false
  members := []
  parts := []
  opened := true
  foot := [(0, 0)]
  staged := []
  under := []
  index := 0
  total := 1
  ready := []
  keystone := none
  flipped := false
  numbers := []
  since := 0

/-- FFLAG n0, p0 is to store 7 at byte 8 of row 0 of rank 0, whose hold buffer has room for two more writes; core 1 is listed before the
issuing core 0. -/
def flagging : State :=
  let s := (Tests.demo [0x10008]).updMe (fun c => { c with ports := c.ports.set 0 ⟨some ⟨1, 0, 0⟩, false, [7]⟩ })
  { s with
    cores := [(1, Core.first 1), (0, { s.here with l1 := [contributing] })]
    ranks := [(0, { Rank.reset with held := List.replicate 62 ⟨0, []⟩ })]
    courses := [holding] }

theorem flagging_meets : flagging.Admits (.fflag 0 16 24) ∧ flagging.Clear [.int 16, .int 24] none := by
  obtain ⟨hg, hc⟩ := Tests.meets_of (s := flagging) (l := [.fflag 0 16 24]) (srcs := [.int 16, .int 24]) (dst := none) (by decide)
  exact ⟨hg _ List.mem_cons_self, hc⟩

/-- The bank takes the store as long as the operands have not popped. -/
theorem flagging_reaches : ∃ ps t, flagging.ReachesHome 0x10008 8 .store false true ps t ∧ flagAwaits t.pkg t = [] ∧ t.StoresNow ps := by
  obtain ⟨ps, t, hr, hp⟩ := Tests.reachesHome_of (s := flagging) (va := 0x10008) (len := 8) (k := .store) (rd := false)
    (wr := true) (alloc := true) (u := none)
    (p := fun ps t => decide (flagAwaits t.pkg t = []) && Tests.storesNow ps t) (by decide +kernel)
  simp only [Tests.storesNow, Bool.and_eq_true, decide_eq_true_eq, Bool.not_eq_true'] at hp
  exact ⟨ps, t, hr, hp.1, hp.2⟩

/-- Then it does not: the store waits at the bank, and nothing of it is acknowledged. -/
theorem flagging_waits : Tests.ran (.fflag 0 16 24) flagging (fun t => decide (t.me.unacked = 0)) = true := by decide +kernel

/-- A store that is performed is still to be acknowledged (R136). -/
theorem storeHome_unacked (va : Nat) (pc : W64) (ps : List Place) (bs : List Byte) (s : State) :
    ∃ n, (storeHome va pc ps bs s).me.unacked = n + 1 := by
  unfold storeHome
  dsimp only
  rw [me_updMe]
  exact ⟨_, rfl⟩

theorem retire_unacked (stall : Nat) (s : State) : (retire stall s).me.unacked = s.me.unacked :=
  (congrArg Context.unacked (retire_sameContext stall s) :)

/-- Refutes O10 by FFLAG: in `flagging` its store waits at the bank, where the statement has it performed. -/
theorem not_waitingInstructions : ¬ Obligations.WaitingInstructions := by
  intro h
  obtain ⟨hg, hc⟩ := flagging_meets
  obtain ⟨ps, t, hreach, hflag, hnow⟩ := flagging_reaches
  obtain ⟨-, -, hfflag, -⟩ := h 0 0 16 24
  have hexec := hfflag ps t (by decide) flagging hg hc ⟨by decide, hreach, hflag, hnow⟩
  have hran := flagging_waits
  rw [Tests.ran, hexec] at hran
  obtain ⟨n, hn⟩ := storeHome_unacked ((arg1 (flagging.values [.int 16, .int 24]) 0).toNat % 2 ^ 55) t.me.pc ps
    (bytesOf 8 (arg1 (flagging.values [.int 16, .int 24]) 1).toNat) (consume [.int 16, .int 24] t)
  have hzero := of_decide_eq_true hran
  rw [retire_unacked, hn] at hzero
  exact Nat.succ_ne_zero n hzero

end Sys2Proof.Machine
end

section
/-! PROOFS. REP and its body (O5). -/

namespace Sys2Proof.Machine

/-! ### Fetching a body (R121, R122) -/

section
variable {pc k : Nat} {s t : State} {w : Word} (hw : fetchWord (pc % 2 ^ 55) s = .ok (w, t))
include hw

theorem fetchBody_banned {c : Nat} (hb : bodyTrap t w = some c) : fetchBody pc (k + 1) s = .error (.trap c (w.zeroExtend 64)) := by
  rw [fetchBody, M_bind_ok hw, M_bind_ok (get_apply t), hb]
  rfl

theorem fetchBody_error {e : Stop} (hb : bodyTrap t w = none) (h : fetchBody (pc + 4) k t = .error e) :
    fetchBody pc (k + 1) s = .error e := by
  rw [fetchBody, M_bind_ok hw, M_bind_ok (get_apply t), hb]
  exact M_bind_error h

theorem fetchBody_ok {ws : List Word} {u : State} (hb : bodyTrap t w = none) (h : fetchBody (pc + 4) k t = .ok (ws, u)) :
    fetchBody pc (k + 1) s = .ok (w :: ws, u) := by
  rw [fetchBody, M_bind_ok hw, M_bind_ok (get_apply t), hb]
  exact M_bind_ok h

end

/-! ### Which words may not stand in a body (R122) -/

/-- Major codes 0x11 to 0x17 and 0x2F, and the members of SYS that R122 names. -/
theorem repBanned_iff (w : Word) : repBanned w = true ↔
    (0x11 ≤ w.toNat / 2 ^ 26 ∧ w.toNat / 2 ^ 26 ≤ 0x17) ∨ w.toNat / 2 ^ 26 = 0x2F ∨ (w.toNat / 2 ^ 26 = 0x18 ∧
      (w.toNat % 64 = 1 ∨ w.toNat % 64 = 2 ∨ w.toNat % 64 = 6 ∨ w.toNat % 64 = 7 ∨ w.toNat % 64 = 9 ∨ w.toNat % 64 = 10 ∨
        w.toNat % 64 = 11)) := by
  have hmajor : (w.extractLsb' 26 6).toNat = w.toNat / 2 ^ 26 := by
    rw [BitVec.extractLsb'_toNat, Nat.shiftRight_eq_div_pow]
    have := w.isLt
    omega
  have hfn : (w.extractLsb' 0 6).toNat = w.toNat % 64 := by
    rw [BitVec.extractLsb'_toNat, Nat.shiftRight_zero]
  simp only [repBanned, hmajor, hfn, Bool.or_eq_true, Bool.and_eq_true, decide_eq_true_eq, beq_iff_eq, or_assoc]

theorem bodyTrap_of_banned {s : State} {w : Word} (h : repBanned w = true) : bodyTrap s w = some 0x01 := if_pos h

theorem bodyTrap_of_not_banned {s : State} {w : Word} (h : ¬ repBanned w = true) : bodyTrap s w = wordTrap w s := if_neg h

theorem wordTrap_of_error {s : State} {w : Word} {e : DecodeError} (h : decodeSoras w = .error e) : wordTrap w s = some 0x01 := by
  rw [wordTrap, h]
  rfl

theorem wordTrap_of_ok {s : State} {w : Word} {i : Instr} (h : decodeSoras w = .ok i) :
    wordTrap w s = gate w s.here.feat s.me.sup (decide (s.cur.ctx ≠ 0)) := by
  rw [wordTrap, h]

/-! ### REP -/

section
variable {st : BitVec 3} {a : BitVec 5} {i : BitVec 11} {s t : State} (hg : s.Admits (.rep st a i))
include hg

/-- With its body fetched and its count clear, REP retires in what it makes of both. -/
theorem rep_completes {body : List Word} (hb : fetchBody (s.me.pc + 4).toNat i.toNat s = .ok (body, t)) (hc : t.Clear [.int a] none) :
    let count : W64 := arg1 (t.values [.int a]) 0
    let base : W64 := va55 (t.me.pc + 4)
    exec (.rep st a i) s = .next (retire st.toNat (
      if count = 0 then jumpTo (base + 4 * BitVec.ofNat 64 i.toNat) (consume [.int a] t)
      else jumpTo base ((consume [.int a] t).updMe (fun x => { x with rep := some ⟨count, base, i.toNat, 0, body⟩ })))) := by
  rw [exec_rep]
  refine issue_of_ok hg ?_
  rw [M_bind_ok (get_apply s), M_bind_ok hb, M_bind_ok (prepare_of_clear hc rfl)]
  rfl

theorem rep_stops {e : Stop} (hb : fetchBody (s.me.pc + 4).toNat i.toNat s = .error e) :
    exec (.rep st a i) s = .next (stopAt s e) := by
  rw [exec_rep]
  exact issue_of_error hg ((M_bind_ok (get_apply s)).trans (M_bind_error hb))

end

/-- Settles O5: what REP makes of a body that is fetched, and which words end the fetch. -/
theorem repetitions : Obligations.Repetitions := by
  unfold Obligations.Repetitions
  refine ⟨?completes, fun st a i s c v hg hb => rep_stops hg hb,
    fun pc k s t w hw => ⟨fun c hc => fetchBody_banned hw hc, fun hb c v h => fetchBody_error hw hb h,
      fun hb ws u h => fetchBody_ok hw hb h⟩, fun s w => ⟨fun h => ?banned, fun h => ?allowed⟩⟩
  case completes =>
    intro st a i body t count base s hg hb hc
    rw [rep_completes hg hb hc]
    refine ⟨fun hne => ?_, fun hz => ?_⟩
    · rw [if_neg hne, jumpTo, va55_va55]
    · rw [if_pos hz, jumpTo]
  case banned => exact bodyTrap_of_banned ((repBanned_iff w).mpr h)
  case allowed =>
    rw [bodyTrap_of_not_banned (mt (repBanned_iff w).mp h)]
    exact ⟨fun e he => wordTrap_of_error he, fun i hi => wordTrap_of_ok hi⟩

end Sys2Proof.Machine
end

section
/-! PROOFS. Vector integers (O20), lanes exchanged, selected and reduced (O22), and the special-function unit (O24). -/

namespace Sys2Proof.Machine

/-! ### VI, lane by lane (R111, R112) -/

/-- A VI member computes in every lane of e what its lane function makes of the lane's width. -/
theorem computes_of_viOp {i : Instr} {st : BitVec 3} {d a b : BitVec 5} {e : BitVec 2}
    {f : (w : Nat) → BitVec w → BitVec w → BitVec w} {g : BitVec (laneBits e) → BitVec (laneBits e) → BitVec (laneBits e)}
    (hex : ∀ s, exec i s = viOp i st d a b e f s) (hfg : ∀ x y, f (laneBits e) x y = g x y) :
    Computes i st.toNat [.vector a, .vector b] (.vector d) (after [.vector a, .vector b] 1) (fun _ vs =>
      joinLanes (laneBits e) (List.zipWith (fun x y => (g (BitVec.ofNat (laneBits e) x) (BitVec.ofNat (laneBits e) y)).toNat)
        (lanesOf (laneBits e) (arg vs 0)) (lanesOf (laneBits e) (arg vs 1)))) := by
  obtain rfl : f (laneBits e) = g := funext fun x => funext (hfg x)
  exact computes_of_fixed hex

section
variable {w : Nat}

theorem lane_shiftLeft_eq_ofNat (x : BitVec w) (k : Nat) : x <<< k = BitVec.ofNat w (x.toNat * 2 ^ k) := by
  apply BitVec.eq_of_toNat_eq
  rw [BitVec.toNat_shiftLeft, BitVec.toNat_ofNat, Nat.shiftLeft_eq]

theorem lane_ushiftRight_eq_ofNat (x : BitVec w) (k : Nat) : x >>> k = BitVec.ofNat w (x.toNat / 2 ^ k) := by
  rw [← Nat.shiftRight_eq_div_pow, ← BitVec.toNat_ushiftRight, BitVec.ofNat_toNat, BitVec.setWidth_eq]

theorem lane_sshiftRight_eq_ofInt (x : BitVec w) (k : Nat) : x.sshiftRight k = BitVec.ofInt w (x.toInt / 2 ^ k) := by
  rw [← BitVec.ofInt_toInt (x := x.sshiftRight k), BitVec.toInt_sshiftRight, Int.shiftRight_eq_div_pow]
  simp

/-- A Boolean test and the proposition it decides make the same mask. -/
theorem ones_eq_ite {b : Bool} {p : Prop} [Decidable p] (h : b = true ↔ p) : ones w b = if p then BitVec.allOnes w else 0 :=
  if_congr h rfl rfl

end

/-- Settles O20, member by member: the model's lane function, and the number that R112 gives. -/
theorem vectorIntegers : Obligations.VectorIntegers := by
  intro st d a b e w os V mask
  have member {i : Instr} {f : (w : Nat) → BitVec w → BitVec w → BitVec w} {g : BitVec w → BitVec w → BitVec w}
      (hex : ∀ s, exec i s = viOp i st d a b e f s) (hfg : ∀ x y, f w x y = g x y) : V i g := computes_of_viOp (g := g) hex hfg
  clear_value V
  refine ⟨?vadd, ?vsub, ?vmul, ?vmin, ?vmax, ?vminu, ?vmaxu, ?vand, ?vor, ?vxor, ?vshl, ?vshr, ?vsar, ?vceq, ?vclt, ?vcltu⟩
  case vadd => exact member (exec_vadd st d a b e) fun _ _ => rfl
  case vsub => exact member (exec_vsub st d a b e) fun _ _ => rfl
  case vmul => exact member (exec_vmul st d a b e) fun _ _ => rfl
  case vmin => exact member (exec_vmin st d a b e) fun _ _ => if_congr BitVec.slt_iff_toInt_lt rfl rfl
  case vmax => exact member (exec_vmax st d a b e) fun _ _ => if_congr BitVec.slt_iff_toInt_lt rfl rfl
  case vminu => exact member (exec_vminu st d a b e) fun _ _ => if_congr BitVec.ult_iff_toNat_lt rfl rfl
  case vmaxu => exact member (exec_vmaxu st d a b e) fun _ _ => if_congr BitVec.ult_iff_toNat_lt rfl rfl
  case vand => exact member (exec_vand st d a b e) fun _ _ => rfl
  case vor => exact member (exec_vor st d a b e) fun _ _ => rfl
  case vxor => exact member (exec_vxor st d a b e) fun _ _ => rfl
  case vshl => exact member (exec_vshl st d a b e) fun x y => lane_shiftLeft_eq_ofNat x (y.toNat % w)
  case vshr => exact member (exec_vshr st d a b e) fun x y => lane_ushiftRight_eq_ofNat x (y.toNat % w)
  case vsar => exact member (exec_vsar st d a b e) fun x y => lane_sshiftRight_eq_ofInt x (y.toNat % w)
  case vceq => exact member (exec_vceq st d a b e) fun _ _ => ones_eq_ite beq_iff_eq
  case vclt => exact member (exec_vclt st d a b e) fun _ _ => ones_eq_ite BitVec.slt_iff_toInt_lt
  case vcltu => exact member (exec_vcltu st d a b e) fun _ _ => ones_eq_ite BitVec.ult_iff_toNat_lt

/-! ### VX (R115, R116) -/

/-- Lane j of a list of lanes; beyond it there is none. -/
def laneAt (l : List Nat) (j : Nat) : Nat := l.getD j 0

theorem length_lanesOf (w : Nat) (v : List W64) : (lanesOf w v).length = 128 / w := by
  simp [lanesOf, fieldsOf_eq_map_range]

theorem eq_map_range_of_getElem {l : List Nat} {n : Nat} {f : Nat → Nat} (hl : l.length = n)
    (h : ∀ j (hj : j < l.length), l[j] = f j) : l = (List.range n).map f := by
  subst hl
  exact List.ext_getElem (by simp) fun j hj _ => by simp [h j hj]

theorem eq_map_laneAt {l : List Nat} {n : Nat} (hl : l.length = n) : l = (List.range n).map (laneAt l) :=
  eq_map_range_of_getElem hl fun _ hj => (List.getD_eq_getElem l 0 hj).symm

theorem laneAt_of_ge {l : List Nat} {n j : Nat} (hl : l.length = n) (h : n ≤ j) : laneAt l j = 0 :=
  List.getD_eq_default l 0 (hl ▸ h)

theorem Computes.congr {i : Instr} {stall : Nat} {srcs : List Opnd} {d : Opnd} {r : State → Ready}
    {f g : State → List (List W64) → List W64} (h : Computes i stall srcs d r f) (hfg : ∀ s vs, f s vs = g s vs) :
    Computes i stall srcs d r g := by
  obtain rfl : f = g := funext fun s => funext (hfg s)
  exact h

/-- The lanes of the result of a VX member: k of them, by the lanes of A and B and the number in integer b0. -/
def vxLanes (w k : Nat) (srcs : List Opnd) (g : (Nat → Nat) → (Nat → Nat) → Nat → Nat → Nat) (vs : List (List W64)) :
    List Nat :=
  (List.range k).map (g (laneAt (lanesOf w (arg vs 0))) (laneAt (lanesOf w (arg vs 1))) (arg1 vs (srcs.length - 1)).toNat)

section
variable {i : Instr} {st : BitVec 3} {srcs : List Opnd} {d : BitVec 5} {w k : Nat} {f : List Nat → List Nat → Nat → List Nat}
  {g : (Nat → Nat) → (Nat → Nat) → Nat → Nat → Nat}

/-- A VX member of fixed latency, by a list of lanes that is the model's, lane by lane. -/
theorem computes_of_vxOp {l : Nat} (hex : ∀ s, exec i s = vxOp i st srcs d w (some l) f s)
    (hfg : ∀ x y c, x.length = 128 / w → y.length = 128 / w → f x y c = (List.range k).map (g (laneAt x) (laneAt y) c)) :
    Computes i st.toNat srcs (.vector d) (after srcs l) (fun _ vs => joinLanes w (vxLanes w k srcs g vs)) :=
  (computes_of_fixed hex).congr fun _ _ => congrArg (joinLanes w) (hfg _ _ _ (length_lanesOf w _) (length_lanesOf w _))

/-- As `computes_of_vxOp`, for a member whose result is interlocked. -/
theorem computes_of_vxOp_interlocked (hex : ∀ s, exec i s = vxOp i st srcs d w none f s)
    (hfg : ∀ x y c, x.length = 128 / w → y.length = 128 / w → f x y c = (List.range k).map (g (laneAt x) (laneAt y) c)) :
    Computes i st.toNat srcs (.vector d) atOnce (fun _ vs => joinLanes w (vxLanes w k srcs g vs)) :=
  (computes_of_interlocked hex).congr fun _ _ => congrArg (joinLanes w) (hfg _ _ _ (length_lanesOf w _) (length_lanesOf w _))

end

/-- There are two lanes at least, and evenly many. -/
theorem lanes_even (e : BitVec 2) : 128 / laneBits e = 2 * (128 / laneBits e / 2) := by
  have h : ∀ e : BitVec 2, 128 / laneBits e = 2 * (128 / laneBits e / 2) := by decide
  exact h e

theorem lanes_pos (e : BitVec 2) : 0 < 128 / laneBits e := by
  have h : ∀ e : BitVec 2, 0 < 128 / laneBits e := by decide
  exact h e

/-- Pairs one after another are the even and odd places of a list. -/
theorem flatMap_pair_range (f g : Nat → Nat) (m : Nat) : (List.range m).flatMap (fun i => [f i, g i]) =
    (List.range (2 * m)).map (fun j => if j % 2 = 0 then f (j / 2) else g (j / 2)) := by
  induction m with
  | zero => rfl
  | succ m ih =>
    have h0 : 2 * m % 2 = 0 := by omega
    have h1 : (2 * m + 1) % 2 = 1 := by omega
    have hq : 2 * m / 2 = m := by omega
    have hq1 : (2 * m + 1) / 2 = m := by omega
    rw [show 2 * (m + 1) = 2 * m + 1 + 1 by omega]
    simp [List.range_succ, ih, h0, h1, hq, hq1]

/-- Two lists of m lanes, one behind the other. -/
theorem map_range_append (f g : Nat → Nat) (m : Nat) : (List.range m).map f ++ (List.range m).map g =
    (List.range (2 * m)).map (fun j => if j < m then f j else g (j - m)) := by
  rw [Nat.two_mul, List.range_add, List.map_append, List.map_map]
  congr 1
  · exact List.map_congr_left fun j hj => (if_pos (List.mem_range.mp hj)).symm
  · refine List.map_congr_left fun j _ => ?_
    simp

/-- The greater of two lanes by its signed reading, the first of equal ones. -/
def signedMax (w m y : Nat) : Nat := if laneInt w m < laneInt w y then y else m

theorem signedMax_spec (w m y : Nat) : (signedMax w m y = m ∨ signedMax w m y = y) ∧
    laneInt w m ≤ laneInt w (signedMax w m y) ∧ laneInt w y ≤ laneInt w (signedMax w m y) := by
  unfold signedMax
  split
  · next h => exact ⟨.inr rfl, h.le, le_refl _⟩
  · next h => exact ⟨.inl rfl, le_refl _, Int.not_lt.mp h⟩

/-- The greatest of m and a list is one of them, and none is greater. -/
theorem foldl_signedMax_spec (w m : Nat) (l : List Nat) : let r := l.foldl (signedMax w) m
    (r = m ∨ r ∈ l) ∧ laneInt w m ≤ laneInt w r ∧ ∀ y ∈ l, laneInt w y ≤ laneInt w r := by
  induction l generalizing m with
  | nil => exact ⟨.inl rfl, le_refl _, fun y hy => absurd hy List.not_mem_nil⟩
  | cons a l ih =>
    obtain ⟨hone, hm, ha⟩ := signedMax_spec w m a
    obtain ⟨hmem, hle, hl⟩ := ih (signedMax w m a)
    refine ⟨?_, hm.trans hle, fun y hy => ?_⟩
    · rcases hmem with h | h
      · rw [List.foldl_cons, h]
        exact hone.imp_right (fun h => by simp [h])
      · exact .inr (List.mem_cons_of_mem a h)
    · rcases List.mem_cons.mp hy with rfl | hy
      · exact ha.trans hle
      · exact hl y hy

theorem signedMax_lanes (w : Nat) {n : Nat} (hn : 0 < n) (x : Nat → Nat) : let m := ((List.range n).map x).foldl (signedMax w) (x 0)
    (∃ j < n, m = x j) ∧ ∀ j < n, laneInt w (x j) ≤ laneInt w m := by
  obtain ⟨hmem, -, hle⟩ := foldl_signedMax_spec w (x 0) ((List.range n).map x)
  refine ⟨?_, fun j hj => hle _ (List.mem_map.mpr ⟨j, List.mem_range.mpr hj, rfl⟩)⟩
  rcases hmem with h | h
  · exact ⟨0, hn, h⟩
  · obtain ⟨j, hj, hx⟩ := List.mem_map.mp h
    exact ⟨j, List.mem_range.mp hj, hx.symm⟩

section
variable {x y : List Nat} {n : Nat} (hx : x.length = n) (hy : y.length = n)
include hx

theorem splat_lanes (v : Nat) : x.map (fun _ => v) = (List.range n).map (fun _ => v) :=
  eq_map_range_of_getElem (by simpa) fun j hj => by rw [List.getElem_map]

theorem set_lanes (k c : Nat) : x.set k c = (List.range n).map (fun j => if j = k then c else laneAt x j) :=
  eq_map_range_of_getElem (by simpa) fun j hj => by
    rw [List.getElem_set, laneAt, List.getD_eq_getElem x 0 (by simpa using hj)]
    exact if_congr eq_comm rfl rfl

theorem reverse_lanes : x.reverse = (List.range n).map (fun j => laneAt x (n - 1 - j)) :=
  eq_map_range_of_getElem (by simpa) fun j hj => by
    rw [List.length_reverse] at hj
    rw [List.getElem_reverse, laneAt, List.getD_eq_getElem x 0 (by omega)]
    simp only [hx]

theorem map_lanes (f : Nat → Nat) : x.map f = (List.range n).map (fun j => f (laneAt x j)) := by
  conv_lhs => rw [eq_map_laneAt hx, List.map_map]
  rfl

/-- VSEL takes the lane of A where the bit of b0 is set. -/
theorem select_lanes (c : Nat) : (List.range x.length).map (fun i => if c.testBit i then x.getD i 0 else y.getD i 0) =
    (List.range n).map (fun j => if c / 2 ^ j % 2 = 1 then laneAt x j else laneAt y j) := by
  rw [hx]
  refine List.map_congr_left fun j _ => if_congr ?_ rfl rfl
  rw [Nat.testBit_eq_decide_div_mod_eq, decide_eq_true_iff]

theorem zip_lanes (hn : n = 2 * (n / 2)) : (List.range (x.length / 2)).flatMap (fun i => [x.getD i 0, y.getD i 0]) =
    (List.range n).map (fun j => if j % 2 = 0 then laneAt x (j / 2) else laneAt y (j / 2)) := by
  conv_rhs => rw [hn]
  rw [hx]
  exact flatMap_pair_range (laneAt x) (laneAt y) (n / 2)

include hy

/-- VSHUF delivers 0 where the lane of B names no lane. -/
theorem shuffle_lanes : y.map (fun j => x.getD j 0) =
    (List.range n).map (fun j => if laneAt y j < n then laneAt x (laneAt y j) else 0) := by
  rw [map_lanes hy]
  refine List.map_congr_left fun j _ => ?_
  split
  · rfl
  · next h => exact laneAt_of_ge hx (Nat.not_lt.mp h)

theorem evens_lanes (hn : n = 2 * (n / 2)) : evens x ++ evens y =
    (List.range n).map (fun j => if j < n / 2 then laneAt x (2 * j) else laneAt y (2 * (j - n / 2))) := by
  conv_rhs => rw [hn]
  rw [evens, evens, hx, hy, Nat.mul_div_cancel_left _ (by decide)]
  exact map_range_append (fun i => laneAt x (2 * i)) (fun i => laneAt y (2 * i)) (n / 2)

end

/-- The four bytes of a 32-bit lane of VDOT4. -/
theorem bytes_of_lane {l : List Nat} (hl : l.length = 16) {j : Nat} (hj : j < 4) : (l.drop (4 * j)).take 4 =
    [laneAt l (4 * j), laneAt l (4 * j + 1), laneAt l (4 * j + 2), laneAt l (4 * j + 3)] :=
  eq_map_range_of_getElem (n := 4) (f := fun i => laneAt l (4 * j + i)) (by rw [List.length_take, List.length_drop]; omega)
    fun i hi => by
      rw [List.length_take, List.length_drop] at hi
      rw [List.getElem_take, List.getElem_drop, laneAt, List.getD_eq_getElem l 0 (by omega)]

theorem dot4_eq {x y : List Nat} (hx : x.length = 16) (hy : y.length = 16) {j : Nat} (hj : j < 4) (c : Nat) :
    let p (i : Nat) : Int := laneInt 8 (laneAt x i) * laneInt 8 (laneAt y i)
    dot4 c ((x.drop (4 * j)).take 4) ((y.drop (4 * j)).take 4) =
      (BitVec.ofInt 32 (c + (p (4 * j) + p (4 * j + 1) + p (4 * j + 2) + p (4 * j + 3)))).toNat := by
  rw [dot4, bytes_of_lane hx hj, bytes_of_lane hy hj]
  simp only [List.zipWith_cons_cons, List.zipWith_nil_right, List.sum_cons, List.sum_nil, Int.add_zero, Int.add_assoc]

/-- Settles O22, member by member: the model's list of lanes, lane by lane. -/
theorem vectorExchange : Obligations.VectorExchange := by
  intro st d a b e w n one two X fast slow sgn
  have quick {i : Instr} {os : List Opnd} {f : List Nat → List Nat → Nat → List Nat} {k : Nat}
      {g : (Nat → Nat) → (Nat → Nat) → Nat → Nat → Nat} (hex : ∀ s, exec i s = vxOp i st os d w (some 1) f s)
      (hfg : ∀ (x y : List Nat) (c : Nat), x.length = n → y.length = n → f x y c = (List.range k).map (g (laneAt x) (laneAt y) c)) :
      X i os fast k g := computes_of_vxOp (k := k) (g := g) hex hfg
  have late {i : Instr} {os : List Opnd} {f : List Nat → List Nat → Nat → List Nat} {k : Nat}
      {g : (Nat → Nat) → (Nat → Nat) → Nat → Nat → Nat} (hex : ∀ s, exec i s = vxOp i st os d w none f s)
      (hfg : ∀ (x y : List Nat) (c : Nat), x.length = n → y.length = n → f x y c = (List.range k).map (g (laneAt x) (laneAt y) c)) :
      X i os slow k g := computes_of_vxOp_interlocked (k := k) (g := g) hex hfg
  clear_value X
  refine ⟨fun _ => ?vsplat, fun _ => ?vext, fun _ => ?vins, ?vshuf, ?vrev, ?vzip, ?vunz, ?vsumh, ?vamaxh, ?vmaxh, ?vsel, ?vabs,
    ?vdot4, ?vmov⟩
  case vsplat => exact quick (exec_vsplat st d a b e) fun _ _ _ hx _ => splat_lanes hx _
  case vext => exact computes_of_fixed (exec_vext st d a b e)
  case vins => exact quick (exec_vins st d a b e) fun _ _ c hx _ => set_lanes hx b.toNat c
  case vshuf => exact quick (exec_vshuf st d a b e) fun _ _ _ hx hy => shuffle_lanes hx hy
  case vrev => exact quick (exec_vrev st d a e) fun _ _ _ hx _ => reverse_lanes hx
  case vzip => exact quick (exec_vzip st d a b e) fun _ _ _ hx _ => zip_lanes hx (lanes_even e)
  case vunz => exact quick (exec_vunz st d a b e) fun _ _ _ hx hy => evens_lanes hx hy (lanes_even e)
  case vsumh => exact late (exec_vsumh st d a e) fun _ _ _ hx _ => congrArg (fun l => [l.sum]) (eq_map_laneAt hx)
  case vamaxh =>
    refine late (exec_vamaxh st d a e) fun x _ _ hx _ => congrArg (fun m => [m]) ?_
    rw [← map_lanes hx (· % 2 ^ (w - 1)), List.foldl_map]
    rfl
  case vmaxh =>
    exact ⟨_, signedMax_lanes w (lanes_pos e), late (exec_vmaxh st d a e) fun x _ _ hx _ =>
      congrArg (fun l => [l.foldl (signedMax w) (laneAt x 0)]) (eq_map_laneAt hx)⟩
  case vsel => exact quick (exec_vsel st d a b e) fun _ _ c hx _ => select_lanes hx c
  case vabs => exact quick (exec_vabs st d a e) fun _ _ _ hx _ => map_lanes hx _
  case vdot4 =>
    exact (computes_of_interlocked (exec_vdot4 st d a b)).congr fun _ vs => congrArg (joinLanes 32) (List.map_congr_left fun j hj =>
      dot4_eq (length_lanesOf 8 (arg vs 0)) (length_lanesOf 8 (arg vs 1)) (List.mem_range.mp hj) ((lanesOf 32 (arg vs 2)).getD j 0))
  case vmov => exact computes_of_fixed (exec_vmov st d a e)

/-! ### SFU (R119, R120) -/

/-- A member of the special-function unit with clear operands and room in the queue. -/
theorem completes_of_sfuOp {i : Instr} {g : SfuFn} {st : BitVec 3} {d a : BitVec 5} {t : BitVec 1}
    (hex : ∀ s, exec i s = sfuOp g i st d a t s) :
    Completes i st.toNat [.vector a] (some (.vector d)) (fun s => s.here.sfu.length < 4) (fun s =>
      let r := sfuResult g t (arg (s.values [.vector a]) 0)
      raiseFlags r.2 (enqueueSfu r.1 (deliver (.vector d) (.later s.nextId) r.1 (consume [.vector a] s)))) := by
  intro s hg hc hroom
  have hfree : decide (4 ≤ s.here.sfu.length) = false := decide_eq_false (Nat.not_le.mpr hroom)
  rw [hex]
  refine issue_of_ok hg ?_
  rw [M_bind_ok (get_apply s), hfree, M_bind_ok (waitIf_false _ s), M_bind_ok (prepare_of_clear hc rfl)]
  rfl

/-- Settles O24, member by member: each enters the queue with the result of its function. -/
theorem specialFunctions : Obligations.SpecialFunctions := by
  intro st d a t os F res S
  have member {i : Instr} {g : SfuFn} (hex : ∀ s, exec i s = sfuOp g i st d a t s) : S i g := completes_of_sfuOp hex
  clear_value S
  exact ⟨member (exec_frcp st d a t), member (exec_frsq st d a t), member (exec_fsqrt st d a t), member (exec_fexp2 st d a t),
    member (exec_flog2 st d a t), member (exec_fsinp st d a t), member (exec_fcosp st d a t), member (exec_ftanh st d a t),
    member (exec_ferf st d a t)⟩

end Sys2Proof.Machine
end

section
/-! PROOFS. Streams: their words and the instructions that bind and read them (O25). -/

namespace Sys2Proof.Machine

/-! ### Words of a stream (R124) -/

theorem toNat_extractLsb' {n : Nat} (x : BitVec n) (lo len : Nat) : (x.extractLsb' lo len).toNat = x.toNat / 2 ^ lo % 2 ^ len := by
  rw [BitVec.extractLsb'_toNat, Nat.shiftRight_eq_div_pow]

theorem toNat_word_counting {h : Stream} (hc : h.counting = true) (i : Nat) :
    (h.word i).toNat = (i * 0x9E3779B1 + h.sid.toNat) % 2 ^ 32 := by
  rw [Stream.word, if_pos hc, BitVec.toNat_add, BitVec.toNat_ofNat, toNat_extractLsb']
  omega

theorem length_quarterRound (a b c d : Nat) (x : List W32) : (quarterRound a b c d x).length = x.length := by
  simp only [quarterRound, List.length_set]

theorem length_doubleRound (x : List W32) : (doubleRound x).length = x.length := by
  simp only [doubleRound, length_quarterRound]

theorem length_rounds (n : Nat) (x : List W32) : (iterate doubleRound n x).length = x.length := by
  induction n generalizing x with
  | zero => rfl
  | succ n ih => rw [iterate, ih, length_doubleRound]

theorem length_chachaInput (key : W256) (sid : W64) (j : Nat) : (chachaInput key sid j).length = 16 := by
  simp [chachaInput]

/-- Word k of a block is the sum of word k after the rounds and word k of the input state. -/
theorem chachaBlock_getD (key : W256) (sid : W64) (j : Nat) {k : Nat} (hk : k < 16) : (chachaBlock key sid j).getD k 0 =
    (iterate doubleRound 6 (chachaInput key sid j)).getD k 0 + (chachaInput key sid j).getD k 0 := by
  have hin : k < (chachaInput key sid j).length := hk.trans_eq (length_chachaInput key sid j).symm
  have hout : k < (iterate doubleRound 6 (chachaInput key sid j)).length := hin.trans_eq (length_rounds 6 _).symm
  rw [chachaBlock, List.getD_eq_getElem _ 0 (by rw [List.length_zipWith]; exact lt_min hout hin), List.getElem_zipWith,
    List.getD_eq_getElem _ 0 hout, List.getD_eq_getElem _ 0 hin]

theorem word_keyed {h : Stream} (hc : h.counting = false) {j k : Nat} (hk : k < 16) : h.word (16 * j + k) =
    (iterate doubleRound 6 (chachaInput h.key h.sid j)).getD k 0 + (chachaInput h.key h.sid j).getD k 0 := by
  rw [Stream.word, if_neg (ne_true_of_eq_false hc), show (16 * j + k) / 16 = j by omega, show (16 * j + k) % 16 = k by omega,
    chachaBlock_getD _ _ _ hk]

theorem chachaInput_toNat (key : W256) (sid : W64) {j : Nat} (hj : j < 2 ^ 64) : (chachaInput key sid j).map BitVec.toNat =
    [0x61707865, 0x3320646E, 0x79622D32, 0x6B206574] ++ (List.range 8).map (fun k => key.toNat / 2 ^ (32 * k) % 2 ^ 32) ++
      [j % 2 ^ 32, j / 2 ^ 32, sid.toNat % 2 ^ 32, sid.toNat / 2 ^ 32] := by
  have hhigh : j / 2 ^ 32 % 2 ^ 32 = j / 2 ^ 32 := Nat.mod_eq_of_lt (by omega)
  have hsid : sid.toNat / 2 ^ 32 % 2 ^ 32 = sid.toNat / 2 ^ 32 := Nat.mod_eq_of_lt (by have := sid.isLt; omega)
  rw [chachaInput, List.map_append, List.map_append, List.map_map]
  congr 1
  · congr 1
    exact List.map_congr_left fun k _ => toNat_extractLsb' key (32 * k) 32
  · simp only [List.map_cons, List.map_nil, toNat_extractLsb', BitVec.toNat_ofNat, hhigh, hsid, Nat.pow_zero, Nat.div_one]

/-! ### Two words as one value -/

theorem wordPair_eq_ofNat (h : Stream) (i : Nat) :
    wordPair h i = BitVec.ofNat 64 ((h.word i).toNat + 2 ^ 32 * ((h.word (i + 1)).toNat)) := by
  have hlo := (h.word i).isLt
  have hhi := (h.word (i + 1)).isLt
  apply BitVec.eq_of_toNat_eq
  rw [wordPair, BitVec.toNat_append, BitVec.toNat_ofNat, Nat.shiftLeft_eq, Nat.mul_comm,
    ← Nat.two_pow_add_eq_or_of_lt hlo, Nat.add_comm]
  exact (Nat.mod_eq_of_lt (by omega)).symm

/-! ### Bytes of the scratchpad -/

theorem readN_drop (m : List Host.Cell) (a n k : Nat) : (Memory.readN m a n).drop k = Memory.readN m (a + k) (n - k) := by
  refine List.ext_getElem (by simp [Memory.readN]) fun j _ _ => ?_
  simp [Memory.readN, Nat.add_assoc]

theorem readN_take (m : List Host.Cell) (a : Nat) {n k : Nat} (h : k ≤ n) : (Memory.readN m a n).take k = Memory.readN m a k := by
  refine List.ext_getElem (by simp [Memory.readN, h]) fun j _ _ => ?_
  simp [Memory.readN]

/-- A field of bytes that were read is read by itself. -/
theorem spmRead_field (s : State) (c off : Nat) {n o k : Nat} (h : o + k ≤ n) :
    ((s.spmRead c off n).drop o).take k = s.spmRead c (off + o) k := by
  rw [State.spmRead, readN_drop, readN_take _ _ (by omega)]
  rfl

/-! ### Handles (R125) -/

theorem hndIx_val (k : Fin 16) : hndIx k.val = k := Fin.ext (Nat.mod_eq_of_lt k.isLt)

theorem setHandle_val (k : Fin 16) (f : Stream → Stream) (s : State) :
    setHandle k.val f s = s.updMe (fun c => { c with hnd := c.hnd.set k (f c.hnd[k]) }) := by
  simp only [setHandle, hndIx_val]

theorem handleCands_of_handle {v : W64} {k : Fin 16} (h : v.toNat = k.val) : handleCands v = [] := if_neg (by omega)

theorem boundCands_of_bound {s : State} {v : W64} {k : Fin 16} (h : v.toNat = k.val) (hb : s.me.hnd[k].bound = true) :
    boundCands s v = [] := by
  have hix : hndIx v.toNat = k := by rw [h, hndIx_val]
  rw [boundCands, if_neg]
  simp only [hix, hb, Bool.true_eq_false, or_false]
  omega

theorem trapIf_false (c : Nat) (v : W64) (s : State) : trapIf false c v s = .ok ((), s) := rfl

/-- The key record at an offset of the own scratchpad (R125). -/
theorem boundHandle_keyRecord (s : State) (off : Nat) (h : Stream) (hflags : ofBytes (s.spmRead s.cur.core (off + 40) 8) < 2) :
    boundHandle (keyRecord s off) h = ⟨true, BitVec.ofNat 256 (ofBytes (s.spmRead s.cur.core (off + 0) 32)),
      BitVec.ofNat 64 (ofBytes (s.spmRead s.cur.core (off + 32) 8)), ofBytes (s.spmRead s.cur.core (off + 40) 8) == 1,
      if h.bound then h.gen + 1 else h.gen⟩ := by
  have hkey : (keyRecord s off).take 32 = s.spmRead s.cur.core (off + 0) 32 := spmRead_field s _ off (o := 0) (by decide)
  have hsid : ((keyRecord s off).drop 32).take 8 = s.spmRead s.cur.core (off + 32) 8 := spmRead_field s _ off (by decide)
  have hflag : (keyRecord s off).drop 40 = s.spmRead s.cur.core (off + 40) 8 := readN_drop _ off 48 40
  have hbit {x : Nat} (hx : x < 2) : bit x 0 = (x == 1) := by
    rw [bit, Nat.testBit_zero, Nat.mod_eq_of_lt hx]
    rfl
  rw [boundHandle, hkey, hsid, hflag, hbit hflags]

theorem keyFlagsBad_of_lt {s : State} {off : Nat} (h : ofBytes (s.spmRead s.cur.core (off + 40) 8) < 2) : keyFlagsBad s off = false := by
  have hflag : ((keyRecord s off).drop 40).take 8 = s.spmRead s.cur.core (off + 40) 8 := spmRead_field s _ off (by decide)
  rw [keyFlagsBad, hflag]
  exact decide_eq_false (Nat.not_le.mpr h)

theorem sbindCands_of_fits {v h : W64} {k : Fin 16} (h16 : v.toNat % 2 ^ 17 % 16 = 0) (hfit : v.toNat % 2 ^ 17 + 48 ≤ 98304)
    (hk : h.toNat = k.val) : sbindCands v h = [] := by
  rw [sbindCands, bits_low, if_neg (not_not_intro h16), if_neg (show ¬ spmSize < _ from Nat.not_lt.mpr hfit), handleCands_of_handle hk]
  rfl

/-! ### The instructions (R125) -/

/-- An instruction with clear operands goes on with the state it met. -/
theorem issue_prepared_get {i : Instr} {stall : Nat} {srcs : List Opnd} {dst : Option Opnd} {own : State → List Cand}
    {m : State → M Unit} {s : State} (hc : s.Clear srcs dst) (ho : own s = []) :
    issue i stall (do prepare srcs dst own; let s ← get; m s) s = issue i stall (m s) s := by
  simp only [issue, M_bind_ok (prepare_of_clear hc ho), M_bind_ok (get_apply s)]

section
variable {st : BitVec 3} {d a b : BitVec 5} {s : State} {k : Fin 16}

theorem sbind_completes (hg : s.Admits (.sbind st a b)) (hc : s.Clear [.int a, .int b] none) {off : Nat}
    (hoff : (arg1 (s.values [.int a, .int b]) 0).toNat % 2 ^ 17 = off) (h16 : off % 16 = 0) (hfit : off + 48 ≤ 98304)
    (hl : s.LocalNow s.cur.core off 48) (hk : (arg1 (s.values [.int a, .int b]) 1).toNat = k.val)
    (hf : ofBytes (s.spmRead s.cur.core (off + 40) 8) < 2) : exec (.sbind st a b) s = .next (retire st.toNat
      (setHandle k.val (boundHandle (keyRecord s off)) (touch off 48 (consume [.int a, .int b] s)))) := by
  subst hoff
  rw [exec_sbind, execSbind, issue_prepared_get hc (sbindCands_of_fits h16 hfit hk)]
  refine issue_of_ok hg ?_
  rw [bits_low, M_bind_ok (awaitSpm_of_localNow hl), keyFlagsBad_of_lt hf, M_bind_ok (trapIf_false _ _ s), upd_apply]
  dsimp only
  rw [bits_low, hk]

theorem sfree_completes (hg : s.Admits (.sfree st a)) (hc : s.Clear [.int a] none) (hk : (arg1 (s.values [.int a]) 0).toNat = k.val) :
    exec (.sfree st a) s = .next (retire st.toNat
      (setHandle k.val (fun h => { Stream.reset with gen := h.gen + 1 }) (consume [.int a] s))) := by
  rw [exec_sfree, execSfree, prepared_completes hg hc (handleCands_of_handle hk), hk]

theorem drawWords_completes {i : Instr} {n : Nat} (hg : s.Admits i) (hc : s.Clear [.int a, .int b] (some (.int d n)))
    (hk : (arg1 (s.values [.int a, .int b]) 0).toNat = k.val) (hb : s.me.hnd[k].bound = true) :
    drawWords i st d a b n s = .next (retire st.toNat (gives [.int a, .int b] (.int d n) atOnce (fun s vs =>
      (List.range n).map (fun j => wordPair s.me.hnd[k] (2 * n * (arg1 vs 1).toNat + 2 * j))) s)) := by
  refine (prepared_completes hg hc (boundCands_of_bound hk hb)).trans ?_
  simp only [hk, hndIx_val]
  rfl

theorem sgen_completes (hg : s.Admits (.sgen st d a)) (hc : s.Clear [.int a] (some (.int d)))
    (hk : (arg1 (s.values [.int a]) 0).toNat = k.val) : exec (.sgen st d a) s = .next (retire st.toNat
      (gives [.int a] (.int d) atOnce (fun s _ => [s.me.hnd[k].gen.zeroExtend 64]) s)) := by
  rw [exec_sgen]
  refine (prepared_completes hg hc (handleCands_of_handle hk)).trans ?_
  simp only [hk, hndIx_val]
  rfl

end

/-- Settles O25: the words of a stream, then member by member what each makes of its handle. -/
theorem streams : Obligations.Streams := by
  unfold Obligations.Streams
  refine ⟨fun h i => ⟨fun hc => toNat_word_counting hc i, fun hc j k hk hi => ?keyed,
    fun j hj => chachaInput_toNat h.key h.sid hj⟩, ?_⟩
  case keyed =>
    rw [hi]
    exact word_keyed hc hk
  intro st d a b k
  refine ⟨fun s hg hc ⟨h16, hfit, hl, hk, hf⟩ => ?sbind, fun s hg hc hk => ?sfree, fun s hg hc ⟨hk, hb⟩ => ?rndw,
    fun s hg hc ⟨hk, hb⟩ => ?rndv, fun s hg hc hk => sgen_completes hg hc hk⟩
  case sbind =>
    rw [sbind_completes hg hc rfl h16 hfit hl hk hf, setHandle_val]
    simp only [boundHandle_keyRecord s _ _ hf]
  case sfree => rw [sfree_completes hg hc hk, setHandle_val]; rfl
  case rndw =>
    rw [exec_rndw, execRndw, drawWords_completes hg hc hk hb]
    simp only [wordPair_eq_ofNat]
    rfl
  case rndv =>
    rw [exec_rndv, execRndv, drawWords_completes hg hc hk hb]
    simp only [wordPair_eq_ofNat]
    rfl

end Sys2Proof.Machine
end

section
/-! PROOFS. What lazy comparisons draw and decide (O27). -/

namespace Sys2Proof.Machine

/-! ### Drawing a word (R126, R130) -/

/-- The cause of the trap of an instruction that extends z: HANDLE or ZSTALE, or none (R130). -/
def Context.drawTrap (c : Context) (z : Lazy) : Option Nat :=
  if 15 < z.handle.toNat ∨ (c.hnd[hndIx z.handle.toNat]).bound = false then some 0x12
  else if z.gen ≠ (c.hnd[hndIx z.handle.toNat]).gen then some 0x11 else none

/-- P of R128: the digits that z holds, as a number. -/
def Lazy.held (z : Lazy) : Nat := z.digits.toNat / 2 ^ (128 - z.len)

/-- The digits of stream word k of z that are not held yet. -/
def Context.newDigits (c : Context) (z : Lazy) : Nat :=
  ((c.hnd[hndIx z.handle.toNat]).word (16 * z.off.toNat + z.len / 32)).toNat % 2 ^ (32 - z.len % 32)

/-- z with the digits of the next stream word. -/
def Context.drawn (c : Context) (z : Lazy) : Lazy :=
  { z with
    digits := BitVec.ofNat 128 (z.held * 2 ^ (128 - z.len) + c.newDigits z * 2 ^ (96 - 32 * (z.len / 32)))
    len := 32 * (z.len / 32 + 1) }

section
variable {c : Context} {z y : Lazy}

theorem drawTrap_eq_none_iff : c.drawTrap z = none ↔ z.handle.toNat ≤ 15 ∧ (c.hnd[hndIx z.handle.toNat]).bound = true ∧
    (c.hnd[hndIx z.handle.toNat]).gen = z.gen := by
  unfold Context.drawTrap
  split
  · next h =>
    exact iff_of_false nofun fun ⟨h15, hb, _⟩ =>
      h.elim (fun h => absurd h15 (Nat.not_le.mpr h)) (fun h => Bool.false_ne_true (h.symm.trans hb))
  · next h =>
    obtain ⟨h15, hb⟩ := not_or.mp h
    refine ⟨fun hn => ⟨Nat.not_lt.mp h15, eq_true_of_ne_false hb, ?_⟩, fun ⟨_, _, hg⟩ => if_neg (not_not_intro hg.symm)⟩
    by_contra hg
    rw [if_pos (Ne.symm hg)] at hn
    cases hn

theorem extend_of_drawTrap {k : Nat} (h : c.drawTrap z = some k) : extend c z = .error (.trap k (z.handle.zeroExtend 64)) := by
  unfold Context.drawTrap at h
  unfold extend
  dsimp only
  split at h
  · next hb => rw [if_pos hb, ← Option.some.inj h]; rfl
  · next hb =>
    split at h
    · next hg => rw [if_neg hb, if_pos hg, ← Option.some.inj h]; rfl
    · cases h

theorem extend_of_bound (h : c.drawTrap z = none) : extend c z = .ok (c.drawn z) := by
  unfold Context.drawTrap at h
  unfold extend
  dsimp only
  split at h
  · cases h
  · next hb =>
    split at h
    · cases h
    · next hg => rw [if_neg hb, if_neg hg]; rfl

theorem extend_eq_ok_iff : extend c z = .ok y ↔ c.drawTrap z = none ∧ c.drawn z = y := by
  cases h : c.drawTrap z with
  | none => rw [extend_of_bound h, Except.ok.injEq, eq_self_iff_true, true_and]
  | some k => simp [extend_of_drawTrap h]

theorem held_lt (h : z.len ≤ 128) : z.held < 2 ^ z.len := by
  rw [Lazy.held, Nat.div_lt_iff_lt_mul (Nat.two_pow_pos _), ← Nat.pow_add, Nat.add_sub_cancel' h]
  exact z.digits.isLt

theorem newDigits_lt (c : Context) (z : Lazy) : c.newDigits z < 2 ^ (32 - z.len % 32) := Nat.mod_lt _ (Nat.two_pow_pos _)

/-- The digits at hand stay, and those of the word follow them. -/
theorem held_drawn (h : z.len < 128) : (c.drawn z).held = z.held * 2 ^ (32 - z.len % 32) + c.newDigits z := by
  have hnew := newDigits_lt c z
  have hp := held_lt h.le
  have hlen : z.len + (32 - z.len % 32) = 32 * (z.len / 32 + 1) := by omega
  have hrest : 128 - z.len = 32 - z.len % 32 + (96 - 32 * (z.len / 32)) := by omega
  have hlow : 128 - 32 * (z.len / 32 + 1) = 96 - 32 * (z.len / 32) := by omega
  have hlt : z.held * 2 ^ (32 - z.len % 32) + c.newDigits z < 2 ^ (32 * (z.len / 32 + 1)) := by
    rw [← hlen, Nat.pow_add]
    calc z.held * 2 ^ (32 - z.len % 32) + c.newDigits z < (z.held + 1) * 2 ^ (32 - z.len % 32) := by rw [Nat.succ_mul]; omega
      _ ≤ 2 ^ z.len * 2 ^ (32 - z.len % 32) := Nat.mul_le_mul_right _ hp
  have hdigits : z.held * 2 ^ (128 - z.len) + c.newDigits z * 2 ^ (96 - 32 * (z.len / 32)) =
      (z.held * 2 ^ (32 - z.len % 32) + c.newDigits z) * 2 ^ (96 - 32 * (z.len / 32)) := by
    rw [hrest, Nat.pow_add, Nat.add_mul, Nat.mul_assoc]
  have hfits : (z.held * 2 ^ (32 - z.len % 32) + c.newDigits z) * 2 ^ (96 - 32 * (z.len / 32)) < 2 ^ 128 := by
    calc _ < 2 ^ (32 * (z.len / 32 + 1)) * 2 ^ (96 - 32 * (z.len / 32)) := Nat.mul_lt_mul_of_pos_right hlt (Nat.two_pow_pos _)
      _ = 2 ^ 128 := by rw [← Nat.pow_add]; congr 1; omega
  rw [Lazy.held, Context.drawn]
  dsimp only
  rw [hdigits, hlow, BitVec.toNat_ofNat, Nat.mod_eq_of_lt hfits, Nat.mul_div_cancel _ (Nat.two_pow_pos _)]

theorem held_drawn_div (h : z.len < 128) : (c.drawn z).held / 2 ^ ((c.drawn z).len - z.len) = z.held := by
  have hlen : (c.drawn z).len - z.len = 32 - z.len % 32 := by
    show 32 * (z.len / 32 + 1) - z.len = _
    omega
  rw [held_drawn h, hlen, Nat.add_comm, Nat.add_mul_div_right _ _ (Nat.two_pow_pos _),
    Nat.div_eq_of_lt (newDigits_lt c z), Nat.zero_add]

end

/-! ### The loop of a comparison (R128) -/

/-- One turn of the loop: the digits held decide, or a word is drawn. -/
theorem decideLoop_succ (c : Context) (test : Nat → Nat → Option W64) (fuel : Nat) (z : Lazy) : decideLoop c test (fuel + 1) z =
    match test z.held z.len with
    | some r => .ok (.val r z)
    | none => if z.len = 128 then .ok (.exhausted z)
      else match extend c z with
        | .error e => .error e
        | .ok y => decideLoop c test fuel y := rfl

/-- What decides a comparison begins with the digits at hand, and its digits decide the test. -/
theorem decideLoop_val {c : Context} {test : Nat → Nat → Option W64} {fuel : Nat} {z y : Lazy} {r : W64} (hz : z.len ≤ 128)
    (h : decideLoop c test fuel z = .ok (.val r y)) :
    test y.held y.len = some r ∧ z.len ≤ y.len ∧ y.held / 2 ^ (y.len - z.len) = z.held := by
  induction fuel generalizing z with
  | zero => cases h
  | succ fuel ih =>
    rw [decideLoop_succ] at h
    split at h
    · next r' ht =>
      cases h
      exact ⟨ht, le_refl _, by rw [Nat.sub_self, Nat.pow_zero, Nat.div_one]⟩
    · split at h
      · cases h
      · next hne =>
        split at h
        · cases h
        · next z' he =>
          obtain ⟨-, rfl⟩ := extend_eq_ok_iff.mp he
          have hlt : z.len < 128 := by omega
          have hmore : z.len ≤ (c.drawn z).len ∧ (c.drawn z).len ≤ 128 := by
            show z.len ≤ 32 * (z.len / 32 + 1) ∧ 32 * (z.len / 32 + 1) ≤ 128
            omega
          obtain ⟨ht, hlen, hp⟩ := ih hmore.2 h
          refine ⟨ht, hmore.1.trans hlen, ?_⟩
          rw [← held_drawn_div hlt, ← hp, Nat.div_div_eq_div_mul, ← Nat.pow_add]
          congr 2
          omega

/-- A threshold that is decided lies beyond one end of the interval. -/
theorem threshold_eq_some {n m p l : Nat} {r : W64} (h : threshold n m p l = some r) :
    (r = 1 ∧ (p + 1) * m ≤ n * 2 ^ l) ∨ (r = 0 ∧ n * 2 ^ l ≤ p * m) := by
  unfold threshold at h
  split at h
  · next hle => exact .inr ⟨(Option.some.inj h).symm, hle⟩
  · split at h
    · next hle => exact .inl ⟨(Option.some.inj h).symm, hle⟩
    · cases h

section
variable {n m p l u w : Nat}

/-- u/w lies below the upper end of the interval, and that end not above n/m. -/
theorem lt_threshold (h : (p + 1) * m ≤ n * 2 ^ l) (hu : u * 2 ^ l < (p + 1) * w) (hm : 0 < m) : u * m < n * w := by
  refine Nat.lt_of_mul_lt_mul_right (a := 2 ^ l) ?_
  calc u * m * 2 ^ l = u * 2 ^ l * m := Nat.mul_right_comm _ _ _
    _ < (p + 1) * w * m := Nat.mul_lt_mul_of_pos_right hu hm
    _ = (p + 1) * m * w := Nat.mul_right_comm _ _ _
    _ ≤ n * 2 ^ l * w := Nat.mul_le_mul_right w h
    _ = n * w * 2 ^ l := Nat.mul_right_comm _ _ _

/-- u/w lies at or above the lower end of the interval, and that end not below n/m. -/
theorem threshold_le (h : n * 2 ^ l ≤ p * m) (hu : p * w ≤ u * 2 ^ l) : n * w ≤ u * m := by
  refine Nat.le_of_mul_le_mul_right (c := 2 ^ l) ?_ (Nat.two_pow_pos l)
  calc n * w * 2 ^ l = n * 2 ^ l * w := Nat.mul_right_comm _ _ _
    _ ≤ p * m * w := Nat.mul_le_mul_right w h
    _ = p * w * m := Nat.mul_right_comm _ _ _
    _ ≤ u * 2 ^ l * m := Nat.mul_le_mul_right m hu
    _ = u * m * 2 ^ l := Nat.mul_right_comm _ _ _

end

/-- Settles O27: what one extension draws, and what the loop's invariant says where a threshold is decided. -/
theorem lazyDigits : Obligations.LazyDigits := by
  intro c z hlen _
  refine ⟨fun y he => ?draws, fun hh hb hg => ⟨_, extend_of_bound (drawTrap_eq_none_iff.mpr ⟨hh, hb, hg⟩)⟩,
    fun n m r y hr => ?decides⟩
  case draws =>
    obtain ⟨hb, rfl⟩ := extend_eq_ok_iff.mp he
    obtain ⟨hh, hbound, hgen⟩ := drawTrap_eq_none_iff.mp hb
    exact ⟨rfl, rfl, hh, hbound, hgen, held_drawn hlen⟩
  case decides =>
    obtain ⟨ht, hle, hp⟩ := decideLoop_val hlen.le hr
    refine ⟨hle, hp, (threshold_eq_some ht).imp ?_ ?_⟩
    · exact fun ⟨h1, hend⟩ => ⟨h1, fun u w _ hu _ hm => lt_threshold hend hu hm⟩
    · exact fun ⟨h0, hend⟩ => ⟨h0, fun u w hu _ _ => threshold_le hend hu⟩

end Sys2Proof.Machine
end

section
/-! PROOFS. Lazy comparisons, and drawing, extending, inspecting and moving lazy values (O26). -/

namespace Sys2Proof.Machine

/-! ### Comparisons of one lazy operand (R128) -/

/-- A comparison delivers r and leaves its operand at z. -/
def lazyDone (d a : BitVec 5) (src : Opnd) (flag : Fl) (r : W64) (z : Lazy) (s : State) : State :=
  raiseFlags flag (deliver (.int d) .now [r] (setLazy a z (consume [src] s)))

theorem decideLoop_of_drawTrap {c : Context} {test : Nat → Nat → Option W64} {z : Lazy} {k : Nat} (ht : test z.held z.len = none)
    (hl : z.len ≠ 128) (hk : c.drawTrap z = some k) (fuel : Nat) :
    decideLoop c test (fuel + 1) z = .error (.trap k (z.handle.zeroExtend 64)) := by
  rw [decideLoop_succ, ht]
  dsimp only
  rw [if_neg hl, extend_of_drawTrap hk]

section
variable {i : Instr} {st : BitVec 3} {d a : BitVec 5} {src : Opnd} {quick : List W64 → Option W64}
  {test : List W64 → Nat → Nat → Option W64} {last : List W64 → Nat → W64} {flag : List W64 → Fl} {s : State}
  {r : W64} {z : Lazy} (hg : s.Admits i) (hc : s.Clear [src] (some (.int d)))
include hg hc

theorem lazyOp_quick (hq : quick (arg (s.values [src]) 0) = some r) : lazyOp i st d a src quick test last flag s =
    .next (retire st.toNat (lazyDone d a src (flag (arg (s.values [src]) 0)) r (s.me.lazy a) s)) := by
  rw [lazyOp, issue_prepared_get hc rfl]
  simp only [hq]
  exact issue_of_ok hg (upd_apply _ s)

variable (hq : quick (arg (s.values [src]) 0) = none)
include hq

theorem lazyOp_decided (hr : decideLoop s.me (test (arg (s.values [src]) 0)) 5 (s.me.lazy a) = .ok (.val r z)) :
    lazyOp i st d a src quick test last flag s =
      .next (retire st.toNat (lazyDone d a src (flag (arg (s.values [src]) 0)) r z s)) := by
  rw [lazyOp, issue_prepared_get hc rfl]
  simp only [hq, hr]
  exact issue_of_ok hg (upd_apply _ s)

theorem lazyOp_undecided (hr : decideLoop s.me (test (arg (s.values [src]) 0)) 5 (s.me.lazy a) = .ok (.exhausted z))
    (hm : s.me.mode.getLsbD 4 = true) : lazyOp i st d a src quick test last flag s = .next (retire st.toNat
      (lazyDone d a src (flag (arg (s.values [src]) 0)) (last (arg (s.values [src]) 0) z.held) z s)) := by
  rw [lazyOp, issue_prepared_get hc rfl]
  simp only [hq, hr, hm, if_true]
  exact issue_of_ok hg (upd_apply _ s)

theorem lazyOp_exhausted (hr : decideLoop s.me (test (arg (s.values [src]) 0)) 5 (s.me.lazy a) = .ok (.exhausted z))
    (hm : s.me.mode.getLsbD 4 = false) : lazyOp i st d a src quick test last flag s =
      .next (takeTrap 0x10 (a.zeroExtend 64) s.me.pc (settled (setLazy a z s))) := by
  rw [lazyOp, issue_prepared_get hc rfl]
  simp only [hq, hr, hm, Bool.false_eq_true, if_false]
  exact issue_of_error hg (stop_apply _ s)

/-- R130: an operand whose handle is not bound, or has another generation, cannot be extended. -/
theorem lazyOp_stale {k : Nat} (ht : test (arg (s.values [src]) 0) (s.me.lazy a).held (s.me.lazy a).len = none)
    (hl : (s.me.lazy a).len ≠ 128) (hk : s.me.drawTrap (s.me.lazy a) = some k) : lazyOp i st d a src quick test last flag s =
      .next (takeTrap k ((s.me.lazy a).handle.zeroExtend 64) s.me.pc s) := by
  rw [lazyOp, issue_prepared_get hc rfl]
  simp only [hq, decideLoop_of_drawTrap ht hl hk]
  exact issue_of_error hg (stop_apply _ s)

end

/-! ### ZLTZ (R128) -/

section
variable {c : Context} {x y : Lazy} {k : Nat} (ht : ltzTest x y = none)
include ht

theorem ltzLoop_left_stale (hl : x.len ≤ y.len) (h128 : x.len < 128) (hk : c.drawTrap x = some k) (fuel : Nat) :
    ltzLoop c (fuel + 1) x y = .error (.trap k (x.handle.zeroExtend 64)) := by
  rw [ltzLoop, ht]
  dsimp only
  rw [if_neg (by omega), if_pos hl, extend_of_drawTrap hk]

theorem ltzLoop_right_stale (hl : y.len < x.len) (hk : c.drawTrap y = some k) (fuel : Nat) :
    ltzLoop c (fuel + 1) x y = .error (.trap k (y.handle.zeroExtend 64)) := by
  rw [ltzLoop, ht]
  dsimp only
  rw [if_neg (by omega), if_neg (Nat.not_le.mpr hl), extend_of_drawTrap hk]

end

section
variable {st : BitVec 3} {d a b : BitVec 5} {s : State} {x y : Lazy} (hg : s.Admits (.zltz st d a b)) (hc : s.Clear [] (some (.int d)))
include hg hc

theorem zltz_same (hi : (s.me.lazy a).ident = (s.me.lazy b).ident) :
    exec (.zltz st d a b) s = .next (retire st.toNat (deliver (.int d) .now [0] s)) := by
  rw [exec_zltz, execZltz, issue_prepared_get hc rfl, if_pos hi]
  exact issue_of_ok hg (upd_apply _ s)

variable (hi : (s.me.lazy a).ident ≠ (s.me.lazy b).ident)
include hi

theorem zltz_decided {r : W64} (hr : ltzLoop s.me 9 (s.me.lazy a) (s.me.lazy b) = .ok (some r, x, y)) :
    exec (.zltz st d a b) s = .next (retire st.toNat (deliver (.int d) .now [r] (setLazy b y (setLazy a x s)))) := by
  rw [exec_zltz, execZltz, issue_prepared_get hc rfl, if_neg hi, hr]
  exact issue_of_ok hg (upd_apply _ s)

theorem zltz_undecided (hr : ltzLoop s.me 9 (s.me.lazy a) (s.me.lazy b) = .ok (none, x, y)) (hm : s.me.mode.getLsbD 4 = true) :
    exec (.zltz st d a b) s = .next (retire st.toNat (deliver (.int d) .now [0] (setLazy b y (setLazy a x s)))) := by
  rw [exec_zltz, execZltz, issue_prepared_get hc rfl, if_neg hi, hr]
  simp only [hm, if_true]
  exact issue_of_ok hg (upd_apply _ s)

theorem zltz_exhausted (hr : ltzLoop s.me 9 (s.me.lazy a) (s.me.lazy b) = .ok (none, x, y)) (hm : s.me.mode.getLsbD 4 = false) :
    exec (.zltz st d a b) s = .next (takeTrap 0x10 (a.zeroExtend 64) s.me.pc (settled (setLazy b y (setLazy a x s)))) := by
  rw [exec_zltz, execZltz, issue_prepared_get hc rfl, if_neg hi, hr]
  simp only [hm, Bool.false_eq_true, if_false]
  exact issue_of_error hg (stop_apply _ s)

theorem zltz_stops {e : Stop} (hr : ltzLoop s.me 9 (s.me.lazy a) (s.me.lazy b) = .error e) :
    exec (.zltz st d a b) s = .next (stopAt s e) := by
  rw [exec_zltz, execZltz, issue_prepared_get hc rfl, if_neg hi, hr]
  exact issue_of_error hg (stop_apply _ s)

end

/-! ### ZDRAW and ZEXT (R126, R130) -/

theorem extendTo_of_drawTrap {c : Context} {z : Lazy} {n k : Nat} (hl : z.len < n) (hk : c.drawTrap z = some k) (fuel : Nat) :
    extendTo c n (fuel + 1) z = .error (.trap k (z.handle.zeroExtend 64)) := by
  rw [extendTo, if_neg (Nat.not_le.mpr hl), extend_of_drawTrap hk]

section
variable {st : BitVec 3} {d a b : BitVec 5} {s : State}

theorem zdraw_completes {k : Fin 16} (hg : s.Admits (.zdraw st d a b)) (hc : s.Clear [.int a, .int b] none)
    (hk : (arg1 (s.values [.int a, .int b]) 0).toNat = k.val) (hb : s.me.hnd[k].bound = true) :
    exec (.zdraw st d a b) s = .next (retire st.toNat (setLazy d ⟨0, 0, BitVec.ofNat 16 k.val, s.me.hnd[k].gen,
      arg1 (s.values [.int a, .int b]) 1⟩ (consume [.int a, .int b] s))) := by
  rw [exec_zdraw]
  refine (prepared_completes hg hc (boundCands_of_bound hk hb)).trans ?_
  simp only [hk, hndIx_val]

theorem zext_extends {z : Lazy} (hg : s.Admits (.zext st a b)) (hc : s.Clear [.int b] none)
    (hz : extendTo s.me (min (arg1 (s.values [.int b]) 0).toNat 128) 4 (s.me.lazy a) = .ok z) :
    exec (.zext st a b) s = .next (retire st.toNat (setLazy a z (consume [.int b] s))) := by
  rw [exec_zext, execZext, issue_prepared_get hc rfl, hz]
  exact issue_of_ok hg (upd_apply _ s)

theorem zext_stops {e : Stop} (hg : s.Admits (.zext st a b)) (hc : s.Clear [.int b] none)
    (hz : extendTo s.me (min (arg1 (s.values [.int b]) 0).toNat 128) 4 (s.me.lazy a) = .error e) :
    exec (.zext st a b) s = .next (stopAt s e) := by
  rw [exec_zext, execZext, issue_prepared_get hc rfl, hz]
  exact issue_of_error hg (stop_apply _ s)

end

/-! ### Records of lazy values (R26, R127) -/

/-- The parts of a record, in the order of R26. -/
def recordParts (z : Lazy) : List (List Byte) :=
  [(bytesOf 16 z.digits.toNat).reverse, bytesOf 2 z.len, bytesOf 2 z.handle.toNat, bytesOf 4 z.gen.toNat, bytesOf 8 z.off.toNat]

theorem lazyRecord_eq_flatten (z : Lazy) : lazyRecord z = (recordParts z).flatten := by
  simp only [lazyRecord, recordParts, List.flatten_cons, List.flatten_nil, List.append_nil, List.append_assoc]

theorem length_recordParts (z : Lazy) : (recordParts z).map List.length = [16, 2, 2, 4, 8] := by
  simp only [recordParts, List.map_cons, List.map_nil, List.length_reverse, length_bytesOf]

/-- A part of a record stands behind those before it. -/
theorem fieldOf_lazyRecord (z : Lazy) {j off n : Nat} {b : List Byte} (hb : (recordParts z)[j]? = some b)
    (hoff : (([16, 2, 2, 4, 8] : List Nat).take j).sum = off) (hn : b.length = n) : fieldOf (lazyRecord z) off n = ofBytes b := by
  have h := fieldOf_flatten hb (k := 0) (len := n) (by rw [hn, Nat.zero_add])
  rw [length_recordParts, hoff, Nat.add_zero, ← lazyRecord_eq_flatten] at h
  rw [h, fieldOf_whole hn]

theorem take_lazyRecord (z : Lazy) : (lazyRecord z).take 16 = (bytesOf 16 z.digits.toNat).reverse := by
  rw [lazyRecord_eq_flatten, recordParts, List.flatten_cons, List.take_append_of_le_length (by simp), List.take_of_length_le (by simp)]

/-- A value whose digits end with its length is the value of its record. -/
theorem recordOf_lazyRecord {z : Lazy} (hl : z.len ≤ 128) (hz : z.digits.toNat % 2 ^ (128 - z.len) = 0) :
    recordOf (lazyRecord z) = z := by
  have hlen : fieldOf (lazyRecord z) 16 2 = z.len :=
    (fieldOf_lazyRecord z (j := 1) rfl rfl (length_bytesOf _ _)).trans ((ofBytes_bytesOf _ _).trans (Nat.mod_eq_of_lt (by omega)))
  have hhandle : fieldOf (lazyRecord z) 18 2 = z.handle.toNat :=
    (fieldOf_lazyRecord z (j := 2) rfl rfl (length_bytesOf _ _)).trans (ofBytes_bytesOf_toNat _ (by decide))
  have hgen : fieldOf (lazyRecord z) 20 4 = z.gen.toNat :=
    (fieldOf_lazyRecord z (j := 3) rfl rfl (length_bytesOf _ _)).trans (ofBytes_bytesOf_toNat _ (by decide))
  have hoff : fieldOf (lazyRecord z) 24 8 = z.off.toNat :=
    (fieldOf_lazyRecord z (j := 4) rfl rfl (length_bytesOf _ _)).trans (ofBytes_bytesOf_toNat _ (by decide))
  have hdigits : ofBytes ((lazyRecord z).take 16).reverse / 2 ^ (128 - z.len) * 2 ^ (128 - z.len) = z.digits.toNat := by
    rw [take_lazyRecord, List.reverse_reverse, ofBytes_bytesOf_toNat _ (by decide), Nat.div_mul_cancel (Nat.dvd_of_mod_eq_zero hz)]
  unfold fieldOf at hlen hhandle hgen hoff
  simp only [recordOf, hlen, hhandle, hgen, hoff, hdigits, BitVec.ofNat_toNat, BitVec.setWidth_eq]

theorem recordCands_of_fits {v : W64} (h32 : v.toNat % 2 ^ 17 % 32 = 0) (hfit : v.toNat % 2 ^ 17 + 32 ≤ 98304) :
    recordCands v = [] := by
  rw [recordCands, bits_low, if_neg (not_not_intro h32), if_neg (show ¬ spmSize < _ from Nat.not_lt.mpr hfit)]
  rfl

theorem recordAt_eq (s : State) (v : W64) : recordAt s v = recordOf (s.spmRead s.cur.core (v.toNat % 2 ^ 17) 32) := by
  rw [recordAt, bits_low]

/-! ### What naming a source leaves of the scratchpads -/

/-- The issuer, its accesses that are not performed, and of every core the VD, the writes on their way to the scratchpad and its failing
words are as they were. -/
structure SameAccesses (s t : State) : Prop where
  cur : t.cur = s.cur
  loads : t.me.loads = s.me.loads
  parked : t.me.parked = s.me.parked
  cores : ∀ c, (t.core c).vd = (s.core c).vd ∧ (t.core c).spmDue = (s.core c).spmDue ∧ (t.core c).bad = (s.core c).bad

namespace SameAccesses

theorem refl (s : State) : SameAccesses s s := ⟨rfl, rfl, rfl, fun _ => ⟨rfl, rfl, rfl⟩⟩

theorem trans {s t u : State} (h : SameAccesses s t) (g : SameAccesses t u) : SameAccesses s u where
  cur := g.cur.trans h.cur
  loads := g.loads.trans h.loads
  parked := g.parked.trans h.parked
  cores c := by
    obtain ⟨hvd, hdue, hbad⟩ := h.cores c
    obtain ⟨gvd, gdue, gbad⟩ := g.cores c
    exact ⟨gvd.trans hvd, gdue.trans hdue, gbad.trans hbad⟩

theorem updMe (s : State) {f : Context → Context} (hl : (f s.me).loads = s.me.loads) (hp : (f s.me).parked = s.me.parked) :
    SameAccesses s (s.updMe f) where
  cur := rfl
  loads := by rw [me_updMe, hl]
  parked := by rw [me_updMe, hp]
  cores c := by
    by_cases hc : c = s.cur.core
    · subst hc
      rw [show (s.updMe f).core s.cur.core = _ from here_updMe s f]
      exact ⟨rfl, rfl, rfl⟩
    · rw [show (s.updMe f).core c = s.core c from core_updCore_ne s _ hc]
      exact ⟨rfl, rfl, rfl⟩

theorem touchAt (c off len : Nat) (s : State) : SameAccesses s (touchAt c off len s) := by
  obtain ⟨bk, co, h⟩ := touchAt_eq c off len s
  rw [h]
  exact ⟨rfl, rfl, rfl, fun _ => ⟨rfl, rfl, rfl⟩⟩

theorem consume1 (o : Opnd) (s : State) : SameAccesses s (consume1 o s) := by
  unfold Machine.consume1
  split
  · exact updMe s rfl rfl
  · split
    · exact (touchAt _ _ _ s).trans (updMe _ rfl rfl)
    · exact refl s

theorem consume (srcs : List Opnd) (s : State) : SameAccesses s (consume srcs s) := by
  unfold Machine.consume
  induction srcs generalizing s with
  | nil => exact refl s
  | cons o r ih => exact (consume1 o s).trans (ih _)

theorem before_spm {s t : State} (h : SameAccesses s t) (c off len : Nat) : t.before (.spm c off len) = s.before (.spm c off len) := by
  simp only [State.before, State.dueBefore, Target.leaves, List.flatMap_cons, List.flatMap_nil, h.cur, h.loads, h.parked,
    (h.cores c).2.1]

theorem localNow {s t : State} (h : SameAccesses s t) {c off len : Nat} (hl : s.LocalNow c off len) : t.LocalNow c off len := by
  obtain ⟨hbefore, hvd, hbad⟩ := hl
  have hhere : t.here.vd = s.here.vd := by
    rw [State.here, h.cur]
    exact (h.cores _).1
  refine ⟨(h.before_spm c off len).trans hbefore, ?_, ?_⟩
  · rw [(h.cores c).1, hhere, hvd]
  · rwa [(h.cores c).2.2]

end SameAccesses

/-! ### A store to own scratchpad bytes that nothing holds back (R134, R136) -/

theorem localTarget_own (c : Nat) {off : Nat} (h : off < 2 ^ 17) : localTarget c (BitVec.ofNat 64 (0x800000 + off)) = (c, off) := by
  have haddr : (BitVec.ofNat 64 (0x800000 + off)).toNat = 0x800000 + off := Nat.mod_eq_of_lt (by omega)
  have hown : bit (0x800000 + off) 23 = true := by
    rw [bit, Nat.testBit_eq_decide_div_mod_eq, decide_eq_true_iff]
    omega
  have hoff : bits (0x800000 + off) 16 0 = off := by
    rw [bits_low]
    omega
  rw [localTarget, haddr, hown, hoff]
  rfl

theorem spmStore_localNow {s : State} {c off : Nat} {bs : List Byte} (h : s.LocalNow c off bs.length) (addr pc : W64) :
    spmStore c off addr pc bs s = s.spmWrite c off bs := by
  obtain ⟨-, hvd, hbad⟩ := h
  have hown : s.foreign c = false := by
    rw [State.foreign, hvd]
    exact bne_self_eq_false _
  rw [spmStore, hown, if_neg Bool.false_ne_true, if_neg]
  rw [Bool.not_eq_true, List.any_eq_false]
  intro w hw
  have := hbad w hw
  simp only [overlap, Bool.and_eq_true, decide_eq_true_eq]
  omega

theorem storeCluster_localNow {s : State} {off : Nat} {bs : List Byte} (hoff : off < 2 ^ 17) (h : s.LocalNow s.cur.core off bs.length) :
    storeCluster (BitVec.ofNat 64 (0x800000 + off)) bs false none s = (touch off bs.length s).spmWrite s.cur.core off bs := by
  rw [storeCluster, localTarget_own _ hoff]
  dsimp only
  rw [Bool.false_and, if_neg Bool.false_ne_true, h.1, if_neg (by simp), markWord, storeLocal, localTarget_own _ hoff]
  exact spmStore_localNow ((SameAccesses.touchAt _ _ _ s).localNow h) _ _

/-! ### ZLEN, ZBITS, ZMOV, ZLD and ZST (R127, R129) -/

section
variable {st : BitVec 3} {d a b : BitVec 5} {s : State}

theorem zbits_word (v : W128) (k : W64) : (if k.getLsbD 0 then v.extractLsb' 0 64 else v.extractLsb' 64 64) =
    BitVec.ofNat 64 (v.toNat / (if k.toNat % 2 = 1 then 1 else 2 ^ 64)) := by
  rw [if_congr (getLsbD_zero_iff_odd k) rfl rfl]
  split
  · exact congrArg (BitVec.ofNat 64) (Nat.div_one _).symm
  · exact congrArg (BitVec.ofNat 64) (Nat.shiftRight_eq_div_pow _ _)

theorem zmov_completes (hg : s.Admits (.zmov st d a)) :
    exec (.zmov st d a) s = .next (retire st.toNat (setLazy d (s.me.lazy a) s)) := by
  rw [exec_zmov]
  exact issue_of_ok hg (upd_apply _ s)

theorem zld_completes {off : Nat} (hg : s.Admits (.zld st d a)) (hc : s.Clear [.int a] none)
    (hoff : (arg1 (s.values [.int a]) 0).toNat % 2 ^ 17 = off) (h32 : off % 32 = 0) (hfit : off + 32 ≤ 98304)
    (hl : s.LocalNow s.cur.core off 32) (hlen : (recordOf (s.spmRead s.cur.core off 32)).len ≤ 128) :
    exec (.zld st d a) s = .next (retire st.toNat
      (setLazy d (recordOf (s.spmRead s.cur.core off 32)) (touch off 32 (consume [.int a] s)))) := by
  subst hoff
  have hok : decide (128 < (recordAt s (arg1 (s.values [.int a]) 0)).len) = false := by
    rw [recordAt_eq]
    exact decide_eq_false (Nat.not_lt.mpr hlen)
  rw [exec_zld, execZld, issue_prepared_get hc (recordCands_of_fits h32 hfit)]
  refine issue_of_ok hg ?_
  rw [bits_low, M_bind_ok (awaitSpm_of_localNow hl), hok, M_bind_ok (trapIf_false _ _ s), upd_apply]
  dsimp only
  rw [recordAt_eq, bits_low]

theorem zst_completes {off : Nat} (hg : s.Admits (.zst st a b)) (hc : s.Clear [.int b] none)
    (hoff : (arg1 (s.values [.int b]) 0).toNat % 2 ^ 17 = off) (h32 : off % 32 = 0) (hfit : off + 32 ≤ 98304)
    (hl : s.LocalNow s.cur.core off 32) : exec (.zst st a b) s = .next (retire st.toNat
      ((touch off 32 (consume [.int b] s)).spmWrite s.cur.core off (lazyRecord (s.me.lazy a)))) := by
  subst hoff
  have hsame := SameAccesses.consume [.int b] s
  have hnow := hsame.localNow hl
  rw [← hsame.cur, ← length_lazyRecord (s.me.lazy a)] at hnow
  rw [exec_zst, execZst, prepared_completes hg hc (recordCands_of_fits h32 hfit), bits_low,
    storeCluster_localNow (Nat.mod_lt _ (by decide)) hnow, hsame.cur, length_lazyRecord]

end

/-- Settles O26: comparisons by `lazyOp`, then member by member; where an instruction extends a stale value, by the trap of its draw. -/
theorem lazyValues : Obligations.LazyValues := by
  constructor
  · intro st d a b flag stale cmp interval
    have member {i : Instr} {src : Opnd} {quick : List W64 → Option W64} {test : List W64 → Nat → Nat → Option W64}
        {last last' : List W64 → Nat → W64} {raises : List W64 → Fl}
        (hex : ∀ s, exec i s = lazyOp i st d a src quick test last raises s)
        (hlast : ∀ v p, last v p = last' v p) : cmp i src quick test last' raises := by
      obtain rfl : last = last' := funext fun v => funext (hlast v)
      refine ⟨fun r s hg hc hq => (hex s).trans (lazyOp_quick hg hc hq),
        fun r z s hg hc ⟨hq, hr⟩ => (hex s).trans (lazyOp_decided hg hc hq hr),
        fun z s hg hc ⟨hq, hr, hm⟩ => (hex s).trans (lazyOp_undecided hg hc hq hr hm),
        fun z s hg hc hq hr hm => (hex s).trans (lazyOp_exhausted hg hc hq hr hm),
        fun k s hg hc hq ht hl hk => (hex s).trans (lazyOp_stale hg hc hq ht hl hk)⟩
    clear_value cmp
    refine ⟨?zltq, ?zltf, ?zfloor⟩
    case zltq => exact member (exec_zltq st d a b) fun v p => b2w_eq_ite decide_eq_true_iff
    case zltf => exact member (exec_zltf st d a b) fun v p => b2w_eq_ite decide_eq_true_iff
    case zfloor => exact member (exec_zfloor st d a b) fun v p => rfl
  · intro st d a b two one right off both loop stale traps
    refine ⟨fun k s hg hc ⟨hk, hb⟩ => zdraw_completes hg hc hk hb, fun s hg hc hi => zltz_same hg hc hi,
      fun r x y s hg hc ⟨hi, hr⟩ => zltz_decided hg hc hi hr, fun x y s hg hc ⟨hi, hr, hm⟩ => zltz_undecided hg hc hi hr hm,
      fun x y s hg hc hi => ⟨fun hr hm => zltz_exhausted hg hc hi hr hm, ?zltzStale⟩,
      fun k s hg hc hl hk => zext_stops hg hc (extendTo_of_drawTrap hl hk 3), fun z s hg hc hz => zext_extends hg hc hz,
      computes_of_interlocked (exec_zlen st d a), ?zbits, fun s hg _ _ => zmov_completes hg,
      fun s hg hc ⟨h32, hfit, hl, hlen⟩ => zld_completes hg hc rfl h32 hfit hl hlen,
      fun s hg hc ⟨h32, hfit, hl⟩ => zst_completes hg hc rfl h32 hfit hl, fun z hl hz => recordOf_lazyRecord hl hz⟩
    case zltzStale =>
      rintro k rfl rfl ht
      exact ⟨fun hk hl h128 => zltz_stops hg hc hi (ltzLoop_left_stale ht hl h128 hk 8),
        fun hk hl => zltz_stops hg hc hi (ltzLoop_right_stale ht hl hk 8)⟩
    case zbits => exact (computes_of_interlocked (exec_zbits st d a b)).congr fun s vs => congrArg (fun w => [w]) (zbits_word _ _)

end Sys2Proof.Machine
end

section
/-! PROOFS. What naming operands leaves, and groups: membership, phases and elections (O19). -/

namespace Sys2Proof.Machine

/-! ### What naming operands leaves -/

/-- Outside the issuing context only the banks of the scratchpads may have been taken, and in it only ports have popped and pointers have
advanced. -/
structure OnlyOperands (s t : State) : Prop where
  rest : { t with cores := s.cores, banks := s.banks, collisions := s.collisions } = s
  cores : ∀ c, { t.core c with ctxs := (s.core c).ctxs } = s.core c
  me : { t.me with ports := s.me.ports, a := s.me.a } = s.me

namespace OnlyOperands

theorem refl (s : State) : OnlyOperands s s := ⟨rfl, fun _ => rfl, rfl⟩

theorem trans {s t u : State} (h : OnlyOperands s t) (g : OnlyOperands t u) : OnlyOperands s u where
  rest := by rw [← h.rest, ← g.rest]
  cores c := by rw [← h.cores c, ← g.cores c]
  me := by rw [← h.me, ← g.me]

theorem updMe (s : State) {f : Context → Context} (hf : ∀ c, { f c with ports := c.ports, a := c.a } = c) : OnlyOperands s (s.updMe f) where
  rest := rfl
  cores c := by
    by_cases hc : c = s.cur.core
    · subst hc
      rw [show (s.updMe f).core s.cur.core = _ from here_updMe s f]
      rfl
    · rw [show (s.updMe f).core c = s.core c from core_updCore_ne s _ hc]
  me := by rw [me_updMe, hf]

theorem touchAt (c off len : Nat) (s : State) : OnlyOperands s (touchAt c off len s) := by
  obtain ⟨bk, co, h⟩ := touchAt_eq c off len s
  rw [h]
  exact ⟨rfl, fun _ => rfl, rfl⟩

theorem consume1 (s : State) (o : Opnd) : OnlyOperands s (consume1 o s) := by
  unfold Machine.consume1
  split
  · exact updMe s fun _ => rfl
  · split
    · exact (touchAt _ _ _ s).trans (updMe _ fun _ => rfl)
    · exact refl s

theorem consume (srcs : List Opnd) (s : State) : OnlyOperands s (consume srcs s) := by
  unfold Machine.consume
  induction srcs generalizing s with
  | nil => exact refl s
  | cons o r ih => exact (consume1 s o).trans (ih _)

section
variable {s t : State} (h : OnlyOperands s t)
include h

theorem cur : t.cur = s.cur := (congrArg State.cur h.rest :)
theorem pkg : t.pkg = s.pkg := (congrArg State.pkg h.rest :)
theorem ranks : t.ranks = s.ranks := (congrArg State.ranks h.rest :)
theorem vds : t.vds = s.vds := (congrArg State.vds h.rest :)

theorem here : { t.here with ctxs := s.here.ctxs } = s.here := by
  rw [State.here, h.cur]
  exact h.cores _

theorem groupQueue : t.groupQueue = s.groupQueue := by rw [State.groupQueue, State.groupQueue, ← h.here]

theorem myVd : t.myVd = s.myVd := by
  rw [State.myVd, State.myVd, State.vd, State.vd, h.vds, ← h.here]

theorem groupOf (g : Nat) : t.groupOf g = s.groupOf g := by
  rw [State.groupOf, State.groupOf, h.groupQueue, h.myVd]

theorem tracker (g : Nat) : t.tracker g = s.tracker g := by
  rw [State.tracker, State.tracker, h.groupQueue, h.myVd]

theorem crosses (g : Nat) : t.crosses g = s.crosses g := by
  rw [State.crosses, State.crosses, h.groupOf, h.pkg]

theorem releasable : t.releasable = s.releasable := by
  have hclear : t.me.clear = s.me.clear := (congrArg Context.clear h.me :)
  have hdues : (t.core s.cur.core).duesOf s.cur.ctx.val = (s.core s.cur.core).duesOf s.cur.ctx.val :=
    (congrArg (Core.duesOf · s.cur.ctx.val) (h.cores s.cur.core) :)
  have hmerging : t.merging s.cur.core = s.merging s.cur.core := by rw [State.merging, State.merging, h.ranks]
  rw [State.releasable, State.releasable, State.clearOf, State.clearOf, ctx_cur, ctx_cur, h.cur, hclear, hdues, hmerging]

end

end OnlyOperands

/-! ### Groups, their trackers and phases -/

/-- An update of a tracker of the launch queue that the core uses. -/
def Vd.withTracker (v : Vd) (q : Fin 4) (g : Nat) (f : Tracker → Tracker) : Vd :=
  { v with queues := v.queues.set q (v.queues[q].setTracker (f (v.queues[q].tracker g))) }

theorem updTracker_eq {s : State} {q : Fin 4} (hq : s.groupQueue = some q) (g : Nat) (f : Tracker → Tracker) :
    s.updTracker g f = s.updVd s.here.vd (·.withTracker q g f) := by
  unfold State.updTracker
  rw [hq]
  rfl

theorem groups_withTracker (v : Vd) (q : Fin 4) (g : Nat) (f : Tracker → Tracker) :
    ((v.withTracker q g f).queues[q]).groups = (v.queues[q]).groups := by
  simp [Vd.withTracker, LaunchQueue.setTracker]

/-- An arrival or an election leaves the group table (R224). -/
theorem groupOf_updTracker (s : State) (g k : Nat) (f : Tracker → Tracker) : (s.updTracker g f).groupOf k = s.groupOf k := by
  cases hq : s.groupQueue with
  | none => rw [show s.updTracker g f = s by rw [State.updTracker, hq]]
  | some q =>
    rw [updTracker_eq hq]
    have hsame : (s.updVd s.here.vd (·.withTracker q g f)).groupQueue = some q := hq
    have hvd : (s.updVd s.here.vd (·.withTracker q g f)).myVd = s.myVd.withTracker q g f := vd_updVd s _ _
    rw [State.groupOf, State.groupOf, hsame, hq]
    dsimp only
    rw [hvd, groups_withTracker]

theorem crosses_arriveAt (s : State) (g k : Nat) : (arriveAt g s).crosses k = s.crosses k := by
  have hpkg : (arriveAt g s).pkg = s.pkg := by
    unfold arriveAt State.updTracker
    split <;> rfl
  rw [State.crosses, State.crosses, hpkg, arriveAt, groupOf_updTracker]

/-- An update is what it makes of the tracker that it finds. -/
theorem updTracker_congr {s : State} {g : Nat} {f h : Tracker → Tracker} (hf : f (s.tracker g) = h (s.tracker g)) :
    s.updTracker g f = s.updTracker g h := by
  cases hq : s.groupQueue with
  | none => rw [State.updTracker, State.updTracker, hq]
  | some q =>
    have hfound : s.tracker g = (s.myVd.queues[q]).tracker g := by rw [State.tracker, hq]
    rw [hfound] at hf
    have hsame : s.myVd.withTracker q g f = s.myVd.withTracker q g h := by rw [Vd.withTracker, Vd.withTracker, hf]
    rw [updTracker_eq hq, updTracker_eq hq]
    exact congrArg (fun v : Vd => { s with vds := put s.here.vd v s.vds }) hsame

theorem complete_iff (t : Tracker) (n p : Nat) : t.complete n p = true ↔ ∀ k < n, p < t.count k := by
  simp [Tracker.complete]

/-- R157: a member of a group that the launch has filled names it without a trap. -/
theorem groupCands_of_named {s : State} {v : W64} {member : Bool} (hlt : v.toNat < 256) (hg : s.groupOf v.toNat ≠ [])
    (hm : member = true → s.memberIx v.toNat ≠ none) : groupCands s v member = [] := by
  refine if_neg ?_
  rintro (h | h | ⟨h, h'⟩)
  · omega
  · exact hg (List.isEmpty_iff.mp h)
  · exact hm h (Option.isNone_iff_eq_none.mp h')

theorem myArrivals_eq {s : State} {g m : Nat} (h : s.memberIx g = some m) : myArrivals s g = (s.tracker g).count m := by
  rw [myArrivals, h, Option.getD_some]

theorem release_of_releasable {s : State} (h : s.releasable = true) : release s = .ok ((), s) := if_pos h

theorem phaseAcquire_consume (g : Nat) (srcs : List Opnd) (s : State) :
    phaseAcquire g (consume srcs s) = acquire (s.crosses g) (consume srcs s) := by
  rw [phaseAcquire, (OnlyOperands.consume srcs s).crosses]

/-! ### The members -/

section
variable {st : BitVec 3} {d a b : BitVec 5} {g m : Nat} {s : State}

theorem bara_arrives (hg : s.Admits (.bara st d a)) (hc : s.Clear [.int a] (some (.int d)))
    (hv : (arg1 (s.values [.int a]) 0).toNat = g) (hcand : groupCands s (arg1 (s.values [.int a]) 0) true = [])
    (hm : s.memberIx g = some m) (hrel : s.releasable = true) : exec (.bara st d a) s = .next (retire st.toNat
      (deliver (.int d) .now [BitVec.ofNat 64 ((s.tracker g).count m)] (arriveAt g (consume [.int a] s)))) := by
  rw [exec_bara]
  refine issue_of_ok hg ?_
  rw [M_bind_ok (prepare_of_clear hc hcand), M_bind_ok (release_of_releasable hrel), upd_apply, hv]
  dsimp only
  rw [myArrivals_eq hm]

theorem barw_passes (hg : s.Admits (.barw st a b)) (hc : s.Clear [.int a, .int b] none)
    (hv : (arg1 (s.values [.int a, .int b]) 0).toNat = g) (hcand : groupCands s (arg1 (s.values [.int a, .int b]) 0) true = [])
    (hm : s.memberIx g = some m) (hlt : (arg1 (s.values [.int a, .int b]) 1).toNat < (s.tracker g).count m)
    (hall : (s.tracker g).complete (s.groupOf g).length (arg1 (s.values [.int a, .int b]) 1).toNat = true) :
    exec (.barw st a b) s = .next (retire st.toNat (acquire (s.crosses g) (consume [.int a, .int b] s))) := by
  rw [exec_barw, execBarw]
  dsimp only
  rw [issue_prepared_get hc]
  · refine issue_of_ok hg ?_
    rw [hv, hall, Bool.not_true, M_bind_ok (waitIf_false _ s), upd_apply, phaseAcquire_consume]
  · rw [hcand, hv, myArrivals_eq hm]
    exact if_pos hlt

theorem bar_passes (hg : s.Admits (.bar st a)) (hc : s.Clear [.int a] none)
    (hv : (arg1 (s.values [.int a]) 0).toNat = g) (hcand : groupCands s (arg1 (s.values [.int a]) 0) true = [])
    (hm : s.memberIx g = some m) (hfirst : lookup s.me.pc.toNat s.me.barrier = none) (hrel : s.releasable = true)
    (hall : ((arriveAt g s).tracker g).complete ((arriveAt g s).groupOf g).length ((s.tracker g).count m) = true) :
    exec (.bar st a) s = .next (retire st.toNat (acquire (s.crosses g) (consume [.int a] (arriveAt g s)))) := by
  rw [exec_bar, execBar, issue_prepared_get hc hcand]
  refine issue_of_ok hg ?_
  rw [hfirst, hv]
  dsimp only
  rw [M_bind_ok (release_of_releasable hrel), myArrivals_eq hm, if_pos hall, upd_apply, phaseAcquire_consume, crosses_arriveAt]

theorem bar_passes_late {p : Nat} (hg : s.Admits (.bar st a)) (hc : s.Clear [.int a] none)
    (hv : (arg1 (s.values [.int a]) 0).toNat = g) (hcand : groupCands s (arg1 (s.values [.int a]) 0) true = [])
    (hlate : lookup s.me.pc.toNat s.me.barrier = some p) (hall : (s.tracker g).complete (s.groupOf g).length p = true) :
    exec (.bar st a) s = .next (retire st.toNat ((acquire (s.crosses g) (consume [.int a] s)).updMe (fun c =>
      { c with barrier := drop s.me.pc.toNat c.barrier }))) := by
  rw [exec_bar, execBar, issue_prepared_get hc hcand]
  refine issue_of_ok hg ?_
  rw [hlate, hv]
  dsimp only
  rw [hall, Bool.not_true, M_bind_ok (waitIf_false _ s), upd_apply, phaseAcquire_consume]

theorem elect_elects (hg : s.Admits (.elect st d a)) (hc : s.Clear [.int a] (some (.int d)))
    (hv : (arg1 (s.values [.int a]) 0).toNat = g) (hcand : groupCands s (arg1 (s.values [.int a]) 0) true = [])
    (hm : s.memberIx g = some m) : exec (.elect st d a) s = .next (retire st.toNat
      (deliver (.int d) .now [b2w ((s.tracker g).wins m)] ((consume [.int a] s).updTracker g (·.elect m)))) := by
  rw [exec_elect, execElect, prepared_completes hg hc hcand, hv]
  dsimp only
  rw [hm, Option.getD_some]

end

/-- Settles O19: the operand names a group without a trap, then member by member; an election by the tracker that it finds. -/
theorem groups : Obligations.Groups := by
  intro st d a b g m one two names phase all
  have named {os : List Opnd} {s : State} (h : names os s) : groupCands s (arg1 (s.values os) 0) true = [] := by
    obtain ⟨hv, hlt, hm, hne⟩ := h
    refine groupCands_of_named (by rwa [hv]) (by rwa [hv]) fun _ => ?_
    rw [hv, hm]
    exact Option.some_ne_none m
  refine ⟨fun s hg hc h => ?gidx, fun s hg hc ⟨hv, hlt, hne⟩ => ?gsize, fun s hg hc ⟨h, hrel⟩ => ?bara,
    fun s hg hc ⟨h, hlt, hall⟩ => ?barw, fun s hg hc ⟨h, hfirst, hrel, hall⟩ => ?bar, fun p s hg hc ⟨h, hlate, hall⟩ => ?late,
    fun s hg hc h => ?elect⟩
  case gidx =>
    obtain ⟨hv, -, hm, -⟩ := id h
    rw [exec_gidx, execGidx, prepared_completes hg hc (named h), hv, hm]
    rfl
  case gsize =>
    rw [exec_gsize, execGsize, prepared_completes hg hc
      (groupCands_of_named (by rwa [hv]) (by rwa [hv]) fun h => absurd h Bool.false_ne_true), hv]
    rfl
  case bara =>
    obtain ⟨hv, -, hm, -⟩ := id h
    exact bara_arrives hg hc hv (named h) hm hrel
  case barw =>
    obtain ⟨hv, -, hm, -⟩ := id h
    exact barw_passes hg hc hv (named h) hm hlt ((complete_iff _ _ _).mpr hall)
  case bar =>
    obtain ⟨hv, -, hm, -⟩ := id h
    exact bar_passes hg hc hv (named h) hm hfirst hrel ((complete_iff _ _ _).mpr hall)
  case late =>
    obtain ⟨hv, -⟩ := id h
    exact bar_passes_late hg hc hv (named h) hlate ((complete_iff _ _ _).mpr hall)
  case elect =>
    obtain ⟨hv, -, hm, -⟩ := id h
    rw [elect_elects hg hc hv (named h) hm]
    have hseen : (consume one s).tracker g = s.tracker g := (OnlyOperands.consume one s).tracker g
    refine congrArg (fun t => Host.Outcome.next (retire st.toNat (deliver (.int d) .now _ t))) (updTracker_congr ?_)
    rw [hseen]
    rfl

end Sys2Proof.Machine
end

section
/-! PROOFS. Ports: PBIND, PSTAT, PDRAIN and PORD (O18). -/

namespace Sys2Proof.Machine

theorem portStatus_of_unbound {p : Port} (h : p.dest = none) :
    portStatus p = BitVec.ofNat 64 (p.queue.length + if p.standing then 2 ^ 17 else 0) := by
  rw [portStatus, h]
  rfl

theorem portStatus_of_bound {p : Port} {e : PortDest} (h : p.dest = some e) :
    portStatus p = BitVec.ofNat 64 (p.queue.length + (if p.standing then 2 ^ 17 else 0) +
      (2 ^ 16 + e.core * 2 ^ 32 + e.ctx * 2 ^ 44 + e.port * 2 ^ 48)) := by
  rw [portStatus, h]

theorem pstat_delivers {st : BitVec 3} {d a : BitVec 5} {s : State} (hg : s.Admits (.pstat st d a)) (hc : s.Clear [] (some (.int d))) :
    exec (.pstat st d a) s = .next (retire st.toNat (deliver (.int d) .now [portStatus (s.myPort a)] s)) := by
  rw [exec_pstat]
  exact compute_completes _ _ _ _ none _ s hg hc

theorem pdrain_unbound {st : BitVec 3} {d a : BitVec 5} {s : State} (hg : s.Admits (.pdrain st d a))
    (hc : s.Clear [] (some (.int d))) (h : (s.myPort a).dest = none) :
    exec (.pdrain st d a) s = .next (retire st.toNat (deliver (.int d) .now [0] s)) := by
  rw [exec_pdrain, execPdrain, issue_prepared_get hc rfl]
  refine issue_of_ok hg ?_
  rw [if_pos (by rw [h]; rfl), upd_apply]

theorem pdrain_quiet {st : BitVec 3} {d a : BitVec 5} {s : State} (hg : s.Admits (.pdrain st d a))
    (hc : s.Clear [] (some (.int d))) (h : (s.myPort a).dest ≠ none)
    (hq : s.unsent s.here.origin s.cur.ctx.val (portOfCode a) = false) :
    exec (.pdrain st d a) s = .next (retire st.toNat
      (deliver (.int d) .now [BitVec.ofNat 64 ((lookup s.me.pc.toNat s.me.drained).getD 0 + (s.myPort a).queue.length)]
        ((s.updHere (setPort s.cur.ctx.val (portOfCode a) Port.reset)).updMe (fun c =>
          { c with drained := drop s.me.pc.toNat c.drained })))) := by
  rw [exec_pdrain, execPdrain, issue_prepared_get hc rfl]
  refine issue_of_ok hg ?_
  rw [if_neg (by simpa using h), if_neg (by rw [hq]; exact Bool.false_ne_true), upd_apply]

theorem pord_quiet {st : BitVec 3} {a : BitVec 5} {s : State} (hg : s.Admits (.pord st a)) (hc : s.Clear [] none)
    (h : (s.myPort a).dest ≠ none) (hq : s.unsent s.here.origin s.cur.ctx.val (portOfCode a) = false) :
    exec (.pord st a) s = .next (retire st.toNat s) := by
  have hown : (if (s.myPort a).dest.isNone then [Cand.porterr (a.zeroExtend 64)] else []) = [] := if_neg (by simpa using h)
  rw [exec_pord, execPord, issue_prepared_get hc hown, hq]
  exact issue_of_ok hg (waitIf_false _ s)

/-- Settles O18: PSTAT by `portStatus`, the others by what their port holds. -/
theorem ports : Obligations.Ports := by
  intro st d a b _ _
  refine ⟨fun s hg hc h => ?pbind, fun s hg hc h => ?unbound, fun e s hg hc h => ?bound, fun s hg hc h => pdrain_unbound hg hc h,
    fun s hg hc ⟨h, hq⟩ => pdrain_quiet hg hc h hq, fun s hg hc ⟨h, hq⟩ => pord_quiet hg hc h hq⟩
  case pbind =>
    rw [exec_pbind, execPbind]
    exact prepared_completes hg hc (if_pos h)
  case unbound =>
    rw [pstat_delivers hg hc, portStatus_of_unbound (p := s.myPort a) h]
    rfl
  case bound =>
    rw [pstat_delivers hg hc, portStatus_of_bound (p := s.myPort a) h]
    rfl

end Sys2Proof.Machine
end

section
/-! PROOFS. Local loads and stores, and full/empty words (O13). -/

namespace Sys2Proof.Machine

/-! ### Scratchpad bytes that nothing holds back (R134, R136, R214) -/

theorem localCands_of_fits {s : State} {addr : W64} {c off len align : Nat} (halign : addr.toNat % align = 0)
    (ht : localTarget s.cur.core addr = (c, off)) (hfit : off + len ≤ 98304) : localCands s addr len align = [] := by
  rw [localCands, ht, if_neg (not_not_intro halign), if_neg (show ¬ spmSize < off + len from Nat.not_lt.mpr hfit)]
  rfl

theorem spmTarget_eq {s : State} {addr : W64} {c off : Nat} (ht : localTarget s.cur.core addr = (c, off)) (len : Nat) :
    spmTarget s addr len = .spm c off len := by
  rw [spmTarget, ht]

theorem foreign_of_localNow {s : State} {c off len : Nat} (h : s.LocalNow c off len) : s.foreign c = false := by
  rw [State.foreign, h.2.1]
  exact bne_self_eq_false _

/-- No failing word lies in the bytes (R342). -/
theorem sound_of_localNow {s : State} {c off len : Nat} (h : s.LocalNow c off len) :
    (s.core c).bad.any (fun w => overlap (8 * w) 8 off len) = false :=
  List.any_eq_false.mpr fun w hw => by
    have := h.2.2 w hw
    simp only [overlap, Bool.and_eq_true, decide_eq_true_eq]
    omega

theorem spmRead_touchAt (c off len : Nat) (s : State) (d o n : Nat) : (touchAt c off len s).spmRead d o n = s.spmRead d o n := by
  obtain ⟨bk, co, h⟩ := touchAt_eq c off len s
  rw [h]
  rfl

theorem loadLocal_localNow {s : State} {addr : W64} {c off len : Nat} (ht : localTarget s.cur.core addr = (c, off))
    (h : s.LocalNow c off len) : loadLocal addr len s = .ok (.bytes (s.spmRead c off len), touchAt c off len s) := by
  have hl := (SameAccesses.touchAt c off len s).localNow h
  rw [loadLocal, ht]
  dsimp only
  rw [spmLoad, foreign_of_localNow hl, if_neg Bool.false_ne_true, sound_of_localNow hl, if_neg Bool.false_ne_true, spmRead_touchAt]

theorem localLoad_localNow {i : Instr} {st : BitVec 3} {b d : Opnd} {o : BitVec 8} {unit size align : Nat} {shape : LoadShape} {acq : Bool}
    {s : State} {c off : Nat} (hg : s.Admits i) (hc : s.Clear [b] (some d))
    (halign : (unitAddr (arg1 (s.values [b]) 0) o unit).toNat % align = 0)
    (ht : localTarget s.cur.core (unitAddr (arg1 (s.values [b]) 0) o unit) = (c, off)) (hfit : off + size ≤ 98304)
    (hl : s.LocalNow c off size) : localLoad i st b d o unit size align shape acq s = .next (retire st.toNat
      (deliver d .now (shape.result (s.spmRead c off size)).1 (consume [b] (touchAt c off size s)))) := by
  rw [localLoad, issue_prepared_get hc (localCands_of_fits halign ht hfit)]
  refine issue_of_ok hg ?_
  rw [spmTarget_eq ht, hl.1, if_neg (by simp), M_bind_ok (loadLocal_localNow ht hl), upd_apply]
  rfl

theorem storeCluster_now {s : State} {addr : W64} {bs : List Byte} {rel : Bool} {full : Option Bool} {c off : Nat}
    (ht : localTarget s.cur.core addr = (c, off)) (hl : s.LocalNow c off bs.length) (hrel : rel = true → s.releasable = true) :
    storeCluster addr bs rel full s = markWord c off full ((touchAt c off bs.length s).spmWrite c off bs) := by
  have hgo : (rel && !s.releasable) = false := by
    cases rel with
    | false => rfl
    | true => rw [hrel rfl]; rfl
  rw [storeCluster, ht]
  dsimp only
  rw [hgo, if_neg Bool.false_ne_true, hl.1, if_neg (by simp), storeLocal, ht]
  dsimp only
  rw [spmStore_localNow ((SameAccesses.touchAt _ _ _ s).localNow hl)]

theorem localStore_localNow {i : Instr} {st : BitVec 3} {b data : Opnd} {o : BitVec 8} {unit size align : Nat} {rel : Bool}
    {full : Option Bool} {s : State} {c off : Nat} (hg : s.Admits i) (hc : s.Clear [b, data] none)
    (halign : (unitAddr (arg1 (s.values [b, data]) 0) o unit).toNat % align = 0)
    (ht : localTarget s.cur.core (unitAddr (arg1 (s.values [b, data]) 0) o unit) = (c, off)) (hfit : off + size ≤ 98304)
    (hl : s.LocalNow c off size) (hrel : rel = true → s.releasable = true) :
    localStore i st b data o unit size align rel full s = .next (retire st.toNat (markWord c off full
      ((touchAt c off size (consume [b, data] s)).spmWrite c off (bytesOf size (ofWords (arg (s.values [b, data]) 1)))))) := by
  have hsame := SameAccesses.consume [b, data] s
  have hlen : (bytesOf size (ofWords (arg (s.values [b, data]) 1))).length = size := length_bytesOf _ _
  rw [localStore, issue_prepared_get hc (localCands_of_fits halign ht hfit)]
  refine issue_of_ok hg ?_
  rw [upd_apply, storeCluster_now (c := c) (off := off) (by rwa [hsame.cur]) (by rw [hlen]; exact hsame.localNow hl)
    (fun h => (OnlyOperands.consume _ s).releasable.trans (hrel h)), hlen]

/-! ### The data of a store -/

theorem length_value_int (s : State) (before : List Opnd) (c : BitVec 5) : (s.value before (.int c)).length ≤ 1 := by
  unfold State.value Opnd.int
  dsimp only
  split
  · simp
  split
  · simp
  split
  · exact (List.length_take_le _ _)
  split
  · simp
  split
  · exact Nat.le_refl 1
  · simp

theorem ofWords_of_length_le_one {ws : List W64} (h : ws.length ≤ 1) : ofWords ws = (wd ws 0).toNat := by
  match ws with
  | [] => rfl
  | [w] => exact Nat.add_zero _
  | _ :: _ :: _ => simp at h

theorem ofWords_int (s : State) (b : Opnd) (d : BitVec 5) : ofWords (arg (s.values [b, .int d]) 1) = (arg1 (s.values [b, .int d]) 1).toNat :=
  ofWords_of_length_le_one (length_value_int s [b] d)

/-! ### Full/empty words (R143, R144) -/

section
variable {i : Instr} {st : BitVec 3} {d b : BitVec 5} {o : BitVec 8} {empties : Bool} {s : State} {c off : Nat}
  (hg : s.Admits i) (hc : s.Clear [.int b] (some (.int d)))
  (halign : (unitAddr (arg1 (s.values [.int b]) 0) o 8).toNat % 8 = 0)
  (ht : localTarget s.cur.core (unitAddr (arg1 (s.values [.int b]) 0) o 8) = (c, off)) (hfit : off + 8 ≤ 98304)
include hg hc halign ht hfit

theorem feLoad_takes (hl : s.LocalNow c off 8) (hfull : isFull s c (off / 8) = true)
    (hfirst : ∀ x, (waitersOn s c (off / 8)).head? = some x → x = feRequest s st d b (unitAddr (arg1 (s.values [.int b]) 0) o 8) empties) :
    feLoad i st d b o empties s = .next (retire st.toNat (deliver (.int d) .now [BitVec.ofNat 64 (ofBytes (s.spmRead c off 8))]
      (let t := withdraw c s.cur.core s.cur.ctx.val (consume [.int b] (touchAt c off 8 s))
       if empties then setFull c (off / 8) false t else t))) := by
  rw [feLoad, issue_prepared_get hc (localCands_of_fits halign ht hfit)]
  refine issue_of_ok hg ?_
  have hword : (feRequest s st d b (unitAddr (arg1 (s.values [.int b]) 0) o 8) empties).word = off / 8 := by rw [feRequest, ht]
  have hserved : (isFull s c (off / 8) && (waitersOn s c (off / 8)).head?.all
      (· == feRequest s st d b (unitAddr (arg1 (s.values [.int b]) 0) o 8) empties)) = true := by
    rw [hfull, Bool.true_and, Option.all_eq_true]
    exact fun x hx => beq_iff_eq.mpr (hfirst x hx)
  rw [hword, ht, hserved, if_pos rfl, spmTarget_eq ht, hl.1]
  refine (M_bind_ok (waitIf_false .fence s)).trans ((M_bind_ok (loadLocal_localNow ht hl)).trans ?_)
  rfl

theorem feLoad_waits (hempty : isFull s c (off / 8) = false)
    (hnew : (waitersOn s c (off / 8)).contains (feRequest s st d b (unitAddr (arg1 (s.values [.int b]) 0) o 8) empties) = false) :
    feLoad i st d b o empties s = .next (setWait .full (settled (s.updCore c (fun k =>
      { k with waiters := k.waiters ++ [feRequest s st d b (unitAddr (arg1 (s.values [.int b]) 0) o 8) empties] })))) := by
  have hword : (feRequest s st d b (unitAddr (arg1 (s.values [.int b]) 0) o 8) empties).word = off / 8 := by rw [feRequest, ht]
  rw [feLoad, issue_prepared_get hc (localCands_of_fits halign ht hfit)]
  refine issue_of_error (e := .keepWait (s.updCore c (fun k =>
    { k with waiters := k.waiters ++ [feRequest s st d b (unitAddr (arg1 (s.values [.int b]) 0) o 8) empties] })) .full) hg ?_
  rw [hword, ht, hempty, hnew, Bool.false_and, if_neg Bool.false_ne_true, if_neg Bool.false_ne_true]
  exact M_bind_error (stop_apply _ s)

end

theorem fill_without_waiters {s : State} {c w : Nat} (h : waitersOn s c w = []) : fill c w s = setFull c w true s := by
  rw [fill, h]
  rfl

/-- Settles O13: loads and stores by what `localLoad` and `localStore` do where nothing holds them back, LDF and LDFE by `feLoad`. -/
theorem localMemory : Obligations.LocalMemory := by
  constructor
  · intro st w d b q o c off addr size slots one two vec at_ n stored
    refine ⟨fun i hi s hg hc ⟨halign, ht, hfit, hl⟩ => ?load, fun i hi s hg hc ⟨⟨halign, ht, hfit, hl⟩, hrel⟩ => ?store,
      fun hq s hg hc ⟨halign, ht, hfit, hl⟩ => ?ldv, fun hq s hg hc ⟨⟨halign, ht, hfit, hl⟩, hrel⟩ => ?stv⟩
    case load =>
      simp only [addr, ← unitAddr_eq_ofInt] at halign ht
      simp only [List.mem_cons, List.not_mem_nil, or_false] at hi
      rcases hi with rfl | rfl
      · exact (exec_ldl st w d b o s).trans (localLoad_localNow hg hc halign ht hfit hl)
      · exact (exec_ldlAcq st w d b o s).trans (localLoad_localNow hg hc halign ht hfit hl)
    case store =>
      simp only [addr, ← unitAddr_eq_ofInt] at halign ht
      simp only [List.mem_cons, List.not_mem_nil, or_false] at hi
      have hdata : ofWords (arg (s.values two) 1) = (arg1 (s.values two) 1).toNat := ofWords_int s _ d
      simp only [stored, ← hdata]
      rcases hi with rfl | rfl
      · exact (exec_stl st w d b o s).trans (localStore_localNow hg hc halign ht hfit hl nofun)
      · exact (exec_stlRel st w d b o s).trans (localStore_localNow hg hc halign ht hfit hl fun _ => hrel rfl)
    case ldv =>
      simp only [addr, ← unitAddr_eq_ofInt] at halign ht
      rw [exec_ldv, execLdv, if_pos hq]
      exact localLoad_localNow hg hc halign ht hfit hl
    case stv =>
      simp only [addr, ← unitAddr_eq_ofInt] at halign ht
      rw [exec_stv, execStv, if_pos hq]
      exact localStore_localNow hg hc halign ht hfit hl fun h => hrel (eq_of_beq h)
  · intro st d b o c off addr one two at_ value me first taken stored
    have haddr (os : List Opnd) (s : State) : addr os s = unitAddr (arg1 (s.values os) 0) o 8 := (unitAddr_eq_ofInt _ o 8).symm
    have hme {e : Bool} {s : State} (ht : localTarget s.cur.core (addr one s) = (c, off)) :
        me e s = feRequest s st d b (unitAddr (arg1 (s.values one) 0) o 8) e := by
      rw [haddr] at ht
      rw [feRequest, ht, ← haddr]
    have hstored (s : State) : stored s = (touchAt c off 8 (consume two s)).spmWrite c off (bytesOf 8 (ofWords (arg (s.values two) 1))) := by
      rw [ofWords_int s _ d]
    refine ⟨fun s hg hc ⟨⟨halign, ht, hfit, hl⟩, hfull, hfirst⟩ => ?ldf, fun s hg hc ⟨⟨halign, ht, hfit, hl⟩, hfull, hfirst⟩ => ?ldfe,
      fun e => ?waits, fun s hg hc ⟨⟨halign, ht, hfit, hl⟩, hrel⟩ => ?stf, fun s h => fill_without_waiters h,
      fun s hg hc ⟨halign, ht, hfit, hl⟩ => ?ste⟩
    case ldf =>
      simp only [first, hme ht] at hfirst
      rw [haddr] at halign ht
      exact (exec_ldf st d b o s).trans (feLoad_takes hg hc halign ht hfit hl hfull hfirst)
    case ldfe =>
      simp only [first, hme ht] at hfirst
      rw [haddr] at halign ht
      exact (exec_ldfe st d b o s).trans (feLoad_takes hg hc halign ht hfit hl hfull hfirst)
    case waits =>
      rintro i s hg hc ⟨halign, ht, hfit, hl⟩ hempty hnew
      rw [hme ht] at hnew ⊢
      rw [haddr] at halign ht
      have hex : exec i s = feLoad i st d b o e s := by cases e <;> rfl
      exact hex.trans (feLoad_waits hg hc halign ht hfit hempty hnew)
    case stf =>
      rw [haddr] at halign ht
      simp only [hstored]
      exact (exec_stf st d b o s).trans (localStore_localNow hg hc halign ht hfit hl fun _ => hrel)
    case ste =>
      rw [haddr] at halign ht
      simp only [hstored]
      exact (exec_ste st d b o s).trans (localStore_localNow hg hc halign ht hfit hl nofun)

end Sys2Proof.Machine
end

section
/-! PROOFS. Translations that fail (O16). -/

namespace Sys2Proof.Machine

theorem globalAddr_zero (base : W64) (unit : Nat) : globalAddr base 0 unit = base.toNat % 2 ^ 55 := by
  rw [globalAddr_eq, show (0 : BitVec 8).toInt = 0 from rfl, Int.zero_mul, Int.add_zero, BitVec.ofInt_toInt]

/-- R287: where the walk names a cause, the access ends with it and with what the walk has left. -/
theorem reach_fault {s t : State} {va len c va' : Nat} {k : AccessKind} {alloc : Bool} {u : Option (Nat × Nat)} (hk : k ≠ .fetch)
    (hh : s.me.hold = none) (hf : (s.mergeOwn s.cur.core u va len).translate s.cur.core k u va len = (t, .error (.fault c, va'))) :
    reach va len k alloc u s = .error (.fault t c (BitVec.ofNat 64 va') (kindCode k)) := by
  rw [reach, if_neg hk, hh]
  dsimp only
  rw [if_neg hk, hf]

/-- The operands of an ATOM: its address, and its data, of which CAS (op 9) has the expected word and the new one (R145). -/
def atomOperands (a b : BitVec 5) (op : Nat) : List Opnd := [.int a, .int b (if op == 9 then 2 else 1)]

section
variable {i : Instr} {st : BitVec 3} {s t : State} {c va' : Nat} (hg : s.Admits i)
include hg

theorem globalLoad_fault {b d : Opnd} {o : BitVec 8} {unit size align : Nat} {shape : LoadShape} {acq nt : Bool}
    (hc : s.Clear [b] (some d)) (halign : globalAddr (arg1 (s.values [b]) 0) o unit % align = 0)
    (hr : reach (globalAddr (arg1 (s.values [b]) 0) o unit) size .load (!nt) none s = .error (.fault t c (BitVec.ofNat 64 va') 0)) :
    globalLoad i st b d o unit size align shape acq nt s = .next (takeFault c (BitVec.ofNat 64 va') 0 (settled t)) := by
  rw [globalLoad, issue_prepared_get hc (alignCands_of_aligned halign)]
  exact issue_of_error hg (M_bind_error hr)

theorem globalStore_fault {b data : Opnd} {o : BitVec 8} {unit size align : Nat} {rel : Bool} (hc : s.Clear [b, data] none)
    (halign : globalAddr (arg1 (s.values [b, data]) 0) o unit % align = 0)
    (hr : reach (globalAddr (arg1 (s.values [b, data]) 0) o unit) size .store true none s = .error (.fault t c (BitVec.ofNat 64 va') 1)) :
    globalStore i st b data o unit size align rel s = .next (takeFault c (BitVec.ofNat 64 va') 1 (settled t)) := by
  rw [globalStore, issue_prepared_get hc (alignCands_of_aligned halign)]
  exact issue_of_error hg (M_bind_error hr)

theorem atomOp_fault {d a b : BitVec 5} {size op : Nat} (hc : s.Clear (atomOperands a b op) (some (.int d)))
    (halign : (va55 (arg1 (s.values (atomOperands a b op)) 0)).toNat % size = 0) (hrel : s.releasable = true)
    (hr : reach (va55 (arg1 (s.values (atomOperands a b op)) 0)).toNat size .atomic true none s = .error (.fault t c (BitVec.ofNat 64 va') 2)) :
    atomOp i st d a b size op s = .next (takeFault c (BitVec.ofNat 64 va') 2 (settled t)) := by
  unfold atomOperands at hc halign hr
  refine issue_of_error (e := .fault t c (BitVec.ofNat 64 va') 2) hg ?_
  rw [M_bind_ok (prepare_of_clear hc (alignCands_of_aligned halign)), M_bind_ok (release_of_releasable hrel), M_bind_ok (get_apply s)]
  exact M_bind_error hr

theorem updOp_fault {a b : BitVec 5} {ty : BitVec 3} {op : Nat} (hc : s.Clear [.int a, .int b] none)
    (halign : (va55 (arg1 (s.values [.int a, .int b]) 0)).toNat % updSize ty.toNat = 0)
    (hr : reach (va55 (arg1 (s.values [.int a, .int b]) 0)).toNat (updSize ty.toNat) .atomic true (some (ty.toNat, op)) s =
      .error (.fault t c (BitVec.ofNat 64 va') 2)) :
    updOp i st a b ty op s = .next (takeFault c (BitVec.ofNat 64 va') 2 (settled t)) := by
  rw [updOp]
  dsimp only
  rw [issue_prepared_get hc (alignCands_of_aligned halign)]
  exact issue_of_error hg (M_bind_error hr)

end

/-- Settles O16: each member ends where `reach` does. -/
theorem translationFaults : Obligations.TranslationFaults := by
  intro st d a b w z ty t c va'
  refine ⟨fun s hg hc halign ⟨hh, hf⟩ => ?ld, fun s hg hc halign ⟨hh, hf⟩ => ?st, fun s hg hc halign hrel ⟨hh, hf⟩ => ?atom,
    fun s hg hc halign ⟨hh, hf⟩ => ?upd⟩
  case ld =>
    rw [← globalAddr_zero _ (accSize w)] at halign hf
    rw [exec_ld]
    exact globalLoad_fault hg hc halign (reach_fault (by decide) hh hf)
  case st =>
    rw [← globalAddr_zero _ (accSize w)] at halign hf
    rw [exec_st]
    exact globalStore_fault hg hc halign (reach_fault (by decide) hh hf)
  case atom =>
    rw [← toNat_va55] at halign hf
    rw [exec_atomFadd]
    exact atomOp_fault hg hc halign hrel (reach_fault (by decide) hh hf)
  case upd =>
    rw [← toNat_va55] at halign hf
    rw [exec_updAdd]
    exact updOp_fault hg hc halign (reach_fault (by decide) hh hf)

end Sys2Proof.Machine
end

section
/-! PROOFS. ST and STX whose data pops a port: in two states the popping fills the hold buffer of the bank that the store needs (O12, O14). -/

namespace Sys2Proof.Machine

theorem flagging_admits_st : flagging.Admits (.st 0 3 24 16 0 0) := by
  show gateOf (.st 0 3 24 16 0 0) flagging = none
  decide

theorem flagging_st_waits : Tests.ran (.st 0 3 24 16 0 0) flagging (fun t => decide (t.me.unacked = 0)) = true := by
  decide +kernel

/-- Refutes O12: in `flagging` the data of the store pops a port, the popping takes the bank that the store needs a second time, and the
store waits, where the statement, which asks the banks before the port pops, has it performed. -/
theorem not_globalStores : ¬ Obligations.GlobalStores := by
  intro h
  obtain ⟨-, hc⟩ := flagging_meets
  obtain ⟨ps, t, hreach, -, hnow⟩ := flagging_reaches
  obtain ⟨hst, -⟩ := h 0 3 24 16 0 0 0 ps t
  have hexec := hst (arg1 (flagging.values [.int 16, .int 24]) 1) flagging flagging_admits_st hc
    ⟨⟨by decide, hreach⟩, rfl, hnow, fun h => absurd h (by decide)⟩
  have hran := flagging_st_waits
  rw [Tests.ran, hexec] at hran
  have hzero := of_decide_eq_true hran
  rw [retire_unacked] at hzero
  obtain ⟨n, hn⟩ := storeHome_unacked _ _ _ _ _
  exact Nat.succ_ne_zero n (hn.symm.trans hzero)

/-- As `flagging`: STX n0, p0 is to store four E4M3 elements at byte 8 of row 0 of rank 0. -/
def converting : State :=
  let s := (Tests.demo [0x5000000000010008]).updMe (fun c => { c with ports := c.ports.set 0 ⟨some ⟨1, 0, 0⟩, false, [0, 0]⟩ })
  { flagging with cores := [(1, Core.first 1), (0, { s.here with l1 := [contributing] })] }

theorem converting_meets : converting.Admits (.stx 0 24 16 0 0 0 0) ∧ converting.Clear [.int 16, .vector 24] none := by
  obtain ⟨hg, hc⟩ := Tests.meets_of (s := converting) (l := [.stx 0 24 16 0 0 0 0]) (srcs := [.int 16, .vector 24]) (dst := none)
    (by decide)
  exact ⟨hg _ List.mem_cons_self, hc⟩

theorem converting_reaches : ∃ ps t, converting.ReachesHome 0x10008 4 .store false true ps t ∧ t.StoresNow ps := by
  obtain ⟨ps, t, hr, hp⟩ := Tests.reachesHome_of (s := converting) (va := 0x10008) (len := 4) (k := .store) (rd := false)
    (wr := true) (alloc := true) (u := none) (p := Tests.storesNow) (by decide +kernel)
  simp only [Tests.storesNow, Bool.and_eq_true, decide_eq_true_eq, Bool.not_eq_true'] at hp
  exact ⟨ps, t, hr, hp⟩

theorem converting_waits : Tests.ran (.stx 0 24 16 0 0 0 0) converting (fun t => decide (t.me.unacked = 0)) = true := by
  decide +kernel

theorem raiseFlags_unacked (f : Fl) (s : State) : (raiseFlags f s).me.unacked = s.me.unacked := by
  rw [raiseFlags, me_updMe]

theorem useWords_unacked (mode n : Nat) (s : State) : (useWords mode n s).me.unacked = s.me.unacked := by
  unfold useWords
  split
  · rw [me_updMe]
  · rfl

/-- Refutes O14 by STX: in `converting` its store waits at the bank, where the statement has it performed. -/
theorem not_convertingTransfers : ¬ Obligations.ConvertingTransfers := by
  intro h
  obtain ⟨hg, hc⟩ := converting_meets
  obtain ⟨ps, t, hreach, hnow⟩ := converting_reaches
  obtain ⟨-, hstx, -⟩ := h 0 24 16 0 0 0 0 0 ps t 0x5000000000010008
  have hexec := hstx [0, 0] rfl converting hg hc
    ⟨by decide, by decide, by decide, by decide, fun h => absurd h (by decide), .inl (by decide), hreach, hnow⟩
  have hran := converting_waits
  rw [Tests.ran, hexec] at hran
  have hzero := of_decide_eq_true hran
  rw [retire_unacked, useWords_unacked, raiseFlags_unacked] at hzero
  obtain ⟨n, hn⟩ := storeHome_unacked _ _ _ _ _
  exact Nat.succ_ne_zero n (hn.symm.trans hzero)

end Sys2Proof.Machine
end

section
/-! PROOFS. Links between packages: packets that arrive, requests at their home, responses, losses and keys (O45). -/

namespace Sys2Proof.Machine

/-! ### Packets that arrive (R324, R325, R326) -/

/-- The packet has the form of its class, is for this package and is the next of its (SRC, DST, VC) (R324, R325). -/
def PacketFormed (vc : Nat) (s : State) (p : Packet) : Prop :=
  p.src.toNat < 1024 ∧ p.dst.toNat < 1024 ∧ p.vc.toNat = vc ∧ p.len.toNat ≤ 512 ∧ p.dst.toNat = s.pkg ∧
    ∀ n, lookup (seqIx p) s.link.seqIn = some n → n % 2 ^ 32 = p.seq.toNat

theorem wakePort_pkg (p : Packet) (s : State) : (wakePort p s).pkg = s.pkg := by
  unfold wakePort
  split <;> rfl

theorem wakePort_seqIn (p : Packet) (s : State) : (wakePort p s).link.seqIn = s.link.seqIn := by
  unfold wakePort
  split <;> rfl

theorem acceptable_wakePort_iff (vc : Nat) (s : State) (p : Packet) : acceptable vc (wakePort p s) p = true ↔ PacketFormed vc s p := by
  simp only [acceptable, headerOk, wakePort_pkg, wakePort_seqIn, PacketFormed, Bool.and_eq_true, decide_eq_true_eq, beq_iff_eq,
    Option.all_eq_true, and_assoc]

theorem receive_unformed {vc : Nat} {p : Packet} {s : State} (f : State → State) (h : ¬ PacketFormed vc s p) :
    receive vc p f s = .next (wakePort p s) := by
  rw [← acceptable_wakePort_iff, Bool.not_eq_true] at h
  simp only [receive, h, Bool.not_false, if_true]

theorem receive_broken {vc : Nat} {p : Packet} {s : State} (f : State → State) (h : PacketFormed vc s p) (ht : ¬ p.tagGood = true) :
    receive vc p f s = .next (if (wakePort p s).link.retried.contains (seqIx p) then loseLink p.src.toNat (wakePort p s)
      else { wakePort p s with link := { (wakePort p s).link with retried := (wakePort p s).link.retried ++ [seqIx p] } }) := by
  rw [← acceptable_wakePort_iff] at h
  rw [Bool.not_eq_true] at ht
  simp only [receive, h, ht, Bool.not_true, Bool.not_false, Bool.false_eq_true, if_false, if_true]
  split <;> rfl

theorem receive_whole {vc : Nat} {p : Packet} {s : State} (f : State → State) (h : PacketFormed vc s p) (ht : p.tagGood = true) :
    receive vc p f s = .next (f (takeSeq p (wakePort p s))) := by
  rw [← acceptable_wakePort_iff] at h
  simp only [receive, h, ht, Bool.not_true, Bool.false_eq_true, if_false]

/-! ### Requests at their home (R323, R332, R371) -/

section
variable {right : Perm → Bool} {len : Nat} {op : BankOp} {p : Packet} {s : State}

theorem atHome_unformed (h : ¬ PacketFormed 0 s p) : atHome right len op p s = .next (wakePort p s) := by
  have hw : acceptable 0 (wakePort p s) p = false := by rwa [← acceptable_wakePort_iff, Bool.not_eq_true] at h
  unfold atHome
  split
  · exact receive_unformed _ h
  · split
    · exact receive_unformed _ h
    · exact receive_unformed _ h
    · split
      · exact receive_unformed _ h
      · dsimp only
        split
        · exact receive_unformed _ h
        · rw [hw, if_neg Bool.false_ne_true]

theorem atHome_refused (hf : PacketFormed 0 s p) (ht : p.tagGood = true) (h : acceptingVd s p len right = none) :
    atHome right len op p s = .next (refuse p (takeSeq p (wakePort p s))) := by
  simp only [atHome, h, receive_whole _ hf ht]

variable {vd : Nat} {ps : List Place} (hf : PacketFormed 0 s p) (ht : p.tagGood = true) (h : acceptingVd s p len right = some (vd, ps))
include hf ht h

theorem atHome_read : atHome right len .read p s = .next (arriveRead vd (some p) ps (takeSeq p (wakePort p s))) := by
  simp only [atHome, h, receive_whole _ hf ht]

theorem atHome_write (bs : List Byte) :
    atHome right len (.write bs) p s = .next (packetWrite vd p (ps.zip bs) (takeSeq p (wakePort p s))) := by
  simp only [atHome, h, receive_whole _ hf ht]

theorem atHome_arrives (hr : op.reads = true) (hw : op.writes = true) (hone : (placeRuns ps).length = 1) :
    atHome right len op p s = .next (arrive (takeSeq p (wakePort p s)).nextId vd (.packet p) (ps.headD ⟨0, 0, 0⟩) len op
      { takeSeq p (wakePort p s) with nextId := (takeSeq p (wakePort p s)).nextId + 1 }) := by
  cases op with
  | read => exact nomatch hw
  | window => exact nomatch hw
  | write => exact nomatch hr
  | atom | upd => simp only [atHome, h, hone, if_true, receive_whole _ hf ht]

theorem atHome_served (hr : op.reads = true) (hw : op.writes = true) (hmany : (placeRuns ps).length ≠ 1)
    (hopen : ∀ x ∈ ps, s.closed op x = false) :
    atHome right len op p s = .next (serveAt ps ⟨s.nextId, vd, .packet p, 0, 0, len, op, none, true⟩ (takeSeq p (wakePort p s))) := by
  have hshut : ps.filter (s.closed op) = [] := List.filter_eq_nil_iff.mpr fun x hx => by rw [hopen x hx]; exact Bool.false_ne_true
  cases op with
  | read => exact nomatch hw
  | window => exact nomatch hw
  | write => exact nomatch hr
  | atom | upd => simp only [atHome, h, if_neg hmany, hshut, List.isEmpty_nil, if_true, receive_whole _ hf ht]

end

/-- R323, R332: what an instruction that is `atHome` does with a packet that is taken: it refuses it, or the request arrives at the home. -/
def TakenAtHome (s : State) (p : Packet) (t : State) (i : Instr) (right : Perm → Bool) (len : Nat) (op : BankOp) : Prop :=
  let takes (u : State) : Prop := PacketFormed 0 s p → p.tagGood = true → exec i s = .next u
  (acceptingVd s p len right = none → takes (refuse p t)) ∧
  (∀ vd ps, acceptingVd s p len right = some (vd, ps) →
    (op = .read → takes (arriveRead vd (some p) ps t)) ∧
    (∀ bs, op = .write bs → takes (packetWrite vd p (ps.zip bs) t)) ∧
    (op.reads = true → op.writes = true → (placeRuns ps).length = 1 →
      takes (arrive t.nextId vd (.packet p) (ps.headD ⟨0, 0, 0⟩) len op { t with nextId := t.nextId + 1 })) ∧
    (op.reads = true → op.writes = true → (placeRuns ps).length ≠ 1 → (∀ x ∈ ps, s.closed op x = false) →
      takes (serveAt ps ⟨s.nextId, vd, .packet p, 0, 0, len, op, none, true⟩ t)))

theorem takenAtHome_of_exec {i : Instr} {right : Perm → Bool} {len : Nat} {op : BankOp} {p : Packet} {s : State}
    (hex : exec i s = atHome right len op p s) : TakenAtHome s p (takeSeq p (wakePort p s)) i right len op := by
  unfold TakenAtHome
  rw [hex]
  refine ⟨fun h hf ht => atHome_refused hf ht h, fun vd ps h => ⟨?_, ?_, fun hr hw hone hf ht => atHome_arrives hf ht h hr hw hone,
    fun hr hw hmany hopen hf ht => atHome_served hf ht h hr hw hmany hopen⟩⟩
  · rintro rfl hf ht
    exact atHome_read hf ht h
  · rintro bs rfl hf ht
    exact atHome_write hf ht h bs

/-! ### Requests that their banks serve (R138, R145, R148, R324, R332) -/

section
variable {ps : List Place} {q : OutsideReq} {p : Packet} {s : State}

theorem failsAt_of_sound {s : State} (h : s.badWords = []) (stamp : Option Nat) (ps : List Place) : s.failsAt stamp ps = false := by
  rw [State.failsAt, h]
  rfl

theorem partOfBad_of_sound {s : State} (h : s.badWords = []) (ps : List Place) : s.partOfBad ps = false := by
  rw [State.partOfBad, h]
  rfl

theorem ackUser_packet (hq : q.user = .packet p) (t : State) :
    ackUser q t = if t.waiting q.ident then t else respond (t.vd q.vd).seals 7 p 0 0 t := by
  simp only [ackUser, hq]

variable (hbad : (s.recall ps).badWords = [])
include hbad

theorem serveAt_write {bs : List Byte} (hop : q.op = .write bs) :
    serveAt ps q s = ackUser q (serveWrite q (s.recall ps) (ps.zip bs)) := by
  simp only [serveAt, hop, partOfBad_of_sound hbad, Bool.false_eq_true, if_false]

theorem serveAt_upd {ty op v : Nat} (hop : q.op = .upd ty op v) : serveAt ps q s = ackUser q (serveWrite q (s.recall ps)
      (ps.zip (bytesOf ps.length (updCombine ty op (ofBytes (ps.map ((s.recall ps).readAt q.stamp))) v)))) := by
  simp only [serveAt, hop, applyUpdate, failsAt_of_sound hbad, Bool.false_eq_true, if_false]

theorem serveAt_atom (hq : q.user = .packet p) {op d e : Nat} (hop : q.op = .atom op d e) :
    let old := ofBytes (ps.map ((s.recall ps).readAt q.stamp))
    let t := serveWrite q (s.recall ps) (ps.zip (bytesOf ps.length (atomNew op (8 * ps.length) old d e)))
    serveAt ps q s = respond (t.vd q.vd).seals 5 p q.len (BitVec.ofNat 4096 old) t := by
  simp only [serveAt, hop, failsAt_of_sound hbad, Bool.false_eq_true, if_false, answerUser, hq]
  rfl

end

/-! ### Reads of several lines (R332) -/

/-- The read with the bytes of one of its requests. -/
def Gather.filled (g : Gather) (n v : Nat) : Gather :=
  { g with parts := g.parts.map (fun p => if p.1 = n then (p.1, p.2.1, some (bytesOf p.2.1 v)) else p) }

section
variable {n v : Nat} {g : Gather} {p : Packet} {s : State}
  (hfind : s.gathers.find? (fun g => g.parts.any (fun p => p.1 == n)) = some g)
include hfind

theorem answerGather_last (hp : g.packet = some p) (hall : ∀ q ∈ (g.filled n v).parts, q.2.2 ≠ none) :
    let bs := (g.filled n v).parts.flatMap (fun p => p.2.2.getD [])
    answerGather n v s = respond (s.vd g.vd).seals 2 p bs.length (BitVec.ofNat 4096 (ofBytes bs))
      { s with gathers := s.gathers.filter (· != g) } := by
  have hdone : (g.filled n v).parts.all (fun p => p.2.2.isSome) = true :=
    List.all_eq_true.mpr fun q hq => Option.isSome_iff_ne_none.mpr (hall q hq)
  unfold answerGather
  rw [hfind]
  dsimp only
  refine (if_pos hdone).trans ?_
  rw [hp]
  rfl

theorem answerGather_waits (hsome : ∃ q ∈ (g.filled n v).parts, q.2.2 = none) : (answerGather n v s).link = s.link := by
  have hopen : ¬ (g.filled n v).parts.all (fun p => p.2.2.isSome) = true := by
    obtain ⟨q, hq, hnone⟩ := hsome
    intro h
    have := List.all_eq_true.mp h q hq
    rw [hnone] at this
    exact Bool.false_ne_true this
  unfold answerGather
  rw [hfind]
  exact (congrArg State.link (if_neg hopen) :)

end

/-! ### Responses at the requester (R323, R332) -/

section
variable {p : Packet} {s : State} {r : RemoteReq} (hf : PacketFormed 1 s p) (ht : p.tagGood = true)
  (hr : requestOf (takeSeq p (wakePort p s)) p = some r)
include hf ht hr

theorem valueArrives_answers_request :
    valueArrives p s = .next (answered r (p.data.setWidth 512) (takeSeq p (wakePort p s))) := by
  rw [valueArrives, receive_whole _ hf ht, hr]

theorem execAck_acknowledges : execAck p s = .next (acknowledged r (takeSeq p (wakePort p s))) := by
  rw [execAck, receive_whole _ hf ht, hr]

theorem execNack_load (hk : r.kind = .load) (hctx : r.ctx < 11) (hop : p.op = .none)
    (hlines : ∀ e ∈ ((takeSeq p (wakePort p s)).core r.core).copies ++ ((takeSeq p (wakePort p s)).core r.core).mx,
      ∀ l ∈ e.lines, l.1 ≠ r.ident) :
    let t := takeSeq p (wakePort p s)
    execNack p s = .next (answered r 0
      (t.errorRecord r.vd (p.pa.zeroExtend 64) (t.ctx r.core r.ctx).pc 7 0 (Config.syndrome t.errSeq).toNat r.core r.ctx).1) := by
  have hlive : r.orphan = false := decide_eq_false (by omega)
  have hline : ((((takeSeq p (wakePort p s)).core r.core).copies ++ ((takeSeq p (wakePort p s)).core r.core).mx).any
      (fun e => e.lines.any (fun l => l.1 == r.ident))) = false :=
    List.any_eq_false.mpr fun e he => by
      rw [Bool.not_eq_true]
      exact List.any_eq_false.mpr fun l hl => by simpa using hlines e he l hl
  rw [execNack, receive_whole _ hf ht, hr]
  simp only [hlive, hline, hk, refusedKind, hop, Bool.false_eq_true, if_false, Bool.false_or, Bool.not_false, Bool.and_self, if_true]

end

/-! ### Keepalives, losses and keys (R325, R326, R331) -/

theorem sendPacket_mem_reqs (sealing : Bool) (cls : BitVec 8) (p : Packet) (s : State) :
    (sendPacket sealing cls p s).mem = s.mem ∧ (sendPacket sealing cls p s).link.reqs = s.link.reqs := by
  unfold sendPacket
  cases sealing <;> exact ⟨rfl, rfl⟩

theorem execKeepaliveSend_leaves (s : State) :
    ∃ u, execKeepaliveSend s = .next u ∧ u.mem = s.mem ∧ u.link.reqs = s.link.reqs := by
  refine ⟨_, rfl, ?_⟩
  generalize dedup (s.link.reqs.map (·.pkg)) = l
  induction l generalizing s with
  | nil => exact ⟨rfl, rfl⟩
  | cons q r ih =>
    obtain ⟨hmem, hreqs⟩ := sendPacket_mem_reqs false 12 (keepalivePacket s q) s
    obtain ⟨hmem', hreqs'⟩ := ih (sendPacket false 12 (keepalivePacket s q) s)
    exact ⟨hmem'.trans hmem, hreqs'.trans hreqs⟩

theorem loseLink_of_peer {q : Nat} {s : State} (hq : q < 1024) (hne : q ≠ s.pkg) (hlost : s.link.lost.contains q = false) :
    loseLink q s = losePackage q (dropPackage q { s with link := { s.link with lost := s.link.lost ++ [q] } }) := by
  refine if_neg ?_
  rintro (h | h | h)
  · exact hne h
  · exact Bool.false_ne_true (hlost.symm.trans h)
  · omega

theorem lookup_drop {α : Type} (k : Nat) (l : List (Nat × α)) : lookup k (drop k l) = none := by
  induction l with
  | nil => rfl
  | cons e r ih =>
    unfold drop at ih ⊢
    rw [List.filter_cons]
    split
    · next h =>
      rw [lookup, if_neg (fun hk => by simp [hk] at h)]
      exact ih
    · exact ih

theorem linkKeyReplacement_without_session {dom : BitVec 16} {src dst : BitVec 10} {s : State} (h1 : s.sec.spdm.1.established = false)
    (h2 : s.sec.spdm.2.established = false) : execLinkKeyReplacement dom src dst s = .next s := by
  rw [execLinkKeyReplacement, h1, h2]
  rfl

theorem linkKeyReplacement_in_session {dom : BitVec 16} {src dst : BitVec 10} {s : State}
    (h : s.sec.spdm.1.established = true ∨ s.sec.spdm.2.established = true) :
    ∃ u, execLinkKeyReplacement dom src dst s = .next u ∧
      lookup (linkKeyIx dom.toNat src.toNat dst.toNat) u.link.sealedCount = none ∧ u.mem = s.mem := by
  have hgo : (!s.sec.spdm.1.established && !s.sec.spdm.2.established) = false := by
    rcases h with h | h <;> simp [h]
  refine ⟨_, by rw [execLinkKeyReplacement, hgo, if_neg Bool.false_ne_true], ?_, ?_⟩
  · exact lookup_drop _ _
  · rfl

/-! ### Every clause together -/

/-- The packets of channel 0 (R324). -/
noncomputable def requestPackets (p : Packet) : List Instr := [.read p, .write p, .atomic p, .update p]

/-- The other packets, with their channels; a keepalive may come on any (R324, log 42). -/
noncomputable def answerPackets (p : Packet) : List (Nat × Instr) :=
  [(1, .readResp p), (1, .atomicResp p), (1, .ack p), (1, .nack p), (2, .step p), (2, .stepRed p), (2, .stepRes p),
    (min p.vc.toNat 2, .keepalive p)]

/-- Requests go to their home, or are refused there (R323). -/
theorem exec_request_unformed {s : State} {p : Packet} (h : ¬ PacketFormed 0 s p) :
    ∀ i ∈ requestPackets p, exec i s = .next (wakePort p s) := by
  intro i hi
  simp only [requestPackets, List.mem_cons, List.not_mem_nil, or_false] at hi
  rcases hi with rfl | rfl | rfl | rfl
  · exact (exec_read p s).trans (atHome_unformed h)
  · exact (exec_write p s).trans (atHome_unformed h)
  · rw [exec_atomic, execAtomic]
    cases p.op with
    | atom => exact atHome_unformed h
    | none | upd => exact receive_unformed _ h
  · rw [exec_update, execUpdate]
    cases p.op with
    | upd => exact atHome_unformed h
    | none | atom => exact receive_unformed _ h

/-- Every other class is received on its channel (R324, R325). -/
theorem exec_answer_receives (s : State) (p : Packet) : ∀ i ∈ answerPackets p, ∃ f, exec i.2 s = receive i.1 p f s := by
  have hvalue : ∃ f, valueArrives p s = receive 1 p f s := ⟨_, rfl⟩
  intro i hi
  simp only [answerPackets, List.mem_cons, List.not_mem_nil, or_false] at hi
  rcases hi with rfl | rfl | rfl | rfl | rfl | rfl | rfl | rfl
  · exact hvalue.imp fun _ h => (exec_readResp p s).trans h
  · exact hvalue.imp fun _ h => (exec_atomicResp p s).trans h
  · exact ⟨_, exec_ack p s⟩
  · exact ⟨_, exec_nack p s⟩
  · exact ⟨_, exec_step p s⟩
  · exact ⟨_, exec_stepRed p s⟩
  · exact ⟨_, exec_stepRes p s⟩
  · exact ⟨_, exec_keepalive p s⟩

/-- Settles O45: what is out of form by `receive`, requests by `atHome` and `serveAt`, then responses, steps, losses and keys. -/
theorem linkEvents : Obligations.LinkEvents := by
  intro s p q dom src dst formed whole w t t1 both takes request all
  refine ⟨fun i hi hf => ?unformed, fun i hi hf hw => ?broken, takenAtHome_of_exec (exec_read p s), takenAtHome_of_exec (exec_write p s),
    fun o e hop => ?atomic, fun y o hop => ?update, fun ps r hu hbad => ?serve,
    fun n v g hfind hp => ⟨fun hall => answerGather_last hfind hp hall, fun hsome => answerGather_waits hfind hsome⟩,
    fun r hr => ⟨fun hf hw => ?readResp, fun hf hw => ?atomicResp, fun hf hw => ?ack⟩,
    fun r hr hk hctx hop hlines hf hw => ?nack, fun hf hw => ?step, fun hf hw => ?stepRed, fun hf hw => ?stepRes,
    fun hf hw => ?keepalive, ?keepaliveSend, fun hq hne hlost => ?loss, fun h1 h2 => ?keyIdle, fun h => ?key, ?wake⟩
  case unformed =>
    have hall : all = (requestPackets p).map ((0, ·)) ++ answerPackets p := rfl
    rw [hall, List.mem_append, List.mem_map] at hi
    rcases hi with ⟨j, hj, rfl⟩ | hi
    · exact exec_request_unformed hf j hj
    · obtain ⟨f, hex⟩ := exec_answer_receives s p i hi
      exact hex.trans (receive_unformed f hf)
  case broken =>
    obtain ⟨f, hex⟩ := exec_answer_receives s p i hi
    exact hex.trans (receive_broken f hf hw)
  case atomic => exact takenAtHome_of_exec ((exec_atomic p s).trans (by rw [execAtomic, hop]))
  case update => exact takenAtHome_of_exec ((exec_update p s).trans (by rw [execUpdate, hop]))
  case serve =>
    refine ⟨fun bs hop => ?_, fun o d e hop => serveAt_atom hbad hu hop, fun y o v hop => ?_⟩
    · exact (serveAt_write hbad hop).trans (ackUser_packet hu _)
    · exact (serveAt_upd hbad hop).trans (ackUser_packet hu _)
  case readResp => exact (exec_readResp p s).trans (valueArrives_answers_request hf hw hr)
  case atomicResp => exact (exec_atomicResp p s).trans (valueArrives_answers_request hf hw hr)
  case ack => exact (exec_ack p s).trans (execAck_acknowledges hf hw hr)
  case nack => exact (exec_nack p s).trans (execNack_load hf hw hr hk hctx hop hlines)
  case step => exact (exec_step p s).trans (receive_whole _ hf hw)
  case stepRed => exact (exec_stepRed p s).trans (receive_whole _ hf hw)
  case stepRes => exact (exec_stepRes p s).trans (receive_whole _ hf hw)
  case keepalive => exact (exec_keepalive p s).trans (receive_whole _ hf hw)
  case keepaliveSend => exact execKeepaliveSend_leaves s
  case loss => exact congrArg Host.Outcome.next (loseLink_of_peer hq hne hlost)
  case keyIdle => exact (exec_linkKeyReplacement dom src dst s).trans (linkKeyReplacement_without_session h1 h2)
  case key =>
    rw [exec_linkKeyReplacement]
    exact linkKeyReplacement_in_session h
  case wake => exact exec_linkPortWake q s

end Sys2Proof.Machine
end

section
/-! PROOFS. What a write of bytes at their places leaves, byte by byte, and read-modify-writes (O15). -/

namespace Sys2Proof.Machine

/-! ### A cell that is written under a key reads back, and no other cell changes (R306) -/

/-- The column word of the cell holds nothing that was encrypted under another key. -/
def State.Known (s : State) (d k : Nat) : Prop := (lookup (k / 32) s.draws).all (· == d) = true

theorem cell_of_known {s : State} {d k : Nat} (h : s.Known d k) : s.cell d k = Memory.read s.mem k := by
  unfold State.cell
  split
  · rfl
  · next e he =>
    rw [State.Known, he] at h
    exact if_pos (by simpa using h)

theorem known_of_word {s : State} {d k k' : Nat} (hw : k' / 32 = k / 32) (h : s.Known d k) : s.Known d k' := by
  rwa [State.Known, hw]

/-- The memory that the cell is written in: the rest of its column word reads under the key as before. -/
def State.rekeyed (s : State) (d k : Nat) : List Host.Cell :=
  if (lookup (k / 32) s.draws).all (· == d) then s.mem
  else Memory.writeN s.mem (k / 32 * 32) ((List.range 32).map (fun i => s.cell d (k / 32 * 32 + i)))

theorem wf_rekeyed {s : State} (hm : Memory.wf s.mem = true) (d k : Nat) : Memory.wf (s.rekeyed d k) = true := by
  unfold State.rekeyed
  split
  · exact hm
  · exact Memory.wf_writeN _ _ hm

theorem read_rekeyed_word {s : State} (hm : Memory.wf s.mem = true) {d k k' : Nat} (hw : k' / 32 = k / 32) :
    Memory.read (s.rekeyed d k) k' = s.cell d k' := by
  unfold State.rekeyed
  split
  · next h => exact (cell_of_known (known_of_word hw h)).symm
  · have hk : k' = k / 32 * 32 + k' % 32 := by omega
    have hin : k' % 32 < ((List.range 32).map (fun i => s.cell d (k / 32 * 32 + i))).length := by
      simp only [List.length_map, List.length_range]
      omega
    rw [hk, Memory.read_writeN_inside _ _ _ _ hm hin]
    simp

theorem read_rekeyed_other {s : State} {d k k' : Nat} (hw : k' / 32 ≠ k / 32) :
    Memory.read (s.rekeyed d k) k' = Memory.read s.mem k' := by
  unfold State.rekeyed
  split
  · rfl
  · refine Memory.read_writeN_outside _ _ _ _ ?_
    simp only [List.length_map, List.length_range]
    omega

theorem mem_poke (s : State) (d k : Nat) (b : Byte) : (s.poke d k b).mem = Memory.write (s.rekeyed d k) k b := rfl

theorem wf_poke {s : State} (hm : Memory.wf s.mem = true) (d k : Nat) (b : Byte) : Memory.wf (s.poke d k b).mem = true :=
  Memory.wf_write k b (wf_rekeyed hm d k)

theorem known_poke (s : State) (d k : Nat) (b : Byte) : (s.poke d k b).Known d k := by
  unfold State.Known State.poke
  dsimp only
  split
  · next h => exact (Bool.and_eq_true_iff.mp h).1
  · rw [lookup_put_self]
    exact beq_self_eq_true d

theorem lookup_draws_poke_other (s : State) {d k w : Nat} (b : Byte) (hw : w ≠ k / 32) :
    lookup w (s.poke d k b).draws = lookup w s.draws := by
  unfold State.poke
  dsimp only
  split
  · rfl
  · exact lookup_put_ne hw d _

theorem cell_poke_self {s : State} (hm : Memory.wf s.mem = true) (d k : Nat) (b : Byte) : (s.poke d k b).cell d k = b := by
  rw [cell_of_known (known_poke s d k b), mem_poke]
  exact Memory.read_write_same _ _ _ 0 (wf_rekeyed hm d k)

/-- The rest of the column word, read under the key of the write. -/
theorem cell_poke_word {s : State} (hm : Memory.wf s.mem = true) {d k k' : Nat} (b : Byte) (hw : k' / 32 = k / 32) (hne : k' ≠ k) :
    (s.poke d k b).cell d k' = s.cell d k' := by
  rw [cell_of_known (known_of_word hw (known_poke s d k b)), mem_poke, Memory.read_write_ne _ _ hne, read_rekeyed_word hm hw]

theorem read_poke_other {s : State} {d k k' : Nat} (b : Byte) (hw : k' / 32 ≠ k / 32) :
    Memory.read (s.poke d k b).mem k' = Memory.read s.mem k' := by
  rw [mem_poke, Memory.read_write_ne _ _ (by rintro rfl; exact hw rfl), read_rekeyed_other hw]

/-- Every other column word, read under any key. -/
theorem cell_poke_other {s : State} {d d' k k' : Nat} (b : Byte) (hw : k' / 32 ≠ k / 32) :
    (s.poke d k b).cell d' k' = s.cell d' k' := by
  have hblock : Memory.readN (s.poke d k b).mem (k' / 16 * 16) 16 = Memory.readN s.mem (k' / 16 * 16) 16 :=
    List.map_congr_left fun i hi => read_poke_other b (by have := List.mem_range.mp hi; omega)
  rw [State.cell, State.cell, lookup_draws_poke_other s b hw, read_poke_other b hw, hblock]

/-! ### Bytes of a bank by their places (R248, R254, R255) -/

/-- The physical row of a place, by the key of its first cell. -/
def State.rowKey (s : State) (p : Place) : Nat := cellKey p.rank ((s.rank p.rank).phys p.row) 0

/-- The logical row of the place shares its physical row with none of the others (R248). -/
def State.Apart (s : State) (ps : List Place) (x : Place) : Prop := ∀ p ∈ ps, s.rowKey x = s.rowKey p → x.rank = p.rank ∧ x.row = p.row

def Place.Inside (x : Place) : Prop := x.byte < 1024 ∧ x.row < 65536

/-- No held write is over the place, or a write to it would be held (R255). -/
def State.Free (s : State) (p : Place) : Prop :=
  s.inFootprint p.rank p.row = true ∨ (s.rank p.rank).heldByte (p.row * 1024 + p.byte) = none

/-- Where bytes lie and under which keys, and which writes are held, is as before. -/
structure SameLayout (s t : State) : Prop where
  phys : ∀ r, (t.rank r).phys = (s.rank r).phys
  draw : t.drawAt = s.drawAt
  foot : t.inFootprint = s.inFootprint

namespace SameLayout

theorem refl (s : State) : SameLayout s s := ⟨fun _ => rfl, rfl, rfl⟩

theorem trans {s t u : State} (h : SameLayout s t) (g : SameLayout t u) : SameLayout s u :=
  ⟨fun r => (g.phys r).trans (h.phys r), g.draw.trans h.draw, g.foot.trans h.foot⟩

theorem apart {s t : State} (h : SameLayout s t) {ps : List Place} {x : Place} (ha : s.Apart ps x) : t.Apart ps x := by
  unfold State.Apart State.rowKey at ha ⊢
  simpa only [h.phys] using ha

end SameLayout

/-- What a write of bytes at their places leaves: they read back where no held write is over them, and every other byte is as it was. -/
structure Writes (s t : State) (l : List (Place × Byte)) : Prop where
  wf : Memory.wf t.mem = true
  layout : SameLayout s t
  reads : ∀ e ∈ l, s.Free e.1 → t.readByte e.1 = e.2
  keeps : ∀ x, x.Inside → s.Apart (l.map Prod.fst) x → x ∉ l.map Prod.fst → t.readByte x = s.readByte x
  held : ∀ x, x.Inside → x ∉ l.map Prod.fst →
    (t.rank x.rank).heldByte (x.row * 1024 + x.byte) = (s.rank x.rank).heldByte (x.row * 1024 + x.byte)

/-- The places of a write: each once, in its row, and its row apart from the others. -/
structure Placed (s : State) (l : List (Place × Byte)) : Prop where
  nodup : (l.map Prod.fst).Nodup
  inside : ∀ p ∈ l.map Prod.fst, p.Inside
  apart : ∀ p ∈ l.map Prod.fst, s.Apart (l.map Prod.fst) p

theorem Writes.nil {s : State} (hm : Memory.wf s.mem = true) : Writes s s [] :=
  ⟨hm, .refl s, nofun, fun _ _ _ _ => rfl, fun _ _ _ => rfl⟩

theorem Placed.left {s : State} {l r : List (Place × Byte)} (h : Placed s (l ++ r)) : Placed s l := by
  obtain ⟨hn, hi, ha⟩ := h
  rw [List.map_append] at hn hi ha
  exact ⟨hn.of_append_left, fun p hp => hi p (List.mem_append_left _ hp),
    fun p hp q hq => ha p (List.mem_append_left _ hp) q (List.mem_append_left _ hq)⟩

theorem Placed.right {s t : State} (hs : SameLayout s t) {l r : List (Place × Byte)} (h : Placed s (l ++ r)) : Placed t r := by
  obtain ⟨hn, hi, ha⟩ := h
  rw [List.map_append] at hn hi ha
  exact ⟨hn.of_append_right, fun p hp => hi p (List.mem_append_right _ hp),
    fun p hp => hs.apart fun q hq => ha p (List.mem_append_right _ hp) q (List.mem_append_right _ hq)⟩

/-- One write after the other. -/
theorem Writes.append {s t u : State} {l r : List (Place × Byte)} (hp : Placed s (l ++ r)) (h : Writes s t l) (g : Writes t u r) :
    Writes s u (l ++ r) where
  wf := g.wf
  layout := h.layout.trans g.layout
  reads e he hfree := by
    obtain ⟨hnodup, hinside, hapart⟩ := hp
    rw [List.map_append] at hnodup hinside hapart
    have hdisj := List.disjoint_of_nodup_append hnodup
    rcases List.mem_append.mp he with hl | hr
    · have hkey := List.mem_map_of_mem (f := Prod.fst) hl
      rw [g.keeps e.1 (hinside _ (List.mem_append_left _ hkey)) (h.layout.apart fun p hp =>
        hapart _ (List.mem_append_left _ hkey) p (List.mem_append_right _ hp)) (hdisj hkey), h.reads e hl hfree]
    · have hkey := List.mem_map_of_mem (f := Prod.fst) hr
      refine g.reads e hr ?_
      rw [State.Free, h.layout.foot, h.held e.1 (hinside _ (List.mem_append_right _ hkey)) (fun hl => hdisj hl hkey)]
      exact hfree
  keeps x hx ha hne := by
    rw [List.map_append] at ha hne
    obtain ⟨hl, hr⟩ := not_or.mp (mt List.mem_append.mpr hne)
    rw [g.keeps x hx (h.layout.apart fun p hp => ha p (List.mem_append_right _ hp)) hr,
      h.keeps x hx (fun p hp => ha p (List.mem_append_left _ hp)) hl]
  held x hx hne := by
    rw [List.map_append] at hne
    obtain ⟨hl, hr⟩ := not_or.mp (mt List.mem_append.mpr hne)
    rw [g.held x hx hr, h.held x hx hl]

/-! ### A byte that is written in its bank -/

theorem cellKey_eq (r k b : Nat) : cellKey r k b = cellKey r k 0 + b := by
  unfold cellKey
  omega

theorem rowKey_mod (s : State) (p : Place) : s.rowKey p % 1024 = 0 := by
  unfold State.rowKey cellKey
  omega

theorem bankByte_eq (s : State) (p : Place) : s.bankByte p = s.cell (s.drawAt p.rank p.row) (s.rowKey p + p.byte) := by
  rw [State.bankByte, cellKey_eq, State.rowKey]

theorem pokeByte_eq (s : State) (p : Place) (b : Byte) : s.pokeByte p b = s.poke (s.drawAt p.rank p.row) (s.rowKey p + p.byte) b := by
  rw [State.pokeByte, cellKey_eq, State.rowKey]

theorem SameLayout.pokeByte (s : State) (p : Place) (b : Byte) : SameLayout s (s.pokeByte p b) := ⟨fun _ => rfl, rfl, rfl⟩

theorem bankByte_pokeByte_self {s : State} (hm : Memory.wf s.mem = true) (p : Place) (b : Byte) : (s.pokeByte p b).bankByte p = b := by
  rw [bankByte_eq, pokeByte_eq]
  exact cell_poke_self hm _ _ _

theorem bankByte_pokeByte_other {s : State} (hm : Memory.wf s.mem = true) {p x : Place} (b : Byte) (hx : x.Inside) (hp : p.Inside)
    (ha : s.Apart [p] x) (hne : x ≠ p) : (s.pokeByte p b).bankByte x = s.bankByte x := by
  rw [bankByte_eq, bankByte_eq, pokeByte_eq]
  show (s.poke _ _ b).cell (s.drawAt x.rank x.row) (s.rowKey x + x.byte) = _
  obtain ⟨hbx, -⟩ := hx
  obtain ⟨hbp, -⟩ := hp
  have hmx := rowKey_mod s x
  have hmp := rowKey_mod s p
  by_cases hw : (s.rowKey x + x.byte) / 32 = (s.rowKey p + p.byte) / 32
  · have hrow : s.rowKey x = s.rowKey p := by omega
    obtain ⟨hrank, hlog⟩ := ha p List.mem_cons_self hrow
    have hbyte : x.byte ≠ p.byte := fun h => hne (by cases x; cases p; simp_all)
    rw [hrank, hlog]
    exact cell_poke_word hm b hw (by omega)
  · exact cell_poke_other b hw

theorem readByte_of_unheld {s : State} {p : Place} (h : (s.rank p.rank).heldByte (p.row * 1024 + p.byte) = none) :
    s.readByte p = s.bankByte p := by
  rw [State.readByte, h]
  rfl

theorem Writes.pokeByte {s : State} (hm : Memory.wf s.mem = true) {p : Place} (b : Byte) (hp : p.Inside)
    (hf : s.inFootprint p.rank p.row = false) : Writes s (s.pokeByte p b) [(p, b)] where
  wf := wf_poke hm _ _ _
  layout := .pokeByte s p b
  reads e he hfree := by
    obtain rfl := List.mem_singleton.mp he
    have hheld := hfree.resolve_left (by rw [hf]; exact Bool.false_ne_true)
    exact (readByte_of_unheld (s := s.pokeByte p b) hheld).trans (bankByte_pokeByte_self hm p b)
  keeps x hx ha hne := by
    have hbank := bankByte_pokeByte_other hm b hx hp ha (fun h => hne (List.mem_singleton.mpr h))
    rw [State.readByte, State.readByte, hbank]
    rfl
  held _ _ _ := rfl

/-! ### Runs of bytes -/

/-- The bytes of a run at their places. -/
def runBytes (run : Place × List Byte) : List (Place × Byte) :=
  run.2.zipIdx.map (fun bi => ({ run.1 with byte := run.1.byte + bi.2 }, bi.1))

theorem runBytes_cons (p : Place) (b : Byte) (bs : List Byte) :
    runBytes (p, b :: bs) = (p, b) :: runBytes ({ p with byte := p.byte + 1 }, bs) := by
  simp only [runBytes, List.zipIdx_cons, List.map_cons, Nat.add_zero, Nat.zero_add, List.zipIdx_succ, List.map_map]
  congr 1
  refine List.map_congr_left fun a _ => ?_
  simp only [Function.comp_apply, Nat.add_assoc, Nat.add_comm 1]

/-- The runs hold the bytes at their places, in order. -/
theorem runBytes_runsOf (l : List (Place × Byte)) : (runsOf l).flatMap runBytes = l := by
  induction l with
  | nil => rfl
  | cons e r ih =>
    obtain ⟨p, b⟩ := e
    unfold runsOf
    split
    · next q bs rest hr =>
      rw [hr, List.flatMap_cons] at ih
      split
      · next h =>
        obtain ⟨hrank, hrow, hbyte, -⟩ := h
        have hq : ({ p with byte := p.byte + 1 } : Place) = q := by cases q; simp_all
        rw [List.flatMap_cons, runBytes_cons, hq, List.cons_append, ih]
      · rw [List.flatMap_cons, List.flatMap_cons, ih]
        rfl
    · next hr =>
      rw [hr] at ih
      rw [← ih]
      rfl

theorem mem_runBytes {run : Place × List Byte} {e : Place × Byte} (h : e ∈ runBytes run) :
    ∃ (i : Nat) (hi : i < run.2.length), e = ({ run.1 with byte := run.1.byte + i }, run.2[i]) := by
  obtain ⟨⟨b, i⟩, hb, rfl⟩ := List.mem_map.mp h
  obtain ⟨-, hi, hval⟩ := List.mem_zipIdx hb
  rw [Nat.zero_add] at hi
  exact ⟨i, hi, by simp [hval]⟩

theorem runBytes_mem (run : Place × List Byte) {i : Nat} (hi : i < run.2.length) :
    ({ run.1 with byte := run.1.byte + i }, run.2[i]) ∈ runBytes run :=
  List.mem_map.mpr ⟨(run.2[i], i), List.mk_mem_zipIdx_iff_getElem?.mpr (List.getElem?_eq_getElem hi), rfl⟩

theorem Writes.pokeBytes {s : State} {l : List (Place × Byte)} (hm : Memory.wf s.mem = true) (hp : Placed s l)
    (hf : ∀ e ∈ l, s.inFootprint e.1.rank e.1.row = false) : Writes s (l.foldl (fun s e => s.pokeByte e.1 e.2) s) l := by
  induction l generalizing s with
  | nil => exact .nil hm
  | cons e r ih =>
    have hfirst : Writes s (s.pokeByte e.1 e.2) [e] := .pokeByte hm e.2 (hp.inside _ List.mem_cons_self) (hf e List.mem_cons_self)
    refine .append (l := [e]) hp hfirst (ih hfirst.wf (hp.right (l := [e]) hfirst.layout) fun x hx => ?_)
    exact hf x (List.mem_cons_of_mem _ hx)

/-- The youngest of the held writes is the last (R255). -/
theorem heldByte_append (k : Rank) (h : HeldWrite) (n : Nat) : { k with held := k.held ++ [h] }.heldByte n =
    if h.at_ ≤ n ∧ n < h.at_ + h.data.length then h.data[n - h.at_]? else k.heldByte n := by
  unfold Rank.heldByte
  rw [List.foldl_append]
  rfl

/-- The run is held (R255). -/
def State.holdRun (s : State) (run : Place × List Byte) : State :=
  s.updRank run.1.rank (fun k => { k with held := k.held ++ [⟨run.1.row * 1024 + run.1.byte, run.2⟩] })

theorem SameLayout.holdRun (s : State) (run : Place × List Byte) : SameLayout s (s.holdRun run) where
  phys r := by
    unfold State.holdRun
    by_cases h : r = run.1.rank
    · rw [h, rank_updRank]
      rfl
    · rw [rank_updRank_ne s _ h]
  draw := rfl
  foot := rfl

theorem bankByte_holdRun (s : State) (run : Place × List Byte) (x : Place) : (s.holdRun run).bankByte x = s.bankByte x := by
  rw [State.bankByte, State.bankByte, (SameLayout.holdRun s run).phys]
  rfl

theorem heldByte_holdRun_inside (s : State) (run : Place × List Byte) {i : Nat} (hi : i < run.2.length) :
    ((s.holdRun run).rank run.1.rank).heldByte (run.1.row * 1024 + (run.1.byte + i)) = some run.2[i] := by
  rw [State.holdRun, rank_updRank, heldByte_append, if_pos (by dsimp only; omega)]
  dsimp only
  rw [show run.1.row * 1024 + (run.1.byte + i) - (run.1.row * 1024 + run.1.byte) = i by omega, List.getElem?_eq_getElem hi]

theorem heldByte_holdRun_outside {s : State} {run : Place × List Byte} (hin : ∀ p ∈ (runBytes run).map Prod.fst, p.Inside) {x : Place}
    (hx : x.Inside) (hne : x ∉ (runBytes run).map Prod.fst) :
    ((s.holdRun run).rank x.rank).heldByte (x.row * 1024 + x.byte) = (s.rank x.rank).heldByte (x.row * 1024 + x.byte) := by
  have hrun (i : Nat) (hi : i < run.2.length) : ({ run.1 with byte := run.1.byte + i } : Place) ∈ (runBytes run).map Prod.fst :=
    List.mem_map_of_mem (f := Prod.fst) (runBytes_mem run hi)
  unfold State.holdRun
  by_cases hr : x.rank = run.1.rank
  · rw [hr, rank_updRank, heldByte_append, if_neg]
    dsimp only
    rintro ⟨hlo, hhi⟩
    have hlast := hin _ (hrun (run.2.length - 1) (by omega))
    obtain ⟨hlast, -⟩ := hlast
    dsimp only at hlast
    obtain ⟨hbyte, -⟩ := hx
    have hrow : x.row = run.1.row := by omega
    have hi : x.byte - run.1.byte < run.2.length := by omega
    have hplace : ({ run.1 with byte := run.1.byte + (x.byte - run.1.byte) } : Place) = x := by
      dsimp only
      rw [← hr, ← hrow, Nat.add_sub_cancel' (by omega)]
    exact hne (hplace ▸ hrun (x.byte - run.1.byte) hi)
  · rw [rank_updRank_ne s _ hr]

theorem Writes.holdRun {s : State} (hm : Memory.wf s.mem = true) {run : Place × List Byte}
    (hin : ∀ p ∈ (runBytes run).map Prod.fst, p.Inside) : Writes s (s.holdRun run) (runBytes run) where
  wf := hm
  layout := .holdRun s run
  reads e he _ := by
    obtain ⟨i, hi, rfl⟩ := mem_runBytes he
    rw [State.readByte, heldByte_holdRun_inside s run hi]
    rfl
  keeps x hx _ hne := by rw [State.readByte, State.readByte, heldByte_holdRun_outside hin hx hne, bankByte_holdRun]
  held x hx hne := heldByte_holdRun_outside hin hx hne

theorem Writes.writeRun {s : State} (hm : Memory.wf s.mem = true) {run : Place × List Byte} (hp : Placed s (runBytes run)) :
    Writes s (s.writeRun run) (runBytes run) := by
  unfold State.writeRun
  split
  · exact .holdRun hm hp.inside
  · next hf =>
    have hbytes : run.2.zipIdx.foldl (fun s bi => s.pokeByte { run.1 with byte := run.1.byte + bi.2 } bi.1) s =
        (runBytes run).foldl (fun s e => s.pokeByte e.1 e.2) s := by rw [runBytes, List.foldl_map]
    rw [hbytes]
    refine .pokeBytes hm hp fun e he => ?_
    obtain ⟨i, -, rfl⟩ := mem_runBytes he
    exact Bool.not_eq_true _ ▸ hf

theorem Writes.writeRuns {s : State} {runs : List (Place × List Byte)} (hm : Memory.wf s.mem = true)
    (hp : Placed s (runs.flatMap runBytes)) : Writes s (runs.foldl (fun s run => s.writeRun run) s) (runs.flatMap runBytes) := by
  induction runs generalizing s with
  | nil => exact .nil hm
  | cons run r ih =>
    have hfirst := Writes.writeRun hm hp.left
    exact .append hp hfirst (ih hfirst.wf (hp.right hfirst.layout))

/-! ### What follows a write leaves its bytes (R217, R338, R342) -/

/-- Everything that the bytes of the banks depend on is as before. -/
structure SameBanks (s t : State) : Prop where
  mem : t.mem = s.mem
  draws : t.draws = s.draws
  ranks : t.ranks = s.ranks
  courses : t.courses = s.courses
  perms : t.perms = s.perms
  keys : ∀ v, (t.vd v).keys = (s.vd v).keys

namespace SameBanks

theorem trans {s t u : State} (h : SameBanks s t) (g : SameBanks t u) : SameBanks s u :=
  ⟨g.mem.trans h.mem, g.draws.trans h.draws, g.ranks.trans h.ranks, g.courses.trans h.courses, g.perms.trans h.perms,
    fun v => (g.keys v).trans (h.keys v)⟩

theorem soundAgain (s : State) (cells : List Nat) : SameBanks s (s.soundAgain cells) := by
  unfold State.soundAgain
  split <;> exact ⟨rfl, rfl, rfl, rfl, rfl, fun _ => rfl⟩

theorem dropLines (s : State) (keys : List Nat) (keep : Option (Nat × L1Line)) : SameBanks s (s.dropLines keys keep) := by
  unfold State.dropLines
  split <;> exact ⟨rfl, rfl, rfl, rfl, rfl, fun _ => rfl⟩

/-- A VD that is woken keeps its keys. -/
theorem wakeLines (s : State) (lines : List Nat) : SameBanks s (s.wakeLines lines) where
  mem := rfl
  draws := rfl
  ranks := rfl
  courses := rfl
  perms := rfl
  keys v := by
    unfold State.vd State.wakeLines
    dsimp only
    generalize s.vds = l
    induction l with
    | nil => rfl
    | cons e r ih =>
      rw [List.map_cons]
      obtain ⟨k, w⟩ := e
      dsimp only
      by_cases hk : v = k
      · subst hk
        split <;> simp [lookup]
      · split <;> simpa [lookup, hk] using ih

theorem wrote (s : State) (ps : List Place) (keep : Option (Nat × L1Line)) (row : Place → Nat) : SameBanks s (s.wrote ps keep row) :=
  ((soundAgain s _).trans (wakeLines _ _)).trans (dropLines _ _ _)

section
variable {s t : State} (h : SameBanks s t)
include h

theorem rank (r : Nat) : t.rank r = s.rank r := by rw [State.rank, State.rank, h.ranks]

theorem layout : SameLayout s t where
  phys r := by rw [h.rank]
  draw := by
    funext r row
    rw [State.drawAt, State.drawAt, State.permsAt, State.permsAt, h.perms]
    simp only [h.keys]
  foot := by
    funext r row
    rw [State.inFootprint, State.inFootprint, h.courses]

theorem readByte (x : Place) : t.readByte x = s.readByte x := by
  have hcell (d k : Nat) : t.cell d k = s.cell d k := by rw [State.cell, State.cell, h.draws, h.mem]
  rw [State.readByte, State.readByte, State.bankByte, State.bankByte, hcell, h.layout.draw, h.rank]

end

end SameBanks

theorem Writes.followed {s t u : State} {l : List (Place × Byte)} (h : Writes s t l) (g : SameBanks t u) : Writes s u l where
  wf := by rw [g.mem]; exact h.wf
  layout := h.layout.trans g.layout
  reads e he hf := (g.readByte _).trans (h.reads e he hf)
  keeps x hx ha hne := (g.readByte _).trans (h.keeps x hx ha hne)
  held x hx hne := by rw [g.rank]; exact h.held x hx hne

/-- Bytes written at their places read back, and no other byte changes. -/
theorem Writes.writePlaces {s : State} {l : List (Place × Byte)} (hm : Memory.wf s.mem = true) (hp : Placed s l)
    (keep : Option (Nat × L1Line)) : Writes s (s.writePlaces l keep) l := by
  have hall : (runsOf l).flatMap runBytes = l := runBytes_runsOf l
  have hruns : Writes s ((runsOf l).foldl (fun s run => s.writeRun run) s) ((runsOf l).flatMap runBytes) :=
    .writeRuns hm (by rwa [hall])
  rw [hall] at hruns
  exact hruns.followed (.wrote _ _ _ _)

/-! ### Read-modify-writes (R146) -/

theorem recall_of_none {s : State} {ps : List Place} (h : s.updatesOf (ps.map (fun p => p.key / 64)) = []) : s.recall ps = s := by
  rw [State.recall, State.recallKeys, h]
  rfl

/-- No update-only line of these places is in an L1: the old value is as read, and the new one is written. -/
theorem rmwHome_of_none {s : State} {ps : List Place} (h : s.updatesOf (ps.map (fun p => p.key / 64)) = []) (f : Nat → Nat) :
    rmwHome ps f s = (s.writePlaces (ps.zip (bytesOf ps.length (f (ofBytes (ps.map s.readByte))))), ofBytes (ps.map s.readByte)) := by
  rw [rmwHome, recall_of_none h]

theorem map_fst_zip_bytesOf (ps : List Place) (v : Nat) : (ps.zip (bytesOf ps.length v)).map Prod.fst = ps :=
  List.map_fst_zip (Nat.le_of_eq (length_bytesOf _ _).symm)

/-- R146, R248: byte by byte. -/
theorem rmwHome_reads_back {s : State} {ps : List Place} (f : Nat → Nat) (hm : Memory.wf s.mem = true) (hnodup : ps.Nodup)
    (hps : ∀ p ∈ ps, p.Inside ∧ s.Apart ps p ∧ s.Free p) (h : s.updatesOf (ps.map (fun p => p.key / 64)) = []) :
    (rmwHome ps f s).2 = ofBytes (ps.map s.readByte) ∧
    (∀ i (hi : i < ps.length), (rmwHome ps f s).1.readByte ps[i] = BitVec.ofNat 8 (f (ofBytes (ps.map s.readByte)) / 256 ^ i)) ∧
    ∀ x, x.Inside → s.Apart ps x → x ∉ ps → (rmwHome ps f s).1.readByte x = s.readByte x := by
  rw [rmwHome_of_none h]
  generalize f (ofBytes (ps.map s.readByte)) = v
  have hkeys := map_fst_zip_bytesOf ps v
  have hplaced : Placed s (ps.zip (bytesOf ps.length v)) :=
    ⟨by rwa [hkeys], by rw [hkeys]; exact fun p hp => (hps p hp).1, by rw [hkeys]; exact fun p hp => (hps p hp).2.1⟩
  have hw := Writes.writePlaces hm hplaced none
  refine ⟨rfl, fun i hi => ?_, fun x hx ha hne => hw.keeps x hx (by rwa [hkeys]) (by rwa [hkeys])⟩
  have hlen : i < (bytesOf ps.length v).length := by rwa [length_bytesOf]
  have hmem : (ps[i], (bytesOf ps.length v)[i]) ∈ ps.zip (bytesOf ps.length v) := by
    have hzip : i < (ps.zip (bytesOf ps.length v)).length := by rw [List.length_zip, length_bytesOf, Nat.min_self]; exact hi
    exact List.getElem_zip (h := hzip) ▸ List.getElem_mem hzip
  exact (hw.reads _ hmem (hps _ (List.getElem_mem hi)).2.2).trans (getElem_bytesOf v hlen)

end Sys2Proof.Machine
end

section
/-! PROOFS. Whose turn it is while an access translates (O15). -/

namespace Sys2Proof.Machine

/-! ### Translating an access moves no turn

What translates an access reads, writes and records at the banks of the package, and evicts lines of L1s, on behalf of the context whose
turn it is. -/

/-- The turn is still the same context's. -/
def SameTurn (s t : State) : Prop := t.cur = s.cur

namespace SameTurn

theorem trans {s t u : State} (h : SameTurn s t) (g : SameTurn t u) : SameTurn s u := Eq.trans g h

theorem foldl {α : Type} {f : State → α → State} (hf : ∀ s a, SameTurn s (f s a)) (l : List α) (s : State) : SameTurn s (l.foldl f s) := by
  induction l generalizing s with
  | nil => rfl
  | cons a r ih => exact (hf s a).trans (ih (f s a))

theorem ite {s t u : State} {c : Prop} [Decidable c] (h : SameTurn s t) (g : SameTurn s u) : SameTurn s (if c then t else u) := by
  split
  · exact h
  · exact g

/-! Writes, and records of errors. -/

theorem writePlaces (s : State) (ps : List (Place × Byte)) (keep : Option (Nat × L1Line)) : SameTurn s (s.writePlaces ps keep) := by
  have hrun (t : State) (run : Place × List Byte) : SameTurn t (t.writeRun run) := by
    refine .ite rfl (foldl ?_ _ t)
    exact fun _ _ => rfl
  have hsound (t : State) (cells : List Nat) : SameTurn t (t.soundAgain cells) := .ite rfl rfl
  have hdrop (t : State) (keys : List Nat) : SameTurn t (t.dropLines keys keep) := .ite rfl rfl
  exact (foldl hrun _ s).trans ((hsound _ _).trans (hdrop (State.wakeLines _ _) _))

theorem wakeBanks (s : State) (ps : List Place) : SameTurn s (s.wakeBanks ps) := by
  have hchannel (t : State) (ch : Nat) : SameTurn t (wakeChannel ch t) := by
    refine foldl (fun u r => ?_) _ { t with asleep := t.asleep.filter (· != ch) }
    exact .ite rfl rfl
  exact .ite rfl (foldl hchannel _ s)

theorem devWrite (s : State) (pa : Nat) (bs : List Byte) : SameTurn s (s.devWrite pa bs) := by
  have hrun (t : State) (r : Place × List Byte) : SameTurn t (t.devRun t.nextId r) := .ite rfl (.ite rfl (writePlaces t _ _))
  exact (wakeBanks s _).trans (foldl hrun _ _)

theorem logRecord (s : State) (bs : List Byte) : SameTurn s (s.logRecord bs).1 := by
  have h : ∃ log, (s.logRecord bs).1 = { s with errlog := log, errSeq := s.errSeq + 1 } := ⟨_, rfl⟩
  obtain ⟨log, h⟩ := h
  rw [h]
  rfl

theorem interrupt (s : State) (vd : Nat) (ident : BitVec 32) : SameTurn s (s.interrupt vd ident) := .ite rfl rfl

theorem recordFor (s : State) (vd : Option Nat) (addr pc : W64) (source kind syndrome core ctx : Nat) :
    SameTurn s (s.recordFor vd addr pc source kind syndrome core ctx).1 := by
  cases vd with
  | none =>
    obtain ⟨bs, h⟩ := recordFor_none s addr pc source kind syndrome core ctx
    rw [h]
    exact logRecord s bs
  | some v =>
    obtain ⟨bs, h⟩ := recordFor_some s v addr pc source kind syndrome core ctx
    have hring : SameTurn s (s.ringEntry v bs).1 := devWrite s _ bs
    rw [h]
    exact (hring.trans (interrupt _ v 2)).trans (logRecord _ bs)

/-! Lines that leave an L1, and reads of the device. -/

theorem mergeWord (now : Bool) (c : Nat) (l : L1Line) (u : UpdLine) (off v : Nat) (s : State) :
    SameTurn s (mergeWord now c l u off v s) := by
  have happly (t : State) (ps : List Place) : SameTurn t (applyUpdate l.vd none ps u.ty u.op v State.writePlaces t) := by
    unfold applyUpdate
    exact .ite (recordFor _ _ _ _ _ _ _ _ _) (writePlaces _ _ _)
  unfold Machine.mergeWord
  dsimp only
  split
  · exact wakeBanks s _
  · exact (wakeBanks s _).trans (happly _ _)

theorem mergeLine (now : Bool) (c : Nat) (s : State) (l : L1Line) : SameTurn s (mergeLine now c s l) := by
  unfold Machine.mergeLine
  split
  · rfl
  · next u _ =>
    refine foldl ?_ _ s
    exact fun t w => mergeWord now c l u w.1 w.2 t

theorem evictLine (s : State) (c : Nat) (l : L1Line) (now : Bool) : SameTurn s (s.evictLine c l now) :=
  trans (t := s.updCore c (fun k => { k with l1 := k.l1.filter (· != l) })) rfl (mergeLine now c _ l)

theorem devRead (s : State) (pa len : Nat) : SameTurn s (s.devRead pa len).1 := by
  have hrecall (t : State) (ps : List Place) : SameTurn t (t.recall ps) := by
    refine foldl ?_ _ t
    exact fun t e => evictLine t e.1 e.2 true
  have hcomes (ps : List Place) : SameTurn s (s.comes ps) := .ite (wakeBanks s ps) ((wakeBanks s ps).trans (hrecall _ ps))
  unfold State.devRead
  split
  · rfl
  · dsimp only
    split
    · exact (hcomes _).trans (recordFor _ _ _ _ _ _ _ _ _)
    · exact hcomes _

/-! Translation. -/

theorem walkLevels (va left : Nat) (s : State) (t : Nat) : SameTurn s (walkLevels va left s t).1 := by
  induction left generalizing s t with
  | zero => rfl
  | succ n ih =>
    have hread := devRead s (t + 8 * (va / 2 ^ (55 - 13 * (3 - n)) % 8192)) 8
    unfold Machine.walkLevels
    dsimp only
    split
    · next h => rwa [h] at hread
    · next h =>
      rw [h] at hread
      split
      · exact hread
      · split
        · split <;> exact hread
        · exact hread.trans (ih _ _)

theorem walk (s : State) (die vd va : Nat) (k : AccessKind) : SameTurn s (walk s die vd va k).1 := by
  have hlevels := walkLevels va 3 s (s.vd vd).desc.ptroot.toNat
  have hcache (t : State) (l : Tlb) : SameTurn t (t.cacheLeaf l) := .ite rfl rfl
  unfold Machine.walk
  dsimp only
  split
  · rfl
  · split
    · split <;> rfl
    · split
      · exact hlevels
      · split
        · exact hlevels
        · split
          · exact hlevels
          · split
            · exact hlevels
            · rw [apply_ite Prod.fst, ite_self]
              exact hlevels.trans (.trans (.ite rfl (devWrite _ _ _)) (hcache _ _))

theorem rangeOf {tr : State → Nat → Nat → State × Walk} (htr : ∀ s va n, SameTurn s (tr s va n).1) (fuel : Nat) (s : State)
    (va len : Nat) : SameTurn s (rangeOf tr fuel s va len).1 := by
  induction fuel generalizing s va len with
  | zero => rfl
  | succ n ih =>
    have hfirst := htr s va (min len (65536 - va % 65536))
    unfold Machine.rangeOf
    dsimp only
    split
    · next s1 pa h =>
      rw [h] at hfirst
      have hrest := ih s1 ((va + min len (65536 - va % 65536)) % 2 ^ 55) (len - min len (65536 - va % 65536))
      split
      · exact hfirst
      · split
        · next h2 => rw [h2] at hrest; exact hfirst.trans hrest
        · next h2 => rw [h2] at hrest; exact hfirst.trans hrest
    · next h => rwa [h] at hfirst

theorem translate (s : State) (c : Nat) (k : AccessKind) (u : Option (Nat × Nat)) (va len : Nat) :
    SameTurn s (s.translate c k u va len).1 := by
  refine rangeOf (fun t va n => ?_) _ s va len
  unfold State.translatePart
  dsimp only
  split
  · split
    · rfl
    · exact walk t _ _ va k
  · exact walk t _ _ va k

theorem mergeOwn (s : State) (c : Nat) (u : Option (Nat × Nat)) (va len : Nat) : SameTurn s (s.mergeOwn c u va len) := by
  refine foldl (fun t x => ?_) _ s
  split
  · exact .ite (evictLine t _ _ _) rfl
  · rfl

end SameTurn

/-- An atomic or an update that reaches its target does so in the turn of its context. -/
theorem sameTurn_of_reach {s t : State} {va len : Nat} {u : Option (Nat × Nat)} {tg : Target}
    (h : reach va len .atomic true u s = .ok (tg, t)) : SameTurn s t := by
  have hmoved := (SameTurn.mergeOwn s s.cur.core u va len).trans (SameTurn.translate _ s.cur.core .atomic u va len)
  unfold reach at h
  rw [if_neg (by decide), if_neg (by decide)] at h
  dsimp only at h
  split at h
  · exact nomatch h
  · exact nomatch h
  · split at h
    · next s1 pas hr =>
      rw [hr] at hmoved
      obtain ⟨rfl, rfl⟩ := Prod.mk.inj (Except.ok.inj h)
      rw [if_neg (fun hload => absurd hload.1 (by decide))]
      exact hmoved.trans (.wakeBanks _ _)
    · exact nomatch h
    · exact nomatch h
    · exact nomatch h

end Sys2Proof.Machine
end

section
/-! PROOFS. Atomics and updates (O15). -/

namespace Sys2Proof.Machine

/-! ### Atomics at home (R145) -/

/-- Where an atomic waits does not depend on its op (R371). -/
theorem busy_atom (s : State) (op : Nat) (ps : List Place) : s.busy (.atom op 0 0) ps = s.busy (.atom 0 0 0) ps := rfl

theorem atomOp_home {i : Instr} {st : BitVec 3} {d a b : BitVec 5} {size op : Nat} {ps : List Place} {s t : State} (hg : s.Admits i)
    (hc : s.Clear (atomOperands a b op) (some (.int d)))
    (halign : (va55 (arg1 (s.values (atomOperands a b op)) 0)).toNat % size = 0) (hrel : s.releasable = true)
    (hreach : s.ReachesHome (va55 (arg1 (s.values (atomOperands a b op)) 0)).toNat size .atomic true true ps t)
    (hbusy : t.busy (.atom 0 0 0) ps = false)
    (hsound : ∀ p ∈ ps, (t.recall ps).badWords.contains ((t.recall ps).wordAt none p) = false) :
    let vs := s.values (atomOperands a b op)
    let r := rmwHome ps (fun old => atomNew op (8 * size) old (wd (arg vs 1) (if op == 9 then 1 else 0)).toNat
      (if op == 9 then (arg1 vs 1).toNat else 0)) (consume (atomOperands a b op) t)
    atomOp i st d a b size op s = .next (retire st.toNat (deliver (.int d) .now [BitVec.ofNat 64 r.2] (acquire true r.1))) := by
  unfold atomOperands at hc halign hreach ⊢
  obtain ⟨hok, hwatch⟩ := hreach
  refine issue_of_ok hg ?_
  rw [M_bind_ok (prepare_of_clear hc (alignCands_of_aligned halign)), M_bind_ok (release_of_releasable hrel), M_bind_ok (get_apply s),
    M_bind_ok hok, M_bind_ok (checkWatch_of_unwatched hwatch), M_bind_ok (get_apply t)]
  dsimp only
  rw [busy_atom, hbusy, if_neg Bool.false_ne_true, fails_of_sound hsound, if_neg Bool.false_ne_true, upd_apply]

section
variable {n : Nat} (old v : Nat)

theorem atomNew_min : atomNew 4 n old v 0 =
    (if (BitVec.ofNat n old).toInt < (BitVec.ofNat n v).toInt then BitVec.ofNat n old else BitVec.ofNat n v).toNat := by
  simp only [atomNew, BitVec.slt, decide_eq_true_eq]

theorem atomNew_max : atomNew 5 n old v 0 =
    (if (BitVec.ofNat n old).toInt < (BitVec.ofNat n v).toInt then BitVec.ofNat n v else BitVec.ofNat n old).toNat := by
  simp only [atomNew, BitVec.slt, decide_eq_true_eq]

theorem atomNew_minu : atomNew 6 n old v 0 =
    (if (BitVec.ofNat n old).toNat < (BitVec.ofNat n v).toNat then BitVec.ofNat n old else BitVec.ofNat n v).toNat := by
  simp only [atomNew, BitVec.ult, decide_eq_true_eq]

theorem atomNew_maxu : atomNew 7 n old v 0 =
    (if (BitVec.ofNat n old).toNat < (BitVec.ofNat n v).toNat then BitVec.ofNat n v else BitVec.ofNat n old).toNat := by
  simp only [atomNew, BitVec.ult, decide_eq_true_eq]

end

/-- CAS leaves the new word where it has found the expected one, and else the old one. -/
theorem atomNew_cas (old : Nat) (v e : W64) : atomNew 9 64 old v.toNat e.toNat = if BitVec.ofNat 64 old = e then v.toNat else old % 2 ^ 64 := by
  simp only [atomNew, BitVec.ofNat_toNat, BitVec.setWidth_eq]
  split
  · rfl
  · rw [BitVec.toNat_ofNat]

/-! ### The combining functions of the integer types (R147) -/

/-- The types below 4 are the integers, 0 and 1 signed. -/
theorem updCombine_int {ty : Nat} (h : ty < 4) (op x y : Nat) : updCombine ty op x y = updInt (decide (ty < 2)) op (8 * updSize ty) x y := by
  unfold updCombine
  split
  · omega
  · omega
  · rfl

section
variable {n : Nat} (x y : BitVec n)

theorem updInt_add (signed : Bool) : updInt signed 0 n x.toNat y.toNat = (x + y).toNat := by
  simp only [updInt, BitVec.ofNat_toNat, BitVec.setWidth_eq]

theorem updInt_and (signed : Bool) : updInt signed 4 n x.toNat y.toNat = (x &&& y).toNat := by
  simp only [updInt, BitVec.ofNat_toNat, BitVec.setWidth_eq]

theorem updInt_or (signed : Bool) : updInt signed 5 n x.toNat y.toNat = (x ||| y).toNat := by
  simp only [updInt, BitVec.ofNat_toNat, BitVec.setWidth_eq]

theorem updInt_xor (signed : Bool) : updInt signed 6 n x.toNat y.toNat = (x ^^^ y).toNat := by
  simp only [updInt, BitVec.ofNat_toNat, BitVec.setWidth_eq]

theorem updInt_min : updInt true 1 n x.toNat y.toNat = (if x.toInt < y.toInt then x else y).toNat := by
  simp only [updInt, BitVec.ofNat_toNat, BitVec.setWidth_eq, BitVec.slt, if_true, decide_eq_true_eq]

theorem updInt_max : updInt true 2 n x.toNat y.toNat = (if x.toInt < y.toInt then y else x).toNat := by
  simp only [updInt, BitVec.ofNat_toNat, BitVec.setWidth_eq, BitVec.slt, if_true, decide_eq_true_eq]

theorem updInt_minu : updInt false 1 n x.toNat y.toNat = (if x.toNat < y.toNat then x else y).toNat := by
  simp only [updInt, BitVec.ofNat_toNat, BitVec.setWidth_eq, BitVec.ult, Bool.false_eq_true, if_false, decide_eq_true_eq]

theorem updInt_maxu : updInt false 2 n x.toNat y.toNat = (if x.toNat < y.toNat then y else x).toNat := by
  simp only [updInt, BitVec.ofNat_toNat, BitVec.setWidth_eq, BitVec.ult, Bool.false_eq_true, if_false, decide_eq_true_eq]

/-- The magnitude that AMAX compares, that of the least integer included. -/
theorem toNat_magnitude (v : BitVec n) : (if v.msb then -v else v).toNat = v.toInt.natAbs := by
  have hlt := v.isLt
  rw [show (if v.msb then -v else v) = v.abs from rfl, BitVec.toNat_abs, BitVec.toInt_eq_msb_cond]
  split <;> omega

theorem updInt_amax (signed : Bool) :
    updInt signed 3 n x.toNat y.toNat = (BitVec.ofNat n (max x.toInt.natAbs y.toInt.natAbs)).toNat := by
  simp only [updInt, BitVec.ofNat_toNat, BitVec.setWidth_eq, BitVec.ult, decide_eq_true_eq, ← toNat_magnitude]
  generalize (if x.msb then -x else x) = a
  generalize (if y.msb then -y else y) = b
  split
  · next h => rw [Nat.max_eq_right (by omega), BitVec.ofNat_toNat, BitVec.setWidth_eq]
  · next h => rw [Nat.max_eq_left (by omega), BitVec.ofNat_toNat, BitVec.setWidth_eq]

end

/-! ### Contributions of an update-only line (R147, R148) -/

theorem UpdLine.add_same (l : UpdLine) (off y : Nat) :
    lookup off (l.add off y).words = some ((lookup off l.words).elim y (fun x => updCombine l.ty l.op x y)) := by
  unfold UpdLine.add
  dsimp only
  rw [lookup_put_self]
  cases lookup off l.words <;> rfl

theorem UpdLine.add_other (l : UpdLine) {off k : Nat} (y : Nat) (h : k ≠ off) : lookup k (l.add off y).words = lookup k l.words :=
  lookup_put_ne h _ _

/-- A contribution to a sound word is combined into what the word holds. -/
theorem applyUpdate_sound {vd ty op v : Nat} {ps : List Place} {s : State}
    (h : ∀ p ∈ ps, s.badWords.contains (s.wordAt none p) = false) : applyUpdate vd none ps ty op v State.writePlaces s =
      s.writePlaces (ps.zip (bytesOf ps.length (updCombine ty op (ofBytes (ps.map s.readByte)) v))) := by
  rw [applyUpdate, show s.failsAt none ps = false from fails_of_sound h, if_neg Bool.false_ne_true]
  rfl

/-! ### Updates at home (R147, R148) -/

theorem updOp_home {i : Instr} {st : BitVec 3} {a b : BitVec 5} {ty : BitVec 3} {op : Nat} {ps : List Place} {s t : State}
    (hg : s.Admits i) (hc : s.Clear [.int a, .int b] none)
    (halign : (va55 (arg1 (s.values [.int a, .int b]) 0)).toNat % updSize ty.toNat = 0)
    (hreach : s.ReachesHome (va55 (arg1 (s.values [.int a, .int b]) 0)).toNat (updSize ty.toNat) .atomic false true ps t
      (u := some (ty.toNat, op))) (hbefore : t.before (.home ps) = []) :
    updOp i st a b ty op s = .next (retire st.toNat (updHome t.cur.core (va55 (arg1 (s.values [.int a, .int b]) 0)).toNat
      ((arg1 (s.values [.int a, .int b]) 1).toNat % 2 ^ (8 * updSize ty.toNat))
      (updAlloc t.cur.core (va55 (arg1 (s.values [.int a, .int b]) 0)).toNat ty.toNat op (consume [.int a, .int b] t)))) := by
  obtain ⟨hok, hwatch⟩ := hreach
  rw [updOp]
  dsimp only
  rw [issue_prepared_get hc (alignCands_of_aligned halign)]
  refine issue_of_ok hg ?_
  rw [M_bind_ok hok, M_bind_ok (checkWatch_of_unwatched hwatch), M_bind_ok (get_apply t), hbefore]
  exact M_bind_ok (waitIf_false .fence t)

/-! ### Every member -/

section
variable {st : BitVec 3} {d a b : BitVec 5}

/-- An atomic of two operands whose new value is a function of the old one and the operand. -/
theorem atomic_completes {i : Instr} {size op : Nat} {v : W64} {ps : List Place} {t : State} {f : Nat → Nat}
    (hex : ∀ s, exec i s = atomOp i st d a b size op s) (hop : (op == 9) = false)
    (hf : ∀ old, atomNew op (8 * size) old v.toNat 0 = f old) :
    Completes i st.toNat [.int a, .int b] (some (.int d)) (fun s =>
      ((arg1 (s.values [.int a, .int b]) 0).toNat % 2 ^ 55 % size = 0 ∧ s.releasable = true ∧
        s.ReachesHome ((arg1 (s.values [.int a, .int b]) 0).toNat % 2 ^ 55) size .atomic true true ps t ∧
        t.busy (.atom 0 0 0) ps = false ∧ ∀ p ∈ ps, (t.recall ps).badWords.contains ((t.recall ps).wordAt none p) = false) ∧
      arg1 (s.values [.int a, .int b]) 1 = v) (fun _ =>
        let r := rmwHome ps f (consume [.int a, .int b] t)
        deliver (.int d) .now [BitVec.ofNat 64 r.2] (acquire true r.1)) := by
  rintro s hg hc ⟨⟨halign, hrel, hreach, hbusy, hsound⟩, hv⟩
  have hos : atomOperands a b op = [.int a, .int b] := by rw [atomOperands, hop, if_neg Bool.false_ne_true]
  have hword : wd (arg (s.values [.int a, .int b]) 1) 0 = v := hv
  simp only [← toNat_va55, ← hos] at hc halign hreach
  rw [hex, atomOp_home hg hc halign hrel hreach hbusy hsound, hos]
  simp only [hop, Bool.false_eq_true, if_false, hword, hf]

theorem cas_completes {v e : W64} {ps : List Place} {t : State} :
    Completes (.atomCas st d a b) st.toNat [.int a, .int b 2] (some (.int d)) (fun s =>
      ((arg1 (s.values [.int a, .int b 2]) 0).toNat % 2 ^ 55 % 8 = 0 ∧ s.releasable = true ∧
        s.ReachesHome ((arg1 (s.values [.int a, .int b 2]) 0).toNat % 2 ^ 55) 8 .atomic true true ps t ∧
        t.busy (.atom 0 0 0) ps = false ∧ ∀ p ∈ ps, (t.recall ps).badWords.contains ((t.recall ps).wordAt none p) = false) ∧
      wd (arg (s.values [.int a, .int b 2]) 1) 0 = e ∧ wd (arg (s.values [.int a, .int b 2]) 1) 1 = v) (fun _ =>
        let r := rmwHome ps (fun old => if BitVec.ofNat 64 old = e then v.toNat else old % 2 ^ 64) (consume [.int a, .int b 2] t)
        deliver (.int d) .now [BitVec.ofNat 64 r.2] (acquire true r.1)) := by
  rintro s hg hc ⟨⟨halign, hrel, hreach, hbusy, hsound⟩, he, hv⟩
  have hos : atomOperands a b 9 = [.int a, .int b 2] := rfl
  have hexpected : arg1 (s.values [.int a, .int b 2]) 1 = e := he
  simp only [← toNat_va55, ← hos] at hc halign hreach
  rw [exec_atomCas, execAtomCas, atomOp_home hg hc halign hrel hreach hbusy hsound, hos]
  simp only [beq_self_eq_true, if_true, hexpected, hv, Nat.reduceMul, atomNew_cas]

/-- An update of any op: its line is found or allocated, and takes the contribution. -/
theorem update_completes {i : Instr} {ty : BitVec 3} {op : Nat} {v : W64} {ps : List Place} {t : State}
    (hex : ∀ s, exec i s = updOp i st a b ty op s) :
    Completes i st.toNat [.int a, .int b] none (fun s =>
      (arg1 (s.values [.int a, .int b]) 0).toNat % 2 ^ 55 % updSize ty.toNat = 0 ∧
      s.ReachesHome ((arg1 (s.values [.int a, .int b]) 0).toNat % 2 ^ 55) (updSize ty.toNat) .atomic false true ps t
        (u := some (ty.toNat, op)) ∧
      t.before (.home ps) = [] ∧ arg1 (s.values [.int a, .int b]) 1 = v) (fun s =>
        let va := (arg1 (s.values [.int a, .int b]) 0).toNat % 2 ^ 55
        updHome s.cur.core va (v.toNat % 2 ^ (8 * updSize ty.toNat))
          (updAlloc s.cur.core va ty.toNat op (consume [.int a, .int b] t))) := by
  rintro s hg hc ⟨halign, hreach, hbefore, hv⟩
  simp only [← toNat_va55] at halign hreach ⊢
  have hcur : t.cur = s.cur := sameTurn_of_reach hreach.1
  rw [hex, updOp_home hg hc halign hreach hbefore, hcur, hv]

end

/-- Settles O15: atomics and updates by where they complete, the read-modify-write byte by byte, and the combining functions op by op. -/
theorem atomicsAndUpdates : Obligations.AtomicsAndUpdates := by
  refine ⟨fun st d a b z ps t v e => ?atomics, fun ps f s hm hnodup hps h => rmwHome_reads_back f hm hnodup hps h,
    fun st a b ty ps t v => ?updates, fun l off y => ⟨l.add_same off y, fun k hk => l.add_other y hk, rfl, rfl⟩,
    fun vd ty op v ps s h => applyUpdate_sound h⟩
  case atomics =>
    exact ⟨atomic_completes (exec_atomFadd st d a b z) rfl fun _ => rfl, atomic_completes (exec_atomFand st d a b z) rfl fun _ => rfl,
      atomic_completes (exec_atomFor st d a b z) rfl fun _ => rfl, atomic_completes (exec_atomFxor st d a b z) rfl fun _ => rfl,
      atomic_completes (exec_atomFmin st d a b z) rfl fun old => atomNew_min old _,
      atomic_completes (exec_atomFmax st d a b z) rfl fun old => atomNew_max old _,
      atomic_completes (exec_atomFminu st d a b z) rfl fun old => atomNew_minu old _,
      atomic_completes (exec_atomFmaxu st d a b z) rfl fun old => atomNew_maxu old _,
      atomic_completes (exec_atomSwap st d a b z) rfl fun _ => rfl, cas_completes⟩
  case updates =>
    have int {op : Nat} {f : BitVec (8 * updSize ty.toNat) → BitVec (8 * updSize ty.toNat) → BitVec (8 * updSize ty.toNat)}
        (hlt : ty.toNat < 4) (hf : ∀ x y, updInt (decide (ty.toNat < 2)) op (8 * updSize ty.toNat) x.toNat y.toNat = (f x y).toNat)
        (x y : BitVec (8 * updSize ty.toNat)) : updCombine ty.toNat op x.toNat y.toNat = (f x y).toNat :=
      (updCombine_int hlt op _ _).trans (hf x y)
    refine ⟨update_completes (exec_updAdd st a b ty), update_completes (exec_updMin st a b ty), update_completes (exec_updMax st a b ty),
      update_completes (exec_updAmax st a b ty), update_completes (exec_updAnd st a b ty), update_completes (exec_updOr st a b ty),
      update_completes (exec_updXor st a b ty), fun h => int h fun x y => updInt_add x y _, fun h => int h fun x y => updInt_and x y _,
      fun h => int h fun x y => updInt_or x y _, fun h => int h fun x y => updInt_xor x y _, fun h => int (by omega) fun x y => ?min,
      fun h => int (by omega) fun x y => ?max, fun ⟨h, hlt⟩ => int hlt fun x y => ?minu, fun ⟨h, hlt⟩ => int hlt fun x y => ?maxu,
      fun h => int (by omega) fun x y => updInt_amax x y _⟩
    case min => rw [decide_eq_true h]; exact updInt_min x y
    case max => rw [decide_eq_true h]; exact updInt_max x y
    case minu => rw [decide_eq_false (by omega)]; exact updInt_minu x y
    case maxu => rw [decide_eq_false (by omega)]; exact updInt_maxu x y

end Sys2Proof.Machine
end

section
/-! PROOFS. The geometry registers: CSETG, CGETG, MSETG and MGETG (O28). -/

namespace Sys2Proof.Machine

/-! ### Which registers there are, and their bits (R163, R164, R170) -/

theorem cgIx_of_lt {n : Nat} (h : n < 17) : cgIx n = ⟨n, h⟩ := Fin.ext (Nat.mod_eq_of_lt h)

theorem mgIx_of_lt {n : Nat} (h : n < 12) : mgIx n = ⟨n, h⟩ := Fin.ext (Nat.mod_eq_of_lt h)

/-- The copy engine's registers are cg 0 to cg 12 and its STATUS, cg 16 (R164). -/
theorem isSome_cgMask_iff (n : Nat) : (cgMask n).isSome = true ↔ n ≤ 12 ∨ n = 16 := by
  rcases Nat.lt_or_ge n 17 with h | h
  · exact (by decide : ∀ k < 17, (cgMask k).isSome = true ↔ k ≤ 12 ∨ k = 16) n h
  · obtain ⟨k, rfl⟩ := Nat.exists_eq_add_of_le' h
    have hnone : cgMask (k + 17) = none := rfl
    simp only [hnone, Option.isSome_none, Bool.false_eq_true, false_iff]
    omega

/-- MSETG writes mg 0 to mg 10; mg 11, STATUS, is read-only (R170). -/
theorem isSome_mgMask_iff (n : Nat) : (mgMask n).isSome = true ↔ n ≤ 10 := by
  rcases Nat.lt_or_ge n 11 with h | h
  · exact (by decide : ∀ k < 11, (mgMask k).isSome = true ↔ k ≤ 10) n h
  · obtain ⟨k, rfl⟩ := Nat.exists_eq_add_of_le' h
    have hnone : mgMask (k + 11) = none := rfl
    simp only [hnone, Option.isSome_none, Bool.false_eq_true, false_iff]
    omega

/-! ### The shapes of the four members -/

/-- CSETG and MSETG write the bits that the register holds. -/
theorem setGeom_writes {i : Instr} {a b : BitVec 5} {mask : Nat → Option W64} {f : Nat → W64 → Context → Context} {n : Nat} {m : W64}
    {s : State} (hm : mask n = some m) (hg : s.Admits i) (hc : s.Clear [.int a, .int b] none)
    (hn : (arg1 (s.values [.int a, .int b]) 1).toNat = n) :
    setGeom i a b mask f s =
      .next (retire 0 ((consume [.int a, .int b] s).updMe (f n (arg1 (s.values [.int a, .int b]) 0 &&& m)))) := by
  subst hn
  refine (prepared_completes hg hc ?_).trans ?_
  · rw [hm]
    rfl
  · simp only [hm, Option.getD_some]

/-- CGETG and MGETG push a register that exists. -/
theorem getGeom_pushes {i : Instr} {a : BitVec 5} {ok : Nat → Bool} {rd : Context → Nat → W64} {f : Nat → Context → Context} {n : Nat}
    {s : State} (hok : ok n = true) (hg : s.Admits i) (hc : s.Clear [.int a] (some (.int 0)))
    (hn : (arg1 (s.values [.int a]) 0).toNat = n) :
    getGeom i a ok rd f s =
      .next (retire 0 (deliver (.int 0) (after [.int a] 1 s) [rd s.me n] ((consume [.int a] s).updMe (f n)))) := by
  subst hn
  exact prepared_completes hg hc (if_pos hok)

/-! ### A context that is put back as it was -/

theorem put_put {α : Type} (k : Nat) (v w : α) (l : List (Nat × α)) : put k v (put k w l) = put k v l := by
  induction l with
  | nil => simp [put]
  | cons e r ih =>
    obtain ⟨j, u⟩ := e
    by_cases heq : k = j
    · simp [put, heq]
    · by_cases hlt : k < j
      · simp [put, heq, hlt]
      · simp [put, heq, hlt, ih]

theorem updCore_updCore (s : State) (c : Nat) (f g : Core → Core) : (s.updCore c f).updCore c g = s.updCore c (fun k => g (f k)) := by
  rw [State.updCore, core_updCore]
  simp only [State.updCore, State.setCore, put_put]

theorem updMe_eq_updCore (s : State) (f : Context → Context) :
    s.updMe f = s.updCore s.cur.core (fun k => { k with ctxs := k.ctxs.set s.cur.ctx (f k.ctxs[s.cur.ctx]) }) := rfl

theorem updMe_updMe (s : State) (f g : Context → Context) : (s.updMe f).updMe g = s.updMe (fun c => g (f c)) := by
  simp [updMe_eq_updCore, updCore_updCore]

/-- A read that leaves its context as it was pushes its result as if nothing had been put back. -/
theorem deliver_b0_updMe_id (r : Ready) (v : W64) (s : State) :
    deliver (.int 0) r [v] (s.updMe fun c => c) = deliver (.int 0) r [v] s := by
  show pushInt (r.nth 0) v (s.updMe fun c => c) = pushInt (r.nth 0) v s
  rw [pushInt, pushInt, updMe_updMe, updMe_now]

/-! ### The four members -/

section
variable {a b : BitVec 5} {n : Nat} {s : State}

theorem exec_csetg_writes {m : W64} (hm : cgMask n = some m) (h : n < 17) (hg : s.Admits (.csetg a b))
    (hc : s.Clear [.int a, .int b] none) (hn : (arg1 (s.values [.int a, .int b]) 1).toNat = n) :
    exec (.csetg a b) s = .next (retire 0 ((consume [.int a, .int b] s).updMe (fun c =>
      { c with cg := c.cg.set n (arg1 (s.values [.int a, .int b]) 0 &&& m) }))) := by
  rw [exec_csetg, execCsetg, setGeom_writes hm hg hc hn]
  simp only [cgIx_of_lt h]

theorem exec_msetg_writes {m : W64} (hm : mgMask n = some m) (h : n < 12) (hg : s.Admits (.msetg a b))
    (hc : s.Clear [.int a, .int b] none) (hn : (arg1 (s.values [.int a, .int b]) 1).toNat = n) :
    exec (.msetg a b) s = .next (retire 0 ((consume [.int a, .int b] s).updMe (fun c =>
      { c with mg := c.mg.set n (arg1 (s.values [.int a, .int b]) 0 &&& m) }))) := by
  rw [exec_msetg, execMsetg, setGeom_writes hm hg hc hn]
  simp only [mgIx_of_lt h]

theorem exec_cgetg_pushes (hok : (cgMask n).isSome = true) (h : n < 17) (hg : s.Admits (.cgetg a))
    (hc : s.Clear [.int a] (some (.int 0))) (hn : (arg1 (s.values [.int a]) 0).toNat = n) :
    exec (.cgetg a) s = .next (retire 0 (deliver (.int 0) (after [.int a] 1 s) [s.me.cg[n]] (consume [.int a] s))) := by
  rw [exec_cgetg, execCgetg, getGeom_pushes (n := n) hok hg hc hn, deliver_b0_updMe_id]
  simp only [cgIx_of_lt h, Fin.getElem_fin]

/-- Every register of the matrix unit but STATUS stays as it was when it is read. -/
theorem exec_mgetg_pushes (h : n < 11) (hg : s.Admits (.mgetg a))
    (hc : s.Clear [.int a] (some (.int 0))) (hn : (arg1 (s.values [.int a]) 0).toNat = n) :
    exec (.mgetg a) s = .next (retire 0 (deliver (.int 0) (after [.int a] 1 s) [s.me.mg[n]] (consume [.int a] s))) := by
  have h12 : n < 12 := by omega
  have hn11 : n ≠ 11 := by omega
  rw [exec_mgetg, execMgetg, getGeom_pushes (n := n) (decide_eq_true h12) hg hc hn]
  simp only [hn11, if_false]
  simp only [deliver_b0_updMe_id, mgIx_of_lt h12, Fin.getElem_fin]

/-- Reading STATUS of the matrix unit clears it (R170). -/
theorem exec_mgetg_clears_status (hg : s.Admits (.mgetg a)) (hc : s.Clear [.int a] (some (.int 0)))
    (hn : (arg1 (s.values [.int a]) 0).toNat = 11) :
    exec (.mgetg a) s = .next (retire 0 (deliver (.int 0) (after [.int a] 1 s) [s.me.mg[11]]
      ((consume [.int a] s).updMe (fun c => { c with mg := c.mg.set 11 0 })))) := by
  rw [exec_mgetg, execMgetg, getGeom_pushes (n := 11) rfl hg hc hn]
  rfl

end

/-- Settles O28: each member by the register that its index names, and the tables of R164 and R170 as the model has them. -/
theorem geometryRegisters : Obligations.GeometryRegisters := by
  intro a b n m
  refine ⟨fun hm h => ⟨fun s hg hc hn => exec_csetg_writes hm h hg hc hn,
      fun s hg hc hn => exec_cgetg_pushes (by rw [hm]; rfl) h hg hc hn⟩,
    fun hm h s hg hc hn => exec_msetg_writes hm h hg hc hn, fun h s hg hc hn => exec_mgetg_pushes h hg hc hn, ?status,
    isSome_cgMask_iff n, isSome_mgMask_iff n, (by decide : ∀ k ∈ [0, 1, 5, 6, 9], cgMask k = some 0xFFFFFFFF) n, rfl, rfl, rfl,
    (by decide : ∀ k ∈ [1, 2, 9], mgMask k = some 0xFFFFF) n, rfl, rfl,
    (by decide : ∀ k ∈ [3, 4, 8, 10, 11, 12], cgMask k = some (BitVec.allOnes 64)) n,
    (by decide : ∀ k ∈ [0, 3, 4, 5, 6, 7], mgMask k = some (BitVec.allOnes 64)) n⟩
  case status =>
    rintro rfl s hg hc hn
    exact exec_mgetg_clears_status hg hc hn

end Sys2Proof.Machine
end

section
/-! PROOFS. Queries of commands and launches: CQUERY, CABORT, RKSTAT, GLAUNCH and GQUERY (O31). -/

namespace Sys2Proof.Machine

/-! ### The command that a handle names (R183) -/

/-- The context's record of the command that the low 32 bits of a value name. -/
def State.namedCmd (s : State) (v : W64) : Option CmdRef := s.me.cmds.find? (fun c => c.handle.toNat == v.toNat % 2 ^ 32)

theorem find?_handle_eq_namedCmd (s : State) (v : W64) : s.me.cmds.find? (fun c => c.handle == v.setWidth 32) = s.namedCmd v := by
  have hsame (h : BitVec 32) : (h == v.setWidth 32) = (h.toNat == v.toNat % 2 ^ 32) := by
    rw [Bool.eq_iff_iff, beq_iff_eq, beq_iff_eq, ← BitVec.toNat_inj, BitVec.toNat_setWidth]
  simp only [hsame]
  rfl

section
variable {a : BitVec 5} {s : State}

/-- CQUERY pushes the status of the command, 0xFF while it has none, and 0xFE for a handle that names none (R183). -/
theorem exec_cquery_pushes {r : Option CmdRef} (hg : s.Admits (.cquery a)) (hc : s.Clear [.int a] (some (.int 0)))
    (hr : s.namedCmd (arg1 (s.values [.int a]) 0) = r) :
    exec (.cquery a) s = .next (retire 0 (deliver (.int 0) .now [(r.map (fun c => c.status.getD 0xFF)).getD 0xFE]
      (consume [.int a] s))) := by
  rw [exec_cquery]
  refine (prepared_completes hg hc rfl).trans ?_
  simp only [find?_handle_eq_namedCmd, hr]
  cases r <;> rfl

/-- What CABORT does to the command that its handle names: nothing to one that has ended (R183). -/
def abortNamed (r : Option CmdRef) (vd : Nat) (s : State) : State :=
  match r with
  | some ⟨_, n, none⟩ => abortCmd vd n s
  | _ => s

theorem exec_cabort_aborts {r : Option CmdRef} (hg : s.Admits (.cabort a)) (hc : s.Clear [.int a] none)
    (hr : s.namedCmd (arg1 (s.values [.int a]) 0) = r) :
    exec (.cabort a) s = .next (retire 0 (abortNamed r s.here.vd (consume [.int a] s))) := by
  rw [exec_cabort]
  refine (prepared_completes hg hc rfl).trans ?_
  simp only [find?_handle_eq_namedCmd, hr]
  rcases r with _ | ⟨h, n, _ | v⟩ <;> rfl

/-- A command that has ended, or none, is not aborted. -/
theorem abortNamed_of_ended {r : Option CmdRef} (vd : Nat) (h : ∀ c, r = some c → c.status ≠ none) (s : State) : abortNamed r vd s = s := by
  rcases r with _ | ⟨h', n, _ | v⟩
  · rfl
  · exact absurd rfl (h _ rfl)
  · rfl

/-! ### RKSTAT (R186) -/

/-- RKSTAT pushes what it may show of a rank. -/
theorem exec_rkstat_pushes {v : W64} (hg : s.Admits (.rkstat a)) (hc : s.Clear [.int a] (some (.int 0)))
    (hv : (let r := (arg1 (s.values [.int a]) 0).toNat % 8192
      if s.permTouches r 0 (fun p => p.k && p.vd == s.here.vd) then
        BitVec.ofNat 64 ((if s.asleep.contains (channelOf r) then 3 else rankCode' (s.rank r).state) + (s.rank r).slot.toNat * 4 +
          (s.rank r).upc % 8192 * 8)
      else BitVec.allOnes 64) = v) :
    exec (.rkstat a) s = .next (retire 0 (deliver (.int 0) .now [v] (consume [.int a] s))) := by
  subst hv
  rw [exec_rkstat]
  exact prepared_completes hg hc rfl

end

/-! ### Launches (R188, R273) -/

/-- GLAUNCH answers what became of its descriptor, once every access of the context is performed and nothing it reads is held. -/
theorem exec_glaunch_submits {st : BitVec 3} {d a b : BitVec 5} {s : State} (hg : s.Admits (.glaunch st d a b))
    (hc : s.Clear [.int a, .int b] (some (.int d))) (hp : s.AllPerformed) {r : State × W64}
    (hr : submit s.here.vd (arg1 (s.values [.int a, .int b]) 0) (arg1 (s.values [.int a, .int b]) 1) (consume [.int a, .int b] s.afresh) = r)
    (hstalled : r.1.stalled = []) :
    exec (.glaunch st d a b) s = .next (retire st.toNat (deliver (.int d) .now [r.2] r.1)) := by
  subst hr
  rw [exec_glaunch]
  refine issue_of_ok hg ?_
  rw [M_bind_ok (prepare_of_clear hc rfl), M_bind_ok (get_apply s), performed_of_allPerformed hp, Bool.not_true, M_bind_ok (waitIf_false _ s)]
  exact if_pos (List.isEmpty_iff.mpr hstalled)

theorem queueIx_of_lt {q : Nat} (h : q < 4) : Fin.ofNat 4 q = ⟨q, h⟩ := Fin.ext (Nat.mod_eq_of_lt h)

section
variable (vd : Nat) (va : W64) {q : W64} {s : State}

theorem submit_noQueue (h : 3 < q.toNat) : submit vd va q s = (s, BitVec.ofInt 64 (-2)) := if_pos h

theorem submit_full (h : q.toNat < 4) (hfull : 64 ≤ ((s.vd vd).queues[q.toNat]).launches.length) :
    submit vd va q s = (s, BitVec.ofInt 64 (-1)) := by
  refine (if_neg (by omega)).trans ?_
  simp only [queueIx_of_lt h]
  exact if_pos hfull

/-- A launch joins its queue under the VD's next number (R273), which wakes a VD in vigil (R338). -/
def launchJoins (vd : Nat) (q : W64) (l : Launch) (t : State) : State × W64 :=
  let n := (t.vd vd).nextLaunch
  ((updQueue vd q.toNat (fun x => { x with launches := x.launches ++ [{ l with number := n }] }) t).updVd vd (fun v => { v with
      nextLaunch := (n + 1) % 2 ^ 31
      woken := v.woken || v.state == .vigil || v.state == .stoppedVigil
      finished := v.finished.filter (fun m => decide ((n + 2 ^ 31 - m) % 2 ^ 31 < 2 ^ 16)) }), BitVec.ofNat 64 n)

/-- With room in its queue, what the descriptor is decides (R188). -/
theorem submit_room (h : q.toNat < 4) (hroom : ((s.vd vd).queues[q.toNat]).launches.length < 64) {r : Option Launch} {t : State}
    (hread : readGraph vd va.toNat s = (r, t)) :
    submit vd va q s = (r.map (launchJoins vd q · t)).getD (t, BitVec.ofInt 64 (-3)) := by
  refine (if_neg (by omega)).trans ?_
  simp only [queueIx_of_lt h]
  refine (if_neg (Nat.not_le.mpr hroom)).trans ?_
  rw [hread]
  cases r <;> rfl

/-- The launch stands last in its queue. -/
theorem launchJoins_last (h : q.toNat < 4) (l : Launch) (t : State) :
    let r := launchJoins vd q l t
    r.2 = BitVec.ofNat 64 (t.vd vd).nextLaunch ∧ ((r.1.vd vd).queues[q.toNat]).launches =
      ((t.vd vd).queues[q.toNat]).launches ++ [{ l with number := (t.vd vd).nextLaunch }] ∧
    (r.1.vd vd).nextLaunch = ((t.vd vd).nextLaunch + 1) % 2 ^ 31 ∧ r.1.mem = t.mem ∧ r.1.cores = t.cores := by
  refine ⟨rfl, ?last, ?next, rfl, rfl⟩
  case last =>
    simp only [launchJoins, updQueue, vd_updVd, queueIx_of_lt h, Fin.getElem_fin, Vector.getElem_set_self]
  case next => simp only [launchJoins, vd_updVd]

end

/-- Settles O31: the queries by the state they find, and a launch by what its queue and its descriptor are. -/
theorem commandQueries : Obligations.CommandQueries := by
  constructor
  · intro st d a b
    refine ⟨fun s hg hc h => exec_cquery_pushes (r := none) hg hc h,
      fun h n s hg hc hr => exec_cquery_pushes (r := some ⟨h, n, none⟩) hg hc hr,
      fun h n v s hg hc hr => exec_cquery_pushes (r := some ⟨h, n, some v⟩) hg hc hr, fun s hg hc h => ?ended,
      fun h n s hg hc hr => exec_cabort_aborts (r := some ⟨h, n, none⟩) hg hc hr, fun s hg hc h => ?other, fun s hg hc h => ?mine,
      fun s hg hc ⟨hp, hst⟩ => ?launch, fun s hg hc _ => ?query⟩
    case ended =>
      have hsame := abortNamed_of_ended (r := s.namedCmd (arg1 (s.values [.int a]) 0)) s.here.vd h (consume [.int a] s)
      rw [exec_cabort_aborts hg hc rfl, hsame]
    case other => exact exec_rkstat_pushes hg hc (if_neg h)
    case mine =>
      refine exec_rkstat_pushes hg hc ((if_pos h).trans ?_)
      rw [Nat.mul_comm _ 4, Nat.mul_comm _ 8]
      rfl
    case launch => exact exec_glaunch_submits hg hc hp rfl hst
    case query =>
      rw [exec_gquery]
      exact compute_completes _ _ _ _ none _ s hg hc
  · intro vd va q s
    refine ⟨submit_noQueue vd va, submit_full vd va, fun h hroom t => ⟨fun hread => submit_room vd va h hroom hread, fun l hread => ?_⟩⟩
    rw [submit_room vd va h hroom hread]
    exact launchJoins_last vd h l t

end Sys2Proof.Machine
end

section
/-! PROOFS. Messages of a rank (O37): an MSGO that finds no room takes its place among the sends that wait for the queue (R153, R211). -/

namespace Sys2Proof.Machine

/-- Rank 0 has a message for port 1 of context 2 of core 3, whose arrival queue is full. -/
def fullOwner : State := Tests.demoOwner ⟨some ⟨0, 0, 0⟩, false, List.replicate 16 0⟩

/-- The rank waits, and it has joined the sends that wait for the queue. -/
theorem exec_msgo_fullOwner : exec (.msgo 1) fullOwner = .next (rankWait .port 0 (fullOwner.queueRank 0 ⟨3, 2, 1⟩)) := by
  have howner : fullOwner.rk.run.bind (·.owner) = some (3, 2, 1) := by decide
  have hbound : (fullOwner.portAt ⟨3, 2, 1⟩).dest.isNone = false := by decide
  have hroom : (decide (fullOwner.roomAt ⟨3, 2, 1⟩ < 1) || !fullOwner.rankFirst fullOwner.cur.rank ⟨3, 2, 1⟩) = true := by decide
  rw [exec_msgo, execMsgo, rankIssue, howner]
  simp only [hbound, Bool.false_eq_true, if_false]
  rw [if_pos hroom]
  rfl

/-- Refutes O37: after an MSGO to a full queue the rank does not only wait, for its send has a place in the queue of sends (R153). -/
theorem not_rankMessages : ¬ Obligations.RankMessages := by
  intro h
  obtain ⟨-, hsend, -⟩ := h 0 1 0 fullOwner
  obtain ⟨-, -, hfull⟩ := hsend Tests.demoRun 3 2 1 (by decide) rfl
  have heq := exec_msgo_fullOwner.symm.trans (hfull (by decide) (by decide))
  have hsendq : (rankWait .port 0 (fullOwner.queueRank 0 ⟨3, 2, 1⟩)).sendq = (rankWait .port 0 fullOwner).sendq :=
    (congrArg State.sendq (Host.Outcome.next.inj heq) :)
  exact absurd hsendq (by decide)

end Sys2Proof.Machine
end

section
/-! PROOFS. Commands of the ring: COLL, RKOVL, RKRUN, RKSIG and RKSTOP, what a post leaves, and the bytes of a ring entry (O30). -/

namespace Sys2Proof.Machine

/-! ### Where the members post (R178, R184, R282) -/

/-- Nonzero words at STATADDR and DONEADDR of a block are aligned and translate, one after the other (R178). -/
def WordsReady (bs : List Byte) (stat done : Nat) (s t : State) : Prop :=
  ∃ u, wordReady (w64 bs stat) s = .ok ((), u) ∧ wordReady (w64 bs done) u = .ok ((), t)

/-- What a command with a block leaves: its post, and its slot. -/
def blockPosted (op : RingOp) (bs : List Byte) (handle : BitVec 32) (os : List Opnd) (w : BitVec 8) (sl : BitVec 3) (sb : BitVec 1)
    (t : State) : State :=
  takeSlot t.nextId sl sb (postCmd op bs handle w (slotOf sl sb) true (consume os t))

section
variable {a b : BitVec 5} {w : BitVec 8} {sl : BitVec 3} {sb : BitVec 1} {bs : List Byte} {s u t : State}
  (hc : s.Clear [.int a, .int b] none) (hslot : sb = 1 → s.me.slots[sl.toNat] ≠ 255) (hring : s.ringFull = false)
  (halign : (arg1 (s.values [.int a, .int b]) 0).toNat % 2 ^ 55 % 8 = 0)
include hc hslot hring halign

/-- A command with a block posts, once its block is read, its words translate and the rest of it is read. -/
theorem ringOp_posts {i : Instr} {op : RingOp} {len stat done : Nat} {more : List Byte → M (List Byte)} {rest : List Byte} {r : State}
    (hg : s.Admits i) (hread : blockRead ((arg1 (s.values [.int a, .int b]) 0).toNat % 2 ^ 55) len s = .ok (bs, u))
    (hwords : WordsReady bs stat done u t) (hmore : more bs t = .ok (rest, r)) :
    ringOp i a b w sl sb op len stat done more s = .next (retire 0
      (blockPosted op (bs ++ rest) (BitVec.ofNat 32 (arg1 (s.values [.int a, .int b]) 1).toNat) [.int a, .int b] w sl sb r)) := by
  rw [← toNat_va55] at halign hread
  obtain ⟨v, hstat, hdone⟩ := hwords
  refine issue_of_ok hg ?_
  rw [M_bind_ok (slotFull_of_room hslot), M_bind_ok (get_apply s), hring, M_bind_ok (waitIf_false _ s),
    M_bind_ok (prepare_of_clear hc (alignCands_of_aligned halign)), M_bind_ok (get_apply s), M_bind_ok hread, M_bind_ok hstat,
    M_bind_ok hdone, M_bind_ok hmore, BitVec.ofNat_toNat]
  rfl

/-- RKOVL's image is read at issue, where no byte of it is held (R282, R371). -/
theorem exec_rkovl_posts (hg : s.Admits (.rkovl a b w sl sb))
    (hread : blockRead ((arg1 (s.values [.int a, .int b]) 0).toNat % 2 ^ 55) 48 s = .ok (bs, u)) (hwords : WordsReady bs 0x20 0x10 u t)
    (hheld : (imageRead t.here.vd bs t).1.stalled = t.stalled) :
    exec (.rkovl a b w sl sb) s = .next (retire 0 (blockPosted .rkovl (bs ++ (imageRead t.here.vd bs t).2)
      (BitVec.ofNat 32 (arg1 (s.values [.int a, .int b]) 1).toNat) [.int a, .int b] w sl sb (imageRead t.here.vd bs t).1)) := by
  rw [exec_rkovl, execRkovl]
  refine ringOp_posts hc hslot hring halign hg hread hwords (if_pos ?_)
  rw [hheld, List.drop_length]
  rfl

end

/-- RKSIG and RKSTOP post their operands. -/
theorem groupOp_posts {i : Instr} {os : List Opnd} {w : BitVec 8} {op : RingOp} {s : State} (hg : s.Admits i) (hc : s.Clear os none)
    (hring : s.ringFull = false) :
    groupOp i os w op s = .next (retire 0 (postCmd op
      (bytesOf 8 (arg1 (s.values os) 0).toNat ++ bytesOf 4 (arg1 (s.values os) 1).toNat) 0 w none false (consume os s))) := by
  refine issue_of_ok hg ?_
  rw [M_bind_ok (get_apply s), hring, M_bind_ok (waitIf_false _ s), M_bind_ok (prepare_of_clear hc rfl)]
  rfl

/-! ### What a write of the device leaves of commands and contexts (R107, R309) -/

/-- Every VD has its commands, every context is as it was but for a WAITA that looks again, and the turn is the same context's. -/
structure KeepsCommands (s t : State) : Prop where
  cur : t.cur = s.cur
  cmds : ∀ v, (t.vd v).cmds = (s.vd v).cmds
  ctxs : ∀ c, ∀ x : Fin 11, { (t.core c).ctxs[x] with wait := (s.core c).ctxs[x].wait } = (s.core c).ctxs[x]
  wait : ∀ c, ∀ x : Fin 11, (t.core c).ctxs[x].wait = (s.core c).ctxs[x].wait ∨ (t.core c).ctxs[x].wait = none

namespace KeepsCommands

theorem refl (s : State) : KeepsCommands s s := ⟨rfl, fun _ => rfl, fun _ _ => rfl, fun _ _ => .inl rfl⟩

theorem trans {s t u : State} (h : KeepsCommands s t) (g : KeepsCommands t u) : KeepsCommands s u where
  cur := g.cur.trans h.cur
  cmds v := (g.cmds v).trans (h.cmds v)
  ctxs c x := by rw [← h.ctxs c x, ← g.ctxs c x]
  wait c x := by
    rcases g.wait c x with hg | hg
    · rw [hg]
      exact h.wait c x
    · exact .inr hg

/-- A change elsewhere than in the cores and the VDs. -/
theorem of_same {s t : State} (hcur : t.cur = s.cur) (hcores : t.cores = s.cores) (hvds : t.vds = s.vds) : KeepsCommands s t := by
  have hcore (c : Nat) : t.core c = s.core c := by rw [State.core, State.core, hcores]
  refine ⟨hcur, fun v => by rw [State.vd, State.vd, hvds], fun c x => ?_, fun c x => .inl ?_⟩ <;> rw [hcore]

theorem foldl {α : Type} {f : State → α → State} (hf : ∀ s a, KeepsCommands s (f s a)) (l : List α) (s : State) :
    KeepsCommands s (l.foldl f s) := by
  induction l generalizing s with
  | nil => exact refl s
  | cons a r ih => exact (hf s a).trans (ih (f s a))

theorem ite {s t u : State} {c : Prop} [Decidable c] (h : KeepsCommands s t) (g : KeepsCommands s u) :
    KeepsCommands s (if c then t else u) := by
  split
  · exact h
  · exact g

end KeepsCommands

/-- A context that looks again is otherwise as it was (R107). -/
theorem reread_rest (lines : List Nat) (m : Context) : { m.reread lines with wait := m.wait } = m := by
  unfold Context.reread
  split
  · split <;> rfl
  · rfl

theorem wait_reread (lines : List Nat) (m : Context) : (m.reread lines).wait = m.wait ∨ (m.reread lines).wait = none := by
  unfold Context.reread
  split
  · split
    · exact .inr rfl
    · exact .inl rfl
  · exact .inl rfl

theorem reread_of_no_wait (lines : List Nat) {m : Context} (h : m.wait = none) : m.reread lines = m := by
  simp only [Context.reread, h]

/-- A core that nothing has touched has no context that waits. -/
theorem wait_first (c : Nat) (x : Fin 11) : (Core.first c).ctxs[x].wait = none := by
  unfold Core.first
  split
  · rw [Fin.getElem_fin, Vector.getElem_map]
    exact (by decide : ∀ y : Fin 11, Core.reset.ctxs[y].wait = none) x
  · exact (by decide : ∀ y : Fin 11, Core.reset.ctxs[y].wait = none) x

/-- The core's contexts look again (R107). -/
def Core.reread (lines : List Nat) (k : Core) : Core := { k with ctxs := k.ctxs.map (Context.reread lines) }

theorem ctxs_wakeLines (s : State) (lines : List Nat) (c : Nat) (x : Fin 11) :
    ((s.wakeLines lines).core c).ctxs[x] = (s.core c).ctxs[x].reread lines := by
  have hcores : lookup c (s.wakeLines lines).cores = (lookup c s.cores).map (Core.reread lines) := lookup_map (Core.reread lines) c s.cores
  unfold State.core
  rw [hcores]
  cases lookup c s.cores with
  | none => exact (reread_of_no_wait lines (wait_first c x)).symm
  | some k => exact Vector.getElem_map _ _

/-- A line that is written wakes a VD that watches it (R338). -/
def Vd.wakes (lines : List Nat) (v : Vd) : Vd :=
  if (v.state == .vigil || v.state == .stoppedVigil) && v.watches.any (fun w => lines.contains w.line) then { v with woken := true } else v

theorem cmds_wakeLines (s : State) (lines : List Nat) (v : Nat) : ((s.wakeLines lines).vd v).cmds = (s.vd v).cmds := by
  have hwakes (v : Vd) : (v.wakes lines).cmds = v.cmds := by
    unfold Vd.wakes
    split <;> rfl
  have hvds : (s.wakeLines lines).vds = s.vds.map (fun e => (e.1, e.2.wakes lines)) := by
    refine List.map_congr_left fun e _ => ?_
    unfold Vd.wakes
    split <;> rfl
  rw [State.vd, State.vd, hvds, lookup_map (Vd.wakes lines) v s.vds]
  cases lookup v s.vds with
  | none => rfl
  | some x => exact hwakes x

/-- Lines leave the L1s, and no context changes. -/
theorem ctxs_dropLines (s : State) (keys : List Nat) (keep : Option (Nat × L1Line)) (c : Nat) :
    ((s.dropLines keys keep).core c).ctxs = (s.core c).ctxs := by
  unfold State.dropLines
  split
  · rfl
  · unfold State.core
    dsimp only
    generalize s.cores = l
    induction l with
    | nil => rfl
    | cons e r ih =>
      by_cases h : c = e.1
      · simp [lookup, h]
      · simpa [lookup, h] using ih

namespace KeepsCommands

theorem wakeLines (s : State) (lines : List Nat) : KeepsCommands s (s.wakeLines lines) where
  cur := rfl
  cmds := cmds_wakeLines s lines
  ctxs c x := by rw [ctxs_wakeLines, reread_rest]
  wait c x := by
    rw [ctxs_wakeLines]
    exact wait_reread lines _

theorem dropLines (s : State) (keys : List Nat) (keep : Option (Nat × L1Line)) : KeepsCommands s (s.dropLines keys keep) := by
  have hrest : (s.dropLines keys keep).cur = s.cur ∧ (s.dropLines keys keep).vds = s.vds := by
    unfold State.dropLines
    split <;> exact ⟨rfl, rfl⟩
  obtain ⟨hcur, hvds⟩ := hrest
  refine ⟨hcur, fun v => by rw [State.vd, State.vd, hvds], fun c x => ?_, fun c x => .inl ?_⟩ <;> simp only [ctxs_dropLines]

theorem writePlaces (s : State) (ps : List (Place × Byte)) (keep : Option (Nat × L1Line)) : KeepsCommands s (s.writePlaces ps keep) := by
  have hrun (t : State) (run : Place × List Byte) : KeepsCommands t (t.writeRun run) := by
    refine .ite (.of_same rfl rfl rfl) (foldl (fun _ _ => ?_) _ t)
    exact .of_same rfl rfl rfl
  have hsound (t : State) (cells : List Nat) : KeepsCommands t (t.soundAgain cells) := .ite (.refl t) (.of_same rfl rfl rfl)
  exact (foldl hrun _ s).trans (((hsound _ _).trans (wakeLines _ _)).trans (dropLines _ _ _))

theorem wakeBanks (s : State) (ps : List Place) : KeepsCommands s (s.wakeBanks ps) := by
  have hchannel (t : State) (ch : Nat) : KeepsCommands t (wakeChannel ch t) := by
    refine trans (t := { t with asleep := t.asleep.filter (· != ch) }) (.of_same rfl rfl rfl) (foldl (fun u r => ?_) _ _)
    exact .ite (.of_same rfl rfl rfl) (.refl u)
  exact .ite (.refl s) (foldl hchannel _ s)

theorem devWrite (s : State) (pa : Nat) (bs : List Byte) : KeepsCommands s (s.devWrite pa bs) := by
  have hrun (t : State) (r : Place × List Byte) : KeepsCommands t (t.devRun t.nextId r) :=
    .ite (.of_same rfl rfl rfl) (.ite (.refl t) (writePlaces t _ _))
  let ws := bs.zipIdx.filterMap (fun bi => (s.devPlace (pa + bi.2)).map (fun p => (p, bi.1)))
  have hawake : KeepsCommands s { s.wakeBanks (ws.map (·.1)) with nextId := s.nextId + 1 } :=
    (wakeBanks s _).trans (.of_same rfl rfl rfl)
  exact hawake.trans (foldl (fun t r => hrun t r) _ _)

end KeepsCommands

/-! ### What a post leaves (R178, R310) -/

/-- The command that a post puts into the ring: the issuer's identity and handle, its operands, and what it depends on. -/
def postedCmd (op : RingOp) (block : List Byte) (handle : BitVec 32) (w : BitVec 8) (slot : Option Nat) (s : State) : RingCmd :=
  { n := s.myVd.seq, op := op, core := s.here.origin, ctx := s.cur.ctx.val, q := (s.here.node.map (·.q)).getD 4
    block := block, handle := handle, deps := s.me.deps w, id := s.nextId, slot := slot, state := .posted, entry := s.myVd.nextEntry
    inRing := true, courses := 0, total := 0, plan := [], read := [], cflags := 0, halted := [], fault := none, issued := s.ring
    launch := (s.here.node.map (·.launch)).getD 0, groups := (s.groupQueue.map (fun q => s.myVd.queues[q].groups)).getD []
    bufs := [], alpha := 0, links := 0, own := [], lstep := 0, words := 0, awaits := none, held := none }

/-- The state in which a command's entry has been written at CMDRING. -/
def entryWritten (c : RingCmd) (w : BitVec 8) (s : State) : State :=
  s.devWrite (s.myVd.desc.cmdring.toNat + 256 * c.entry) (ringBytes c w s.me.slots.toList)

/-- A context that knows a command by its handle: the most recent of it (R183). -/
def Context.names (handle : BitVec 32) (n : Nat) (m : Context) : Context :=
  { m with cmds := m.cmds.filter (fun x => x.handle != handle) ++ [⟨handle, n, none⟩] }

/-- The command stands last in the ring of its VD. -/
def Vd.joined (c : RingCmd) (v : Vd) : Vd := { v with cmds := v.cmds ++ [c], seq := v.seq + 1 }

/-- The command joins its VD, and a named one is known to the context whose turn it is. -/
def commandJoins (vd : Nat) (c : RingCmd) (named : Bool) (u : State) : State :=
  let t := u.updVd vd (Vd.joined c)
  State.fresh (if named then t.updMe (Context.names c.handle c.n) else t)

/-- A post writes the entry and joins the command. -/
theorem postCmd_eq (op : RingOp) (block : List Byte) (handle : BitVec 32) (w : BitVec 8) (slot : Option Nat) (named : Bool) (s : State) :
    postCmd op block handle w slot named s = commandJoins s.here.vd (postedCmd op block handle w slot s) named
      (entryWritten (postedCmd op block handle w slot s) w s) := rfl

section
variable (vd : Nat) (c : RingCmd) (u : State)

theorem commandJoins_rest (named : Bool) : let t := commandJoins vd c named u
    t.mem = u.mem ∧ t.ranks = u.ranks ∧ t.vds = (u.updVd vd (Vd.joined c)).vds := by
  cases named <;> exact ⟨rfl, rfl, rfl⟩

theorem vd_commandJoins (named : Bool) (v : Nat) : (commandJoins vd c named u).vd v = (u.updVd vd (Vd.joined c)).vd v := by
  obtain ⟨-, -, hvds⟩ := commandJoins_rest vd c u named
  rw [State.vd, hvds]
  rfl

theorem cmds_commandJoins (named : Bool) : ((commandJoins vd c named u).vd vd).cmds = (u.vd vd).cmds ++ [c] := by
  rw [vd_commandJoins, vd_updVd]
  rfl

theorem vd_commandJoins_ne (named : Bool) {v : Nat} (h : v ≠ vd) : (commandJoins vd c named u).vd v = u.vd v := by
  rw [vd_commandJoins, vd_updVd_ne u _ h]

theorem core_commandJoins_ne (named : Bool) {k : Nat} (h : k ≠ u.cur.core) : (commandJoins vd c named u).core k = u.core k := by
  cases named with
  | false => rfl
  | true =>
    show ((u.updVd vd (Vd.joined c)).updMe (Context.names c.handle c.n)).core k = u.core k
    exact core_updCore_ne _ _ h

theorem me_commandJoins (named : Bool) : (commandJoins vd c named u).me = if named then u.me.names c.handle c.n else u.me := by
  cases named with
  | false => rfl
  | true =>
    show ((u.updVd vd (Vd.joined c)).updMe (Context.names c.handle c.n)).me = u.me.names c.handle c.n
    rw [me_updMe]
    rfl

/-- Of the context, only what it knows of its commands changes. -/
theorem me_commandJoins_rest (named : Bool) : { (commandJoins vd c named u).me with cmds := u.me.cmds } = u.me := by
  rw [me_commandJoins]
  cases named <;> rfl

/-- A named command is the most recent of its handle. -/
theorem getLast?_cmds_commandJoins : (commandJoins vd c true u).me.cmds.getLast? = some ⟨c.handle, c.n, none⟩ := by
  rw [me_commandJoins]
  exact List.getLast?_concat

end

section
variable (op : RingOp) (block : List Byte) (handle : BitVec 32) (w : BitVec 8) (slot : Option Nat) (named : Bool) (s : State)

theorem entryWritten_keepsCommands (c : RingCmd) : KeepsCommands s (entryWritten c w s) := .devWrite s _ _

/-- The command stands last in its VD's ring. -/
theorem cmds_postCmd :
    ((postCmd op block handle w slot named s).vd s.here.vd).cmds = s.myVd.cmds ++ [postedCmd op block handle w slot s] := by
  rw [postCmd_eq, cmds_commandJoins, (entryWritten_keepsCommands w s _).cmds]
  rfl

theorem core_postCmd_ne {k : Nat} (h : k ≠ s.cur.core) :
    (postCmd op block handle w slot named s).core k = (entryWritten (postedCmd op block handle w slot s) w s).core k := by
  rw [postCmd_eq]
  exact core_commandJoins_ne _ _ _ named (by rwa [(entryWritten_keepsCommands w s _).cur])

/-- While an entry is written, the context is as it was but for a WAITA that looks again. -/
theorem me_entryWritten (c : RingCmd) : { (entryWritten c w s).me with wait := s.me.wait } = s.me ∧
    ((entryWritten c w s).me.wait = s.me.wait ∨ (entryWritten c w s).me.wait = none) := by
  have h := entryWritten_keepsCommands w s c
  have hme : (entryWritten c w s).me = ((entryWritten c w s).core s.cur.core).ctxs[s.cur.ctx] := by
    simp only [State.me, State.here, h.cur]
  rw [hme]
  exact ⟨h.ctxs _ _, h.wait _ _⟩

/-- A context that differs from one in its commands alone, which differs from a third in its wait alone. -/
theorem Context.rest_of_rest {m u t : Context} (hu : { u with wait := m.wait } = m) (hwait : u.wait = m.wait ∨ u.wait = none)
    (ht : { t with cmds := u.cmds } = u) :
    { t with cmds := m.cmds, wait := m.wait } = m ∧ (t.wait = m.wait ∨ t.wait = none) := by
  have hsame : t.wait = u.wait := (congrArg Context.wait ht :)
  exact ⟨by rw [← hu, ← ht], by rwa [hsame]⟩

/-- No register of the posting context changes: only what it knows of its commands, and a WAITA that looks again. -/
theorem me_postCmd_rest : let t := postCmd op block handle w slot named s
    { t.me with cmds := s.me.cmds, wait := s.me.wait } = s.me ∧ (t.me.wait = s.me.wait ∨ t.me.wait = none) := by
  obtain ⟨hsame, hwait⟩ := me_entryWritten w s (postedCmd op block handle w slot s)
  have hrest := me_commandJoins_rest s.here.vd (postedCmd op block handle w slot s) (entryWritten (postedCmd op block handle w slot s) w s) named
  exact Context.rest_of_rest hsame hwait hrest

end

/-! ### The bytes of a ring entry (R310) -/

/-- A field of `n` bytes that begins with these. -/
def padded (n : Nat) (bs : List Byte) : List Byte := bs ++ List.replicate (n - bs.length) 0

theorem length_padded {n : Nat} {bs : List Byte} (h : bs.length ≤ n) : (padded n bs).length = n := by
  rw [padded, List.length_append, List.length_replicate]
  omega

theorem fieldOf_append_left {bs rest : List Byte} {k len : Nat} (h : k + len ≤ bs.length) : fieldOf (bs ++ rest) k len = fieldOf bs k len := by
  rw [fieldOf, List.drop_append_of_le_length (by omega), List.take_append_of_le_length (by rw [List.length_drop]; omega)]
  rfl

/-- The fields of a ring entry, in the order of R310. -/
def entryParts (c : RingCmd) (w : BitVec 8) (slots : List (BitVec 8)) : List (List Byte) :=
  [padded 128 (c.block.take (if c.op = .coll then 128 else 48)), padded 8 c.op.code, padded 8 (bytesOf 4 c.core ++ bytesOf 1 c.ctx),
    padded 8 (bytesOf 4 c.handle.toNat), padded 8 [w, BitVec.ofNat 8 (c.slot.getD 0xFF)], bytesOf 8 c.n, padded 88 slots]

theorem ringBytes_eq_flatten (c : RingCmd) (w : BitVec 8) (slots : List (BitVec 8)) :
    ringBytes c w slots = (entryParts c w slots).flatten := by
  simp only [ringBytes, entryParts, padded, List.flatten_cons, List.flatten_nil, List.append_nil, List.append_assoc]

/-- The bytes of each field (R310). -/
def entryLengths : List Nat := [128, 8, 8, 8, 8, 8, 88]

section
variable (c : RingCmd) (w : BitVec 8) {slots : List (BitVec 8)} (hs : slots.length = 8)
include hs

theorem length_entryParts : (entryParts c w slots).map List.length = entryLengths := by
  have hblock : (c.block.take (if c.op = .coll then 128 else 48)).length ≤ 128 := by
    rw [List.length_take]
    split <;> omega
  have hcode : c.op.code.length ≤ 8 := by cases c.op <;> decide
  simp only [entryParts, List.map_cons, List.map_nil, length_padded hblock, length_padded hcode, length_bytesOf]
  rw [length_padded (by simp), length_padded (by simp), length_padded (by simp), length_padded (by omega), entryLengths]

theorem length_ringBytes : (ringBytes c w slots).length = 256 := by
  rw [ringBytes_eq_flatten, List.length_flatten, length_entryParts c w hs]
  rfl

/-- A field within part j of an entry, by where that part begins. -/
theorem num_ringBytes {j base k len : Nat} {b : List Byte} (hb : (entryParts c w slots)[j]? = some b)
    (hbase : (entryLengths.take j).sum = base) (hfit : k + len ≤ b.length) :
    num (ringBytes c w slots) (base + k) len = fieldOf b k len := by
  rw [ringBytes_eq_flatten, ← hbase, ← length_entryParts c w hs]
  exact fieldOf_flatten hb hfit

end

/-- What R310 says of the bytes of an entry. -/
theorem ringBytes_fields (c : RingCmd) (w : BitVec 8) {slots : List (BitVec 8)} (hs : slots.length = 8) : let e := ringBytes c w slots
    num e 0x88 4 = c.core % 2 ^ 32 ∧ num e 0x8C 1 = c.ctx % 2 ^ 8 ∧ num e 0x90 4 = c.handle.toNat ∧ num e 0xA0 8 = c.n % 2 ^ 64 := by
  have hcore : fieldOf (padded 8 (bytesOf 4 c.core ++ bytesOf 1 c.ctx)) 0 4 = c.core % 2 ^ 32 := by
    rw [padded, fieldOf_append_left (by simp), fieldOf_append_left (by simp), fieldOf_whole (length_bytesOf _ _), ofBytes_bytesOf,
      show (256 : Nat) ^ 4 = 2 ^ 32 from rfl]
  have hctx : fieldOf (padded 8 (bytesOf 4 c.core ++ bytesOf 1 c.ctx)) 4 1 = c.ctx % 2 ^ 8 := by
    have hparts := fieldOf_flatten (l := [bytesOf 4 c.core, bytesOf 1 c.ctx]) (j := 1) (k := 0) (len := 1) rfl (by simp)
    rw [fieldOf_whole (length_bytesOf _ _), ofBytes_bytesOf] at hparts
    rw [padded, fieldOf_append_left (by simp)]
    simpa using hparts
  have hhandle : fieldOf (padded 8 (bytesOf 4 c.handle.toNat)) 0 4 = c.handle.toNat := by
    rw [padded, fieldOf_append_left (by simp), fieldOf_whole (length_bytesOf _ _), ofBytes_bytesOf_toNat _ (by decide)]
  have hn : fieldOf (bytesOf 8 c.n) 0 8 = c.n % 2 ^ 64 := by
    rw [fieldOf_whole (length_bytesOf _ _), ofBytes_bytesOf, show (256 : Nat) ^ 8 = 2 ^ 64 from rfl]
  exact ⟨(num_ringBytes c w hs (j := 2) (k := 0) rfl rfl (by simp [padded])).trans hcore,
    (num_ringBytes c w hs (j := 2) (k := 4) rfl rfl (by simp [padded])).trans hctx,
    (num_ringBytes c w hs (j := 3) (k := 0) rfl rfl (by simp [padded])).trans hhandle,
    (num_ringBytes c w hs (j := 5) (k := 0) rfl rfl (by simp)).trans hn⟩

/-- An entry begins with as much of the block as its command has. -/
theorem take_ringBytes (c : RingCmd) (w : BitVec 8) (slots : List (BitVec 8)) {n : Nat}
    (hn : n ≤ (if c.op = .coll then 128 else 48)) (hblock : n ≤ c.block.length) : (ringBytes c w slots).take n = c.block.take n := by
  have hle : n ≤ (c.block.take (if c.op = .coll then 128 else 48)).length := by
    rw [List.length_take]
    omega
  rw [ringBytes_eq_flatten, entryParts, List.flatten_cons, padded, List.append_assoc, List.take_append_of_le_length hle, List.take_take,
    Nat.min_eq_left hn]

/-! ### Every clause together -/

/-- Settles O30: where each member posts, what the post leaves of the state, and the bytes of its entry. -/
theorem ringCommands : Obligations.RingCommands := by
  refine ⟨fun a b w sl sb => ⟨fun bs u t s hg hc ⟨⟨hslot, hring⟩, halign, hread, hwords⟩ => ?coll,
      fun bs u t s hg hc ⟨⟨hslot, hring⟩, halign, hread, hwords⟩ => ?rkrun,
      fun bs u t s hg hc ⟨⟨hslot, hring⟩, halign, hread, hwords, hheld⟩ => ?rkovl, fun s hg hc hring => ?rksig,
      fun s hg hc hring => ?rkstop⟩, fun op bs h w slot named s => ?post, fun c w slots hs => ?bytes⟩
  case coll =>
    rw [exec_coll, execColl, ringOp_posts hc hslot hring halign hg hread hwords rfl, List.append_nil]
    rfl
  case rkrun =>
    rw [exec_rkrun, execRkrun, ringOp_posts hc hslot hring halign hg hread hwords rfl, List.append_nil]
    rfl
  case rkovl => exact exec_rkovl_posts hc hslot hring halign hg hread hwords hheld
  case rksig => rw [exec_rksig, execRksig, groupOp_posts hg hc hring]
  case rkstop =>
    rw [exec_rkstop, execRkstop, groupOp_posts hg hc hring]
    rfl
  case post =>
    obtain ⟨hmem, hranks, -⟩ := commandJoins_rest s.here.vd (postedCmd op bs h w slot s)
      (entryWritten (postedCmd op bs h w slot s) w s) named
    refine ⟨⟨postedCmd op bs h w slot s, cmds_postCmd op bs h w slot named s, rfl, rfl, rfl, rfl, rfl, rfl, rfl, rfl, rfl, rfl, ?recent,
      hmem, hranks, fun v hv => vd_commandJoins_ne _ _ _ named hv, fun k hk => core_postCmd_ne op bs h w slot named s hk⟩,
      me_postCmd_rest op bs h w slot named s⟩
    case recent =>
      rintro rfl
      exact getLast?_cmds_commandJoins _ _ _
  case bytes =>
    exact ⟨length_ringBytes c w hs, fun hop hlen => by rw [take_ringBytes c w slots (by rw [if_pos hop]) hlen.ge, List.take_of_length_le hlen.le],
      fun hop hlen => take_ringBytes c w slots (by rw [if_neg hop]) hlen, ringBytes_fields c w hs⟩

end Sys2Proof.Machine
end

section
/-! PROOFS. Events of engines, command rings and launches (O40). -/

namespace Sys2Proof.Machine

/-! ### The copy engines (R161, R168, R169) -/

theorem copyHead_eq_some_iff (s : State) (c : Nat) (e : EngCmd) :
    s.copyHead c = some e ↔ (s.core c).copies.find? (fun e => !e.started) = some e ∧ e.mayStart c s = true := by
  unfold State.copyHead
  cases (s.core c).copies.find? (fun e => !e.started) with
  | none => simp
  | some x =>
    dsimp only
    split
    · next h => exact ⟨fun hx => ⟨hx, Option.some.inj hx ▸ h⟩, fun hx => hx.1⟩
    · next h => exact ⟨nofun, fun ⟨hx, hm⟩ => absurd (Option.some.inj hx ▸ hm) h⟩

/-- The next queue in the rotation whose first copy may start is served, while one of the 4 places is free. -/
theorem startCopy_serves {s : State} {c d : Nat} {e : EngCmd}
    (hturn : ((List.range 8).map (fun i => 8 * (c / 8) + ((lookup (c / 8) s.ceNext).getD 0 + i) % 8)).find? (fun d => (s.copyHead d).isSome) =
      some d) (hhead : s.copyHead d = some e)
    (hfree : ((List.range 8).map (fun i => ((s.core (8 * (c / 8) + i)).copies.filter (·.started)).length)).sum < 4) :
    startCopy c s = asContext d e.ctx (beginCopy d e) { s with ceNext := put (c / 8) ((d + 1) % 8) s.ceNext } := by
  simp only [startCopy, hturn, hhead, if_neg (Nat.not_le.mpr hfree)]

/-- A copy whose pages have been translated: it starts, is held by the pagers, or waits for a bank (R167, R292, R371). -/
def copyBegun (c : Nat) (e : EngCmd) (t : State) : Pages → State
  | .ok pages =>
    setCopy c { e with started := true, held := none, lines := (askLines pages (e.reads.map (paIn pages)) t).2 }
      (askLines pages (e.reads.map (paIn pages)) t).1
  | .fail _ => setCopy c { e with started := true, held := none } t
  | .hold va => setCopy c { e with held := some ⟨BitVec.ofNat 64 va, none⟩ } t
  | .busy => t

theorem beginCopy_eq_copyBegun {s t : State} {c : Nat} {e : EngCmd} {p : Pages} (hheld : e.held = none) (hp : copyPages e s = (t, p)) :
    beginCopy c e s = copyBegun c e t p := by
  simp only [beginCopy, hheld, hp]
  cases p <;> rfl

section
variable {s : State} {c : Nat} {e : EngCmd} {l : List EngCmd} (hq : (s.core c).copies = e :: l) (hst : e.started = true)
  (hlines : e.lines = []) (hids : e.idents = [])
include hq hst hlines hids

theorem completeCopy_written (hw : e.written = true) : completeCopy c s = endCopy c e s := by
  simp only [completeCopy, hq, List.head?_cons, hst, hlines, hids, hw]
  rfl

/-- A copy whose rows are written at once completes. -/
theorem completeCopy_done (hw : e.written = false) (hheld : e.held = none) (hstat : e.status &&& 0x1E0 = 0) {t : State} {st : BitVec 16}
    (hrun : runCopy e (actAs c e.ctx s) = .done t st []) :
    completeCopy c s = endCopy c { e with written := true, status := st, idents := [], held := none } t := by
  have hgood : stFailed e.status = false := by rw [stFailed, hstat]; rfl
  simp only [completeCopy, hq, List.head?_cons, hst, hlines, hids, hw, hgood, hheld, hrun]
  rfl

end

/-! ### The matrix units (R173, R175, R176) -/

/-- The next queue in the order of the weights whose head may start is served; a command that reads no tile from memory starts. -/
theorem startMx_serves {s : State} {g i : Nat} {e : EngCmd}
    (hidle : (List.range 8).any (fun i => (s.core (8 * g + i)).mx.any (·.started)) = false)
    (hturn : (muOrder (s.core (8 * g + (lookup g s.muNext).getD 0 % 8)).mxw.toNat ((lookup g s.muNext).getD 0)).find? (fun i =>
      ((s.core (8 * g + i)).mx.head?).any (fun e => e.mayStart (8 * g + i) s)) = some i)
    (hhead : (s.core (8 * g + i)).mx.head? = some e) (hfn : e.fn ≠ 3) :
    let k := (lookup g s.muNext).getD 0
    startMx g s = setMx (8 * g + i) { e with started := true } { actAs (8 * g + i) e.ctx s with
      muNext := put g (8 * (if i = k % 8 ∧ k / 8 < (s.core (8 * g + i)).mxw.toNat then k / 8 + 1 else 1) + i) s.muNext } := by
  have hmay : e.mayStart (8 * g + i) s = true := by
    have h := List.find?_some hturn
    rwa [hhead] at h
  have hload : ¬ (e.fn = 3 ∧ e.isLocal = false) := fun h => hfn h.1
  unfold startMx
  extract_lets k core busy head
  have hsome (j : Nat) : (head j).isSome = ((s.core (8 * g + j)).mx.head?).any (fun e => e.mayStart (8 * g + j) s) := by
    dsimp only [head, core]
    cases (s.core (8 * g + j)).mx.head? with
    | none => rfl
    | some x => cases h : x.mayStart (8 * g + j) s <;> simp [h]
  have hserved : head i = some e := by
    dsimp only [head, core]
    rw [hhead]
    exact if_pos hmay
  have hfind : (muOrder (s.core (core (k % 8))).mxw.toNat k).find? (fun j => (head j).isSome) = some i := by
    simp only [hsome]
    exact hturn
  rw [if_neg (by rw [show busy = false from hidle]; exact Bool.false_ne_true)]
  simp only [hfind, hserved, hload, if_false]
  rfl

section
variable {s : State} {g i : Nat} {e : EngCmd}
  (hi : (List.range 8).find? (fun i => (s.core (8 * g + i)).mx.any (·.started)) = some i)
  (he : (s.core (8 * g + i)).mx.find? (·.started) = some e)
include hi he

theorem completeMx_done (hlines : e.lines = []) (hids : e.idents = []) (hw : e.written = false) (hheld : e.held = none)
    (hstat : e.status &&& 0x1E0 = 0) {t : State} {st : BitVec 16} (hrun : runMx e (actAs (8 * g + i) e.ctx s) = .done t st []) :
    completeMx g s = endMx (8 * g + i) { e with written := true, status := st, idents := [], held := none } t := by
  have hgood : stFailed e.status = false := by rw [stFailed, hstat]; rfl
  simp only [completeMx, hi, he, hlines, hids, hw, hgood, hheld, hrun]
  rfl

end

/-! ### The command ring (R182 to R186, R261, R310) -/

section
variable {s : State} {vd n : Nat} {k : RingCmd} (hk : s.cmd vd n = some k)
include hk

/-- A posted command that may start, first of its context, does what it is. -/
theorem dispatch_starts (hpost : k.state = .posted) (hheld : k.held = none) (hmay : cmdMayStart s vd k = true)
    (hfirst : cmdFirst s vd k = true) (hact : (s.vd vd).active s.ring = true) :
    execCommandRingDispatch vd n s = .next (match k.op with
      | .coll => (startColl vd { k with inRing := false } (updCmd vd n (fun x => { x with inRing := false }) s.afresh)).served s
      | .rkovl => startRkovl vd { k with inRing := false } (updCmd vd n (fun x => { x with inRing := false }) s)
      | .rkrun => startRkrun vd { k with inRing := false } (updCmd vd n (fun x => { x with inRing := false }) s)
      | .rksig => pushSigs (updCmd vd n (fun x => { x with state := .running }) s)
      | .rkstop => runRkstop vd { k with inRing := false } (updCmd vd n (fun x => { x with inRing := false }) s)) := by
  simp only [execCommandRingDispatch, hk, hheld, hact, hpost, hmay, hfirst, whenServed_eq_served]
  cases k.op <;> rfl

theorem collCompletion_reports {st : W64} (hop : k.op = .coll) (hst : k.state = .finished st)
    (hnone : ∀ x ∈ s.courses, ¬ (x.vd = vd ∧ x.cmd = some n)) :
    execCollCompletion vd n s = .next (reportCmd vd k st (if st.toNat % 256 = 0 then s else dropSteps vd k s)) := by
  have hopen : s.courses.any (fun x => x.vd == vd && x.cmd == some n) = false := by
    rw [List.any_eq_false]
    intro x hx hbad
    simp only [Bool.and_eq_true, beq_iff_eq] at hbad
    exact hnone x hx hbad
  have hbits : bits st.toNat 7 0 = st.toNat % 256 := congrArg (· % 256) (Nat.div_one st.toNat)
  simp only [execCollCompletion, hk, hop, hst, hopen, hbits, Bool.false_eq_true, if_false]

/-- A COLL that has not started by its deadline times out (R261). -/
theorem timeoutColl_posted (hop : k.op = .coll) (hst : k.state = .posted) (hissue : (s.vd vd).issuing s.ring = true)
    (hlate : s.ring ≥ k.issued + (if (collParams k.block).deadline = 0 then 100000 else (collParams k.block).deadline)) :
    timeoutColl vd n s = updCmd vd n (fun x => { x with inRing := false }) (finishCmd vd n 2 0 s) := by
  have hgo : ¬ (k.op ≠ .coll ∨ s.ring < k.issued + (if (collParams k.block).deadline = 0 then 100000 else (collParams k.block).deadline) ∨
      (s.vd vd).issuing s.ring = false) := by
    rintro (h | h | h)
    · exact h hop
    · omega
    · rw [hissue] at h
      exact nomatch h
  simp only [timeoutColl, hk, if_neg hgo, hst]

end

theorem statusWord_plain (code member : Nat) : statusWord code member 0 0 = BitVec.ofNat 64 (code % 256 + member % 65536 * 2 ^ 8) := by
  simp [statusWord]

/-- A run whose members have all ended, and whose words have entered their queues, ends with its first fault (R184, R265). -/
theorem completeRkrun_ends {s : State} {vd : Nat} {k : RingCmd} (hst : k.state = .running) (hall : k.total ≤ k.halted.length)
    (hmsgs : msgoPending s vd ((ranksOf s.pkg (groupIn k.groups (num k.block 0 4))).getD []) = false) :
    let e := k.fault.getD (0, 0)
    completeRkrun vd k s = reportCmd vd k (BitVec.ofNat 64 (e.2 % 256 + e.1 % 65536 * 2 ^ 8)) (finishCmd vd k.n e.2 e.1 s) := by
  have hlen : decide (k.halted.length < k.total) = false := decide_eq_false (by omega)
  simp only [completeRkrun, hst, hlen, hmsgs, statusWord_plain]
  rfl

theorem mailboxDelivery_moves {s : State} {c : Nat} {w : Word} {l : List Word} (hw : (s.rank c).holdst = w :: l)
    (hroom : (s.rank c).mailbox.length < 16) : execRksigMailboxDelivery c s =
      .next (pushSigs (s.updRank c (fun k => { k with mailbox := k.mailbox ++ [w], holdst := l }))) := by
  simp only [execRksigMailboxDelivery, hw, if_neg (Nat.not_le.mpr hroom)]

/-! ### Launches (R273 to R284, R354) -/

theorem ringDoorbell_submits {s : State} {vd q : Nat} (va : W64) (hvd : vd < 64) (h : q < 4) (hst : (s.vd vd).state ≠ .absent) :
    let r := submit vd va (BitVec.ofNat 64 q) s
    ringDoorbell vd q va s = r.1.updVd vd (fun v => { v with results := v.results.set q r.2 }) := by
  have hgo : ¬ (64 ≤ vd ∨ 4 ≤ q ∨ (s.vd vd).state = .absent) := by
    rintro (h' | h' | h')
    · omega
    · omega
    · exact hst h'
  simp only [ringDoorbell, if_neg hgo, queueIx_of_lt h]

section
variable {s : State} {vd q : Nat} (h : q < 4) {l : Launch} {r : List Launch} (hq : ((s.vd vd).queues[q]).launches = l :: r)
include h hq

/-- The head launch of a queue starts with the groups of its table (R276, R277). -/
theorem launchStart_starts (hst : l.started = false) (hissue : (s.vd vd).issuing s.ring = true)
    (hend : (s.vd vd).isEnding q l.number none = false) (hgroups : groupsHeld s vd l.groups = true) (hnodes : l.nodes ≠ []) :
    execLaunchStart vd q s = .next (decide_ vd (updLaunch vd q l.number (fun l =>
        { l with started := true, nodes := l.nodes.map (enterPool s) })
      (updQueue vd q (fun x => { x with groups := l.groups, trackers := [] }) { s with nextId := s.nextId + 1 }))) := by
  have hge : ¬ 4 ≤ q := by omega
  simp only [execLaunchStart, queueIx_of_lt h, Fin.getElem_fin, hq, hst, hissue, hend, hgroups, hnodes, hge, Bool.false_eq_true,
    Bool.true_eq_false, Bool.not_true, or_self, if_false]

section
variable {j : Nat} {x : Node} (hx : l.nodes[j]? = some x) (hrun : x.state = .running)
  (hend : (s.vd vd).isEnding q l.number (some j) = false)
include hx hrun hend

/-- A sweep of a gang (R280, R281): the second of two equal balanced ones ends the node, and every other is kept or forgotten. -/
theorem terminationSweep_sweeps (hkind : x.kind = 1) (hissue : (s.vd vd).issuing s.ring = true) :
    let counts := x.cores.map (originCounts s vd)
    let sent := (counts.map (·.1)).foldl (· + ·) 0
    let rcvd := (counts.map (·.2)).foldl (· + ·) 0
    let balanced : Prop := (∀ c ∈ x.cores, originIdle s vd c = true) ∧ sent = rcvd
    execTerminationSweep vd q j s = if balanced ∧ x.sweep = some (sent, rcvd) then .next (decide_ vd (endNode vd q l.number j 0 s))
      else .next (updNode vd q l.number j (fun x => { x with sweep := if balanced then some (sent, rcvd) else none }) s) := by
  simp only [execTerminationSweep, queueIx_of_lt h, Fin.getElem_fin, hq, hx, hrun, hkind, hissue, hend, ne_eq, not_true_eq_false,
    Bool.false_eq_true, Bool.true_eq_false, or_self, if_false, Bool.and_eq_true, List.all_eq_true, beq_iff_eq]

theorem rankNodeEnd_ends (hkind : x.kind = 2) (hall : (groupIn l.groups x.size).length ≤ x.halted.length) :
    execRankNodeEnd vd q j s = .next (decide_ vd (endNode vd q l.number j x.code s)) := by
  simp only [execRankNodeEnd, queueIx_of_lt h, Fin.getElem_fin, hq, hx, hrun, hkind, hend, Nat.not_lt.mpr hall, ne_eq, not_true_eq_false,
    Bool.false_eq_true, or_self, if_false]

end

end

/-! ### Every clause together -/

/-- Settles O40: each event by what it does once its conditions hold. -/
theorem commandEvents : Obligations.CommandEvents := by
  intro s c vd n q j va
  refine ⟨fun d e hturn hhead hfree => congrArg Host.Outcome.next (startCopy_serves hturn hhead hfree),
    fun e r => ⟨copyHead_eq_some_iff s c e, fun hheld hr => ?begin⟩,
    fun e l hq hst hlines hids hw => congrArg Host.Outcome.next (completeCopy_written hq hst hlines hids hw),
    fun e l t st hq hst hlines hids hw hheld hstat hrun =>
      congrArg Host.Outcome.next (completeCopy_done hq hst hlines hids hw hheld hstat hrun),
    fun g i e hidle hturn hhead hfn => congrArg Host.Outcome.next (startMx_serves hidle hturn hhead hfn),
    fun g i e t st hi he hlines hids hw hheld hstat hrun =>
      congrArg Host.Outcome.next (completeMx_done hi he hlines hids hw hheld hstat hrun),
    fun k hk hpost hheld hmay hfirst hact => dispatch_starts hk hpost hheld hmay hfirst hact,
    fun k st hk hop hst hnone => collCompletion_reports hk hop hst hnone, fun k st hk hop hst => ?rkovl, fun k st hk hop hst => ?rkrun,
    fun k hk hop hst hall hmsgs => ?ends,
    fun k hk hop hst hissue hlate => congrArg Host.Outcome.next (timeoutColl_posted hk hop hst hissue hlate),
    fun w l hw hroom => mailboxDelivery_moves hw hroom, fun hvd h hst => ?doorbell,
    fun h l r hq hst hissue hend hgroups hnodes => launchStart_starts h hq hst hissue hend hgroups hnodes,
    fun h l r x hq hx hrun hissue hend => ⟨fun hkind hquiet hbal hsweep => ?second, fun hkind hquiet hbal hsweep => ?first,
      fun hkind hnot => ?none, fun hkind hall => rankNodeEnd_ends h hq hx hrun hend hkind hall⟩⟩
  case begin =>
    obtain ⟨t, p⟩ := r
    rw [beginCopy_eq_copyBegun hheld hr]
    cases p <;> rfl
  case rkovl =>
    simp only [exec_rkovlCompletion, execRkovlCompletion, hk, hop, if_true, completeRkovl, hst]
  case rkrun =>
    simp only [exec_rkrunCompletion, execRkrunCompletion, hk, hop, if_true, completeRkrun, hst]
  case ends =>
    simp only [exec_rkrunCompletion, execRkrunCompletion, hk, hop, if_true, completeRkrun_ends hst hall hmsgs]
  case doorbell =>
    rw [exec_launchDoorbell, execLaunchDoorbell, whenServed_eq_served, ringDoorbell_submits (s := s.afresh) va hvd h hst]
  case second =>
    rw [exec_terminationSweep, terminationSweep_sweeps h hq hx hrun hend hkind hissue]
    exact if_pos ⟨⟨hquiet, hbal⟩, hsweep⟩
  case first =>
    rw [exec_terminationSweep, terminationSweep_sweeps h hq hx hrun hend hkind hissue]
    refine (if_neg fun hboth => hsweep hboth.2).trans ?_
    simp only [if_pos (And.intro hquiet hbal)]
  case none =>
    rw [exec_terminationSweep, terminationSweep_sweeps h hq hx hrun hend hkind hissue]
    refine (if_neg fun hboth => hnot hboth.1).trans ?_
    simp only [if_neg hnot]

end Sys2Proof.Machine
end

section
/-! PROOFS. The scalar instructions and branches of a rank (O32). -/

namespace Sys2Proof.Machine

/-! ### The scalar registers by the fields of a word (R189) -/

theorem Rank.getS_of_lt (k : Rank) {x : Nat} (h : x < 16) : k.getS x = k.s[x] := by
  simp only [Rank.getS, Fin.getElem_fin, Fin.val_ofNat, Nat.mod_eq_of_lt h]

/-- A register that a 4-bit field names. -/
theorem Rank.getS_field (k : Rank) (x : BitVec 4) : k.getS x.toNat = k.s[x.toNat] := k.getS_of_lt x.isLt

theorem Rank.setS_field (k : Rank) (x : BitVec 4) (v : Word) :
    k.setS x.toNat v = if x.toNat = 0 then k else { k with s := k.s.set x.toNat v } := by
  have hx : x.toNat % 16 = x.toNat := Nat.mod_eq_of_lt x.isLt
  simp only [Rank.setS, Fin.val_ofNat, hx]

/-! ### Values as numbers (R195) -/

theorem append_eq_ofNat {m n : Nat} (x : BitVec m) (y : BitVec n) : x ++ y = BitVec.ofNat (m + n) (x.toNat * 2 ^ n + y.toNat) := by
  have h : x.toNat * 2 ^ n + y.toNat < 2 ^ (m + n) := by
    have hx := x.isLt
    have hy := y.isLt
    calc x.toNat * 2 ^ n + y.toNat < (x.toNat + 1) * 2 ^ n := by linarith
      _ ≤ 2 ^ m * 2 ^ n := Nat.mul_le_mul_right _ hx
      _ = 2 ^ (m + n) := (Nat.pow_add 2 m n).symm
  apply BitVec.eq_of_toNat_eq
  rw [BitVec.toNat_append, BitVec.toNat_ofNat, Nat.mod_eq_of_lt h, ← Nat.shiftLeft_add_eq_or_of_lt y.isLt, Nat.shiftLeft_eq]

theorem add_signExtend_eq_ofInt (x : Word) (i : BitVec 14) : x + i.signExtend 32 = BitVec.ofInt 32 (x.toInt + i.toInt) := by
  rw [BitVec.ofInt_add, BitVec.ofInt_toInt, BitVec.signExtend]

theorem word_sub_eq_ofInt (x y : Word) : x - y = BitVec.ofInt 32 (x.toInt - y.toInt) := by
  rw [Int.sub_eq_add_neg, BitVec.ofInt_add, BitVec.ofInt_neg, BitVec.ofInt_toInt, BitVec.ofInt_toInt, BitVec.sub_eq_add_neg]

/-! ### What a scalar instruction and a branch leave -/

/-- An instruction that writes a scalar register, by the value it writes. -/
theorem exec_of_writesS {i : Instr} {x : BitVec 4} {f g : Rank → Word} (hi : ∀ s, exec i s = rankStep 1 (fun k => k.setS x.toNat (f k)) s)
    (hfg : ∀ k, f k = g k) (s : State) : exec i s = .next (rankDone 1 (s.rk.upc + 1) false
      (fun k => if x.toNat = 0 then k else { k with s := k.s.set x.toNat (g k) }) s) := by
  obtain rfl : f = g := funext hfg
  rw [hi]
  simp only [Rank.setS_field]
  rfl

/-- A scalar operation on two registers. -/
theorem exec_of_scalarOp {i : Instr} {x y z : BitVec 4} {f g : Word → Word → Word} (hi : ∀ s, exec i s = scalarOp x y z f s)
    (hfg : ∀ a b, f a b = g a b) (s : State) : exec i s = .next (rankDone 1 (s.rk.upc + 1) false
      (fun k => if x.toNat = 0 then k else { k with s := k.s.set x.toNat (g k.s[y.toNat] k.s[z.toNat]) }) s) :=
  exec_of_writesS hi (fun k => by rw [k.getS_field, k.getS_field, hfg]) s

section
variable {taken : Rank → Bool} {i : BitVec 14} {f : Rank → Rank} {s : State}

theorem branch_jumps (h : taken s.rk = true) (hlo : 0 ≤ (s.rk.upc : Int) + i.toInt) (hhi : (s.rk.upc : Int) + i.toInt ≤ 1023) :
    branch taken i f s = .next (rankDone 1 ((s.rk.upc : Int) + i.toInt).toNat false f s) := by
  simp only [branch, rankIssue, h, if_true, if_neg (show ¬ (_ ∨ _) from not_or.mpr ⟨hlo.not_gt, hhi.not_gt⟩)]

theorem branch_leaves (h : taken s.rk = true) (hout : (s.rk.upc : Int) + i.toInt < 0 ∨ 1023 < (s.rk.upc : Int) + i.toInt) :
    branch taken i f s = .next (rankFault s.cur.rank 4 s) := by
  simp only [branch, rankIssue, h, if_true, if_pos hout]

theorem branch_falls (h : taken s.rk = false) : branch taken i f s = .next (rankDone 1 (s.rk.upc + 1) false f s) := by
  simp only [branch, rankIssue, h, Bool.false_eq_true, if_false]

end

/-- The three ends of a branch, by the condition it tests. -/
theorem exec_of_branch {j : Instr} {taken : Rank → Bool} {i : BitVec 14} {f : Rank → Rank} {p : Rank → Prop}
    (hj : ∀ s, exec j s = branch taken i f s) (hp : ∀ k, taken k = true ↔ p k) (s : State) :
    let t : Int := s.rk.upc + i.toInt
    (p s.rk → 0 ≤ t → t ≤ 1023 → exec j s = .next (rankDone 1 t.toNat false f s)) ∧
    (p s.rk → (t < 0 ∨ 1023 < t) → exec j s = .next (rankFault s.cur.rank 4 s)) ∧
    (¬ p s.rk → exec j s = .next (rankDone 1 (s.rk.upc + 1) false f s)) := by
  rw [hj]
  exact ⟨fun h => branch_jumps ((hp _).mpr h), fun h => branch_leaves ((hp _).mpr h),
    fun h => branch_falls (Bool.eq_false_iff.mpr (mt (hp _).mp h))⟩

/-- Settles O32, member by member: the value that R195 gives, and the condition that R196 tests. -/
theorem rankScalars : Obligations.RankScalars := by
  refine ⟨fun x y z i => ?_, fun x i => ?_⟩
  · intro imm S S2
    have imm_eq : imm18 y i = BitVec.ofNat 18 imm := append_eq_ofNat y i
    have himm : imm < 2 ^ 18 := by
      have := y.isLt
      have := i.isLt
      omega
    have writes {j : Instr} {f g : Rank → Word} (hj : ∀ s, exec j s = rankStep 1 (fun k => k.setS x.toNat (f k)) s)
        (hfg : ∀ k, f k = g k) : S j g := exec_of_writesS hj hfg
    have scalar {j : Instr} {f g : Word → Word → Word} (hj : ∀ s, exec j s = scalarOp x y z f s) (hfg : ∀ a b, f a b = g a b) :
        S2 j g := exec_of_scalarOp hj hfg
    clear_value S2 S imm
    refine ⟨?sli, ?slih, ?saddi, ?sadd, ?ssub, ?sand, ?sor, ?sxor, ?sshl, ?sshr, ?smul, ?sclt⟩
    case sli => exact writes (exec_sli x y i) fun _ => by rw [imm_eq, BitVec.signExtend]
    case slih =>
      refine writes (exec_slih x y i) fun k => ?_
      rw [append_eq_ofNat, imm_eq, BitVec.toNat_ofNat, Nat.mod_eq_of_lt himm, BitVec.extractLsb'_toNat, Nat.shiftRight_zero, k.getS_field]
    case saddi =>
      exact writes (exec_saddi x y i) fun k => by rw [k.getS_field, add_signExtend_eq_ofInt]
    case sadd => exact scalar (exec_sadd x y z) fun _ _ => rfl
    case ssub => exact scalar (exec_ssub x y z) word_sub_eq_ofInt
    case sand => exact scalar (exec_sand x y z) fun _ _ => rfl
    case sor => exact scalar (exec_sor x y z) fun _ _ => rfl
    case sxor => exact scalar (exec_sxor x y z) fun _ _ => rfl
    case sshl => exact scalar (exec_sshl x y z) fun a b => lane_shiftLeft_eq_ofNat a (b.toNat % 32)
    case sshr => exact scalar (exec_sshr x y z) fun a b => lane_ushiftRight_eq_ofNat a (b.toNat % 32)
    case smul => exact scalar (exec_smul x y z) fun _ _ => rfl
    case sclt => exact scalar (exec_sclt x y z) fun _ _ => if_congr BitVec.slt_iff_toInt_lt rfl rfl
  · intro B less
    have hless (k : Rank) : k.getS x.toNat - 1 = less k := by rw [k.getS_field]; exact word_sub_eq_ofInt _ 1
    refine ⟨?sbz, ?sbnz, ?sj, ?sloop⟩
    case sbz => exact exec_of_branch (exec_sbz x i) fun k => by rw [k.getS_field, beq_iff_eq]
    case sbnz => exact exec_of_branch (exec_sbnz x i) fun k => by rw [k.getS_field, bne_iff_ne]
    case sj => exact exec_of_branch (exec_sj i) fun _ => iff_of_true rfl trivial
    case sloop =>
      have hf : (fun k : Rank => k.setS x.toNat (k.getS x.toNat - 1)) =
          fun k => if x.toNat = 0 then k else { k with s := k.s.set x.toNat (less k) } := by
        funext k
        rw [k.setS_field, hless]
      rw [← hf]
      exact exec_of_branch (exec_sloop x i) fun k => by rw [bne_iff_ne, hless]

end Sys2Proof.Machine
end

section
/-! PROOFS. What fails of two statements about ranks: the status of a course instruction holds the events of its contributions too (O33),
and the row that an access opens is the physical one, of a VST the mortar row (O34). -/

namespace Sys2Proof.Machine

/-! ### The status of a course instruction (R203, R206) -/

/-- The end of an instruction that has waited is no check of its own (R271). -/
theorem endWait_of_wait {s : State} {r : Nat} {w : RankWait} (f : Rank → Rank) (h : (s.rank r).wait = some w) :
    endWait r f s = s.updRank r (fun k => { f k with upc := k.upc + 1, wait := none, timer := 0, ns := k.ns + 1 }) := by
  simp only [endWait, h, Option.isNone_some, Bool.false_and, Bool.false_eq_true, if_false, State.updRank, Option.isSome_some, if_true]

/-- Rank 0 waits in a reduction in which a contribution of its own was inexact; its status goes to s1. -/
def inexactReduction : State := Tests.demoRank [] 5 (fun k => { k with dest := 1, cfl := Fl.NX, wait := some (.course 7) })

/-- The status has NX of the instruction, which FL does not hold. -/
theorem status_inexactReduction : ((endCourseInstr 0 0 inexactReduction).rank 0).s[1] = BitVec.ofNat 32 (Fl.NX.toNat * 2 ^ 8) := by
  have hwait : (inexactReduction.rank 0).wait = some (.course 7) := by decide
  rw [endCourseInstr, endWait_of_wait _ hwait, rank_updRank]
  decide

/-- Refutes O33: its status is of FL alone, while a course instruction reports the events of its own contributions and roundings with
FL (R203, R206). -/
theorem not_rankStarts : ¬ Obligations.RankStarts := by
  intro h
  obtain ⟨-, hends, -⟩ := h
  obtain ⟨t, u, hchecked, -, hs, -⟩ := hends 0 0 inexactReduction none (by decide)
  have ht : endCourseInstr 0 0 inexactReduction = t := hchecked.resolve_right fun hc => absurd hc.1 (by decide)
  have hflags : (t.rank 0).s[1] = 0 := by
    rw [hs]
    decide
  rw [← ht, status_inexactReduction] at hflags
  exact absurd hflags (by decide)

/-! ### The row that a VST opens (R194, R198, R269) -/

/-- Rank 0 is in its program course, which has failed; cursor 0 is in row 8, which its ranges hold. -/
def failedProgram : State := { Tests.demoProgram 8 with courses := [] }

/-- The VST leaves its mortar row open (R269). -/
theorem exec_vst_failedProgram : exec (.vst 0 0) failedProgram = .next (accessDone 0 true (fun k => k) failedProgram) := by
  have hcourse : failedProgram.rk.course = some 7 := rfl
  have hrange : inRanges failedProgram.rk.ranges failedProgram.rk.c[cIx 0].row.toNat = true := by decide
  have hgone : failedProgram.course 7 = none := rfl
  simp only [exec_vst, execVst, rankIssue, hcourse, hrange, hgone, Bool.not_true, Bool.false_eq_true, if_false]

/-- Refutes O34: a VST writes the mortar row of its logical row (R269), so that is the row it leaves open, and not the logical one. -/
theorem not_rankMemory : ¬ Obligations.RankMemory := by
  intro h
  obtain ⟨-, haccess⟩ := h
  obtain ⟨-, -, -, -, -, hfailed, -⟩ := haccess 0 0 (by decide) (by decide) failedProgram
  have heq := exec_vst_failedProgram.symm.trans (hfailed 7 rfl rfl ⟨(8, 1), by decide, by decide⟩)
  have hopen := congrArg (fun t : State => (t.rk.open_).map (·.row)) (Host.Outcome.next.inj heq)
  exact absurd hopen (by decide)

end Sys2Proof.Machine
end

section
/-! PROOFS. Course instructions, CBAR, CBEGIN and CEND (O36). -/

namespace Sys2Proof.Machine

/-- The rank as a course instruction begins: its status will go to register x (R206). -/
def State.aimed (s : State) (x : Nat) : State := s.updRank s.cur.rank (fun k => { k with dest := x, done := 0 })

/-- The rank waits in the course that it has joined, or begun (R204). -/
def waitsInCourse (p : CoursePart) (solo : Bool) (group : Nat) (members : List Nat) (rank : Nat) (t : State) : Out :=
  .next (rankWait (.course (joinCourse p members group solo t).2) rank (joinCourse p members group solo t).1)

/-- The rank is member i of the members ms of group g, all of them ranks of this package. -/
def State.MemberOf (s : State) (g : Nat) (ms : List Nat) (i : Nat) : Prop :=
  ranksOf s.pkg (s.myGroup g) = some ms ∧ ms.findIdx? (· == s.cur.rank) = some i

/-- The rank is no member of group g as a group of ranks of this package. -/
def State.StrangerTo (s : State) (g : Nat) : Prop := ∀ l, ranksOf s.pkg (s.myGroup g) = some l → s.cur.rank ∉ l

theorem findIdx?_eq_none_of_not_mem {l : List Nat} {r : Nat} (h : r ∉ l) : l.findIdx? (· == r) = none :=
  List.findIdx?_eq_none_iff.mpr fun m hm => by
    rw [beq_eq_false_iff_ne]
    exact fun e => h (e ▸ hm)

/-- A reduction whose REDOP and format do not go together (R209). -/
def badRedop (op : CourseOp) (o f : BitVec 3) : Bool :=
  (op == .red || op == .rsc) && ((decide (4 ≤ o.toNat) && !rankInt f.toNat) || (f == 5 && o != 0))

theorem badRedop_red (o f : BitVec 3) :
    badRedop .red o f = false ↔ ¬ (4 ≤ o.toNat ∧ f ≠ 1 ∧ f ≠ 3) ∧ ¬ (f = 5 ∧ o ≠ 0) := by
  revert o f
  decide

/-! ### A built-in course instruction (R204, R207, R209) -/

section
variable {s : State} {ms : List Nat} {i : Nat} {op : CourseOp} {x z : BitVec 4} {d c : BitVec 2} {o f : BitVec 3} {g : BitVec 8}

theorem builtIn_faults (h : s.rk.course ≠ none) : builtIn op x d c z o f g s = .next (rankFault s.cur.rank 7 s) := by
  simp only [builtIn, rankIssue, Option.isSome_iff_ne_none.mpr h, if_true]

variable (hcourse : s.rk.course = none)
include hcourse

/-- A COUNT of 0 completes at once with OK (R209). -/
theorem builtIn_of_count_zero (hop : op ≠ .bar) (hcount : (s.rk.getS z.toNat).toNat = 0) :
    builtIn op x d c z o f g s = .next (endCourseInstr s.cur.rank 0 (s.aimed x.toNat)) := by
  simp only [builtIn, rankIssue, hcourse, Option.isSome_none, Bool.false_eq_true, if_false, if_pos (And.intro hop hcount)]
  rfl

variable (hgo : op = .bar ∨ (s.rk.getS z.toNat).toNat ≠ 0)
include hgo

theorem builtIn_joins (hm : s.MemberOf g.toNat ms i) (hfits : badRedop op o f = false) :
    builtIn op x d c z o f g s = waitsInCourse ⟨i, op, f.toNat, o.toNat, (s.rk.getS z.toNat).toNat, (s.rk.getS (z.toNat + 1)).toNat,
      s.rk.c[c.toNat], s.rk.c[d.toNat], []⟩ false g.toNat ms s.cur.rank (s.aimed x.toNat) := by
  have hgo' : ¬ (op ≠ .bar ∧ (s.rk.getS z.toNat).toNat = 0) := fun h => hgo.elim h.1 (· h.2)
  obtain ⟨hranks, hidx⟩ := hm
  unfold badRedop at hfits
  simp only [builtIn, rankIssue, hcourse, hranks, hidx, hfits, Option.isSome_none, Bool.false_eq_true, if_false, if_neg hgo',
    Fin.getElem_fin, Fin.val_ofNat, Nat.mod_eq_of_lt c.isLt, Nat.mod_eq_of_lt d.isLt]
  rfl

theorem builtIn_refuses (h : s.StrangerTo g.toNat ∨ badRedop op o f = true) :
    builtIn op x d c z o f g s = .next (endCourseInstr s.cur.rank 7 (s.aimed x.toNat)) := by
  have hgo' : ¬ (op ≠ .bar ∧ (s.rk.getS z.toNat).toNat = 0) := fun h => hgo.elim h.1 (· h.2)
  unfold badRedop at h
  simp only [builtIn, rankIssue, hcourse, Option.isSome_none, Bool.false_eq_true, if_false, if_neg hgo']
  cases hranks : ranksOf s.pkg (s.myGroup g.toNat) with
  | none => rfl
  | some l =>
    rcases h with h | h
    · simp only [findIdx?_eq_none_of_not_mem (h l hranks)]
      rfl
    · cases hidx : l.findIdx? (· == s.cur.rank) with
      | none =>
        simp only [hidx]
        rfl
      | some k =>
        simp only [hidx, h, if_true]
        rfl

end

/-! ### CBAR (R210) -/

/-- Among ranks CBAR is a course without rows. -/
theorem cbar_of_ranks {s : State} {g : BitVec 8} (x : BitVec 4) (h : ∀ m ∈ s.myGroup g.toNat, m.getLsbD 21 = true) :
    execCbar x g s = builtIn .bar x 0 0 0 0 0 g s := if_pos (List.all_eq_true.mpr h)

section
variable {s : State} {run : RankRun} {m : Nat} {x : BitVec 4} {g : BitVec 8} (hcourse : s.rk.course = none) (hrun : s.rk.run = some run)
  (hcore : ∃ m ∈ s.myGroup g.toNat, m.getLsbD 21 = false)
  (hidx : (s.myGroup g.toNat).findIdx? (· == memberId s.pkg true s.cur.rank) = some m)
include hcourse hrun hcore hidx

/-- The rank arrives at the phase of its group. -/
theorem cbar_arrives (hwait : ∀ h p t, s.rk.wait ≠ some (.barrier h p t)) :
    let k := trackerOf s run.vd run.q g.toNat
    let t := updTrackerOf run.vd run.q g.toNat (·.arrive m) (s.aimed x.toNat)
    execCbar x g s = if (k.arrive m).complete (s.myGroup g.toNat).length (k.count m) then .next (endCourseInstr s.cur.rank 0 t)
      else .next (rankWait (.barrier g.toNat (k.count m) s.ring) s.cur.rank t) := by
  intro k t
  have hall : (s.myGroup g.toNat).all (·.getLsbD 21) = false := List.all_eq_false.mpr (by simpa using hcore)
  simp only [execCbar, hall, Bool.false_eq_true, if_false, rankIssue, hcourse, hrun, hidx, Option.isSome_none, Option.map_some,
    Option.getD_some]
  cases ((trackerOf s run.vd run.q g.toNat).arrive m).complete (s.myGroup g.toNat).length ((trackerOf s run.vd run.q g.toNat).count m) <;> rfl

theorem cbar_waits {h p b : Nat} (hwait : s.rk.wait = some (.barrier h p b)) :
    execCbar x g s = if (trackerOf s run.vd run.q g.toNat).complete (s.myGroup g.toNat).length p then
      .next (endCourseInstr s.cur.rank 0 (s.aimed x.toNat)) else .next (rankWait (.barrier g.toNat p b) s.cur.rank s) := by
  have hall : (s.myGroup g.toNat).all (·.getLsbD 21) = false := List.all_eq_false.mpr (by simpa using hcore)
  simp only [execCbar, hall, Bool.false_eq_true, if_false, rankIssue, hcourse, hrun, hidx, hwait, Option.isSome_none, Option.map_some,
    Option.getD_some]
  cases (trackerOf s run.vd run.q g.toNat).complete (s.myGroup g.toNat).length p <;> rfl

end

/-! ### CEND and CBEGIN (R205, R206) -/

theorem cend_faults {s : State} (x : BitVec 4) (h : s.rk.course = none) : execCend x s = .next (rankFault s.cur.rank 7 s) := by
  simp only [execCend, rankIssue, h]

theorem cend_ends {s : State} {id : Nat} (x : BitVec 4) (h : s.rk.course = some id) : execCend x s =
    match s.rk.failed with
    | some code => .next (endCourseInstr s.cur.rank code (s.updRank s.cur.rank (fun k => { k with dest := x.toNat })))
    | none => .next (rankWait (.course id) s.cur.rank (s.updRank s.cur.rank (fun k => { k with dest := x.toNat }))) := by
  cases hfailed : s.rk.failed <;> simp only [execCend, rankIssue, h, hfailed]

/-- The two row ranges that CBEGIN names, in sY to sY+3 (R205). -/
def Rank.rangesAt (k : Rank) (y : Nat) : List (Nat × Nat) :=
  [((k.getS y).toNat, (k.getS (y + 1)).toNat), ((k.getS (y + 2)).toNat, (k.getS (y + 3)).toNat)]

/-- The rank as CBEGIN begins. -/
def State.ranged (s : State) (x y : Nat) : State :=
  s.updRank s.cur.rank (fun k => { k with dest := x, ranges := s.rk.rangesAt y })

/-- Member j in a program course over the ranges. -/
def programPart (rs : List (Nat × Nat)) (j : Nat) : CoursePart := ⟨j, .program, 0, 0, 0, 0, Cursor.reset, Cursor.reset, rs⟩

section
variable {s : State} {ms : List Nat} {i : Nat} {x y : BitVec 4} {g : BitVec 8}

theorem cbegin_faults (u : BitVec 1) (h : s.rk.course ≠ none) : execCbegin x y u g s = .next (rankFault s.cur.rank 7 s) := by
  simp only [execCbegin, rankIssue, Option.isSome_iff_ne_none.mpr h, if_true]

variable (hcourse : s.rk.course = none)
include hcourse

theorem cbegin_solo : execCbegin x y 1 g s =
    waitsInCourse (programPart (s.rk.rangesAt y.toNat) 0) true g.toNat [s.cur.rank] s.cur.rank (s.ranged x.toNat y.toNat) := by
  simp only [execCbegin, rankIssue, hcourse, Option.isSome_none, Bool.false_eq_true, if_false, if_true]
  rfl

theorem cbegin_joins (hm : s.MemberOf g.toNat ms i) : execCbegin x y 0 g s =
    waitsInCourse (programPart (s.rk.rangesAt y.toNat) i) false g.toNat ms s.cur.rank (s.ranged x.toNat y.toNat) := by
  obtain ⟨hranks, hidx⟩ := hm
  simp only [execCbegin, rankIssue, hcourse, hranks, hidx, Option.isSome_none, Bool.false_eq_true, if_false,
    if_neg (show ¬ (0 : BitVec 1) = 1 by decide)]
  rfl

theorem cbegin_refuses (h : s.StrangerTo g.toNat) :
    execCbegin x y 0 g s = .next (endBegin s.cur.rank 7 none (s.ranged x.toNat y.toNat)) := by
  simp only [execCbegin, rankIssue, hcourse, Option.isSome_none, Bool.false_eq_true, if_false,
    if_neg (show ¬ (0 : BitVec 1) = 1 by decide)]
  cases hranks : ranksOf s.pkg (s.myGroup g.toNat) with
  | none => rfl
  | some l =>
    simp only [findIdx?_eq_none_of_not_mem (h l hranks)]
    rfl

end

/-- Settles O36: each instruction by whether a course is open, its COUNT, and the place of the rank in the group. -/
theorem rankCourses : Obligations.RankCourses := by
  intro x y z d c o f g s ms i hz r count aim waits member stranger agree C
  have hcount : (s.rk.getS z.toNat).toNat = count := congrArg BitVec.toNat (s.rk.getS_field z)
  have hextra : s.rk.getS (z.toNat + 1) = s.rk.s[z.toNat + 1] := s.rk.getS_of_lt (Nat.succ_lt_succ hz)
  have course {j : Instr} {op : CourseOp} {q : BitVec 3} {fits : Prop} (hj : ∀ s, exec j s = builtIn op x d c z q f g s)
      (hop : op ≠ .bar) (hfits : badRedop op q f = false ↔ fits) : C j op q fits := by
    have hgo (hne : count ≠ 0) : op = .bar ∨ (s.rk.getS z.toNat).toNat ≠ 0 := .inr (hcount ▸ hne)
    refine ⟨fun hnone hzero => ?_, fun hnone hne hm h => ?_, fun hnone hne h => ?_, fun hopen => (hj s).trans (builtIn_faults hopen)⟩
    · exact (hj s).trans (builtIn_of_count_zero hnone hop (hcount.trans hzero))
    · rw [hj, builtIn_joins hnone (hgo hne) hm (hfits.mpr h), hcount, hextra]
      rfl
    · refine (hj s).trans (builtIn_refuses hnone (hgo hne) (h.imp_right fun hbad => ?_))
      exact Bool.eq_true_of_not_eq_false (mt hfits.mp hbad)
  clear_value C
  refine ⟨?shift, ?xpose, ?a2a, ?red, ?rsc, ?gath, ?bcast, ?ranks, ?arrives, ?again, ?cend, ?cendFaults, fun h => ?cbegin⟩
  case shift => exact course (exec_cshift x d c z f g) nofun (iff_of_true rfl trivial)
  case xpose => exact course (exec_cxpose x d c z f g) nofun (iff_of_true rfl trivial)
  case a2a => exact course (exec_ca2a x d c z f g) nofun (iff_of_true rfl trivial)
  case red => exact course (exec_cred x d c z o f g) nofun (badRedop_red o f)
  case rsc => exact course (exec_crsc x d c z o f g) nofun (badRedop_red o f)
  case gath => exact course (exec_cgath x d c z f g) nofun (iff_of_true rfl trivial)
  case bcast => exact course (exec_cbcast x d c z f g) nofun (iff_of_true rfl trivial)
  case ranks =>
    intro hnone hall hm
    rw [exec_cbar, cbar_of_ranks x hall, builtIn_joins hnone (.inl rfl) hm rfl]
    rfl
  case arrives => exact fun run m hnone hrun hcore hidx hwait => cbar_arrives hnone hrun hcore hidx hwait
  case again => exact fun run m h p b hnone hrun hcore hidx hwait => cbar_waits hnone hrun hcore hidx hwait
  case cend =>
    intro hopen
    obtain ⟨id, hid⟩ := Option.ne_none_iff_exists'.mp hopen
    rw [exec_cend, cend_ends x hid, hid]
    rfl
  case cendFaults => exact cend_faults x
  case cbegin =>
    intro rs t p
    obtain ⟨hlo, hhi⟩ := h
    have hrs : s.rk.rangesAt y.toNat = rs := by
      rw [Rank.rangesAt, s.rk.getS_of_lt, s.rk.getS_of_lt, s.rk.getS_of_lt, s.rk.getS_of_lt]
    have ht : s.ranged x.toNat y.toNat = t := by rw [State.ranged, hrs]
    refine ⟨fun hnone => ?_, fun hnone hm => ?_, fun hnone hs => ?_, fun u hopen => cbegin_faults u hopen⟩
    · rw [exec_cbegin, cbegin_solo hnone, hrs, ht]
      rfl
    · rw [exec_cbegin, cbegin_joins hnone hm, hrs, ht]
      rfl
    · rw [exec_cbegin, cbegin_refuses hnone hs, ht]

end Sys2Proof.Machine
end

section
/-! PROOFS. Vector, conversion and accumulator instructions of a rank (O35). -/

namespace Sys2Proof.Machine

/-! ### Fields of packed numbers (R40, R200) -/

/-- Field j of w bits of a vector register. -/
def fieldAt (w : Nat) (v : W256) (j : Nat) : Nat := v.toNat / 2 ^ (w * j) % 2 ^ w

theorem packFields_lt (w : Nat) (l : List Nat) : packFields w l < 2 ^ (w * l.length) := by
  induction l with
  | nil => exact Nat.one_pos
  | cons x r ih =>
    have hx : x % 2 ^ w < 2 ^ w := Nat.mod_lt _ (Nat.two_pow_pos w)
    calc packFields w (x :: r) < 2 ^ w * (packFields w r + 1) := by rw [packFields]; linarith
      _ ≤ 2 ^ w * 2 ^ (w * r.length) := Nat.mul_le_mul_left _ ih
      _ = 2 ^ (w * (r.length + 1)) := by rw [← Nat.pow_add, Nat.mul_succ, Nat.add_comm]

theorem packFields_field (w : Nat) (l : List Nat) (j : Nat) : packFields w l / 2 ^ (w * j) % 2 ^ w = l.getD j 0 % 2 ^ w := by
  induction l generalizing j with
  | nil => simp [packFields]
  | cons x r ih =>
    have hw := Nat.two_pow_pos w
    cases j with
    | zero => simp [packFields]
    | succ j =>
      have hrest : packFields w (x :: r) / 2 ^ w = packFields w r := by
        rw [packFields, Nat.add_mul_div_left _ _ hw, Nat.div_eq_of_lt (Nat.mod_lt _ hw), Nat.zero_add]
      rw [Nat.mul_succ, Nat.add_comm, Nat.pow_add, ← Nat.div_div_eq_div_mul, hrest, ih, List.getD_cons_succ]

/-- A register made of fields that fill it has them. -/
theorem field_packed {w : Nat} {l : List Nat} (h : w * l.length = 256) (j : Nat) :
    fieldAt w (BitVec.ofNat 256 (packFields w l)) j = l.getD j 0 % 2 ^ w := by
  have hlt : packFields w l < 2 ^ 256 := (packFields_lt w l).trans_eq (by rw [h])
  rw [fieldAt, BitVec.toNat_ofNat, Nat.mod_eq_of_lt hlt, packFields_field]

theorem getD_fieldsOf (w : Nat) (v : W256) {k j : Nat} (h : j < k) : (fieldsOf w k v.toNat).getD j 0 = fieldAt w v j := by
  rw [fieldsOf_eq_map_range, List.getD_eq_getElem _ _ (by simpa using h)]
  simp [fieldAt]

theorem lanes8_eq (v : W256) : lanes8 v = (List.range 8).map (fieldAt 32 v) := fieldsOf_eq_map_range 32 8 v.toNat

theorem getD_lanes8 (v : W256) {j : Nat} (h : j < 8) : (lanes8 v).getD j 0 = fieldAt 32 v j := getD_fieldsOf 32 v h

/-! ### Registers by the fields of a word -/

theorem val_vIx {x : BitVec 4} (h : x.toNat < 8) : (vIx x : Fin 8).val = x.toNat := Nat.mod_eq_of_lt h
theorem val_cIx {x : BitVec 4} (h : x.toNat < 4) : (cIx x : Fin 4).val = x.toNat := Nat.mod_eq_of_lt h

theorem get_vIx (v : Vector W256 8) {x : BitVec 4} (h : x.toNat < 8) : v[vIx x] = v[x.toNat] := by
  simp only [Fin.getElem_fin, val_vIx h]

/-! ### Instructions that work on 8 lanes (R200, R203) -/

/-- The lanes of a result by their numbers, and the events of all of them. -/
theorem setV_range (k : Rank) {x : BitVec 4} (hx : x.toNat < 8) (f : Nat → Nat × Fl) : k.setV x ((List.range 8).map f) =
    { k with v := k.v.set x.toNat (ofLanes ((List.range 8).map (fun j => (f j).1)))
             fl := (List.range 8).foldl (fun a j => a ||| (f j).2) k.fl } := by
  simp only [Rank.setV, val_vIx hx, List.map_map, List.foldl_map]
  rfl

/-- An instruction on lanes: lane j of vX is what f makes of lane j, and its events go to FL. -/
theorem exec_of_lanes {i : Instr} {x : BitVec 4} {cost : Nat} {rs : Rank → List (Nat × Fl)} {f : Rank → Nat → Nat × Fl}
    (hx : x.toNat < 8) (hi : ∀ s, exec i s = rankStep cost (fun k => k.setV x (rs k)) s) (hrs : ∀ k, rs k = (List.range 8).map (f k))
    (s : State) : ∃ v : Rank → W256, (∀ k, ∀ j < 8, fieldAt 32 (v k) j = (f k j).1 % 2 ^ 32) ∧
      exec i s = .next (rankDone cost (s.rk.upc + 1) false (fun k =>
        { k with v := k.v.set x.toNat (v k), fl := (List.range 8).foldl (fun a j => a ||| (f k j).2) k.fl }) s) := by
  refine ⟨fun k => ofLanes ((List.range 8).map (fun j => (f k j).1)), fun k j hj => ?_, ?_⟩
  · dsimp only [ofLanes]
    rw [field_packed (by simp), List.getD_eq_getElem _ _ (by simpa using hj)]
    simp
  · rw [hi]
    simp only [hrs, setV_range _ hx]
    rfl

theorem zipWith_lanes8 (f : Nat → Nat → Nat × Fl) (a b : W256) :
    List.zipWith f (lanes8 a) (lanes8 b) = (List.range 8).map (fun j => f (fieldAt 32 a j) (fieldAt 32 b j)) := by
  rw [lanes8_eq, lanes8_eq, List.zipWith_map, List.zipWith_self]

/-- A member of R200 that works lane by lane on two registers. -/
theorem exec_of_laneOp {i : Instr} {x y z : BitVec 4} {r : BitVec 3} {t : BitVec 1} {ff : Rnd → Nat → Nat → Nat × Fl}
    {fi : Word → Word → Word} {f : Nat → Nat → Nat × Fl} (hx : x.toNat < 8) (hy : y.toNat < 8) (hz : z.toNat < 8)
    (hi : ∀ s, exec i s = laneOp x y z r t ff fi s)
    (hf : ∀ a b, (if t = 1 then ((fi (BitVec.ofNat 32 a) (BitVec.ofNat 32 b)).toNat, (0 : Fl)) else ff ⟨r.toNat, 0⟩ a b) = f a b)
    (s : State) : ∃ v : Rank → W256,
      (∀ k, ∀ j < 8, fieldAt 32 (v k) j = (f (fieldAt 32 k.v[y.toNat] j) (fieldAt 32 k.v[z.toNat] j)).1 % 2 ^ 32) ∧
      exec i s = .next (rankDone 1 (s.rk.upc + 1) false (fun k => { k with
        v := k.v.set x.toNat (v k)
        fl := (List.range 8).foldl (fun a j => a ||| (f (fieldAt 32 k.v[y.toNat] j) (fieldAt 32 k.v[z.toNat] j)).2) k.fl }) s) := by
  refine exec_of_lanes (f := fun k j => f (fieldAt 32 k.v[y.toNat] j) (fieldAt 32 k.v[z.toNat] j)) hx hi (fun k => ?_) s
  rw [zipWith_lanes8, get_vIx _ hy, get_vIx _ hz]
  exact List.map_congr_left fun j _ => hf _ _

/-- One number in every lane, which raises no event. -/
theorem setV_splat (k : Rank) (x : BitVec 4) (a : Nat) :
    k.setV x ((List.range 8).map fun _ => (a, 0)) = { k with v := k.v.set (vIx x) (ofLanes (List.replicate 8 a)) } := by
  have hfl : ((List.range 8).map fun _ => (a, (0 : Fl))).foldl (fun f r => f ||| r.2) k.fl = k.fl := by
    rw [List.foldl_map]
    exact List.foldl_fixed' (fun _ => BitVec.or_zero) _
  rw [Rank.setV, hfl]
  rfl

/-! ### VCVT (R201) -/

/-- The first element of a register that a VCVT of part p works on, in elements of w bits. -/
def firstElement (w : Nat) (p : BitVec 2) : Nat := if w < 32 then 8 * p.toNat else 0

theorem rankCvtOk_of_wf {x y : BitVec 4} {d f : BitVec 3} {p : BitVec 2} {u : BitVec 1} {r : BitVec 3}
    (h : (Instr.mwVcvt x y d f p u r).wf = true) : rankCvtOk d f p = true := by
  change (_ && _ && rankCvtOk d f p && _) = true at h
  simp only [Bool.and_eq_true] at h
  exact h.1.2

/-- The formats of a VCVT fill their registers, and the part lies within them. -/
theorem rankCvt_fits (d f : BitVec 3) (p : BitVec 2) (h : rankCvtOk d f p = true) : ∀ g ∈ [d, f],
    let w := fmtBits (rankCode g.toNat)
    w * (256 / w) = 256 ∧ firstElement w p + 8 ≤ 256 / w := by
  revert d f p
  decide

theorem intFmt_rankCode (f : BitVec 3) (h : f.toNat ≤ 4) : (intFmt (rankCode f.toNat)).isSome = decide (f = 1 ∨ f = 3) := by
  revert f
  decide

/-- The result of lane j of a VCVT. -/
def cvtLane (y : BitVec 4) (d f : BitVec 3) (p : BitVec 2) (u : BitVec 1) (r : BitVec 3) (k : Rank) (j : Nat) : Nat × Fl :=
  let sw := fmtBits (rankCode f.toNat)
  convert (rankCode d.toNat) (u == 1) (decide (f = 1 ∨ f = 3)) ⟨r.toNat, 0⟩
    (valueOf (rankCode f.toNat) (fieldAt sw k.v[vIx y] (firstElement sw p + j)))

/-- The elements of vX after a VCVT: eight are results, and the others stay. -/
def cvtElements (x y : BitVec 4) (d f : BitVec 3) (p : BitVec 2) (u : BitVec 1) (r : BitVec 3) (k : Rank) : List Nat :=
  let dw := fmtBits (rankCode d.toNat)
  let first := firstElement dw p
  (List.range (256 / dw)).map (fun j =>
    if first ≤ j ∧ j < first + 8 then (cvtLane y d f p u r k (j - first)).1 else fieldAt dw k.v[vIx x] j)

theorem zipIdx_map_range {α β : Type} (n : Nat) (g : Nat → α) (h : α × Nat → β) :
    (((List.range n).map g).zipIdx).map h = (List.range n).map (fun j => h (g j, j)) :=
  List.ext_getElem (by simp) fun j _ _ => by simp

theorem getD_map_range {f : Nat → Nat} {n j : Nat} (h : j < n) : ((List.range n).map f).getD j 0 = f j := by
  rw [List.getD_eq_getElem _ _ (by simpa using h)]
  simp

/-- VCVT, element by element. -/
theorem mwVcvt_elements {x y : BitVec 4} {d f : BitVec 3} {p : BitVec 2} {u : BitVec 1} {r : BitVec 3} (h : rankCvtOk d f p = true)
    (s : State) : execMwVcvt x y d f p u r s = .next (rankDone 1 (s.rk.upc + 1) false (fun k => { k with
      v := k.v.set (vIx x) (BitVec.ofNat 256 (packFields (fmtBits (rankCode d.toNat)) (cvtElements x y d f p u r k)))
      fl := (List.range 8).foldl (fun a j => a ||| (cvtLane y d f p u r k j).2) k.fl }) s) := by
  obtain ⟨-, hsrc⟩ := rankCvt_fits d f p h f (by simp)
  have hint := intFmt_rankCode f (by simp [rankCvtOk] at h; omega)
  have hlanes (k : Rank) : (List.range 8).map (fun i => convert (rankCode d.toNat) (u == 1) (intFmt (rankCode f.toNat)).isSome ⟨r.toNat, 0⟩
      (valueOf (rankCode f.toNat) ((fieldsOf (fmtBits (rankCode f.toNat)) (256 / fmtBits (rankCode f.toNat)) k.v[vIx y].toNat).getD
        (firstElement (fmtBits (rankCode f.toNat)) p + i) 0))) = (List.range 8).map (cvtLane y d f p u r k) := by
    refine List.map_congr_left fun i hi => ?_
    rw [getD_fieldsOf _ _ (by have := List.mem_range.mp hi; omega), hint]
    rfl
  have helements (k : Rank) : ((fieldsOf (fmtBits (rankCode d.toNat)) (256 / fmtBits (rankCode d.toNat)) k.v[vIx x].toNat).zipIdx.map
      (fun e => if firstElement (fmtBits (rankCode d.toNat)) p ≤ e.2 ∧ e.2 < firstElement (fmtBits (rankCode d.toNat)) p + 8 then
        (((List.range 8).map (cvtLane y d f p u r k)).map (·.1)).getD (e.2 - firstElement (fmtBits (rankCode d.toNat)) p) 0 else e.1)) =
      cvtElements x y d f p u r k := by
    rw [fieldsOf_eq_map_range, zipIdx_map_range, cvtElements]
    refine List.map_congr_left fun j _ => ite_congr rfl (fun hj => ?_) fun _ => rfl
    rw [List.map_map, getD_map_range (by omega)]
    rfl
  unfold firstElement at hlanes helements
  simp only [execMwVcvt, rankStep, rankIssue]
  simp only [hlanes, helements, List.foldl_map]

/-- The elements of vX after a VCVT: the eight of the part are results, and the others stay. -/
theorem field_cvtElements {x y : BitVec 4} {d f : BitVec 3} {p : BitVec 2} {u : BitVec 1} {r : BitVec 3} (h : rankCvtOk d f p = true)
    (k : Rank) {j : Nat} (hj : j < 256 / fmtBits (rankCode d.toNat)) :
    let dw := fmtBits (rankCode d.toNat)
    fieldAt dw (BitVec.ofNat 256 (packFields dw (cvtElements x y d f p u r k))) j =
      if firstElement dw p ≤ j ∧ j < firstElement dw p + 8 then (cvtLane y d f p u r k (j - firstElement dw p)).1 % 2 ^ dw
      else fieldAt dw k.v[vIx x] j := by
  intro dw
  obtain ⟨hfill, -⟩ := rankCvt_fits d f p h d (by simp)
  have hlen : dw * (cvtElements x y d f p u r k).length = 256 := by rw [cvtElements, List.length_map, List.length_range]; exact hfill
  rw [field_packed hlen, cvtElements, getD_map_range hj]
  split
  · rfl
  · exact Nat.mod_eq_of_lt (Nat.mod_lt _ (Nat.two_pow_pos _))

/-! ### Accumulators (R55, R202) -/

/-- The contributions of KADD, lane by lane. -/
theorem zipWith_recs (f : A80 → Nat → A80 × Fl) (recs : Vector A80 8) (v : W256) :
    List.zipWith f recs.toList (lanes8 v) = (List.finRange 8).map (fun j : Fin 8 => f recs[j] (fieldAt 32 v j)) :=
  List.ext_getElem (by simp [lanes8_eq]) fun j _ _ => by simp [lanes8_eq]

theorem ofFn_getD_finRange (g : Fin 8 → A80 × Fl) (e : A80 × Fl) :
    Vector.ofFn (fun i : Fin 8 => (((List.finRange 8).map g).getD i.val e).1) = Vector.ofFn (fun j => (g j).1) := by
  congr 1
  funext j
  rw [List.getD_eq_getElem _ _ (by simp)]
  simp

/-- What lane j of KADD makes of its record, and its events. -/
def kaddLane (x y : BitVec 4) (t : BitVec 1) (k : Rank) (j : Fin 8) : A80 × Fl :=
  (k.k[cIx x].recs[j]).contribute ((k.run.map (·.k)).getD 0) (laneVal t (fieldAt 32 k.v[vIx y] j))

/-- KADD, lane by lane. -/
theorem kadd_lanes (x y : BitVec 4) (t : BitVec 1) (s : State) : execKadd x y t s = .next (rankDone 2 (s.rk.upc + 1) false (fun k =>
    { k with k := k.k.set (cIx x) { k.k[cIx x] with recs := Vector.ofFn (fun j => (kaddLane x y t k j).1) }
             fl := (List.finRange 8).foldl (fun a j => a ||| (kaddLane x y t k j).2) k.fl }) s) := by
  simp only [execKadd, rankStep, rankIssue, zipWith_recs, ofFn_getD_finRange, List.foldl_map]
  rfl

theorem recs_eq_map_range (recs : Vector A80 8) (e : A80) : recs.toList = (List.range 8).map (fun j => recs.toList.getD j e) :=
  List.ext_getElem (by simp) fun j hj _ => by
    rw [List.getElem_map, List.getElem_range, List.getD_eq_getElem _ _ hj]

theorem kanc_anchors {s : State} {x y : BitVec 4}
    (hlo : -1024 ≤ (BitVec.ofNat 16 (s.rk.getS y.toNat).toNat).toInt) (hhi : (BitVec.ofNat 16 (s.rk.getS y.toNat).toNat).toInt ≤ 1023) :
    execKanc x y s = .next (rankDone 1 (s.rk.upc + 1) false
      (fun k => { k with k := k.k.set (cIx x) (Acc.empty (BitVec.ofNat 16 (s.rk.getS y.toNat).toNat)) }) s) := by
  have hin : ¬ ((BitVec.ofNat 16 (s.rk.getS y.toNat).toNat).toInt < -1024 ∨ 1023 < (BitVec.ofNat 16 (s.rk.getS y.toNat).toNat).toInt) := by
    omega
  simp only [execKanc, rankIssue, BitVec.extractLsb', Nat.shiftRight_zero, if_neg hin]

theorem kanc_faults {s : State} {x y : BitVec 4} (hout : (BitVec.ofNat 16 (s.rk.getS y.toNat).toNat).toInt < -1024 ∨
    1023 < (BitVec.ofNat 16 (s.rk.getS y.toNat).toNat).toInt) : execKanc x y s = .next (rankFault s.cur.rank 4 s) := by
  simp only [execKanc, rankIssue, BitVec.extractLsb', Nat.shiftRight_zero, if_pos hout]

/-- Settles O35: the members on 8 lanes by the function of a lane, VCVT element by element, and the accumulators. -/
theorem rankVectors : Obligations.RankVectors := by
  refine ⟨fun x y z w r t u hx hy hz => ?lanes, fun x y d f p u r s hwf hx hy => ?vcvt, fun x y t hx s => ?acc⟩
  case lanes =>
    intro F R lane V two int
    have lanes {i : Instr} {cost : Nat} {rs : Rank → List (Nat × Fl)} {f : Rank → Nat → Nat × Fl}
        (hi : ∀ s, exec i s = rankStep cost (fun k => k.setV x (rs k)) s) (hrs : ∀ k, rs k = (List.range 8).map (f k)) :
        V i cost f := exec_of_lanes hx hi hrs
    have op {i : Instr} {t : BitVec 1} {ff : Rnd → Nat → Nat → Nat × Fl} {fi : Word → Word → Word} {f : Nat → Nat → Nat × Fl}
        (hi : ∀ s, exec i s = laneOp x y z r t ff fi s)
        (hf : ∀ a b, (if t = 1 then ((fi (BitVec.ofNat 32 a) (BitVec.ofNat 32 b)).toNat, (0 : Fl)) else ff R a b) = f a b) :
        V i 1 (fun k j => two k j f) := exec_of_laneOp hx hy hz hi hf
    clear_value V
    refine ⟨?fadd, ?add, ?fsub, ?sub, ?fmul, ?mul, ?fmax, ?max, ?fmin, ?min, ?fma, ?scale, ?splat, fun hk => ?krnd⟩
    case fadd => exact op (exec_mwVadd x y z r 0) fun _ _ => rfl
    case add => exact op (exec_mwVadd x y z r 1) fun _ _ => rfl
    case fsub => exact op (exec_mwVsub x y z r 0) fun _ _ => rfl
    case sub => exact op (exec_mwVsub x y z r 1) fun _ _ => rfl
    case fmul => exact op (exec_mwVmul x y z r 0) fun _ _ => rfl
    case mul => exact op (exec_mwVmul x y z r 1) fun _ _ => rfl
    case fmax => exact op (exec_mwVmax x y z r 0) fun _ _ => rfl
    case max =>
      refine op (f := int (fun a b => if a.toInt < b.toInt then b else a)) (exec_mwVmax x y z r 1) fun a b => ?_
      simp only [if_true, BitVec.slt_iff_toInt_lt, int]
    case fmin => exact op (exec_mwVmin x y z r 0) fun _ _ => rfl
    case min =>
      refine op (f := int (fun a b => if b.toInt < a.toInt then b else a)) (exec_mwVmin x y z r 1) fun a b => ?_
      simp only [if_true, BitVec.slt_iff_toInt_lt, int]
    case fma =>
      refine lanes (exec_mwVfma x y z r) fun k => List.map_congr_left fun j hj => ?_
      have h8 := List.mem_range.mp hj
      rw [getD_lanes8 _ h8, getD_lanes8 _ h8, getD_lanes8 _ h8, get_vIx _ hx, get_vIx _ hy, get_vIx _ hz]
      rfl
    case scale =>
      refine lanes (exec_vscl x y w r) fun k => ?_
      rw [lanes8_eq, get_vIx _ hy, List.map_map, Rank.getS_field]
      rfl
    case splat =>
      refine lanes (rs := fun k => (List.range 8).map fun _ => ((k.s[w.toNat]).toNat, 0)) (fun s => ?_) fun _ => rfl
      rw [exec_vspl, execVspl]
      simp only [setV_splat, Rank.getS_field]
    case krnd =>
      refine lanes (exec_krnd x y u r t) fun k => ?_
      rw [recs_eq_map_range _ (A80.empty 0), List.map_map]
      rfl
  case vcvt =>
    intro dw sw elem first res
    have hok : rankCvtOk d f p = true := rankCvtOk_of_wf hwf
    have hres (k : Rank) (j : Nat) : cvtLane y d f p u r k j = res k j := by rw [cvtLane, get_vIx _ hy]; rfl
    have hfirst : first dw + 8 ≤ 256 / dw := (rankCvt_fits d f p hok d (by simp)).2
    refine ⟨fun k => BitVec.ofNat 256 (packFields dw (cvtElements x y d f p u r k)), fun k j hj => ?_, fun k j hj hout => ?_, ?_⟩
    · refine (field_cvtElements hok k (show first dw + j < 256 / dw by omega)).trans ((if_pos ⟨Nat.le_add_right _ _, ?_⟩).trans ?_)
      · rw [hres, show first dw + j - firstElement dw p = j from Nat.add_sub_cancel_left (first dw) j]
      · exact Nat.add_lt_add_left hj _
    · refine (field_cvtElements hok k hj).trans ((if_neg fun hin => ?_).trans ?_)
      · exact hout.elim hin.1.not_gt hin.2.not_ge
      · rw [get_vIx _ hx]
        rfl
    · rw [exec_mwVcvt, mwVcvt_elements hok]
      simp only [val_vIx hx, hres]
      rfl
  case acc =>
    intro next anchor empty lane res
    have hanchor : BitVec.ofNat 16 (s.rk.getS y.toNat).toNat = anchor := by rw [Rank.getS_field]
    refine ⟨?kclr, fun hlo hhi => ?kanc, fun hout => ?kancFaults, fun hy => ?kadd⟩
    case kclr =>
      rw [exec_kclr, execKclr]
      simp only [val_cIx hx, Fin.getElem_fin]
      rfl
    case kanc =>
      rw [exec_kanc, kanc_anchors (hanchor ▸ hlo) (hanchor ▸ hhi), hanchor]
      simp only [val_cIx hx]
      rfl
    case kancFaults => exact kanc_faults (hanchor ▸ hout)
    case kadd =>
      have hres (k : Rank) (j : Fin 8) : kaddLane x y t k j = res k j := by
        simp only [kaddLane, Fin.getElem_fin, val_cIx hx]
        rfl
      rw [exec_kadd, kadd_lanes]
      simp only [hres, val_cIx hx, Fin.getElem_fin]
      rfl

end Sys2Proof.Machine
end

section
/-! PROOFS. Events of courses and of banks (O41). -/

namespace Sys2Proof.Machine

/-! ### Courses (R209, R252, R253, R258, R260, R261) -/

theorem id_of_course {s : State} {id : Nat} {c : Course} (h : s.course id = some c) : c.id = id := by
  simpa using List.find?_some h

section
variable {s : State} {id : Nat} {c : Course} (hc : s.course id = some c)
include hc

theorem courseOpen_opens (hopened : c.opened = false) (hflipped : c.flipped = false) (hactive : (s.vd c.vd).active s.ring = true)
    (hfree : ∀ m ∈ c.members, s.courseOpenAt m = false ∧ (s.rank m).migrates = none) (hjoined : c.cmd = none → c.size ≤ c.parts.length) :
    execCourseOpen id s = .next (match c.cmd with | some n => openCollCourse c n s | none => openRankCourse c s) := by
  have hcourse : c.members.any s.courseOpenAt = false := List.any_eq_false.mpr fun m hm => by simp [(hfree m hm).1]
  have hmigrates : c.members.any (fun r => (s.rank r).migrates.isSome) = false :=
    List.any_eq_false.mpr fun m hm => by simp [(hfree m hm).2]
  have hfew (lost : Bool) : ¬ (c.cmd = none ∧ c.parts.length < c.size ∧ lost = false) := fun h => (hjoined h.1).not_gt h.2.1
  simp only [execCourseOpen, hc, hopened, hflipped, hactive, hcourse, hmigrates, hfew, Bool.false_eq_true, Bool.true_eq_false, or_self,
    if_false]
  cases c.cmd <;> rfl

/-- A member becomes ready, and the last one sets the keystone (R253). -/
theorem memberReady_readies {k : Nat} (hopened : c.opened = true) (hflipped : c.flipped = false) (hnew : ∀ e ∈ c.ready, e.1 ≠ k)
    (hk : k < c.size) (hstate : (s.rank (c.rankOf k)).state ≠ .spilled) (hasleep : s.asleep.contains (channelOf (c.rankOf k)) = false)
    (hprogram : c.cmd = none → c.head.op = .program → (s.rank (c.rankOf k)).wait = some (.course id))
    (hbuiltIn : c.cmd = none → c.head.op ≠ .program → (s.rank (c.rankOf k)).traffic = false ∧ ∀ m ∈ c.members, (s.rank m).reads = 0) :
    execMemberReady id k s = .next (s.setCourse { c with
      ready := c.ready ++ [(k, s.ring)]
      keystone := if c.ready.length + 1 = c.size then some (s.ring + 200) else none }) := by
  have hready : c.ready.any (fun r => r.1 == k) = false := List.any_eq_false.mpr fun e he => by simpa using hnew e he
  have hearly : (c.cmd.isNone && (if c.head.op == .program then (s.rank (c.rankOf k)).wait != some (.course c.id)
      else (s.rank (c.rankOf k)).traffic || c.members.any (fun r => (s.rank r).reads != 0))) = false := by
    cases hcmd : c.cmd with
    | some n => rfl
    | none =>
      by_cases hop : c.head.op = .program
      · simp [hop, hprogram hcmd hop, id_of_course hc]
      · obtain ⟨htraffic, hreads⟩ := hbuiltIn hcmd hop
        have hany : c.members.any (fun r => (s.rank r).reads != 0) = false := List.any_eq_false.mpr fun m hm => by simp [hreads m hm]
        simp [hop, htraffic, hany]
  simp only [execMemberReady, hc, hstate, hasleep, Bool.false_eq_true, or_self, if_false, readyMember, hopened, hflipped, hready, hearly,
    Nat.not_le.mpr hk, decide_false, Bool.not_true, Bool.or_self, Bool.false_eq_true, List.length_append, List.length_singleton]

theorem keystone_advances {t : Nat} (hstands : s.keystoneStands c = true) (ht : c.keystone = some t) :
    execKeystone id s = .next (advanceTo t s) := by
  simp only [execKeystone, hc, hstands, if_true, ht, Option.getD_some]

theorem courseCancel_fails {t : Nat} (ht : c.keystone = some t) (hflipped : c.flipped = false) (hearly : s.ring + 60 < t) :
    execCourseCancel id s = .next (failCourse id 3 ((c.members.findIdx? (fun r => (s.rank r).lost)).elim (c.number 0) c.number) none
      (advanceTo (t - 60) s)) := by
  have hcommitted : c.committed s.ring = false := by
    simp only [Course.committed, ht, decide_eq_false_iff_not, Nat.not_le]
    exact hearly
  simp only [execCourseCancel, hc, ht, hflipped, hcommitted, Bool.false_eq_true, or_self, if_false]

theorem invalidationDone_settles (hflipped : c.flipped = true) :
    execKeystoneInvalidationDone id s = .next (settleRows c.written ((s.dropCourse id).dropLines c.lines none)) := by
  simp only [execKeystoneInvalidationDone, hc, hflipped, if_true]

theorem courseTimeout_of_stopped (hissue : (s.vd c.vd).issuing s.ring = false) : execCourseTimeout id s = .next s := by
  simp only [execCourseTimeout, hc, hissue, or_true, if_true]

section
variable {m : Nat} (hissue : (s.vd c.vd).issuing s.ring = true) (hflipped : c.flipped = false)
include hissue hflipped

/-- A member is not ready 100 µs after the first was (R261). -/
theorem courseTimeout_of_late {k t : Nat} (hlate : (List.range c.size).find? (fun i => !c.ready.any (fun r => r.1 == i)) = some m)
    (hfirst : c.ready.head? = some (k, t)) (htime : t + 100000 ≤ s.ring) :
    execCourseTimeout id s = .next (failCourse id 2 (c.number m) none s) := by
  simp only [execCourseTimeout, hc, hissue, hflipped, hlate, List.head?_map, hfirst, Option.map_some, Option.getD_some, Nat.not_lt.mpr htime,
    Bool.false_eq_true, Bool.true_eq_false, reduceCtorEq, or_self, if_false]

/-- A member has not joined the course 100 µs after the first did (log 14). -/
theorem courseTimeout_of_unjoined (hopened : c.opened = false) (hcmd : c.cmd = none) (hready : c.ready = [])
    (hparts : c.parts.length < c.size) (htime : c.since + 100000 ≤ s.ring) (hm : (List.range c.size).head? = some m) :
    execCourseTimeout id s = .next (failCourse id 2 (c.number m) none s) := by
  have hlate : (List.range c.size).find? (fun _ => true) = some m := by
    rw [← hm]
    cases List.range c.size <;> rfl
  simp only [execCourseTimeout, hc, hissue, hflipped, hopened, hcmd, hready, hparts, htime, List.any_nil, Bool.not_false, hlate,
    List.map_nil, List.head?_nil, Option.map_some, Option.getD_some, Bool.false_eq_true, Bool.true_eq_false, reduceCtorEq, or_self,
    if_false, and_self, if_true]

end

end

/-! ### Ring time and keystones (R253) -/

theorem advanceTo_of_none {s : State} {t : Nat} (h : s.nextKeystone t = none) : advanceTo t s =
    { s with ring := max s.ring t, ranks := s.ranks.map (fun e => (e.1, e.2.waits (t - s.ring))) } := by
  have hdue (n : Nat) : dueKeystones t n s = s := by
    cases n with
    | zero => rfl
    | succ n => simp only [dueKeystones, h]
  simp only [advanceTo, hdue]

theorem keystoneStands_of_acknowledged {s : State} {c : Course} {t : Nat} (ht : c.keystone = some t) (hflipped : c.flipped = false)
    (hte : ∀ e, (s.vd c.vd).te = some e → c.keystone.getD 0 ≤ e + 60) : s.keystoneStands c = true := by
  rw [ht] at hte
  simpa [State.keystoneStands, hflipped, ht, Option.all_eq_true] using hte

/-- The only course of the package flips when ring time reaches its keystone. -/
theorem advanceTo_of_only {s : State} {c : Course} {t : Nat} (honly : s.courses = [c]) (hstands : s.keystoneStands c = true)
    (ht : c.keystone = some t) : advanceTo t s =
      { keystoneNow c s with
        ring := max (keystoneNow c s).ring t, ranks := (keystoneNow c s).ranks.map (fun e => (e.1, e.2.waits (t - s.ring))) } := by
  have hnext : s.nextKeystone t = some c := by
    simp [State.nextKeystone, honly, hstands, ht]
  simp only [advanceTo, honly, List.length_singleton, dueKeystones, hnext]

/-! ### Accesses from outside (R254 to R256, R270, R307, R371) -/

/-- Bytes that follow one another within a line of 64 bytes are one run. -/
theorem runsOf_of_line {r row : Nat} : ∀ (bs : List Byte) (col : Nat), bs ≠ [] → col / 64 = (col + bs.length - 1) / 64 →
    runsOf (((List.range bs.length).map (fun i => Place.mk r row (col + i))).zip bs) = [(⟨r, row, col⟩, bs)] := by
  intro bs
  induction bs with
  | nil => exact fun _ h => absurd rfl h
  | cons b rest ih =>
    intro col _ hline
    have hplaces : (List.range (b :: rest).length).map (fun i => Place.mk r row (col + i)) =
        ⟨r, row, col⟩ :: (List.range rest.length).map (fun i => Place.mk r row (col + 1 + i)) := by
      rw [List.length_cons, List.range_succ_eq_map, List.map_cons, List.map_map]
      refine congrArg _ (List.map_congr_left fun i _ => ?_)
      simp only [Function.comp_apply, Nat.succ_eq_add_one, Place.mk.injEq, true_and]
      omega
    rw [hplaces, List.zip_cons_cons, runsOf]
    cases rest with
    | nil => rfl
    | cons b' rest =>
      have hnext : (col + 1) % 64 ≠ 0 := by simp only [List.length_cons] at hline; omega
      rw [ih (col + 1) (by simp) (by simp only [List.length_cons] at hline ⊢; omega)]
      simp only [hnext, ne_eq, not_false_eq_true, and_self, if_true]

/-- A write within one line arrives as one access. -/
theorem arriveWrite_of_line {r row col len : Nat} (hlen : 0 < len) (hline : col / 64 = (col + len - 1) / 64) (n vd : Nat)
    (user : BankUser) (x : Nat) (s : State) :
    arriveWrite n vd user (((List.range len).map (fun i => Place.mk r row (col + i))).zip (bytesOf len x)) s =
      arrive n vd user ⟨r, row, col⟩ len (.write (bytesOf len x)) s := by
  have hbs : (bytesOf len x).length = len := length_bytesOf len x
  have hne : bytesOf len x ≠ [] := fun h => by rw [h] at hbs; exact hlen.ne hbs
  have hrun := runsOf_of_line (r := r) (row := row) (bytesOf len x) col hne (by rw [hbs]; exact hline)
  rw [hbs] at hrun
  rw [arriveWrite, hrun, List.foldl_cons, List.foldl_nil, hbs]

section
variable {s : State} {r row col len : Nat} {wr : Bool} {data : BitVec 512} (hr : r < 8192) (hcol : col + len ≤ 1024) (hlen : 0 < len)
  (hsize : len ≤ 64) (hrow : row < if (s.rank r).enabled then 46080 else 49152)
include hr hcol hlen hsize hrow

theorem outsideAccess_arrives {e : Perm} (hgrant : (s.permsAt r row).find? (fun e => if wr then e.w else e.r) = some e) :
    let ps := (List.range len).map (fun i => Place.mk r row (col + i))
    execOutsideAccessArrival r row col wr len data s = .next (if wr then
        arriveWrite s.nextId e.vd .nobody (ps.zip (bytesOf len data.toNat)) { s with nextId := s.nextId + 1 }
      else arriveRead e.vd none ps s) := by
  simp only [execOutsideAccessArrival, hgrant, Nat.not_le.mpr hr, Nat.not_lt.mpr hcol, hlen.ne', Nat.not_lt.mpr hsize,
    Nat.not_le.mpr hrow, or_self, if_false]

/-- No entry lets the access through (log 45). -/
theorem outsideAccess_refused (hgrant : (s.permsAt r row).find? (fun e => if wr then e.w else e.r) = none) :
    execOutsideAccessArrival r row col wr len data s = .next (if wr then s else
      { s with nextId := s.nextId + 1, output := s.output ++ [.data (Config.freeAddr s.nextId)] }) := by
  simp only [execOutsideAccessArrival, hgrant, Nat.not_le.mpr hr, Nat.not_lt.mpr hcol, hlen.ne', Nat.not_lt.mpr hsize,
    Nat.not_le.mpr hrow, or_self, if_false]

end

theorem wakeBanks_of_awake {s : State} {p : Place} (h : s.asleep.contains (channelOf p.rank) = false) : s.wakeBanks [p] = s := by
  have hnone : s.asleep.filter (fun ch => [p].any (fun p => channelOf p.rank == ch)) = [] :=
    List.filter_eq_nil_iff.mpr fun ch hch heq => by
      have hmem : channelOf p.rank ∈ s.asleep := by
        rw [show channelOf p.rank = ch by simpa using heq]
        exact hch
      exact absurd hmem (by simpa using h)
  rw [State.wakeBanks, hnone]
  exact ite_self s

/-- The request of an access that arrives now; its stamp is open while the hold buffer has no room for it (R251, R256). -/
def State.request (s : State) (n vd : Nat) (user : BankUser) (p : Place) (len : Nat) (op : BankOp) : OutsideReq :=
  ⟨n, vd, user, p.row, p.byte, len, op, if op.writes && s.holdFull op p then none else some s.ring, s.holds op p.rank p.row⟩

section
variable {s : State} {p : Place} (hawake : s.asleep.contains (channelOf p.rank) = false) (n vd len : Nat) (user : BankUser) {op : BankOp}
include hawake

theorem arrive_waits (hq : s.mustQueue op p = true) : arrive n vd user p len op s =
    s.updRank p.rank (fun k => { k with pending := k.pending ++ [s.request n vd user p len op] }) := by
  simp only [arrive, wakeBanks_of_awake hawake, hq, if_true]
  rfl

theorem arrive_served (hq : s.mustQueue op p = false) :
    arrive n vd user p len op s = serveRequest p.rank (s.request n vd user p len op) s := by
  have hroom : s.holdFull op p = false := by
    simp only [State.mustQueue, State.shut, Bool.or_eq_false_iff] at hq
    exact hq.1.1
  simp only [arrive, wakeBanks_of_awake hawake, hq, Bool.false_eq_true, if_false, State.request, hroom, Bool.and_false]

end

theorem mustQueue_iff (s : State) (op : BankOp) (p : Place) : s.mustQueue op p = true ↔
    s.holdFull op p = true ∨ Rank.lineBusy (s.rank p.rank).pending p.row p.byte = true ∨
      ((op.reads = true ∨ ¬ (op.writes = true ∧ s.inFootprint p.rank p.row = true)) ∧
        ((s.rank p.rank).holdsBank = true ∨ s.blocked p.rank p.row none = true)) := by
  simp only [State.mustQueue, State.shut, State.holds, Bool.false_and, Bool.not_false, Bool.and_true, Bool.or_eq_true, Bool.and_eq_true,
    Bool.not_eq_true', ← Bool.not_eq_true, or_assoc]

/-! ### Ranks and their banks (R210, R259, R271) -/

theorem cbarTimeout_ends {s : State} {r g p t : Nat} {n : RankRun} (hwait : (s.rank r).wait = some (.barrier g p t))
    (hrun : (s.rank r).run = some n) (htime : t + 100000 ≤ s.ring) : execCbarTimeout r s =
      .next (endCourseInstr r (if (trackerOf s n.vd n.q g).complete (groupIn n.groups g).length p then 0 else 2) s) := by
  simp only [execCbarTimeout, hwait, hrun, Nat.not_lt.mpr htime, if_false]

theorem rankCheckTimer_checks {s : State} {r : Nat} (hstate : (s.rank r).state = .running) (hrun : (s.rank r).run ≠ none)
    (hwait : (s.rank r).wait = none) (htime : 192 ≤ (s.rank r).timer) : execRankCheckTimer r s = .next (checkBank r s) :=
  if_pos ⟨hstate, Option.isSome_iff_ne_none.mpr hrun, hwait, htime⟩

/-! ### Channels that sleep and wake (R262, R263) -/

/-- A step for each of some ranks, which changes the state of that rank as g says and no other rank, and keeps I. -/
theorem foldl_ranks {f : State → Nat → State} {I : State → Prop} {P : Rank → Prop} {g : Rank → RankState}
    (hf : ∀ s r, I s → P (s.rank r) → I (f s r) ∧ (∀ q ≠ r, (f s r).rank q = s.rank q) ∧ ((f s r).rank r).state = g (s.rank r))
    {l : List Nat} (hl : l.Nodup) {s : State} (hI : I s) (hP : ∀ r ∈ l, P (s.rank r)) :
    I (l.foldl f s) ∧ (∀ q ∉ l, (l.foldl f s).rank q = s.rank q) ∧ ∀ q ∈ l, ((l.foldl f s).rank q).state = g (s.rank q) := by
  induction l generalizing s with
  | nil => exact ⟨hI, fun _ _ => rfl, nofun⟩
  | cons r l ih =>
    obtain ⟨hr, hl⟩ := List.nodup_cons.mp hl
    obtain ⟨hI1, hother, hself⟩ := hf s r hI (hP r List.mem_cons_self)
    have hsame (q : Nat) (hq : q ∈ l) : (f s r).rank q = s.rank q := hother q fun e => hr (e ▸ hq)
    obtain ⟨hI2, hout, hin⟩ := ih hl hI1 fun q hq => by rw [hsame q hq]; exact hP q (List.mem_cons_of_mem _ hq)
    refine ⟨hI2, fun q hq => ?_, fun q hq => ?_⟩
    · obtain ⟨hqr, hql⟩ := not_or.mp (mt List.mem_cons.mpr hq)
      exact (hout q hql).trans (hother q hqr)
    · rcases List.mem_cons.mp hq with rfl | hq
      · exact (congrArg Rank.state (hout q hr)).trans hself
      · rw [List.foldl_cons, hin q hq, hsame q hq]

theorem nodup_ranksOfChannel (ch : Nat) : (ranksOfChannel ch).Nodup :=
  List.nodup_range.map fun _ _ h => Nat.add_left_cancel h

theorem mem_ranksOfChannel {ch j : Nat} (hj : j < 32) : ch * 32 + j ∈ ranksOfChannel ch :=
  List.mem_map_of_mem (List.mem_range.mpr hj)

theorem forall_mem_ranksOfChannel {ch : Nat} {p : Nat → Prop} : (∀ r ∈ ranksOfChannel ch, p r) ↔ ∀ j < 32, p (ch * 32 + j) := by
  simp [ranksOfChannel]

theorem poke_cells (s : State) (d k : Nat) (b : Byte) : ∃ m d', s.poke d k b = { s with mem := m, draws := d' } := ⟨_, _, rfl⟩

/-- Steps that change memory cells alone. -/
theorem foldl_cells {α : Type} {f : State → α → State} (hf : ∀ s a, ∃ m d, f s a = { s with mem := m, draws := d }) (l : List α)
    (s : State) : ∃ m d, l.foldl f s = { s with mem := m, draws := d } := by
  induction l generalizing s with
  | nil => exact ⟨s.mem, s.draws, rfl⟩
  | cons a r ih =>
    obtain ⟨m, d, h⟩ := hf s a
    obtain ⟨m', d', h'⟩ := ih (f s a)
    exact ⟨m', d', by rw [List.foldl_cons, h', h]⟩

/-- No request waits at the bank: only replaced rows return to the pool (R250). -/
theorem settleBank_of_quiet {s : State} {r : Nat} (h : (s.rank r).pending = []) : settleBank r s = s.updRank r Rank.freeOld := by
  simp only [settleBank, serveBank, h, serveQueue]

/-- RKSTAT's state of a rank that has spilled: an idle one, and one out of use, stay as they are (R262). -/
def Rank.spilledState (k : Rank) : RankState := if k.state = .idle ∨ k.enabled = false then k.state else .spilled

/-- What spilling a rank at whose bank nothing waits leaves of the channels, of what left the package, and of the ranks. -/
theorem spillRank_leaves {s : State} {r : Nat} (h : (s.rank r).pending = []) :
    ((spillRank r s).asleep = s.asleep ∧ (spillRank r s).output = s.output) ∧
    (∀ q ≠ r, (spillRank r s).rank q = s.rank q) ∧ ((spillRank r s).rank r).state = (s.rank r).spilledState := by
  unfold spillRank
  dsimp only
  split
  · next hout =>
    refine ⟨⟨rfl, rfl⟩, fun _ _ => rfl, ?_⟩
    unfold Rank.spilledState
    split
    · rfl
    · next hin => exact hout.resolve_right (not_or.mp hin).2
  · next hin =>
    obtain ⟨hstate, henabled⟩ := not_or.mp hin
    generalize himage : List.foldl _ s _ = s1
    have hcells : ∃ m d, s1 = { s with mem := m, draws := d } := by
      rw [← himage]
      exact foldl_cells (fun s (b : Byte × Nat) => poke_cells s _ _ b.1) _ s
    obtain ⟨m, d, rfl⟩ := hcells
    rw [settleBank_of_quiet (by rw [rank_updRank]; exact h)]
    refine ⟨⟨rfl, rfl⟩, fun q hq => ?_, ?_⟩
    · rw [rank_updRank_ne _ _ hq, rank_updRank_ne _ _ hq]
      rfl
    · rw [rank_updRank, rank_updRank]
      show (if (s.rank r).state = .idle then RankState.idle else .spilled) = (s.rank r).spilledState
      by_cases hidle : (s.rank r).state = .idle
      · simp [Rank.spilledState, hidle]
      · simp [Rank.spilledState, hidle, henabled]

/-- The channel sleeps, and its request completes (R262). -/
def channelAsleep (ch : Nat) (s : State) : State :=
  { s with napping := s.napping.filter (· != ch), asleep := s.asleep ++ [ch], output := s.output ++ [.spilled ch] }

theorem asleep_channelAsleep (ch : Nat) (s : State) : (channelAsleep ch s).asleep = s.asleep ++ [ch] := rfl
theorem output_channelAsleep (ch : Nat) (s : State) : (channelAsleep ch s).output = s.output ++ [.spilled ch] := rfl
theorem rank_channelAsleep (ch : Nat) (s : State) (r : Nat) : (channelAsleep ch s).rank r = s.rank r := rfl
theorem napping_channelAsleep (s : State) (ch : Nat) : (channelAsleep ch s).napping.contains ch = false := by simp [channelAsleep]

theorem tryNap_sleeps {s : State} {ch : Nat} (hnap : s.napping.contains ch = true)
    (hall : (ranksOfChannel ch).all (fun r => (s.rank r).rests) = true) :
    tryNap ch s = channelAsleep ch ((ranksOfChannel ch).foldl (fun s r => spillRank r s) s) := by
  rw [tryNap, hnap, hall]
  rfl

section
variable {s : State} {ch : Nat} (hch : ch < 256) (hawake : s.asleep.contains ch = false) (hnap : s.napping.contains ch = false)
include hch hawake hnap

theorem channelPowerDown_tries : execChannelPowerDown ch s = .next (tryNap ch { s with napping := s.napping ++ [ch] }) := by
  simp only [execChannelPowerDown, Nat.not_le.mpr hch, hawake, hnap, Bool.false_eq_true, or_self, if_false]

/-- The channel waits for a rank that does not rest (R262). -/
theorem channelPowerDown_waits {j : Nat} (hj : j < 32) (hrest : (s.rank (ch * 32 + j)).rests = false) :
    execChannelPowerDown ch s = .next { s with napping := s.napping ++ [ch] } := by
  have hall : (ranksOfChannel ch).all (fun r => (s.rank r).rests) = false :=
    List.all_eq_false.mpr ⟨_, mem_ranksOfChannel hj, by simp [hrest]⟩
  rw [channelPowerDown_tries hch hawake hnap]
  refine congrArg _ (if_neg ?_)
  rw [Bool.and_eq_true, not_and]
  exact fun _ => Bool.eq_false_iff.mp hall

/-- Every rank of the channel rests: it sleeps at once, and its ranks have spilled (R262). -/
theorem channelPowerDown_sleeps (hrest : ∀ j < 32, (s.rank (ch * 32 + j)).rests = true ∧ (s.rank (ch * 32 + j)).pending = []) :
    ∃ t, execChannelPowerDown ch s = .next t ∧ t.asleep = s.asleep ++ [ch] ∧ t.napping.contains ch = false ∧
      t.output = s.output ++ [.spilled ch] ∧ ∀ j < 32, (t.rank (ch * 32 + j)).state = (s.rank (ch * 32 + j)).spilledState := by
  let s0 : State := { s with napping := s.napping ++ [ch] }
  have hall : (ranksOfChannel ch).all (fun r => (s0.rank r).rests) = true :=
    List.all_eq_true.mpr (forall_mem_ranksOfChannel.mpr fun j hj => (hrest j hj).1)
  obtain ⟨⟨hasleep, houtput⟩, -, hstates⟩ := foldl_ranks (f := fun s r => spillRank r s)
    (I := fun t => t.asleep = s.asleep ∧ t.output = s.output) (P := fun k => k.pending = [])
    (fun t r hI hP => by
      obtain ⟨⟨ha, ho⟩, hranks⟩ := spillRank_leaves hP
      exact ⟨⟨ha.trans hI.1, ho.trans hI.2⟩, hranks⟩)
    (nodup_ranksOfChannel ch) (s := s0) ⟨rfl, rfl⟩ (forall_mem_ranksOfChannel.mpr fun j hj => (hrest j hj).2)
  refine ⟨_, (channelPowerDown_tries hch hawake hnap).trans (congrArg _ (tryNap_sleeps (by simp) hall)), ?_, ?_, ?_, fun j hj => ?_⟩
  · rw [asleep_channelAsleep, hasleep]
  · exact napping_channelAsleep _ ch
  · rw [output_channelAsleep, houtput]
  · rw [rank_channelAsleep, hstates _ (mem_ranksOfChannel hj)]
    rfl

end

/-- A rank whose image is reloaded when its channel wakes (R263, R313): it has spilled, and its VD is not stopped. -/
def Rank.reloads (s : State) (k : Rank) : Bool :=
  k.state == .spilled && k.run.all (fun x => (s.vd x.vd).state == .running || (s.vd x.vd).state == .stopping)

theorem Rank.reloads_iff (s : State) (k : Rank) : k.reloads s = true ↔
    k.state = .spilled ∧ ∀ x, k.run = some x → (s.vd x.vd).state = .running ∨ (s.vd x.vd).state = .stopping := by
  simp [Rank.reloads, Option.all_eq_true]

/-- A rank of a channel that wakes. -/
def reloadRank (s : State) (r : Nat) : State :=
  if (s.rank r).state = .spilled ∧ (s.rank r).run.all (fun x => (s.vd x.vd).state == .running || (s.vd x.vd).state == .stopping) then
    s.updRank r (fun k => { k with state := .running, timer := 0 })
  else s

theorem wakeChannel_eq (ch : Nat) (s : State) :
    wakeChannel ch s = (ranksOfChannel ch).foldl reloadRank { s with asleep := s.asleep.filter (· != ch) } := rfl

theorem reloadRank_leaves (s : State) (r : Nat) :
    ((reloadRank s r).asleep = s.asleep ∧ (reloadRank s r).mem = s.mem ∧ (reloadRank s r).vds = s.vds) ∧
    (∀ q ≠ r, (reloadRank s r).rank q = s.rank q) ∧
    ((reloadRank s r).rank r).state = if (s.rank r).reloads s then .running else (s.rank r).state := by
  have hiff : ((s.rank r).state = .spilled ∧ (s.rank r).run.all (fun x => (s.vd x.vd).state == .running || (s.vd x.vd).state == .stopping)) ↔
      (s.rank r).reloads s = true := by
    rw [Rank.reloads, Bool.and_eq_true, beq_iff_eq]
  unfold reloadRank
  split
  · next h =>
    refine ⟨⟨rfl, rfl, rfl⟩, fun q hq => rank_updRank_ne s _ hq, ?_⟩
    rw [rank_updRank, if_pos (hiff.mp h)]
  · next h => exact ⟨⟨rfl, rfl, rfl⟩, fun _ _ => rfl, (if_neg (mt hiff.mpr h)).symm⟩

/-- The channel wakes, and the ranks whose VD is not stopped go on (R263). -/
theorem channelWake_wakes {s : State} {ch : Nat} (h : s.asleep.contains ch = true) :
    ∃ t, execChannelWake ch s = .next t ∧ t.asleep = s.asleep.filter (· != ch) ∧ t.mem = s.mem ∧ ∀ j < 32,
      (t.rank (ch * 32 + j)).state =
        if (s.rank (ch * 32 + j)).reloads s then .running else (s.rank (ch * 32 + j)).state := by
  let s0 : State := { s with napping := s.napping.filter (· != ch), asleep := s.asleep.filter (· != ch) }
  obtain ⟨⟨hasleep, hmem, -⟩, -, hstates⟩ := foldl_ranks (f := reloadRank)
    (I := fun t => t.asleep = s0.asleep ∧ t.mem = s.mem ∧ t.vds = s.vds) (P := fun _ => True)
    (g := fun k => if k.reloads s then .running else k.state)
    (fun t r hI _ => by
      obtain ⟨⟨ha, hm, hv⟩, hother, hself⟩ := reloadRank_leaves t r
      refine ⟨⟨ha.trans hI.1, hm.trans hI.2.1, hv.trans hI.2.2⟩, hother, ?_⟩
      rw [hself]
      simp only [Rank.reloads, State.vd, hI.2.2]; rfl)
    (nodup_ranksOfChannel ch) (s := s0) ⟨rfl, rfl, rfl⟩ (fun _ _ => trivial)
  refine ⟨_, if_pos (.inl h), ?_, ?_, fun j hj => ?_⟩
  · rw [wakeChannel_eq]; exact hasleep
  · rw [wakeChannel_eq]; exact hmem
  · rw [wakeChannel_eq]; exact hstates _ (mem_ranksOfChannel hj)

/-- Settles O41, event by event. -/
theorem courseEvents : Obligations.CourseEvents := by
  refine ⟨fun s id k r c hc => ?courses, fun s t => advanceTo_of_none, fun s r row col len ch wr data e => ?banks⟩
  case courses =>
    intro te
    refine ⟨courseOpen_opens hc, memberReady_readies hc, fun t ht hflipped hte => ?keystone, rfl, fun t => courseCancel_fails hc,
      invalidationDone_settles hc, courseTimeout_of_stopped hc, fun m t hissue hflipped => courseTimeout_of_late hc hissue hflipped,
      fun m hissue hflipped => courseTimeout_of_unjoined hc hissue hflipped, fun hr => congrArg Host.Outcome.next (if_pos hr)⟩
    case keystone =>
      have hstands := keystoneStands_of_acknowledged ht hflipped hte
      exact ⟨keystone_advances hc hstands ht, fun honly => advanceTo_of_only honly hstands ht⟩
  case banks =>
    intro k ps holds fits granted arrival
    refine ⟨fun g p t n => cbarTimeout_ends, fun hfits hgrant => ?arrives, fun hlen hline n u => arriveWrite_of_line hlen hline n _ _ _ u,
      fun n vd user op hawake => ?bank, fun hfits hnone => ?refused, fun hholds => ?timer, fun hstate => if_pos hstate,
      fun hstate hbank => if_pos ⟨hstate, hbank⟩, fun hch hawake hnap => ⟨fun hbusy => ?waits, channelPowerDown_sleeps hch hawake hnap⟩,
      fun hasleep => ?wakes⟩
    case arrives =>
      obtain ⟨hr, hcol, hlen, hsize, hrow⟩ := hfits
      exact outsideAccess_arrives hr hcol hlen hsize hrow hgrant
    case refused =>
      obtain ⟨hr, hcol, hlen, hsize, hrow⟩ := hfits
      exact ⟨_, outsideAccess_refused hr hcol hlen hsize hrow hnone⟩
    case bank =>
      intro p held noRoom waits
      have hwaits : s.mustQueue op p = true ↔ waits := mustQueue_iff s op p
      refine ⟨s.request n vd user p len op, rfl, rfl, rfl, rfl, rfl, rfl, rfl, ?_, ?_, fun h => arrive_waits hawake n vd len user (hwaits.mpr h),
        fun h => arrive_served hawake n vd len user (Bool.eq_false_iff.mpr (mt hwaits.mp h))⟩
      · exact Bool.and_eq_true_iff
      · exact if_congr Bool.and_eq_true_iff rfl rfl
    case timer =>
      obtain ⟨hstate, hrun, hwait⟩ := hholds
      exact rankCheckTimer_checks hstate hrun hwait
    case waits =>
      obtain ⟨j, hj, hrest⟩ := hbusy
      exact channelPowerDown_waits hch hawake hnap hj hrest
    case wakes =>
      obtain ⟨t, hexec, hout, hmem, hstates⟩ := channelWake_wakes hasleep
      refine ⟨t, hexec, hout, hmem, fun j hj => ?_⟩
      rw [hstates j hj]
      exact if_congr (Rank.reloads_iff s _) rfl rfl

end Sys2Proof.Machine
end

section
/-! PROOFS. The canonical form of memory and the shapes of what keeps it -/

namespace Sys2Proof.Machine

/-! ### The form through the shapes of definitions

Each function of the model has one lemma, by the branches of its definition. An update that leaves the bytes of its core or of its VD
alone keeps their form by `fun _ => id`, which stands under `by exact` so that the update is known by then. -/

theorem State.Form.ite {c : Prop} {_ : Decidable c} {s t : State} (hs : s.Form) (ht : t.Form) : (if c then s else t).Form := by
  split
  · exact hs
  · exact ht

theorem State.Form.iteFst {α : Type} {c : Prop} {_ : Decidable c} {p q : State × α} (hp : p.1.Form) (hq : q.1.Form) :
    (if c then p else q).1.Form := by
  split
  · exact hp
  · exact hq

theorem State.Form.of_fst {α : Type} {p : State × α} (h : p.1.Form) {t : State} {a : α} (e : p = (t, a)) : t.Form := by
  rw [e] at h
  exact h

theorem State.Form.foldlFst {α β : Type} {f : State × β → α → State × β} (hf : ∀ p a, p.1.Form → (f p a).1.Form) (l : List α)
    {p : State × β} (h : p.1.Form) : (l.foldl f p).1.Form := by
  induction l generalizing p with
  | nil => exact h
  | cons a r ih => exact ih (hf _ _ h)

theorem State.Form.foldr {α : Type} {f : α → State → State} (hf : ∀ a s, s.Form → (f a s).Form) (l : List α) {s : State}
    (h : s.Form) : (l.foldr f s).Form := by
  induction l with
  | nil => exact h
  | cons a r ih => exact hf _ _ ih

section
variable {s : State} (h : s.Form)
include h

section
variable
  {cur : Cur} {agenda : List Turn} {ranks : List (Nat × Rank)} {draws vectors muNext ceNext routes : List (Nat × Nat)}
  {badWords deadRows asleep napping msix banks : List Nat} {perms : List (Nat × BitVec 128)} {tlb : List Tlb}
  {courses : List Course} {gathers : List Gather} {inflight : List PortMsg} {sendq : List SendWait}
  {pkg ring errSeq nextId collisions : Nat} {boot : BootPhase} {vdCmd power : W64} {vdStat : BitVec 8} {vdBegun : Bool}
  {dport : Debug} {errlog : List (List Byte)} {corrected : List (SpareUnit × Nat)} {ifile : List (W64 × BitVec 32)}
  {output : List Answer} {link : Link} {sec : Security} {stalled : List Place} {target : Option W64}

/-- An update of everything but the memories, the cores and the VDs. -/
theorem State.Form.same :
    (State.mk cur agenda s.cores ranks s.vds s.mem draws badWords deadRows perms tlb courses gathers asleep napping inflight
      sendq pkg ring boot vdCmd vdStat vdBegun dport power errlog errSeq corrected ifile output msix vectors link sec
      muNext ceNext routes nextId banks collisions stalled target).Form :=
  h.of_same rfl rfl rfl

/-- An update of every core. -/
theorem State.Form.mapCores {g : Nat × Core → Nat × Core} (hg : ∀ e, e.2.Wf → (g e).2.Wf) :
    (State.mk cur agenda (s.cores.map g) ranks s.vds s.mem draws badWords deadRows perms tlb courses gathers asleep napping
      inflight sendq pkg ring boot vdCmd vdStat vdBegun dport power errlog errSeq corrected ifile output msix vectors
      link sec muNext ceNext routes nextId banks collisions stalled target).Form := by
  refine ⟨⟨h.1.1, fun e he => ?_⟩, h.2⟩
  obtain ⟨d, hd, rfl⟩ := List.mem_map.mp he
  exact hg d (h.1.2 d hd)

/-- An update of every VD. -/
theorem State.Form.mapVds {g : Nat × Vd → Nat × Vd} (hg : ∀ e, e.2.Wf → (g e).2.Wf) :
    (State.mk cur agenda s.cores ranks (s.vds.map g) s.mem draws badWords deadRows perms tlb courses gathers asleep napping
      inflight sendq pkg ring boot vdCmd vdStat vdBegun dport power errlog errSeq corrected ifile output msix vectors
      link sec muNext ceNext routes nextId banks collisions stalled target).Form := by
  refine ⟨h.1, fun v hv => ?_⟩
  obtain ⟨d, hd, rfl⟩ := List.mem_map.mp hv
  exact hg d (h.2 d hd)

end

end

/-- The outcome, if it is a next state, has the form. -/
def FormAfter (o : Out) : Prop := ∀ t, o = .next t → t.Form

theorem FormAfter.next {t : State} (h : t.Form) : FormAfter (.next t) := by
  rintro _ ⟨⟩
  exact h

theorem FormAfter.ite {c : Prop} {_ : Decidable c} {o p : Out} (ho : FormAfter o) (hp : FormAfter p) :
    FormAfter (if c then o else p) := by
  split
  · exact ho
  · exact hp

theorem FormAfter.issue {i : Instr} {st : Nat} {m : M Unit} {s : State} (hm : M.KeepsForm m) (h : s.Form) :
    FormAfter (issue i st m s) := fun _ ht => issue_form hm h ht

theorem FormAfter.fault {f : Fault} : FormAfter (.fault f) := fun _ h => Host.Outcome.noConfusion rfl rfl rfl (heq_of_eq h)
theorem FormAfter.refused {r : Refusal} : FormAfter (.refused r) := fun _ h => Host.Outcome.noConfusion rfl rfl rfl (heq_of_eq h)

/-- What a rank's action answers has the form: the next state, and the effects that a wait keeps. -/
def RankKept (r : Except RankStop State) : Prop :=
  match r with
  | .ok t => t.Form
  | .error (.keep t _) => t.Form
  | .error _ => True

theorem RankKept.ite {c : Prop} {_ : Decidable c} {r q : Except RankStop State} (hr : RankKept r) (hq : RankKept q) :
    RankKept (if c then r else q) := by
  split
  · exact hr
  · exact hq

theorem RankKept.ok {t : State} (h : t.Form) : RankKept (.ok t) := h
theorem RankKept.keep {t : State} {w : RankWait} (h : t.Form) : RankKept (.error (.keep t w)) := h

/-- What a reading of a graph must keep: the walks it made stay. -/
def G.KeepsForm {α : Type} (m : G α) : Prop := ∀ s : State, s.Form → (m s).2.Form

theorem G.KeepsForm.pure {α : Type} (a : α) : G.KeepsForm (pure a : G α) := fun _ h => h
theorem G.KeepsForm.failure {α : Type} : G.KeepsForm (failure : G α) := fun _ h => h

theorem G.KeepsForm.bind {α β : Type} {m : G α} {f : α → G β} (hm : G.KeepsForm m) (hf : ∀ a, G.KeepsForm (f a)) :
    G.KeepsForm (m >>= f) := by
  intro s h
  have hs := hm s h
  show (OptionT.bind m f s).2.Form
  unfold OptionT.bind OptionT.mk
  show (match m s with | (o, t) => (match o with | some a => f a | none => Pure.pure none : StateM State (Option β)) t).2.Form
  cases hr : m s with
  | mk o t =>
    rw [hr] at hs
    cases o with
    | none => exact hs
    | some a => exact hf a t hs

theorem G.KeepsForm.ite {α : Type} {c : Prop} {_ : Decidable c} {m n : G α} (hm : G.KeepsForm m) (hn : G.KeepsForm n) :
    G.KeepsForm (if c then m else n) := by
  split
  · exact hm
  · exact hn

theorem G.KeepsForm.need (b : Bool) : G.KeepsForm (need b) := .ite (.pure _) .failure

/-- What an action answers keeps the form: the next state, and the effects that a stop keeps. -/
def Kept {α : Type} (r : Except Stop (α × State)) : Prop :=
  match r with
  | .ok (_, t) => t.Form
  | .error (.keepTrap t _ _) => t.Form
  | .error (.fault t _ _ _) => t.Form
  | .error (.keepWait t _) => t.Form
  | .error _ => True

theorem M.KeepsForm.of {α : Type} {m : M α} (h : ∀ s : State, s.Form → Kept (m s)) : M.KeepsForm m := h
theorem M.KeepsForm.kept {α : Type} {m : M α} (hm : M.KeepsForm m) {s : State} (h : s.Form) : Kept (m s) := hm s h

theorem Kept.ite {α : Type} {c : Prop} {_ : Decidable c} {r q : Except Stop (α × State)} (hr : Kept r) (hq : Kept q) :
    Kept (if c then r else q) := by
  split
  · exact hr
  · exact hq

theorem Kept.ok {α : Type} {a : α} {t : State} (h : t.Form) : Kept (.ok (a, t)) := h
theorem Kept.keepTrap {α : Type} {t : State} {c : Nat} {v : W64} (h : t.Form) : Kept (α := α) (.error (.keepTrap t c v)) := h
theorem Kept.fault {α : Type} {t : State} {c : Nat} {v : W64} {k : Nat} (h : t.Form) : Kept (α := α) (.error (.fault t c v k)) := h
theorem Kept.keepWait {α : Type} {t : State} {r : WaitReason} (h : t.Form) : Kept (α := α) (.error (.keepWait t r)) := h

theorem M.KeepsForm.ite {α : Type} {c : Prop} {_ : Decidable c} {m n : M α} (hm : M.KeepsForm m) (hn : M.KeepsForm n) :
    M.KeepsForm (if c then m else n) := by
  split
  · exact hm
  · exact hn

theorem M.KeepsForm.pure {α : Type} (a : α) : M.KeepsForm (pure a : M α) := fun _ h => h
theorem M.KeepsForm.waitIf (b : Bool) (r : WaitReason) : M.KeepsForm (waitIf b r) := by
  unfold Machine.waitIf
  split
  · exact fun _ _ => trivial
  · exact .pure _
theorem M.KeepsForm.trapIf (b : Bool) (c : Nat) (v : W64) : M.KeepsForm (trapIf b c v) := by
  unfold Machine.trapIf
  split
  · exact fun _ _ => trivial
  · exact .pure _

/-- An action that reads the state first. -/
theorem M.KeepsForm.get {α : Type} {f : State → M α} (hf : ∀ s, s.Form → M.KeepsForm (f s)) : M.KeepsForm (get >>= f) :=
  fun s h => hf s h s h

theorem M.KeepsForm.of_error {α β : Type} {m : M α} (hm : M.KeepsForm m) {s : State} {x : Stop} (h : s.Form)
    (e : m s = .error x) : Kept (α := β) (.error x) := by
  have hs := hm s h
  rw [e] at hs
  cases x <;> exact hs

theorem M.KeepsForm.of_ok {α : Type} {m : M α} (hm : M.KeepsForm m) {s t : State} {a : α} (h : s.Form) (e : m s = .ok (a, t)) :
    t.Form := by
  have hs := hm s h
  rw [e] at hs
  exact hs

end Sys2Proof.Machine

end

section
/-! PROOFS. Registers, contexts, banks and operands keep the form of memory -/

namespace Sys2Proof.Machine

/-! ### Changes of the acting context -/

theorem State.Form.actAs {s : State} (h : s.Form) (c x : Nat) : (actAs c x s).Form :=
  h.same

theorem State.Form.asContext {s : State} (h : s.Form) (c x : Nat) {f : State → State} (hf : ∀ s, s.Form → (f s).Form) :
    (asContext c x f s).Form :=
  (hf _ ((h.actAs _ _).same)).same

theorem State.Form.returnFromTrap {s : State} (h : s.Form) : (returnFromTrap s).Form :=
  (h.updMe _).same

theorem State.Form.touchAt {s : State} (h : s.Form) (c off len : Nat) : (touchAt c off len s).Form :=
  State.Form.foldl (fun _ _ hs => .ite hs.same hs.same) _ h

theorem State.Form.touch {s : State} (h : s.Form) (off len : Nat) : (touch off len s).Form :=
  h.touchAt _ _ _

/-! ### Writes of bytes, records and rings -/

theorem State.Form.wakeLines {s : State} (h : s.Form) (lines : List Nat) : (State.wakeLines s lines).Form := by
  have hc : ({ s with cores := s.cores.map (fun e => (e.1, { e.2 with ctxs := e.2.ctxs.map (Context.reread lines) })) } : State).Form :=
    (h.mapCores (by exact fun _ => id))
  refine hc.mapVds fun _ hv => ?_
  dsimp only
  split <;> exact hv

theorem State.Form.dropLines {s : State} (h : s.Form) (keys : List Nat) (keep : Option (Nat × L1Line)) :
    (State.dropLines s keys keep).Form :=
  .ite h (h.mapCores (by exact fun _ => id))

theorem State.Form.writeRun {s : State} (h : s.Form) (run : Place × List Byte) : (State.writeRun s run).Form :=
  .ite (h.updRank _ _) (State.Form.foldl (fun _ _ hs => hs.pokeByte _ _) _ h)

theorem State.Form.soundAgain {s : State} (h : s.Form) (cells : List Nat) : (State.soundAgain s cells).Form :=
  .ite h h.same

theorem State.Form.wrote {s : State} (h : s.Form) (ps : List Place) (keep : Option (Nat × L1Line)) (row : Place → Nat) :
    (State.wrote s ps keep row).Form :=
  ((h.soundAgain _).wakeLines _).dropLines _ _

theorem State.Form.writePlaces {s : State} (h : s.Form) (ps : List (Place × Byte)) (keep : Option (Nat × L1Line)) :
    (State.writePlaces s ps keep).Form :=
  (State.Form.foldl (fun _ _ hs => hs.writeRun _) _ h).wrote _ _ _

theorem State.Form.post {s : State} (h : s.Form) (ident vd : Nat) (user : BankUser) (p : Place) (len : Nat) (op : BankOp) :
    (State.post s ident vd user p len op).Form :=
  h.updRank _ _

theorem State.Form.askWindow {s : State} (h : s.Form) (vd : Nat) (ps : List Place) : (State.askWindow s vd ps).Form :=
  State.Form.foldl (fun _ _ hs => .ite (hs.post _ _ _ _ _ _) hs) _ h

theorem State.Form.wakeChannel {s : State} (h : s.Form) (ch : Nat) : (wakeChannel ch s).Form :=
  State.Form.foldl (fun _ _ hs => .ite (hs.updRank _ _) hs) _ h.same

theorem State.Form.wakeBanks {s : State} (h : s.Form) (ps : List Place) : (State.wakeBanks s ps).Form :=
  .ite h (State.Form.foldl (fun _ _ hs => hs.wakeChannel _) _ h)

theorem State.Form.devRun {s : State} (h : s.Form) (ident : Nat) (r : Place × List Byte) : (State.devRun ident s r).Form :=
  .ite (h.post _ _ _ _ _ _) (.ite h (h.writePlaces _ _))

theorem State.Form.devWrite {s : State} (h : s.Form) (pa : Nat) (bs : List Byte) : (State.devWrite s pa bs).Form :=
  State.Form.foldl (fun _ _ hs => hs.devRun _ _) _ ((h.wakeBanks _).same)

theorem State.Form.interrupt {s : State} (h : s.Form) (vd : Nat) (ident : BitVec 32) : (State.interrupt s vd ident).Form :=
  .ite h h.same

theorem State.Form.ringEntry {s : State} (h : s.Form) (vd : Nat) (bs : List Byte) : (State.ringEntry s vd bs).1.Form :=
  (h.devWrite _ _).updVd _ (by exact fun _ => id)

theorem State.Form.logRecord {s : State} (h : s.Form) (bytes : List Byte) : (State.logRecord s bytes).1.Form :=
  h.same

theorem State.Form.recordFor {s : State} (h : s.Form) (vd : Option Nat) (addr pc : W64) (source kind syndrome core ctx : Nat) :
    (State.recordFor s vd addr pc source kind syndrome core ctx).1.Form := by
  unfold State.recordFor
  dsimp only
  split
  · exact h.logRecord _
  · exact ((h.ringEntry _ _).interrupt _ _).logRecord _

theorem State.Form.errorRecord {s : State} (h : s.Form) (vd : Nat) (addr pc : W64) (source kind syndrome core ctx : Nat) :
    (State.errorRecord s vd addr pc source kind syndrome core ctx).1.Form :=
  h.recordFor _ _ _ _ _ _ _ _

theorem State.Form.wordRecord {s : State} (h : s.Form) (vd : Nat) (stamp : Option Nat) (ps : List Place) (pc : W64)
    (kind core ctx : Nat) : (State.wordRecord s vd stamp ps pc kind core ctx).1.Form :=
  h.recordFor _ _ _ _ _ _ _ _

/-! ### The management registers -/

theorem State.Form.writeWindow {s : State} (h : s.Form) (vd ix : Nat) (v : BitVec 128) : (State.writeWindow s vd ix v).Form :=
  .ite h (h.updVd _ (by exact fun _ => id))

theorem State.Form.writePerm {s : State} (h : s.Form) (bd ix : Nat) (v : BitVec 128) : (State.writePerm s bd ix v).Form :=
  .ite h h.same

theorem State.Form.setEnable {s : State} (h : s.Form) (rank : Nat) (on : Bool) : (State.setEnable s rank on).Form :=
  .ite h (.ite (h.updRank _ _) (h.updRank _ _))

theorem State.Form.writeEnable {s : State} (h : s.Form) (bd w : Nat) (v : W64) : (State.writeEnable s bd w v).Form :=
  .ite (State.Form.foldl (fun _ _ hs => hs.setEnable _ _) _ h) h

theorem State.Form.mgmtWrite {s : State} (h : s.Form) (off : Nat) (v : W64) : (State.mgmtWrite s off v).Form :=
  .ite (.ite h (.ite h.same h.same))
    (.ite (h.writePerm _ _ _) (.ite (h.writeWindow _ _ _)
    (.ite (h.writeEnable _ _ _) (.ite h.same (.ite (.ite h (.ite h.same h.same))
    (.ite h.same (.ite h.same (.ite (h.updCore _ (by exact fun _ => id)) h))))))))

/-! ### Operands and results -/

theorem State.Form.queueSend {s : State} (h : s.Form) (dst : Option Opnd) : (State.queueSend s dst).Form := by
  unfold State.queueSend
  split
  · exact h
  · exact .ite h h.same

theorem ready_form (srcs : List Opnd) (dst : Option Opnd) (own : State → List Cand) : M.KeepsForm (ready srcs dst own) := by
  unfold Machine.ready
  refine .of fun _ hs => ?_
  split
  · exact .ite (.keepWait (hs.queueSend _)) trivial
  · split
    · exact trivial
    · split
      · exact trivial
      · split
        · exact trivial
        · exact .ok hs

theorem State.Form.spmRecord {s : State} (h : s.Form) (off kind : Nat) : (spmRecord off kind s).1.Form :=
  h.errorRecord _ _ _ _ _ _ _ _

theorem prepare_form (srcs : List Opnd) (dst : Option Opnd) (own : State → List Cand) : M.KeepsForm (prepare srcs dst own) := by
  unfold Machine.prepare
  refine .of fun _ hs => ?_
  split
  · next _ e0 =>
    exact (ready_form _ _ _).of_error hs e0
  · split
    · exact .ok hs
    · exact .keepTrap (hs.spmRecord _ _)

theorem State.Form.advancePtr {s : State} (h : s.Form) (k : Nat) : (advancePtr k s).Form :=
  h.updMe _

theorem State.Form.consume1 {s : State} (h : s.Form) (o : Opnd) : (consume1 o s).Form :=
  .ite (h.updMe _) (.ite ((h.touch _ _).advancePtr _) h)

theorem State.Form.consume {s : State} (h : s.Form) (srcs : List Opnd) : (consume srcs s).Form :=
  State.Form.foldl (fun _ _ hs => hs.consume1 _) _ h

theorem State.Form.pushInt {s : State} (h : s.Form) (r : Ready) (v : W64) : (pushInt r v s).Form :=
  h.updMe _

theorem State.Form.pushVec {s : State} (h : s.Form) (r : Ready) (v : W128) : (pushVec r v s).Form :=
  h.updMe _

theorem State.Form.writeReg {s : State} (h : s.Form) (r : Ready) (j : Nat) (v : W64) : (writeReg r j v s).Form :=
  h.updMe _

theorem State.Form.writePtr {s : State} (h : s.Form) (r : Ready) (j : Nat) (v : W64) : (writePtr r j v s).Form :=
  h.updMe _

theorem State.Form.countSent {s : State} (h : s.Form) (n : Option NodeRef) : (State.countSent s n).Form :=
  .ite (h.updHere (by exact fun _ => id)) h

theorem State.Form.sendWords {s : State} (h : s.Form) (p : Nat) (r : Ready) (ws : List W64) : (sendWords p r ws s).Form := by
  unfold Machine.sendWords
  split
  · exact h
  · dsimp only
    split
    · exact h.same
    · exact h.same.countSent _

theorem State.Form.writeRegs {s : State} (h : s.Form) (r : Ready) (j k : Nat) (a : List W64) : (writeRegs r j k a s).Form := by
  unfold Machine.writeRegs
  split
  · exact h
  · exact (h.writeReg _ _ _).writeRegs _ _ _ _

theorem State.Form.writeThrough {s : State} (h : s.Form) (r : Ready) (off : Nat) (bs : List Byte) : (writeThrough r off bs s).Form := by
  unfold Machine.writeThrough
  split
  · exact h.spmWrite _ _ _
  · exact (h.updHere (by exact fun _ => id)).same
  · exact h.updHere (by exact fun _ => id)

theorem State.Form.deliver {s : State} (h : s.Form) (d : Opnd) (r : Ready) (ws : List W64) : (deliver d r ws s).Form :=
  .ite (.ite (State.Form.foldr (fun _ _ hs => hs.pushVec _ _) _ h) (State.Form.foldr (fun _ _ hs => hs.pushInt _ _) _ h))
    (.ite (h.writeRegs _ _ _ _) (.ite (h.writePtr _ _ _) (.ite (h.sendWords _ _ _) (.ite (((h.touch _ _).writeThrough _ _ _).advancePtr _)
    h))))

theorem State.Form.deliverTag {s : State} (h : s.Form) (tag : Nat) (ws : List W64) : (deliverTag tag ws s).Form := by
  unfold Machine.deliverTag
  dsimp only
  split
  · split
    · exact h.updMe _
    · exact ((h.updMe _).spmWrite _ _ _).updHere (by exact fun _ => id)
  · refine (State.Form.same ?_).countSent _
    split
    · exact h.updMe _
    · exact ((h.updMe _).spmWrite _ _ _).updHere (by exact fun _ => id)

theorem State.Form.deliverBad {s : State} (h : s.Form) (d : Opnd) (record : W64) : (deliverBad d record s).Form :=
  (State.Form.ite (h.updMe _) ((h.updMe _).deliver _ _ _)).same

theorem State.Form.compute {s : State} (h : s.Form) (i : Instr) (stall : Nat) (srcs : List Opnd) (d : Opnd) (lat : Option Nat)
    (f : State → List (List W64) → List W64) : FormAfter (compute i stall srcs d lat f s) := by
  unfold Machine.compute
  refine .issue (.bind (ready_form _ _ _) fun _ => .upd fun _ hs => ?_) h
  split
  · exact ((hs.spmRecord _ _).consume _).deliverBad _ _
  · exact (hs.consume _).deliver _ _ _

/-! ### Words of the instruction stream and event flags -/

theorem State.Form.useWords {s : State} (h : s.Form) (m n : Nat) : (useWords m n s).Form :=
  .ite (h.updMe _) h

theorem State.Form.raiseFlags {s : State} (h : s.Form) (f : Fl) : (raiseFlags f s).Form :=
  h.updMe _

end Sys2Proof.Machine

end

section
/-! PROOFS. Updates, walks and accesses keep the form of memory -/

namespace Sys2Proof.Machine

/-! ### Updates of lines -/

theorem State.Form.applyUpdate {s : State} (h : s.Form) (vd : Nat) (stamp : Option Nat) (ps : List Place) (ty op v : Nat)
    {write : State → List (Place × Byte) → State} (hwrite : ∀ s a, s.Form → (write s a).Form) :
    (applyUpdate vd stamp ps ty op v write s).Form :=
  .ite (h.wordRecord _ _ _ _ _ _ _) (hwrite _ _ h)

theorem State.Form.mergeWord {s : State} (h : s.Form) (now : Bool) (c : Nat) (l : L1Line) (u : UpdLine) (off v : Nat) :
    (mergeWord now c l u off v s).Form :=
  .ite (((h.wakeBanks _).post _ _ _ _ _ _).same) ((h.wakeBanks _).applyUpdate _ _ _ _ _ _ (fun _ _ hs => hs.writePlaces _ _))

theorem State.Form.mergeLine {s : State} (h : s.Form) (now : Bool) (c : Nat) (l : L1Line) : (mergeLine now c s l).Form := by
  unfold Machine.mergeLine
  split
  · exact h
  · exact State.Form.foldl (fun _ _ hs => hs.mergeWord _ _ _ _ _ _) _ h

theorem State.Form.evictLine {s : State} (h : s.Form) (c : Nat) (l : L1Line) (now : Bool) : (State.evictLine s c l now).Form :=
  (h.updCore _ (by exact fun _ => id)).mergeLine _ _ _

theorem State.Form.recallKeys {s : State} (h : s.Form) (keys : List Nat) : (State.recallKeys s keys).Form :=
  State.Form.foldl (fun _ _ hs => hs.evictLine _ _ _) _ h

theorem State.Form.recall {s : State} (h : s.Form) (ps : List Place) : (State.recall s ps).Form :=
  h.recallKeys _

/-! ### Reads of devices and walks of the tables -/

theorem State.Form.comes {s : State} (h : s.Form) (ps : List Place) : (State.comes s ps).Form :=
  .ite ((h.wakeBanks _).same) ((h.wakeBanks _).recall _)

theorem State.Form.devRead {s : State} (h : s.Form) (pa len : Nat) : (State.devRead s pa len).1.Form := by
  unfold State.devRead
  split
  · exact h
  · exact .iteFst ((h.comes _).wordRecord _ _ _ _ _ _ _) (h.comes _)

theorem State.Form.walkLevels {s : State} (h : s.Form) (va n m : Nat) : (walkLevels va n s m).1.Form := by
  unfold Machine.walkLevels
  split
  · exact h
  · next _ _ _ e0 =>
    dsimp only
    split
    · next _ e0 =>
      exact (h.devRead _ _).of_fst e0
    · next _ _ e0 =>
      exact .iteFst ((h.devRead _ _).of_fst e0) (.iteFst (.iteFst ((h.devRead _ _).of_fst e0) ((h.devRead _ _).of_fst e0))
        (((h.devRead _ _).of_fst e0).walkLevels _ _ _))

theorem State.Form.cacheLeaf {s : State} (h : s.Form) (t : Tlb) : (State.cacheLeaf s t).Form :=
  .ite h.same h.same

theorem State.Form.walk {s : State} (h : s.Form) (die vd va : Nat) (k : AccessKind) : (walk s die vd va k).1.Form := by
  unfold Machine.walk
  extract_lets answer
  have hanswer {s : State} (hs : s.Form) (pa : Nat) : (answer s pa).1.Form := .iteFst hs hs
  refine .iteFst h ?_
  split
  · exact hanswer h _
  · have hw := h.walkLevels va 3 (s.vd vd).desc.ptroot.toNat
    refine .iteFst hw ?_
    split
    · exact hw
    · exact .iteFst hw (.iteFst hw (hanswer (State.Form.cacheLeaf (.ite hw (hw.devWrite _ _)) _) _))

theorem State.Form.rangeOf {s : State} (h : s.Form) {tr : State → Nat → Nat → State × Walk} (htr : ∀ s a b, s.Form → (tr s a b).1.Form)
    (n m k : Nat) : (rangeOf tr n s m k).1.Form := by
  unfold Machine.rangeOf
  split
  · exact h
  · next _ _ _ _ e0 =>
    dsimp only
    split
    · next _ _ e0 =>
      refine .iteFst ((htr _ _ _ h).of_fst e0) ?_
      split
      · next _ _ e1 =>
        exact (((htr _ _ _ h).of_fst e0).rangeOf htr _ _ _).of_fst e1
      · next _ _ e1 =>
        exact (((htr _ _ _ h).of_fst e0).rangeOf htr _ _ _).of_fst e1
    · next _ _ e0 =>
      exact (htr _ _ _ h).of_fst e0

theorem State.Form.walkRange {s : State} (h : s.Form) (die vd va len : Nat) (k : AccessKind) : (walkRange s die vd va len k).1.Form :=
  h.rangeOf (fun _ _ _ hs => hs.walk _ _ _ _) _ _ _

theorem State.Form.vread {s : State} (h : s.Form) (vd va len : Nat) : (State.vread s vd va len).1.Form := by
  unfold State.vread
  split
  · next _ _ e0 =>
    exact .iteFst ((((h.walkRange _ _ _ _ _).of_fst e0).comes _).wordRecord _ _ _ _ _ _ _)
      ((((h.walkRange _ _ _ _ _).of_fst e0).comes _).same)
  · next _ _ e0 =>
    exact (h.walkRange _ _ _ _ _).of_fst e0

theorem State.Form.whenServed {s : State} (h : s.Form) {f : State → State} (hf : ∀ s, s.Form → (f s).Form) : (whenServed f s).Form :=
  .ite (hf _ h.same) ((h.wakeBanks _).askWindow _ _)

/-! ### Loads and stores -/

theorem checkWatch_form (va len : Nat) (rd wr : Bool) : M.KeepsForm (checkWatch va len rd wr) := by
  unfold Machine.checkWatch
  refine .of fun _ hs => ?_
  split
  · exact .ok hs
  · exact .ite trivial trivial

theorem State.Form.translatePart {s : State} (h : s.Form) (c : Nat) (k : AccessKind) (u : Option (Nat × Nat)) (va len : Nat) :
    (State.translatePart s c k u va len).1.Form := by
  unfold State.translatePart
  dsimp only
  split
  · exact .iteFst h (h.walk _ _ _ _)
  · exact h.walk _ _ _ _

theorem State.Form.translate {s : State} (h : s.Form) (c : Nat) (k : AccessKind) (u : Option (Nat × Nat)) (va len : Nat) :
    (State.translate s c k u va len).1.Form :=
  h.rangeOf (fun _ _ _ hs => hs.translatePart _ _ _ _ _) _ _ _

theorem State.Form.addLine {s : State} (h : s.Form) (c : Nat) (l : L1Line) : (State.addLine s c l).Form := by
  unfold State.addLine
  extract_lets _ s' _ _ s1
  have h' : s'.Form := .foldl (fun _ _ hs => .foldl (fun _ _ hs => hs.evictLine _ _ _) _ hs) _ h
  have h1 : s1.Form := h'.updCore _ fun _ => id
  exact .ite h1 (h1.evictLine _ _ _).same

theorem State.Form.fillL1 {s : State} (h : s.Form) (c va : Nat) (pas : List Nat) : (State.fillL1 s c va pas).Form := by
  unfold State.fillL1
  refine State.Form.foldl (fun _ _ hs => .ite ?_ hs) _ h
  split
  · exact hs.addLine _ _
  · exact hs

theorem State.Form.fillFar {s : State} (h : s.Form) (c va pa : Nat) (data : BitVec 512) : (State.fillFar s c va pa data).Form := by
  unfold State.fillFar
  split
  · exact h.addLine _ _
  · exact h

theorem State.Form.dropFar {s : State} (h : s.Form) (c : Nat) : (State.dropFar s c).Form :=
  State.Form.foldl (fun _ _ hs => hs.updCore _ (by exact fun _ => id)) _ h

theorem State.Form.wroteFar {s : State} (h : s.Form) (c va pa : Nat) (new : Option (List Byte)) : (State.wroteFar s c va pa new).Form :=
  h.mapCores (by exact fun _ => id)

theorem State.Form.mergeOwn {s : State} (h : s.Form) (c : Nat) (u : Option (Nat × Nat)) (va len : Nat) :
    (State.mergeOwn s c u va len).Form := by
  unfold State.mergeOwn
  refine State.Form.foldl (fun _ _ hs => ?_) _ h
  split
  · exact .ite (hs.evictLine _ _ _) hs
  · exact hs

theorem reach_form (va len : Nat) (k : AccessKind) (alloc : Bool) (u : Option (Nat × Nat)) : M.KeepsForm (reach va len k alloc u) := by
  unfold Machine.reach
  refine .of fun s hs => ?_
  split
  · exact trivial
  · exact .fault (hs.updMe _)
  · extract_lets s0
    have h0 : s0.Form := .ite hs (hs.mergeOwn _ _ _ _)
    have ht := h0.translate
    split
    · next e =>
      have h1 := (ht _ _ _ _ _).of_fst e
      exact .ok ((State.Form.ite (h1.fillL1 _ _ _) h1).wakeBanks _)
    · next e => exact .fault ((ht _ _ _ _ _).of_fst e)
    · next e => exact .keepWait (((ht _ _ _ _ _).of_fst e).askWindow _ _).same
    · next e => exact .keepWait (((ht _ _ _ _ _).of_fst e).updMe _)

theorem State.Form.sendPacket {s : State} (h : s.Form) (sealing : Bool) (cls : BitVec 8) (p0 : Packet) :
    (sendPacket sealing cls p0 s).Form :=
  .ite h.same h.same

theorem State.Form.sendRequest {s : State} (h : s.Form) (ident : Nat) (cls : BitVec 8) (pkg pa size : Nat) (op : PacketOp) (len : Nat)
    (data : BitVec 512) (kind : ReqKind) (va : Nat) : (sendRequest ident cls pkg pa size op len data kind va s).Form :=
  (h.sendPacket _ _ _).same

theorem lostTrap_form {α : Type} (pa kind : Nat) : M.KeepsForm (lostTrap (α := α) pa kind) :=
  .of fun _ hs => .keepTrap (hs.errorRecord _ _ _ _ _ _ _ _)

theorem remoteAsk_form (pkg pa len va : Nat) : M.KeepsForm (remoteAsk pkg pa len va) := by
  unfold Machine.remoteAsk
  refine .of fun _ hs => ?_
  split
  · exact .ok hs
  · exact .ite ((lostTrap_form _ _).kept hs) (.ite trivial (.keepWait (((hs.sendRequest _ _ _ _ _ _ _ _ _ _).same).updMe _)))

theorem State.Form.remoteStore {s : State} (h : s.Form) (ident : Nat) (cls : BitVec 8) (pkg pa size : Nat) (op : PacketOp)
    (data : BitVec 512) (va : Nat) : (remoteStore ident cls pkg pa size op data va s).Form :=
  .ite (h.interrupt _ _) (((h.sendRequest _ _ _ _ _ _ _ _ _ _).updMe _).wroteFar _ _ _ _)

theorem State.Form.consumeBad {s : State} (h : s.Form) (ps : List Place) (kind : Nat) : (consumeBad ps kind s).1.Form :=
  h.wordRecord _ _ _ _ _ _ _

theorem State.Form.readAtHome {s : State} (h : s.Form) (kind : Nat) (pc : W64) (ps : List Place) : (readAtHome kind pc ps s).1.Form :=
  .iteFst ((h.recall _).wordRecord _ _ _ _ _ _ _) (h.recall _)

theorem State.Form.spmLoad {s : State} (h : s.Form) (c off len : Nat) (addr pc : W64) : (spmLoad c off len addr pc s).1.Form :=
  .iteFst h.same (.iteFst (h.errorRecord _ _ _ _ _ _ _ _) h)

theorem State.Form.readNear {s : State} (h : s.Form) (kind : Nat) (pc : W64) (va len : Nat) (a : Target) :
    (readNear kind pc va len a s).1.Form := by
  unfold Machine.readNear
  split
  · exact .iteFst h (h.readAtHome _ _ _)
  · exact h
  · exact h
  · exact h.spmLoad _ _ _ _ _
  · exact (h.readNear _ _ _ _ _).readNear _ _ _ _ _

theorem readTarget_form (k : AccessKind) (len : Nat) (t : Target) : M.KeepsForm (readTarget k len t) :=
  .of fun _ hs => .ok (hs.readNear _ _ _ _ _)

theorem readOrAsk_form (k : AccessKind) (len : Nat) (t : Target) : M.KeepsForm (readOrAsk k len t) := by
  unfold Machine.readOrAsk
  refine .of fun _ hs => .ite (.keepWait (hs.askWindow _ _)) ?_
  split
  · exact .ok (hs.readAtHome _ _ _)
  · exact (readTarget_form _ _ _).kept hs

theorem loadGlobal_form (va len : Nat) (k : AccessKind) : M.KeepsForm (loadGlobal va len k) := by
  unfold Machine.loadGlobal
  refine .bind (reach_form _ _ _ _ _) fun _ => .bind (checkWatch_form _ _ _ _) fun _ => .get fun _ hs => .bind (.waitIf _ _) fun _ => ?_
  split
  · exact .bind (remoteAsk_form _ _ _ _) fun _ => .pure _
  · exact .bind (readOrAsk_form _ _ _) fun _ => .pure _

theorem State.Form.postParts {s : State} (h : s.Form) (op : BankOp) (va : Nat) (ps : List Place) : (postParts op va ps s).1.Form := by
  unfold Machine.postParts
  refine State.Form.foldlFst (fun _ _ hs => ?_) _ h
  exact (hs.post _ _ _ _ _ _).same

theorem State.Form.farParts {s : State} (h : s.Form) (fill : Bool) (va pkg pa n : Nat) : (farParts fill va pkg pa n s).1.Form := by
  unfold Machine.farParts
  refine State.Form.foldlFst (fun _ _ hs => ?_) _ h
  dsimp only
  split
  · exact hs
  · exact (hs.sendRequest _ _ _ _ _ _ _ _ _ _).same

theorem State.Form.sendParts {s : State} (h : s.Form) (cls : BitVec 8) (op : PacketOp) (data : BitVec 512) (fill : Bool) (len va : Nat)
    (near : List Byte) (a : Target) : (sendParts cls op data fill len va near a s).1.Form := by
  unfold Machine.sendParts
  split
  · exact .iteFst (h.farParts _ _ _ _ _) ((h.sendRequest _ _ _ _ _ _ _ _ _ _).same)
  · exact (h.sendParts _ _ _ _ _ _ _ _).sendParts _ _ _ _ _ _ _ _
  · exact .iteFst (h.postParts _ _ _) h
  · exact h

theorem State.Form.acquired {s : State} (h : s.Form) (l : Load) : (Load.acquired l s).Form := by
  unfold Load.acquired
  split
  · exact h
  · exact .ite (h.dropFar _) h

theorem State.Form.finishLoad {s : State} (h : s.Form) (l : Load) : (finishLoad l s).Form :=
  (((h.acquired _).deliverTag _ _).raiseFlags _).updMe _

theorem State.Form.putLoad {s : State} (h : s.Form) (l : Load) : (putLoad l s).Form :=
  h.updMe _

theorem State.Form.answerPart {s : State} (h : s.Form) (ident : Nat) (v : BitVec 512) : (answerPart ident v s).Form := by
  unfold Machine.answerPart
  split
  · exact h
  · exact .ite (h.finishLoad _) (h.putLoad _)

theorem State.Form.failLoad {s : State} (h : s.Form) (l : Load) (record : W64) : (failLoad l record s).Form :=
  (h.same.updHere (by exact fun _ => id))

theorem State.Form.failPart {s : State} (h : s.Form) (ident : Nat) (record : W64) : (failPart ident record s).Form := by
  unfold Machine.failPart
  split
  · exact h
  · exact h.failLoad _ _

theorem State.Form.respond {s : State} (h : s.Form) (sealing : Bool) (cls : BitVec 8) (p : Packet) (len : Nat) (data : BitVec 4096) :
    (respond sealing cls p len data s).Form :=
  h.sendPacket _ _ _

theorem State.Form.refuse {s : State} (h : s.Form) (p : Packet) : (refuse p s).Form :=
  h.respond _ _ _ _ _

theorem State.Form.answerGather {s : State} (h : s.Form) (ident v : Nat) : (answerGather ident v s).Form := by
  unfold Machine.answerGather
  split
  · exact h
  · refine .ite ?_ h.same
    dsimp only
    split
    · exact h.same.respond _ _ _ _ _
    · exact h.same.same

theorem State.Form.failGather {s : State} (h : s.Form) (ident : Nat) : (failGather ident s).Form := by
  unfold Machine.failGather
  split
  · exact h
  · dsimp only
    split
    · exact h.same.refuse _
    · exact h.same.same

theorem State.Form.engineLine {s : State} (h : s.Form) (c ident : Nat) (v : BitVec 512) : (engineLine c ident v s).Form :=
  h.updCore _ (by exact fun _ => id)

theorem State.Form.engineFails {s : State} (h : s.Form) (c ident : Nat) (record : W64) : (engineFails c ident record s).Form := by
  unfold Machine.engineFails
  split
  · exact h
  · exact (h.updCtx _ _ _).updCore _ (by exact fun _ => id)

theorem State.Form.answerUser {s : State} (h : s.Form) (q : OutsideReq) (v : Nat) : (answerUser q v s).Form := by
  unfold Machine.answerUser
  split
  · exact h.asContext _ _ (fun _ hs => hs.answerPart _ _)
  · exact h.respond _ _ _ _ _
  · exact h.answerGather _ _
  · exact h.engineLine _ _ _
  · exact h

theorem State.Form.engineAck {s : State} (h : s.Form) (c ident : Nat) : (engineAck c ident s).Form :=
  h.updCore _ (by exact fun _ => id)

theorem State.Form.ackUser {s : State} (h : s.Form) (q : OutsideReq) : (ackUser q s).Form := by
  unfold Machine.ackUser
  split
  · exact h.updCtx _ _ _
  · exact .ite h (h.respond _ _ _ _ _)
  · exact .ite h (h.engineAck _ _)
  · exact h

theorem State.Form.failUser {s : State} (h : s.Form) (q : OutsideReq) (ps : List Place) (kind : Nat) : (failUser q ps kind s).Form := by
  unfold Machine.failUser
  refine .ite ((h.wordRecord _ _ _ _ _ _ _).ackUser _) ?_
  split
  · exact (h.wordRecord _ _ _ _ _ _ _).asContext _ _ (fun _ hs => hs.failPart _ _)
  · exact (h.wordRecord _ _ _ _ _ _ _).refuse _
  · exact (h.wordRecord _ _ _ _ _ _ _).failGather _
  · exact (h.wordRecord _ _ _ _ _ _ _).engineFails _ _ _
  · exact h.wordRecord _ _ _ _ _ _ _

theorem State.Form.writeStamped {s : State} (h : s.Form) (stamp : Option Nat) (bs : List (Place × Byte)) (keep : Option (Nat × L1Line)) :
    (State.writeStamped s stamp bs keep).Form :=
  ((State.Form.foldl (fun _ _ hs => hs.poke _ _ _) _ h.same).soundAgain _).wrote _ _ _

theorem State.Form.serveWrite {s : State} (h : s.Form) (q : OutsideReq) (bs : List (Place × Byte)) : (serveWrite q s bs).Form :=
  .ite (h.writePlaces _ _) (h.writeStamped _ _ _)

theorem State.Form.serveAt {s : State} (h : s.Form) (ps : List Place) (q : OutsideReq) : (serveAt ps q s).Form := by
  unfold Machine.serveAt
  dsimp only
  split
  · exact h.recall _
  · exact .ite ((h.recall _).failUser _ _ _) ((h.recall _).answerUser _ _)
  · exact .ite ((h.recall _).failUser _ _ _) (((h.recall _).serveWrite _ _).ackUser _)
  · exact .ite ((h.recall _).failUser _ _ _) (((h.recall _).serveWrite _ _).answerUser _ _)
  · exact ((h.recall _).applyUpdate _ _ _ _ _ _ (fun _ _ hs => hs.serveWrite _ _)).ackUser _

theorem State.Form.serveRequest {s : State} (h : s.Form) (rank : Nat) (q : OutsideReq) : (serveRequest rank q s).Form :=
  (h.updRank _ _).serveAt _ _

theorem State.Form.serveQueue {s : State} (h : s.Form) (window : Bool) (rank : Nat) (before l : List OutsideReq) (n : Nat) :
    (serveQueue window rank before l n s).Form := by
  unfold Machine.serveQueue
  split
  · exact h
  · exact .ite h (.ite ((h.serveRequest _ _).serveQueue _ _ _ _ _) (h.serveQueue _ _ _ _ _))

theorem State.Form.serveBank {s : State} (h : s.Form) (window : Bool) (n rank : Nat) : (serveBank window n rank s).Form :=
  (h.serveQueue _ _ _ _ _).updRank _ _

theorem State.Form.settleBank {s : State} (h : s.Form) (rank : Nat) : (settleBank rank s).Form :=
  h.serveBank _ _ _

theorem State.Form.settlePlaces {s : State} (h : s.Form) (ps : List Place) : (settlePlaces ps s).Form :=
  State.Form.foldl (fun _ _ hs => hs.settleBank _) _ h

theorem State.Form.sendLoad {s : State} (h : s.Form) (cls : BitVec 8) (op : PacketOp) (data : BitVec 512) (l : Load) :
    (sendLoad cls op data l s).Form := by
  unfold Machine.sendLoad
  split
  · exact (h.errorRecord _ _ _ _ _ _ _ _).failLoad _ _
  · split
    · next e => exact ((h.readNear _ _ _ _ _).of_fst e).failLoad _ _
    · next e =>
      have hr := (h.readNear _ _ _ _ _).of_fst e
      exact .ite ((hr.sendParts _ _ _ _ _ _ _ _).same.finishLoad _)
        (((hr.sendParts _ _ _ _ _ _ _ _).same.putLoad _).settlePlaces _)

theorem farLoad_form (cls : BitVec 8) (op : PacketOp) (data : BitVec 512) (d : Opnd) (shape : LoadShape) (acq fill : Bool) (va len : Nat)
    {sources : State → State} (hsources : ∀ s, s.Form → (sources s).Form) (t : Target) :
    M.KeepsForm (farLoad cls op data d shape acq fill va len sources t) := by
  unfold Machine.farLoad
  refine .of fun _ hs => ?_
  split
  · exact (lostTrap_form _ _).kept hs
  · exact .ok (.ite ((((hsources _ hs.same).deliver _ _ _).updMe _).sendLoad _ _ _ _) (((hsources _ hs.same).deliver _ _ _).updMe _))

theorem State.Form.arrive {s : State} (h : s.Form) (ident vd : Nat) (user : BankUser) (p : Place) (len : Nat) (op : BankOp) :
    (arrive ident vd user p len op s).Form :=
  .ite ((h.wakeBanks _).post _ _ _ _ _ _) ((h.wakeBanks _).serveRequest _ _)

theorem State.Form.arriveWrite {s : State} (h : s.Form) (ident vd : Nat) (user : BankUser) (bs : List (Place × Byte)) :
    (arriveWrite ident vd user bs s).Form :=
  State.Form.foldl (fun _ _ hs => hs.arrive _ _ _ _ _ _) _ h

theorem State.Form.arriveRead {s : State} (h : s.Form) (vd : Nat) (packet : Option Packet) (ps : List Place) :
    (arriveRead vd packet ps s).Form :=
  State.Form.foldl (fun _ _ hs => hs.arrive _ _ _ _ _ _) _ h.same

theorem State.Form.mgmtStore {s : State} (h : s.Form) (off : Nat) (bs : List Byte) : (mgmtStore off bs s).Form :=
  .ite (State.Form.foldl (fun _ _ hs => hs.mgmtWrite _ _) _ h) h

theorem State.Form.storeHome {s : State} (h : s.Form) (va : Nat) (pc : W64) (ps : List Place) (bs : List Byte) :
    (storeHome va pc ps bs s).Form :=
  (State.Form.ite ((h.recall _).wordRecord _ _ _ _ _ _ _) (State.Form.foldl (fun _ _ hs => hs.writePlaces _ _) _ (h.recall _))).updMe _

theorem State.Form.postStore {s : State} (h : s.Form) (ident va : Nat) (ps : List Place) (bs : List Byte) :
    (postStore ident va ps bs s).Form := by
  unfold Machine.postStore
  extract_lets s1
  have h1 : s1.Form := .foldl (fun _ _ hs => hs.arrive _ _ _ _ _ _) _ h
  exact .ite h1 (h1.updMe _)

theorem State.Form.storeAs {s : State} (h : s.Form) (ident va : Nat) (pc : W64) (a : Target) (l : List Byte) :
    (storeAs ident va pc a l s).Form := by
  unfold Machine.storeAs
  split
  · exact .ite (h.postStore _ _ _ _) (h.storeHome _ _ _ _)
  · exact h.mgmtStore _ _
  · exact h.remoteStore _ _ _ _ _ _ _ _
  · exact h
  · exact (h.storeAs _ _ _ _ _).storeAs _ _ _ _ _

theorem State.Form.park {s : State} (h : s.Form) (va : Nat) (bs : List Byte) (t : Target) (full : Option Bool) (awaits after : List Nat) :
    (park va bs t full awaits after s).Form :=
  (h.updMe _).same

theorem State.Form.sendStore {s : State} (h : s.Form) (p : Parked) : (sendStore p s).Form :=
  .ite ((h.storeAs _ _ _ _ _).updMe _) (h.storeAs _ _ _ _ _)

theorem State.Form.storeTarget {s : State} (h : s.Form) (t : Target) (va : Nat) (bs : List Byte) : (storeTarget t va bs s).Form := by
  unfold Machine.storeTarget
  split
  · exact .ite (h.same.sendStore _) (h.storeAs _ _ _ _ _)
  · exact h.park _ _ _ _ _ _

theorem State.Form.storeRelease {s : State} (h : s.Form) (t : Target) (va : Nat) (bs : List Byte) : (storeRelease t va bs s).Form :=
  .ite (h.storeTarget _ _ _) (h.park _ _ _ _ _ _)

theorem release_form : M.KeepsForm (release) :=
  .of fun _ hs => .ite (.ok hs) trivial

theorem State.Form.deliverLoaded {s : State} (h : s.Form) (d : Opnd) (l : Loaded) (f : List Byte → List W64) :
    (deliverLoaded d l f s).Form := by
  unfold Machine.deliverLoaded
  split
  · exact h.deliver _ _ _
  · exact h.deliverBad _ _

theorem loadLocal_form (addr : W64) (len : Nat) : M.KeepsForm (loadLocal addr len) :=
  .of fun _ hs => .ok ((hs.touchAt _ _ _).spmLoad _ _ _ _ _)

theorem State.Form.spmStore {s : State} (h : s.Form) (c off : Nat) (addr pc : W64) (bs : List Byte) :
    (spmStore c off addr pc bs s).Form :=
  .ite h (.ite (h.errorRecord _ _ _ _ _ _ _ _) (h.spmWrite _ _ _))

theorem State.Form.storeLocal {s : State} (h : s.Form) (addr : W64) (bs : List Byte) : (storeLocal addr bs s).Form :=
  (h.touchAt _ _ _).spmStore _ _ _ _ _

theorem State.Form.setFull {s : State} (h : s.Form) (c w : Nat) (b : Bool) : (setFull c w b s).Form :=
  h.updCore _ (by exact fun _ => id)

theorem State.Form.withdraw {s : State} (h : s.Form) (c core ctx : Nat) : (withdraw c core ctx s).Form :=
  h.updCore _ (by exact fun _ => id)

theorem State.Form.feServe {s : State} (h : s.Form) (c w : Nat) (x : FeWaiter) (l : Loaded) : (feServe c w x l s).Form :=
  (State.Form.ite (((h.consume _).withdraw _ _ _).setFull _ _ _) ((h.consume _).withdraw _ _ _)).deliverLoaded _ _ _

theorem State.Form.serveWaiters {s : State} (h : s.Form) (c w n : Nat) : (serveWaiters c w n s).Form := by
  unfold Machine.serveWaiters
  split
  · exact h
  · split
    · exact h
    · refine .ite ((h.asContext _ _ (fun _ hs => ?_)).serveWaiters _ _ _) h
      split
      · next _ _ _ _ e =>
        exact .ite hs ((((((loadLocal_form _ _).of_ok hs e).feServe _ _ _ _).retire _)).updHere (by exact fun _ => id))
      · exact hs.queueSend _
      · exact hs

theorem State.Form.fill {s : State} (h : s.Form) (c w : Nat) : (fill c w s).Form :=
  (h.setFull _ _ _).serveWaiters _ _ _

theorem State.Form.markWord {s : State} (h : s.Form) (c off : Nat) (full : Option Bool) : (markWord c off full s).Form := by
  unfold Machine.markWord
  split
  · exact h
  · exact h.fill _ _
  · exact h.setFull _ _ _

theorem State.Form.storeCluster {s : State} (h : s.Form) (addr : W64) (bs : List Byte) (rel : Bool) (full : Option Bool) :
    (storeCluster addr bs rel full s).Form :=
  .ite ((h.touchAt _ _ _).park _ _ _ _ _ _) (.ite ((h.touchAt _ _ _).park _ _ _ _ _ _) ((h.storeLocal _ _).markWord _ _ _))

theorem State.Form.performParked {s : State} (h : s.Form) (p : Parked) : (performParked p s).Form := by
  unfold Machine.performParked
  split
  · exact (h.spmStore _ _ _ _ _).markWord _ _ _
  · exact h.sendStore _

theorem State.Form.drainOut {s : State} (h : s.Form) (n : Nat) : (drainOut n s).Form := by
  unfold Machine.drainOut
  split
  · exact h
  · split
    · exact h
    · exact ((h.updMe _).performParked _).drainOut _
    · exact (h.sendLoad _ _ _ _).drainOut _

theorem State.Form.drain {s : State} (h : s.Form) (c x : Nat) : (drain c x s).Form :=
  .ite h (h.asContext _ _ (fun _ hs => hs.drainOut _))

end Sys2Proof.Machine

end

section
/-! PROOFS. Loads, stores, atomics, courses and translations keep the form of memory -/

namespace Sys2Proof.Machine

/-! ### Memory instructions -/

theorem State.Form.acquire {s : State} (h : s.Form) (acq : Bool) : (acquire acq s).Form :=
  .ite (h.dropFar _) h

theorem State.Form.globalLoad {s : State} (h : s.Form) (i : Instr) (st : BitVec 3) (b d : Opnd) (o : BitVec 8) (unit size align : Nat)
    (shape : LoadShape) (acq nt : Bool) : FormAfter (globalLoad i st b d o unit size align shape acq nt s) :=
  .issue (.bind (prepare_form _ _ _) fun _ => .get fun _ _ => .bind (reach_form _ _ _ _ _) fun _ => .bind (checkWatch_form _ _ _ _)
    fun _ => .get fun _ _ => .ite (farLoad_form _ _ _ _ _ _ _ _ _ (fun _ hs2 => hs2.consume _) _) (.bind (readTarget_form _ _ _) fun _ =>
    .upd fun _ hs2 => ((hs2.consume _).acquire _).deliverLoaded _ _ _)) h

theorem State.Form.localLoad {s : State} (h : s.Form) (i : Instr) (st : BitVec 3) (b d : Opnd) (o : BitVec 8) (unit size align : Nat)
    (shape : LoadShape) (acq : Bool) : FormAfter (localLoad i st b d o unit size align shape acq s) :=
  .issue (.bind (prepare_form _ _ _) fun _ => .get fun _ _ => .ite (farLoad_form _ _ _ _ _ _ _ _ _
    (fun _ hs1 => (hs1.consume _).touchAt _ _ _) _) (.bind (loadLocal_form _ _) fun _ => .upd fun _ hs1 =>
    (hs1.consume _).deliverLoaded _ _ _)) h

theorem State.Form.globalStore {s : State} (h : s.Form) (i : Instr) (st : BitVec 3) (b data : Opnd) (o : BitVec 8) (unit size align : Nat)
    (rel : Bool) : FormAfter (globalStore i st b data o unit size align rel s) :=
  .issue (.bind (prepare_form _ _ _) fun _ => .get fun _ _ => .bind (reach_form _ _ _ _ _) fun _ => .bind (checkWatch_form _ _ _ _)
    fun _ => .upd fun _ hs1 => .ite ((hs1.consume _).storeRelease _ _ _) ((hs1.consume _).storeTarget _ _ _)) h

theorem State.Form.localStore {s : State} (h : s.Form) (i : Instr) (st : BitVec 3) (b data : Opnd) (o : BitVec 8) (unit size align : Nat)
    (rel : Bool) (full : Option Bool) : FormAfter (localStore i st b data o unit size align rel full s) :=
  .issue (.bind (prepare_form _ _ _) fun _ => .get fun _ _ => .upd fun _ hs1 => (hs1.consume _).storeCluster _ _ _ _) h

theorem State.Form.feLoad {s : State} (h : s.Form) (i : Instr) (st : BitVec 3) (d b : BitVec 5) (o : BitVec 8) (empties : Bool) :
    FormAfter (feLoad i st d b o empties s) :=
  .issue (.bind (prepare_form _ _ _) fun _ => .get fun _ hs => .ite (.bind (.waitIf _ _) fun _ => .bind (loadLocal_form _ _) fun _ =>
    .upd fun _ hs1 => hs1.feServe _ _ _ _) (.ite (.bind (.of fun _ _ => trivial) fun _ => .bind (.waitIf _ _) fun _ => .bind
    (loadLocal_form _ _) fun _ => .upd fun _ hs1 => hs1.feServe _ _ _ _)
    (.bind (.of fun _ _ => .keepWait (hs.updCore _ (by exact fun _ => id))) fun _ => .bind (.waitIf _ _) fun _ => .bind
    (loadLocal_form _ _) fun _ => .upd fun _ hs1 => hs1.feServe _ _ _ _))) h

theorem State.Form.execLdv {s : State} (h : s.Form) (st : BitVec 3) (w : BitVec 2) (d b : BitVec 5) (q : BitVec 3) (o : BitVec 8) :
    FormAfter (execLdv st w d b q o s) := by
  unfold Machine.execLdv
  split
  · exact h.localLoad _ _ _ _ _ _ _ _ _ _
  · exact h.globalLoad _ _ _ _ _ _ _ _ _ _ _

theorem State.Form.execStv {s : State} (h : s.Form) (st : BitVec 3) (w : BitVec 2) (d b : BitVec 5) (q : BitVec 3) (o : BitVec 8) :
    FormAfter (execStv st w d b q o s) := by
  unfold Machine.execStv
  split
  · exact h.localStore _ _ _ _ _ _ _ _ _ _
  · exact h.globalStore _ _ _ _ _ _ _ _ _

theorem State.Form.execLdx {s : State} (h : s.Form) (st : BitVec 3) (d b : BitVec 5) (l t : BitVec 1) (o : BitVec 8) :
    FormAfter (execLdx st d b l t o s) :=
  .issue (.bind (prepare_form _ _ _) fun _ => .get fun _ _ => .ite
    (.ite (.bind (farLoad_form _ _ _ _ _ _ _ _ _ (fun _ hs1 => (hs1.consume _).touchAt _ _ _) _) fun _ => .upd fun _ hs1 =>
    hs1.useWords _ _) (.bind (loadLocal_form _ _) fun _ => .upd fun _ hs1 =>
    (((hs1.consume _).deliverLoaded _ _ _).raiseFlags _).useWords _ _)) (.bind (reach_form _ _ _ _ _) fun _ => .bind
    (checkWatch_form _ _ _ _) fun _ => .get fun _ _ => .ite (.bind (farLoad_form _ _ _ _ _ _ _ _ _ (fun _ hs2 => hs2.consume _) _)
    fun _ => .upd fun _ hs2 => hs2.useWords _ _) (.bind (readTarget_form _ _ _) fun _ => .upd fun _ hs2 =>
    (((hs2.consume _).deliverLoaded _ _ _).raiseFlags _).useWords _ _))) h

theorem State.Form.execStx {s : State} (h : s.Form) (st : BitVec 3) (d b : BitVec 5) (l t u : BitVec 1) (o : BitVec 8) :
    FormAfter (execStx st d b l t u o s) :=
  .issue (.bind (prepare_form _ _ _) fun _ => .get fun _ _ => .ite
    (.upd fun _ hs1 => (((hs1.consume _).storeCluster _ _ _ _).raiseFlags _).useWords _ _) (.bind (reach_form _ _ _ _ _) fun _ => .bind
    (checkWatch_form _ _ _ _) fun _ => .upd fun _ hs1 => (((hs1.consume _).storeTarget _ _ _).raiseFlags _).useWords _ _)) h

theorem State.Form.execPref {s : State} (h : s.Form) (st : BitVec 3) (b : BitVec 5) (q : BitVec 2) (o : BitVec 8) :
    FormAfter (execPref st b q o s) := by
  unfold Machine.execPref
  refine .issue (.bind (prepare_form _ _ _) fun _ => .upd fun _ hs => ?_) h
  dsimp only
  split
  · next _ _ e0 =>
    exact .ite ((((hs.consume _).walk _ _ _ _).of_fst e0).fillL1 _ _ _) (((hs.consume _).walk _ _ _ _).of_fst e0)
  · exact hs.consume _
  · next _ _ e0 =>
    exact ((hs.consume _).walk _ _ _ _).of_fst e0

/-! ### Atomics and updates -/

theorem State.Form.rmwHome {s : State} (h : s.Form) (ps : List Place) (f : Nat → Nat) : (rmwHome ps f s).1.Form :=
  (h.recall _).writePlaces _ _

theorem State.Form.atomOp {s : State} (h : s.Form) (i : Instr) (st : BitVec 3) (d a b : BitVec 5) (size op : Nat) :
    FormAfter (atomOp i st d a b size op s) := by
  unfold Machine.atomOp
  refine .issue (.bind (prepare_form _ _ _) fun _ => .bind release_form fun _ => .get fun _ hs => .bind (reach_form _ _ _ _ _) fun _ =>
    .bind (checkWatch_form _ _ _ _) fun _ => .get fun _ hs1 => ?_) h
  dsimp only
  split
  · exact .ite (farLoad_form _ _ _ _ _ _ _ _ _ (fun _ hs2 => hs2.consume _) _)
      (.ite (.upd fun _ hs2 => ((hs2.consumeBad _ _).consume _).deliverLoaded _ _ _)
      (.upd fun _ hs2 => (((hs2.consume _).rmwHome _ _).acquire _).deliver _ _ _))
  · exact .upd fun _ hs2 => ((hs2.consume _).mgmtStore _ _).deliver _ _ _
  · exact farLoad_form _ _ _ _ _ _ _ _ _ (fun _ hs2 => hs2.consume _) _

theorem State.Form.updHome {s : State} (h : s.Form) (c va y : Nat) : (updHome c va y s).Form := by
  unfold Machine.updHome
  dsimp only
  split
  · split
    · exact h.updCore _ (by exact fun _ => id)
    · exact h
  · exact h

theorem State.Form.updAlloc {s : State} (h : s.Form) (c va ty op : Nat) : (updAlloc c va ty op s).Form := by
  unfold Machine.updAlloc
  refine .ite h ?_
  split
  · exact h
  · split
    · exact h
    · exact (h.addLine _ _).updMe _

theorem State.Form.updOp {s : State} (h : s.Form) (i : Instr) (st : BitVec 3) (a b : BitVec 5) (t : BitVec 3) (op : Nat) :
    FormAfter (updOp i st a b t op s) := by
  unfold Machine.updOp
  refine .issue (.bind (prepare_form _ _ _) fun _ => .get fun _ hs => .bind (reach_form _ _ _ _ _) fun _ => .bind
    (checkWatch_form _ _ _ _) fun _ => .get fun _ hs1 => .bind (.waitIf _ _) fun _ => .upd fun _ hs2 => ?_) h
  split
  · exact ((hs2.consume _).updAlloc _ _ _ _).updHome _ _ _
  · exact (hs2.consume _).mgmtStore _ _
  · exact (hs2.same.consume _).remoteStore _ _ _ _ _ _ _ _
  · exact hs2

/-! ### Courses -/

theorem State.Form.setCourse {s : State} (h : s.Form) (c : Course) : (State.setCourse s c).Form :=
  h.same

theorem State.Form.dropCourse {s : State} (h : s.Form) (id : Nat) : (State.dropCourse s id).Form :=
  h.same

theorem State.Form.updCmd {s : State} (h : s.Form) (vd n : Nat) (f : RingCmd → RingCmd) : (updCmd vd n f s).Form :=
  h.updVd _ (by exact fun _ => id)

theorem State.Form.finishCmd {s : State} (h : s.Form) (vd n code member : Nat) : (finishCmd vd n code member s).Form :=
  h.updCmd _ _ _

theorem State.Form.landHeld {s : State} (h : s.Form) (r : Nat) (x : HeldWrite) : (landHeld r x s).Form := by
  unfold Machine.landHeld
  dsimp only
  split
  · exact ((State.Form.foldl (fun _ _ hs => hs.pokeByte _ _) _ h).soundAgain _).wordRecord _ _ _ _ _ _ _
  · exact (State.Form.foldl (fun _ _ hs => hs.pokeByte _ _) _ h).soundAgain _

theorem State.Form.applyHeld {s : State} (h : s.Form) (foot : List (Nat × Nat)) : (applyHeld foot s).Form :=
  State.Form.foldl (fun _ _ hs => (State.Form.foldl (fun _ _ hs1 => hs1.landHeld _ _) _ hs).updRank _ _) _ h

theorem State.Form.settleRows {s : State} (h : s.Form) (foot : List (Nat × Nat)) : (settleRows foot s).Form :=
  State.Form.foldl (fun _ _ hs => hs.settleBank _) _ h

theorem State.Form.mortarWord {s : State} (h : s.Form) (draw rank row old new w : Nat) (c : Course) :
    (mortarWord draw rank row old new w c s).Form := by
  have hclear : Memory.wf (Memory.clear s.mem (cellKey rank new (32 * w)) (cellKey rank new (32 * w) + 32)) = true :=
    Memory.wf_clear _ _ h.1.1
  exact .ite (State.Form.foldl (fun _ _ hs => hs.poke _ _ _) _ ⟨⟨hclear, h.1.2⟩, h.2⟩) ⟨⟨hclear, h.1.2⟩, h.2⟩

theorem State.Form.flipRow {s : State} (h : s.Form) (c : Course) (t rank row : Nat) : (flipRow c t rank row s).Form :=
  ((State.Form.foldl (fun _ _ hs => hs.mortarWord _ _ _ _ _ _ _) _ h).updRank _ _).same

theorem State.Form.flip {s : State} (h : s.Form) (c : Course) : (flip c s).Form :=
  ((State.Form.foldl (fun _ _ hs => hs.flipRow _ _ _ _) _ h).applyHeld _).wakeLines _

theorem State.Form.startRank {s : State} (h : s.Form) (run : RankRun) (arg : Word) (slot entry r : Nat) :
    (startRank run arg slot entry r s).Form :=
  (h.wakeBanks _).updRank _ _

theorem State.Form.beginRank {s : State} (h : s.Form) (run : RankRun) (arg : Word) (slot entry r : Nat) :
    (beginRank run arg slot entry r s).Form :=
  .ite (h.startRank _ _ _ _ _) (h.updRank _ _)

theorem State.Form.updQueue {s : State} (h : s.Form) (vd q : Nat) (f : LaunchQueue → LaunchQueue) : (updQueue vd q f s).Form :=
  h.updVd _ (by exact fun _ => id)

theorem State.Form.updLaunch {s : State} (h : s.Form) (vd q launch : Nat) (f : Launch → Launch) : (updLaunch vd q launch f s).Form :=
  h.updQueue _ _ _

theorem State.Form.updNode {s : State} (h : s.Form) (vd q launch node : Nat) (f : Node → Node) : (updNode vd q launch node f s).Form :=
  h.updLaunch _ _ _ _

theorem State.Form.noteEnd {s : State} (h : s.Form) (run : RankRun) (code : Option Nat) : (noteEnd run code s).Form := by
  unfold Machine.noteEnd
  split
  · exact h.updCmd _ _ _
  · exact h.updNode _ _ _ _ _

/-! ### Jumps, traps and waits -/

theorem State.Form.fillLine {s : State} (h : s.Form) (c line : Nat) (ws : List (Option Word)) : (fillLine c line ws s).Form :=
  .ite (h.updCore _ (by exact fun _ => id)) ((h.updCore _ (by exact fun _ => id)).same)

theorem fetchLine_form (pc : Nat) (a : Target) : M.KeepsForm (fetchLine pc a) := by
  unfold Machine.fetchLine
  split
  · exact .of fun _ hs => .ite (.keepWait (hs.askWindow _ _)) (.ite (.keepTrap ((hs.recall _).consumeBad _ _)) (.ok (hs.recall _)))
  · exact .of fun _ hs => .ite trivial (.ite ((lostTrap_form _ _).kept hs) (.keepWait ((hs.sendRequest _ _ _ _ _ _ _ _ _ _).same)))
  · exact .pure _

theorem fetchWord_form (pc : Nat) : M.KeepsForm (fetchWord pc) := by
  unfold Machine.fetchWord
  refine .of fun _ hs => ?_
  split
  · exact .ok hs
  · split
    · next _ _ e1 =>
      exact .ok (((M.KeepsForm.bind (reach_form _ _ _ _ _) fun _ => fetchLine_form _ _).of_ok hs e1).fillLine _ _ _)
    · next _ e1 =>
      exact (M.KeepsForm.bind (reach_form _ _ _ _ _) fun _ => fetchLine_form _ _).of_error hs e1

theorem fetchWords_form (pc n : Nat) : M.KeepsForm (fetchWords pc n) := by
  unfold Machine.fetchWords
  split
  · exact .pure _
  · exact .bind (fetchWord_form _) fun _ => .bind (fetchWords_form _ _) fun _ => .pure _

theorem nextWord_form : M.KeepsForm (nextWord) := by
  unfold Machine.nextWord
  refine .of fun _ hs => ?_
  split
  · exact (fetchWord_form _).kept hs
  · split
    · exact .ok hs
    · refine .ite ((fetchWord_form _).kept hs) ?_
      split
      · next _ e2 =>
        exact (fetchWords_form _ _).of_error hs e2
      · next _ _ e2 =>
        exact .ok (((fetchWords_form _ _).of_ok hs e2).updMe _)

theorem State.Form.jumpTo {s : State} (h : s.Form) (a : W64) : (jumpTo a s).Form :=
  h.same

theorem State.Form.execLoop {s : State} (h : s.Form) (st : BitVec 3) (a : BitVec 5) (i : BitVec 15) : FormAfter (execLoop st a i s) :=
  .issue (.bind (prepare_form _ _ _) fun _ => .upd fun _ hs => .ite ((hs.writeReg _ _ _).jumpTo _) (hs.writeReg _ _ _)) h

theorem State.Form.link {s : State} (h : s.Form) : (Machine.link s).Form :=
  h.writeReg _ _ _

theorem State.Form.jumpReg {s : State} (h : s.Form) (i : Instr) (st : BitVec 3) (a : Opnd) (linked : Bool) :
    FormAfter (jumpReg i st a linked s) :=
  .issue (.bind (prepare_form _ _ _) fun _ => .upd fun _ hs => (State.Form.ite ((hs.consume _).link) (hs.consume _)).jumpTo _) h

theorem fetchBody_form (pc n : Nat) : M.KeepsForm (fetchBody pc n) := by
  unfold Machine.fetchBody
  split
  · exact .pure _
  · refine .bind (fetchWord_form _) fun _ => .get fun _ hs => ?_
    split
    · exact .of fun _ _ => trivial
    · exact .bind (fetchBody_form _ _) fun _ => .pure _

theorem State.Form.execRep {s : State} (h : s.Form) (st : BitVec 3) (a : BitVec 5) (i : BitVec 11) : FormAfter (execRep st a i s) :=
  .issue (.get fun _ _ => .bind (fetchBody_form _ _) fun _ => .bind (prepare_form _ _ _) fun _ => .upd fun _ hs1 => .ite
    ((hs1.consume _).jumpTo _) (((hs1.consume _).updMe _).jumpTo _)) h

/-! ### Digits drawn when asked for -/

theorem State.Form.setHandle {s : State} (h : s.Form) (x : Nat) (f : Stream → Stream) : (setHandle x f s).Form :=
  h.updMe _

theorem awaitSpm_form (off len : Nat) : M.KeepsForm (awaitSpm off len) :=
  .of fun _ hs => .ite trivial (.ite (.keepTrap (hs.spmRecord _ _)) (.ok hs))

theorem State.Form.execSbind {s : State} (h : s.Form) (st : BitVec 3) (a b : BitVec 5) : FormAfter (execSbind st a b s) := by
  unfold Machine.execSbind
  refine .issue (.bind (prepare_form _ _ _) fun _ => .get fun _ _ => .bind (awaitSpm_form _ _) fun _ => .bind ?_ ?_) h
  · generalize (wordOf (.sbind st a b)).zeroExtend 64 = v
    exact .trapIf _ _ _
  · exact fun _ => .upd fun _ hs1 => ((hs1.consume _).touch _ _).setHandle _ _

theorem State.Form.drawWords {s : State} (h : s.Form) (i : Instr) (st : BitVec 3) (d a b : BitVec 5) (n : Nat) :
    FormAfter (drawWords i st d a b n s) :=
  .issue (.bind (prepare_form _ _ _) fun _ => .upd fun _ hs => (hs.consume _).deliver _ _ _) h

theorem State.Form.setLazy {s : State} (h : s.Form) (a : BitVec 5) (z : Lazy) : (setLazy a z s).Form :=
  h.updMe _

/-- The stop keeps no effect. -/
def Stop.Bare (e : Stop) : Prop := ∀ {α : Type}, Kept (α := α) (.error e)

theorem Stop.Bare.stop {e : Stop} (he : e.Bare) {α : Type} : M.KeepsForm (stop e : M α) := .of fun _ _ => he

theorem extend_bare {c : Context} {z : Lazy} {e : Stop} (h : extend c z = .error e) : e.Bare := by
  unfold extend at h
  dsimp only at h
  split at h
  · cases h; exact trivial
  · split at h
    · cases h; exact trivial
    · cases h

theorem decideLoop_bare {c : Context} {test : Nat → Nat → Option W64} {n : Nat} {z : Lazy} {e : Stop}
    (h : decideLoop c test n z = .error e) : e.Bare := by
  induction n generalizing z with
  | zero => cases h
  | succ n ih =>
    unfold decideLoop at h
    split at h
    · cases h
    · split at h
      · cases h
      · split at h
        · next he =>
          cases h
          exact extend_bare he
        · exact ih h

theorem ltzLoop_bare {c : Context} {n : Nat} {x y : Lazy} {e : Stop} (h : ltzLoop c n x y = .error e) : e.Bare := by
  induction n generalizing x y with
  | zero => cases h
  | succ n ih =>
    unfold ltzLoop at h
    split at h
    · cases h
    · split at h
      · cases h
      · split at h
        all_goals
          split at h
          · next he =>
            cases h
            exact extend_bare he
          · exact ih h

theorem extendTo_bare {c : Context} {k n : Nat} {z : Lazy} {e : Stop} (h : extendTo c k n z = .error e) : e.Bare := by
  induction n generalizing z with
  | zero => cases h
  | succ n ih =>
    unfold extendTo at h
    split at h
    · cases h
    · split at h
      · next he =>
        cases h
        exact extend_bare he
      · exact ih h

theorem State.Form.lazyOp {s : State} (h : s.Form) (i : Instr) (st : BitVec 3) (d a : BitVec 5) (src : Opnd)
    (quick : List W64 → Option W64) (test : List W64 → Nat → Nat → Option W64) (last : List W64 → Nat → W64) (flag : List W64 → Fl) :
    FormAfter (lazyOp i st d a src quick test last flag s) := by
  unfold Machine.lazyOp
  refine .issue (.bind (prepare_form _ _ _) fun _ => .get fun _ hs => ?_) h
  dsimp only
  split
  · exact .upd fun _ hs1 => (((hs1.consume _).setLazy _ _).deliver _ _ _).raiseFlags _
  · split
    · next he =>
      exact Stop.Bare.stop (decideLoop_bare he)
    · exact .upd fun _ hs1 => (((hs1.consume _).setLazy _ _).deliver _ _ _).raiseFlags _
    · exact .ite (.upd fun _ hs1 => (((hs1.consume _).setLazy _ _).deliver _ _ _).raiseFlags _)
        (.of fun _ _ => .keepTrap (hs.setLazy _ _))

theorem State.Form.execZltz {s : State} (h : s.Form) (st : BitVec 3) (d a b : BitVec 5) : FormAfter (execZltz st d a b s) := by
  unfold Machine.execZltz
  refine .issue (.bind (prepare_form _ _ _) fun _ => .get fun _ hs => .ite (.upd fun _ hs1 => hs1.deliver _ _ _) ?_) h
  split
  · next he =>
    exact Stop.Bare.stop (ltzLoop_bare he)
  · exact .upd fun _ hs1 => ((hs1.setLazy _ _).setLazy _ _).deliver _ _ _
  · exact .ite (.upd fun _ hs1 => ((hs1.setLazy _ _).setLazy _ _).deliver _ _ _) (.of fun _ _ => .keepTrap ((hs.setLazy _ _).setLazy _ _))

theorem State.Form.execZext {s : State} (h : s.Form) (st : BitVec 3) (a b : BitVec 5) : FormAfter (execZext st a b s) := by
  unfold Machine.execZext
  refine .issue (.bind (prepare_form _ _ _) fun _ => .get fun _ hs => ?_) h
  split
  · next he =>
    exact Stop.Bare.stop (extendTo_bare he)
  · exact .upd fun _ hs1 => (hs1.consume _).setLazy _ _

theorem State.Form.execZld {s : State} (h : s.Form) (st : BitVec 3) (d a : BitVec 5) : FormAfter (execZld st d a s) :=
  .issue (.bind (prepare_form _ _ _) fun _ => .get fun _ _ => .bind (awaitSpm_form _ _) fun _ => .bind (.trapIf _ _ _) fun _ =>
    .upd fun _ hs1 => ((hs1.consume _).touch _ _).setLazy _ _) h

theorem State.Form.partOne {s : State} (h : s.Form) (d a : BitVec 5) (src : Opnd) (quick : List W64 → Option W64)
    (test : List W64 → Nat → Nat → Option W64) (n : Nat) : (partOne d a src quick test n s).Form := by
  unfold Machine.partOne
  split
  · exact h
  · exact .ite h (h.setLazy _ _)

theorem State.Form.lazyPart {s : State} (h : s.Form) (i : Instr) (n : Nat) : (lazyPart i n s).Form := by
  unfold Machine.lazyPart
  refine .ite h ?_
  split
  · exact h.partOne _ _ _ _ _ _
  · exact h.partOne _ _ _ _ _ _
  · exact h.partOne _ _ _ _ _ _
  · split
    · exact h
    · exact .ite h ((h.setLazy _ _).setLazy _ _)
  · split
    · exact h
    · exact h.setLazy _ _
  · exact h

end Sys2Proof.Machine

end

section
/-! PROOFS. Images of contexts, helpers, ports and graphs keep the form of memory -/

namespace Sys2Proof.Machine

/-! ### Images of contexts -/

theorem State.Form.patchImage {s : State} (h : s.Form) (vd origin off : Nat) (bs : List Byte) : (patchImage vd origin off bs s).Form :=
  .ite h (h.devWrite _ _)

theorem State.Form.readImage {s : State} (h : s.Form) (vd origin : Nat) : (readImage vd origin s).1.Form := by
  unfold Machine.readImage
  split
  · exact h
  · exact h.comes _

/-! ### Helpers -/

theorem State.Form.withdrawAll {s : State} (h : s.Form) (c x : Nat) : (State.withdrawAll s c x).Form :=
  h.mapCores (by exact fun _ => id)

theorem State.Form.stopLazy {s : State} (h : s.Form) (c x : Nat) : (stopLazy c x s).Form := by
  unfold Machine.stopLazy
  refine .ite (h.same.asContext _ _ (fun _ hs => ?_)) h
  split
  · exact hs
  · split
    · exact hs
    · exact hs.lazyPart _ _

theorem State.Form.execStart {s : State} (h : s.Form) (st : BitVec 3) (d a b : BitVec 5) : FormAfter (execStart st d a b s) := by
  unfold Machine.execStart
  refine .issue (.bind (prepare_form _ _ _) fun _ => .upd fun _ hs => ?_) h
  dsimp only
  split
  · exact ((hs.consume _).updHere (by exact fun _ => id)).deliver _ _ _
  · exact (hs.consume _).deliver _ _ _

theorem State.Form.execHalt {s : State} (h : s.Form) (st : BitVec 3) : FormAfter (execHalt st s) :=
  .issue (.get fun _ _ => .bind (.waitIf _ _) fun _ => .upd fun _ hs1 => .ite ((hs1.updMe _).updHere (by exact fun _ => id))
    (hs1.updMe _)) h

theorem State.Form.execJoinh {s : State} (h : s.Form) (st : BitVec 3) (a : BitVec 5) : FormAfter (execJoinh st a s) := by
  unfold Machine.execJoinh
  refine .issue (.bind (prepare_form _ _ _) fun _ => .get fun _ hs => ?_) h
  dsimp only
  split
  · exact .bind (.waitIf _ _) fun _ => .upd fun _ hs1 => hs1.consume _
  · exact .upd fun _ hs1 => hs1.consume _

theorem State.Form.status {s : State} (h : s.Form) (d : BitVec 5) (srcs : List Opnd) (n : Nat) : (status d srcs n s).Form :=
  (h.consume _).deliver _ _ _

theorem State.Form.stopHelper {s : State} (h : s.Form) (x : Nat) : (stopHelper x s).Form :=
  (((h.updHere (by exact fun _ => id)).stopLazy _ _).withdrawAll _ _).updCtx _ _ _

theorem saveHelper_form (x off : Nat) : M.KeepsForm (saveHelper x off) :=
  .of fun _ hs => .ite (.keepWait (hs.stopHelper _)) (.ok (((hs.stopHelper _).spmWrite _ _ _).touch _ _))

theorem State.Form.execSaveh {s : State} (h : s.Form) (st : BitVec 3) (d a b : BitVec 5) : FormAfter (execSaveh st d a b s) := by
  unfold Machine.execSaveh
  refine .issue (.bind (prepare_form _ _ _) fun _ => .get fun _ hs => ?_) h
  dsimp only
  split
  · exact .upd fun _ hs1 => hs1.status _ _ _
  · exact .ite (.upd fun _ hs1 => hs1.status _ _ _) (.bind (saveHelper_form _ _) fun _ => .upd fun _ hs1 => hs1.status _ _ _)

theorem State.Form.execLoadh {s : State} (h : s.Form) (st : BitVec 3) (d a b : BitVec 5) : FormAfter (execLoadh st d a b s) := by
  unfold Machine.execLoadh
  refine .issue (.bind (prepare_form _ _ _) fun _ => .get fun _ hs => ?_) h
  dsimp only
  split
  · exact .upd fun _ hs1 => hs1.status _ _ _
  · exact .ite (.upd fun _ hs1 => hs1.status _ _ _) (.bind (awaitSpm_form _ _) fun _ => .upd fun _ hs1 =>
      ((hs1.touch _ _).updCtx _ _ _).status _ _ _)

theorem State.Form.execResumeh {s : State} (h : s.Form) (st : BitVec 3) (d a : BitVec 5) : FormAfter (execResumeh st d a s) := by
  unfold Machine.execResumeh
  refine .issue (.bind (prepare_form _ _ _) fun _ => .upd fun _ hs => ?_) h
  split
  · exact hs.status _ _ _
  · split
    · exact hs.status _ _ _
    · exact hs.status _ _ _
    · exact ((hs.updHere (by exact fun _ => id)).updCtx _ _ _).status _ _ _

theorem killHelper_form (x : Nat) : M.KeepsForm (killHelper x) :=
  .of fun _ hs => .ite (.keepWait ((hs.withdrawAll _ _).updCtx _ _ _))
    (.ok (((((hs.withdrawAll _ _).updCtx _ _ _).updHere (by exact fun _ => id)).same).updVd _ (by exact fun _ => id)))

theorem State.Form.execKillh {s : State} (h : s.Form) (st : BitVec 3) (d a : BitVec 5) : FormAfter (execKillh st d a s) := by
  unfold Machine.execKillh
  refine .issue (.bind (prepare_form _ _ _) fun _ => .get fun _ hs => ?_) h
  split
  · exact .upd fun _ hs1 => hs1.status _ _ _
  · exact .ite (.upd fun _ hs1 => hs1.status _ _ _) (.bind (killHelper_form _) fun _ => .upd fun _ hs1 => hs1.status _ _ _)

theorem State.Form.execUpret {s : State} (h : s.Form) (st : BitVec 3) : FormAfter (execUpret st s) :=
  .issue (.get fun _ _ => .ite (.bind (awaitSpm_form _ _) fun _ => .upd fun _ hs1 =>
    (((hs1.updHere (by exact fun _ => id)).writeReg _ _ _).writeReg _ _ _).same) (.upd fun _ hs1 => hs1)) h

/-! ### Ports and groups -/

theorem Core.Wf.setPort {k : Core} (h : k.Wf) (x p : Nat) (v : Port) : (setPort x p v k).Wf := by
  unfold Machine.setPort Core.setCtx
  exact h

theorem Vd.Wf.put {v : Vd} (hv : v.Wf) {k : Core} (hk : k.Wf) (c : Nat) : Vd.Wf { v with saved := Machine.put c k v.saved } := by
  intro e he
  obtain rfl | h := of_mem_put he
  · exact hk
  · exact hv e h

theorem State.Form.bindBack {s : State} (h : s.Form) (d back : PortDest) : (bindBack d back s).Form := by
  unfold Machine.bindBack
  dsimp only
  split
  · next k hk =>
    exact (h.updVd _ fun x hx => hx.put (Core.Wf.setPort (h.vd _ _ (mem_of_lookup hk)) _ _ _) _).patchImage _ _ _ _
  · exact h.updCore _ fun _ hk => hk.setPort _ _ _

theorem State.Form.bind {s : State} (h : s.Form) (v : W64) (p : Nat) : (bind v p s).Form :=
  .ite ((h.updHere (by exact fun _ => id)).bindBack _ _) ((h.updHere (by exact fun _ => id)).updMe _)

theorem State.Form.execPdrain {s : State} (h : s.Form) (st : BitVec 3) (d a : BitVec 5) : FormAfter (execPdrain st d a s) :=
  .issue (.bind (prepare_form _ _ _) fun _ => .get fun _ hs => .ite (.upd fun _ hs1 => hs1.deliver _ _ _)
    (.ite (.of fun _ _ => .keepWait ((hs.updHere (by exact fun _ => id)).updMe _))
    (.upd fun _ hs1 => ((hs1.updHere (by exact fun _ => id)).updMe _).deliver _ _ _))) h

theorem State.Form.updTracker {s : State} (h : s.Form) (g : Nat) (f : Tracker → Tracker) : (State.updTracker s g f).Form := by
  unfold State.updTracker
  split
  · exact h
  · exact h.updVd _ (by exact fun _ => id)

theorem State.Form.arriveAt {s : State} (h : s.Form) (g : Nat) : (arriveAt g s).Form :=
  h.updTracker _ _

theorem State.Form.phaseAcquire {s : State} (h : s.Form) (g : Nat) : (phaseAcquire g s).Form :=
  h.acquire _

theorem State.Form.execBara {s : State} (h : s.Form) (st : BitVec 3) (d a : BitVec 5) : FormAfter (execBara st d a s) :=
  .issue (.bind (prepare_form _ _ _) fun _ => .bind release_form fun _ => .upd fun _ hs => ((hs.consume _).arriveAt _).deliver _ _ _) h

theorem State.Form.execBarw {s : State} (h : s.Form) (st : BitVec 3) (a b : BitVec 5) : FormAfter (execBarw st a b s) :=
  .issue (.bind (prepare_form _ _ _) fun _ => .get fun _ _ => .bind (.waitIf _ _) fun _ => .upd fun _ hs1 =>
    (hs1.consume _).phaseAcquire _) h

theorem State.Form.execBar {s : State} (h : s.Form) (st : BitVec 3) (a : BitVec 5) : FormAfter (execBar st a s) := by
  unfold Machine.execBar
  refine .issue (.bind (prepare_form _ _ _) fun _ => .get fun _ hs => ?_) h
  dsimp only
  split
  · exact .bind (.waitIf _ _) fun _ => .upd fun _ hs1 => ((hs1.consume _).phaseAcquire _).updMe _
  · exact .bind release_form fun _ => .ite (.upd fun _ hs1 => ((hs1.arriveAt _).consume _).phaseAcquire _)
      (.of fun _ _ => .keepWait ((hs.arriveAt _).updMe _))

/-! ### Launch graphs -/

theorem State.Form.wordFault {s : State} (h : s.Form) (vd core ctx va cause : Nat) : (wordFault vd core ctx va cause s).Form :=
  (h.updVd _ (by exact fun _ => id)).same

theorem State.Form.sendWord {s : State} (h : s.Form) (n vd core ctx : Nat) (addr v : W64) : (sendWord n vd core ctx addr v s).1.Form := by
  unfold Machine.sendWord
  refine .iteFst h ?_
  dsimp only
  split
  · next _ _ e0 =>
    exact .iteFst (.iteFst ((h.walk _ _ _ _).of_fst e0) ((((h.walk _ _ _ _).of_fst e0).sendPacket _ _ _).same))
      (((h.walk _ _ _ _).of_fst e0).arriveWrite _ _ _ _)
  · next _ _ e0 =>
    exact (h.walk _ _ _ _).of_fst e0
  · next _ e0 =>
    exact (h.walk _ _ _ _).of_fst e0
  · next _ e0 =>
    exact (((h.walk _ _ _ _).of_fst e0).askWindow _ _).same

theorem State.Form.writeSlot {s : State} (h : s.Form) (vd slot : Nat) (image : List Byte) (rank : Nat) :
    (writeSlot vd slot image rank s).Form :=
  h.updRank _ _

theorem State.Form.tryLate {s : State} (h : s.Form) (vd : Nat) (w : LateWord) : (tryLate vd s w).Form := by
  unfold Machine.tryLate
  refine .ite h ?_
  split
  · exact h
  · split
    · exact (h.updVd _ (by exact fun _ => id)).wordFault _ _ _ _ _
    · exact h.updVd _ (by exact fun _ => id)
  · split
    · next _ _ e1 =>
      split
      · exact (((h.sendWord _ _ _ _ _ _).of_fst e1).updVd _ (by exact fun _ => id)).wordFault _ _ _ _ _
      · exact ((h.sendWord _ _ _ _ _ _).of_fst e1).updVd _ (by exact fun _ => id)
    · next _ _ e1 =>
      exact ((h.sendWord _ _ _ _ _ _).of_fst e1).updVd _ (by exact fun _ => id)
    · next _ e1 =>
      exact (h.sendWord _ _ _ _ _ _).of_fst e1
    · next _ _ e1 =>
      exact ((h.sendWord _ _ _ _ _ _).of_fst e1).updVd _ (by exact fun _ => id)

theorem State.Form.flushLate {s : State} (h : s.Form) (vd : Nat) : (flushLate vd s).Form :=
  State.Form.foldl (fun _ _ hs => hs.tryLate _ _) _ h

theorem State.Form.lateWord {s : State} (h : s.Form) (vd : Nat) (who : Option (Nat × Nat)) (after : List Nat) (addr v : W64) :
    (lateWord vd who after addr v s).1.Form :=
  .iteFst h ((h.same.updVd _ (by exact fun _ => id)).flushLate _)

theorem State.Form.nodeWord {s : State} (h : s.Form) (vd : Nat) (after : List Nat) (addr v : W64) : (nodeWord vd after addr v s).1.Form :=
  h.lateWord _ _ _ _ _

theorem readG_form (vd va len : Nat) : G.KeepsForm (readG vd va len) :=
  fun _ hs => hs.vread _ _ _

theorem translates_form (vd va len : Nat) (k : AccessKind) : G.KeepsForm (translates vd va len k) := by
  intro s hs
  unfold Machine.translates
  split
  · next e => exact (hs.walkRange _ _ _ _ _).of_fst e
  · next e => exact (hs.walkRange _ _ _ _ _).of_fst e

theorem wordG_form (vd a : Nat) : G.KeepsForm (wordG vd a) :=
  .ite (.pure _) (.bind (.need _) fun _ => translates_form _ _ _ _)

theorem readGroups_form (vd : Nat) (img : List Byte) (l : List Nat) : G.KeepsForm (readGroups vd img l) := by
  unfold Machine.readGroups
  split
  · exact .pure _
  · exact .bind (.need _) fun _ => .ite (.bind (.pure _) fun _ => .bind (.need _) fun _ => .bind (readGroups_form _ _ _) fun _ => .pure _)
      (.bind (.need _) fun _ => .bind (readG_form _ _ _) fun _ => .bind (.pure _) fun _ => .bind (.need _) fun _ => .bind
      (readGroups_form _ _ _) fun _ => .pure _)

theorem readNode_form (vd n : Nat) (bs : List Byte) (i : Nat) : G.KeepsForm (readNode vd n bs i) := by
  unfold Machine.readNode
  extract_lets _ _ _ _ _ _ rest successors
  have hrest : ∀ l, (rest l).KeepsForm := fun _ => .bind (.need _) fun _ => .bind (wordG_form _ _) fun _ => .pure _
  have hsuccessors : ∀ u, (successors u).KeepsForm := fun _ =>
    .ite (.bind (.pure _) hrest) (.bind (.need _) fun _ => .bind (readG_form _ _ _) fun _ => .bind (.pure _) hrest)
  refine .bind (.need _) fun _ => .ite (.bind (.need _) fun _ => .ite ?_ (hsuccessors ())) (.ite ?_ (.bind (.need _) hsuccessors))
  · exact .bind (.need _) fun _ => .bind (translates_form _ _ _ _) hsuccessors
  · exact .bind (.need _) fun _ => .bind (translates_form _ _ _ _) hsuccessors

theorem readNodes_form (vd n : Nat) (bs : List Byte) (l : List Nat) : G.KeepsForm (readNodes vd n bs l) := by
  unfold Machine.readNodes
  split
  · exact .pure _
  · exact .bind (readNode_form _ _ _ _) fun _ => .bind (readNodes_form _ _ _ _) fun _ => .pure _

theorem G.KeepsForm.get {α : Type} {f : State → G α} (hf : ∀ s, G.KeepsForm (f s)) :
    G.KeepsForm ((StateT.get : StateM State State) >>= f) := fun s h => hf s s h

theorem readGraph_form (vd va : Nat) : G.KeepsForm (readGraph vd va) := by
  unfold Machine.readGraph
  refine .bind (.need _) fun _ => .bind (readG_form _ _ _) fun d => .bind (.need _) fun _ => .bind (wordG_form _ _) fun _ =>
    .bind (wordG_form _ _) fun _ => ?_
  extract_lets nodes
  have hnodes : ∀ raw, (nodes raw).KeepsForm := by
    refine fun raw => .bind (readNodes_form _ _ _ _) fun _ => .bind (.need _) fun _ => .bind (.need _) fun _ => ?_
    extract_lets groups
    have hgroups : ∀ l, (groups l).KeepsForm := fun _ => .get fun _ => .bind (.need _) fun _ => .pure _
    exact .ite (.bind (.pure _) hgroups) (.bind (readG_form _ _ _) fun _ => .bind (readGroups_form _ _ _) hgroups)
  exact .ite (.bind (.pure _) hnodes) (.bind (readG_form _ _ _) hnodes)

theorem State.Form.submit {s : State} (h : s.Form) (vd : Nat) (va q : W64) : (submit vd va q s).1.Form := by
  have hr := readGraph_form vd va.toNat s h
  unfold Machine.submit
  refine .iteFst h (.iteFst h ?_)
  split
  · next e =>
    rw [e] at hr
    exact hr
  · next e =>
    rw [e] at hr
    exact (hr.updQueue _ _ _).updVd _ (by exact fun _ => id)

theorem State.Form.execGlaunch {s : State} (h : s.Form) (st : BitVec 3) (d a b : BitVec 5) : FormAfter (execGlaunch st d a b s) :=
  .issue (.bind (prepare_form _ _ _) fun _ => .get fun _ _ => .bind (.waitIf _ _) fun _ => .of fun _ hs1 => .ite
    (.ok (((hs1.same.consume _).submit _ _ _).deliver _ _ _)) (.keepWait ((hs1.wakeBanks _).askWindow _ _))) h

theorem of_mem_drop {α : Type} {k : Nat} {l : List (Nat × α)} {e : Nat × α} (h : e ∈ drop k l) : e ∈ l :=
  List.mem_of_mem_filter h

theorem Vd.Wf.drop {v : Vd} (hv : v.Wf) (c : Nat) : Vd.Wf { v with saved := Machine.drop c v.saved } :=
  fun e he => hv e (of_mem_drop he)

theorem State.Form.placeCore {s : State} (h : s.Form) (vd : Nat) (ref : NodeRef) (entry arg : W64) (c : Nat) :
    (placeCore vd ref entry arg c s).Form := by
  refine (h.updVd _ (by exact fun _ hx => hx.drop _)).updCore _ fun k hk => ⟨?_, ?_⟩
  · dsimp only
    split
    · exact hk.1
    · rfl
  · dsimp only
    split
    · exact hk.2
    · rfl

theorem State.Form.placeNode {s : State} (h : s.Form) (vd : Nat) (p : Pooled) : (placeNode vd p s).Form := by
  unfold Machine.placeNode
  dsimp only
  split
  · exact .ite h (State.Form.foldl (fun _ _ hs => hs.placeCore _ _ _ _ _) _ (h.updNode _ _ _ _ _))
  · refine .ite h.same ?_
    have hv := h.vread vd p.node.entry.toNat (4 * p.node.len)
    split
    · next e => exact (hv.of_fst e).updNode _ _ _ _ _
    · next e =>
      refine .ite ((hv.of_fst e).updNode _ _ _ _ _) (State.Form.foldl (fun _ _ hs => ?_) _ ((hv.of_fst e).updNode _ _ _ _ _))
      exact .ite (hs.noteEnd _ _) ((hs.writeSlot _ _ _ _).startRank _ _ _ _ _)
  · exact h

theorem State.Form.freeCore {s : State} (h : s.Form) (origin : Nat) : (freeCore origin s).Form :=
  h.same.updCore _ (by exact fun _ => id)

theorem State.Form.launchWords {s : State} (h : s.Form) (vd : Nat) (l : Launch) (status : W64) : (launchWords vd l status s).1.Form :=
  (h.nodeWord _ _ _ _).nodeWord _ _ _ _

theorem State.Form.closeLaunch {s : State} (h : s.Form) (vd q : Nat) (l : Launch) : (closeLaunch vd q l s).Form := by
  unfold Machine.closeLaunch
  refine (State.Form.updQueue ?_ _ _ _).updVd _ (by exact fun _ => id)
  split
  · exact h.interrupt _ _
  · exact h

theorem State.Form.addEnding {s : State} (h : s.Form) (vd : Nat) (e : Ending) : (addEnding vd e s).Form :=
  h.updVd _ (by exact fun _ => id)

theorem State.Form.endLaunch {s : State} (h : s.Form) (vd q : Nat) (l : Launch) (status : W64) : (endLaunch vd q l status s).Form :=
  .ite ((h.launchWords _ _ _).closeLaunch _ _ _) ((h.launchWords _ _ _).addEnding _ _)

theorem State.Form.mergeUpdates {s : State} (h : s.Form) (vd : Nat) : (mergeUpdates vd s).1.Form :=
  State.Form.foldl (fun _ _ hs => hs.evictLine _ _ _) _ h

theorem State.Form.closeNode {s : State} (h : s.Form) (vd q launch index code : Nat) : (closeNode vd q launch index code s).Form := by
  unfold Machine.closeNode
  split
  · exact h
  · extract_lets s1 s2
    have h1 : s1.Form := .foldl (fun _ _ hs => hs.freeCore _) _ h
    have h2 : s2.Form := h1.same.updLaunch _ _ _ _
    split
    · exact h2
    · exact .ite (h2.endLaunch _ _ _ _) h2

theorem State.Form.endNode {s : State} (h : s.Form) (vd q launch index code : Nat) : (endNode vd q launch index code s).Form := by
  unfold Machine.endNode
  split
  · exact h
  · extract_lets m y
    have hy : y.1.Form := (State.Form.iteFst (h.mergeUpdates _) h).nodeWord _ _ _ _
    exact .ite (hy.closeNode _ _ _ _ _) (hy.addEnding _ _)

theorem State.Form.decisions {s : State} (h : s.Form) (vd n : Nat) : (decisions vd n s).Form := by
  unfold Machine.decisions
  split
  · exact h
  · split
    · exact h
    · exact .ite (((h.wakeBanks _).askWindow _ _).updVd _ (by exact fun _ => id))
        ((State.Form.ite ((h.placeNode _ _).endNode _ _ _ _ _) (h.placeNode _ _)).decisions _ _)

theorem State.Form.decide_ {s : State} (h : s.Form) (vd : Nat) : (decide_ vd s).Form :=
  .ite ((h.updVd _ (by exact fun _ => id)).decisions _ _) (h.updVd _ (by exact fun _ => id))

theorem State.Form.settleVd {s : State} (h : s.Form) (vd : Nat) : (settleVd vd s).Form := by
  unfold Machine.settleVd
  extract_lets s1 due s2
  have h2 : s2.Form := by
    refine .foldl (fun s e hs => ?_) _ (h.flushLate _)
    dsimp only
    split
    · exact (hs.updVd _ (by exact fun _ => id)).closeNode _ _ _ _ _
    · exact (hs.updVd _ (by exact fun _ => id)).closeLaunch _ _ _
    · exact hs.updVd _ (by exact fun _ => id)
  exact .ite (h2.decide_ _) h2

theorem State.Form.decideFor {s : State} (h : s.Form) (rank : Nat) (slot : Option Nat) : (decideFor rank s slot).Form :=
  State.Form.foldl (fun _ _ hs => hs.decide_ _) _ h

theorem State.Form.execLaunchStart {s : State} (h : s.Form) (vd q : Nat) : FormAfter (execLaunchStart vd q s) := by
  unfold Machine.execLaunchStart
  split
  · exact .ite (.next h) (.ite (.next (h.endLaunch _ _ _ _)) (.ite (.next (((h.same.updQueue _ _ _).updLaunch _ _ _ _).endLaunch _ _ _ _))
      (.next (((h.same.updQueue _ _ _).updLaunch _ _ _ _).decide_ _))))
  · exact .next h

theorem State.Form.execTerminationSweep {s : State} (h : s.Form) (vd q node : Nat) : FormAfter (execTerminationSweep vd q node s) := by
  unfold Machine.execTerminationSweep
  split
  · exact .next h
  · split
    · exact .next h
    · exact .ite (.next h) (.ite (.next ((h.endNode _ _ _ _ _).decide_ _)) (.next (h.updNode _ _ _ _ _)))

theorem State.Form.execRankNodeEnd {s : State} (h : s.Form) (vd q node : Nat) : FormAfter (execRankNodeEnd vd q node s) := by
  unfold Machine.execRankNodeEnd
  split
  · exact .next h
  · split
    · exact .next h
    · exact .ite (.next h) (.next ((h.endNode _ _ _ _ _).decide_ _))

end Sys2Proof.Machine

end

section
/-! PROOFS. Ends of work, blocks, engines, system calls and ranks keep the form of memory -/

namespace Sys2Proof.Machine

theorem Kept.stopAt {α : Type} {e : Stop} (hk : Kept (α := α) (.error e)) {s : State} (h : s.Form) : (stopAt s e).Form :=
  h.stopAt (by cases e <;> exact hk)

theorem Core.Wf.ite {c : Prop} {_ : Decidable c} {k l : Core} (hk : k.Wf) (hl : l.Wf) : (if c then k else l).Wf := by
  split
  · exact hk
  · exact hl

/-! ### Ends of work and of VDs -/

theorem State.Form.spillRank {s : State} (h : s.Form) (rank : Nat) : (spillRank rank s).Form :=
  .ite h (((State.Form.foldl (fun _ _ hs => hs.poke _ _ _) _ h).updRank _ _).settleBank _)

theorem State.Form.tryNap {s : State} (h : s.Form) (ch : Nat) : (tryNap ch s).Form :=
  .ite ((State.Form.foldl (fun _ _ hs => hs.spillRank _) _ h).same) h

theorem State.Form.leaveBank {s : State} (h : s.Form) (rank : Nat) : (leaveBank rank s).Form :=
  ((h.updRank _ _).settleBank _).tryNap _

theorem State.Form.checkBank {s : State} (h : s.Form) (rank : Nat) : (checkBank rank s).Form :=
  .ite ((h.spillRank _).tryNap _) (.ite h (.ite (h.updRank _ _) ((h.updRank _ _).serveBank _ _ _)))

theorem State.Form.rankWait {s : State} (h : s.Form) (w : RankWait) (rank : Nat) : (rankWait w rank s).Form :=
  .ite (h.updRank _ _) ((h.updRank _ _).leaveBank _)

theorem State.Form.endWait {s : State} (h : s.Form) (rank : Nat) (f : Rank → Rank) : (endWait rank f s).Form :=
  .ite ((h.updRank _ _).checkBank _) (h.updRank _ _)

theorem State.Form.endCourseInstr {s : State} (h : s.Form) (rank code : Nat) : (endCourseInstr rank code s).Form :=
  h.endWait _ _

theorem State.Form.endBegin {s : State} (h : s.Form) (rank code : Nat) (course : Option Nat) : (endBegin rank code course s).Form :=
  h.endWait _ _

theorem State.Form.reportFailure {s : State} (h : s.Form) (id code rank : Nat) (program : Bool) :
    (reportFailure id code rank program s).Form :=
  .ite (.ite (h.endBegin _ _ _) (h.endCourseInstr _ _)) (.ite (h.updRank _ _) h)

theorem State.Form.failCourse {s : State} (h : s.Form) (id code member : Nat) (but : Option Nat) :
    (failCourse id code member but s).Form := by
  unfold Machine.failCourse
  split
  · exact h
  · refine .ite h ?_
    dsimp only
    split
    · exact (State.Form.ite (((h.dropCourse _).applyHeld _).settleRows _) (h.dropCourse _)).finishCmd _ _ _ _
    · exact State.Form.foldl (fun _ _ hs => hs.reportFailure _ _ _ _) _ (.ite (((h.dropCourse _).applyHeld _).settleRows _)
        (h.dropCourse _))

theorem State.Form.abortColl {s : State} (h : s.Form) (vd : Nat) (ranks : List Nat) (code : Nat) (c : RingCmd) :
    (abortColl vd ranks code s c).Form := by
  unfold Machine.abortColl
  split
  · exact h
  · split
    · exact h.finishCmd _ _ _ _
    · exact .ite (.ite (h.updCmd _ _ _) h) (h.failCourse _ _ _ _)

theorem State.Form.abortColls {s : State} (h : s.Form) (ranks : List Nat) (code : Nat) : (abortColls ranks code s).Form :=
  State.Form.foldl (fun _ _ hs => State.Form.foldl (fun _ _ hs1 => hs1.abortColl _ _ _ _) _ hs) _ h

theorem State.Form.unqueued {s : State} (h : s.Form) (rank : Nat) : (State.unqueued s rank).Form :=
  h.same

theorem State.Form.freeRank {s : State} (h : s.Form) (rank : Nat) : (freeRank rank s).Form := by
  unfold Machine.freeRank
  refine State.Form.decideFor ?_ _ _
  split
  · exact ((h.unqueued _).updRank _ _).leaveBank _
  · exact ((((h.unqueued _).updRank _ _).leaveBank _).updRank _ _).startRank _ _ _ _ _

theorem State.Form.endRank {s : State} (h : s.Form) (rank : Nat) (code : Option Nat) (abort : Nat) :
    (endRank rank code abort s).Form := by
  unfold Machine.endRank
  dsimp only
  split
  · refine State.Form.freeRank ?_ _
    split
    · exact State.Form.foldl (fun _ _ hs => hs.failCourse _ _ _ _) _ h
    · exact h
  · refine (State.Form.freeRank ?_ _).noteEnd _ _
    split
    · exact State.Form.foldl (fun _ _ hs => hs.failCourse _ _ _ _) _ h
    · exact h

theorem State.Form.stopRank {s : State} (h : s.Form) (rank : Nat) : (stopRank rank s).Form :=
  .ite h (.ite (h.updRank _ _) (h.endRank _ _ _))

theorem State.Form.stopOthers {s : State} (h : s.Form) (run : RankRun) : (stopOthers run s).Form :=
  State.Form.foldl (fun _ _ hs => .ite (hs.stopRank _) (State.Form.foldl (fun _ _ hs1 => hs1.noteEnd _ _) _ (hs.updRank _ _))) _
    (h.abortColls _ _)

theorem State.Form.rankFault {s : State} (h : s.Form) (rank code : Nat) : (rankFault rank code s).Form := by
  unfold Machine.rankFault
  dsimp only
  split
  · exact ((h.abortColls _ _).endRank _ _ _).stopOthers _
  · exact (h.abortColls _ _).endRank _ _ _

theorem State.Form.loseRank {s : State} (h : s.Form) (rank : Nat) : (loseRank rank s).Form := by
  unfold Machine.loseRank
  extract_lets s1 s2
  have h1 : s1.Form := (h.updRank _ _).abortColls _ _
  have h2 : s2.Form := .foldl (fun _ _ hs => hs.failCourse _ _ _ _) _ h1
  exact .ite h2 (.ite (h2.updRank _ _) (h2.endRank _ _ _))

theorem State.Form.addFl {s : State} (h : s.Form) (c : Course) (fl : List (Nat × Fl)) : (addFl c fl s).Form :=
  State.Form.foldl (fun _ _ hs => hs.updRank _ _) _ h

theorem State.Form.startWrites {s : State} (h : s.Form) (c : Course) : (startWrites c s).Form :=
  .ite h (State.Form.foldl (fun _ _ hs => hs.updRank _ _) _ h)

theorem State.Form.startReads {s : State} (h : s.Form) (c : Course) : (startReads c s).Form :=
  (State.Form.foldl (fun _ _ hs => hs.updRank _ _) _ h).startWrites _

theorem State.Form.trafficRow {s : State} (h : s.Form) (rank id : Nat) : (trafficRow rank id s).Form := by
  unfold Machine.trafficRow
  refine .ite (State.Form.checkBank ?_ _) (State.Form.leaveBank ?_ _)
  · split
    · exact .ite ((h.updRank _ _).startWrites _) (h.updRank _ _)
    · exact h.updRank _ _
  · split
    · exact .ite ((h.updRank _ _).startWrites _) (h.updRank _ _)
    · exact h.updRank _ _

theorem State.Form.nextCourse {s : State} (h : s.Form) (c : Course) : (nextCourse c s).Form :=
  .ite h.same (State.Form.foldl (fun _ _ hs => hs.updRank _ _) _ h.same)

theorem State.Form.openRankCourse {s : State} (h : s.Form) (c : Course) : (openRankCourse c s).Form := by
  unfold Machine.openRankCourse
  dsimp only
  split
  · exact h.failCourse _ _ _ _
  · split
    · exact h.failCourse _ _ _ _
    · refine .ite h (.ite (State.Form.foldl (fun _ _ hs => hs.endBegin _ _ _) _ (h.setCourse _)) ?_)
      split
      · exact ((h.setCourse _).wordRecord _ _ _ _ _ _ _).loseRank _
      · split
        · exact (h.setCourse _).failCourse _ _ _ _
        · exact ((h.setCourse _).addFl _ _).startReads _

theorem State.Form.readyMember {s : State} (h : s.Form) (c : Course) (k : Nat) : (readyMember c k s).Form :=
  .ite h (h.setCourse _)

theorem State.Form.lateStops {s : State} (h : s.Form) (c : Course) : (lateStops c s).Form := by
  unfold Machine.lateStops
  refine State.Form.foldl (fun _ _ hs => ?_) _ h
  split
  · exact hs.endRank _ _ _
  · exact hs

theorem State.Form.afterKeystone {s : State} (h : s.Form) (c : Course) : (afterKeystone c s).Form :=
  .ite (((State.Form.foldl (fun _ _ hs => hs.updRank _ _) _ h).nextCourse _).lateStops _)
    ((State.Form.foldl (fun _ _ hs => hs.endCourseInstr _ _) _ (State.Form.foldl (fun _ _ hs => hs.updRank _ _) _ h)).lateStops _)

/-! ### Queues of the engines -/

theorem State.Form.setGeom {s : State} (h : s.Form) (i : Instr) (a b : BitVec 5) (mask : Nat → Option W64)
    (f : Nat → W64 → Context → Context) : FormAfter (setGeom i a b mask f s) :=
  .issue (.bind (prepare_form _ _ _) fun _ => .upd fun _ hs => (hs.consume _).updMe _) h

theorem State.Form.getGeom {s : State} (h : s.Form) (i : Instr) (a : BitVec 5) (ok : Nat → Bool) (rd : Context → Nat → W64)
    (after : Nat → Context → Context) : FormAfter (getGeom i a ok rd after s) :=
  .issue (.bind (prepare_form _ _ _) fun _ => .upd fun _ hs => ((hs.consume _).updMe _).deliver _ _ _) h

theorem slotFull_form (sl : BitVec 3) (sb : BitVec 1) : M.KeepsForm (slotFull sl sb) :=
  .of fun _ hs => .ite trivial (.ok hs)

theorem State.Form.takeSlot {s : State} (h : s.Form) (id : Nat) (sl : BitVec 3) (sb : BitVec 1) : (takeSlot id sl sb s).Form :=
  .ite (h.updMe _) h

theorem State.Form.releaseSlot {s : State} (h : s.Form) (c x id : Nat) (slot : Option Nat) : (releaseSlot c x id slot s).Form := by
  unfold Machine.releaseSlot
  split
  · exact h
  · exact h.updCtx _ _ _

theorem State.Form.execCpy {s : State} (h : s.Form) (a b : BitVec 5) (w : BitVec 8) (sl : BitVec 3) (sb : BitVec 1) :
    FormAfter (execCpy a b w sl sb s) :=
  .issue (.bind (slotFull_form _ _) fun _ => .get fun _ _ => .bind (.waitIf _ _) fun _ => .bind (prepare_form _ _ _) fun _ =>
    .upd fun _ hs1 => ((((hs1.consume _).updHere (by exact fun _ => id)).takeSlot _ _ _).same).useWords _ _) h

theorem State.Form.mxOp {s : State} (h : s.Form) (i : Instr) (srcs : List Opnd) (w : BitVec 8) (sl : BitVec 3) (sb : BitVec 1)
    (mode : Context → W64 → Nat) : FormAfter (mxOp i srcs w sl sb mode s) :=
  .issue (.bind (slotFull_form _ _) fun _ => .get fun _ _ => .bind (.waitIf _ _) fun _ => .bind (prepare_form _ _ _) fun _ =>
    .upd fun _ hs1 => (((((hs1.consume _).updHere (by exact fun _ => id)).takeSlot _ _ _).updMe _).same).useWords _ _) h

theorem State.Form.execMwait {s : State} (h : s.Form) (a : BitVec 5) : FormAfter (execMwait a s) :=
  .issue (.bind (prepare_form _ _ _) fun _ => .get fun _ _ => .bind (.waitIf _ _) fun _ => .upd fun _ hs1 =>
    ((hs1.consume _).updMe _).deliver _ _ _) h

theorem State.Form.translateAll {s : State} (h : s.Form) (die vd : Nat) (k : AccessKind) (l : List Nat) :
    (translateAll die vd k l s).1.Form := by
  induction l generalizing s with
  | nil => exact h
  | cons p r ih =>
    unfold Machine.translateAll
    split
    · next e =>
      have ht := ih ((h.walk _ _ _ _).of_fst e)
      split
      · next e1 => exact ht.of_fst e1
      · exact ht
    · next e => exact (h.walk _ _ _ _).of_fst e
    · next e => exact (((h.walk _ _ _ _).of_fst e).askWindow _ _).same
    · next e => exact (h.walk _ _ _ _).of_fst e

theorem State.Form.askLines {s : State} (h : s.Form) (pages : List (Nat × Nat)) (pas : List Nat) : (askLines pages pas s).1.Form := by
  unfold Machine.askLines
  refine State.Form.foldlFst (fun _ _ hs => ?_) _ h
  exact (hs.sendRequest _ _ _ _ _ _ _ _ _ _).same

theorem State.Form.arriveLines {s : State} (h : s.Form) (lines : List (Nat × Nat × Option (BitVec 512))) (pas : List Nat) :
    (arriveLines lines pas s).1.Form := by
  refine (State.Form.foldlFst (fun p _ hs => ?_) _ (h.wakeBanks _)).recall _
  split
  · exact hs
  · exact (hs.post _ _ _ _ _ _).same

theorem State.Form.engineWrite {s : State} (h : s.Form) (pages : List (Nat × Nat)) (bs : List (Nat × Byte)) :
    (engineWrite pages bs s).1.Form := by
  refine State.Form.foldlFst (fun _ _ hs => (hs.sendRequest _ _ _ _ _ _ _ _ _ _).same) _
    (State.Form.foldl (fun _ _ hs => ?_) _ (h.same.arriveWrite _ _ _ _))
  split
  · exact hs.mgmtStore _ _
  · exact hs

theorem State.Form.engineMchk {r : State × W64} (h : r.1.Form) : (engineMchk r).Form :=
  h.updMe _

theorem State.Form.engineBad {s : State} (h : s.Form) (addr source : Nat) : (engineBad s addr source).Form :=
  State.Form.engineMchk (h.errorRecord _ _ _ _ _ _ _ _)

theorem State.Form.engineFailed {s : State} (h : s.Form) (ps : List Place) : (engineFailed s ps).Form :=
  State.Form.engineMchk (h.wordRecord _ _ _ _ _ _ _)

/-! ### Special registers and waits for a line -/

theorem State.Form.execGets {s : State} (h : s.Form) (st : BitVec 3) (d a : BitVec 5) : FormAfter (execGets st d a s) :=
  .issue (.get fun _ _ => .bind (.waitIf _ _) fun _ => .bind (prepare_form _ _ _) fun _ => .upd fun _ hs1 => hs1.deliver _ _ _) h

theorem State.Form.putSreg {s : State} (h : s.Form) (n : Nat) (v : W64) : (putSreg n v s).Form := by
  unfold Machine.putSreg
  split
  · exact h.updMe _
  · exact h.updMe _
  · exact h.updHere (by exact fun _ => id)
  · exact h.updHere (by exact fun _ => id)
  · exact h.updMe _
  · exact h.updMe _
  · exact h.updMe _
  · exact h.updMe _
  · exact h.updMe _
  · exact h.updMe _
  · exact h.updMe _
  · exact h.updMe _
  · exact h.updMe _
  · exact h.updHere (by exact fun _ => id)
  · exact h

theorem State.Form.execPuts {s : State} (h : s.Form) (st : BitVec 3) (a b : BitVec 5) : FormAfter (execPuts st a b s) :=
  .issue (.get fun _ _ => .bind (.waitIf _ _) fun _ => .bind (prepare_form _ _ _) fun _ => .upd fun _ hs1 => (hs1.consume _).putSreg _ _)
    h

theorem State.Form.staleFetches {s : State} (h : s.Form) (p : RemoteReq → Bool) : (staleFetches p s).Form :=
  h.same

theorem State.Form.execWaita {s : State} (h : s.Form) (st : BitVec 3) (d a b : BitVec 5) : FormAfter (execWaita st d a b s) := by
  unfold Machine.execWaita
  refine .issue (.bind (prepare_form _ _ _) fun _ => .get fun _ hs => .bind (loadGlobal_form _ _ _) fun _ => ?_) h
  dsimp only
  split
  · exact .get fun _ hs1 => .ite (.bind (.of fun _ _ => .keepWait (hs1.updMe _)) fun _ => .upd fun _ hs2 =>
      ((hs2.consume _).acquire _).deliverLoaded _ _ _) (.upd fun _ hs2 => ((hs2.consume _).acquire _).deliverLoaded _ _ _)
  · exact .upd fun _ hs1 => ((hs1.consume _).acquire _).deliverLoaded _ _ _

theorem State.Form.flagStore {s : State} (h : s.Form) (t : Target) (va : Nat) (v : W64) : (flagStore t va v s).Form := by
  unfold Machine.flagStore
  dsimp only
  split
  · exact h.storeTarget _ _ _
  · exact h.park _ _ _ _ _ _

theorem State.Form.execFflag {s : State} (h : s.Form) (st : BitVec 3) (a b : BitVec 5) : FormAfter (execFflag st a b s) := by
  unfold Machine.execFflag
  split
  · exact .issue (.bind (prepare_form _ _ _) fun _ => .upd fun _ hs => (hs.consume _).updMe _) h
  · exact .issue (.bind (prepare_form _ _ _) fun _ => .get fun _ _ => .bind (reach_form _ _ _ _ _) fun _ =>
      .bind (checkWatch_form _ _ _ _) fun _ => .upd fun _ hs1 => (hs1.consume _).flagStore _ _ _) h

theorem State.Form.execSleepr {s : State} (h : s.Form) (st : BitVec 3) (d : BitVec 5) : FormAfter (execSleepr st d s) := by
  unfold Machine.execSleepr
  refine .issue (.bind (prepare_form _ _ _) fun _ => .get fun _ hs => ?_) h
  split
  · exact .upd fun _ hs1 => (hs1.updMe _).deliver _ _ _
  · exact .of fun _ _ => trivial
  · exact .of fun _ _ => .keepWait (hs.updMe _)

theorem State.Form.invalidate {s : State} (h : s.Form) (page ctl : W64) : (invalidate page ctl s).Form :=
  ((State.Form.foldl (fun _ _ hs => hs.evictLine _ _ _) _ h.same).mapCores (by exact fun _ hk => .ite hk hk)).staleFetches _

theorem State.Form.execTinv {s : State} (h : s.Form) (st : BitVec 3) (a b : BitVec 5) : FormAfter (execTinv st a b s) :=
  .issue (.bind (prepare_form _ _ _) fun _ => .get fun _ _ => .bind (.waitIf _ _) fun _ => .upd fun _ hs1 =>
    ((hs1.consume _).invalidate _ _).updMe _) h

/-! ### Events that reach a core -/

theorem State.Form.execInstructionFetchReturn {s : State} (h : s.Form) (core ctx : Nat) :
    FormAfter (execInstructionFetchReturn core ctx s) := by
  unfold Machine.execInstructionFetchReturn
  refine .ite (.next h) (.next (h.asContext _ _ (fun _ hs => ?_)))
  split
  · next e => exact nextWord_form.of_ok hs e
  · next e => exact (nextWord_form.of_error (β := Unit) hs e).stopAt hs

theorem State.Form.execPbindAcknowledgement {s : State} (h : s.Form) (core ctx : Nat) :
    FormAfter (execPbindAcknowledgement core ctx s) := by
  unfold Machine.execPbindAcknowledgement
  split
  · exact .next h
  · dsimp only
    split
    · exact .next ((h.updCtx _ _ _).bindBack _ _)
    · exact .next (h.updCtx _ _ _)

theorem State.Form.execSfuRequestComplete {s : State} (h : s.Form) (core : Nat) : FormAfter (execSfuRequestComplete core s) := by
  unfold Machine.execSfuRequestComplete
  split
  · exact .next h
  · exact .next (.ite (h.updCore _ (by exact fun _ => id)) ((h.updCore _ (by exact fun _ => id)).asContext _ _
      (fun _ hs => hs.deliverTag _ _)))

theorem State.Form.divert {s : State} (h : s.Form) (vd : Nat) (m : PortMsg) : (divert vd m s).Form :=
  (h.devWrite _ _).updVd _ (by exact fun _ => id)

theorem State.Form.countSaved {s : State} (h : s.Form) (vd origin : Nat) : (countSaved vd origin s).Form := by
  unfold Machine.countSaved
  split
  · exact h
  · next k hk =>
    exact (h.updVd _ (by exact fun _ hx => hx.put (by exact h.vd _ _ (mem_of_lookup hk)) _)).patchImage _ _ _ _

theorem State.Form.execPortWordArrival {s : State} (h : s.Form) (n : Nat) : FormAfter (execPortWordArrival n s) := by
  unfold Machine.execPortWordArrival
  split
  · exact .next h
  · refine .ite (.next h) (.ite (.ite (.next h) (.next ?_)) ?_)
    · split
      · exact (h.same.divert _ _).countSaved _ _
      · exact h.same.divert _ _
    · refine .ite (.next (h.same.updCore _ ?_)) (.ite (.next h) (.next ((h.same.updCore _ ?_).updCore _ fun _ hk => hk.setPort _ _ _)))
      · exact fun _ hk => .ite hk hk
      · exact fun _ hk => .ite hk hk

theorem State.Form.answerHolds {s : State} (h : s.Form) (vd : Nat) (page : Nat → Bool) (ok : Bool) : (answerHolds vd page ok s).Form := by
  refine ((h.updVd _ (by exact fun _ => id)).mapCores fun e hk => ?_).flushLate _
  dsimp only
  split
  · exact hk
  · exact hk

theorem State.Form.leafAt {s : State} (h : s.Form) (vd page : Nat) : (leafAt vd page s).1.Form := by
  unfold Machine.leafAt
  split
  · next _ e0 =>
    exact (h.walkLevels _ _ _).of_fst e0
  · next _ _ _ _ e0 =>
    exact (h.walkLevels _ _ _).of_fst e0

theorem State.Form.execTinvComplete {s : State} (h : s.Form) (core ctx : Nat) : FormAfter (execTinvComplete core ctx s) := by
  unfold Machine.execTinvComplete
  split
  · exact .next h
  · refine .ite (.next h) (.next (h.whenServed
      (fun _ hs => (State.Form.foldlFst (fun _ _ hs1 => ?_) _ (hs.updCtx _ _ _)).answerHolds _ _ _)))
    exact hs1.leafAt _ _

theorem State.Form.rewriteLeaf {s : State} (h : s.Form) (vd va a e : Nat) (big : Bool) : (rewriteLeaf vd va a e big s).Form :=
  ((h.devWrite _ _).same).invalidate _ _

theorem State.Form.dupRevocation {s : State} (h : s.Form) (vd va : Nat) : (dupRevocation vd va s).Form := by
  unfold Machine.dupRevocation
  dsimp only
  split
  · next _ e0 =>
    exact (h.walkLevels _ _ _).of_fst e0
  · next _ _ _ _ e0 =>
    split
    · exact .ite (((((h.walkLevels _ _ _).of_fst e0).updVd _ (by exact fun _ => id)).same).answerHolds _ _ _)
        ((State.Form.ite (((((h.walkLevels _ _ _).of_fst e0).updVd _ (by exact fun _ => id)).same).rewriteLeaf _ _ _ _ _)
        ((((h.walkLevels _ _ _).of_fst e0).updVd _ (by exact fun _ => id)).same)).answerHolds _ _ _)
    · exact .ite ((h.walkLevels _ _ _).of_fst e0) (.ite ((((h.walkLevels _ _ _).of_fst e0).same).answerHolds _ _ _)
        (.ite (((h.walkLevels _ _ _).of_fst e0).updVd _ (by exact fun _ => id))
        ((((h.walkLevels _ _ _).of_fst e0).updVd _ (by exact fun _ => id)).rewriteLeaf _ _ _ _ _)))

theorem State.Form.execFaultRingEntry {s : State} (h : s.Form) (vd : Nat) : FormAfter (execFaultRingEntry vd s) := by
  unfold Machine.execFaultRingEntry
  dsimp only
  split
  · exact .next h
  · exact .ite (.next h) (.next (((h.ringEntry _ _).updVd _ (by exact fun _ => id)).interrupt _ _))

theorem State.Form.writeReply {s : State} (h : s.Form) (c x : Nat) (v : W64) : (writeReply c x v s).Form := by
  unfold Machine.writeReply
  dsimp only
  split
  · exact .ite (h.updCtx _ _ _) ((h.updCtx _ _ _).asContext _ _ (fun _ hs => hs.takeTrap _ _ _))
  · exact h.updCtx _ _ _

theorem State.Form.flushNotices {s : State} (h : s.Form) (core n : Nat) : (flushNotices core n s).Form := by
  unfold Machine.flushNotices
  split
  · exact h
  · split
    · exact h
    · exact .ite ((h.updCore _ (by exact fun _ => id)).flushNotices _ _)
        (.ite (((h.updCore _ (by exact fun _ => id)).updCore _ (by exact fun _ => id)).flushNotices _ _) h)

theorem State.Form.notice {s : State} (h : s.Form) (core : Nat) (v : W64) : (notice core v s).Form :=
  (h.updCore _ (by exact fun _ => id)).flushNotices _ _

/-- A state with some of the cores of another. -/
theorem State.Form.of_cores {s t : State} (h : s.Form) (hc : ∀ e ∈ t.cores, e ∈ s.cores) (hv : t.vds = s.vds) (hm : t.mem = s.mem) :
    t.Form :=
  ⟨⟨hm ▸ h.1.1, fun e he => h.1.2 e (hc e he)⟩, hv ▸ h.2⟩

theorem State.Form.onOrigin {s : State} (h : s.Form) (vd origin : Nat) {f : Nat → State → State}
    (hf : ∀ c s, s.Form → (f c s).Form) : (onOrigin vd origin f s).Form := by
  unfold Machine.onOrigin
  split
  · next k hk =>
    have h1 := hf parkedCore _ (h.setCore parkedCore (h.vd _ _ (mem_of_lookup hk)))
    have h2 := h1.updVd vd fun _ hx => hx.put (h1.core parkedCore) origin
    refine .ite ?_ (.patchImage ?_ _ _ _ _)
    · exact .foldl (fun _ _ hs => .ite hs (hs.patchImage _ _ _ _)) _ (h2.of_cores (fun _ => of_mem_drop) rfl rfl)
    · exact .foldl (fun _ _ hs => .ite hs (hs.patchImage _ _ _ _)) _ (h2.of_cores (fun _ => of_mem_drop) rfl rfl)
  · exact hf _ _ h

theorem State.Form.execPagerAnswer {s : State} (h : s.Form) (vd n : Nat) : FormAfter (execPagerAnswer vd n s) := by
  unfold Machine.execPagerAnswer
  dsimp only
  split
  · exact .next h
  · refine .next (h.whenServed (fun _ hs => ?_))
    have hr := hs.devRead
    split
    · next e => exact (hr _ _).of_fst e
    · next e =>
      have ht := (hr _ _).of_fst e
      exact .ite ht (.ite (ht.updVd _ (by exact fun _ => id)) (.ite ((ht.updVd _ (by exact fun _ => id)).onOrigin _ _ fun _ _ hs =>
        hs.notice _ _)
        ((ht.updVd _ (by exact fun _ => id)).onOrigin _ _ fun _ _ hs => hs.writeReply _ _ _)))

theorem State.Form.deliverUpcall {s : State} (h : s.Form) (core : Nat) : (deliverUpcall core s).Form := by
  unfold Machine.deliverUpcall
  split
  · exact h
  · exact h.asContext _ _ (fun _ hs => (((((hs.withdrawAll _ _).spmWrite _ _ _).writeReg _ _ _).writeReg _ _ _).updHere
      (by exact fun _ => id)).updMe _)

/-! ### Ranks and their instructions -/

theorem State.Form.rankIssue {s : State} (h : s.Form) {f : State → Except RankStop State} (hf : ∀ s, s.Form → RankKept (f s)) :
    FormAfter (rankIssue f s) := by
  unfold Machine.rankIssue
  have hr := hf s h
  split
  · next e =>
    rw [e] at hr
    exact .next hr
  · exact .next (h.rankFault _ _)
  · exact .next (h.rankWait _ _)
  · next e =>
    rw [e] at hr
    exact .next (hr.rankWait _ _)
  · exact .next ((h.wordRecord _ _ _ _ _ _ _).loseRank _)

theorem State.Form.rankDone {s : State} (h : s.Form) (cost upc : Nat) (boundary : Bool) (f : Rank → Rank) :
    (rankDone cost upc boundary f s).Form :=
  .ite ((h.updRank _ _).checkBank _) (h.updRank _ _)

theorem State.Form.rankStep {s : State} (h : s.Form) (cost : Nat) (f : Rank → Rank) : FormAfter (rankStep cost f s) :=
  h.rankIssue (fun _ hs => .ok (hs.rankDone _ _ _ _))

theorem State.Form.scalarOp {s : State} (h : s.Form) (x y z : BitVec 4) (f : Word → Word → Word) : FormAfter (scalarOp x y z f s) :=
  h.rankStep _ _

theorem State.Form.branch {s : State} (h : s.Form) (taken : Rank → Bool) (i : BitVec 14) (f : Rank → Rank) :
    FormAfter (branch taken i f s) :=
  h.rankIssue (fun _ hs => .ite (.ite trivial (.ok (hs.rankDone _ _ _ _))) (.ok (hs.rankDone _ _ _ _)))

theorem State.Form.accessDone {s : State} (h : s.Form) (y : BitVec 4) (write : Bool) (f : Rank → Rank) : (accessDone y write f s).Form :=
  h.rankDone _ _ _ _

theorem State.Form.execVst {s : State} (h : s.Form) (x y : BitVec 4) : FormAfter (execVst x y s) := by
  unfold Machine.execVst
  refine h.rankIssue (fun _ hs => ?_)
  dsimp only
  split
  · exact trivial
  · refine .ite trivial (.ok (State.Form.accessDone ?_ _ _ _))
    split
    · exact hs
    · exact hs.setCourse _

theorem State.Form.laneOp {s : State} (h : s.Form) (x y z : BitVec 4) (r : BitVec 3) (t : BitVec 1) (ff : Rnd → Nat → Nat → Nat × Fl)
    (fi : Word → Word → Word) : FormAfter (laneOp x y z r t ff fi s) :=
  h.rankStep _ _

theorem State.Form.joinCourse {s : State} (h : s.Form) (p : CoursePart) (members : List Nat) (group : Nat) (solo : Bool) :
    (joinCourse p members group solo s).1.Form := by
  unfold Machine.joinCourse
  dsimp only
  split
  · exact h.setCourse _
  · exact h.same

theorem State.Form.execCbegin {s : State} (h : s.Form) (x y : BitVec 4) (u : BitVec 1) (g : BitVec 8) :
    FormAfter (execCbegin x y u g s) := by
  unfold Machine.execCbegin
  refine h.rankIssue (fun _ hs => .ite trivial (.ite (.keep ((hs.updRank _ _).joinCourse _ _ _ _)) ?_))
  split
  · exact .ok ((hs.updRank _ _).endBegin _ _ _)
  · split
    · exact .ok ((hs.updRank _ _).endBegin _ _ _)
    · exact .keep ((hs.updRank _ _).joinCourse _ _ _ _)

theorem State.Form.execCend {s : State} (h : s.Form) (x : BitVec 4) : FormAfter (execCend x s) := by
  unfold Machine.execCend
  refine h.rankIssue (fun _ hs => ?_)
  dsimp only
  split
  · exact trivial
  · exact .ok ((hs.updRank _ _).endCourseInstr _ _)
  · exact .keep (hs.updRank _ _)

theorem State.Form.builtIn {s : State} (h : s.Form) (op : CourseOp) (x : BitVec 4) (d c : BitVec 2) (z : BitVec 4) (redop f : BitVec 3)
    (g : BitVec 8) : FormAfter (builtIn op x d c z redop f g s) := by
  unfold Machine.builtIn
  refine h.rankIssue (fun _ hs => .ite trivial (.ite (.ok ((hs.updRank _ _).endCourseInstr _ _)) ?_))
  split
  · exact .ok ((hs.updRank _ _).endCourseInstr _ _)
  · split
    · exact .ok ((hs.updRank _ _).endCourseInstr _ _)
    · exact .ite (.ok ((hs.updRank _ _).endCourseInstr _ _)) (.keep ((hs.updRank _ _).joinCourse _ _ _ _))

theorem State.Form.updTrackerOf {s : State} (h : s.Form) (vd q g : Nat) (f : Tracker → Tracker) : (updTrackerOf vd q g f s).Form :=
  h.updVd _ (by exact fun _ => id)

theorem State.Form.execCbar {s : State} (h : s.Form) (x : BitVec 4) (g : BitVec 8) : FormAfter (execCbar x g s) := by
  unfold Machine.execCbar
  refine .ite (h.builtIn _ _ _ _ _ _ _ _) (h.rankIssue (fun _ hs => .ite trivial ?_))
  split
  · exact .ok ((hs.updRank _ _).endCourseInstr _ _)
  · dsimp only
    split
    · exact .ite (.ok ((hs.updRank _ _).endCourseInstr _ _)) trivial
    · exact .ite (.ok (((hs.updRank _ _).updTrackerOf _ _ _ _).endCourseInstr _ _)) (.keep ((hs.updRank _ _).updTrackerOf _ _ _ _))

theorem State.Form.queueRank {s : State} (h : s.Form) (rank : Nat) (d : PortDest) : (State.queueRank s rank d).Form :=
  .ite h h.same

theorem State.Form.execMsgo {s : State} (h : s.Form) (y : BitVec 4) : FormAfter (execMsgo y s) := by
  unfold Machine.execMsgo
  refine h.rankIssue (fun _ hs => ?_)
  dsimp only
  split
  · exact .ok ((hs.unqueued _).rankDone _ _ _ _)
  · exact .ite (.ok ((hs.unqueued _).rankDone _ _ _ _)) (.ite (.keep (hs.queueRank _ _)) (.ok ((hs.same.unqueued _).rankDone _ _ _ _)))

theorem State.Form.execMsgi {s : State} (h : s.Form) (x : BitVec 4) : FormAfter (execMsgi x s) := by
  unfold Machine.execMsgi
  refine h.rankIssue (fun _ hs => ?_)
  split
  · exact trivial
  · exact .ok (hs.rankDone _ _ _ _)

end Sys2Proof.Machine

end

section
/-! PROOFS. Rings, collectives and the events of courses keep the form of memory -/

namespace Sys2Proof.Machine

/-! ### Command rings -/

theorem blockRead_form (va len : Nat) : M.KeepsForm (blockRead va len) := by
  unfold Machine.blockRead
  refine .bind (reach_form _ _ _ _ _) fun _ => .of fun _ hs => ?_
  split
  · next _ _ e0 =>
    exact .ite (.keepWait (((hs.walkRange _ _ _ _ _).of_fst e0).askWindow _ _))
      (.ite (.keepTrap ((((hs.walkRange _ _ _ _ _).of_fst e0).recall _).consumeBad _ _))
      (.ok ((((hs.walkRange _ _ _ _ _).of_fst e0).recall _).same)))
  · exact trivial

theorem wordReady_form (a : W64) : M.KeepsForm (wordReady a) :=
  .ite (.pure _) (.ite (.of fun _ _ => trivial) (.bind (reach_form _ _ _ _ _) fun _ => .pure _))

theorem State.Form.postCmd {s : State} (h : s.Form) (op : RingOp) (block : List Byte) (handle : BitVec 32) (w : BitVec 8)
    (slot : Option Nat) (named : Bool) : (postCmd op block handle w slot named s).Form :=
  (State.Form.ite (((h.devWrite _ _).updVd _ (by exact fun _ => id)).updMe _) ((h.devWrite _ _).updVd _ (by exact fun _ => id))).same

theorem State.Form.ringOp {s : State} (h : s.Form) (i : Instr) (a b : BitVec 5) (w : BitVec 8) (sl : BitVec 3) (sb : BitVec 1)
    (op : RingOp) (len stat done : Nat) {more : List Byte → M (List Byte)}
    (hmore : ∀ bs, M.KeepsForm (more bs)) : FormAfter (ringOp i a b w sl sb op len stat done more s) :=
  .issue (.bind (slotFull_form _ _) fun _ => .get fun _ _ => .bind (.waitIf _ _) fun _ => .bind (prepare_form _ _ _) fun _ =>
    .get fun _ _ => .bind (blockRead_form _ _) fun _ => .bind (wordReady_form _) fun _ => .bind (wordReady_form _) fun _ => .bind
    (hmore _) fun _ => .upd fun _ hs2 => ((hs2.consume _).postCmd _ _ _ _ _ _).takeSlot _ _ _) h

theorem State.Form.imageRead {s : State} (h : s.Form) (vd : Nat) (bs : List Byte) : (imageRead vd bs s).1.Form := by
  unfold Machine.imageRead
  refine .iteFst h ?_
  split
  · next _ _ e0 =>
    exact (h.vread _ _ _).of_fst e0
  · next _ e0 =>
    exact (h.vread _ _ _).of_fst e0

theorem State.Form.execRkovl {s : State} (h : s.Form) (a b : BitVec 5) (w : BitVec 8) (sl : BitVec 3) (sb : BitVec 1) :
    FormAfter (execRkovl a b w sl sb s) :=
  h.ringOp _ _ _ _ _ _ _ _ _ _ fun _ => .of fun _ hs =>
    .ite (.ok (hs.imageRead _ _)) (.keepWait (State.Form.askWindow (hs.imageRead _ _).same _ _))

theorem State.Form.groupOp {s : State} (h : s.Form) (i : Instr) (srcs : List Opnd) (w : BitVec 8) (op : RingOp) :
    FormAfter (groupOp i srcs w op s) :=
  .issue (.get fun _ _ => .bind (.waitIf _ _) fun _ => .bind (prepare_form _ _ _) fun _ => .upd fun _ hs1 =>
    (hs1.consume _).postCmd _ _ _ _ _ _) h

theorem State.Form.updIssuer {s : State} (h : s.Form) (vd origin ctx : Nat) (f : Context → Context) :
    (updIssuer vd origin ctx f s).Form := by
  unfold Machine.updIssuer
  split
  · next k hk =>
    exact (h.updVd _ (by exact fun _ hx => hx.put (by exact h.vd _ _ (mem_of_lookup hk)) _)).patchImage _ _ _ _
  · exact h.updCtx _ _ _

theorem State.Form.closeCmd {s : State} (h : s.Form) (vd : Nat) (c : RingCmd) (status : W64) : (closeCmd vd c status s).Form :=
  (h.updIssuer _ _ _ _).updVd _ (by exact fun _ => id)

theorem State.Form.reportWords {s : State} (h : s.Form) (vd n : Nat) (status : W64) (m : Nat) : (reportWords vd n status m s).Form := by
  unfold Machine.reportWords
  split
  · exact h
  · split
    · exact h
    · refine .ite h (.ite (h.closeCmd _ _ _) ?_)
      split
      · exact h
      · exact ((h.wordFault _ _ _ _ _).updCmd _ _ _).reportWords _ _ _ _
      · split
        · next _ e2 =>
          exact (((h.same.sendWord _ _ _ _ _ _).of_fst e2).updCmd _ _ _).reportWords _ _ _ _
        · next _ e2 =>
          exact (((h.same.sendWord _ _ _ _ _ _).of_fst e2).updCmd _ _ _).reportWords _ _ _ _
        · next _ e2 =>
          exact (h.same.sendWord _ _ _ _ _ _).of_fst e2
        · next _ _ e2 =>
          exact ((h.same.sendWord _ _ _ _ _ _).of_fst e2).updCmd _ _ _
        · next _ _ e2 =>
          exact ((((h.same.sendWord _ _ _ _ _ _).of_fst e2).wordFault _ _ _ _ _).updCmd _ _ _).reportWords _ _ _ _

theorem State.Form.reportCmd {s : State} (h : s.Form) (vd : Nat) (c : RingCmd) (status : W64) : (reportCmd vd c status s).Form :=
  h.reportWords _ _ _ _

theorem State.Form.dropCmd {s : State} (h : s.Form) (vd n : Nat) : (dropCmd vd n s).Form :=
  h.updVd _ (by exact fun _ => id)

theorem State.Form.startRkovl {s : State} (h : s.Form) (vd : Nat) (c : RingCmd) : (startRkovl vd c s).Form := by
  unfold Machine.startRkovl
  dsimp only
  split
  · exact h.finishCmd _ _ _ _
  · refine .ite (h.finishCmd _ _ _ _) ?_
    split
    · exact h.finishCmd _ _ _ _
    · split
      · exact h.finishCmd _ _ _ _
      · exact .ite (h.finishCmd _ _ _ _) (State.Form.foldl (fun _ _ hs => hs.updRank _ _) _ (h.updCmd _ _ _))

theorem State.Form.completeRkovl {s : State} (h : s.Form) (vd : Nat) (c : RingCmd) : (completeRkovl vd c s).Form := by
  unfold Machine.completeRkovl
  split
  · exact h
  · exact h.reportCmd _ _ _
  · exact ((State.Form.foldl (fun _ _ hs => (hs.writeSlot _ _ _ _).updRank _ _) _ h).finishCmd _ _ _ _).reportCmd _ _ _

theorem State.Form.startRkrun {s : State} (h : s.Form) (vd : Nat) (c : RingCmd) : (startRkrun vd c s).Form := by
  unfold Machine.startRkrun
  dsimp only
  split
  · exact h.finishCmd _ _ _ _
  · split
    · exact h.finishCmd _ _ _ _
    · exact State.Form.foldl (fun _ _ hs => .ite (hs.noteEnd _ _) (hs.beginRank _ _ _ _ _)) _ (h.updCmd _ _ _)

theorem State.Form.completeRkrun {s : State} (h : s.Form) (vd : Nat) (c : RingCmd) : (completeRkrun vd c s).Form := by
  unfold Machine.completeRkrun
  split
  · exact h
  · exact h.reportCmd _ _ _
  · exact .ite h ((h.finishCmd _ _ _ _).reportCmd _ _ _)

theorem State.Form.pushSig {s : State} (h : s.Form) (vd n : Nat) : (pushSig vd n s).Form := by
  unfold Machine.pushSig
  split
  · exact h
  · extract_lets rs w s1
    have h1 : s1.Form := by
      refine .foldl (fun s r hs => ?_) _ h
      have hdone (f : Rank → Rank) (g : RingCmd → RingCmd) : (Machine.updCmd vd n g (s.updRank r f)).Form := (hs.updRank _ _).updCmd _ _ _
      exact .ite hs (.ite (hdone _ _) (.ite (hdone _ _) hs))
    split
    · exact .ite (h1.dropCmd _ _) h1
    · exact h1

theorem State.Form.runRkstop {s : State} (h : s.Form) (vd : Nat) (c : RingCmd) : (runRkstop vd c s).Form :=
  State.Form.foldl (fun _ _ hs => hs.stopRank _) _ ((h.dropCmd _ _).abortColls _ _)

theorem State.Form.abortCmd {s : State} (h : s.Form) (vd n : Nat) : (abortCmd vd n s).Form := by
  unfold Machine.abortCmd
  split
  · exact h
  · split
    · exact h
    · exact (h.finishCmd _ _ _ _).updCmd _ _ _
    · split
      · exact .ite (h.updCmd _ _ _) (h.failCourse _ _ _ _)
      · exact h.finishCmd _ _ _ _
    · exact (h.updCmd _ _ _).stopOthers _
    · exact h

theorem State.Form.execCabort {s : State} (h : s.Form) (a : BitVec 5) : FormAfter (execCabort a s) := by
  unfold Machine.execCabort
  refine .issue (.bind (prepare_form _ _ _) fun _ => .upd fun _ hs => ?_) h
  dsimp only
  split
  · exact .ite (hs.consume _) ((hs.consume _).abortCmd _ _)
  · exact hs.consume _

/-! ### Collectives -/

theorem State.Form.pageWalk {s : State} (h : s.Form) (vd va : Nat) (k : AccessKind) (x : Option Hold) :
    (pageWalk vd va k x s).1.Form := by
  unfold Machine.pageWalk
  have hw := h.walk deviceDie vd va k
  split
  · next e =>
    split
    · exact .iteFst (hw.of_fst e) (hw.of_fst e)
    · exact hw.of_fst e
  · exact hw

theorem State.Form.bufAt {s : State} (h : s.Form) (vd ptr : Nat) (loc : List (Nat × Nat)) (size : Nat → Nat) (k : AccessKind)
    (x : Option Hold) : (bufAt vd ptr loc size k x s).1.Form := by
  unfold Machine.bufAt
  have hw := h.pageWalk vd (ptr % 2 ^ 55) k x
  dsimp only
  split
  · next e =>
    have h1 := hw.of_fst e
    split
    · exact h1
    · refine .iteFst h1 ?_
      split
      · exact h1
      · refine State.Form.foldlFst (fun _ _ hs => State.Form.foldlFst (fun _ _ hs1 => .iteFst hs1 ?_) _ hs) _ h1
        split
        · next e => exact (hs1.pageWalk _ _ _ _).of_fst e
        · next e => exact (hs1.pageWalk _ _ _ _).of_fst e
        · next e => exact (hs1.pageWalk _ _ _ _).of_fst e
  · next e => exact hw.of_fst e
  · next e => exact hw.of_fst e

theorem State.Form.collChecks {s : State} (h : s.Form) (vd : Nat) (p : CollParams) (b : List Byte) (n : Nat) (far : Bool)
    (loc : List (Nat × Nat)) (x : Option Hold) : (collChecks vd p b n far loc x s).1.Form := by
  unfold Machine.collChecks
  refine .iteFst h (.iteFst ?_ (.iteFst h ?_))
  · dsimp only
    split
    · exact h
    · exact h
    · exact h
  · dsimp only
    split
    · exact (h.bufAt _ _ _ _ _ _).bufAt _ _ _ _ _ _
    · exact (h.bufAt _ _ _ _ _ _).bufAt _ _ _ _ _ _
    · exact (h.bufAt _ _ _ _ _ _).bufAt _ _ _ _ _ _

theorem State.Form.sendSteps {s : State} (h : s.Form) (cls : BitVec 8) (vd : Nat) (dsts : List Nat) (p : CollParams) (alpha : BitVec 16)
    (contrib step : Nat) (rs : List (BitVec 128)) : (sendSteps cls vd dsts p alpha contrib step rs s).Form :=
  State.Form.foldl (fun _ _ hs => State.Form.foldl (fun _ _ hs1 => hs1.sendPacket _ _ _) _ hs) _ h

theorem State.Form.dropSteps {s : State} (h : s.Form) (vd : Nat) (c : RingCmd) : (dropSteps vd c s).Form :=
  h.same

theorem State.Form.addCourse {s : State} (h : s.Form) (vd : Nat) (c : RingCmd) (index total : Nat) :
    (addCourse vd c index total s).Form :=
  h.same

theorem State.Form.checkedColl {s : State} (h : s.Form) (vd : Nat) (c : RingCmd) : (checkedColl vd c s).Form := by
  unfold Machine.checkedColl
  dsimp only
  have hc := h.collChecks
  split
  · next e => exact ((hc _ _ _ _ _ _ _).of_fst e).finishCmd _ _ _ _
  · next e => exact ((hc _ _ _ _ _ _ _).of_fst e).updCmd _ _ _
  · next e =>
    have h1 := (hc _ _ _ _ _ _ _).of_fst e
    exact .ite (h1.finishCmd _ _ _ _) (.ite (h1.finishCmd _ _ _ _) ((h1.updCmd _ _ _).addCourse _ _ _ _))

theorem State.Form.sendZero {s : State} (h : s.Form) (vd : Nat) (p : CollParams) (own : List (BitVec 128)) (dsts : List Nat) :
    (sendZero vd p own dsts s).Form :=
  h.sendSteps _ _ _ _ _ _ _ _

theorem State.Form.tryAgree {s : State} (h : s.Form) (vd n : Nat) : (tryAgree vd n s).Form := by
  unfold Machine.tryAgree
  split
  · exact h
  · refine .ite h ?_
    split
    · exact (h.sendZero _ _ _ _).finishCmd _ _ _ _
    · exact h.checkedColl _ _

theorem State.Form.startColl {s : State} (h : s.Form) (vd : Nat) (c : RingCmd) : (startColl vd c s).Form := by
  unfold Machine.startColl
  extract_lets p0 ms n running badAlg go
  have hrun : running.Form := h.updCmd _ _ _
  refine .ite (h.finishCmd _ _ _ _) (.ite (h.finishCmd _ _ _ _) (.ite (h.finishCmd _ _ _ _) ?_))
  have hgo (b : List Byte) {s : State} (hs : s.Form) : (go b s).Form := by
    have h1 := hs.updCmd vd c.n fun x => { x with block := b }
    exact .ite (.ite (h1.finishCmd _ _ _ _) (((h1.updCmd _ _ _).sendZero _ _ _ _).tryAgree _ _)) (h1.checkedColl _ _)
  refine .ite ?_ (hgo _ hrun)
  split
  · next e => exact hgo _ ((hrun.vread _ _ _).of_fst e)
  · next e =>
    split
    · next e1 => exact hgo _ ((((hrun.vread _ _ _).of_fst e).vread _ _ _).of_fst e1)
    · next e1 => exact hgo _ ((((hrun.vread _ _ _).of_fst e).vread _ _ _).of_fst e1)

theorem State.Form.openCollCourse {s : State} (h : s.Form) (k0 : Course) (n : Nat) : (openCollCourse k0 n s).Form := by
  unfold Machine.openCollCourse
  split
  · exact h
  · dsimp only
    split
    · exact h.failCourse _ _ _ _
    · split
      · exact h.failCourse _ _ _ _
      · refine .ite h ?_
        split
        · exact ((h.setCourse _).wordRecord _ _ _ _ _ _ _).loseRank _
        · refine .ite (h.setCourse _) (.ite ((h.updCmd _ _ _).setCourse _) (.ite ?_ (.ite ?_ ?_)))
          · split
            · exact ((h.updCmd _ _ _).setCourse _).failCourse _ _ _ _
            · exact .ite (((h.updCmd _ _ _).updCmd _ _ _).setCourse _) (((h.updCmd _ _ _).updCmd _ _ _).setCourse _)
          · exact ((h.updCmd _ _ _).updCmd _ _ _).setCourse _
          · exact (h.updCmd _ _ _).setCourse _

theorem State.Form.sendLink {s : State} (h : s.Form) (vd : Nat) (c : RingCmd) (t : Nat) : (sendLink vd c t s).Form :=
  .ite (State.Form.foldl (fun _ _ hs => .ite (hs.sendSteps _ _ _ _ _ _ _ _) (hs.sendSteps _ _ _ _ _ _ _ _)) _ h)
    (State.Form.foldl (fun _ _ hs => hs.sendSteps _ _ _ _ _ _ _ _) _ h)

theorem State.Form.placeColl {s : State} (h : s.Form) (vd : Nat) (c : RingCmd) (plan : List (Nat × List (Nat × Byte))) (fl : Fl) :
    (placeColl vd c plan fl s).Form :=
  ((h.dropSteps _ _).updCmd _ _ _).addCourse _ _ _ _

theorem State.Form.runLinks {s : State} (h : s.Form) (vd n m : Nat) : (runLinks vd n m s).Form := by
  induction m generalizing s with
  | zero => exact h
  | succ m ih =>
    unfold Machine.runLinks
    split
    · exact h
    · refine .ite (.ite h (h.placeColl _ _ _ _)) (.ite (.ite (h.placeColl _ _ _ _) (h.placeColl _ _ _ _)) (.ite h (ih ?_)))
      exact .ite ((h.updCmd _ _ _).sendLink _ _ _) (h.updCmd _ _ _)

theorem State.Form.startLinks {s : State} (h : s.Form) (vd n : Nat) : (startLinks vd n s).Form := by
  unfold Machine.startLinks
  split
  · exact h
  · exact ((h.updCmd _ _ _).sendLink _ _ _).runLinks _ _ _

theorem State.Form.tryPlace {s : State} (h : s.Form) (vd n : Nat) : (tryPlace vd n s).Form := by
  unfold Machine.tryPlace
  split
  · exact h
  · exact .ite h (.ite (.ite (.ite (h.finishCmd _ _ _ _) (h.startLinks _ _)) (.ite h (h.placeColl _ _ _ _))) (.ite (h.runLinks _ _ _) h))

theorem State.Form.sendBlocks {s : State} (h : s.Form) (vd : Nat) (c : RingCmd) : (sendBlocks vd c s).Form :=
  .ite (((h.updCmd _ _ _).sendSteps _ _ _ _ _ _ _ _).tryPlace _ _) (h.startLinks _ _)

theorem State.Form.collKeystone {s : State} (h : s.Form) (k : Course) (n : Nat) : (collKeystone k n s).Form := by
  unfold Machine.collKeystone
  split
  · exact h
  · refine .ite ?_ ((h.updCmd _ _ _).finishCmd _ _ _ _)
    split
    · exact (h.updCmd _ _ _).finishCmd _ _ _ _
    · exact .ite ((h.updCmd _ _ _).sendBlocks _ _) ((h.updCmd _ _ _).nextCourse _)

theorem State.Form.stepArrives {s : State} (h : s.Form) (x : Packet) : (stepArrives x s).Form :=
  .ite (h.sendPacket _ _ _) (State.Form.foldl (fun _ _ hs => State.Form.foldl
    (fun _ _ hs1 => .ite ((hs1.whenServed (fun _ hs2 => hs2.tryAgree _ _)).tryPlace _ _) hs1) _ hs) _ h.same)

theorem State.Form.losePackage {s : State} (h : s.Form) (q : Nat) : (losePackage q s).Form := by
  unfold Machine.losePackage
  refine State.Form.foldl (fun _ _ hs => State.Form.foldl (fun _ _ hs1 => .ite ?_ hs1) _ hs) _ h
  split
  · exact .ite (hs1.updCmd _ _ _) (hs1.failCourse _ _ _ _)
  · exact hs1.finishCmd _ _ _ _

theorem State.Form.timeoutColl {s : State} (h : s.Form) (vd n : Nat) : (timeoutColl vd n s).Form := by
  unfold Machine.timeoutColl
  split
  · exact h
  · refine .ite h ?_
    split
    · exact h
    · exact (h.finishCmd _ _ _ _).updCmd _ _ _
    · split
      · split
        · exact (h.sendZero _ _ _ _).finishCmd _ _ _ _
        · exact h.finishCmd _ _ _ _
      · exact .ite (h.updCmd _ _ _) (h.failCourse _ _ _ _)

/-! ### Events of courses -/

theorem State.Form.keystoneNow {s : State} (h : s.Form) (c : Course) : (keystoneNow c s).Form := by
  unfold Machine.keystoneNow
  dsimp only
  split
  · exact (((h.same.flip _).setCourse _).settleRows _).collKeystone _ _
  · exact (((h.same.flip _).setCourse _).settleRows _).afterKeystone _

theorem State.Form.dueKeystones {s : State} (h : s.Form) (t n : Nat) : (dueKeystones t n s).Form := by
  unfold Machine.dueKeystones
  split
  · exact h
  · split
    · exact h
    · exact (h.keystoneNow _).dueKeystones _ _

theorem State.Form.advanceTo {s : State} (h : s.Form) (t : Nat) : (advanceTo t s).Form :=
  (h.dueKeystones _ _).same

theorem State.Form.pushSigs {s : State} (h : s.Form) : (pushSigs s).Form :=
  State.Form.foldl (fun _ _ hs => State.Form.foldl (fun _ _ hs1 => .ite (hs1.pushSig _ _) hs1) _ hs) _ h

theorem State.Form.execCommandRingDispatch {s : State} (h : s.Form) (vd n : Nat) : FormAfter (execCommandRingDispatch vd n s) := by
  unfold Machine.execCommandRingDispatch
  split
  · exact .next h
  · refine .ite (.next h) (.ite (.next (h.whenServed (fun _ hs => hs.tryAgree _ _))) (.ite (.next h) ?_))
    dsimp only
    split
    · exact .next (h.whenServed (fun _ hs => (hs.updCmd _ _ _).startColl _ _))
    · exact .next ((h.updCmd _ _ _).startRkovl _ _)
    · exact .next ((h.updCmd _ _ _).startRkrun _ _)
    · exact .next ((h.updCmd _ _ _).pushSigs)
    · exact .next ((h.updCmd _ _ _).runRkstop _ _)

theorem State.Form.execCollCompletion {s : State} (h : s.Form) (vd n : Nat) : FormAfter (execCollCompletion vd n s) := by
  unfold Machine.execCollCompletion
  split
  · exact .next h
  · split
    · exact .ite (.next h) (.next ((State.Form.ite h (h.dropSteps _ _)).reportCmd _ _ _))
    · exact .next h

theorem State.Form.execRkovlCompletion {s : State} (h : s.Form) (vd n : Nat) : FormAfter (execRkovlCompletion vd n s) := by
  unfold Machine.execRkovlCompletion
  split
  · exact .ite (.next (h.completeRkovl _ _)) (.next h)
  · exact .next h

theorem State.Form.execRkrunCompletion {s : State} (h : s.Form) (vd n : Nat) : FormAfter (execRkrunCompletion vd n s) := by
  unfold Machine.execRkrunCompletion
  split
  · exact .ite (.next (h.completeRkrun _ _)) (.next h)
  · exact .next h

theorem State.Form.execRksigMailboxDelivery {s : State} (h : s.Form) (rank : Nat) : FormAfter (execRksigMailboxDelivery rank s) := by
  unfold Machine.execRksigMailboxDelivery
  split
  · exact .next h
  · exact .ite (.next h) (.next ((h.updRank _ _).pushSigs))

theorem State.Form.execCourseOpen {s : State} (h : s.Form) (id : Nat) : FormAfter (execCourseOpen id s) := by
  unfold Machine.execCourseOpen
  split
  · exact .next h
  · refine .ite (.next h) ?_
    split
    · exact .next (h.openCollCourse _ _)
    · exact .next (h.openRankCourse _)

theorem State.Form.execMemberReady {s : State} (h : s.Form) (id member : Nat) : FormAfter (execMemberReady id member s) := by
  unfold Machine.execMemberReady
  split
  · exact .next h
  · exact .ite (.next h) (.next (h.readyMember _ _))

theorem State.Form.execKeystone {s : State} (h : s.Form) (id : Nat) : FormAfter (execKeystone id s) := by
  unfold Machine.execKeystone
  split
  · exact .next h
  · exact .ite (.next (h.advanceTo _)) (.next h)

theorem State.Form.execCourseCancel {s : State} (h : s.Form) (id : Nat) : FormAfter (execCourseCancel id s) := by
  unfold Machine.execCourseCancel
  split
  · exact .next h
  · split
    · exact .next h
    · exact .ite (.next h) (.next ((h.advanceTo _).failCourse _ _ _ _))

theorem State.Form.execKeystoneInvalidationDone {s : State} (h : s.Form) (id : Nat) : FormAfter (execKeystoneInvalidationDone id s) := by
  unfold Machine.execKeystoneInvalidationDone
  split
  · exact .next h
  · exact .ite (.next (((h.dropCourse _).dropLines _ _).settleRows _)) (.next h)

theorem State.Form.execCourseTimeout {s : State} (h : s.Form) (id : Nat) : FormAfter (execCourseTimeout id s) := by
  unfold Machine.execCourseTimeout
  split
  · exact .next h
  · refine .ite (.next h) ?_
    split
    · exact .ite (.next h) (.next (h.failCourse _ _ _ _))
    · exact .ite (.next (h.failCourse _ _ _ _)) (.next h)

theorem State.Form.execCbarTimeout {s : State} (h : s.Form) (rank : Nat) : FormAfter (execCbarTimeout rank s) := by
  unfold Machine.execCbarTimeout
  split
  · exact .ite (.next h) (.next (h.endCourseInstr _ _))
  · exact .next h

theorem State.Form.execOutsideAccessArrival {s : State} (h : s.Form) (rank row col : Nat) (wr : Bool) (len : Nat) (data : BitVec 512) :
    FormAfter (execOutsideAccessArrival rank row col wr len data s) := by
  unfold Machine.execOutsideAccessArrival
  refine .ite (.next h) ?_
  split
  · exact .next (.ite h h.same)
  · exact .next (.ite (h.same.arriveWrite _ _ _ _) (h.arriveRead _ _ _))

end Sys2Proof.Machine

end

section
/-! PROOFS. Copies, matrices and virtual devices keep the form of memory -/

namespace Sys2Proof.Machine

/-! ### Copies -/

theorem State.Form.copyPages {s : State} (h : s.Form) (e : EngCmd) : (copyPages e s).1.Form := by
  unfold Machine.copyPages
  have ht := h.translateAll (dieOf s.cur.core) s.here.vd e.kind (pagesOf e.globals)
  refine .iteFst h (.iteFst h ?_)
  split
  · next e => exact .iteFst (ht.of_fst e) (ht.of_fst e)
  · exact ht

theorem State.Form.copyBad {s t : State} (h : s.Form) {e : EngCmd} {pages : List (Nat × Nat)} (ht : copyBad e pages s = some t) :
    t.Form := by
  unfold Machine.copyBad at ht
  split at ht
  · obtain ⟨_, _, rfl⟩ := Option.map_eq_some_iff.mp ht
    exact h.engineBad _ _
  · dsimp only at ht
    split at ht
    · cases ht
      exact h.engineFailed _
    · cases ht

theorem State.Form.putRows {s : State} (h : s.Form) (e : EngCmd) (pages : List (Nat × Nat)) (rows : List (Nat × List Byte)) :
    (putRows e pages rows s).1.Form :=
  .iteFst (h.engineWrite _ _) (State.Form.foldl (fun _ _ hs => hs.spmWrite _ _ _) _ h)

theorem State.Form.fillRows {s : State} (h : s.Form) (e : EngCmd) (rows : List (Nat × List Byte)) : (fillRows e rows s).Form :=
  State.Form.foldl (fun _ _ hs => hs.fill _ _) _ h

/-- What the run of an engine command leaves has the form. -/
def EngRun.Kept : EngRun → Prop
  | .done s _ _ | .lines s _ | .busy s | .hold s _ => s.Form

theorem EngRun.Kept.ite {c : Prop} {_ : Decidable c} {r q : EngRun} (hr : r.Kept) (hq : q.Kept) : (if c then r else q).Kept := by
  split
  · exact hr
  · exact hq

theorem EngRun.Kept.of_eq {r q : EngRun} (h : r.Kept) (e : r = q) : q.Kept := e ▸ h

theorem State.Form.runCopy {s : State} (h : s.Form) (e : EngCmd) : (runCopy e s).Kept := by
  unfold Machine.runCopy
  have hp := h.copyPages e
  split
  · next e => exact hp.of_fst e
  · next e => exact hp.of_fst e
  · next e => exact hp.of_fst e
  · next pages e1 =>
    have hr := (hp.of_fst e1).arriveLines e.lines (e.reads.map (paIn pages))
    dsimp only
    split
    · exact hr
    · split
      · next e2 => exact hr.copyBad e2
      · refine State.Form.ite (.fillRows ?_ _ _) ?_
        · exact State.Form.putRows hr.same _ _ _
        · exact State.Form.putRows hr.same _ _ _

theorem State.Form.endCopy {s : State} (h : s.Form) (c : Nat) (e : EngCmd) : (endCopy c e s).Form := by
  unfold Machine.endCopy
  extract_lets done v s1 s2 s3
  have h1 : s1.Form := .ite ((h.spmWrite _ _ _).fill _ _) h
  have h2 : s2.Form := h1.updCore _ fun _ => id
  have h3 : s3.Form := .ite h2 (h2.updCtx _ _ _)
  exact h3.releaseSlot _ _ _ _

theorem State.Form.setCopy {s : State} (h : s.Form) (c : Nat) (e : EngCmd) : (setCopy c e s).Form :=
  h.updCore _ (by exact fun _ => id)

theorem State.Form.beginCopy {s : State} (h : s.Form) (c : Nat) (e : EngCmd) : (beginCopy c e s).Form := by
  unfold Machine.beginCopy
  dsimp only
  split
  · exact h
  · exact h.setCopy _ _
  · split
    · next _ _ e1 =>
      exact (((h.copyPages _).of_fst e1).askLines _ _).setCopy _ _
    · next _ _ e1 =>
      exact ((h.copyPages _).of_fst e1).setCopy _ _
    · next _ e1 =>
      exact (h.copyPages _).of_fst e1
    · next _ _ e1 =>
      exact ((h.copyPages _).of_fst e1).setCopy _ _

theorem State.Form.startCopy {s : State} (h : s.Form) (c : Nat) : (startCopy c s).Form := by
  unfold Machine.startCopy
  dsimp only
  split
  · exact h
  · split
    · exact h
    · exact .ite h (h.same.asContext _ _ (fun _ hs => hs.beginCopy _ _))

theorem State.Form.completeCopy {s : State} (h : s.Form) (c : Nat) : (completeCopy c s).Form := by
  unfold Machine.completeCopy
  split
  · exact h
  · next e _ =>
    refine .ite h (.ite (h.endCopy _ _) (.ite (.ite (h.endCopy _ _) (h.setCopy _ _)) ?_))
    have hr := (h.actAs c e.ctx).runCopy e
    split
    · exact h
    · exact .ite (h.endCopy _ _) (h.setCopy _ _)
    · split
      · next e => exact State.Form.same (hr.of_eq e)
      · next e => exact (State.Form.same (hr.of_eq e)).setCopy _ _
      · next e => exact State.Form.setCopy (hr.of_eq e) _ _
      · next e => exact .ite (State.Form.endCopy (hr.of_eq e) _ _) (State.Form.setCopy (hr.of_eq e) _ _)

/-! ### Matrix units -/

theorem Core.Wf.tileWrite {k : Core} (h : k.Wf) (slot f : Nat) (alpha : BitVec 16) (es : List Nat) :
    (k.tileWrite slot f alpha es).Wf := ⟨h.1, Memory.wf_writeN _ _ h.2⟩

theorem State.Form.runMma {s : State} (h : s.Form) (e : EngCmd) : (runMma e s).1.Form := by
  unfold Machine.runMma
  refine .iteFst h (.iteFst h ?_)
  dsimp only
  split
  · exact h.engineBad _ _
  · split
    · exact h.engineBad _ _
    · exact h.updHere fun _ hk => hk.tileWrite _ _ _ _

theorem State.Form.runMzero {s : State} (h : s.Form) (e : EngCmd) : (runMzero e s).1.Form :=
  .iteFst h (.iteFst h (h.updHere fun _ hk => hk.tileWrite _ _ _ _))

theorem State.Form.tilePages {s : State} (h : s.Form) (e : EngCmd) (len : Nat) (k : AccessKind) : (tilePages e len k s).1.Form := by
  unfold Machine.tilePages
  have ht := h.translateAll (dieOf s.cur.core) s.here.vd k (pagesOf ((e.tileBytes len).map (fun b => b.1 + b.2)))
  refine .iteFst h ?_
  split
  · next e => exact .iteFst (ht.of_fst e) (ht.of_fst e)
  · exact ht

theorem State.Form.runMldc {s : State} (h : s.Form) (e : EngCmd) : (runMldc e s).Kept := by
  unfold Machine.runMldc
  have hp := h.tilePages e (32 * tileSize (ptrFmt e.a)) .load
  refine .ite h ?_
  split
  · next e => exact hp.of_fst e
  · next e => exact hp.of_fst e
  · next e => exact hp.of_fst e
  · next e1 =>
    extract_lets at_ pas near s1 ps bad
    have hs1 : s1.Form := (hp.of_fst e1).arriveLines _ _
    have hbad : ∀ t, bad = some t → t.Form := by
      intro t ht
      dsimp only [bad] at ht
      split at ht
      · obtain ⟨_, _, rfl⟩ := Option.map_eq_some_iff.mp ht
        exact hs1.engineBad _ _
      · split at ht
        · cases ht
          exact hs1.engineFailed _
        · cases ht
    clear_value bad
    refine .ite hs1 ?_
    split
    · exact hbad _ rfl
    · exact .ite hs1 (hs1.updHere fun _ hk => hk.tileWrite _ _ _ _)

theorem State.Form.runMstc {s : State} (h : s.Form) (e : EngCmd) : (runMstc e s).Kept := by
  unfold Machine.runMstc
  have hp := h.tilePages e (4 * fmtBits (e.g 8)) .store
  dsimp only
  split
  · exact h
  · split
    · exact h
    · split
      · next e => exact hp.of_fst e
      · next e => exact hp.of_fst e
      · next e => exact hp.of_fst e
      · next e1 =>
        split
        · exact (hp.of_fst e1).engineBad _ _
        · split
          · exact State.Form.foldl (fun _ _ hs => hs.spmWrite _ _ _) _ (hp.of_fst e1)
          · exact (hp.of_fst e1).engineWrite _ _

theorem State.Form.runMx {s : State} (h : s.Form) (e : EngCmd) : (runMx e s).Kept := by
  unfold Machine.runMx
  split
  · exact h.runMma e
  · exact h.runMldc e
  · exact h.runMstc e
  · exact h.runMzero e

theorem State.Form.setMx {s : State} (h : s.Form) (c : Nat) (e : EngCmd) : (setMx c e s).Form :=
  h.updCore _ (by exact fun _ => id)

theorem State.Form.startMx {s : State} (h : s.Form) (mg : Nat) : (startMx mg s).Form := by
  unfold Machine.startMx
  refine .ite h ?_
  split
  · exact h
  · split
    · exact h
    · refine .ite ?_ (((h.actAs _ _).same).setMx _ _)
      split
      · next _ _ e2 =>
        exact (((((h.actAs _ _).same).tilePages _ _ _).of_fst e2).askLines _ _).setMx _ _
      · next _ e2 =>
        exact (((h.actAs _ _).same).tilePages _ _ _).of_fst e2
      · next _ _ e2 =>
        exact ((((h.actAs _ _).same).tilePages _ _ _).of_fst e2).setMx _ _

theorem State.Form.endMx {s : State} (h : s.Form) (c : Nat) (e : EngCmd) : (endMx c e s).Form :=
  .ite (h.updCore _ (by exact fun _ => id)) (((h.updCore _ (by exact fun _ => id)).updCtx _ _ _).releaseSlot _ _ _ _)

theorem State.Form.completeMx {s : State} (h : s.Form) (mg : Nat) : (completeMx mg s).Form := by
  unfold Machine.completeMx
  split
  · exact h
  · next i _ =>
    dsimp only
    split
    · exact h
    · next e _ =>
      refine .ite h (.ite (h.endMx _ _) (.ite (.ite (h.endMx _ _) (h.setMx _ _)) ?_))
      have hr := (h.actAs (8 * mg + i) e.ctx).runMx e
      split
      · exact h
      · exact .ite (h.endMx _ _) (h.setMx _ _)
      · split
        · next e => exact State.Form.same (hr.of_eq e)
        · next e => exact (State.Form.same (hr.of_eq e)).setMx _ _
        · next e => exact State.Form.setMx (hr.of_eq e) _ _
        · next e => exact .ite (State.Form.endMx (hr.of_eq e) _ _) (State.Form.setMx (hr.of_eq e) _ _)

/-! ### Virtual devices -/

theorem State.Form.finishSfu {s : State} (h : s.Form) (c n : Nat) : (finishSfu c n s).Form := by
  induction n generalizing s with
  | zero => exact h
  | succ n ih =>
    unfold Machine.finishSfu
    split
    · next e => exact ih (h.execSfuRequestComplete _ _ e)
    · exact h

theorem State.Form.mergeCore {s : State} (h : s.Form) (c : Nat) : (mergeCore c s).Form :=
  State.Form.foldl (fun _ _ hs => hs.evictLine _ _ _) _ h

theorem State.Form.stopCore {s : State} (h : s.Form) (c : Nat) : (stopCore c s).Form :=
  ((State.Form.foldl (fun _ _ hs => hs.finishFixed _ _) _ ((State.Form.foldl (fun _ _ hs => (hs.stopLazy _ _).withdrawAll _ _) _
    h).finishSfu _ _)).same).mergeCore _

theorem State.Form.packCore {s : State} (h : s.Form) (c : Nat) (mode : CoreMode) (write : Bool) : (packCore c mode write s).Form := by
  unfold Machine.packCore
  extract_lets s1 k img key s2 s3
  have hk : k.Wf := (h.stopCore c).core c
  clear_value k
  have himg : img.Wf := hk
  have hs2 : s2.Form := (h.stopCore c).updVd _ (by exact fun _ hx => hx.put himg _)
  have hs3 : s3.Form := hs2.setCore _ hk
  exact .ite (hs3.patchImage _ _ _ _) hs3

theorem State.Form.fromArea {s : State} (h : s.Form) (a : Nat) (m : PortMsg) : (fromArea a m s).1.Form := by
  unfold Machine.fromArea
  refine .iteFst h ?_
  split
  · next _ e0 =>
    exact (h.devRead _ _).of_fst e0
  · next _ _ e0 =>
    exact (h.devRead _ _).of_fst e0

theorem State.Form.spilledWords {s : State} (h : s.Form) (vd origin : Nat) : (spilledWords vd origin s).1.Form := by
  unfold Machine.spilledWords
  refine List.foldlRecOn (motive := fun p : Nat × State × List PortMsg => p.2.1.Form) _ _ h fun _ hp _ _ => ?_
  exact State.Form.fromArea hp _ _

theorem State.Form.imageMchk {s : State} (h : s.Form) (vd origin c : Nat) (bad : List (Nat × Place)) :
    (imageMchk vd origin c bad s).Form := by
  unfold Machine.imageMchk
  refine State.Form.foldl (fun _ _ hs => ?_) _ h
  split
  · exact hs
  · exact .ite (hs.recordFor _ _ _ _ _ _ _ _) ((hs.recordFor _ _ _ _ _ _ _ _).updCtx _ _ _)

theorem wf_cellsOf (bs : List Byte) : Memory.wf (cellsOf bs) = true := by
  have hw : ∀ (n : Nat), Memory.wfFrom n (((bs.zipIdx n).filter (fun b => b.1 != 0)).map (fun b => (b.2, b.1))) = true := by
    induction bs with
    | nil => exact fun _ => rfl
    | cons b r ih =>
      intro n
      rw [List.zipIdx_cons, List.filter_cons]
      split
      · next hb =>
        rw [List.map_cons, Memory.wfFrom, ih, hb]
        simp
      · exact Memory.wfFrom_mono (Nat.le_succ n) _ (ih _)
  exact hw 0

theorem Core.Wf.coreOfImage {k : Core} (bs : List Byte) : (coreOfImage bs k).Wf := ⟨wf_cellsOf _, wf_cellsOf _⟩

theorem Core.Wf.retain {k : Core} (h : k.Wf) (img : Core) : (k.retain img).Wf := h

theorem State.Form.loadCore {s : State} (h : s.Form) (vd origin c : Nat) (bytes : Bool) : (loadCore vd origin c bytes s).Form := by
  unfold Machine.loadCore
  split
  · exact h
  · next old hold =>
    extract_lets k read img img' spilled s1 s2
    have hread : read.1.Form := .iteFst (h.readImage _ _) h
    have himg : img.Wf := by
      dsimp only [img]
      split
      · exact Core.Wf.coreOfImage _
      · exact h.vd _ _ (mem_of_lookup hold)
    have himg' : img'.Wf := .ite himg (h.core c)
    have hs1 : s1.Form := (hread.spilledWords _ _).setCore _ himg'
    have hs2 : s2.Form := hs1.updVd _ (by exact fun _ hx => hx.drop _)
    exact hs2.same.imageMchk _ _ _ _

theorem State.Form.execCoreResumption {s : State} (h : s.Form) (vd origin core : Nat) :
    FormAfter (execCoreResumption vd origin core s) := by
  unfold Machine.execCoreResumption
  dsimp only
  split
  · exact .next h
  · exact .ite (.next h) (.next (h.whenServed (fun _ hs => .ite (hs.loadCore _ _ _ _) ((hs.loadCore _ _ _ _).updCore _
      (by exact fun _ => id)))))

theorem State.Form.readDesc {s : State} (h : s.Form) (arg : BitVec 48) : (readDesc arg s).1.Form :=
  .iteFst (.iteFst ((h.comes _).wordRecord _ _ _ _ _ _ _) (h.comes _)) h

theorem State.Form.measure {s : State} (h : s.Form) (i : Fin 8) (d : List Byte) : (State.measure i d s).Form :=
  h.same

theorem State.Form.drainDone {s : State} (h : s.Form) (vd : Nat) : (drainDone vd s).Form :=
  .ite (h.updVd _ (by exact fun _ => id)) h

theorem Core.wf_reset : Core.reset.Wf := ⟨rfl, rfl⟩

theorem State.Form.cleanCore {s : State} (h : s.Form) (vd c : Nat) : (cleanCore vd c s).Form :=
  (h.mapCores (by exact fun _ => id)).updCore _ (by exact fun _ _ => Core.wf_reset)

/-- A VD stands for another. -/
theorem State.Form.putVd {s t : State} (h : s.Form) (n : Nat) {v : Vd} (hv : v.Wf) (he : t.vds = put n v s.vds)
    (hc : t.cores = s.cores) (hm : t.mem = s.mem) : t.Form := by
  refine ⟨⟨hm ▸ h.1.1, hc ▸ h.1.2⟩, fun e hm => ?_⟩
  rw [he] at hm
  obtain rfl | hm := of_mem_put hm
  · exact hv
  · exact h.2 e hm

theorem State.Form.freeVd {s : State} (h : s.Form) (vd : Nat) : (freeVd vd s).Form :=
  (State.Form.foldl (fun _ _ hs => hs.cleanCore _ _) _ h).putVd vd (v := Vd.reset) (by simp [Vd.Wf, Vd.reset]) rfl rfl rfl

theorem State.Form.settleOp {s : State} (h : s.Form) : (settleOp s).Form :=
  .ite (.ite (h.drainDone _) ((h.drainDone _).same)) (.ite (.ite (h.drainDone _) (((h.drainDone _).freeVd _).same))
    (.ite (.ite h h.same) h))

theorem State.Form.vdOp {s : State} (h : s.Form) (op vd : Nat) (arg : BitVec 48) {f : State → State × Nat}
    (hf : ∀ s, s.Form → (f s).1.Form) : FormAfter (vdOp op vd arg f s) :=
  .ite (.next h) (.ite (.next (((hf _ h.same).same).settleOp)) (.next (((h.wakeBanks _).askWindow _ _).same)))

theorem State.Form.execCreate {s : State} (h : s.Form) (vd : Nat) (arg : BitVec 48) : FormAfter (execCreate vd arg s) := by
  unfold Machine.execCreate
  refine h.vdOp _ _ _ (fun _ hs => .iteFst hs ?_)
  split
  · next e => exact (hs.readDesc _).of_fst e
  · next e =>
    have hm := ((hs.readDesc _).of_fst e).measure
    refine .iteFst (hm _ _) (State.Form.foldl (fun _ _ hs1 => hs1.cleanCore _ _) _ ?_)
    exact (hm _ _).putVd vd (v := { Vd.reset with wins := _, desc := _, b := _, q := _, state := _ }) (by simp [Vd.Wf, Vd.reset]) rfl rfl
      rfl

theorem State.Form.execStop {s : State} (h : s.Form) (vd : Nat) (arg : BitVec 48) : FormAfter (execStop vd arg s) := by
  unfold Machine.execStop
  refine h.vdOp _ _ _ (fun _ hs => ?_)
  split
  · exact hs.updVd _ (by exact fun _ => id)
  · exact hs.updVd _ (by exact fun _ => id)
  · exact hs

theorem State.Form.rollBack {s : State} (h : s.Form) (vd : Nat) : (rollBack vd s).Form :=
  State.Form.foldl (fun _ _ hs => .ite (hs.failCourse _ _ _ _)
    ((((State.Form.foldl (fun _ _ hs1 => hs1.updRank _ _) _ hs).setCourse _).applyHeld _).settleRows _)) _ h

theorem State.Form.writeOverflow {s : State} (h : s.Form) (vd : Nat) (ms : List PortMsg) : (writeOverflow vd ms s).Form := by
  unfold Machine.writeOverflow
  refine State.Form.foldl (fun _ _ hs => ?_) _ h
  split
  · exact hs.devWrite _ _
  · exact hs

theorem State.Form.readOverflow {s : State} (h : s.Form) (vd : Nat) (ms : List PortMsg) : (readOverflow vd ms s).1.Form := by
  unfold Machine.readOverflow
  refine State.Form.foldlFst (fun _ _ hs => ?_) _ h
  split
  · exact hs.fromArea _ _
  · exact hs

theorem State.Form.execEquinoxStop {s : State} (h : s.Form) (vd : Nat) : FormAfter (execEquinoxStop vd s) := by
  unfold Machine.execEquinoxStop
  dsimp only
  split
  · exact .next h
  · next te _ =>
    refine .ite (.next h) ?_
    split
    · exact .next (.ite ((h.advanceTo _).updVd _ (by exact fun _ => id)).same ((h.advanceTo _).updVd _ (by exact fun _ => id)))
    · refine .next (.ite ?_ ?_)
      · exact (((State.Form.foldl (fun _ _ hs => hs.spillRank _) _ (State.Form.foldl (fun _ _ hs => hs.packCore _ _ _) _
          ((((h.advanceTo _).updVd _ (by exact fun _ => id)).writeOverflow _ _).same))).rollBack _).updVd _ (by exact fun _ => id)).same
      · exact ((State.Form.foldl (fun _ _ hs => hs.spillRank _) _ (State.Form.foldl (fun _ _ hs => hs.packCore _ _ _) _
          ((((h.advanceTo _).updVd _ (by exact fun _ => id)).writeOverflow _ _).same))).rollBack _).updVd _ (by exact fun _ => id)
    · exact .next h

theorem State.Form.wakeRanks {s : State} (h : s.Form) (vd : Nat) (f : Nat → Nat) : (wakeRanks vd f s).Form :=
  State.Form.foldl (fun _ _ hs => hs.updRank _ _) _ h

theorem State.Form.reinject {s : State} (h : s.Form) (vd : Nat) : (reinject vd s).Form :=
  ((h.readOverflow _ _).updVd _ (by exact fun _ => id)).same

theorem State.Form.loadDisplaced {s : State} (h : s.Form) (vd : Nat) (l : List (Nat × Core)) (r : List Nat) :
    (loadDisplaced vd l r s).1.Form := by
  unfold Machine.loadDisplaced
  split
  · exact h
  · split
    · exact (h.loadCore _ _ _ _).loadDisplaced _ _ _
    · exact h.loadDisplaced _ _ _

theorem State.Form.loadAll {s : State} (h : s.Form) (vd : Nat) : (loadAll vd s).Form := by
  unfold Machine.loadAll
  extract_lets v home other free s1 r s2
  have hs1 : s1.Form := .foldl (fun _ _ hs => hs.loadCore _ _ _ _) _ (h.reinject _)
  have hr : r.1.Form := hs1.loadDisplaced _ _ _
  have hs2 : s2.Form := .foldl (fun _ _ hs => .ite (hs.loadCore _ _ _ _) (hs.updVd _ (by exact fun _ hx => hx.drop _))) _ hr
  refine hs2.mapCores fun _ hk => ?_
  dsimp only
  split
  · exact hk
  · exact hk

theorem State.Form.moveCores {s : State} (h : s.Form) (vd : Nat) (old new : VdDesc) (f : Nat → Nat) :
    (moveCores vd old new f s).Form := by
  refine State.Form.foldl (fun _ _ hs => hs.updCore _ fun k hk => ?_) _
    (State.Form.foldl (fun _ _ hs => hs.cleanCore _ _) _ (State.Form.foldl (fun _ _ hs => hs.cleanCore _ _) _ h))
  exact .ite (h.core _) hk

theorem Vd.Wf.move {v : Vd} (h : v.Wf) (pkg : Nat) (f : Nat → Nat) : (v.move pkg f).Wf := by
  intro e he
  obtain ⟨d, hd, rfl⟩ := List.mem_map.mp he
  exact h d hd

theorem State.Form.execResume {s : State} (h : s.Form) (vd : Nat) (arg : BitVec 48) : FormAfter (execResume vd arg s) := by
  unfold Machine.execResume
  refine h.vdOp _ _ _ (fun t ht => .iteFst ht ?_)
  split
  · next e => exact (ht.readDesc _).of_fst e
  · next u b e =>
    have hm := ((ht.readDesc _).of_fst e).measure 7 b
    refine .iteFst hm ?_
    extract_lets f mine s1 s2 s3 s4
    have hs1 : s1.Form := hm.updVd _ (by exact fun _ hx => Vd.Wf.move hx (u.measure 7 b).pkg _)
    have hs2 : s2.Form := hs1.same
    have hs4 : s4.Form := State.Form.wakeRanks (.ite hs2 (hs2.moveCores _ _ _ _)) _ _
    split
    · exact hs4.updVd _ (by exact fun _ => id)
    · exact (hs4.updVd _ (by exact fun _ => id)).loadAll _

theorem State.Form.cleanRank {s : State} (h : s.Form) (vd r : Nat) : (cleanRank vd r s).Form :=
  (h.updRank _ _).freeRank _

theorem State.Form.cleanSlots {s : State} (h : s.Form) (vd r : Nat) : (cleanSlots vd r s).Form :=
  h.updRank _ _

theorem State.Form.inWindow {s : State} (h : s.Form) {f : State → State} (hf : ∀ s, s.Form → (f s).Form) : (inWindow f s).Form :=
  State.Form.foldl (fun _ _ hs => hs.updRank _ _) _ (hf _ (State.Form.foldl (fun _ _ hs => hs.updRank _ _) _ h))

theorem State.Form.finishStores {s : State} (h : s.Form) (c : Nat) : (finishStores c s).Form := by
  unfold Machine.finishStores
  refine State.Form.foldl (fun _ e hs => hs.inWindow (fun t ht => ?_)) _ h
  have hr := (ht.actAs c e.ctx).runMstc e
  split
  · next e => exact State.Form.same (hr.of_eq e)
  · exact ht

theorem State.Form.abortWords {s : State} (h : s.Form) (vd : Nat) (c : RingCmd) : (abortWords vd c s).Form := by
  unfold Machine.abortWords
  dsimp only
  split
  · refine State.Form.foldlFst (fun _ _ hs => ?_) _ h
    exact hs.lateWord _ _ _ _ _
  · refine State.Form.foldlFst (fun _ _ hs => ?_) _ h
    exact hs.lateWord _ _ _ _ _
  · refine State.Form.foldlFst (fun _ _ hs => ?_) _ h
    exact hs.lateWord _ _ _ _ _
  · exact h

/-- The saved cores of a VD that is reset go. -/
theorem Vd.wf_of_saved {v : Vd} (h : v.saved = []) : v.Wf := by
  intro e he
  rw [h] at he
  cases he

theorem State.Form.resetVd {s : State} (h : s.Form) (vd : Nat) : (resetVd vd s).Form := by
  unfold Machine.resetVd
  extract_lets v mine s0 s1 s1' s2 s3 ended link s4 queue s5 s6
  have hs0 : s0.Form := .ite (.foldl (fun _ _ hs => hs.wakeChannel _) _ h) h
  have hs1 : s1.Form := .foldl (fun _ _ hs => .ite (hs.setCourse _) (((State.Form.ite (hs.applyHeld _) hs).dropCourse _).settleRows _)) _
    hs0
  have hs1' : s1'.Form := .foldl (fun _ _ hs => (hs.finishStores _).mergeCore _) _ hs1
  have hs2 : s2.Form := .foldl (fun _ _ hs => hs.abortWords _ _) _ hs1'
  have hs3 : s3.Form := .foldl (fun _ _ hs => .foldl (fun _ _ hs1 => .ite (hs1.endLaunch _ _ _ _) hs1) _ hs) _ hs2
  have hs4 : s4.Form := .foldl (fun _ _ hs => hs.cleanCore _ _) _ hs3.same
  have hs5 : s5.Form := hs4.updVd _ (by exact fun _ _ => Vd.wf_of_saved rfl)
  have hs6 : s6.Form := .foldl (fun _ _ hs => hs.cleanSlots _ _) _ hs5
  exact .foldl (fun _ _ hs => hs.cleanRank _ _) _ hs6

theorem State.Form.killKey {s : State} (h : s.Form) (vd slot : Nat) : (killKey vd slot s).Form :=
  ((h.updVd _ (by exact fun _ => id)).same).invalidate _ _

theorem State.Form.execTeardown {s : State} (h : s.Form) (vd : Nat) (arg : BitVec 48) : FormAfter (execTeardown vd arg s) :=
  h.vdOp _ _ _ (fun _ hs => .iteFst hs (.iteFst hs (((State.Form.foldl (fun _ _ hs1 => hs1.killKey _ _) _ (hs.resetVd _)).updVd _
    (by exact fun _ => id)).same)))

theorem State.Form.breakQuiet {s : State} (h : s.Form) : (breakQuiet s).Form := by
  refine .ite h (h.mapVds fun e he => ?_)
  dsimp only
  split
  · exact he
  · exact he

theorem State.Form.collapse {s : State} (h : s.Form) (vd : Nat) (ws : List Watch) : (collapse vd ws s).Form := by
  unfold Machine.collapse
  extract_lets cls p s2 chs s3 s4 all2
  have h2 : s2.Form := .foldl (fun _ _ hs => hs.packCore _ _ _) _ h
  have h3 : s3.Form := .foldl (fun _ _ hs => hs.same.tryNap _) _ h2
  have h4 : s4.Form := h3.updVd _ fun _ => id
  exact .ite h4.same h4

theorem State.Form.execVigilCollapse {s : State} (h : s.Form) (vd : Nat) : FormAfter (execVigilCollapse vd s) := by
  unfold Machine.execVigilCollapse
  refine .ite (.next h) ?_
  split
  · exact .next (h.updVd _ (by exact fun _ => id))
  · refine .ite (.next h) ?_
    split
    · exact .ite (.next (h.collapse _ _)) (.next h)
    · exact .next h

theorem State.Form.wakeCores {s : State} (h : s.Form) (vd : Nat) (bytes : Bool) : (wakeCores vd bytes s).Form :=
  State.Form.foldl (fun _ _ hs => (hs.loadCore _ _ _ _).updCore _ (by exact fun _ => id)) _ h

end Sys2Proof.Machine

end

section
/-! PROOFS. Repair, management, links and power keep the form of memory -/

namespace Sys2Proof.Machine

/-! ### Error reports and spares -/

theorem State.Form.markBad {s : State} (h : s.Form) (e : ErrorReport) : (markBad e s).Form := by
  unfold Machine.markBad
  split
  · exact h.same
  · exact .ite (h.updCore _ (by exact fun _ => id)) (h.updCore _ (by exact fun _ => id))
  · exact h

theorem State.Form.pendMchk {s : State} (h : s.Form) (c x : Nat) (p : Option Place) (record : W64) : (pendMchk c x p record s).Form := by
  unfold Machine.pendMchk
  split
  · exact h.asContext _ _ (fun _ hs => hs.failLoad _ _)
  · exact h.updCtx _ _ _

theorem State.Form.execUncorrectableError {s : State} (h : s.Form) (e : ErrorReport) : FormAfter (execUncorrectableError e s) := by
  unfold Machine.execUncorrectableError
  have hm := (h.markBad e).recordFor
  dsimp only
  split
  · exact .next (.ite ((hm _ _ _ _ _ _ _ _).pendMchk _ _ _ _) (hm _ _ _ _ _ _ _ _))
  · refine .next (.ite (((hm _ _ _ _ _ _ _ _).updCore _ ?_).pendMchk _ _ _ _) (hm _ _ _ _ _ _ _ _))
    exact fun _ hk => .ite hk hk
  · exact .next (.ite ((hm _ _ _ _ _ _ _ _).loseRank _) (hm _ _ _ _ _ _ _ _))
  · exact .next (hm _ _ _ _ _ _ _ _)

theorem State.Form.scrubRecord {s : State} (h : s.Form) (w : Nat) : (scrubRecord w s).Form := by
  unfold Machine.scrubRecord
  dsimp only
  split
  · exact h.recordFor _ _ _ _ _ _ _ _
  · exact (h.recordFor _ _ _ _ _ _ _ _).same

theorem State.Form.execPatrolScrub {s : State} (h : s.Form) (rank row : Nat) (found : Bool) :
    FormAfter (execPatrolScrub rank row found s) :=
  .ite (.next h) (.ite (.next (h.askWindow _ _)) (.next (State.Form.foldl (fun _ _ hs => hs.scrubRecord _) _ (.ite h.same h))))

theorem State.Form.applyUnit {s : State} (h : s.Form) (u : SpareUnit) (before : List SpareUnit) : (applyUnit u before s).Form := by
  unfold Machine.applyUnit
  split
  · exact .ite (h.updCore _ (by exact fun _ => id)) h
  · exact .ite (State.Form.foldl (fun _ _ hs => hs.updCore _ (by exact fun _ => id)) _ h) h
  · exact .ite (h.loseRank _) (h.updRank _ _)
  · exact .ite h.same h
  · exact h.same

theorem State.Form.putUnit {s : State} (h : s.Form) (u : SpareUnit) : (putUnit u s).Form :=
  (h.applyUnit _ _).same

theorem State.Form.replaceUnit {s : State} (h : s.Form) (u : SpareUnit) : (replaceUnit u s).Form := by
  unfold Machine.replaceUnit
  refine .ite h ?_
  split
  · exact .ite (h.putUnit _) (h.updRank _ _)
  · exact (State.Form.foldl (fun _ _ hs => hs.scrubRecord _) _ h).putUnit _
  · exact h.putUnit _

theorem State.Form.correctedError {s : State} (h : s.Form) (u : SpareUnit) : (correctedError u s).Form :=
  .ite h (.ite (h.same.replaceUnit _) h.same)

theorem State.Form.failedLine {s : State} (h : s.Form) (c line : Nat) : (failedLine c line s).Form :=
  .ite ((h.updCore _ (by exact fun _ => id)).correctedError _) h

theorem State.Form.execBankMigration {s : State} (h : s.Form) (rank : Nat) : FormAfter (execBankMigration rank s) := by
  unfold Machine.execBankMigration
  refine .ite (.next h) ?_
  split
  · exact .next (h.replaceUnit _)
  · extract_lets s1
    have h1 : s1.Form := .foldl (fun _ _ hs => hs.scrubRecord _) _ h
    exact .ite (.next (h1.updRank _ _)) (.next ((h1.updRank _ _).putUnit _))

/-! ### Power, boot and security -/

/-- A step of boot that succeeds. -/
theorem State.Form.loadImageOf {s t : State} (h : s.Form) {n : Nat} (e : loadImageOf n s = some t) : t.Form := by
  unfold Machine.loadImageOf at e
  split at e
  · cases e
  · cases e
    exact .ite (h.measure _ _).same (h.measure _ _)

theorem State.Form.coldState (phase : BootPhase) (s : State) : (coldState phase s).Form :=
  ⟨reset_form.1, fun _ he => nomatch he⟩

theorem State.Form.applyAll {s : State} (h : s.Form) (l r : List SpareUnit) : (applyAll l r s).Form := by
  unfold Machine.applyAll
  split
  · exact h
  · exact (h.applyUnit _ _).applyAll _ _

/-- The images that a step of boot loads one after another. -/
theorem State.Form.loadImages (l : List Nat) {o : Option State} (ho : ∀ s, o = some s → s.Form) {t : State}
    (e : l.foldl (fun o n => o.bind (Machine.loadImageOf n)) o = some t) : t.Form := by
  induction l generalizing o with
  | nil => exact ho t e
  | cons n r ih =>
    refine ih (fun u hu => ?_) e
    obtain ⟨s, hs, hu⟩ := Option.bind_eq_some_iff.mp hu
    exact (ho s hs).loadImageOf hu

theorem State.Form.bootStep {s t : State} (h : s.Form) {n : Nat} (e : bootStep n s = some t) : t.Form := by
  unfold Machine.bootStep at e
  split at e
  · cases e
    exact h.measure _ _
  · obtain ⟨_, _, rfl⟩ := Option.map_eq_some_iff.mp e
    exact h.measure _ _
  · exact h.loadImageOf e
  · exact State.Form.loadImages _ (by rintro _ ⟨⟩; exact h) e
  · cases e
    exact (h.applyAll _ _).same
  · cases e
    exact ⟨h.1, by simp [Vd.reset]⟩
  · cases e
    exact h

theorem State.Form.bootNext {s : State} (h : s.Form) : (bootNext s).Form := by
  unfold Machine.bootNext
  split
  · split
    · exact h.same
    · next e => exact .ite (h.bootStep e).same (h.bootStep e)
  · exact h

theorem State.Form.execPowerGood {s : State} (h : s.Form) : FormAfter (execPowerGood s) := by
  unfold Machine.execPowerGood
  split
  · exact .next ((State.Form.coldState _ _).bootNext)
  · exact .next h

theorem State.Form.execThermalTrip {s : State} (h : s.Form) : FormAfter (execThermalTrip s) := by
  unfold Machine.execThermalTrip
  split
  · exact .next h.same
  · exact .next h.same
  · exact .next h

theorem State.Form.execFlashUpdateCommand {s : State} (h : s.Form) (slot : Nat) (img : FlashImage) :
    FormAfter (execFlashUpdateCommand slot img s) := by
  unfold Machine.execFlashUpdateCommand
  split
  · exact .next h
  · exact .ite (.next h.same) (.next h)

theorem State.Form.execConfigurationRequest {s : State} (h : s.Form) (fn reg : Nat) : FormAfter (execConfigurationRequest fn reg s) := by
  unfold Machine.execConfigurationRequest
  split
  · exact .next h.same
  · exact .next h.same
  · exact .next h

theorem State.Form.iteApply {c : Prop} {_ : Decidable c} {f g : State → State} {s : State} (hf : (f s).Form) (hg : (g s).Form) :
    ((if c then f else g) s).Form := by
  split
  · exact hf
  · exact hg

theorem State.Form.putOut {s : State} (h : s.Form) (p : SpdmPath) (msg : List Byte) : (putOut p msg s).Form :=
  h.same

theorem State.Form.sendSpdm {s : State} (h : s.Form) (p : SpdmPath) (req msg : List Byte) (f : Spdm → Spdm) :
    (sendSpdm p req msg f s).Form :=
  (h.putOut _ _).same

theorem State.Form.sendError {s : State} (h : s.Form) (p : SpdmPath) (e : Nat) : (sendError p e s).Form :=
  h.putOut _ _

theorem State.Form.spdmOp {s : State} (h : s.Form) (p : SpdmPath) {f : Spdm → State → State} (hf : ∀ x s, s.Form → (f x s).Form) :
    FormAfter (spdmOp p f s) := by
  unfold Machine.spdmOp
  split
  · exact .next h
  · exact .ite (.next (h.sendError _ _)) (.next (hf _ _ h))
  · exact .ite (.next h) (.ite (.next (h.sendError _ _)) (.next (hf _ _ h)))
  · exact .next (hf _ _ h)

theorem State.Form.execFinish {s : State} (h : s.Form) (iface : SpdmPath) (mac : BitVec 384) : FormAfter (execFinish iface mac s) := by
  refine h.spdmOp _ fun c _ hs => ?_
  cases c.session with
  | none => exact hs.sendError _ _
  | some k => exact .iteApply (hs.sendError _ _) (.iteApply (hs.sendSpdm _ _ _ _) (hs.same.sendError _ _))

/-! ### Debugging -/

theorem State.Form.debugOp {s : State} (h : s.Form) (cmd : Nat) {f : State → State × Nat} (hf : ∀ s, s.Form → (f s).1.Form) :
    FormAfter (debugOp cmd f s) := by
  unfold Machine.debugOp
  split
  · exact .next h
  · exact .ite (.next h) (.next ((State.Form.iteFst (hf _ h.same) h.same).same))

theorem State.Form.debugEach {s : State} (h : s.Form) (f : Context → Context) : (debugEach f s).1.Form :=
  State.Form.foldl (fun _ _ hs => hs.updCtx _ _ _) _ h

theorem State.Form.haltContext {s : State} (h : s.Form) (c x : Nat) : (haltContext c x s).Form :=
  (((h.stopLazy _ _).withdrawAll _ _).finishFixed _ _).updCtx _ _ _

theorem State.Form.writeFull {s : State} (h : s.Form) (c off : Nat) (v : W64) : (writeFull c off v s).Form :=
  State.Form.foldl (fun _ _ hs => .ite (.ite hs (hs.fill _ _)) (hs.setFull _ _ _)) _ h

theorem State.Form.execDebugWrite {s : State} (h : s.Form) : FormAfter (execDebugWrite s) := by
  unfold Machine.execDebugWrite
  refine h.debugOp _ (fun _ hs => .iteFst hs ?_)
  split
  · exact .iteFst hs (.iteFst hs ((State.Form.ite hs (hs.withdrawAll _ _)).updCtx _ _ _))
  · exact .iteFst hs (.iteFst (hs.spmWrite _ _ _) (.iteFst (hs.writeFull _ _ _)
      (hs.updCore _ fun _ hk => ⟨hk.1, Memory.wf_writeN _ _ hk.2⟩)))

/-! ### Integer members -/

theorem State.Form.int2 {s : State} (h : s.Form) (i : Instr) (st : BitVec 3) (w : BitVec 2) (d a b : BitVec 5) (lat : Option Nat)
    (f : W64 → W64 → W64) : FormAfter (int2 i st w d a b lat f s) :=
  h.compute _ _ _ _ _ _

theorem State.Form.int1 {s : State} (h : s.Form) (i : Instr) (st : BitVec 3) (w : BitVec 2) (d a : BitVec 5) (f : W64 → W64) :
    FormAfter (int1 i st w d a f s) :=
  h.compute _ _ _ _ _ _

/-! ### Links and packets -/

theorem State.Form.takeSeq {s : State} (h : s.Form) (p : Packet) : (takeSeq p s).Form :=
  h.same

theorem State.Form.dropReqs {s : State} (h : s.Form) (f : RemoteReq → Bool) : (dropReqs f s).Form :=
  h.same

theorem State.Form.acknowledged {s : State} (h : s.Form) (r : RemoteReq) : (acknowledged r s).Form := by
  unfold Machine.acknowledged
  refine .ite (h.dropReqs _) ?_
  split
  · exact ((h.dropReqs _).updCtx _ _ _).drain _ _
  · exact (h.dropReqs _).engineAck _ _
  · exact h.dropReqs _

theorem State.Form.fillPart {s : State} (h : s.Form) (r : RemoteReq) (v : BitVec 512) : (fillPart r v s).Form :=
  .ite (h.fillFar _ _ _ _) h

theorem State.Form.answered {s : State} (h : s.Form) (r : RemoteReq) (v : BitVec 512) : (answered r v s).Form := by
  unfold Machine.answered
  refine .ite (h.dropReqs _) ?_
  split
  · exact (((h.dropReqs _).fillPart _ _).asContext _ _ (fun _ hs => hs.answerPart _ _)).drain _ _
  · exact (h.dropReqs _).updCtx _ _ _
  · exact .ite (h.dropReqs _) ((h.dropReqs _).fillLine _ _ _)
  · exact (h.dropReqs _).engineLine _ _ _
  · exact h.dropReqs _

theorem State.Form.loseRequest {s : State} (h : s.Form) (r : RemoteReq) : (loseRequest r s).Form := by
  unfold Machine.loseRequest
  split
  · exact .ite h ((h.errorRecord _ _ _ _ _ _ _ _).asContext _ _ (fun _ hs => hs.failPart _ _))
  · exact .ite (h.interrupt _ _) ((h.interrupt _ _).updCtx _ _ _)
  · exact .ite h ((h.interrupt _ _).engineAck _ _)
  · exact h.interrupt _ _
  · exact h
  · exact h

theorem State.Form.dropPackage {s : State} (h : s.Form) (q : Nat) : (dropPackage q s).Form :=
  State.Form.foldl (fun _ _ hs => hs.loseRequest _) _ (h.dropReqs _)

theorem State.Form.loseLink {s : State} (h : s.Form) (q : Nat) : (loseLink q s).Form :=
  .ite h ((h.same.dropPackage _).losePackage _)

theorem State.Form.wakePort {s : State} (h : s.Form) (p : Packet) : (wakePort p s).Form :=
  .ite h h.same

theorem State.Form.receive {s : State} (h : s.Form) (vc : Nat) (p : Packet) {f : State → State} (hf : ∀ s, s.Form → (f s).Form) :
    FormAfter (receive vc p f s) :=
  .ite (.next (h.wakePort _)) (.ite (.ite (.next ((h.wakePort _).loseLink _)) (.next ((h.wakePort _).same)))
    (.next (hf _ ((h.wakePort _).takeSeq _))))

theorem State.Form.packetWrite {s : State} (h : s.Form) (vd : Nat) (p : Packet) (bs : List (Place × Byte)) :
    (packetWrite vd p bs s).Form :=
  (State.Form.foldl (fun _ _ hs => hs.post _ _ _ _ _ _) _ ((h.wakeBanks _).same)).settlePlaces _

theorem State.Form.atHome {s : State} (h : s.Form) (right : Perm → Bool) (len : Nat) (op : BankOp) (p : Packet) :
    FormAfter (Machine.atHome right len op p s) := by
  unfold Machine.atHome
  split
  · exact h.receive _ _ (fun _ hs => hs.refuse _)
  · split
    · exact h.receive _ _ (fun _ hs => hs.arriveRead _ _ _)
    · exact h.receive _ _ (fun _ hs => hs.packetWrite _ _ _)
    · exact .ite (h.receive _ _ (fun _ hs => hs.same.arrive _ _ _ _ _ _)) (.ite (h.receive _ _ (fun _ hs => hs.serveAt _ _))
        (.next (.ite ((h.wakePort _).askWindow _ _) (h.wakePort _))))

theorem State.Form.execAtomic {s : State} (h : s.Form) (p : Packet) : FormAfter (execAtomic p s) := by
  unfold Machine.execAtomic
  cases p.op with
  | atom op expected => exact h.atHome _ _ _ _
  | upd _ _ => exact h.receive _ _ fun _ hs => hs.refuse _
  | none => exact h.receive _ _ fun _ hs => hs.refuse _

theorem State.Form.execUpdate {s : State} (h : s.Form) (p : Packet) : FormAfter (execUpdate p s) := by
  unfold Machine.execUpdate
  cases p.op with
  | upd t op => exact h.atHome _ _ _ _
  | atom _ _ => exact h.receive _ _ fun _ hs => hs.refuse _
  | none => exact h.receive _ _ fun _ hs => hs.refuse _

theorem State.Form.valueArrives {s : State} (h : s.Form) (p : Packet) : FormAfter (valueArrives p s) := by
  unfold Machine.valueArrives
  refine h.receive _ _ (fun _ hs => ?_)
  split
  · exact hs
  · exact hs.answered _ _

theorem State.Form.execAck {s : State} (h : s.Form) (p : Packet) : FormAfter (execAck p s) := by
  unfold Machine.execAck
  refine h.receive _ _ (fun _ hs => ?_)
  split
  · exact hs
  · exact hs.acknowledged _

theorem State.Form.execNack {s : State} (h : s.Form) (p : Packet) : FormAfter (execNack p s) := by
  unfold Machine.execNack
  refine h.receive _ _ (fun _ hs => ?_)
  split
  · exact hs
  · exact .ite (hs.dropReqs _) (.ite ((hs.errorRecord _ _ _ _ _ _ _ _).answered _ _) ((hs.errorRecord _ _ _ _ _ _ _ _).acknowledged _))

/-! ### Accesses from outside -/

theorem State.Form.ringDoorbell {s : State} (h : s.Form) (vd q : Nat) (va : W64) : (ringDoorbell vd q va s).Form :=
  .ite h ((h.submit _ _ _).updVd _ (by exact fun _ => id))

theorem State.Form.answer {s : State} (h : s.Form) (v : W64) : (answer v s).Form :=
  h.same

theorem State.Form.answerOpen {s : State} (h : s.Form) : (answerOpen s).Form :=
  (h.answer _).same

theorem State.Form.outsideHome {s : State} (h : s.Form) (vd : Nat) (wr : Bool) (ps : List Place) (data : W64) :
    (outsideHome vd wr ps data s).Form :=
  .ite (h.same.arriveWrite _ _ _ _) (h.arriveRead _ _ _)

theorem State.Form.outsideMgmt {s : State} (h : s.Form) (wr : Bool) (off len : Nat) (data : W64) : (outsideMgmt wr off len data s).Form :=
  .ite (h.mgmtStore _ _) (h.answer _)

theorem State.Form.apertureAccess {s : State} (h : s.Form) (vd : Nat) (wr : Bool) (va len : Nat) (data : W64) :
    (apertureAccess vd wr va len data s).Form := by
  unfold Machine.apertureAccess
  split
  · next _ _ e0 =>
    refine .ite (.ite ((((h.walkRange _ _ _ _ _).of_fst e0).sendPacket _ _ _).same) ((((h.walkRange _ _ _ _ _).of_fst e0).answer _).same))
      ?_
    split
    · exact ((h.walkRange _ _ _ _ _).of_fst e0).outsideMgmt _ _ _ _
    · exact ((h.walkRange _ _ _ _ _).of_fst e0).outsideHome _ _ _ _
  · next _ _ e0 =>
    exact (h.walkRange _ _ _ _ _).of_fst e0
  · next _ _ e0 =>
    exact .ite ((h.walkRange _ _ _ _ _).of_fst e0) (((h.walkRange _ _ _ _ _).of_fst e0).answerOpen)

theorem State.Form.readResult {s : State} (h : s.Form) (vd q : Nat) : (readResult vd q s).Form :=
  .ite (h.answer _) h

theorem State.Form.readManage {s : State} (h : s.Form) (off : Nat) : (readManage off s).Form :=
  .ite (h.answer _) h

theorem State.Form.enableMsix {s : State} (h : s.Form) (vd : Nat) (on : Bool) : (enableMsix vd on s).Form :=
  .ite h h.same

theorem State.Form.physAccess {s : State} (h : s.Form) (wr : Bool) (pa len : Nat) (data : W64) : (physAccess wr pa len data s).Form := by
  unfold Machine.physAccess
  split
  · exact h.outsideHome _ _ _ _
  · exact .ite h h.answerOpen

theorem State.Form.execApplicationCoreAccess {s : State} (h : s.Form) (op : AppOp) : FormAfter (execApplicationCoreAccess op s) := by
  unfold Machine.execApplicationCoreAccess
  split
  · refine .ite (.next h) ?_
    split
    · exact .next (h.outsideMgmt _ _ _ _)
    · exact .next (h.physAccess _ _ _ _)
  · refine .ite (.next h) ?_
    split
    · exact .next (h.outsideMgmt _ _ _ _)
    · exact .next (h.physAccess _ _ _ _)
  · exact .next (h.whenServed (fun _ hs => hs.ringDoorbell _ _ _))

/-! ### Pointers -/

theorem State.Form.ptrOp {s : State} (h : s.Form) (i : Instr) (st : BitVec 3) (d a : BitVec 5) (b : Option (BitVec 5))
    (bad : W64 → W64 → Bool) (f : W64 → W64 → W64) : FormAfter (ptrOp i st d a b bad f s) :=
  .issue (.bind (prepare_form _ _ _) fun _ => .upd fun _ hs => (hs.consume _).deliver _ _ _) h

theorem State.Form.ptrGet {s : State} (h : s.Form) (i : Instr) (st : BitVec 3) (d a : BitVec 5) (f : W64 → W64) :
    FormAfter (ptrGet i st d a f s) :=
  h.compute _ _ _ _ _ _

/-! ### Vectors and floats -/

theorem State.Form.viOp {s : State} (h : s.Form) (i : Instr) (st : BitVec 3) (d a b : BitVec 5) (e : BitVec 2)
    (f : (w : Nat) → BitVec w → BitVec w → BitVec w) : FormAfter (viOp i st d a b e f s) :=
  h.compute _ _ _ _ _ _

theorem State.Form.computeF {s : State} (h : s.Form) (i : Instr) (stall : Nat) (srcs : List Opnd) (d : Opnd) (lat : Nat)
    (mode : Context → Nat) (n : Nat) (f : Context → List (List W64) → List W64 × Fl) :
    FormAfter (computeF i stall srcs d lat mode n f s) := by
  unfold Machine.computeF
  refine .issue (.bind (ready_form _ _ _) fun _ => .upd fun _ hs => ?_) h
  split
  · exact (((hs.spmRecord _ _).consume _).deliverBad _ _).useWords _ _
  · exact (((hs.consume _).deliver _ _ _).raiseFlags _).useWords _ _

theorem State.Form.vfOp {s : State} (h : s.Form) (i : Instr) (st : BitVec 3) (srcs : List Opnd) (d : BitVec 5) (t : BitVec 2) (lat : Nat)
    (rounds : Bool) (f : FloatFmt → Rnd → Nat → Nat → Nat → Nat × Fl) : FormAfter (vfOp i st srcs d t lat rounds f s) :=
  h.computeF _ _ _ _ _ _ _ _

theorem State.Form.vxOp {s : State} (h : s.Form) (i : Instr) (st : BitVec 3) (srcs : List Opnd) (d : BitVec 5) (w : Nat)
    (lat : Option Nat) (f : List Nat → List Nat → Nat → List Nat) : FormAfter (vxOp i st srcs d w lat f s) :=
  h.compute _ _ _ _ _ _

theorem State.Form.cvtOp {s : State} (h : s.Form) (i : Instr) (st : BitVec 3) (d a x y : BitVec 5) (t : BitVec 1) (mode : Context → Nat) :
    FormAfter (cvtOp i st d a x y t mode s) :=
  h.computeF _ _ _ _ _ _ _ _

theorem State.Form.sfOp {s : State} (h : s.Form) (i : Instr) (st : BitVec 3) (srcs : List Opnd) (d : BitVec 5) (rounds : Bool)
    (f : Rnd → Nat → Nat → Nat × Fl) : FormAfter (sfOp i st srcs d rounds f s) :=
  h.computeF _ _ _ _ _ _ _ _

/-! ### Special functions -/

theorem State.Form.enqueueSfu {s : State} (h : s.Form) (v : List W64) : (enqueueSfu v s).Form :=
  (h.updHere (by exact fun _ => id)).same

theorem State.Form.sfuOp {s : State} (h : s.Form) (g : SfuFn) (i : Instr) (st : BitVec 3) (d a : BitVec 5) (t : BitVec 1) :
    FormAfter (sfuOp g i st d a t s) :=
  .issue (.get fun _ _ => .bind (.waitIf _ _) fun _ => .bind (prepare_form _ _ _) fun _ => .upd fun _ hs1 =>
    (((hs1.consume _).deliver _ _ _).enqueueSfu _).raiseFlags _) h

end Sys2Proof.Machine

end

section
/-! PROOFS. Every step keeps the form of memory (O59) -/

namespace Sys2Proof.Machine

/-! ### Every instruction and every event -/

/-- The meanings of the instructions are known by their equations, so that no case unfolds the dispatch. -/
theorem FormAfter.of_eq {o o' : Out} (e : o = o') (h : FormAfter o') : FormAfter o :=
  e ▸ h

theorem State.Form.exec {s : State} (h : s.Form) (i : Instr) : FormAfter (exec i s) :=
  match i with
  | .add .. => .of_eq (exec_add ..) (h.int2 _ _ _ _ _ _ _ _)
  | .sub .. => .of_eq (exec_sub ..) (h.int2 _ _ _ _ _ _ _ _)
  | .and .. => .of_eq (exec_and ..) (h.int2 _ _ _ _ _ _ _ _)
  | .or .. => .of_eq (exec_or ..) (h.int2 _ _ _ _ _ _ _ _)
  | .xor .. => .of_eq (exec_xor ..) (h.int2 _ _ _ _ _ _ _ _)
  | .andn .. => .of_eq (exec_andn ..) (h.int2 _ _ _ _ _ _ _ _)
  | .orn .. => .of_eq (exec_orn ..) (h.int2 _ _ _ _ _ _ _ _)
  | .shl .. => .of_eq (exec_shl ..) (h.int2 _ _ _ _ _ _ _ _)
  | .shr .. => .of_eq (exec_shr ..) (h.int2 _ _ _ _ _ _ _ _)
  | .sar .. => .of_eq (exec_sar ..) (h.int2 _ _ _ _ _ _ _ _)
  | .rol .. => .of_eq (exec_rol ..) (h.int2 _ _ _ _ _ _ _ _)
  | .ror .. => .of_eq (exec_ror ..) (h.int2 _ _ _ _ _ _ _ _)
  | .mul .. => .of_eq (exec_mul ..) (h.int2 _ _ _ _ _ _ _ _)
  | .mulh .. => .of_eq (exec_mulh ..) (h.int2 _ _ _ _ _ _ _ _)
  | .mulhu .. => .of_eq (exec_mulhu ..) (h.int2 _ _ _ _ _ _ _ _)
  | .div .. => .of_eq (exec_div ..) (h.int2 _ _ _ _ _ _ _ _)
  | .divu .. => .of_eq (exec_divu ..) (h.int2 _ _ _ _ _ _ _ _)
  | .rem .. => .of_eq (exec_rem ..) (h.int2 _ _ _ _ _ _ _ _)
  | .remu .. => .of_eq (exec_remu ..) (h.int2 _ _ _ _ _ _ _ _)
  | .min .. => .of_eq (exec_min ..) (h.int2 _ _ _ _ _ _ _ _)
  | .max .. => .of_eq (exec_max ..) (h.int2 _ _ _ _ _ _ _ _)
  | .minu .. => .of_eq (exec_minu ..) (h.int2 _ _ _ _ _ _ _ _)
  | .maxu .. => .of_eq (exec_maxu ..) (h.int2 _ _ _ _ _ _ _ _)
  | .ceq .. => .of_eq (exec_ceq ..) (h.int2 _ _ _ _ _ _ _ _)
  | .cne .. => .of_eq (exec_cne ..) (h.int2 _ _ _ _ _ _ _ _)
  | .clt .. => .of_eq (exec_clt ..) (h.int2 _ _ _ _ _ _ _ _)
  | .cltu .. => .of_eq (exec_cltu ..) (h.int2 _ _ _ _ _ _ _ _)
  | .cle .. => .of_eq (exec_cle ..) (h.int2 _ _ _ _ _ _ _ _)
  | .cleu .. => .of_eq (exec_cleu ..) (h.int2 _ _ _ _ _ _ _ _)
  | .sel .. => .of_eq (exec_sel ..) (h.compute _ _ _ _ _ _)
  | .clz .. => .of_eq (exec_clz ..) (h.int1 _ _ _ _ _ _)
  | .ctz .. => .of_eq (exec_ctz ..) (h.int1 _ _ _ _ _ _)
  | .popc .. => .of_eq (exec_popc ..) (h.int1 _ _ _ _ _ _)
  | .brev .. => .of_eq (exec_brev ..) (h.int1 _ _ _ _ _ _)
  | .bswap .. => .of_eq (exec_bswap ..) (h.int1 _ _ _ _ _ _)
  | .mov .. => .of_eq (exec_mov ..) (h.compute _ _ _ _ _ _)
  | .addi .. => .of_eq (exec_addi ..) (h.int1 _ _ _ _ _ _)
  | .andi .. => .of_eq (exec_andi ..) (h.int1 _ _ _ _ _ _)
  | .ori .. => .of_eq (exec_ori ..) (h.int1 _ _ _ _ _ _)
  | .xori .. => .of_eq (exec_xori ..) (h.int1 _ _ _ _ _ _)
  | .shli .. => .of_eq (exec_shli ..) (h.int1 _ _ _ _ _ _)
  | .shri .. => .of_eq (exec_shri ..) (h.int1 _ _ _ _ _ _)
  | .sari .. => .of_eq (exec_sari ..) (h.int1 _ _ _ _ _ _)
  | .roli .. => .of_eq (exec_roli ..) (h.int1 _ _ _ _ _ _)
  | .ceqi .. => .of_eq (exec_ceqi ..) (h.int1 _ _ _ _ _ _)
  | .clti .. => .of_eq (exec_clti ..) (h.int1 _ _ _ _ _ _)
  | .cltui .. => .of_eq (exec_cltui ..) (h.int1 _ _ _ _ _ _)
  | .bfx .. => .of_eq (exec_bfx ..) (h.compute _ _ _ _ _ _)
  | .bfi .. => .of_eq (exec_bfi ..) (h.compute _ _ _ _ _ _)
  | .ldk .. => .of_eq (exec_ldk ..) (h.compute _ _ _ _ _ _)
  | .ldkh .. => .of_eq (exec_ldkh ..) (h.compute _ _ _ _ _ _)
  | .adpc .. => .of_eq (exec_adpc ..) (h.compute _ _ _ _ _ _)
  | .padd .. => .of_eq (exec_padd ..) (h.ptrOp _ _ _ _ _ _ _)
  | .padde .. => .of_eq (exec_padde ..) (h.ptrOp _ _ _ _ _ _ _)
  | .psube .. => .of_eq (exec_psube ..) (.issue (.bind (prepare_form _ _ _) fun _ => .upd fun _ hs => (hs.consume _).deliver _ _ _) h)
  | .pfmt .. => .of_eq (exec_pfmt ..) (h.ptrOp _ _ _ _ _ _ _)
  | .pgetf .. => .of_eq (exec_pgetf ..) (h.ptrGet _ _ _ _ _)
  | .pgetb .. => .of_eq (exec_pgetb ..) (h.ptrGet _ _ _ _ _)
  | .pset .. => .of_eq (exec_pset ..) (h.ptrOp _ _ _ _ _ _ _)
  | .pstr .. => .of_eq (exec_pstr ..) (.issue (.bind (prepare_form _ _ _) fun _ => .upd fun _ hs => (hs.consume _).updMe _) h)
  | .pgeta .. => .of_eq (exec_pgeta ..) (h.ptrGet _ _ _ _ _)
  | .paddi .. => .of_eq (exec_paddi ..) (h.ptrOp _ _ _ _ _ _ _)
  | .br .. =>
    .of_eq (exec_br ..) (.issue (.bind (prepare_form _ _ _) fun _ => .upd fun _ hs => .ite ((hs.consume _).jumpTo _) (hs.consume _)) h)
  | .jmp .. => .of_eq (exec_jmp ..) (.issue (.upd fun _ hs => hs.jumpTo _) h)
  | .call .. => .of_eq (exec_call ..) (.issue (.upd fun _ hs => hs.link.jumpTo _) h)
  | .jmpi .. => .of_eq (exec_jmpi ..) (h.jumpReg _ _ _ _)
  | .calli .. => .of_eq (exec_calli ..) (h.jumpReg _ _ _ _)
  | .ret .. => .of_eq (exec_ret ..) (h.jumpReg _ _ _ _)
  | .loop .. => .of_eq (exec_loop ..) (h.execLoop _ _ _)
  | .rep .. => .of_eq (exec_rep ..) (h.execRep _ _ _)
  | .start .. => .of_eq (exec_start ..) (h.execStart _ _ _ _)
  | .halt .. => .of_eq (exec_halt ..) (h.execHalt _)
  | .joinh .. => .of_eq (exec_joinh ..) (h.execJoinh _ _)
  | .yield .. => .of_eq (exec_yield ..) (.issue (.upd fun _ hs => hs.updMe _) h)
  | .saveh .. => .of_eq (exec_saveh ..) (h.execSaveh _ _ _ _)
  | .loadh .. => .of_eq (exec_loadh ..) (h.execLoadh _ _ _ _)
  | .resumeh .. => .of_eq (exec_resumeh ..) (h.execResumeh _ _ _)
  | .killh .. => .of_eq (exec_killh ..) (h.execKillh _ _ _)
  | .hstat .. => .of_eq (exec_hstat ..) (h.compute _ _ _ _ _ _)
  | .upret .. => .of_eq (exec_upret ..) (h.execUpret _)
  | .nop .. => .of_eq (exec_nop ..) (.issue (.pure _) h)
  | .trap .. =>
    .of_eq (exec_trap ..) (.issue (.bind (prepare_form _ _ _) fun _ => .upd fun _ hs => ((hs.consume _).takeTrap _ _ _).same) h)
  | .eret .. => .of_eq (exec_eret ..) (.issue (.upd fun _ hs => hs.returnFromTrap) h)
  | .gets .. => .of_eq (exec_gets ..) (h.execGets _ _ _)
  | .puts .. => .of_eq (exec_puts ..) (h.execPuts _ _ _)
  | .fence .. =>
    .of_eq (exec_fence ..) (.issue (.get fun _ _ => .bind (.waitIf _ _) fun _ => .upd fun _ hs1 => .ite (hs1.dropFar _) hs1) h)
  | .ifence .. => .of_eq (exec_ifence ..) (.issue (.upd fun _ hs => (hs.updHere (by exact fun _ => id)).staleFetches _) h)
  | .waita .. => .of_eq (exec_waita ..) (h.execWaita _ _ _ _)
  | .fflag .. => .of_eq (exec_fflag ..) (h.execFflag _ _ _)
  | .brk .. => .of_eq (exec_brk ..) (.issue (.of fun _ _ => .ite trivial trivial) h)
  | .sleepr .. => .of_eq (exec_sleepr ..) (h.execSleepr _ _)
  | .tinv .. => .of_eq (exec_tinv ..) (h.execTinv _ _ _)
  | .ld .. => .of_eq (exec_ld ..) (h.globalLoad _ _ _ _ _ _ _ _ _ _ _)
  | .st .. => .of_eq (exec_st ..) (h.globalStore _ _ _ _ _ _ _ _ _)
  | .ldl .. => .of_eq (exec_ldl ..) (h.localLoad _ _ _ _ _ _ _ _ _ _)
  | .ldlAcq .. => .of_eq (exec_ldlAcq ..) (h.localLoad _ _ _ _ _ _ _ _ _ _)
  | .ldf .. => .of_eq (exec_ldf ..) (h.feLoad _ _ _ _ _ _)
  | .ldfe .. => .of_eq (exec_ldfe ..) (h.feLoad _ _ _ _ _ _)
  | .stl .. => .of_eq (exec_stl ..) (h.localStore _ _ _ _ _ _ _ _ _ _)
  | .stlRel .. => .of_eq (exec_stlRel ..) (h.localStore _ _ _ _ _ _ _ _ _ _)
  | .stf .. => .of_eq (exec_stf ..) (h.localStore _ _ _ _ _ _ _ _ _ _)
  | .ste .. => .of_eq (exec_ste ..) (h.localStore _ _ _ _ _ _ _ _ _ _)
  | .ldv .. => .of_eq (exec_ldv ..) (h.execLdv _ _ _ _ _ _)
  | .stv .. => .of_eq (exec_stv ..) (h.execStv _ _ _ _ _ _)
  | .ldx .. => .of_eq (exec_ldx ..) (h.execLdx _ _ _ _ _ _)
  | .stx .. => .of_eq (exec_stx ..) (h.execStx _ _ _ _ _ _ _)
  | .pref .. => .of_eq (exec_pref ..) (h.execPref _ _ _ _)
  | .atomFadd .. => .of_eq (exec_atomFadd ..) (h.atomOp _ _ _ _ _ _ _)
  | .atomFand .. => .of_eq (exec_atomFand ..) (h.atomOp _ _ _ _ _ _ _)
  | .atomFor .. => .of_eq (exec_atomFor ..) (h.atomOp _ _ _ _ _ _ _)
  | .atomFxor .. => .of_eq (exec_atomFxor ..) (h.atomOp _ _ _ _ _ _ _)
  | .atomFmin .. => .of_eq (exec_atomFmin ..) (h.atomOp _ _ _ _ _ _ _)
  | .atomFmax .. => .of_eq (exec_atomFmax ..) (h.atomOp _ _ _ _ _ _ _)
  | .atomFminu .. => .of_eq (exec_atomFminu ..) (h.atomOp _ _ _ _ _ _ _)
  | .atomFmaxu .. => .of_eq (exec_atomFmaxu ..) (h.atomOp _ _ _ _ _ _ _)
  | .atomSwap .. => .of_eq (exec_atomSwap ..) (h.atomOp _ _ _ _ _ _ _)
  | .atomCas .. => .of_eq (exec_atomCas ..) (h.atomOp _ _ _ _ _ _ _)
  | .updAdd .. => .of_eq (exec_updAdd ..) (h.updOp _ _ _ _ _ _)
  | .updMin .. => .of_eq (exec_updMin ..) (h.updOp _ _ _ _ _ _)
  | .updMax .. => .of_eq (exec_updMax ..) (h.updOp _ _ _ _ _ _)
  | .updAmax .. => .of_eq (exec_updAmax ..) (h.updOp _ _ _ _ _ _)
  | .updAnd .. => .of_eq (exec_updAnd ..) (h.updOp _ _ _ _ _ _)
  | .updOr .. => .of_eq (exec_updOr ..) (h.updOp _ _ _ _ _ _)
  | .updXor .. => .of_eq (exec_updXor ..) (h.updOp _ _ _ _ _ _)
  | .pbind .. => .of_eq (exec_pbind ..) (.issue (.bind (prepare_form _ _ _) fun _ => .upd fun _ hs => (hs.consume _).bind _ _) h)
  | .pstat .. => .of_eq (exec_pstat ..) (h.compute _ _ _ _ _ _)
  | .pdrain .. => .of_eq (exec_pdrain ..) (h.execPdrain _ _ _)
  | .pord .. => .of_eq (exec_pord ..) (.issue (.bind (prepare_form _ _ _) fun _ => .get fun _ _ => .waitIf _ _) h)
  | .bar .. => .of_eq (exec_bar ..) (h.execBar _ _)
  | .bara .. => .of_eq (exec_bara ..) (h.execBara _ _ _)
  | .barw .. => .of_eq (exec_barw ..) (h.execBarw _ _ _)
  | .elect .. =>
    .of_eq (exec_elect ..) (.issue (.bind (prepare_form _ _ _) fun _ => .upd fun _ hs => ((hs.consume _).updTracker _ _).deliver _ _ _) h)
  | .gidx .. => .of_eq (exec_gidx ..) (.issue (.bind (prepare_form _ _ _) fun _ => .upd fun _ hs => (hs.consume _).deliver _ _ _) h)
  | .gsize .. => .of_eq (exec_gsize ..) (.issue (.bind (prepare_form _ _ _) fun _ => .upd fun _ hs => (hs.consume _).deliver _ _ _) h)
  | .vadd .. => .of_eq (exec_vadd ..) (h.viOp _ _ _ _ _ _ _)
  | .vsub .. => .of_eq (exec_vsub ..) (h.viOp _ _ _ _ _ _ _)
  | .vmul .. => .of_eq (exec_vmul ..) (h.viOp _ _ _ _ _ _ _)
  | .vmin .. => .of_eq (exec_vmin ..) (h.viOp _ _ _ _ _ _ _)
  | .vmax .. => .of_eq (exec_vmax ..) (h.viOp _ _ _ _ _ _ _)
  | .vminu .. => .of_eq (exec_vminu ..) (h.viOp _ _ _ _ _ _ _)
  | .vmaxu .. => .of_eq (exec_vmaxu ..) (h.viOp _ _ _ _ _ _ _)
  | .vand .. => .of_eq (exec_vand ..) (h.viOp _ _ _ _ _ _ _)
  | .vor .. => .of_eq (exec_vor ..) (h.viOp _ _ _ _ _ _ _)
  | .vxor .. => .of_eq (exec_vxor ..) (h.viOp _ _ _ _ _ _ _)
  | .vshl .. => .of_eq (exec_vshl ..) (h.viOp _ _ _ _ _ _ _)
  | .vshr .. => .of_eq (exec_vshr ..) (h.viOp _ _ _ _ _ _ _)
  | .vsar .. => .of_eq (exec_vsar ..) (h.viOp _ _ _ _ _ _ _)
  | .vceq .. => .of_eq (exec_vceq ..) (h.viOp _ _ _ _ _ _ _)
  | .vclt .. => .of_eq (exec_vclt ..) (h.viOp _ _ _ _ _ _ _)
  | .vcltu .. => .of_eq (exec_vcltu ..) (h.viOp _ _ _ _ _ _ _)
  | .vfadd .. => .of_eq (exec_vfadd ..) (h.vfOp _ _ _ _ _ _ _ _)
  | .vfsub .. => .of_eq (exec_vfsub ..) (h.vfOp _ _ _ _ _ _ _ _)
  | .vfmul .. => .of_eq (exec_vfmul ..) (h.vfOp _ _ _ _ _ _ _ _)
  | .vfma .. => .of_eq (exec_vfma ..) (h.vfOp _ _ _ _ _ _ _ _)
  | .vfmin .. => .of_eq (exec_vfmin ..) (h.vfOp _ _ _ _ _ _ _ _)
  | .vfmax .. => .of_eq (exec_vfmax ..) (h.vfOp _ _ _ _ _ _ _ _)
  | .vfabs .. => .of_eq (exec_vfabs ..) (h.vfOp _ _ _ _ _ _ _ _)
  | .vfneg .. => .of_eq (exec_vfneg ..) (h.vfOp _ _ _ _ _ _ _ _)
  | .vfceq .. => .of_eq (exec_vfceq ..) (h.vfOp _ _ _ _ _ _ _ _)
  | .vfclt .. => .of_eq (exec_vfclt ..) (h.vfOp _ _ _ _ _ _ _ _)
  | .vfcle .. => .of_eq (exec_vfcle ..) (h.vfOp _ _ _ _ _ _ _ _)
  | .vfrnd .. => .of_eq (exec_vfrnd ..) (h.vfOp _ _ _ _ _ _ _ _)
  | .vfscl .. => .of_eq (exec_vfscl ..) (h.vfOp _ _ _ _ _ _ _ _)
  | .vfcls .. => .of_eq (exec_vfcls ..) (h.vfOp _ _ _ _ _ _ _ _)
  | .vsplat .. => .of_eq (exec_vsplat ..) (h.vxOp _ _ _ _ _ _ _)
  | .vext .. => .of_eq (exec_vext ..) (h.compute _ _ _ _ _ _)
  | .vins .. => .of_eq (exec_vins ..) (h.vxOp _ _ _ _ _ _ _)
  | .vshuf .. => .of_eq (exec_vshuf ..) (h.vxOp _ _ _ _ _ _ _)
  | .vrev .. => .of_eq (exec_vrev ..) (h.vxOp _ _ _ _ _ _ _)
  | .vzip .. => .of_eq (exec_vzip ..) (h.vxOp _ _ _ _ _ _ _)
  | .vunz .. => .of_eq (exec_vunz ..) (h.vxOp _ _ _ _ _ _ _)
  | .vsumh .. => .of_eq (exec_vsumh ..) (h.vxOp _ _ _ _ _ _ _)
  | .vmaxh .. => .of_eq (exec_vmaxh ..) (h.vxOp _ _ _ _ _ _ _)
  | .vamaxh .. => .of_eq (exec_vamaxh ..) (h.vxOp _ _ _ _ _ _ _)
  | .vsel .. => .of_eq (exec_vsel ..) (h.vxOp _ _ _ _ _ _ _)
  | .vabs .. => .of_eq (exec_vabs ..) (h.vxOp _ _ _ _ _ _ _)
  | .vdot4 .. => .of_eq (exec_vdot4 ..) (h.compute _ _ _ _ _ _)
  | .vmov .. => .of_eq (exec_vmov ..) (h.compute _ _ _ _ _ _)
  | .vcvt .. => .of_eq (exec_vcvt ..) (h.cvtOp _ _ _ _ _ _ _ _)
  | .vcvts .. => .of_eq (exec_vcvts ..) (h.cvtOp _ _ _ _ _ _ _ _)
  | .frcp .. => .of_eq (exec_frcp ..) (h.sfuOp _ _ _ _ _ _)
  | .frsq .. => .of_eq (exec_frsq ..) (h.sfuOp _ _ _ _ _ _)
  | .fsqrt .. => .of_eq (exec_fsqrt ..) (h.sfuOp _ _ _ _ _ _)
  | .fexp2 .. => .of_eq (exec_fexp2 ..) (h.sfuOp _ _ _ _ _ _)
  | .flog2 .. => .of_eq (exec_flog2 ..) (h.sfuOp _ _ _ _ _ _)
  | .fsinp .. => .of_eq (exec_fsinp ..) (h.sfuOp _ _ _ _ _ _)
  | .fcosp .. => .of_eq (exec_fcosp ..) (h.sfuOp _ _ _ _ _ _)
  | .ftanh .. => .of_eq (exec_ftanh ..) (h.sfuOp _ _ _ _ _ _)
  | .ferf .. => .of_eq (exec_ferf ..) (h.sfuOp _ _ _ _ _ _)
  | .fadd .. => .of_eq (exec_fadd ..) (h.sfOp _ _ _ _ _ _)
  | .fsub .. => .of_eq (exec_fsub ..) (h.sfOp _ _ _ _ _ _)
  | .fmul .. => .of_eq (exec_fmul ..) (h.sfOp _ _ _ _ _ _)
  | .fmin .. => .of_eq (exec_fmin ..) (h.sfOp _ _ _ _ _ _)
  | .fmax .. => .of_eq (exec_fmax ..) (h.sfOp _ _ _ _ _ _)
  | .fabs .. => .of_eq (exec_fabs ..) (h.sfOp _ _ _ _ _ _)
  | .fceq .. => .of_eq (exec_fceq ..) (h.sfOp _ _ _ _ _ _)
  | .fclt .. => .of_eq (exec_fclt ..) (h.sfOp _ _ _ _ _ _)
  | .fcle .. => .of_eq (exec_fcle ..) (h.sfOp _ _ _ _ _ _)
  | .fcvti .. => .of_eq (exec_fcvti ..) (h.sfOp _ _ _ _ _ _)
  | .fcvtf .. => .of_eq (exec_fcvtf ..) (h.sfOp _ _ _ _ _ _)
  | .fcvtw .. => .of_eq (exec_fcvtw ..) (h.sfOp _ _ _ _ _ _)
  | .zdraw .. => .of_eq (exec_zdraw ..) (.issue (.bind (prepare_form _ _ _) fun _ => .upd fun _ hs => (hs.consume _).setLazy _ _) h)
  | .zltq .. => .of_eq (exec_zltq ..) (h.lazyOp _ _ _ _ _ _ _ _ _)
  | .zltf .. => .of_eq (exec_zltf ..) (h.lazyOp _ _ _ _ _ _ _ _ _)
  | .zltz .. => .of_eq (exec_zltz ..) (h.execZltz _ _ _ _)
  | .zfloor .. => .of_eq (exec_zfloor ..) (h.lazyOp _ _ _ _ _ _ _ _ _)
  | .zext .. => .of_eq (exec_zext ..) (h.execZext _ _ _)
  | .zlen .. => .of_eq (exec_zlen ..) (h.compute _ _ _ _ _ _)
  | .zbits .. => .of_eq (exec_zbits ..) (h.compute _ _ _ _ _ _)
  | .zmov .. => .of_eq (exec_zmov ..) (.issue (.upd fun _ hs => hs.setLazy _ _) h)
  | .zld .. => .of_eq (exec_zld ..) (h.execZld _ _ _)
  | .zst .. => .of_eq (exec_zst ..) (.issue (.bind (prepare_form _ _ _) fun _ => .upd fun _ hs => (hs.consume _).storeCluster _ _ _ _) h)
  | .sbind .. => .of_eq (exec_sbind ..) (h.execSbind _ _ _)
  | .sfree .. => .of_eq (exec_sfree ..) (.issue (.bind (prepare_form _ _ _) fun _ => .upd fun _ hs => (hs.consume _).setHandle _ _) h)
  | .rndw .. => .of_eq (exec_rndw ..) (h.drawWords _ _ _ _ _ _)
  | .rndv .. => .of_eq (exec_rndv ..) (h.drawWords _ _ _ _ _ _)
  | .sgen .. => .of_eq (exec_sgen ..) (.issue (.bind (prepare_form _ _ _) fun _ => .upd fun _ hs => (hs.consume _).deliver _ _ _) h)
  | .glaunch .. => .of_eq (exec_glaunch ..) (h.execGlaunch _ _ _ _)
  | .gquery .. => .of_eq (exec_gquery ..) (h.compute _ _ _ _ _ _)
  | .cpy .. => .of_eq (exec_cpy ..) (h.execCpy _ _ _ _ _)
  | .csetg .. => .of_eq (exec_csetg ..) (h.setGeom _ _ _ _ _)
  | .cgetg .. => .of_eq (exec_cgetg ..) (h.getGeom _ _ _ _ _)
  | .mma .. => .of_eq (exec_mma ..) (h.mxOp _ _ _ _ _ _)
  | .msetg .. => .of_eq (exec_msetg ..) (h.setGeom _ _ _ _ _)
  | .mgetg .. => .of_eq (exec_mgetg ..) (h.getGeom _ _ _ _ _)
  | .mldc .. => .of_eq (exec_mldc ..) (h.mxOp _ _ _ _ _ _)
  | .mstc .. => .of_eq (exec_mstc ..) (h.mxOp _ _ _ _ _ _)
  | .mzero .. => .of_eq (exec_mzero ..) (h.mxOp _ _ _ _ _ _)
  | .mcommit => .of_eq (exec_mcommit ..) (.issue (.get fun _ _ => .bind (.waitIf _ _) fun _ => .upd fun _ hs1 => hs1.updMe _) h)
  | .mwait .. => .of_eq (exec_mwait ..) (h.execMwait _)
  | .coll .. => .of_eq (exec_coll ..) (h.ringOp _ _ _ _ _ _ _ _ _ _ fun _ => .pure _)
  | .cquery .. => .of_eq (exec_cquery ..) (.issue (.bind (prepare_form _ _ _) fun _ => .upd fun _ hs => (hs.consume _).deliver _ _ _) h)
  | .cabort .. => .of_eq (exec_cabort ..) (h.execCabort _)
  | .rkovl .. => .of_eq (exec_rkovl ..) (h.execRkovl _ _ _ _ _)
  | .rkrun .. => .of_eq (exec_rkrun ..) (h.ringOp _ _ _ _ _ _ _ _ _ _ fun _ => .pure _)
  | .rksig .. => .of_eq (exec_rksig ..) (h.groupOp _ _ _ _)
  | .rkstat .. => .of_eq (exec_rkstat ..) (.issue (.bind (prepare_form _ _ _) fun _ => .upd fun _ hs => (hs.consume _).deliver _ _ _) h)
  | .rkstop .. => .of_eq (exec_rkstop ..) (h.groupOp _ _ _ _)
  | .dwait .. => .of_eq (exec_dwait ..) (.issue (.get fun _ _ => .waitIf _ _) h)
  | .dstat => .of_eq (exec_dstat ..) (.issue (.bind (prepare_form _ _ _) fun _ => .upd fun _ hs => hs.deliver _ _ _) h)
  | .sli .. => .of_eq (exec_sli ..) (h.rankStep _ _)
  | .slih .. => .of_eq (exec_slih ..) (h.rankStep _ _)
  | .sadd .. => .of_eq (exec_sadd ..) (h.scalarOp _ _ _ _)
  | .saddi .. => .of_eq (exec_saddi ..) (h.rankStep _ _)
  | .ssub .. => .of_eq (exec_ssub ..) (h.scalarOp _ _ _ _)
  | .sand .. => .of_eq (exec_sand ..) (h.scalarOp _ _ _ _)
  | .sor .. => .of_eq (exec_sor ..) (h.scalarOp _ _ _ _)
  | .sxor .. => .of_eq (exec_sxor ..) (h.scalarOp _ _ _ _)
  | .sshl .. => .of_eq (exec_sshl ..) (h.scalarOp _ _ _ _)
  | .sshr .. => .of_eq (exec_sshr ..) (h.scalarOp _ _ _ _)
  | .smul .. => .of_eq (exec_smul ..) (h.scalarOp _ _ _ _)
  | .sclt .. => .of_eq (exec_sclt ..) (h.scalarOp _ _ _ _)
  | .sbz .. => .of_eq (exec_sbz ..) (h.branch _ _ _)
  | .sbnz .. => .of_eq (exec_sbnz ..) (h.branch _ _ _)
  | .sj .. => .of_eq (exec_sj ..) (h.branch _ _ _)
  | .sloop .. => .of_eq (exec_sloop ..) (h.branch _ _ _)
  | .cset .. => .of_eq (exec_cset ..) (h.rankStep _ _)
  | .cstride .. => .of_eq (exec_cstride ..) (h.rankStep _ _)
  | .cnext .. => .of_eq (exec_cnext ..) (h.rankIssue (fun _ hs => .ok (hs.rankDone _ _ _ _)))
  | .vld .. => .of_eq (exec_vld ..) (h.rankIssue (fun _ hs => .ite trivial (.ite trivial (.ite trivial (.ok (hs.accessDone _ _ _))))))
  | .vst .. => .of_eq (exec_vst ..) (h.execVst _ _)
  | .mwVadd .. => .of_eq (exec_mwVadd ..) (h.laneOp _ _ _ _ _ _ _)
  | .mwVsub .. => .of_eq (exec_mwVsub ..) (h.laneOp _ _ _ _ _ _ _)
  | .mwVmul .. => .of_eq (exec_mwVmul ..) (h.laneOp _ _ _ _ _ _ _)
  | .mwVfma .. => .of_eq (exec_mwVfma ..) (h.rankStep _ _)
  | .vscl .. => .of_eq (exec_vscl ..) (h.rankStep _ _)
  | .mwVmax .. => .of_eq (exec_mwVmax ..) (h.laneOp _ _ _ _ _ _ _)
  | .mwVmin .. => .of_eq (exec_mwVmin ..) (h.laneOp _ _ _ _ _ _ _)
  | .mwVcvt .. => .of_eq (exec_mwVcvt ..) (h.rankStep _ _)
  | .vspl .. => .of_eq (exec_vspl ..) (h.rankStep _ _)
  | .kclr .. => .of_eq (exec_kclr ..) (h.rankStep _ _)
  | .kadd .. => .of_eq (exec_kadd ..) (h.rankStep _ _)
  | .krnd .. => .of_eq (exec_krnd ..) (h.rankStep _ _)
  | .kanc .. => .of_eq (exec_kanc ..) (h.rankIssue (fun _ hs => .ite trivial (.ok (hs.rankDone _ _ _ _))))
  | .cbegin .. => .of_eq (exec_cbegin ..) (h.execCbegin _ _ _ _)
  | .cend .. => .of_eq (exec_cend ..) (h.execCend _)
  | .cshift .. => .of_eq (exec_cshift ..) (h.builtIn _ _ _ _ _ _ _ _)
  | .cxpose .. => .of_eq (exec_cxpose ..) (h.builtIn _ _ _ _ _ _ _ _)
  | .ca2a .. => .of_eq (exec_ca2a ..) (h.builtIn _ _ _ _ _ _ _ _)
  | .cred .. => .of_eq (exec_cred ..) (h.builtIn _ _ _ _ _ _ _ _)
  | .crsc .. => .of_eq (exec_crsc ..) (h.builtIn _ _ _ _ _ _ _ _)
  | .cgath .. => .of_eq (exec_cgath ..) (h.builtIn _ _ _ _ _ _ _ _)
  | .cbcast .. => .of_eq (exec_cbcast ..) (h.builtIn _ _ _ _ _ _ _ _)
  | .cbar .. => .of_eq (exec_cbar ..) (h.execCbar _ _)
  | .msgo .. => .of_eq (exec_msgo ..) (h.execMsgo _)
  | .msgi .. => .of_eq (exec_msgi ..) (h.execMsgi _)
  | .ovsw .. => .of_eq (exec_ovsw ..) (h.rankIssue (fun _ hs => .ite trivial (.ok ((hs.rankDone _ _ _ _).decideFor _ _))))
  | .mwHalt => .of_eq (exec_mwHalt ..) (h.rankIssue (fun _ hs => .ite trivial (.ok (hs.endRank _ _ _))))
  | .resultDelivery .. => .of_eq (exec_resultDelivery ..) (.next (h.updCtx _ _ _))
  | .instructionFetchReturn .. => .of_eq (exec_instructionFetchReturn ..) (h.execInstructionFetchReturn _ _)
  | .pageWalk .. => .of_eq (exec_pageWalk ..) (.next (h.whenServed (fun _ hs => hs.walk _ _ _ _)))
  | .translationAck .. => .of_eq (exec_translationAck ..) (.next (h.updCtx _ _ _))
  | .dupRevocation .. => .of_eq (exec_dupRevocation ..) (.next (h.whenServed (fun _ hs => hs.dupRevocation _ _)))
  | .faultRingEntry .. => .of_eq (exec_faultRingEntry ..) (h.execFaultRingEntry _)
  | .pagerAnswer .. => .of_eq (exec_pagerAnswer ..) (h.execPagerAnswer _ _)
  | .pagerReply .. => .of_eq (exec_pagerReply ..) (.next (.ite (h.writeReply _ _ _) h))
  | .upcallDelivery .. => .of_eq (exec_upcallDelivery ..) (.next (.ite (h.deliverUpcall _) h))
  | .pagerNotice .. => .of_eq (exec_pagerNotice ..) (.next (.ite (h.notice _ _) h))
  | .tinvComplete .. => .of_eq (exec_tinvComplete ..) (h.execTinvComplete _ _)
  | .portWordArrival .. => .of_eq (exec_portWordArrival ..) (h.execPortWordArrival _)
  | .waitaReread .. => .of_eq (exec_waitaReread ..) (.next (h.updCtx _ _ _))
  | .sfuRequestComplete .. => .of_eq (exec_sfuRequestComplete ..) (h.execSfuRequestComplete _)
  | .engineCommandStart .. => .of_eq (exec_engineCommandStart ..) (.next (h.startCopy _))
  | .cpyCompletion .. => .of_eq (exec_cpyCompletion ..) (.next (h.completeCopy _))
  | .muCommandStart .. => .of_eq (exec_muCommandStart ..) (.next (h.startMx _))
  | .mxCommandComplete .. => .of_eq (exec_mxCommandComplete ..) (.next (h.completeMx _))
  | .commandRingDispatch .. => .of_eq (exec_commandRingDispatch ..) (h.execCommandRingDispatch _ _)
  | .courseOpen .. => .of_eq (exec_courseOpen ..) (h.execCourseOpen _)
  | .memberReady .. => .of_eq (exec_memberReady ..) (h.execMemberReady _ _)
  | .keystone .. => .of_eq (exec_keystone ..) (h.execKeystone _)
  | .courseCancel .. => .of_eq (exec_courseCancel ..) (h.execCourseCancel _)
  | .keystoneInvalidationDone .. => .of_eq (exec_keystoneInvalidationDone ..) (h.execKeystoneInvalidationDone _)
  | .memberLoss .. => .of_eq (exec_memberLoss ..) (.next (.ite (h.loseRank _) h))
  | .courseTimeout .. => .of_eq (exec_courseTimeout ..) (h.execCourseTimeout _)
  | .collDeadline .. => .of_eq (exec_collDeadline ..) (.next (h.timeoutColl _ _))
  | .collCompletion .. => .of_eq (exec_collCompletion ..) (h.execCollCompletion _ _)
  | .rkovlCompletion .. => .of_eq (exec_rkovlCompletion ..) (h.execRkovlCompletion _ _)
  | .rkrunCompletion .. => .of_eq (exec_rkrunCompletion ..) (h.execRkrunCompletion _ _)
  | .rksigMailboxDelivery .. => .of_eq (exec_rksigMailboxDelivery ..) (h.execRksigMailboxDelivery _)
  | .cbarTimeout .. => .of_eq (exec_cbarTimeout ..) (h.execCbarTimeout _)
  | .outsideAccessArrival .. => .of_eq (exec_outsideAccessArrival ..) (h.execOutsideAccessArrival _ _ _ _ _ _)
  | .rankCheckTimer .. => .of_eq (exec_rankCheckTimer ..) (.ite (.next (h.checkBank _)) (.next h))
  | .bankReturn .. => .of_eq (exec_bankReturn ..) (.ite (.next (h.updRank _ _)) (.next h))
  | .bankRefresh .. => .of_eq (exec_bankRefresh ..) (.ite (.next (h.updRank _ _)) (.next h))
  | .channelPowerDown .. => .of_eq (exec_channelPowerDown ..) (.ite (.next h) (.next (h.same.tryNap _)))
  | .channelWake .. => .of_eq (exec_channelWake ..) (.ite (.next (h.same.wakeChannel _)) (.next h))
  | .launchDoorbell .. => .of_eq (exec_launchDoorbell ..) (.next (h.whenServed (fun _ hs => hs.ringDoorbell _ _ _)))
  | .hostApertureAccess .. =>
    .of_eq (exec_hostApertureAccess ..) (.ite (.next h) (.next (h.whenServed (fun _ hs => hs.apertureAccess _ _ _ _ _))))
  | .launchStart .. => .of_eq (exec_launchStart ..) (h.execLaunchStart _ _)
  | .terminationSweep .. => .of_eq (exec_terminationSweep ..) (h.execTerminationSweep _ _ _)
  | .rankNodeEnd .. => .of_eq (exec_rankNodeEnd ..) (h.execRankNodeEnd _ _ _)
  | .preemption .. => .of_eq (exec_preemption ..) (.ite (.next h) (.next (h.packCore _ _ _)))
  | .coreResumption .. => .of_eq (exec_coreResumption ..) (h.execCoreResumption _ _ _)
  | .create .. => .of_eq (exec_create ..) (h.execCreate _ _)
  | .stop .. => .of_eq (exec_stop ..) (h.execStop _ _)
  | .equinoxStop .. => .of_eq (exec_equinoxStop ..) (h.execEquinoxStop _)
  | .resume .. => .of_eq (exec_resume ..) (h.execResume _ _)
  | .reset .. => .of_eq (exec_reset ..) ((State.Form.ite h.same h).vdOp _ _ _ (fun _ hs => .iteFst hs (.iteFst hs (hs.resetVd _))))
  | .teardown .. => .of_eq (exec_teardown ..) (h.execTeardown _ _)
  | .keygen .. => .of_eq (exec_keygen ..) (h.vdOp _ _ _ (fun _ hs => .iteFst hs (.iteFst hs ((hs.updVd _ (by exact fun _ => id)).same))))
  | .keykill .. => .of_eq (exec_keykill ..) (h.vdOp _ _ _ (fun _ hs => .iteFst hs (.iteFst hs (hs.killKey _ _))))
  | .permissionEntryWrite .. => .of_eq (exec_permissionEntryWrite ..) (.next (.ite (h.writePerm _ _ _) h))
  | .windowEntryWrite .. => .of_eq (exec_windowEntryWrite ..) (.next (.ite (h.writeWindow _ _ _) h))
  | .rankEnableMapWrite .. => .of_eq (exec_rankEnableMapWrite ..) (.next (.ite (h.writeEnable _ _ _) h))
  | .registerWrite .. => .of_eq (exec_registerWrite ..) (.next (.ite (h.mgmtWrite _ _) h))
  | .attach => .of_eq (exec_attach ..) (h.debugOp _ (fun _ hs => hs.debugEach _))
  | .detach => .of_eq (exec_detach ..) (h.debugOp _ (fun _ hs => hs.debugEach _))
  | .debugHalt => .of_eq (exec_debugHalt ..) (h.debugOp _ (fun _ hs => State.Form.foldl (fun _ _ hs1 => hs1.haltContext _ _) _ hs))
  | .debugResume => .of_eq (exec_debugResume ..) (h.debugOp _ (fun _ hs => hs.debugEach _))
  | .debugStep => .of_eq (exec_debugStep ..) (h.debugOp _ (fun _ hs => .iteFst hs (.iteFst hs (hs.debugEach _))))
  | .debugRead => .of_eq (exec_debugRead ..) (h.debugOp _ (fun _ hs => .iteFst hs (.iteFst hs hs.same)))
  | .debugWrite => .of_eq (exec_debugWrite ..) (h.execDebugWrite)
  | .vigilCollapse .. => .of_eq (exec_vigilCollapse ..) (h.execVigilCollapse _)
  | .wake .. =>
    .of_eq (exec_wake ..) (.ite (.next h) (.next (h.whenServed (fun _ hs => (hs.updVd _ (by exact fun _ => id)).wakeCores _ _))))
  | .linkPortWake .. => .of_eq (exec_linkPortWake ..) (.next h.same)
  | .uncorrectableError .. => .of_eq (exec_uncorrectableError ..) (h.execUncorrectableError _)
  | .patrolScrub .. => .of_eq (exec_patrolScrub ..) (h.execPatrolScrub _ _ _)
  | .spareSubstitution .. => .of_eq (exec_spareSubstitution ..) (.next (.ite (h.replaceUnit _) h))
  | .bankMigration .. => .of_eq (exec_bankMigration ..) (h.execBankMigration _)
  | .almanacWrite => .of_eq (exec_almanacWrite ..) (.ite (.next h) (.next h.same))
  | .powerGood => .of_eq (exec_powerGood ..) (h.execPowerGood)
  | .powerManagerAdjust .. => .of_eq (exec_powerManagerAdjust ..) (.ite (.next h) (.next h.same))
  | .thermalTrip => .of_eq (exec_thermalTrip ..) (h.execThermalTrip)
  | .getVersion .. => .of_eq (exec_getVersion ..) (h.spdmOp _ fun _ _ hs => hs.sendSpdm _ _ _ _)
  | .getCapabilities .. => .of_eq (exec_getCapabilities ..) (h.spdmOp _ fun _ _ hs => .iteApply (hs.sendSpdm _ _ _ _) (hs.sendError _ _))
  | .negotiateAlgorithms .. =>
    .of_eq (exec_negotiateAlgorithms ..) (h.spdmOp _ fun _ _ hs => .iteApply (hs.sendSpdm _ _ _ _) (hs.sendError _ _))
  | .getDigests .. => .of_eq (exec_getDigests ..) (h.spdmOp _ fun _ _ hs => .ite (hs.sendSpdm _ _ _ _) (hs.sendError _ _))
  | .getCertificate .. => .of_eq (exec_getCertificate ..) (h.spdmOp _ fun _ _ hs => .ite (hs.sendError _ _) (hs.sendSpdm _ _ _ _))
  | .challenge .. => .of_eq (exec_challenge ..) (h.spdmOp _ fun _ _ hs => .ite (hs.sendError _ _) (hs.sendSpdm _ _ _ _))
  | .getMeasurements .. =>
    .of_eq (exec_getMeasurements ..) (h.spdmOp _ fun _ _ hs => .ite (hs.sendError _ _)
      (.ite (hs.sendError _ _) (hs.same.sendSpdm _ _ _ _)))
  | .keyExchange .. => .of_eq (exec_keyExchange ..) (h.spdmOp _ fun _ _ hs => .ite (hs.sendError _ _) (hs.sendSpdm _ _ _ _).same)
  | .finish .. => .of_eq (exec_finish ..) (h.execFinish _ _)
  | .endSession .. => .of_eq (exec_endSession ..) (h.spdmOp _ fun _ _ hs => .iteApply (hs.sendSpdm _ _ _ _) (hs.sendError _ _))
  | .read .. => .of_eq (exec_read ..) (h.atHome _ _ _ _)
  | .readResp .. => .of_eq (exec_readResp ..) (h.valueArrives _)
  | .write .. => .of_eq (exec_write ..) (h.atHome _ _ _ _)
  | .atomic .. => .of_eq (exec_atomic ..) (h.execAtomic _)
  | .atomicResp .. => .of_eq (exec_atomicResp ..) (h.valueArrives _)
  | .update .. => .of_eq (exec_update ..) (h.execUpdate _)
  | .ack .. => .of_eq (exec_ack ..) (h.execAck _)
  | .nack .. => .of_eq (exec_nack ..) (h.execNack _)
  | .step .. => .of_eq (exec_step ..) (h.receive _ _ (fun _ hs => hs.stepArrives _))
  | .stepRed .. => .of_eq (exec_stepRed ..) (h.receive _ _ (fun _ hs => hs))
  | .stepRes .. => .of_eq (exec_stepRes ..) (h.receive _ _ (fun _ hs => hs.stepArrives _))
  | .keepalive .. => .of_eq (exec_keepalive ..) (h.receive _ _ (fun _ hs => hs))
  | .keepaliveSend => .of_eq (exec_keepaliveSend ..) (.next (State.Form.foldl (fun _ _ hs => hs.sendPacket _ _ _) _ h))
  | .packageLoss .. => .of_eq (exec_packageLoss ..) (.next (h.loseLink _))
  | .homeAcknowledgement .. => .of_eq (exec_homeAcknowledgement ..) (.next (h.updCtx _ _ _))
  | .pbindAcknowledgement .. => .of_eq (exec_pbindAcknowledgement ..) (h.execPbindAcknowledgement _ _)
  | .deviceDma .. => .of_eq (exec_deviceDma ..) (.ite (.next h) (.next (h.physAccess _ _ _ _)))
  | .applicationCoreAccess .. => .of_eq (exec_applicationCoreAccess ..) (h.execApplicationCoreAccess _)
  | .drainTimeout .. => .of_eq (exec_drainTimeout ..) (.ite (.next ((h.same.updVd _ (by exact fun _ => id)).settleOp)) (.next h))
  | .powerLoss => .of_eq (exec_powerLoss ..) (.next (State.Form.coldState _ _))
  | .flashUpdateCommand .. => .of_eq (exec_flashUpdateCommand ..) (h.execFlashUpdateCommand _ _)
  | .configurationRequest .. => .of_eq (exec_configurationRequest ..) (h.execConfigurationRequest _ _)
  | .linkKeyReplacement .. => .of_eq (exec_linkKeyReplacement ..) (.ite (.next h) (.next h.same))

/-! ### Turns -/

theorem State.Form.runWord {s : State} (h : s.Form) (w : Word) : FormAfter (runWord w s) := by
  unfold Machine.runWord
  split
  · exact h.exec _
  · exact .next (h.takeTrap _ _ _)

theorem State.Form.tryContext {s : State} (h : s.Form) (c x : Nat) : FormAfter (tryContext c x s) := by
  unfold Machine.tryContext
  have ha := h.actAs c x
  dsimp only
  split
  · exact .next (((ha.withdrawAll _ _).updMe _).takeTrap _ _ _)
  · split
    · next e => exact .next ((nextWord_form.of_error (β := Unit) ha e).stopAt ha)
    · next e => exact (nextWord_form.of_ok ha e).runWord _

theorem State.Form.issued {s : State} (h : s.Form) (c x : Nat) (upslot : Bool) : (issued c x upslot s).Form :=
  h.same.updCore _ (by exact fun _ => id)

theorem State.Form.tryContexts {s : State} (h : s.Form) (c : Nat) (upslot : Bool) (l : List Nat) :
    FormAfter (tryContexts c upslot l s) := by
  unfold Machine.tryContexts
  split
  · exact .next h
  · next _ _ _ e0 =>
    refine .ite ?_ (h.tryContexts _ _ _)
    split
    · next _ e0 =>
      exact .ite (.next (((h.tryContext _ _) _ e0).issued _ _ _)) (((h.tryContext _ _) _ e0).tryContexts _ _ _)
    · exact .fault
    · exact .refused

theorem State.Form.narrowYield {t : State} (h : t.Form) (c : Nat) (s : State) : (narrowYield c s t).Form :=
  .ite (h.updCore _ (by exact fun _ => id)) h

theorem FormAfter.endCycle {o : Out} (h : FormAfter o) (c : Nat) (s : State) : FormAfter (endCycle c s o) := by
  cases o with
  | next t => exact .next (.ite (((h t rfl).narrowYield _ _).deliverUpcall _) ((h t rfl).narrowYield _ _))
  | fault f => exact .fault
  | refused r => exact .refused

theorem State.Form.beginCycle {s : State} (h : s.Form) (c : Nat) : (beginCycle c s).Form :=
  State.Form.foldl (fun _ _ hs => hs.drain _ _) _ (.ite ((h.updCore _ (by exact fun _ => id)).flushSpm _ _ _)
    (((h.updCore _ (by exact fun _ => id)).flushSpm _ _ _).flushNotices _ _))

theorem State.Form.coreTurn {s : State} (h : s.Form) (c : Nat) : FormAfter (coreTurn c s) :=
  .ite (.next (h.beginCycle _)) (((h.beginCycle _).tryContexts _ _ _).endCycle _ _)

theorem State.Form.idleCycle {s : State} (h : s.Form) (c : Nat) : (idleCycle c s).Form :=
  .ite (h.beginCycle _) h

theorem State.Form.evictTurn {s : State} (h : s.Form) (c line : Nat) : (evictTurn c line s).Form :=
  (State.Form.foldl (fun _ _ hs => hs.evictLine _ _ _) _ h).updCore _ (by exact fun _ => id)

theorem State.Form.farMember {s : State} (h : s.Form) (vd q g m : Nat) (elect : Bool) : (farMember vd q g m elect s).Form := by
  unfold Machine.farMember
  split
  · exact h
  · exact .ite h (h.updTrackerOf _ _ _ _)

theorem State.Form.rankTurn {s : State} (h : s.Form) (r : Nat) : FormAfter (rankTurn r s) := by
  unfold Machine.rankTurn
  refine .ite (.next h) (.ite (.next (h.trafficRow _ _)) (.ite (.next h) (.ite (.next (h.rankFault _ _)) ?_)))
  split
  · exact h.same.exec _
  · exact .next (h.rankFault _ _)

theorem State.Form.housekeep {s : State} (h : s.Form) : (housekeep s).Form :=
  .ite h (((State.Form.foldl (fun _ _ hs => hs.drainDone _) _ (State.Form.foldl (fun _ _ hs => hs.settleVd _) _
    (State.Form.foldl (fun _ _ hs => .ite hs (hs.settleBank _)) _ h))).settleOp).breakQuiet)

theorem FormAfter.endTurn {o : Out} (h : FormAfter o) : FormAfter (endTurn o) := by
  cases o with
  | next t => exact .next (h t rfl).housekeep
  | fault f => exact .fault
  | refused r => exact .refused

theorem State.Form.takeTurn {s : State} (h : s.Form) (t : Turn) : FormAfter (takeTurn t s) := by
  unfold Machine.takeTurn
  split
  · exact .ite .fault (.ite (h.coreTurn _).endTurn (.next h))
  · exact .ite .fault (.ite (h.rankTurn _).endTurn (.next h))
  · exact .ite (h.exec _).endTurn (.next h)
  · exact .next ((h.bootNext.advanceTo _).housekeep)
  · exact .ite .fault (.next (.ite (h.idleCycle _) h))
  · exact .next (.ite (h.evictTurn _ _) h)
  · exact .next (.ite (h.farMember _ _ _ _ _) h)
  · exact .next (.ite (h.correctedError _) h)
  · exact .next (.ite (h.failedLine _ _) h)
  · exact .next (.ite (h.readResult _ _) h)
  · exact .next (.ite (h.readManage _) h)
  · exact .next (.ite (h.enableMsix _ _) h)

/-! ### Every step -/

theorem State.Form.step {s : State} (h : s.Form) : FormAfter (step s) := by
  unfold Machine.step
  split
  · exact h.takeTurn _
  · exact h.same.takeTurn _

/-- Settles O59: each function that a step is made of keeps the form, from the writes of memory up to the turn. -/
theorem stepKeepsForm : Obligations.StepKeepsForm := fun _ _ h ht => h.step _ ht

end Sys2Proof.Machine

end

section
/-! PROOFS. Writes and computing instructions keep the form of memory (O58) -/

namespace Sys2Proof.Machine

/-! ### The memories of a state whose saved cores need not have the form -/

theorem State.MemWf.of_same {s t : State} (h : s.MemWf) (hm : t.mem = s.mem) (hc : t.cores = s.cores) : t.MemWf := by
  unfold State.MemWf
  rw [hm, hc]
  exact h

theorem State.MemWf.ite {c : Prop} {_ : Decidable c} {s t : State} (hs : s.MemWf) (ht : t.MemWf) : (if c then s else t).MemWf := by
  split
  · exact hs
  · exact ht

theorem State.MemWf.foldl {α : Type} {f : State → α → State} (hf : ∀ s a, s.MemWf → (f s a).MemWf) (l : List α) {s : State}
    (h : s.MemWf) : (l.foldl f s).MemWf := by
  induction l generalizing s with
  | nil => exact h
  | cons a r ih => exact ih (hf _ _ h)

theorem State.MemWf.foldr {α : Type} {f : α → State → State} (hf : ∀ a s, s.MemWf → (f a s).MemWf) (l : List α) {s : State}
    (h : s.MemWf) : (l.foldr f s).MemWf := by
  induction l with
  | nil => exact h
  | cons a r ih => exact hf _ _ ih

/-- The cores are those of a state that has the form when its VDs are left out. -/
theorem State.MemWf.core {s : State} (h : s.MemWf) (c : Nat) : (s.core c).Wf :=
  State.Form.core (s := { s with vds := [] }) ⟨h, fun _ hv => nomatch hv⟩ c

section
variable {s : State} (h : s.MemWf)
include h

theorem State.MemWf.updCore (c : Nat) {f : Core → Core} (hf : ∀ k : Core, k.Wf → (f k).Wf) :
    (s.updCore c f).MemWf :=
  ⟨h.1, fun e he => by
    obtain rfl | he := of_mem_put he
    · exact hf _ (h.core c)
    · exact h.2 e he⟩

theorem State.MemWf.updMe (f : Context → Context) : (s.updMe f).MemWf := h.updCore _ fun _ hk => hk

theorem State.MemWf.updHere {f : Core → Core} (hf : ∀ k : Core, k.Wf → (f k).Wf) : (s.updHere f).MemWf :=
  h.updCore _ hf

/-- A write of a scratchpad keeps the form of the memories. -/
theorem State.MemWf.spmWrite (c off : Nat) (bs : List Byte) : (s.spmWrite c off bs).MemWf :=
  h.updCore c fun _ hk => ⟨Memory.wf_writeN _ _ hk.1, hk.2⟩

theorem State.MemWf.pokeByte (p : Place) (b : Byte) : (s.pokeByte p b).MemWf := by
  refine ⟨Memory.wf_write _ _ ?_, h.2⟩
  split
  · exact h.1
  · exact Memory.wf_writeN _ _ h.1

/-! ### Writes of places -/

theorem State.MemWf.writeRun (run : Place × List Byte) : (s.writeRun run).MemWf :=
  .ite (h.of_same rfl rfl) (.foldl (fun _ _ hs => hs.pokeByte _ _) _ h)

theorem State.MemWf.soundAgain (cells : List Nat) : (s.soundAgain cells).MemWf := .ite h (h.of_same rfl rfl)

theorem State.MemWf.wakeLines (lines : List Nat) : (s.wakeLines lines).MemWf := by
  refine ⟨h.1, fun e he => ?_⟩
  obtain ⟨d, hd, rfl⟩ := List.mem_map.mp he
  exact h.2 d hd

theorem State.MemWf.dropLines (keys : List Nat) (keep : Option (Nat × L1Line)) : (s.dropLines keys keep).MemWf := by
  refine .ite h ⟨h.1, fun e he => ?_⟩
  obtain ⟨d, hd, rfl⟩ := List.mem_map.mp he
  exact h.2 d hd

/-- Bytes written at their places keep the form of the memories. -/
theorem State.MemWf.writePlaces (bs : List (Place × Byte)) (keep : Option (Nat × L1Line)) : (s.writePlaces bs keep).MemWf :=
  (((State.MemWf.foldl (fun _ _ hs => hs.writeRun _) _ h).soundAgain _).wakeLines _).dropLines _ _

/-! ### The operands and the result of an instruction -/

theorem State.MemWf.touch (off len : Nat) : (touch off len s).MemWf := by
  refine .foldl (fun _ _ hs => ?_) _ h
  exact .ite (hs.of_same rfl rfl) (hs.of_same rfl rfl)

theorem State.MemWf.consume (srcs : List Opnd) : (consume srcs s).MemWf :=
  .foldl (fun _ _ hs => .ite (hs.updMe _) (.ite ((hs.touch _ _).updMe _) hs)) _ h

theorem State.MemWf.writeReg (r : Ready) (j : Nat) (v : W64) : (writeReg r j v s).MemWf := h.updMe _

theorem State.MemWf.writeRegs (r : Ready) (j k : Nat) (ws : List W64) : (writeRegs r j k ws s).MemWf := by
  induction ws generalizing s j k with
  | nil => exact h
  | cons w ws ih =>
    exact ih (h.writeReg _ _ _) _ _

theorem State.MemWf.sendWords (p : Nat) (r : Ready) (ws : List W64) : (sendWords p r ws s).MemWf := by
  unfold Machine.sendWords
  split
  · exact h
  · dsimp only
    split
    · exact h.of_same rfl rfl
    · refine .ite (State.MemWf.updHere ?_ fun _ hk => hk) (h.of_same rfl rfl)
      exact h.of_same rfl rfl

theorem State.MemWf.writeThrough (r : Ready) (off : Nat) (bs : List Byte) : (writeThrough r off bs s).MemWf := by
  unfold Machine.writeThrough
  split
  · exact h.spmWrite _ _ _
  · next due =>
    have hu := h.updHere (f := fun k => { k with spmDue := k.spmDue ++ [⟨s.cur.ctx.val, off, bs, some due, s.nextId⟩] }) fun _ => id
    exact hu.of_same rfl rfl
  · exact h.updHere fun _ hk => hk

theorem State.MemWf.deliver (d : Opnd) (r : Ready) (ws : List W64) : (deliver d r ws s).MemWf := by
  refine .ite (.ite (.foldr (fun _ _ hs => hs.updMe _) _ h) (.foldr (fun _ _ hs => hs.updMe _) _ h))
    (.ite (h.writeRegs _ _ _ _) (.ite (h.updMe _) (.ite (h.sendWords _ _ _) (.ite ?_ h))))
  exact ((h.touch _ _).writeThrough _ _ _).updMe _

theorem State.MemWf.gives (srcs : List Opnd) (d : Opnd) (r : State → Ready) (f : State → List (List W64) → List W64) :
    (gives srcs d r f s).MemWf := (h.consume _).deliver _ _ _

theorem State.MemWf.flushSpm (c t : Nat) (mine : Nat → Bool) : (s.flushSpm c t mine).MemWf := by
  exact .ite h (State.MemWf.updCore (.foldl (fun _ _ hs => hs.spmWrite _ _ _) _ h) _ fun _ hk => hk)

theorem State.MemWf.endStep : s.endStep.MemWf := .ite (((h.flushSpm _ _ _).updCore _ (by exact fun _ => id)).updMe _) h

theorem State.MemWf.retire (n : Nat) : (retire n s).MemWf := by
  have hu := (h.updMe (fun c =>
    let c1 := match s.target with
      | some p => { c with pc := p }
      | none => c.advance
    { c1 with bound := s.now + 1 + n + s.collisions, wait := none, hold := none, ask := none, answer := none })).endStep
  exact hu.of_same rfl rfl

end

/-- Settles O58: a write of places and one of a scratchpad are writes of cells, and an instruction that computes a result only makes such
writes when it delivers and when it retires. -/
theorem memoryForm : Obligations.MemoryForm := by
  refine ⟨fun s bs h => h.writePlaces bs none, fun s c off bs h => h.spmWrite c off bs, ?_⟩
  intro i stall srcs d r f hc s t h hadmits hclear ht
  rw [hc s hadmits hclear trivial] at ht
  cases ht
  exact (h.gives srcs d r f).retire stall

end Sys2Proof.Machine

end

section
/-! PROOFS. Bytes written are read back (O17) -/

namespace Sys2Proof.Machine

/-! ### What writes in footprints leave of the banks (R255) -/

theorem SameBanks.bankByte {s t : State} (h : SameBanks s t) (x : Place) : t.bankByte x = s.bankByte x := by
  have hcell (d k : Nat) : t.cell d k = s.cell d k := by rw [State.cell, State.cell, h.draws, h.mem]
  rw [State.bankByte, State.bankByte, hcell, h.layout.draw, h.rank]

/-- A run whose bytes lie in a footprint is held, or has none. -/
theorem writeRun_of_footprint {s : State} {run : Place × List Byte}
    (hf : ∀ e ∈ runBytes run, s.inFootprint e.1.rank e.1.row = true) : s.writeRun run = s.holdRun run ∨ s.writeRun run = s := by
  obtain ⟨p, bs⟩ := run
  unfold State.writeRun
  split
  · exact .inl rfl
  · next hno =>
    cases bs with
    | nil => exact .inr rfl
    | cons b r => exact absurd (hf (p, b) (by rw [runBytes_cons]; exact List.mem_cons_self)) hno

theorem bankByte_writeRuns {s : State} {runs : List (Place × List Byte)}
    (hf : ∀ e ∈ runs.flatMap runBytes, s.inFootprint e.1.rank e.1.row = true) (x : Place) :
    (runs.foldl (fun s run => s.writeRun run) s).bankByte x = s.bankByte x := by
  induction runs generalizing s with
  | nil => rfl
  | cons run r ih =>
    rw [List.flatMap_cons] at hf
    rw [List.foldl_cons]
    rcases writeRun_of_footprint (s := s) (run := run) fun e he => hf e (List.mem_append_left _ he) with h | h
    · rw [h, ih fun e he => ?_, bankByte_holdRun]
      rw [(SameLayout.holdRun s run).foot]
      exact hf e (List.mem_append_right _ he)
    · rw [h, ih fun e he => hf e (List.mem_append_right _ he)]

/-- The bank's own bytes stay where every write is held. -/
theorem bankByte_writePlaces {s : State} {l : List (Place × Byte)} (hf : ∀ e ∈ l, s.inFootprint e.1.rank e.1.row = true)
    (keep : Option (Nat × L1Line)) (x : Place) : (s.writePlaces l keep).bankByte x = s.bankByte x :=
  ((SameBanks.wrote _ _ _ _).bankByte x).trans (bankByte_writeRuns (by rwa [runBytes_runsOf]) x)

/-! ### The bytes of a list of places -/

theorem Placed.zip {s : State} {ps : List Place} {bs : List Byte} (hlen : ps.length = bs.length) (hnodup : ps.Nodup)
    (hps : ∀ p ∈ ps, p.Inside ∧ s.Apart ps p) : Placed s (ps.zip bs) := by
  have hkeys : (ps.zip bs).map Prod.fst = ps := List.map_fst_zip (Nat.le_of_eq hlen)
  exact ⟨by rwa [hkeys], by rw [hkeys]; exact fun p hp => (hps p hp).1, by rw [hkeys]; exact fun p hp => (hps p hp).2⟩

theorem mem_zip_getElem {ps : List Place} {bs : List Byte} (hlen : ps.length = bs.length) {i : Nat} (hi : i < ps.length) :
    (ps[i], bs.getD i 0) ∈ ps.zip bs := by
  rw [List.getD_eq_getElem bs 0 (hlen ▸ hi)]
  have hz : i < (ps.zip bs).length := by rw [List.length_zip]; omega
  exact List.getElem_zip (h := hz) ▸ List.getElem_mem hz

/-! ### The lines of an access (R342): a store is written line by line -/

/-- The bytes of a part of an access. -/
def partBytes (l : List (Place × Byte)) (c : Nat × Nat) : List (Place × Byte) := (l.drop c.1).take c.2

/-- Fuel for as many lines as the bytes can lie in is enough. -/
theorem partBytes_lineChunks (l : List (Place × Byte)) (va fuel : Nat) : ∀ at_ len : Nat,
    (len = 0 ∨ (va + at_) % 64 + len ≤ 64 * fuel) → (lineChunks va fuel at_ len).flatMap (partBytes l) = (l.drop at_).take len := by
  induction fuel with
  | zero =>
    intro at_ len h
    rw [show len = 0 by omega, List.take_zero]
    rfl
  | succ fuel ih =>
    intro at_ len h
    unfold lineChunks
    split
    · next h0 =>
      rw [h0, List.take_zero]
      rfl
    · dsimp only
      generalize hn : min len (64 - (va + at_) % 64) = n
      rw [List.flatMap_cons, ih _ _ (by omega), partBytes, ← List.drop_drop, ← List.take_add, Nat.add_sub_cancel' (by omega)]

/-- The parts of an access are its bytes, each once and in order. -/
theorem partBytes_chunksOf (l : List (Place × Byte)) (va : Nat) : (chunksOf va l.length).flatMap (partBytes l) = l := by
  rw [chunksOf, partBytes_lineChunks l va _ _ _ (.inr (by omega)), List.drop_zero, List.take_length]

/-- The parts of a write, one after another. -/
theorem Writes.parts {s : State} (hm : Memory.wf s.mem = true) {α : Type} (part : α → List (Place × Byte))
    (keep : State → α → Option (Nat × L1Line)) (cs : List α) (hp : Placed s (cs.flatMap part)) :
    Writes s (cs.foldl (fun s c => s.writePlaces (part c) (keep s c)) s) (cs.flatMap part) := by
  induction cs generalizing s with
  | nil => exact .nil hm
  | cons c r ih =>
    have hfirst := Writes.writePlaces hm hp.left (keep s c)
    exact .append hp hfirst (ih hfirst.wf (hp.right hfirst.layout))

/-! ### What a write leaves of the cores (R107, R217) -/

theorem reread_nil (m : Context) : m.reread [] = m := by
  unfold Context.reread
  split
  · exact if_neg (by simp)
  · rfl

theorem reread_append (a b : List Nat) (m : Context) : (m.reread a).reread b = m.reread (a ++ b) := by
  unfold Context.reread
  cases hw : m.wait with
  | none => simp [hw]
  | some w => cases w with
    | waita l => by_cases h : a.contains l = true <;> simp_all
    | _ => simp [hw]

theorem lookup_map_key {α β : Type} (f : Nat → α → β) (k : Nat) (l : List (Nat × α)) :
    lookup k (l.map fun e => (e.1, f e.1 e.2)) = (lookup k l).map (f k) := by
  induction l with
  | nil => rfl
  | cons e r ih =>
    by_cases h : k = e.1
    · simp [lookup, h]
    · simpa [lookup, h] using ih

/-- The L1 of a core without the copies of lines that another has written (R217). -/
def Core.dropLines (keys : List Nat) (keep : Option (Nat × L1Line)) (c : Nat) (k : Core) : Core :=
  { k with l1 := k.l1.filter (fun l => l.upd.isSome || !keys.contains l.key || keep == some (c, l)) }

/-- Lines have been written: contexts that wait for one of them look again, copies may have left the L1s, and the cores are otherwise as
they were. -/
structure WrittenLines (lines : List Nat) (s t : State) : Prop where
  cur : t.cur = s.cur
  core : ∀ c, { t.core c with l1 := (s.core c).l1, ctxs := (s.core c).ctxs } = s.core c
  copies : ∀ c, ∀ l ∈ (t.core c).l1, l ∈ (s.core c).l1
  ctxs : ∀ c (x : Fin 11), (t.core c).ctxs[x] = (s.core c).ctxs[x].reread lines

namespace WrittenLines

theorem of_cores {s t : State} (hcur : t.cur = s.cur) (hcores : t.cores = s.cores) : WrittenLines [] s t := by
  have hc : ∀ c, t.core c = s.core c := fun c => by rw [State.core, State.core, hcores]
  exact ⟨hcur, fun c => by rw [hc], fun c l hl => by rwa [← hc], fun c x => by rw [hc, reread_nil]⟩

theorem trans {a b : List Nat} {s t u : State} (h : WrittenLines a s t) (g : WrittenLines b t u) : WrittenLines (a ++ b) s u where
  cur := g.cur.trans h.cur
  core c := by
    have hg := g.core c
    rw [← h.core c, ← g.core c]
  copies c l hl := h.copies c l (g.copies c l hl)
  ctxs c x := by rw [g.ctxs, h.ctxs, reread_append]

theorem ite {lines : List Nat} {s t u : State} {p : Prop} {_ : Decidable p} (h : WrittenLines lines s t) (g : WrittenLines lines s u) :
    WrittenLines lines s (if p then t else u) := by
  split
  · exact h
  · exact g

/-- Steps, each of which writes the lines that it is for. -/
theorem foldl {α : Type} {f : State → α → State} {lines : α → List Nat} (hf : ∀ s a, WrittenLines (lines a) s (f s a)) (l : List α)
    (s : State) : WrittenLines (l.flatMap lines) s (l.foldl f s) := by
  induction l generalizing s with
  | nil => exact of_cores rfl rfl
  | cons a r ih => exact (hf s a).trans (ih (f s a))

theorem foldl_none {α : Type} {f : State → α → State} (hf : ∀ s a, WrittenLines [] s (f s a)) (l : List α) (s : State) :
    WrittenLines [] s (l.foldl f s) := by
  have h := foldl hf l s
  rwa [List.flatMap_eq_nil_iff.mpr fun _ _ => rfl] at h

theorem writeRun (s : State) (run : Place × List Byte) : WrittenLines [] s (s.writeRun run) := by
  refine .ite (of_cores rfl rfl) (foldl_none (fun _ _ => ?_) _ s)
  exact of_cores rfl rfl

theorem soundAgain (s : State) (cells : List Nat) : WrittenLines [] s (s.soundAgain cells) := .ite (of_cores rfl rfl) (of_cores rfl rfl)

theorem wakeLines (s : State) (lines : List Nat) : WrittenLines lines s (s.wakeLines lines) := by
  have hcore (c : Nat) : (s.wakeLines lines).core c = s.core c ∨ (s.wakeLines lines).core c = (s.core c).reread lines := by
    have hl : lookup c (s.wakeLines lines).cores = (lookup c s.cores).map (Core.reread lines) := lookup_map (Core.reread lines) c s.cores
    rw [State.core, State.core, hl]
    cases lookup c s.cores with
    | none => exact .inl rfl
    | some k => exact .inr rfl
  refine ⟨rfl, fun c => ?_, fun c l hl => ?_, ctxs_wakeLines s lines⟩
  · obtain h | h := hcore c <;> rw [h]
    rfl
  · obtain h | h := hcore c <;> rw [h] at hl <;> exact hl

theorem dropLines (s : State) (keys : List Nat) (keep : Option (Nat × L1Line)) : WrittenLines [] s (s.dropLines keys keep) := by
  refine .ite (of_cores rfl rfl) ?_
  have hcore (c : Nat) : ∃ p, State.core { s with cores := s.cores.map fun e => (e.1, e.2.dropLines keys keep e.1) } c =
      { s.core c with l1 := (s.core c).l1.filter p } := by
    have hl : lookup c (s.cores.map fun e => (e.1, e.2.dropLines keys keep e.1)) = (lookup c s.cores).map (Core.dropLines keys keep c) :=
      lookup_map_key (fun d (k : Core) => Core.dropLines keys keep d k) c s.cores
    unfold State.core
    dsimp only
    rw [hl]
    cases lookup c s.cores with
    | none => exact ⟨fun _ => true, by rw [List.filter_true]; rfl⟩
    | some k => exact ⟨_, rfl⟩
  refine ⟨rfl, fun c => ?_, fun c l hl => ?_, fun c x => ?_⟩ <;> obtain ⟨p, hp⟩ := hcore c
  · exact congrArg (fun k : Core => { k with l1 := (s.core c).l1, ctxs := (s.core c).ctxs }) hp
  · exact List.mem_of_mem_filter (congrArg Core.l1 hp ▸ hl)
  · exact (congrArg (fun k : Core => k.ctxs[x]) hp).trans (reread_nil _).symm

theorem writePlaces (s : State) (l : List (Place × Byte)) (keep : Option (Nat × L1Line)) :
    WrittenLines (l.map (fun e => e.1.key / 64)) s (s.writePlaces l keep) := by
  have hruns := foldl_none writeRun (runsOf l) s
  have h : WrittenLines ([] ++ ([] ++ ((l.map (·.1)).map (fun p => p.key / 64) ++ []))) s (s.writePlaces l keep) :=
    hruns.trans ((soundAgain _ _).trans ((wakeLines _ _).trans (dropLines _ _ _)))
  rwa [List.nil_append, List.nil_append, List.append_nil, List.map_map] at h

end WrittenLines

/-! ### A store at its home (R342) -/

/-- The store is written line by line when nothing must be merged first and no word that fails would be written in part. -/
theorem storeHome_eq {s : State} {ps : List Place} {bs : List Byte} (va : Nat) (pc : W64) (hbad : s.partOfBad ps = false)
    (hupd : s.updatesOf (ps.map (fun p => p.key / 64)) = []) : storeHome va pc ps bs s =
      ((chunksOf va ps.length).foldl (fun s c => s.writePlaces (partBytes (ps.zip bs) c) (s.hitLine (s.asUser va c.1) s.here.vd)) s).updMe
        (fun c => { c with unacked := c.unacked + 1 }) := by
  rw [storeHome, recall_of_none hupd, if_neg (by rw [hbad]; exact Bool.false_ne_true)]
  rfl

theorem SameBanks.updMe (s : State) (f : Context → Context) : SameBanks s (s.updMe f) := ⟨rfl, rfl, rfl, rfl, rfl, fun _ => rfl⟩

section
variable {s : State} {ps : List Place} {bs : List Byte} (va : Nat) (hlen : ps.length = bs.length)
include hlen

theorem partBytes_zip : (chunksOf va ps.length).flatMap (partBytes (ps.zip bs)) = ps.zip bs := by
  have hz : (ps.zip bs).length = ps.length := by rw [List.length_zip]; omega
  rw [← hz]
  exact partBytes_chunksOf _ _

/-- What a store leaves of the bytes. -/
theorem Writes.storeHome (pc : W64) (hm : Memory.wf s.mem = true) (hbad : s.partOfBad ps = false)
    (hupd : s.updatesOf (ps.map (fun p => p.key / 64)) = []) (hp : Placed s (ps.zip bs)) :
    Writes s (Machine.storeHome va pc ps bs s) (ps.zip bs) := by
  have hall := partBytes_zip va hlen
  have h := Writes.parts hm (partBytes (ps.zip bs)) (fun s c => s.hitLine (s.asUser va c.1) s.here.vd) (chunksOf va ps.length)
    (by rwa [hall])
  rw [hall] at h
  rw [storeHome_eq va pc hbad hupd]
  exact h.followed (.updMe _ _)

/-- What the parts of a store leave of the cores. -/
theorem WrittenLines.parts : WrittenLines (ps.map (fun p => p.key / 64)) s ((chunksOf va ps.length).foldl
    (fun s c => s.writePlaces (partBytes (ps.zip bs) c) (s.hitLine (s.asUser va c.1) s.here.vd)) s) := by
  have h := WrittenLines.foldl (fun t c => WrittenLines.writePlaces t (partBytes (ps.zip bs) c) (t.hitLine (t.asUser va c.1) t.here.vd))
    (chunksOf va ps.length) s
  rw [← List.map_flatMap, partBytes_zip va hlen] at h
  have hkeys : (ps.zip bs).map (fun e => e.1.key / 64) = ps.map (fun p => p.key / 64) := by
    rw [← List.map_fst_zip (Nat.le_of_eq hlen), List.map_map, List.map_fst_zip (Nat.le_of_eq hlen)]
    rfl
  rwa [hkeys] at h

end

theorem reread_unacked (x : Context) (lines : List Nat) : (x.reread lines).unacked = x.unacked := by
  have h := congrArg Context.unacked (reread_rest lines x)
  exact h

/-- A context that counts an access more leaves its core otherwise as it was. -/
theorem WrittenLines.core_updMe {lines : List Nat} {s t : State} (h : WrittenLines lines s t) (f : Context → Context) (c : Nat) :
    { (t.updMe f).core c with l1 := (s.core c).l1, ctxs := (s.core c).ctxs } = s.core c ∧
      ∀ l ∈ ((t.updMe f).core c).l1, l ∈ (s.core c).l1 := by
  unfold State.updMe State.updHere
  by_cases hc : c = t.cur.core
  · subst hc
    rw [core_updCore]
    exact ⟨h.core _, h.copies _⟩
  · rw [core_updCore_ne _ _ hc]
    exact ⟨h.core c, h.copies c⟩

theorem WrittenLines.ctxs_updMe {lines : List Nat} {s t : State} (h : WrittenLines lines s t) (f : Context → Context) {c : Nat}
    {x : Fin 11}
    (hne : c ≠ s.cur.core ∨ x ≠ s.cur.ctx) : ((t.updMe f).core c).ctxs[x] = (s.core c).ctxs[x].reread lines := by
  rw [← h.ctxs]
  rw [← h.cur] at hne
  unfold State.updMe State.updHere
  by_cases hc : c = t.cur.core
  · subst hc
    rw [core_updCore]
    have hx : (t.cur.ctx : Nat) ≠ x := fun e => hne.elim (absurd rfl) (absurd (Fin.ext e.symm))
    exact Vector.getElem_set_ne t.cur.ctx.isLt x.isLt hx
  · rw [core_updCore_ne _ _ hc]

theorem WrittenLines.me {lines : List Nat} {s t : State} (h : WrittenLines lines s t) : t.me = s.me.reread lines := by
  unfold State.me State.here
  rw [h.ctxs, h.cur]

/-- Settles O17: a write is the pokes and the held writes of its runs, each of which leaves the bytes of the others; a store is the writes
of its lines, each of which wakes those that wait for it, and then counts itself. -/
theorem storedBytes : Obligations.StoredBytes := by
  refine ⟨fun s ps bs hm hlen hnodup hps => ?_, fun s va pc ps bs hm hbad hlen hnodup hps hupd => ?_⟩
  · have hkeys : (ps.zip bs).map Prod.fst = ps := List.map_fst_zip (Nat.le_of_eq hlen)
    have hw := Writes.writePlaces hm (.zip hlen hnodup hps) none
    refine ⟨fun hfree i hi => ?_, fun hfoot => ⟨fun i hi => ?_, ?_⟩, fun x hx ha hne => ?_⟩
    · have hf : s.Free ps[i] := .inr (hfree _ (List.getElem_mem hi)).2
      exact hw.reads (ps[i], bs.getD i 0) (mem_zip_getElem hlen hi) hf
    · have hf : s.Free ps[i] := .inl (hfoot _ (List.getElem_mem hi))
      exact hw.reads (ps[i], bs.getD i 0) (mem_zip_getElem hlen hi) hf
    · exact bankByte_writePlaces (fun e he => hfoot _ (List.of_mem_zip he).1) none
    · exact hw.keeps x hx (by rwa [hkeys]) (by rwa [hkeys])
  · have hkeys : (ps.zip bs).map Prod.fst = ps := List.map_fst_zip (Nat.le_of_eq hlen)
    have hw := Writes.storeHome va hlen pc hm hbad hupd (.zip hlen hnodup hps)
    have hl := WrittenLines.parts (s := s) va hlen
    refine ⟨fun i hi hfree => ?_, fun x hx ha hne => ?_, fun c => ?_, fun c x hne => ?_, ?_⟩
    · exact hw.reads (ps[i], bs.getD i 0) (mem_zip_getElem hlen hi) hfree
    · exact hw.keeps x hx (by rwa [hkeys]) (by rwa [hkeys])
    all_goals rw [storeHome_eq va pc hbad hupd]
    · exact hl.core_updMe _ c
    · exact hl.ctxs_updMe _ hne
    · rw [me_updMe, hl.me]
      exact congrArg (fun n => { s.me.reread (ps.map fun p => p.key / 64) with unacked := n + 1 }) (reread_unacked s.me _)

end Sys2Proof.Machine

end
